-- ==== Sys2Proof/Word.lean ====
section
/-! DEFINITION. The word types of the engine: 64-bit registers (00_scope.md), bytes of memory records, FP32 bit
patterns, and the numbers of nodes. Only the types stand here; every helper over them is in Machine/Bits.lean. -/
namespace Sys2Proof

/-- One byte of a memory record or a packet (R2, R3). -/
abbrev Byte := BitVec 8
/-- One register or one 8-byte field (00_scope.md: all registers are 64 bits wide). -/
abbrev W64 := BitVec 64
/-- The bits of an FP32 value (R5). -/
abbrev F32 := BitVec 32
/-- A node ID, R314: `[2:0]` slice, `[14:3]` package, `[22:15]` domain. Kept as the number those bits spell. -/
abbrev Node := Nat

end Sys2Proof
end

