-- ==== Sys2Proof/Syntax.lean ====
section
/-! DEFINITION. The commands of the block: one constructor of `Instr` per row of the table of commands, and the kinds
of operand they carry. A command carries what comes from outside the block: a register value, a record or a packet, the
outcome of a test or of a memory access. What the block itself computes is never an operand. -/
namespace Sys2Proof

/-- The two half-batches of a layer round (R18); bit 16 of a handle with 0 for Calico. -/
inductive Half where
  | calico
  | muslin
  deriving DecidableEq, Repr

/-- The monitored clocks of R46. -/
inductive Clock where
  | arith
  | ctrl
  | tref
  deriving DecidableEq, Repr

/-- How a memory request ended (R34, R35, R523). -/
inductive MemResult where
  /-- data or acknowledgement without error -/
  | ok
  /-- data, after ECC corrected so many words of it (R81) -/
  | corrected (words : Nat)
  /-- the host marked the response poisoned (R35) -/
  | poisoned
  /-- an uncorrectable data error (R34, R35) -/
  | uncorrectable
  /-- an error response to a write (R523) -/
  | error
  deriving DecidableEq, Repr

/-- A table, a list or other bytes in memory that the engine reads and then uses as a whole. -/
inductive TableRead where
  /-- a step plan at an address (R107) -/
  | plan (addr : Nat)
  /-- the layer scoring table with its group tables (R138) -/
  | keys
  /-- the layer selection table (R154) -/
  | sel
  /-- a directory image or the descriptors of its load (R245) -/
  | directory
  /-- a directory edit list of this slice (R246) -/
  | edits
  /-- a package edit list (R526) -/
  | packageEdits
  /-- a route image (R330) -/
  | route
  /-- a region table (R349) -/
  | regions
  /-- a microcode image (R475) -/
  | microcode
  /-- what a request to memory of a peer or of this slice reads: its target, or the bytes it sends (R352, R355, R357, R367) -/
  | request
  deriving DecidableEq, Repr

/-- What a memory request served, which decides what its failure means (R34, R35, R112, R145, R263, R424, R523). -/
inductive MemTarget where
  /-- a message write of a vector (R52) -/
  | irq (vector : Nat)
  /-- data of the sequence at a local index, read for a layer round (R35) -/
  | seqData (index layer : Nat)
  /-- a result write to the output ring of a sequence (R112 cause 4) -/
  | ringWrite (index layer : Nat)
  /-- an input vector of a half (R119) -/
  | input (half : Half) (index : Nat)
  /-- a projection image of a layer (R145); mirror: the mirror copy was read -/
  | projImage (half : Half) (layer : Nat) (mirror : Bool)
  /-- a bank image of a layer (R145) -/
  | bankImage (layer : Nat) (mirror : Bool)
  /-- a weight block on its way into tier 1 (R263) -/
  | weights (expert layer : Nat) (mirror : Bool)
  /-- a pool buffer of a context being saved or restored (R424) -/
  | ctxBuffer (ctx buffer : Nat)
  /-- the state area of a context (R424) -/
  | ctxState (ctx : Nat)
  /-- a request of the memory semantics unit for a peer (R352) -/
  | remote (tag : Nat)
  /-- a porter or collective buffer named by its operation -/
  | copy (id : Nat)
  /-- a table that is checked as a whole -/
  | table (t : TableRead)
  /-- anything else, such as a log write -/
  | other
  deriving DecidableEq, Repr

/-- A part of the key store: bank A or B (R141), or the projection area (R140). -/
inductive KeyArea where
  | bank (b : Bool)
  | proj
  deriving DecidableEq, Repr

/-- A read fault that scoring met on one token (R119, R143 to R145). -/
inductive ReadFault where
  /-- the input vector came back uncorrectable or poisoned -/
  | input
  /-- an uncorrectable word at an address of a key bank or of the projection area (R143) -/
  | keyWord (area : KeyArea) (addr : Nat)
  deriving DecidableEq, Repr

/-- Where an expert core writes through the aperture: stall SRAM (R37) or a receive view (R276). -/
inductive AperturePlace where
  | sram (offset : Nat)
  | view (half : Half) (offset : Nat)
  deriving DecidableEq, Repr

/-- What the two auctioneers found before a verdict left (R457). -/
inductive Lockstep where
  /-- they agree, or only one runs -/
  | agree
  /-- they disagree and auctioneer `which` (0 A, 1 B) flagged an internal error -/
  | flagged (which : Nat)
  /-- they disagree with no flag -/
  | silent
  deriving DecidableEq, Repr

/-- A hardware fault that the combine checker of R239 finds on one token. -/
inductive CombineFault where
  | none
  | weight
  | order
  | element
  | place
  deriving DecidableEq, Repr

/-- An SRAM word by what it holds (R447, R448). -/
inductive SramWord where
  /-- a key store word of a bank, R143 -/
  | keyStore (bank addr : Nat)
  /-- a stall SRAM word of a token record of a half: expert and stall offset -/
  | record (half : Half) (expert offset : Nat) (bank addr : Nat)
  /-- a stall SRAM word of a pool buffer -/
  | buffer (id : Nat) (bank addr : Nat)
  /-- keepers, bid space or verdict staging of a half -/
  | auction (half : Half) (bank addr : Nat)
  /-- the directory, undo table or descriptor cache entry of an expert -/
  | directory (expert : Nat)
  /-- a stall SRAM word that holds nothing of these -/
  | idle (bank addr : Nat)
  deriving DecidableEq, Repr

/-- What ECC reports of a word (R447, R448). -/
inductive EccOutcome where
  | clean
  | corrected
  | uncorrectable
  /-- the last word of a scrub pass was clean: the pass ends (R449) -/
  | passEnd
  deriving DecidableEq, Repr

/-- An item of the latent-fault table (R450). -/
inductive LatentItem where
  /-- a spare unit of kind 1 to 6 of the SPARE page -/
  | spare (kind index : Nat)
  /-- a checker, ledger comparator or the slot watchdog -/
  | checker (index : Nat)
  deriving DecidableEq, Repr

/-- A packet that a unit takes in, after the window and job checks: the header fields that the unit reads (R299), and
the payload. -/
structure Arrived where
  src : Node
  job : Nat
  seq : Nat
  prio : Nat
  arg : W64
  payload : List Byte
  deriving DecidableEq, Repr

/-- What a partner's IDENT words on an Ebsan edge carry (R476). -/
structure EdgeIdent where
  slice : Nat
  count : Nat
  bound : Bool
  lead : Nat
  deriving DecidableEq, Repr

/-- What the receiver of a frame knows beside its bytes. -/
structure FrameSide where
  /-- the lanes of the codewords that FEC could not correct (R295) -/
  blamed : List Nat
  /-- of each packet that ends in a frame on an Ebsan edge, the dimension through which it entered the package and the
  edges it has crossed (R333) -/
  beside : List (Option Nat × Nat)
  deriving DecidableEq, Repr

/-- What stands behind a write of DISC_NODE. -/
structure NodeWriter where
  /-- the VALID ID of the package's lead slice, where it has one (R322) -/
  lead : Option Node
  /-- the lead makes the write by item 4 of R321, not the host -/
  auto : Bool
  deriving DecidableEq, Repr

/-- One command per row of the table of commands, with the operands that come from outside the block. -/
inductive Instr where
  /-- R10. A write to a register that has no row of its own takes effect by its access type, subject to the size, reserved-bit, range, absent, parked and unbound checks. -/
  | registerWrite (offset size : Nat) (v : W64)
  /-- R48. IKC_PORST_N going low resets the whole slice, clearing registers, repair maps, microcode banks, SRAM, time base and membership. -/
  | porstAssert
  /-- R48. Release of IKC_PORST_N with stable clocks starts built-in test; an early release keeps reset and records RESET_CLOCK. -/
  | porstRelease (clocksStable : Bool)
  /-- R49. IKC_SLRST_N going low resets one slice, which goes fail-silent while the others treat it as failed. -/
  | slrstAssert
  /-- R481. Release of IKC_SLRST_N starts built-in test and the warm-reset rejoin sequence. -/
  | slrstRelease (clocksStable : Bool)
  /-- R45. A change of IKC_ARITH_STEP and ARITH_CLK within a bell; a drop below the Scales' step marks running slots late with THROTTLE. -/
  | arithStepChange (step next : Nat)
  /-- R46. Loss or deviation of a clock is detected within 1 µs, records CLK_FAULT, drives the alarm to 0b10 and stops the heartbeat for a CTRL_CLK fault. -/
  | clkFault (clock : Clock)
  /-- R47. An IKC_TSYNC pulse aligns each slice's time base to the lead's and makes the time master flood TIME. -/
  | tsyncPulse (leadTime : Nat)
  /-- R47. Three consecutive missing TSYNC pulses record TSYNC_LOST while the time base continues on TREF. -/
  | tsyncLost (missed : Nat)
  /-- R58. Removal of power from a slice; if it is not PARK_READY the package handles it as a dead slice. -/
  | powerRemove (slice : Nat)
  /-- R35. A response from a memory initiator port completes a request; a poisoned or uncorrectable response records MEM_UE and is handled as an uncorrectable data error of its target. -/
  | memResponse (addr port : Nat) (target : MemTarget) (result : MemResult)
  /-- R32. The acknowledgement of a memory write lets the engine issue the next write of an ordered chain. -/
  | memWriteAck (chain : Nat)
  /-- R34. A memory request without response within MEMP_TIMEOUT_US is reissued once on the next port; a second timeout fails the port and records MEM_TIMEOUT. -/
  | memTimeout (addr : Nat) (target : MemTarget)
  /-- R33. When the floor-short cycle count exceeds 2,000 within a bell, FLOOR_SHORT is recorded once for that bell. -/
  | floorShort
  /-- R37. An expert-core write through the aperture is accepted only inside a posted, uncompleted return buffer outside record prefixes; otherwise it is dropped and recorded. -/
  | apertureWrite (place : AperturePlace) (bytes : List Byte)
  /-- R52. A pending, unmasked vector is sent as a 64-bit memory write once every memory write it reports has been acknowledged. -/
  | irqMessageSend (vector : Nat)
  /-- R523. While the bell is STOPPED, a failed interrupt message is reissued 1 ms after the failure. -/
  | irqRetryTimer (vector : Nat)
  /-- R53. A write of IRQ_MASK masks or unmasks vectors; unmasking a pending vector sends its one merged message. -/
  | irqMaskWrite (v : W64)
  /-- R522. A write of IRQ_FORCE makes each named vector pending, for test. -/
  | irqForce (v : W64)
  /-- R521. A write of PAGE_IRQ_EN that enables a bit already set in PAGE_IRQ_RAW makes the page's vector pending. -/
  | irqEnableWrite (page : Nat) (v : W64)
  /-- R523. A write of IRQ_ADDRv or IRQ_DATAv of a vector with a failed message reissues the message at once. -/
  | irqAddrWrite (vector : Nat) (data : Bool) (v : W64)
  /-- R518. PAGE_CTL ERR_CLR empties PAGE_ERR_FIRST and sets PAGE_ERR_COUNT to zero. -/
  | errClr (page : Nat)
  /-- R517. PAGE_CTL STAGE_DISCARD withdraws every staged value of its page that is not yet in force. -/
  | stageDiscard (page : Nat)
  /-- R495. A read of a latched tally slot returns the tally of the bank in view and marks that bank read. -/
  | tallySlotRead (page slot : Nat)
  /-- R496. PAGE_TALLY_SEL CLR_UNREAD sets UNREAD to zero. -/
  | clrUnread (page : Nat)
  /-- R65. PBELL_GO GO arms the bell for the first scheduled bell at least 10 µs away, or stays STOPPED with BAD_STAGE. -/
  | pbellGo
  /-- R67. PBELL_GO HALT stops new bells; admitted work runs to its end and the state goes HALTING then STOPPED. -/
  | pbellHalt
  /-- R61. At least 2 µs before T(n) the lead sends the bell marker of bell n on the low-latency path. -/
  | bellMarkerSend
  /-- R61. A slice takes in a BELL marker and follows it, recording BELL_SKEW if its own schedule copy disagrees. -/
  | bellMarkerReceive (bell opens period : Nat)
  /-- R71. The lead window of bell n starts; plans posted later defer and context switches of R420 run. -/
  | leadWindowOpen
  /-- R60. The time base reaches T(n): bell n opens, staged values, tables, edits, retirements, swaps and plans take effect and tallies latch. -/
  | bellOpen
  /-- R527. Within 21 µs of bell open the lead sets the reference digest and marks differing or missing slices in DIRCTL_SPLIT. -/
  | dirDigestCompare (digests : List (Nat × W64))
  /-- R78. The Scales finish sampling and let in the longest fitting prefix of candidates in each half. -/
  | scalesComplete
  /-- R90. A BELL_LAYER_IN doorbell takes effect, is held, ignored as DOORBELL_DUP, or dropped as LAYER_ORDER or LAYER_RANGE. -/
  | layerIn (v : W64)
  /-- R21. When every admitted token of a half has its result and status written, the engine rings LAYER_OUT. -/
  | layerOut (half : Half)
  /-- R72. BELL_PLAN POST posts a step plan for a bell, deferring it if inside the lead window or beyond 16 plans. -/
  | bellPlanPost (v : W64)
  /-- R107. Within 1.5 µs of posting the engine reads and checks the plan and sets its status QUEUED or REJECTED. -/
  | planCheckDone
  /-- R84. A slot's engine time exceeds its promise; the engine records SLOT_LATE, sends a late notice and sets LATE in its tokens. -/
  | slotLate (half : Half)
  /-- R83. A LATE message for a bell, layer and half arrives, giving a later-late slot the cause PEER. -/
  | lateNoticeReceive (bell layer : Nat) (half : Half)
  /-- R114. A write of SEQ_HASH_IN computes H64 of the ID into SEQ_HASH_OUT. -/
  | seqHashIn (v : W64)
  /-- R128. The tiles finish projecting and scoring one token and hand its candidates, or a token-error marker, to the selector. -/
  | tokenScore (half : Half) (ue : Option ReadFault)
  /-- R148. The spare tile's recomputation of a sampled token is compared bit for bit; a mismatch taints tokens and schedules the tile self-test. -/
  | shadowCompare (half : Half) (equal : Bool)
  /-- R445. The tile self-test after a shadow mismatch ends, fencing failed tiles or deeming the fault transient. -/
  | tileSelfTestDone (failed : List Nat)
  /-- R444. Every 100 µs each tile computes 32 fixed rows and compares them with reference bits, fencing a failing tile. -/
  | tilePatternTest (tile : Nat) (pass : Bool)
  /-- R138. A write of KEYS_TABLE stages a layer scoring table and starts its check, or with base 0 withdraws a staged table. -/
  | keysTableWrite (v : W64)
  /-- R138. The layer scoring table check ends, passing the table for the next bell open or failing with KEY_TABLE_BAD. -/
  | keysCheckDone
  /-- R141. A bank image load into key bank A or B completes, making the layer's image valid and releasing held LAYER_INs. -/
  | bankImageLoadDone (bankB : Bool) (ok : Bool)
  /-- R143. The refetch of an image part completes and affected dot products restart from their first block. -/
  | keyRefetchDone (area : KeyArea) (addr : Nat)
  /-- R154. A write of SEL_TABLE stages a layer selection table and starts its check. -/
  | selTableWrite (v : W64)
  /-- R154. The layer selection table check ends, passing the table or failing with SEL_TABLE_BAD. -/
  | selCheckDone
  /-- R157. The selector forms a token's effective scores and choice list, granting open stalls and shared experts at the source. -/
  | tokenSelect (half : Half) (checkerOk : Bool)
  /-- R165. After its last bid of a round and the last shadow comparison, the source sends a bid-close with its record count to every slice of the source set. -/
  | bidCloseSend (half : Half)
  /-- R169. A bid arriving at a home is merged into the stall's keeper, displacing or being refused with CAPACITY, NOT_RESIDENT or TOKEN_ERROR. -/
  | bidReceive (src : Node) (record : List Byte)
  /-- R164. A tie note arrives at a home and lets its token's waiting bids merge. -/
  | tieNoteReceive (src : Node) (half : Half) (bell layer round : Nat) (record : List Byte)
  /-- R169. A bid-close arrives at a home and is counted; a second one for the round is discarded with AUC_CLOSE_COUNT. -/
  | bidCloseReceive (src : Node) (record : List Byte)
  /-- R173. A source's bid space stays full over 300 ns in a round; the home records AUC_BID_SKEW and sends a late notice. -/
  | bidSkew (src : Nat) (half : Half)
  /-- R169. With every bid-close, count and merge in hand, the home grants keeper entries in order, sends reservation notices and verdicts. -/
  | auctionRoundClose (half : Half) (lockstep : Lockstep)
  /-- R174. A round not closed within AUC_CLOSE_TO is ended, refusing every bid with TOKEN_ERROR and granting nothing. -/
  | aucCloseTimeout (half : Half)
  /-- R170. A verdict packet arrives at the source; each verdict is matched to an awaiting bid or discarded with AUC_VERDICT_EXTRA. -/
  | verdictReceive (home : Node) (bell layer : Nat) (half : Half) (round : Nat) (verdict : W64)
  /-- R178. With all verdicts of a round in hand the source folds them, forming spill bids or cap releases. -/
  | roundFold (half : Half)
  /-- R184. The gate unit completes a half's weights, writes the weight list and the return area is mapped onto free frames. -/
  | gateWeightsDone (half : Half)
  /-- R179. A release arrives at an auction home and is counted as a CAP_PER_TOKEN refusal. -/
  | releaseReceiveHome (src : Node) (record : List Byte)
  /-- R199. A release arrives at a compute site, lowering its counters and marking the offset empty, or is rejected as RELEASE_FILLED. -/
  | releaseReceiveSite (src : Node) (record : List Byte)
  /-- R199. A reservation notice arrives at a site and adds to its arrival counters; a FINAL is held. -/
  | reservationNoticeReceive (home : Node) (record : List Byte)
  /-- R260. A readiness record arrives at a home and sets the replica's ready bit in the stall's tag slot. -/
  | readinessRecordReceive (record : List Byte)
  /-- R213. The TOK sender, serving one half at a time, sends the next forward or return chunk of a barrow. -/
  | tokChunkSend
  /-- R208. A forward chunk arrives at a site, is checked by tag and CRC, placed and counted. -/
  | tokChunkReceive (src : Node) (tag : W64) (bytes : List Byte) (crc : BitVec 32)
  /-- R215. A waiting pool request is served when a buffer frees. -/
  | poolRequestGrant (cls : Nat)
  /-- R215. A pool request waiting over 100 µs records POOL_STARVED once per bell. -/
  | poolStarved (cls : Nat)
  /-- R275. The tile list writer cuts a ready unit into tiles, takes return buffers and a counter, writes descriptors and rings the doorbell. -/
  | tilePost
  /-- R278. A core writes TILE_HEAD to report consumption of a list; a bad head is dropped as TILE_BAD_HEAD. -/
  | tileHead (v : W64)
  /-- R282. A core writes a completion notice; a matching tile completes, counting down its unit, or the notice is dropped as TILE_BAD_DONE. -/
  | tileDone (v : W64)
  /-- R283. A tile not completed within TIMEOUT_US completes tainted and its return buffer is quarantined. -/
  | tileTimeout (list index : Nat)
  /-- R286. TILE_QUAR RELEASE frees every quarantined return buffer. -/
  | tileQuarRelease (v : W64)
  /-- R228. A return chunk arrives at the source, is checked and fills its token's place, counting T_i down. -/
  | returnChunkReceive (src : Node) (tag : W64) (bytes : List Byte) (crc : BitVec 32)
  /-- R230. The return timer expires with places unfilled; those tokens are tainted and withheld. -/
  | returnTimeout (half : Half)
  /-- R231. The combine unit sums a ready token's outputs in fixed order, checks it and writes its result record. -/
  | tokenCombine (half : Half) (fault : CombineFault)
  /-- R245. A write of RES_DIR starts a full directory image load, or is dropped as DIR_BUSY while running. -/
  | resDirWrite (v : W64)
  /-- R245. The directory image load, check and descriptor reads end with the directory loaded or failed. -/
  | resDirLoadDone
  /-- R246. A write of RES_EDIT posts a directory edit list for checking. -/
  | resEditWrite (v : W64)
  /-- R246. The edit list check ends, queuing the list for a bell open or rejecting it. -/
  | resEditCheckDone
  /-- R270. A write of RES_DESC sets the descriptor table base, holds it for an armed model switch, or is dropped as DIR_BUSY. -/
  | resDescWrite (v : W64)
  /-- R258. A write of RES_HINT posts a hint list that is read at the next bell open. -/
  | resHintWrite (v : W64)
  /-- R257. A queued fetch starts as a porter copy in planner order, evicting a block if the quota needs room. -/
  | residencyFetchStart
  /-- R252. A block fetch completes and the block becomes RESIDENT, releasing held stall halves. -/
  | residencyFetchDone (expert layer : Nat)
  /-- R265. Within 50 µs of a dead-slice verdict the lead sends a dead-slice notice with the rehoming bell. -/
  | deadNoticeSend (slice : Nat)
  /-- R267. A DEAD notice arrives; the slice ends work in flight with the dead slice as home, site and source. -/
  | deadNoticeReceive (source rehomeBell : Nat)
  /-- R288. The link sends the next 1,024 B frame with its header, control words, body and CRC. -/
  | linkFrameSend (port : Nat)
  /-- R292. A frame arrives and its CRC is checked; a bad frame triggers a NAK and go-back-N replay. -/
  | linkFrameReceive (port : Nat) (bytes : List Byte) (corrected : List (Nat × Nat)) (side : FrameSide)
  /-- R296. Loss of PHY lock for 1 µs fails the port. -/
  | phyLockLoss (port : Nat)
  /-- R294. Link training of a port ends with its round trip measured, marking it LONG above 340 ns. -/
  | linkTrainDone (port rtt : Nat) (farNode farPort : Nat)
  /-- R331. The router decides a packet's next hop by DEST and epoch and sends it cut-through when credits allow. -/
  | packetForward (index : Nat)
  /-- R309. A packet without adaptive credit for ESC_WAIT moves to its class escape route. -/
  | escWaitTimeout (index : Nat)
  /-- R305. An ACK record completes outstanding SEQs below BASE and the SEQ named. -/
  | ackReceive (src : Node) (record : List Byte)
  /-- R302. A NAK_CRC record makes the sender resend the named packet. -/
  | nakCrcReceive (src : Node) (record : List Byte)
  /-- R302. A NAK_SPAN record makes the sender resend once BASE comes within 1,024. -/
  | nakSpanReceive (src : Node) (record : List Byte)
  /-- R305. A BARROW record acknowledges a barrow end to end, ending the source's forward interval or a return. -/
  | barrowAckReceive (src : Node) (record : List Byte)
  /-- R303. A SKIP record makes the receiver advance past the skipped SEQ. -/
  | skipReceive (src : Node) (record : List Byte)
  /-- R302. With no acknowledgement within RETX_US the sender resends the packet, up to RETRIES times. -/
  | retxTimeout (dest : Node) (cls seq : Nat)
  /-- R303. After retries and a further wait without ACK, the sender records E2E_LOST and sends SKIP. -/
  | e2eLost (dest : Node) (cls seq : Nat)
  /-- R303. A SKIP is resent every RETX_US until an ACK beyond the SEQ arrives. -/
  | skipResend (dest : Node) (cls seq : Nat)
  /-- R318. The once-per-reset write of the slice identity; a second write is dropped as DISC_ONCE. -/
  | discIdentWrite (v : W64)
  /-- R318. The once-per-reset write of the incarnation; a second write is dropped as DISC_ONCE. -/
  | discIncarnWrite (v : W64)
  /-- R318. DISC_CTL START starts discovery, or is dropped with DISC_NO_IDENT while identity is unwritten. -/
  | discStart (v : W64)
  /-- R322. A write of DISC_NODE sets the node ID or is dropped as DISC_NODE_BAD. -/
  | discNodeWrite (v : W64) (by_ : NodeWriter)
  /-- R319. Every ELECT_US a slice sends ELECT with its best identity on each UP port. -/
  | electSend
  /-- R320. An ELECT report arrives and the slice recomputes its best identity, hops and parent port. -/
  | electReceive (port : Nat) (payload : List Byte)
  /-- R320. A report older than 3 × ELECT_US ages out and the best identity is recomputed. -/
  | electReportExpire (port : Nat)
  /-- R321. A settled lead sends CLAIM on its parent port every 8 × ELECT_US until it holds an ID. -/
  | claimSend
  /-- R321. A CLAIM is relayed toward the coordinator or kept by it. -/
  | claimReceive (port : Nat) (payload : List Byte)
  /-- R321. After 16 × ELECT_US with no new claim the coordinator numbers claims and floods ASSIGN. -/
  | assignNumbering
  /-- R321. An ASSIGN record is flooded on, and a matching lead writes DISC_NODE on its package's slices. -/
  | assignReceive (port : Nat) (payload : List Byte)
  /-- R323. A slice originates a link-state beacon periodically, on port state change and when its ID is set. -/
  | lsbOriginate
  /-- R323. A link-state beacon is stored and flooded on if newer, resetting windows on a new incarnation. -/
  | lsbReceive (port : Nat) (payload : List Byte)
  /-- R326. A write of DISC_PATH sends a PATH_OP from a MANAGER slice. -/
  | pathOpSend (v : W64)
  /-- R327. A PATH_OP hop forwards it, or the target applies the register access and replies. -/
  | pathOpReceive (port : Nat) (payload : List Byte)
  /-- R327. The origin writes a PATH_OP reply over the operation and raises the DISC vector. -/
  | pathOpReplyReceive (payload : List Byte)
  /-- R327. With no reply within 100 µs the origin writes status TIMEOUT. -/
  | pathOpTimeout
  /-- R328. An MGR_MAIL is written to the mail ring or dropped when it is full. -/
  | mgrMailReceive (payload : List Byte)
  /-- R339. A write of ROUTE_IMAGE loads an image into the non-LIVE version, or is refused with ROUTE_EPOCH_BUSY. -/
  | routeImageWrite (v : W64)
  /-- R330. The route image check ends with the version READY, LIVE or FAILED. -/
  | routeImageCheckDone
  /-- R340. A write of ROUTE_SWITCH AT arms or disarms a route epoch switch. -/
  | routeSwitchWrite (v : W64)
  /-- R340. While the bell is STOPPED an armed switch takes effect when the time base reaches AT. -/
  | routeSwitchAt
  /-- R341. A DRAINING route version becomes EMPTY 2 × MAX_FLIGHT_US after the switch. -/
  | routeDrainEnd
  /-- R349. A write of MSEM_REGIONS stages a region table and starts its check. -/
  | msemRegionsWrite (v : W64)
  /-- R349. The region table check ends, applying the table at once or at a bell open, or recording MSEM_REGION_BAD. -/
  | msemRegionsCheckDone
  /-- R357. A write of MSEM_TAIL announces new commands in the MSEM command ring. -/
  | msemTail (v : W64)
  /-- R357. A ring LOAD command issues a remote LOAD of up to 64 lines. -/
  | msemCmdLoad
  /-- R357. A ring STORE command issues a remote store of whole lines. -/
  | msemCmdStore
  /-- R357. A ring STORE_MASKED command issues a masked store of one line. -/
  | msemCmdStoreMasked
  /-- R357. A ring STORE_COUNT command issues a store that adds to a destination semaphore. -/
  | msemCmdStoreCount
  /-- R357. A ring ADD command issues a remote 64-bit atomic add. -/
  | msemCmdAdd
  /-- R357. A ring MIN_S command issues a remote signed atomic minimum. -/
  | msemCmdMinS
  /-- R357. A ring MAX_S command issues a remote signed atomic maximum. -/
  | msemCmdMaxS
  /-- R357. A ring MIN_U command issues a remote unsigned atomic minimum. -/
  | msemCmdMinU
  /-- R357. A ring MAX_U command issues a remote unsigned atomic maximum. -/
  | msemCmdMaxU
  /-- R357. A ring CAS command issues a remote compare-and-swap. -/
  | msemCmdCas
  /-- R357. A ring FADD32 command issues a remote FP32 atomic add. -/
  | msemCmdFadd32
  /-- R358. A ring FENCE command takes its point and blocks later ring commands until it completes. -/
  | msemCmdFence
  /-- R358. A fence completes when all SEQs up to its point are acknowledged or skipped and all REQs have responses or failed. -/
  | fenceComplete (id : Nat)
  /-- R352. A LOAD request at the destination reads its lines after the R350 checks, registering a KEEP holder. -/
  | reqLoad (p : Arrived)
  /-- R352. A STORE request at the destination writes whole lines after invalidating holders. -/
  | reqStore (p : Arrived)
  /-- R352. A STORE_MASKED request writes the masked bytes of a line. -/
  | reqStoreMasked (p : Arrived)
  /-- R352. A STORE_COUNT request writes lines and then adds to a semaphore. -/
  | reqStoreCount (p : Arrived)
  /-- R352. An ADD request applies an atomic add and returns the old value. -/
  | reqAdd (p : Arrived)
  /-- R352. A MIN_S request applies a signed atomic minimum. -/
  | reqMinS (p : Arrived)
  /-- R352. A MAX_S request applies a signed atomic maximum. -/
  | reqMaxS (p : Arrived)
  /-- R352. A MIN_U request applies an unsigned atomic minimum. -/
  | reqMinU (p : Arrived)
  /-- R352. A MAX_U request applies an unsigned atomic maximum. -/
  | reqMaxU (p : Arrived)
  /-- R352. A CAS request applies an atomic compare-and-swap. -/
  | reqCas (p : Arrived)
  /-- R352. A FADD32 request applies an IEEE FP32 atomic add. -/
  | reqFadd32 (p : Arrived)
  /-- R364. A STUB keeps the destination window whole for a combined contributor and gets no response. -/
  | reqStub (p : Arrived)
  /-- R370. A LOAD_GW at the gateway slice is relayed as a FWD LOAD on the gateway-role port. -/
  | reqLoadGw (p : Arrived)
  /-- R370. A STORE_GW at the gateway slice is relayed as a FWD STORE on the gateway-role port. -/
  | reqStoreGw (p : Arrived)
  /-- R351. A FWD request from a forwarding region or gateway is served and answered to the original source. -/
  | fwdRequestReceive (type : Nat) (p : Arrived)
  /-- R362. An invalidation is written to the holder's ring, or sets OVERFLOW, and is answered at once. -/
  | invalidateReceive (p : Arrived)
  /-- R355. A response completes its request, writing data, status and semaphore, or fanning out to combined contributors. -/
  | rspReceive (p : Arrived)
  /-- R371. A request without response within MSEM_TIMEOUT fails with TIMEOUT and is escalated to the manager. -/
  | remoteTimeout (tag : Nat)
  /-- R373. A write of MSEM_TEARDOWN stops and fails the job's requests, copies and sequences and clears it from ROUTE_JOBS. -/
  | jobTeardown (v : W64)
  /-- R366. A write of PORTER_TAIL announces porter copy descriptors. -/
  | porterTail (v : W64)
  /-- R367. The porter issues the next request of a copy in flight in round robin. -/
  | porterRequestIssue
  /-- R378. COLL_CREATE CREATE checks a group, allocates its staging and starts joining. -/
  | collCreate (v : W64)
  /-- R379. COLL_CREATE DESTROY frees a group's staging and sets it FREE, or is refused with COLL_BUSY. -/
  | collDestroy (v : W64)
  /-- R378. A joining member sends JOIN to member 0 every 100 µs until READY arrives. -/
  | joinSend (group : Nat)
  /-- R378. Member 0 records a JOIN and, when all have joined, sends READY with the digest status. -/
  | joinReceive (p : Arrived)
  /-- R378. A READY makes the group READY or FAILED with COLL_JOIN_MISMATCH. -/
  | readyReceive (p : Arrived)
  /-- R378. A member not READY within CREATE_MS goes FAILED with COLL_TIMEOUT. -/
  | collCreateTimeout (group : Nat)
  /-- R380. A write of COLL_TAIL announces collective descriptors, which are checked and queued on their groups. -/
  | collTail (v : W64)
  /-- R381. A queued collective operation starts when its group has room, its predecessors started and its trigger is met. -/
  | collOpStart (group : Nat)
  /-- R381. An operation completes, writing OUT, status and sequence and adding to DONE_SEM. -/
  | collOpComplete (group seq : Nat)
  /-- R385. A PULL is answered with DATA and END when the chunk is ready, held in the pull table, or answered RETRY. -/
  | pullReceive (p : Arrived)
  /-- R386. A collective DATA packet lands in reserved staging and is counted. -/
  | dataReceive (p : Arrived)
  /-- R386. With all bytes in, the chunk CRC and order are checked and the chunk released and acknowledged or pulled again. -/
  | endReceive (p : Arrived)
  /-- R386. An ACK lets the sender release a chunk once every puller has acknowledged. -/
  | collAckReceive (p : Arrived)
  /-- R385. A RETRY makes the puller resend its PULL after 1 µs. -/
  | retryReceive (p : Arrived)
  /-- R385. 1 µs after a RETRY the puller sends the PULL again. -/
  | pullRetry (group seq chunk : Nat)
  /-- R387. An ABORT stops the operation, frees its pulls and completes it with the carried status. -/
  | abortReceive (p : Arrived)
  /-- R388. An operation's progress timer expires and the member aborts with TIMEOUT. -/
  | collProgressTimeout (group seq : Nat)
  /-- R392. A TIME flood is forwarded and a lead slews its time base toward it. -/
  | timeReceive (p : Arrived)
  /-- R393. A LOAD flood updates the global tally table. -/
  | loadReceive (p : Arrived)
  /-- R394. An LLR partial is added at its exchange step, advancing the LL_ALLREDUCE to its OUT write. -/
  | llrReceive (p : Arrived)
  /-- R405. The determinism unit completes a half's five digests, writes the half record and sends it to the partner. -/
  | halfDigestDone (half : Half)
  /-- R409. A partner's half record arrives and is compared with the local one, recording DET_SET_DIFF or DET_DIVERGE. -/
  | detDigestReceive (record : List Byte)
  /-- R411. A local record unmatched within TIMEOUT_US is dropped with DET_PAIR_LOST. -/
  | detPairTimeout
  /-- R413. DET_DIV_CLR clears the latched divergence. -/
  | detDivClr (v : W64)
  /-- R419. CTX_CREATE CREATE checks and creates a context, taking its frames or save area. -/
  | ctxCreate (v : W64)
  /-- R428. CTX_CREATE DESTROY fails the context's work and frees its resources. -/
  | ctxDestroy (v : W64)
  /-- R423. The drain of a stopping context's packets ends. -/
  | ctxDrainEnd (c : Nat)
  /-- R425. A context's frame and state saves end and it becomes SAVED. -/
  | ctxSaveDone (c : Nat)
  /-- R420. A context switch completes; if after the Scales sampled, CTX_SWITCH_LATE is recorded. -/
  | ctxSwitchDone
  /-- R425. A write of CTX_URGENT pre-empts the named contexts at once, saving their frames whole. -/
  | ctxUrgent (v : W64)
  /-- R429. A write of CTX_MODEL_AT arms or disarms a model switch. -/
  | ctxModelAtWrite (v : W64)
  /-- R429. The model switch starts on a slice when its last old-model round ends. -/
  | modelSwitchStart
  /-- R429. The model switch ends when checks, loads and bank images are done. -/
  | modelSwitchDone
  /-- R439. A W1C write of SAFE_CAUSE clears fault bits, refused with CLEAR_REFUSED while the fenced unit is unretired. -/
  | safeCauseClear (v : W64)
  /-- R446. The slot watchdog finds a half 20 µs past its promise without LATE and sets it. -/
  | wdogOverrun (half : Half)
  /-- R449. The scrubber reads an SRAM word in an idle bank cycle and corrects or reports it. -/
  | scrubRead (word : SramWord) (outcome : EccOutcome)
  /-- R450. A periodic latent-fault test of a spare or checker runs, recording LATENT_FAIL or CHECKER_FAIL on failure. -/
  | latentTest (item : LatentItem) (pass : Bool)
  /-- R458. A microcode controller flags an error and is fenced; a silent disagreement is an internal control failure. -/
  | mcodeCtrlError (controller : Nat) (flagged : Bool)
  /-- R459. The slice stops sending on every edge and port, stops the heartbeat and holds the alarm. -/
  | failSilent (cause : Nat)
  /-- R460. An Ebsan edge silent for 40 µs makes the slice send a silence note. -/
  | edgeSilence (edge : Nat)
  /-- R460. A silence note is relayed and, when all partners agree, the slice is found dead and a lead elected if needed. -/
  | silenceNoteReceive (silent reporter : Nat)
  /-- R456. A write of SPARE_RETIRE marks a unit for retirement, or is refused with SPARE_EXHAUSTED. -/
  | spareRetire (v : W64)
  /-- R463. PSAFE_RETIRE GO retires a live slice at the next bell open, or is refused. -/
  | psafeRetire (v : W64)
  /-- R470. Built-in test ends, setting DONE and going to MAP_WAIT or FAILED. -/
  | bistDone (failed : List (Nat × Nat)) (micros : Nat)
  /-- R472. A write of SLC_REPAIR loads and checks a repair map, starting the heartbeat when accepted. -/
  | slcRepair (v : W64)
  /-- R473. A write of SLC_MAPOUT writes the repair map or BIST failures to memory. -/
  | slcMapout (v : W64)
  /-- R51. SLC_UNIT_RST GO resets a retired unit, or is refused with UNIT_ACTIVE. -/
  | slcUnitRst (v : W64)
  /-- R475. A once-per-reset write of a microcode digest word. -/
  | mcodeExpectWrite (slot word : Nat) (v : W64)
  /-- R475. A write of MCODE_LOAD starts loading and hashing an image into the bank not in force. -/
  | mcodeLoad (v : W64)
  /-- R475. The image hash ends, making the bank ACCEPTED or FAILED, and in MCODE_WAIT bringing it into force. -/
  | mcodeHashDone
  /-- R485. A write of MCODE_SWITCH arms or disarms a microcode bank switch. -/
  | mcodeSwitchWrite (v : W64)
  /-- R476. A once-per-reset write of EBS_CFG starts Ebsan edge training in BINDING. -/
  | ebsCfgWrite (v : W64)
  /-- R476. A mismatched or down edge is retried every 1 ms. -/
  | ebsEdgeRetry (edge : Nat) (ident : Option EdgeIdent)
  /-- R477. When all slices join or EBS_WAIT_MS passes, a majority component becomes the package engine and elects its lead. -/
  | packageBind (component : List Nat) (boundLead : Option Nat)
  /-- R482. LEAD_MOVE GO moves the lead at the next bell open, or is refused with LEAD_BAD. -/
  | leadMove (v : W64)
  /-- R506. A write of TRACE_MARK emits a MARK trace item. -/
  | traceMark (v : W64)
  /-- R501. In an idle memory cycle the FIFO drains one 64 B line to the ring and advances TRACE_WPTR. -/
  | traceLineWrite
  /-- R501. A partial line held 1 µs is padded with zero words and written. -/
  | traceLinePad
  /-- R507. A write of PTIME_SET steps the lead's time base while STOPPED, or is dropped as TIME_SET_BUSY. -/
  | ptimeSet (v : W64)
  /-- R526. A write of DIRCTL_EDIT posts one edit list to every bound slice of the package. -/
  | dirctlEdit (v : W64)
  /-- R526. When all slices' checks end the package list is queued for one bell open or refused with DIR_EDIT_REFUSED. -/
  | dirctlCheckDone (results : List (Nat × Nat × Nat))
  /-- R478. A Felano port that is DOWN starts training again every 1 ms. -/
  | portTrainRetry (port : Nat)
  /-- R301. A packet that waits in a buffer until its age exceeds MAX_FLIGHT_US is discarded there, counted in EXPIRED and recorded as PKT_EXPIRED once per bell. -/
  | packetExpiry (index : Nat)
  /-- R324. A link-state database entry whose last update is older than 3 × LSB_MS stops being FRESH, and the DISC_STAT FRESH count falls. -/
  | lsdbFreshExpire (node : Node)
  /-- R55. While the lock-stepped microcode controllers agree, IKC_HBEAT toggles every 5 µs to form the 100 kHz square wave. -/
  | heartbeatEdge
  deriving DecidableEq, Repr

end Sys2Proof
end

