-- ==== Sys2Proof/Decode.lean ====
section
/-! DEFINITION. The reading of commands from words. The table of commands gives bits to no row, so no word spells a
command. -/
namespace Sys2Proof

/-- The command that a word spells by the table's bits: no row has bits. -/
def decodeTableWord (_nbits _w : Nat) : Option Instr := none

end Sys2Proof
end

