-- ==== Sys2Proof/Machine/Bits.lean ====
section
/-! DEFINITION. Bit fields, byte order and checksums: the little helpers every record of the engine is read and
written with (R2, R3, R96, R102, R207, R289). -/
namespace Sys2Proof.Machine

/-- The field `[hi:lo]` of a number, both ends inclusive (00_scope.md, bit ranges). -/
def bits (v hi lo : Nat) : Nat := (v >>> lo) % 2 ^ (hi + 1 - lo)

/-- `v` with its field `[hi:lo]` replaced by the low bits of `x`. -/
def setBits (v hi lo x : Nat) : Nat :=
  v - bits v hi lo * 2 ^ lo + (x % 2 ^ (hi + 1 - lo)) * 2 ^ lo

/-- A Boolean as the number of its bit. -/
def b2n : Bool → Nat
  | true => 1
  | false => 0

/-- `⌈a / b⌉`; 0 when `b` is 0. -/
def ceilDiv (a b : Nat) : Nat := if b = 0 then 0 else (a + b - 1) / b

/-- The little-endian number of a byte list (R3). -/
def leNat : List Byte → Nat
  | [] => 0
  | b :: t => b.toNat + 256 * leNat t

/-- The `n` little-endian bytes of a number (R3). -/
def leBytes : Nat → Nat → List Byte
  | 0, _ => []
  | n + 1, v => BitVec.ofNat 8 v :: leBytes n (v / 256)

/-- Bytes `off` to `off + n - 1` of a record, as a little-endian number; bytes beyond its end read as 0. -/
def fieldAt (r : List Byte) (off n : Nat) : Nat := leNat ((r.drop off).take n)

/-- The least power of two above is not needed by any rule; `Nat.log2` gives `floor(log2 n)` for `n > 0`. -/
def xor64 (a b : W64) : W64 := a ^^^ b

/-- H64 of R96, the mixing function, modulo 2^64. -/
def h64 (x : W64) : W64 :=
  let h1 := (x ^^^ (x >>> 30)) * 0xBF58476D1CE4E5B9#64
  let h2 := (h1 ^^^ (h1 >>> 27)) * 0x94D049BB133111EB#64
  h2 ^^^ (h2 >>> 31)

/-- One bit step of the CRC-8 of R102. -/
def crc8Bit (c : Byte) : Byte := if c.msb then (c <<< 1) ^^^ 0x07#8 else c <<< 1

/-- One byte step of the CRC-8 of R102. -/
def crc8Step (c b : Byte) : Byte :=
  crc8Bit (crc8Bit (crc8Bit (crc8Bit (crc8Bit (crc8Bit (crc8Bit (crc8Bit (c ^^^ b))))))))

/-- The CRC-8 of R102 over bytes taken in order: polynomial 0x07, initial value 0xFF, no reflection, no final XOR. -/
def crc8 (bs : List Byte) : Byte := bs.foldl crc8Step 0xFF#8

/-- One bit step of the reflected CRC-32C (R207): 0x82F63B78 is 0x1EDC6F41 reflected. -/
def crc32cBit (c : BitVec 32) : BitVec 32 := if c.getLsbD 0 then (c >>> 1) ^^^ 0x82F63B78#32 else c >>> 1

/-- One byte step of the CRC-32C. -/
def crc32cStep (c : BitVec 32) (b : Byte) : BitVec 32 :=
  crc32cBit (crc32cBit (crc32cBit (crc32cBit (crc32cBit (crc32cBit (crc32cBit (crc32cBit
    (c ^^^ b.setWidth 32))))))))

/-- CRC-32C of R207: reflected Castagnoli polynomial, initial value and final XOR 0xFFFF_FFFF. -/
def crc32c (bs : List Byte) : BitVec 32 := bs.foldl crc32cStep 0xFFFFFFFF#32 ^^^ 0xFFFFFFFF#32

/-- One bit step of the CRC-64 of R289 (ECMA-182, no reflection). -/
def crc64Bit (c : W64) : W64 := if c.msb then (c <<< 1) ^^^ 0x42F0E1EBA9EA3693#64 else c <<< 1

/-- One byte step of the CRC-64. -/
def crc64Step (c : W64) (b : Byte) : W64 :=
  crc64Bit (crc64Bit (crc64Bit (crc64Bit (crc64Bit (crc64Bit (crc64Bit (crc64Bit
    (c ^^^ (b.setWidth 64 <<< 56)))))))))

/-- CRC-64 of R289: initial value zero, no reflection, no final XOR. -/
def crc64 (bs : List Byte) : W64 := bs.foldl crc64Step 0#64

end Sys2Proof.Machine
end

