-- ==== Sys2Proof/Machine/Float.lean ====
section
/-! DEFINITION. The arithmetic of scores, weights and outputs, bit for bit: FP32 with round to nearest even (R5 to R7),
BF16 and the block formats (R120, R134), the dot product (R122 to R126), exp and σ (R182, R183). A finite value is held
exactly as sign, integer and power of two, and is rounded once. -/
namespace Sys2Proof.Machine

/-! ## Exact values -/

/-- An exact value: `(-1)^neg * man * 2^exp`. -/
structure Dyad where
  neg : Bool
  man : Nat
  exp : Int
  deriving DecidableEq, Repr

/-- The canonical FP32 NaN (R529). -/
def f32NaN : F32 := 0x7FC00000#32

/-- The canonical BF16 NaN (R232, R529). -/
def bf16NaN : BitVec 16 := 0x7FC0#16

/-- The sign bit of an FP32 pattern. -/
def fNeg (x : F32) : Bool := x.msb

/-- The exponent field. -/
def fExp (x : F32) : Nat := bits x.toNat 30 23

/-- The mantissa field. -/
def fMan (x : F32) : Nat := bits x.toNat 22 0

/-- Neither NaN nor infinity. -/
def fFinite (x : F32) : Bool := fExp x != 255

/-- A NaN. -/
def fIsNaN (x : F32) : Bool := fExp x == 255 && fMan x != 0

/-- An infinity. -/
def fIsInf (x : F32) : Bool := fExp x == 255 && fMan x == 0

/-- A zero of either sign. -/
def fIsZero (x : F32) : Bool := bits x.toNat 30 0 == 0

/-- An infinity of a sign. -/
def fInf (neg : Bool) : F32 := if neg then 0xFF800000#32 else 0x7F800000#32

/-- A zero of a sign. -/
def fZero (neg : Bool) : F32 := if neg then 0x80000000#32 else 0#32

/-- The exact value of a finite pattern, subnormals kept (R7). -/
def fDyad (x : F32) : Dyad :=
  if fExp x = 0 then ⟨fNeg x, fMan x, -149⟩ else ⟨fNeg x, fMan x + 2 ^ 23, (fExp x : Int) - 150⟩

/-- Rounds `man * 2^exp` to nearest, ties to even (R6), to `p` significant bits with no bit below `2^qmin`: the integer
and the power of two of its last place. -/
def roundMag (p : Nat) (qmin : Int) (man : Nat) (exp : Int) : Nat × Int :=
  let q := max ((Nat.log2 man : Int) + exp + 1 - (p : Int)) qmin
  let sh := q - exp
  if sh ≤ 0 then (man <<< (-sh).toNat, q)
  else
    let k := sh.toNat
    let n := man >>> k
    let rem := man % 2 ^ k
    let half := 2 ^ (k - 1)
    (if half < rem ∨ (rem = half ∧ n % 2 = 1) then n + 1 else n, q)

/-- The code of a rounded magnitude in a format with `mb` mantissa bits and least place `2^qmin`. -/
def magCode (mb : Nat) (qmin : Int) (r : Nat × Int) : Nat := r.1 + (r.2 - qmin).toNat * 2 ^ mb

/-- FP32 from an exact value, one rounding (R6); a zero keeps the sign given. -/
def fRound (d : Dyad) : F32 :=
  if d.man = 0 then fZero d.neg
  else
    let c := magCode 23 (-149) (roundMag 24 (-149) d.man d.exp)
    if 0x7F800000 ≤ c then fInf d.neg else BitVec.ofNat 32 (c + b2n d.neg * 2 ^ 31)

/-- The exact sum of two values; an exact zero is negative only when both terms are negative. -/
def dAdd (a b : Dyad) : Dyad :=
  let e := min a.exp b.exp
  let x : Int := (a.man <<< (a.exp - e).toNat : Nat)
  let y : Int := (b.man <<< (b.exp - e).toNat : Nat)
  let z := (if a.neg then -x else x) + (if b.neg then -y else y)
  ⟨if z = 0 then a.neg && b.neg else decide (z < 0), z.natAbs, e⟩

/-- The exact product of two values. -/
def dMul (a b : Dyad) : Dyad := ⟨a.neg ^^ b.neg, a.man * b.man, a.exp + b.exp⟩

/-! ## FP32 operations -/

/-- The negation of an FP32 value. -/
def fNegate (x : F32) : F32 := x ^^^ 0x80000000#32

/-- FP32 addition, rounded by R6. -/
def fAdd (a b : F32) : F32 :=
  if fIsNaN a || fIsNaN b then f32NaN
  else if fIsInf a then (if fIsInf b && fNeg a != fNeg b then f32NaN else a)
  else if fIsInf b then b
  else fRound (dAdd (fDyad a) (fDyad b))

/-- FP32 subtraction. -/
def fSub (a b : F32) : F32 := fAdd a (fNegate b)

/-- FP32 multiplication, rounded by R6. -/
def fMul (a b : F32) : F32 :=
  if fIsNaN a || fIsNaN b then f32NaN
  else if fIsInf a || fIsInf b then
    (if fIsZero a || fIsZero b then f32NaN else fInf (fNeg a ^^ fNeg b))
  else fRound (dMul (fDyad a) (fDyad b))

/-- FP32 fused multiply-add: one rounding. -/
def fFma (a b c : F32) : F32 :=
  if fIsNaN a || fIsNaN b || fIsNaN c then f32NaN
  else if fIsInf a || fIsInf b then
    (if fIsZero a || fIsZero b then f32NaN
     else if fIsInf c && fNeg c != (fNeg a ^^ fNeg b) then f32NaN else fInf (fNeg a ^^ fNeg b))
  else if fIsInf c then c
  else fRound (dAdd (dMul (fDyad a) (fDyad b)) (fDyad c))

/-- FP32 division, correctly rounded (R183). -/
def fDiv (a b : F32) : F32 :=
  if fIsNaN a || fIsNaN b then f32NaN
  else if fIsInf a then (if fIsInf b then f32NaN else fInf (fNeg a ^^ fNeg b))
  else if fIsInf b then fZero (fNeg a ^^ fNeg b)
  else if fIsZero b then (if fIsZero a then f32NaN else fInf (fNeg a ^^ fNeg b))
  else
    let x := fDyad a
    let y := fDyad b
    let n := x.man <<< 80
    let q := n / y.man
    fRound ⟨x.neg ^^ y.neg, 2 * q + (if n % y.man = 0 then 0 else 1), x.exp - y.exp - 81⟩

/-- `x * 2^k`, one rounding. -/
def fScale (x : F32) (k : Int) : F32 :=
  if fIsNaN x then f32NaN else if fIsInf x then x
  else fRound { fDyad x with exp := (fDyad x).exp + k }

/-- A key that orders FP32 values that are not NaN, with −0 equal to +0. -/
def fOrd (x : F32) : Int := if fNeg x then -(bits x.toNat 30 0 : Int) else (bits x.toNat 30 0 : Int)

/-- Strictly below, with −0 equal to +0. -/
def fLt (a b : F32) : Bool := decide (fOrd a < fOrd b)

/-- Equal, with −0 equal to +0. -/
def fEq (a b : F32) : Bool := fOrd a == fOrd b

/-- A non-negative integer as FP32. -/
def fOfNat (n : Nat) : F32 := fRound ⟨false, n, 0⟩

/-! ## BF16 and the element formats -/

/-- BF16 widens without change (R231). -/
def bf16Widen (x : BitVec 16) : F32 := x.setWidth 32 <<< 16

/-- FP32 to BF16, round to nearest even; a NaN becomes the canonical one (R130, R232). -/
def toBf16 (x : F32) : BitVec 16 :=
  if fIsNaN x then bf16NaN else BitVec.ofNat 16 ((x.toNat + 0x7FFF + bits x.toNat 16 16) / 2 ^ 16)

/-- Element formats of R120 and R134 with fewer than 16 bits. -/
inductive Elem where
  | e4m3
  | e5m2
  | e2m1
  deriving DecidableEq, Repr

/-- Mantissa bits. -/
def Elem.mb : Elem → Nat
  | .e4m3 => 3
  | .e5m2 => 2
  | .e2m1 => 1

/-- Exponent of the least subnormal. -/
def Elem.qmin : Elem → Int
  | .e4m3 => -9
  | .e5m2 => -16
  | .e2m1 => -1

/-- E_max of R120. -/
def Elem.emax : Elem → Int
  | .e4m3 => 8
  | .e5m2 => 15
  | .e2m1 => 2

/-- The code of the largest finite magnitude (R120). -/
def Elem.maxCode : Elem → Nat
  | .e4m3 => 0x7E
  | .e5m2 => 0x7B
  | .e2m1 => 0x7

/-- The sign bit's place. -/
def Elem.signBit : Elem → Nat
  | .e4m3 => 7
  | .e5m2 => 7
  | .e2m1 => 3

/-- The value of an element code as FP32; NaN and infinity codes of the 8-bit formats give NaN and infinity. -/
def Elem.decode (f : Elem) (c : Nat) : F32 :=
  let neg := bits c f.signBit f.signBit == 1
  let mag := c % 2 ^ f.signBit
  let ex := mag / 2 ^ f.mb
  let mn := mag % 2 ^ f.mb
  if f = .e4m3 ∧ mag = 0x7F then f32NaN
  else if f = .e5m2 ∧ ex = 31 then (if mn = 0 then fInf neg else f32NaN)
  else if ex = 0 then fRound ⟨neg, mn, f.qmin⟩
  else fRound ⟨neg, mn + 2 ^ f.mb, f.qmin + (ex : Int) - 1⟩

/-- An exact value to an element code, saturating (R120). -/
def Elem.encode (f : Elem) (d : Dyad) : Nat :=
  let c := if d.man = 0 then 0 else min (magCode f.mb f.qmin (roundMag (f.mb + 1) f.qmin d.man d.exp)) f.maxCode
  c + b2n d.neg * 2 ^ f.signBit

/-- `floor(log2 amax)` of the finite values of a block; none when all are zero. -/
def blockExp (xs : List F32) : Option Int :=
  xs.foldl (fun acc x =>
    let d := fDyad x
    if d.man = 0 then acc
    else
      let e := (Nat.log2 d.man : Int) + d.exp
      match acc with
      | none => some e
      | some a => some (max a e)) none

/-- A block of 32 values to its element codes and scale byte (R120). -/
def mxBlock (f : Elem) (xs : List F32) : List Nat × Nat :=
  let sc : Int := match blockExp xs with
    | none => 0
    | some e => max (-127) (min 127 (e - f.emax))
  (xs.map fun x => f.encode { fDyad x with exp := (fDyad x).exp - sc }, (sc + 127).toNat)

/-- Cuts a list into pieces of `n`; `fuel` bounds the number of pieces. -/
def chunksOf {α : Type} (n : Nat) : Nat → List α → List (List α)
  | 0, _ => []
  | _ + 1, [] => []
  | fuel + 1, x :: t => (x :: t).take n :: chunksOf n fuel ((x :: t).drop n)

/-- A vector as the tiles take it: element values and, for an MX format, its scale bytes (R124). -/
structure Row where
  vals : List F32
  scales : Option (List Nat)
  deriving DecidableEq, Repr

/-- Converts a vector to an MX format (R120). -/
def mxConvert (f : Elem) (xs : List F32) : List Nat × List Nat :=
  let bs := (chunksOf 32 xs.length xs).map (mxBlock f)
  (bs.flatMap (·.1), bs.map (·.2))

/-- An MX vector as a row. -/
def mxRow (f : Elem) (xs : List F32) : Row :=
  let c := mxConvert f xs
  ⟨c.1.map f.decode, some c.2⟩

/-- A vector rounded to BF16 as a row (R130). -/
def bf16Row (xs : List F32) : Row := ⟨xs.map fun x => bf16Widen (toBf16 x), none⟩

/-! ## The dot product -/

/-- Adds adjacent pairs, lower index on the left. -/
def addPairs : List F32 → List F32
  | a :: b :: t => fAdd a b :: addPairs t
  | [a] => [a]
  | [] => []

/-- The five-level tree of R123. -/
def blockSum (ps : List F32) : F32 :=
  (addPairs (addPairs (addPairs (addPairs (addPairs ps))))).headD 0#32

/-- Block scaling (R124): `sa` and `sb` are scale bytes, 127 for an operand without block scales. -/
def blockScale (mx : Bool) (b : F32) (sa sb : Nat) : F32 :=
  if !mx then b else if sa = 255 ∨ sb = 255 then f32NaN else fScale b ((sa : Int) + (sb : Int) - 254)

/-- The scaled block sums of two rows. -/
def blockVals (mx : Bool) : Nat → List F32 → List F32 → List Nat → List Nat → List F32
  | 0, _, _, _, _ => []
  | n + 1, a, b, sa, sb =>
    blockScale mx (blockSum (List.zipWith fMul (a.take 32) (b.take 32))) (sa.headD 127) (sb.headD 127)
      :: blockVals mx n (a.drop 32) (b.drop 32) sa.tail sb.tail

/-- Lane `l` of R125: the FP32 sum, in ascending order, of blocks `l`, `l + 8`, …; +0 with no block. -/
def laneSum (l : Nat) (s : List F32) : F32 :=
  match (s.zipIdx.filter fun p => p.2 % 8 == l).map (·.1) with
  | [] => 0#32
  | x :: t => t.foldl fAdd x

/-- The dot product of two rows (R122 to R126) with a tensor scale. -/
def dot (a b : Row) (tensor : F32) : F32 :=
  let mx := a.scales.isSome || b.scales.isSome
  let s := blockVals mx (a.vals.length / 32) a.vals b.vals (a.scales.getD []) (b.scales.getD [])
  let l := fun i => laneSum i s
  let d := fAdd (fAdd (fAdd (l 0) (l 1)) (fAdd (l 2) (l 3))) (fAdd (fAdd (l 4) (l 5)) (fAdd (l 6) (l 7)))
  fMul d tensor

/-! ## exp and σ -/

/-- A finite value rounded to an integer, ties to even. -/
def roundInt (x : F32) : Int :=
  let d := fDyad x
  let n : Nat :=
    if 0 ≤ d.exp then d.man <<< d.exp.toNat
    else
      let k := (-d.exp).toNat
      let n := d.man >>> k
      let rem := d.man % 2 ^ k
      let half := 2 ^ (k - 1)
      if half < rem ∨ (rem = half ∧ n % 2 = 1) then n + 1 else n
  if d.neg then -(n : Int) else n

/-- An integer as FP32. -/
def fOfInt (n : Int) : F32 := fRound ⟨decide (n < 0), n.natAbs, 0⟩

/-- exp(x) for x ≤ 0 (R182). -/
def fExpNeg (x : F32) : F32 :=
  if fLt x 0xC2D00000#32 then 0#32
  else
    let t := fMul x 0x3FB8AA3B#32
    let n := roundInt t
    let f := fSub t (fOfInt n)
    let p := [0x3C1D955B#32, 0x3D635847#32, 0x3E75FDF0#32, 0x3F317218#32, 0x3F800000#32].foldl
      (fun p c => fFma p f c) 0x3AAEC3FC#32
    fScale p n

/-- One, as FP32. -/
def fOne : F32 := 0x3F800000#32

/-- σ(x) for finite x (R183). -/
def fSigmoid (x : F32) : F32 :=
  if fLt x 0#32 then
    let e := fExpNeg x
    fDiv e (fAdd fOne e)
  else fDiv fOne (fAdd fOne (fExpNeg (fNegate x)))

end Sys2Proof.Machine
end

