-- ==== Sys2Proof/Machine/Regs.lean ====
section
/-! DEFINITION. The register map: the place of every register of the manual's pages (R511, R514, R515), its access
masks by access type (R10), its reserved bits (R14) and its reset value, page by page as the field tables give them.
A register is named by one number, `page * 0x1000 + offset`; package page `p` stands at page number `0x100 + p`. -/
namespace Sys2Proof.Machine

/-- One register of a field table: its offset in the page, the bits of each access type (R10) and its reset value.
Bits in no mask are reserved (R14). -/
structure RegSpec where
  off : Nat
  rw : Nat := 0
  ro : Nat := 0
  w1c : Nat := 0
  wo : Nat := 0
  bs : Nat := 0
  reset : Nat := 0
  deriving DecidableEq, Repr

/-- Every bit that a field of the register names. -/
def RegSpec.mask (x : RegSpec) : Nat := x.rw ||| x.ro ||| x.w1c ||| x.wo ||| x.bs

/-- The bits a host write may change or trigger. -/
def RegSpec.writable (x : RegSpec) : Nat := x.rw ||| x.w1c ||| x.wo ||| x.bs

/-! ## Page numbers (R514, R515) -/
namespace Pg
def SLC : Nat := 0x00
def BELL : Nat := 0x01
def SEQ : Nat := 0x02
def SCORE : Nat := 0x03
def KEYS : Nat := 0x04
def SEL : Nat := 0x05
def AUC : Nat := 0x06
def SORT : Nat := 0x07
def DISP : Nat := 0x08
def POOL : Nat := 0x09
def CMB : Nat := 0x0A
def RES : Nat := 0x0B
def TILE : Nat := 0x0C
def MEMP : Nat := 0x0D
def PORTER : Nat := 0x0E
def MSEM : Nat := 0x0F
def COLL : Nat := 0x10
def ROUTE : Nat := 0x11
def DISC : Nat := 0x12
def DET : Nat := 0x13
def CTX : Nat := 0x14
def SAFE : Nat := 0x15
def SPARE : Nat := 0x16
def EBS : Nat := 0x17
def TIME : Nat := 0x18
def TALLY : Nat := 0x19
def TRACE : Nat := 0x1A
def EVLOG : Nat := 0x1B
def MCODE : Nat := 0x1C
def IRQ : Nat := 0x1D
/-- LINKp, p = 0 to 17. -/
def LINK (p : Nat) : Nat := 0x20 + p
def PKG : Nat := 0x100
def PBELL : Nat := 0x101
def PSAFE : Nat := 0x102
def LEAD : Nat := 0x103
def DIRCTL : Nat := 0x104
def PTIME : Nat := 0x105
end Pg

/-! ## Register numbers -/
namespace Reg
/-! MEMP: fields in R36, 02_boundary_clocks_power.md. -/
def MEMP_FLOOR : Nat := 0x0D100
def MEMP_PORT_EN : Nat := 0x0D108
def MEMP_TIMEOUT : Nat := 0x0D110
def MEMP_PORT_FAIL : Nat := 0x0D118
def MEMP_PORT_LIVE : Nat := 0x0D120
def MEMP_FAULT : Nat := 0x0D128
/-! BELL: fields in R89, 03_bell_admission_scales.md. -/
def BELL_BUDGET : Nat := 0x01100
def BELL_ALLOW : Nat := 0x01108
def BELL_LEAD : Nat := 0x01110
def BELL_DIAM : Nat := 0x01118
def BELL_LAYER_IN : Nat := 0x01120
def BELL_LAYER_OUT : Nat := 0x01128
def BELL_PLAN : Nat := 0x01130
def BELL_PLAN_STAT : Nat := 0x01138
def BELL_LEDGER : Nat := 0x01140
def BELL_LEDGER_HEAD : Nat := 0x01148
def BELL_NUMBER : Nat := 0x01150
def BELL_LATE : Nat := 0x01158
def BELL_PENDING : Nat := 0x01160
/-! PBELL: fields in R91, 03_bell_admission_scales.md. -/
def PBELL_PERIOD : Nat := 0x101100
def PBELL_APPLY_AT : Nat := 0x101108
def PBELL_START : Nat := 0x101110
def PBELL_FIRST : Nat := 0x101118
def PBELL_GO : Nat := 0x101120
def PBELL_STATE : Nat := 0x101128
def PBELL_NUMBER : Nat := 0x101130
def PBELL_OPEN : Nat := 0x101138
def PBELL_PERIOD_LIVE : Nat := 0x101140
/-! SEQ: fields in R114, 04_sequences_step_plans.md. -/
def SEQ_TABLE : Nat := 0x02100
def SEQ_COUNT : Nat := 0x02108
def SEQ_FAIL_MAP0 : Nat := 0x02110
def SEQ_FAIL_MAP1 : Nat := 0x02118
def SEQ_FAIL_MAP2 : Nat := 0x02120
def SEQ_FAIL_MAP3 : Nat := 0x02128
def SEQ_LAST_FAIL : Nat := 0x02130
def SEQ_BAD_HANDLE : Nat := 0x02138
def SEQ_HASH_IN : Nat := 0x02140
def SEQ_HASH_OUT : Nat := 0x02148
/-! SCORE: fields in R150, 05_scoring.md. -/
def SCORE_IN : Nat := 0x03100
def SCORE_LIST : Nat := 0x03108
def SCORE_TILES : Nat := 0x03110
def SCORE_FAULT_HANDLE : Nat := 0x03118
def SCORE_FAULT_INFO : Nat := 0x03120
def SCORE_SHADOW : Nat := 0x03128
/-! KEYS: fields in R151, 05_scoring.md. -/
def KEYS_TABLE : Nat := 0x04100
def KEYS_TABLE_LIVE : Nat := 0x04108
def KEYS_CHECK : Nat := 0x04110
def KEYS_BANK : Nat := 0x04118
def KEYS_OLD : Nat := 0x04120
/-! SEL: fields in R186, 06_selection_auction.md. -/
def SEL_TABLE : Nat := 0x05100
def SEL_TABLE_LIVE : Nat := 0x05108
def SEL_CHECK : Nat := 0x05110
def SEL_FAULT_HANDLE : Nat := 0x05118
def SEL_FAULT_INFO : Nat := 0x05120
/-! AUC: fields in R187, 06_selection_auction.md. -/
def AUC_SRCSET : Nat := 0x06100
def AUC_SRCCOUNT : Nat := 0x06108
def AUC_BIDSPACE : Nat := 0x06110
def AUC_CAPMODE : Nat := 0x06118
def AUC_CLOSE_TO : Nat := 0x06120
def AUC_SPACE : Nat := 0x06128
def AUC_ROUND : Nat := 0x06130
def AUC_SKEW : Nat := 0x06138
def AUC_FAULT : Nat := 0x06140
/-! SORT: fields in R218, 07_sorting_dispatch_pools.md. -/
def SORT_LANES : Nat := 0x07100
def SORT_FAULT : Nat := 0x07108
/-! DISP: fields in R219, 07_sorting_dispatch_pools.md. -/
def DISP_WIRE0 : Nat := 0x08100
def DISP_WIRE1 : Nat := 0x08108
def DISP_WIRE2 : Nat := 0x08110
def DISP_WIRE3 : Nat := 0x08118
def DISP_OVF : Nat := 0x08120
def DISP_RECV : Nat := 0x08128
def DISP_FAULT : Nat := 0x08130
def DISP_FAULT_SRC : Nat := 0x08138
def DISP_TOK : Nat := 0x08140
/-! POOL: fields in R220, 07_sorting_dispatch_pools.md. -/
def POOL_OVF : Nat := 0x09100
def POOL_OVF_CNT : Nat := 0x09108
def POOL_OVF_MIN : Nat := 0x09110
def POOL_SRAM_FREE : Nat := 0x09118
def POOL_OVF_FREE : Nat := 0x09120
def POOL_FRAMES : Nat := 0x09128
def POOL_LAST_BAD : Nat := 0x09130
/-! CMB: fields in R240, 08_combine.md. -/
def CMB_OUTFMT0 : Nat := 0x0A100
def CMB_OUTFMT1 : Nat := 0x0A108
def CMB_OUTFMT2 : Nat := 0x0A110
def CMB_OUTFMT3 : Nat := 0x0A118
def CMB_RET : Nat := 0x0A120
def CMB_RET_MAP : Nat := 0x0A128
def CMB_RET_TO : Nat := 0x0A130
def CMB_AREA : Nat := 0x0A138
def CMB_TABLE : Nat := 0x0A140
def CMB_FAULT_HANDLE : Nat := 0x0A148
def CMB_FAULT_INFO : Nat := 0x0A150
/-! RES: fields in R270, 09_expert_residency.md. -/
def RES_DIR : Nat := 0x0B100
def RES_DIR_LIVE : Nat := 0x0B108
def RES_DIR_STAT : Nat := 0x0B110
def RES_EDIT : Nat := 0x0B118
def RES_EDIT_STAT : Nat := 0x0B120
def RES_DESC : Nat := 0x0B128
def RES_T0 : Nat := 0x0B130
def RES_T1 : Nat := 0x0B138
def RES_QUOTA0 : Nat := 0x0B140
def RES_QUOTA1 : Nat := 0x0B148
def RES_QUOTA2 : Nat := 0x0B150
def RES_QUOTA3 : Nat := 0x0B158
def RES_PLAN : Nat := 0x0B160
def RES_HINT : Nat := 0x0B168
def RES_STAT : Nat := 0x0B170
def RES_HOSTED : Nat := 0x0B178
def RES_FAULT : Nat := 0x0B180
def RES_DEAD : Nat := 0x0B188
/-! TILE: fields in R286, 10_tile_lists.md. -/
def TILE_MODE : Nat := 0x0C100
def TILE_LIST : Nat := 0x0C108
def TILE_DBELL : Nat := 0x0C110
def TILE_VIEW : Nat := 0x0C118
def TILE_HEAD : Nat := 0x0C120
def TILE_DONE : Nat := 0x0C128
def TILE_TO : Nat := 0x0C130
def TILE_STAT : Nat := 0x0C138
def TILE_QUAR : Nat := 0x0C140
def TILE_FAULT : Nat := 0x0C148
/-! LINK: fields in R312, 11_felano_links_flow.md. -/
def LINK_CTL (p : Nat) : Nat := 0x20000 + p * 0x1000 + 0x100
def LINK_THRESH (p : Nat) : Nat := 0x20000 + p * 0x1000 + 0x108
def LINK_STAT (p : Nat) : Nat := 0x20000 + p * 0x1000 + 0x110
def LINK_FAR (p : Nat) : Nat := 0x20000 + p * 0x1000 + 0x118
def LINK_LANE (p : Nat) : Nat := 0x20000 + p * 0x1000 + 0x120
def LINK_FAULT (p : Nat) : Nat := 0x20000 + p * 0x1000 + 0x128
def LINK_WIN0 (p : Nat) : Nat := 0x20000 + p * 0x1000 + 0x200
def LINK_WIN1 (p : Nat) : Nat := 0x20000 + p * 0x1000 + 0x208
def LINK_E2E (p : Nat) : Nat := 0x20000 + p * 0x1000 + 0x210
def LINK_WRR (p : Nat) : Nat := 0x20000 + p * 0x1000 + 0x218
def LINK_E2E_STAT (p : Nat) : Nat := 0x20000 + p * 0x1000 + 0x220
/-! ROUTE: fields in R345, 12_discovery_routing.md. -/
def ROUTE_IMAGE : Nat := 0x11100
def ROUTE_SWITCH : Nat := 0x11108
def ROUTE_STAT : Nat := 0x11110
def ROUTE_JOBS0 : Nat := 0x11118
def ROUTE_JOBS1 : Nat := 0x11120
def ROUTE_JOBS2 : Nat := 0x11128
def ROUTE_JOBS3 : Nat := 0x11130
def ROUTE_FAULT : Nat := 0x11138
/-! DISC: fields in R346, 12_discovery_routing.md. -/
def DISC_IDENT : Nat := 0x12100
def DISC_INCARN : Nat := 0x12108
def DISC_CTL : Nat := 0x12110
def DISC_NODE : Nat := 0x12118
def DISC_LSDB : Nat := 0x12120
def DISC_MAIL : Nat := 0x12128
def DISC_MAIL_HEAD : Nat := 0x12130
def DISC_PATH : Nat := 0x12138
def DISC_COORD : Nat := 0x12140
def DISC_STAT : Nat := 0x12148
/-! MSEM: fields in R374, 13_remote_memory.md. -/
def MSEM_REGIONS : Nat := 0x0F100
def MSEM_REGIONS_LIVE : Nat := 0x0F108
def MSEM_HOLD : Nat := 0x0F110
def MSEM_ILV : Nat := 0x0F118
def MSEM_RING : Nat := 0x0F120
def MSEM_TAIL : Nat := 0x0F128
def MSEM_HEAD : Nat := 0x0F130
def MSEM_INVAL : Nat := 0x0F138
def MSEM_INVAL_HEAD : Nat := 0x0F140
def MSEM_INVAL_STAT : Nat := 0x0F148
def MSEM_TIMEOUT : Nat := 0x0F150
def MSEM_MGR : Nat := 0x0F158
def MSEM_COMB : Nat := 0x0F160
def MSEM_TEARDOWN : Nat := 0x0F168
def MSEM_GW : Nat := 0x0F170
def MSEM_ROB : Nat := 0x0F178
def MSEM_SEM_IRQ0 : Nat := 0x0F180
def MSEM_SEM_IRQ1 : Nat := 0x0F188
def MSEM_STAT : Nat := 0x0F190
def MSEM_FAULT : Nat := 0x0F198
/-! PORTER: fields in R375, 13_remote_memory.md. -/
def PORTER_RING : Nat := 0x0E100
def PORTER_TAIL : Nat := 0x0E108
def PORTER_HEAD : Nat := 0x0E110
def PORTER_STAT : Nat := 0x0E118
def PORTER_FAULT : Nat := 0x0E120
/-! COLL: fields in R395, 14_collectives.md. -/
def COLL_GROUPS : Nat := 0x10100
def COLL_CREATE : Nat := 0x10108
def COLL_GSTAT : Nat := 0x10110
def COLL_RING : Nat := 0x10118
def COLL_TAIL : Nat := 0x10120
def COLL_HEAD : Nat := 0x10128
def COLL_TO : Nat := 0x10130
def COLL_LL : Nat := 0x10138
def COLL_LL_STAT : Nat := 0x10140
def COLL_WAIT : Nat := 0x10148
def COLL_FAULT : Nat := 0x10150
/-! DET: fields in R413, 15_determinism_replay.md. -/
def DET_CTL : Nat := 0x13100
def DET_SEED0 : Nat := 0x13108
def DET_SEED1 : Nat := 0x13110
def DET_SEED2 : Nat := 0x13118
def DET_SEED3 : Nat := 0x13120
def DET_RING : Nat := 0x13128
def DET_TRACE : Nat := 0x13130
def DET_PAIR : Nat := 0x13138
def DET_STAT : Nat := 0x13140
def DET_DIV : Nat := 0x13148
def DET_DIV_BELL : Nat := 0x13150
def DET_DIV_CLR : Nat := 0x13158
def DET_LAST_ID : Nat := 0x13160
def DET_LAST_S1 : Nat := 0x13168
def DET_LAST_S2 : Nat := 0x13170
def DET_LAST_S3 : Nat := 0x13178
def DET_LAST_S4 : Nat := 0x13180
def DET_LAST_S5 : Nat := 0x13188
/-! CTX: fields in R432, 16_contexts_preemption.md. -/
def CTX_MODEL : Nat := 0x14100
def CTX_MODEL_AT : Nat := 0x14108
def CTX_SAVE_POOL : Nat := 0x14110
def CTX_CREATE : Nat := 0x14118
def CTX_RESIDENT : Nat := 0x14120
def CTX_RESIDENT_LIVE : Nat := 0x14128
def CTX_URGENT : Nat := 0x14130
def CTX_STATE : Nat := 0x14138
def CTX_INFO0 : Nat := 0x14140
def CTX_INFO1 : Nat := 0x14148
def CTX_INFO2 : Nat := 0x14150
def CTX_INFO3 : Nat := 0x14158
def CTX_INTERF0 : Nat := 0x14160
def CTX_INTERF1 : Nat := 0x14168
def CTX_INTERF2 : Nat := 0x14170
def CTX_INTERF3 : Nat := 0x14178
def CTX_FAULT : Nat := 0x14180
/-! SAFE: fields in R464, 17_safety_spares.md. -/
def SAFE_CAUSE : Nat := 0x15100
def SAFE_FIRST : Nat := 0x15108
def SAFE_FIRST_BELL : Nat := 0x15110
def SAFE_SUSPECT : Nat := 0x15118
def SAFE_LEDGER : Nat := 0x15120
def SAFE_WDOG : Nat := 0x15128
def SAFE_SCRUB : Nat := 0x15130
def SAFE_LATENT : Nat := 0x15138
def SAFE_ALARM : Nat := 0x15140
/-! SPARE: fields in R465, 17_safety_spares.md. -/
def SPARE_TILES : Nat := 0x16100
def SPARE_LANES : Nat := 0x16108
def SPARE_KBANKS : Nat := 0x16110
def SPARE_SBANKS0 : Nat := 0x16118
def SPARE_SBANKS1 : Nat := 0x16120
def SPARE_CTRL : Nat := 0x16128
def SPARE_LEFT : Nat := 0x16130
def SPARE_RETIRE : Nat := 0x16138
def SPARE_THRESH : Nat := 0x16140
/-! PSAFE: fields in R466, 17_safety_spares.md. -/
def PSAFE_SLICES : Nat := 0x102100
def PSAFE_RETIRE : Nat := 0x102108
def PSAFE_CAUSE : Nat := 0x102110
def PSAFE_DEAD : Nat := 0x102118
/-! SLC: fields in R487, 18_startup_live_change.md. -/
def SLC_STATE : Nat := 0x00100
def SLC_BIST : Nat := 0x00108
def SLC_REPAIR : Nat := 0x00110
def SLC_MAPOUT : Nat := 0x00118
def SLC_BLOCK : Nat := 0x00120
def SLC_UNIT_RST : Nat := 0x00128
/-! MCODE: fields in R488, 18_startup_live_change.md. -/
def MCODE_LOAD : Nat := 0x1C100
def MCODE_STAT : Nat := 0x1C108
def MCODE_REV : Nat := 0x1C110
def MCODE_SWITCH : Nat := 0x1C118
/-! EBS: fields in R489, 18_startup_live_change.md. -/
def EBS_CFG : Nat := 0x17100
def EBS_WAIT : Nat := 0x17108
def EBS_STAT : Nat := 0x17110
def EBS_FAULT : Nat := 0x17118
/-! PKG: fields in R490, 18_startup_live_change.md. -/
def PKG_SLICES : Nat := 0x100100
def PKG_FAULT : Nat := 0x100108
/-! LEAD: fields in R490, 18_startup_live_change.md. -/
def LEAD_STAT : Nat := 0x103100
def LEAD_MOVE : Nat := 0x103108
/-! TALLY: fields in R498, 19_tallies_logs_wrap.md. -/
def TALLY_SAT : Nat := 0x19180
/-! EVLOG: fields in R505, 19_tallies_logs_wrap.md. -/
def EVLOG_RING : Nat := 0x1B100
def EVLOG_NEXT : Nat := 0x1B108
def EVLOG_HEAD : Nat := 0x1B110
def EVLOG_STAT : Nat := 0x1B118
/-! TRACE: fields in R506, 19_tallies_logs_wrap.md. -/
def TRACE_RING : Nat := 0x1A100
def TRACE_CTL : Nat := 0x1A108
def TRACE_WPTR : Nat := 0x1A110
def TRACE_STAT : Nat := 0x1A118
def TRACE_MARK : Nat := 0x1A120
/-! TIME: fields in R507, 19_tallies_logs_wrap.md. -/
def TIME_NOW : Nat := 0x18100
def TIME_SYNC : Nat := 0x18108
def TIME_MASTER : Nat := 0x18110
/-! PTIME: fields in R507, 19_tallies_logs_wrap.md. -/
def PTIME_NOW : Nat := 0x105100
def PTIME_SET : Nat := 0x105108
def PTIME_STAT : Nat := 0x105110
/-! IRQ: fields in R522, 20_register_pages.md. -/
def IRQ_MASK : Nat := 0x1D500
def IRQ_PEND : Nat := 0x1D508
def IRQ_FORCE : Nat := 0x1D510
def IRQ_STAT : Nat := 0x1D518
/-! DIRCTL: fields in R528, 20_register_pages.md. -/
def DIRCTL_EDIT : Nat := 0x104100
def DIRCTL_AT : Nat := 0x104108
def DIRCTL_STAT : Nat := 0x104110
def DIRCTL_CTL : Nat := 0x104118
def DIRCTL_DIGEST : Nat := 0x104120
def DIRCTL_SPLIT : Nat := 0x104128
def IRQ_ADDR (v : Nat) : Nat := 0x1D100 + 16 * v
def IRQ_DATA (v : Nat) : Nat := 0x1D108 + 16 * v
def MSEM_SEM (n : Nat) : Nat := 0x0F400 + 8 * n
def MCODE_EXPECT (slot word : Nat) : Nat := 0x1C140 + 32 * slot + 8 * word
def TALLY_LIFE (j : Nat) : Nat := 0x19100 + 8 * j
/-! The header registers of page `pg` (R518). -/
def PAGE_ID (pg : Nat) : Nat := pg * 0x1000 + 0x00
def PAGE_CAP (pg : Nat) : Nat := pg * 0x1000 + 0x08
def PAGE_CTL (pg : Nat) : Nat := pg * 0x1000 + 0x10
def PAGE_STAT (pg : Nat) : Nat := pg * 0x1000 + 0x18
def PAGE_IRQ_RAW (pg : Nat) : Nat := pg * 0x1000 + 0x20
def PAGE_IRQ_EN (pg : Nat) : Nat := pg * 0x1000 + 0x28
def PAGE_ERR_FIRST (pg : Nat) : Nat := pg * 0x1000 + 0x30
def PAGE_ERR_COUNT (pg : Nat) : Nat := pg * 0x1000 + 0x38
def PAGE_TALLY_SEL (pg : Nat) : Nat := pg * 0x1000 + 0x40
def PAGE_TALLY_BELL (pg : Nat) : Nat := pg * 0x1000 + 0x48
end Reg

/-- The registers of the MEMP page. -/
def regsMEMP : List RegSpec := [
  ⟨0x100, 0, 0, 0, 0, 0x3fff, 0⟩,  -- MEMP_FLOOR
  ⟨0x108, 0, 0, 0, 0, 0xffff, 0xffff⟩,  -- MEMP_PORT_EN
  ⟨0x110, 0x3ff, 0, 0, 0, 0, 0x64⟩,  -- MEMP_TIMEOUT
  ⟨0x118, 0, 0, 0xffff, 0, 0, 0⟩,  -- MEMP_PORT_FAIL
  ⟨0x120, 0, 0xffff, 0, 0, 0, 0xffff⟩,  -- MEMP_PORT_LIVE
  ⟨0x128, 0, 0xffffffffffffffc0, 0, 0, 0, 0⟩  -- MEMP_FAULT
]

/-- The registers of the BELL page. -/
def regsBELL : List RegSpec := [
  ⟨0x100, 0, 0, 0, 0, 0xfffffff, 0⟩,  -- BELL_BUDGET
  ⟨0x108, 0, 0, 0, 0, 0xffff, 0x3e8⟩,  -- BELL_ALLOW
  ⟨0x110, 0, 0, 0, 0, 0x3ff, 0x64⟩,  -- BELL_LEAD
  ⟨0x118, 0, 0, 0, 0, 0xf, 0x4⟩,  -- BELL_DIAM
  ⟨0x120, 0, 0, 0, 0x1ff, 0, 0⟩,  -- BELL_LAYER_IN
  ⟨0x128, 0, 0x3ffff, 0, 0, 0, 0⟩,  -- BELL_LAYER_OUT
  ⟨0x130, 0, 0, 0, 0xfffffffffffc1, 0, 0⟩,  -- BELL_PLAN
  ⟨0x138, 0, 0x3f, 0, 0, 0, 0⟩,  -- BELL_PLAN_STAT
  ⟨0x140, 0xfffffffffc01f, 0, 0, 0, 0, 0⟩,  -- BELL_LEDGER
  ⟨0x148, 0, 0xffffffffffffffff, 0, 0, 0, 0⟩,  -- BELL_LEDGER_HEAD
  ⟨0x150, 0, 0xffffffffffffffff, 0, 0, 0, 0⟩,  -- BELL_NUMBER
  ⟨0x158, 0, 0x1fff, 0, 0, 0, 0⟩,  -- BELL_LATE
  ⟨0x160, 0, 0xffffffffffffffff, 0, 0, 0, 0⟩  -- BELL_PENDING
]

/-- The registers of the PBELL page. -/
def regsPBELL : List RegSpec := [
  ⟨0x100, 0, 0, 0, 0, 0xfffffff, 0⟩,  -- PBELL_PERIOD
  ⟨0x108, 0xffffffffffffffff, 0, 0, 0, 0, 0⟩,  -- PBELL_APPLY_AT
  ⟨0x110, 0xffffffffffffffff, 0, 0, 0, 0, 0⟩,  -- PBELL_START
  ⟨0x118, 0xffffffffffffffff, 0, 0, 0, 0, 0⟩,  -- PBELL_FIRST
  ⟨0x120, 0, 0, 0, 0x3, 0, 0⟩,  -- PBELL_GO
  ⟨0x128, 0, 0x703, 0, 0, 0, 0⟩,  -- PBELL_STATE
  ⟨0x130, 0, 0xffffffffffffffff, 0, 0, 0, 0⟩,  -- PBELL_NUMBER
  ⟨0x138, 0, 0xffffffffffffffff, 0, 0, 0, 0⟩,  -- PBELL_OPEN
  ⟨0x140, 0, 0xfffffff, 0, 0, 0, 0⟩  -- PBELL_PERIOD_LIVE
]

/-- The registers of the SEQ page. -/
def regsSEQ : List RegSpec := [
  ⟨0x100, 0xfffffffff8000, 0, 0, 0, 0, 0⟩,  -- SEQ_TABLE
  ⟨0x108, 0, 0x1ff01ff01ff01ff, 0, 0, 0, 0x100000000000000⟩,  -- SEQ_COUNT
  ⟨0x110, 0, 0xffffffffffffffff, 0, 0, 0, 0⟩,  -- SEQ_FAIL_MAP0
  ⟨0x118, 0, 0xffffffffffffffff, 0, 0, 0, 0⟩,  -- SEQ_FAIL_MAP1
  ⟨0x120, 0, 0xffffffffffffffff, 0, 0, 0, 0⟩,  -- SEQ_FAIL_MAP2
  ⟨0x128, 0, 0xffffffffffffffff, 0, 0, 0, 0⟩,  -- SEQ_FAIL_MAP3
  ⟨0x130, 0, 0xffffffffffffffff, 0, 0, 0, 0⟩,  -- SEQ_LAST_FAIL
  ⟨0x138, 0, 0xffffffffffffffff, 0, 0, 0, 0⟩,  -- SEQ_BAD_HANDLE
  ⟨0x140, 0, 0, 0, 0xffffffffffffffff, 0, 0⟩,  -- SEQ_HASH_IN
  ⟨0x148, 0, 0xffffffffffffffff, 0, 0, 0, 0⟩  -- SEQ_HASH_OUT
]

/-- The registers of the SCORE page. -/
def regsSCORE : List RegSpec := [
  ⟨0x100, 0, 0, 0, 0, 0xffffffffff000, 0⟩,  -- SCORE_IN
  ⟨0x108, 0, 0, 0, 0, 0xfffffffff0000, 0⟩,  -- SCORE_LIST
  ⟨0x110, 0, 0x3ffff, 0, 0, 0, 0x10ff8⟩,  -- SCORE_TILES
  ⟨0x118, 0, 0xffffffffffffffff, 0, 0, 0, 0⟩,  -- SCORE_FAULT_HANDLE
  ⟨0x120, 0, 0xffffff07, 0, 0, 0, 0⟩,  -- SCORE_FAULT_INFO
  ⟨0x128, 0, 0xffffffffffffffff, 0, 0, 0, 0⟩  -- SCORE_SHADOW
]

/-- The registers of the KEYS page. -/
def regsKEYS : List RegSpec := [
  ⟨0x100, 0, 0, 0, 0, 0xfffffffffc000, 0⟩,  -- KEYS_TABLE
  ⟨0x108, 0, 0xfffffffffc000, 0, 0, 0, 0⟩,  -- KEYS_TABLE_LIVE
  ⟨0x110, 0, 0xfffffff3, 0, 0, 0, 0⟩,  -- KEYS_CHECK
  ⟨0x118, 0, 0x3ff03ff, 0, 0, 0, 0⟩,  -- KEYS_BANK
  ⟨0x120, 0, 0x1, 0, 0, 0, 0x1⟩  -- KEYS_OLD
]

/-- The registers of the SEL page. -/
def regsSEL : List RegSpec := [
  ⟨0x100, 0, 0, 0, 0, 0xffffffffff000, 0⟩,  -- SEL_TABLE
  ⟨0x108, 0, 0xffffffffff000, 0, 0, 0, 0⟩,  -- SEL_TABLE_LIVE
  ⟨0x110, 0, 0x1fff3, 0, 0, 0, 0x10000⟩,  -- SEL_CHECK
  ⟨0x118, 0, 0xffffffffffffffff, 0, 0, 0, 0⟩,  -- SEL_FAULT_HANDLE
  ⟨0x120, 0, 0xff007fff, 0, 0, 0, 0⟩  -- SEL_FAULT_INFO
]

/-- The registers of the AUC page. -/
def regsAUC : List RegSpec := [
  ⟨0x100, 0, 0, 0, 0, 0xfffffffffffc0, 0⟩,  -- AUC_SRCSET
  ⟨0x108, 0, 0, 0, 0, 0xffff, 0⟩,  -- AUC_SRCCOUNT
  ⟨0x110, 0, 0, 0, 0, 0x1fff, 0x40⟩,  -- AUC_BIDSPACE
  ⟨0x118, 0, 0, 0, 0, 0x1, 0⟩,  -- AUC_CAPMODE
  ⟨0x120, 0x3ff, 0, 0, 0, 0, 0x64⟩,  -- AUC_CLOSE_TO
  ⟨0x128, 0, 0x1ffffff, 0, 0, 0, 0⟩,  -- AUC_SPACE
  ⟨0x130, 0, 0x1ffff07ff, 0, 0, 0, 0⟩,  -- AUC_ROUND
  ⟨0x138, 0, 0x1ffffff, 0, 0, 0, 0⟩,  -- AUC_SKEW
  ⟨0x140, 0, 0xffffffffffffffff, 0, 0, 0, 0⟩  -- AUC_FAULT
]

/-- The registers of the SORT page. -/
def regsSORT : List RegSpec := [
  ⟨0x100, 0, 0x3f03ffffffff, 0, 0, 0, 0x2000ffffffff⟩,  -- SORT_LANES
  ⟨0x108, 0, 0xffffffffffffffff, 0, 0, 0, 0⟩  -- SORT_FAULT
]

/-- The registers of the DISP page. -/
def regsDISP : List RegSpec := [
  ⟨0x100, 0, 0, 0, 0, 0xffffffffffffffff, 0⟩,  -- DISP_WIRE0
  ⟨0x108, 0, 0, 0, 0, 0xffffffffffffffff, 0⟩,  -- DISP_WIRE1
  ⟨0x110, 0, 0, 0, 0, 0xffffffffffffffff, 0⟩,  -- DISP_WIRE2
  ⟨0x118, 0, 0, 0, 0, 0xffffffffffffffff, 0⟩,  -- DISP_WIRE3
  ⟨0x120, 0, 0, 0, 0, 0xfffffffe0ffff, 0⟩,  -- DISP_OVF
  ⟨0x128, 0, 0xffffff3f3fffffff, 0, 0, 0, 0⟩,  -- DISP_RECV
  ⟨0x130, 0, 0xffffffffffffffff, 0, 0, 0, 0⟩,  -- DISP_FAULT
  ⟨0x138, 0, 0xff7fffff, 0, 0, 0, 0⟩,  -- DISP_FAULT_SRC
  ⟨0x140, 0, 0x3, 0, 0, 0, 0⟩  -- DISP_TOK
]

/-- The registers of the POOL page. -/
def regsPOOL : List RegSpec := [
  ⟨0x100, 0, 0, 0, 0, 0xfffffffe00000, 0⟩,  -- POOL_OVF
  ⟨0x108, 0, 0, 0, 0, 0xffffffffffffffff, 0⟩,  -- POOL_OVF_CNT
  ⟨0x110, 0, 0xffffffffffffffff, 0, 0, 0, 0⟩,  -- POOL_OVF_MIN
  ⟨0x118, 0, 0xffffffffffffffff, 0, 0, 0, 0⟩,  -- POOL_SRAM_FREE
  ⟨0x120, 0, 0xffffffffffffffff, 0, 0, 0, 0⟩,  -- POOL_OVF_FREE
  ⟨0x128, 0, 0x3f3f3f3f, 0, 0, 0, 0x20⟩,  -- POOL_FRAMES
  ⟨0x130, 0, 0xfffffffff, 0, 0, 0, 0⟩  -- POOL_LAST_BAD
]

/-- The registers of the CMB page. -/
def regsCMB : List RegSpec := [
  ⟨0x100, 0, 0, 0, 0, 0xffffffffffffffff, 0⟩,  -- CMB_OUTFMT0
  ⟨0x108, 0, 0, 0, 0, 0xffffffffffffffff, 0⟩,  -- CMB_OUTFMT1
  ⟨0x110, 0, 0, 0, 0, 0xffffffffffffffff, 0⟩,  -- CMB_OUTFMT2
  ⟨0x118, 0, 0, 0, 0, 0xffffffffffffffff, 0⟩,  -- CMB_OUTFMT3
  ⟨0x120, 0, 0, 0, 0, 0xfffffffe0ffff, 0⟩,  -- CMB_RET
  ⟨0x128, 0, 0, 0, 0, 0x3f, 0x10⟩,  -- CMB_RET_MAP
  ⟨0x130, 0x1ffff, 0, 0, 0, 0, 0x3e8⟩,  -- CMB_RET_TO
  ⟨0x138, 0, 0x33f3f, 0, 0, 0, 0⟩,  -- CMB_AREA
  ⟨0x140, 0, 0x3ff03ff, 0, 0, 0, 0⟩,  -- CMB_TABLE
  ⟨0x148, 0, 0xffffffffffffffff, 0, 0, 0, 0⟩,  -- CMB_FAULT_HANDLE
  ⟨0x150, 0, 0x3fffff, 0, 0, 0, 0⟩  -- CMB_FAULT_INFO
]

/-- The registers of the RES page. -/
def regsRES : List RegSpec := [
  ⟨0x100, 0xfffffffffffff, 0, 0, 0, 0, 0⟩,  -- RES_DIR
  ⟨0x108, 0, 0xffff, 0, 0, 0, 0⟩,  -- RES_DIR_LIVE
  ⟨0x110, 0, 0x7ffff3, 0, 0, 0, 0⟩,  -- RES_DIR_STAT
  ⟨0x118, 0, 0, 0, 0xfffffffffffff, 0, 0⟩,  -- RES_EDIT
  ⟨0x120, 0, 0xffffffff007ffff7, 0, 0, 0, 0⟩,  -- RES_EDIT_STAT
  ⟨0x128, 0xffffffffff000, 0, 0, 0, 0, 0⟩,  -- RES_DESC
  ⟨0x130, 0, 0, 0, 0, 0xfffffffe0ffff, 0⟩,  -- RES_T0
  ⟨0x138, 0, 0, 0, 0, 0xfffffffefffff, 0⟩,  -- RES_T1
  ⟨0x140, 0, 0, 0, 0, 0xffff0fffffffff, 0⟩,  -- RES_QUOTA0
  ⟨0x148, 0, 0, 0, 0, 0xffff0fffffffff, 0⟩,  -- RES_QUOTA1
  ⟨0x150, 0, 0, 0, 0, 0xffff0fffffffff, 0⟩,  -- RES_QUOTA2
  ⟨0x158, 0, 0, 0, 0, 0xffff0fffffffff, 0⟩,  -- RES_QUOTA3
  ⟨0x160, 0, 0, 0, 0, 0x1f, 0x2⟩,  -- RES_PLAN
  ⟨0x168, 0, 0, 0, 0xffffffffff0ff, 0, 0⟩,  -- RES_HINT
  ⟨0x170, 0, 0x7fffffffffffffff, 0, 0, 0, 0⟩,  -- RES_STAT
  ⟨0x178, 0, 0x1ffffffffff, 0, 0, 0, 0⟩,  -- RES_HOSTED
  ⟨0x180, 0, 0xffffffffffff7fff, 0, 0, 0, 0⟩,  -- RES_FAULT
  ⟨0x188, 0, 0xffffffffffffffff, 0, 0, 0, 0⟩  -- RES_DEAD
]

/-- The registers of the TILE page. -/
def regsTILE : List RegSpec := [
  ⟨0x100, 0, 0, 0, 0, 0x1ff3f, 0x10002⟩,  -- TILE_MODE
  ⟨0x108, 0, 0, 0, 0, 0xffffffffff01f, 0xa⟩,  -- TILE_LIST
  ⟨0x110, 0, 0, 0, 0, 0xffffffffffff8, 0⟩,  -- TILE_DBELL
  ⟨0x118, 0, 0, 0, 0, 0xfffc000000000, 0⟩,  -- TILE_VIEW
  ⟨0x120, 0, 0, 0, 0xffffffff0000001f, 0, 0⟩,  -- TILE_HEAD
  ⟨0x128, 0, 0, 0, 0xffffffff0fff031f, 0, 0⟩,  -- TILE_DONE
  ⟨0x130, 0x1ffff, 0, 0, 0, 0, 0x3e8⟩,  -- TILE_TO
  ⟨0x138, 0, 0xffff1fff3fff, 0, 0, 0, 0⟩,  -- TILE_STAT
  ⟨0x140, 0, 0, 0, 0x1, 0, 0⟩,  -- TILE_QUAR
  ⟨0x148, 0, 0x3fffff7fff, 0, 0, 0, 0⟩  -- TILE_FAULT
]

/-- The registers of the LINK page. -/
def regsLINK : List RegSpec := [
  ⟨0x108, 0xfffffff, 0, 0, 0, 0, 0x80f4240⟩,  -- LINK_THRESH
  ⟨0x110, 0, 0xfff7ffff, 0, 0, 0, 0x7f8⟩,  -- LINK_STAT
  ⟨0x118, 0, 0x1f7fffff, 0, 0, 0, 0⟩,  -- LINK_FAR
  ⟨0x120, 0, 0xffffffff00001fff, 0, 0, 0, 0⟩,  -- LINK_LANE
  ⟨0x128, 0, 0xffffffff000fffff, 0, 0, 0, 0⟩  -- LINK_FAULT
]

/-- The end-to-end registers, which stand in LINK0 only. -/
def regsLINK0 : List RegSpec := [
  ⟨0x200, 0, 0, 0, 0, 0x7fff7fff7fff7fff, 0x400010004000040⟩,  -- LINK_WIN0
  ⟨0x208, 0, 0, 0, 0, 0x7fff7fff7fff, 0x40008001000⟩,  -- LINK_WIN1
  ⟨0x210, 0, 0, 0, 0, 0xff03ff73ff, 0x1900143014⟩,  -- LINK_E2E
  ⟨0x218, 0, 0, 0, 0, 0xffffffff, 0x1020404⟩,  -- LINK_WRR
  ⟨0x220, 0, 0x3fffffffffffff, 0, 0, 0, 0⟩  -- LINK_E2E_STAT
]

/-- The registers of the ROUTE page. -/
def regsROUTE : List RegSpec := [
  ⟨0x100, 0xffffffffff000, 0, 0, 0, 0, 0⟩,  -- ROUTE_IMAGE
  ⟨0x108, 0xffffffffffffffff, 0, 0, 0, 0, 0⟩,  -- ROUTE_SWITCH
  ⟨0x110, 0, 0xffffffff0fffffff, 0, 0, 0, 0⟩,  -- ROUTE_STAT
  ⟨0x118, 0xffffffffffffffff, 0, 0, 0, 0, 0⟩,  -- ROUTE_JOBS0
  ⟨0x120, 0xffffffffffffffff, 0, 0, 0, 0, 0⟩,  -- ROUTE_JOBS1
  ⟨0x128, 0xffffffffffffffff, 0, 0, 0, 0, 0⟩,  -- ROUTE_JOBS2
  ⟨0x130, 0xffffffffffffffff, 0, 0, 0, 0, 0⟩,  -- ROUTE_JOBS3
  ⟨0x138, 0, 0x7ffffff7fffff, 0, 0, 0, 0⟩  -- ROUTE_FAULT
]

/-- The registers of the DISC page. -/
def regsDISC : List RegSpec := [
  ⟨0x100, 0xffffffffffffffff, 0, 0, 0, 0, 0⟩,  -- DISC_IDENT
  ⟨0x108, 0xffffffff, 0, 0, 0, 0, 0⟩,  -- DISC_INCARN
  ⟨0x110, 0xfffffffff, 0, 0, 0, 0, 0x286440⟩,  -- DISC_CTL
  ⟨0x118, 0xffffff, 0x3000000, 0, 0, 0, 0⟩,  -- DISC_NODE
  ⟨0x120, 0xfffffff800000, 0, 0, 0, 0, 0⟩,  -- DISC_LSDB
  ⟨0x128, 0xffffffffff00f, 0, 0, 0, 0, 0⟩,  -- DISC_MAIL
  ⟨0x130, 0xffff, 0xffff00000000, 0, 0, 0, 0⟩,  -- DISC_MAIL_HEAD
  ⟨0x138, 0, 0, 0, 0xfffffffffffc0, 0, 0⟩,  -- DISC_PATH
  ⟨0x140, 0, 0xffffffffffffffff, 0, 0, 0, 0⟩,  -- DISC_COORD
  ⟨0x148, 0, 0x3ffffffffff, 0, 0, 0, 0⟩  -- DISC_STAT
]

/-- The registers of the MSEM page. -/
def regsMSEM : List RegSpec := [
  ⟨0x100, 0, 0, 0, 0, 0xffffffffff1ff, 0⟩,  -- MSEM_REGIONS
  ⟨0x108, 0, 0xffffffffff1ff, 0, 0, 0, 0⟩,  -- MSEM_REGIONS_LIVE
  ⟨0x110, 0xfffffffff0000, 0, 0, 0, 0, 0⟩,  -- MSEM_HOLD
  ⟨0x118, 0, 0, 0, 0, 0xffffffffffe1f, 0⟩,  -- MSEM_ILV
  ⟨0x120, 0xffffffffff01f, 0, 0, 0, 0, 0⟩,  -- MSEM_RING
  ⟨0x128, 0, 0, 0, 0xffffffff, 0, 0⟩,  -- MSEM_TAIL
  ⟨0x130, 0, 0xffffffff, 0, 0, 0, 0⟩,  -- MSEM_HEAD
  ⟨0x138, 0xffffffffff00f, 0, 0, 0, 0, 0⟩,  -- MSEM_INVAL
  ⟨0x140, 0xffff, 0xffff00000000, 0, 0, 0, 0⟩,  -- MSEM_INVAL_HEAD
  ⟨0x148, 0, 0, 0x1, 0, 0, 0⟩,  -- MSEM_INVAL_STAT
  ⟨0x150, 0x7f, 0, 0, 0, 0, 0xa⟩,  -- MSEM_TIMEOUT
  ⟨0x158, 0xffffff, 0, 0, 0, 0, 0⟩,  -- MSEM_MGR
  ⟨0x160, 0, 0, 0, 0, 0x1, 0x1⟩,  -- MSEM_COMB
  ⟨0x168, 0, 0, 0, 0xffff, 0, 0⟩,  -- MSEM_TEARDOWN
  ⟨0x170, 0, 0, 0, 0, 0xffffffffff800, 0⟩,  -- MSEM_GW
  ⟨0x178, 0, 0, 0, 0, 0xfffffffffffff, 0⟩,  -- MSEM_ROB
  ⟨0x180, 0xffffffffffffffff, 0, 0, 0, 0, 0⟩,  -- MSEM_SEM_IRQ0
  ⟨0x188, 0xffffffffffffffff, 0, 0, 0, 0, 0⟩,  -- MSEM_SEM_IRQ1
  ⟨0x190, 0, 0xffff0fff7fff, 0, 0, 0, 0⟩,  -- MSEM_STAT
  ⟨0x198, 0, 0xffffffff7fffff, 0, 0, 0, 0⟩  -- MSEM_FAULT
]

/-- The registers of the PORTER page. -/
def regsPORTER : List RegSpec := [
  ⟨0x100, 0xffffffffff01f, 0, 0, 0, 0, 0⟩,  -- PORTER_RING
  ⟨0x108, 0, 0, 0, 0xffffffff, 0, 0⟩,  -- PORTER_TAIL
  ⟨0x110, 0, 0xffffffff, 0, 0, 0, 0⟩,  -- PORTER_HEAD
  ⟨0x118, 0, 0xff7f, 0, 0, 0, 0⟩,  -- PORTER_STAT
  ⟨0x120, 0, 0xffffffffffff, 0, 0, 0, 0⟩  -- PORTER_FAULT
]

/-- The registers of the COLL page. -/
def regsCOLL : List RegSpec := [
  ⟨0x100, 0xffffffffc0000, 0, 0, 0, 0, 0⟩,  -- COLL_GROUPS
  ⟨0x108, 0, 0, 0, 0x30fff, 0, 0⟩,  -- COLL_CREATE
  ⟨0x110, 0, 0x77fffff7fff, 0, 0, 0, 0⟩,  -- COLL_GSTAT
  ⟨0x118, 0xffffffffff01f, 0, 0, 0, 0, 0⟩,  -- COLL_RING
  ⟨0x120, 0, 0, 0, 0xffffffff, 0, 0⟩,  -- COLL_TAIL
  ⟨0x128, 0, 0xffffffff, 0, 0, 0, 0⟩,  -- COLL_HEAD
  ⟨0x130, 0x3ff0001ffff, 0, 0, 0, 0, 0x64000003e8⟩,  -- COLL_TO
  ⟨0x138, 0, 0, 0, 0, 0x1ffffff, 0⟩,  -- COLL_LL
  ⟨0x140, 0, 0x1ffff, 0, 0, 0, 0⟩,  -- COLL_LL_STAT
  ⟨0x148, 0, 0x1ffffffff, 0, 0, 0, 0⟩,  -- COLL_WAIT
  ⟨0x150, 0, 0x7ffffffffffffff, 0, 0, 0, 0⟩  -- COLL_FAULT
]

/-- The registers of the DET page. -/
def regsDET : List RegSpec := [
  ⟨0x100, 0xf, 0, 0, 0, 0, 0x1⟩,  -- DET_CTL
  ⟨0x108, 0, 0, 0, 0, 0xffffffffffffffff, 0⟩,  -- DET_SEED0
  ⟨0x110, 0, 0, 0, 0, 0xffffffffffffffff, 0⟩,  -- DET_SEED1
  ⟨0x118, 0, 0, 0, 0, 0xffffffffffffffff, 0⟩,  -- DET_SEED2
  ⟨0x120, 0, 0, 0, 0, 0xffffffffffffffff, 0⟩,  -- DET_SEED3
  ⟨0x128, 0, 0, 0, 0, 0xffffffffff01f, 0⟩,  -- DET_RING
  ⟨0x130, 0, 0, 0, 0, 0xffffffffff01f, 0⟩,  -- DET_TRACE
  ⟨0x138, 0, 0, 0, 0, 0x3ff00ffffff, 0x6400000000⟩,  -- DET_PAIR
  ⟨0x140, 0, 0x7f7fffffffff, 0, 0, 0, 0⟩,  -- DET_STAT
  ⟨0x148, 0, 0x3fff, 0, 0, 0, 0⟩,  -- DET_DIV
  ⟨0x150, 0, 0xffffffffffffffff, 0, 0, 0, 0⟩,  -- DET_DIV_BELL
  ⟨0x158, 0, 0, 0, 0x1, 0, 0⟩,  -- DET_DIV_CLR
  ⟨0x160, 0, 0xffffffffffff01ff, 0, 0, 0, 0⟩,  -- DET_LAST_ID
  ⟨0x168, 0, 0xffffffffffffffff, 0, 0, 0, 0⟩,  -- DET_LAST_S1
  ⟨0x170, 0, 0xffffffffffffffff, 0, 0, 0, 0⟩,  -- DET_LAST_S2
  ⟨0x178, 0, 0xffffffffffffffff, 0, 0, 0, 0⟩,  -- DET_LAST_S3
  ⟨0x180, 0, 0xffffffffffffffff, 0, 0, 0, 0⟩,  -- DET_LAST_S4
  ⟨0x188, 0, 0xffffffffffffffff, 0, 0, 0, 0⟩  -- DET_LAST_S5
]

/-- The registers of the CTX page. -/
def regsCTX : List RegSpec := [
  ⟨0x100, 0, 0, 0, 0, 0xffffffffffffffff, 0⟩,  -- CTX_MODEL
  ⟨0x108, 0xffffffffffffffff, 0, 0, 0, 0, 0⟩,  -- CTX_MODEL_AT
  ⟨0x110, 0, 0, 0, 0, 0xfffffffe0ffff, 0⟩,  -- CTX_SAVE_POOL
  ⟨0x118, 0, 0, 0, 0xffff003f1f1f, 0, 0⟩,  -- CTX_CREATE
  ⟨0x120, 0, 0, 0, 0, 0xf, 0⟩,  -- CTX_RESIDENT
  ⟨0x128, 0, 0xf, 0, 0, 0, 0⟩,  -- CTX_RESIDENT_LIVE
  ⟨0x130, 0, 0, 0, 0xf, 0, 0⟩,  -- CTX_URGENT
  ⟨0x138, 0, 0x3ffff, 0, 0, 0, 0⟩,  -- CTX_STATE
  ⟨0x140, 0, 0xffffffff007fffff, 0, 0, 0, 0⟩,  -- CTX_INFO0
  ⟨0x148, 0, 0xffffffff007fffff, 0, 0, 0, 0⟩,  -- CTX_INFO1
  ⟨0x150, 0, 0xffffffff007fffff, 0, 0, 0, 0⟩,  -- CTX_INFO2
  ⟨0x158, 0, 0xffffffff007fffff, 0, 0, 0, 0⟩,  -- CTX_INFO3
  ⟨0x160, 0, 0xffffffffffffffff, 0, 0, 0, 0⟩,  -- CTX_INTERF0
  ⟨0x168, 0, 0xffffffffffffffff, 0, 0, 0, 0⟩,  -- CTX_INTERF1
  ⟨0x170, 0, 0xffffffffffffffff, 0, 0, 0, 0⟩,  -- CTX_INTERF2
  ⟨0x178, 0, 0xffffffffffffffff, 0, 0, 0, 0⟩,  -- CTX_INTERF3
  ⟨0x180, 0, 0xffffffffffffff03, 0, 0, 0, 0⟩  -- CTX_FAULT
]

/-- The registers of the SAFE page. -/
def regsSAFE : List RegSpec := [
  ⟨0x100, 0, 0, 0x1fe, 0, 0, 0⟩,  -- SAFE_CAUSE
  ⟨0x108, 0, 0xfff03ffff07, 0, 0, 0, 0⟩,  -- SAFE_FIRST
  ⟨0x110, 0, 0xffffffffffffffff, 0, 0, 0, 0⟩,  -- SAFE_FIRST_BELL
  ⟨0x118, 0, 0xffffffffffffffff, 0, 0, 0, 0⟩,  -- SAFE_SUSPECT
  ⟨0x120, 0, 0x7ffffffffffff, 0, 0, 0, 0⟩,  -- SAFE_LEDGER
  ⟨0x128, 0, 0xffffffff01ff, 0, 0, 0, 0⟩,  -- SAFE_WDOG
  ⟨0x130, 0, 0, 0, 0, 0x1f, 0x18⟩,  -- SAFE_SCRUB
  ⟨0x138, 0, 0xffffffffffffffff, 0, 0, 0, 0⟩,  -- SAFE_LATENT
  ⟨0x140, 0, 0x1f, 0, 0, 0, 0x2⟩  -- SAFE_ALARM
]

/-- The registers of the SPARE page. -/
def regsSPARE : List RegSpec := [
  ⟨0x100, 0, 0x1ff01ff01ff, 0, 0, 0, 0⟩,  -- SPARE_TILES
  ⟨0x108, 0, 0x3ffffffff, 0, 0, 0, 0⟩,  -- SPARE_LANES
  ⟨0x110, 0, 0xfffffffffffff, 0, 0, 0, 0⟩,  -- SPARE_KBANKS
  ⟨0x118, 0, 0xffffffffffffffff, 0, 0, 0, 0⟩,  -- SPARE_SBANKS0
  ⟨0x120, 0, 0xff, 0, 0, 0, 0⟩,  -- SPARE_SBANKS1
  ⟨0x128, 0, 0x1f, 0, 0, 0, 0⟩,  -- SPARE_CTRL
  ⟨0x130, 0, 0xffff, 0, 0, 0, 0x8421⟩,  -- SPARE_LEFT
  ⟨0x138, 0, 0, 0, 0xfff, 0, 0⟩,  -- SPARE_RETIRE
  ⟨0x140, 0xffff, 0, 0, 0, 0, 0x40⟩  -- SPARE_THRESH
]

/-- The registers of the PSAFE page. -/
def regsPSAFE : List RegSpec := [
  ⟨0x100, 0, 0xffffff, 0, 0, 0, 0⟩,  -- PSAFE_SLICES
  ⟨0x108, 0, 0, 0, 0x107, 0, 0⟩,  -- PSAFE_RETIRE
  ⟨0x110, 0, 0xff, 0, 0, 0, 0⟩,  -- PSAFE_CAUSE
  ⟨0x118, 0, 0xffffffffffffff07, 0, 0, 0, 0⟩  -- PSAFE_DEAD
]

/-- The registers of the SLC page. -/
def regsSLC : List RegSpec := [
  ⟨0x100, 0, 0xf, 0, 0, 0, 0⟩,  -- SLC_STATE
  ⟨0x108, 0, 0xffff00ff3fff, 0, 0, 0, 0⟩,  -- SLC_BIST
  ⟨0x110, 0xfffffffffffc0, 0, 0, 0, 0, 0⟩,  -- SLC_REPAIR
  ⟨0x118, 0xfffffffffffc5, 0x8, 0, 0, 0, 0⟩,  -- SLC_MAPOUT
  ⟨0x120, 0, 0x3fff, 0, 0, 0, 0x3fff⟩,  -- SLC_BLOCK
  ⟨0x128, 0, 0, 0, 0x1fff, 0, 0⟩  -- SLC_UNIT_RST
]

/-- The registers of the MCODE page. -/
def regsMCODE : List RegSpec := [
  ⟨0x100, 0, 0, 0, 0xfffffffffffc0, 0, 0⟩,  -- MCODE_LOAD
  ⟨0x108, 0, 0x1f7f, 0, 0, 0, 0x800⟩,  -- MCODE_STAT
  ⟨0x110, 0, 0xffffffffffffffff, 0, 0, 0, 0⟩,  -- MCODE_REV
  ⟨0x118, 0xffffffffffffffff, 0, 0, 0, 0, 0⟩  -- MCODE_SWITCH
]

/-- The registers of the EBS page. -/
def regsEBS : List RegSpec := [
  ⟨0x100, 0xf7, 0, 0, 0, 0, 0⟩,  -- EBS_CFG
  ⟨0x108, 0x3ff, 0, 0, 0, 0, 0xa⟩,  -- EBS_WAIT
  ⟨0x110, 0, 0x1fffffff, 0, 0, 0, 0⟩,  -- EBS_STAT
  ⟨0x118, 0, 0xf7ff03, 0, 0, 0, 0⟩  -- EBS_FAULT
]

/-- The registers of the PKG page. -/
def regsPKG : List RegSpec := [
  ⟨0x100, 0, 0xffff0fff, 0, 0, 0, 0⟩,  -- PKG_SLICES
  ⟨0x108, 0, 0xffffc07ff, 0, 0, 0, 0⟩  -- PKG_FAULT
]

/-- The registers of the LEAD page. -/
def regsLEAD : List RegSpec := [
  ⟨0x100, 0, 0xffffffffffffff0f, 0, 0, 0, 0⟩,  -- LEAD_STAT
  ⟨0x108, 0, 0, 0, 0x107, 0, 0⟩  -- LEAD_MOVE
]

/-- The registers of the TALLY page. -/
def regsTALLY : List RegSpec := [
  ⟨0x180, 0, 0x3ffffffffffff, 0, 0, 0, 0⟩  -- TALLY_SAT
]

/-- The registers of the EVLOG page. -/
def regsEVLOG : List RegSpec := [
  ⟨0x100, 0xffffffffc0000, 0, 0, 0, 0, 0⟩,  -- EVLOG_RING
  ⟨0x108, 0, 0xffffffffffffffff, 0, 0, 0, 0⟩,  -- EVLOG_NEXT
  ⟨0x110, 0xffffffffffffffff, 0, 0, 0, 0, 0⟩,  -- EVLOG_HEAD
  ⟨0x118, 0, 0xffffffff, 0, 0, 0, 0⟩  -- EVLOG_STAT
]

/-- The registers of the TRACE page. -/
def regsTRACE : List RegSpec := [
  ⟨0x100, 0xffffffffff01f, 0, 0, 0, 0, 0⟩,  -- TRACE_RING
  ⟨0x108, 0xffff, 0, 0, 0, 0, 0⟩,  -- TRACE_CTL
  ⟨0x110, 0, 0xffffffffffffffff, 0, 0, 0, 0⟩,  -- TRACE_WPTR
  ⟨0x118, 0, 0x1ffff, 0, 0, 0, 0⟩,  -- TRACE_STAT
  ⟨0x120, 0, 0, 0, 0xffffffffffffffff, 0, 0⟩  -- TRACE_MARK
]

/-- The registers of the TIME page. -/
def regsTIME : List RegSpec := [
  ⟨0x100, 0, 0xffffffffffffffff, 0, 0, 0, 0⟩,  -- TIME_NOW
  ⟨0x108, 0, 0x1ffffffffff, 0, 0, 0, 0⟩,  -- TIME_SYNC
  ⟨0x110, 0, 0x3ffffffffffff, 0, 0, 0, 0⟩  -- TIME_MASTER
]

/-- The registers of the PTIME page. -/
def regsPTIME : List RegSpec := [
  ⟨0x100, 0, 0xffffffffffffffff, 0, 0, 0, 0⟩,  -- PTIME_NOW
  ⟨0x108, 0, 0, 0, 0xffffffffffffffff, 0, 0⟩,  -- PTIME_SET
  ⟨0x110, 0, 0xffff000f, 0, 0, 0, 0⟩  -- PTIME_STAT
]

/-- The registers of the DIRCTL page. -/
def regsDIRCTL : List RegSpec := [
  ⟨0x100, 0, 0, 0, 0xfffffffffffff, 0, 0⟩,  -- DIRCTL_EDIT
  ⟨0x108, 0xffffffffffffffff, 0, 0, 0, 0, 0⟩,  -- DIRCTL_AT
  ⟨0x110, 0, 0xffffffff07ffff77, 0, 0, 0, 0⟩,  -- DIRCTL_STAT
  ⟨0x118, 0x1, 0, 0, 0, 0, 0x1⟩,  -- DIRCTL_CTL
  ⟨0x120, 0, 0xffffffffffffffff, 0, 0, 0, 0⟩,  -- DIRCTL_DIGEST
  ⟨0x128, 0, 0xffffffffffff01ff, 0, 0, 0, 0⟩  -- DIRCTL_SPLIT
]

/-- LINK_CTL of port `p`: the field ROLE resets to 1 (spare) on ports 16 and 17 (R312). -/
def regLinkCtl (p : Nat) : RegSpec := ⟨0x100, 0, 0, 0, 0, 0xf, if p < 16 then 1 else 3⟩

/-- The reserved vectors of R515: they belong to no page and are never raised. -/
def reservedVector (v : Nat) : Bool :=
  v == 0x1E || v == 0x1F || (0x32 ≤ v && v ≤ 0x37) || v == 0x3E || v == 0x3F || 0x40 ≤ v

/-- The IRQ page's register at an offset (R522): the address and data of vector v, every bit of both reserved for a
reserved vector, and the four common registers. -/
def specIRQ (off : Nat) : Option RegSpec :=
  if 0x100 ≤ off ∧ off < 0x500 ∧ off % 8 = 0 then
    let v := (off - 0x100) / 16
    if reservedVector v then some ⟨off, 0, 0, 0, 0, 0, 0⟩
    else if off % 16 = 0 then some ⟨off, 0xFFFFFFFFFFFF8, 0, 0, 0, 0, 0⟩
    else some ⟨off, 0xFFFFFFFFFFFFFFFF, 0, 0, 0, 0, 0⟩
  else if off = 0x500 then some ⟨0x500, 0xffffffffffffffff, 0, 0, 0, 0, 0xffffffffffffffff⟩
  else if off = 0x508 then some ⟨0x508, 0, 0xffffffffffffffff, 0, 0, 0, 0⟩
  else if off = 0x510 then some ⟨0x510, 0, 0, 0, 0x3F03FFFF3FFFFFFF, 0, 0⟩
  else if off = 0x518 then some ⟨0x518, 0, 0x7fffffffff, 0, 0, 0, 0⟩
  else none

/-- A run of `n` registers of one shape from `base`, 8 bytes apart. -/
def specRun (off base n : Nat) (x : RegSpec) : Option RegSpec :=
  if base ≤ off ∧ off < base + 8 * n ∧ off % 8 = 0 then some { x with off := off } else none

/-- The row of a list at an offset. -/
def specFind (off : Nat) : List RegSpec → Option RegSpec
  | [] => none
  | x :: t => if x.off = off then some x else specFind off t

/-- The page of a page number: its block-specific registers (R514, R515); none where the index holds no block. -/
def pageSpec (pg : Nat) (off : Nat) : Option RegSpec :=
  match pg with
  | 0x00 => specFind off regsSLC
  | 0x01 => specFind off regsBELL
  | 0x02 => specFind off regsSEQ
  | 0x03 => specFind off regsSCORE
  | 0x04 => specFind off regsKEYS
  | 0x05 => specFind off regsSEL
  | 0x06 => specFind off regsAUC
  | 0x07 => specFind off regsSORT
  | 0x08 => specFind off regsDISP
  | 0x09 => specFind off regsPOOL
  | 0x0A => specFind off regsCMB
  | 0x0B => specFind off regsRES
  | 0x0C => specFind off regsTILE
  | 0x0D => specFind off regsMEMP
  | 0x0E => specFind off regsPORTER
  | 0x0F => (specFind off regsMSEM).orElse fun _ => specRun off 0x400 128 ⟨0, 0xFFFFFFFFFFFFFFFF, 0, 0, 0, 0, 0⟩
  | 0x10 => specFind off regsCOLL
  | 0x11 => specFind off regsROUTE
  | 0x12 => specFind off regsDISC
  | 0x13 => specFind off regsDET
  | 0x14 => specFind off regsCTX
  | 0x15 => specFind off regsSAFE
  | 0x16 => specFind off regsSPARE
  | 0x17 => specFind off regsEBS
  | 0x18 => specFind off regsTIME
  | 0x19 => (specFind off regsTALLY).orElse fun _ => specRun off 0x100 16 ⟨0, 0, 0xFFFFFFFFFFFFFFFF, 0, 0, 0, 0⟩
  | 0x1A => specFind off regsTRACE
  | 0x1B => specFind off regsEVLOG
  | 0x1C => (specFind off regsMCODE).orElse fun _ => specRun off 0x140 32 ⟨0, 0xFFFFFFFFFFFFFFFF, 0, 0, 0, 0, 0⟩
  | 0x1D => specIRQ off
  | 0x100 => specFind off regsPKG
  | 0x101 => specFind off regsPBELL
  | 0x102 => specFind off regsPSAFE
  | 0x103 => specFind off regsLEAD
  | 0x104 => specFind off regsDIRCTL
  | 0x105 => specFind off regsPTIME
  | _ =>
    if 0x20 ≤ pg ∧ pg < 0x32 then
      if off = 0x100 then some (regLinkCtl (pg - 0x20))
      else (specFind off regsLINK).orElse fun _ => if pg = 0x20 then specFind off regsLINK0 else none
    else none

/-- A page number that holds a block (R514, R515). -/
def pageExists (pg : Nat) : Bool := pg < 0x1E || (0x20 ≤ pg && pg < 0x32) || (0x100 ≤ pg && pg < 0x106)

/-- The header register at an offset (R518): the identity registers are computed on a read, their reset here is 0. -/
def headerSpec (off : Nat) : Option RegSpec :=
  match off with
  | 0x00 => some ⟨0x00, 0, 0xFF0FFF, 0, 0, 0, 0⟩
  | 0x08 => some ⟨0x08, 0, 0x3F01FF7F, 0, 0, 0, 0⟩
  | 0x10 => some ⟨0x10, 0, 0, 0, 0x3, 0, 0⟩
  | 0x18 => some ⟨0x18, 0, 0x7, 0, 0, 0, 0⟩
  | 0x20 => some ⟨0x20, 0, 0, 0x7, 0, 0, 0⟩
  | 0x28 => some ⟨0x28, 0x7, 0, 0, 0, 0, 0x4⟩
  | 0x30 => some ⟨0x30, 0, 0xFFFFFFFFFFFFFFFF, 0, 0, 0, 0⟩
  | 0x38 => some ⟨0x38, 0, 0xFFFFFFFF, 0, 0, 0, 0⟩
  | 0x40 => some ⟨0x40, 0xF, 0xFFFF00000000, 0, 0x10, 0, 0x8⟩
  | 0x48 => some ⟨0x48, 0, 0xFFFFFFFFFFFFFFFF, 0, 0, 0, 0⟩
  | _ => if 0x80 ≤ off ∧ off < 0x100 ∧ off % 8 = 0 then some ⟨off, 0, 0x800000FFFFFFFFFF, 0, 0, 0, 0⟩ else none

/-- The register that a register number names; none for an offset that names none (R512). -/
def regSpec (r : Nat) : Option RegSpec :=
  let pg := r / 0x1000
  let off := r % 0x1000
  if pageExists pg then (if off < 0x100 then headerSpec off else pageSpec pg off) else none

/-- The registers of the slice whose reset value is not zero, by register number (the field tables' Reset columns). -/
def nonzeroResets : List (Nat × Nat) := [
  (0x00120, 0x3fff),  -- SLC_BLOCK
  (0x01108, 0x3e8),  -- BELL_ALLOW
  (0x01110, 0x64),  -- BELL_LEAD
  (0x01118, 0x4),  -- BELL_DIAM
  (0x02108, 0x100000000000000),  -- SEQ_COUNT
  (0x03110, 0x10ff8),  -- SCORE_TILES
  (0x04120, 0x1),  -- KEYS_OLD
  (0x05110, 0x10000),  -- SEL_CHECK
  (0x06110, 0x40),  -- AUC_BIDSPACE
  (0x06120, 0x64),  -- AUC_CLOSE_TO
  (0x07100, 0x2000ffffffff),  -- SORT_LANES
  (0x09128, 0x20),  -- POOL_FRAMES
  (0x0A128, 0x10),  -- CMB_RET_MAP
  (0x0A130, 0x3e8),  -- CMB_RET_TO
  (0x0B160, 0x2),  -- RES_PLAN
  (0x0C100, 0x10002),  -- TILE_MODE
  (0x0C108, 0xa),  -- TILE_LIST
  (0x0C130, 0x3e8),  -- TILE_TO
  (0x0D108, 0xffff),  -- MEMP_PORT_EN
  (0x0D110, 0x64),  -- MEMP_TIMEOUT
  (0x0D120, 0xffff),  -- MEMP_PORT_LIVE
  (0x0F150, 0xa),  -- MSEM_TIMEOUT
  (0x0F160, 0x1),  -- MSEM_COMB
  (0x10130, 0x64000003e8),  -- COLL_TO
  (0x12110, 0x286440),  -- DISC_CTL
  (0x13100, 0x1),  -- DET_CTL
  (0x13138, 0x6400000000),  -- DET_PAIR
  (0x15130, 0x18),  -- SAFE_SCRUB
  (0x15140, 0x2),  -- SAFE_ALARM
  (0x16130, 0x8421),  -- SPARE_LEFT
  (0x16140, 0x40),  -- SPARE_THRESH
  (0x17108, 0xa),  -- EBS_WAIT
  (0x1C108, 0x800),  -- MCODE_STAT
  (0x1D500, 0xffffffffffffffff),  -- IRQ_MASK
  (0x104118, 0x1)  -- DIRCTL_CTL
]

/-- Looks a number up in a list of pairs; 0 when it is not there. -/
def assocD (k : Nat) : List (Nat × Nat) → Nat
  | [] => 0
  | (a, v) :: t => if a = k then v else assocD k t

/-- The value a register holds at reset (R10 and the Reset columns); 0 where the tables give 0. -/
def resetOf (r : Nat) : W64 :=
  let off := r % 0x1000
  if off < 0x100 then (if off = 0x28 then 4#64 else if off = 0x40 then 8#64 else 0#64)
  else if 0x20000 ≤ r ∧ r < 0x32000 then
    (if off = 0x100 then BitVec.ofNat 64 (regLinkCtl (r / 0x1000 - 0x20)).reset
     else match specFind off regsLINK with
       | some x => BitVec.ofNat 64 x.reset
       | none => if r < 0x21000 then BitVec.ofNat 64 ((specFind off regsLINK0).elim 0 (·.reset)) else 0#64)
  else BitVec.ofNat 64 (assocD r nonzeroResets)

end Sys2Proof.Machine
end

