-- ==== Sys2Proof/Machine/Sparse.lean ====
section
/-! DEFINITION. Sparse data by key: one canonical list form for registers, memories and tables. A list of
(key, value) pairs has strictly rising keys and lists no pair whose value is what an unlisted key reads as. -/
namespace Sys2Proof.Machine

/-- A table by number, as a list of pairs. -/
abbrev Table (α : Type) := List (Nat × α)

/-- The entry of a key; none when it is not listed. -/
def tFind {α : Type} (k : Nat) : Table α → Option α
  | [] => none
  | (a, v) :: t => if a = k then some v else if k < a then none else tFind k t

/-- The table with key `k` listed as `v`. -/
def tPut {α : Type} (k : Nat) (v : α) : Table α → Table α
  | [] => [(k, v)]
  | (a, w) :: t => if k < a then (k, v) :: (a, w) :: t else if k = a then (k, v) :: t else (a, w) :: tPut k v t

/-- The table with key `k` not listed. -/
def tDel {α : Type} (k : Nat) : Table α → Table α
  | [] => []
  | (a, w) :: t => if k < a then (a, w) :: t else if k = a then t else (a, w) :: tDel k t

/-- What a table with default `d` reads at a key. -/
def tGet {α : Type} (d : Nat → α) (k : Nat) (m : Table α) : α := (tFind k m).getD (d k)

/-- A write that keeps the canonical form: writing the default removes the entry. -/
def tSet {α : Type} [DecidableEq α] (d : Nat → α) (k : Nat) (v : α) (m : Table α) : Table α :=
  if v = d k then tDel k m else tPut k v m

/-- The keys rise strictly from above `lo` (exclusive bound `lo ≤ key`). -/
def tRising {α : Type} : Nat → Table α → Bool
  | _, [] => true
  | lo, (a, _) :: t => decide (lo ≤ a) && tRising (a + 1) t

/-- No listed value is its key's default. -/
def tNoDefault {α : Type} [DecidableEq α] (d : Nat → α) (m : Table α) : Bool :=
  m.all fun p => !decide (p.2 = d p.1)

/-- The canonical form of a table with default `d`. -/
def tWf {α : Type} [DecidableEq α] (d : Nat → α) (m : Table α) : Bool := tRising 0 m && tNoDefault d m

/-- Writes a run of values at keys `k`, `k + 1`, … -/
def tSetRun {α : Type} [DecidableEq α] (d : Nat → α) : Nat → List α → Table α → Table α
  | _, [], m => m
  | k, v :: vs, m => tSetRun d (k + 1) vs (tSet d k v m)

/-- Reads `n` values from key `k` on, in one pass over the entries from `k` on. -/
def tTakeRun {α : Type} (d : Nat → α) : Nat → Nat → Table α → List α
  | 0, _, _ => []
  | n + 1, k, [] => d k :: tTakeRun d n (k + 1) []
  | n + 1, k, (a, v) :: t => if a = k then v :: tTakeRun d n (k + 1) t else d k :: tTakeRun d n (k + 1) ((a, v) :: t)

/-- The entries of a table from key `k` on. -/
def tFrom {α : Type} (k : Nat) : Table α → Table α
  | [] => []
  | (a, v) :: t => if a < k then tFrom k t else (a, v) :: t

/-- Reads `n` values from key `k` on. -/
def tRun {α : Type} (d : Nat → α) (k n : Nat) (m : Table α) : List α := tTakeRun d n k (tFrom k m)

end Sys2Proof.Machine
end

