-- ==== Sys2Proof/Machine/State.lean ====
section
/-! DEFINITION. The state of one slice: its pins, its registers, its memories, its tables, queues and counters, its
copies of the package pages, and the queue of waiting commands. Everything is plain data. Numbers that the manual
computes with as counts are Nat; register values, handles and records keep the manual's bits. -/
namespace Sys2Proof.Machine

/-! ## Pins, memory and logs -/

/-- The pins of R43, R44, R48, R49, R55 and the presence of power (R58). -/
structure Pins where
  porstLow : Bool := true
  slrstLow : Bool := false
  /-- the power of the slice is on (R58) -/
  powered : Bool := true
  /-- IKC_ARITH_STEP and IKC_ARITH_NEXT (R43, R44) -/
  arithStep : Nat := 0
  arithNext : Nat := 0
  /-- the level of IKC_HBEAT (R55) -/
  hbeat : Bool := false
  deriving DecidableEq, Repr

/-- One step of an ordered chain of memory writes (R32): it is issued when the write before it is acknowledged. -/
inductive WStep where
  /-- a write of bytes to host memory -/
  | bytes (addr : Nat) (data : List Byte)
  /-- an engine update of a register that follows an acknowledged write -/
  | reg (r : Nat) (v : W64)
  /-- an addition to a semaphore that follows an acknowledged write (R358) -/
  | semAdd (n : Nat) (v : W64)
  /-- an end of a round's result writes: the token's record counts as written (R234) -/
  | tokenWritten (half : Half) (index : Nat)
  deriving DecidableEq, Repr

/-- A coded entry of the event log that may still merge recordings of its bell (R503). -/
structure EvSeen where
  page : Nat
  code : Nat
  seq : Nat
  count : Nat
  deriving DecidableEq, Repr

/-- The trace FIFO: its words, oldest first, and the pending GAP item (R499, R500). -/
structure TraceSt where
  fifo : List W64 := []
  gapCount : Nat := 0
  gapFirst : Nat := 0
  deriving DecidableEq, Repr

/-- Tallies, keyed by `page * 64 + number`: the live counters, the two latched banks, which bell each bank covers
(none before its first latch), and the banks marked as read, keyed by `page * 2 + bank` (R492 to R496). -/
structure TallySt where
  live : Table Nat := []
  /-- of each tally counted in the cycle in which a bell opens: its count before that cycle, and what the cycle adds (R493) -/
  late : Table (Nat × Nat) := []
  bank0 : Table Nat := []
  bank1 : Table Nat := []
  bell0 : Option Nat := none
  bell1 : Option Nat := none
  readMarks : List Nat := []
  deriving DecidableEq, Repr

/-- Interrupt messages whose memory write is outstanding, and vectors whose message failed (R52, R523). -/
structure IrqSt where
  /-- vector, address and data of each message issued and not yet answered -/
  inFlight : List (Nat × Nat × W64) := []
  failed : List Nat := []
  deriving DecidableEq, Repr

/-! ## The bell -/

/-- A posted step plan (R72, R107): its address, whether its check has ended, and its edits as the check read them. -/
structure Plan where
  addr : Nat
  checked : Bool
  edits : List (List Byte) := []
  deriving DecidableEq, Repr

/-- One admitted token of a bell and half, in the order of R74: the sequence's local index, position, slot generation,
the context it was admitted with (R110), its host ID and hash. -/
structure Tok where
  seq : Nat
  pos : Nat
  gen : Nat
  ctx : Nat
  host : W64
  hash : W64
  deriving DecidableEq, Repr

/-- The admitted set of one bell and half, and the bound of each routed layer (R79). -/
structure AdmSet where
  bell : Nat
  toks : List Tok
  bounds : List Nat
  /-- the ARITH step the Scales used (R44) -/
  step : Nat := 0
  /-- every token of it is tainted: it was selected from a directory copy that is not the package's (R527) -/
  taint : Bool := false
  deriving DecidableEq, Repr

/-- What the layer rounds of one bell run under until they end (R24, R86, R483): the registers and the source set in
force at that bell's open. -/
structure HistEnt where
  bell : Nat
  conf : Table W64
  sources : List Nat
  deriving DecidableEq, Repr

/-- What the Scales sample at bell open (R44, R78, R195, R196): the slower ARITH step, A, the Felano ports counted, the
Ebsan edges in use, and the frames of the two receive regions and the free frames. -/
structure Samp where
  step : Nat := 0
  tiles : Nat := 0
  ports : Nat := 0
  edges : Nat := 0
  calFrames : Nat := 0
  musFrames : Nat := 0
  free : Nat := 0
  deriving DecidableEq, Repr

/-- The bell unit: the schedule copy (R60, R61), the marker held, the lead window (R71), the plans (R72) and what the
ledger header of this bell will show (R88). -/
structure BellSt where
  nextBell : Nat := 0
  nextOpen : Nat := 0
  /-- the bell marker held: n, T(n), the period of bell n (R61) -/
  marker : Option (Nat × Nat × Nat) := none
  everOpened : Bool := false
  /-- the highest bell number this package has opened since IKC_PORST_N (R64) -/
  highest : Nat := 0
  leadOpen : Bool := false
  markerSent : Bool := false
  /-- a period has been staged since reset (R64) -/
  periodEver : Bool := false
  /-- the last bells' configurations, newest first, as long as a round may run under them -/
  hist : List HistEnt := []
  plans : List Plan := []
  deferred : List Plan := []
  plansApplied : Nat := 0
  /-- the Scales have completed for the current bell (R78) -/
  scalesDone : Bool := false
  /-- ledger header flags [0] to [3] of R88 for the current bell -/
  flags : Nat := 0
  /-- codes and conditions recorded at most once in a bell that were recorded in this one -/
  once : List Nat := []
  /-- what the Scales sampled at the last bell open (R78) -/
  samp : Samp := {}
  /-- the candidates of each half at the last bell open, in the order of R74 -/
  candCal : List Tok := []
  candMus : List Tok := []
  /-- bells with slots still to end, and how many (R88) -/
  ledger : Table Nat := []
  /-- LATE notices received: bell, layer, half (R83) -/
  peerLate : List (Nat × Nat × Half) := []
  /-- PBELL_GO has been written with GO since reset (R392) -/
  everGo : Bool := false
  /-- while a bell opens, the pages whose PAGE_ERR_FIRST was empty when the cycle began (R517, R519); empty between
  commands -/
  cycle : List Nat := []
  deriving DecidableEq, Repr

/-! ## Sequences -/

/-- An entry of the sequence table (R95); STATE 0 FREE, 1 ACTIVE, 2 DRAINING, 3 FAILED. -/
structure Seq where
  state : Nat := 0
  gen : Nat := 0
  host : W64 := 0#64
  ctx : Nat := 0
  nextPos : Nat := 0
  promptEnd : Nat := 0
  endPos : Nat := 0
  chunk : Nat := 0
  pendSince : Nat := 0
  admitted : Nat := 0
  outRing : W64 := 0#64
  created : Nat := 0
  failure : W64 := 0#64
  tag : W64 := 0#64
  lifetime : Nat := 0
  updBell : Nat := 0
  updCount : Nat := 0
  /-- the chain of writes that updates this entry's memory copy (R94) -/
  copyChain : Option Nat := none
  /-- the bell at whose open a FINISH applied to it (R110) -/
  finBell : Option Nat := none
  deriving DecidableEq, Repr

/-! ## Rounds at the source -/

/-- How one choice of a token stands (R158 to R160, R170, R178). -/
inductive ChoiceSt where
  /-- no candidate at this rank (R158, R159) -/
  | empty
  /-- made, its bid not yet sent -/
  | fresh
  /-- its bid awaits a verdict -/
  | awaiting
  | granted
  | refused
  /-- its home is dead (R267) -/
  | lost
  deriving DecidableEq, Repr

/-- One choice of a token: candidate index (the rank in token-choice), expert, scores, state; for a grant its compute
site as a source index and its stall offset; `isOpen` for a grant at the source (R160). -/
structure Choice where
  index : Nat
  expert : Nat
  eff : F32
  raw : F32
  st : ChoiceSt
  round : Nat := 0
  reason : Nat := 0
  site : Nat := 0
  offset : Nat := 0
  isOpen : Bool := false
  spill : Bool := false
  deriving DecidableEq, Repr

/-- One outcome of a bid or local refusal, kept for the GRANT string of R403: round, candidate index, expert, verdict,
reason and stall offset. -/
structure Verdict where
  round : Nat
  index : Nat
  expert : Nat
  grant : Bool
  reason : Nat
  offset : Nat
  deriving DecidableEq, Repr

/-- A candidate: expert, effective score, raw score (R131, R155). -/
structure Cand where
  expert : Nat
  eff : F32
  raw : F32
  deriving DecidableEq, Repr

/-- One token of a running round. -/
structure RTok where
  scored : Bool := false
  selected : Bool := false
  /-- token error (R132, R161, R174, R175, R190) -/
  err : Bool := false
  taint : Bool := false
  subst : Bool := false
  spilled : Bool := false
  /-- its sequence failed in this round before the token was written (R112) -/
  failed : Bool := false
  /-- candidates with raw scores, ascending expert ID (R131) -/
  cands : List (Nat × F32) := []
  choices : List Choice := []
  reserve : List Cand := []
  hist : List Verdict := []
  /-- the cause byte of its token error (R403): 1 to 4 scoring, 5 selection, 6 auction or sorter -/
  errCause : Nat := 0
  /-- the selected list L of R184, in order, as selected -/
  sel : List Cand := []
  /-- weight list entries by place (R222) -/
  weights : List F32 := []
  /-- places filled, and the parts that have arrived of places not yet filled (R228) -/
  filled : List Nat := []
  parts : Table Nat := []
  t : Int := 0
  ready : Bool := false
  /-- the result record has been issued, and acknowledged whole (R234) -/
  issued : Bool := false
  written : Bool := false
  status : Nat := 0
  /-- contributions combined (R234) -/
  contrib : Nat := 0
  /-- the vector as written (R234) -/
  vec : List Byte := []
  /-- the chain that writes its result record (R234) -/
  chain : Option Nat := none
  /-- CMB_TAINT_IN recorded (R236) -/
  taintIn : Bool := false
  deriving DecidableEq, Repr

/-- A barrow header as received (R203). -/
structure BarrowHdr where
  held : Bool
  records : Nat
  bytes : Nat
  chunks : Nat
  ready : Nat
  wait : Nat
  skip : Bool := false
  deriving DecidableEq, Repr

/-- A running layer round of one half at its source slice. -/
structure Round where
  layer : Nat
  start : Nat
  toks : List RTok
  /-- scoring index up to which tokens are covered by the last matching shadow comparison (R148) -/
  shadowOk : Nat := 0
  /-- the next shadowed token still to be compared (R147) -/
  shadowNext : Nat := 0
  /-- the auction round in progress and whether its bid-closes have left (R165) -/
  ar : Nat := 0
  closed : Bool := false
  /-- records of the round in progress that no AUC packet carries yet, by home (R189) -/
  bins : Table (List Byte) := []
  /-- bids sent, records sent and verdicts received by home, as source indices (R165, R441) -/
  sentBids : Table Nat := []
  sentRecs : Table Nat := []
  verdicts : Table Nat := []
  lostBids : Table Nat := []
  folded : Bool := false
  gated : Bool := false
  /-- return bytes still expected by site (R227), what was preset, headers and records received by site -/
  z : Table Int := []
  zPreset : Table Nat := []
  hdrs : Table BarrowHdr := []
  recsIn : Table Nat := []
  chunksIn : Table Nat := []
  timedPlaces : Table Nat := []
  lostPlaces : Table Nat := []
  /-- forward barrows not yet acknowledged, by site; records shipped by site -/
  unacked : List Nat := []
  shipped : Table Nat := []
  /-- return chunks that failed their CRC once, by site and tag, and when (R208) -/
  crcFail : List ((Nat × Nat) × Nat) := []
  fwdEnd : Option Nat := none
  lastVerdict : Nat := 0
  retReady : Nat := 0
  held : Bool := false
  bound : Nat := 0
  overlap : Nat := 0
  retWait : Nat := 0
  /-- retry time in cycles of CTRL_CLK (R81) -/
  retry : Nat := 0
  /-- up to when cycles held for replay at the ports are counted in it -/
  heldTo : Nat := 0
  /-- the memory bytes of the slot went beyond W, or FLOOR_SHORT was recorded in its bell (R83, R224) -/
  beyondW : Bool := false
  throttled : Bool := false
  peer : Bool := false
  late : Bool := false
  /-- ready tokens in the order in which they became ready (R238) -/
  readyQ : List Nat := []
  /-- ledger checks 6 and 7 have been evaluated (R441) -/
  ledgerDone : Bool := false
  /-- the return timer has expired (R230) -/
  returnLost : Bool := false
  /-- stall SRAM frames mapped for the return area, in order (R224) -/
  areaFrames : List Nat := []
  localCopies : Nat := 0
  combined : Nat := 0
  withheldIn : Nat := 0
  /-- contributions combined and withheld by auction home, as source indices; those computed here under this slice's (R239) -/
  combinedBy : Table Nat := []
  withheldBy : Table Nat := []
  /-- return records discarded when they came to their place, by site (R103) -/
  discarded : Table Nat := []
  staleIn : Nat := 0
  deriving DecidableEq, Repr

/-- A return barrow that was not complete when its round's LAYER_OUT rang (R21, R212, R227): what came of it, and whether its
header failed its CRC once (R208) or the return timer had expired (R230). -/
structure OpenReturn where
  bell : Nat
  layer : Nat
  node : Nat
  /-- tokens of its round -/
  toks : Nat
  records : Nat
  bytes : Nat
  chunks : Nat
  failed : Bool := false
  lost : Bool := false
  /-- after the timer: the handles of the round's tokens, and chunks returned and not combined (R230) -/
  handles : List W64 := []
  stale : Nat := 0
  deriving DecidableEq, Repr

/-- One half at the source: admitted sets waiting or in work, the expected layer and the held doorbell (R90), the
running round, and the last ended round, which the determinism unit digests (R405). -/
structure HalfSt where
  sets : List AdmSet := []
  expected : Nat := 0
  heldLayer : Option Nat := none
  /-- since when the held doorbell waits for a bank image (R142) -/
  keyWait : Option Nat := none
  cur : Option Round := none
  last : Option (AdmSet × Round) := none
  /-- return barrows of rounds that are over whose header is still to come -/
  openReturns : List OpenReturn := []
  deriving DecidableEq, Repr

/-! ## The auction home -/

/-- A record held in bid space: its round key, source index, and its 16 bytes as two words (R163, R164). -/
structure HeldRec where
  key : Nat
  src : Nat
  lo : W64
  hi : W64
  deriving DecidableEq, Repr

/-- A keeper entry (R167). -/
structure Bid where
  src : Nat
  handle : W64
  eff : F32
  expert : Nat
  rank : Nat
  ext : Nat
  hash : W64
  pos : Nat
  deriving DecidableEq, Repr

/-- One half at the auction home. A round key is `(bell * 256 + layer) * 4 + round`; its order is the order in which
rounds close (R169). -/
structure HomeHalf where
  /-- the round in progress; none before a record of it -/
  cur : Option Nat := none
  /-- the last round closed; none before the first -/
  done : Option Nat := none
  /-- bid-closes held: round key, source, count, time of arrival -/
  closes : List (Nat × Nat × Nat × Nat) := []
  /-- records received of the round in progress, by source -/
  merged : Table Nat := []
  space : List HeldRec := []
  keepers : Table (List Bid) := []
  room : Table Nat := []
  offsets : Table Nat := []
  /-- grants notified by `expert * 4 + replica` over the layer's rounds (R198) -/
  placed : Table Nat := []
  /-- stalls whose FINAL notices have left -/
  finals : List Nat := []
  /-- by round key, the stalls closed for a round that has started (R180, R260) -/
  closedNr : Table (List Nat) := []
  /-- bids, grants and refusals of the stall half (R441) -/
  bids : Table Nat := []
  grants : Table Nat := []
  refusals : Table Nat := []
  /-- rounds ended under R174 -/
  timedOut : List Nat := []
  /-- stall halves whose conservation check failed here, as bell, layer and expert: their records return with TAINT (R442) -/
  broken : List (Nat × Nat × Nat) := []
  /-- sources over their bid-close count (R175) -/
  overSrc : List Nat := []
  deriving DecidableEq, Repr

/-! ## The compute site -/

/-- A forward record at its site: source index, parts that passed, token index and rank (R206), marks. -/
structure SiteRec where
  src : Nat
  parts : Nat := 0
  token : Nat := 0
  rank : Nat := 0
  taint : Bool := false
  whole : Bool := false
  /-- job and priority level of the packets that carried it (R415) -/
  job : Nat := 0
  prio : Nat := 0
  deriving DecidableEq, Repr

/-- A stall half at its site (R200, R212): 0 open, 1 complete and its tiles to come or out, 2 done. -/
structure StallHalf where
  expert : Nat
  st : Nat := 0
  /-- held for residency: now, and at any time (R261) -/
  held : Bool := false
  everHeld : Bool := false
  /-- when it was done (R212), and whether a tile completion brought that about -/
  ready : Nat := 0
  tiled : Bool := false
  /-- NOTICE_MISMATCH has been recorded for it (R202) -/
  mismatch : Bool := false
  /-- every record returns with TAINT (R202, R442) -/
  taint : Bool := false
  deriving DecidableEq, Repr

/-- One half at the compute site (R199 to R202). Stalls go by expert, sources by source index, records by
`expert * 4096 + offset`, and pairs by `expert * 32768 + source`. -/
structure SiteHalf where
  bell : Nat := 0
  layer : Nat := 0
  active : Bool := false
  x : Table Int := []
  y : Table Int := []
  /-- grants notified, released and lost, by pair -/
  counts : Table Nat := []
  released : Table Nat := []
  lost : Table Nat := []
  /-- sums of the counts notified, and the FINAL counts held, by stall -/
  sums : Table Nat := []
  finals : Table Nat := []
  recs : Table SiteRec := []
  empties : List Nat := []
  stalls : Table StallHalf := []
  hdrs : Table BarrowHdr := []
  chunksIn : Table Nat := []
  bytesIn : Table Nat := []
  recsIn : Table Nat := []
  /-- chunks that failed their CRC once: source index and tag without LAST (R208) -/
  crcFail : List (Nat × Nat) := []
  /-- such chunks of layer rounds still to come here: round as `bell * 256 + layer`, source index, tag without LAST -/
  crcAhead : List (Nat × Nat × Nat) := []
  acked : List Nat := []
  /-- return records sent by source, and by stall; return bytes and chunks by source; sources whose header has left -/
  retRecs : Table Nat := []
  retStall : Table Nat := []
  retHdr : List Nat := []
  deriving DecidableEq, Repr

/-- A unit of tile work (R272): a capped stall half, or a gather buffer of an open stall or shared expert; its tiles as
far as they are posted, its completion counter, the tiles still to complete, and the return buffers not yet freed. -/
structure TUnit where
  half : Half
  bell : Nat
  layer : Nat
  expert : Nat
  /-- the gather buffer, or none for a capped stall half -/
  buf : Option Nat
  posted : Nat := 0
  total : Nat := 0
  ctr : Nat := 0
  left : Nat := 0
  bufs : Nat := 0
  /-- held for residency: now and since when, and at any time (R261) -/
  held : Bool := false
  heldAt : Nat := 0
  everHeld : Bool := false
  waitSince : Option Nat := none
  /-- its tiles as they were cut when the first was posted: first record and count (R272, R281) -/
  cuts : List (Nat × Nat) := []
  /-- when it became ready for the tile list writer (R275) -/
  readyAt : Nat := 0
  /-- its block went to FAILED: its records return with WFAIL (R263) -/
  failed : Bool := false
  /-- it has completed; quarantined buffers keep its counter in use (R281, R283) -/
  ended : Bool := false
  deriving DecidableEq, Repr

/-- A posted tile (R277, R281): its unit, list and index there, first record and count, return buffer and counter. -/
structure Tile where
  unit : Nat
  list : Nat
  index : Nat
  first : Nat
  count : Nat
  out : Nat
  ctr : Nat
  /-- every record of it counts as tainted (R282 to R284) -/
  taint : Bool := false
  /-- 0 posted, 1 complete, 2 timed out (R283), 3 withdrawn (R284) -/
  st : Nat := 0
  /-- its return buffer was quarantined and has been freed (R286) -/
  freed : Bool := false
  deriving DecidableEq, Repr

/-- The tile list writer: units in order of readiness, tiles, list tails and heads, quarantined buffers. -/
structure TileSt where
  units : Table TUnit := []
  nextUnit : Nat := 0
  tiles : List Tile := []
  tails : Table Nat := []
  heads : Table Nat := []
  quar : List Nat := []
  /-- the chain of descriptor and doorbell writes of each list (R38, R278) -/
  listChain : Table Nat := []
  deriving DecidableEq, Repr

/-- A record of a local gather (R192, R214): token index, candidate index or shared number. -/
structure GatherRec where
  token : Nat
  /-- the place q it fills (R222) -/
  place : Nat
  deriving DecidableEq, Repr

/-- A gather buffer of class 2 (R214). -/
structure Gather where
  half : Half
  layer : Nat
  expert : Nat
  recs : List GatherRec
  deriving DecidableEq, Repr

/-! ## Staging pools -/

/-- What a 2 MiB frame of stall SRAM is used for (R195, R215, R224, R417). -/
inductive FrameUse where
  | free
  /-- keepers and bid space (R166) -/
  | fixed
  | recv (half : Half)
  | carved (cls : Nat)
  | retArea (half : Half)
  /-- a frame of a context's partition, and the class it is carved into -/
  | partition (ctx : Nat) (cls : Option Nat)
  /-- it has left the pool: a bank of it is retired without a spare (R451) -/
  | gone
  deriving DecidableEq, Repr

/-- An allocated buffer: its owner list (R217), the context it is charged to, and the porter copy that owns it (R418,
R424). -/
structure Buf where
  owners : List Nat
  ctx : Option Nat := none
  copy : Option Nat := none
  deriving DecidableEq, Repr

/-- What a waiting pool request is for: the converted-input stream of a half, or a gather buffer with its records, each a
token, the place it fills and its rank (R214). -/
inductive WaitFor where
  | conv (half : Half)
  | gather (half : Half) (bell layer expert : Nat) (recs : List (Nat × Nat × Nat))
  deriving DecidableEq, Repr

/-- A waiting pool request (R215): its class and owner list, what it is for, and since when it waits. -/
structure Waiter where
  cls : Nat
  owners : List Nat
  ctx : Option Nat
  since : Nat
  for_ : WaitFor := .conv .calico
  deriving DecidableEq, Repr

/-- The pool manager: frame uses (unlisted: free), allocated buffers by buffer ID, waiting requests, buffers granted
to waiting requests and not yet taken, and the placement of the receive regions (R195). -/
structure PoolSt where
  frames : Table FrameUse := []
  bufs : Table Buf := []
  waiters : List Waiter := []
  grants : List (Nat × Waiter) := []
  regionCal : List Nat := []
  regionMus : List Nat := []
  /-- halves whose new region layout waits for the running round at this site (R195) -/
  regionWait : List Half := []
  /-- converted-input buffers of each half (R140, R214) -/
  convCal : List Nat := []
  convMus : List Nat := []
  /-- frames that leave the pool when they are free (R451) -/
  leaving : List Nat := []
  deriving DecidableEq, Repr

/-! ## Scoring -/

/-- A key bank (R141): the layer and table it holds or loads, its image bytes, and the addresses that had an
uncorrectable error in this bell (R144). -/
structure KeyBank where
  table : Nat := 0
  layer : Nat := 0
  valid : Bool := false
  loading : Bool := false
  img : List Byte := []
  ueSeen : List Nat := []
  /-- an address waiting for its refetch, and since when (R143) -/
  refetch : Option (Nat × Nat) := none
  /-- its image could not be read (R145) -/
  bad : Bool := false
  /-- the halves that have finished scoring the layer since the image was loaded (R141) -/
  doneCal : Bool := false
  doneMus : Bool := false
  deriving DecidableEq, Repr

/-- The scoring unit: banks, the end of the last table check, the table's largest C (R146), which tables old rounds
still use, the running self-test (R445) and what the tiles scored since their last passing test (R444). -/
structure ScoreSt where
  bankA : KeyBank := {}
  bankB : KeyBank := {}
  keysPassed : Option (Nat × Nat) := none
  selPassed : Option (Nat × Nat) := none
  /-- a new table waits for rounds of the old one to finish scoring (R141) -/
  switchPending : Bool := false
  selfTest : Bool := false
  mismatchHalf : Option Half := none
  /-- by tile, what it scored since its last passing test (R444): whether that reaches into the round before the
  half's running one, and from which scoring index -/
  patternCal : Table (Bool × Nat) := []
  patternMus : Table (Bool × Nat) := []
  /-- addresses of the projection area with an uncorrectable error in this bell (R144) -/
  projUe : List Nat := []
  /-- an address of the projection area waiting for its refetch, since when, and the half that waits (R143) -/
  projRefetch : Option (Nat × Nat × Half) := none
  deriving DecidableEq, Repr

/-! ## Expert residency -/

/-- A weight block (R254): state 0 ABSENT, 1 FETCHING, 2 RESIDENT, 3 FAILED; where it lies and its tier. -/
structure Block where
  st : Nat := 0
  addr : Nat := 0
  /-- 0 when it is also held in tier 0 (R249), at `addr0` -/
  tier : Nat := 1
  addr0 : Nat := 0
  /-- a pin has been taken (R251) -/
  pin : Bool := false
  deriving DecidableEq, Repr

/-- A queued fetch (R257). -/
structure Fetch where
  expert : Nat
  layer : Nat
  /-- the layer of the planning point that queued it -/
  point : Nat
  heldFirst : Bool := false
  deriving DecidableEq, Repr

/-- A readiness slot of a homed capped stall (R260). -/
structure ReadySlot where
  bell : Nat
  layer : Nat
  bits : List Nat
  deriving DecidableEq, Repr

/-- A checked edit list waiting for its bell (R246): experts with their new entries and descriptors. -/
structure EditList where
  edits : List (Nat × Nat)
  descs : Table (List Byte)
  checkedAt : Nat
  /-- DIR_BUSY has been recorded for it (R247) -/
  busySaid : Bool := false
  /-- an expert was rehomed at a bell open while it was queued: it is checked again before it applies (R247) -/
  recheck : Bool := false
  /-- posted through DIRCTL (R526), applying at this bell or later -/
  pkg : Bool := false
  atBell : Nat := 0
  deriving DecidableEq, Repr

/-- A directory image that is held for a model switch (R429): its entries, and the descriptors it read. -/
structure HeldDir where
  entries : List Nat
  descs : Table (List Byte)
  sources : List Nat
  deriving DecidableEq, Repr

/-- The residency unit. Directory entries are the 128-bit numbers of R242. -/
structure ResSt where
  dir : Table Nat := []
  /-- replaced entries: the bell whose open replaced it, expert, old entry (R247) -/
  undo : List (Nat × Nat × Nat) := []
  descs : Table (List Byte) := []
  blocks : Table Block := []
  queue : List Fetch := []
  /-- planning points reached, as `bell * 256 + layer` (R256), newest first -/
  planned : List Nat := []
  hintPost : Option (Nat × Nat) := none
  hints : List Nat := []
  pins : Table Bool := []
  mirrorFirst : List Nat := []
  ready : Table ReadySlot := []
  loads : Table Nat := []
  latched : Table Nat := []
  global : Table Nat := []
  t2used : Table Nat := []
  editPost : Option (Nat × Nat) := none
  edit : Option EditList := none
  /-- a directory load in progress: the source set it read at its start, and whether it is for a model switch (R245) -/
  dirLoad : Option (List Nat × Bool) := none
  /-- held for a model switch (R429) -/
  heldDesc : Option Nat := none
  heldDir : Option HeldDir := none
  /-- dead-slice notices: source index and rehoming bell; and the indices already rehomed (R265, R268) -/
  dead : List (Nat × Nat) := []
  rehomed : List Nat := []
  /-- this slice's source index and the source set in force (R166) -/
  sources : List Nat := []
  deriving DecidableEq, Repr

/-! ## The TOK sender -/

/-- A chunk ready to send (R205): destination node, tag, bytes, bell, and the job and priority
level of its packet (R415). -/
structure TokChunk where
  dest : Nat
  tag : W64
  bytes : List Byte
  bell : Nat
  job : Nat
  prio : Nat
  deriving DecidableEq, Repr

/-- The TOK sender: ready chunks of each half, the half it serves, and the chunks kept until the end-to-end
acknowledgement (R208, R213). -/
structure TokSt where
  cal : List TokChunk := []
  mus : List TokChunk := []
  sinceCal : Nat := 0
  sinceMus : Nat := 0
  serving : Option Half := none
  /-- up to when the waits of the half that is not served have been counted -/
  countedTo : Nat := 0
  kept : List TokChunk := []
  /-- time that return chunks waited, by `destination * 2 + half` (R212) -/
  waits : Table Nat := []
  deriving DecidableEq, Repr

/-! ## Contexts -/

/-- A frame in a save area (R420, R425): the class it is carved into, whether it was saved whole, and the buffers that it
held, by their place in the frame. -/
structure SavedFrame where
  cls : Nat
  whole : Bool
  bufs : List (Nat × Buf)
  deriving DecidableEq, Repr

/-- A context (R417, R432): state 0 ABSENT, 1 RESIDENT, 2 STOPPING, 3 SAVING, 4 SAVED, 5 RESTORING. -/
structure Ctx where
  st : Nat := 0
  job : Nat := 0
  spill : Bool := false
  tag : Nat := 0
  /-- partition frames (PARTITION), or place and size in MiB of the save data (SPILL) -/
  partFrames : List Nat := []
  saveBase : Nat := 0
  saveMib : Nat := 0
  /-- it was pre-empted urgently (R425) -/
  urgent : Bool := false
  /-- it is leaving, or entering, by the switch in progress (R420) -/
  leaving : Bool := false
  entering : Bool := false
  /-- its restore has ended: it is RESIDENT from the next bell open -/
  restored : Bool := false
  /-- since when it is not RESIDENT; waits of its buffer requests, switches and displaced tokens of this bell (R431) -/
  outSince : Nat := 0
  poolWait : Nat := 0
  switches : Nat := 0
  displaced : Nat := 0
  /-- a destroy waits for its state to end (R428) -/
  destroyWaits : Bool := false
  /-- CTX_MODEL_MISMATCH has been recorded (R430) -/
  mismatchSaid : Bool := false
  /-- the frames in its save area, by their offset from frame 0 of its save map (R419, R420) -/
  saved : List SavedFrame := []
  deriving DecidableEq, Repr

/-- The context unit: contexts 0 to 3, the switch in progress and whether its bell has opened, and the model switch
(R420, R429). -/
structure CtxSt where
  ctxs : Table Ctx := []
  switching : Bool := false
  switchLate : Bool := false
  /-- the bell from which the armed switch admits no token has opened (R429) -/
  modelStopped : Bool := false
  deriving DecidableEq, Repr

/-! ## Safety and spares -/

/-- A unit marked for retirement (R455): kind 1 to 6, index, the class whose fault it is (0 for software), whether a lead
window has started since the mark, and whether the unit is fenced (R454). -/
structure Mark where
  kind : Nat
  index : Nat
  cls : Nat
  lead : Bool
  fenced : Bool := false
  deriving DecidableEq, Repr

/-- The safety unit (R434 to R463). Units and banks go by `kind * 256 + index`. -/
structure SafeSt where
  marks : List Mark := []
  /-- transient faults of this bell (R453) -/
  faults : Table Nat := []
  /-- corrected errors of this bell by bank (R447) -/
  corrected : Table Nat := []
  /-- addresses with an uncorrectable error in this bell, as `unit * 2^32 + address` (R448) -/
  ueSeen : List Nat := []
  /-- spares that failed their test (R450) -/
  failedTest : List (Nat × Nat) := []
  /-- the physical bank at each place of the key store and of stall SRAM, 255 for none; empty: each at its own (R455) -/
  keyPlaces : List Nat := []
  stallPlaces : List Nat := []
  /-- the auctioneers test themselves at the next bell open; one is fenced and the other runs alone (R457) -/
  aucSelfTest : Bool := false
  aucFenced : List Nat := []
  aucAlone : Bool := false
  /-- a monitored clock failed (R46) -/
  clkFault : Bool := false
  /-- fail-silent, and why (R459, the codes of PSAFE_DEAD) -/
  silent : Bool := false
  /-- the slice goes fail-silent at the next bell open (R452) -/
  retireSlice : Bool := false
  /-- silence notes held: silent slice and reporter; own edges found silent (R460) -/
  notes : List (Nat × Nat) := []
  quiet : List Nat := []
  /-- time of the last latent test of each item (R450) -/
  latent : Table Nat := []
  /-- slices that leave the package engine at the next bell open (R463) -/
  leaving : List Nat := []
  /-- lead move asked for (R482) -/
  leadMove : Option Nat := none
  /-- the cycle of the latest detection, the classes found in it, and whether SAFE_FIRST was filled in it (R438) -/
  foundAt : Nat := 0
  found : List Nat := []
  firstNow : Bool := false
  deriving DecidableEq, Repr

/-! ## Start-up -/

/-- A microcode bank (R475): state 0 EMPTY, 1 LOADING, 2 ACCEPTED, 3 IN_FORCE, 4 OLD, 5 FAILED; its revision,
the address it was loaded from, and the image as it was read. -/
structure McBank where
  st : Nat := 0
  rev : Nat := 0
  addr : Nat := 0
  img : List Byte := []
  deriving DecidableEq, Repr

/-- Start-up: built-in test results, the repair map in force and held, registers written once, microcode banks, edges. -/
structure StartSt where
  /-- units that failed built-in test, by the kinds of SLC_BIST KIND (R470, R487) -/
  bistFailed : List (Nat × Nat) := []
  /-- a repair map written during built-in test; a map has been accepted (R472) -/
  mapHeld : Option Nat := none
  mapOk : Bool := false
  /-- registers of the kind that is written once after a reset, as far as they are written (R318, R475, R476) -/
  onceWritten : List Nat := []
  bank0 : McBank := {}
  bank1 : McBank := {}
  /-- rounds of bells before this one still use the OLD bank (R485) -/
  mcBell : Nat := 0
  /-- a reset input rose before the clocks were stable; RESET_CLOCK is recorded once the engine starts (R48) -/
  resetClock : Bool := false
  /-- the engine stays in reset after an early rise of IKC_PORST_N, or of IKC_SLRST_N (R48) -/
  porstHeld : Bool := false
  slrstHeld : Bool := false
  /-- when BINDING was entered (R477), and EBS_MINORITY has been recorded -/
  bindSince : Nat := 0
  minoritySaid : Bool := false
  /-- a unit was retired since the last bell open, and the units retired when the map was last looked at (R473) -/
  mapChanged : Bool := false
  mapLast : List (Nat × Nat) := []
  /-- nanoseconds the time base has still to slew (R392) -/
  slew : Int := 0
  /-- cycles since the slew last moved it -/
  slewAge : Nat := 0
  deriving DecidableEq, Repr

/-! ## Packets, links and windows -/

/-- A packet (R299): its header fields, payload, and the side information of R333: the Felano dimension by which it
entered the package (none at injection) and the Ebsan edges crossed since. -/
structure Packet where
  dest : Nat
  src : Nat
  job : Nat := 0
  seq : Nat := 0
  cls : Nat
  epoch : Nat := 0
  prio : Nat := 0
  type : Nat
  arg : W64 := 0#64
  birth : Nat := 0
  hops : Nat := 0
  esc : Bool := false
  lane : Nat := 0
  payload : List Byte := []
  /-- trailer as received; none for a packet this slice builds -/
  crc : Option (BitVec 32) := none
  entryDim : Option Nat := none
  edges : Nat := 0
  /-- the lane in which a packet in an output queue came to this slice (R296) -/
  laneWas : Nat := 0
  deriving DecidableEq, Repr

/-- Where a queued packet came in (R307): from a unit of this slice, or by a port (0 to 17) or edge (18 to 21). -/
inductive Origin where
  | unit
  | port (p : Nat)
  /-- handed back by a port that failed (R296), or sent again by its sender (R302): SEQ and EPOCH stand -/
  | again
  deriving DecidableEq, Repr

/-- A packet in the router's queues: its origin, and since when it has found no adaptive credit (R309). -/
structure RQ where
  pkt : Packet
  origin : Origin
  since : Option Nat
  /-- the buffer part it came in by (R307) -/
  part : Nat := 0
  /-- its units of that buffer are still to be given back over the link; not once the link has been trained anew -/
  owes : Bool := true
  deriving DecidableEq, Repr

/-- One combining entry (R363, R364): the combined request's tag and its contributors in order: source, tag, operand. -/
structure Combine where
  tag : Nat
  dest : Nat
  job : Nat
  type : Nat
  arg : W64
  parts : List (Nat × Nat × W64)
  prio : Nat := 0
  deriving DecidableEq, Repr

/-- A sent frame kept for replay (R292): its FSEQ, bytes, times replayed, and the stream offset after its body. -/
structure SentFrame where
  fseq : Nat
  bytes : List Byte
  replays : Nat := 0
  upto : Nat
  /-- an empty frame sent while the replay buffer was full: it takes no room there, since all of it is known (R292) -/
  idle : Bool := false
  deriving DecidableEq, Repr

/-- A link: a Felano port 0 to 17, or Ebsan edge e as 18 + e (R288 to R298, R307). Bytes of begun packets form one
stream; `streamEnd` is the offset of its end. -/
structure Link where
  /-- packets waiting for this output, oldest first, with the time since when each waits (R308) -/
  out : List (Packet × Nat) := []
  /-- packets made for this output alone that have found no credit yet, oldest first (R307) -/
  waiting : List Packet := []
  /-- bytes of the packet begun that no frame carries yet -/
  stream : List Byte := []
  streamEnd : Nat := 0
  /-- packets begun, with the offset of their end, until their frames are acknowledged (R296) -/
  sent : List (Nat × Packet) := []
  fseq : Nat := 0
  /-- sent frames not yet acknowledged (R292) -/
  replay : List SentFrame := []
  /-- frames still to be sent again after a NAK -/
  resend : Nat := 0
  /-- when the replay that runs began (R81) -/
  replayAt : Option Nat := none
  expect : Nat := 0
  /-- NAK goes out with the next frame; frames are discarded until the expected one comes (R292) -/
  nak : Bool := false
  discarding : Bool := false
  /-- control words waiting (R290) -/
  ctl : List W64 := []
  /-- bytes of a packet received in part; none before the first packet start -/
  partBytes : Option (List Byte) := none
  /-- credits held toward the far end, by `buffer * 4 + part`, in units of 64 B -/
  credits : Table Nat := []
  /-- units in use in this side's input buffers -/
  inUse : Table Nat := []
  /-- corrected symbols and blamed codewords of this bell, by lane (R295) -/
  corrected : Table Nat := []
  blamed : Table Nat := []
  /-- a lane that the far end moves to the spare, and the frame from which on (R295) -/
  swapIn : Option (Nat × Nat) := none
  /-- for a spare in use, the port whose place it took (R297) -/
  place : Option Nat := none
  failPending : Bool := false
  /-- weighted round robin of RSP, COL, FWD and REQ: the place of the class served, what is left of its weight, and
  when each class was last served (R308) -/
  wrr : Nat := 0
  wrrLeft : Nat := 0
  served : Table Nat := []
  deriving DecidableEq, Repr

/-- A packet outstanding at its sender (R302, R303), and when it was refused for its CRC (R208). -/
structure Outst where
  dest : Nat
  cls : Nat
  seq : Nat
  pkt : Packet
  tries : Nat := 0
  nakAt : Option Nat := none
  /-- a NAK_SPAN waits for BASE to come near (R302) -/
  span : Bool := false
  skipped : Bool := false
  deriving DecidableEq, Repr

/-- The receive side of a pair and class (R304): BASE and the SEQs beyond it that were accepted. -/
structure RxWin where
  base : Nat := 0
  got : List Nat := []
  deriving DecidableEq, Repr

/-- End-to-end windows (R302 to R305), keyed by `node * 8 + class`. -/
structure E2eSt where
  next : Table Nat := []
  outst : List Outst := []
  rx : Table RxWin := []
  deriving DecidableEq, Repr

/-- What a report on a port said (R320). -/
structure Report where
  best : Nat
  hops : Nat
  at_ : Nat
  deriving DecidableEq, Repr

/-- A kept claim (R321). -/
structure Claim where
  ident : Nat
  count : Nat
  domain : Nat
  pkg : Nat
  number : Option Nat := none
  deriving DecidableEq, Repr

/-- A stored beacon (R323, R324). -/
structure Lsb where
  payload : List Byte
  updated : Nat
  fresh : Bool := true
  deriving DecidableEq, Repr

/-- Discovery (R318 to R328). -/
structure DiscSt where
  reports : Table Report := []
  best : Nat := 0
  stable : Nat := 0
  claims : List Claim := []
  lastClaim : Nat := 0
  seen : List (Nat × Nat × Nat) := []
  lsdb : Table Lsb := []
  lsbSeq : Nat := 0
  pathAddr : Option Nat := none
  /-- the VALID ID of the package's lead slice, as a write of DISC_NODE last told it (R322) -/
  leadId : Option Nat := none
  deriving DecidableEq, Repr

/-- A route table version (R338): state 0 EMPTY, 1 LOADING, 2 READY, 3 LIVE, 4 DRAINING, 5 FAILED. Entries are the
64-bit words of R329. -/
structure RouteVer where
  st : Nat := 0
  maxhop : Nat := 0
  order : Nat := 0
  portdim : Nat := 0
  entries : Table Nat := []
  deriving DecidableEq, Repr

/-- The router: both versions, an image being checked, an armed switch, queued packets and delivered ones. -/
structure RouteSt where
  v0 : RouteVer := {}
  v1 : RouteVer := {}
  queue : List RQ := []
  /-- packets taken in at this node, for the units to handle, oldest first -/
  inbox : List Packet := []
  drainAt : Nat := 0
  deriving DecidableEq, Repr

/-! ## Remote memory and the porter -/

/-- What an outstanding request serves. -/
inductive ReqFor where
  /-- a command of the MSEM ring at an index -/
  | cmd (index : Nat)
  /-- a copy: its number and the byte offset of the request -/
  | copy (id offset : Nat)
  /-- a read of the mirror for a copy: its number and the byte offset (R263) -/
  | mirror (id offset : Nat)
  /-- a combining entry (R364) -/
  | combined
  /-- a relayed gateway request: original source and tag (R370) -/
  | relay (src tag : Nat)
  deriving DecidableEq, Repr

/-- An outstanding request (R352, R355, R371). -/
structure Req where
  tag : Nat
  dest : Nat
  job : Nat
  type : Nat
  lines : Nat
  for_ : ReqFor
  prio : Nat := 0
  /-- for a ring command: context, semaphore, place of the data, and address of the status byte -/
  ctx : Nat := 0
  sem : Nat := 0xFF
  localAddr : Nat := 0
  statusAddr : Nat := 0
  deriving DecidableEq, Repr

/-- A fence in progress (R343, R358): the requests up to its point, by tag. -/
structure Fence where
  id : Nat
  tags : List Nat
  /-- destination and SEQ of the packets sent and not yet acknowledged -/
  seqs : List (Nat × Nat) := []
  sem : Nat
  statusAddr : Nat
  deriving DecidableEq, Repr

/-- A request at its destination (R350): parked ahead of a missing SEQ (R354), or waiting for invalidations, whose tags
`waits` names, or behind one that waits (R361). -/
structure Waiting where
  src : Nat
  job : Nat
  prio : Nat
  seq : Nat := 0
  type : Nat
  arg : W64
  payload : List Byte
  /-- it came as FWD (R351) -/
  fwd : Bool := false
  /-- it is this slice's own, served locally under a tag (R357) -/
  own : Bool := false
  region : Nat := 0
  waits : List Nat := []
  /-- the holders' list is cleared for this one -/
  caused : Bool := false
  deriving DecidableEq, Repr

/-- An invalidation without an answer yet: its tag, the holder and the job (R361). -/
structure Inval where
  tag : Nat
  node : Nat
  job : Nat
  deriving DecidableEq, Repr

/-- The memory semantics unit. -/
structure MsemSt where
  tail : Nat := 0
  reqs : List Req := []
  nextTag : Nat := 0
  fences : List Fence := []
  nextFence : Nat := 0
  invals : List Inval := []
  /-- requests that wait for invalidations, in arrival order (R361); `region` is the queue each stands in -/
  waiting : List Waiting := []
  parked : List Waiting := []
  /-- gateway requests that wait for a free request (R352, R370) -/
  relays : List Waiting := []
  /-- next REQ SEQ to apply, by source (R354), and SEQs skipped ahead of it -/
  nextSeq : Table Nat := []
  skips : List (Nat × Nat) := []
  combines : List Combine := []
  /-- reports mailed in this bell: DEST and JOB (R372) -/
  mailed : List (Nat × Nat) := []
  /-- a region table that passed its check: the value staged and the time -/
  checkedRegions : Option (W64 × Nat) := none
  /-- jobs torn down, with the tails of the two rings at that time (R373) -/
  torn : List (Nat × Nat × Nat) := []
  deriving DecidableEq, Repr

/-- A porter copy (R366 to R368): unit code of R217, 0 for the ring. An end is a fabric address, or for a copy of an
engine unit a host physical address of this slice. -/
structure Copy where
  id : Nat
  unit : Nat
  job : Nat
  src : Nat
  dst : Nat
  srcHost : Bool := false
  dstHost : Bool := false
  len : Nat
  lines : Nat := 64
  prio : Nat := 0
  sem : Nat := 0xFF
  destSem : Option Nat := none
  issued : Nat := 0
  done : Nat := 0
  out : Nat := 0
  status : Nat := 0
  /-- no further request goes out (R368) -/
  stopped : Bool := false
  /-- a copy of an engine unit that is over, until its unit takes the outcome -/
  ended : Bool := false
  /-- ring index and address of the descriptor -/
  index : Nat := 0
  descAddr : Nat := 0
  /-- for a residency fetch: where the mirror copy of the block lies, if it has one; that the fetch reads the mirror from
  here on (R264); pieces to read again from the mirror, as offset and bytes (R263); and when the first such read left -/
  alt : Option Nat := none
  fromMirror : Bool := false
  retry : List (Nat × Nat) := []
  mirrorAt : Option Nat := none
  /-- for a residency fetch: expert and layer; for another unit: numbers of its own -/
  a : Nat := 0
  b : Nat := 0
  deriving DecidableEq, Repr

/-- The porter. -/
structure PorterSt where
  tail : Nat := 0
  copies : List Copy := []
  nextId : Nat := 0
  turn : Nat := 0
  deriving DecidableEq, Repr

/-! ## Collectives -/

/-- A pull in progress (R385, R386): the member pulled from, the staging slot that waits, the phase, what has come of it,
the failures of the chunk, and whether a RETRY holds it back. -/
structure PullOut where
  peer : Nat
  slot : Nat
  phase : Nat
  packets : List Nat := []
  bytes : Nat := 0
  /-- CRC, chunk bytes and OP of the END -/
  endSeen : Option (Nat × Nat × Nat) := none
  fails : Nat := 0
  retry : Bool := false
  deriving DecidableEq, Repr

/-- What a member does with a chunk (R383, R384). -/
inductive ChunkStage where
  /-- adds its children's partials to its own data, in `slot` -/
  | gather
  /-- holds its partial for its parent -/
  | up
  /-- is to pull the chunk from its parent -/
  | await
  /-- holds the chunk for its children -/
  | down
  deriving DecidableEq, Repr

/-- A chunk in work at a member (R383 to R386). -/
structure Chunk where
  index : Nat
  stage : ChunkStage
  /-- the staging slot that holds its data -/
  slot : Option Nat := none
  /-- children added so far -/
  added : Nat := 0
  pull : Option PullOut := none
  /-- children that sent ACK -/
  acks : List Nat := []
  deriving DecidableEq, Repr

/-- A collective operation (R380, R381): its ring index and descriptor, its chunks begun, in work and done. -/
structure CollOp where
  group : Nat
  seq : Nat
  ring : Nat
  addr : Nat
  desc : List Byte
  active : Bool := false
  begun : Nat := 0
  work : List Chunk := []
  finished : Nat := 0
  /-- LL_ALLREDUCE (R394): the step, the partial and its contributor count, and members dead before it started -/
  step : Nat := 0
  part : List Byte := []
  count : Nat := 0
  deadBefore : Nat := 0
  deriving DecidableEq, Repr

/-- A group (R377 to R379): state 0 FREE, 1 JOINING, 2 READY, 3 FAILED, 4 BROKEN. -/
structure Group where
  st : Nat := 0
  entry : List Byte := []
  members : List Nat := []
  self : Nat := 0
  code : Nat := 0
  digest : Nat := 0
  /-- at member 0: who joined, and with what digest -/
  joins : List (Nat × Nat) := []
  /-- staging buffers, and the slots in use -/
  staging : List Nat := []
  used : List Nat := []
  created : Nat := 0
  nextSeq : Nat := 0
  deriving DecidableEq, Repr

/-- A pull held in the pull table (R385). -/
structure Pull where
  group : Nat
  seq : Nat
  chunk : Nat
  phase : Nat
  member : Nat
  deriving DecidableEq, Repr

/-- An LLR partial received (R394). -/
structure LlrIn where
  group : Nat
  seq : Nat
  step : Nat
  node : Nat
  count : Nat
  part : List Byte
  deriving DecidableEq, Repr

/-- The collectives unit: groups by number, operations in ring order, the ring indices done ahead of COLL_HEAD, the pull
table, LLR partials waiting, and ABORTs of operations not yet read (group, sequence number, status). -/
structure CollSt where
  groups : Table Group := []
  ops : List CollOp := []
  tail : Nat := 0
  ringDone : List Nat := []
  pulls : List Pull := []
  llr : List LlrIn := []
  aborted : List (Nat × Nat × Nat) := []
  deriving DecidableEq, Repr

/-! ## Determinism -/

/-- The determinism unit: its own records queued with the time of their writing and its partner's (R409), the next
entry of the trace ring (R407), the latest half formed by half number (`bell * 256 + layer`), and the halves that ended
and wait for their digests (R405). -/
structure DetSt where
  locals : List (List Byte × Nat) := []
  partners : List (List Byte) := []
  traceNext : Nat := 0
  formed : Table Nat := []
  due : List (Half × AdmSet × Round) := []
  deriving DecidableEq, Repr

/-! ## The package -/

/-- What this slice holds of its package engine beyond its page copies: the package edit list in its checks, as base,
count and DIRCTL_AT (R526). -/
structure PkgSt where
  dirList : Option (Nat × Nat × Nat) := none
  deriving DecidableEq, Repr

/-! ## The state -/

/-- The whole state of the slice and the queue of commands that wait for it. -/
structure State where
  pins : Pins
  /-- host-assigned base of the stall SRAM aperture (R37), set by the integrator -/
  apertureBase : Nat
  /-- every register, as differences from reset; package page p stands at page 0x100 + p -/
  regs : Table W64
  /-- staged values of bell-staged registers not yet in force (R11, R517) -/
  staged : Table W64
  /-- registers whose staged value changed at or after the time of a bell open that has not been carried out yet, with the
  value staged before, which is the one that takes effect there (R12, R517) -/
  stagedLate : Table (Option W64)
  /-- the time base (R47) -/
  now : Nat
  mem : Table Byte
  sram : Table Byte
  /-- 64-byte lines of host memory that read poisoned (R35), by line number, ascending -/
  poison : List Nat
  chains : Table (List WStep)
  nextChain : Nat
  memRetry : List (Nat × Nat)
  /-- requests answered, with the time, while a timer of the same cycle may still find the answer (R87) -/
  memDone : List (Nat × Nat)
  /-- memory ports that a timeout failed since the last bell open (R34) -/
  portsLeaving : List Nat
  /-- tables with a read that failed (R34, R35), until the check of the table ends -/
  readFailed : List (TableRead × Nat)
  irq : IrqSt
  evSeen : List EvSeen
  tally : TallySt
  trace : TraceSt
  bell : BellSt
  seqs : Table Seq
  cal : HalfSt
  mus : HalfSt
  homeCal : HomeHalf
  homeMus : HomeHalf
  siteCal : SiteHalf
  siteMus : SiteHalf
  tok : TokSt
  tiles : TileSt
  gathers : Table Gather
  pool : PoolSt
  score : ScoreSt
  res : ResSt
  ctx : CtxSt
  safe : SafeSt
  start : StartSt
  links : Table Link
  e2e : E2eSt
  disc : DiscSt
  route : RouteSt
  msem : MsemSt
  porter : PorterSt
  coll : CollSt
  det : DetSt
  pkg : PkgSt
  /-- index of the next free value (values the manual leaves open) -/
  free : Nat
  /-- the commands that wait, oldest first -/
  pending : List Instr
  /-- the register write being carried out came through the broadcast alias (R511, R520); false between commands -/
  viaAlias : Bool := false
  deriving DecidableEq, Repr

/-- Why a command stops with a fault: the manual gives every command of the table an effect, so there is no case. -/
inductive Fault where
  deriving DecidableEq, Repr

/-- Why a command is refused. -/
inductive Refusal where
  /-- The command has no meaning in the model. Raised by the dispatch arms of commands not reached; safe. -/
  | notModelled (mnemonic : String)
  deriving DecidableEq, Repr

/-- The slice right after reset, with IKC_PORST_N low: registers at the Reset columns, memories and tables cleared
(R50's table, R468); every field the manual gives no reset value for as notes/assumptions/2.md names it. -/
def State.reset : State where
  pins := {}
  apertureBase := 0
  regs := []
  staged := []
  stagedLate := []
  now := 0
  mem := []
  sram := []
  poison := []
  chains := []
  nextChain := 0
  memRetry := []
  memDone := []
  portsLeaving := []
  readFailed := []
  irq := {}
  evSeen := []
  tally := {}
  trace := {}
  bell := {}
  seqs := []
  cal := {}
  mus := {}
  homeCal := {}
  homeMus := {}
  siteCal := {}
  siteMus := {}
  tok := {}
  tiles := {}
  gathers := []
  pool := {}
  score := {}
  res := {}
  ctx := {}
  safe := {}
  start := {}
  links := []
  e2e := {}
  disc := {}
  route := {}
  msem := {}
  porter := {}
  coll := {}
  det := {}
  pkg := {}
  free := 0
  pending := []

end Sys2Proof.Machine
end

