-- ==== Sys2Proof/Machine/Ops.lean ====
section
/-! DEFINITION. The named operations over the state that every unit uses: registers and their fields, host memory and
stall SRAM, ordered chains of writes (R32), recording a code (R519), interrupts (R521), the event log (R503), the tally
roll (R500), tallies (R493, R494), and safety reports (R436). -/
namespace Sys2Proof

/-- The number of a half in a record: 0 Calico, 1 Muslin. -/
def Half.num : Half → Nat
  | .calico => 0
  | .muslin => 1

/-- The half of a bit. -/
def halfOf (b : Nat) : Half := if b = 0 then .calico else .muslin

/-- The other half. -/
def Half.other : Half → Half
  | .calico => .muslin
  | .muslin => .calico

end Sys2Proof

namespace Sys2Proof.Machine

/-- The outcome type of a command. -/
abbrev Out := Host.Outcome State Fault Refusal

/-! ## Registers -/

/-- The value a register holds: for a bell-staged register, the value in force. -/
def State.reg (s : State) (r : Nat) : W64 := tGet resetOf r s.regs

/-- A register takes a value. -/
def State.setReg (r : Nat) (v : W64) (s : State) : State := { s with regs := tSet resetOf r v s.regs }

/-- Field `[hi:lo]` of a register. -/
def State.fld (s : State) (r hi lo : Nat) : Nat := bits (s.reg r).toNat hi lo

/-- A field of a register takes a value; the other bits stay. -/
def State.setFld (r hi lo x : Nat) (s : State) : State :=
  s.setReg r (BitVec.ofNat 64 (setBits (s.reg r).toNat hi lo x))

/-- A one-bit field of a register. -/
def State.bit (s : State) (r i : Nat) : Bool := s.fld r i i == 1

/-- The value that would be in force at the next bell open: the staged value where one is staged (R11). -/
def State.stagedReg (s : State) (r : Nat) : W64 := (tFind r s.staged).getD (s.reg r)

/-- A field of the staged value. -/
def State.stagedFld (s : State) (r hi lo : Nat) : Nat := bits (s.stagedReg r).toNat hi lo

/-- The next bell is due: the time base has reached its open (R60). -/
def State.bellDue (s : State) : Bool :=
  (s.fld Reg.PBELL_STATE 1 0 == 1 || s.fld Reg.PBELL_STATE 1 0 == 2) && decide (s.bell.nextOpen ≤ s.now)

/-- Before the staged value of a register changes in the cycle of a bell open, or after it, the value staged before that
cycle is kept for that bell open (R12, R517). -/
def State.keepStaged (r : Nat) (s : State) : State :=
  if !s.bellDue || (tFind r s.stagedLate).isSome then s
  else { s with stagedLate := tPut r (tFind r s.staged) s.stagedLate }

/-- A write stages a whole register (R11, R12, R517). -/
def State.stage (r : Nat) (v : W64) (s : State) : State :=
  let s := s.keepStaged r
  { s with staged := tPut r v s.staged }

/-- A field of a snapshot of registers (R24, R86). -/
def confFld (conf : Table W64) (r hi lo : Nat) : Nat := bits (tGet resetOf r conf).toNat hi lo

/-- A full-width register as a number. -/
def State.regNat (s : State) (r : Nat) : Nat := (s.reg r).toNat

/-- This slice's Ebsan number (EBS_CFG SLICE, R476). -/
def State.slice (s : State) : Nat := s.fld Reg.EBS_CFG 2 0

/-- This slice's node ID (R315). -/
def State.node (s : State) : Nat := s.fld Reg.DISC_NODE 22 0

/-- This slice is the lead (R487). -/
def State.isLead (s : State) : Bool := s.bit Reg.SLC_STATE 3

/-- The current bell number (R89). -/
def State.bellNo (s : State) : Nat := s.regNat Reg.BELL_NUMBER

/-- PBELL_STATE: 0 STOPPED, 1 ARMED, 2 RUNNING, 3 HALTING (R91). -/
def State.bellState (s : State) : Nat := s.fld Reg.PBELL_STATE 1 0

/-- The slice state of R468. -/
def State.slcState (s : State) : Nat := s.fld Reg.SLC_STATE 2 0

/-- Routed layer count of the model in force (R416). -/
def State.layers (s : State) : Nat := s.fld Reg.CTX_MODEL 24 16

/-- d_model of the model in force (R416). -/
def State.dModel (s : State) : Nat := 256 * s.fld Reg.CTX_MODEL 31 25

/-- Layer count and d_model for a check made before a change takes effect (R416): the staged value where one is staged. -/
def State.checkModel (s : State) : Nat := (s.stagedReg Reg.CTX_MODEL).toNat

/-- Expert count E of the directory in force (R242). -/
def State.experts (s : State) : Nat := s.fld Reg.RES_DIR_LIVE 15 0

/-! ## Tallies -/

/-- The corrected-error and retry tallies, whose limit is `2^32 - 1` (R494): LINK frames replayed, corrected symbols,
uncorrectable codewords, NAK_CRC, NAK_SPAN; SAFE corrected ECC errors. -/
def tallyNarrow (pg i : Nat) : Bool :=
  if 0x20 ≤ pg ∧ pg < 0x32 then i == 1 || i == 2 || i == 3 || i == 13 || i == 14 else pg == Pg.SAFE && i == 9

/-- The limit of a live counter (R494). -/
def tallyLimit (pg i : Nat) : Nat := if tallyNarrow pg i then 2 ^ 32 - 1 else 2 ^ 40 - 1

/-- Default of every counter table. -/
def zeroNat (_ : Nat) : Nat := 0

/-- An event of the cycle in which a bell opens counts for that bell (R493): what it adds to a tally is kept apart. -/
def State.tallyLate (k : Nat) (f : Nat → Nat) (s : State) : State :=
  if !s.bellDue then s
  else
    let p := (tFind k s.tally.late).getD (tGet zeroNat k s.tally.live, 0)
    { s with tally := { s.tally with late := tPut k (p.1, f p.2) s.tally.late } }

/-- A live counter rises by `n`, stopping at its limit (R494). -/
def State.tallyAdd (pg i n : Nat) (s : State) : State :=
  let k := pg * 64 + i
  let s := s.tallyLate k fun m => min (m + n) (tallyLimit pg i)
  let v := min (tGet zeroNat k s.tally.live + n) (tallyLimit pg i)
  { s with tally := { s.tally with live := tSet zeroNat k v s.tally.live } }

/-- A live counter that keeps a peak. -/
def State.tallyMax (pg i n : Nat) (s : State) : State :=
  let k := pg * 64 + i
  let s := s.tallyLate k fun m => min (max m n) (tallyLimit pg i)
  let v := min (max (tGet zeroNat k s.tally.live) n) (tallyLimit pg i)
  { s with tally := { s.tally with live := tSet zeroNat k v s.tally.live } }

/-- Bytes counted in 64 B units, rounded up per transfer (R492). -/
def units64 (n : Nat) : Nat := ceilDiv n 64

/-- A lifetime tally rises by `n` units, modulo 2^64 (R497). -/
def State.lifeAdd (j n : Nat) (s : State) : State :=
  s.setReg (Reg.TALLY_LIFE j) (s.reg (Reg.TALLY_LIFE j) + BitVec.ofNat 64 n)

/-- Bytes in the 256 B units of the lifetime byte tallies (R497). -/
def units256 (n : Nat) : Nat := ceilDiv n 256

/-- A transfer of `n` memory bytes is counted (R36, R497): `k` is 0 for a read, 1 for a write. -/
def State.memCount (k n : Nat) (s : State) : State := (s.tallyAdd Pg.MEMP k (units64 n)).lifeAdd k (units256 n)

/-- A timer's expiry that finds the awaited event arrived is suppressed and counted in LATE_MARGIN (R87). -/
def State.lateMargin (s : State) : State := s.tallyAdd Pg.BELL 3 1

/-! ## Memory -/

/-- What an unlisted byte of host memory or stall SRAM reads as. SRAM is cleared by reset (R50's table). For host
memory the manual gives no content (DESIGN CHOICE, notes/assumptions/3.md). -/
def byteZero (_ : Nat) : Byte := 0#8

/-- The 52-bit host physical address space (R30). -/
def memSpace : Nat := 2 ^ 52

/-- Reads one byte of host memory. -/
def State.rdByte (s : State) (a : Nat) : Byte := tGet byteZero (a % memSpace) s.mem

/-- Reads `n` bytes of host memory from `a`. -/
def State.rd (s : State) (a n : Nat) : List Byte := tRun byteZero (a % memSpace) n s.mem

/-- Reads an `n`-byte little-endian field of host memory (R3). -/
def State.rdNat (s : State) (a n : Nat) : Nat := leNat (s.rd a n)

/-- The lines wholly covered by `n` bytes from `a`. -/
def wholeLine (a n l : Nat) : Bool := decide (a ≤ l * 64 ∧ l * 64 + 64 ≤ a + n)

/-- Writes bytes to host memory from `a`; a line written whole no longer reads poisoned. -/
def State.wr (a : Nat) (data : List Byte) (s : State) : State :=
  ({ s with
    mem := tSetRun byteZero (a % memSpace) data s.mem
    poison := s.poison.filter fun l => !wholeLine (a % memSpace) data.length l } : State).memCount 1 data.length

/-- Writes an `n`-byte little-endian field (R3). -/
def State.wrNat (a n v : Nat) (s : State) : State := s.wr a (leBytes n v)

/-- A read of `n` bytes from `a` meets a poisoned line (R35). -/
def State.poisoned (s : State) (a n : Nat) : Bool :=
  s.poison.any fun l => decide (l * 64 < a + n ∧ a < l * 64 + 64)

/-- A read of `n` bytes from `a` for a table fails: it meets a poisoned line, or a request for the table failed, which
covers no more than the rest of its 4 KiB (R30, R34, R35). -/
def State.unreadable (s : State) (t : TableRead) (a n : Nat) : Bool :=
  s.poisoned a n || s.readFailed.any fun p => p.1 == t && decide (a < p.2 / 4096 * 4096 + 4096) && decide (p.2 < a + n)

/-- The check of a table starts or has ended: failures of the reads before are past. -/
def State.readsOver (t : TableRead) (s : State) : State := { s with readFailed := s.readFailed.filter (·.1 != t) }

/-- Reads bytes of stall SRAM. -/
def State.rdSram (s : State) (a n : Nat) : List Byte := tRun byteZero a n s.sram

/-- Writes bytes of stall SRAM. -/
def State.wrSram (a : Nat) (data : List Byte) (s : State) : State := { s with sram := tSetRun byteZero a data s.sram }

/-! ## Semaphores -/

/-- Sets EVENT in a page, or another bit of PAGE_IRQ_RAW; the page's vector becomes pending when the bit is enabled
(R518, R521). A package page's vector is sent by the lead only (R515). -/
def vectorOf (pg : Nat) : Nat := if 0x100 ≤ pg then 0x38 + (pg - 0x100) else pg

/-- A vector becomes pending (R521, R522); a reserved vector never does (R515). -/
def State.pend (v : Nat) (s : State) : State :=
  if reservedVector v then s else s.setFld Reg.IRQ_PEND v v 1

/-- Whether this slice sends the vector of a page. -/
def State.sendsVector (s : State) (pg : Nat) : Bool := pg < 0x100 || s.isLead

/-- A bit of PAGE_IRQ_RAW is set; its vector becomes pending when the bit is enabled (R521). -/
def State.setRaw (pg i : Nat) (s : State) : State :=
  let s := s.setFld (Reg.PAGE_IRQ_RAW pg) i i 1
  if s.bit (Reg.PAGE_IRQ_EN pg) i && s.sendsVector pg then s.pend (vectorOf pg) else s

/-- "Raises the X vector": EVENT is set in page X (R518). -/
def State.raise (pg : Nat) (s : State) : State := s.setRaw pg 2

/-- An addition to an engine semaphore, modulo 2^64; it raises the MSEM vector where its bit asks (R359). -/
def State.semAdd (n : Nat) (v : W64) (s : State) : State :=
  let s := s.setReg (Reg.MSEM_SEM n) (s.reg (Reg.MSEM_SEM n) + v)
  if s.bit (if n < 64 then Reg.MSEM_SEM_IRQ0 else Reg.MSEM_SEM_IRQ1) (n % 64) then s.raise Pg.MSEM else s

/-! ## Ordered chains of writes -/

/-- The half's source state. -/
def State.half (s : State) : Half → HalfSt
  | .calico => s.cal
  | .muslin => s.mus

/-- Replaces a half's source state. -/
def State.setHalf (h : Half) (x : HalfSt) (s : State) : State :=
  match h with
  | .calico => { s with cal := x }
  | .muslin => { s with mus := x }

/-- Changes the running round of a half, where one runs. -/
def State.modRound (h : Half) (f : Round → Round) (s : State) : State :=
  match (s.half h).cur with
  | some r => s.setHalf h { s.half h with cur := some (f r) }
  | none => s

/-- Changes one element of a list. -/
def modNth {α : Type} : Nat → (α → α) → List α → List α
  | _, _, [] => []
  | 0, f, x :: t => f x :: t
  | n + 1, f, x :: t => x :: modNth n f t

/-- Changes one token of the running round of a half. -/
def State.modTok (h : Half) (i : Nat) (f : RTok → RTok) (s : State) : State :=
  s.modRound h fun r => { r with toks := modNth i f r.toks }

/-- The effect of one step of a chain. -/
def State.runStep (w : WStep) (s : State) : State :=
  match w with
  | .bytes a d => s.wr a d
  | .reg r v => s.setReg r v
  | .semAdd n v => s.semAdd n v
  | .tokenWritten h i => s.modTok h i fun t => { t with written := true }

/-- Runs steps up to and including the next memory write; answers what then waits for its acknowledgement, and
whether a write is outstanding. -/
def State.runChain : List WStep → State → State × List WStep × Bool
  | [], s => (s, [], false)
  | .bytes a d :: t, s => (s.wr a d, t, true)
  | w :: t, s => State.runChain t (s.runStep w)

/-- Starts a chain (R32): its first write is issued now. -/
def State.startChain (w : List WStep) (s : State) : State :=
  let (s, rest, out) := s.runChain w
  if out then { s with chains := tPut s.nextChain rest s.chains, nextChain := s.nextChain + 1 } else s

/-- The acknowledgement of a chain's outstanding write issues what follows it (R32). -/
def State.ackChain (c : Nat) (s : State) : State :=
  match tFind c s.chains with
  | none => s
  | some w =>
    let (s, rest, out) := s.runChain w
    { s with chains := if out then tPut c rest s.chains else tDel c s.chains }

/-! ## The tally roll -/

/-- The FIFO's capacity in bytes (R499). -/
def fifoBytes : Nat := 32768

/-- Bytes free in the trace FIFO. -/
def TraceSt.free (t : TraceSt) : Nat := fifoBytes - 8 * t.fifo.length

/-- A header word (R499). -/
def traceHeader (kind now : Nat) : W64 := BitVec.ofNat 64 (kind + (now % 2 ^ 48) * 2 ^ 16)

/-- A length word (R499). -/
def traceLength (len : Nat) (trunc : Bool) : W64 := BitVec.ofNat 64 (len + 64 * b2n trunc)

/-- Payload words enter while more than the reserve of 40 B is left before the next one (R500 rule 2). -/
def traceFill : Nat → List W64 → List W64 → List W64 × Bool
  | _, [], acc => (acc, false)
  | free, w :: t, acc => if free ≤ 40 then (acc, true) else traceFill (free - 8) t (acc ++ [w])

/-- Bytes that the FIFO has room for: while BASE is zero every item finds it full (R501). -/
def State.traceRoom (s : State) : Nat := if s.fld Reg.TRACE_RING 51 12 = 0 then 0 else s.trace.free

/-- Writes the pending GAP item when its 32 B fit without the reserve of rule 1 (R500 rule 3). -/
def State.traceGap (s : State) : State :=
  let t := s.trace
  if t.gapCount = 0 ∨ s.traceRoom < 32 + 40 then s
  else
    let item := [traceHeader 0x0F s.now, BitVec.ofNat 64 (min t.gapCount (2 ^ 32 - 1)), BitVec.ofNat 64 t.gapFirst,
      traceLength 4 false]
    { s with trace := ⟨t.fifo ++ item, 0, 0⟩ } |>.tallyAdd Pg.TRACE 0 1

/-- A unit emits an item of an enabled KIND (R499, R500): the GAP item first, then the item, or the item is dropped. -/
def State.emit (kind : Nat) (payload : List W64) (s : State) : State :=
  if !s.bit Reg.TRACE_CTL kind then s
  else
    let s := s.traceGap
    let t := s.trace
    if t.gapCount ≠ 0 ∨ s.traceRoom < 48 then
      { s with trace := { t with gapCount := t.gapCount + 1, gapFirst := if t.gapCount = 0 then s.now else t.gapFirst } }
        |>.tallyAdd Pg.TRACE 1 1
    else
      let (ws, trunc) := traceFill (s.traceRoom - 8) payload []
      let item := traceHeader kind s.now :: ws ++ [traceLength (ws.length + 2) trunc]
      let s := { s with trace := { t with fifo := t.fifo ++ item } }
      let s := s.tallyAdd Pg.TRACE 0 1
      if trunc then s.tallyAdd Pg.TRACE 2 1 else s

/-! ## The event log -/

/-- The address of an entry of the event log (R503). -/
def State.evAddr (s : State) (q : Nat) : Nat := s.fld Reg.EVLOG_RING 51 18 * 2 ^ 18 + (q % 4096) * 64

/-- OVERWRITTEN rises by 1, saturating (R505). -/
def State.evLost (s : State) : State :=
  s.setReg Reg.EVLOG_STAT (BitVec.ofNat 64 (min (s.regNat Reg.EVLOG_STAT + 1) (2 ^ 32 - 1)))

/-- Bytes 0x08 to 0x3F of an event entry (R503). -/
def evBody (now bell code page flags count : Nat) (detail : W64) : List Byte :=
  leBytes 8 now ++ leBytes 8 bell ++ [BitVec.ofNat 8 code, BitVec.ofNat 8 page, BitVec.ofNat 8 flags, 0#8]
    ++ leBytes 4 count ++ leBytes 8 detail.toNat ++ leBytes 24 0

/-- Writes an event entry of a kind: bytes 0x08 to 0x3F first, then, after their acknowledgement, the sequence number
(R503, R504). -/
def State.evWrite (kind code page : Nat) (pkg : Bool) (count : Nat) (detail : W64) (s : State) : State :=
  let q := s.regNat Reg.EVLOG_NEXT
  let s := s.setReg Reg.EVLOG_NEXT (BitVec.ofNat 64 (q + 1))
  if s.fld Reg.EVLOG_RING 51 18 = 0 then s.evLost
  else
    let s := if 4096 ≤ q ∧ s.regNat Reg.EVLOG_HEAD < q - 4096 + 1 then s.evLost else s
    let a := s.evAddr q
    s.startChain [.bytes (a + 8) (evBody s.now s.bellNo code page (b2n pkg + 16 * kind) count detail),
      .bytes a (leBytes 8 (q + 1))]

/-! ## Recording a code -/

/-- The first recording of a (page, code) in a bell writes an entry of kind 0; later ones only count (R503). -/
def State.evCode (pg code : Nat) (detail : W64) (s : State) : State :=
  if s.evSeen.any fun e => e.page == pg && e.code == code then
    { s with evSeen := s.evSeen.map fun e => if e.page == pg && e.code == code then { e with count := e.count + 1 } else e }
  else
    let q := s.regNat Reg.EVLOG_NEXT
    let s := s.evWrite 0 code (pg % 0x100) (0x100 ≤ pg) 0 detail
    { s with evSeen := s.evSeen ++ [⟨pg, code, q, 0⟩] }

/-- PAGE_ERR_FIRST takes a code (R519): it is empty, or the recordings of this cycle filled it and the code is lower. -/
def State.takesFirst (s : State) (pg code : Nat) : Bool :=
  let c := s.fld (Reg.PAGE_ERR_FIRST pg) 7 0
  c == 0 || (s.bell.cycle.contains pg && decide (code < c))

/-- The engine records a code in a page (R519): PAGE_ERR_FIRST if it takes the code, PAGE_ERR_COUNT, PAGE_IRQ_RAW ERR, the
event log entry and the trace item. A code of a package page is logged and traced by the lead (R503, R513). -/
def State.record (pg code detail : Nat) (s : State) : State :=
  let d := detail % 2 ^ 32
  let s := if s.takesFirst pg code then
      s.setReg (Reg.PAGE_ERR_FIRST pg) (BitVec.ofNat 64 (code + (s.bellNo % 2 ^ 24) * 2 ^ 8 + d * 2 ^ 32)) else s
  let s := s.setReg (Reg.PAGE_ERR_COUNT pg) (BitVec.ofNat 64 (min (s.regNat (Reg.PAGE_ERR_COUNT pg) + 1) (2 ^ 32 - 1)))
  let s := s.setRaw pg 0
  if !s.sendsVector pg then s
  else
    let s := s.evCode pg code (BitVec.ofNat 64 d)
    s.emit 0x07 [BitVec.ofNat 64 (code + (pg % 0x100) * 2 ^ 8 + b2n (0x100 ≤ pg) * 2 ^ 16 + d * 2 ^ 32)]

/-- Records a code of a page whose fault register holds that code, in a CODE field: the detail is the register's bits
[31:0] (R520). -/
def State.recordF (pg code faultReg : Nat) (s : State) : State := s.record pg code (s.regNat faultReg % 2 ^ 32)

/-- Detail of a code that drops a register write: offset, page, package page, aliased (R520). -/
def dropDetail (r : Nat) (aliased : Bool) : Nat :=
  r % 0x1000 + (r / 0x1000 % 0x40) * 2 ^ 12 + b2n (0x100000 ≤ r) * 2 ^ 18 + b2n aliased * 2 ^ 19

/-- Something is done once per bell under a number of its own. -/
def State.oncePerBell (k : Nat) (f : State → State) (s : State) : State :=
  if s.bell.once.contains k then s
  else f { s with bell := { s.bell with once := k :: s.bell.once } }

/-- A code recorded at most once per bell. -/
def State.recordOnce (pg code detail : Nat) (s : State) : State :=
  s.oncePerBell (pg * 256 + code) (State.record pg code detail)

/-! ## Safety reports -/

/-- The alarm value of R54, R56, R459: 0b10 while a cause stands, start-up is not complete, or the slice is silent, and
from a clock fault (R46) until a reset, since no cause of the SAFE page stands for one (DESIGN CHOICE,
notes/assumptions/51.md). -/
def State.driveAlarm (s : State) : State :=
  s.setFld Reg.SAFE_ALARM 1 0
    (if s.regNat Reg.SAFE_CAUSE ≠ 0 ∨ s.slcState ≠ 6 ∨ s.safe.silent ∨ s.safe.clkFault then 2 else 1)
    |>.setFld Reg.PSAFE_CAUSE s.slice s.slice (b2n (s.regNat Reg.SAFE_CAUSE != 0))

/-- A report of this cycle has filled SAFE_FIRST with a higher class than `cls` (R438). -/
def State.lowerNow (s : State) (cls : Nat) : Bool :=
  s.safe.firstNow && s.safe.foundAt == s.now && decide (cls < s.fld Reg.SAFE_FIRST 2 0)

/-- A detection of a class is noted for its cycle (R438); `first` tells that SAFE_FIRST takes it. -/
def State.noteFound (cls : Nat) (first : Bool) (s : State) : State :=
  let same := s.safe.foundAt == s.now
  { s with safe := { s.safe with
    foundAt := s.now
    found := cls :: (if same then s.safe.found else [])
    firstNow := first || (same && s.safe.firstNow) } }

/-- Step 3 of R436 for a fault of class `cls` that a mechanism found and recorded as `code`: SAFE_CAUSE, SAFE_DETECT,
SAFE_FIRST and SAFE_FIRST_BELL if they are empty or hold a higher class of this cycle (R438), an event log entry of kind 1, the SAFE vector, the alarm. Tainting is
the mechanism's own. -/
def State.safeReport (cls code layer : Nat) (half : Half) (kind index : Nat) (delivered : Bool) (s : State) : State :=
  let first := s.fld Reg.SAFE_FIRST 2 0 == 0 || s.lowerNow cls
  let s := (s.noteFound cls first).setFld Reg.SAFE_CAUSE cls cls 1
  let s := s.record Pg.SAFE 0xD0 0
  let s := if first then
      (s.setReg Reg.SAFE_FIRST (BitVec.ofNat 64 (cls + code * 2 ^ 8 + layer * 2 ^ 16 + half.num * 2 ^ 24
        + b2n delivered * 2 ^ 25 + kind * 2 ^ 32 + index * 2 ^ 36))).setReg Reg.SAFE_FIRST_BELL (s.reg Reg.BELL_NUMBER)
    else s
  let s := s.evWrite 1 cls Pg.SAFE false 0 (BitVec.ofNat 64 (s.fld (Reg.PAGE_ERR_FIRST Pg.SAFE) 63 32))
  let s := s.tallyAdd Pg.SAFE (cls - 1) 1
  let s := s.lifeAdd 15 1
  s.raise Pg.SAFE |>.driveAlarm

/-- A report that names no unit and whose scope is not delivered. -/
def State.safe0 (cls code layer : Nat) (half : Half) (s : State) : State :=
  s.safeReport cls code layer half 0 0 false

/-- A suspect record for a half that has rung LAYER_OUT (R437): SAFE_SUSPECT and an event log entry of kind 2. -/
def State.suspect (bell layer : Nat) (half : Half) (first last : Nat) (s : State) : State :=
  let v := BitVec.ofNat 64 (layer % 256 + half.num * 2 ^ 8 + (first % 2 ^ 13) * 2 ^ 9 + (last % 2 ^ 13) * 2 ^ 22
    + (bell % 2 ^ 29) * 2 ^ 35)
  let s := s.setReg Reg.SAFE_SUSPECT v
  let s := s.evWrite 2 0xD0 Pg.SAFE false 0 v
  s.tallyAdd Pg.SAFE 8 1

/-- TAINT on tokens `a` to `b - 1` of the running round of a half whose round has not rung LAYER_OUT (R436). -/
def State.taintRange (h : Half) (a b : Nat) (s : State) : State :=
  s.modRound h fun r => { r with toks := r.toks.mapIdx fun i t => if a ≤ i ∧ i < b then { t with taint := true } else t }

/-- TAINT on one token. -/
def State.taintTok (h : Half) (i : Nat) (s : State) : State := s.modTok h i fun t => { t with taint := true }

/-- The layer that a half's running round is in; 0 when none runs. -/
def State.layerOf (s : State) (h : Half) : Nat :=
  match (s.half h).cur with
  | some r => r.layer
  | none => 0

/-- A lost-or-duplicated fault (class 2). -/
def State.lostDup (code layer : Nat) (h : Half) (s : State) : State := s.safe0 2 code layer h

/-- A packet discarded under a ROUTE code counts in the tally of that code (R347, R492): UNREACH, HOPS, LOOP, FOREIGN,
JOB_REFUSED in this order. -/
def State.discarded (code : Nat) (s : State) : State := s.tallyAdd Pg.ROUTE (if code = 0x99 then 7 else code - 0x90 + 3) 1

/-! ## Packets out -/

/-- A unit of this slice injects a packet: it enters the router's queue (R338, R302 give it EPOCH and SEQ when sent). -/
def State.send (p : Packet) (s : State) : State :=
  { s with route := { s.route with queue := s.route.queue ++ [⟨p, .unit, none, 0, true⟩] } }

/-- An AUC record packet (R299, R300) to a node, with the model job and priority level 3 (R415). -/
def aucPacket (dest src job : Nat) (recs : List Byte) : Packet :=
  { dest := dest, src := src, job := job, cls := 4, prio := 3, type := 0, payload := recs }

/-- Sends AUC records to a node under the model job (R415). -/
def State.sendAuc (dest : Nat) (recs : List Byte) (s : State) : State :=
  s.send (aucPacket dest s.node (s.fld Reg.CTX_MODEL 15 0) recs)

/-- An LL packet (R390). -/
def llPacket (src dest kind step : Nat) (flood : Bool) (group seq count : Nat) (payload : List Byte) : Packet :=
  { dest := dest, src := src, job := 0, cls := 7, type := 1, payload := payload,
    arg := BitVec.ofNat 64 (kind + step * 2 ^ 4 + b2n flood * 2 ^ 8 + group * 2 ^ 9 + seq * 2 ^ 21 + count * 2 ^ 37) }

/-- Floods an LL message of a kind from this slice (R391): one packet that the LL lane spreads, step 0 at the origin. -/
def State.flood (kind : Nat) (payload : List Byte) (s : State) : State :=
  if s.bit Reg.COLL_LL 0 then s.send (llPacket s.node s.node kind 0 true 0 0 0 payload) else s

end Sys2Proof.Machine
end

