-- ==== Sys2Proof/Machine/Operands.lean ====
section
/-! DEFINITION. The operand forms: how a register write is checked and takes effect by its access type (R9 to R14,
R469, R512, R525), token handles and their check (R101 to R103), chunk tags (R206), and the places that host addresses
name. -/
namespace Sys2Proof.Machine

/-! ## Register writes -/

/-- The member test of R469: this slice is a member of a package engine (R489 BOUND). -/
def State.bound (s : State) : Bool := s.bit Reg.EBS_STAT 28

/-- The pages an unbound slice serves (R469). -/
def servedUnbound (pg : Nat) : Bool :=
  pg == Pg.SLC || pg == Pg.MCODE || pg == Pg.EBS || pg == Pg.SPARE || pg == Pg.SAFE

/-- A stated range of a field: register, high and low bit, least and greatest value, and whether 0 is a value of its
own outside the range. -/
structure RangeRow where
  reg : Nat
  hi : Nat
  lo : Nat
  least : Nat
  most : Nat
  zero : Bool := false
  deriving DecidableEq, Repr

/-- The ranges of the field tables whose breach is FIELD_RANGE (R525). -/
def rangeRows : List RangeRow := [
  ⟨Reg.MEMP_FLOOR, 13, 0, 0, 10240, false⟩,
  ⟨Reg.MEMP_PORT_EN, 15, 0, 1, 0xFFFF, false⟩,
  ⟨Reg.MEMP_TIMEOUT, 9, 0, 10, 1000, false⟩,
  ⟨Reg.BELL_BUDGET, 27, 0, 1000, 200000000, true⟩,
  ⟨Reg.BELL_LEAD, 9, 0, 10, 500, false⟩,
  ⟨Reg.BELL_DIAM, 3, 0, 1, 8, false⟩,
  ⟨Reg.BELL_LEDGER, 4, 0, 0, 12, false⟩,
  ⟨Reg.PBELL_PERIOD, 27, 0, 20000, 200000000, false⟩,
  ⟨Reg.AUC_SRCCOUNT, 15, 0, 0, 32768, false⟩,
  ⟨Reg.AUC_BIDSPACE, 12, 0, 4, 4096, false⟩,
  ⟨Reg.AUC_CLOSE_TO, 9, 0, 10, 1000, false⟩,
  ⟨Reg.CMB_RET_MAP, 5, 0, 0, 32, false⟩,
  ⟨Reg.CMB_RET_TO, 16, 0, 10, 100000, false⟩,
  ⟨Reg.RES_DIR, 15, 0, 8, 32768, false⟩,
  ⟨Reg.RES_PLAN, 3, 0, 1, 8, false⟩,
  ⟨Reg.TILE_MODE, 5, 1, 1, 16, false⟩,
  ⟨Reg.TILE_MODE, 16, 8, 1, 256, false⟩,
  ⟨Reg.TILE_LIST, 4, 0, 6, 16, false⟩,
  ⟨Reg.TILE_HEAD, 4, 0, 0, 16, false⟩,
  ⟨Reg.TILE_TO, 16, 0, 10, 100000, false⟩,
  ⟨Reg.DISC_IDENT, 63, 0, 1, 2 ^ 64 - 1, false⟩,
  ⟨Reg.DISC_CTL, 7, 3, 1, 31, false⟩,
  ⟨Reg.DISC_CTL, 17, 8, 10, 1000, false⟩,
  ⟨Reg.DISC_CTL, 27, 18, 1, 1000, false⟩,
  ⟨Reg.DISC_MAIL, 3, 0, 4, 12, true⟩,
  ⟨Reg.MSEM_REGIONS, 8, 0, 0, 256, false⟩,
  ⟨Reg.MSEM_ILV, 4, 0, 0, 16, false⟩,
  ⟨Reg.MSEM_RING, 4, 0, 4, 16, true⟩,
  ⟨Reg.MSEM_INVAL, 3, 0, 4, 12, true⟩,
  ⟨Reg.MSEM_TIMEOUT, 6, 0, 1, 100, false⟩,
  ⟨Reg.MSEM_TEARDOWN, 15, 0, 1, 0xFFFE, false⟩,
  ⟨Reg.PORTER_RING, 4, 0, 4, 16, true⟩,
  ⟨Reg.COLL_RING, 4, 0, 4, 16, true⟩,
  ⟨Reg.COLL_TO, 16, 0, 10, 100000, false⟩,
  ⟨Reg.COLL_TO, 41, 32, 1, 1000, false⟩,
  ⟨Reg.DET_RING, 4, 0, 4, 20, true⟩,
  ⟨Reg.DET_TRACE, 4, 0, 8, 24, true⟩,
  ⟨Reg.DET_PAIR, 41, 32, 10, 1000, false⟩,
  ⟨Reg.CTX_MODEL, 15, 0, 0, 0xFFFE, false⟩,
  ⟨Reg.CTX_MODEL, 24, 16, 1, 256, true⟩,
  ⟨Reg.CTX_MODEL, 31, 25, 4, 64, true⟩,
  ⟨Reg.SAFE_SCRUB, 4, 0, 1, 24, false⟩,
  ⟨Reg.SPARE_RETIRE, 3, 0, 1, 6, false⟩,
  ⟨Reg.SPARE_THRESH, 15, 0, 1, 0xFFFF, false⟩,
  ⟨Reg.EBS_CFG, 7, 4, 2, 8, false⟩,
  ⟨Reg.EBS_WAIT, 9, 0, 1, 1000, false⟩,
  ⟨Reg.TRACE_RING, 4, 0, 12, 30, false⟩]

/-- One row holds of a value. -/
def RangeRow.ok (x : RangeRow) (v : Nat) : Bool :=
  let f := bits v x.hi x.lo
  (x.least ≤ f && f ≤ x.most) || (x.zero && f == 0)

/-- The rows of a register; a LINK register counts as its LINK0 namesake. -/
def linkRange (r v : Nat) : Bool :=
  let off := r % 0x1000
  if 0x20000 ≤ r ∧ r < 0x32000 then
    if off = 0x100 then bits v 2 1 != 3
    else if off = 0x108 then bits v 27 24 != 0
    else if off = 0x200 then [bits v 14 0, bits v 30 16, bits v 46 32, bits v 62 48].all fun w => 1 ≤ w && w ≤ 16384
    else if off = 0x208 then [bits v 14 0, bits v 30 16, bits v 46 32].all fun w => 1 ≤ w && w ≤ 16384
    else if off = 0x210 then
      2 ≤ bits v 9 0 && bits v 9 0 ≤ 1000 && 1 ≤ bits v 25 16 && bits v 25 16 ≤ 1000 && bits v 39 32 != 0
    else if off = 0x218 then bits v 7 0 != 0 && bits v 15 8 != 0 && bits v 23 16 != 0 && bits v 31 24 != 0
    else true
  else true

/-- The field-range checks that need nothing but the value written (R525). -/
def fieldsInRange (r v : Nat) : Bool :=
  (rangeRows.filter fun x => x.reg == r).all (fun x => x.ok v) && linkRange r v
    && (r != Reg.COLL_LL || bits v 12 1 ≤ bits v 24 13)
    && (r != Reg.EBS_CFG || bits v 2 0 < bits v 7 4)
    && (r != Reg.COLL_CREATE || bits v 17 16 != 3)
    && (r != Reg.CTX_CREATE || bits v 3 2 != 3)
    && (!(0x11118 ≤ r ∧ r ≤ 0x11130) ||
        [bits v 15 0, bits v 31 16, bits v 47 32, bits v 63 48].all fun j => j != 0xFFFF)

/-- The page a dropped write is recorded in: the page addressed where one exists, else SLC (R512). -/
def dropPage (r : Nat) : Nat := if pageExists (r / 0x1000) then r / 0x1000 else Pg.SLC

/-- A register write is dropped with a code, whose detail names the register (R520). -/
def State.dropWrite (code r : Nat) (s : State) : State := s.record (dropPage r) code (dropDetail r s.viaAlias)

/-- A write sets a bit that no field names (R14, R512). -/
def setsReserved (r : Nat) (v : W64) : Bool :=
  match regSpec r with
  | some x => v.toNat &&& x.mask != v.toNat
  | none => v.toNat != 0

/-- The checks every register write passes before it has its effect: R469, R14 and R512, R525. -/
def State.gated (r : Nat) (v : W64) (ok : State → State) (s : State) : State :=
  if !s.bound && !servedUnbound (r / 0x1000) then s.record Pg.SLC 0xEC (dropDetail r s.viaAlias)
  else if setsReserved r v then s.dropWrite 0x02 r
  else if (regSpec r).isNone then s
  else if !fieldsInRange r v.toNat then s.dropWrite 0x03 r
  else ok s

/-- The value a register holds after a write, by the access type of each field (R10): RW bits take the value, W1C bits
that are written 1 clear, every other bit stays. -/
def accessValue (x : RegSpec) (old v : W64) : W64 :=
  let rw := BitVec.ofNat 64 x.rw
  let w1c := BitVec.ofNat 64 x.w1c
  ((old &&& ~~~rw) ||| (v &&& rw)) &&& ~~~(v &&& w1c)

/-- A write takes effect by its access type (R10): a bell-staged register is staged whole (R11), any other register
takes its new value at once. -/
def State.accessWrite (r : Nat) (v : W64) (s : State) : State :=
  match regSpec r with
  | some x => if x.bs ≠ 0 then s.stage r v else s.setReg r (accessValue x (s.reg r) v)
  | none => s

/-- PAGE_STAT STAGED: a staged value of the page is not yet in force (R518). -/
def State.pageStaged (s : State) (pg : Nat) : Bool := s.staged.any fun p => p.1 / 0x1000 == pg

/-! ## Handles -/

/-- A token handle without its check (R101). -/
def handleBody (slot pos layer rank half bell : Nat) : Nat :=
  slot * 2 ^ 53 + pos * 2 ^ 29 + layer * 2 ^ 21 + rank * 2 ^ 17 + half * 2 ^ 16 + (bell % 256) * 2 ^ 8

/-- The bytes of the check: handle bytes `[63:56]` down to `[15:8]`, then GEN (R102). -/
def handleBytes (body gen : Nat) : List Byte :=
  [bits body 63 56, bits body 55 48, bits body 47 40, bits body 39 32, bits body 31 24, bits body 23 16, bits body 15 8, gen].map
    (BitVec.ofNat 8)

/-- The check of a handle under a generation (R102). -/
def handleCheck (body gen : Nat) : Nat := (crc8 (handleBytes body gen)).toNat

/-- A token handle (R101). -/
def mkHandle (slot pos layer rank half bell gen : Nat) : W64 :=
  let b := handleBody slot pos layer rank half bell
  BitVec.ofNat 64 (b + handleCheck b gen)

/-- The fields of a handle (R101). -/
def hSlot (h : W64) : Nat := bits h.toNat 63 53
def hPos (h : W64) : Nat := bits h.toNat 52 29
def hLayer (h : W64) : Nat := bits h.toNat 28 21
def hRank (h : W64) : Nat := bits h.toNat 20 17
def hHalf (h : W64) : Nat := bits h.toNat 16 16
def hBell (h : W64) : Nat := bits h.toNat 15 8

/-- Whether a handle's check matches a generation (R102). -/
def handleOk (h : W64) (gen : Nat) : Bool := handleCheck h.toNat gen == bits h.toNat 7 0

/-- The entry of the sequence table at a local index (R93). -/
def freeSeq (_ : Nat) : Seq := {}

/-- The entry of the sequence table at a local index (R93). -/
def State.seq (s : State) (i : Nat) : Seq := tGet freeSeq i s.seqs

/-- What R103 says of a handle at its source slice: it passes, is stale, or is bad. -/
inductive HandleVerdict where
  | pass
  | stale
  | bad
  deriving DecidableEq, Repr

/-- The check of R103 at the source slice. -/
def State.handleVerdict (s : State) (h : W64) : HandleVerdict :=
  let e := s.seq (hSlot h % 256)
  if hSlot h / 256 ≠ s.slice then .bad
  else if handleOk h e.gen then (if e.state = 0 then .stale else .pass)
  else if handleOk h ((e.gen + 255) % 256) then .stale
  else .bad

/-- A record discarded under R103: STALE_HANDLE or BAD_HANDLE, SEQ_BAD_HANDLE, and a wrong-sequence fault. -/
def State.discardHandle (h : W64) (stale : Bool) (layer : Nat) (half : Half) (s : State) : State :=
  let code := if stale then 0x29 else 0x28
  let s := s.setReg Reg.SEQ_BAD_HANDLE h
  let s := s.record Pg.SEQ code 0
  let s := s.tallyAdd Pg.SEQ 4 1
  s.safe0 1 code layer half

/-! ## Chunk tags -/

/-- A chunk tag (R206). -/
def mkTag (expert offset part : Nat) (hdr last dir : Bool) (half layer token rank : Nat) : W64 :=
  BitVec.ofNat 64 (expert + offset * 2 ^ 15 + part * 2 ^ 27 + b2n hdr * 2 ^ 31 + b2n last * 2 ^ 32 + b2n dir * 2 ^ 33
    + half * 2 ^ 34 + layer * 2 ^ 35 + token * 2 ^ 43 + rank * 2 ^ 56)

/-- The fields of a chunk tag (R206). -/
def tExpert (t : W64) : Nat := bits t.toNat 14 0
def tOffset (t : W64) : Nat := bits t.toNat 26 15
def tPart (t : W64) : Nat := bits t.toNat 30 27
def tHdr (t : W64) : Bool := bits t.toNat 31 31 == 1
def tLast (t : W64) : Bool := bits t.toNat 32 32 == 1
def tDir (t : W64) : Nat := bits t.toNat 33 33
def tHalf (t : W64) : Nat := bits t.toNat 34 34
def tLayer (t : W64) : Nat := bits t.toNat 42 35
def tToken (t : W64) : Nat := bits t.toNat 55 43
def tRank (t : W64) : Nat := bits t.toNat 59 56
/-- A reserved bit of the tag is set (R206). -/
def tReserved (t : W64) : Bool := bits t.toNat 63 60 != 0

/-- The chunk CRC of R207: the 24 B prefix (bell, tag with LAST taken as 0, source, destination), then the bytes. -/
def chunkCrc (bell : Nat) (tag : W64) (src dst : Nat) (bytes : List Byte) : BitVec 32 :=
  crc32c (leBytes 8 bell ++ leBytes 8 (setBits tag.toNat 32 32 0) ++ leBytes 4 src ++ leBytes 4 dst ++ bytes)

/-! ## Addresses -/

/-- A fabric address's node (R314). -/
def faNode (a : Nat) : Nat := bits a 63 41

/-- A fabric address's window offset (R314). -/
def faOffset (a : Nat) : Nat := bits a 40 0

/-- The slice, package and domain of a node ID (R314). -/
def nodeSlice (n : Nat) : Nat := bits n 2 0
def nodePkg (n : Nat) : Nat := bits n 14 3
def nodeDomain (n : Nat) : Nat := bits n 22 15
/-- Domain and package of a node, the part that slices of one package share. -/
def nodePkgDom (n : Nat) : Nat := n / 8

/-- Writes one byte range at a pool or region place: a stall SRAM offset or a host address. -/
inductive Place where
  | sram (a : Nat)
  | mem (a : Nat)
  deriving DecidableEq, Repr

/-- Reads at a place. -/
def State.rdPlace (s : State) (p : Place) (off n : Nat) : List Byte :=
  match p with
  | .sram a => s.rdSram (a + off) n
  | .mem a => s.rd (a + off) n

/-- Writes at a place. -/
def State.wrPlace (p : Place) (off : Nat) (d : List Byte) (s : State) : State :=
  match p with
  | .sram a => s.wrSram (a + off) d
  | .mem a => s.wr (a + off) d

end Sys2Proof.Machine
end

