-- ==== Sys2Proof/Machine/Tables.lean ====
section
/-! DEFINITION. What the layer rounds read: the configuration and source set of a bell (R24, R86, R166, R483), the layer
scoring and selection entries (R133, R153), the stall directory entries (R242) and the replica rule (R193). -/
namespace Sys2Proof.Machine

/-! ## Lists -/

/-- Puts an element into a list ordered by `lt`, after the elements it is not below. -/
def insertBy {α : Type} (lt : α → α → Bool) (x : α) : List α → List α
  | [] => [x]
  | y :: t => if lt x y then x :: y :: t else y :: insertBy lt x t

/-- Orders a list by `lt`, keeping the order of equals. -/
def sortBy {α : Type} (lt : α → α → Bool) (xs : List α) : List α := xs.foldl (fun acc x => insertBy lt x acc) []

/-- The place of a value in a list. -/
def indexOfNat (v : Nat) : List Nat → Option Nat
  | [] => none
  | a :: t => if a = v then some 0 else (indexOfNat v t).map (· + 1)

/-- The sum of a list. -/
def sumNat (xs : List Nat) : Nat := xs.foldl (· + ·) 0

/-- The largest of a list; 0 for an empty one. -/
def maxNat (xs : List Nat) : Nat := xs.foldl max 0

/-- The smallest of a list. -/
def minNat (xs : List Nat) : Nat := xs.foldl min (xs.headD 0)

/-! ## Configurations -/

/-- The registers that the rounds of a bell run under; those in force now for a bell the slice keeps none of. -/
def State.confAt (s : State) (bell : Nat) : Table W64 :=
  match s.bell.hist.find? fun e => e.bell == bell with
  | some e => e.conf
  | none => s.regs

/-- The source set that the rounds of a bell run under (R166). -/
def State.sourcesAt (s : State) (bell : Nat) : List Nat :=
  match s.bell.hist.find? fun e => e.bell == bell with
  | some e => e.sources
  | none => s.res.sources

/-- Routed layer count of a configuration (R416). -/
def confLayers (c : Table W64) : Nat := confFld c Reg.CTX_MODEL 24 16

/-- d_model of a configuration (R416). -/
def confD (c : Table W64) : Nat := 256 * confFld c Reg.CTX_MODEL 31 25

/-- Bit `l` of a run of four registers (DISP_WIREj, CMB_OUTFMTj). -/
def confLayerBit (c : Table W64) (r0 l : Nat) : Bool := confFld c (r0 + 8 * (l / 64)) (l % 64) (l % 64) == 1

/-- A layer's wire format is BF16 (R219). -/
def confWireBf16 (c : Table W64) (l : Nat) : Bool := confLayerBit c Reg.DISP_WIRE0 l

/-- A layer's output format is FP32 (R232). -/
def confOutFp32 (c : Table W64) (l : Nat) : Bool := confLayerBit c Reg.CMB_OUTFMT0 l

/-- Output element bytes of a layer. -/
def confOutBytes (c : Table W64) (l : Nat) : Nat := if confOutFp32 c l then 4 else 2

/-- The largest output element size over the routed layers (R234). -/
def confOutMax (c : Table W64) : Nat := maxNat (2 :: (List.range (confLayers c)).map (confOutBytes c))

/-- V of R204: the bytes of the vector on the wire. -/
def confWire (c : Table W64) (l : Nat) : Nat := if confWireBf16 c l then 2 * confD c else confD c + confD c / 32

/-- B_fwd of R79 and R204. -/
def confBfwd (c : Table W64) (l : Nat) : Nat := 16 + confWire c l

/-- B_ret of R79. -/
def confBret (c : Table W64) (l : Nat) : Nat := 16 + confD c * confOutBytes c l

/-! ## The layer selection table -/

/-- A layer selection entry (R153). -/
structure SelEnt where
  topk : Nat := 0
  flags : Nat := 0
  rounds : Nat := 0
  depth : Nat := 0
  m : Nat := 0
  cap : Nat := 0
  shared : Nat := 0
  s0 : Nat := 0
  s1 : Nat := 0
  amp : F32 := 0
  scale : F32 := 0
  deriving DecidableEq, Repr

/-- The fields of a 32 B layer selection entry. -/
def selParse (b : List Byte) : SelEnt where
  topk := fieldAt b 0 1
  flags := fieldAt b 1 1
  rounds := fieldAt b 2 1
  depth := fieldAt b 3 1
  m := fieldAt b 4 1
  cap := fieldAt b 5 1
  shared := fieldAt b 6 1
  s0 := fieldAt b 8 2 % 2 ^ 15
  s1 := fieldAt b 0xA 2 % 2 ^ 15
  amp := BitVec.ofNat 32 (fieldAt b 0xC 4)
  scale := BitVec.ofNat 32 (fieldAt b 0x10 4)

/-- Expert-choice. -/
def SelEnt.ec (e : SelEnt) : Bool := bits e.flags 0 0 == 1
/-- The SPILL policy. -/
def SelEnt.spill (e : SelEnt) : Bool := bits e.flags 1 1 == 1
/-- RENORM of R184. -/
def SelEnt.renorm (e : SelEnt) : Bool := bits e.flags 2 2 == 1
/-- DITHER of R155. -/
def SelEnt.dither (e : SelEnt) : Bool := bits e.flags 3 3 == 1
/-- GATE of R184: 0 SOFTMAX, 1 SIGMOID_NORM, 2 SIGMOID. -/
def SelEnt.gate (e : SelEnt) : Nat := bits e.flags 5 4

/-- X of R79: extra spill rounds. -/
def SelEnt.x (e : SelEnt) : Nat := if e.ec then 0 else if e.spill then e.rounds else 0

/-- g of R79: the largest grant count of a token. -/
def SelEnt.g (e : SelEnt) : Nat := if e.ec then (if e.cap = 0 then e.m else e.cap) else e.topk

/-- Choices of a token: k, or m in expert-choice. -/
def SelEnt.choices (e : SelEnt) : Nat := if e.ec then e.m else e.topk

/-- The shared experts of the layer in place order (R222). -/
def SelEnt.sharedIds (e : SelEnt) : List Nat := [e.s0, e.s1].take e.shared

/-- The reserved bits of a layer selection entry. -/
def selReserved (b : List Byte) : Bool :=
  bits (fieldAt b 1 1) 7 6 != 0 || fieldAt b 7 1 != 0 || bits (fieldAt b 8 2) 15 15 != 0
    || bits (fieldAt b 0xA 2) 15 15 != 0 || fieldAt b 0x14 12 != 0

/-- The REASON a selection entry fails with, lowest first (R186); 0 when it passes. `e` is the expert count. -/
def selReason (b : List Byte) (e : Nat) : Nat :=
  let x := selParse b
  if (if x.ec then x.topk != 0 else x.topk = 0 || 16 < x.topk) then 1
  else if x.gate = 3 then 2
  else if (if x.spill then x.rounds = 0 || 2 < x.rounds || x.depth = 0 || 16 < x.depth || 32 < x.topk + x.depth
      else x.rounds != 0 || x.depth != 0) then 3
  else if (if x.ec then x.m = 0 || 32 < x.m || 16 < x.cap || x.m < x.cap || x.spill || (x.cap = 0 && 16 < x.m)
      else x.m != 0 || x.cap != 0) then 4
  else if 2 < x.shared || (0 < x.shared && e ≤ x.s0) || (1 < x.shared && (e ≤ x.s1 || x.s0 = x.s1))
      || (x.shared = 0 && x.s0 != 0) || (x.shared < 2 && x.s1 != 0) then 5
  else if !fFinite x.amp || fNeg x.amp || !fFinite x.scale || fIsZero x.scale then 6
  else if selReserved b then 8
  else 0

/-- The selection entry of a layer in a configuration's table in force (R154). -/
def State.selEnt (s : State) (c : Table W64) (l : Nat) : SelEnt :=
  selParse (s.rd ((tGet resetOf Reg.SEL_TABLE_LIVE c).toNat + 32 * l) 32)

/-! ## The layer scoring table -/

/-- A layer scoring entry (R133). -/
structure ScoreEnt where
  key : Nat := 0
  proj : Nat := 0
  cent : Nat := 0
  group : Nat := 0
  kscale : F32 := 0
  pscale : F32 := 0
  cscale : F32 := 0
  dkey : Nat := 0
  groups : Nat := 0
  topg : Nat := 0
  mode : Nat := 0
  pfmt : Nat := 0
  kfmt : Nat := 0
  cfmt : Nat := 0
  qfmt : Nat := 0
  mirror : Nat := 0
  deriving DecidableEq, Repr

/-- The fields of a 64 B layer scoring entry. -/
def scoreParse (b : List Byte) : ScoreEnt where
  key := fieldAt b 0 8
  proj := fieldAt b 8 8
  cent := fieldAt b 0x10 8
  group := fieldAt b 0x18 8
  kscale := BitVec.ofNat 32 (fieldAt b 0x20 4)
  pscale := BitVec.ofNat 32 (fieldAt b 0x24 4)
  cscale := BitVec.ofNat 32 (fieldAt b 0x28 4)
  dkey := fieldAt b 0x2C 2
  groups := fieldAt b 0x2E 2
  topg := fieldAt b 0x30 1
  mode := fieldAt b 0x31 1
  pfmt := fieldAt b 0x32 1
  kfmt := fieldAt b 0x33 1
  cfmt := fieldAt b 0x34 1
  qfmt := fieldAt b 0x35 1
  mirror := fieldAt b 0x38 8

/-- Shortlist mode. -/
def ScoreEnt.shortlist (e : ScoreEnt) : Bool := bits e.mode 0 0 == 1

/-- Twice the element bytes of a format (R135). -/
def fmtBytes2 (f : Nat) : Nat := if f = 4 then 4 else if f = 5 then 1 else 2

/-- Twice the weight in C of a format (R134). -/
def fmtWeight2 (f : Nat) : Nat := if f = 4 then 4 else if f = 5 then 1 else 2

/-- A format with block scales (R134). -/
def fmtMx (f : Nat) : Bool := f == 2 || f == 3 || f == 5

/-- The bytes of a row-major image of `n` rows of length `len` (R135). -/
def imageBytes (f n len : Nat) : Nat := n * len * fmtBytes2 f / 2 + (if fmtMx f then n * (len / 32) else 0)

/-- The bank image's size: key image, and in shortlist mode centroid image and group table (R137). -/
def ScoreEnt.bankBytes (x : ScoreEnt) (e : Nat) : Nat :=
  imageBytes x.kfmt e x.dkey + (if x.shortlist then imageBytes x.cfmt x.groups x.dkey + 4 * x.groups else 0)

/-- The projection image's size (B_proj of R79). -/
def ScoreEnt.projBytes (x : ScoreEnt) (d : Nat) : Nat := imageBytes x.pfmt x.dkey d

/-- The group table as (first expert, count) pairs (R135). -/
def groupTable : Nat → List Byte → List (Nat × Nat)
  | 0, _ => []
  | n + 1, b => (fieldAt b 0 2, fieldAt b 2 2) :: groupTable n (b.drop 4)

/-- R136 with the counts of R135: contiguous ascending ranges from 0 to `e` − 1. -/
def groupsOk (e : Nat) : Nat → List (Nat × Nat) → Bool
  | at_, [] => at_ == e
  | at_, (f, n) :: t => f == at_ && 1 ≤ n && n ≤ 256 && groupsOk e (at_ + n) t

/-- The sum of the `n` largest of a list. -/
def topSum (n : Nat) (xs : List Nat) : Nat := sumNat ((sortBy (fun a b => decide (b < a)) xs).take n)

/-- C of R146. -/
def ScoreEnt.cycles (x : ScoreEnt) (e d : Nat) (groups : List (Nat × Nat)) : Nat :=
  let nk := if x.shortlist then topSum x.topg (groups.map (·.2)) else e
  let nc := if x.shortlist then x.groups else 0
  ceilDiv (x.dkey * (d / 32) * fmtWeight2 x.pfmt + nk * (x.dkey / 32) * fmtWeight2 x.kfmt
    + nc * (x.dkey / 32) * fmtWeight2 x.cfmt) 1024

/-- The query format and an operand format pair (R134). -/
def fmtPair (q k : Nat) : Bool := (q == 4) == (k == 4)

/-- A finite non-zero scale. -/
def scaleOk (x : F32) : Bool := fFinite x && !fIsZero x

/-- The reserved bits of a layer scoring entry. -/
def scoreReserved (b : List Byte) : Bool :=
  bits (fieldAt b 0 8) 63 52 != 0 || bits (fieldAt b 8 8) 63 52 != 0 || bits (fieldAt b 0x10 8) 63 52 != 0
    || bits (fieldAt b 0x18 8) 63 52 != 0 || bits (fieldAt b 0x31 1) 7 1 != 0 || fieldAt b 0x36 2 != 0
    || bits (fieldAt b 0x38 8) 63 52 != 0 || bits (fieldAt b 0x38 8) 5 0 != 0

/-- The REASON a scoring entry fails with, lowest first (R138, R151); 0 when it passes. -/
def scoreReason (b : List Byte) (e : Nat) (groups : List (Nat × Nat)) : Nat :=
  let x := scoreParse b
  if 4 < x.pfmt || 4 < x.kfmt || x.qfmt < 2 || 4 < x.qfmt || !fmtPair x.qfmt x.kfmt
      || (x.shortlist && (5 < x.cfmt || (x.cfmt != 5 && !fmtPair x.qfmt x.cfmt))) then 1
  else if x.dkey < 128 || 1024 < x.dkey || x.dkey % 32 != 0 then 2
  else if (if x.shortlist then x.groups < 16 || 1024 < x.groups || x.topg = 0 || 32 < x.topg || x.groups < x.topg
      else x.groups != 0) then 3
  else if x.shortlist && !groupsOk e 0 groups then 4
  else if 20971520 < x.bankBytes e then 5
  else if x.key = 0 || x.proj = 0 || x.key % 64 != 0 || x.proj % 64 != 0
      || (if x.shortlist then x.cent = 0 || x.group = 0 || x.cent % 64 != 0 || x.group % 64 != 0
          else x.cent != 0 || x.group != 0) then 6
  else if !scaleOk x.kscale || !scaleOk x.pscale || (x.shortlist && !scaleOk x.cscale) then 7
  else if scoreReserved b then 9
  else 0

/-- The scoring entry of a layer at a table base. -/
def State.scoreEntAt (s : State) (base l : Nat) : ScoreEnt := scoreParse (s.rd (base + 64 * l) 64)

/-- The scoring entry of a layer in a configuration's table in force (R138). -/
def State.scoreEnt (s : State) (c : Table W64) (l : Nat) : ScoreEnt :=
  s.scoreEntAt (tGet resetOf Reg.KEYS_TABLE_LIVE c).toNat l

/-- The group table of a scoring entry, from memory. -/
def State.groupsOf (s : State) (x : ScoreEnt) : List (Nat × Nat) :=
  if x.shortlist then groupTable x.groups (s.rd x.group (4 * x.groups)) else []

/-! ## The stall directory -/

/-- The fields of a directory entry (R242). -/
def dBias (d : Nat) : F32 := BitVec.ofNat 32 (bits d 31 0)
def dTie (d : Nat) : Nat := bits d 47 32
def dSites (d : Nat) : Nat := bits d 109 108 + 1
def dCap (d : Nat) : Nat := bits d 122 110
def dOpen (d : Nat) : Bool := bits d 123 123 == 1
def dState (d : Nat) : Nat := bits d 125 124
def dMirror (d : Nat) : Bool := bits d 126 126 == 1

/-- The sites of an entry in order, as source indices (R243). -/
def dSiteList (d : Nat) : List Nat := ([bits d 62 48, bits d 77 63, bits d 92 78, bits d 107 93]).take (dSites d)

/-- The auction home of a capped stall: SITE0 (R243). -/
def dHome (d : Nat) : Nat := bits d 62 48

/-- A directory entry as loaded. -/
def dirZero (_ : Nat) : Nat := 0

/-- The directory entry of an expert for the rounds of a bell: the entry in force, or the one that a later bell open
replaced (R24, R247). -/
def State.dirAt (s : State) (bell e : Nat) : Nat :=
  let later := s.res.undo.filter fun u => u.2.1 == e && bell < u.1
  match sortBy (fun a b => decide (a.1 < b.1)) later with
  | u :: _ => u.2.2
  | [] => tGet dirZero e s.res.dir

/-- The directory entry of an expert now. -/
def State.dirNow (s : State) (e : Nat) : Nat := tGet dirZero e s.res.dir

/-- A slice at source index `i` hosts an expert (R243). -/
def hosts (d i : Nat) : Bool := dState d != 2 && (dOpen d || (dSiteList d).contains i)

/-- A capped stall has its compute replica at source index `i`. -/
def replicates (d i : Nat) : Bool := !dOpen d && dState d != 2 && (dSiteList d).contains i

/-- The node of a source index. -/
def nodeAt (sources : List Nat) (i : Nat) : Nat := sources.getD i 0

/-- This slice's source index in a source set (R244). -/
def State.selfIdx (s : State) (sources : List Nat) : Option Nat := indexOfNat s.node sources

/-- The replica rule of R193: the compute site, as a source index, of a grant of expert `e` to source `src`. -/
def replica (sources : List Nat) (e d src : Nat) : Nat :=
  let r := dSiteList d
  if r.contains src then src
  else
    let id := nodeAt sources src
    let near := r.filter fun x => nodePkgDom (nodeAt sources x) == nodePkgDom id
    let set := if near.isEmpty then r else near
    let h := h64 (BitVec.ofNat 64 (e * 2 ^ 32) ^^^ BitVec.ofNat 64 id)
    set.getD (bits h.toNat 63 32 % set.length) 0

/-- The experts of the directory, ascending. -/
def State.expertIds (s : State) : List Nat := List.range s.experts

/-- H of R79: the capacities of the capped stalls that source index `i` replicates. -/
def State.hostedCap (s : State) (bell : Nat) (i : Option Nat) : Nat :=
  match i with
  | none => 0
  | some i => sumNat (s.expertIds.map fun e =>
      let d := s.dirAt bell e
      if replicates d i then dCap d else 0)

end Sys2Proof.Machine
end

