-- ==== Sys2Proof/Machine/Seqs.lean ====
section
/-! DEFINITION. Sequences (R93 to R115): the table and its memory copy, pending tokens, plan edits, failure; and the
result record and status word of a token (R234, R235, R237), which a failure rewrites. -/
namespace Sys2Proof.Machine

/-! ## The sequence table -/

/-- Pending tokens (R104) at positions as they stand. -/
def Seq.pending (e : Seq) : Nat :=
  if e.nextPos < e.promptEnd then e.promptEnd - e.nextPos else if e.nextPos < e.endPos then 1 else 0

/-- LOG2_POS of the output ring (R95). -/
def Seq.log2Pos (e : Seq) : Nat := bits e.outRing.toNat 3 0

/-- The output ring's base (R95). -/
def Seq.ringBase (e : Seq) : Nat := bits e.outRing.toNat 51 6 * 64

/-- Bytes 0x00 to 0x5F of an entry's memory copy (R95). PENDING is that of NEXT_POS as it stands when the copy is written, and 0
for an entry that is not ACTIVE (DESIGN CHOICE, notes/assumptions/16.md): R104 gives it at bell open only. -/
def seqBody (slice i : Nat) (e : Seq) : List Byte :=
  leBytes 8 e.host.toNat ++ leBytes 8 (h64 e.host).toNat ++ leBytes 2 (slice * 256 + i)
    ++ [BitVec.ofNat 8 e.gen, BitVec.ofNat 8 (e.state + 4 * bits (h64 e.host).toNat 0 0 + 8 * e.ctx)]
    ++ leBytes 4 e.nextPos ++ leBytes 4 e.promptEnd ++ leBytes 4 e.endPos
    ++ leBytes 4 (if e.state = 1 then e.pending else 0)
    ++ leBytes 2 e.admitted ++ leBytes 2 e.chunk ++ leBytes 8 e.pendSince ++ leBytes 8 e.outRing.toNat
    ++ leBytes 8 e.created ++ leBytes 8 e.failure.toNat ++ leBytes 8 e.tag.toNat ++ leBytes 8 e.lifetime ++ leBytes 8 0

/-- Bytes 0x60 to 0x7F of an entry's memory copy (R95). -/
def seqTail (updBell updCount : Nat) : List Byte := leBytes 8 updBell ++ leBytes 8 updCount ++ leBytes 16 0

/-- The three writes of a copy (R94). -/
def seqCopySteps (a slice i bell : Nat) (e : Seq) : List WStep :=
  [.bytes (a + 0x60) (seqTail e.updBell (e.updCount + 1)), .bytes a (seqBody slice i e),
   .bytes (a + 0x60) (seqTail bell (e.updCount + 2))]

/-- The engine writes an entry's memory copy (R94); with SEQ_TABLE BASE zero it writes none (R93). A copy begun while
the last one of the entry is under way follows it. -/
def State.copySeq (i : Nat) (s : State) : State :=
  let base := s.regNat Reg.SEQ_TABLE
  if base = 0 then s
  else
    let e := s.seq i
    let steps := seqCopySteps (base + i * 128) s.slice i s.bellNo e
    let e' := { e with updBell := s.bellNo, updCount := e.updCount + 2 }
    match e.copyChain.bind fun c => (tFind c s.chains).map fun rest => (c, rest) with
    | some (c, rest) => { s with chains := tPut c (rest ++ steps) s.chains, seqs := tSet freeSeq i e' s.seqs }
    | none =>
      { s with seqs := tSet freeSeq i { e' with copyChain := some s.nextChain } s.seqs } |>.startChain steps

/-- An entry takes a value: the table, its bit of SEQ_FAIL_MAP, which marks FAILED entries (R112, R114), and the memory
copy. -/
def State.setSeq (i : Nat) (e : Seq) (s : State) : State :=
  let s := { s with seqs := tSet freeSeq i e s.seqs }
  let s := s.setFld (Reg.SEQ_FAIL_MAP0 + 8 * (i / 64)) (i % 64) (i % 64) (b2n (e.state == 3))
  s.copySeq i

/-- The number of entries in a state (R114 SEQ_COUNT). -/
def State.seqCount (s : State) (st : Nat) : Nat :=
  if st = 0 then 256 - (s.seqs.filter fun p => p.2.state != 0).length
  else (s.seqs.filter fun p => p.2.state == st).length

/-! ## Result records -/

/-- The layer round of a half and the admitted set it belongs to. -/
def State.curRound (s : State) (h : Half) : Option (AdmSet × Round) :=
  match (s.half h).sets, (s.half h).cur with
  | a :: _, some r => some (a, r)
  | _, _ => none

/-- The address of a token's result record of a layer (R106, R234). -/
def State.resultAddr (s : State) (a : AdmSet) (t : Tok) (layer : Nat) : Nat :=
  let c := s.confAt a.bell
  let e := s.seq t.seq
  let stride := 64 + confD c * confOutMax c
  e.ringBase + ((t.pos % 2 ^ e.log2Pos) * confLayers c + layer) * stride

/-- The choices granted to a token. -/
def RTok.granted (t : RTok) : Nat := (t.choices.filter fun c => c.st == .granted).length

/-- The indices of the choices that are not granted. -/
def RTok.emptyAt (t : RTok) : List Nat := ((t.choices.zipIdx).filter fun p => p.1.st != .granted).map (·.2)

/-- A withheld token (R235). -/
def RTok.withheld (t : RTok) : Bool := t.err || t.failed || t.taint

/-- STATE of the status word by the precedence of R235. -/
def RTok.stateBits (t : RTok) (nonfinite : Bool) : Nat :=
  if t.failed then 2 else if t.err then 1 else if nonfinite && !t.taint then 3 else 0

/-- The status word of R235. -/
def RTok.statusWord (t : RTok) (late nonfinite : Bool) : Nat :=
  let empty := t.emptyAt
  t.granted
    + 32 * sumNat ((List.range 4).map fun r => if empty.contains r then 2 ^ r else 0)
    + 2 ^ 9 * b2n (empty.any fun r => 4 ≤ r)
    + 2 ^ 10 * b2n t.taint + 2 ^ 11 * b2n late + 2 ^ 12 * b2n t.subst + 2 ^ 13 * b2n t.spilled
    + 2 ^ 14 * t.stateBits nonfinite

/-- The token handle of a record with a rank (R101). -/
def State.handleFor (s : State) (a : AdmSet) (t : Tok) (layer rank : Nat) : W64 :=
  mkHandle (s.slice * 256 + t.seq) t.pos layer rank (bits t.hash.toNat 0 0) a.bell t.gen

/-- Bytes 0x00 to 0x3F of a result record (R234). -/
def recordHeader (status contrib : Nat) (handle : W64) (bell : Nat) : List Byte :=
  leBytes 2 status ++ leBytes 2 contrib ++ leBytes 4 0 ++ leBytes 8 handle.toNat ++ leBytes 8 bell ++ leBytes 40 0

/-- A vector filled with zeros up to `n` bytes. -/
def padTo (n : Nat) (v : List Byte) : List Byte := v.take n ++ leBytes (n - v.length) 0

/-- Issues a token's result record, or writes it again: the vector, when it is to be written, then the header, each
after the acknowledgement of the write before (R234, R237). A write of the record that is still under way goes first. -/
def State.writeRecord (h : Half) (i : Nat) (vector : Bool) (s : State) : State :=
  match s.curRound h with
  | none => s
  | some (a, r) =>
    match a.toks[i]?, r.toks[i]? with
    | some t, some x =>
      let c := s.confAt a.bell
      let at_ := s.resultAddr a t r.layer
      let hdr : List WStep := [.bytes at_ (recordHeader x.status x.contrib (s.handleFor a t r.layer 0) a.bell),
        .tokenWritten h i]
      let vec : WStep := .bytes (at_ + 0x40) (padTo (confD c * confOutMax c) x.vec)
      match x.chain.bind fun k => (tFind k s.chains).map fun rest => (k, rest) with
      | some (k, rest) =>
        let keep := if vector then [vec] else rest.filter fun w =>
          match w with
          | .bytes b _ => b == at_ + 0x40
          | _ => false
        { s with chains := tPut k (keep ++ hdr) s.chains } |>.modTok h i fun x => { x with written := false }
      | none =>
        let steps := if vector then vec :: hdr else hdr
        let s := s.modTok h i fun x => { x with issued := true, written := false, chain := some s.nextChain }
        s.startChain steps
    | _, _ => s

/-- The record of a token that was already issued is written again as FAILED: the header with STATE FAILED, the vector
with +0 (R237). -/
def State.failRecord (h : Half) (i : Nat) (late : Bool) (s : State) : State :=
  let s := s.modTok h i fun x =>
    { x with status := { x with failed := true }.statusWord late false, contrib := 0, vec := [] }
  s.writeRecord h i true

/-- The tokens of a sequence in the running round of a half are failed (R112 step 3): a record already issued is
written again, any other token's record carries STATE FAILED when it is written (R235). -/
def State.failTokens (h : Half) (q : Nat) (s : State) : State :=
  match s.curRound h with
  | none => s
  | some (a, r) =>
    (List.range a.toks.length).foldl (fun s i =>
      match a.toks[i]?, r.toks[i]? with
      | some t, some x =>
        if t.seq = q ∧ !x.failed then
          let s := s.modTok h i fun x => { x with failed := true }
          if x.issued then s.failRecord h i r.late else s
        else s
      | _, _ => s) s

/-! ## Failure -/

/-- Records a failure of a sequence (R112 steps 1 to 3); `st` is the state it goes to. -/
def State.recordFailure (q cause layer st : Nat) (s : State) : State :=
  let e := s.seq q
  let s := s.setSeq q { e with state := st
                               failure := BitVec.ofNat 64 (cause + layer % 256 * 2 ^ 8 + s.bellNo % 2 ^ 48 * 2 ^ 16) }
  let s := s.setReg Reg.SEQ_LAST_FAIL
    (BitVec.ofNat 64 (q + cause * 2 ^ 8 + layer % 256 * 2 ^ 16 + s.bellNo % 2 ^ 40 * 2 ^ 24))
  let s := s.record Pg.SEQ 0x2A 0
  let s := s.raise Pg.SEQ
  let s := s.tallyAdd Pg.SEQ 2 1
  (s.failTokens .calico q).failTokens .muslin q

/-- A cause of R112 reaches a sequence (R112, R113). -/
def State.failSeq (cause layer q : Nat) (s : State) : State :=
  let e := s.seq q
  if e.state = 0 then s
  else if e.failure ≠ 0#64 then s.tallyAdd Pg.SEQ 3 1
  else s.recordFailure q cause layer (if e.state = 1 then 3 else e.state)

/-- A cause reaches each of the sequences listed, once each. -/
def State.failSeqs (cause layer : Nat) (qs : List Nat) (s : State) : State :=
  qs.eraseDups.foldl (fun s q => s.failSeq cause layer q) s

/-- The sequences with a token in the running round of a half. -/
def State.roundSeqs (s : State) (h : Half) : List Nat :=
  match s.curRound h with
  | some (a, _) => (a.toks.map (·.seq)).eraseDups
  | none => []

/-- A layer round of a sequence may still run: one of its tokens is in an admitted set that has not ended (R100). -/
def State.seqRunning (s : State) (q : Nat) : Bool :=
  (s.cal.sets ++ s.mus.sets).any fun a => a.toks.any fun t => t.seq == q

/-- A draining entry becomes FREE when the last running layer round of its sequence has ended (R100). -/
def State.endDraining (s : State) : State :=
  (s.seqs.filter fun p => p.2.state == 2).foldl (fun s p =>
    if s.seqRunning p.1 then s else s.setSeq p.1 { s.seq p.1 with state := 0 }) s

/-! ## Plans -/

/-- The reserved bytes of a plan header are zero and its format is 0x0001 (R108). -/
def planHeaderOk (b : List Byte) : Bool := fieldAt b 0 2 == 1 && fieldAt b 4 4 == 0 && fieldAt b 0x18 40 == 0

/-- An edit's kind is 1 to 5 and its reserved bytes are zero (R108). -/
def planEditOk (b : List Byte) : Bool :=
  1 ≤ fieldAt b 0 1 && fieldAt b 0 1 ≤ 5 && fieldAt b 0x1C 4 == 0 && fieldAt b 0x30 16 == 0

/-- The edit count of a plan. -/
def State.planCount (s : State) (a : Nat) : Nat := s.rdNat (a + 2) 1

/-- The edits of a plan. -/
def State.planEdits (s : State) (a : Nat) : List (List Byte) :=
  (List.range (s.planCount a)).map fun i => s.rd (a + 64 + 64 * i) 64

/-- The check of R108 on a plan as read: it passes. -/
def State.planOk (s : State) (a : Nat) : Bool :=
  !s.unreadable (.plan a) a (64 + 64 * s.planCount a) && planHeaderOk (s.rd a 64) && (s.planEdits a).all planEditOk

/-- A context exists (R417): its state is not ABSENT. -/
def State.ctxState (s : State) (c : Nat) : Nat := (tGet (fun _ => ({} : Ctx)) c s.ctx.ctxs).st

/-- The lowest FREE local index (R99). -/
def State.freeSlot (s : State) : Option Nat := (List.range 256).find? fun i => (s.seq i).state == 0

/-- The local index a START takes, or the code it is refused with (R99). -/
def State.startSlot (s : State) (slot : Nat) : Except Nat Nat :=
  if bits slot 15 15 = 1 then
    (if bits slot 10 8 ≠ s.slice then .error 0x22
     else if (s.seq (slot % 256)).state ≠ 0 then .error 0x21
     else .ok (slot % 256))
  else match s.freeSlot with
    | some i => .ok i
    | none => .error 0x20

/-- Writes an edit's status byte, and for a START its slot and generation (R108, R109). -/
def State.editStatus (a status : Nat) (s : State) : State := s.wr (a + 1) [BitVec.ofNat 8 status]

/-- An edit is refused with a code (R109): nothing changes but its status byte, and the SEQ page records the code. -/
def State.editRefuse (a code : Nat) (s : State) : State := (s.editStatus a code).record Pg.SEQ code 0

/-- START (R109). The order of the checks is that of the table of edit kinds. -/
def State.editStart (a : Nat) (b : List Byte) (s : State) : State :=
  let host := BitVec.ofNat 64 (fieldAt b 8 8)
  let first := fieldAt b 0x10 4
  let stop := fieldAt b 0x18 4
  let pend := first + fieldAt b 0x14 4
  let ring := BitVec.ofNat 64 (fieldAt b 0x20 8)
  let ctx := fieldAt b 5 1
  let chunk := fieldAt b 6 2
  match s.startSlot (fieldAt b 2 2) with
  | .error c => s.editRefuse a c
  | .ok i =>
    if s.seqs.any fun p => p.2.state != 0 && p.2.host == host then s.editRefuse a 0x23
    else if 3 < ctx then s.editRefuse a 0x03
    else if s.ctxState ctx = 0 then s.editRefuse a 0x25
    else if stop = 0 ∨ 16777216 < stop ∨ stop < pend then s.editRefuse a 0x26
    else if 13 < bits ring.toNat 3 0 ∨ bits ring.toNat 51 6 = 0 then s.editRefuse a 0x2C
    else if 8192 < chunk then s.editRefuse a 0x03
    else
      let gen := ((s.seq i).gen + 1) % 256
      let old := s.seq i
      let e : Seq := Seq.mk 1 gen host ctx first pend stop chunk s.bellNo 0 ring s.bellNo 0#64
        (BitVec.ofNat 64 (fieldAt b 0x28 8)) 0 old.updBell old.updCount old.copyChain none
      let s := s.setSeq i e
      let s := s.tallyAdd Pg.SEQ 0 1
      (s.wr (a + 2) (leBytes 2 (s.slice * 256 + i) ++ [BitVec.ofNat 8 gen])).editStatus a 1

/-- The entry an edit names matches: SLOT, GEN and HOST_ID of an entry on this slice that is not FREE (R109). -/
def State.editMatch (s : State) (b : List Byte) : Option Nat :=
  let slot := fieldAt b 2 2 % 2 ^ 11
  let i := slot % 256
  let e := s.seq i
  if slot / 256 = s.slice ∧ e.state ≠ 0 ∧ e.gen = fieldAt b 4 1 ∧ e.host = BitVec.ofNat 64 (fieldAt b 8 8)
  then some i else none

/-- FINISH (R100, R109): a sequence that a FINISH of this bell open reached before is refused (R110); one that drains since
an earlier bell stays as it is. -/
def State.editFinish (a : Nat) (b : List Byte) (s : State) : State :=
  match s.editMatch b with
  | none => s.editRefuse a 0x24
  | some i =>
    let e := s.seq i
    if e.state = 2 ∧ e.finBell = some s.bellNo then s.editRefuse a 0x24
    else if e.state = 2 then s.editStatus a 1
    else
      let s := s.setSeq i { e with state := if s.seqRunning i then 2 else 0, finBell := some s.bellNo }
      let s := s.tallyAdd Pg.SEQ 1 1
      s.editStatus a (if e.state = 3 then 2 else 1)

/-- CHUNK (R109). -/
def State.editChunk (a : Nat) (b : List Byte) (s : State) : State :=
  match s.editMatch b with
  | none => s.editRefuse a 0x24
  | some i =>
    let e := s.seq i
    if e.state ≠ 1 then s.editRefuse a 0x24
    else if 8192 < fieldAt b 6 2 then s.editRefuse a 0x03
    else (s.setSeq i { e with chunk := fieldAt b 6 2 }).editStatus a 1

/-- PRIORITY (R109, R110). -/
def State.editPriority (a : Nat) (b : List Byte) (s : State) : State :=
  match s.editMatch b with
  | none => s.editRefuse a 0x24
  | some i =>
    let e := s.seq i
    if e.state ≠ 1 then s.editRefuse a 0x24
    else if 3 < fieldAt b 5 1 then s.editRefuse a 0x03
    else if s.ctxState (fieldAt b 5 1) = 0 then s.editRefuse a 0x25
    else (s.setSeq i { e with ctx := fieldAt b 5 1 }).editStatus a 1

/-- EXTEND (R109). -/
def State.editExtend (a : Nat) (b : List Byte) (s : State) : State :=
  match s.editMatch b with
  | none => s.editRefuse a 0x24
  | some i =>
    let e := s.seq i
    let stop := e.nextPos + fieldAt b 0x14 4
    if e.state ≠ 1 ∨ e.nextPos < e.promptEnd then s.editRefuse a 0x24
    else if e.endPos < stop then s.editRefuse a 0x26
    else (s.setSeq i { e with promptEnd := stop, pendSince := s.bellNo }).editStatus a 1

/-- One edit of a plan as its check read it; its status goes to its address (R107, R109). -/
def State.applyEdit (a : Nat) (b : List Byte) (s : State) : State :=
  match fieldAt b 0 1 with
  | 1 => s.editStart a b
  | 2 => s.editFinish a b
  | 3 => s.editChunk a b
  | 4 => s.editPriority a b
  | _ => s.editExtend a b

/-- A queued plan applies (R107): its edits in order, then the header status APPLIED and the bell. -/
def State.applyPlan (p : Plan) (s : State) : State :=
  let s := p.edits.zipIdx.foldl (fun s e => s.applyEdit (p.addr + 64 + 64 * e.2) e.1) s
  let s := s.wrNat (p.addr + 0x10) 8 s.bellNo
  s.wr (p.addr + 3) [2#8]

/-! ## Commands -/

/-- SEQ_HASH_IN: H64 of the ID written stands in SEQ_HASH_OUT (R97, R114). -/
def State.seqHashIn (v : W64) (s : State) : State :=
  s.gated Reg.SEQ_HASH_IN v fun s => s.setReg Reg.SEQ_HASH_OUT (h64 v)

/-- The command of that write. -/
def execSeqHashIn (v : W64) (s : State) : Out := .next (s.seqHashIn v)

end Sys2Proof.Machine
end

