-- ==== Sys2Proof/Machine/Pools.lean ====
section
/-! DEFINITION. Staging pools (R214 to R217): the frames of stall SRAM, buffers of four size classes, their owners, and
the areas that lie partly in frames and partly in memory (R195, R224). -/
namespace Sys2Proof.Machine

/-! ## Frames -/

/-- Bytes of a frame (R214). -/
def frameBytes : Nat := 2097152

/-- Frames of active stall SRAM. -/
def frameCount : Nat := 32

/-- An unlisted frame is free. -/
def frameFree (_ : Nat) : FrameUse := .free

/-- What a frame is used for. -/
def State.frameUse (s : State) (f : Nat) : FrameUse := tGet frameFree f s.pool.frames

/-- A frame takes a use; one that is to leave the pool leaves it when it becomes free (R451). -/
def State.setFrame (f : Nat) (u : FrameUse) (s : State) : State :=
  let u := if u == .free && s.pool.leaving.contains f then .gone else u
  { s with pool := { s.pool with frames := tSet frameFree f u s.pool.frames } }

/-- The free frames, lowest first. -/
def State.freeFrames (s : State) : List Nat := (List.range frameCount).filter fun f => s.frameUse f == .free

/-- Takes up to `n` free frames for a use: the frames, lowest first. -/
def State.takeFrames (n : Nat) (u : FrameUse) (s : State) : List Nat × State :=
  let fs := s.freeFrames.take n
  (fs, fs.foldl (fun s f => s.setFrame f u) s)

/-- Frees the frames of a list. -/
def State.dropFrames (fs : List Nat) (s : State) : State := fs.foldl (fun s f => s.setFrame f .free) s

/-- A frame that is carved into pool buffers. -/
def FrameUse.isCarved : FrameUse → Bool
  | .carved _ => true
  | _ => false

/-- Frames carved into pool buffers (R220). -/
def State.carvedFrames (s : State) : Nat := ((List.range frameCount).filter fun f => (s.frameUse f).isCarved).length

/-! ## Buffers -/

/-- Bytes of a buffer of a class (R214). -/
def clsBytes (c : Nat) : Nat := 4096 * 8 ^ c

/-- Buffers of a class in one frame. -/
def clsPerFrame (c : Nat) : Nat := 512 / 8 ^ c

/-- A buffer ID (R217). -/
def bufId (cls tier index : Nat) : Nat := cls + 4 * tier + 8 * index

/-- Class, tier and index of a buffer ID. -/
def bufCls (id : Nat) : Nat := bits id 1 0
def bufTier (id : Nat) : Nat := bits id 2 2
def bufIdx (id : Nat) : Nat := bits id 23 3

/-- Overflow buffers of a class in force (R216). -/
def State.ovfCount (s : State) (c : Nat) : Nat := 8 * s.fld Reg.POOL_OVF_CNT (16 * c + 15) (16 * c)

/-- The place of a class's overflow buffers (R216). -/
def State.ovfBase (s : State) (c : Nat) : Nat :=
  s.regNat Reg.POOL_OVF + sumNat ((List.range c).map fun k => s.ovfCount k * clsBytes k)

/-- Where a buffer lies. -/
def State.bufPlace (s : State) (id : Nat) : Place :=
  let c := bufCls id
  if bufTier id = 0 then .sram (bufIdx id * clsBytes c) else .mem (s.ovfBase c + bufIdx id * clsBytes c)

/-- A buffer is allocated. -/
def State.bufUsed (s : State) (id : Nat) : Bool := (tFind id s.pool.bufs).isSome

/-- A free buffer of a class in a frame carved for it. -/
def State.freeInFrame (s : State) (c f : Nat) : Option Nat :=
  if s.frameUse f = .carved c then
    ((List.range (clsPerFrame c)).map fun j => bufId c 0 (f * clsPerFrame c + j)).find? fun id => !s.bufUsed id
  else none

/-- A free SRAM buffer of a class. -/
def State.freeSram (s : State) (c : Nat) : Option Nat := (List.range frameCount).findSome? (s.freeInFrame c)

/-- A free overflow buffer of a class. -/
def State.freeOvf (s : State) (c : Nat) : Option Nat :=
  if s.regNat Reg.POOL_OVF = 0 then none
  else ((List.range (s.ovfCount c)).map (bufId c 1)).find? fun id => !s.bufUsed id

/-- Classes from `c` up. -/
def clsFrom (c : Nat) : List Nat := (List.range 4).filter fun k => c ≤ k

/-- What a request for a class finds (R215): the buffer, and whether it is a fallback under step 3 or 4; a frame that
must be carved first. -/
def State.findBuf (s : State) (c : Nat) : Option (Nat × Option Nat × Bool) :=
  match s.freeSram c with
  | some id => some (id, none, false)
  | none =>
    match s.freeFrames with
    | f :: _ => some (bufId c 0 (f * clsPerFrame c), some f, false)
    | [] =>
      match (clsFrom (c + 1)).findSome? s.freeSram with
      | some id => some (id, none, true)
      | none => ((clsFrom c).findSome? s.freeOvf).map fun id => (id, none, true)

/-- An overflow buffer of a class or of a larger one (R215 step 4). -/
def State.findOvf (s : State) (c : Nat) : Option (Nat × Option Nat × Bool) :=
  ((clsFrom c).findSome? s.freeOvf).map fun id => (id, none, true)

/-- The frames of a context's partition that are carved into a class, or not carved. -/
def State.partCarved (s : State) (x : Nat) (c : Option Nat) : List Nat :=
  (List.range frameCount).filter fun f => s.frameUse f == .partition x c

/-- A free buffer of a class in a context's partition. -/
def State.freePart (s : State) (x c : Nat) : Option Nat :=
  (s.partCarved x (some c)).findSome? fun f =>
    ((List.range (clsPerFrame c)).map fun j => bufId c 0 (f * clsPerFrame c + j)).find? fun id => !s.bufUsed id

/-- What a request charged to a PARTITION context finds (R418): its own frames by R215, then overflow buffers. -/
def State.findPart (s : State) (x c : Nat) : Option (Nat × Option Nat × Bool) :=
  match s.freePart x c, s.partCarved x none with
  | some id, _ => some (id, none, false)
  | none, f :: _ => some (bufId c 0 (f * clsPerFrame c), some f, false)
  | none, [] =>
    match (clsFrom (c + 1)).findSome? (s.freePart x) with
    | some id => some (id, none, true)
    | none => s.findOvf c

/-- The frame of a buffer of SRAM. -/
def bufFrame (id : Nat) : Nat := bufIdx id / clsPerFrame (bufCls id)

/-- The frames that hold buffers charged to a context (R418). -/
def State.framesOf (s : State) (x : Nat) : List Nat :=
  ((s.pool.bufs.filter fun b => b.2.ctx == some x && bufTier b.1 == 0).map fun b => bufFrame b.1).eraseDups

/-- An unlisted context is ABSENT. -/
def ctxNone (_ : Nat) : Ctx := {}

/-- A context (R417). -/
def State.ctxAt (s : State) (c : Nat) : Ctx := tGet ctxNone c s.ctx.ctxs

/-- Changes a context. -/
def State.modCtx (c : Nat) (f : Ctx → Ctx) (s : State) : State :=
  { s with ctx := { s.ctx with ctxs := tSet ctxNone c (f (s.ctxAt c)) s.ctx.ctxs } }

/-- What a request finds, by the context it is charged to (R215, R418). -/
def State.findFor (s : State) (c : Nat) (ctx : Option Nat) : Option (Nat × Option Nat × Bool) :=
  match ctx with
  | none => s.findBuf c
  | some x =>
    let k := s.ctxAt x
    if !k.spill then s.findPart x c
    else match s.findBuf c with
      | none => none
      | some (id, carve, fall) =>
        let held := s.framesOf x
        if bufTier id = 0 ∧ !held.contains (bufFrame id) ∧ k.saveMib / 2 ≤ held.length then s.findOvf c
        else some (id, carve, fall)

/-- A frame is carved into buffers of a class. -/
def State.carve (f c : Nat) (s : State) : State :=
  s.setFrame f (match s.frameUse f with
    | .partition x _ => .partition x (some c)
    | _ => .carved c)

/-- A buffer of a class is taken with an owner list (R215, R217); none when the request finds nothing. -/
def State.takeBuf (c : Nat) (owners : List Nat) (ctx : Option Nat) (s : State) : Option Nat × State :=
  match s.findFor c ctx with
  | none => (none, s)
  | some (id, carve, fall) =>
    let s := match carve with
      | some f => s.carve f c
      | none => s
    let s := { s with pool := { s.pool with bufs := tPut id { owners := owners, ctx := ctx } s.pool.bufs } }
    let s := s.tallyAdd Pg.POOL (2 * bufCls id + bufTier id) 1
    let s := if fall then s.tallyAdd Pg.POOL 8 1 else s
    (some id, s.tallyMax Pg.POOL 9 s.carvedFrames)

/-- A request for a buffer of a class (R215): it finds nothing while an earlier one of its class waits. -/
def State.allocBuf (c : Nat) (owners : List Nat) (ctx : Option Nat) (s : State) : Option Nat × State :=
  if s.pool.waiters.any fun w => w.cls == c then (none, s) else s.takeBuf c owners ctx

/-- A request that finds nothing waits, in order of arrival within its class (R215). -/
def State.waitBuf (c : Nat) (owners : List Nat) (w : WaitFor) (s : State) : State :=
  { s with pool := { s.pool with waiters := s.pool.waiters ++ [⟨c, owners, none, s.now, w⟩] } }

/-- A buffer of a half's slot that lies in memory: its bytes are slot memory bytes beyond W (R82, R83). -/
def State.slotBuf (h : Half) (id : Nat) (s : State) : State :=
  if bufTier id = 0 then s else s.modRound h fun r => { r with beyondW := true }

/-- The buffer leaves the pool; a carved frame whose buffers are all free returns to the free frames (R215). -/
def State.releaseBuf (id : Nat) (s : State) : State :=
  let s := { s with pool := { s.pool with bufs := tDel id s.pool.bufs } }
  if bufTier id ≠ 0 then s
  else
    let c := bufCls id
    let f := bufIdx id / clsPerFrame c
    if (List.range (clsPerFrame c)).any fun j => s.bufUsed (bufId c 0 (f * clsPerFrame c + j)) then s
    else match s.frameUse f with
      | .carved _ => s.setFrame f .free
      | .partition x _ => s.setFrame f (.partition x none)
      | _ => s

/-- A refused free (R217): the code, POOL_LAST_BAD, a lost-or-duplicated fault. -/
def State.badFree (id unit code : Nat) (s : State) : State :=
  let s := s.setReg Reg.POOL_LAST_BAD (BitVec.ofNat 64 (id % 2 ^ 32 + unit * 2 ^ 32))
  (s.record Pg.POOL code 0).lostDup code 0 .calico

/-- A unit frees a buffer (R217). -/
def State.freeBuf (id unit : Nat) (s : State) : State :=
  match tFind id s.pool.bufs with
  | none => s.badFree id unit 0x5B
  | some b => if b.owners.getLast? = some unit then s.releaseBuf id else s.badFree id unit 0x5C

/-- A unit frees several buffers. -/
def State.freeBufs (ids : List Nat) (unit : Nat) (s : State) : State := ids.foldl (fun s id => s.freeBuf id unit) s

/-! ## Areas that lie in frames and in memory -/

/-- The place of a byte of an area: its leading bytes lie in frames, one after another; the others lie in memory from
`memBase`, counted from the first byte beyond the frames. -/
def areaPlace (frames : List Nat) (memBase off : Nat) : Place :=
  match frames[off / frameBytes]? with
  | some f => .sram (f * frameBytes + off % frameBytes)
  | none => .mem (memBase + (off - frames.length * frameBytes))

/-- The part of `n` bytes at `off` that stays within one frame. -/
def areaPart (off n : Nat) : Nat := min n (frameBytes - off % frameBytes)

/-- Writes bytes into an area, split at frame ends. -/
def State.areaWrite (frames : List Nat) (memBase : Nat) : Nat → Nat → List Byte → State → State
  | 0, _, _, s => s
  | fuel + 1, off, d, s =>
    if d.isEmpty then s
    else
      let n := areaPart off d.length
      State.areaWrite frames memBase fuel (off + n) (d.drop n) (s.wrPlace (areaPlace frames memBase off) 0 (d.take n))

/-- Reads bytes of an area, split at frame ends. -/
def State.areaRead (s : State) (frames : List Nat) (memBase : Nat) : Nat → Nat → Nat → List Byte
  | 0, _, _ => []
  | fuel + 1, off, n =>
    if n = 0 then []
    else
      let k := areaPart off n
      s.rdPlace (areaPlace frames memBase off) 0 k ++ State.areaRead s frames memBase fuel (off + k) (n - k)

/-- The pieces an access of `n` bytes needs at most. -/
def areaFuel (n : Nat) : Nat := n / frameBytes + 2

/-- The frames of a half's receive region (R195). -/
def State.region (s : State) : Half → List Nat
  | .calico => s.pool.regionCal
  | .muslin => s.pool.regionMus

/-- The overflow area of a half's receive region under the tables of the round that uses it (R195). -/
def State.regionOvf (s : State) (h : Half) : Nat :=
  let x := match h with
    | .calico => s.siteCal
    | .muslin => s.siteMus
  let c := if x.active then s.confAt x.bell else s.regs
  confFld c Reg.DISP_OVF 51 21 * 2 ^ 21 + h.num * confFld c Reg.DISP_OVF 15 0 * 2 ^ 20

/-- Writes into a half's receive region. -/
def State.regionWrite (h : Half) (off : Nat) (d : List Byte) (s : State) : State :=
  s.areaWrite (s.region h) (s.regionOvf h) (areaFuel d.length) off d

/-- Reads from a half's receive region. -/
def State.regionRead (s : State) (h : Half) (off n : Nat) : List Byte :=
  s.areaRead (s.region h) (s.regionOvf h) (areaFuel n) off n

/-- The memory of a half's return area beyond its mapped frames: bytes there lie at their own offset (R224). -/
def retMemBase (c : Table W64) (h : Half) (frames : Nat) : Nat :=
  confFld c Reg.CMB_RET 51 21 * 2 ^ 21 + h.num * confFld c Reg.CMB_RET 15 0 * 2 ^ 20 + frames * frameBytes

/-! ## The converted-input stream (R140, R214) -/

/-- The class 0 buffers of a half's stream, in order. -/
def State.conv (s : State) : Half → List Nat
  | .calico => s.pool.convCal
  | .muslin => s.pool.convMus

/-- Replaces the buffers of a half's stream. -/
def State.setConv (h : Half) (ids : List Nat) (s : State) : State :=
  match h with
  | .calico => { s with pool := { s.pool with convCal := ids } }
  | .muslin => { s with pool := { s.pool with convMus := ids } }

/-- A buffer joins the stream of a half. -/
def State.convAdd (h : Half) (id : Nat) (s : State) : State := (s.setConv h (s.conv h ++ [id])).slotBuf h id

/-- The stream's request waits, unless it waits already (R215). -/
def State.convWait (h : Half) (s : State) : State :=
  if s.pool.waiters.any fun w => w.for_ == .conv h then s else s.waitBuf 0 [1, 2] (.conv h)

/-- The stream of a half grows to at least `n` buffers, owned by SCORE then SORT (R217): a buffer granted to a request that
waited is taken first, and a request that finds nothing waits (R215). -/
def State.convGrow (h : Half) : Nat → Nat → State → State
  | 0, _, s => s
  | fuel + 1, n, s =>
    if n ≤ (s.conv h).length then s
    else
      match s.pool.grants.find? fun g => g.2.for_ == .conv h with
      | some g =>
        State.convGrow h fuel n (({ s with pool := { s.pool with grants := s.pool.grants.erase g } } : State).convAdd h g.1)
      | none =>
        match s.allocBuf 0 [1, 2] none with
        | (some id, s) => State.convGrow h fuel n (s.convAdd h id)
        | (none, s) => s.convWait h

/-- Buffers that the stream of a half needs for the wire vectors of its first `i + 1` tokens. -/
def convNeed (i v : Nat) : Nat := ceilDiv ((i + 1) * v) 4096

/-- The stream of a half has room for the token at scoring index `i`, as far as buffers can be had. -/
def State.convRoom (h : Half) (i v : Nat) (s : State) : Bool × State :=
  let s := s.convGrow h (ceilDiv v 4096 + 2) (convNeed i v)
  (decide (convNeed i v ≤ (s.conv h).length), s)

/-- Writes stream bytes, 4 KiB to a buffer. -/
def State.convWrite (h : Half) : Nat → Nat → List Byte → State → State
  | 0, _, _, s => s
  | fuel + 1, off, d, s =>
    if d.isEmpty then s
    else
      let n := min d.length (4096 - off % 4096)
      let s := match (s.conv h)[off / 4096]? with
        | some id => s.wrPlace (s.bufPlace id) (off % 4096) (d.take n)
        | none => s
      State.convWrite h fuel (off + n) (d.drop n) s

/-- Reads stream bytes. -/
def State.convRead (s : State) (h : Half) : Nat → Nat → Nat → List Byte
  | 0, _, _ => []
  | fuel + 1, off, n =>
    if n = 0 then []
    else
      let k := min n (4096 - off % 4096)
      (match (s.conv h)[off / 4096]? with
        | some id => s.rdPlace (s.bufPlace id) (off % 4096) k
        | none => leBytes k 0) ++ State.convRead s h fuel (off + k) (n - k)

/-- The wire vector of the token at scoring index `i` enters the stream of its half (R214). -/
def State.convPut (h : Half) (i v : Nat) (d : List Byte) (s : State) : State :=
  s.convWrite h (ceilDiv v 4096 + 2) (i * v) d

/-- The wire vector of the token at scoring index `i`. -/
def State.convGet (s : State) (h : Half) (i v : Nat) : List Byte := s.convRead h (ceilDiv v 4096 + 2) (i * v) v

/-! ## W -/

/-- W of R196 for a half, in bytes, before the reduction of R140: its region frames and the free frames. -/
def State.poolW (s : State) (h : Half) : Nat := ((s.region h).length + s.freeFrames.length) * frameBytes

/-! ## Commands -/

/-- A wait longer than 100 µs records POOL_STARVED, once per bell (R215). -/
def execPoolStarved (cls : Nat) (s : State) : Out :=
  if s.pool.waiters.any fun w => w.cls == cls then .next (s.recordOnce Pg.POOL 0x5E 0) else .next s

end Sys2Proof.Machine
end

