-- ==== Sys2Proof/Machine/Units.lean ====
section
/-! DEFINITION. Faults of units: transient or permanent (R453), fencing (R454), marks for retirement (R455), and the
scope of a report: taint of tokens still to be delivered, a suspect record for those delivered (R436, R437). -/
namespace Sys2Proof.Machine

/-- A unit is marked for retirement (R455); a mark already made stays, and a fence comes to it. -/
def State.markUnit (kind index cls : Nat) (fenced : Bool) (s : State) : State :=
  let mine (m : Mark) : Bool := m.kind == kind && m.index == index
  let up (m : Mark) : Mark := if mine m && fenced && !m.fenced then { m with cls := cls, fenced := true } else m
  if s.safe.marks.any mine then { s with safe := { s.safe with marks := s.safe.marks.map up } }
  else { s with safe := { s.safe with marks := s.safe.marks ++ [⟨kind, index, cls, false, fenced⟩] } }

/-- A tile or a sorter lane found permanent is fenced at once (R454); a lane's fence is in its mark, since SPARE_LANES names
none. -/
def State.fenceUnit (kind index : Nat) (s : State) : State :=
  if kind = 1 then s.setFld Reg.SPARE_TILES (16 + index) (16 + index) 1 else s

/-- A fault of a unit is decided (R453): permanent when its mechanism says so or when it is the unit's second in this
bell, and then fenced and marked; otherwise counted as transient. -/
def State.unitFault (kind index cls : Nat) (permanent : Bool) (s : State) : State :=
  let k := kind * 256 + index
  let n := tGet zeroNat k s.safe.faults
  let s := { s with safe := { s.safe with faults := tSet zeroNat k (n + 1) s.safe.faults } }
  if permanent ∨ 0 < n then (s.fenceUnit kind index).markUnit kind index cls (kind == 1 || kind == 2) else s.tallyAdd Pg.SAFE 7 1

/-- TAINT on every token of the running round of a half whose LAYER_OUT has not rung (R436 step 1). -/
def State.taintHalf (h : Half) (s : State) : State :=
  s.modRound h fun r => { r with toks := r.toks.map fun t => { t with taint := true } }

/-- A scope of a half that may have been delivered: the running round of that bell and layer is tainted, otherwise a
suspect record names the indices (R436, R437). Answers whether it had been delivered. -/
def State.scopeHalf (bell layer : Nat) (h : Half) (first last : Nat) (s : State) : Bool × State :=
  match s.curRound h with
  | some (a, r) =>
    if a.bell = bell ∧ r.layer = layer then (false, s.taintRange h first (last + 1))
    else (true, s.suspect bell layer h first last)
  | none => (true, s.suspect bell layer h first last)

/-- The bell of the set that a half works on; the current bell when none. -/
def State.setBell (s : State) (h : Half) : Nat :=
  match (s.half h).sets with
  | a :: _ => a.bell
  | [] => s.bellNo

/-- A failed ledger check (R442): SAFE_LEDGER, LEDGER_BREAK, class 2. -/
def State.ledgerBreak (check expert node layer : Nat) (h : Half) (s : State) : State :=
  let s := s.setReg Reg.SAFE_LEDGER (BitVec.ofNat 64 (check + expert * 2 ^ 4 + node * 2 ^ 19 + layer % 256 * 2 ^ 42
    + h.num * 2 ^ 50))
  (s.record Pg.SAFE 0xD1 0).lostDup 0xD1 layer h

end Sys2Proof.Machine
end

