-- ==== Sys2Proof/Machine/Resid.lean ====
section
/-! DEFINITION. What other units read of expert residency: descriptors (R248), where a block lies (R253), its state
(R254), and which source indices a dead-slice notice names (R265, R266). -/
namespace Sys2Proof.Machine

/-- The cached descriptor of an expert (R248). -/
def State.desc (s : State) (e : Nat) : List Byte := (tFind e s.res.descs).getD []

/-- Fields of a descriptor (R248). -/
def dscPool (d : List Byte) : Nat := fieldAt d 0 8
def dscMirror (d : List Byte) : Nat := fieldAt d 8 8
def dscBlock (d : List Byte) : Nat := bits (fieldAt d 0x10 4) 19 0
def dscOwner (d : List Byte) : Nat := bits (fieldAt d 0x14 1) 1 0
def dscT0 (d : List Byte) : Bool := bits (fieldAt d 0x15 1) 0 0 == 1
def dscPin (d : List Byte) : Bool := bits (fieldAt d 0x15 1) 1 1 == 1
def dscId (d : List Byte) : Nat := bits (fieldAt d 0x16 2) 14 0
/-- The expert has a weight block in a routed layer. -/
def dscLayer (d : List Byte) (l : Nat) : Bool := bits (fieldAt d 0x20 32) l l == 1
/-- Bytes of a layer block. -/
def dscBytes (d : List Byte) : Nat := dscBlock d * 4096

/-- The key of a weight block. -/
def blockKey (e l : Nat) : Nat := e * 256 + l

/-- An unlisted block is ABSENT. -/
def blockNone (_ : Nat) : Block := {}

/-- The map's entry of a block (R254). -/
def State.block (s : State) (e l : Nat) : Block := tGet blockNone (blockKey e l) s.res.blocks

/-- The place of an in-place block, as a window offset of this slice (R253); none when the block is not in place. -/
def State.inPlace (s : State) (e l : Nat) : Option Nat :=
  let d := s.desc e
  let p := dscPool d
  let m := dscMirror d
  let ent := s.dirNow e
  if p ≠ 0 ∧ faNode p = s.node then some (faOffset p + l * dscBytes d)
  else if m ≠ 0 ∧ faNode m = s.node then some (faOffset m + l * dscBytes d)
  else
    match s.selfIdx s.res.sources with
    | some i => if dOpen ent ∧ (dSiteList ent).contains i ∧ p ≠ 0 then some (faOffset p + l * dscBytes d) else none
    | none => none

/-- The state of a block: 0 ABSENT, 1 FETCHING, 2 RESIDENT, 3 FAILED (R253, R254, R263). A block whose LAYERS bit is 0 is
always RESIDENT; one that is in place is RESIDENT unless it has failed. -/
def State.blockState (s : State) (e l : Nat) : Nat :=
  if !dscLayer (s.desc e) l then 2
  else if (s.block e l).st = 3 then 3
  else if (s.inPlace e l).isSome then 2 else (s.block e l).st

/-- A block's map entry takes a value. -/
def State.setBlock (e l : Nat) (b : Block) (s : State) : State :=
  { s with res := { s.res with blocks := tSet blockNone (blockKey e l) b s.res.blocks } }

/-! ## Regions of this slice's window (R348, R350) -/

/-- A region entry (R348). -/
structure Region where
  offset : Nat
  host : Nat
  pages : Nat
  job : Nat
  flags : Nat
  owner : Nat
  fwdNode : Nat
  deriving DecidableEq, Repr

/-- The fields of a region entry. -/
def regionParse (b : List Byte) : Region where
  offset := fieldAt b 0 8
  host := fieldAt b 8 8
  pages := fieldAt b 0x10 4
  job := fieldAt b 0x14 2
  flags := fieldAt b 0x16 1
  owner := fieldAt b 0x18 4
  fwdNode := fieldAt b 0x1C 4

/-- The regions of a table. -/
def State.regionsAt (s : State) (base n : Nat) : List Region :=
  (List.range n).map fun i => regionParse (s.rd (base + 32 * i) 32)

/-- The region table in force. -/
def State.regions (s : State) : List Region :=
  s.regionsAt (s.fld Reg.MSEM_REGIONS_LIVE 51 12 * 4096) (s.fld Reg.MSEM_REGIONS_LIVE 8 0)

/-- The region that covers `n` bytes at a window offset. -/
def State.regionOf (s : State) (off n : Nat) : Option Region :=
  s.regions.find? fun r => r.offset ≤ off && off + n ≤ r.offset + r.pages * 4096

/-- The host physical address of a window offset in a region. -/
def Region.addr (r : Region) (off : Nat) : Nat := r.host + (off - r.offset)

/-- Where a tile finds a block, and its tier: 2 in place (R253, R277). -/
def State.blockPlace (s : State) (e l : Nat) : Nat × Nat :=
  match s.inPlace e l with
  | some off => (match s.regionOf off (dscBytes (s.desc e)) with
    | some r => r.addr off
    | none => 0, 2)
  | none => (if (s.block e l).tier = 0 then (s.block e l).addr0 else (s.block e l).addr, (s.block e l).tier)

/-- Source indices that a dead-slice notice has named (R267). -/
def State.deadNow (s : State) (i : Nat) : Bool := s.res.dead.any fun p => p.1 == i

/-- Source indices absent from the source set at a bell (R266). -/
def State.absentAt (s : State) (bell i : Nat) : Bool := s.res.dead.any fun p => p.1 == i && p.2 ≤ bell

/-- The live source indices of a bell's source set (R266). -/
def State.liveSources (s : State) (bell : Nat) : List Nat :=
  (List.range (s.sourcesAt bell).length).filter fun i => !s.absentAt bell i

/-- A code of the RES page is recorded, with its expert, layer and bell in RES_FAULT (R270). -/
def State.resFault (code e l : Nat) (s : State) : State :=
  let s := s.setReg Reg.RES_FAULT (BitVec.ofNat 64 (e + l % 256 * 2 ^ 16 + code * 2 ^ 24 + s.bellNo % 2 ^ 32 * 2 ^ 32))
  s.recordF Pg.RES code Reg.RES_FAULT

/-- The load tally of an expert rises: the grants of a stall this slice homes, hosts or holds open (R257, R393). -/
def State.loadAdd (e n : Nat) (s : State) : State :=
  { s with res := { s.res with loads := tSet zeroNat e (tGet zeroNat e s.res.loads + n) s.res.loads } }

/-- CLOSE_NR of a configuration (R180): throughput mode. -/
def confCloseNr (c : Table W64) : Bool := confFld c Reg.AUC_CAPMODE 0 0 == 1

end Sys2Proof.Machine
end

