-- ==== Sys2Proof/Machine/Planner.lean ====
section
/-! DEFINITION. What the residency planner holds in tiers 0 and 1 (R249, R251, R257, R258): quotas and room, the protected
layers, and pins. -/
namespace Sys2Proof.Machine

/-! ## Quotas and room (R249) -/

/-- A MiB. -/
def mib : Nat := 2 ^ 20

/-- The quotas of a context in bytes. -/
def State.t0Quota (s : State) (c : Nat) : Nat := s.fld (Reg.RES_QUOTA0 + 8 * c) 15 0 * mib
def State.t1Quota (s : State) (c : Nat) : Nat := s.fld (Reg.RES_QUOTA0 + 8 * c) 35 16 * mib
def State.t2Quota (s : State) (c : Nat) : Nat := s.fld (Reg.RES_QUOTA0 + 8 * c) 55 40 * mib

/-- The owner of an expert's blocks. -/
def State.owner (s : State) (e : Nat) : Nat := dscOwner (s.desc e)

/-- The expert and layer of a block key. -/
def keyExpert (k : Nat) : Nat := k / 256
def keyLayerOf (k : Nat) : Nat := k % 256

/-- Blocks that hold room in tier 1: being fetched, or resident and not in place. -/
def State.t1Blocks (s : State) : List (Nat × Block) :=
  s.res.blocks.filter fun x => (x.2.st == 1 || x.2.st == 2) && (s.inPlace (keyExpert x.1) (keyLayerOf x.1)).isNone

/-- Bytes of tier 1, and of tier 0, that an owner's blocks hold. -/
def State.t1Held (s : State) (c : Nat) : Nat :=
  sumNat ((s.t1Blocks.filter fun x => s.owner (keyExpert x.1) == c).map fun x => dscBytes (s.desc (keyExpert x.1)))
def State.t0Held (s : State) (c : Nat) : Nat :=
  sumNat ((s.t1Blocks.filter fun x => x.2.tier == 0 && s.owner (keyExpert x.1) == c).map fun x => dscBytes (s.desc (keyExpert x.1)))

/-- The lowest place for `n` bytes in an area, beside what is occupied. -/
def placeIn (base size n : Nat) (occ : List (Nat × Nat)) : Option Nat :=
  let fits (a : Nat) : Bool := base ≤ a && a + n ≤ base + size && occ.all fun o => a + n ≤ o.1 || o.1 + o.2 ≤ a
  ((base :: occ.map fun o => o.1 + o.2).filter fits).min?

/-- A place in tier 1, and in tier 0. -/
def State.placeT1 (s : State) (n : Nat) : Option Nat :=
  placeIn (s.fld Reg.RES_T1 51 21 * 2 ^ 21) (s.fld Reg.RES_T1 19 0 * mib) n
    (s.t1Blocks.map fun x => (x.2.addr, dscBytes (s.desc (keyExpert x.1))))
def State.placeT0 (s : State) (n : Nat) : Option Nat :=
  placeIn (s.fld Reg.RES_T0 51 21 * 2 ^ 21) (s.fld Reg.RES_T0 15 0 * mib) n
    ((s.t1Blocks.filter fun x => x.2.tier == 0).map fun x => (x.2.addr0, dscBytes (s.desc (keyExpert x.1))))

/-- The quotas staged for the four contexts stay within the areas staged (R249). -/
def State.quotasOk (s : State) : Bool :=
  let q (c hi lo : Nat) : Nat := s.stagedFld (Reg.RES_QUOTA0 + 8 * c) hi lo
  sumNat ((List.range 4).map fun c => q c 15 0) ≤ s.stagedFld Reg.RES_T0 15 0
    && sumNat ((List.range 4).map fun c => q c 35 16) ≤ s.stagedFld Reg.RES_T1 19 0

/-! ## Load and protection (R257) -/

/-- LOOKAHEAD of R256. -/
def State.lookahead (s : State) : Nat := s.fld Reg.RES_PLAN 3 0

/-- The load tally of an expert: its grants latched at the previous bell, or the global tally (R257, R393). -/
def State.loadOf (s : State) (e : Nat) : Nat :=
  if s.bit Reg.RES_PLAN 4 ∧ !dOpen (s.dirNow e) then tGet zeroNat e s.res.global else tGet zeroNat e s.res.latched

/-- A compute site's half has a stall half that is not done. -/
def SiteHalf.runs (x : SiteHalf) : Bool := x.active && x.stalls.any fun p => p.2.st != 2

/-- The layers of running rounds: of this slice's own halves, and of the halves it computes as a site. -/
def State.runningLayers (s : State) : List Nat :=
  ([s.cal, s.mus].filterMap fun h => h.cur.map (·.layer))
    ++ ([s.siteCal, s.siteMus].filter (·.runs)).map (·.layer)

/-- A layer is protected: from the lowest layer of a running round to that layer + LOOKAHEAD, cyclically (R257). -/
def State.protectedLayer (s : State) (l : Nat) : Bool :=
  match s.runningLayers.min? with
  | none => false
  | some lo => let n := max 1 s.layers; (l + n - lo) % n ≤ s.lookahead

/-- A posted tile uses a block (R255). -/
def State.blockInUse (s : State) (e l : Nat) : Bool :=
  s.tiles.tiles.any fun t => t.st == 0 && (tFind t.unit s.tiles.units).any fun u => u.expert == e && u.layer == l

/-! ## Pins and promotion (R249, R251, R258) -/

/-- The pin asked for a block: the current override, else the descriptor's flag. -/
def State.wantsPin (s : State) (e l : Nat) : Bool := (tFind (blockKey e l) s.res.pins).getD (dscPin (s.desc e))

/-- Bytes of an owner's pinned blocks. -/
def State.pinned (s : State) (c : Nat) : Nat :=
  sumNat ((s.t1Blocks.filter fun x => x.2.pin && s.owner (keyExpert x.1) == c).map fun x => dscBytes (s.desc (keyExpert x.1)))

/-- A pin is taken on a resident block, or refused beyond the owner's tier 1 quota (R251). -/
def State.takePin (e l : Nat) (s : State) : State :=
  let b := s.block e l
  if b.st ≠ 2 ∨ b.pin ∨ !s.wantsPin e l then s
  else if s.t1Quota (s.owner e) < s.pinned (s.owner e) + dscBytes (s.desc e) then s.tallyAdd Pg.RES 6 1
  else s.setBlock e l { b with pin := true }

/-- The pin of a block as the override or the descriptor asks for it now (R251, R258). -/
def State.repin (k : Nat) (s : State) : State :=
  let b := s.block (keyExpert k) (keyLayerOf k)
  if s.wantsPin (keyExpert k) (keyLayerOf k) then s.takePin (keyExpert k) (keyLayerOf k)
  else if b.pin then s.setBlock (keyExpert k) (keyLayerOf k) { b with pin := false } else s

/-- The pins of an expert's blocks after its edit (R246, R251, R258). -/
def State.repinExpert (e : Nat) (s : State) : State :=
  ((s.res.blocks.map (·.1)).filter fun k => keyExpert k == e).foldl (fun s k => s.repin k) s

end Sys2Proof.Machine
end

