-- ==== Sys2Proof/Machine/Source.lean ====
section
/-! DEFINITION. Selection and bidding at the source (R155 to R165, R170, R177 to R181, R189, R190, R227): effective
scores, the choice list, bids and notes, verdicts, and the fold of a round. -/
namespace Sys2Proof.Machine

/-! ## The running round of a half with what it runs under -/

/-- A half's running round: its set, the round, the bell's configuration and the layer's selection entry. -/
structure RoundView where
  set : AdmSet
  rnd : Round
  conf : Table W64
  sel : SelEnt
  sources : List Nat
  deriving DecidableEq, Repr

/-- The view of a half's running round. -/
def State.view (s : State) (h : Half) : Option RoundView :=
  (s.curRound h).map fun p =>
    let c := s.confAt p.1.bell
    ⟨p.1, p.2, c, s.selEnt c p.2.layer, s.sourcesAt p.1.bell⟩

/-! ## Effective scores -/

/-- The dither of R156. -/
def dither (seed hash : W64) (bell pos layer expert : Nat) (amp : F32) : F32 :=
  let x := h64 (seed ^^^ BitVec.ofNat 64 bell)
  let x := h64 (x ^^^ hash)
  let x := h64 (x ^^^ BitVec.ofNat 64 (pos * 2 ^ 23) ^^^ BitVec.ofNat 64 (layer * 2 ^ 15) ^^^ BitVec.ofNat 64 expert)
  let n : Int := (bits x.toNat 63 41 : Int) - 2 ^ 22
  fMul (fRound ⟨decide (n < 0), n.natAbs, -22⟩) amp

/-- The effective score of a candidate (R155). -/
def effScore (sel : SelEnt) (raw bias d : F32) : F32 :=
  let x := fAdd raw bias
  if sel.dither then fAdd x d else x

/-- The order of R157: effective score descending, tie rank ascending, expert ID ascending. -/
def candLt (tie : Nat → Nat) (a b : Cand) : Bool :=
  fLt b.eff a.eff || (fEq a.eff b.eff && (tie a.expert < tie b.expert
    || (tie a.expert == tie b.expert && a.expert < b.expert)))

/-- A token's candidates with their effective scores, in ascending expert ID. -/
def State.cands (s : State) (v : RoundView) (t : Tok) (x : RTok) : List Cand :=
  let seed := tGet resetOf (Reg.DET_SEED0 + 8 * t.ctx) v.conf
  x.cands.map fun p =>
    let bias := dBias (s.dirAt v.set.bell p.1)
    ⟨p.1, effScore v.sel p.2 bias (dither seed t.hash v.set.bell t.pos v.rnd.layer p.1 v.sel.amp), p.2⟩

/-! ## Choices -/

/-- A choice not yet bid for. -/
def freshChoice (index : Nat) (c : Cand) (round : Nat) (spill : Bool) : Choice :=
  { index := index, expert := c.expert, eff := c.eff, raw := c.raw, st := .fresh, round := round, spill := spill }

/-- A rank or candidate index with no candidate (R158, R159). -/
def emptyChoice (index : Nat) : Choice := { index := index, expert := 0, eff := 0#32, raw := 0#32, st := .empty }

/-- A list of `n` choices with no candidate. -/
def emptyChoices (n : Nat) : List Choice := (List.range n).map emptyChoice

/-- The choice list of an ordered candidate list (R158, R159). -/
def choiceList (n : Nat) (cs : List Cand) : List Choice :=
  (List.range n).map fun i =>
    match cs[i]? with
    | some c => freshChoice i c 0 false
    | none => emptyChoice i

/-- Changes one choice of one token of the running round. -/
def State.modChoice (h : Half) (i j : Nat) (f : Choice → Choice) (s : State) : State :=
  s.modTok h i fun t => { t with choices := modNth j f t.choices }

/-- A choice is refused (R170, R181): a NOT_RESIDENT refusal sets the substitution flag, a TOKEN_ERROR makes the token's
layer round a token error (R174, R175, R190). `noSpill` marks a choice that takes no spill candidate (R267, R269). -/
def State.refuseChoice (h : Half) (i j reason round : Nat) (noSpill : Bool) (s : State) : State :=
  s.modTok h i fun t =>
    match t.choices[j]? with
    | none => t
    | some c =>
      { t with
        choices := modNth j (fun c => { c with st := if noSpill then .lost else .refused
                                               reason := reason, round := round }) t.choices
        hist := t.hist ++ [⟨round, j, c.expert, false, reason, 0⟩]
        subst := t.subst || (reason == 2 && !noSpill)
        err := t.err || (reason == 4 && !noSpill)
        errCause := if reason == 4 && !noSpill && !t.err then 6 else t.errCause }

/-- A fresh choice as the source decides it when it is made (R160, R262, R269): an open stall is granted at the source, or
refused when its block is not resident in throughput mode; a LOST expert ends its sequence or is refused. What remains
fresh is bid for. -/
def State.decideChoice (v : RoundView) (h : Half) (i j round : Nat) (s : State) : State :=
  match ((s.half h).cur.bind fun r => r.toks[i]?).bind fun t => t.choices[j]? with
  | none => s
  | some c =>
    if c.st ≠ .fresh then s
    else
      let d := s.dirAt v.set.bell c.expert
      let nr := confCloseNr v.conf
      if dState d = 2 then
        (if nr then s.refuseChoice h i j 2 round false
         else
           let s := s.refuseChoice h i j 2 0 true
           match v.set.toks[i]? with
           | some t => s.failSeq 3 v.rnd.layer t.seq
           | none => s)
      else if dOpen d then
        (if nr ∧ s.blockState c.expert v.rnd.layer ≠ 2 then s.refuseChoice h i j 2 round false
         else
           let s := s.modChoice h i j fun c => { c with st := .granted, isOpen := true, round := round }
           let s := s.modTok h i fun t => { t with hist := t.hist ++ [⟨round, j, c.expert, true, 0, 0⟩] }
           (s.tallyAdd Pg.SEL 1 1).loadAdd c.expert 1)
      else s

/-! ## Bids (R163, R164, R189) -/

/-- Choice rank and rank extension of a choice in its bids and verdicts (R158, R159). -/
def bidRank (j : Nat) : Nat := j % 16
def bidExt (j : Nat) : Nat := j / 16

/-- A bid (R163). -/
def bidRecord (handle : W64) (eff : F32) (expert j round : Nat) (ec : Bool) : List Byte :=
  leBytes 8 handle.toNat ++ leBytes 4 eff.toNat ++ leBytes 4 (expert + bidExt j * 2 ^ 15 + bidRank j * 2 ^ 16
    + round * 2 ^ 20 + b2n ec * 2 ^ 24 + b2n (0 < round) * 2 ^ 25)

/-- A tie note (R164). -/
def tieNote (hash : W64) (pos index bids : Nat) : List Byte :=
  leBytes 8 hash.toNat ++ leBytes 4 (pos + index * 2 ^ 24) ++ leBytes 4 (bids + 2 * 2 ^ 30)

/-- A bid-close (R165). -/
def bidClose (bell layer : Nat) (h : Half) (round count : Nat) : List Byte :=
  leBytes 8 bell ++ [BitVec.ofNat 8 layer, BitVec.ofNat 8 (h.num + 2 * round)] ++ leBytes 2 0
    ++ leBytes 4 (count + 3 * 2 ^ 30)

/-- A release (R179). -/
def releaseRecord (handle : W64) (expert offset : Nat) : List Byte :=
  leBytes 8 handle.toNat ++ leBytes 4 (expert + offset * 2 ^ 16) ++ leBytes 4 (2 ^ 30)

/-- Most payload bytes of an AUC record packet (R300). -/
def aucBytes : Nat := 4096

/-- A record enters a home's bin; the bin leaves when it fills an AUC packet (R189). Of the records, bids are counted as
sorted (R218). -/
def State.binAdd (h : Half) (home node : Nat) (bid : Bool) (rec_ : List Byte) (s : State) : State :=
  match (s.half h).cur with
  | none => s
  | some r =>
    let b := (tFind home r.bins).getD [] ++ rec_
    let full := aucBytes ≤ b.length
    let s := s.modRound h fun r => { r with
      bins := if full then tDel home r.bins else tPut home b r.bins
      sentRecs := tPut home (tGet zeroNat home r.sentRecs + 1) r.sentRecs }
    let s := if bid then s.tallyAdd Pg.SORT 0 1 else s
    if full then s.sendAuc node b else s

/-- Where the bid of a choice goes: its auction home (R243). -/
def State.homeOf (s : State) (v : RoundView) (c : Choice) : Nat := dHome (s.dirAt v.set.bell c.expert)

/-- A choice whose home is not in the source set in force (R190). -/
def State.homeAbsent (s : State) (v : RoundView) (home : Nat) : Bool :=
  v.sources.length ≤ home || s.absentAt v.set.bell home

/-- R190: the sorter refuses a choice whose home is absent. -/
def State.sortAbsent (v : RoundView) (h : Half) (i j round : Nat) (handle : W64) (s : State) : State :=
  let s := s.refuseChoice h i j 4 round false
  let s := s.setReg Reg.SORT_FAULT handle
  (s.record Pg.SORT 0x50 0).safe0 3 0x50 v.rnd.layer h

/-- A choice whose home a dead-slice notice has named is lost (R267): its token is tainted. -/
def State.loseChoice (h : Half) (i j round : Nat) (s : State) : State :=
  (s.refuseChoice h i j 4 round true).taintTok h i

/-- The bids of one token in a round (R164, R189): for each home its tie note, then its bids in ascending rank. -/
def State.bidToken (v : RoundView) (h : Half) (i round : Nat) (s : State) : State :=
  match v.set.toks[i]?, (s.half h).cur.bind fun r => r.toks[i]? with
  | some t, some x =>
    let fresh := x.choices.zipIdx.filter fun p => p.1.st == .fresh
    let hdl := fun j => s.handleFor v.set t v.rnd.layer (bidRank j)
    let s := fresh.foldl (fun s p =>
      let home := s.homeOf v p.1
      if s.homeAbsent v home then s.sortAbsent v h i p.2 round (hdl p.2)
      else if s.deadNow home then s.loseChoice h i p.2 round
      else s) s
    let live := fresh.filter fun p => !s.homeAbsent v (s.homeOf v p.1) && !s.deadNow (s.homeOf v p.1)
    let homes := (live.map fun p => s.homeOf v p.1).eraseDups
    homes.foldl (fun s home =>
      let mine := live.filter fun p => s.homeOf v p.1 == home
      let node := nodeAt v.sources home
      let s := s.binAdd h home node false (tieNote t.hash t.pos t.seq mine.length)
      mine.foldl (fun s p =>
        let s := s.binAdd h home node true (bidRecord (hdl p.2) p.1.eff p.1.expert p.2 round v.sel.ec)
        let s := s.modChoice h i p.2 fun c => { c with st := .awaiting, round := round }
        s.modRound h fun r => { r with sentBids := tPut home (tGet zeroNat home r.sentBids + 1) r.sentBids }) s) s
  | _, _ => s

/-! ## TOKEN_SELECT -/

/-- SHARED_CAPPED is recorded once per bell where the directory marks a shared expert of the layer as capped (R160). -/
def State.sharedCapped (v : RoundView) (s : State) : State :=
  if v.sel.sharedIds.any fun e => !dOpen (s.dirAt v.set.bell e) then s.recordOnce Pg.SEL 0x3A 0 else s

/-- The first token of a round that is scored and not yet selected. -/
def Round.toSelect (r : Round) : Option Nat := (r.toks.zipIdx.find? fun p => p.1.scored && !p.1.selected).map (·.2)

/-- A token that bids for nothing: a token error or a token without candidates has every rank empty (R161, R235). -/
def State.selectNone (v : RoundView) (h : Half) (i : Nat) (s : State) : State :=
  s.modTok h i fun t => { t with selected := true, choices := emptyChoices v.sel.choices }

/-- R161: a non-finite effective score. -/
def State.selectError (v : RoundView) (h : Half) (i : Nat) (t : Tok) (expert : Nat) (s : State) : State :=
  let s := s.setReg Reg.SEL_FAULT_HANDLE (s.handleFor v.set t v.rnd.layer 0)
  let s := s.setReg Reg.SEL_FAULT_INFO (BitVec.ofNat 64 (expert + v.rnd.layer * 2 ^ 24))
  let s := s.record Pg.SEL 0x39 0
  let s := s.tallyAdd Pg.SEL 3 1
  let s := s.modTok h i fun t => { t with err := true, errCause := 5 }
  s.selectNone v h i

/-- The choice list and reserve of a token whose effective scores are finite (R157 to R160). -/
def State.selectChoices (v : RoundView) (h : Half) (i : Nat) (cs : List Cand) (s : State) : State :=
  let order := sortBy (candLt fun e => dTie (s.dirAt v.set.bell e)) cs
  let n := v.sel.choices
  let reserve := if v.sel.spill && !v.sel.ec then (order.drop n).take v.sel.depth else []
  let s := s.modTok h i fun t => { t with
    selected := true, choices := choiceList n order, reserve := reserve, sel := order.take n ++ reserve }
  (List.range n).foldl (fun s j => s.decideChoice v h i j 0) s

/-- TOKEN_SELECT (R157 to R161, R443): the next scored token of the half's running round gets its choice list and its
round-0 bids. `checkerOk` is the selection checker's outcome; a failure taints the token, whose bids are still sent. -/
def execTokenSelect (half : Half) (checkerOk : Bool) (s : State) : Out :=
  match s.view half with
  | none => .next s
  | some v =>
    match v.rnd.toSelect with
    | none => .next s
    | some i =>
      match v.set.toks[i]?, v.rnd.toks[i]? with
      | some t, some x =>
        let s := s.sharedCapped v
        if x.err then .next ((s.selectNone v half i).tallyAdd Pg.SEL 3 1)
        else
          let cs := s.cands v t x
          match cs.find? fun c => !fFinite c.eff with
          | some c => .next (s.selectError v half i t c.expert)
          | none =>
            let s := s.tallyAdd Pg.SEL 0 1
            let s := s.selectChoices v half i cs
            let s := if checkerOk then s
              else ((s.record Pg.SAFE 0xD2 0).safe0 3 0xD2 v.rnd.layer half).taintTok half i
            .next (s.bidToken v half i 0)
      | _, _ => .next s

/-! ## BID_CLOSE_SEND -/

/-- What remains in the bins leaves (R189). -/
def State.flushBins (v : RoundView) (h : Half) (s : State) : State :=
  match (s.half h).cur with
  | none => s
  | some r =>
    let s := r.bins.foldl (fun s b => s.sendAuc (nodeAt v.sources b.1) b.2) s
    s.modRound h fun r => { r with bins := [] }

/-- The bid-closes of a round to every live slice of the source set (R165, R266). -/
def State.sendCloses (bell layer : Nat) (h : Half) (round : Nat) (counts : Table Nat) (sources : List Nat)
    (s : State) : State :=
  ((s.liveSources bell).filter fun i => !s.deadNow i).foldl (fun s i =>
    s.sendAuc (nodeAt sources i) (bidClose bell layer h round (tGet zeroNat i counts))) s

/-- Every shadow comparison of the half has ended (R147): none of its shadowed tokens is still to be compared. -/
def Round.shadowsDone (r : Round) : Bool := r.toks.length < r.shadowNext + 8

/-- BID_CLOSE_SEND (R165, R189): after the last bid of the round, and in round 0 after the last shadow comparison
(R147), the bins leave and the bid-closes are sent. -/
def execBidCloseSend (half : Half) (s : State) : Out :=
  match s.view half with
  | none => .next s
  | some v =>
    if v.rnd.closed || v.rnd.folded || !(v.rnd.toks.all fun t => t.selected)
        || (v.rnd.ar == 0 && !v.rnd.shadowsDone) then .next s
    else
      let s := s.flushBins v half
      let s := s.sendCloses v.set.bell v.rnd.layer half v.rnd.ar v.rnd.sentRecs v.sources
      .next (s.modRound half fun r => { r with closed := true, lastVerdict := s.now })

/-! ## VERDICT_RECEIVE -/

/-- Fields of a verdict (R170). -/
def vIndex (w : W64) : Nat := bits w.toNat 63 56
def vPos (w : W64) : Nat := bits w.toNat 55 32
def vRank (w : W64) : Nat := bits w.toNat 31 28
def vExt (w : W64) : Nat := bits w.toNat 27 27
def vCheck (w : W64) : Nat := bits w.toNat 26 19
def vGrant (w : W64) : Bool := bits w.toNat 18 18 == 1
def vReason (w : W64) : Nat := bits w.toNat 17 15
def vOffset (w : W64) : Nat := bits w.toNat 11 0

/-- The handle that a verdict names, rebuilt from the slice number, the record and the packet header (R170). -/
def State.verdictHandle (s : State) (bell layer : Nat) (h : Half) (w : W64) : W64 :=
  BitVec.ofNat 64 (handleBody (s.slice * 256 + vIndex w) (vPos w) layer (vRank w) h.num bell + vCheck w)

/-- A verdict that names no bid still awaiting one (R170). -/
def State.verdictExtra (handle : W64) (layer : Nat) (h : Half) (s : State) : State :=
  let s := s.setReg Reg.AUC_FAULT handle
  (s.record Pg.AUC 0x48 0).lostDup 0x48 layer h

/-- The choice index that a verdict names (R158, R159). -/
def vChoice (ec : Bool) (w : W64) : Nat := if ec then 16 * vExt w + vRank w else vRank w

/-- A verdict reaches the choice that awaits it. -/
def State.applyVerdict (v : RoundView) (h : Half) (i j : Nat) (w : W64) (s : State) : State :=
  match (v.rnd.toks[i]?).bind fun t => t.choices[j]? with
  | none => s
  | some c =>
    let home := s.homeOf v c
    let me := (s.selfIdx v.sources).getD 0
    let s := if vGrant w then
        let s := s.modChoice h i j fun c => { c with
          st := .granted, offset := vOffset w, site := replica v.sources c.expert (s.dirAt v.set.bell c.expert) me }
        s.modTok h i fun t => { t with hist := t.hist ++ [⟨v.rnd.ar, j, c.expert, true, 0, vOffset w⟩] }
      else s.refuseChoice h i j (vReason w) v.rnd.ar false
    s.modRound h fun r => { r with
      lastVerdict := s.now, verdicts := tPut home (tGet zeroNat home r.verdicts + 1) r.verdicts }

/-- A verdict whose handle passed its checks: it is taken when it answers an awaited choice of the running round (R165,
R441). -/
def State.verdictPassed (home : Node) (bell layer : Nat) (half : Half) (round : Nat) (verdict handle : W64) (s : State) :
    State :=
  match s.view half with
  | none => s.verdictExtra handle layer half
  | some v =>
    let j := vChoice v.sel.ec verdict
    let tok := (v.set.toks.zipIdx.find? fun p => p.1.seq == vIndex verdict && p.1.pos == vPos verdict).map (·.2)
    match tok with
    | none => s.verdictExtra handle layer half
    | some i =>
      let waits : Bool := match (v.rnd.toks[i]?).bind fun t => t.choices[j]? with
        | some c => c.st == .awaiting && nodeAt v.sources (s.homeOf v c) == home
        | none => false
      if v.set.bell == bell && v.rnd.layer == layer && v.rnd.ar == round && !v.rnd.folded && waits then
        s.applyVerdict v half i j verdict
      else s.verdictExtra handle layer half

/-- What comes of a verdict by the answer of the handle's checks (R104). -/
def State.verdictBy (x : HandleVerdict) (home : Node) (bell layer : Nat) (half : Half) (round : Nat)
    (verdict handle : W64) (s : State) : State :=
  match x with
  | .stale => s.discardHandle handle true layer half
  | .bad => s.discardHandle handle false layer half
  | .pass => s.verdictPassed home bell layer half round verdict handle

/-- VERDICT_RECEIVE (R170): the rebuilt handle is checked under R103; a verdict that names a bid still awaiting one is
applied, any other is discarded with AUC_VERDICT_EXTRA. -/
def execVerdictReceive (home : Node) (bell layer : Nat) (half : Half) (round : Nat) (verdict : W64) (s : State) : Out :=
  let handle := s.verdictHandle bell layer half verdict
  .next (s.verdictBy (s.handleVerdict handle) home bell layer half round verdict handle)

/-! ## ROUND_FOLD -/

/-- Ledger check 1 (R441): verdicts received and bids lost to a dead home make up the bids sent, per home. -/
def State.ledger1 (v : RoundView) (h : Half) (s : State) : State :=
  v.rnd.sentBids.foldl (fun s p =>
    if tGet zeroNat p.1 v.rnd.verdicts + tGet zeroNat p.1 v.rnd.lostBids = p.2 then s
    else (s.taintHalf h).ledgerBreak 1 0 (nodeAt v.sources p.1) v.rnd.layer h) s

/-- The refused choices of a token after round `r` take the next unused candidates of its reserve, in ascending rank
(R178). -/
def spillChoices (r : Nat) : List Choice → List Cand → List Choice × List Cand
  | [], rs => ([], rs)
  | c :: t, rs =>
    if c.st = .refused ∧ c.round = r then
      match rs with
      | [] =>
        let q := spillChoices r t []
        (c :: q.1, q.2)
      | n :: rs' =>
        let q := spillChoices r t rs'
        (freshChoice c.index n (r + 1) true :: q.1, q.2)
    else
      let q := spillChoices r t rs
      (c :: q.1, q.2)

/-- One token's spill after round `r` (R178, R181). -/
def State.spillToken (v : RoundView) (h : Half) (i r : Nat) (s : State) : State :=
  match (s.half h).cur.bind fun x => x.toks[i]? with
  | none => s
  | some t =>
    let q := spillChoices r t.choices t.reserve
    let n := t.reserve.length - q.2.length
    let s := s.modTok h i fun t => { t with choices := q.1, reserve := q.2, spilled := t.spilled || 0 < n }
    let s := s.tallyAdd Pg.SEL 2 n
    let s := (List.range q.1.length).foldl (fun s j => s.decideChoice v h i j (r + 1)) s
    s.bidToken v h i (r + 1)

/-- Granted choices beyond CAP, in ascending candidate index (R179). -/
def capTurned (cap : Nat) (cs : List Choice) : List Nat :=
  ((cs.zipIdx.filter fun p => p.1.st == .granted).map (·.2)).drop cap

/-- The cap pass of one token (R179): each grant beyond CAP becomes a CAP_PER_TOKEN refusal; a grant of a capped stall
sends a release to its home and to its compute site. -/
def State.capToken (v : RoundView) (h : Half) (i : Nat) (s : State) : State :=
  match v.set.toks[i]?, (s.half h).cur.bind fun x => x.toks[i]? with
  | some t, some x =>
    (capTurned v.sel.cap x.choices).foldl (fun s j =>
      match x.choices[j]? with
      | none => s
      | some c =>
        let rel := releaseRecord (s.handleFor v.set t v.rnd.layer (bidRank j)) c.expert c.offset
        let s := if c.isOpen then s
          else [s.homeOf v c, c.site].foldl (fun s d =>
            if s.deadNow d then s else s.sendAuc (nodeAt v.sources d) rel) s
        s.refuseChoice h i j 3 v.rnd.ar false) s
  | _, _ => s

/-- Presets of R227: T_i for each token, Z_s for each site. -/
def State.preset (v : RoundView) (h : Half) (s : State) : State :=
  let bret := confBret v.conf v.rnd.layer
  s.modRound h fun r =>
    let z := r.toks.foldl (fun z t => t.choices.foldl (fun z c =>
      if c.st = .granted ∧ !c.isOpen then tPut c.site (tGet zeroNat c.site z + bret) z else z) z) ([] : Table Nat)
    { r with
      folded := true
      toks := r.toks.map fun t => { t with t := (v.sel.sharedIds.length : Int) + t.granted }
      z := z.map fun p => (p.1, (p.2 : Int))
      zPreset := z }

/-- The slice sends a barrow for the half: some granted choice of a capped stall is computed elsewhere or here. -/
def Round.ships (r : Round) : Bool := r.toks.any fun t => t.choices.any fun c => c.st == .granted && !c.isOpen

/-- The last fold of a half (R179, R227); with no barrow to send the forward interval ended with the last verdict
(R68). -/
def State.lastFold (v : RoundView) (h : Half) (s : State) : State :=
  let s := if v.sel.ec && v.sel.cap != 0 then
      (List.range v.set.toks.length).foldl (fun s i => s.capToken v h i) s else s
  let s := s.preset v h
  s.modRound h fun r => if r.ships then r else { r with fwdEnd := some r.lastVerdict }

/-- ROUND_FOLD (R178, R179, R227): with every verdict of the round in hand, refused choices take spill candidates and bid
in the next round, or, after the last round, the half's outcome stands. -/
def execRoundFold (half : Half) (s : State) : Out :=
  match s.view half with
  | none => .next s
  | some v =>
    if !v.rnd.closed || v.rnd.folded || (v.rnd.toks.any fun t => t.choices.any fun c => c.st == .awaiting) then .next s
    else
      let s := s.ledger1 v half
      if v.rnd.ar < v.sel.x then
        let s := s.modRound half fun r => { r with
          ar := r.ar + 1, closed := false, sentBids := [], sentRecs := [], verdicts := [], lostBids := [] }
        .next ((List.range v.set.toks.length).foldl (fun s i => s.spillToken v half i v.rnd.ar) s)
      else .next (s.lastFold v half)

end Sys2Proof.Machine
end

