-- ==== Sys2Proof/Machine/Plan.lean ====
section
/-! DEFINITION. Memory ports and their faults (R31, R35), promotion to tier 0 (R258), the planning points of the residency
planner (R256), and the readiness records of throughput mode (R259). -/
namespace Sys2Proof.Machine

/-! ## Memory ports -/

/-- The enabled ports in ascending order (R31). -/
def State.livePorts (s : State) : List Nat := (List.range 16).filter fun p => s.bit Reg.MEMP_PORT_LIVE p

/-- The port of a request, by its address (R31). -/
def State.portOf (s : State) (a : Nat) : Nat :=
  let ps := s.livePorts
  if ps.length = 16 then bits a 11 8 else ps.getD (bits a 51 8 % max 1 ps.length) 0

/-- The next enabled port in ascending order, after the last the first (R34). -/
def State.nextPort (s : State) (p : Nat) : Nat :=
  match s.livePorts.find? fun q => p < q with
  | some q => q
  | none => s.livePorts.headD 0

/-- MEM_TIMEOUT (0x05) or MEM_UE (0x06): MEMP_FAULT takes the address and the first port, and the code is recorded with
address bits [43:12] (R34, R35, R520). -/
def State.memFault (code addr port : Nat) (s : State) : State :=
  let s := s.setReg Reg.MEMP_FAULT (BitVec.ofNat 64 (bits addr 51 6 * 2 ^ 6 + port % 16 * 2 ^ 52 + code * 2 ^ 56))
  s.record Pg.MEMP code (bits addr 43 12)

/-- The requests of an access of `n` bytes at `a`, as address and length (R30): the part of the access in each 4 KiB page,
widened to whole lines of 64 B (DESIGN CHOICE, notes/assumptions/50.md). -/
def memRequests (a n : Nat) : List (Nat × Nat) :=
  if n = 0 then []
  else (List.range (ceilDiv (a % 4096 + n) 4096)).map fun i =>
    let lo := max a (a / 4096 * 4096 + 4096 * i) / 64 * 64
    (lo, 64 * ceilDiv (min (a + n) (a / 4096 * 4096 + 4096 * i + 4096) - lo) 64)

/-- The requests of an access that meet a poisoned line. -/
def State.poisonedRequests (s : State) (a n : Nat) : List (Nat × Nat) :=
  if s.poison.isEmpty then [] else (memRequests a n).filter fun p => s.poisoned p.1 p.2

/-- A read of `n` bytes at `a` is counted (R36); each request of it whose response is poisoned records MEM_UE with the
request's address and port (R35). -/
def State.noteUe (a n : Nat) (s : State) : State :=
  let s := s.memCount 0 n
  (s.poisonedRequests a n).foldl (fun s p => s.memFault 0x06 p.1 (s.portOf p.1)) s

/-! ## Promotion (R258) -/

/-- A block of `n` bytes is copied to tier 0 at `a`; one that cannot be read whole stays where it is (R35; DESIGN CHOICE,
notes/assumptions/52.md). -/
def State.copyUp (k a n : Nat) (s : State) : State :=
  let b := s.block (keyExpert k) (keyLayerOf k)
  if s.poisoned b.addr n then s.noteUe b.addr n
  else (((s.noteUe b.addr n).wr a (s.rd b.addr n)).setBlock (keyExpert k) (keyLayerOf k) { b with tier := 0, addr0 := a }
    ).tallyAdd Pg.RES 1 (units64 n)

/-- A block goes up to tier 0 where the quota and the room allow it. -/
def State.promoteOne (k : Nat) (s : State) : State :=
  let e := keyExpert k
  let n := dscBytes (s.desc e)
  if s.t0Quota (s.owner e) < s.t0Held (s.owner e) + n then s
  else match s.placeT0 n with
    | none => s
    | some a => s.copyUp k a n

/-- Promotion (R258), at each planning point and when a block becomes RESIDENT: resident blocks of the protected layers with T0_OK, by load tally, up to the quotas; a block that
no longer belongs there leaves tier 0 unless a tile uses it. -/
def State.promote (s : State) : State :=
  let ok (x : Nat × Block) : Bool :=
    x.2.st == 2 && dscT0 (s.desc (keyExpert x.1)) && s.protectedLayer (keyLayerOf x.1)
  let stays (x : Nat × Block) : Bool := ok x || s.blockInUse (keyExpert x.1) (keyLayerOf x.1)
  let s' := { s with res := { s.res with
    blocks := s.res.blocks.map fun x => if x.2.tier == 0 && !stays x then (x.1, { x.2 with tier := 1, addr0 := 0 }) else x } }
  let before (a b : Nat × Block) : Bool := decide (s.loadOf (keyExpert b.1) < s.loadOf (keyExpert a.1))
  (sortBy before (s'.t1Blocks.filter fun x => ok x && x.2.tier != 0)).foldl (fun s x => s.promoteOne x.1) s'

/-! ## Planning points -/

/-- The experts this slice hosts, ascending (R243). -/
def State.hosted (s : State) : List Nat :=
  let me := s.selfIdx s.res.sources
  s.expertIds.filter fun e =>
    let d := s.dirNow e
    match me with
    | some i => hosts d i
    | none => dOpen d && dState d != 2

/-- A fetch of a block is queued. -/
def State.fetchQueued (s : State) (e l : Nat) : Bool := s.res.queue.any fun f => f.expert == e && f.layer == l

/-- A readiness record (R259). -/
def readyRecord (bell layer e src : Nat) : List Byte :=
  leBytes 8 bell ++ [BitVec.ofNat 8 layer, 0#8] ++ leBytes 2 e ++ leBytes 2 src ++ leBytes 2 0

/-- A readiness record for a capped stall this slice replicates goes to the stall's home while CLOSE_NR is 1 (R259). -/
def State.sendReady (bell l e : Nat) (s : State) : State :=
  let d := s.dirNow e
  match s.selfIdx s.res.sources with
  | none => s
  | some i =>
    if s.bit Reg.AUC_CAPMODE 0 ∧ replicates d i ∧ dState d ≠ 2 ∧ s.blockState e l = 2 then
      s.sendAuc (nodeAt s.res.sources (dHome d)) (readyRecord bell l e i)
    else s

/-- The planning point of a layer (R256): fetches for every ABSENT block of the layers it names, and readiness records
for the blocks of the layer that are RESIDENT (R259); blocks of the layers protected now are promoted (R258). A planning
point already reached does nothing. -/
def State.planPoint (bell l : Nat) (s : State) : State :=
  if s.res.planned.contains (bell * 256 + l) ∨ s.layers ≤ l then s
  else
    let n := s.layers
    let hs := s.hosted
    let ls := (List.range (min s.lookahead n)).map fun k => (l + k) % n
    let q := s.res.queue.map fun f => { f with point := l }
    let add := ls.flatMap fun k =>
      (hs.filter fun e => s.blockState e k == 0 && !s.fetchQueued e k).map fun e => (⟨e, k, l, false⟩ : Fetch)
    let s := { s with res := { s.res with queue := q ++ add, planned := (bell * 256 + l) :: s.res.planned } }
    (hs.foldl (fun s e => s.sendReady bell l e) s).promote

end Sys2Proof.Machine
end

