-- ==== Sys2Proof/Machine/Regions.lean ====
section
/-! DEFINITION. The region table (R348, R349) and the read copies of its regions (R360, R361): entries, holder lists,
invalidations, and a new table coming into force. -/
namespace Sys2Proof.Machine

/-! ## Packets of the memory unit (R352) -/

/-- A tally of the MSEM page. -/
def State.msemTally (i : Nat) (s : State) : State := s.tallyAdd Pg.MSEM i 1

/-- ARG of a request. -/
def reqArg (off tag lines : Nat) (flag : Bool) : W64 :=
  BitVec.ofNat 64 (off % 2 ^ 41 + tag * 2 ^ 41 + (lines - 1) * 2 ^ 57 + b2n flag * 2 ^ 63)

/-- The most requests a slice has outstanding (R352). -/
def reqLimit : Nat := 16384

/-- A tag that no request and no invalidation of this slice uses. -/
def State.freeTag (s : State) : Nat :=
  let used := s.msem.reqs.map (·.tag) ++ s.msem.invals.map (·.tag)
  (((List.range (used.length + 1)).map fun k => (s.msem.nextTag + k) % 65536).find? fun t => !used.contains t).getD 0

/-! ## Regions (R348 to R350) -/

/-- The entry of a region of a table, by the table's register value. -/
def State.regionAt (s : State) (v : W64) (i : Nat) : List Byte := s.rd (bits v.toNat 51 12 * 4096 + 32 * i) 32

/-- The fields of a region entry. -/
def rgOffset (b : List Byte) : Nat := fieldAt b 0 8
def rgHost (b : List Byte) : Nat := fieldAt b 8 8
def rgBytes (b : List Byte) : Nat := fieldAt b 0x10 4 * 4096
def rgJob (b : List Byte) : Nat := fieldAt b 0x14 2
def rgFlag (b : List Byte) (i : Nat) : Bool := bits (fieldAt b 0x16 1) i i == 1
def rgOwner (b : List Byte) : Nat := bits (fieldAt b 0x18 4) 22 0
def rgAny (b : List Byte) : Bool := bits (fieldAt b 0x18 4) 23 23 == 1
def rgFwdNode (b : List Byte) : Nat := bits (fieldAt b 0x1C 4) 22 0

/-- The table in force. -/
def State.liveRegions (s : State) : W64 := s.reg Reg.MSEM_REGIONS_LIVE

/-! ## Read copies (R360, R361) -/

/-- The address of a region's holder list; none where no lists are kept. -/
def State.holdAddr (s : State) (i : Nat) : Option Nat :=
  let b := s.fld Reg.MSEM_HOLD 51 16
  if b = 0 then none else some (b * 65536 + i * 256)

/-- The holders of a region, with their places. -/
def State.holders (s : State) (i : Nat) : List (Nat × Nat) :=
  match s.holdAddr i with
  | none => []
  | some a => (List.range 64).filterMap fun j =>
      let x := s.rdNat (a + 4 * j) 4
      if bits x 31 31 = 1 then some (j, bits x 22 0) else none

/-- A region's holder list is empty. -/
def State.clearHolders (i : Nat) (s : State) : State :=
  match s.holdAddr i with
  | none => s
  | some a => s.wr a (leBytes 256 0)

/-- A requester is entered in a holder list; answers whether it stands in it. -/
def State.addHolder (i node : Nat) (s : State) : Bool × State :=
  match s.holdAddr i with
  | none => (false, s)
  | some a =>
    let hs := s.holders i
    if hs.any fun h => h.2 == node then (true, s)
    else match (List.range 64).find? fun j => !(hs.any fun h => h.1 == j) with
      | some j => (true, s.wr (a + 4 * j) (leBytes 4 (node + 2 ^ 31)))
      | none => (false, s)

/-- The payload of an invalidation: home node, LINES - 1, offset (R361, R362). -/
def invalPayload (home off lines : Nat) : List Byte := leBytes 4 home ++ leBytes 4 (min (lines - 1) 255) ++ leBytes 8 off

/-- An invalidation leaves for a holder: FWD TYPE 0x50 (R361). -/
def State.sendInval (node job off lines : Nat) (s : State) : State :=
  let tag := s.freeTag
  let s := { s with msem := { s.msem with invals := s.msem.invals ++ [({ tag := tag, node := node, job := job } : Inval)], nextTag := (tag + 1) % 65536 } }
  (s.msemTally 30).send { dest := node, src := s.node, job := job, cls := 2, type := 0x50, arg := reqArg 0 tag 1 false,
                          payload := invalPayload s.node off lines }

/-! ## A table comes into force (R349) -/

/-- The entries of a table. -/
def State.regionList (s : State) (v : W64) : List (List Byte) := (List.range (bits v.toNat 8 0)).map fun i => s.regionAt v i

/-- What keeps a holder list: OFFSET, PAGES, OWNER and CACHEABLE. -/
def rgSame (a b : List Byte) : Bool :=
  rgOffset a == rgOffset b && rgBytes a == rgBytes b && fieldAt a 0x18 4 == fieldAt b 0x18 4 && rgFlag a 3 == rgFlag b 3

/-- The queue of a region that a new table changes or drops: no region's. -/
def oldQueue (i : Nat) : Nat := 512 + i

/-- A request that waits, under a new table (R349): the queue of a region that stays is that of its new index; one that
waited for the holders of a region that does not stay is to meet the holder list of its new region. -/
def Waiting.underNew (old new : List (List Byte)) (w : Waiting) : Waiting :=
  if 512 ≤ w.region then w
  else match (old[w.region]?).bind fun b => (new.zipIdx.find? fun x => rgSame x.1 b).map (·.2) with
    | some j => { w with region := j }
    | none => { w with region := oldQueue w.region, caused := false }

/-- A table takes effect: holder lists of regions that change or go are cleared, and their holders invalidated for the
whole region; a list that stays moves to its region's new index; requests that wait are applied under the new table
(R349). -/
def State.applyRegions (v : W64) (s : State) : State :=
  let old := s.regionList s.liveRegions
  let new := s.regionList v
  let lists := (List.range old.length).map fun i => (s.holders i).map (·.2)
  let gone := ((List.range old.length).zip old).filter fun x => !(new.any (rgSame x.2))
  let s := gone.foldl (fun s x => (lists.getD x.1 []).foldl
    (fun s n => s.sendInval n (rgJob x.2) (rgOffset x.2) (rgBytes x.2 / 64)) s) s
  let s := { s with staged := tDel Reg.MSEM_REGIONS s.staged, msem := { s.msem with checkedRegions := none } }
  let s := (s.setReg Reg.MSEM_REGIONS v).setReg Reg.MSEM_REGIONS_LIVE v
  let kept (b : List Byte) : List Nat := match old.zipIdx.find? fun x => rgSame x.1 b with
    | some x => lists.getD x.2 []
    | none => []
  let s := (List.range (max old.length new.length)).foldl (fun s i => s.clearHolders i) s
  let s := (new.zipIdx).foldl (fun s x => (kept x.1).foldl (fun s n => (s.addHolder x.2 n).2) s) s
  { s with msem := { s.msem with waiting := s.msem.waiting.map (·.underNew old new) } }

/-- A table that passed its check while the bell ran takes effect at once when the bell is STOPPED (R349). -/
def State.regionsStopped (s : State) : State :=
  match s.msem.checkedRegions with
  | some (v, _) => if s.bellState = 0 then s.applyRegions v else s
  | none => s

end Sys2Proof.Machine
end

