-- ==== Sys2Proof/Machine/Slots.lean ====
section
/-! DEFINITION. Slots (R20, R21, R68 to R70, R81 to R90, R237): the engine time and the promise, late slots, the ledger
entry, the key banks that a LAYER_IN waits for (R141, R142), and the start and the end of a layer round. -/
namespace Sys2Proof.Machine

/-! ## Engine time and promise -/

/-- No return barrow is owed to a round any more: each has come or been given up. -/
def Round.returnsKnown (r : Round) : Bool :=
  r.returnLost || r.zPreset.all fun p => (tFind p.1 r.hdrs).isSome || (tFind p.1 r.lostPlaces).isSome

/-- A return barrow was received whose header carried its ready time. -/
def Round.returnCame (r : Round) : Bool := r.hdrs.any fun p => !p.2.skip

/-- The return interval of R68 at a time: from the latest ready time in the return barrows received, or from the end of the
forward interval when none was received. While barrows are owed its start is not known, and it counts nothing until
LAYER_OUT rings, `out` (DESIGN CHOICE, notes/assumptions/6.md). -/
def Round.retTime (r : Round) (now : Nat) (out : Bool) : Nat :=
  match r.fwdEnd with
  | none => 0
  | some f => if out || r.returnsKnown then now - (if r.returnCame then r.retReady else f) else 0

/-- A slot's engine time (R68): while it runs, or when its LAYER_OUT rings. -/
def Round.engineTime (r : Round) (now : Nat) (out : Bool) : Nat := (r.fwdEnd.getD now - r.start) + r.retTime now out

/-- A slot's overlap wait (R69): its own TOK waits and its largest return wait; a memory request takes no time in the model, so
that none waits for the floor (notes/assumptions/48.md). -/
def Round.overlapAll (r : Round) : Nat := r.overlap + r.retWait

/-- A slot's promise (R69). -/
def Round.promise (r : Round) : Nat := r.bound + r.overlapAll

/-! ## Late slots -/

/-- The late causes known of a slot (R83), as a bitmask with bit c − 1 for code c. -/
def State.lateCauses (s : State) (a : AdmSet) (r : Round) : Nat :=
  let allow := confFld (s.confAt a.bell) Reg.BELL_ALLOW 15 0
  let m := b2n r.throttled + 2 * b2n r.beyondW + 4 * b2n r.held + 8 * b2n (2 * allow < r.retry) + 16 * b2n r.peer
  if m = 0 then 32 else m

/-- The lowest code of a late-cause mask (R83). -/
def firstCauseOf (m : Nat) : Nat := ((List.range 6).find? fun i => bits m i i == 1).elim 0 (· + 1)

/-- Payloads are a multiple of 8 B (R299). -/
def pad8 (b : List Byte) : List Byte := b ++ leBytes ((8 - b.length % 8) % 8) 0

/-- The payload of a LATE notice (R390). -/
def latePayload (bell layer : Nat) (h : Half) : List Byte :=
  pad8 (leBytes 8 bell ++ [BitVec.ofNat 8 layer, BitVec.ofNat 8 h.num])

/-- A unit is fenced in this bell (R454). -/
def State.anyFenced (s : State) : Bool := s.safe.marks.any fun m => m.fenced

/-- The headers already written carry LATE from now on (R237). -/
def State.rewriteLate (h : Half) (s : State) : State :=
  match (s.half h).cur with
  | none => s
  | some r => (List.range r.toks.length).foldl (fun s i =>
      match r.toks[i]? with
      | some t =>
        if t.issued then
          (s.modTok h i fun t => { t with status := setBits t.status 11 11 1 }).writeRecord h i false
        else s
      | none => s) s

/-- A slot becomes late (R84, R85): the BELL vector, SLOT_LATE, BELL_LATE, a late notice, LATE in its tokens; with no
known cause a timing anomaly is reported, unless a unit is fenced (R454). -/
def State.markLate (h : Half) (s : State) : State :=
  match s.curRound h with
  | none => s
  | some (a, r) =>
    if r.late then s
    else
      let m := s.lateCauses a r
      let first := firstCauseOf m
      let s := s.modRound h fun r => { r with late := true }
      let s := s.raise Pg.BELL
      let s := s.record Pg.BELL 0x18 0
      let s := if s.bit Reg.BELL_LATE 12 then s
        else s.setReg Reg.BELL_LATE (BitVec.ofNat 64 (r.layer + h.num * 2 ^ 8 + first * 2 ^ 9 + 2 ^ 12))
      let s := s.flood 3 (latePayload a.bell r.layer h)
      let s := s.tallyAdd Pg.BELL 1 1
      let s := if m = 32 ∧ !s.anyFenced then s.safe0 7 0x18 r.layer h else s
      s.rewriteLate h

/-! ## The key banks -/

/-- The key bank that is A or B. -/
def State.bank (s : State) (b : Bool) : KeyBank := if b then s.score.bankB else s.score.bankA

/-- KEYS_BANK shows the two banks (R151). -/
def State.showBanks (s : State) : State :=
  let w := fun (k : KeyBank) => k.layer % 256 + 2 ^ 8 * b2n k.valid + 2 ^ 9 * b2n k.loading
  s.setReg Reg.KEYS_BANK (BitVec.ofNat 64 (w s.score.bankA + 2 ^ 16 * w s.score.bankB))

/-- A key bank takes a value. -/
def State.setBank (b : Bool) (k : KeyBank) (s : State) : State :=
  ({ s with score := if b then { s.score with bankB := k } else { s.score with bankA := k } } : State).showBanks

/-- A bank starts to load the image of a layer of a table (R141). -/
def State.loadBank (b : Bool) (table layer : Nat) (s : State) : State :=
  s.setBank b { table := table, layer := layer, loading := true, ueSeen := (s.bank b).ueSeen }

/-- The bank that holds a layer's image of a table, complete. -/
def State.bankFor (s : State) (table layer : Nat) : Option Bool :=
  [false, true].find? fun b =>
    let k := s.bank b
    k.valid && k.layer == layer && k.table == table

/-- The scoring table that the rounds of a bell use (R139). -/
def State.tableAt (s : State) (bell : Nat) : Nat := (tGet resetOf Reg.KEYS_TABLE_LIVE (s.confAt bell)).toNat

/-- A round of the half's sets still to be scored was admitted under another scoring table than the one in force
(R141): its set has tokens, and it is not in its last layer with every token scored. -/
def State.oldScoring (s : State) (h : Half) : Bool :=
  (s.half h).sets.any fun a => !a.toks.isEmpty && s.tableAt a.bell != s.regNat Reg.KEYS_TABLE_LIVE
    && !((s.half h).sets.head? == some a && match (s.half h).cur with
      | some r => r.layer + 1 == confLayers (s.confAt a.bell) && r.toks.all fun t => t.scored
      | none => false)

/-- The loads of a table that took effect start once no old round scores (R141): layer 0 into bank A; bank B waits for
that load. -/
def State.switchBanks (s : State) : State :=
  if !s.score.switchPending || s.oldScoring .calico || s.oldScoring .muslin then s
  else
    let s := { s with score := { s.score with switchPending := false } }
    (s.setBank true {}).loadBank false (s.regNat Reg.KEYS_TABLE_LIVE) 0

/-- A running round uses another value of a table register than the one in force. -/
def State.tableInUse (s : State) (r : Nat) : Bool :=
  (s.cal.sets ++ s.mus.sets).any fun a => tGet resetOf r (s.confAt a.bell) != s.reg r

/-- KEYS_OLD FREE and SEL_CHECK OLD_FREE: no running round and no bank uses the previous table (R139, R154). -/
def State.oldTables (s : State) : State :=
  let t := s.regNat Reg.KEYS_TABLE_LIVE
  let old := fun (k : KeyBank) => (k.valid || k.loading) && k.table != t
  let keys := s.tableInUse Reg.KEYS_TABLE_LIVE || s.score.switchPending || old s.score.bankA || old s.score.bankB
  (s.setFld Reg.KEYS_OLD 0 0 (b2n !keys)).setFld Reg.SEL_CHECK 16 16 (b2n !s.tableInUse Reg.SEL_TABLE_LIVE)

/-- What the tiles of a half have scored since their last test, when a new round of the half begins (R444). -/
def patternStep (t : Table (Bool × Nat)) : Table (Bool × Nat) :=
  t.map fun p => (p.1, (true, if p.2.1 then 0 else p.2.2))

/-- The pattern marks of a half. -/
def State.pattern (s : State) : Half → Table (Bool × Nat)
  | .calico => s.score.patternCal
  | .muslin => s.score.patternMus

/-- Replaces the pattern marks of a half. -/
def State.setPattern (h : Half) (t : Table (Bool × Nat)) (s : State) : State :=
  match h with
  | .calico => { s with score := { s.score with patternCal := t } }
  | .muslin => { s with score := { s.score with patternMus := t } }

/-! ## Starting a layer round -/

/-- A fresh round of a set (R20, R68). -/
def freshRound (a : AdmSet) (layer now : Nat) (throttled peer floor : Bool) : Round :=
  { layer := layer, start := now, toks := a.toks.map fun _ => { taint := a.taint }, bound := a.bounds.getD layer 0,
    throttled := throttled, peer := peer, beyondW := floor }

/-- The tokens of a round's sequences that have failed already get no result in it (R112). -/
def State.failedFrom (s : State) (a : AdmSet) (r : Round) : Round :=
  { r with toks := (a.toks.zip r.toks).map fun p =>
    let e := s.seq p.1.seq
    if e.gen = p.1.gen ∧ e.failure ≠ 0#64 then { p.2 with failed := true } else p.2 }

/-- A layer round starts: its LAYER_IN takes effect (R20, R68). The first LAYER_IN of a layer is the planning point of
the layer after it (R256). A bank image that could not be read fails every sequence of the round (R145). -/
def State.beginRound (h : Half) (a : AdmSet) (layer : Nat) (s : State) : State :=
  let thr := a.step < s.pins.arithStep
  let peer := s.bell.peerLate.any fun p => p.1 == a.bell && p.2.1 == layer && p.2.2 == h
  let floor := s.bell.once.contains (Pg.MEMP * 256 + 4)
  let bad := match s.bankFor (s.tableAt a.bell) layer with
    | some b => (s.bank b).bad
    | none => false
  let s := s.setHalf h { s.half h with cur := some (s.failedFrom a (freshRound a layer s.now thr peer floor)), heldLayer := none,
                                       keyWait := none }
  let s := s.setPattern h (patternStep (s.pattern h))
  let s := s.emit 0x02 [BitVec.ofNat 64 (layer + h.num * 2 ^ 8)]
  let s := s.planPoint a.bell (layer + 1)
  if bad then s.failSeqs 1 layer (a.toks.map (·.seq)) else s

/-! ## The end of a slot -/

/-- A layer entry of the ledger (R88), as a 128-bit number. -/
def ledgerEntry (n bound time overlap causes first : Nat) (late : Bool) : Nat :=
  n % 2 ^ 16 + min bound (2 ^ 32 - 1) * 2 ^ 16 + min time (2 ^ 32 - 1) * 2 ^ 48 + min overlap (2 ^ 32 - 1) * 2 ^ 80
    + causes % 64 * 2 ^ 112 + first % 8 * 2 ^ 118 + b2n late * 2 ^ 121 + 2 ^ 122

/-- The place of a bell's ledger record; none while BASE is zero (R88). -/
def State.ledgerAt (s : State) (bell : Nat) : Option Nat :=
  let base := s.fld Reg.BELL_LEDGER 51 14 * 2 ^ 14
  if base = 0 then none else some (base + bell % 2 ^ s.fld Reg.BELL_LEDGER 4 0 * 2 ^ 14)

/-- A slot of a bell has ended: its layer entry is written, and when it was the bell's last slot BELL_LEDGER_HEAD
follows the entry (R88). -/
def State.ledgerSlot (bell layer : Nat) (h : Half) (entry : Nat) (s : State) : State :=
  let left := tGet zeroNat bell s.bell.ledger - 1
  let s := { s with bell := { s.bell with ledger := tSet zeroNat bell left s.bell.ledger } }
  match s.ledgerAt bell with
  | none => s
  | some a =>
    let w : WStep := .bytes (a + 0x40 + (2 * layer + h.num) * 16) (leBytes 16 entry)
    s.startChain (if left = 0 then [w, .reg Reg.BELL_LEDGER_HEAD (BitVec.ofNat 64 bell)] else [w])

/-- BELL_LAYER_OUT shows the last layer of a half whose LAYER_OUT rang (R89). -/
def State.showLayerOut (h : Half) (layer : Nat) (s : State) : State :=
  match h with
  | .calico => (s.setFld Reg.BELL_LAYER_OUT 7 0 layer).setFld Reg.BELL_LAYER_OUT 16 16 1
  | .muslin => (s.setFld Reg.BELL_LAYER_OUT 15 8 layer).setFld Reg.BELL_LAYER_OUT 17 17 1

/-- The determinism unit will form the half's digests (R405). -/
def State.digestDue (h : Half) (a : AdmSet) (r : Round) (s : State) : State :=
  let s := s.setHalf h { s.half h with last := some (a, r) }
  { s with det := { s.det with due := s.det.due ++ [(h, a, r)] } }

/-- MCODE_STAT and MCODE_REV show the two banks (R488); the other bits of MCODE_STAT stay. -/
def State.showMcode (s : State) : State :=
  let b := s.start
  let s := (s.setFld Reg.MCODE_STAT 3 1 b.bank0.st).setFld Reg.MCODE_STAT 6 4 b.bank1.st
  let rev (x : McBank) : Nat := if x.st = 0 ∨ x.st = 5 then 0 else x.rev
  let inF := if s.bit Reg.MCODE_STAT 0 then b.bank1 else b.bank0
  let other := if s.bit Reg.MCODE_STAT 0 then b.bank0 else b.bank1
  s.setReg Reg.MCODE_REV (BitVec.ofNat 64 ((if inF.st = 3 then inF.rev else 0) % 2 ^ 32 + rev other % 2 ^ 32 * 2 ^ 32))

/-- The OLD microcode bank is ACCEPTED again and OLD_FREE is set when the last round admitted before the switch has ended
(R485). -/
def State.freeOldBank (s : State) : State :=
  if s.bit Reg.MCODE_STAT 11 || (s.cal.sets ++ s.mus.sets).any (fun a => a.bell < s.start.mcBell) then s
  else
    let f (x : McBank) : McBank := if x.st = 4 then { x with st := 2 } else x
    let s := { s with start := { s.start with bank0 := f s.start.bank0, bank1 := f s.start.bank1 } }
    (s.setFld Reg.MCODE_STAT 11 11 1).showMcode

/-- After HALT the state goes from HALTING to STOPPED when no admitted work is left (R67); a region table that has passed
its check takes effect (R349). -/
def State.haltDone (s : State) : State :=
  if s.bellState == 3 && s.bell.scalesDone && (s.cal.sets ++ s.mus.sets).all (fun a => a.toks.isEmpty)
  then (s.setFld Reg.PBELL_STATE 1 0 0).regionsStopped else s

/-- The set of a half ends after its last routed layer (R86, R90); draining entries may then become FREE (R100). -/
def State.endSet (h : Half) (layer : Nat) (s : State) : State :=
  match (s.half h).sets with
  | [] => s
  | a :: rest =>
    if layer + 1 < confLayers (s.confAt a.bell) then s
    else (s.setHalf h { s.half h with sets := rest }).endDraining.switchBanks.oldTables.freeOldBank.haltDone

/-- The return barrows of a round that are not complete (R227); a dead site's sends nothing more. -/
def State.openReturnsOf (s : State) (a : AdmSet) (r : Round) : List OpenReturn :=
  r.zPreset.filterMap fun p =>
    let z := (tFind p.1 r.z).getD 0
    if p.2 = 0 ∨ ((tFind p.1 r.hdrs).isSome ∧ z = 0) ∨ s.deadNow p.1 then none
    else some {
      bell := a.bell, layer := r.layer, node := nodeAt (s.sourcesAt a.bell) p.1, toks := r.toks.length
      records := tGet zeroNat p.1 r.recsIn, bytes := ((p.2 : Int) - z).toNat, chunks := tGet zeroNat p.1 r.chunksIn
      lost := r.returnLost
      handles := if r.returnLost then a.toks.map fun t => s.handleFor a t r.layer 0 else [] }

/-- LAYER_OUT of a half rings (R21): its register, trace items and ledger entry; the round is over. -/
def State.ringLayerOut (h : Half) (a : AdmSet) (r : Round) (s : State) : State :=
  let causes := if r.late then s.lateCauses a r else 0
  let entry := ledgerEntry r.toks.length r.bound (r.engineTime s.now true) r.overlapAll causes (firstCauseOf causes) r.late
  let s := s.showLayerOut h r.layer
  let s := s.emit 0x03 [BitVec.ofNat 64 (r.layer + h.num * 2 ^ 8 + r.toks.length * 2 ^ 16)]
  let s := s.emit 0x04 [BitVec.ofNat 64 entry, BitVec.ofNat 64 (entry / 2 ^ 64)]
  let s := s.ledgerSlot a.bell r.layer h entry
  let s := s.tallyAdd Pg.BELL 2 r.overlapAll
  let s := s.dropFrames r.areaFrames
  let s := s.setFld Reg.CMB_AREA (if h = .calico then 5 else 13) (if h = .calico then 0 else 8) 0
  let s := s.setFld Reg.CMB_AREA (16 + h.num) (16 + h.num) 0
  let s := s.digestDue h a r
  let s := s.setHalf h { s.half h with cur := none, openReturns := (s.half h).openReturns ++ s.openReturnsOf a r }
  s.endSet h r.layer

/-- A LAYER_IN of a half with no admitted token (R90): the zero-count bid-closes of its rounds leave and LAYER_OUT rings
at once. -/
def State.emptyRound (h : Half) (a : AdmSet) (layer : Nat) (s : State) : State :=
  let c := s.confAt a.bell
  let x := (s.selEnt c layer).x
  let src := s.sourcesAt a.bell
  let s := (List.range (x + 1)).foldl (fun s r => s.sendCloses a.bell layer h r [] src) s
  let s := s.setHalf h { s.half h with heldLayer := none, keyWait := none }
  let s := s.planPoint a.bell (layer + 1)
  s.ringLayerOut h a (freshRound a layer s.now false false false)

/-- The wait for a bank image is recorded as KEY_HOLD when it begins (R142). -/
def State.keyHold (h : Half) (s : State) : State :=
  match (s.half h).keyWait with
  | some _ => s
  | none => (s.setHalf h { s.half h with keyWait := some s.now }).record Pg.KEYS 0x33 0

/-- The bell whose table gives the image of the half's held layer: that of the set the layer belongs to, and before the
Scales that of the bell in progress; none while no set is to come, or for a set of no token (R90, R142). -/
def State.heldBell (s : State) (h : Half) : Option Nat :=
  let next (a : Option AdmSet) : Option Nat := match a with
    | some a => if a.toks.isEmpty then none else some a.bell
    | none => if s.bell.everOpened && !s.bell.scalesDone then some s.bellNo else none
  match (s.half h).sets, (s.half h).cur with
  | a :: rest, some r => next (if r.layer + 1 < confLayers (s.confAt a.bell) then some a else rest.head?)
  | as, _ => next as.head?

/-- A held LAYER_IN waits for its bank image too (R142), whatever else holds it. -/
def State.keyCheck (h : Half) (s : State) : State :=
  match (s.half h).heldLayer, s.heldBell h with
  | some l, some b => if (s.bankFor (s.tableAt b) l).isNone then s.keyHold h else s
  | _, _ => s

/-- The wait of a held LAYER_IN for its bank image ends when the image is complete (R142): KEY_WAIT takes it. -/
def State.keySettle (h : Half) (s : State) : State :=
  match (s.half h).keyWait, (s.half h).heldLayer, s.heldBell h with
  | some t, some l, some b =>
    if (s.bankFor (s.tableAt b) l).isNone then s
    else (s.setHalf h { s.half h with keyWait := none }).tallyAdd Pg.SCORE 4 (s.now - t)
  | _, _, _ => s

/-- The held LAYER_IN of a half takes effect when nothing holds it any more: no round of the half runs (R20), the Scales
of its bell have completed (R78), its bank image is complete (R142), and no tile self-test runs (R445). -/
def State.release (h : Half) (s : State) : State :=
  match (s.half h).heldLayer, (s.half h).sets, (s.half h).cur with
  | some l, a :: _, none =>
    if a.toks.isEmpty then s.emptyRound h a l
    else if s.score.selfTest then s
    else
      match s.bankFor (s.tableAt a.bell) l with
      | none => s.keyHold h
      | some _ => (s.keySettle h).beginRound h a l
  | _, _, _ => s

/-- Both halves' held doorbells are tried. -/
def State.releaseAll (s : State) : State := (s.release .calico).release .muslin

/-! ## Commands -/

/-- A LAYER_IN is dropped or ignored with a code (R90). -/
def State.layerRefuse (code : Nat) (s : State) : State := s.dropWrite code Reg.BELL_LAYER_IN

/-- The layer a half takes after `l`: layer 0 of the next bell after the last routed one (R90). -/
def nextLayer (n l : Nat) : Nat := if l + 1 < n then l + 1 else 0

/-- R90 for a doorbell of a layer within the routed layers. -/
def State.doorbell (h : Half) (l : Nat) (s : State) : State :=
  let x := s.half h
  let n := match x.sets with
    | a :: _ => confLayers (s.confAt a.bell)
    | [] => s.layers
  match x.heldLayer with
  | some k => s.layerRefuse (if l = k then 0x11 else 0x13)
  | none =>
    if l = x.expected then
      ((s.setHalf h { x with heldLayer := some l, expected := nextLayer n l }).keyCheck h).release h
    else
      match x.cur with
      | some r => s.layerRefuse (if l = r.layer then 0x11 else 0x13)
      | none => s.layerRefuse 0x13

/-- BELL_LAYER_IN (R20, R89, R90): a layer at or above the routed layer count is dropped with LAYER_RANGE; any other
doorbell takes effect, is held, is ignored, or is dropped with LAYER_ORDER. -/
def State.layerIn (v : W64) (s : State) : State :=
  s.gated Reg.BELL_LAYER_IN v fun s =>
    let l := bits v.toNat 7 0
    if s.layers ≤ l then s.layerRefuse 0x12 else s.doorbell (halfOf (bits v.toNat 8 8)) l

/-- The command of that write. -/
def execLayerIn (v : W64) (s : State) : Out := .next (s.layerIn v)

/-- A slot's engine time exceeds its promise (R70); equal to it, the slot is in time. -/
def Round.over (r : Round) (now : Nat) (out : Bool) : Bool := decide (r.promise < r.engineTime now out)

/-- SLOT_LATE (R70, R84, R87): the running slot of a half is late when its engine time exceeds its promise; a slot that is over
has rung in time. -/
def execSlotLate (half : Half) (s : State) : Out :=
  match s.curRound half with
  | none => .next s.lateMargin
  | some (_, r) => .next (if r.over s.now false then s.markLate half else s)

/-- A late notice (R83, R84): it is kept for its bell, layer and half, and a slot of those that becomes late afterwards
has the cause PEER. -/
def execLateNoticeReceive (bell layer : Nat) (half : Half) (s : State) : Out :=
  let s := { s with bell := { s.bell with peerLate := (bell, layer, half) :: s.bell.peerLate } }
  match s.curRound half with
  | some (a, r) =>
    if a.bell = bell ∧ r.layer = layer ∧ !r.late then .next (s.modRound half fun r => { r with peer := true }) else .next s
  | none => .next s

/-- The slot watchdog (R446): a half 20 µs past its promise without LATE gets it, with WDOG_OVERRUN and a class 7
report. -/
def execWdogOverrun (half : Half) (s : State) : Out :=
  match s.curRound half with
  | none => .next s.lateMargin
  | some (_, r) =>
    if r.late || decide (r.engineTime s.now false < r.promise + 20000) then .next s
    else
      let s := s.setReg Reg.SAFE_WDOG (BitVec.ofNat 64 (r.layer + half.num * 2 ^ 8
        + min (r.engineTime s.now false - r.promise) (2 ^ 32 - 1) * 2 ^ 16))
      let s := (s.record Pg.SAFE 0xD3 0).safe0 7 0xD3 r.layer half
      let s := s.modRound half fun r => { r with late := true }
      .next (s.rewriteLate half)

end Sys2Proof.Machine
end

