-- ==== Sys2Proof/Machine/Barrow.lean ====
section
/-! DEFINITION. Barrows (R203 to R213): headers, the cut into chunks, the queues of the TOK sender, and what both ends
share: chunk faults, the check of a chunk's CRC, and the place of a record in a receive region. -/
namespace Sys2Proof.Machine

/-! ## Headers and chunks -/

/-- A barrow header (R203). -/
def barrowHeader (bell src dest layer : Nat) (h : Half) (ret held bf16 : Bool) (records bytes ready chunks wait : Nat) :
    List Byte :=
  leBytes 8 bell ++ leBytes 4 src ++ leBytes 4 dest
    ++ [BitVec.ofNat 8 layer, BitVec.ofNat 8 (h.num + 2 * b2n ret + 4 * b2n held + 8 * b2n bf16)] ++ leBytes 2 0
    ++ leBytes 4 records ++ leBytes 8 bytes ++ leBytes 8 ready ++ leBytes 4 chunks ++ leBytes 4 wait ++ leBytes 16 0

/-- A barrow header as it is read. -/
def parseHeader (b : List Byte) : BarrowHdr where
  held := bits (fieldAt b 0x11 1) 2 2 == 1
  records := fieldAt b 0x14 4
  bytes := fieldAt b 0x18 8
  chunks := fieldAt b 0x28 4
  ready := fieldAt b 0x20 8
  wait := fieldAt b 0x2C 4

/-- Chunks of a record of `n` bytes (R205). -/
def partsOf (n : Nat) : Nat := ceilDiv n 4096

/-- The chunks of one record: tags and bytes, part by part (R205, R206). -/
def recordChunks (h : Half) (layer : Nat) (ret : Bool) (e off token rank : Nat) (rec_ : List Byte) : List (W64 × List Byte) :=
  (List.range (partsOf rec_.length)).map fun p =>
    (mkTag e off p false false ret h.num layer token rank, (rec_.drop (4096 * p)).take 4096)

/-- The tag of a header chunk. -/
def headerTag (h : Half) (layer : Nat) (ret : Bool) : W64 := mkTag 0 0 0 true false ret h.num layer 0 0

/-- LAST set on a tag (R206). -/
def tagLast (t : W64) : W64 := t ||| BitVec.ofNat 64 (2 ^ 32)

/-- A tag without LAST, as a number: what names a chunk. -/
def tagKey (t : W64) : Nat := setBits t.toNat 32 32 0

/-- Reserved bits set in a tag, or fields of a header chunk that are not zero (R206). -/
def tagBad (t : W64) : Bool := tReserved t || (tHdr t && (tExpert t != 0 || tOffset t != 0 || tPart t != 0))

/-! ## The TOK sender's queues (R213) -/

/-- The chunks of a half that are ready to send. -/
def State.tokQueue (s : State) : Half → List TokChunk
  | .calico => s.tok.cal
  | .muslin => s.tok.mus

/-- Replaces a half's ready chunks. -/
def State.setTokQueue (h : Half) (q : List TokChunk) (s : State) : State :=
  match h with
  | .calico => { s with tok := { s.tok with cal := q } }
  | .muslin => { s with tok := { s.tok with mus := q } }

/-- TAINT in the first part of a return record. -/
def taintChunk (c : TokChunk) : TokChunk :=
  if tDir c.tag = 0 ∨ tHdr c.tag = true ∨ tPart c.tag ≠ 0 then c
  else { c with bytes := c.bytes.set 12 (c.bytes.getD 12 0#8 ||| 1#8) }

/-- The return records of a half that are queued and not sent, as far as they meet a condition, carry TAINT (R202, R210,
R442). -/
def State.taintQueued (h : Half) (p : TokChunk → Bool) (s : State) : State :=
  s.setTokQueue h ((s.tokQueue h).map fun c => if p c then taintChunk c else c)

/-- When a half's present spell of readiness began. -/
def State.tokSince (s : State) : Half → Nat
  | .calico => s.tok.sinceCal
  | .muslin => s.tok.sinceMus

/-- A spell of readiness of a half begins. -/
def State.setTokSince (h : Half) (t : Nat) (s : State) : State :=
  match h with
  | .calico => { s with tok := { s.tok with sinceCal := t } }
  | .muslin => { s with tok := { s.tok with sinceMus := t } }

/-- Chunks become ready to send. -/
def State.tokReady (h : Half) (cs : List TokChunk) (s : State) : State :=
  if cs.isEmpty then s
  else
    let s := if (s.tokQueue h).isEmpty then s.setTokSince h s.now else s
    s.setTokQueue h (s.tokQueue h ++ cs)

/-- A chunk with the model job and level 3 (R415). -/
def State.headerChunk (s : State) (dest bell : Nat) (tag : W64) (b : List Byte) : TokChunk :=
  ⟨dest, tag, b, bell, s.fld Reg.CTX_MODEL 15 0, 3⟩

/-! ## Faults of chunks -/

/-- DISP_FAULT and DISP_FAULT_SRC take a chunk, and its code is recorded (R219, R520). -/
def State.dispFault (code : Nat) (tag : W64) (src : Node) (s : State) : State :=
  let s := s.setReg Reg.DISP_FAULT tag
  let s := s.setReg Reg.DISP_FAULT_SRC (BitVec.ofNat 64 (src % 2 ^ 23 + code * 2 ^ 24))
  s.recordF Pg.DISP code Reg.DISP_FAULT_SRC

/-- A chunk is discarded with a code, and a fault of a class is reported. -/
def State.chunkFault (code cls : Nat) (tag : W64) (src : Node) (s : State) : State :=
  (s.dispFault code tag src).safe0 cls code (tLayer tag) (halfOf (tHalf tag))

/-- A chunk whose CRC fails (R208): answers whether it had failed before, in which case it counts as arrived. -/
def State.crcFault (again : Bool) (tag : W64) (src : Node) (s : State) : State :=
  let s := s.tallyAdd Pg.DISP 2 1
  if again then s.chunkFault 0x54 5 tag src else s.dispFault 0x53 tag src

/-- A barrow or bid-close of another bell than the round it serves (R63): BELL_SKEW, which the ledger header shows (R88), and
a wrong-sequence fault. -/
def State.bellSkew (layer : Nat) (h : Half) (s : State) : State :=
  let s := (s.record Pg.BELL 0x17 0).safe0 1 0x17 layer h
  { s with bell := { s.bell with flags := setBits s.bell.flags 2 2 1 } }

/-- The end-to-end acknowledgement of a barrow, an ack record of kind BARROW (R305), to a node. -/
def barrowAck (bell layer : Nat) (h : Half) (ret : Bool) : List Byte :=
  leBytes 8 (5 * 2 ^ 32 + 3 * 2 ^ 35 + layer * 2 ^ 38 + h.num * 2 ^ 46 + b2n ret * 2 ^ 47 + bell % 256 * 2 ^ 48)

/-- Sends an ack-lane packet (R299, R305): no window, no job. -/
def State.sendAck (dest : Node) (recs : List Byte) (s : State) : State :=
  s.send { dest := dest, src := s.node, cls := 7, type := 0, prio := 3, payload := recs }

/-! ## Receive regions (R194) -/

/-- The stalls a slice replicates in a bell, ascending, with their capacities. -/
def State.replicated (s : State) (bell : Nat) : List (Nat × Nat) :=
  match s.selfIdx (s.sourcesAt bell) with
  | none => []
  | some i => s.expertIds.filterMap fun e =>
      let d := s.dirAt bell e
      if replicates d i && dState d != 2 then some (e, dCap d) else none

/-- The base of a stall in the receive region of a layer (R194). -/
def regionBase (rs : List (Nat × Nat)) (bfwd e : Nat) : Nat :=
  sumNat ((rs.filter fun p => p.1 < e).map fun p => p.2 * bfwd)

end Sys2Proof.Machine
end

