-- ==== Sys2Proof/Machine/Auction.lean ====
section
/-! DEFINITION. The auction home (R163 to R180, R198, R260, R457): records as they arrive, keepers, the close of a round
with its grants and notices, timeouts, and the conservation checks of a home. -/
namespace Sys2Proof.Machine

/-! ## Rounds -/

/-- A round key: rounds of a half close in ascending key order (R169). -/
def roundKey (bell layer round : Nat) : Nat := (bell * 256 + layer) * 4 + round

/-- The parts of a round key. -/
def keyBell (k : Nat) : Nat := k / 1024
def keyLayer (k : Nat) : Nat := k / 4 % 256
def keyRound (k : Nat) : Nat := k % 4

/-- The bell that the low byte of a bell number names: the nearest to the current bell. -/
def fullBell (cur b8 : Nat) : Nat :=
  let d := (b8 + 256 - cur % 256) % 256
  if d < 128 ∨ cur + d < 256 then cur + d else cur + d - 256

/-- One half of the home. -/
def State.home (s : State) : Half → HomeHalf
  | .calico => s.homeCal
  | .muslin => s.homeMus

/-- Replaces one half of the home. -/
def State.setHome (h : Half) (x : HomeHalf) (s : State) : State :=
  match h with
  | .calico => { s with homeCal := x }
  | .muslin => { s with homeMus := x }

/-- Changes one half of the home. -/
def State.modHome (h : Half) (f : HomeHalf → HomeHalf) (s : State) : State := s.setHome h (f (s.home h))

/-- A round can occur: its layer is a routed layer, and it is no round above the layer's X (R175). -/
def State.roundOccurs (s : State) (k : Nat) : Bool :=
  let c := s.confAt (keyBell k)
  keyLayer k < confLayers c && keyRound k ≤ (s.selEnt c (keyLayer k)).x

/-- The round of the same bell that closes after `k`; none after the last of the bell. -/
def State.nextInBell (s : State) (k : Nat) : Option Nat :=
  let c := s.confAt (keyBell k)
  if keyRound k < (s.selEnt c (keyLayer k)).x then some (k + 1)
  else if keyLayer k + 1 < confLayers c then some (roundKey (keyBell k) (keyLayer k + 1) 0)
  else none

/-- The round in progress of a half (R169): the earliest not yet closed, once a record of it or of a later round is held.
A bell in which no source runs the half has no rounds. -/
def State.inProgress (s : State) (h : Half) : Option Nat :=
  let x := s.home h
  let held := (x.space.map (·.key)) ++ (x.closes.map (·.1)) ++ x.timedOut.filter fun k => x.done.all (· < k)
  match sortBy (fun a b => decide (a < b)) held with
  | [] => none
  | k :: _ =>
    match x.done.bind s.nextInBell with
    | some n => some n
    | none => some (roundKey (keyBell k) 0 0)

/-- The capped stalls homed on this slice in a bell, ascending (R243). -/
def State.homedStalls (s : State) (bell : Nat) : List Nat :=
  match s.selfIdx (s.sourcesAt bell) with
  | none => []
  | some me => s.expertIds.filter fun e =>
      let d := s.dirAt bell e
      !dOpen d && dState d != 2 && dHome d == me

/-- A stall is homed here and capped. -/
def State.isHomed (s : State) (bell e : Nat) : Bool :=
  let d := s.dirAt bell e
  e < s.experts && !dOpen d && dState d != 2 && some (dHome d) == s.selfIdx (s.sourcesAt bell)

/-! ## Verdicts and notices -/

/-- A verdict of a bid (R170). -/
def verdictWord (b : Bid) (grant : Bool) (reason offset : Nat) : W64 :=
  BitVec.ofNat 64 (hSlot b.handle % 256 * 2 ^ 56 + b.pos * 2 ^ 32 + b.rank * 2 ^ 28 + b.ext * 2 ^ 27
    + bits b.handle.toNat 7 0 * 2 ^ 19 + b2n grant * 2 ^ 18 + reason * 2 ^ 15 + offset)

/-- A verdict packet (R300) to a source. -/
def State.sendVerdicts (h : Half) (k src : Nat) (ws : List W64) (s : State) : State :=
  let dest := nodeAt (s.sourcesAt (keyBell k)) src
  let head := keyLayer k + h.num * 2 ^ 8 + keyRound k * 2 ^ 9 + ws.length * 2 ^ 16
  s.send { dest := dest, src := s.node, job := s.fld Reg.CTX_MODEL 15 0, cls := 4, prio := 3, type := 1,
           arg := BitVec.ofNat 64 (keyBell k), payload := leBytes 8 head ++ ws.flatMap fun w => leBytes 8 w.toNat }

/-- A table counter rises. -/
def bump (k n : Nat) (t : Table Nat) : Table Nat := tPut k (tGet zeroNat k t + n) t

/-- A bid is refused (R169, R170). -/
def State.refuseBid (h : Half) (k : Nat) (b : Bid) (reason : Nat) (s : State) : State :=
  let s := s.modHome h fun x => { x with refusals := bump b.expert 1 x.refusals }
  (s.tallyAdd Pg.AUC (1 + reason) 1).sendVerdicts h k b.src [verdictWord b false reason 0]

/-- A reservation notice (R198). -/
def notice (h : Half) (k : Nat) (final : Bool) (e src count : Nat) : List Byte :=
  leBytes 8 (keyBell k) ++ [BitVec.ofNat 8 (keyLayer k), BitVec.ofNat 8 (h.num + 2 * keyRound k + 8 * b2n final)]
    ++ leBytes 2 e ++ leBytes 2 src ++ leBytes 2 count

/-! ## Records -/

/-- A record as two words. -/
def recLo (r : List Byte) : W64 := BitVec.ofNat 64 (fieldAt r 0 8)
def recHi (r : List Byte) : W64 := BitVec.ofNat 64 (fieldAt r 8 8)

/-- The kind of a record's second word (R163). -/
def recKind (hi : W64) : Nat := bits hi.toNat 63 62

/-- The bid of a record (R163). -/
def bidOf (src : Nat) (lo hi hash : W64) : Bid where
  src := src
  handle := lo
  eff := hi.setWidth 32
  expert := bits hi.toNat 46 32
  rank := bits hi.toNat 51 48
  ext := bits hi.toNat 47 47
  hash := hash
  pos := hPos lo

/-- AUC_NOT_HOME (R175): the handle in AUC_FAULT, a wrong-selection fault; a bid is refused with TOKEN_ERROR. -/
def State.notHome (h : Half) (k : Nat) (handle : W64) (s : State) : State :=
  let s := s.setReg Reg.AUC_FAULT handle
  (s.record Pg.AUC 0x43 0).safe0 3 0x43 (keyLayer k) h

/-- AUC_CLOSE_COUNT (R169, R175): a lost-or-duplicated fault. -/
def State.closeCount (h : Half) (k : Nat) (s : State) : State :=
  (s.record Pg.AUC 0x44 0).lostDup 0x44 (keyLayer k) h

/-! ## Keepers (R167 to R169) -/

/-- The four keys of R167; `ec` skips the rank. -/
def sameKey (ec : Bool) (a b : Bid) : Bool :=
  (ec || a.rank == b.rank) && fEq a.eff b.eff && a.hash == b.hash && a.pos == b.pos

/-- The grant order of R167 and R168. -/
def bidLt (ec : Bool) (a b : Bid) : Bool :=
  if !ec && a.rank != b.rank then a.rank < b.rank
  else if !fEq a.eff b.eff then fLt b.eff a.eff
  else if a.hash != b.hash then a.hash < b.hash
  else if a.pos != b.pos then a.pos < b.pos
  else a.src < b.src

/-- A bid meets the keeper of its stall (R169). -/
def State.keepBid (h : Half) (k : Nat) (ec : Bool) (b : Bid) (s : State) : State :=
  let x := s.home h
  let kp := (tFind b.expert x.keepers).getD []
  let room := tGet zeroNat b.expert x.room
  let s := if kp.any fun c => sameKey ec b c then s.record Pg.AUC 0x47 0 else s
  if kp.length < room then
    s.modHome h fun x => { x with keepers := tPut b.expert (insertBy (bidLt ec) b kp) x.keepers }
  else
    match kp.getLast? with
    | none => s.refuseBid h k b 1
    | some w =>
      if bidLt ec b w then
        let s := s.modHome h fun x => { x with keepers := tPut b.expert (insertBy (bidLt ec) b kp.dropLast) x.keepers }
        (s.tallyAdd Pg.AUC 8 1).refuseBid h k w 1
      else s.refuseBid h k b 1

/-- A bid merges (R169): its stall may be closed for the round or without room. -/
def State.mergeBid (h : Half) (k : Nat) (b : Bid) (s : State) : State :=
  let ec := (s.selEnt (s.confAt (keyBell k)) (keyLayer k)).ec
  let s := s.tallyAdd Pg.AUC 0 1
  let s := s.modHome h fun x => { x with bids := bump b.expert 1 x.bids }
  if ((tFind k (s.home h).closedNr).getD []).contains b.expert then s.refuseBid h k b 2
  else if tGet zeroNat b.expert (s.home h).room = 0 then s.refuseBid h k b 1
  else s.keepBid h k ec b

/-- A tie note belongs to a bid: same source, local index and position (R164). -/
def noteFor (k src : Nat) (lo : W64) (r : HeldRec) : Bool :=
  r.key == k && r.src == src && recKind r.hi == 2 && bits r.hi.toNat 31 24 == hSlot lo % 256
    && bits r.hi.toNat 23 0 == hPos lo

/-- A note has one bid fewer to wait for, and leaves bid space with its last one (R164). -/
def noteUsed (r : HeldRec) (sp : List HeldRec) : List HeldRec :=
  let n := bits r.hi.toNat 37 32
  if n ≤ 1 then sp.erase r
  else sp.map fun q => if q == r then { r with hi := BitVec.ofNat 64 (setBits r.hi.toNat 37 32 (n - 1)) } else q

/-- A bid record of the round in progress is taken from bid space and merged when its note is there; a bid for an expert
that is no capped stall homed here is refused (R175). A refused bid is not merged, so that its tie note stays in bid space and
the round waits until R174 ends it (DESIGN CHOICE, notes/assumptions/19.md). -/
def State.tryBid (h : Half) (k : Nat) (r : HeldRec) (s : State) : State :=
  let b := bidOf r.src r.lo r.hi 0#64
  if !s.isHomed (keyBell k) b.expert then
    let s := s.modHome h fun x => { x with space := x.space.erase r }
    ((s.tallyAdd Pg.AUC 5 1).sendVerdicts h k b.src [verdictWord b false 4 0]).notHome h k b.handle
  else
    match (s.home h).space.find? (noteFor k r.src r.lo) with
    | none => s
    | some n =>
      let s := s.modHome h fun x => { x with space := noteUsed n (x.space.erase r) }
      s.mergeBid h k { b with hash := n.lo }

/-- Every bid of the round in progress that can merge does, in order of arrival. -/
def State.mergeAll (h : Half) (k : Nat) (s : State) : State :=
  ((s.home h).space.filter fun r => r.key == k && recKind r.hi == 0).foldl (fun s r => s.tryBid h k r) s

/-- The count of a source's bid-close of a round, where it is held. -/
def HomeHalf.closeOf (x : HomeHalf) (k src : Nat) : Option Nat :=
  (x.closes.find? fun c => c.1 == k && c.2.1 == src).map fun c => c.2.2.1

/-- A source whose records exceed its bid-close's count (R175), said once. -/
def State.checkOver (h : Half) (k src : Nat) (s : State) : State :=
  let x := s.home h
  match x.closeOf k src with
  | some n =>
    if n < tGet zeroNat src x.merged && !x.overSrc.contains src then
      (s.modHome h fun x => { x with overSrc := src :: x.overSrc }).closeCount h k
    else s
  | none => s

/-! ## The start and the end of a round -/

/-- A stall's readiness slot carries the bell and layer with the ready bit of every replica (R260). -/
def State.homeReady (s : State) (bell layer e : Nat) : Bool :=
  match tFind (e * 4 + layer % 4) s.res.ready with
  | some r => r.bell == bell % 2 ^ 16 && r.layer == layer && (dSiteList (s.dirAt bell e)).all fun i => r.bits.contains i
  | none => false

/-- The first record of a round starts it here: the stalls closed for it are decided (R180, R260). -/
def State.startRound (h : Half) (k : Nat) (s : State) : State :=
  if (tFind k (s.home h).closedNr).isSome then s
  else
    let shut := if confCloseNr (s.confAt (keyBell k))
      then (s.homedStalls (keyBell k)).filter fun e => !s.homeReady (keyBell k) (keyLayer k) e else []
    s.modHome h fun x => { x with closedNr := tPut k shut x.closedNr }

/-- A round becomes the round in progress (R169): at round 0 every stall has its capacity as room, and the counts of the
stall half begin anew. -/
def State.enterRound (h : Half) (k : Nat) (s : State) : State :=
  let s := if keyRound k = 0 then
      let room := (s.homedStalls (keyBell k)).map fun e => (e, dCap (s.dirAt (keyBell k) e))
      s.modHome h fun x => { x with
        room := room, offsets := [], placed := [], finals := [], bids := [], grants := [], refusals := [] }
    else s
  let cnt := ((s.home h).space.filter fun r => r.key == k).foldl (fun t r => bump r.src 1 t) []
  let s := s.modHome h fun x => { x with cur := some k, merged := cnt, keepers := [], overSrc := [] }
  let s := cnt.foldl (fun s p => s.checkOver h k p.1) s
  s.mergeAll h k

/-- A failed check of a home (R442): every record of the stall half that this slice returns carries TAINT, those that wait to
be sent too. -/
def State.homeBreak (check : Nat) (h : Half) (k e node : Nat) (s : State) : State :=
  let s := s.modHome h fun x => { x with
    broken := (keyBell k, keyLayer k, e) :: x.broken.filter fun b => decide (s.bellNo ≤ b.1 + 4) }
  let s := s.taintQueued h fun c => tExpert c.tag == e && tLayer c.tag == keyLayer k && c.bell == keyBell k
  s.ledgerBreak check e node (keyLayer k) h

/-- One FINAL notice to a replica of a stall, with ledger check 3 (R198, R441). -/
def State.sendFinal (h : Half) (k e : Nat) (s : State) : State :=
  let src := s.sourcesAt (keyBell k)
  let s := (dSiteList (s.dirAt (keyBell k) e)).zipIdx.foldl (fun s p =>
    let n := tGet zeroNat (e * 4 + p.2) (s.home h).placed
    let s := if n = tGet zeroNat (e * 4 + p.2) (s.home h).offsets then s
      else s.homeBreak 3 h k e (nodeAt src p.1)
    if s.deadNow p.1 then s else s.sendAuc (nodeAt src p.1) (notice h k true e 0 n)) s
  s.modHome h fun x => { x with finals := e :: x.finals }

/-- FINAL notices after a round (R198): for every stall whose room is used up, and after the last round for all. -/
def State.finals (h : Half) (k : Nat) (s : State) : State :=
  let last := (s.selEnt (s.confAt (keyBell k)) (keyLayer k)).x ≤ keyRound k
  ((s.homedStalls (keyBell k)).filter fun e =>
    !(s.home h).finals.contains e && (last || tGet zeroNat e (s.home h).room == 0)).foldl
    (fun s e => s.sendFinal h k e) s

/-- Ledger check 2 after the layer's last round (R441). -/
def State.ledger2 (h : Half) (k : Nat) (s : State) : State :=
  if keyRound k < (s.selEnt (s.confAt (keyBell k)) (keyLayer k)).x then s
  else
    let x := s.home h
    x.bids.foldl (fun s p =>
      if p.2 = tGet zeroNat p.1 x.grants + tGet zeroNat p.1 x.refusals then s
      else s.homeBreak 2 h k p.1 0) s

/-- A round has ended here: what was held of it goes. -/
def State.endRound (h : Half) (k : Nat) (s : State) : State :=
  let s := (s.finals h k).ledger2 h k
  let s := s.tallyAdd Pg.AUC 7 1
  s.modHome h fun x => { x with
    cur := none, done := some k, keepers := [], merged := [], overSrc := []
    closes := x.closes.filter fun c => c.1 != k
    space := x.space.filter fun r => r.key != k
    closedNr := tDel k x.closedNr
    timedOut := x.timedOut.filter fun t => k ≤ t + 4096 }

/-- The next round in progress, where a record of it is held; a round already ended under R174 passes. `fuel` bounds the
rounds that pass at once. -/
def State.homeAdvance (h : Half) : Nat → State → State
  | 0, s => s
  | fuel + 1, s =>
    match (s.home h).cur, s.inProgress h with
    | none, some k =>
      let s := s.enterRound h k
      if (s.home h).timedOut.contains k then State.homeAdvance h fuel (s.endRound h k) else s
    | _, _ => s

/-- Most rounds of one layer half that can pass at once. -/
def advanceFuel : Nat := 1024

/-- A round is ended by its home without grants (R174, R457): every bid is refused with TOKEN_ERROR. It counts as closed, so
that its bid-closes are held no longer. -/
def State.refuseRound (h : Half) (k : Nat) (s : State) : State :=
  let x := s.home h
  let kept := if x.cur = some k then x.keepers.flatMap (·.2) else []
  let held := (x.space.filter fun r => r.key == k && recKind r.hi == 0).map fun r => bidOf r.src r.lo r.hi 0#64
  let s := s.modHome h fun x => { x with
    timedOut := k :: x.timedOut, space := x.space.filter fun r => r.key != k, closes := x.closes.filter fun c => c.1 != k
    keepers := if x.cur = some k then [] else x.keepers }
  let s := held.foldl (fun s b => s.modHome h fun x => { x with bids := bump b.expert 1 x.bids }) s
  let s := (kept ++ held).foldl (fun s b => s.refuseBid h k b 4) s
  if x.cur = some k then (s.endRound h k).homeAdvance h advanceFuel else s

/-! ## Arrival -/

/-- A bid or tie note is held, counted where its round is in progress, and merged when it can be (R164, R169). -/
def State.holdRecord (h : Half) (k src : Nat) (lo hi : W64) (s : State) : State :=
  let s := s.startRound h k
  let s := s.modHome h fun x => { x with space := x.space ++ [⟨k, src, lo, hi⟩] }
  if (s.home h).cur = some k then
    let s := (s.modHome h fun x => { x with merged := bump src 1 x.merged }).checkOver h k src
    s.mergeAll h k
  else s.homeAdvance h advanceFuel

/-- The refusal of a bid by a source that the set does not list goes to that slice itself. -/
def State.refuseStranger (h : Half) (k : Nat) (src : Node) (lo hi : W64) (s : State) : State :=
  let b := bidOf 0 lo hi 0#64
  let head := keyLayer k + h.num * 2 ^ 8 + keyRound k * 2 ^ 9 + 2 ^ 16
  let s := s.send { dest := src, src := s.node, job := s.fld Reg.CTX_MODEL 15 0, cls := 4, prio := 3, type := 1,
                    arg := BitVec.ofNat 64 (keyBell k)
                    payload := leBytes 8 head ++ leBytes 8 (verdictWord b false 4 0).toNat }
  (s.tallyAdd Pg.AUC 5 1).notHome h k lo

/-- BID_RECEIVE (R163, R169, R175). -/
def execBidReceive (src : Node) (record : List Byte) (s : State) : Out :=
  let lo := recLo record
  let hi := recHi record
  let h := halfOf (hHalf lo)
  let k := roundKey (fullBell s.bellNo (hBell lo)) (hLayer lo) (bits hi.toNat 53 52)
  match indexOfNat src (s.sourcesAt (keyBell k)) with
  | none => .next (s.refuseStranger h k src lo hi)
  | some i =>
    let refuse := fun (s : State) =>
      (s.tallyAdd Pg.AUC 5 1).sendVerdicts h k i [verdictWord (bidOf i lo hi 0#64) false 4 0]
    if !s.roundOccurs k then .next ((refuse s).notHome h k lo)
    else if (s.home h).timedOut.contains k then .next (refuse s)
    else if (s.home h).done.any (k ≤ ·) then .next (((refuse s).setReg Reg.AUC_FAULT lo).closeCount h k)
    else .next (s.holdRecord h k i lo hi)

/-- TIE_NOTE_RECEIVE (R164, R169, R175): a note names its round by the packet it came in. A note carries no handle, so that
AUC_FAULT keeps what it has; a note of a round that cannot occur is refused as a bid of one is (DESIGN CHOICE,
notes/assumptions/19.md). -/
def execTieNoteReceive (src : Node) (half : Half) (bell layer round : Nat) (record : List Byte) (s : State) : Out :=
  let k := roundKey bell layer round
  match indexOfNat src (s.sourcesAt bell) with
  | none => .next (s.notHome half k (s.reg Reg.AUC_FAULT))
  | some i =>
    if !s.roundOccurs k then .next (s.notHome half k (s.reg Reg.AUC_FAULT))
    else if (s.home half).timedOut.contains k then .next s
    else if (s.home half).done.any (k ≤ ·) then .next (s.closeCount half k)
    else .next (s.holdRecord half k i (recLo record) (recHi record))

/-- A bell that no round this home serves can have (R63): before that of the round in progress, or of the last one closed, or
later than the next bell. -/
def State.otherBell (s : State) (h : Half) (bell : Nat) : Bool :=
  let x := s.home h
  decide (s.bellNo + 1 < bell) || ((x.cur <|> x.done).any fun k => decide (bell < keyBell k))

/-- BID_CLOSE_RECEIVE (R63, R165, R169, R174, R175): a second bid-close of a source for a round is discarded. A bid-close
carries no handle, so that AUC_FAULT keeps what it has; one of a round that cannot occur is refused as a bid of one is (DESIGN
CHOICE, notes/assumptions/19.md). -/
def execBidCloseReceive (src : Node) (record : List Byte) (s : State) : Out :=
  let hi := recHi record
  let h := halfOf (bits hi.toNat 8 8)
  let bell := (recLo record).toNat
  let k := roundKey bell (bits hi.toNat 7 0) (bits hi.toNat 10 9)
  match indexOfNat src (s.sourcesAt bell) with
  | none => .next (s.notHome h k (s.reg Reg.AUC_FAULT))
  | some i =>
    if s.otherBell h bell then .next (s.bellSkew (keyLayer k) h)
    else if !s.roundOccurs k then .next (s.notHome h k (s.reg Reg.AUC_FAULT))
    else if (s.home h).timedOut.contains k then .next s
    else if (s.home h).done.any (k ≤ ·) then .next (s.closeCount h k)
    else if ((s.home h).closeOf k i).isSome then .next (s.closeCount h k)
    else
      let s := s.startRound h k
      let s := s.modHome h fun x => { x with closes := x.closes ++ [(k, i, bits hi.toNat 55 32, s.now)] }
      .next (if (s.home h).cur = some k then s.checkOver h k i else s.homeAdvance h advanceFuel)

/-- BID_SKEW (R173): a source's bid space stays full too long. -/
def execBidSkew (src : Nat) (half : Half) (s : State) : Out :=
  match (s.home half).cur with
  | none => .next s
  | some k =>
    let s := s.setReg Reg.AUC_SKEW (BitVec.ofNat 64 (src % 2 ^ 16 + keyLayer k * 2 ^ 16 + half.num * 2 ^ 24))
    let s := s.record Pg.AUC 0x46 0
    .next (s.flood 3 (latePayload (keyBell k) (keyLayer k) half))

/-! ## The close -/

/-- The sources whose bid-closes a round waits for (R169, R266, R267). -/
def State.closers (s : State) (k : Nat) : List Nat := (s.liveSources (keyBell k)).filter fun i => !s.deadNow i

/-- The close conditions of R169. -/
def State.closeReady (s : State) (h : Half) (k : Nat) : Bool :=
  let x := s.home h
  (s.closers k).all (fun i => match x.closeOf k i with
    | some n => n ≤ tGet zeroNat i x.merged
    | none => false)
    && !x.space.any fun r => r.key == k

/-- At the close the bids of a source over its count leave every keeper; the room they held counts as granted (R175). -/
def State.dropOver (h : Half) (k : Nat) (s : State) : State :=
  let x := s.home h
  x.keepers.foldl (fun s p =>
    let out := p.2.filter fun b => x.overSrc.contains b.src
    let s := s.modHome h fun x => { x with
      keepers := tPut p.1 (p.2.filter fun b => !x.overSrc.contains b.src) x.keepers
      room := tPut p.1 (tGet zeroNat p.1 x.room - out.length) x.room }
    out.foldl (fun s b => (s.refuseBid h k b 4).setReg Reg.AUC_FAULT b.handle) s) s

/-- One grant: its site by the replica rule, its stall offset counted from 0 at each site (R169, R193). -/
structure Grant where
  bid : Bid
  site : Nat
  place : Nat
  offset : Nat

/-- Grants of one stall's keeper, in grant-key order. -/
def grantsOf (sources : List Nat) (e d : Nat) : Table Nat → List Bid → List Grant × Table Nat
  | off, [] => ([], off)
  | off, b :: t =>
    let site := replica sources e d b.src
    let place := (indexOfNat site (dSiteList d)).getD 0
    let n := tGet zeroNat (e * 4 + place) off
    let q := grantsOf sources e d (tPut (e * 4 + place) (n + 1) off) t
    (⟨b, site, place, n⟩ :: q.1, q.2)

/-- The stall's reservation notices of a round: one to each site for each source with grants there (R171, R198). -/
def State.sendNotices (h : Half) (k e : Nat) (gs : List Grant) (s : State) : State :=
  let src := s.sourcesAt (keyBell k)
  let pairs := (gs.map fun g => (g.site, g.bid.src)).eraseDups
  pairs.foldl (fun s p =>
    let mine := gs.filter fun g => g.site == p.1 && g.bid.src == p.2
    let place := ((mine.head?).map (·.place)).getD 0
    let s := s.modHome h fun x => { x with placed := bump (e * 4 + place) mine.length x.placed }
    if s.deadNow p.1 then s else s.sendAuc (nodeAt src p.1) (notice h k false e p.2 mine.length)) s

/-- One stall at the close (R169): offsets, room, notices. -/
def State.closeStall (h : Half) (k e : Nat) (s : State) : List Grant × State :=
  let kp := (tFind e (s.home h).keepers).getD []
  let (gs, off) := grantsOf (s.sourcesAt (keyBell k)) e (s.dirAt (keyBell k) e) (s.home h).offsets kp
  let s := s.modHome h fun x => { x with
    offsets := off, room := tPut e (tGet zeroNat e x.room - gs.length) x.room
    grants := bump e gs.length x.grants, keepers := tDel e x.keepers }
  (gs, ((s.tallyAdd Pg.AUC 1 gs.length).loadAdd e gs.length).sendNotices h k e gs)

/-- The verdict packets of a stall's grants, one or more to each source (R170, R300). -/
def State.sendGrants (h : Half) (k : Nat) (gs : List Grant) (s : State) : State :=
  ((gs.map fun g => g.bid.src).eraseDups).foldl (fun s src =>
    let ws := (gs.filter fun g => g.bid.src == src).map fun g => verdictWord g.bid true 0 g.offset
    (chunksOf 511 ws.length ws).foldl (fun s part => s.sendVerdicts h k src part) s) s

/-- The close of a round (R169, R171): stall by stall in ascending expert ID. -/
def State.closeRound (h : Half) (k : Nat) (s : State) : State :=
  let s := s.dropOver h k
  let s := (s.homedStalls (keyBell k)).foldl (fun s e =>
    let (gs, s) := s.closeStall h k e
    s.sendGrants h k gs) s
  (s.endRound h k).homeAdvance h advanceFuel

/-- One auctioneer flagged an error and is fenced (R457, R25): the other goes on alone. -/
def State.fenceAuctioneer (w : Nat) (s : State) : State :=
  let s := (s.record Pg.SAFE 0xD5 0).tallyAdd Pg.SAFE 7 1
  let s := s.setFld Reg.SPARE_CTRL 2 2 (1 - w % 2)
  let s := { s with safe := { s.safe with aucAlone := true, aucFenced := (w % 2) :: s.safe.aucFenced } }
  s.markUnit 5 (w % 2) 0 false

/-- AUCTION_ROUND_CLOSE (R169, R457): the round in progress of a half closes once its conditions hold. -/
def execAuctionRoundClose (half : Half) (lockstep : Lockstep) (s : State) : Out :=
  match (s.home half).cur with
  | none => .next s
  | some k =>
    if !s.closeReady half k then .next s
    else if s.safe.aucAlone then .next (s.closeRound half k)
    else
      match lockstep with
      | .agree => .next (s.closeRound half k)
      | .flagged w => .next ((s.fenceAuctioneer w).closeRound half k)
      | .silent =>
        let s := (s.record Pg.SAFE 0xD5 0).safe0 3 0xD5 (keyLayer k) half
        let s := { s with safe := { s.safe with aucSelfTest := true } }
        .next (s.refuseRound half k)

/-- The round of a half whose first bid-close came first. -/
def HomeHalf.earliest (x : HomeHalf) : Option Nat :=
  (x.closes.foldl (fun (m : Option (Nat × Nat)) c => match m with
    | none => some (c.1, c.2.2.2)
    | some b => if c.2.2.2 < b.2 then some (c.1, c.2.2.2) else some b) none).map (·.1)

/-- AUC_CLOSE_TIMEOUT (R174): the round whose first bid-close is the oldest is ended by the home. Where its close
conditions hold already, the expiry is suppressed (R87). -/
def execAucCloseTimeout (half : Half) (s : State) : Out :=
  match (s.home half).earliest with
  | none => .next s
  | some k =>
    if (s.home half).cur = some k ∧ s.closeReady half k then .next s.lateMargin
    else if (s.home half).timedOut.contains k then .next s
    else .next ((s.record Pg.AUC 0x45 0).refuseRound half k)

/-! ## Releases, readiness, dead sources -/

/-- RELEASE_RECEIVE_HOME (R179): counted as a CAP_PER_TOKEN refusal, moved from the grants of the stall half. -/
def execReleaseReceiveHome (src : Node) (record : List Byte) (s : State) : Out :=
  let lo := recLo record
  let e := bits (recHi record).toNat 14 0
  let h := halfOf (hHalf lo)
  let bell := fullBell s.bellNo (hBell lo)
  let k := roundKey bell (hLayer lo) 0
  match indexOfNat src (s.sourcesAt bell) with
  | none => .next (s.notHome h k lo)
  | some _ =>
    let s := (s.tallyAdd Pg.AUC 6 1).tallyAdd Pg.AUC 4 1
    let x := s.home h
    let same := (x.cur.getD (x.done.getD 0)) / 4 == k / 4
    .next (if same then s.modHome h fun x => { x with
        grants := tPut e (tGet zeroNat e x.grants - 1) x.grants, refusals := bump e 1 x.refusals } else s)

/-- Tag `(b1, l1)` is later than `(b2, l2)` (R260). -/
def tagLater (b1 l1 b2 l2 : Nat) : Bool :=
  let d := (b1 % 2 ^ 16 + 2 ^ 16 - b2 % 2 ^ 16) % 2 ^ 16
  (1 ≤ d && d ≤ 32768) || (d == 0 && l2 < l1)

/-- READINESS_RECORD_RECEIVE (R259, R260). -/
def execReadinessRecordReceive (record : List Byte) (s : State) : Out :=
  let bell := fieldAt record 0 8
  let layer := fieldAt record 8 1
  let e := fieldAt record 0xA 2 % 2 ^ 15
  let i := fieldAt record 0xC 2 % 2 ^ 15
  if !s.isHomed bell e then .next s
  else
    let key := e * 4 + layer % 4
    let fresh : ReadySlot := ⟨bell % 2 ^ 16, layer, [i]⟩
    let put := fun (r : ReadySlot) => { s with res := { s.res with ready := tPut key r s.res.ready } }
    match tFind key s.res.ready with
    | none => .next (put fresh)
    | some r =>
      if r.bell = bell % 2 ^ 16 ∧ r.layer = layer then .next (put { r with bits := (i :: r.bits).eraseDups })
      else if tagLater bell layer r.bell r.layer then .next (put fresh)
      else .next s

/-- A dead-slice notice at the home (R267): every held bid of the dead source is refused with TOKEN_ERROR. -/
def State.homeDead (h : Half) (src : Nat) (s : State) : State :=
  let x := s.home h
  let held := (x.space.filter fun r => r.src == src && recKind r.hi == 0).map fun r => (r.key, bidOf src r.lo r.hi 0#64)
  let kept := match x.cur with
    | some k => (x.keepers.flatMap (·.2)).filterMap fun b => if b.src = src then some (k, b) else none
    | none => []
  let s := s.modHome h fun x => { x with
    space := x.space.filter fun r => r.src != src
    keepers := x.keepers.map fun p => (p.1, p.2.filter fun b => b.src != src) }
  let s := held.foldl (fun s p => s.modHome h fun x => { x with bids := bump p.2.expert 1 x.bids }) s
  (held ++ kept).foldl (fun s p => s.refuseBid h p.1 p.2 4) s

end Sys2Proof.Machine
end

