-- ==== Sys2Proof/Machine/Det.lean ====
section
/-! DEFINITION. Digests of a layer round half, half and token records, and lock-step (R403 to R414). -/
namespace Sys2Proof.Machine

/-! ## Token digests (R403) -/

/-- Expert ID (2 B) and score (4 B). -/
def detPair (e : Nat) (x : F32) : List Byte := leBytes 2 e ++ leBytes 4 x.toNat

/-- The stage at which a token error was found, by its cause byte. -/
def errStage (cause : Nat) : Nat := if cause ≤ 4 then 1 else if cause = 5 then 2 else 3

/-- The GRANT bytes of one choice: expert, then verdict, reason and round. -/
def detGrant (c : Choice) : List Byte :=
  leBytes 2 c.expert ++ leBytes 1 (b2n (c.st == .granted) + c.reason % 8 * 2 + c.round % 4 * 16)

/-- The byte string of a stage of one token (R403). -/
def detString (t : RTok) (stage : Nat) : List Byte :=
  if t.err ∧ errStage t.errCause ≤ stage then [0xFF#8, 0xFF#8, BitVec.ofNat 8 t.errCause]
  else match stage with
    | 1 => t.cands.flatMap fun c => detPair c.1 c.2
    | 2 => t.sel.flatMap fun c => detPair c.expert c.eff
    | 3 => (t.choices.filter fun c => c.st != .empty).flatMap detGrant
    | 4 => t.weights.flatMap fun w => leBytes 4 w.toNat
    | _ => leBytes 2 (setBits t.status 11 11 0) ++ t.vec

/-- The token digest of a stage: CRC-32C with no prefix. -/
def tokDigest (t : RTok) (stage : Nat) : Nat := (crc32c (detString t stage)).toNat

/-- The stages 1 to 5. -/
def detStages : List Nat := [1, 2, 3, 4, 5]

/-- The half digest of a stage (R404). -/
def halfDigest (layer : Nat) (h : Half) (toks : List RTok) (stage : Nat) : Nat :=
  (crc64 (leBytes 1 layer ++ leBytes 1 h.num ++ leBytes 2 toks.length
    ++ toks.flatMap fun t => leBytes 4 (tokDigest t stage))).toNat

/-- A half record (R406). -/
def halfRecord (bell layer : Nat) (h : Half) (n : Nat) (ds : List Nat) : List Byte :=
  leBytes 8 bell ++ leBytes 1 layer ++ leBytes 1 h.num ++ leBytes 2 n ++ leBytes 4 0 ++ ds.flatMap (leBytes 8) ++ leBytes 8 0

/-- A token trace record (R407). -/
def tokRecord (x : Tok) (t : RTok) (layer index : Nat) (h : Half) : List Byte :=
  leBytes 8 x.hash.toNat ++ leBytes 4 (x.pos % 2 ^ 24 + layer * 2 ^ 24) ++ leBytes 2 (index + h.num * 2 ^ 13) ++ leBytes 2 0
    ++ detStages.flatMap (fun g => leBytes 4 (tokDigest t g)) ++ leBytes 28 0

/-- A 64 B record is written to a ring entry: bytes 0x08 to 0x3F, then, after their acknowledgement, bytes 0x00 to 0x07
(R406). -/
def State.putRecord64 (a : Nat) (r : List Byte) (s : State) : State :=
  s.startChain [.bytes (a + 8) (r.drop 8), .bytes a (r.take 8)]

/-- The half record goes to the ring of DET_RING (R406). -/
def State.ringRecord (r : List Byte) (s : State) : State :=
  let base := s.fld Reg.DET_RING 51 12 * 4096
  if base = 0 then s
  else
    let k := s.fld Reg.DET_STAT 31 0
    (s.putRecord64 (base + k % 2 ^ s.fld Reg.DET_RING 4 0 * 64) r).setFld Reg.DET_STAT 31 0 ((k + 1) % 2 ^ 32)

/-- The token records go to the ring of DET_TRACE (R407). -/
def State.traceRecords (h : Half) (a : AdmSet) (r : Round) (s : State) : State :=
  let base := s.fld Reg.DET_TRACE 51 12 * 4096
  if base = 0 ∨ !s.bit Reg.DET_CTL 3 then s
  else (a.toks.zip r.toks).zipIdx.foldl (fun s y =>
    let k := s.det.traceNext
    let s := { s with det := { s.det with traceNext := k + 1 } }
    s.putRecord64 (base + k % 2 ^ s.fld Reg.DET_TRACE 4 0 * 64) (tokRecord y.1.1 y.1.2 r.layer y.2 h)) s

/-! ## Lock-step (R408 to R411) -/

/-- Fields of a half record. -/
def hrBell (r : List Byte) : Nat := fieldAt r 0 8
def hrLayer (r : List Byte) : Nat := fieldAt r 8 1
def hrHalf (r : List Byte) : Nat := bits (fieldAt r 9 1) 0 0
def hrN (r : List Byte) : Nat := fieldAt r 0x0A 2
def hrDigest (r : List Byte) (stage : Nat) : Nat := fieldAt r (0x10 + 8 * (stage - 1)) 8

/-- Two records of one bell, layer and half. -/
def hrSame (a b : List Byte) : Bool := hrBell a == hrBell b && hrLayer a == hrLayer b && hrHalf a == hrHalf b

/-- Lock-step runs (R408). -/
def State.pairOn (s : State) : Bool := s.bit Reg.DET_CTL 1 && s.bit Reg.DET_CTL 0 && s.bit Reg.DET_PAIR 23

/-- DET_STAT shows the queues. -/
def State.showDet (s : State) : State :=
  (s.setFld Reg.DET_STAT 38 32 s.det.locals.length).setFld Reg.DET_STAT 46 40 s.det.partners.length

/-- A record without its counterpart (R411). -/
def State.pairLost (s : State) : State := (s.record Pg.DET 0xC2 0).tallyAdd Pg.DET 4 1

/-- A difference is latched while none is (R409). -/
def State.latchDiv (r : List Byte) (stage : Nat) (s : State) : State :=
  if s.bit Reg.DET_DIV 12 then s
  else
    let v := hrLayer r + hrHalf r * 2 ^ 8 + stage * 2 ^ 9 + 2 ^ 12 + b2n (stage == 0) * 2 ^ 13
    (s.setReg Reg.DET_DIV (BitVec.ofNat 64 v)).setReg Reg.DET_DIV_BELL (BitVec.ofNat 64 (hrBell r))

/-- The failure class of a stage (R410). -/
def detClass (stage : Nat) : Nat := if stage ≤ 3 then 3 else if stage = 4 then 4 else 5

/-- Two records of one half are compared (R409, R410). -/
def State.detCompare (a b : List Byte) (s : State) : State :=
  let s := s.tallyAdd Pg.DET 1 1
  if hrN a ≠ hrN b then
    (((s.record Pg.DET 0xC1 0).tallyAdd Pg.DET 3 1).latchDiv a 0).raise Pg.DET
  else match detStages.find? fun g => hrDigest a g != hrDigest b g with
    | none => s
    | some g =>
      let s := (((s.record Pg.DET 0xC0 0).tallyAdd Pg.DET 2 1).latchDiv a g).raise Pg.DET
      if !s.bit Reg.DET_CTL 2 then s
      else
        let h := halfOf (hrHalf a)
        (s.suspect (hrBell a) (hrLayer a) h 0 (hrN a - 1)).safeReport (detClass g) 0xC0 (hrLayer a) h 0 0 true

/-- Records that a queue holds (R409). -/
def detQueue : Nat := 64

/-- A local record is queued and compared when its partner's is there (R409, R411). -/
def State.queueLocal (r : List Byte) (s : State) : State :=
  match s.det.partners.find? (hrSame r) with
  | some p => (({ s with det := { s.det with partners := s.det.partners.erase p } } : State).detCompare r p).showDet
  | none =>
    let full := decide (detQueue ≤ s.det.locals.length)
    let keep := if full then s.det.locals.drop 1 else s.det.locals
    let s := { s with det := { s.det with locals := keep ++ [(r, s.now)] } }
    (if full then s.pairLost else s).showDet

/-- A half record leaves for the partner as DET_DIGEST (R409). -/
def State.sendHalf (r : List Byte) (s : State) : State :=
  if !s.pairOn then s
  else (s.send { dest := s.fld Reg.DET_PAIR 22 0, src := s.node, cls := 0, type := 0x41, payload := r }).queueLocal r

/-- The record of a half that ended: DET_LAST, the ring, the trace, the partner (R405 to R409). -/
def State.digestHalf (h : Half) (a : AdmSet) (r : Round) (s : State) : State :=
  let ds := detStages.map (halfDigest r.layer h r.toks)
  let rec_ := halfRecord a.bell r.layer h r.toks.length ds
  let s := s.setReg Reg.DET_LAST_ID (BitVec.ofNat 64 (r.layer + h.num * 2 ^ 8 + a.bell % 2 ^ 48 * 2 ^ 16))
  let s := (ds.zipIdx).foldl (fun s y => s.setReg (Reg.DET_LAST_S1 + 8 * y.2) (BitVec.ofNat 64 y.1)) s
  let s := (s.ringRecord rec_).tallyAdd Pg.DET 0 1
  let s := s.traceRecords h a r
  let s := { s with det := { s.det with formed := tPut h.num (a.bell * 256 + r.layer) s.det.formed } }
  s.sendHalf rec_

/-- HALF_DIGEST_DONE (R405): the digests of the half's earliest ended round are complete. While DIGEST is 0 none is
formed. -/
def execHalfDigestDone (half : Half) (s : State) : Out :=
  .next (match s.det.due.find? fun d => d.1 == half with
    | none => s
    | some d =>
      let s := { s with det := { s.det with due := s.det.due.erase d } }
      if s.bit Reg.DET_CTL 0 then s.digestHalf half d.2.1 d.2.2 else s)

/-- DET_DIGEST_RECEIVE (R409, R411): a partner record is compared, queued, or discarded when its counterpart was
dropped. -/
def execDetDigestReceive (record : List Byte) (s : State) : Out :=
  .next (if !s.pairOn then s
    else match s.det.locals.find? fun l => hrSame l.1 record with
      | some l => (({ s with det := { s.det with locals := s.det.locals.erase l } } : State).detCompare l.1 record).showDet
      | none =>
        let formed := match tFind (hrHalf record) s.det.formed with
          | some k => decide (hrBell record * 256 + hrLayer record ≤ k)
          | none => false
        if formed then s
        else
          let full := decide (detQueue ≤ s.det.partners.length)
          let keep := if full then s.det.partners.drop 1 else s.det.partners
          let s := { s with det := { s.det with partners := keep ++ [record] } }
          (if full then s.pairLost else s).showDet)

/-- DET_PAIR_TIMEOUT (R411): the match timer of the oldest local record expires, TIMEOUT_US after its writing. -/
def execDetPairTimeout (s : State) : Out :=
  .next (match s.det.locals with
    | [] => s.lateMargin
    | x :: t =>
      if s.now < x.2 + 1000 * s.fld Reg.DET_PAIR 41 32 then s
      else (({ s with det := { s.det with locals := t } } : State).pairLost).showDet)

/-- A write of DET_DIV_CLR (R413). -/
def State.detDivClr (v : W64) (s : State) : State :=
  s.gated Reg.DET_DIV_CLR v fun s =>
    if bits v.toNat 0 0 = 1 then (s.setReg Reg.DET_DIV 0#64).setReg Reg.DET_DIV_BELL 0#64 else s

/-- The command of that write. -/
def execDetDivClr (v : W64) (s : State) : Out := .next (s.detDivClr v)

/-- A pair that changes at a bell open leaves no queued record, and none is recorded as lost (R408). -/
def State.detAtOpen (s : State) : State :=
  if bits (s.reg Reg.DET_PAIR).toNat 23 0 = bits (s.stagedReg Reg.DET_PAIR).toNat 23 0 then s
  else ({ s with det := { s.det with locals := [], partners := [] } } : State).showDet

/-- Whether a staging of DET_PAIR is refused (R408). -/
def State.detPairBad (s : State) (v : W64) : Bool :=
  bits v.toNat 23 23 == 1 && (bits v.toNat 22 0 == s.node || nodeDomain (bits v.toNat 22 0) != nodeDomain s.node)

end Sys2Proof.Machine
end

