-- ==== Sys2Proof/Machine/Places.lean ====
section
/-! DEFINITION. Returns and the ordered combine at the source (R222 to R241): places of the return area, return chunks,
local copies, the return timer, the ordered sum and its checker, and the end of a round. -/
namespace Sys2Proof.Machine

/-! ## Ranks and places -/

/-- The rank that dispatch and combine use for the choice at index `j` (R158, R159): its own in token-choice, its number
among the granted ones in expert-choice. -/
def rankOf (ec : Bool) (cs : List Choice) (j : Nat) : Nat :=
  if ec then ((cs.take j).filter fun c => c.st == .granted).length else j

/-- The granted choices of a token with their ranks. -/
def grantedRanks (ec : Bool) (cs : List Choice) : List (Nat × Choice) :=
  (cs.zipIdx.filter fun p => p.1.st == .granted).map fun p => (rankOf ec cs p.2, p.1)

/-- Places of a token: h_s + g (R222). -/
def RoundView.places (v : RoundView) : Nat := v.sel.sharedIds.length + v.sel.g

/-- B_ret of the round's layer. -/
def RoundView.bret (v : RoundView) : Nat := confBret v.conf v.rnd.layer

/-- Bytes of the weight list (R222). -/
def RoundView.listBytes (v : RoundView) : Nat := ceilDiv (v.set.toks.length * v.places * 4) 4096 * 4096

/-- Bytes of the whole area (R222). -/
def RoundView.areaBytes (v : RoundView) : Nat := v.listBytes + v.set.toks.length * v.places * v.bret

/-- The offset of a place (R222). -/
def RoundView.placeOff (v : RoundView) (i q : Nat) : Nat := v.listBytes + (i * v.places + q) * v.bret

/-- Writes into a half's return area (R222, R224). -/
def State.retWrite (v : RoundView) (h : Half) (off : Nat) (d : List Byte) (s : State) : State :=
  s.areaWrite v.rnd.areaFrames (retMemBase v.conf h v.rnd.areaFrames.length) (areaFuel d.length) off d

/-- Reads a half's return area. -/
def State.retRead (s : State) (v : RoundView) (h : Half) (off n : Nat) : List Byte :=
  s.areaRead v.rnd.areaFrames (retMemBase v.conf h v.rnd.areaFrames.length) (areaFuel n) off n

/-- Return bytes placed in memory count, and are slot memory bytes beyond W (R224, R240). -/
def State.retCount (v : RoundView) (h : Half) (off n : Nat) (s : State) : State :=
  let sram := v.rnd.areaFrames.length * frameBytes
  if off + n ≤ sram then s
  else (s.tallyAdd Pg.CMB 7 (units64 (off + n - max off sram))).modRound h fun r => { r with beyondW := true }

/-! ## Codes of the CMB page -/

/-- A CMB code (R240, R241); CMB_FAULT_HANDLE keeps the latest token's handle where the code concerns none. -/
def State.cmbFault (code : Nat) (handle : Option W64) (layer place : Nat) (h : Half) (s : State) : State :=
  let s := match handle with
    | some x => s.setReg Reg.CMB_FAULT_HANDLE x
    | none => s
  let s := s.setReg Reg.CMB_FAULT_INFO (BitVec.ofNat 64 (code + layer % 256 * 2 ^ 8 + place % 32 * 2 ^ 16 + h.num * 2 ^ 21))
  s.recordF Pg.CMB code Reg.CMB_FAULT_INFO

/-- The handle of the token at index `i`; none for an index beyond the round's tokens. -/
def State.tokHandle (s : State) (v : RoundView) (i : Nat) : Option W64 :=
  (v.set.toks[i]?).map fun t => s.handleFor v.set t v.rnd.layer 0

/-! ## Filling a place -/

/-- Combining table entries in use (R238, R240): the ready tokens of both halves, at most 512. -/
def State.cmbInUse (s : State) : Nat :=
  let n := fun (h : Half) => (s.half h).cur.elim 0 fun r => r.readyQ.length
  min 512 (n .calico + n .muslin)

/-- CMB_TABLE PEAK follows the entries in use (R240). -/
def State.cmbPeak (s : State) : State := s.setFld Reg.CMB_TABLE 25 16 (max (s.fld Reg.CMB_TABLE 25 16) s.cmbInUse)

/-- Tokens enter the combining table, in order (R238). -/
def State.enterReady (h : Half) (is : List Nat) (s : State) : State :=
  (s.modRound h fun r => { r with readyQ := r.readyQ ++ is }).cmbPeak

/-- T_i falls by one; at 0 the token is ready (R228, R229). -/
def State.countPlace (h : Half) (i q : Nat) (s : State) : State :=
  let s := s.modTok h i fun t => { t with filled := q :: t.filled, t := t.t - 1 }
  match (s.half h).cur.bind fun r => r.toks[i]? with
  | some t =>
    if t.t ≤ 0 && !t.ready then
      (s.modTok h i fun t => { t with ready := true }).enterReady h [i]
    else s
  | none => s

/-- The weight check of R236. -/
def State.weightCheck (v : RoundView) (h : Half) (i q : Nat) (w : F32) (x : RTok) (s : State) : State :=
  if x.weights.getD q 0#32 = w then s
  else (((s.taintTok h i).cmbFault 0x64 (s.tokHandle v i) v.rnd.layer q h)).safe0 4 0x64 v.rnd.layer h

/-- A return with TAINT taints its token; said once per token (R225, R236). -/
def State.taintIn (v : RoundView) (h : Half) (i q : Nat) (x : RTok) (s : State) : State :=
  let s := s.modTok h i fun t => { t with taint := true, taintIn := true }
  if x.taintIn then s else s.cmbFault 0x69 (s.tokHandle v i) v.rnd.layer q h

/-- The auction home of the choice that fills a place, as a source index; this slice's own for a place computed here
(R239). -/
def State.placeHome (s : State) (v : RoundView) (x : RTok) (q : Nat) : Nat :=
  match (grantedRanks v.sel.ec x.choices).find? fun p => v.sel.sharedIds.length + p.1 == q && !p.2.isOpen with
  | some p => dHome (s.dirAt v.set.bell p.2.expert)
  | none => (s.selfIdx v.sources).getD 0

/-- A contribution for a token whose record has been issued counts as withheld (R235, R239). -/
def State.withholdLate (v : RoundView) (h : Half) (x : RTok) (q : Nat) (s : State) : State :=
  let k := s.placeHome v x q
  s.modRound h fun r => { r with
    withheldIn := r.withheldIn + 1, withheldBy := tPut k (tGet zeroNat k r.withheldBy + 1) r.withheldBy }

/-- A contribution that comes for a token given up is received for the conservation ledger and not combined (R235). -/
def State.fillLate (v : RoundView) (h : Half) (i q : Nat) (x : RTok) (s : State) : State :=
  let s := s.modTok h i fun t => { t with filled := q :: t.filled }
  if x.issued then s.withholdLate v h x q else s

/-- A record is discarded when it comes to its place: it is none that the ledger counts as returned (R103, R441). -/
def State.dropRecord (h : Half) (site : Option Nat) (s : State) : State :=
  s.modRound h fun r => match site with
    | some k => { r with discarded := tPut k (tGet zeroNat k r.discarded + 1) r.discarded }
    | none => { r with localCopies := r.localCopies - 1 }

/-- A record that passed its handle check comes to its place (R103, R225 to R228, R235, R236): a record for a place that is
filled changes nothing; one of a FAILED entry, or of a token given up, is counted only. -/
def State.fillPassed (v : RoundView) (h : Half) (i q : Nat) (t : Tok) (x : RTok) (rec_ : List Byte) (taint : Bool) (s : State) :
    State :=
  let flags := fieldAt rec_ 0xC 1
  if x.filled.contains q then s
  else if x.t ≤ 0 then s.fillLate v h i q x
  else if x.failed then s.countPlace h i q
  else
    let s := s.weightCheck v h i q (BitVec.ofNat 32 (fieldAt rec_ 8 4)) x
    let s := if taint || bits flags 0 0 == 1 then s.taintIn v h i q x else s
    let s := if bits flags 1 1 = 1 then s.failSeq 1 v.rnd.layer t.seq else s
    s.countPlace h i q

/-- A record comes to its place, from a site or by a local copy (R103, R228): a record of another sequence is not
combined. -/
def State.fillPlace (v : RoundView) (h : Half) (i q : Nat) (site : Option Nat) (rec_ : List Byte) (taint : Bool) (s : State) :
    State :=
  match v.set.toks[i]?, (s.half h).cur.bind fun r => r.toks[i]? with
  | some t, some x =>
    let handle := BitVec.ofNat 64 (fieldAt rec_ 0 8)
    match s.handleVerdict handle with
    | .stale => (s.discardHandle handle true v.rnd.layer h).dropRecord h site
    | .bad => (s.discardHandle handle false v.rnd.layer h).dropRecord h site
    | .pass =>
      if hSlot handle % 256 ≠ t.seq ∨ hPos handle ≠ t.pos then
        ((s.cmbFault 0x63 (s.tokHandle v i) v.rnd.layer q h).safe0 1 0x63 v.rnd.layer h).dropRecord h site
      else s.fillPassed v h i q t x rec_ taint
  | _, _ => s

/-! ## Local copies (R226) -/

/-- A local output record is copied to its place. -/
def State.localCopy (h : Half) (i q : Nat) (rec_ : List Byte) (taint : Bool) (s : State) : State :=
  match s.view h with
  | none => s
  | some v =>
    let off := v.placeOff i q
    let s := (s.retWrite v h off rec_).retCount v h off rec_.length
    let s := s.modRound h fun r => { r with localCopies := r.localCopies + 1 }
    s.fillPlace v h i q none rec_ taint

/-! ## Return chunks (R227, R228) -/

/-- The place that a return tag names: the rank's, where the token's grant at that rank is of the tag's expert at the
sending site. -/
def returnPlace (v : RoundView) (site : Nat) (tag : W64) : Option Nat :=
  match v.rnd.toks[tToken tag]? with
  | none => none
  | some t =>
    ((grantedRanks v.sel.ec t.choices).find? fun p =>
      p.1 == tRank tag && p.2.expert == tExpert tag && !p.2.isOpen && p.2.site == site && p.2.offset == tOffset tag).map
      fun p => v.sel.sharedIds.length + p.1

/-- The mark in a place's part mask that one of its chunks failed its CRC twice (R208). -/
def taintMark : Nat := 2 ^ 16

/-- A return barrow is complete (R227): the cross-check of R210, and its acknowledgement to the site. -/
def State.returnComplete (h : Half) (site : Nat) (tag : W64) (s : State) : State :=
  match s.view h with
  | none => s
  | some v =>
    match tFind site v.rnd.hdrs with
    | none => s
    | some hd =>
      if (tFind site v.rnd.z).getD 0 ≠ 0 then s
      else
        let node := nodeAt v.sources site
        let bytes := tGet zeroNat site v.rnd.zPreset + 64
        let bad := !hd.skip && (hd.records != tGet zeroNat site v.rnd.recsIn || hd.bytes != bytes
          || hd.chunks != tGet zeroNat site v.rnd.chunksIn)
        let s := if bad then
            let s := s.modRound h fun r => { r with toks := r.toks.map fun t =>
              if (t.choices.any fun c => c.st == .granted && !c.isOpen && c.site == site) then { t with taint := true } else t }
            s.chunkFault 0x58 2 tag node
          else s
        if node = s.node then s else s.sendAck node (barrowAck v.set.bell v.rnd.layer h true)

/-- The header of a return barrow (R68 to R70, R212). -/
def State.returnHeader (v : RoundView) (h : Half) (site : Nat) (hd : BarrowHdr) (s : State) : State :=
  let s := s.modRound h fun r => { r with
    hdrs := tPut site hd r.hdrs, chunksIn := tPut site (tGet zeroNat site r.chunksIn + 1) r.chunksIn
    retReady := max r.retReady hd.ready, retWait := max r.retWait hd.wait, held := r.held || hd.held }
  let s := if hd.held then s.markLate h else s
  s.returnComplete h site (headerTag h v.rnd.layer true)

/-- A chunk of a return record passes, or counts as arrived with its record tainted (R208, R228). -/
def State.returnPart (v : RoundView) (h : Half) (site q : Nat) (tag : W64) (bytes : List Byte) (ok : Bool) (s : State) : State :=
  match v.rnd.toks[tToken tag]? with
  | none => s
  | some x =>
    let i := tToken tag
    let off := v.placeOff i q + 4096 * tPart tag
    let s := s.retWrite v h off bytes
    let s := s.retCount v h off bytes.length
    let mask := tGet zeroNat q x.parts
    let mask := setBits mask (tPart tag) (tPart tag) 1
    let mask := if ok then mask else setBits mask 16 16 1
    let s := s.modTok h i fun t => { t with parts := tPut q mask t.parts }
    let n := min 4096 (v.bret - 4096 * tPart tag)
    let s := s.modRound h fun r => { r with
      z := tPut site ((tFind site r.z).getD 0 - (n : Int)) r.z
      chunksIn := tPut site (tGet zeroNat site r.chunksIn + 1) r.chunksIn }
    let whole := mask % taintMark = 2 ^ partsOf v.bret - 1
    let s := if whole then
        let s := s.modRound h fun r => { r with recsIn := tPut site (tGet zeroNat site r.recsIn + 1) r.recsIn }
        s.fillPlace v h i q (some site) (s.retRead v h (v.placeOff i q) 16) (taintMark ≤ mask)
      else s
    s.returnComplete h site tag

/-- A return tag that R206 rejects at the source (R227): a reserved bit, a part beyond its record, or an offset at or above the
capacity of a capped stall. -/
def State.returnTagBad (s : State) (v : RoundView) (tag : W64) : Bool :=
  let d := s.dirAt v.set.bell (tExpert tag)
  tagBad tag || (!tHdr tag && (v.bret ≤ 4096 * tPart tag
    || (tExpert tag < s.experts && !dOpen d && dCap d ≤ tOffset tag)))

/-- The time from a return chunk's first failure to its second arrival is retry time (R81, R208). -/
def State.returnRetry (h : Half) (t : Option Nat) (s : State) : State :=
  match t with
  | some t => s.modRound h fun r => { r with retry := r.retry + 2 * (s.now - t) }
  | none => s

/-- A return chunk that passed, or counts as arrived, is taken in (R208). -/
def State.returnTake (v : RoundView) (h : Half) (site : Nat) (q : Option Nat) (tag : W64) (bytes : List Byte) (ok : Bool)
    (s : State) : State :=
  match tHdr tag, q with
  | true, _ =>
    if ok && fieldAt bytes 0 8 != v.set.bell then s.bellSkew v.rnd.layer h
    else
      let hd : BarrowHdr := if ok then parseHeader bytes else ⟨false, 0, 0, 0, 0, 0, true⟩
      s.returnHeader v h site hd
  | false, some q => s.returnPart v h site q tag bytes ok
  | false, none => s

/-- A return chunk meets the running round of its half and layer. -/
def State.returnLive (v : RoundView) (h : Half) (src : Node) (tag : W64) (bytes : List Byte) (crc : BitVec 32) (s : State) :
    State :=
  match indexOfNat src v.sources with
  | none => s.chunkFault 0x5F 1 tag src
  | some site =>
    let hdr := tHdr tag
    let q := returnPlace v site tag
    let n := if hdr then 64 else min 4096 (v.bret - 4096 * tPart tag)
    if s.returnTagBad v tag || bytes.length != n then s.chunkFault 0x5F 1 tag src
    else if !hdr && q.isNone then
      (s.cmbFault 0x63 (s.tokHandle v (tToken tag)) v.rnd.layer 0 h).safe0 1 0x63 v.rnd.layer h
    else
      let ok := chunkCrc v.set.bell tag src s.node bytes == crc
      let key := (site, tagKey tag)
      let first := (v.rnd.crcFail.find? fun p => p.1 == key).map (·.2)
      if !ok && first.isNone then
        (s.crcFault false tag src).modRound h fun r => { r with crcFail := (key, s.now) :: r.crcFail }
      else
        let dup := if hdr then (tFind site v.rnd.hdrs).isSome
          else bits ((v.rnd.toks[tToken tag]?).elim 0 fun t => tGet zeroNat (q.getD 0) t.parts) (tPart tag) (tPart tag) == 1
        if dup then s.chunkFault 0x55 2 tag src
        else
          let s := (if ok then s else s.crcFault true tag src).returnRetry h first
          s.returnTake v h site q tag bytes ok

/-- CMB_RETURN_STALE (R230): a chunk of a round whose return timer has expired; its record counts as returned and not
combined. A header concerns no token. -/
def State.returnStale (v : RoundView) (h : Half) (tag : W64) (s : State) : State :=
  let s := if tHdr tag then s.cmbFault 0x62 none v.rnd.layer 0 h
    else s.cmbFault 0x62 (s.tokHandle v (tToken tag)) v.rnd.layer (v.sel.sharedIds.length + tRank tag) h
  s.modRound h fun r => { r with staleIn := r.staleIn + 1 }

/-- CMB_RET_TAG for a chunk that no running round takes (R228). -/
def State.returnNowhere (h : Half) (tag : W64) (s : State) : State :=
  (s.cmbFault 0x63 none (tLayer tag) 0 h).safe0 1 0x63 (tLayer tag) h

/-- The running round of a half takes return chunks of a layer: its places are known (R227). -/
def RoundView.takesReturns (v : RoundView) (l : Nat) : Bool := v.rnd.layer == l && v.rnd.folded

/-- The open return barrow of a round that is over that a chunk belongs to; the bell that its CRC covers tells it from the
running round of the same layer (R208). -/
def State.openReturn (s : State) (h : Half) (src : Node) (tag : W64) (bytes : List Byte) (crc : BitVec 32) : Option OpenReturn :=
  let os := (s.half h).openReturns.filter fun o => o.node == src && o.layer == tLayer tag && (o.lost || tHdr tag)
  match os.find? fun o => chunkCrc o.bell tag src s.node bytes == crc with
  | some o => some o
  | none => if (s.view h).any fun v => v.takesReturns (tLayer tag) then none else os.head?

/-- An open return barrow changes, or is over. -/
def State.setOpenReturn (h : Half) (o : OpenReturn) (n : Option OpenReturn) (s : State) : State :=
  s.setHalf h { s.half h with openReturns := n.toList ++ (s.half h).openReturns.erase o }

/-- The header of a return barrow comes after the LAYER_OUT of its round (R208, R210, R212, R227, R437). -/
def State.lateHeader (h : Half) (o : OpenReturn) (tag : W64) (bytes : List Byte) (crc : BitVec 32) (s : State) : State :=
  let ok := chunkCrc o.bell tag o.node s.node bytes == crc
  if tagBad tag || bytes.length != 64 then s.chunkFault 0x5F 1 tag o.node
  else if !ok && !o.failed then (s.crcFault false tag o.node).setOpenReturn h o (some { o with failed := true })
  else
    let s := if ok then s else s.crcFault true tag o.node
    if ok && fieldAt bytes 0 8 != o.bell then s.bellSkew o.layer h
    else
      let hd := parseHeader bytes
      let bad := ok && (hd.records != o.records || hd.bytes != o.bytes + 64 || hd.chunks != o.chunks + 1)
      let s := s.setOpenReturn h o none
      let s := if bad then ((s.suspect o.bell o.layer h 0 (o.toks - 1)).dispFault 0x58 tag o.node).safeReport 2 0x58 o.layer h 0 0 true
        else s
      if o.node = s.node then s else s.sendAck o.node (barrowAck o.bell o.layer h true)

/-- A stale chunk of the round that ended last counts as returned and not combined there too (R230). -/
def State.lastStale (h : Half) (bell layer : Nat) (s : State) : State :=
  match (s.half h).last with
  | some (a, r) =>
    if a.bell = bell ∧ r.layer = layer then s.setHalf h { s.half h with last := some (a, { r with staleIn := r.staleIn + 1 }) } else s
  | none => s

/-- CMB_RETURN_STALE of a chunk whose round is over (R230); the selection table tells the place that its rank fills. -/
def State.staleChunk (h : Half) (bell layer : Nat) (handles : List W64) (tag : W64) (s : State) : State :=
  let hs := (s.selEnt (s.confAt bell) layer).sharedIds.length
  let s := if tHdr tag then s.cmbFault 0x62 none layer 0 h else s.cmbFault 0x62 handles[tToken tag]? layer (hs + tRank tag) h
  s.lastStale h bell layer

/-- A chunk of a return barrow whose round is over: stale after the return timer has expired (R230), else its header. -/
def State.returnOpen (h : Half) (o : OpenReturn) (tag : W64) (bytes : List Byte) (crc : BitVec 32) (s : State) : State :=
  if o.lost then
    let s := s.staleChunk h o.bell o.layer o.handles tag
    s.setOpenReturn h o (if tHdr tag then none else some { o with stale := o.stale + 1 })
  else s.lateHeader h o tag bytes crc

/-- A chunk that neither a running round nor an open return barrow takes: one that the last round took before comes a second
time (R209); any other names no grant (R228). -/
def State.returnAgain (src : Node) (tag : W64) (bytes : List Byte) (crc : BitVec 32) (h : Half) (s : State) : State :=
  match (s.half h).last with
  | none => s.returnNowhere h tag
  | some (a, r) =>
    if r.layer ≠ tLayer tag then s.returnNowhere h tag
    else if r.returnLost then s.staleChunk h a.bell r.layer (a.toks.map fun t => s.handleFor a t r.layer 0) tag
    else
      let c := s.confAt a.bell
      let v : RoundView := ⟨a, r, c, s.selEnt c r.layer, s.sourcesAt a.bell⟩
      match indexOfNat src v.sources with
      | none => s.chunkFault 0x5F 1 tag src
      | some site =>
        let took := if tHdr tag then tGet zeroNat site r.zPreset != 0 else (returnPlace v site tag).isSome
        if !took then s.returnNowhere h tag
        else if chunkCrc a.bell tag src s.node bytes != crc then s.crcFault false tag src
        else s.chunkFault 0x55 2 tag src

/-- A return chunk arrives at the source (R208, R209, R227, R228, R230). -/
def State.returnChunk (src : Node) (tag : W64) (bytes : List Byte) (crc : BitVec 32) (s : State) : State :=
  let h := halfOf (tHalf tag)
  let s := (s.tallyAdd Pg.DISP 1 1).lifeAdd 8 (units256 bytes.length)
  match s.openReturn h src tag bytes crc, s.view h with
  | some o, _ => s.returnOpen h o tag bytes crc
  | none, some v =>
    if v.takesReturns (tLayer tag) then
      (if v.rnd.returnLost then s.returnStale v h tag else s.returnLive v h src tag bytes crc)
    else s.returnAgain src tag bytes crc h
  | none, none => s.returnAgain src tag bytes crc h

/-- A packet that was delivered to this slice and that a unit now takes. -/
def State.takeTok (src : Node) (tag : W64) (s : State) : Option Packet × State :=
  match s.route.inbox.find? fun p => p.cls == 5 && p.src == src && p.arg == tag with
  | some p => (some p, { s with route := { s.route with inbox := s.route.inbox.erase p } })
  | none => (none, s)

/-- RETURN_CHUNK_RECEIVE (R208 to R210, R227, R228, R230). -/
def execReturnChunkReceive (src : Node) (tag : W64) (bytes : List Byte) (crc : BitVec 32) (s : State) : Out :=
  .next ((s.takeTok src tag).2.returnChunk src tag bytes crc)

/-! ## The forward barrows' acknowledgement -/

/-- Ledger check 4 when the dispatch is acknowledged (R441): capped grants held equal forward records shipped. -/
def State.ledger4 (h : Half) (r : Round) (s : State) : State :=
  let held := sumNat (r.toks.map fun t => (t.choices.filter fun c => c.st == .granted && !c.isOpen).length)
  if held = sumNat (r.shipped.map (·.2)) then s else (s.taintHalf h).ledgerBreak 4 0 0 r.layer h

/-- A forward barrow is acknowledged end to end, or ended (R68, R267, R305); with the last one the forward interval
ends. -/
def State.fwdAcked (h : Half) (site : Nat) (s : State) : State :=
  match (s.half h).cur with
  | none => s
  | some r =>
    if !r.unacked.contains site then s
    else
      let left := r.unacked.filter (· != site)
      let s := s.modRound h fun r => { r with unacked := left, fwdEnd := if left.isEmpty then some s.now else r.fwdEnd }
      let s := { s with tok := { s.tok with kept := s.tok.kept.filter fun c =>
        !(c.dest == nodeAt (s.sourcesAt (s.setBell h)) site && tDir c.tag == 0 && tHalf c.tag == h.num) } }
      if left.isEmpty then s.ledger4 h r else s

/-! ## The return timer -/

/-- The unfilled places of a token, by compute site; an open-stall or shared place counts to no site. -/
def unfilledSites (v : RoundView) (t : RTok) : List Nat :=
  (grantedRanks v.sel.ec t.choices).filterMap fun p =>
    if t.filled.contains (v.sel.sharedIds.length + p.1) || p.2.isOpen then none else some p.2.site

/-- The lowest place of a token that is not filled (R240). -/
def firstUnfilled (v : RoundView) (t : RTok) : Nat :=
  let qs := List.range v.sel.sharedIds.length
    ++ (grantedRanks v.sel.ec t.choices).map fun p => v.sel.sharedIds.length + p.1
  minNat (qs.filter fun q => !t.filled.contains q)

/-- A token whose places will not be filled any more becomes ready, tainted (R230, R267). -/
def State.giveUp (h : Half) (i : Nat) (s : State) : State :=
  let s := s.modTok h i fun t => { t with taint := true, t := 0 }
  match (s.half h).cur.bind fun r => r.toks[i]? with
  | some t =>
    if t.ready then s
    else (s.modTok h i fun t => { t with ready := true }).enterReady h [i]
  | none => s

/-- RETURN_TIMEOUT (R230): the timer of a half whose forward part has ended expires with places unfilled. -/
def execReturnTimeout (half : Half) (s : State) : Out :=
  match s.view half with
  | none => .next s
  | some v =>
    let lost := (v.rnd.toks.zipIdx.filter fun p => 0 < p.1.t).map (·.2)
    if v.rnd.fwdEnd.isNone || v.rnd.returnLost || !v.rnd.gated then .next s
    else if lost.isEmpty then .next s.lateMargin
    else
      let i := lost.headD 0
      let q := (v.rnd.toks[i]?).elim 0 (firstUnfilled v)
      let s := (s.cmbFault 0x61 (s.tokHandle v i) v.rnd.layer q half).lostDup 0x61 v.rnd.layer half
      let sites := v.rnd.toks.flatMap (unfilledSites v)
      let s := s.modRound half fun r => { r with
        returnLost := true
        timedPlaces := sites.foldl (fun t k => tPut k (tGet zeroNat k t + 1) t) r.timedPlaces }
      .next (lost.foldl (fun s i => s.giveUp half i) s)

/-! ## The ordered sum (R231 to R233) -/

/-- The elements of a contribution in the layer's output format. -/
def outElems (fp32 : Bool) (b : List Byte) : List F32 :=
  if fp32 then (chunksOf 4 b.length b).map fun x => BitVec.ofNat 32 (leNat x)
  else (chunksOf 2 b.length b).map fun x => bf16Widen (BitVec.ofNat 16 (leNat x))

/-- One contribution added, element by element. -/
def addContrib (w : F32) : List F32 → List F32 → List F32
  | a :: as, y :: ys => fFma w y a :: addContrib w as ys
  | as, [] => as
  | [], _ => []

/-- The ordered sum of R231 over the filled places in ascending order. -/
def orderedSum (d : Nat) (cs : List (F32 × List F32)) : List F32 :=
  cs.foldl (fun acc c => addContrib c.1 acc c.2) (List.replicate d 0#32)

/-- An output element in the layer's format (R232). -/
def outBytes (fp32 : Bool) (x : F32) : List Byte :=
  if fp32 then leBytes 4 (if fIsNaN x then f32NaN else x).toNat else leBytes 2 (toBf16 x).toNat

/-- A token's output vector, whether it is non-finite (R233), and its contributions. -/
def State.combineTok (s : State) (v : RoundView) (h : Half) (i : Nat) (x : RTok) : List Byte × Bool × Nat :=
  let d := confD v.conf
  let fp32 := confOutFp32 v.conf v.rnd.layer
  let qs := sortBy (fun a b => decide (a < b)) x.filled
  let cs := qs.map fun q =>
    (x.weights.getD q 0#32, outElems fp32 (s.retRead v h (v.placeOff i q + 16) (d * confOutBytes v.conf v.rnd.layer)))
  let out := orderedSum d cs
  let bf := fun (y : F32) => if fp32 then fFinite y else fFinite (bf16Widen (toBf16 y))
  (out.flatMap (outBytes fp32), (cs.any fun c => c.2.any fun y => !fFinite y) || out.any (fun y => !bf y), cs.length)

/-- What the combine checker found (R239): its code and the class of the fault; none for a clean token. -/
def checkCode : CombineFault → Option (Nat × Nat)
  | .none => none
  | .weight => some (0x65, 4)
  | .order => some (0x65, 6)
  | .element => some (0x66, 5)
  | .place => some (0x67, 6)

/-- Gather buffers of a half whose tokens have all been combined or withheld are freed by CMB (R229). -/
def State.freeGathers (h : Half) (s : State) : State :=
  match (s.half h).cur with
  | none => s
  | some r =>
    (s.gathers.filter fun p => p.2.half == h && p.2.recs.all fun g =>
      match r.toks[g.token]? with
      | some t => t.issued
      | none => true).foldl (fun s p => ({ s with gathers := tDel p.1 s.gathers } : State).freeBuf p.1 5) s

/-- The record of a token is issued: contributions counted as combined or withheld, for this source and each home (R234, R235,
R239). -/
def State.issueTok (v : RoundView) (h : Half) (i : Nat) (x : RTok) (vec : List Byte) (bad : Bool) (n : Nat) (s : State) : State :=
  let hold := x.withheld
  let status := x.statusWord v.rnd.late bad
  let s := s.modTok h i fun t => { t with status := status, contrib := if hold then 0 else n, vec := if hold then [] else vec }
  let homes := x.filled.map (s.placeHome v x)
  let count (t : Table Nat) : Table Nat := homes.foldl (fun t k => tPut k (tGet zeroNat k t + 1) t) t
  let s := s.modRound h fun r =>
    if hold then { r with withheldIn := r.withheldIn + n, withheldBy := count r.withheldBy }
    else { r with combined := r.combined + n, combinedBy := count r.combinedBy }
  let s := if hold then
      let s := s.tallyAdd Pg.CMB (1 + bits status 15 14) 1
      if x.taint then s.tallyAdd Pg.CMB 5 1 else s
    else (s.tallyAdd Pg.CMB 0 n).lifeAdd 11 1
  (s.writeRecord h i true).freeGathers h

/-- TOKEN_COMBINE (R231 to R235, R238, R239): the token that has been ready longest is summed, checked and written. -/
def execTokenCombine (half : Half) (fault : CombineFault) (s : State) : Out :=
  match s.view half with
  | none => .next s
  | some v =>
    match v.rnd.readyQ with
    | [] => .next s
    | i :: rest =>
      if !v.rnd.gated then .next s
      else
        let s := s.modRound half fun r => { r with readyQ := rest }
        match v.rnd.toks[i]? with
        | none => .next s
        | some x =>
          if x.withheld then .next (s.issueTok v half i x [] false x.filled.length)
          else
            let (vec, bad, n) := s.combineTok v half i x
            match checkCode fault with
            | some (code, cls) =>
              let s := ((s.taintTok half i).cmbFault code (s.tokHandle v i) v.rnd.layer 0 half).safe0 cls code v.rnd.layer half
              .next (s.issueTok v half i { x with taint := true } [] false n)
            | none =>
              let s := if bad then (s.cmbFault 0x68 (s.tokHandle v i) v.rnd.layer 0 half).tallyAdd Pg.CMB 6 1 else s
              .next (s.issueTok v half i x vec bad n)

/-! ## LAYER_OUT -/

/-- Ledger check 6 (R441): per site, records returned, lost and ended by the timer make up the records shipped. -/
def State.ledger6 (v : RoundView) (h : Half) (s : State) : State :=
  v.rnd.shipped.foldl (fun s p =>
    let back := tGet zeroNat p.1 v.rnd.recsIn - tGet zeroNat p.1 v.rnd.discarded
    if back + tGet zeroNat p.1 v.rnd.lostPlaces + tGet zeroNat p.1 v.rnd.timedPlaces = p.2 then s
    else (s.taintHalf h).ledgerBreak 6 0 (nodeAt v.sources p.1) v.rnd.layer h) s

/-- Ledger check 7 (R441): contributions combined and withheld make up the returns and the local copies. -/
def State.ledger7 (v : RoundView) (h : Half) (s : State) : State :=
  let back := sumNat (v.rnd.recsIn.map (·.2)) - sumNat (v.rnd.discarded.map (·.2))
  if v.rnd.combined + v.rnd.withheldIn = back + v.rnd.localCopies then s
  else (s.taintHalf h).ledgerBreak 7 0 0 v.rnd.layer h

/-- Checks 6 and 7, once in a round, before LAYER_OUT rings (R442). -/
def State.roundLedger (v : RoundView) (h : Half) (s : State) : State :=
  if v.rnd.ledgerDone then s
  else ((s.ledger6 v h).ledger7 v h).modRound h fun r => { r with ledgerDone := true }

/-- Tokens that were tainted after their record was issued: their records are written again, withheld (R436, R438). -/
def Round.stale (r : Round) : List Nat :=
  (r.toks.zipIdx.filter fun p => p.1.issued && p.1.taint && bits p.1.status 10 10 == 0).map (·.2)

/-- A record is written again as withheld. -/
def State.withholdRecord (h : Half) (i : Nat) (late : Bool) (s : State) : State :=
  let s := s.modTok h i fun x => { x with status := x.statusWord late false, contrib := 0, vec := [] }
  s.writeRecord h i true

/-- LAYER_OUT of a half is due (R21): it rings, and the next layer's held doorbell is tried. -/
def State.layerRings (h : Half) (a : AdmSet) (r : Round) (s : State) : State :=
  let work := sumNat (r.toks.map (·.contrib)) * confD (s.confAt a.bell)
  let s := s.tallyAdd Pg.CMB 8 (ceilDiv work 4096)
  (s.ringLayerOut h a r).release h

/-- LAYER_OUT of a half is due; a slot whose engine time would then exceed its promise is late (R70), which its tokens'
records show before LAYER_OUT rings (R84). -/
def State.layerEnd (h : Half) (a : AdmSet) (r : Round) (s : State) : State :=
  if r.late || !r.over s.now true then s.layerRings h a r
  else
    let s := s.markLate h
    match s.curRound h with
    | none => s
    | some (a, r) => if r.toks.all fun t => t.written then s.layerRings h a r else s

/-- LAYER_OUT (R20, R21, R70, R438, R441): it rings once every token's result and status are written, the ledger checks have
been made, and no record has to be written again. The next layer's held doorbell is then tried. -/
def execLayerOut (half : Half) (s : State) : Out :=
  match s.view half with
  | none => .next s
  | some v =>
    if !v.rnd.gated || !(v.rnd.toks.all fun t => t.issued && t.written) then .next s
    else
      let s := s.roundLedger v half
      match s.curRound half with
      | none => .next s
      | some (a, r) =>
        match r.stale with
        | [] => .next (s.layerEnd half a r)
        | is => .next (is.foldl (fun s i => s.withholdRecord half i r.late) s)

end Sys2Proof.Machine
end

