-- ==== Sys2Proof/Machine/Tiles.lean ====
section
/-! DEFINITION. Tiles (R272 to R287) and the returns of a compute site (R200, R212, R225, R441): how units are cut and
posted, how tiles complete, time out or are withdrawn, and the barrows that carry the outputs back. -/
namespace Sys2Proof.Machine

/-! ## The site's half -/

/-- One half at the compute site. -/
def State.site (s : State) : Half → SiteHalf
  | .calico => s.siteCal
  | .muslin => s.siteMus

/-- Replaces a half at the compute site. -/
def State.setSite (h : Half) (x : SiteHalf) (s : State) : State :=
  match h with
  | .calico => { s with siteCal := x }
  | .muslin => { s with siteMus := x }

/-- Changes a half at the compute site. -/
def State.modSite (h : Half) (f : SiteHalf → SiteHalf) (s : State) : State := s.setSite h (f (s.site h))

/-- The key of a record at a site. -/
def recKey (e off : Nat) : Nat := e * 4096 + off

/-- The key of a stall and a source. -/
def pairKey (e src : Nat) : Nat := e * 32768 + src

/-- The configuration of the half's layer round. -/
def State.siteConf (s : State) (h : Half) : Table W64 := s.confAt (s.site h).bell

/-- B_fwd and B_ret of the half's layer. -/
def State.siteFwd (s : State) (h : Half) : Nat := confBfwd (s.siteConf h) (s.site h).layer
def State.siteRet (s : State) (h : Half) : Nat := confBret (s.siteConf h) (s.site h).layer

/-- The region offset of a record (R194). -/
def State.recOff (s : State) (h : Half) (e off : Nat) : Nat :=
  regionBase (s.replicated (s.site h).bell) (s.siteFwd h) e + off * s.siteFwd h

/-- The stall halves of a site that are known. -/
def State.stallHalf (s : State) (h : Half) (e : Nat) : StallHalf := (tFind e (s.site h).stalls).getD { expert := e }

/-- A stall half takes a value. -/
def State.setStall (h : Half) (x : StallHalf) (s : State) : State :=
  s.modSite h fun t => { t with stalls := tPut x.expert x t.stalls }

/-- The filled offsets of a stall half that are computed and returned: whole, not released, below the FINAL count
(R200). -/
def State.filledOffs (s : State) (h : Half) (e : Nat) : List Nat :=
  let x := s.site h
  let fin := tGet zeroNat e x.finals
  (x.recs.filter fun p => p.1 / 4096 == e && p.2.whole && p.1 % 4096 < fin && !x.empties.contains p.1).map (·.1 % 4096)

/-- Records of a source over a site's half: notified, less released, less lost. -/
def SiteHalf.net (x : SiteHalf) (src : Nat) : Nat :=
  let f := fun (t : Table Nat) => sumNat ((t.filter fun p => p.1 % 32768 == src).map (·.2))
  f x.counts - f x.released - f x.lost

/-- Records owed to a source by a stall half. -/
def SiteHalf.owes (x : SiteHalf) (e src : Nat) : Bool :=
  tGet zeroNat (pairKey e src) x.released + tGet zeroNat (pairKey e src) x.lost < tGet zeroNat (pairKey e src) x.counts

/-! ## Receive regions -/

/-- H of R194 for a bell, in records. -/
def State.siteH (s : State) (bell : Nat) : Nat := sumNat ((s.replicated bell).map (·.2))

/-- The bytes of a half's receive region (R194) under the bell's tables. -/
def State.regionBytes (s : State) (bell : Nat) : Nat :=
  let c := s.confAt bell
  s.siteH bell * maxNat ((List.range (confLayers c)).map (confBfwd c))

/-- A source has nothing more to get from a half at this site. -/
def State.sourceSettled (s : State) (x : SiteHalf) (i : Nat) : Bool := x.net i == 0 || x.retHdr.contains i || s.deadNow i

/-- The source indices a half at this site has heard of. -/
def SiteHalf.sources (x : SiteHalf) : List Nat :=
  let a : List Nat := x.counts.map fun p => p.1 % 32768
  let b : List Nat := x.hdrs.map fun p => p.1
  let c : List Nat := x.y.map fun p => p.1
  (a ++ b ++ c).eraseDups

/-- A half's round at this site still runs (R86): a stall half of it is not done, or a return header is still owed. -/
def State.siteBusy (s : State) (h : Half) : Bool :=
  let x := s.site h
  x.active && ((x.stalls.any fun p => p.2.st != 2) || x.sources.any fun i => !s.sourceSettled x i)

/-- The frames of a half's region are replaced. -/
def State.setRegion (h : Half) (fs : List Nat) (s : State) : State :=
  match h with
  | .calico => { s with pool := { s.pool with regionCal := fs } }
  | .muslin => { s with pool := { s.pool with regionMus := fs } }

/-- A half's region takes its layout: up to ⌈R / 2 MiB⌉ free frames (R195). -/
def State.layRegion (h : Half) (s : State) : State :=
  let s := (s.dropFrames (s.region h)).setRegion h []
  let (fs, s) := s.takeFrames (ceilDiv (s.regionBytes s.bellNo) frameBytes) (.recv h)
  { s.setRegion h fs with pool := { (s.setRegion h fs).pool with regionWait := s.pool.regionWait.filter (· != h) } }

/-- At bell open the Calico region is laid out first; a half whose round still runs here waits when its layout changes
(R195). -/
def State.layRegions (s : State) : State :=
  [Half.calico, Half.muslin].foldl (fun s h =>
    if !s.siteBusy h then s.layRegion h
    else if (s.region h).length = ceilDiv (s.regionBytes s.bellNo) frameBytes then s
    else { s with pool := { s.pool with regionWait := h :: s.pool.regionWait.filter (· != h) } }) s

/-- A layout that waits is taken once the half's round here has ended (R195). -/
def State.regionDue (h : Half) (s : State) : State :=
  if s.pool.regionWait.contains h && !s.siteBusy h then s.layRegion h else s

/-! ## Return barrows -/

/-- A return header leaves for every source whose records have all been sent (R212). Its ready time is the latest tile
completion of the barrow's stall halves; where no stall half of it had a tile, the latest end of one (DESIGN CHOICE,
notes/assumptions/20.md). -/
def State.returnHeaders (h : Half) (s : State) : State :=
  let x := s.site h
  let srcs := s.sourcesAt x.bell
  x.acked.foldl (fun s i =>
    let x := s.site h
    let mine := x.stalls.filter fun p => x.owes p.1 i
    if x.retHdr.contains i || s.deadNow i || x.net i = 0 || !(mine.all fun p => p.2.st == 2) then s
    else
      let n := tGet zeroNat i x.retRecs
      let bret := s.siteRet h
      let tiled := mine.filter fun p => p.2.tiled
      let ready := maxNat ((if tiled.isEmpty then mine else tiled).map fun p => p.2.ready)
      let held := mine.any fun p => p.2.everHeld
      let b := barrowHeader x.bell s.node (nodeAt srcs i) x.layer h true held false n (64 + n * bret) ready
        (1 + n * partsOf bret) 0
      let s := s.modSite h fun x => { x with retHdr := i :: x.retHdr }
      s.tokReady h [s.headerChunk (nodeAt srcs i) x.bell (tagLast (headerTag h x.layer true)) b]) s

/-- How a stall half's records come out: from its tiles, as zeros (R285), or failed with their weights (R263). -/
inductive Outputs where
  | tiles (unit : Nat)
  | zeros
  | failed

/-- A tile's output record for an offset of its stall half, and whether it counts as tainted. -/
def State.tileOut (s : State) (u bret off : Nat) : Option (List Byte × Bool) :=
  (s.tiles.tiles.find? fun t => t.unit == u && t.first ≤ off && off < t.first + t.count).map fun t =>
    (s.rdPlace (s.bufPlace t.out) ((off - t.first) * bret) bret, t.taint)

/-- A conservation check of this slice as the home of a stall half failed (R442). -/
def State.brokenHere (s : State) (h : Half) (e : Nat) : Bool :=
  (match h with
    | .calico => s.homeCal
    | .muslin => s.homeMus).broken.contains ((s.site h).bell, (s.site h).layer, e)

/-- A return record (R204, R225): the forward record's first bytes with TAINT and WFAIL, then the elements; +0 where
there is no output to deliver. -/
def State.returnRecord (s : State) (h : Half) (e off : Nat) (r : SiteRec) (o : Outputs) : List Byte :=
  let bret := s.siteRet h
  let pre := s.regionRead h (s.recOff h e off) 16
  let out := match o with
    | .tiles u => s.tileOut u bret off
    | _ => none
  let wfail := match o with
    | .failed => true
    | _ => false
  let lost := r.taint || match o, out with
    | .tiles _, none => true
    | .tiles _, some p => p.2
    | .zeros, _ => false
    | .failed, _ => true
  let taint := lost || (s.stallHalf h e).taint || s.brokenHere h e
  let flag := BitVec.ofNat 8 (bits (fieldAt pre 0xC 1) 3 2 * 4 + b2n taint + 2 * b2n wfail)
  let elems := match out with
    | some p => if lost then leBytes (bret - 16) 0 else p.1.drop 16
    | none => leBytes (bret - 16) 0
  pre.take 12 ++ [flag] ++ leBytes 3 0 ++ elems

/-- Ledger check 5 of a stall half (R441). -/
def State.ledger5 (h : Half) (e : Nat) (s : State) : State :=
  let x := s.site h
  let f := fun (t : Table Nat) => sumNat ((t.filter fun p => p.1 / 32768 == e).map (·.2))
  let got := (x.recs.filter fun p => p.1 / 4096 == e && p.2.whole).length
  let fin := tGet zeroNat e x.finals
  let sent := (s.filledOffs h e).length
  if got + f x.released + f x.lost = fin ∧ sent + f x.released + f x.lost = fin then s
  else (s.setStall h { s.stallHalf h e with taint := true }).ledgerBreak 5 e 0 x.layer h

/-- The chunks of one return record, ready to send. -/
def State.queueReturn (h : Half) (e off : Nat) (r : SiteRec) (o : Outputs) (s : State) : State :=
  let x := s.site h
  if s.deadNow r.src then s
  else
    let dest := nodeAt (s.sourcesAt x.bell) r.src
    let cs := (recordChunks h x.layer true e off r.token r.rank (s.returnRecord h e off r o)).map fun c =>
      (⟨dest, c.1, c.2, x.bell, r.job, r.prio⟩ : TokChunk)
    let s := s.modSite h fun x => { x with
      retRecs := tPut r.src (tGet zeroNat r.src x.retRecs + 1) x.retRecs
      retStall := tPut e (tGet zeroNat e x.retStall + 1) x.retStall }
    s.tokReady h cs

/-- A stall half is done: its ready time is stamped, and its records are returned (R212, R225, R281); `tiled` tells that
tiles of it were posted. -/
def State.stallDone (h : Half) (e : Nat) (tiled : Bool) (o : Outputs) (s : State) : State :=
  let s := s.ledger5 h e
  let s := s.setStall h { s.stallHalf h e with st := 2, ready := s.now, tiled := tiled, held := false }
  let s := (s.filledOffs h e).foldl (fun s off =>
    match tFind (recKey e off) (s.site h).recs with
    | some r => s.queueReturn h e off r o
    | none => s) s
  (s.returnHeaders h).regionDue h

/-! ## Units -/

/-- T_max of R272. -/
def State.tMax (s : State) (bret : Nat) : Nat := min (s.fld Reg.TILE_MODE 16 8) (2097152 / max 1 bret)

/-- Runs cut from the front: a new tile at each gap and after every `n` records (R272). -/
def cutRuns (n : Nat) : List Nat → List (Nat × Nat) → List (Nat × Nat)
  | [], acc => acc.reverse
  | o :: t, (f, c) :: acc => cutRuns n t (if f + c = o ∧ c < n then (f, c + 1) :: acc else (o, 1) :: (f, c) :: acc)
  | o :: t, [] => cutRuns n t [(o, 1)]

/-- The tiles of a unit: first record and count. -/
def State.unitTiles (s : State) (u : TUnit) : List (Nat × Nat) :=
  match u.buf with
  | some b => match tFind b s.gathers with
    | some g => [(0, g.recs.length)]
    | none => []
  | none => cutRuns (s.tMax (s.siteRet u.half)) (s.filledOffs u.half u.expert) []

/-- A unit has nothing for a core to do: its block's LAYERS bit is 0 (R248, R285), or it has no record (R272). -/
def State.unitIdle (s : State) (u : TUnit) : Bool := (s.unitTiles u).isEmpty || !dscLayer (s.desc u.expert) u.layer

/-- A unit takes a value. -/
def State.setUnit (k : Nat) (u : TUnit) (s : State) : State :=
  { s with tiles := { s.tiles with units := tPut k u s.tiles.units } }

/-- A fetch of a block goes to the head of the fetch order; an ABSENT block that is not queued is queued (R261). -/
def State.fetchFirst (e l : Nat) (s : State) : State :=
  if s.fetchQueued e l then
    { s with res := { s.res with queue := s.res.queue.map fun f =>
      if f.expert == e && f.layer == l then { f with heldFirst := true } else f } }
  else if s.blockState e l = 0 then { s with res := { s.res with queue := s.res.queue ++ [⟨e, l, l, true⟩] } }
  else s

/-- RES_HOLD (R261): once per stall half or local tile. -/
def State.holdBlock (e l : Nat) (s : State) : State := ((s.resFault 0x72 e l).tallyAdd Pg.RES 5 1).fetchFirst e l

/-- The bytes a core or the engine sees as host addresses for a place (R37, R277). -/
def State.hostAddr (s : State) (p : Place) : Nat :=
  match p with
  | .sram a => s.apertureBase + a
  | .mem a => a

/-- The address of a half's receive view (R276). -/
def State.viewBase (s : State) (h : Half) : Nat := s.fld Reg.TILE_VIEW 51 38 * 2 ^ 38 + h.num * 2 ^ 37

/-- The input address of a tile. -/
def State.tileIn (s : State) (u : TUnit) (first : Nat) : Nat :=
  match u.buf with
  | some b => s.hostAddr (s.bufPlace b)
  | none => s.viewBase u.half + s.recOff u.half u.expert first

/-- A tile descriptor (R277). -/
def State.tileDesc (s : State) (u : TUnit) (first count out ctr : Nat) : List Byte :=
  let w := s.blockPlace u.expert u.layer
  leBytes 8 (s.tileIn u first) ++ leBytes 8 (s.hostAddr (s.bufPlace out)) ++ leBytes 8 (w.1 % memSpace) ++ leBytes 2 u.expert
    ++ [BitVec.ofNat 8 u.layer, BitVec.ofNat 8 (w.2 + 4 * u.half.num + 8 * b2n u.buf.isSome)]
    ++ leBytes 2 count ++ leBytes 2 ctr

/-- The first 16 bytes of a tile's return record (R273). -/
def State.tilePrefix (s : State) (u : TUnit) (i first : Nat) : List Byte :=
  match u.buf with
  | some b =>
    let bfwd := confBfwd (s.confAt u.bell) u.layer
    s.rdPlace (s.bufPlace b) (i * bfwd) 16
  | none =>
    let pre := s.regionRead u.half (s.recOff u.half u.expert (first + i)) 16
    let taint := ((tFind (recKey u.expert (first + i)) (s.site u.half).recs).map (·.taint)).getD false
    pre.take 12 ++ [BitVec.ofNat 8 (bits (fieldAt pre 0xC 1) 3 2 * 4 + b2n taint)] ++ leBytes 3 0

/-! ## Posting (R273 to R275, R278, R279) -/

/-- The list of a tile of an expert (R279). -/
def State.tileList (s : State) (e : Nat) : Nat :=
  if s.bit Reg.TILE_MODE 0 then 1 + e % max 1 (s.fld Reg.TILE_MODE 5 1) else 0

/-- Slots of a ring. -/
def State.tileRing (s : State) : Nat := 2 ^ s.fld Reg.TILE_LIST 4 0

/-- The address of a descriptor's slot (R278). -/
def State.slotAddr (s : State) (list t : Nat) : Nat :=
  s.fld Reg.TILE_LIST 51 12 * 4096 + list * s.tileRing * 32 + t % s.tileRing * 32

/-- A list has room (R278). -/
def State.listRoom (s : State) (list : Nat) : Bool :=
  (tGet zeroNat list s.tiles.tails + 2 ^ 32 - tGet zeroNat list s.tiles.heads) % 2 ^ 32 < s.tileRing

/-- A counter is free (R281). -/
def State.freeCtr (s : State) : Option Nat :=
  let used := (s.tiles.units.filter fun p => 0 < p.2.posted).map (·.2.ctr)
  (List.range 4096).find? fun c => !used.contains c

/-- The smallest class that holds `n` bytes (R273). -/
def clsFor (n : Nat) : Nat := ((List.range 4).find? fun c => n ≤ clsBytes c).getD 3

/-- Descriptors and doorbells of a list leave in one chain, each after the acknowledgement of the write before (R32, R38,
R278): a doorbell never goes before a descriptor that it announces, nor after a later doorbell. -/
def State.listWrites (list : Nat) (w : List WStep) (s : State) : State :=
  match (tFind list s.tiles.listChain).bind fun c => (tFind c s.chains).map fun rest => (c, rest) with
  | some (c, rest) => { s with chains := tPut c (rest ++ w) s.chains }
  | none => ({ s with tiles := { s.tiles with listChain := tPut list s.nextChain s.tiles.listChain } } : State).startChain w

/-- One tile is posted: buffer, prefixes, descriptor and doorbell; none when a buffer or list room is missing. -/
def State.postTile (k : Nat) (u : TUnit) (first count : Nat) (s : State) : Option State :=
  let list := s.tileList u.expert
  let bret := confBret (s.confAt u.bell) u.layer
  if !s.listRoom list then none
  else
    match s.allocBuf (clsFor (count * bret)) [4, 3] none with
    | (none, _) => none
    | (some out, s) =>
      let s := if (s.curRound u.half).any fun r => r.1.bell == u.bell && r.2.layer == u.layer then s.slotBuf u.half out else s
      let s := (List.range count).foldl (fun s i => s.wrPlace (s.bufPlace out) (i * bret) (s.tilePrefix u i first)) s
      let t := tGet zeroNat list s.tiles.tails
      let desc := s.tileDesc u first count out u.ctr
      let s := s.listWrites list [.bytes (s.slotAddr list t) desc,
        .bytes (s.fld Reg.TILE_DBELL 51 3 * 8 + 8 * list) (leBytes 8 ((t + 1) % 2 ^ 32))]
      let s := { s with tiles := { s.tiles with
        tails := tPut list ((t + 1) % 2 ^ 32) s.tiles.tails
        tiles := s.tiles.tiles ++ [Tile.mk k list t first count out u.ctr false 0 false] } }
      some ((s.tallyAdd Pg.TILE 0 1).tallyAdd Pg.TILE 1 count)

/-- A unit waits for a buffer, a counter or room in a list (R274, R278): since when is kept. -/
def State.unitWaits (k : Nat) (u : TUnit) (s : State) : State :=
  if u.waitSince.isNone then s.setUnit k { u with waitSince := some s.now } else s

/-- The wait of a unit is over: TILE_BUF_WAIT takes it (R274). -/
def State.waitOver (u : TUnit) (s : State) : State := s.tallyAdd Pg.TILE 2 (u.waitSince.elim 0 fun t0 => s.now - t0)

/-- What comes of an attempt to post a tile of a unit; false when there was no room, and then the unit waits. -/
def State.tilePosted (k : Nat) (u : TUnit) (r : Option State) (s : State) : Bool × State :=
  match r with
  | none => (false, s.unitWaits k u)
  | some s => (true, (s.waitOver u).setUnit k { u with posted := u.posted + 1, bufs := u.bufs + 1, waitSince := none })

/-- Posts one tile of a unit; false when there is no room. -/
def State.postStep (k : Nat) (p : Nat × Nat) (s : State) : Bool × State :=
  match tFind k s.tiles.units with
  | none => (false, s)
  | some u => s.tilePosted k u (s.postTile k u p.1 p.2)

/-- Posts the tiles that follow, as many as can be posted. -/
def State.postTiles (k : Nat) : List (Nat × Nat) → State → State
  | [], s => s
  | p :: t, s =>
    let r := s.postStep k p
    if r.1 then State.postTiles k t r.2 else r.2

/-! ## Completion (R281 to R285) -/

/-- The return buffer of a tile is quarantined (R283). -/
def State.tileQuar (s : State) (t : Tile) : Bool := !t.freed && s.tiles.quar.contains t.out

/-- The return buffers of a unit that is over are freed by DISP, but for quarantined ones, and its tiles leave; those that
timed out or were withdrawn stay known, for a notice that comes late. The counter is free with the last buffer (R217, R281,
R283, R284). -/
def State.freeUnit (k : Nat) (s : State) : State :=
  let mine := s.tiles.tiles.filter fun t => t.unit == k && !t.freed && !s.tiles.quar.contains t.out
  let s := (mine.map (·.out)).foldl (fun s b => s.freeBuf b 3) s
  let left := (s.tiles.tiles.filter fun t => t.unit == k && s.tileQuar t).length
  let tiles := s.tiles.tiles.filter fun t => t.unit != k || t.st == 2 || t.st == 3
  let units := match tFind k s.tiles.units with
    | some u => if left = 0 then tDel k s.tiles.units else tPut k { u with bufs := left, ended := true } s.tiles.units
    | none => s.tiles.units
  { s with tiles := { s.tiles with tiles := tiles, units := units } }

/-- The output records of a gather buffer go to their places (R226). -/
def State.gatherOut (k : Nat) (u : TUnit) (b : Nat) (o : Outputs) (s : State) : State :=
  match tFind b s.gathers, s.view u.half with
  | some g, some v =>
    if v.set.bell ≠ u.bell ∨ v.rnd.layer ≠ u.layer then s
    else
      let s := if u.everHeld then
          (s.modRound u.half fun r => { r with held := true }).markLate u.half
        else s
      g.recs.zipIdx.foldl (fun s p =>
        let out := match o with
          | .tiles _ => s.tileOut k v.bret p.2
          | _ => none
        let lost := match o, out with
          | .tiles _, some q => q.2
          | .tiles _, none => true
          | .zeros, _ => false
          | .failed, _ => true
        let wfail := match o with
          | .failed => true
          | _ => false
        let pre := s.tilePrefix u p.2 0
        let flag := BitVec.ofNat 8 (bits (fieldAt pre 0xC 1) 3 2 * 4 + b2n lost + 2 * b2n wfail)
        let elems := match out with
          | some q => if lost then leBytes (v.bret - 16) 0 else q.1.drop 16
          | none => leBytes (v.bret - 16) 0
        s.localCopy u.half p.1.token p.1.place (pre.take 12 ++ [flag] ++ leBytes 3 0 ++ elems) lost) s
  | _, _ => s

/-- A unit completes (R226, R281): a capped stall half returns its records, a gather buffer's outputs go to their
places. -/
def State.unitDone (k : Nat) (o : Outputs) (s : State) : State :=
  match tFind k s.tiles.units with
  | none => s
  | some u =>
    let o := if u.failed then .failed else o
    let s := s.waitOver u
    let s := match u.buf with
      | some b => s.gatherOut k u b o
      | none => s.stallDone u.half u.expert (u.posted != 0) o
    s.freeUnit k

/-- A unit becomes ready for the tile list writer (R272): it joins the units, held when its block is not resident (R261).
One that posts no tile, or whose block is FAILED, completes at once (R263, R285). -/
def State.addUnit (h : Half) (bell layer e : Nat) (buf : Option Nat) (s : State) : State :=
  let b := s.blockState e layer
  let held := b == 0 || b == 1
  let k := s.tiles.nextUnit
  let u : TUnit := { half := h, bell := bell, layer := layer, expert := e, buf := buf, held := held, heldAt := s.now
                     everHeld := held, readyAt := s.now, failed := b == 3 }
  let s := { s with tiles := { s.tiles with units := tPut k u s.tiles.units, nextUnit := k + 1 } }
  if u.failed || s.unitIdle u then s.unitDone k .zeros
  else if !held then s
  else if buf.isNone && confCloseNr (s.confAt bell) then s.fetchFirst e layer
  else s.holdBlock e layer

/-- A posted tile completes with a state; with the unit's last tile the unit completes. Taint that it has stays. -/
def State.tileEnds (t : Tile) (st : Nat) (taint : Bool) (s : State) : State :=
  let s := { s with tiles := { s.tiles with tiles := s.tiles.tiles.map fun x =>
    if x == t then { x with st := st, taint := x.taint || taint } else x } }
  match tFind t.unit s.tiles.units with
  | none => s
  | some u =>
    let s := s.setUnit t.unit { u with left := u.left - 1 }
    if u.left ≤ 1 then s.unitDone t.unit (.tiles t.unit) else s

/-- A return buffer is quarantined (R283). -/
def State.quarantine (out : Nat) (s : State) : State :=
  { s with tiles := { s.tiles with quar := s.tiles.quar ++ [out] } }

/-- TILE_FAULT takes a tile, its unit's expert, layer and half, and a code (R286). -/
def State.tileFaultReg (code list : Nat) (u : Option TUnit) (s : State) : State :=
  s.setReg Reg.TILE_FAULT (BitVec.ofNat 64 (u.elim 0 (·.expert) + u.elim 0 (·.layer) * 2 ^ 16 + code * 2 ^ 24
    + list % 32 * 2 ^ 32 + u.elim 0 (·.half.num) * 2 ^ 37))

/-- A TILE code of a tile. -/
def State.tileFault (code list : Nat) (u : Option TUnit) (s : State) : State :=
  (s.tileFaultReg code list u).recordF Pg.TILE code Reg.TILE_FAULT

/-- A unit is posted as far as it can be. Its tiles are cut, and its counter taken and preset, when its first is posted
(R272, R281). -/
def State.postUnit (k : Nat) (u : TUnit) (s : State) : State :=
  if u.posted ≠ 0 then s.postTiles k (u.cuts.drop u.posted)
  else match s.freeCtr with
    | none => s.unitWaits k u
    | some c =>
      let ts := s.unitTiles u
      (s.setUnit k { u with ctr := c, total := ts.length, left := ts.length, cuts := ts }).postTiles k ts

/-- A unit that is not wholly posted, not over, and not held. -/
def TUnit.waits (u : TUnit) : Bool := !u.held && !u.ended && !u.failed && (u.posted == 0 || decide (u.posted < u.total))

/-- A block has become RESIDENT: the units held for it are ready now (R261, R275). -/
def State.releaseUnits (e l : Nat) (s : State) : State :=
  { s with tiles := { s.tiles with units := s.tiles.units.map fun p =>
    (p.1, if p.2.expert == e && p.2.layer == l && p.2.held then { p.2 with held := false, readyAt := s.now } else p.2) } }

/-- A unit whose block is gone before it was wholly posted is held for it (R261). -/
def State.holdUnit (k : Nat) (u : TUnit) (s : State) : State :=
  let s := s.setUnit k { u with held := true, heldAt := s.now, everHeld := true }
  if u.everHeld || (u.buf.isNone && confCloseNr (s.confAt u.bell)) then s.fetchFirst u.expert u.layer
  else s.holdBlock u.expert u.layer

/-- A block is ABSENT: the units that still have tiles to post are held for it. -/
def State.holdUnits (e l : Nat) (s : State) : State :=
  (s.tiles.units.filter fun p => p.2.expert == e && p.2.layer == l && p.2.waits).foldl (fun s p => s.holdUnit p.1 p.2) s

/-- The order of units (R275): as they became ready; of one cycle Calico first, then by expert. -/
def TUnit.before (a b : TUnit) : Bool :=
  let key (u : TUnit) : Nat := (u.readyAt * 2 + u.half.num) * 2 ^ 15 + u.expert
  decide (key a < key b)

/-- TILE_POST (R272 to R275): the first unit in order of readiness that is not held is posted. -/
def execTilePost (s : State) : Out :=
  match (sortBy (fun a b => a.2.before b.2) (s.tiles.units.filter fun p => p.2.waits)).head? with
  | none => .next s
  | some (k, u) => .next (s.postUnit k u)

/-- TILE_HEAD (R278): a head below the current head or above the tail is dropped. -/
def State.tileHead (v : W64) (s : State) : State :=
  s.gated Reg.TILE_HEAD v fun s =>
    let list := bits v.toNat 4 0
    let head := bits v.toNat 63 32
    let h := tGet zeroNat list s.tiles.heads
    let t := tGet zeroNat list s.tiles.tails
    if (t + 2 ^ 32 - h) % 2 ^ 32 < (head + 2 ^ 32 - h) % 2 ^ 32 then
      (s.tileFaultReg 0x7A list none).dropWrite 0x7A Reg.TILE_HEAD
    else { s with tiles := { s.tiles with heads := tPut list head s.tiles.heads } }

/-- The command of that write. -/
def execTileHead (v : W64) (s : State) : Out := .next (s.tileHead v)

/-- A notice that names no tile awaiting one is dropped (R282 to R284): a lost-or-duplicated fault, unless the tile timed
out or was withdrawn. -/
def State.badDone (list index : Nat) (s : State) : State :=
  let gone := s.tiles.tiles.any fun t => t.list == list && t.index == index && (t.st == 2 || t.st == 3)
  let s := (s.tileFaultReg 0x79 list none).dropWrite 0x79 Reg.TILE_DONE
  if gone then s else s.lostDup 0x79 0 .calico

/-- A unit's block is FAILED (R263): it posts no further tile, and completes at once when none of its tiles is out. -/
def State.failUnit (k : Nat) (s : State) : State :=
  match tFind k s.tiles.units with
  | none => s
  | some u =>
    let out := (s.tiles.tiles.filter fun t => t.unit == k && t.st == 0).length
    let s := s.setUnit k { u with failed := true, held := false, total := u.posted, left := out }
    if out = 0 then s.unitDone k .failed else s

/-- A block goes to FAILED (R263), by its fetch or by a core's report that it read an uncorrectable word of it (R282): the
units of its expert and layer that have not completed return with WFAIL. -/
def State.failBlock (e l : Nat) (s : State) : State :=
  let s := s.setBlock e l { s.block e l with st := 3 }
  let ks := (s.tiles.units.filter fun p => p.2.expert == e && p.2.layer == l && !p.2.ended && !p.2.failed).map (·.1)
  ks.foldl (fun s k => s.failUnit k) s

/-- TILE_DONE (R282). -/
def State.tileDone (v : W64) (s : State) : State :=
  s.gated Reg.TILE_DONE v fun s =>
    let list := bits v.toNat 4 0
    let index := bits v.toNat 63 32
    match s.tiles.tiles.find? fun t => t.list == list && t.index == index && t.ctr == bits v.toNat 27 16 && t.st == 0 with
    | none => s.badDone list index
    | some t =>
      let u := tFind t.unit s.tiles.units
      match bits v.toNat 9 8 with
      | 0 => s.tileEnds t 1 false
      | 1 =>
        let s := (s.tileFault 0x7D list u).tileEnds t 1 true
        match u with
        | some u => s.failBlock u.expert u.layer
        | none => s
      | _ =>
        let s := (s.tileFault 0x7C list u).safe0 5 0x7C (u.elim 0 (·.layer)) (u.elim .calico (·.half))
        s.tileEnds t 1 true

/-- The command of that write. -/
def execTileDone (v : W64) (s : State) : Out := .next (s.tileDone v)

/-- TILE_TIMEOUT (R283). -/
def execTileTimeout (list index : Nat) (s : State) : Out :=
  match s.tiles.tiles.find? fun t => t.list == list && t.index == index && t.st == 0 with
  | none => .next s.lateMargin
  | some t =>
    let s := (s.tileFault 0x7B list (tFind t.unit s.tiles.units)).raise Pg.TILE
    .next (((s.tallyAdd Pg.TILE 3 1).quarantine t.out).tileEnds t 2 true)

/-- TILE_QUAR RELEASE (R286): every quarantined return buffer is freed, and with it the counter of a unit that is over; a 0
does nothing. -/
def State.tileQuarRelease (v : W64) (s : State) : State :=
  s.gated Reg.TILE_QUAR v fun s =>
    if bits v.toNat 0 0 = 0 then s
    else
      let ts := s.tiles.tiles.map fun t => { t with freed := t.freed || s.tileQuar t }
      let s := s.tiles.quar.foldl (fun s b => s.freeBuf b 3) s
      { s with tiles := { s.tiles with
        quar := [], tiles := ts, units := s.tiles.units.filter fun p => !p.2.ended } }

/-- The command of that write. -/
def execTileQuarRelease (v : W64) (s : State) : Out := .next (s.tileQuarRelease v)

/-! ## Withdrawal (R197, R284) -/

/-- One incomplete tile is withdrawn. -/
def State.withdrawTile (t : Tile) (s : State) : State :=
  let s := (s.tileFault 0x7E t.list (tFind t.unit s.tiles.units)).tallyAdd Pg.TILE 4 1
  (s.quarantine t.out).tileEnds t 3 true

/-- A tile that is not posted yet is withdrawn: it has no buffer, and its records return tainted. -/
def State.dropTile (u : TUnit) (s : State) : State :=
  (s.tileFault 0x7E (s.tileList u.expert) (some u)).tallyAdd Pg.TILE 4 1

/-- The units of a half that are older than a round are withdrawn: their incomplete tiles complete tainted, those not yet
posted too, and the unit completes. -/
def State.withdrawUnit (k : Nat) (s : State) : State :=
  match tFind k s.tiles.units with
  | none => s
  | some u =>
    let undone := s.tiles.tiles.filter fun t => t.unit == k && t.st == 0
    let rest := if u.failed then 0 else (if u.posted = 0 then s.unitTiles u else u.cuts).length - u.posted
    let s := s.setUnit k { u with left := undone.length, total := u.posted, held := false }
    let s := (List.range rest).foldl (fun s _ => s.dropTile u) s
    if undone.isEmpty then s.unitDone k (.tiles k) else undone.foldl (fun s t => s.withdrawTile t) s

/-- The incomplete units of a half that belong to a round before the one given. -/
def State.olderUnits (s : State) (h : Half) (bell layer : Nat) : List Nat :=
  (s.tiles.units.filter fun p => p.2.half == h && p.2.bell * 256 + p.2.layer < bell * 256 + layer
    && !p.2.ended).map (·.1)

/-- Work of an earlier layer of the half is withdrawn when a record of a later one arrives (R197). -/
def State.withdrawOlder (h : Half) (bell layer : Nat) (s : State) : State :=
  let ks := s.olderUnits h bell layer
  if ks.isEmpty then s
  else
    let s := ks.foldl (fun s k => s.withdrawUnit k) s
    (s.record Pg.DISP 0x5A 0).lostDup 0x5A layer h

/-! ## The aperture (R37, R273, R276) -/

/-- A write of `n` bytes at a stall SRAM offset lies in a return buffer of a posted, uncompleted tile, and touches none of
its records' first 16 bytes (R37, R273). -/
def State.apertureOk (s : State) (off n : Nat) : Bool :=
  s.tiles.tiles.any fun t => t.st == 0 && match s.bufPlace t.out, tFind t.unit s.tiles.units with
    | .sram a, some u =>
      let bret := confBret (s.confAt u.bell) u.layer
      a ≤ off && off + n ≤ a + clsBytes (bufCls t.out)
        && (List.range t.count).all fun i => off + n ≤ a + i * bret || a + i * bret + 16 ≤ off
    | _, _ => false

/-- APERTURE_WRITE (R37, R273, R276): bytes outside posted return buffers, and any write to a view, are dropped. -/
def execApertureWrite (place : AperturePlace) (bytes : List Byte) (s : State) : Out :=
  match place with
  | .sram off =>
    if s.apertureOk off bytes.length then .next (s.wrSram off bytes) else .next (s.tileFault 0x78 0 none)
  | .view _ _ => .next (s.tileFault 0x78 0 none)

end Sys2Proof.Machine
end

