-- ==== Sys2Proof/Machine/Site.lean ====
section
/-! DEFINITION. The compute site (R195 to R202, R206 to R212, R261, R267): notices, releases and chunks of a layer round
half, the completion of stall halves and barrows, and the receive regions' layout. -/
namespace Sys2Proof.Machine

/-! ## Layer rounds at the site -/

/-- The half of the site for a record of a layer round: a later round begins afresh, after work left of an earlier one is
withdrawn (R197); a record of an earlier round meets none. -/
def State.siteEnter (h : Half) (bell layer : Nat) (s : State) : Option State :=
  let x := s.site h
  if x.active && x.bell == bell && x.layer == layer then some s
  else if x.active && bell * 256 + layer < x.bell * 256 + x.layer then none
  else
    let s := s.withdrawOlder h bell layer
    let stalls := (s.replicated bell).map fun p => (p.1, ({ expert := p.1 } : StallHalf))
    let here (p : Nat × Nat × Nat) : Bool := p.1 == bell * 256 + layer
    let failed := ((s.site h).crcAhead.filter here).map fun p => p.2
    some (s.setSite h { bell := bell, layer := layer, active := true, stalls := stalls, crcFail := failed
                        crcAhead := (s.site h).crcAhead.filter fun p => !here p })

/-- A stall whose replica is here in the half's bell. -/
def State.hostsStall (s : State) (h : Half) (e : Nat) : Bool := (tFind e (s.site h).stalls).isSome

/-- Every FINAL of the half's hosted stalls is held (R200). -/
def SiteHalf.allFinal (x : SiteHalf) : Bool := x.stalls.all fun p => (tFind p.1 x.finals).isSome

/-- Records of a stall that have arrived in part. -/
def SiteHalf.partly (x : SiteHalf) (e : Nat) : Bool := x.recs.any fun p => p.1 / 4096 == e && !p.2.whole

/-- Adds to a signed 32-bit counter (R199). -/
def addInt (k : Nat) (n : Int) (t : Table Int) : Table Int := tPut k (((tFind k t).getD 0 + n).bmod (2 ^ 32)) t

/-- A DISP code that names no chunk: DISP_FAULT and DISP_FAULT_SRC stay (R219). -/
def State.siteFault (code layer : Nat) (h : Half) (s : State) : State := (s.record Pg.DISP code 0).lostDup code layer h

/-! ## Completion (R200, R202, R210, R261) -/

/-- The counts of a stall half do not make up its FINAL count (R202): NOTICE_MISMATCH, once, and every token of the stall half
is tainted. -/
def State.noticeMismatch (h : Half) (e : Nat) (s : State) : State :=
  let y := s.stallHalf h e
  if y.mismatch then s
  else
    let x := s.site h
    let s := (s.setStall h { y with taint := true, mismatch := true }).siteFault 0x57 x.layer h
    s.taintQueued h fun c => tExpert c.tag == e && tLayer c.tag == x.layer && c.bell == x.bell

/-- Counts that sum above a FINAL count can only differ from it. -/
def State.noticeOver (h : Half) (e : Nat) (s : State) : State :=
  match tFind e (s.site h).finals with
  | some fin => if fin < tGet zeroNat e (s.site h).sums then s.noticeMismatch h e else s
  | none => s

/-- A stall half that has come to its end goes to the tile list writer; one without a record is done at once (R272). -/
def State.stallTry (h : Half) (e : Nat) (s : State) : State :=
  let x := s.site h
  let y := s.stallHalf h e
  match tFind e x.finals with
  | none => s
  | some fin =>
    if y.st ≠ 0 ∨ (tFind e x.x).getD 0 ≠ 0 ∨ x.partly e then s
    else
      let s := s.setStall h { y with st := 1 }
      let s := if tGet zeroNat e x.sums = fin then s else s.noticeMismatch h e
      if (s.filledOffs h e).isEmpty then
        s.stallDone h e false (if s.blockState e x.layer = 3 then .failed else .zeros)
      else
        let held := (s.blockState e x.layer == 0 || s.blockState e x.layer == 1) && !confCloseNr (s.siteConf h)
        let s := s.setStall h { s.stallHalf h e with held := held, everHeld := held }
        s.addUnit h x.bell x.layer e none

/-- Taints every record of a source (R210): what is still to be returned, and what waits to be sent (notes/assumptions/20.md
says what of returns already sent). -/
def State.taintSource (h : Half) (i : Nat) (s : State) : State :=
  let x := s.site h
  let node := nodeAt (s.sourcesAt x.bell) i
  let s := s.modSite h fun x => { x with
    recs := x.recs.map fun p => (p.1, if p.2.src = i then { p.2 with taint := true } else p.2) }
  s.taintQueued h fun c => c.dest == node && tLayer c.tag == x.layer && c.bell == x.bell

/-- The barrow of a source is complete (R200): its header's counts are compared (R210) and it is acknowledged. -/
def State.barrowTry (h : Half) (i : Nat) (s : State) : State :=
  let x := s.site h
  if x.acked.contains i || s.deadNow i || !x.allFinal || (tFind i x.y).getD 0 != 0
      || ((tFind i x.hdrs).isNone && x.net i != 0) then s
  else
    let node := nodeAt (s.sourcesAt x.bell) i
    let s := s.modSite h fun x => { x with acked := i :: x.acked }
    match tFind i x.hdrs with
    | none => s
    | some hd =>
      let bad := !hd.skip && (hd.records != tGet zeroNat i x.recsIn || hd.bytes != tGet zeroNat i x.bytesIn
        || hd.chunks != tGet zeroNat i x.chunksIn)
      let s := if bad then (s.taintSource h i).siteFault 0x58 x.layer h else s
      if node = s.node then s.fwdAcked h i else s.sendAck node (barrowAck x.bell x.layer h false)

/-- After each arrival: stall halves, barrows, return headers, and a layout that waits (R195). -/
def State.siteSettle (h : Half) (s : State) : State :=
  let s := (s.site h).stalls.foldl (fun s p => s.stallTry h p.1) s
  let s := (s.site h).sources.foldl (fun s i => s.barrowTry h i) s
  (s.returnHeaders h).regionDue h

/-! ## Dead sources (R267) -/

/-- Records still expected from a source are lost: they count as released. -/
def State.loseSource (h : Half) (i : Nat) (s : State) : State :=
  let s := s.modSite h fun x => { x with recs := x.recs.filter fun p => p.2.src != i || p.2.whole }
  let s := (s.site h).stalls.foldl (fun s p =>
    let x := s.site h
    let k := pairKey p.1 i
    let got := (x.recs.filter fun q => q.1 / 4096 == p.1 && q.2.src == i).length
    let owed := tGet zeroNat k x.counts - tGet zeroNat k x.released - tGet zeroNat k x.lost - got
    s.modSite h fun x => { x with lost := bump k owed x.lost, x := addInt p.1 (-(owed : Int)) x.x }) s
  s.modSite h fun x => { x with y := tPut i 0 x.y }

/-- What a dead-slice notice does at a compute site: the dead source's records are lost, and returns to it end. -/
def State.siteDead (i : Nat) (s : State) : State :=
  [Half.calico, Half.muslin].foldl (fun s h =>
    if !(s.site h).active then s
    else
      let node := nodeAt (s.sourcesAt (s.site h).bell) i
      let s := s.loseSource h i
      let s := s.setTokQueue h ((s.tokQueue h).filter fun c => !(c.dest == node && tDir c.tag == 1))
      s.siteSettle h) s

/-! ## RESERVATION_NOTICE_RECEIVE (R198, R199) -/

/-- A notice counts (R199). -/
def State.siteNotice (h : Half) (e src n : Nat) (final : Bool) (s : State) : State :=
  let bf := s.siteFwd h
  if !s.hostsStall h e then s
  else if final then
    if (tFind e (s.site h).finals).isSome then s
    else (s.modSite h fun x => { x with finals := tPut e n x.finals }).noticeOver h e
  else
    let s := s.modSite h fun x => { x with
      x := addInt e n x.x, y := addInt src (n * bf : Nat) x.y
      counts := bump (pairKey e src) n x.counts, sums := bump e n x.sums }
    (if s.deadNow src then s.loseSource h src else s).noticeOver h e

/-- RESERVATION_NOTICE_RECEIVE (R197 to R200). -/
def execReservationNoticeReceive (home : Node) (record : List Byte) (s : State) : Out :=
  let flags := fieldAt record 9 1
  let h := halfOf (bits flags 0 0)
  let _ := home
  match s.siteEnter h (fieldAt record 0 8) (fieldAt record 8 1) with
  | none => .next s
  | some s =>
    let e := fieldAt record 0xA 2 % 2 ^ 15
    let s := if s.isHomed (s.site h).bell e ∨ bits flags 3 3 = 1 then s else s.loadAdd e (fieldAt record 0xE 2 % 2 ^ 13)
    .next ((s.siteNotice h (fieldAt record 0xA 2 % 2 ^ 15) (fieldAt record 0xC 2 % 2 ^ 15) (fieldAt record 0xE 2 % 2 ^ 13)
      (bits flags 3 3 == 1)).siteSettle h)

/-! ## RELEASE_RECEIVE_SITE (R179, R199, R202) -/

/-- A release counts; after FINAL one of an offset that is filled, or at or above the FINAL count, is rejected with
RELEASE_FILLED, and one that would take a counter below zero with CHUNK_EXCESS (R202). -/
def State.siteRelease (h : Half) (i e off : Nat) (s : State) : State :=
  let x := s.site h
  let bf := s.siteFwd h
  if !s.hostsStall h e then s
  else
    let fin := tFind e x.finals
    let whole := ((tFind (recKey e off) x.recs).map (·.whole)).getD false
    let filled := fin.any fun f => whole || decide (f ≤ off)
    let excess := (fin.isSome && decide ((tFind e x.x).getD 0 < 1)) || (x.allFinal && decide ((tFind i x.y).getD 0 < (bf : Int)))
    if filled then s.siteFault 0x59 x.layer h
    else if excess then s.siteFault 0x56 x.layer h
    else s.modSite h fun x => { x with
      x := addInt e (-1) x.x, y := addInt i (-(bf : Int)) x.y
      released := bump (pairKey e i) 1 x.released, empties := recKey e off :: x.empties }

/-- RELEASE_RECEIVE_SITE: the release names its round by the handle. -/
def execReleaseReceiveSite (src : Node) (record : List Byte) (s : State) : Out :=
  let lo := recLo record
  let h := halfOf (hHalf lo)
  match s.siteEnter h (fullBell s.bellNo (hBell lo)) (hLayer lo) with
  | none => .next s
  | some s =>
    match indexOfNat src (s.sourcesAt (s.site h).bell) with
    | none => .next s
    | some i => .next ((s.siteRelease h i (bits (recHi record).toNat 14 0) (bits (recHi record).toNat 27 16)).siteSettle h)

/-! ## TOK_CHUNK_RECEIVE (R202, R206 to R209) -/

/-- The bell of the round that a forward chunk of a layer belongs to where nothing else tells it: the round in progress of that
layer, or the next one to come. -/
def State.nextChunkBell (s : State) (h : Half) (layer : Nat) : Nat :=
  let x := s.site h
  if !x.active then s.bellNo
  else if x.layer ≤ layer then x.bell
  else max (x.bell + 1) s.bellNo

/-- The bell of the round that a forward chunk belongs to. Its tag names the layer only, and its CRC covers the bell (R207): a
bell under which the CRC passes, else that of the next round of the layer. -/
def State.chunkBell (s : State) (h : Half) (tag : W64) (src : Node) (bytes : List Byte) (crc : BitVec 32) : Nat :=
  let b := s.nextChunkBell h (tLayer tag)
  (([b, b + 1, s.bellNo, s.bellNo + 1].filter fun b => !(s.site h).active || decide ((s.site h).bell ≤ b)).find? fun b =>
    chunkCrc b tag src s.node bytes == crc).getD b

/-- R206: the chunk names no place here. -/
def State.tagNoPlace (s : State) (h : Half) (tag : W64) : Bool :=
  tagBad tag || (!tHdr tag && (!s.hostsStall h (tExpert tag)
    || dCap (s.dirAt (s.site h).bell (tExpert tag)) ≤ tOffset tag || s.siteFwd h ≤ 4096 * tPart tag))

/-- A chunk counts for its barrow (R210). -/
def State.countChunk (h : Half) (i n : Nat) (s : State) : State :=
  s.modSite h fun x => { x with chunksIn := bump i 1 x.chunksIn, bytesIn := bump i n x.bytesIn }

/-- A header chunk (R203, R208, R63). -/
def State.siteHeader (h : Half) (i : Nat) (bytes : List Byte) (ok : Bool) (s : State) : State :=
  let x := s.site h
  if ok && fieldAt bytes 0 8 != x.bell then s.bellSkew x.layer h
  else
    let hd : BarrowHdr := if ok then parseHeader bytes else ⟨false, 0, 0, 0, 0, 0, true⟩
    (s.countChunk h i 64).modSite h fun x => { x with hdrs := tPut i hd x.hdrs }

/-- Bytes of a half's region in memory are memory bytes of this slice's own slot of that round (R83). -/
def State.regionCount (h : Half) (off n : Nat) (s : State) : State :=
  let x := s.site h
  if (s.region h).length * frameBytes < off + n && (s.curRound h).any fun r => r.1.bell == x.bell && r.2.layer == x.layer
  then s.modRound h fun r => { r with beyondW := true } else s

/-- The bytes of a record's part at this site. -/
def State.partLen (s : State) (h : Half) (p : Nat) : Nat := min 4096 (s.siteFwd h - 4096 * p)

/-- A record chunk is taken in: its bytes to their place when they passed, its counters, and its record's parts (R194,
R199, R208). -/
def State.sitePart (h : Half) (i job prio : Nat) (tag : W64) (bytes : List Byte) (ok : Bool) (s : State) : State :=
  let e := tExpert tag
  let k := recKey e (tOffset tag)
  let p := tPart tag
  let n := s.partLen h p
  let at_ := s.recOff h e (tOffset tag) + 4096 * p
  let s := (s.regionWrite h at_ bytes).regionCount h at_ bytes.length
  let old := (tFind k (s.site h).recs).getD { src := i, token := tToken tag, rank := tRank tag, job := job, prio := prio }
  let parts := setBits old.parts p p 1
  let whole := parts = 2 ^ partsOf (s.siteFwd h) - 1
  let s := (s.countChunk h i n).modSite h fun x => { x with
    y := addInt i (-(n : Int)) x.y
    recs := tPut k { old with parts := parts, whole := whole, taint := old.taint || !ok } x.recs }
  if whole then s.modSite h fun x => { x with x := addInt e (-1) x.x, recsIn := bump i 1 x.recsIn } else s

/-- A record chunk after FINAL that would take a counter below zero, or that comes from another source than its record
(R202). -/
def State.partExcess (s : State) (h : Half) (i : Nat) (tag : W64) : Bool :=
  let x := s.site h
  let e := tExpert tag
  let old := tFind (recKey e (tOffset tag)) x.recs
  let parts := setBits ((old.map (·.parts)).getD 0) (tPart tag) (tPart tag) 1
  let whole := parts == 2 ^ partsOf (s.siteFwd h) - 1
  ((old.map fun r => r.src != i).getD false)
    || ((tFind e x.finals).isSome && whole && decide ((tFind e x.x).getD 0 < 1))
    || (x.allFinal && decide ((tFind i x.y).getD 0 < (s.partLen h (tPart tag) : Int)))

/-- Part 0 of a record carries a handle of its source and bell (R103, R207). -/
def State.partHandleBad (s : State) (h : Half) (src : Node) (tag : W64) (bytes : List Byte) : Bool :=
  let hd := BitVec.ofNat 64 (fieldAt bytes 0 8)
  tPart tag == 0 && (hSlot hd / 256 != nodeSlice src || hBell hd != (s.site h).bell % 256)

/-- A chunk that has passed, or counts as arrived, is taken in. -/
def State.siteTake (h : Half) (src : Node) (i job prio : Nat) (tag : W64) (bytes : List Byte) (ok : Bool) (s : State) : State :=
  if tHdr tag then s.siteHeader h i bytes ok
  else if s.partExcess h i tag then s.chunkFault 0x56 2 tag src
  else if ok && s.partHandleBad h src tag bytes then
    s.discardHandle (BitVec.ofNat 64 (fieldAt bytes 0 8)) false (tLayer tag) h
  else s.sitePart h i job prio tag bytes ok

/-- LAST on a chunk of a barrow that is still incomplete (R201). -/
def State.lastEarly (h : Half) (i : Nat) (tag : W64) (s : State) : State :=
  if tLast tag && !(s.site h).acked.contains i then s.tallyAdd Pg.DISP 3 1 else s

/-- A forward chunk at its site (R206 to R209). -/
def State.siteChunk (h : Half) (src : Node) (job prio : Nat) (tag : W64) (bytes : List Byte) (crc : BitVec 32) (s : State) :
    State :=
  let x := s.site h
  let n := if tHdr tag then 64 else s.partLen h (tPart tag)
  match indexOfNat src (s.sourcesAt x.bell) with
  | none => s.chunkFault 0x5F 1 tag src
  | some i =>
    if s.tagNoPlace h tag || bytes.length != n then s.chunkFault 0x5F 1 tag src
    else
      let ok := chunkCrc x.bell tag src s.node bytes == crc
      let key := (i, tagKey tag)
      if !ok && !x.crcFail.contains key then
        (s.crcFault false tag src).modSite h fun x => { x with crcFail := key :: x.crcFail }
      else
        let dup := if tHdr tag then (tFind i x.hdrs).isSome
          else bits (((tFind (recKey (tExpert tag) (tOffset tag)) x.recs).map (·.parts)).getD 0) (tPart tag) (tPart tag) == 1
        if dup then s.chunkFault 0x55 2 tag src
        else
          let s := if ok then s else s.crcFault true tag src
          ((s.siteTake h src i job prio tag bytes ok).siteSettle h).lastEarly h i tag

/-- A chunk of a round that has not begun here begins it only when it passes (R206, R208): `t` is the state in which the round
has begun. One that names no place there is rejected, and one whose CRC fails for the first time is discarded. -/
def State.aheadChunk (h : Half) (src : Node) (job prio : Nat) (tag : W64) (bytes : List Byte) (crc : BitVec 32) (t : State)
    (s : State) : State :=
  let x := t.site h
  match indexOfNat src (t.sourcesAt x.bell) with
  | none => s.chunkFault 0x5F 1 tag src
  | some i =>
    if t.tagNoPlace h tag || bytes.length != (if tHdr tag then 64 else t.partLen h (tPart tag)) then s.chunkFault 0x5F 1 tag src
    else if chunkCrc x.bell tag src s.node bytes != crc && !x.crcFail.contains (i, tagKey tag) then
      (s.crcFault false tag src).modSite h fun y => { y with crcAhead := (x.bell * 256 + x.layer, i, tagKey tag) :: y.crcAhead }
    else t.siteChunk h src job prio tag bytes crc

/-- A forward chunk reaches this slice, by a packet or by the loopback of R211. -/
def State.forwardChunk (src : Node) (job prio : Nat) (tag : W64) (bytes : List Byte) (crc : BitVec 32) (s : State) : State :=
  let h := halfOf (tHalf tag)
  let s := (s.tallyAdd Pg.DISP 1 1).lifeAdd 8 (units256 bytes.length)
  let bell := s.chunkBell h tag src bytes crc
  let x := s.site h
  if x.active && x.bell == bell && x.layer == tLayer tag then s.siteChunk h src job prio tag bytes crc
  else
    match s.siteEnter h bell (tLayer tag) with
    | none => s
    | some t => s.aheadChunk h src job prio tag bytes crc t

/-- TOK_CHUNK_RECEIVE (R202, R206 to R211): its packet gives the job and the priority level of its return. -/
def execTokChunkReceive (src : Node) (tag : W64) (bytes : List Byte) (crc : BitVec 32) (s : State) : Out :=
  let (p, s) := s.takeTok src tag
  .next (s.forwardChunk src (p.elim (s.fld Reg.CTX_MODEL 15 0) (·.job)) (p.elim 3 (·.prio)) tag bytes crc)

/-! ## Reads through the aperture (R37, R276) -/

/-- What an expert core reads through the aperture (R37, R276): stall SRAM, or the bytes of the half's receive region, with
zero beyond its end. The table of commands has no row for such a read. -/
def State.apertureRead (s : State) (place : AperturePlace) (n : Nat) : List Byte :=
  match place with
  | .sram off => s.rdSram off n
  | .view h off =>
    let k := min n (s.regionBytes (s.site h).bell - off)
    s.regionRead h off k ++ leBytes (n - k) 0

end Sys2Proof.Machine
end

