-- ==== Sys2Proof/Machine/Gate.lean ====
section
/-! DEFINITION. Gate weights and dispatch (R68, R182 to R185, R192, R204 to R207, R211, R213, R214, R222, R224, R415): the
weight list, the return area's frames, local gathers, forward barrows, and the TOK sender. -/
namespace Sys2Proof.Machine

/-! ## Gate weights (R184) -/

/-- The largest raw score of a list; −0 counts as +0 in the comparison. -/
def rawMax : List Cand → F32
  | [] => 0#32
  | c :: t => t.foldl (fun m x => if fLt m x.raw then x.raw else m) c.raw

/-- n_i of R184. -/
def gateNum (gate : Nat) (mu raw : F32) : F32 := if gate = 0 then fExpNeg (fSub raw mu) else fSigmoid raw

/-- A sum taken one term at a time, from the first term. -/
def gateSum : List F32 → F32
  | [] => 0#32
  | a :: t => t.foldl fAdd a

/-- The final weights of a token's choices, by choice index (R184). -/
def gateWeights (sel : SelEnt) (l : List Cand) (cs : List Choice) : List F32 :=
  let mu := rawMax l
  let terms := (cs.filter fun c => if sel.renorm then c.st == .granted else c.st != .empty).map
    fun c => gateNum sel.gate mu c.raw
  let d := gateSum terms
  cs.map fun c =>
    if c.st ≠ .granted then 0#32
    else
      let w := if sel.gate = 2 then fSigmoid c.raw
        else if terms.isEmpty || fIsZero d then 0#32
        else fDiv (gateNum sel.gate mu c.raw) d
      fMul w sel.scale

/-- The weight list of a token by place (R222). -/
def placeWeights (sel : SelEnt) (t : RTok) : List F32 :=
  let ws := gateWeights sel t.sel t.choices
  let ranks := (t.choices.zipIdx.filter fun p => p.1.st == .granted).map fun p =>
    (rankOf sel.ec t.choices p.2, ws.getD p.2 0#32)
  (sel.sharedIds.map fun _ => fOne) ++ (List.range sel.g).map fun r => (tFind r ranks).getD 0#32

/-- Every token gets its weights. -/
def State.gateAll (v : RoundView) (h : Half) (s : State) : State :=
  s.modRound h fun r => { r with toks := r.toks.map fun t => { t with weights := placeWeights v.sel t } }

/-! ## The return area (R222, R224) -/

/-- The frames of a round's return area are mapped, and CMB_AREA shows them (R240). -/
def State.mapArea (v : RoundView) (h : Half) (s : State) : State :=
  let n := min (ceilDiv v.areaBytes frameBytes) (confFld v.conf Reg.CMB_RET_MAP 5 0)
  let (fs, s) := s.takeFrames n (.retArea h)
  let s := s.modRound h fun r => { r with areaFrames := fs }
  let s := s.setFld Reg.CMB_AREA (5 + 8 * h.num) (8 * h.num) fs.length
  s.setFld Reg.CMB_AREA (16 + h.num) (16 + h.num) (b2n (fs.length * frameBytes < v.areaBytes))

/-- The weight list is written at the start of the area (R222). -/
def State.writeWeights (h : Half) (s : State) : State :=
  match s.view h with
  | none => s
  | some v => s.retWrite v h 0 (v.rnd.toks.flatMap fun t => t.weights.flatMap fun w => leBytes 4 w.toNat)

/-! ## Records -/

/-- A forward record (R204). -/
def State.fwdRecord (s : State) (v : RoundView) (h : Half) (i place rank : Nat) : List Byte :=
  match v.set.toks[i]?, v.rnd.toks[i]? with
  | some t, some x =>
    let hs := v.sel.sharedIds.length
    let flags := if place < hs then 4 + 8 * b2n (place == 1) else 0
    leBytes 8 (s.handleFor v.set t v.rnd.layer rank).toNat ++ leBytes 4 (x.weights.getD place 0#32).toNat ++ leBytes 4 flags
      ++ s.convGet h i (confWire v.conf v.rnd.layer)
  | _, _ => []

/-- One forward record to send: expert, offset, token, rank. -/
structure Ship where
  expert : Nat
  offset : Nat
  token : Nat
  rank : Nat

/-- The order of records in a barrow (R205). -/
def shipLt (a b : Ship) : Bool := a.expert < b.expert || (a.expert == b.expert && a.offset < b.offset)

/-- The records of a round by compute site, each list in barrow order. -/
def RoundView.ships (v : RoundView) (site : Nat) : List Ship :=
  sortBy shipLt (v.rnd.toks.zipIdx.flatMap fun p =>
    (grantedRanks v.sel.ec p.1.choices).filterMap fun q =>
      if q.2.isOpen || q.2.site != site then none else some ⟨q.2.expert, q.2.offset, p.2, q.1⟩)

/-- The compute sites of a round, ascending. -/
def RoundView.sites (v : RoundView) : List Nat :=
  sortBy (fun a b => decide (a < b)) ((v.rnd.toks.flatMap fun t => (t.choices.filter fun c => c.st == .granted && !c.isOpen).map
    (·.site)).eraseDups)

/-- The job of a context (R417). -/
def State.ctxJob (s : State) (c : Nat) : Nat := (tGet (fun _ => ({} : Ctx)) c s.ctx.ctxs).job

/-- LAST goes on the last chunk of a list (R206). -/
def markLast : List TokChunk → List TokChunk
  | [] => []
  | [c] => [{ c with tag := tagLast c.tag }]
  | c :: t => c :: markLast t

/-- The chunks of the forward barrow to a site (R203 to R206, R415). -/
def State.barrowChunks (s : State) (v : RoundView) (h : Half) (site : Nat) (ships : List Ship) : List TokChunk :=
  let dest := nodeAt v.sources site
  let bf := confBfwd v.conf v.rnd.layer
  let n := ships.length
  let hdr := barrowHeader v.set.bell s.node dest v.rnd.layer h false false (confWireBf16 v.conf v.rnd.layer) n (64 + n * bf) 0
    (1 + n * partsOf bf) 0
  let recs := ships.flatMap fun x =>
    let ctx := (v.set.toks[x.token]?).elim 0 (·.ctx)
    (recordChunks h v.rnd.layer false x.expert x.offset x.token x.rank
      (s.fwdRecord v h x.token (v.sel.sharedIds.length + x.rank) x.rank)).map fun c =>
        (⟨dest, c.1, c.2, v.set.bell, s.ctxJob ctx, ctx⟩ : TokChunk)
  markLast (s.headerChunk dest v.set.bell (headerTag h v.rnd.layer false) hdr :: recs)

/-- A barrow to a site: sent, or, to a dead slice, ended with its records lost (R267). -/
def State.shipTo (v : RoundView) (h : Half) (site : Nat) (s : State) : State :=
  let ships := v.ships site
  let s := s.modRound h fun r => { r with shipped := tPut site ships.length r.shipped }
  if s.deadNow site then s.modRound h fun r => { r with lostPlaces := tPut site ships.length r.lostPlaces }
  else
    let s := s.modRound h fun r => { r with unacked := r.unacked ++ [site] }
    (s.tallyAdd Pg.SORT 1 ships.length).tokReady h (s.barrowChunks v h site ships)

/-! ## Local gathers (R192, R214) -/

/-- The tokens and places of a round computed at the source by an expert, in scoring-index order: token, place, rank. -/
def RoundView.localRecs (v : RoundView) (e : Nat) : List (Nat × Nat × Nat) :=
  let hs := v.sel.sharedIds.length
  v.rnd.toks.zipIdx.flatMap fun p =>
    let sh := (v.sel.sharedIds.zipIdx.filter fun q => q.1 == e).map fun q => (p.2, q.2, 0)
    let op := ((grantedRanks v.sel.ec p.1.choices).filter fun q => q.2.isOpen && q.2.expert == e).map
      fun q => (p.2, hs + q.1, q.1)
    sh ++ op

/-- The experts computed at the source in a round, ascending. -/
def RoundView.localExperts (v : RoundView) : List Nat :=
  let op := v.rnd.toks.flatMap fun t => (t.choices.filter fun c => c.st == .granted && c.isOpen).map (·.expert)
  let sh := if v.rnd.toks.isEmpty then [] else v.sel.sharedIds
  sortBy (fun a b => decide (a < b)) (sh ++ op).eraseDups

/-- q of R214: records of one gather buffer. -/
def State.gatherMax (s : State) (v : RoundView) : Nat :=
  max 1 (min (262144 / confBfwd v.conf v.rnd.layer) (s.tMax v.bret))

/-- A gather buffer is filled and becomes a unit of tile work (R214, R272). -/
def State.gatherInto (v : RoundView) (h : Half) (e : Nat) (recs : List (Nat × Nat × Nat)) (id : Nat) (s : State) : State :=
  let bf := confBfwd v.conf v.rnd.layer
  let s := s.slotBuf h id
  let s := recs.zipIdx.foldl (fun s p =>
    s.wrPlace (s.bufPlace id) (p.2 * bf) (s.fwdRecord v h p.1.1 p.1.2.1 p.1.2.2)) s
  let g : Gather := ⟨h, v.rnd.layer, e, recs.map fun p => ⟨p.1, p.2.1⟩⟩
  let s := { s with gathers := tPut id g s.gathers }
  (s.tallyAdd Pg.SORT 1 recs.length).addUnit h v.set.bell v.rnd.layer e (some id)

/-- A gather buffer of the records of an expert; where the pools have none, the gather waits for it (R215). -/
def State.gatherBuf (v : RoundView) (h : Half) (e : Nat) (recs : List (Nat × Nat × Nat)) (s : State) : State :=
  match s.allocBuf 2 [2, 4, 5] none with
  | (none, s) => s.waitBuf 2 [2, 4, 5] (.gather h v.set.bell v.rnd.layer e recs)
  | (some id, s) => s.gatherInto v h e recs id

/-- The gather chain of an expert. -/
def State.gatherExpert (v : RoundView) (h : Half) (e : Nat) (s : State) : State :=
  let recs := v.localRecs e
  (chunksOf (s.gatherMax v) recs.length recs).foldl (fun s part => s.gatherBuf v h e part) s

/-! ## GATE_WEIGHTS_DONE -/

/-- Tokens that wait for no place are ready (R229). -/
def State.readyNow (h : Half) (s : State) : State :=
  match (s.half h).cur with
  | none => s
  | some r =>
    let is := (r.toks.zipIdx.filter fun p => decide (p.1.t ≤ 0) && !p.1.ready).map (·.2)
    (s.modRound h fun r => { r with toks := r.toks.map fun t => if t.t ≤ 0 then { t with ready := true } else t }).enterReady
      h is

/-- Tokens with a place at a dead site will not have it filled (R267). -/
def State.giveUpDead (v : RoundView) (h : Half) (s : State) : State :=
  let is := (v.rnd.toks.zipIdx.filter fun p => p.1.choices.any fun c =>
    c.st == .granted && !c.isOpen && s.deadNow c.site).map (·.2)
  is.foldl (fun s i => s.giveUp h i) s

/-- A gather of a half still waits for its buffer. -/
def State.gatherWaits (s : State) (h : Half) : Bool := s.pool.waiters.any fun w => match w.for_ with
  | .gather k _ _ _ _ => k == h
  | .conv _ => false

/-- The converted inputs have been sorted, and no gather waits to copy them: SORT, their last owner, frees their buffers
(R217). -/
def State.freeConv (h : Half) (s : State) : State :=
  if s.gatherWaits h then s else (s.freeBufs (s.conv h) 2).setConv h []

/-- A buffer granted to a waiting request goes to its requester (R215): a gather of the running round is filled; a request
of the converted-input stream takes it when it scores on. -/
def State.takeGrant (w : Waiter) (id : Nat) (s : State) : State :=
  match w.for_ with
  | .conv _ => { s with pool := { s.pool with grants := s.pool.grants ++ [(id, w)] } }
  | .gather h bell layer e recs =>
    match s.view h with
    | some v => if v.set.bell = bell ∧ v.rnd.layer = layer then (s.gatherInto v h e recs id).freeConv h else s.freeBuf id 5
    | none => s.freeBuf id 5

/-- A waiting pool request of a class is served when a buffer frees (R215): the request that has waited longest takes
what the order of R215 finds. With no waiting request of the class, or no buffer, nothing happens. -/
def execPoolRequestGrant (cls : Nat) (s : State) : Out :=
  match s.pool.waiters.find? fun w => w.cls == cls with
  | none => .next s
  | some w =>
    match s.takeBuf cls w.owners w.ctx with
    | (none, s) => .next s
    | (some id, s) =>
      let s := match w.ctx with
        | some x => s.modCtx x fun k => { k with poolWait := k.poolWait + (s.now - w.since) }
        | none => s
      .next (({ s with pool := { s.pool with waiters := s.pool.waiters.erase w } } : State).takeGrant w id)

/-- With no barrow under way the forward interval has ended (R68). -/
def State.endForward (h : Half) (s : State) : State :=
  s.modRound h fun r => if r.unacked.isEmpty && r.fwdEnd.isNone then { r with fwdEnd := some s.now } else r

/-- Everything that follows the gate weights of a half (R184, R192, R205, R222, R224). -/
def State.dispatch (v : RoundView) (h : Half) (s : State) : State :=
  let s := v.sites.foldl (fun s k => s.shipTo v h k) s
  let s := v.localExperts.foldl (fun s e => s.gatherExpert v h e) s
  ((s.freeConv h).endForward h).readyNow h |>.giveUpDead v h

/-- GATE_WEIGHTS_DONE (R184, R185, R222): after the last fold of the half, once. -/
def execGateWeightsDone (half : Half) (s : State) : Out :=
  match s.view half with
  | none => .next s
  | some v =>
    if !v.rnd.folded || v.rnd.gated then .next s
    else
      let s := ((s.gateAll v half).mapArea v half).writeWeights half
      let s := s.modRound half fun r => { r with gated := true }
      match s.view half with
      | some v => .next (s.dispatch v half)
      | none => .next s

/-! ## The TOK sender (R211, R213) -/

/-- The half that the sender serves: of those with a chunk ready the one whose spell began earlier, Calico on a tie. -/
def State.tokPick (s : State) : Option Half :=
  match s.tok.cal.isEmpty, s.tok.mus.isEmpty with
  | true, true => none
  | false, true => some .calico
  | true, false => some .muslin
  | false, false => if s.tok.sinceCal ≤ s.tok.sinceMus then some .calico else some .muslin

/-- The destinations of the return chunks that a half has ready. -/
def State.returnDests (s : State) (h : Half) : List Nat :=
  (((s.tokQueue h).filter fun c => tDir c.tag == 1).map (·.dest)).eraseDups

/-- The time the other half has waited since it was last counted (R69, R212). -/
def State.countWait (h : Half) (s : State) : State :=
  let o := h.other
  if (s.tokQueue o).isEmpty then { s with tok := { s.tok with countedTo := s.now } }
  else
    let d := s.now - max (s.tokSince o) s.tok.countedTo
    let waits := (s.returnDests o).foldl (fun t k => tPut (k * 2 + o.num) (tGet zeroNat (k * 2 + o.num) t + d) t) s.tok.waits
    let fwd := (s.tokQueue o).any fun c => tDir c.tag == 0
    let s := { s with tok := { s.tok with countedTo := s.now, waits := waits } }
    let s := if fwd then s.modRound o fun r => { r with overlap := r.overlap + d } else s
    s.tallyAdd Pg.DISP (4 + o.num) (2 * d)

/-- A return header takes its return wait when it is sent (R212). -/
def State.stampWait (h : Half) (c : TokChunk) (s : State) : TokChunk × State :=
  if tDir c.tag = 1 ∧ tHdr c.tag then
    let k := c.dest * 2 + h.num
    let w := min (tGet zeroNat k s.tok.waits) (2 ^ 32 - 1)
    ({ c with bytes := c.bytes.take 0x2C ++ leBytes 4 w ++ c.bytes.drop 0x30 },
     { s with tok := { s.tok with waits := tDel k s.tok.waits } })
  else (c, s)

/-- A TOK packet (R205, R299, R300). -/
def State.tokPacket (s : State) (c : TokChunk) : Packet :=
  { dest := c.dest, src := s.node, job := c.job, cls := 5, prio := c.prio, type := 0, arg := c.tag, payload := c.bytes,
    crc := some (chunkCrc c.bell c.tag s.node c.dest c.bytes) }

/-- A chunk leaves: by the loopback to this slice (R211), or as a packet, with a copy kept (R208). -/
def State.tokOut (c : TokChunk) (s : State) : State :=
  let s := (s.tallyAdd Pg.DISP 0 1).lifeAdd 7 (units256 c.bytes.length)
  if c.dest = s.node then
    let crc := chunkCrc c.bell c.tag s.node s.node c.bytes
    if tDir c.tag = 0 then s.forwardChunk s.node c.job c.prio c.tag c.bytes crc
    else s.returnChunk s.node c.tag c.bytes crc
  else { s with tok := { s.tok with kept := s.tok.kept ++ [c] } } |>.send (s.tokPacket c)

/-- TOK_CHUNK_SEND (R213): the sender sends the next ready chunk of the half it serves. -/
def execTokChunkSend (s : State) : Out :=
  match s.tokPick with
  | none => .next { s with tok := { s.tok with serving := none, countedTo := s.now } }
  | some h =>
    let s := s.countWait h
    match s.tokQueue h with
    | [] => .next s
    | c :: rest =>
      let s := s.setTokQueue h rest
      let s := { s with tok := { s.tok with serving := some h } }
      let (c, s) := s.stampWait h c
      .next (s.tokOut c)

end Sys2Proof.Machine
end

