-- ==== Sys2Proof/Machine/Mins.lean ====
section
/-! DEFINITION. The largest sizes over the layers of a configuration, and the pool minimums that follow from the tables in
force (R79, R216). -/
namespace Sys2Proof.Machine

/-- The layers of a configuration. -/
def confRange (c : Table W64) : List Nat := List.range (confLayers c)

/-- B_fwd at its largest over the layers. -/
def confBfwdMax (c : Table W64) : Nat := maxNat ((confRange c).map (confBfwd c))

/-- B_ret at its largest over the layers. -/
def confBretMax (c : Table W64) : Nat := maxNat ((confRange c).map (confBret c))

/-- The selection entries of a configuration's table. -/
def State.selEnts (s : State) (c : Table W64) : List SelEnt := (confRange c).map (s.selEnt c)

/-- h and g of R79 at their largest over the layers. -/
def State.hMax (s : State) (c : Table W64) : Nat := maxNat ((s.selEnts c).map fun e => e.sharedIds.length)
def State.gMax (s : State) (c : Table W64) : Nat := maxNat ((s.selEnts c).map fun e => e.g)

/-- Records of a gather buffer of a layer (R214, R272). -/
def gatherRecs (c : Table W64) (l : Nat) : Nat :=
  min (262144 / confBfwd c l) (min (confFld c Reg.TILE_MODE 16 8) (2097152 / confBret c l))

/-- The minimum counts of overflow buffers by class (R216), in buffers; 0 while no selection table stands. -/
def State.ovfMins (s : State) (c : Table W64) : List Nat :=
  if confFld c Reg.SEL_TABLE_LIVE 51 12 = 0 ∨ confLayers c = 0 then [0, 0, 0, 0]
  else
    let v := maxNat ((confRange c).map (confWire c))
    let q := minNat ((confRange c).map (gatherRecs c))
    let opens := (s.expertIds.filter fun e => dOpen (s.dirNow e)).length
    [2 * ceilDiv (8192 * v) 4096, 0, 2 * (ceilDiv (8192 * (s.gMax c + s.hMax c)) q + opens + s.hMax c), 0]

/-- Counts in units of 8 buffers, packed as POOL_OVF_CNT packs them. -/
def packUnits (ns : List Nat) : Nat := sumNat (ns.zipIdx.map fun p => ceilDiv p.1 8 % 2 ^ 16 * 2 ^ (16 * p.2))

/-- POOL_OVF_MIN follows the tables and TILE_MAX in force (R216). -/
def State.showMins (s : State) : State := s.setReg Reg.POOL_OVF_MIN (BitVec.ofNat 64 (packUnits (s.ovfMins s.regs)))

end Sys2Proof.Machine
end

