-- ==== Sys2Proof/Machine/Direc.lean ====
section
/-! DEFINITION. The stall directory (R166, R242 to R248, R258, R265 to R269): its checks, image load, edit lists, rehoming,
the hint list, and what a dead-slice notice does. -/
namespace Sys2Proof.Machine

/-! ## The source set (R166) -/

/-- The entries of a source set list strictly rise and set no reserved bit. -/
def srcsetOk : List Nat → Bool
  | [] => true
  | [a] => a < 2 ^ 23
  | a :: b :: t => a < 2 ^ 23 && a < b && srcsetOk (b :: t)

/-- A source set list in memory; none when it is refused or cannot be read (R166). -/
def State.readSources (s : State) (base n : Nat) : Option (List Nat) :=
  if s.poisoned base (4 * n) then none
  else
    let xs := (List.range n).map fun i => s.rdNat (base + 4 * i) 4
    if srcsetOk xs then some xs else none

/-- A register has a staged value. -/
def State.isStaged (s : State) (r : Nat) : Bool := (tFind r s.staged).isSome

/-- The source set that would be in force at the next bell open (R244); empty while its base or count is zero. -/
def State.nextSources (s : State) : List Nat :=
  let base := s.stagedFld Reg.AUC_SRCSET 51 6 * 64
  let n := s.stagedFld Reg.AUC_SRCCOUNT 15 0
  if base = 0 ∨ n = 0 then []
  else if s.isStaged Reg.AUC_SRCSET || s.isStaged Reg.AUC_SRCCOUNT then (s.readSources base n).getD []
  else s.res.sources

/-! ## Checks (R176, R244) -/

/-- A breach: its REASON (R270), and whether it is one of R176. -/
abbrev Breach := Nat × Bool

/-- A source index of a source set names a slice that a rehoming has taken out (R244, R268). -/
def State.rehomedIn (s : State) (nodes : List Nat) (i : Nat) : Bool :=
  s.res.rehomed.any fun j => nodeAt s.res.sources j == nodeAt nodes i

/-- The breaches of one entry (R244) under a source set; REHOMED breaks a rule in a host-written entry only. -/
def State.entryBreaches (s : State) (nodes : List Nat) (written : Bool) (d : Nat) : List Breach :=
  let sites := dSiteList d
  (if bits d 127 127 = 1 then [(7, false)] else [])
    ++ (if dState d = 3 ∨ (written ∧ dState d = 1) ∨ (dOpen d ∧ dCap d ≠ 0) then [(1, false)] else [])
    ++ (if dOpen d = false ∧ 4096 < dCap d then [(1, true)] else [])
    ++ (if fFinite (dBias d) then [] else [(5, false)])
    ++ (if (sites.eraseDups.length != sites.length) || (sites.any fun i => decide (nodes.length ≤ i) || s.rehomedIn nodes i)
        then [(2, false)] else [])

/-- The running sums of the limits, by source index: home capacity, replica capacity, capped stalls; and open stalls. -/
structure DirSums where
  home : Table Nat := []
  rep : Table Nat := []
  cnt : Table Nat := []
  opens : Nat := 0

/-- An entry enters the sums. -/
def DirSums.add (x : DirSums) (d : Nat) : DirSums :=
  if dState d = 2 then x
  else if dOpen d then { x with opens := x.opens + 1 }
  else
    let sites := dSiteList d
    { x with home := bump (dHome d) (dCap d) x.home
             rep := sites.foldl (fun t i => bump i (dCap d) t) x.rep
             cnt := sites.foldl (fun t i => bump i 1 t) x.cnt }

/-- An entry leaves the sums. -/
def DirSums.sub (x : DirSums) (d : Nat) : DirSums :=
  if dState d = 2 then x
  else if dOpen d then { x with opens := x.opens - 1 }
  else
    let sites := dSiteList d
    let down := fun (i n : Nat) (t : Table Nat) => tPut i (tGet zeroNat i t - n) t
    { x with home := down (dHome d) (dCap d) x.home
             rep := sites.foldl (fun t i => down i (dCap d) t) x.rep
             cnt := sites.foldl (fun t i => down i 1 t) x.cnt }

/-- The limits that the sums break after an entry (R176, R244). -/
def DirSums.breaches (x : DirSums) (d : Nat) : List Breach :=
  if dState d = 2 then []
  else if dOpen d then
    (if 4096 < x.opens + maxNat (x.cnt.map (·.2)) then [(4, false)] else [])
  else
    let sites := dSiteList d
    (if sites.any fun i => decide (4096 < x.opens + tGet zeroNat i x.cnt) then [(4, false)] else [])
      ++ (if sites.any fun i => decide (32767 < tGet zeroNat i x.rep) then [(3, false)] else [])
      ++ (if 25600 < tGet zeroNat (dHome d) x.home then [(3, true)] else [])

/-- The first expert at which a limit breaks, with what breaks there (R244). -/
def firstLimit : Nat → DirSums → List Nat → Option (Nat × List Breach)
  | _, _, [] => none
  | e, x, d :: t =>
    let x := x.add d
    match x.breaches d with
    | [] => firstLimit (e + 1) x t
    | bs => some (e, bs)

/-- The breach reported of an expert: READ when its entry could not be read, otherwise the lowest REASON (R244). -/
def pickBreach (bs : List Breach) : Breach :=
  let ks := bs.map (·.1)
  let r := if ks.contains 8 then 8 else ks.foldl min 15
  (r, bs.any fun b => b.1 == r && b.2)

/-- The lowest failing expert of phase 1, with its breach; `bad` lists breaches by expert. -/
def firstBad (bad : List (Nat × List Breach)) (limit : Option (Nat × List Breach)) : Option (Nat × Breach) :=
  let all := (bad ++ limit.toList).filter fun p => !p.2.isEmpty
  match sortBy (fun a b => decide (a < b)) (all.map (·.1)) with
  | [] => none
  | e :: _ => some (e, pickBreach ((all.filter fun p => p.1 == e).flatMap (·.2)))

/-- A descriptor is refused (R248): its ID, a reserved bit, BLOCK zero, POOL_ADDR zero while hosted. -/
def descBad (b : List Byte) (e : Nat) (hosted : Bool) : Bool :=
  dscId b != e || bits (fieldAt b 0x10 4) 31 20 != 0 || bits (fieldAt b 0x14 1) 7 2 != 0 || bits (fieldAt b 0x15 1) 7 2 != 0
    || bits (fieldAt b 0x16 2) 15 15 != 0 || fieldAt b 0x18 8 != 0 || dscBlock b == 0 || (hosted && dscPool b == 0)

/-- The in-place address of a hosted expert's descriptor, as a window offset (R253). -/
def State.descInPlace (s : State) (nodes : List Nat) (d : Nat) (b : List Byte) : Option Nat :=
  if dscPool b ≠ 0 ∧ faNode (dscPool b) = s.node then some (faOffset (dscPool b))
  else if dscMirror b ≠ 0 ∧ faNode (dscMirror b) = s.node then some (faOffset (dscMirror b))
  else if dOpen d ∧ ((s.selfIdx nodes).elim false fun i => (dSiteList d).contains i) then some (faOffset (dscPool b))
  else none

/-- An in-place address maps to a region with the model job and READ (R253). -/
def State.inPlaceOk (s : State) (off : Nat) : Bool :=
  match s.regionOf off 1 with
  | some r => r.job == bits s.checkModel 15 0 && bits r.flags 0 0 == 1
  | none => false

/-- The slice reads the descriptor of an entry: it hosts the expert, or the entry names a mirror (R244, R248). -/
def State.readsDesc (s : State) (nodes : List Nat) (d : Nat) : Bool :=
  (s.selfIdx nodes).elim (dOpen d && dState d != 2) (fun i => hosts d i) || dMirror d

/-- The REASON an expert's descriptor fails phase 2 with; 0 when it passes (R244, R248, R253). -/
def State.descReason (s : State) (t : TableRead) (nodes : List Nat) (base e d : Nat) : Nat :=
  let hosted := (s.selfIdx nodes).elim (dOpen d && dState d != 2) fun i => hosts d i
  if !hosted && !dMirror d then 0
  else if s.unreadable t (base + 64 * e) 64 then 8
  else
    let b := s.rd (base + 64 * e) 64
    let place := match s.descInPlace nodes d b with
      | some off => hosted && !s.inPlaceOk off
      | none => false
    if descBad b e hosted || place then 9
    else if dMirror d && dscMirror b == 0 then 10
    else 0

/-- The reads of the descriptors of phase 2 (R35, R244, R248): none when phase 1 fails. -/
def State.noteDescs (nodes : List Nat) (base : Nat) (dir : List Nat) (bad : List (Nat × List Breach)) (xs : List (Nat × Nat))
    (s : State) : State :=
  match firstBad bad (firstLimit 0 {} dir) with
  | some _ => s
  | none => xs.foldl (fun s p => if s.readsDesc nodes p.2 then s.noteUe (base + 64 * p.1) 64 else s) s

/-- Phase 2 over a list of experts with their entries: the lowest that fails. -/
def State.descPhase (s : State) (t : TableRead) (nodes : List Nat) (base : Nat) (xs : List (Nat × Nat)) : Option (Nat × Nat) :=
  ((xs.map fun p => (p.1, s.descReason t nodes base p.1 p.2)).find? fun p => p.2 != 0)

/-- The descriptors that a slice caches of a list of experts (R248). -/
def State.descRead (s : State) (nodes : List Nat) (base : Nat) (xs : List (Nat × Nat)) : Table (List Byte) :=
  xs.foldl (fun t p =>
    let keep := (s.selfIdx nodes).elim (dOpen p.2) fun i => hosts p.2 i
    if keep && !s.poisoned (base + 64 * p.1) 64 then tPut p.1 (s.rd (base + 64 * p.1) 64) t else t) []

/-- Base of the descriptor table: the one held for a model switch, or the one in force (R245). -/
def State.descBase (s : State) (held : Bool) : Nat :=
  match held, s.res.heldDesc with
  | true, some b => b
  | _, _ => s.fld Reg.RES_DESC 51 12 * 4096

/-- A directory that breaks a rule: the state register, and the code of R244. -/
def State.dirRefuse (reg st stHi e reason : Nat) (cap : Bool) (s : State) : State :=
  let s := ((s.setFld reg stHi 0 st).setFld reg 7 4 reason).setFld reg 22 8 e
  if cap then s.record Pg.AUC 0x42 0 else s.resFault 0x70 e 0

/-- The outcome of the checks of a whole directory and some experts' descriptors: none when it passes. -/
def State.dirCheck (s : State) (t : TableRead) (nodes : List Nat) (base : Nat) (dir : List Nat) (bad : List (Nat × List Breach))
    (descs : List (Nat × Nat)) : Option (Nat × Nat × Bool) :=
  match firstBad bad (firstLimit 0 {} dir) with
  | some (e, r, cap) => some (e, r, cap)
  | none => (s.descPhase t nodes base descs).map fun p => (p.1, p.2, false)

/-! ## The directory in force -/

/-- RES_HOSTED shows the directory in force (R270). -/
def State.showHosted (nodes : List Nat) (s : State) : State :=
  let me := s.selfIdx nodes
  let ds := s.expertIds.map s.dirNow
  let hosted := (ds.filter fun d => me.elim (dOpen d && dState d != 2) fun i => hosts d i).length
  let homed := (ds.filter fun d => !dOpen d && dState d != 2 && me == some (dHome d)).length
  let h := sumNat (ds.map fun d => if me.elim false fun i => replicates d i then dCap d else 0)
  s.setReg Reg.RES_HOSTED (BitVec.ofNat 64 (hosted % 2 ^ 13 + homed % 2 ^ 13 * 2 ^ 13 + h % 2 ^ 15 * 2 ^ 26))

/-- A running round may still use the blocks of an expert this slice has stopped hosting (R247): an entry of it is in the
undo table, or tiles of it are not over. -/
def State.stillUsed (s : State) (e : Nat) : Bool :=
  (s.res.undo.any fun u => u.2.1 == e) || s.tiles.units.any fun p => p.2.expert == e && !p.2.ended

/-- Blocks and queued fetches of experts no longer hosted leave, once no running round uses them (R247). -/
def State.dropUnhosted (s : State) : State :=
  let hs := s.hosted
  let keep (e : Nat) : Bool := hs.contains e || s.stillUsed e
  { s with res := { s.res with
    blocks := s.res.blocks.filter fun p => keep (p.1 / 256)
    queue := s.res.queue.filter fun f => keep f.expert
    descs := s.res.descs.filter fun p => keep p.1 } }

/-- The entries of an image as a table. -/
def dirTable (entries : List Nat) : Table Nat :=
  entries.zipIdx.foldl (fun (t : Table Nat) (p : Nat × Nat) => tSet dirZero p.2 p.1 t) []

/-- A directory image comes into force (R245). -/
def State.dirInstall (entries : List Nat) (descs : Table (List Byte)) (nodes : List Nat) (s : State) : State :=
  let s := { s with res := { s.res with
    dir := dirTable entries, descs := descs, undo := [], pins := [], mirrorFirst := [], edit := none, editPost := none } }
  ((s.setFld Reg.RES_DIR_LIVE 15 0 entries.length).showHosted nodes).showMins

/-! ## RES_DIR (R245) -/

/-- A write of the RES page is dropped with DIR_BUSY. -/
def State.dirBusy (r : Nat) (s : State) : State :=
  let s := s.setReg Reg.RES_FAULT (BitVec.ofNat 64 (0x71 * 2 ^ 24 + s.bellNo % 2 ^ 32 * 2 ^ 32))
  s.dropWrite 0x71 r

/-- A model switch is armed or in progress (R429). -/
def State.armed (s : State) : Bool := s.fld Reg.CTX_STATE 17 16 != 0

/-- RES_DIR_WRITE (R245): a load starts while PBELL_STATE is STOPPED, or for an armed model switch; at any other time the
write is dropped. -/
def State.resDirWrite (v : W64) (s : State) : State :=
  s.gated Reg.RES_DIR v fun s =>
    if s.bellState ≠ 0 ∧ !s.armed then s.dirBusy Reg.RES_DIR
    else
      let s := s.setReg Reg.RES_DIR v
      let s := { s.readsOver .directory with res := { s.res with dirLoad := some (s.nextSources, s.bellState != 0) } }
      s.setReg Reg.RES_DIR_STAT 1

/-- The command of that write. -/
def execResDirWrite (v : W64) (s : State) : Out := .next (s.resDirWrite v)

/-- RES_DIR_LOAD_DONE (R244, R245): the load ends; a model switch holds what it loaded (R429). -/
def execResDirLoadDone (s : State) : Out :=
  match s.res.dirLoad with
  | none => .next s
  | some (nodes, held) =>
    let base := s.fld Reg.RES_DIR 51 16 * 2 ^ 16
    let n := s.fld Reg.RES_DIR 15 0
    let s := s.noteUe base (16 * n)
    let entries := (List.range n).map fun e => s.rdNat (base + 16 * e) 16
    let bad := entries.zipIdx.map fun p =>
      (p.2, (if s.unreadable .directory (base + 16 * p.2) 16 then [(8, false)] else []) ++ s.entryBreaches nodes true p.1)
    let xs := entries.zipIdx.map fun p => (p.2, p.1)
    let db := s.descBase held
    let s := { s with res := { s.res with dirLoad := none } }
    let out := s.dirCheck .directory nodes db entries bad xs
    let s := (s.noteDescs nodes db entries bad xs).readsOver .directory
    match out with
    | some (e, r, cap) => .next (s.dirRefuse Reg.RES_DIR_STAT 3 1 e r cap)
    | none =>
      let descs := s.descRead nodes db xs
      let s := s.setReg Reg.RES_DIR_STAT 2
      if held then .next { s with res := { s.res with heldDir := some ⟨entries, descs, nodes⟩ } }
      else .next (s.dirInstall entries descs nodes)

/-! ## RES_EDIT (R246, R247) -/

/-- RES_EDIT_WRITE (R246); a package edit list in its checks or queued keeps it out (R526). -/
def State.resEditWrite (v : W64) (s : State) : State :=
  s.gated Reg.RES_EDIT v fun s =>
    if s.experts = 0 ∨ s.fld Reg.DIRCTL_STAT 2 0 = 1 ∨ s.fld Reg.DIRCTL_STAT 2 0 = 2 then s.dirBusy Reg.RES_EDIT
    else
      let s := { s.readsOver .edits with res := { s.res with
        editPost := some (bits v.toNat 51 12 * 4096, bits v.toNat 11 0 + 1), edit := none } }
      s.setReg Reg.RES_EDIT_STAT 1

/-- The command of that write. -/
def execResEditWrite (v : W64) (s : State) : Out := .next (s.resEditWrite v)

/-- The breaches of the edits of a list as a list (R244): order, range, reserved bits, and those of each entry. -/
def State.editBreaches (s : State) (nodes : List Nat) : Option Nat → List (List Byte) → List (Nat × List Breach)
  | _, [] => []
  | prev, b :: t =>
    let e := fieldAt b 0 2 % 2 ^ 15
    let d := fieldAt b 0x10 16
    let bs := (if bits (fieldAt b 0 2) 15 15 = 1 ∨ fieldAt b 2 14 ≠ 0 then [(7, false)] else [])
      ++ (if prev.elim false fun p => decide (e ≤ p) then [(6, false)] else [])
      ++ (if s.experts ≤ e then [(1, false)] else [])
    (e, bs ++ s.entryBreaches nodes true d) :: State.editBreaches s nodes (some e) t

/-- The directory that a list of edits would give. -/
def State.editedDir (s : State) (edits : List (Nat × Nat)) : List Nat :=
  let t := edits.foldl (fun t p => tPut p.1 p.2 t) ([] : Table Nat)
  s.expertIds.map fun e => (tFind e t).getD (s.dirNow e)

/-- The edits of a list as bytes. -/
def editsOf (bs : List (List Byte)) : List (Nat × Nat) := bs.map fun b => (fieldAt b 0 2 % 2 ^ 15, fieldAt b 0x10 16)

/-- The breaches of the directory that would result (R244, R246): those of the edits, and those of the entries that the
list leaves as they are. -/
def State.listBreaches (s : State) (nodes : List Nat) (bs : List (List Byte)) : List (Nat × List Breach) :=
  let es := (editsOf bs).map (·.1)
  s.editBreaches nodes none bs
    ++ (s.expertIds.filter fun e => !es.contains e).map fun e => (e, s.entryBreaches nodes false (s.dirNow e))

/-- The checks of R246 on a list as bytes: what fails, or the edits. -/
def State.editCheck (s : State) (t : TableRead) (bs : List (List Byte)) : Except (Nat × Nat × Bool) (List (Nat × Nat)) :=
  let nodes := s.nextSources
  let edits := editsOf bs
  match s.dirCheck t nodes (s.descBase false) (s.editedDir edits) (s.listBreaches nodes bs) edits with
  | some f => .error f
  | none => .ok edits

/-- The descriptors that the checks of a list read (R246). -/
def State.noteEdits (bs : List (List Byte)) (s : State) : State :=
  let nodes := s.nextSources
  s.noteDescs nodes (s.descBase false) (s.editedDir (editsOf bs)) (s.listBreaches nodes bs) (editsOf bs)

/-- The edits of a list in memory. -/
def State.editBytes (s : State) (base n : Nat) : List (List Byte) := (List.range n).map fun i => s.rd (base + 32 * i) 32

/-- RES_EDIT_CHECK_DONE (R246): the list is queued for a bell open or rejected. A list that cannot be read names no
expert. -/
def execResEditCheckDone (s : State) : Out :=
  match s.res.editPost with
  | none => .next s
  | some (base, n) =>
    let s := { s with res := { s.res with editPost := none } }
    let s := s.noteUe base (32 * n)
    if s.unreadable .edits base (32 * n) then .next ((s.readsOver .edits).dirRefuse Reg.RES_EDIT_STAT 4 2 0 8 false)
    else
      let s := s.noteEdits (s.editBytes base n)
      match s.editCheck .edits (s.editBytes base n) with
      | .error (e, r, cap) => .next (s.dirRefuse Reg.RES_EDIT_STAT 4 2 e r cap)
      | .ok edits =>
        let descs := s.descRead s.nextSources (s.descBase false) edits
        let s := s.setReg Reg.RES_EDIT_STAT 2
        .next { s with res := { s.res with edit := some { edits := edits, descs := descs, checkedAt := s.now } } }

/-- A half's rounds of a bell are not over at its compute site: one runs, or the layer is not the bell's last (R86). Every
home sends FINAL notices in every layer (R198), so the site sees each. -/
def State.siteInBell (s : State) (h : Half) : Bool :=
  let x := s.site h
  s.siteBusy h || (x.active && decide (x.layer + 1 < confLayers (s.siteConf h)))

/-- A half has a round of a bell before `n` in progress or still to come at its auction home (R86, R169). -/
def State.homeBefore (s : State) (h : Half) (n : Nat) : Bool :=
  (((s.home h).done.bind s.nextInBell).any fun k => decide (keyBell k < n)) || (s.inProgress h).any fun k => decide (keyBell k < n)

/-- A layer round of a bell before `n` may still run, here or for this slice (R86, R247). -/
def State.olderRounds (s : State) (n : Nat) : Bool :=
  (s.cal.sets ++ s.mus.sets).any (fun a => a.bell < n && !a.toks.isEmpty)
    || [Half.calico, Half.muslin].any fun h => (s.siteInBell h && decide ((s.site h).bell < n)) || s.homeBefore h n

/-- Undo entries that no round needs any more leave the table. -/
def State.pruneUndo (s : State) : State :=
  { s with res := { s.res with undo := s.res.undo.filter fun u => s.olderRounds u.1 } }

/-- Directory entries are replaced at the open of a bell; the entry in force before the open goes to the undo table, once,
be it replaced by a rehoming and then by an edit (R24, R247). -/
def State.replaceEntries (bell : Nat) (new : List (Nat × Nat)) (s : State) : State :=
  new.foldl (fun s p =>
    let old := s.dirNow p.1
    if old = p.2 then s
    else
      let kept := s.res.undo.any fun u => u.1 == bell && u.2.1 == p.1
      { s with res := { s.res with
        dir := tSet dirZero p.1 p.2 s.res.dir, undo := if kept then s.res.undo else (bell, p.1, old) :: s.res.undo } }) s

/-- The edits of a checked list apply (R246, R247). -/
def State.applyEdits (bell : Nat) (l : EditList) (s : State) : State :=
  let s := s.replaceEntries bell l.edits
  let es := l.edits.map (·.1)
  let descs := es.foldl (fun t e => match tFind e l.descs with
    | some d => tPut e d t
    | none => tDel e t) s.res.descs
  let s := { s with res := { s.res with
    edit := none, descs := descs, pins := s.res.pins.filter fun p => !es.contains (p.1 / 256)
    mirrorFirst := s.res.mirrorFirst.filter fun e => !es.contains e } }
  let s := es.foldl (fun s e => s.repinExpert e) s
  (s.setFld Reg.RES_EDIT_STAT 2 0 3).setFld Reg.RES_EDIT_STAT 63 32 bell

/-- A queued list at a bell open (R246, R247): it waits 1 µs from its check and for the undo table; after a rehoming at
this open, or at one that it waited through, it is checked again. -/
def State.editsAtOpen (bell : Nat) (rehomed : Bool) (s : State) : State :=
  match s.res.edit with
  | none => s
  | some l =>
    let l := { l with recheck := l.recheck || rehomed }
    let s := { s.pruneUndo.dropUnhosted with res := { s.pruneUndo.dropUnhosted.res with edit := some l } }
    if s.now < l.checkedAt + 1000 ∨ (l.pkg ∧ bell < l.atBell) then s
    else if s.res.undo.any fun u => u.1 != bell then
      (if l.busySaid then s
       else
         let s := { s with res := { s.res with edit := some { l with busySaid := true } } }
         s.resFault 0x71 ((l.edits.head?).elim 0 (·.1)) 0)
    else if !l.recheck then s.applyEdits bell l
    else
      let bs := l.edits.map fun p => leBytes 2 p.1 ++ leBytes 14 0 ++ leBytes 16 p.2
      let s := s.noteEdits bs
      match s.editCheck .edits bs with
      | .ok _ => s.applyEdits bell { l with descs := s.descRead s.nextSources (s.descBase false) l.edits }
      | .error (e, r, cap) =>
        ({ s with res := { s.res with edit := none } }).dirRefuse Reg.RES_EDIT_STAT 4 2 e r cap

/-! ## RES_DESC, RES_HINT -/

/-- RES_DESC_WRITE (R270, R429). -/
def State.resDescWrite (v : W64) (s : State) : State :=
  s.gated Reg.RES_DESC v fun s =>
    if s.bellState = 0 then s.setReg Reg.RES_DESC v
    else if s.armed then { s with res := { s.res with heldDesc := some (bits v.toNat 51 12 * 4096) } }
    else s.dirBusy Reg.RES_DESC

/-- The command of that write. -/
def execResDescWrite (v : W64) (s : State) : Out := .next (s.resDescWrite v)

/-- RES_HINT_WRITE (R258): the list is read at the next bell open. -/
def State.resHintWrite (v : W64) (s : State) : State :=
  s.gated Reg.RES_HINT v fun s =>
    { s with res := { s.res with hintPost := some (bits v.toNat 51 12 * 4096, bits v.toNat 7 0 + 1) } }

/-- The command of that write. -/
def execResHintWrite (v : W64) (s : State) : Out := .next (s.resHintWrite v)

/-! ## Dead slices (R265 to R269) -/

/-- The entry with a site list and a state. -/
def dirSites (d : Nat) (sites : List Nat) (cap st : Nat) : Nat :=
  let d := setBits (setBits (setBits (setBits d 62 48 (sites.getD 0 0)) 77 63 (sites.getD 1 0)) 92 78 (sites.getD 2 0)) 107 93
    (sites.getD 3 0)
  setBits (setBits (setBits d 109 108 (sites.length - 1)) 122 110 cap) 125 124 st

/-- The mirror slice of an expert as a live source index, its descriptor read from memory (R268). -/
def State.mirrorSite (s : State) (due : List Nat) (e : Nat) : Option Nat :=
  let a := s.descBase false + 64 * e
  if s.poisoned a 64 then none
  else (indexOfNat (faNode (dscMirror (s.rd a 64))) s.res.sources).bind fun i => if due.contains i then none else some i

/-- What rehoming makes of one entry (R268): the new entry, whether its capacity was cut, whether it is lost. -/
def rehomeEntry (x : DirSums) (dead : List Nat) (mirror : Option Nat) (d : Nat) : Nat × Bool × Bool :=
  let left := (dSiteList d).filter fun i => !dead.contains i
  let sites := if left.isEmpty then (if dMirror d then mirror.toList else []) else left
  match sites with
  | [] => (setBits d 125 124 2, false, true)
  | home :: _ =>
    if dOpen d then (dirSites d sites (dCap d) 1, false, false)
    else
      let r := sites.foldl (fun r i => min r (32767 - tGet zeroNat i x.rep)) (25600 - tGet zeroNat home x.home)
      let cap := min (dCap d) r
      let full := left.isEmpty && 4096 < tGet zeroNat home x.cnt + x.opens + 1
      (dirSites d sites cap (if full then 2 else 1), r < dCap d, full)

/-- EXPERT_LOST ends every sequence with a token granted the expert in a running round (R269). -/
def State.failLost (e : Nat) (s : State) : State :=
  [Half.calico, Half.muslin].foldl (fun s h =>
    match s.curRound h with
    | none => s
    | some (a, r) =>
      let qs := (a.toks.zip r.toks).filterMap fun p =>
        if p.2.choices.any fun c => c.st == .granted && c.expert == e then some p.1.seq else none
      s.failSeqs 3 r.layer qs) s

/-- One expert's rehoming (R268). -/
def State.rehomeOne (bell : Nat) (dead due : List Nat) (acc : DirSums × State) (e : Nat) : DirSums × State :=
  let s := acc.2
  let d := s.dirNow e
  if dState d = 2 ∨ !((dSiteList d).any fun i => dead.contains i) then acc
  else
    let x := acc.1.sub d
    let s := if ((dSiteList d).all fun i => dead.contains i) && dMirror d then s.noteUe (s.descBase false + 64 * e) 64 else s
    let q := rehomeEntry x dead (s.mirrorSite due e) d
    let s := s.replaceEntries bell [(e, q.1)]
    let s := if q.2.1 then s.resFault 0x77 e 0 else s
    let s := if q.2.2 then (s.resFault 0x76 e 0).failLost e else s
    (x.add q.1, s)

/-- Rehoming at the open of a bell (R268, R462); answers whether any slice was rehomed. -/
def State.rehome (bell : Nat) (s : State) : Bool × State :=
  let due := (s.res.dead.filter fun p => p.2 ≤ bell).map (·.1)
  let dead := due.filter fun i => !s.res.rehomed.contains i
  if dead.isEmpty || s.experts = 0 then (false, s)
  else
    let s := { s with res := { s.res with rehomed := s.res.rehomed ++ dead } }
    let x := (s.expertIds.map s.dirNow).foldl DirSums.add {}
    (true, (s.expertIds.foldl (fun acc e => State.rehomeOne bell dead due acc e) (x, s)).2)

/-- Descriptors that a slice hosts and does not hold yet are read (R248). -/
def State.fillDescs (s : State) : State :=
  let miss := s.hosted.filter fun e => (tFind e s.res.descs).isNone
  let base := s.descBase false
  miss.foldl (fun s e =>
    let s := s.noteUe (base + 64 * e) 64
    if s.poisoned (base + 64 * e) 64 then s
    else { s with res := { s.res with descs := tPut e (s.rd (base + 64 * e) 64) s.res.descs } }) s

/-- What a notice does at a source (R267): tokens with a place expected from the dead site are given up or tainted, the
barrow bound for it ends, and choices that await its verdict are lost. -/
def State.sourceDead (i : Nat) (h : Half) (s : State) : State :=
  match s.view h with
  | none => s
  | some v =>
    let node := nodeAt v.sources i
    let waits := (v.rnd.toks.zipIdx.flatMap fun p => p.1.choices.zipIdx.filterMap fun q =>
      if q.1.st == .awaiting && s.homeOf v q.1 == i then some (p.2, q.2) else none)
    let s := waits.foldl (fun s p => s.loseChoice h p.1 p.2 v.rnd.ar) s
    let s := s.modRound h fun r => { r with
      lostBids := if waits.isEmpty then r.lostBids else bump i waits.length r.lostBids, lastVerdict := s.now }
    let there := fun (c : Choice) => c.st == .granted && !c.isOpen && c.site == i
    let toks := (v.rnd.toks.zipIdx.filter fun p => p.1.choices.any there).map (·.2)
    if !v.rnd.gated then toks.foldl (fun s k => s.taintTok h k) s
    else
      let filledAt := fun (t : RTok) => (grantedRanks v.sel.ec t.choices).any fun p =>
        there p.2 && !t.filled.contains (v.sel.sharedIds.length + p.1)
      let unfilled := toks.filter fun k => (v.rnd.toks[k]?).elim false filledAt
      let lost := tGet zeroNat i v.rnd.shipped - tGet zeroNat i v.rnd.recsIn
      let s := s.modRound h fun r => { r with lostPlaces := if lost = 0 then r.lostPlaces else tPut i lost r.lostPlaces }
      let s := s.setTokQueue h ((s.tokQueue h).filter fun c => !(c.dest == node && tDir c.tag == 0))
      (unfilled.foldl (fun s k => s.giveUp h k) s).fwdAcked h i

/-- A dead site sends no header any more (R267). -/
def State.dropOpenReturns (node : Nat) (s : State) : State :=
  let f (x : HalfSt) : HalfSt := { x with openReturns := x.openReturns.filter fun o => o.node != node }
  { s with cal := f s.cal, mus := f s.mus }

/-- A dead-slice notice (R265 to R267): RES_DEAD shows it, and every unit acts at once. -/
def State.deadNotice (source rehomeBell : Nat) (s : State) : State :=
  let s := s.setReg Reg.RES_DEAD (BitVec.ofNat 64 (source % 2 ^ 15 + 2 ^ 15 + rehomeBell % 2 ^ 48 * 2 ^ 16))
  if s.deadNow source then s
  else
    let s := { s with res := { s.res with dead := s.res.dead ++ [(source, rehomeBell)] } }
    let s := (s.homeDead .calico source).homeDead .muslin source
    let s := (s.siteDead source).dropOpenReturns (nodeAt s.res.sources source)
    (s.sourceDead source .calico).sourceDead source .muslin

/-- The rehoming bell of a notice sent now: the first bell whose open lies at least 10 µs ahead (R265). -/
def State.rehomeBell (s : State) : Nat :=
  if s.now + 10000 ≤ s.bell.nextOpen then s.bell.nextBell else s.bell.nextBell + 1

/-- The payload of a dead-slice notice (R390). -/
def deadPayload (source m : Nat) : List Byte := pad8 (leBytes 4 source ++ leBytes 8 m)

end Sys2Proof.Machine
end

