-- ==== Sys2Proof/Machine/Links.lean ====
section
/-! DEFINITION. The links (R288 to R298, R307, R308): frames with their control words, CRC and replay, the packing of
packets into frame bodies, credits, the order in which an output serves its classes, lanes, failing ports and spares.
Links 0 to 17 are the Felano ports, and link 18 + e is Ebsan edge e. -/
namespace Sys2Proof.Machine

/-- A link that has carried nothing yet. -/
def linkNone (_ : Nat) : Link := {}

/-- A link by number. -/
def State.link (s : State) (k : Nat) : Link := tGet linkNone k s.links

/-- A link takes a new value. -/
def State.setLink (k : Nat) (l : Link) (s : State) : State := { s with links := tSet linkNone k l s.links }

/-- The state of a port (LINK_STAT STATE). -/
def State.portState (s : State) (p : Nat) : Nat := s.fld (Reg.LINK_STAT p) 2 0

/-- The role of a port in force. -/
def State.role (s : State) (p : Nat) : Nat := s.fld (Reg.LINK_CTL p) 2 1

/-- The state and partner of an edge (R489). -/
def State.edgeState (s : State) (e : Nat) : Nat := s.fld Reg.EBS_STAT (4 * e + 3) (4 * e)
def State.edgePartner (s : State) (e : Nat) : Nat := s.fld Reg.EBS_STAT (3 * e + 18) (3 * e + 16)

/-- The slice holds a VALID node ID (R315). -/
def State.nodeValid (s : State) : Bool := s.bit Reg.DISC_NODE 23

/-- A port state in which packets flow: UP, SPARE_IDLE, SPARE_IN_USE. -/
def portCarries (st : Nat) : Bool := st == 2 || st == 5 || st == 6

/-- A link carries packets: a trained port, or an edge that is UP. A slice that went silent sends and takes nothing
(R459). -/
def State.carries (s : State) (k : Nat) : Bool :=
  !s.safe.silent && (if k < 18 then portCarries (s.portState k) else k < 22 && s.edgeState (k - 18) == 3)

/-- A port that trains: its frames carry link management alone (R290). -/
def State.training (s : State) (k : Nat) : Bool := !s.safe.silent && k < 18 && s.portState k == 1

/-- A code of a port: LINK_FAULT takes it, and the page records it (R312, R313, R520). -/
def State.linkFault (p code fseq : Nat) (s : State) : State :=
  let s := s.setReg (Reg.LINK_FAULT p) (BitVec.ofNat 64 (code + fseq % 4096 * 2 ^ 8 + s.bellNo % 2 ^ 32 * 2 ^ 32))
  s.recordF (Pg.LINK p) code (Reg.LINK_FAULT p)

/-- A tally of a port; edges have no page (R298). -/
def State.linkTally (k i n : Nat) (s : State) : State := if k < 18 ∧ 0 < n then s.tallyAdd (Pg.LINK k) i n else s

/-! ## Packets as bytes (R299) -/

/-- Header bytes 0x00 to 0x19. -/
def packetHead (p : Packet) : List Byte :=
  leBytes 4 p.dest ++ leBytes 4 p.src ++ leBytes 2 p.job ++ leBytes 2 p.seq
    ++ [BitVec.ofNat 8 (p.cls % 8 + p.epoch % 2 * 8 + p.prio % 4 * 16), BitVec.ofNat 8 p.type] ++ leBytes 2 p.payload.length
    ++ leBytes 8 p.arg.toNat ++ leBytes 2 p.birth

/-- The trailer CRC of a packet that is no TOK packet (R299). -/
def packetCrc (p : Packet) : BitVec 32 := crc32c (packetHead p ++ p.payload)

/-- A packet on the wire. -/
def packetBytes (p : Packet) : List Byte :=
  packetHead p ++ [BitVec.ofNat 8 (p.hops % 16 + b2n p.esc * 16 + p.lane * 32)] ++ leBytes 5 0 ++ p.payload
    ++ leBytes 4 (p.crc.getD (packetCrc p)).toNat ++ leBytes 4 0

/-- Wire bytes of a packet whose LENGTH field is `n`; bytes pack at 8 B granularity (R290). -/
def wireLength (n : Nat) : Nat := 40 + ceilDiv n 8 * 8

/-- A packet read from its wire bytes. -/
def packetOf (b : List Byte) : Packet where
  dest := fieldAt b 0 4
  src := fieldAt b 4 4
  job := fieldAt b 8 2
  seq := fieldAt b 0x0A 2
  cls := bits (fieldAt b 0x0C 1) 2 0
  epoch := bits (fieldAt b 0x0C 1) 3 3
  prio := bits (fieldAt b 0x0C 1) 5 4
  type := fieldAt b 0x0D 1
  arg := BitVec.ofNat 64 (fieldAt b 0x10 8)
  birth := fieldAt b 0x18 2
  hops := bits (fieldAt b 0x1A 1) 3 0
  esc := bits (fieldAt b 0x1A 1) 4 4 == 1
  lane := bits (fieldAt b 0x1A 1) 6 5
  payload := (b.drop 32).take (fieldAt b 0x0E 2 % 8192)
  crc := some (BitVec.ofNat 32 (fieldAt b (b.length - 8) 4))

/-- The types a class has (R299, R319, R351, R352, R361, R390). -/
def typeOk (cls t : Nat) : Bool :=
  match cls with
  | 0 => (1 ≤ t && t ≤ 6) || t == 0x40 || t == 0x41
  | 1 => (1 ≤ t && t ≤ 4) || (0x10 ≤ t && t ≤ 0x16) || t == 0x20 || t == 0x41 || t == 0x42
  | 2 => (1 ≤ t && t ≤ 4) || (0x10 ≤ t && t ≤ 0x16) || t == 0x50
  | 3 => t == 1 || t == 0x50
  | 4 => t == 0 || t == 1
  | 5 => t == 0
  | 6 => 1 ≤ t && t ≤ 8
  | _ => t == 0 || t == 1

/-- A bit of ARG that must be zero is set: above TAG and STATUS in a response (R355), bits [62:61] in COL (R389), bits
[63:53] on the LL lane (R390), bit [63] of a request of a type without KEEP or UNORDERED (R352), and ARG of AUC records
(R300). -/
def argBad (cls t : Nat) (arg : Nat) : Bool :=
  match cls with
  | 1 => bits arg 63 63 != 0 && t != 1 && t != 0x16
  | 3 => bits arg 63 24 != 0
  | 4 => t == 0 && arg != 0
  | 6 => bits arg 62 61 != 0
  | 7 => t == 1 && bits arg 63 53 != 0
  | _ => false

/-- R301: a reserved bit set, a LENGTH that is no multiple of 8 or beyond the class, a TYPE the class does not have. -/
def packetBad (b : List Byte) : Bool :=
  let n := fieldAt b 0x0E 2
  let cls := bits (fieldAt b 0x0C 1) 2 0
  bits (fieldAt b 0 4) 31 23 != 0 || bits (fieldAt b 4 4) 31 23 != 0 || bits (fieldAt b 0x0C 1) 7 6 != 0
    || bits n 15 13 != 0 || bits (fieldAt b 0x1A 1) 7 7 != 0 || bits (fieldAt b 0x1A 1) 6 5 == 3 || fieldAt b 0x1B 5 != 0
    || fieldAt b (b.length - 4) 4 != 0 || n % 8 != 0 || (if cls = 1 ∨ cls = 2 then 4112 else 4096) < n
    || !typeOk cls (fieldAt b 0x0D 1) || argBad cls (fieldAt b 0x0D 1) (fieldAt b 0x10 8)

/-! ## Buffers and credits (R307) -/

/-- The buffer of a packet: its class, 7 the ACK lane, 8 the LL lane. -/
def bufferOf (p : Packet) : Nat := if p.cls = 7 then 7 + p.type % 2 else p.cls

/-- The sizes of the buffers in KiB: adaptive, E0, E1. -/
def bufferKib : List (Nat × Nat × Nat) :=
  [(8, 1, 1), (64, 4, 4), (32, 4, 4), (64, 4, 4), (64, 4, 4), (256, 8, 8), (64, 4, 4), (4, 1, 1), (4, 1, 1)]

/-- The size of a buffer part in units of 64 B. -/
def bufferUnits (b part : Nat) : Nat :=
  let x := bufferKib.getD b (0, 0, 0)
  16 * (if part = 0 then x.1 else if part = 1 then x.2.1 else x.2.2)

/-- The units a packet takes. -/
def packetUnits (p : Packet) : Nat := units64 (wireLength p.payload.length)

/-- The key of a buffer part. -/
def partKey (b part : Nat) : Nat := b * 4 + part

/-- The credits that training gives a link (R307). -/
def fullCredits : Table Nat :=
  (List.range 9).flatMap fun b => (List.range 3).map fun part => (partKey b part, bufferUnits b part)

/-- Credits held toward a hop for a packet in a lane. -/
def State.creditsFor (s : State) (k : Nat) (p : Packet) (lane : Nat) : Nat :=
  tGet zeroNat (partKey (bufferOf p) lane) (s.link k).credits

/-- A credit word (R290). -/
def creditWord (b part n : Nat) : W64 := BitVec.ofNat 64 (1 + b * 2 ^ 4 + part * 2 ^ 8 + n * 2 ^ 16)

/-- The units of a packet in an input buffer of a link go back to the far end (R290, R307). -/
def State.returnCredit (k part : Nat) (p : Packet) (s : State) : State :=
  let l := s.link k
  let n := packetUnits p
  let key := partKey (bufferOf p) part
  s.setLink k { l with
    inUse := tSet zeroNat key (tGet zeroNat key l.inUse - n) l.inUse
    ctl := l.ctl ++ [creditWord (bufferOf p) part n] }

/-- A packet of the router leaves the input buffer it came in by. Training gives a link all its credits anew, so what came
over it before then gives none back (DEDUCED, notes/assumptions/25.md). -/
def State.freeInput (q : RQ) (s : State) : State :=
  match q.origin with
  | .port k => if q.owes then s.returnCredit k q.part q.pkt else s
  | .unit => s
  | .again => s

/-- What came over a link gives it no credits back. -/
def State.forgetCredits (k : Nat) (s : State) : State :=
  { s with route := { s.route with
    queue := s.route.queue.map fun q => if q.origin == .port k then { q with owes := false } else q } }

/-- The packet as it takes a Felano hop (R334). What travels beside it in the package ends with the hop (R333). -/
def felanoHop (p : Packet) (lane : Nat) : Packet := { p with hops := (p.hops + 1) % 16, lane := lane, laneWas := p.lane }

/-- The packet as it takes an Ebsan hop (R333). -/
def ebsanHop (p : Packet) (lane : Nat) : Packet := { p with edges := p.edges + 1, lane := lane, laneWas := p.lane }

/-- The packet as it was before its hop over a link: the router decides it anew (R296). -/
def unhop (k : Nat) (p : Packet) : Packet :=
  if k < 18 then { p with hops := (p.hops + 15) % 16, lane := p.laneWas } else { p with edges := p.edges - 1, lane := p.laneWas }

/-- A packet made for one output joins its queue, if the far end has room for it and no earlier one of its buffer waits;
else it waits for credits (R307). -/
def Link.enqueue (now : Nat) (l : Link) (p : Packet) : Link :=
  let key := partKey (bufferOf p) p.lane
  let have_ := tGet zeroNat key l.credits
  if l.waiting.any (fun q => bufferOf q == bufferOf p) || decide (have_ < packetUnits p) then { l with waiting := l.waiting ++ [p] }
  else { l with credits := tSet zeroNat key (have_ - packetUnits p) l.credits, out := l.out ++ [(p, now)] }

/-- A packet for one output alone: a flood on the LL lane or link-local MGT (R307, R334). -/
def State.putLocal (k : Nat) (p : Packet) (s : State) : State :=
  s.setLink k ((s.link k).enqueue s.now (if k < 18 then felanoHop p 0 else ebsanHop p 0))

/-- What waited for credits of a link goes on as far as they reach. -/
def Link.enqueueWaiting (now : Nat) (l : Link) : Link := l.waiting.foldl (fun l p => l.enqueue now p) { l with waiting := [] }

/-! ## Time held for link replay (R81, R82) -/

/-- The records of 16 B of a payload. -/
def cut16 (b : List Byte) : List (List Byte) := (List.range (b.length / 16)).map fun i => (b.drop (16 * i)).take 16

/-- A packet of this slice belongs to the running round of a half: a forward chunk of its layer, or AUC records with a
bid-close of it or a handle of one of its tokens. -/
def State.ofRound (s : State) (a : AdmSet) (r : Round) (h : Half) (p : Packet) : Bool :=
  p.src == s.node && match p.cls with
    | 5 => tDir p.arg == 0 && tHalf p.arg == h.num && tLayer p.arg == r.layer
    | 4 => p.type == 0 && (cut16 p.payload).any fun x =>
        if bits (fieldAt x 12 4) 31 30 = 3 then
          fieldAt x 0 8 == a.bell && fieldAt x 8 1 == r.layer && bits (fieldAt x 9 1) 0 0 == h.num
        else
          let v := BitVec.ofNat 64 (fieldAt x 0 8)
          hSlot v / 256 == s.slice && hHalf v == h.num && hLayer v == r.layer && hBell v == a.bell % 256
    | _ => false

/-- Every packet of a link that has not reached the far end for sure: its replay buffer, its queue and what waits for it. -/
def Link.holds (l : Link) : List Packet := l.sent.map (·.2) ++ l.out.map (·.1)

/-- A half's slot counts the cycles of CTRL_CLK in which a replay at a port held its packets; those of two ports at once
count once (R81). -/
def State.countReplay (t : Nat) (ps : List Packet) (h : Half) (s : State) : State :=
  match s.curRound h with
  | none => s
  | some (a, r) =>
    if !ps.any (s.ofRound a r h) then s
    else s.modRound h fun r => { r with retry := r.retry + 2 * (s.now - max t (max r.start r.heldTo)), heldTo := s.now }

/-- The replay that runs on a link has ended, or its port has failed. -/
def State.replayEnds (k : Nat) (s : State) : State :=
  let l := s.link k
  match l.replayAt with
  | none => s
  | some t =>
    let s := s.setLink k { l with replayAt := none }
    (s.countReplay t l.holds .calico).countReplay t l.holds .muslin

/-! ## Failing ports (R296) -/

/-- The packets of a link as the router takes them back: as they were before the hop. -/
def Link.handBack (k : Nat) (l : Link) : List Packet := (l.holds ++ l.waiting).map (unhop k)

/-- The packets of a link go back to the router once; a part packet is discarded (R296). -/
def State.drainLink (k : Nat) (s : State) : State :=
  let s := (s.replayEnds k).forgetCredits k
  let l := s.link k
  let back := (l.handBack k).map fun p => (⟨p, .again, none, p.lane, false⟩ : RQ)
  let s := s.setLink k { ({} : Link) with
    corrected := l.corrected, blamed := l.blamed, place := l.place, failPending := true }
  { s with route := { s.route with queue := s.route.queue ++ back } }

/-- A port fails: it stops with the state given, LINK_DOWN is recorded, and its packets go back (R296). -/
def State.stopPort (p st : Nat) (s : State) : State :=
  ((s.setFld (Reg.LINK_STAT p) 2 0 st).linkFault p 0x80 0).drainLink p

/-- A link fails: a port at once, an edge at the next bell open (R296, R41). -/
def State.failLink (k : Nat) (s : State) : State :=
  if k < 18 then s.stopPort k 3 else s.setLink k { s.link k with failPending := true }

/-! ## Choosing the next packet of an output (R308) -/

/-- Within a buffer, escape parts go first, then the higher PRIO, then the older. -/
def firstOf (b : Nat) (xs : List (Packet × Nat)) : Option Nat :=
  (xs.zipIdx.foldl (fun (best : Option (Packet × Nat)) x =>
    let p := x.1.1
    if bufferOf p ≠ b then best
    else match best with
      | none => some (p, x.2)
      | some (q, i) =>
        if (p.esc && !q.esc) || (p.esc == q.esc && q.prio < p.prio) then some (p, x.2) else some (q, i)) none).map (·.2)

/-- Since when a class has waited: its oldest packet, or its last boundary. -/
def Link.waitsSince (l : Link) (c : Nat) : Option Nat :=
  ((l.out.filter fun x => bufferOf x.1 == c).map (·.2)).min?.map fun t => max t (tGet zeroNat c l.served)

/-- The classes in weighted round robin. -/
def wrrOrder : List Nat := [3, 6, 2, 1]

/-- The weight of a class of the round robin. -/
def State.wrrWeight (s : State) (j : Nat) : Nat := s.fld (Reg.LINK_WRR 0) (8 * j + 7) (8 * j)

/-- The weighted round robin's choice: its class continues while weight is left, else the next class with a packet. -/
def wrrPick (weight : Nat → Nat) (l : Link) : Option (Nat × Link) :=
  let at_ (j : Nat) : Option Nat := firstOf (wrrOrder.getD (j % 4) 0) l.out
  match (if 0 < l.wrrLeft then at_ l.wrr else none) with
  | some i => some (i, { l with wrrLeft := l.wrrLeft - 1 })
  | none => [1, 2, 3, 4].findSome? fun d =>
      (at_ (l.wrr + d)).map fun i => (i, { l with wrr := (l.wrr + d) % 4, wrrLeft := weight ((l.wrr + d) % 4) - 1 })

/-- The packet of the next boundary: a class of the round robin that waited 2 µs, then LL, ACK, MGT, AUC, TOK, then the
round robin. -/
def pickPacket (weight : Nat → Nat) (now : Nat) (l : Link) : Option (Nat × Link) :=
  let late := wrrOrder.find? fun c => match l.waitsSince c with
    | some t => decide (t + 2000 ≤ now)
    | none => false
  match late.bind fun c => (firstOf c l.out).map fun i => (i, c) with
  | some (i, c) => some (i, { l with served := tPut c now l.served })
  | none =>
    match [8, 7, 0, 4, 5].findSome? fun b => firstOf b l.out with
    | some i => some (i, l)
    | none => (wrrPick weight l).map fun x =>
        (x.1, { x.2 with served := tPut ((l.out.map fun y => bufferOf y.1).getD x.1 0) now x.2.served })

/-- A frame body in the making: the link, the bytes so far, the first packet start, the packets begun. -/
structure Filling where
  link : Link
  body : List Byte := []
  pstart : Nat := 127
  begun : List Packet := []
  deriving Repr

/-- A body fills up to 960 B: the packet begun goes to its end, then the next is chosen (R290). A packet whose bytes in
this frame would all be zero waits for the next frame, so that a zero rest of a body is always empty space. -/
def fillBody (weight : Nat → Nat) (now : Nat) : Nat → Filling → Filling
  | 0, f => f
  | n + 1, f =>
    let room := 960 - f.body.length
    if room = 0 then f
    else if !f.link.stream.isEmpty then
      fillBody weight now n { f with
        body := f.body ++ f.link.stream.take room
        link := { f.link with stream := f.link.stream.drop room } }
    else match pickPacket weight now f.link with
      | none => f
      | some (i, l) =>
        match l.out[i]? with
        | none => f
        | some (p, _) =>
          let b := packetBytes p
          if (b.take room).all (· == 0#8) then f
          else
            let upto := l.streamEnd + b.length
            fillBody weight now n { f with
              link := { l with
                out := l.out.eraseIdx i, stream := b, streamEnd := upto, sent := l.sent ++ [(upto, p)] }
              pstart := if f.pstart = 127 then f.body.length / 8 else f.pstart
              begun := f.begun ++ [p] }

/-! ## Frames (R288 to R290) -/

/-- Frame header. -/
def frameHeader (fseq ack : Nat) (nak : Bool) (pstart ctlw : Nat) : List Byte :=
  leBytes 8 (fseq + ack * 2 ^ 12 + b2n nak * 2 ^ 24 + pstart * 2 ^ 25 + ctlw * 2 ^ 32)

/-- A frame with its link CRC. -/
def frameSeal (b : List Byte) : List Byte := b ++ leBytes 8 (crc64 b).toNat

/-- A frame. -/
def frameBytes8 (fseq ack : Nat) (nak : Bool) (pstart : Nat) (ctl : List W64) (body : List Byte) : List Byte :=
  frameSeal (frameHeader fseq ack nak pstart ctl.length
    ++ padTo 48 (ctl.flatMap fun w => leBytes 8 w.toNat) ++ padTo 960 body)

/-- A frame sent again: ACKSEQ as of now, FSEQ, control words and body as they were. NAK is asked for as of now, or again
where the frame carried it and the far end's frames are still discarded, so that no NAK is lost (R292; DEDUCED,
notes/assumptions/25.md). -/
def frameAgain (b : List Byte) (l : Link) : List Byte :=
  let h := fieldAt b 0 8
  let nak := l.nak || (bits h 24 24 == 1 && l.discarding)
  frameSeal (leBytes 8 (setBits (setBits h 23 12 l.expect) 24 24 (b2n nak)) ++ (b.drop 8).take 1008)

/-- Frames in the replay buffer (R292). -/
def Link.kept (l : Link) : Nat := (l.replay.filter fun f => !f.idle).length

/-- A frame of the replay is sent once more (R292). -/
def State.sendAgain (k : Nat) (s : State) : State :=
  let l := s.link k
  let i := l.replay.length - l.resend
  let again (f : SentFrame) : SentFrame := { f with bytes := frameAgain f.bytes l, replays := f.replays + 1 }
  let s := s.setLink k { l with replay := modNth i again l.replay, resend := l.resend - 1, nak := false }
  let s := (s.linkTally k 1 1).lifeAdd 14 1
  if l.resend = 1 then s.replayEnds k else s

/-- A new frame: while the replay buffer is full an empty one, without control words and not kept there (R289, R292;
DEDUCED, notes/assumptions/25.md). -/
def State.sendNew (k : Nat) (s : State) : State :=
  let l := s.link k
  let full := decide (512 ≤ l.kept)
  let f : Filling := if full then { link := l } else fillBody s.wrrWeight s.now 64 { link := l }
  let ctl := if full then [] else f.link.ctl.take 6
  let b := frameBytes8 l.fseq l.expect l.nak f.pstart ctl f.body
  let x : SentFrame := { fseq := l.fseq, bytes := b, upto := f.link.streamEnd - f.link.stream.length, idle := full }
  let s := s.setLink k { f.link with
    ctl := f.link.ctl.drop ctl.length, fseq := (l.fseq + 1) % 4096, replay := l.replay ++ [x], resend := 0, nak := false }
  f.begun.foldl (fun s p => s.linkTally k (if p.cls = 7 then 11 else 4 + p.cls) 1) s

/-- The next frame of a link: a replay while a NAK is being answered, else a new one (R289, R292). -/
def State.sendFrame (k : Nat) (s : State) : State :=
  let l := s.link k
  let s := s.linkTally k 0 1
  if 0 < l.resend ∧ l.resend ≤ l.replay.length then s.sendAgain k else s.sendNew k

/-- A frame of a port that trains carries its link-management words; it is not numbered and not kept (R290; DESIGN CHOICE,
notes/assumptions/25.md). -/
def State.sendTraining (k : Nat) (s : State) : State :=
  let l := s.link k
  (s.linkTally k 0 1).setLink k { l with ctl := l.ctl.drop 6 }

/-- LINK_FRAME_SEND (R288, R289, R290, R292, R308). -/
def execLinkFrameSend (port : Nat) (s : State) : Out :=
  .next (if s.carries port then s.sendFrame port else if s.training port then s.sendTraining port else s)

/-! ## Frames that arrive -/

/-- The packets that end in a body, and what is left of one: `part` holds the bytes of a packet begun before, the empty
list at a packet boundary. -/
def cutBody : Nat → List Byte → List Byte → List (List Byte) × List Byte
  | 0, part, rest => ([], part ++ rest)
  | n + 1, part, rest =>
    if part.isEmpty && rest.all (· == 0#8) then ([], [])
    else
      let b := part ++ rest
      let w := wireLength (fieldAt b 0x0E 2 % 8192)
      if b.length < 16 ∨ b.length < w then ([], b)
      else
        let (ps, left) := cutBody n [] (b.drop w)
        (b.take w :: ps, left)

/-- The packets of a frame's body; without a packet begun, reading starts at PSTART (R288). -/
def bodyPackets (part : Option (List Byte)) (pstart : Nat) (body : List Byte) : List (List Byte) × Option (List Byte) :=
  match part with
  | some b => let (ps, left) := cutBody 64 b body; (ps, some left)
  | none => if 120 ≤ pstart then ([], none) else
      let (ps, left) := cutBody 64 [] (body.drop (8 * pstart))
      (ps, some left)

/-- A link-management word (R290): operation and payload. -/
def manageWord (op payload : Nat) : W64 := BitVec.ofNat 64 (2 + op * 2 ^ 8 + payload * 2 ^ 16)

/-- IDENT carries node and port in the layout of LINK_FAR, PROBE a bit that marks the answer (R290; DESIGN CHOICE,
notes/assumptions/25.md: the spec gives neither payload). -/
def State.identWord (s : State) (k : Nat) : W64 := manageWord 1 (s.node + k * 2 ^ 24)
def probeWord (answer : Bool) : W64 := manageWord 3 (b2n answer)

/-- A port starts to train: it sends IDENT and PROBE (R290, R478). -/
def State.startTraining (k : Nat) (s : State) : State :=
  let s := s.setFld (Reg.LINK_STAT k) 2 0 1
  s.setLink k { s.link k with ctl := (s.link k).ctl ++ [s.identWord k, probeWord false] }

/-- A link-management word that arrived (R290, R295): IDENT and PROBE take part in training; SWAP names the frame from which
its lane moves. -/
def State.managed (k op payload : Nat) (s : State) : State :=
  if 18 ≤ k then s
  else if op = 2 then s.setLink k { s.link k with swapIn := some (bits payload 3 0, bits payload 15 4) }
  else if s.portState k ≠ 1 then s
  else if op = 1 then
    s.setReg (Reg.LINK_FAR k) (BitVec.ofNat 64 (bits payload 22 0 + bits payload 28 24 * 2 ^ 24))
  else if op = 3 ∧ bits payload 0 0 = 0 then
    s.setLink k { s.link k with ctl := (s.link k).ctl ++ [probeWord true] }
  else s

/-- A control word that arrived (R290). -/
def State.controlWord (k : Nat) (w : W64) (s : State) : State :=
  let v := w.toNat
  let kind := bits v 3 0
  if kind = 1 then
    let l := s.link k
    let key := partKey (bits v 7 4) (bits v 9 8)
    s.setLink k (({ l with credits := tSet zeroNat key (tGet zeroNat key l.credits + bits v 31 16) l.credits } : Link).enqueueWaiting
      s.now)
  else if kind = 2 then s.managed k (bits v 15 8) (bits v 63 16)
  else if 3 ≤ kind then s.linkTally k 17 1
  else s

/-- The control words of a frame. -/
def State.controlWords (k : Nat) (b : List Byte) (s : State) : State :=
  (List.range (min 6 (bits (fieldAt b 0 8) 34 32))).foldl
    (fun s i => s.controlWord k (BitVec.ofNat 64 (fieldAt b (8 + 8 * i) 8))) s

/-- A lane of a port leaves service for the spare wavelength (R295). -/
def State.moveLane (p lane : Nat) (s : State) : State :=
  let s := (s.setFld (Reg.LINK_STAT p) (3 + lane) (3 + lane) 0).setFld (Reg.LINK_STAT p) 11 11 1
  s.setFld (Reg.LINK_LANE p) lane lane 1

/-- The frame from which the far end's lane moves has come (R295). -/
def State.swapDue (k fseq : Nat) (s : State) : State :=
  match (s.link k).swapIn with
  | some (lane, f) =>
    if (fseq + 4096 - f) % 4096 < 2048 then (s.setLink k { s.link k with swapIn := none }).moveLane k lane else s
  | none => s

/-- An age in 64 ns units beyond MAX_FLIGHT_US (R301). -/
def State.tooOld (s : State) (p : Packet) : Bool :=
  s.fld (Reg.LINK_E2E 0) 25 16 * 1000 < (bits s.now 21 6 + 65536 - p.birth) % 65536 * 64

/-- A packet discarded by age (R301): EXPIRED, and PKT_EXPIRED once per bell. Codes of packets go to the port they came
by, and those of edges and of this slice's own packets to LINK0. -/
def State.expired (o : Origin) (s : State) : State :=
  let p := match o with
    | .port k => if k < 18 then k else 0
    | .unit => 0
    | .again => 0
  let s := s.linkTally p 16 1
  s.oncePerBell (Pg.LINK 0 * 256 + 0x89) fun s => s.linkFault p 0x89 0

/-- The dimension of a port in the route version in force; a spare in use stands for the port it replaced (R332). -/
def State.portDim (s : State) (v : RouteVer) (p : Nat) : Nat :=
  let q := if s.portState p = 6 then s.fld (Reg.LINK_STAT p) 16 12 else p
  bits v.portdim (4 * q + 3) (4 * q)

/-- The LIVE version of the route table (R338). -/
def State.liveRoute (s : State) : RouteVer := if s.route.v0.st = 3 then s.route.v0 else s.route.v1

/-! ## Floods of the low-latency path (R391) -/

/-- A packet joins the queue of an output. -/
def State.putOut (k : Nat) (p : Packet) (s : State) : State :=
  let l := s.link k
  s.setLink k { l with out := l.out ++ [(p, s.now)] }

/-- A port is usable as a next hop: UP with ROLE 0, or a spare in use (R332); none while the slice has no VALID node ID
(R315). -/
def State.portUp (s : State) (p : Nat) : Bool :=
  s.nodeValid && ((s.portState p == 2 && s.role p == 0) || s.portState p == 6)

/-- The lowest usable port to each neighbour of a Felano dimension. -/
def State.dimPorts (s : State) (d : Nat) : List Nat :=
  let ps := (List.range 18).filter fun p => s.portUp p && s.portDim s.liveRoute p == d
  ps.filter fun p => ps.all fun q => p ≤ q || s.fld (Reg.LINK_FAR q) 22 0 != s.fld (Reg.LINK_FAR p) 22 0

/-- The other slices of the package engine, by number. -/
def State.packageMates (s : State) : List Nat :=
  (List.range (s.fld Reg.EBS_CFG 7 4)).filter fun n => n != s.slice && s.bit Reg.PKG_SLICES n

/-- A packet of a flood at one step. -/
def State.floodPacket (s : State) (dest kind step : Nat) (payload : List Byte) : Packet :=
  { llPacket s.node dest kind step true 0 0 0 payload with birth := bits s.now 21 6 }

/-- A flood goes on from step `k` (0 at its origin): to the neighbours of every dimension above it and to the package
slices; a flood that came at the package step goes no further (R391). Only neighbours in the span of COLL_LL get it
(R390). -/
def State.floodFrom (kind k : Nat) (payload : List Byte) (s : State) : State :=
  if k = 15 then s
  else
    let inSpan (n : Nat) : Bool :=
      s.fld Reg.COLL_LL 12 1 ≤ nodePkg n && nodePkg n ≤ s.fld Reg.COLL_LL 24 13
    let s := (List.range 4).foldl (fun s d =>
      if d + 1 ≤ k then s
      else (s.dimPorts d).foldl (fun s p =>
        let n := s.fld (Reg.LINK_FAR p) 22 0
        if inSpan n then s.putLocal p (s.floodPacket n kind (d + 1) payload) else s) s) s
    s.packageMates.foldl (fun s m => s.send (s.floodPacket (s.node / 8 * 8 + m) kind 15 payload)) s

/-- A flooded message that arrived goes on; a TIME message goes on with its own path delay (R392). -/
def State.floodOn (p : Packet) (s : State) : State :=
  let a := p.arg.toNat
  if p.cls = 7 ∧ p.type = 1 ∧ bits a 8 8 = 1 ∧ bits a 3 0 ≠ 2 ∧ bits a 7 4 ≠ 15 ∧ s.bit Reg.COLL_LL 0 then
    (s.floodFrom (bits a 3 0) (bits a 7 4) p.payload).tallyAdd Pg.COLL 16 1
  else s

/-! ## Arrival of packets -/

/-- Discovery's packet types (R319). -/
def isDiscovery (p : Packet) : Bool := p.cls == 0 && ((1 ≤ p.type && p.type ≤ 5) || p.type == 0x40)

/-- Link-local packets, and LL messages for this slice: the unit named by their own command takes them in where they
arrive (R319, R391). -/
def takenAtOnce (me : Node) (p : Packet) : Bool :=
  (p.cls == 0 && p.type < 0x40) || (p.cls == 7 && p.type == 1 && p.dest == me)

/-- Discards at an input, by the code of a page (R315, R319, R344): which one applies, if any. -/
def State.inputRefuse (s : State) (k : Nat) (p : Packet) : Option (State → State) :=
  let gate := k < 18 && s.role k == 2
  if k < 18 && !s.bit Reg.DISC_NODE 23 && !(p.cls == 0 && p.type < 0x40) then some (State.tallyAdd Pg.ROUTE 8 1)
  else if gate && isDiscovery p then some (State.record Pg.DISC 0x9E 0)
  else if gate && p.dest != s.node then
    let fault := BitVec.ofNat 64 (p.dest % 2 ^ 23 + 0x93 * 2 ^ 24 + p.job * 2 ^ 32 + p.cls * 2 ^ 48)
    some fun s => ((s.setReg Reg.ROUTE_FAULT fault).recordF Pg.ROUTE 0x93 Reg.ROUTE_FAULT).discarded 0x93
  else none

/-- The trailer of a packet that is no TOK packet holds (R299). -/
def crcOk (p : Packet) : Bool := p.crc == some (packetCrc p)

/-- A packet arrives whole (R301, R307, R315): it takes buffer units, and either a check discards it or it waits in the
router. Over a Felano port it enters the package; over an edge its entry dimension and its count of edges come beside it
(R333). -/
def State.packetIn (k : Nat) (b : List Byte) (beside : Option Nat × Nat) (s : State) : State :=
  let p := packetOf b
  let key := partKey (bufferOf p) (min p.lane 2)
  let l := s.link k
  let used := tGet zeroNat key l.inUse + packetUnits p
  if bufferUnits (bufferOf p) (min p.lane 2) < used then
    (if k < 18 then s.linkFault k 0x87 0 else s).failLink k
  else
    let s := s.setLink k { l with inUse := tSet zeroNat key used l.inUse }
    let free (s : State) : State := s.returnCredit k (min p.lane 2) p
    let p := { p with
      entryDim := if k < 18 then some (s.portDim s.liveRoute k) else beside.1, edges := if k < 18 then 0 else beside.2 }
    if packetBad b then free (s.linkFault (if k < 18 then k else 0) 0x88 0)
    else if s.tooOld p then free (s.expired (.port k))
    else match s.inputRefuse k p with
      | some f => free (f s)
      | none =>
        if takenAtOnce s.node p then free (if crcOk p then s.floodOn p else s)
        else { s with route := { s.route with queue := s.route.queue ++ [⟨p, .port k, none, p.lane, true⟩] } }

/-- An ACKSEQ frees the frames before it, and with them the packets that ended in them (R292). -/
def Link.ackTo (ack : Nat) (l : Link) : Link :=
  let done := l.replay.filter fun f => decide (1 ≤ (ack + 4096 - f.fseq) % 4096 ∧ (ack + 4096 - f.fseq) % 4096 ≤ 2048)
  let keep := l.replay.filter fun f => !done.contains f
  let upto := maxNat (done.map (·.upto))
  { l with
    replay := keep
    resend := min l.resend keep.length
    sent := if done.isEmpty then l.sent else l.sent.filter fun x => upto < x.1 }

/-- A NAK: replay from the first frame kept, or failure of the port once that frame has been replayed REPLAY_MAX times
(R292, R293). An edge goes on replaying (R41). -/
def State.takeNak (k : Nat) (s : State) : State :=
  let l := s.link k
  match l.replay with
  | [] => s
  | f :: _ =>
    if k < 18 ∧ s.fld (Reg.LINK_THRESH k) 27 24 ≤ f.replays then (s.linkFault k 0x81 f.fseq).failLink k
    else s.setLink k { l with resend := l.replay.length, replayAt := some (l.replayAt.getD s.now) }

/-- A frame that is bad or out of order: it is discarded, and so is every later one until the replay comes; a NAK goes
out, once for a gap and again for each bad frame (R292). -/
def State.badFrame (k : Nat) (crcBad : Bool) (s : State) : State :=
  let l := s.link k
  s.setLink k { l with nak := l.nak || crcBad || !l.discarding, discarding := true }

/-- The contents of the frame expected next; `beside` holds what travels beside the packets that end in it (R333). -/
def State.takeFrame (k : Nat) (b : List Byte) (beside : List (Option Nat × Nat)) (s : State) : State :=
  let h := fieldAt b 0 8
  let l := s.link k
  let s := s.setLink k { l with expect := (l.expect + 1) % 4096, discarding := false }
  let s := (s.controlWords k b).swapDue k (bits h 11 0)
  let (ps, left) := bodyPackets l.partBytes (bits h 31 25) ((b.drop 56).take 960)
  let s := s.setLink k { s.link k with partBytes := left }
  ps.zipIdx.foldl (fun s x => if s.carries k then s.packetIn k x.1 (beside.getD x.2 (none, 1)) else s) s

/-- A good frame (R292): the one expected is taken in with its ACKSEQ and NAK; one that came before is discarded, and one
ahead of its turn is discarded as after a bad frame. -/
def State.goodFrame (k : Nat) (b : List Byte) (beside : List (Option Nat × Nat)) (s : State) : State :=
  let h := fieldAt b 0 8
  let expect := (s.link k).expect
  if bits h 11 0 = expect then
    let s := if ((s.link k).ackTo (bits h 23 12)).resend = 0 then s.replayEnds k else s
    let s := s.setLink k ((s.link k).ackTo (bits h 23 12))
    let s := if bits h 24 24 = 1 then s.takeNak k else s
    if s.carries k then s.takeFrame k b beside else s
  else if (expect + 4096 - bits h 11 0) % 4096 ≤ 2048 then s
  else s.badFrame k false

/-- Symbols that FEC corrected and codewords it could not (R42, R295). -/
def State.phyStatus (k : Nat) (corrected : List (Nat × Nat)) (blamed : List Nat) (s : State) : State :=
  let l := s.link k
  let add (t : Table Nat) (j n : Nat) : Table Nat := tSet zeroNat j (tGet zeroNat j t + n) t
  let s := s.setLink k { l with
    corrected := corrected.foldl (fun t x => add t x.1 x.2) l.corrected
    blamed := blamed.foldl (fun t j => add t j 1) l.blamed }
  (s.linkTally k 2 (sumNat (corrected.map (·.2)))).linkTally k 3 blamed.length

/-- A frame is whole: 1,024 B, its link CRC holds, and no uncorrectable codeword touches it (R289, R292). -/
def frameOk (bytes : List Byte) (blamed : List Nat) : Bool :=
  bytes.length == 1024 && fieldAt bytes 1016 8 == (crc64 (bytes.take 1016)).toNat && blamed.isEmpty

/-- An Ebsan edge on which a frame passes its link CRC is not silent (R460). -/
def State.edgeHeard (k : Nat) (s : State) : State :=
  if k < 18 then s else { s with safe := { s.safe with quiet := s.safe.quiet.filter (· != k - 18) } }

/-- LINK_FRAME_RECEIVE (R289, R290, R292, R293). -/
def execLinkFrameReceive (port : Nat) (bytes : List Byte) (corrected : List (Nat × Nat)) (side : FrameSide) (s : State) : Out :=
  if s.carries port then
    let s := s.phyStatus port corrected side.blamed
    .next (if frameOk bytes side.blamed then (s.edgeHeard port).goodFrame port bytes side.beside else s.badFrame port true)
  else .next (if s.training port && frameOk bytes side.blamed then s.controlWords port bytes else s)

/-- PHY_LOCK_LOSS (R296): the port fails. -/
def execPhyLockLoss (port : Nat) (s : State) : Out :=
  .next (if port < 18 ∧ portCarries (s.portState port) then s.stopPort port 3 else s)

/-! ## Training -/

/-- PORT_TRAIN_RETRY (R478): a port that is DOWN and enabled starts training. -/
def execPortTrainRetry (port : Nat) (s : State) : Out :=
  .next (if port < 18 ∧ s.bound ∧ s.portState port = 0 ∧ s.bit (Reg.LINK_CTL port) 0 then s.startTraining port else s)

/-- LINK_TRAIN_DONE (R290, R294): the port is UP, or idle as a spare; the far end is known; above 340 ns it is LONG. -/
def execLinkTrainDone (port rtt farNode farPort : Nat) (s : State) : Out :=
  if ¬(port < 18 ∧ s.portState port = 1) then .next s
  else
    let long := decide (340 < rtt)
    let st := if s.role port = 1 then 5 else 2
    let s := s.setReg (Reg.LINK_STAT port) (BitVec.ofNat 64
      (st + s.fld (Reg.LINK_STAT port) 11 3 * 2 ^ 3 + b2n long * 2 ^ 17 + min rtt 4095 * 2 ^ 20))
    let s := s.setReg (Reg.LINK_FAR port) (BitVec.ofNat 64 (farNode % 2 ^ 23 + farPort % 32 * 2 ^ 24))
    let s := (s.setLink port { ({} : Link) with credits := fullCredits }).forgetCredits port
    .next (if long then s.linkFault port 0x86 0 else s)

/-! ## Bell open (R295 to R297) -/

/-- The lanes of a port that need replacing. -/
def State.badLanes (s : State) (p : Nat) : List Nat :=
  let l := s.link p
  (List.range 9).filter fun j =>
    s.fld (Reg.LINK_STAT p) (3 + j) (3 + j) == 1
      && (decide (s.fld (Reg.LINK_THRESH p) 23 0 < tGet zeroNat j l.corrected) || decide (4 ≤ tGet zeroNat j l.blamed))

/-- LINK_LANE WORST and WORST_COUNT of the bell that closes. -/
def State.showWorst (p : Nat) (s : State) : State :=
  let c := (s.link p).corrected
  let worst := (List.range 9).foldl (fun w j => if tGet zeroNat w c < tGet zeroNat j c then j else w) 0
  (s.setFld (Reg.LINK_LANE p) 12 9 worst).setFld (Reg.LINK_LANE p) 63 32 (min (tGet zeroNat worst c) (2 ^ 32 - 1))

/-- A lane moves to the spare wavelength from the next frame on: SWAP, LANE_SWAP (R295). -/
def State.swapLane (p lane : Nat) (s : State) : State :=
  let l := s.link p
  let w := manageWord 2 (lane + l.fseq * 2 ^ 4)
  ((s.setLink p { l with ctl := w :: l.ctl }).moveLane p lane).linkFault p 0x82 l.fseq

/-- The lanes of a port at a bell close: a swap, or LANE_FAIL and failure (R295, R296); then the port's ENABLE and
RETIRE of this bell open, where a failure drops the swap (R297). -/
def State.portAtOpen (p : Nat) (s : State) : State :=
  let s := s.showWorst p
  let bad := if portCarries (s.portState p) then s.badLanes p else []
  let spareUsed := s.bit (Reg.LINK_STAT p) 11 || s.bit (Reg.LINK_LANE p) 8
  let s := s.setLink p { s.link p with corrected := [], blamed := [] }
  let ctl := (s.stagedReg (Reg.LINK_CTL p)).toNat
  if !portCarries (s.portState p) then
    if bits ctl 3 3 = 1 ∧ s.portState p ≠ 3 then s.setFld (Reg.LINK_STAT p) 2 0 4
    else if bits ctl 0 0 = 0 ∧ s.portState p = 1 then s.setFld (Reg.LINK_STAT p) 2 0 0 else s
  else
    let laneFail := (spareUsed && !bad.isEmpty) || 2 ≤ bad.length
    let s := if laneFail then s.linkFault p 0x83 0 else s
    if bits ctl 3 3 = 1 then s.stopPort p 4
    else if laneFail then s.stopPort p 3
    else if bits ctl 0 0 = 0 then s.stopPort p 0
    else match bad with
      | lane :: _ => s.swapLane p lane
      | [] => s

/-- The place in P that a failed port held: its own, or for a spare that was in use the place it had taken. An idle spare
holds none, and a gateway-role port is never in P (R344; DEDUCED, notes/assumptions/25.md), so no spare takes its place. -/
def State.placeHeld (s : State) (p : Nat) : Option Nat :=
  if s.role p = 0 then some p
  else if s.role p = 1 then (s.link p).place else none

/-- The spare that qualifies for a failed port: UP, not in use, with the same far node; the lower-numbered (R297). -/
def State.spareFor (s : State) (p : Nat) : Option Nat :=
  (List.range 18).find? fun q =>
    s.role q == 1 && s.portState q == 5 && s.fld (Reg.LINK_FAR q) 22 0 == s.fld (Reg.LINK_FAR p) 22 0

/-- A port that failed since the last bell open: a spare takes its place, or the slice runs with one port fewer
(R297). -/
def State.sparePort (p : Nat) (s : State) : State :=
  if !(s.link p).failPending then s
  else
    let held := s.placeHeld p
    let s := s.setLink p { s.link p with failPending := false, place := none }
    match held, s.spareFor p with
    | some place, some q =>
      let s := (s.setLink q { s.link q with place := some place }).setFld (Reg.LINK_STAT q) 2 0 6
      (s.setFld (Reg.LINK_STAT q) 16 12 place).linkFault p 0x84 0
    | _, _ =>
      let s := if s.portState p = 3 then s.setFld (Reg.LINK_STAT p) 2 0 4 else s
      s.linkFault p 0x85 0

/-- A port counts in P: an UP port of ROLE 0 or a spare in use, and not LONG (R294, R297). -/
def State.inP (s : State) (p : Nat) : Bool :=
  ((s.portState p == 2 && s.role p == 0) || s.portState p == 6) && !s.bit (Reg.LINK_STAT p) 17

/-- LINK_STAT IN_P of every port. -/
def State.countPorts (s : State) : State :=
  (List.range 18).foldl (fun s p => s.setFld (Reg.LINK_STAT p) 18 18 (b2n (s.inP p))) s

/-- A trained port that a new ROLE makes a spare, or takes out of the spares, has the STATE of that role (R312). -/
def State.roleState (p : Nat) (s : State) : State :=
  let st := s.portState p
  if st = 2 ∧ s.role p = 1 then s.setFld (Reg.LINK_STAT p) 2 0 5
  else if (st = 5 ∨ st = 6) ∧ s.role p ≠ 1 then
    ((s.setLink p { s.link p with place := none }).setFld (Reg.LINK_STAT p) 2 0 2).setFld (Reg.LINK_STAT p) 16 12 0
  else s

/-- The roles in force at a bell show in STATE and IN_P (R297, R312). -/
def State.rolesAtOpen (s : State) : State := ((List.range 18).foldl (fun s p => s.roleState p) s).countPorts

/-- An edge that failed is retired at a bell open (R41). -/
def State.edgeAtOpen (e : Nat) (s : State) : State :=
  if !(s.link (18 + e)).failPending then s
  else ((s.setFld Reg.EBS_STAT (4 * e + 3) (4 * e) 5).drainLink (18 + e)).setLink (18 + e) {}

/-- Lanes, failing ports, spares and edges at a bell open (R295 to R297, R41); IN_P follows with the roles. -/
def State.linksAtOpen (s : State) : State :=
  let s := (List.range 18).foldl (fun s p => s.portAtOpen p) s
  let s := (List.range 18).foldl (fun s p => s.sparePort p) s
  (List.range 4).foldl (fun s e => s.edgeAtOpen e) s

end Sys2Proof.Machine
end

