-- ==== Sys2Proof/Machine/Router.lean ====
section
/-! DEFINITION. The router's tables and decisions (R329 to R345): route images and their check, the two versions and the
switch between them, the next hop of a packet, adaptive and escape; and the end-to-end windows and acknowledgements
(R302 to R306). -/
namespace Sys2Proof.Machine

/-! ## End-to-end windows (R302 to R305) -/

/-- The key of a pair and class. -/
def pairCls (node cls : Nat) : Nat := node * 8 + cls

/-- The window of a class (R302, LINK_WIN0 and LINK_WIN1). -/
def State.window (s : State) (cls : Nat) : Nat :=
  if cls < 4 then s.fld (Reg.LINK_WIN0 0) (16 * cls + 14) (16 * cls)
  else s.fld (Reg.LINK_WIN1 0) (16 * (cls - 4) + 14) (16 * (cls - 4))

/-- A packet carries a SEQ: classes 0 to 6 but for link-local MGT. -/
def windowed (p : Packet) : Bool := p.cls < 7 && !(p.cls == 0 && p.type < 0x40)

/-- Packets of a class outstanding to a destination; a skipped one no longer counts. -/
def State.outstanding (s : State) (dest cls : Nat) : Nat :=
  (s.e2e.outst.filter fun o => o.dest == dest && o.cls == cls && !o.skipped).length

/-- The outstanding packet of a destination, class and SEQ. -/
def State.outstOf (s : State) (dest cls seq : Nat) : Option Outst :=
  s.e2e.outst.find? fun o => o.dest == dest && o.cls == cls && o.seq == seq

/-- An outstanding packet changes. -/
def State.modOutst (dest cls seq : Nat) (f : Outst → Outst) (s : State) : State :=
  { s with e2e := { s.e2e with
    outst := s.e2e.outst.map fun o => if o.dest == dest && o.cls == cls && o.seq == seq then f o else o } }

/-- The injection epoch (R338). -/
def State.epoch (s : State) : Nat := s.fld Reg.ROUTE_STAT 0 0

/-- A packet as it goes out now: EPOCH and BIRTH of now, no hop taken, its trailer for these header bytes; the trailer of
a TOK packet is its chunk CRC (R299, R338). -/
def State.stamp (s : State) (p : Packet) : Packet :=
  let p := { p with epoch := s.epoch, birth := bits s.now 21 6, hops := 0, esc := false, lane := 0, laneWas := 0, entryDim := none, edges := 0 }
  { p with crc := if p.cls = 5 then p.crc else some (packetCrc p) }

/-- The sender sends an outstanding packet again (R302). -/
def State.resend (o : Outst) (s : State) : State :=
  { s with route := { s.route with queue := s.route.queue ++ [⟨s.stamp o.pkt, .again, none, 0, false⟩] } }

/-- An ack record (R305). -/
def ackRecord (base seq cls kind : Nat) : List Byte := leBytes 8 (base + seq * 2 ^ 16 + cls * 2 ^ 32 + kind * 2 ^ 35)

/-- The receive side of a source and class. -/
def State.rxWin (s : State) (src cls : Nat) : RxWin := tGet (fun _ => {}) (pairCls src cls) s.e2e.rx

/-- Bitmaps in use: pairs with a SEQ accepted beyond BASE (R304). -/
def State.bitmaps (s : State) : Nat := (s.e2e.rx.filter fun x => !x.2.got.isEmpty).length

/-- The receive side takes a new value, and LINK_E2E_STAT BITMAPS shows the count. -/
def State.setRxWin (src cls : Nat) (w : RxWin) (s : State) : State :=
  let s := { s with e2e := { s.e2e with rx := tSet (fun _ => ({} : RxWin)) (pairCls src cls) w s.e2e.rx } }
  s.setFld (Reg.LINK_E2E_STAT 0) 11 0 s.bitmaps

/-- BASE advances past every received SEQ. -/
def advanceBase : Nat → RxWin → RxWin
  | 0, w => w
  | n + 1, w =>
    if w.got.contains w.base then advanceBase n { base := (w.base + 1) % 65536, got := w.got.filter (· != w.base) } else w

/-- What the window check says of a SEQ (R304). -/
inductive WindowVerdict where
  | accept
  | duplicate
  | nakSpan
  | bad
  deriving DecidableEq, Repr

/-- The window check of R304. -/
def State.windowVerdict (s : State) (src cls seq : Nat) : WindowVerdict :=
  let w := s.rxWin src cls
  let d := (seq + 65536 - w.base) % 65536
  if 32768 ≤ d then .duplicate
  else if d < 1024 then
    if w.got.contains seq then .duplicate
    else if d = 0 ∨ !w.got.isEmpty ∨ s.bitmaps < 2048 then .accept else .nakSpan
  else if d < 16384 then .nakSpan else .bad

/-- A SEQ is taken as received. -/
def State.acceptSeq (src cls seq : Nat) (s : State) : State :=
  let w := s.rxWin src cls
  s.setRxWin src cls (advanceBase 1025 { w with got := seq :: w.got })

/-- An acknowledgement of a kind with the BASE of now (R305). -/
def State.acknowledge (src cls seq kind : Nat) (s : State) : State :=
  s.sendAck src (ackRecord (s.rxWin src cls).base seq cls kind)

/-- The window check and its acknowledgement; answers whether the packet is taken in (R304). -/
def State.windowTake (src cls seq : Nat) (s : State) : Bool × State :=
  match s.windowVerdict src cls seq with
  | .accept => (true, (s.acceptSeq src cls seq).acknowledge src cls seq 0)
  | .duplicate => (false, (s.acknowledge src cls seq 0).tallyAdd (Pg.LINK 0) 15 1)
  | .nakSpan => (false, (s.acknowledge src cls seq 2).tallyAdd (Pg.LINK 0) 14 1)
  | .bad => (false, s.linkFault 0 0x8A 0)

/-- The fields of an ack record. -/
def ackBase (r : List Byte) : Nat := fieldAt r 0 2
def ackSeq (r : List Byte) : Nat := fieldAt r 2 2
def ackCls (r : List Byte) : Nat := bits (fieldAt r 4 4) 2 0
def ackKind (r : List Byte) : Nat := bits (fieldAt r 4 4) 5 3

/-- A record is handled by its KIND; kinds 5 to 7 are dropped and counted (R305). -/
def State.onAck (kind : Nat) (record : List Byte) (f : State → State) (s : State) : State :=
  if 5 ≤ ackKind record then s.tallyAdd (Pg.LINK 0) 17 1 else if ackKind record = kind then f s else s

/-- The time from the refusal of a forward chunk for its CRC to the acknowledgement of the chunk sent again is what the resend
took: retry time of its half, where the chunk belongs to its running round (R81, R208; DEDUCED, notes/assumptions/25.md). -/
def State.resentTime (o : Outst) (s : State) : State :=
  let h := halfOf (tHalf o.pkt.arg)
  match o.nakAt, s.curRound h with
  | some t, some (a, r) =>
    if o.cls = 5 && s.ofRound a r h o.pkt then s.modRound h fun r => { r with retry := r.retry + 2 * (s.now - max t r.start) }
    else s
  | _, _ => s

/-- ACK_RECEIVE (R302, R305): every outstanding SEQ below BASE and the SEQ named are complete; packets held back by a
NAK_SPAN go out again once BASE is near. -/
def execAckReceive (src : Node) (record : List Byte) (s : State) : Out :=
  .next (s.onAck 0 record fun s =>
    let base := ackBase record
    let mine (o : Outst) : Bool := o.dest == src && o.cls == ackCls record
    let below (o : Outst) : Bool := decide (1 ≤ (base + 65536 - o.seq) % 65536 ∧ (base + 65536 - o.seq) % 65536 ≤ 32768)
    let done (o : Outst) : Bool := mine o && (below o || (o.seq == ackSeq record && !o.skipped))
    let s := (s.e2e.outst.filter done).foldl (fun s o => s.resentTime o) s
    let s := { s with e2e := { s.e2e with outst := s.e2e.outst.filter fun o => !done o } }
    let near (o : Outst) : Bool := mine o && o.span && decide ((o.seq + 65536 - base) % 65536 < 1024)
    let due := s.e2e.outst.filter near
    let s := { s with e2e := { s.e2e with outst := s.e2e.outst.map fun o => if near o then { o with span := false } else o } }
    due.foldl (fun s o => s.resend o) s)

/-- NAK_CRC_RECEIVE (R302): the named packet goes out again; a NAK that names none is ignored (R304). -/
def execNakCrcReceive (src : Node) (record : List Byte) (s : State) : Out :=
  .next (s.onAck 1 record fun s =>
    match s.outstOf src (ackCls record) (ackSeq record) with
    | some o =>
      if o.skipped then s
      else (s.modOutst src o.cls o.seq fun o => { o with nakAt := some (o.nakAt.getD s.now) }).resend o
    | none => s)

/-- NAK_SPAN_RECEIVE (R302): the named packet goes out again once an ACK shows a near BASE. -/
def execNakSpanReceive (src : Node) (record : List Byte) (s : State) : Out :=
  .next (s.onAck 2 record fun s => s.modOutst src (ackCls record) (ackSeq record) fun o => { o with span := true })

/-- BARROW_ACK_RECEIVE (R68, R305): a forward barrow is acknowledged by its site; for a return barrow the site gives up
its copies. -/
def execBarrowAckReceive (src : Node) (record : List Byte) (s : State) : Out :=
  .next (s.onAck 3 record fun s =>
    let v := leNat (record.take 8)
    let h := halfOf (bits v 46 46)
    if bits v 47 47 = 1 then
      { s with tok := { s.tok with kept := s.tok.kept.filter fun c =>
        !(c.dest == src && tDir c.tag == 1 && tHalf c.tag == h.num && c.bell % 256 == bits v 55 48 && tLayer c.tag == bits v 45 38) } }
    else match s.curRound h with
      | none => s
      | some (a, r) =>
        if a.bell % 256 ≠ bits v 55 48 ∨ r.layer ≠ bits v 45 38 then s
        else match indexOfNat src (s.sourcesAt a.bell) with
          | some site => s.fwdAcked h site
          | none => s)

/-- RETX_TIMEOUT (R302, R87): without an acknowledgement the packet goes out again, up to RETRIES times. -/
def execRetxTimeout (dest : Node) (cls seq : Nat) (s : State) : Out :=
  match s.outstOf dest cls seq with
  | none => .next s.lateMargin
  | some o =>
    if o.skipped ∨ s.fld (Reg.LINK_E2E 0) 14 12 ≤ o.tries then .next s
    else .next ((s.modOutst dest cls seq fun o => { o with tries := o.tries + 1 }).resend o)

/-- E2E_LOST (R303): retries are used up and a further wait has passed: E2E_LOST, LINK_E2E_STAT, SKIP. -/
def execE2eLost (dest : Node) (cls seq : Nat) (s : State) : Out :=
  match s.outstOf dest cls seq with
  | none => .next s.lateMargin
  | some o =>
    if o.skipped ∨ o.tries < s.fld (Reg.LINK_E2E 0) 14 12 then .next s
    else
      let s := ((s.setFld (Reg.LINK_E2E_STAT 0) 34 12 dest).setFld (Reg.LINK_E2E_STAT 0) 37 35 cls).setFld
        (Reg.LINK_E2E_STAT 0) 53 38 seq
      let s := s.linkFault 0 0x8B 0
      let s := s.modOutst dest cls seq fun o => { o with skipped := true }
      .next (s.sendAck dest (ackRecord 0 seq cls 4))

/-- SKIP_RESEND (R303): the SKIP goes out again until an ACK with BASE beyond the SEQ has come. -/
def execSkipResend (dest : Node) (cls seq : Nat) (s : State) : Out :=
  match s.outstOf dest cls seq with
  | none => .next s.lateMargin
  | some o => .next (if o.skipped then s.sendAck dest (ackRecord 0 seq cls 4) else s)

/-- The windows of a pair go back to zero in every class and both directions, and what was outstanding to the node
counts as skipped (R325). -/
def State.resetPair (node : Nat) (s : State) : State :=
  let s := { s with
    e2e := { s.e2e with
      next := s.e2e.next.filter fun x => x.1 / 8 != node
      outst := s.e2e.outst.filter fun o => o.dest != node
      rx := s.e2e.rx.filter fun x => x.1 / 8 != node }
    msem := { s.msem with
      nextSeq := tDel node s.msem.nextSeq
      parked := s.msem.parked.filter fun w => w.src != node
      skips := s.msem.skips.filter fun x => x.1 != node } }
  s.setFld (Reg.LINK_E2E_STAT 0) 11 0 s.bitmaps

/-! ## Route table images (R329, R330) -/

/-- A version by number, and its state code in ROUTE_STAT. -/
def State.routeVer (s : State) (v : Nat) : RouteVer := if v = 0 then s.route.v0 else s.route.v1

/-- ROUTE_STAT shows the versions: V0, V1, and MAXHOP and ORDER_TAG of the LIVE one (R345). -/
def State.showRoute (s : State) : State :=
  let s := (s.setFld Reg.ROUTE_STAT 3 1 s.route.v0.st).setFld Reg.ROUTE_STAT 6 4 s.route.v1.st
  if s.route.v0.st = 3 ∨ s.route.v1.st = 3 then
    (s.setFld Reg.ROUTE_STAT 27 24 s.liveRoute.maxhop).setFld Reg.ROUTE_STAT 63 32 s.liveRoute.order
  else s

/-- A version takes a new value. -/
def State.setRoute (v : Nat) (x : RouteVer) (s : State) : State :=
  ({ s with route := if v = 0 then { s.route with v0 := x } else { s.route with v1 := x } } : State).showRoute

/-- The version that is LIVE, if one is. -/
def State.liveVer (s : State) : Option Nat :=
  if s.route.v0.st = 3 then some 0 else if s.route.v1.st = 3 then some 1 else none

/-- The version an image loads into: the one that is not LIVE, or version 0 (R339). -/
def State.loadVer (s : State) : Nat := if s.liveVer = some 0 then 1 else 0

/-- The fields of an entry (R329). -/
def reAdapt (e : Nat) : Nat := bits e 21 0
def reEsc (e : Nat) : Nat := bits e 26 22
def reDateline (e : Nat) : Bool := bits e 27 27 == 1
def reEscDim (e : Nat) : Nat := bits e 29 28
def reDist (e : Nat) : Nat := bits e 33 30
def reEscDist (e : Nat) : Nat := bits e 37 34
def reValid (e : Nat) : Bool := bits e 38 38 == 1

/-- The dimension of a port in PORTDIM. -/
def dimAt (portdim p : Nat) : Nat := bits portdim (4 * p + 3) (4 * p)

/-- An entry of an image passes (R330). -/
def entryOk (own maxhop portdim p e : Nat) : Bool :=
  let adaptOk := (List.range 18).all fun q => bits e q q == 0 || dimAt portdim q != 15
  let escOk := 18 ≤ reEsc e || (dimAt portdim (reEsc e) == reEscDim e && dimAt portdim (reEsc e) != 15)
  if p = own then reValid e && reEsc e == 31 && reAdapt e == 0 && reDist e == 0 && reEscDist e == 0
  else if !reValid e then e == 0
  else reEsc e ≤ 21 && 1 ≤ reDist e && reDist e ≤ reEscDist e && reEscDist e ≤ maxhop && adaptOk && escOk

/-- A reserved bit of the header is set. -/
def routeHeadReserved (b : List Byte) : Bool :=
  fieldAt b 3 1 != 0 || fieldAt b 0x0C 4 != 0 || fieldAt b 0x19 39 != 0

/-- The bytes of an image. -/
def routeImageBytes : Nat := 32832

/-- The 8-byte words of a byte list. -/
def words64 : Nat → List Byte → List Nat
  | 0, _ => []
  | n + 1, b => leNat (b.take 8) :: words64 n (b.drop 8)

/-- The check of R330 over an image: the reason and entry of a refusal, in the order of ROUTE_STAT's codes. -/
def State.routeReason (s : State) (base : Nat) : Option (Nat × Nat) :=
  let head := s.rd base 64
  let es := words64 4096 (s.rd (base + 64) 32768)
  let maxhop := fieldAt head 2 1
  let portdim := fieldAt head 0x10 9
  if s.unreadable .route base routeImageBytes then some (7, 0)
  else if fieldAt head 0 2 ≠ 1 then some (1, 0)
  else if fieldAt head 8 4 ≠ s.node then some (2, 0)
  else if maxhop < 1 ∨ 8 < maxhop then some (3, 0)
  else if routeHeadReserved head then some (6, 0)
  else if !((List.range 18).all fun p => dimAt portdim p ≤ 3 || dimAt portdim p == 15) then some (8, 0)
  else if s.bellState ≠ 0 ∧ s.liveVer.isSome ∧ fieldAt head 4 4 ≠ s.liveRoute.order then some (5, 0)
  else match es.zipIdx.find? fun x => bits x.1 63 39 != 0 with
    | some x => some (6, x.2)
    | none =>
      match es.zipIdx.find? fun x => !entryOk (nodePkg s.node) maxhop portdim x.2 x.1 with
      | some x => some (4, x.2)
      | none => none

/-- The entries of an image that are not zero, by package. -/
def tableOf (es : List Nat) : Table Nat := (es.zipIdx.filter fun x => x.1 != 0).map fun x => (x.2, x.1)

/-- ROUTE_IMAGE_WRITE (R339): the image loads into the version that is not LIVE, unless that is LOADING or DRAINING. -/
def State.routeImageWrite (v : W64) (s : State) : State :=
  s.gated Reg.ROUTE_IMAGE v fun s =>
    let k := s.loadVer
    let st := (s.routeVer k).st
    if st = 1 ∨ st = 4 then s.dropWrite 0x96 Reg.ROUTE_IMAGE
    else if v = 0#64 then s.setReg Reg.ROUTE_IMAGE v
    else ((s.readsOver .route).setReg Reg.ROUTE_IMAGE v).setRoute k { st := 1 }

/-- The command of that write. -/
def execRouteImageWrite (v : W64) (s : State) : Out := .next (s.routeImageWrite v)

/-- ROUTE_IMAGE_CHECK_DONE (R330, R339): the loading version becomes READY, or LIVE when no version is; or FAILED with
the reason and entry in ROUTE_STAT. -/
def execRouteImageCheckDone (s : State) : Out :=
  let k := if s.route.v0.st = 1 then 0 else 1
  if (s.routeVer k).st ≠ 1 then .next s
  else
    let base := s.fld Reg.ROUTE_IMAGE 51 12 * 4096
    let s := s.noteUe base routeImageBytes
    match s.routeReason base with
    | some (reason, entry) =>
      let s := ((s.setRoute k { st := 5 }).setFld Reg.ROUTE_STAT 11 8 reason).setFld Reg.ROUTE_STAT 23 12 entry
      .next (s.record Pg.ROUTE 0x95 0)
    | none =>
      let head := s.rd base 64
      let st := if s.liveVer.isNone then 3 else 2
      let x : RouteVer :=
        ⟨st, fieldAt head 2 1, fieldAt head 4 4, fieldAt head 0x10 9, tableOf (words64 4096 (s.rd (base + 64) 32768))⟩
      let s := s.setRoute k x
      .next (if x.st = 3 then s.setFld Reg.ROUTE_STAT 0 0 k else s)

/-! ## The switch (R340, R341) -/

/-- ROUTE_SWITCH_WRITE (R340): arms a switch, or disarms it with 0. -/
def State.routeSwitchWrite (v : W64) (s : State) : State :=
  s.gated Reg.ROUTE_SWITCH v fun s =>
    (s.setReg Reg.ROUTE_SWITCH v).setFld Reg.ROUTE_STAT 7 7 (if v = 0#64 then 0 else 1)

/-- The command of that write. -/
def execRouteSwitchWrite (v : W64) (s : State) : Out := .next (s.routeSwitchWrite v)

/-- The armed switch is taken: the other version must be READY; while it is LOADING the switch waits; else it is dropped
with ROUTE_SWITCH_BAD (R340). -/
def State.takeSwitch (s : State) : State :=
  let k := s.loadVer
  let x := s.routeVer k
  if x.st = 1 then s
  else
    let s := s.setFld Reg.ROUTE_STAT 7 7 0
    if x.st = 2 then
      let s := match s.liveVer with
        | some old => s.setRoute old { s.routeVer old with st := 4 }
        | none => s
      let s := (s.setRoute k { x with st := 3 }).setFld Reg.ROUTE_STAT 0 0 k
      { s with route := { s.route with drainAt := s.now + 2000 * s.fld (Reg.LINK_E2E 0) 25 16 } }
    else s.record Pg.ROUTE 0x98 0

/-- An armed switch whose time has come. -/
def State.switchDue (s : State) : Bool := s.bit Reg.ROUTE_STAT 7 && decide (s.regNat Reg.ROUTE_SWITCH ≤ s.now)

/-- ROUTE_SWITCH_AT (R340): while the bell is STOPPED the switch takes effect at AT itself. -/
def execRouteSwitchAt (s : State) : Out :=
  .next (if s.bellState = 0 && s.switchDue then s.takeSwitch else s)

/-- ROUTE_DRAIN_END (R341): a DRAINING version becomes EMPTY 2 × MAX_FLIGHT_US after the switch. -/
def execRouteDrainEnd (s : State) : Out :=
  let k := if s.route.v0.st = 4 then 0 else 1
  .next (if (s.routeVer k).st = 4 ∧ s.route.drainAt ≤ s.now then s.setRoute k {} else s)

/-- Routes at a bell open: the armed switch (R340), and DIAM_SHORT when BELL_DIAM is below the MAXHOP of a version used
for lookups (R337). -/
def State.routesAtOpen (s : State) : State := if s.switchDue then s.takeSwitch else s

/-- DIAM_SHORT (R337). -/
def State.checkDiam (s : State) : State :=
  let d := s.fld Reg.BELL_DIAM 3 0
  let short (x : RouteVer) : Bool := 2 ≤ x.st && x.st ≤ 4 && d < x.maxhop
  if short s.route.v0 || short s.route.v1 then s.recordOnce Pg.ROUTE 0x9F 0 else s

/-! ## The next hop (R331 to R336) -/

/-- What the router does with a packet. -/
inductive Hop where
  | deliver
  /-- a link, the packet as it goes out, whether in escape, and whether another port stood in for ESC_HOP -/
  | go (link : Nat) (pkt : Packet) (subst : Bool)
  | wait
  | escDown
  | drop (code : Nat)
  /-- DEST is in another domain: the gateway port, if one is UP -/
  | foreign (port : Option Nat)
  deriving DecidableEq, Repr

/-- The port that stands for a port of the table: a spare in use for the port whose place it took (R332). -/
def State.standIn (s : State) (p : Nat) : Nat :=
  ((List.range 18).find? fun q => s.portState q == 6 && s.fld (Reg.LINK_STAT q) 16 12 == p).getD p

/-- Edges between two slices of a package of `n` along the edges of R40. -/
def ringDist (n a b : Nat) : Nat :=
  let d := (a + n - b) % n
  ceilDiv (min d (n - d)) 2

/-- The edge toward a slice of the own package (R331 item 3): the first UP edge, in ascending order, whose partner is
nearer; when retired edges leave none, the UP edge whose partner is nearest (R41). -/
def State.edgeToward (s : State) (dest : Nat) : Option Nat :=
  let n := s.fld Reg.EBS_CFG 7 4
  let up := (List.range 4).filter fun e => s.edgeState e == 3
  let dist (e : Nat) : Nat := ringDist n (s.edgePartner e) dest
  match up.find? fun e => dist e < ringDist n s.slice dest with
  | some e => some e
  | none => up.find? fun e => up.all fun f => dist e ≤ dist f

/-- A link holds credits for the whole packet in a lane (R307). -/
def State.hasCredit (s : State) (k : Nat) (p : Packet) (lane : Nat) : Bool := packetUnits p ≤ s.creditsFor k p lane

/-- The lane of an edge hop: a packet keeps its lane, and one newly in escape enters E0 (R309, R335). -/
def edgeLane (p : Packet) : Nat := if p.esc && p.lane == 0 then 1 else p.lane

/-- An edge hop; a third one in a package is none (R333). -/
def State.edgeHop (s : State) (e : Nat) (p : Packet) : Hop :=
  if 2 ≤ p.edges then .drop 0x92
  else if s.hasCredit (18 + e) p (edgeLane p) then .go (18 + e) (ebsanHop p (edgeLane p)) false else .wait

/-- The version a packet is looked up in: the one EPOCH names when it is READY, LIVE or DRAINING, else the LIVE one,
which is ROUTE_EPOCH_MISS (R338). -/
def State.lookupVer (s : State) (p : Packet) : RouteVer × Bool :=
  let v := s.routeVer p.epoch
  if 2 ≤ v.st ∧ v.st ≤ 4 then (v, false) else (s.liveRoute, true)

/-- The adaptive next hop: the permitted UP hop with most free credits, the lowest-numbered on a tie. A bit of ADAPT names a
port of ROLE 0, for which a spare in use may stand (R332). -/
def State.adaptHop (s : State) (e : Nat) (p : Packet) : Option Nat :=
  let cand := (List.range 22).filterMap fun b =>
    if bits e b b = 0 then none
    else if b < 18 then
      let q := s.standIn b
      if s.role b == 0 && s.portUp q && s.hasCredit q p 0 then some q else none
    else if s.edgeState (b - 18) == 3 && p.edges < 2 && s.hasCredit b p 0 then some b else none
  cand.find? fun k => cand.all fun j => s.creditsFor j p 0 ≤ s.creditsFor k p 0

/-- The lane of an escape Felano hop (R335). -/
def escLane (e : Nat) (p : Packet) : Nat :=
  let l := if p.entryDim ≠ some (reEscDim e) ∨ p.lane = 0 then 1 else p.lane
  if reDateline e then 2 else l

/-- The escape port: ESC_HOP, or the lowest UP port to the same far package with the same PORTDIM (R335). -/
def State.escPort (s : State) (v : RouteVer) (h : Nat) : Option (Nat × Bool) :=
  let q := s.standIn h
  let far (p : Nat) : Nat := s.fld (Reg.LINK_FAR p) 22 3
  if s.portUp q then some (q, false)
  else ((List.range 18).find? fun p => s.portUp p && far p == far h && s.portDim v p == dimAt v.portdim h).map fun p => (p, true)

/-- A packet in escape (R334, R335). -/
def State.escHop (s : State) (v : RouteVer) (e : Nat) (p : Packet) : Hop :=
  let h := reEsc e
  if 18 ≤ h then s.edgeHop (h - 18) p
  else if v.maxhop < p.hops + reEscDist e then .drop 0x91
  else match s.escPort v h with
    | none => .escDown
    | some (q, subst) =>
      let lane := escLane e p
      if s.hasCredit q p lane then .go q (felanoHop p lane) subst else .wait

/-- The decision of R331 for a packet. -/
def State.hopFor (s : State) (p : Packet) : Hop :=
  if p.dest = s.node then .deliver
  else if nodeDomain p.dest ≠ nodeDomain s.node then
    .foreign ((List.range 18).find? fun q =>
      s.nodeValid && s.role q == 2 && s.portState q == 2 && s.fld (Reg.LINK_FAR q) 22 0 == p.dest)
  else if nodePkgDom p.dest = nodePkgDom s.node then
    match s.edgeToward (nodeSlice p.dest) with
    | some e => s.edgeHop e p
    | none => .wait
  else
    let (v, _) := s.lookupVer p
    let e := tGet zeroNat (nodePkg p.dest) v.entries
    if !reValid e then .drop 0x90
    else if p.esc then s.escHop v e p
    else match s.adaptHop e p with
      | some k =>
        if 18 ≤ k then .go k (ebsanHop p 0) false
        else if v.maxhop < p.hops + reDist e then .drop 0x91
        else .go k (felanoHop p 0) false
      | none => .wait

/-- The packet would look up a version that is not there (R338). -/
def State.epochMiss (s : State) (p : Packet) : Bool :=
  nodeDomain p.dest == nodeDomain s.node && nodePkgDom p.dest != nodePkgDom s.node && (s.lookupVer p).2

/-- A ROUTE code about a packet (R345, R520). -/
def State.routeFault (code node : Nat) (p : Packet) (s : State) : State :=
  let v := BitVec.ofNat 64 (node % 2 ^ 23 + code * 2 ^ 24 + p.job * 2 ^ 32 + p.cls * 2 ^ 48)
  (s.setReg Reg.ROUTE_FAULT v).recordF Pg.ROUTE code Reg.ROUTE_FAULT

end Sys2Proof.Machine
end

