-- ==== Sys2Proof/Machine/Disc.lean ====
section
/-! DEFINITION. Discovery (R318 to R328): identity, election of a coordinator, automatic assignment of node IDs, link-state
beacons and their database, path operations at their origin, and manager mail. -/
namespace Sys2Proof.Machine

/-- The ELECT period in ns. -/
def State.electNs (s : State) : Nat := 1000 * s.fld Reg.DISC_CTL 17 8

/-- Discovery runs: DISC_STAT STATE is not IDLE. -/
def State.discRuns (s : State) : Bool := s.fld Reg.DISC_STAT 1 0 != 0

/-- The TTL of ELECT and LSB. -/
def State.discTtl (s : State) : Nat := s.fld Reg.DISC_CTL 7 3

/-- The domain of this slice: of its node ID, or the one it claims. -/
def State.domain (s : State) : Nat := if s.nodeValid then nodeDomain s.node else s.fld Reg.DISC_CTL 35 28

/-- The ports discovery uses: UP, of ROLE 0 or 1 (R319). -/
def State.discPorts (s : State) : List Nat := (List.range 18).filter fun p => portCarries (s.portState p) && s.role p < 2

/-- A link-local packet leaves by a port (R299, R319): JOB 0, no window. -/
def State.sendLocal (port type : Nat) (payload : List Byte) (s : State) : State :=
  s.putLocal port (s.stamp { dest := s.fld (Reg.LINK_FAR port) 22 0, src := s.node, cls := 0, type := type, payload := payload })

/-- A link-local packet leaves by several ports. -/
def State.sendLocals (ports : List Nat) (type : Nat) (payload : List Byte) (s : State) : State :=
  ports.foldl (fun s p => s.sendLocal p type payload) s

/-! ## Identity (R318) -/

/-- A register that is written once after each IKC_PORST_N. -/
def State.writeOnce (r code : Nat) (v : W64) (s : State) : State :=
  if s.start.onceWritten.contains r then s.dropWrite code r
  else { s with start := { s.start with onceWritten := r :: s.start.onceWritten } } |>.setReg r v

/-- DISC_IDENT_WRITE (R318). -/
def State.discIdentWrite (v : W64) (s : State) : State :=
  s.gated Reg.DISC_IDENT v fun s => s.writeOnce Reg.DISC_IDENT 0x9A v

/-- The command of that write. -/
def execDiscIdentWrite (v : W64) (s : State) : Out := .next (s.discIdentWrite v)

/-- DISC_INCARN_WRITE (R318). -/
def State.discIncarnWrite (v : W64) (s : State) : State :=
  s.gated Reg.DISC_INCARN v fun s => s.writeOnce Reg.DISC_INCARN 0x9A v

/-- The command of that write. -/
def execDiscIncarnWrite (v : W64) (s : State) : Out := .next (s.discIncarnWrite v)

/-! ## Election (R319, R320) -/

/-- The own identity. -/
def State.ident (s : State) : Nat := s.regNat Reg.DISC_IDENT

/-- Reports fresh now whose hops stay within the TTL: port, identity, hops. -/
def State.freshReports (s : State) : List (Nat × Nat × Nat) :=
  (s.disc.reports.filter fun x => s.now ≤ x.2.at_ + 3 * s.electNs && x.2.hops + 1 ≤ s.discTtl).map
    fun x => (x.1, x.2.best, x.2.hops + 1)

/-- The best identity, hops and parent port (R320). -/
def State.elect (s : State) : Nat × Nat × Nat :=
  let rs := s.freshReports
  let b := rs.foldl (fun b x => min b x.2.1) s.ident
  if b = s.ident then (b, 0, 0)
  else
    let mine := rs.filter fun x => x.2.1 == b
    let h := (mine.map fun x => x.2.2).min?.getD 0
    (b, h, ((mine.filter fun x => x.2.2 == h).map (·.1)).min?.getD 0)

/-- The slice recomputes B; a change of B returns to ELECTING and ends what a former coordinator kept (R320, R321). -/
def State.recompute (s : State) : State :=
  if !s.discRuns then s
  else
    let (b, h, parent) := s.elect
    let changed := decide (b ≠ s.disc.best)
    let s := if changed then
        ({ s with disc := { s.disc with best := b, stable := 0, claims := [], seen := [] } } : State)
          |>.setFld Reg.DISC_STAT 1 0 1 |>.setFld Reg.DISC_STAT 41 29 0 |>.tallyAdd Pg.DISC 2 1
      else s
    let s := s.setReg Reg.DISC_COORD (BitVec.ofNat 64 b)
    ((s.setFld Reg.DISC_STAT 6 2 h).setFld Reg.DISC_STAT 11 7 parent).setFld Reg.DISC_STAT 12 12 (b2n (b == s.ident))

/-- DISC_START (R318): a write of DISC_CTL; START begins discovery once both once-only registers are written. -/
def State.discStart (v : W64) (s : State) : State :=
  s.gated Reg.DISC_CTL v fun s =>
    if bits v.toNat 0 0 = 0 then s.setReg Reg.DISC_CTL v
    else if !(s.start.onceWritten.contains Reg.DISC_IDENT && s.start.onceWritten.contains Reg.DISC_INCARN) then
      s.dropWrite 0x9B Reg.DISC_CTL
    else
      let s := s.setReg Reg.DISC_CTL v
      if s.discRuns then s
      else ({ s with disc := { s.disc with best := s.ident, stable := 0 } } : State)
        |>.setFld Reg.DISC_STAT 1 0 1 |>.recompute

/-- The command of that write. -/
def execDiscStart (v : W64) (s : State) : Out := .next (s.discStart v)

/-- ELECT (R319). -/
def State.electPayload (s : State) : List Byte :=
  leBytes 8 s.ident ++ leBytes 8 s.disc.best ++ [BitVec.ofNat 8 (s.fld Reg.DISC_STAT 6 2)]
    ++ [BitVec.ofNat 8 (s.fld Reg.DISC_CTL 2 2 + 2 * s.fld Reg.DISC_CTL 1 1)] ++ leBytes 2 0
    ++ leBytes 4 (if s.nodeValid then s.node else 0) ++ leBytes 8 0

/-- ELECT_SEND (R319, R320): one period passes; ELECT leaves on every port, and after 8 periods without a change of B
the state is SETTLED. -/
def execElectSend (s : State) : Out :=
  if !s.discRuns then .next s
  else
    let s := s.recompute
    let s := { s with disc := { s.disc with stable := s.disc.stable + 1 } }
    let s := if 8 ≤ s.disc.stable ∧ s.fld Reg.DISC_STAT 1 0 = 1 then s.setFld Reg.DISC_STAT 1 0 2 else s
    .next (s.sendLocals s.discPorts 0x01 s.electPayload)

/-- A discovery message on a gateway-role port is discarded with DISC_BAD_MSG (R319). -/
def State.discMessage (port : Nat) (f : State → State) (s : State) : State :=
  if port < 18 && s.role port == 2 then s.record Pg.DISC 0x9E 0 else f s

/-- ELECT_RECEIVE (R320). -/
def execElectReceive (port : Nat) (payload : List Byte) (s : State) : Out :=
  .next (s.discMessage port fun s =>
    if !s.discRuns then s
    else
      let r : Report := ⟨fieldAt payload 8 8, fieldAt payload 16 1, s.now⟩
      ({ s with disc := { s.disc with reports := tPut port r s.disc.reports } } : State).recompute)

/-- ELECT_REPORT_EXPIRE (R320): a report ages out 3 × ELECT_US after its arrival. -/
def execElectReportExpire (port : Nat) (s : State) : Out :=
  match tFind port s.disc.reports with
  | none => .next s
  | some r =>
    if s.now < r.at_ + 3 * s.electNs then .next s
    else .next ({ s with disc := { s.disc with reports := tDel port s.disc.reports } } : State).recompute

/-! ## Automatic assignment (R321) -/

/-- CLAIM: the lead's identity, slice count, domain, and the package number it holds or 0xFFFF. -/
def State.claimPayload (s : State) : List Byte :=
  padTo 32 (leBytes 8 s.ident ++ leBytes 1 (s.fld Reg.EBS_CFG 7 4) ++ leBytes 1 (s.fld Reg.DISC_CTL 35 28)
    ++ leBytes 2 (if s.nodeValid then nodePkg s.node else 0xFFFF))

/-- A CLAIM as read. -/
def claimOf (b : List Byte) : Claim := { ident := fieldAt b 0 8, count := fieldAt b 8 1, domain := fieldAt b 9 1, pkg := fieldAt b 10 2 }

/-- The coordinator keeps each distinct claim. -/
def State.keepClaim (c : Claim) (s : State) : State :=
  if s.disc.claims.any fun d => d.ident == c.ident then s
  else { s with disc := { s.disc with claims := s.disc.claims ++ [c], lastClaim := s.now } }

/-- A CLAIM is kept by the coordinator, or goes on by the parent port. -/
def State.passClaim (b : List Byte) (s : State) : State :=
  if s.bit Reg.DISC_STAT 12 then s.keepClaim (claimOf b) else s.sendLocal (s.fld Reg.DISC_STAT 11 7) 0x02 b

/-- CLAIM_SEND (R321): a settled lead without an ID claims one while AUTO is 1. -/
def execClaimSend (s : State) : Out :=
  .next (if s.isLead && s.bit Reg.DISC_CTL 1 && !s.nodeValid && 2 ≤ s.fld Reg.DISC_STAT 1 0 then s.passClaim s.claimPayload else s)

/-- CLAIM_RECEIVE (R321). -/
def execClaimReceive (port : Nat) (payload : List Byte) (s : State) : Out :=
  .next (s.discMessage port fun s => if s.discRuns then s.passClaim payload else s)

/-- At the first numbering a claim that holds a number not held by another claim keeps it (R321 item 2); claims that arrive
afterwards take unused ones (R321 item 5). -/
def keepNumbers (cs : List Claim) : List Claim :=
  if cs.any fun c => c.number.isSome then cs
  else cs.map fun c =>
    if c.pkg = 0xFFFF ∨ cs.any (fun d => d.ident != c.ident && d.pkg == c.pkg) then c else { c with number := some c.pkg }

/-- The others take the lowest unused numbers, in ascending identity; a 4,097th is not given (R321 items 2, 5, 6). -/
def giveNumbers : List Claim → List Nat → List Claim × Bool
  | [], _ => ([], false)
  | c :: t, used =>
    match c.number with
    | some _ => let (cs, full) := giveNumbers t used; (c :: cs, full)
    | none =>
      match (List.range 4096).find? fun n => !used.contains n with
      | some n => let (cs, full) := giveNumbers t (n :: used); ({ c with number := some n } :: cs, full)
      | none => let (cs, _) := giveNumbers t used; (c :: cs, true)

/-- An ASSIGN record: identity, domain, package number. -/
def assignRecord (c : Claim) : List Byte :=
  leBytes 8 c.ident ++ leBytes 2 c.domain ++ leBytes 2 (c.number.getD 0) ++ leBytes 4 0

/-- ASSIGN payloads of up to 32 records. -/
def assignPayloads : Nat → List (List Byte) → List (List Byte)
  | 0, _ => []
  | n + 1, rs => if rs.isEmpty then [] else
      (leBytes 16 (rs.take 32).length ++ (rs.take 32).flatten) :: assignPayloads n (rs.drop 32)

/-- The route table of R321 item 7: the own package, and each package reached by a port of ROLE 0 in one hop. -/
def State.autoRoute (s : State) : RouteVer :=
  let ps := (List.range 18).filter fun p => s.portUp p && s.role p == 0
    && nodeDomain (s.fld (Reg.LINK_FAR p) 22 0) == nodeDomain s.node
  let pkg (p : Nat) : Nat := nodePkg (s.fld (Reg.LINK_FAR p) 22 0)
  let dims := (List.range 18).foldl (fun acc p => acc + (if ps.contains p then 0 else 15) * 2 ^ (4 * p)) 0
  let entry (q : Nat) : Nat :=
    let mine := ps.filter fun p => pkg p == q
    sumNat (mine.map fun p => 2 ^ p) + mine.headD 0 * 2 ^ 22 + 2 ^ 30 + 2 ^ 34 + 2 ^ 38
  let t := ps.foldl (fun t p => tPut (pkg p) (entry (pkg p)) t) []
  { st := 3, maxhop := 1, order := 0, portdim := dims, entries := tPut (nodePkg s.node) (31 * 2 ^ 22 + 2 ^ 38) t }

/-- The slice takes an automatic node ID: SOURCE 2, state ASSIGNED, and version 0 of its route table (R321 items 4,
7). -/
def State.takeNode (domain pkg : Nat) (s : State) : State :=
  let n := domain * 2 ^ 15 + pkg * 2 ^ 3 + s.slice
  let s := s.setReg Reg.DISC_NODE (BitVec.ofNat 64 (n + 2 ^ 23 + 2 * 2 ^ 24))
  let s := s.setFld Reg.DISC_STAT 1 0 3
  (s.setRoute 0 s.autoRoute).setFld Reg.ROUTE_STAT 0 0 0

/-- A record that names this package's lead gives it its ID while it has none (R321). -/
def State.matchAssign (r : List Byte) (s : State) : State :=
  if s.isLead && s.bit Reg.DISC_CTL 1 && !s.nodeValid && fieldAt r 0 8 == s.ident then
    s.takeNode (fieldAt r 8 2 % 256) (fieldAt r 10 2 % 4096) else s

/-- ASSIGN_NUMBERING (R321 items 2, 3, 5, 6): 16 × ELECT_US without a new claim. -/
def execAssignNumbering (s : State) : Out :=
  let fresh := s.disc.claims.filter fun c => c.number.isNone
  if !s.bit Reg.DISC_STAT 12 ∨ fresh.isEmpty ∨ s.now < s.disc.lastClaim + 16 * s.electNs then .next s
  else
    let cs := keepNumbers (sortBy (fun a b => decide (a.ident < b.ident)) s.disc.claims)
    let (cs, full) := giveNumbers cs (cs.filterMap (·.number))
    let new := cs.filter fun c => c.number.isSome && fresh.any fun d => d.ident == c.ident
    let s := ({ s with disc := { s.disc with claims := cs } } : State)
      |>.setFld Reg.DISC_STAT 41 29 (cs.filter fun c => c.number.isSome).length
    let s := if full then s.record Pg.DISC 0x9D 0 else s
    let rs := new.map assignRecord
    let s := (assignPayloads 129 rs).foldl (fun s b => s.sendLocals s.discPorts 0x03 b) s
    .next (rs.foldl (fun s r => s.matchAssign r) s)

/-- The records of an ASSIGN payload. -/
def assignRecords (b : List Byte) : List (List Byte) :=
  (List.range (min 32 (b.length / 16 - 1))).map fun i => (b.drop (16 + 16 * i)).take 16

/-- ASSIGN_RECEIVE (R321 items 3, 4): each record goes on once, on every port but the one it came by. -/
def execAssignReceive (port : Nat) (payload : List Byte) (s : State) : Out :=
  .next (s.discMessage port fun s =>
    let key (r : List Byte) : Nat × Nat × Nat := (fieldAt r 0 8, fieldAt r 8 2, fieldAt r 10 2)
    let new := (assignRecords payload).filter fun r => !s.disc.seen.contains (key r)
    let s := { s with disc := { s.disc with seen := new.map key ++ s.disc.seen } }
    let s := (assignPayloads 1 new).foldl (fun s b => s.sendLocals (s.discPorts.filter (· != port)) 0x03 b) s
    new.foldl (fun s r => s.matchAssign r) s)

/-- R322: a node ID that may not be written. -/
def State.nodeRefused (s : State) (v : Nat) (lead : Option Node) : Bool :=
  nodeSlice (bits v 22 0) != s.slice
    || (s.nodeValid && bits v 22 0 != s.node && s.bellState != 0)
    || (s.nodeValid && bits v 23 23 == 0 && s.bellState != 0)
    || (!s.isLead && lead.any fun n => nodePkgDom n != nodePkgDom (bits v 22 0))

/-- DISC_NODE takes a value from the host or a path operation, SOURCE 1; or from the package's lead by item 4 of R321, while
the slice has none: SOURCE 2 (R321, R322). -/
def State.writeNode (v : W64) (auto : Bool) (s : State) : State :=
  if s.nodeRefused v.toNat s.disc.leadId then s.dropWrite 0x9C Reg.DISC_NODE
  else if auto then
    if s.bit Reg.DISC_CTL 1 && !s.nodeValid then s.takeNode (nodeDomain (bits v.toNat 22 0)) (nodePkg (bits v.toNat 22 0)) else s
  else s.setReg Reg.DISC_NODE (BitVec.ofNat 64 (bits v.toNat 23 0 + bits v.toNat 23 23 * 2 ^ 24))

/-- DISC_NODE_WRITE (R322) from the register port or a path operation. The ID of the package's lead is the one last told
(DESIGN CHOICE, notes/assumptions/49.md). -/
def State.discNodeWrite (auto : Bool) (v : W64) (s : State) : State :=
  s.gated Reg.DISC_NODE v fun s => s.writeNode v auto

/-- DISC_NODE_WRITE (R321, R322). -/
def execDiscNodeWrite (v : W64) (by_ : NodeWriter) (s : State) : Out :=
  .next (({ s with disc := { s.disc with leadId := by_.lead } } : State).discNodeWrite by_.auto v)

/-! ## Link state (R323 to R325) -/

/-- A port record of the entry (R324). -/
def State.portRecord (s : State) (p : Nat) : List Byte :=
  leBytes 8 (s.fld (Reg.LINK_FAR p) 22 0 + s.fld (Reg.LINK_FAR p) 28 24 * 2 ^ 23 + s.portState p * 2 ^ 28 + s.role p * 2 ^ 31
    + s.fld (Reg.LINK_STAT p) 31 20 * 2 ^ 33)

/-- A port is in the link state (R297, R324, R344): it has a link, is no gateway-role port, and did not fail before the last
bell open (DEDUCED, notes/assumptions/27.md: a port that is DOWN is not listed). -/
def State.inLinkState (s : State) (p : Nat) : Bool :=
  s.role p < 2 && ((s.portState p != 0 && s.portState p != 3 && s.portState p != 4) || (s.link p).failPending)

/-- The beacon of this slice: bytes 0x00 to 0xAF of its entry, with the TTL in byte 0x16; the record of a port that is not in
the link state is zero (R324). -/
def State.lsbPayload (s : State) : List Byte :=
  leBytes 8 s.ident ++ leBytes 4 s.node ++ leBytes 4 (s.regNat Reg.DISC_INCARN) ++ leBytes 4 s.disc.lsbSeq
    ++ [BitVec.ofNat 8 ((List.range 18).filter s.inLinkState).length, BitVec.ofNat 8 (2 * s.fld Reg.DISC_CTL 2 2), BitVec.ofNat 8 s.discTtl, 0#8] ++ leBytes 8 s.now
    ++ (List.range 18).flatMap fun p => if s.inLinkState p then s.portRecord p else leBytes 8 0

/-- LSB_ORIGINATE (R323): the sequence rises by 1 and the beacon is flooded. -/
def execLsbOriginate (s : State) : Out :=
  if !s.nodeValid then .next s
  else
    let s := { s with disc := { s.disc with lsbSeq := (s.disc.lsbSeq + 1) % 2 ^ 32 } }
    .next (s.sendLocals s.discPorts 0x04 s.lsbPayload)

/-- The entry's bytes 0x00 to 0x1F as the database keeps them. -/
def lsdbHead (e : Lsb) : List Byte :=
  e.payload.take 0x15 ++ [BitVec.ofNat 8 (b2n e.fresh + fieldAt e.payload 0x15 1 / 2 % 2 * 2)] ++ leBytes 2 0 ++ leBytes 8 e.updated

/-- FRESH entries are counted in DISC_STAT. -/
def State.countFresh (s : State) : State :=
  s.setFld Reg.DISC_STAT 28 13 (s.disc.lsdb.filter fun x => x.2.fresh).length

/-- The address of a node's entry; none when no database is kept. -/
def State.lsdbAddr (s : State) (n : Nat) : Option Nat :=
  let b := s.fld Reg.DISC_LSDB 51 23
  if b = 0 then none else some (b * 2 ^ 23 + n % 2 ^ 15 * 256)

/-- A beacon is stored: port records first, then bytes 0x00 to 0x1F (R324). -/
def State.storeLsb (n : Nat) (e : Lsb) (s : State) : State :=
  let s := ({ s with disc := { s.disc with lsdb := tPut n e s.disc.lsdb } } : State).countFresh
  match s.lsdbAddr n with
  | none => s
  | some a => s.startChain [.bytes (a + 0x20) (padTo 224 (e.payload.drop 0x20)), .bytes a (lsdbHead e)]

/-- LSB_RECEIVE (R323, R325). -/
def execLsbReceive (port : Nat) (payload : List Byte) (s : State) : Out :=
  .next (s.discMessage port fun s =>
    let n := fieldAt payload 8 4
    let old := tFind n s.disc.lsdb
    let inc (b : List Byte) : Nat := fieldAt b 0x0C 4
    let seqUp (b : List Byte) : Bool :=
      let d := (fieldAt payload 0x10 4 + 2 ^ 32 - fieldAt b 0x10 4) % 2 ^ 32
      1 ≤ d && d < 2 ^ 31
    let changed := old.any fun o => inc o.payload != inc payload
    let newer := match old with
      | none => true
      | some o => changed || seqUp o.payload
    if nodeDomain n ≠ s.domain then (s.record Pg.DISC 0x9E 0).tallyAdd Pg.DISC 1 1
    else if !newer || (s.nodeValid && n == s.node) then s.tallyAdd Pg.DISC 1 1
    else
      let s := (s.storeLsb n { payload := payload.take 0xB0, updated := s.now }).tallyAdd Pg.DISC 0 1
      let ttl := fieldAt payload 0x16 1
      let s := if 1 < ttl then s.sendLocals (s.discPorts.filter (· != port)) 0x04
          (payload.take 0x16 ++ [BitVec.ofNat 8 (ttl - 1)] ++ payload.drop 0x17) else s
      if changed then s.resetPair n else s)

/-- LSDB_FRESH_EXPIRE (R324): an entry not updated for 3 × LSB_MS is no longer FRESH. -/
def execLsdbFreshExpire (node : Node) (s : State) : Out :=
  match tFind node s.disc.lsdb with
  | none => .next s
  | some e =>
    if !e.fresh ∨ s.now ≤ e.updated + 3000000 * s.fld Reg.DISC_CTL 27 18 then .next s
    else
      let e := { e with fresh := false }
      let s := ({ s with disc := { s.disc with lsdb := tPut node e s.disc.lsdb } } : State).countFresh
      .next (match s.lsdbAddr node with
        | none => s
        | some a => s.startChain [.bytes a (lsdbHead e)])

/-! ## Path operations at the origin (R326, R327) -/

/-- One byte of a record takes a value. -/
def setByte (i v : Nat) (b : List Byte) : List Byte := modNth i (fun _ => BitVec.ofNat 8 v) b

/-- A path operation leaves for its next hop `i`: on out-port byte `i`, with the index one further; an out-port that is
not UP or is gateway-role drops it. -/
def State.pathForward (i : Nat) (b : List Byte) (s : State) : State :=
  let p := fieldAt b (0x10 + i) 1
  if s.discPorts.contains p then s.sendLocal p 0x05 (setByte 1 (i + 1) b) else s

/-- PATH_OP_SEND (R326): only a MANAGER slice sends one. An operation that cannot be read does not leave, and ends with
TIMEOUT (R35, R327; DESIGN CHOICE, notes/assumptions/52.md). -/
def State.pathOpSend (v : W64) (s : State) : State :=
  s.gated Reg.DISC_PATH v fun s =>
    if !s.bit Reg.DISC_CTL 2 then s.record Pg.DISC 0x9E 0
    else
      let a := bits v.toNat 51 6 * 64
      let b := s.rd a 64
      let bad := s.poisoned a 64
      let s := (({ s with disc := { s.disc with pathAddr := some a } } : State).noteUe a 64).tallyAdd Pg.DISC 4 1
      if !bad ∧ 1 ≤ fieldAt b 0 1 ∧ fieldAt b 0 1 ≤ 8 then s.pathForward 0 (setByte 1 0 b) else s

/-- The command of that write. -/
def execPathOpSend (v : W64) (s : State) : Out := .next (s.pathOpSend v)

/-- The origin writes the reply over the operation and raises the DISC vector (R327). -/
def State.pathReply (payload : List Byte) (s : State) : State :=
  match s.disc.pathAddr with
  | none => s
  | some a => (({ s with disc := { s.disc with pathAddr := none } } : State).wr a (payload.take 64)).raise Pg.DISC

/-- PATH_OP_REPLY_RECEIVE (R327). -/
def execPathOpReplyReceive (payload : List Byte) (s : State) : Out := .next (s.pathReply payload)

/-- PATH_OP_TIMEOUT (R327): status TIMEOUT. -/
def execPathOpTimeout (s : State) : Out :=
  match s.disc.pathAddr with
  | none => .next s.lateMargin
  | some a => .next ((({ s with disc := { s.disc with pathAddr := none } } : State).wr (a + 3) [3#8]).tallyAdd Pg.DISC 5 1)

/-! ## Manager mail (R328) -/

/-- MGR_MAIL_RECEIVE (R328): the next 256 B entry of the ring, or MAIL_DROP. -/
def execMgrMailReceive (payload : List Byte) (s : State) : Out :=
  let l := s.fld Reg.DISC_MAIL 3 0
  let w := s.fld Reg.DISC_MAIL_HEAD 47 32
  let used := (w + 65536 - s.fld Reg.DISC_MAIL_HEAD 15 0) % 65536
  if l = 0 ∨ 2 ^ l ≤ used then .next (s.tallyAdd Pg.DISC 3 1)
  else
    let s := s.wr (s.fld Reg.DISC_MAIL 51 12 * 4096 + w % 2 ^ l * 256) (payload.take 256)
    .next ((s.setFld Reg.DISC_MAIL_HEAD 47 32 (w + 1)).raise Pg.DISC)

end Sys2Proof.Machine
end

