-- ==== Sys2Proof/Machine/Msem.lean ====
section
/-! DEFINITION. The memory semantics unit (R348 to R374): regions and their checks, requests and their service at the
destination, invalidations of read copies, fences, combining, gateways, timeouts, and the completion of requests. -/
namespace Sys2Proof.Machine

/-! ## Faults and reports -/

/-- A code of the MSEM page with its fault register (R374, R520). -/
def State.msemFault (code node job status : Nat) (s : State) : State :=
  let v := BitVec.ofNat 64 (node % 2 ^ 23 + code * 2 ^ 24 + job * 2 ^ 32 + status * 2 ^ 48)
  (s.setReg Reg.MSEM_FAULT v).recordF Pg.MSEM code Reg.MSEM_FAULT

/-- The REQ types in the order of R352. -/
def reqTypes : List Nat := [1, 2, 3, 4, 0x10, 0x11, 0x12, 0x13, 0x14, 0x15, 0x16, 0x20, 0x41, 0x42]

/-- The place of a type in that order. -/
def typeIndex (t : Nat) : Nat := (indexOfNat t reqTypes).getD 0

/-- The escalation of R372: the MSEM vector, and one mail to the manager for each DEST and JOB in a bell. -/
def State.escalate (kind dest job : Nat) (s : State) : State :=
  let s := s.raise Pg.MSEM
  if !s.bit Reg.MSEM_MGR 23 ∨ s.msem.mailed.contains (dest, job) then s
  else
    let s := { s with msem := { s.msem with mailed := (dest, job) :: s.msem.mailed } }
    s.send { dest := s.fld Reg.MSEM_MGR 22 0, src := s.node, cls := 0, type := 0x40,
             payload := leBytes 4 kind ++ leBytes 4 s.node ++ leBytes 4 dest ++ leBytes 4 job ++ leBytes 8 s.bellNo ++ leBytes 8 0 }

/-! ## Requests and packets (R352, R355) -/

/-- The fields of ARG. -/
def argOff (a : W64) : Nat := bits a.toNat 40 0
def argTag (a : W64) : Nat := bits a.toNat 56 41
def argLines (a : W64) : Nat := bits a.toNat 62 57 + 1
def argFlag (a : W64) : Bool := bits a.toNat 63 63 == 1

/-- An RSP packet (R355); TYPE 0x50 answers an invalidation. -/
def State.sendRsp (dest job prio type tag status : Nat) (data : List Byte) (s : State) : State :=
  s.send { dest := dest, src := s.node, job := job, prio := prio, cls := 3, type := type,
           arg := BitVec.ofNat 64 (tag + status * 2 ^ 16), payload := data }

/-- MSEM_STAT OUTSTANDING and COMBINING. -/
def State.showMsem (s : State) : State :=
  (s.setFld Reg.MSEM_STAT 14 0 s.msem.reqs.length).setFld Reg.MSEM_STAT 26 16 s.msem.combines.length

/-! ## Porter copies: their book-keeping (R366 to R368) -/

/-- A copy by number. -/
def State.copy (s : State) (id : Nat) : Option Copy := s.porter.copies.find? fun c => c.id == id

/-- A copy changes. -/
def State.modCopy (id : Nat) (f : Copy → Copy) (s : State) : State :=
  { s with porter := { s.porter with copies := s.porter.copies.map fun c => if c.id == id then f c else c } }

/-- PORTER_STAT: copies in flight, and those of engine units among them. -/
def State.showPorter (s : State) : State :=
  let live := s.porter.copies.filter fun c => !c.ended
  (s.setFld Reg.PORTER_STAT 6 0 live.length).setFld Reg.PORTER_STAT 15 8 (live.filter fun c => c.unit != 0).length

/-- Copies in flight (R367). -/
def State.inFlight (s : State) : Nat := (s.porter.copies.filter fun c => !c.ended).length

/-- A copy is over: a failed one records PORTER_FAIL; a copy of the ring has its count, status and semaphore written, in
that order; the outcome of an engine unit's copy stays for the unit (R366, R368). -/
def State.endCopy (c : Copy) (s : State) : State :=
  let s := s.tallyAdd Pg.PORTER (if c.status = 0 then 0 else 1) 1
  let s := if c.status = 0 then s else
    let v := BitVec.ofNat 64 ((if c.unit = 0 then c.index else 0xFFFFFFFF) + c.status * 2 ^ 32 + c.unit * 2 ^ 40)
    (s.setReg Reg.PORTER_FAULT v).record Pg.PORTER 0xA7 0
  if c.unit = 0 then
    let s := { s with porter := { s.porter with copies := s.porter.copies.filter fun d => d.id != c.id } }
    (s.startChain ([.bytes (c.descAddr + 0x28) (leBytes 8 c.done), .bytes (c.descAddr + 0x20) [BitVec.ofNat 8 c.status]]
      ++ (if c.sem = 0xFF then [] else [.semAdd c.sem 1#64]))).showPorter
  else (s.modCopy c.id fun c => { c with ended := true }).showPorter

/-- A copy ends when nothing of it is outstanding and it is complete or stopped. -/
def State.settleCopy (id : Nat) (s : State) : State :=
  match s.copy id with
  | some c => if !c.ended ∧ c.out = 0 ∧ (c.stopped ∨ c.len ≤ c.done) then s.endCopy c else s
  | none => s

/-- Bytes moved by a copy (R375, R497). -/
def State.copyMoved (c : Copy) (n : Nat) (s : State) : State :=
  let s := (s.modCopy c.id fun c => { c with done := c.done + n }).lifeAdd 9 (units256 n)
  if c.unit = 0 then s else s.tallyAdd Pg.PORTER (3 + c.unit) (units64 n)

/-- A copy stops with a status; the first one stands (R368). -/
def State.stopCopy (id status : Nat) (s : State) : State :=
  s.modCopy id fun c => if c.ended then c else { c with stopped := true, status := if c.status = 0 then status else c.status }

/-- The status of a read that counts as an uncorrectable read of its 4 KiB (R252, R263). -/
def ueStatus (st : Nat) : Bool := st == 6 || st == 1 || st == 2 || st == 3 || st == 5

/-- A request of a residency fetch failed (R263, R264): an unreadable piece is read from the mirror where there is one;
a target without answer makes the fetch switch to a mirror in another package; else the copy stops, with 6 for
unreadable data and 16 for a dead target. -/
def State.fetchFails (c : Copy) (off n : Nat) (wasMirror : Bool) (status : Nat) (s : State) : State :=
  if ueStatus status then
    let s := s.resFault 0x73 c.a c.b
    match c.alt with
    | some _ => if wasMirror || c.fromMirror then s.stopCopy c.id 6
        else s.modCopy c.id fun c => { c with retry := c.retry ++ [(off, n)] }
    | none => s.stopCopy c.id 6
  else if status = 17 then s.stopCopy c.id 17
  else
    let other := c.alt.any fun m => nodePkgDom (faNode m) != nodePkgDom (faNode c.src)
    if other && !wasMirror then
      let s := if c.fromMirror then s else
        (({ s with res := { s.res with mirrorFirst := c.a :: s.res.mirrorFirst } } : State).resFault 0x74 c.a c.b)
      s.modCopy c.id fun c => { c with fromMirror := true, retry := c.retry ++ [(off, n)] }
    else
      let s := ((s.resFault 0x75 c.a c.b).raise Pg.RES).escalate 1 (faNode c.src) c.job
      s.stopCopy c.id 16

/-- A read of the mirror under R263 succeeds: the part of it within the hold of a half that waits for the block is retry time
(R81, R263). With several such reads outstanding together their time counts once. -/
def State.mirrorTime (c : Copy) (s : State) : State :=
  match c.mirrorAt with
  | none => s
  | some t =>
    let held (h : Half) : List TUnit := (s.tiles.units.map (·.2)).filter fun u =>
      u.held && u.half == h && u.expert == c.a && u.layer == c.b
    let add (h : Half) (s : State) : State :=
      match held h with
      | [] => s
      | u :: _ => s.modRound h fun r => if r.layer = c.b then { r with retry := r.retry + 2 * (s.now - max t u.heldAt) } else r
    let more := s.msem.reqs.any fun r => match r.for_ with
      | .mirror id _ => id == c.id
      | _ => false
    (add .muslin (add .calico s)).modCopy c.id fun c => { c with mirrorAt := if more then some s.now else none }

/-- A response to a request of a copy. -/
def State.copyResponse (r : Req) (id off : Nat) (wasMirror : Bool) (status : Nat) (data : List Byte) (s : State) : State :=
  match s.copy id with
  | none => s
  | some c =>
    let s := s.modCopy id fun c => { c with out := c.out - 1 }
    let s := if wasMirror ∧ (status = 0 ∨ status = 8) then s.mirrorTime c else s
    let load := r.type = 1 ∨ r.type = 0x41
    let s := if status = 0 ∨ status = 8 then
        let s := if load then s.wr r.localAddr data else s
        (s.tallyAdd Pg.PORTER (if load then 2 else 3) r.lines).copyMoved c (64 * r.lines)
      else if c.unit = 10 then s.fetchFails c off (64 * r.lines) wasMirror status
      else s.stopCopy id status
    s.settleCopy id

/-! ## Completion of a request -/

/-- The word operation of an atomic (R352). -/
def atomicNew (t : Nat) (v a swap : W64) : W64 :=
  match t with
  | 0x10 => v + a
  | 0x11 => if v.slt a then v else a
  | 0x12 => if v.slt a then a else v
  | 0x13 => if v < a then v else a
  | 0x14 => if v < a then a else v
  | 0x15 => if v = a then swap else v
  | 0x16 => (fAdd (v.setWidth 32) (a.setWidth 32)).setWidth 64
  | _ => v

/-- The completion of a ring command: data first, then status, then the semaphore (R357). -/
def State.commandDone (r : Req) (status : Nat) (data : List Byte) (s : State) : State :=
  let put : List WStep := if data.isEmpty ∨ !(status = 0 ∨ status = 8) then [] else [.bytes r.localAddr data]
  s.startChain (put ++ [.bytes r.statusAddr [BitVec.ofNat 8 status]]
    ++ (if r.sem = 0xFF then [] else [.semAdd r.sem 1#64]))

/-- The fan-out of a combined request (R364): each contributor gets an RSP with its own tag, and for an atomic the value
before its own operation. -/
def fanOut (c : Combine) (status : Nat) (data : List Byte) (v : W64) : List (Nat × Nat × W64) → State → State
  | [], s => s
  | (src, tag, a) :: t, s =>
    let d := if c.type = 1 then data else leBytes 8 v.toNat
    fanOut c status data (atomicNew c.type v a 0#64) t (s.sendRsp src c.job c.prio 1 tag status (if status = 0 then d else []))

/-- A combined request ends: its contributors are answered and its entry is free (R364). -/
def State.combinedDone (tag status : Nat) (data : List Byte) (s : State) : State :=
  match s.msem.combines.find? fun c => c.tag == tag with
  | none => s
  | some c =>
    let s := { s with msem := { s.msem with combines := s.msem.combines.filter fun d => d.tag != tag } }
    (fanOut c status data (BitVec.ofNat 64 (leNat data)) c.parts s).showMsem

/-- A gateway request goes on as a FWD of type LOAD or STORE to the far gateway, under a tag of this slice (R370). -/
def State.relayOn (w : Waiting) (s : State) : State :=
  let far := bits (fieldAt w.payload 0 8) 22 0
  let tag := s.freeTag
  let t := w.type - 0x40
  let r : Req := { tag := tag, dest := far, job := w.job, type := t, lines := argLines w.arg, prio := w.prio,
                   for_ := .relay w.src (argTag w.arg) }
  let s := ({ s with msem := { s.msem with reqs := s.msem.reqs ++ [r], nextTag := (tag + 1) % 65536 } } : State).showMsem
  s.send { dest := far, src := s.node, job := w.job, prio := w.prio, cls := 2, type := t,
           arg := reqArg (argOff w.arg) tag (argLines w.arg) false, payload := leBytes 8 s.node ++ w.payload.drop 8 }

/-- A gateway request that waited goes on as a request ends (R352). -/
def State.nextRelay (s : State) : State :=
  match s.msem.relays with
  | [] => s
  | w :: t =>
    if reqLimit ≤ s.msem.reqs.length then s
    else ({ s with msem := { s.msem with relays := t } } : State).relayOn w

/-- A request of this slice ends with a status and data (R355, R364, R368, R370). -/
def State.finishReq (tag status : Nat) (data : List Byte) (s : State) : State :=
  match s.msem.reqs.find? fun r => r.tag == tag with
  | none => s.msemTally 33
  | some r =>
    let s := ({ s with msem := { s.msem with reqs := s.msem.reqs.filter fun q => q.tag != tag } } : State).showMsem.nextRelay
    match r.for_ with
    | .cmd _ => s.commandDone r status data
    | .copy id off => s.copyResponse r id off false status data
    | .mirror id off => s.copyResponse r id off true status data
    | .combined => s.combinedDone tag status data
    | .relay src t => s.sendRsp src r.job r.prio 1 t status data

/-! ## Requests and regions (R350) -/

/-- The region that holds `n` bytes from an offset. -/
def State.windowRegion (s : State) (off n : Nat) : Option Nat :=
  (List.range (bits s.liveRegions.toNat 8 0)).find? fun i =>
    let b := s.regionAt s.liveRegions i
    rgOffset b ≤ off && off + n ≤ rgOffset b + rgBytes b

/-- The bytes a request covers, and the flag its type needs: 0 READ, 1 WRITE, 2 ATOMIC. -/
def reqBytes (t lines : Nat) : Nat := if t = 0x16 then 4 else if 0x10 ≤ t ∧ t < 0x16 then 8 else 64 * lines
def reqFlag (t : Nat) : Nat := if t = 1 then 0 else if t < 0x10 then 1 else 2

/-- The alignment of a type. -/
def reqAlign (t : Nat) : Nat := if t = 0x16 then 4 else if 0x10 ≤ t ∧ t < 0x16 then 8 else 64

/-- Items 3 to 5 of R350, for a region: the status, 0 when all pass. -/
def accessStatus (b : List Byte) (t src job off : Nat) : Nat :=
  if rgJob b ≠ job ∨ !rgFlag b (reqFlag t) then 3
  else if t ≠ 1 ∧ !rgAny b ∧ rgOwner b ≠ src then 4
  else if off % reqAlign t ≠ 0 then 5 else 0

/-- A job that this slice accepts (R316): an entry of ROUTE_JOBS that is not empty. -/
def State.jobAccepted (s : State) (job : Nat) : Bool :=
  job != 0 && [Reg.ROUTE_JOBS0, Reg.ROUTE_JOBS1, Reg.ROUTE_JOBS2, Reg.ROUTE_JOBS3].any fun r =>
    (List.range 4).any fun j => s.fld r (16 * j + 15) (16 * j) == job

/-! ## The response of the destination -/

/-- A response leaves: to the source, or for a request served locally to the unit that made it. A refusal is recorded
once per bell, an unreadable target as DEST_UE (R350, R355, R357, R376). -/
def State.respond (w : Waiting) (status : Nat) (data : List Byte) (s : State) : State :=
  let s := if status = 0 then s
    else if status = 8 then s.msemTally 32
    else if status = 6 then (s.msemFault 0xAA w.src w.job 6).msemTally 39
    else (s.msemTally (33 + status)).oncePerBell (Pg.MSEM * 256 + 0xA3) (State.msemFault 0xA3 w.src w.job status)
  if w.own then s.finishReq (argTag w.arg) status data else s.sendRsp w.src w.job w.prio 1 (argTag w.arg) status data

/-! ## Effects (R352, R353) -/

/-- The bytes of a masked store. -/
def maskBytes (mask : Nat) (old new : List Byte) : List Byte :=
  (List.range 64).map fun j => if bits mask j j = 1 then new.getD j 0#8 else old.getD j 0#8

/-- The semaphore step of a STORE_COUNT: PERM when its context has another job (R352, R359). -/
def State.countStore (w : Waiting) (n : Nat) (s : State) : State :=
  let k := bits (fieldAt w.payload 0 8) 6 0
  if s.ctxJob (k / 32) ≠ w.job then s.respond w 3 [] else (s.semAdd k (BitVec.ofNat 64 n)).respond w 0 []

/-- The bytes a request needs are read: whether they are unreadable, poisoned or not corrected (R35, R355). -/
def State.dataRead (a n : Nat) (s : State) : Bool × State := (s.unreadable .request a n, (s.noteUe a n).readsOver .request)

/-- A request is applied at host address `a` of region `i` (R352, R360). -/
def State.applyReq (i : Nat) (w : Waiting) (s : State) : State :=
  let b := s.regionAt s.liveRegions i
  let a := rgHost b + (argOff w.arg - rgOffset b)
  let n := reqBytes w.type (argLines w.arg)
  let s := s.msemTally (14 + typeIndex w.type)
  let reads := w.type = 1 ∨ 0x10 ≤ w.type
  let (bad, s) := if reads then s.dataRead a n else (false, s)
  if bad then s.respond w 6 []
  else match w.type with
    | 1 =>
      let data := s.rd a n
      if argFlag w.arg then
        let (ok, s) := if rgFlag b 3 then s.addHolder i w.src else (false, s)
        s.respond w (if ok then 0 else 8) data
      else s.respond w 0 data
    | 2 => (s.wr a (w.payload.take n)).respond w 0 []
    | 3 => (s.wr a (maskBytes (fieldAt w.payload 0 8) (s.rd a 64) ((w.payload.drop 8).take 64))).respond w 0 []
    | 4 => (s.wr a ((w.payload.drop 8).take n)).countStore w n
    | 0x20 => s
    | _ =>
      let v := BitVec.ofNat 64 (s.rdNat a n)
      let x := atomicNew w.type v (BitVec.ofNat 64 (fieldAt w.payload 0 8)) (BitVec.ofNat 64 (fieldAt w.payload 8 8))
      (s.wrNat a n x.toNat).respond w 0 (leBytes 8 v.toNat)

/-- A request to a region without an earlier one waiting: it is applied, or it waits until every holder has answered an
invalidation (R361). -/
def State.takeIn (i : Nat) (w : Waiting) (s : State) : State :=
  let hs := if w.type = 1 then [] else s.holders i
  if hs.isEmpty then s.applyReq i w
  else
    let before := s.msem.invals.length
    let s := hs.foldl (fun s h => s.sendInval h.2 w.job (argOff w.arg) (argLines w.arg)) s
    let tags := (s.msem.invals.drop before).map (·.tag)
    { s with msem := { s.msem with waiting := { w with region := i, waits := tags, caused := true } :: s.msem.waiting } }

/-- Items 2 to 5 of R350 with the forwarding of R351, under the table in force; a request that passes goes on with its
region. -/
def State.checkedAccess (w : Waiting) (go : Nat → State → State) (s : State) : State :=
  let off := argOff w.arg
  match s.windowRegion off (reqBytes w.type (argLines w.arg)) with
  | none => s.respond w 2 []
  | some i =>
    let b := s.regionAt s.liveRegions i
    if rgFlag b 4 then
      if w.fwd then s.respond w 7 []
      else s.send { dest := rgFwdNode b, src := s.node, job := w.job, prio := w.prio, cls := 2, type := w.type, arg := w.arg,
                    payload := leBytes 8 w.src ++ w.payload }
    else match accessStatus b w.type w.src w.job off with
      | 0 => go i s
      | st => s.respond w st []

/-- Requests of a region go on in arrival order once the first of them has its answers (R361); a table that came into force
meanwhile is the one they are checked under (R349). -/
def State.drainRegion (i : Nat) : Nat → State → State
  | 0, s => s
  | n + 1, s =>
    match s.msem.waiting.find? fun w => w.region == i with
    | none => s
    | some w =>
      if !w.waits.isEmpty then s
      else
        let s := { s with msem := { s.msem with waiting := s.msem.waiting.erase w } }
        let s := s.checkedAccess w fun i s => if w.caused then (s.clearHolders i).applyReq i w else s.takeIn i w
        s.drainRegion i n

/-- An invalidation is answered, or given up (R361). -/
def State.invalDone (tag : Nat) (s : State) : State :=
  let regions := (s.msem.waiting.filter fun w => w.waits.contains tag).map (·.region)
  let s := { s with msem := { s.msem with
    invals := s.msem.invals.filter fun v => v.tag != tag
    waiting := s.msem.waiting.map fun w => { w with waits := w.waits.filter (· != tag) } } }
  regions.foldl (fun s i => s.drainRegion i (s.msem.waiting.length + 1) ) s

/-- A request at its destination, which may be this slice for its own (R357): the checks of R350 in their order, the forwarding of R351, then the effect. -/
def State.serve (w : Waiting) (s : State) : State :=
  if !s.jobAccepted w.job then s.respond w 1 []
  else s.checkedAccess w fun i s =>
    if s.msem.waiting.any fun x => x.region == i then
      { s with msem := { s.msem with waiting := s.msem.waiting ++ [{ w with region := i }] } }
    else s.takeIn i w

/-! ## Gateways (R369, R370) -/

/-- The gateway table's entry of a domain: the own gateway and the far one, where VALID. -/
def State.gateway (s : State) (domain : Nat) : Option (Nat × Nat) :=
  let b := s.fld Reg.MSEM_GW 51 11
  if b = 0 then none
  else
    let e := s.rdNat (b * 2048 + 8 * domain) 8
    if bits e 63 63 = 1 then some (bits e 22 0, bits e 45 23) else none

/-- A gateway-role port that is UP toward a node (R344). -/
def State.gatewayPort (s : State) (node : Nat) : Option Nat :=
  (List.range 18).find? fun q => s.role q == 2 && s.portState q == 2 && s.fld (Reg.LINK_FAR q) 22 0 == node

/-- The gateway service relays a LOAD_GW or STORE_GW (R370); at the limit of requests it waits (R352). -/
def State.relayGw (w : Waiting) (s : State) : State :=
  let far := bits (fieldAt w.payload 0 8) 22 0
  let s := s.msemTally (14 + typeIndex w.type)
  if !s.jobAccepted w.job then s.respond w 1 []
  else match s.gatewayPort far with
    | none => (s.msemFault 0xA8 w.src w.job 19).sendRsp w.src w.job w.prio 1 (argTag w.arg) 19 []
    | some _ =>
      if reqLimit ≤ s.msem.reqs.length then { s with msem := { s.msem with relays := s.msem.relays ++ [w] } } else s.relayOn w

/-! ## Requests in SEQ order (R354) -/

/-- A REQ packet in its turn. -/
def State.serveReq (w : Waiting) (s : State) : State :=
  if w.type = 0x20 then s.msemTally 29
  else if w.type = 0x41 ∨ w.type = 0x42 then s.relayGw w else s.serve w

/-- Parked requests of a source follow as their turns come; a skipped SEQ counts as passed. -/
def State.advanceReqs (src : Nat) : Nat → State → State
  | 0, s => s
  | n + 1, s =>
    let q := tGet zeroNat src s.msem.nextSeq
    let step (s : State) : State :=
      { s with msem := { s.msem with nextSeq := tSet zeroNat src ((q + 1) % 65536) s.msem.nextSeq } }
    if s.msem.skips.contains (src, q) then
      (step { s with msem := { s.msem with skips := s.msem.skips.erase (src, q) } }).advanceReqs src n
    else match s.msem.parked.find? fun w => w.src == src && w.seq == q with
      | some w =>
        ((step { s with msem := { s.msem with parked := s.msem.parked.erase w } }).serveReq w).advanceReqs src n
      | none => s

/-- A SEQ of class REQ passes without effect: skipped by its sender (R303) or refused for its job (R317). Requests behind it
have their turn. -/
def State.passReq (src seq : Nat) (s : State) : State :=
  let s := { s with msem := { s.msem with skips := (src, seq) :: s.msem.skips } }
  s.advanceReqs src (s.msem.parked.length + s.msem.skips.length + 1)

/-- A REQ packet that passed the window check: applied in its turn, parked ahead of a missing SEQ, or refused with
NAK_SPAN when no reorder entry is free (R354). -/
def State.reqArrives (type : Nat) (p : Arrived) (s : State) : State :=
  let w : Waiting := { src := p.src, job := p.job, prio := p.prio, seq := p.seq, type := type, arg := p.arg, payload := p.payload }
  let q := tGet zeroNat p.src s.msem.nextSeq
  let d := (p.seq + 65536 - q) % 65536
  if d = 0 then
    let s := { s with msem := { s.msem with parked := w :: s.msem.parked } }
    s.advanceReqs p.src (s.msem.parked.length + s.msem.skips.length + 1)
  else if 32768 ≤ d then s
  else if s.fld Reg.MSEM_ROB 15 0 ≤ s.msem.parked.length then s.acknowledge p.src 1 p.seq 2
  else
    let s := { s with msem := { s.msem with parked := s.msem.parked ++ [w] } }
    s.tallyMax Pg.MSEM 44 s.msem.parked.length

/-! ## The commands at the destination -/

/-- REQ_LOAD (R350, R352, R360). -/
def execReqLoad (p : Arrived) (s : State) : Out := .next (s.reqArrives 0x01 p)
/-- REQ_STORE (R352, R353). -/
def execReqStore (p : Arrived) (s : State) : Out := .next (s.reqArrives 0x02 p)
/-- REQ_STORE_MASKED (R352). -/
def execReqStoreMasked (p : Arrived) (s : State) : Out := .next (s.reqArrives 0x03 p)
/-- REQ_STORE_COUNT (R352). -/
def execReqStoreCount (p : Arrived) (s : State) : Out := .next (s.reqArrives 0x04 p)
/-- REQ_ADD (R352). -/
def execReqAdd (p : Arrived) (s : State) : Out := .next (s.reqArrives 0x10 p)
/-- REQ_MIN_S (R352). -/
def execReqMinS (p : Arrived) (s : State) : Out := .next (s.reqArrives 0x11 p)
/-- REQ_MAX_S (R352). -/
def execReqMaxS (p : Arrived) (s : State) : Out := .next (s.reqArrives 0x12 p)
/-- REQ_MIN_U (R352). -/
def execReqMinU (p : Arrived) (s : State) : Out := .next (s.reqArrives 0x13 p)
/-- REQ_MAX_U (R352). -/
def execReqMaxU (p : Arrived) (s : State) : Out := .next (s.reqArrives 0x14 p)
/-- REQ_CAS (R352). -/
def execReqCas (p : Arrived) (s : State) : Out := .next (s.reqArrives 0x15 p)
/-- REQ_FADD32 (R352). -/
def execReqFadd32 (p : Arrived) (s : State) : Out := .next (s.reqArrives 0x16 p)
/-- REQ_STUB (R364): it keeps the order of SEQs whole and has no effect and no response. -/
def execReqStub (p : Arrived) (s : State) : Out := .next (s.reqArrives 0x20 p)
/-- REQ_LOAD_GW (R370). -/
def execReqLoadGw (p : Arrived) (s : State) : Out := .next (s.reqArrives 0x41 p)
/-- REQ_STORE_GW (R370). -/
def execReqStoreGw (p : Arrived) (s : State) : Out := .next (s.reqArrives 0x42 p)

/-- SKIP_RECEIVE (R303): the receiver advances past the skipped SEQ, as if it had come, and acknowledges it; requests
behind a skipped REQ have their turn. -/
def execSkipReceive (src : Node) (record : List Byte) (s : State) : Out :=
  .next (s.onAck 4 record fun s =>
    let (fresh, s) := s.windowTake src (ackCls record) (ackSeq record)
    if fresh ∧ ackCls record = 1 then s.passReq src (ackSeq record) else s)

/-- FWD_REQUEST_RECEIVE (R351, R370): the request of the source that the prefix names, against this slice's own regions. -/
def execFwdRequestReceive (type : Nat) (p : Arrived) (s : State) : Out :=
  .next (s.serve { src := bits (fieldAt p.payload 0 8) 22 0, job := p.job, prio := p.prio, type := type, arg := p.arg,
                   payload := p.payload.drop 8, fwd := true })

/-- INVALIDATE_RECEIVE (R362): a record in the ring, or OVERFLOW; the answer and the vector at once. -/
def execInvalidateReceive (p : Arrived) (s : State) : Out :=
  let l := s.fld Reg.MSEM_INVAL 3 0
  let w := s.fld Reg.MSEM_INVAL_HEAD 47 32
  let used := (w + 65536 - s.fld Reg.MSEM_INVAL_HEAD 15 0) % 65536
  let s := s.msemTally 31
  let s := if l = 0 ∨ 2 ^ l ≤ used then (s.setFld Reg.MSEM_INVAL_STAT 0 0 1).msemFault 0xA5 p.src p.job 0
    else (s.wr (s.fld Reg.MSEM_INVAL 51 12 * 4096 + w % 2 ^ l * 16) (padTo 16 p.payload)).setFld Reg.MSEM_INVAL_HEAD 47 32 (w + 1)
  .next ((s.sendRsp p.src p.job p.prio 0x50 (argTag p.arg) 0 []).raise Pg.MSEM)

/-- RSP_RECEIVE (R355, R361, R364, R370): the request or invalidation whose tag it names ends; a stray one is counted. -/
def execRspReceive (p : Arrived) (s : State) : Out :=
  let tag := bits p.arg.toNat 15 0
  .next (if s.msem.invals.any fun v => v.tag == tag then s.invalDone tag
    else s.finishReq tag (bits p.arg.toNat 23 16) p.payload)

/-- REMOTE_TIMEOUT (R361, R364, R371, R372): a request, a combined request, or an invalidation without an answer. -/
def execRemoteTimeout (tag : Nat) (s : State) : Out :=
  match s.msem.invals.find? fun v => v.tag == tag with
  | some v => .next (((s.msemFault 0xA4 v.node v.job 16).escalate 2 v.node v.job).invalDone tag)
  | none =>
    match s.msem.reqs.find? fun r => r.tag == tag with
    | none => .next s.lateMargin
    | some r =>
      if r.for_ = .combined then
        .next (((s.msemFault 0xA6 r.dest r.job 10).escalate 3 r.dest r.job).finishReq tag 10 [])
      else .next (((s.msemFault 0xA2 r.dest r.job 16).escalate 1 r.dest r.job).finishReq tag 16 [])

/-! ## The region table (R349) -/

/-- A region entry keeps its layout. -/
def rgOk (b : List Byte) : Bool :=
  bits (rgOffset b) 11 0 == 0 && bits (rgOffset b) 63 41 == 0 && bits (rgHost b) 11 0 == 0 && bits (rgHost b) 63 52 == 0
    && 1 ≤ fieldAt b 0x10 4 && fieldAt b 0x10 4 ≤ 536870912 && 1 ≤ rgJob b && rgJob b ≤ 0xFFFE
    && bits (fieldAt b 0x16 1) 7 5 == 0 && fieldAt b 0x17 1 == 0 && bits (fieldAt b 0x18 4) 31 24 == 0
    && bits (fieldAt b 0x1C 4) 31 23 == 0

/-- Entries stand in strictly ascending OFFSET and do not overlap. -/
def rgAscend : List (List Byte) → Bool
  | a :: b :: t => (rgOffset a + rgBytes a ≤ rgOffset b) && rgAscend (b :: t)
  | _ => true

/-- A table passes (R348, R349); a region that is forwarded goes to a node of the own domain. -/
def State.regionsOk (s : State) (v : W64) : Bool :=
  let bs := s.regionList v
  !s.unreadable .regions (bits v.toNat 51 12 * 4096) (32 * bs.length) && bs.all rgOk && rgAscend bs
    && bs.all fun b => !rgFlag b 4 || nodeDomain (rgFwdNode b) == nodeDomain s.node

/-- MSEM_REGIONS_WRITE (R349): a table is staged and its check starts. -/
def State.msemRegionsWrite (v : W64) (s : State) : State :=
  s.gated Reg.MSEM_REGIONS v fun s =>
    ({ s.readsOver .regions with msem := { s.msem with checkedRegions := none } } : State).stage Reg.MSEM_REGIONS v

/-- The command of that write. -/
def execMsemRegionsWrite (v : W64) (s : State) : Out := .next (s.msemRegionsWrite v)

/-- MSEM_REGIONS_CHECK_DONE (R349): a table that passes takes effect at once while the bell is STOPPED, else at a bell
open; one that fails is withdrawn with MSEM_REGION_BAD. -/
def execMsemRegionsCheckDone (s : State) : Out :=
  match tFind Reg.MSEM_REGIONS s.staged with
  | none => .next s
  | some v =>
    let s := s.noteUe (bits v.toNat 51 12 * 4096) (32 * bits v.toNat 8 0)
    if !s.regionsOk v then
      .next (({ s with staged := tDel Reg.MSEM_REGIONS s.staged } : State).msemFault 0xA0 0 0 0)
    else if s.bellState = 0 then .next (s.applyRegions v)
    else .next { s with msem := { s.msem with checkedRegions := some (v, s.now) } }

/-- A table that passed its check 1 µs or more before a bell open takes effect there (R349). -/
def State.regionsAtOpen (s : State) : State :=
  match s.msem.checkedRegions with
  | some (v, t) => if t + 1000 ≤ s.now then s.applyRegions v else s
  | none => s

end Sys2Proof.Machine
end

