-- ==== Sys2Proof/Machine/Porter.lean ====
section
/-! DEFINITION. Issuing requests: interleaved windows (R365), the MSEM command ring and fences (R357, R358, R343), and the
porter (R366 to R368). -/
namespace Sys2Proof.Machine

/-! ## Interleaved windows (R365) -/

/-- The Felano-1 fold: the xor of the groups of `j` bits of a number. -/
def foldBits (j : Nat) : Nat → Nat → Nat
  | 0, _ => 0
  | n + 1, q => if j = 0 then 0 else (q % 2 ^ j) ^^^ foldBits j n (q / 2 ^ j)

/-- g(Q) in either mode. -/
def ilvHash (felano1 : Bool) (j q : Nat) : Nat :=
  if felano1 then foldBits j 41 q else (h64 (BitVec.ofNat 64 q)).toNat / 2 ^ 32 % 2 ^ j

/-- The entries of the interleave table in force. -/
def State.ilvEntries (s : State) : List (List Byte) :=
  (List.range (s.fld Reg.MSEM_ILV 4 0)).map fun i => s.rd (s.fld Reg.MSEM_ILV 51 9 * 512 + 32 * i) 32

/-- A fabric address after interleaving, and whether an entry covered it (R365). -/
def State.translate (s : State) (a : Nat) : Nat × Bool :=
  match s.ilvEntries.find? fun e =>
      fieldAt e 0 4 == faNode a && fieldAt e 8 8 ≤ faOffset a && faOffset a < fieldAt e 8 8 + fieldAt e 0x10 8 * 4096 with
  | none => (a, false)
  | some e =>
    let j := fieldAt e 4 1
    let d := faOffset a - fieldAt e 8 8
    let p := d / 4096
    let q := p / 2 ^ j
    let k := (p % 2 ^ j) ^^^ ilvHash (fieldAt e 5 1 % 2 == 1) j q
    (((fieldAt e 0 4) ||| k) * 2 ^ 41 + (fieldAt e 8 8 + q * 4096 + d % 4096), true)

/-! ## Issuing a request -/

/-- A request takes a tag and leaves: as a REQ packet, or served locally when it names this slice (R352, R357). -/
def State.issue (r : Req) (off : Nat) (flag : Bool) (payload : List Byte) (s : State) : State :=
  let tag := s.freeTag
  let r := { r with tag := tag }
  let s := ({ s with msem := { s.msem with reqs := s.msem.reqs ++ [r], nextTag := (tag + 1) % 65536 } } : State).showMsem
  let s := s.msemTally (typeIndex r.type)
  let arg := reqArg off tag r.lines flag
  if r.dest = s.node then
    s.serve { src := s.node, job := r.job, prio := r.prio, type := r.type, arg := arg, payload := payload, own := true }
  else s.send { dest := r.dest, src := s.node, job := r.job, prio := r.prio, cls := 1, type := r.type, arg := arg, payload := payload }

/-! ## The command ring (R357) -/

/-- Indices from `head` up to `tail`, modulo 2^32: whether any is left. -/
def ringLeft (head tail : Nat) : Bool := (tail + 2 ^ 32 - head) % 2 ^ 32 != 0

/-- The address of the command at the head of the ring, if there is one. -/
def State.headCommand (s : State) : Option Nat :=
  let l := s.fld Reg.MSEM_RING 4 0
  let h := s.fld Reg.MSEM_HEAD 31 0
  if l = 0 ∨ !ringLeft h s.msem.tail then none
  else some (s.fld Reg.MSEM_RING 51 12 * 4096 + h % 2 ^ l * 64)

/-- A command or descriptor of a ring is read: a read that failed has its outcome, and the others are counted (R35, R36). -/
def State.ringRead (a : Nat) (s : State) : Bool × State :=
  if s.unreadable .request a 64 then s.dataRead a 64 else (false, s.memCount 0 64)

/-- The engine has taken the command at the head. -/
def State.stepHead (s : State) : State := s.setFld Reg.MSEM_HEAD 31 0 (s.fld Reg.MSEM_HEAD 31 0 + 1)

/-- Types that a command may have. -/
def commandTypes : List Nat := [1, 2, 3, 4, 0x10, 0x11, 0x12, 0x13, 0x14, 0x15, 0x16, 0xF0]

/-- A command keeps its layout (R357). -/
def commandOk (b : List Byte) : Bool :=
  let t := fieldAt b 0 1
  let f := fieldAt b 1 1
  let lines := fieldAt b 2 1
  commandTypes.contains t && bits f 7 3 == 0 && (bits f 2 2 == 0 || t == 1 || t == 0x16)
    && bits lines 7 6 == 0 && (lines == 0 || t == 1 || t == 2 || t == 4)
    && (fieldAt b 3 1 ≤ 127 || fieldAt b 3 1 == 0xFF)
    && bits (fieldAt b 4 1) 7 1 == 0 && (fieldAt b 4 1 == 0 || t == 0xF0)
    && bits (fieldAt b 5 1) 7 7 == 0 && fieldAt b 6 2 == 0 && bits (fieldAt b 0x10 8) 63 52 == 0 && fieldAt b 0x29 23 == 0

/-- A job that is being torn down, for an index of a ring read before the teardown's tail (R373). -/
def State.tornAt (s : State) (job head : Nat) (porter : Bool) : Bool :=
  s.msem.torn.any fun t => t.1 == job && decide (1 ≤ ((if porter then t.2.2 else t.2.1) + 2 ^ 32 - head) % 2 ^ 32
    ∧ ((if porter then t.2.2 else t.2.1) + 2 ^ 32 - head) % 2 ^ 32 ≤ 65536)

/-- The payload of a request that a command makes. -/
def State.commandPayload (s : State) (b : List Byte) : List Byte :=
  let a := fieldAt b 0x10 8
  let n := 64 * (fieldAt b 2 1 + 1)
  match fieldAt b 0 1 with
  | 1 => []
  | 2 => s.rd a n
  | 3 => leBytes 8 (fieldAt b 0x18 8) ++ s.rd a 64
  | 4 => leBytes 8 (fieldAt b 5 1) ++ s.rd a n
  | 0x15 => leBytes 8 (fieldAt b 0x18 8) ++ leBytes 8 (fieldAt b 0x20 8)
  | _ => leBytes 8 (fieldAt b 0x18 8)

/-- A command ends without a request: its status and semaphore are written. -/
def State.commandFails (b : List Byte) (a status : Nat) (s : State) : State :=
  let sem := if 127 < fieldAt b 3 1 then 0xFF else fieldAt b 3 1
  let s := if status = 21 then s.msemFault 0xA1 s.node 0 21 else s
  s.commandDone { tag := 0, dest := 0, job := 0, type := 0, lines := 1, for_ := .cmd 0, sem := sem, statusAddr := a + 0x28 } status []

/-- A context is RESIDENT (R420). -/
def State.ctxResident (s : State) (c : Nat) : Bool := s.ctxState c == 1

/-- A completion semaphore belongs to a context, or is none (R359, R427). -/
def semOf (ctx n : Nat) : Bool := 127 < n || n / 32 == ctx

/-- CTX_FAULT takes a code of a context, and the code is recorded (R432, R433). -/
def State.ctxFault (code c : Nat) (s : State) : State :=
  (s.setReg Reg.CTX_FAULT (BitVec.ofNat 64 (c + code * 2 ^ 8 + s.bellNo % 2 ^ 48 * 2 ^ 16))).recordF Pg.CTX code Reg.CTX_FAULT

/-- The command at address `a` is issued (R357, R365, R370). -/
def State.issueCommand (a : Nat) (b : List Byte) (s : State) : State :=
  let c := bits (fieldAt b 1 1) 1 0
  let job := s.ctxJob c
  let (fa, _) := s.translate (fieldAt b 8 8)
  let t := fieldAt b 0 1
  let n := if t = 3 then 64 else 64 * (fieldAt b 2 1 + 1)
  if s.tornAt job (s.fld Reg.MSEM_HEAD 31 0) false then s.commandFails b a 17
  else if nodeDomain (faNode fa) ≠ nodeDomain s.node then s.commandFails b a 19
  else
    let (bad, s) := if 2 ≤ t ∧ t ≤ 4 then s.dataRead (fieldAt b 0x10 8) n else (false, s)
    if bad then s.commandFails b a 6
    else
    let r : Req := { tag := 0, dest := faNode fa, job := job, type := t, lines := fieldAt b 2 1 + 1, prio := c, ctx := c,
                     for_ := .cmd (s.fld Reg.MSEM_HEAD 31 0), sem := fieldAt b 3 1, localAddr := fieldAt b 0x10 8,
                     statusAddr := a + 0x28 }
    s.issue r (faOffset fa) (bits (fieldAt b 1 1) 2 2 == 1) (s.commandPayload b)

/-- What a gateway passes on for another slice is class FWD, not a REQ of this slice (R370). -/
def Req.relayed (r : Req) : Bool :=
  match r.for_ with
  | .relay _ _ => true
  | _ => false

/-- A FENCE takes its point: to its destination, or to every one, the REQ packets sent and not yet acknowledged or skipped, and
the requests of this slice without an answer (R343, R358). -/
def State.takeFence (a : Nat) (b : List Byte) (s : State) : State :=
  let all := bits (fieldAt b 4 1) 0 0 == 1
  let node := faNode (fieldAt b 8 8)
  let tags := (s.msem.reqs.filter fun r => !r.relayed && (all || r.dest == node)).map (·.tag)
  let sent := s.e2e.outst.filter fun o => o.cls == 1 && !o.skipped && (all || o.dest == node)
  let f : Fence := { id := s.msem.nextFence, tags := tags, seqs := sent.map fun o => (o.dest, o.seq),
                     sem := fieldAt b 3 1, statusAddr := a + 0x28 }
  { s with msem := { s.msem with fences := s.msem.fences ++ [f], nextFence := s.msem.nextFence + 1 } }

/-- The command at the head is issued if it has the type asked for; a command that breaks its layout ends with CMD_BAD;
a completion semaphore of another context ends it too (R427), and a context that has no job or is not RESIDENT ends it
with NO_JOB (R422); no command is issued while a fence has not completed, and none beyond the limit of outstanding requests (R357,
R358). A command that cannot be read names no semaphore and ends with DATA_UE (R35; DESIGN CHOICE,
notes/assumptions/52.md). -/
def State.ringIssue (t : Nat) (s : State) : State :=
  match s.headCommand with
  | none => s
  | some a =>
    let b := s.rd a 64
    if !s.msem.fences.isEmpty ∨ reqLimit ≤ s.msem.reqs.length then s
    else if (s.ringRead a).1 then ((s.ringRead a).2.commandFails (leBytes 64 0xFF000000) a 6).stepHead
    else if !commandTypes.contains (fieldAt b 0 1) then ((s.ringRead a).2.commandFails b a 21).stepHead
    else if fieldAt b 0 1 ≠ t then s
    else if !commandOk b then ((s.ringRead a).2.commandFails b a 21).stepHead
    else
    let c := bits (fieldAt b 1 1) 1 0
    if !semOf c (fieldAt b 3 1) then (((s.ringRead a).2.ctxFault 0xC8 c).commandFails (b.set 3 0xFF#8) a 21).stepHead
    else if s.ctxJob c = 0 ∨ !s.ctxResident c then ((s.ringRead a).2.commandFails b a 20).stepHead
    else if t = 0xF0 then ((s.ringRead a).2.takeFence a b).stepHead
    else ((s.ringRead a).2.issueCommand a b).stepHead

/-- MSEM_TAIL (R357): the host's tail. -/
def State.msemTail (v : W64) (s : State) : State :=
  s.gated Reg.MSEM_TAIL v fun s => { s with msem := { s.msem with tail := bits v.toNat 31 0 } }

/-- The command of that write. -/
def execMsemTail (v : W64) (s : State) : Out := .next (s.msemTail v)

/-- MSEM_CMD_LOAD (R357). -/
def execMsemCmdLoad (s : State) : Out := .next (s.ringIssue 0x01)
/-- MSEM_CMD_STORE (R357). -/
def execMsemCmdStore (s : State) : Out := .next (s.ringIssue 0x02)
/-- MSEM_CMD_STORE_MASKED (R357). -/
def execMsemCmdStoreMasked (s : State) : Out := .next (s.ringIssue 0x03)
/-- MSEM_CMD_STORE_COUNT (R357). -/
def execMsemCmdStoreCount (s : State) : Out := .next (s.ringIssue 0x04)
/-- MSEM_CMD_ADD (R357). -/
def execMsemCmdAdd (s : State) : Out := .next (s.ringIssue 0x10)
/-- MSEM_CMD_MIN_S (R357). -/
def execMsemCmdMinS (s : State) : Out := .next (s.ringIssue 0x11)
/-- MSEM_CMD_MAX_S (R357). -/
def execMsemCmdMaxS (s : State) : Out := .next (s.ringIssue 0x12)
/-- MSEM_CMD_MIN_U (R357). -/
def execMsemCmdMinU (s : State) : Out := .next (s.ringIssue 0x13)
/-- MSEM_CMD_MAX_U (R357). -/
def execMsemCmdMaxU (s : State) : Out := .next (s.ringIssue 0x14)
/-- MSEM_CMD_CAS (R357). -/
def execMsemCmdCas (s : State) : Out := .next (s.ringIssue 0x15)
/-- MSEM_CMD_FADD32 (R357). -/
def execMsemCmdFadd32 (s : State) : Out := .next (s.ringIssue 0x16)
/-- MSEM_CMD_FENCE (R358). -/
def execMsemCmdFence (s : State) : Out := .next (s.ringIssue 0xF0)

/-- A tag up to a fence's point still holds it up: its request is outstanding, or its packet waits to be sent or
acknowledged (R343, R358). -/
def State.fenceHeld (s : State) (tag : Nat) : Bool :=
  s.msem.reqs.any (fun r => r.tag == tag)
    || s.e2e.outst.any (fun o => o.cls == 1 && !o.skipped && argTag o.pkt.arg == tag)
    || s.route.queue.any (fun q => q.pkt.cls == 1 && q.pkt.src == s.node && argTag q.pkt.arg == tag)

/-- A REQ SEQ up to a fence's point is neither acknowledged nor skipped (R343). -/
def State.seqHeld (s : State) (x : Nat × Nat) : Bool := s.e2e.outst.any fun o => o.dest == x.1 && o.cls == 1 && o.seq == x.2 && !o.skipped

/-- FENCE_COMPLETE (R343, R358): status, then semaphore. -/
def execFenceComplete (id : Nat) (s : State) : Out :=
  match s.msem.fences.find? fun f => f.id == id with
  | none => .next s
  | some f =>
    if f.tags.any s.fenceHeld || f.seqs.any s.seqHeld then .next s
    else
      let s := { s with msem := { s.msem with fences := s.msem.fences.filter fun g => g.id != id } }
      .next (s.startChain ([.bytes f.statusAddr [0#8]] ++ (if f.sem = 0xFF then [] else [.semAdd f.sem 1#64])))

/-! ## The porter (R366 to R368) -/

/-- Copies in flight at most, and requests outstanding of one (R367). -/
def copyLimit : Nat := 64
def copyWindow : Nat := 256

/-- A new copy in flight. -/
def State.addCopy (c : Copy) (s : State) : State :=
  ({ s with porter := { s.porter with copies := s.porter.copies ++ [{ c with id := s.porter.nextId }]
                                      nextId := s.porter.nextId + 1 } } : State).showPorter

/-- A descriptor keeps its layout (R366). -/
def descOk (b : List Byte) : Bool :=
  let n := fieldAt b 0x18 8
  bits (fieldAt b 0 1) 7 2 == 0 && (fieldAt b 1 1 ≤ 127 || fieldAt b 1 1 == 0xFF) && bits (fieldAt b 2 1) 7 6 == 0
    && (bits (fieldAt b 3 1) 7 7 == 1 || fieldAt b 3 1 == 0) && fieldAt b 4 4 == 0 && fieldAt b 8 8 % 64 == 0
    && fieldAt b 0x10 8 % 64 == 0 && n % 64 == 0 && 64 ≤ n && n ≤ 2 ^ 40 && fieldAt b 0x21 7 == 0 && fieldAt b 0x30 16 == 0

/-- An end of a copy is remote: another node, or an interleaved range (R365, R367). -/
def State.remoteEnd (s : State) (a : Nat) : Bool := (s.translate a).2 || faNode a != s.node

/-- A remote end in another domain names the far gateway of a VALID entry (R370). -/
def State.foreignBad (s : State) (a : Nat) : Bool :=
  nodeDomain (faNode a) != nodeDomain s.node && (s.gateway (nodeDomain (faNode a))).elim true fun g => g.2 != faNode a

/-- The status with which a descriptor is turned away; 0 when it starts (R366, R367, R370, R373). -/
def State.descStatus (s : State) (b : List Byte) : Nat :=
  let job := s.ctxJob (bits (fieldAt b 0 1) 1 0)
  let src := fieldAt b 8 8
  let dst := fieldAt b 0x10 8
  if !descOk b ∨ (s.remoteEnd src ∧ s.remoteEnd dst) ∨ !semOf (bits (fieldAt b 0 1) 1 0) (fieldAt b 1 1) then 21
  else if job = 0 then 20
  else if s.tornAt job (s.fld Reg.PORTER_HEAD 31 0) true then 17
  else if s.foreignBad src ∨ s.foreignBad dst then 19 else 0

/-- Descriptors of the ring start while fewer than 64 copies are in flight (R366, R367). One that cannot be read names no
semaphore and ends with DATA_UE (R35; DESIGN CHOICE, notes/assumptions/52.md). -/
def State.startDescs : Nat → State → State
  | 0, s => s
  | n + 1, s =>
    let l := s.fld Reg.PORTER_RING 4 0
    let h := s.fld Reg.PORTER_HEAD 31 0
    if l = 0 ∨ !ringLeft h s.porter.tail ∨ copyLimit ≤ s.inFlight then s
    else
      let a := s.fld Reg.PORTER_RING 51 12 * 4096 + h % 2 ^ l * 64
      let b := if s.unreadable .request a 64 then leBytes 64 0xFF00 else s.rd a 64
      let (bad, s) := s.ringRead a
      let st := if bad then 6 else s.descStatus b
      let ctx := bits (fieldAt b 0 1) 1 0
      let c : Copy := { id := 0, unit := 0, job := s.ctxJob ctx, src := fieldAt b 8 8, dst := fieldAt b 0x10 8,
                        len := fieldAt b 0x18 8, lines := fieldAt b 2 1 % 64 + 1, prio := ctx,
                        sem := if 127 < fieldAt b 1 1 ∨ !semOf ctx (fieldAt b 1 1) then 0xFF else fieldAt b 1 1,
                        destSem := if bits (fieldAt b 3 1) 7 7 = 1 then some (bits (fieldAt b 3 1) 6 0) else none,
                        index := h, descAddr := a, status := st, stopped := st != 0 }
      let s := if st = 21 then s.msemFault 0xA1 s.node 0 21 else s
      let s := if descOk b ∧ !semOf ctx (fieldAt b 1 1) then s.ctxFault 0xC8 ctx else s
      let id := s.porter.nextId
      (((s.addCopy c).settleCopy id).setFld Reg.PORTER_HEAD 31 0 (h + 1)).startDescs n

/-- PORTER_TAIL (R366): the host's tail; descriptors start. -/
def State.porterTail (v : W64) (s : State) : State :=
  s.gated Reg.PORTER_TAIL v fun s =>
    ({ s with porter := { s.porter with tail := bits v.toNat 31 0 } } : State).startDescs copyLimit

/-- The command of that write. -/
def execPorterTail (v : W64) (s : State) : Out := .next (s.porterTail v)

/-- Where bytes of a local end lie in host memory, or the status of the check that fails (R350, R367). An end of an
engine unit's copy is a host address. -/
def State.localEnd (s : State) (c : Copy) (a : Nat) (host write : Bool) (n : Nat) : Except Nat Nat :=
  if host then .ok a
  else match s.windowRegion (faOffset a) n with
    | none => .error 2
    | some i =>
      let b := s.regionAt s.liveRegions i
      if rgFlag b 4 then .error 7
      else match accessStatus b (if write then 2 else 1) s.node c.job (faOffset a) with
        | 0 => .ok (rgHost b + (faOffset a - rgOffset b))
        | st => .error st

/-- Bytes of a copy's next request: a chunk, cut at a page of an interleaved range. -/
def State.chunkBytes (s : State) (c : Copy) (a : Nat) : Nat :=
  let n := min (64 * c.lines) (c.len - c.issued)
  if (s.translate a).2 then min n (4096 - faOffset a % 4096) else n

/-- A request of a copy to a remote node; to another domain it goes to the own gateway slice with the far node before
its payload (R367, R370). -/
def State.copyReq (c : Copy) (type : Nat) (a n localAddr : Nat) (payload : List Byte) (s : State) : State :=
  let (fa, _) := s.translate a
  let node := faNode fa
  let foreign := nodeDomain node ≠ nodeDomain s.node
  let gw := ((s.gateway (nodeDomain node)).elim 0 (·.1))
  let s := s.modCopy c.id fun c => { c with issued := c.issued + n, out := c.out + 1 }
  let r : Req := { tag := 0, dest := if foreign then gw else node, job := c.job, type := if foreign then 0x40 + type % 4 else type,
                   lines := n / 64, prio := c.prio, for_ := .copy c.id c.issued, localAddr := localAddr }
  s.issue r (faOffset fa) false (if foreign then leBytes 8 node ++ payload else payload)

/-- A piece of a residency fetch is read from the mirror (R263, R264). -/
def State.mirrorRead (c : Copy) (m off n : Nat) (s : State) : State :=
  let (fa, _) := s.translate (m + off)
  let s := s.modCopy c.id fun d => { d with
    out := d.out + 1, mirrorAt := if c.fromMirror then d.mirrorAt else some (d.mirrorAt.getD s.now) }
  let r : Req := { tag := 0, dest := faNode fa, job := c.job, type := 1, lines := n / 64, prio := c.prio,
                   for_ := .mirror c.id off, localAddr := c.dst + off }
  s.issue r (faOffset fa) false []

/-- The next piece of a residency fetch that reads its mirror: a piece read again, or the next one after a switch. -/
def State.mirrorStep (c : Copy) (m : Nat) (s : State) : State :=
  match c.retry with
  | (off, n) :: t => (s.modCopy c.id fun c => { c with retry := t }).mirrorRead c m off n
  | [] =>
    let n := min (64 * c.lines) (c.len - c.issued)
    (s.modCopy c.id fun c => { c with issued := c.issued + n }).mirrorRead c m c.issued n

/-- The next request of a copy (R367). -/
def State.copyStep (c : Copy) (s : State) : State :=
  let src := c.src + c.issued
  let dst := c.dst + c.issued
  let pull := !c.srcHost && s.remoteEnd src
  let push := !c.dstHost && s.remoteEnd dst
  let n := s.chunkBytes c (if push then dst else src)
  let fail (st : Nat) (s : State) : State := (s.stopCopy c.id st).settleCopy c.id
  if pull then
    match s.localEnd c dst c.dstHost true n with
    | .error st => fail st s
    | .ok a => s.copyReq c 1 src n a []
  else match s.localEnd c src c.srcHost false n with
    | .error st => fail st s
    | .ok a =>
      let (bad, s) := s.dataRead a n
      if bad then fail 6 s
      else
        let data := s.rd a n
        if push then
          match c.destSem with
          | some k => s.copyReq c 4 dst n 0 (leBytes 8 k ++ data)
          | none => s.copyReq c 2 dst n 0 data
        else match s.localEnd c dst c.dstHost true n with
          | .error st => fail st s
          | .ok d =>
            let s := (s.wr d data).modCopy c.id fun c => { c with issued := c.issued + n }
            (s.copyMoved c n).settleCopy c.id

/-- A copy can issue a request now; a ring copy only while its context is RESIDENT (R422). -/
def State.copyReady (s : State) (c : Copy) : Bool :=
  !c.ended && !c.stopped && (c.unit != 0 || s.ctxResident c.prio) && (decide (c.issued < c.len) || !c.retry.isEmpty) && decide (c.out < copyWindow) && decide (s.msem.reqs.length < reqLimit)

/-- Precedence of the units: context save and restore, residency fetches, collectives, the ring (R367). -/
def unitRank (u : Nat) : Nat := if u = 8 then 0 else if u = 10 then 1 else if u = 7 then 2 else 3

/-- The copy whose turn it is: of the first class that has one, the next in round robin (R367). -/
def State.nextCopy (s : State) : Option Copy :=
  let cs := s.porter.copies.filter s.copyReady
  match (cs.map fun c => unitRank c.unit).min? with
  | none => none
  | some k =>
    let cs := cs.filter fun c => unitRank c.unit == k
    match cs.find? fun c => s.porter.turn < c.id with
    | some c => some c
    | none => cs.head?

/-- PORTER_REQUEST_ISSUE (R367). -/
def execPorterRequestIssue (s : State) : Out :=
  let s := s.startDescs copyLimit
  match s.nextCopy with
  | none => .next s
  | some c =>
    let s := { s with porter := { s.porter with turn := c.id } }
    match c.alt with
    | some m => .next (if c.fromMirror || !c.retry.isEmpty then s.mirrorStep c m else s.copyStep c)
    | none => .next (s.copyStep c)

/-- A block that stayed FETCHING with no copy left, its target dead, leaves that state when its job is torn down (R264). -/
def State.tearFetches (job : Nat) (s : State) : State :=
  if job ≠ s.fld Reg.CTX_MODEL 15 0 then s
  else
    let copied (k : Nat) : Bool := s.porter.copies.any fun c => c.unit == 10 && blockKey c.a c.b == k
    { s with
      res := { s.res with blocks := s.res.blocks.filter fun x => x.2.st != 1 || copied x.1 }
      porter := { s.porter with copies := s.porter.copies.map fun c =>
        if c.unit == 10 && c.ended && c.status == 16 then { c with status := 17 } else c } }

/-- Requests and copies of a job are torn down (R373 items 1 to 3). -/
def State.tearJob (job : Nat) (s : State) : State :=
  let s := { s with msem := { s.msem with
    torn := (job, s.msem.tail, s.porter.tail) :: s.msem.torn.filter fun t => t.1 != job } }
  let s := [Reg.ROUTE_JOBS0, Reg.ROUTE_JOBS1, Reg.ROUTE_JOBS2, Reg.ROUTE_JOBS3].foldl (fun s r =>
    (List.range 4).foldl (fun s j => if s.fld r (16 * j + 15) (16 * j) = job then s.setFld r (16 * j + 15) (16 * j) 0 else s) s) s
  let relays := s.msem.relays.filter fun w => w.job == job
  let s := { s with msem := { s.msem with relays := s.msem.relays.filter fun w => w.job != job } }
  let s := relays.foldl (fun s w => s.sendRsp w.src w.job w.prio 1 (argTag w.arg) 17 []) s
  let s := ((s.porter.copies.filter fun c => c.job == job && !c.ended).map (·.id)).foldl (fun s id => s.stopCopy id 17) s
  let s := ((s.msem.reqs.filter fun r => r.job == job && r.for_ != .combined).map (·.tag)).foldl
    (fun s t => s.finishReq t 17 []) s
  ((s.porter.copies.map (·.id)).foldl (fun s id => s.settleCopy id) s).tearFetches job

/-- The teardown of a job has ended: JOB_TORN, TORN_JOB and the MSEM vector (R373 item 5). -/
def State.tornJob (job : Nat) (s : State) : State :=
  ((s.msemFault 0xA9 s.node job 17).setFld Reg.MSEM_STAT 47 32 job).raise Pg.MSEM

end Sys2Proof.Machine
end

