-- ==== Sys2Proof/Machine/Forward.lean ====
section
/-! DEFINITION. The router at work: injection, delivery and forwarding of one packet (R301 to R317, R331 to R344), the
combining of requests in an output queue (R363, R364), escape and expiry (R301, R309). -/
namespace Sys2Proof.Machine

/-- A packet leaves the router's queue. -/
def State.dequeue (i : Nat) (s : State) : State :=
  { s with route := { s.route with queue := s.route.queue.eraseIdx i } }

/-! ## Delivery at this slice -/

/-- The trailer of a packet for this slice holds: the chunk CRC of TOK, or the packet CRC (R299). -/
def State.trailerOk (s : State) (p : Packet) : Bool :=
  if p.cls = 5 then
    let h := halfOf (tHalf p.arg)
    let bell := if tDir p.arg = 0 then s.chunkBell h p.arg p.src p.payload (p.crc.getD 0#32) else s.setBell h
    p.crc == some (chunkCrc bell p.arg p.src s.node p.payload)
  else p.crc == some (packetCrc p)

/-- A packet whose JOB this slice does not accept: JOB_REFUSED, and for REQ and FWD the refusal response; requests behind a
refused one have their turn (R317, R354, R355). -/
def State.refuseJob (p : Packet) (s : State) : State :=
  let s := (s.routeFault 0x99 p.src p).discarded 0x99
  let s := if p.cls = 1 then s.passReq p.src p.seq else s
  if p.cls = 1 ∧ p.type ≠ 0x20 then s.sendRsp p.src p.job p.prio 1 (argTag p.arg) 1 []
  else if p.cls = 2 then
    s.sendRsp (if p.type = 0x50 then p.src else bits (fieldAt p.payload 0 8) 22 0) p.job p.prio
      (if p.type = 0x50 then 0x50 else 1) (argTag p.arg) 1 []
  else s

/-- A REQ ahead of its turn needs a reorder entry (R354). -/
def State.reorderFull (s : State) (p : Packet) : Bool :=
  p.cls == 1 && p.seq != tGet zeroNat p.src s.msem.nextSeq && s.fld Reg.MSEM_ROB 15 0 ≤ s.msem.parked.length

/-- A packet that came in for this slice: trailer, window and job checks. What a unit takes in follows in a command of
its own; a TOK packet also stays in the inbox, with the job and level its chunk is returned under. -/
def State.deliver (p : Packet) (s : State) : State :=
  if !s.trailerOk p then
    if windowed p then (s.acknowledge p.src p.cls p.seq 1).tallyAdd (Pg.LINK 0) 13 1 else s
  else if !windowed p then s
  else
    let refused := decide (1 ≤ p.cls) && !s.jobAccepted p.job
    if !refused && s.reorderFull p && s.windowVerdict p.src p.cls p.seq == .accept then
      (s.acknowledge p.src p.cls p.seq 2).tallyAdd (Pg.LINK 0) 14 1
    else
    let (fresh, s) := s.windowTake p.src p.cls p.seq
    if !fresh then s
    else if refused then s.refuseJob p
    else if p.cls = 5 then { s with route := { s.route with inbox := s.route.inbox ++ [p] } } else s

/-! ## Combining (R363, R364) -/

/-- Types that combine: ADD, MIN, MAX, LOAD without KEEP, FADD32 with UNORDERED. -/
def combinable (p : Packet) : Bool :=
  p.cls == 1 && ((0x10 ≤ p.type && p.type ≤ 0x14) || (p.type == 1 && !argFlag p.arg) || (p.type == 0x16 && argFlag p.arg))

/-- ARG apart from TAG. -/
def argSansTag (a : W64) : Nat := setBits a.toNat 56 41 0

/-- Two requests agree in DEST, JOB, PRIO, TYPE and ARG apart from TAG. -/
def combineMatch (p q : Packet) : Bool :=
  combinable p && combinable q && p.dest == q.dest && p.job == q.job && p.prio == q.prio && p.type == q.type
    && argSansTag p.arg == argSansTag q.arg

/-- The operand of a request. -/
def operand (p : Packet) : W64 := BitVec.ofNat 64 (fieldAt p.payload 0 8)

/-- Bytes of fan-out space of one contributor's response. -/
def fanBytes (t lines : Nat) : Nat := 40 + (if t = 1 then 64 * lines else 8)

/-- Fan-out space in use (R311, R364). -/
def State.fanUsed (s : State) : Nat :=
  sumNat (s.msem.combines.map fun c => c.parts.length * fanBytes c.type (argLines c.arg))

/-- The STUB that keeps a contributor's place in the destination's windows (R364). -/
def stubOf (p : Packet) : Packet :=
  let q := { p with type := 0x20, arg := 0#64, payload := [] }
  { q with crc := some (packetCrc q) }

/-- The operands of an entry taken together, in contributor order (R364). -/
def combineAll (t : Nat) : List (Nat × Nat × W64) → W64
  | [] => 0#64
  | x :: xs => xs.foldl (fun v y => atomicNew t v y.2.2 0#64) x.2.2

/-- A combined request with the operands of its entry. -/
def combinedWith (c : Combine) (p : Packet) : Packet :=
  let q := { p with payload := if c.type = 1 then [] else leBytes 8 (combineAll c.type c.parts).toNat }
  { q with crc := some (packetCrc q) }

/-- One packet of an output queue is replaced. -/
def State.setOut (k i : Nat) (p : Packet) (s : State) : State :=
  let l := s.link k
  s.setLink k { l with out := modNth i (fun x => (p, x.2)) l.out }

/-- A request joins the entry that a waiting combined request holds. -/
def State.joinEntry (k i : Nat) (q p : Packet) (c : Combine) (s : State) : State :=
  let c := { c with parts := c.parts ++ [(p.src, argTag p.arg, operand p)] }
  let q' := combinedWith c q
  let s := ({ s with msem := { s.msem with
    combines := s.msem.combines.map fun d => if d.tag == c.tag then c else d } } : State)
  let s := s.modOutst q.dest 1 q.seq fun o => { o with pkt := q' }
  ((s.setOut k i q').putOut k (stubOf p)).msemTally 28

/-- Two requests make a new entry: the combined request takes the waiting one's place, and a STUB follows for each
(R364). C goes under the credits of the waiting one and the last STUB under those of the later request, each as large; the
other STUB needs a unit of its own (R307). -/
def State.newEntry (k i : Nat) (q p : Packet) (s : State) : State :=
  let tag := s.freeTag
  let c : Combine := { tag := tag, dest := q.dest, job := q.job, type := q.type, arg := q.arg, prio := q.prio,
                       parts := [(q.src, argTag q.arg, operand q), (p.src, argTag p.arg, operand p)] }
  let seq := tGet zeroNat (pairCls q.dest 1) s.e2e.next
  let base := s.stamp { q with src := s.node, seq := seq,
                               arg := BitVec.ofNat 64 (setBits q.arg.toNat 56 41 tag) }
  let cp := combinedWith c { base with
    hops := q.hops, lane := q.lane, laneWas := q.laneWas, esc := q.esc, entryDim := q.entryDim, edges := q.edges }
  let r : Req := { tag := tag, dest := q.dest, job := q.job, type := q.type, lines := argLines q.arg, prio := q.prio,
                   for_ := .combined }
  let o : Outst := { dest := q.dest, cls := 1, seq := seq, pkt := cp }
  let s : State := { s with
    msem := { s.msem with combines := s.msem.combines ++ [c], reqs := s.msem.reqs ++ [r], nextTag := (tag + 1) % 65536 }
    e2e := { s.e2e with
      next := tSet zeroNat (pairCls q.dest 1) ((seq + 1) % 65536) s.e2e.next
      outst := s.e2e.outst ++ [o] } }
  let s := s.setOut k i cp
  let s := (s.setLink k ((s.link k).enqueue s.now (stubOf q))).putOut k (stubOf p)
  ((s.showMsem).msemTally 28).msemTally 28

/-- A request that another slice sent goes into an output queue: combined with an earlier one that waits there, when the
conditions of R363 and R311 hold, else as it is. -/
def State.putReq (k : Nat) (p : Packet) (s : State) : State :=
  let full (n : Nat) : Bool := 262144 < s.fanUsed + n * fanBytes p.type (argLines p.arg)
  if !s.bit Reg.MSEM_COMB 0 ∨ p.src = s.node then s.putOut k p
  else match (s.link k).out.zipIdx.find? fun x => combineMatch x.1.1 p with
    | none => s.putOut k p
    | some ((q, _), i) =>
      match s.msem.combines.find? fun c => q.src == s.node && c.tag == argTag q.arg with
      | some c => if c.parts.length < 16 && !full 1 then s.joinEntry k i q p c else s.putOut k p
      | none =>
        if q.src = s.node ∨ full 2 ∨ 1024 ≤ s.msem.combines.length ∨ s.window 1 ≤ s.outstanding q.dest 1 ∨ reqLimit ≤ s.msem.reqs.length then
          s.putOut k p
        else s.newEntry k i q p

/-! ## Forwarding -/

/-- A packet goes to an output: credits for it are taken, its input buffer is given back, and it is counted (R307, R345,
R497). -/
def State.emitTo (q : RQ) (k : Nat) (p : Packet) (subst : Bool) (s : State) : State :=
  let l := s.link k
  let key := partKey (bufferOf p) p.lane
  let s := s.setLink k { l with credits := tSet zeroNat key (tGet zeroNat key l.credits - packetUnits p) l.credits }
  let s := s.freeInput q
  let s := s.tallyAdd Pg.ROUTE (if p.esc then 1 else 0) 1
  let s := if subst then s.tallyAdd Pg.ROUTE 2 1 else s
  let s := s.lifeAdd (if k < 18 then 2 else 4) (units256 p.payload.length)
  let s := match q.origin with
    | .port _ => s.lifeAdd 6 (units256 p.payload.length)
    | .unit => s
    | .again => s
  if combinable p then s.putReq k p else s.putOut k p

/-- The unit of an own packet that cannot be sent learns of it: a request ends with its status; any other packet is lost
to its unit, whose own timeout applies (R336, R344, R355). -/
def State.injectFails (p : Packet) (status : Nat) (s : State) : State :=
  if p.cls = 1 ∧ p.src = s.node then s.finishReq (argTag p.arg) status [] else s

/-- A packet of this slice's own units is sent for the first time: SEQ, EPOCH, BIRTH and trailer (R302, R338). -/
def State.inject (p : Packet) (s : State) : Packet × State :=
  if !windowed p then (s.stamp p, s)
  else
    let key := pairCls p.dest p.cls
    let seq := tGet zeroNat key s.e2e.next
    let p := s.stamp { p with seq := seq }
    (p, { s with e2e := { s.e2e with
      next := tSet zeroNat key ((seq + 1) % 65536) s.e2e.next
      outst := s.e2e.outst ++ [{ dest := p.dest, cls := p.cls, seq := seq, pkt := p }] } })

/-- The window of a class and destination is full (R302). -/
def State.windowFull (s : State) (p : Packet) : Bool := windowed p && decide (s.window p.cls ≤ s.outstanding p.dest p.cls)

/-- A packet is discarded by the router under a ROUTE code (R333, R334, R336, R344). -/
def State.discard (i : Nat) (q : RQ) (code status : Nat) (s : State) : State :=
  let s := ((s.dequeue i).freeInput q).routeFault code q.pkt.dest q.pkt
  let s := s.discarded code
  match q.origin with
  | .unit => s.injectFails q.pkt status
  | .port _ => s
  | .again => s

/-- The packet of a queue entry goes to a hop. An own packet for another slice is given its SEQ when it leaves. -/
def State.forwardTo (i : Nat) (q : RQ) (k : Nat) (p : Packet) (subst : Bool) (s : State) : State :=
  match q.origin with
  | .unit =>
    if s.windowFull p then s
    else
      let (p', s) := (s.dequeue i).inject p
      let p := { p' with
        hops := p.hops, esc := p.esc, lane := p.lane, laneWas := p.laneWas, entryDim := p.entryDim, edges := p.edges }
      s.emitTo q k p subst
  | .port _ => (s.dequeue i).emitTo q k p subst
  | .again => (s.dequeue i).emitTo q k p subst

/-- Classes that the gateway service sends across a gateway-role port: relayed requests, responses, acknowledgements
(R344, R370). What another slice sent is never forwarded through one. -/
def State.gatewaySends (s : State) (p : Packet) : Bool :=
  p.src == s.node && (p.cls == 2 || p.cls == 3 || (p.cls == 7 && p.type == 0))

/-- The packet of a queue entry has found no credit; the first time counts (R309). -/
def State.foundNone (i : Nat) (s : State) : State :=
  { s with route := { s.route with
    queue := modNth i (fun q => { q with since := some (q.since.getD s.now) }) s.route.queue } }

/-- PACKET_FORWARD (R331 to R336, R338, R344): the router decides one packet of its queue. -/
def execPacketForward (index : Nat) (s : State) : Out :=
  match s.route.queue[index]? with
  | none => .next s
  | some q =>
    let own := q.origin == .unit
    let p := if own then { q.pkt with epoch := s.epoch } else q.pkt
    if !own && s.tooOld p then .next ((((s.dequeue index).freeInput q)).expired q.origin)
    else
      let s := if s.epochMiss p then s.routeFault 0x97 p.dest p else s
      match s.hopFor p with
      | .deliver =>
        let s := (s.dequeue index).freeInput q
        if p.cls = 7 ∧ p.type = 1 ∧ own ∧ bits p.arg.toNat 8 8 = 1 then
          .next (s.floodFrom (bits p.arg.toNat 3 0) (bits p.arg.toNat 7 4) p.payload)
        else if own then .next (if p.cls = 5 then { s with route := { s.route with inbox := s.route.inbox ++ [p] } } else s)
        else .next (s.deliver p)
      | .go k p' subst => .next (s.forwardTo index q k p' subst)
      | .wait => .next (s.foundNone index)
      | .escDown =>
        .next (s.oncePerBell (Pg.ROUTE * 256 + 0x94) fun s => (s.routeFault 0x94 p.dest p).raise Pg.ROUTE)
      | .drop code => .next (s.discard index q code 18)
      | .foreign port =>
        match port with
        | some k =>
          if !s.gatewaySends p then .next (s.discard index q 0x93 19)
          else if s.hasCredit k p 0 then .next (s.forwardTo index q k (felanoHop p 0) false)
          else .next s
        | none => .next (s.discard index q 0x93 19)

/-- ESC_WAIT_TIMEOUT (R309): a packet that has found no adaptive credit for ESC_WAIT takes the escape route of its
class. -/
def execEscWaitTimeout (index : Nat) (s : State) : Out :=
  match s.route.queue[index]? with
  | none => .next s
  | some q =>
    let waited := q.since.any fun t => t + 8 * s.fld (Reg.LINK_E2E 0) 39 32 ≤ s.now
    if q.pkt.esc ∨ !waited ∨ s.hopFor q.pkt ≠ .wait then .next s
    else
      let q := { q with pkt := { q.pkt with esc := true } }
      let k := match q.origin with
        | .port k => if k < 18 then k else 0
        | .unit => 0
        | .again => 0
      .next (({ s with route := { s.route with queue := modNth index (fun _ => q) s.route.queue } } : State).linkTally k 12 1)

/-- PACKET_EXPIRY (R301): a packet that waits is discarded when its age exceeds MAX_FLIGHT_US. -/
def execPacketExpiry (index : Nat) (s : State) : Out :=
  match s.route.queue[index]? with
  | none => .next s
  | some q =>
    if q.origin = .unit ∨ !s.tooOld q.pkt then .next s
    else .next (((s.dequeue index).freeInput q).expired q.origin)

end Sys2Proof.Machine
end

