-- ==== Sys2Proof/Machine/Coll.lean ====
section
/-! DEFINITION. Collectives (R377 to R396): groups and their creation, descriptors, chunks moved by pull over trees of
rotating roots, checks and aborts, and the low-latency path with its exchange all-reduce; job teardown (R373). -/
namespace Sys2Proof.Machine

/-! ## Groups -/

/-- An unlisted group is FREE. -/
def groupNone (_ : Nat) : Group := {}

/-- A group of the table (R377). -/
def State.group (s : State) (g : Nat) : Group := tGet groupNone g s.coll.groups

/-- Replaces a group. -/
def State.setGroup (g : Nat) (x : Group) (s : State) : State :=
  { s with coll := { s.coll with groups := tSet groupNone g x s.coll.groups } }

/-- Fields of a group entry (R377). -/
def grpCount (e : List Byte) : Nat := fieldAt e 8 2
def grpJob (e : List Byte) : Nat := fieldAt e 0x0A 2
def grpCtx (e : List Byte) : Nat := bits (fieldAt e 0x0C 1) 1 0
def grpLL (e : List Byte) : Bool := bits (fieldAt e 0x0C 1) 2 2 == 1
def grpLog2 (e : List Byte) : Nat := fieldAt e 0x0D 1
def grpSlots (e : List Byte) : Nat := fieldAt e 0x0E 1
def grpBase (e : List Byte) : Nat := fieldAt e 0 8

/-- The address of a group entry. -/
def State.grpAddr (s : State) (g : Nat) : Nat := s.fld Reg.COLL_GROUPS 51 18 * 2 ^ 18 + g * 64

/-- The ranges and zero bits of a group entry (R377). -/
def grpEntryOk (e : List Byte) : Bool :=
  grpBase e % 64 == 0 && grpBase e < 2 ^ 52 && 2 ≤ grpCount e && grpCount e ≤ 32768 && 1 ≤ grpJob e && grpJob e ≤ 0xFFFE
    && bits (fieldAt e 0x0C 1) 7 3 == 0 && 12 ≤ grpLog2 e && grpLog2 e ≤ 20 && 4 ≤ grpSlots e && grpSlots e ≤ 64
    && (e.drop 0x0F).all fun b => b == 0#8

/-- Members are nodes of this domain, none twice, this slice exactly once (R377). -/
def State.membersOk (s : State) (ms : List Nat) : Bool :=
  ms.all (fun m => m < 2 ^ 23 && nodeDomain m == nodeDomain s.node) && ms.contains s.node
    && ms.eraseDups.length == ms.length

/-- The live slices of the LL span: those of the source set in packages FIRST to LAST that no dead-slice notice names
(R390). -/
def State.spanLive (s : State) : List Nat :=
  (s.res.sources.zipIdx.filter fun x => !s.deadNow x.2 && decide (s.fld Reg.COLL_LL 12 1 ≤ nodePkg x.1)
    && decide (nodePkg x.1 ≤ s.fld Reg.COLL_LL 24 13)).map (·.1)

/-- An LL group lists exactly the live slices of the span; with ENABLE 0 it fails (R378, R395). -/
def State.llGroupOk (s : State) (ms : List Nat) : Bool :=
  s.bit Reg.COLL_LL 0 && s.spanLive.all ms.contains && ms.all s.spanLive.contains

/-- The smallest buffer class that holds a chunk (R378 step 2). -/
def chunkClass (log2 : Nat) : Nat := (log2 - 12 + 2) / 3

/-- COLL_FAULT takes a code with its group, sequence number, status and member, and the code is recorded (R395). -/
def State.collFault (code g seq status member : Nat) (s : State) : State :=
  let v := g + seq % 2 ^ 16 * 2 ^ 12 + code * 2 ^ 28 + status * 2 ^ 36 + member * 2 ^ 44
  (s.setReg Reg.COLL_FAULT (BitVec.ofNat 64 v)).recordF Pg.COLL code Reg.COLL_FAULT

/-- The member list of an entry. -/
def State.grpMembers (s : State) (e : List Byte) : List Nat :=
  (List.range (grpCount e)).map fun i => s.rdNat (grpBase e + 4 * i) 4

/-- A group goes to FAILED with a code; its staging is freed (R378). -/
def State.failGroup (g code : Nat) (s : State) : State :=
  let x := s.group g
  ((s.freeBufs x.staging 7).setGroup g { x with st := 3, code := code, staging := [], used := [] }).collFault code g 0 0 x.self

/-- Takes `n` staging buffers of a class for a context, or none (R378 step 2). -/
def State.takeStaging (cls ctx : Nat) : Nat → List Nat → State → Option (List Nat) × State
  | 0, acc, s => (some acc, s)
  | n + 1, acc, s =>
    match s.allocBuf cls [7] (some ctx) with
    | (some id, s) => State.takeStaging cls ctx n (acc ++ [id]) s
    | (none, s) => (none, s.freeBufs acc 7)

/-- A COL packet of a group (R389). -/
def State.colPacket (s : State) (g : Nat) (dest type arg : Nat) (payload : List Byte) : Packet :=
  let e := (s.group g).entry
  { dest := dest, src := s.node, job := grpJob e, cls := 6, prio := grpCtx e, type := type, arg := BitVec.ofNat 64 arg,
    payload := payload }

/-- ARG of a COL packet (R389). -/
def colArg (g seq chunk index phase : Nat) : Nat :=
  g + seq % 2 ^ 16 * 2 ^ 12 + chunk * 2 ^ 28 + index * 2 ^ 53 + phase * 2 ^ 63

/-- Fields of ARG. -/
def caGroup (a : W64) : Nat := bits a.toNat 11 0
def caSeq (a : W64) : Nat := bits a.toNat 27 12
def caChunk (a : W64) : Nat := bits a.toNat 52 28
def caIndex (a : W64) : Nat := bits a.toNat 60 53
def caPhase (a : W64) : Nat := bits a.toNat 63 63

/-- A member sends its JOIN to member 0 (R378 step 3). -/
def State.sendJoin (g : Nat) (s : State) : State :=
  let x := s.group g
  match x.members with
  | m :: _ => if x.st ≠ 1 ∨ x.self = 0 then s
    else s.send (s.colPacket g m 1 (colArg g 0 0 0 0) (leBytes 8 (x.digest + x.self * 2 ^ 32)))
  | [] => s

/-- Creation of a group (R378). A group that is not FREE accepts no CREATE. -/
def State.createGroup (g : Nat) (s : State) : State :=
  if (s.group g).st ≠ 0 then s.collFault 0xB3 g 0 0 0
  else
    let a := s.grpAddr g
    let e := s.rd a 64
    let x : Group := { st := 1, entry := e, created := s.now }
    let s := { s with coll := { s.coll with aborted := s.coll.aborted.filter fun y => y.1 != g } }
    let (bad, s) := s.dataRead a 64
    if bad || !grpEntryOk e then (s.setGroup g x).failGroup g 0xB0
    else
      let base := grpBase e
      let n := grpCount e
      let ms := s.grpMembers e
      let (bad, s) := s.dataRead base (4 * n)
      if bad || !s.membersOk ms || (grpLL e && !s.llGroupOk ms) then (s.setGroup g x).failGroup g 0xB0
      else
        let x := { x with members := ms, self := ms.idxOf s.node,
                          digest := (crc32c (s.rd base (4 * n) ++ (e.drop 8).take 8)).toNat }
        match s.takeStaging (chunkClass (grpLog2 e)) (grpCtx e) (grpSlots e) [] with
        | (none, s) => (s.setGroup g x).failGroup g 0xB1
        | (some ids, s) => (s.setGroup g { x with staging := ids }).sendJoin g

/-- The group's staging is freed and it becomes FREE (R379). -/
def State.freeGroup (g : Nat) (s : State) : State :=
  let x := s.group g
  let s := if x.staging.isEmpty then s else s.freeBufs x.staging 7
  let s := { s with coll := { s.coll with
    pulls := s.coll.pulls.filter fun p => p.group != g
    llr := s.coll.llr.filter fun p => p.group != g
    aborted := s.coll.aborted.filter fun p => p.1 != g } }
  s.setGroup g {}

/-- A write of COLL_CREATE (R378, R379, R395). -/
def State.collCreateWrite (v : W64) (s : State) : State :=
  s.gated Reg.COLL_CREATE v fun s =>
    let g := bits v.toNat 11 0
    let create := bits v.toNat 16 16 == 1
    let destroy := bits v.toNat 17 17 == 1
    if create && destroy then s.dropWrite 0x03 Reg.COLL_CREATE
    else
      let s := s.setFld Reg.COLL_GSTAT 11 0 g
      if create then s.createGroup g
      else if destroy then
        if s.coll.ops.any (fun o => o.group == g) then s.collFault 0xB3 g 0 0 0 else s.freeGroup g
      else s

/-- COLL_CREATE with CREATE (R378). -/
def execCollCreate (v : W64) (s : State) : Out := .next (s.collCreateWrite v)

/-- COLL_CREATE with DESTROY (R379). -/
def execCollDestroy (v : W64) (s : State) : Out := .next (s.collCreateWrite v)

/-- JOIN_SEND: 100 µs after the last JOIN without a READY, a joining member sends it again (R378 step 3). -/
def execJoinSend (group : Nat) (s : State) : Out := .next (s.sendJoin group)

/-- A packet for a FREE group is discarded and counted (R379). -/
def State.colStale (s : State) : State := s.tallyAdd Pg.COLL 14 1

/-- A COL packet of a group that is not FREE. -/
def State.withGroup (p : Arrived) (f : State → State) (s : State) : State :=
  if (s.group (caGroup p.arg)).st = 0 then s.colStale else f s

/-- A READY with a status (R378 step 4). -/
def State.groupReady (g status : Nat) (s : State) : State :=
  let x := s.group g
  if x.st ≠ 1 then s
  else if status = 0 then s.setGroup g { x with st := 2, joins := [] } else s.failGroup g 0xB2

/-- Member 0 has every JOIN: READY goes to every other member, and it takes it itself (R378 step 4). -/
def State.allJoined (g : Nat) (s : State) : State :=
  let x := s.group g
  if x.joins.length + 1 < x.members.length then s
  else
    let status := if x.joins.all fun j => j.2 == x.digest then 0 else 1
    let s := (x.members.drop 1).foldl (fun s m => s.send (s.colPacket g m 2 (colArg g 0 0 0 0) (leBytes 8 status))) s
    s.groupReady g status

/-- JOIN_RECEIVE (R378 step 4). -/
def execJoinReceive (p : Arrived) (s : State) : Out :=
  .next (s.withGroup p fun s =>
    let g := caGroup p.arg
    let x := s.group g
    let w := fieldAt p.payload 0 8
    let m := bits w 46 32
    if x.st ≠ 1 ∨ x.self ≠ 0 ∨ m = 0 ∨ x.members[m]? ≠ some p.src then s
    else if x.joins.any fun j => j.1 == m then s
    else (s.setGroup g { x with joins := x.joins ++ [(m, bits w 31 0)] }).allJoined g)

/-- READY_RECEIVE (R378 step 4): from member 0. -/
def execReadyReceive (p : Arrived) (s : State) : Out :=
  .next (s.withGroup p fun s =>
    let g := caGroup p.arg
    if (s.group g).members[0]? = some p.src then s.groupReady g (bits (fieldAt p.payload 0 8) 0 0) else s)

/-- COLL_CREATE_TIMEOUT (R378 step 5): CREATE_MS after its CREATE a member that is still joining fails. -/
def execCollCreateTimeout (group : Nat) (s : State) : Out :=
  let x := s.group group
  .next (if x.st = 1 ∧ x.created + 1000000 * s.fld Reg.COLL_TO 41 32 ≤ s.now then s.failGroup group 0xB7 else s)

/-! ## Descriptors -/

/-- Fields of a descriptor (R380). -/
def cdGroup (d : List Byte) : Nat := bits (fieldAt d 0 2) 11 0
def cdOp (d : List Byte) : Nat := fieldAt d 2 1
def cdType (d : List Byte) : Nat := bits (fieldAt d 3 1) 3 0
def cdRed (d : List Byte) : Nat := bits (fieldAt d 3 1) 7 4
def cdRoot (d : List Byte) : Nat := fieldAt d 4 2
def cdTrig (d : List Byte) : Nat := fieldAt d 6 1
def cdDone (d : List Byte) : Nat := fieldAt d 7 1
def cdTrigValue (d : List Byte) : Nat := fieldAt d 8 8
def cdIn (d : List Byte) : Nat := fieldAt d 0x10 8
def cdOut (d : List Byte) : Nat := fieldAt d 0x18 8
def cdLength (d : List Byte) : Nat := fieldAt d 0x20 8

/-- A semaphore number, or 0xFF for none. -/
def semOk (n : Nat) : Bool := n ≤ 127 || n == 0xFF

/-- LENGTH of an operation (R380). -/
def cdLengthOk (d : List Byte) : Bool :=
  let n := cdLength d
  if cdOp d = 5 then n == 0
  else n % 8 == 0 && 8 ≤ n && (if cdOp d = 6 then n ≤ 64 else n ≤ 2 ^ 36)

/-- The checks of a descriptor that its group has no part in (R380). -/
def cdAloneOk (d : List Byte) : Bool :=
  bits (fieldAt d 0 2) 15 12 == 0 && 1 ≤ cdOp d && cdOp d ≤ 6 && cdType d ≤ 3 && cdRed d ≤ 3 && semOk (cdTrig d)
    && semOk (cdDone d) && cdIn d % 64 == 0 && cdIn d < 2 ^ 52 && cdOut d % 64 == 0 && cdOut d < 2 ^ 52 && cdLengthOk d
    && fieldAt d 0x29 7 == 0 && fieldAt d 0x38 8 == 0 && !(2 ≤ cdType d && cdRed d != 0)
    && !(cdOp d == 6 && 2 ≤ cdType d)

/-- The checks that need the group: its context's semaphores, LL, ROOT (R380). -/
def cdGroupOk (e d : List Byte) : Bool :=
  semOf (grpCtx e) (cdTrig d) && semOf (grpCtx e) (cdDone d) && (cdOp d != 6 || grpLL e) && cdRoot d < grpCount e

/-- The status with which a descriptor is completed at once; 0 when it is queued (R380, R422). -/
def State.cdStatus (s : State) (d : List Byte) : Nat :=
  let x := s.group (cdGroup d)
  if !cdAloneOk d then 6
  else if x.st ≠ 2 then 7
  else if !cdGroupOk x.entry d then 6
  else if !s.ctxResident (grpCtx x.entry) then 7 else 0

/-- COLL_HEAD passes the descriptors that are done (R380). -/
def State.collHead : Nat → State → State
  | 0, s => s
  | n + 1, s =>
    let h := s.fld Reg.COLL_HEAD 31 0
    if s.coll.ringDone.contains h then
      State.collHead n (({ s with coll := { s.coll with ringDone := s.coll.ringDone.erase h } } : State).setFld Reg.COLL_HEAD 31 0
        ((h + 1) % 2 ^ 32))
    else s

/-- A ring index is done. -/
def State.ringDoneAt (i : Nat) (s : State) : State :=
  let s := { s with coll := { s.coll with ringDone := i :: s.coll.ringDone } }
  s.collHead (s.coll.ringDone.length + 1)

/-- The end of a descriptor (R381): OUT where it is still to be written, then status and sequence number, then DONE_SEM,
each after the acknowledgement of the one before. -/
def State.writeDone (out : List WStep) (addr status seq sem : Nat) (s : State) : State :=
  s.startChain (out ++ [.bytes (addr + 0x28) (leBytes 8 status ++ leBytes 8 seq)]
    ++ (if sem ≤ 127 then [.semAdd sem 1#64] else []))

/-- A descriptor is completed at once (R380). DONE_SEM of another context takes no part. -/
def State.refuseDesc (i addr status : Nat) (d : List Byte) (s : State) : State :=
  let x := s.group (cdGroup d)
  let s := if status = 6 then s.collFault 0xB4 (cdGroup d) 0 status x.self else s
  let sem := if x.st ≠ 0 ∧ !semOf (grpCtx x.entry) (cdDone d) then 0xFF else cdDone d
  ((s.tallyAdd Pg.COLL status 1).writeDone [] addr status 0 sem).ringDoneAt i

/-- An operation of a group by its sequence number. -/
def State.collOp (s : State) (g seq : Nat) : Option CollOp := s.coll.ops.find? fun o => o.group == g && o.seq == seq

/-- Changes an operation. -/
def State.modOp (g seq : Nat) (f : CollOp → CollOp) (s : State) : State :=
  { s with coll := { s.coll with ops := s.coll.ops.map fun o => if o.group == g && o.seq == seq then f o else o } }

/-- A staging slot is used or freed. -/
def State.takeSlot (g i : Nat) (s : State) : State := s.setGroup g { s.group g with used := i :: (s.group g).used }
def State.dropSlot (g i : Nat) (s : State) : State :=
  s.setGroup g { s.group g with used := (s.group g).used.filter fun j => j != i }

/-- The slots an operation holds. -/
def CollOp.slots (o : CollOp) : List Nat :=
  o.work.flatMap fun c => c.slot.toList ++ (c.pull.map (·.slot)).toList

/-- An operation ends with a status (R381, R387): its slots are freed, what waited for it is dropped, and the descriptor
is completed. `out` is what is still to be written to OUT. -/
def State.endOp (g seq status : Nat) (out : List WStep) (s : State) : State :=
  match s.collOp g seq with
  | none => s
  | some o =>
    let s := o.slots.foldl (fun s i => s.dropSlot g i) s
    let s := { s with coll := { s.coll with
      ops := s.coll.ops.filter fun q => !(q.group == g && q.seq == seq)
      pulls := s.coll.pulls.filter fun p => !(p.group == g && p.seq == seq)
      llr := s.coll.llr.filter fun p => !(p.group == g && p.seq == seq) } }
    let s := s.tallyAdd Pg.COLL status 1
    let s := if cdOp o.desc = 6 then s.tallyAdd Pg.COLL 17 1 else s
    (s.writeDone out o.addr status seq (cdDone o.desc)).ringDoneAt o.ring

/-- A member aborts an operation (R387): ABORT to every other member, its own completion, COLL_ABORT. -/
def State.abortOp (g seq status member : Nat) (s : State) : State :=
  match s.collOp g seq with
  | none => s
  | some _ =>
    let x := s.group g
    let s := (x.members.filter fun m => m != s.node).foldl (fun s m =>
      s.send (s.colPacket g m 8 (colArg g seq 0 0 0) (leBytes 8 (status + x.self * 2 ^ 8)))) s
    (s.endOp g seq status []).collFault 0xB6 g seq status member

/-- A descriptor is read once and queued on its group (R380); one whose ABORT came before it ends with that status. -/
def State.readDesc (i : Nat) (s : State) : State :=
  let a := s.fld Reg.COLL_RING 51 12 * 4096 + i % 2 ^ s.fld Reg.COLL_RING 4 0 * 64
  let d := s.rd a 64
  let (bad, s) := s.dataRead a 64
  if bad then s.refuseDesc i a 1 (leBytes 7 0 ++ [0xFF#8] ++ leBytes 56 0)
  else
    let st := s.cdStatus d
    if st ≠ 0 then s.refuseDesc i a st d
    else
      let g := cdGroup d
      let x := s.group g
      let o : CollOp := { group := g, seq := x.nextSeq, ring := i, addr := a, desc := d }
      let s := s.setGroup g { x with nextSeq := (x.nextSeq + 1) % 2 ^ 16 }
      let s := { s with coll := { s.coll with ops := s.coll.ops ++ [o] } }
      match s.coll.aborted.find? fun y => y.1 == g && y.2.1 == o.seq with
      | some y => ({ s with coll := { s.coll with aborted := s.coll.aborted.erase y } } : State).endOp g o.seq y.2.2 []
      | none => s

/-- Reads the descriptors from one index up to a count. -/
def State.readDescs (from_ : Nat) : Nat → State → State
  | 0, s => s
  | n + 1, s => State.readDescs ((from_ + 1) % 2 ^ 32) n (s.readDesc from_)

/-- COLL_TAIL (R380): announces the descriptors up to TAIL. -/
def State.collTail (v : W64) (s : State) : State :=
  s.gated Reg.COLL_TAIL v fun s =>
    let t := bits v.toNat 31 0
    let n := (t + 2 ^ 32 - s.coll.tail) % 2 ^ 32
    if s.fld Reg.COLL_RING 4 0 = 0 then s
    else
      let old := s.coll.tail
      ({ s with coll := { s.coll with tail := t } } : State).readDescs old (min n (2 ^ s.fld Reg.COLL_RING 4 0))

/-- The command of that write. -/
def execCollTail (v : W64) (s : State) : Out := .next (s.collTail v)

/-! ## Chunks and trees -/

/-- An operation moves partials up, or chunks down (R383). -/
def cdUp (d : List Byte) : Bool := cdOp d == 1 || cdOp d == 2 || cdOp d == 5
def cdDown (d : List Byte) : Bool := cdOp d == 1 || cdOp d == 3 || cdOp d == 4 || cdOp d == 5

/-- Bytes of IN that a chunk covers: half a chunk for BF16, whose partials are FP32 (R383). -/
def inChunk (e d : List Byte) : Nat := 2 ^ (if cdType d = 3 then grpLog2 e - 1 else grpLog2 e)

/-- Chunks of an operation; a BARRIER has one of no bytes. -/
def chunkCount (e d : List Byte) : Nat := if cdOp d = 5 then 1 else ceilDiv (cdLength d) (inChunk e d)

/-- Bytes of IN of chunk `c`. -/
def chunkInLen (e d : List Byte) (c : Nat) : Nat := min (inChunk e d) (cdLength d - c * inChunk e d)

/-- Bytes of chunk `c` in partial format. -/
def chunkLen (e d : List Byte) (c : Nat) : Nat := (if cdType d = 3 then 2 else 1) * chunkInLen e d c

/-- The root of chunk `c` (R383). -/
def chunkRoot (e d : List Byte) (c : Nat) : Nat := if cdOp d = 4 then cdRoot d else c % grpCount e

/-- Relative index of member `i` for root `r`, and the member of a relative index (R383). -/
def relIndex (n r i : Nat) : Nat := (i + n - r) % n
def relMember (n r j : Nat) : Nat := (j + r) % n

/-- The lowest set bit of `j`; above every index for `j = 0`. -/
def lowBit (j : Nat) : Nat :=
  match (List.range 16).find? fun t => j.testBit t with
  | some t => 2 ^ t
  | none => 2 ^ 16

/-- The children of relative index `j`, ascending (R383). -/
def relChildren (n j : Nat) : List Nat :=
  ((List.range 16).map fun t => 2 ^ t).filterMap fun b => if b < lowBit j ∧ j + b < n then some (j + b) else none

/-- The parent of relative index `j > 0`. -/
def relParent (j : Nat) : Nat := j - lowBit j

/-- The place of this member in the tree of a chunk: its relative index, the members of its children, and its parent. -/
def State.tree (s : State) (g : Nat) (d : List Byte) (c : Nat) : Nat × List Nat × Nat :=
  let x := s.group g
  let n := grpCount x.entry
  let r := chunkRoot x.entry d c
  let j := relIndex n r x.self
  (j, (relChildren n j).map (relMember n r), relMember n r (relParent j))

/-- One value added to another (R384): INT64 and UINT64 in 8 bytes, FP32 and BF16 partials in 4. -/
def reduceOne (dtype redop : Nat) (a b : List Byte) : List Byte :=
  let x := leNat a
  let y := leNat b
  if 2 ≤ dtype then leBytes 4 (fAdd (BitVec.ofNat 32 x) (BitVec.ofNat 32 y)).toNat
  else
    let lt := if dtype = 0 then (BitVec.ofNat 64 x).slt (BitVec.ofNat 64 y) else decide (x < y)
    leBytes 8 (match redop with
      | 0 => (x + y) % 2 ^ 64
      | 1 => if lt then x else y
      | 2 => if lt then y else x
      | _ => x ||| y)

/-- Bytes of one value in partial format. -/
def partBytes (dtype : Nat) : Nat := if dtype < 2 then 8 else 4

/-- A vector of partials added to another. -/
def reduceVec (dtype redop : Nat) (a b : List Byte) : List Byte :=
  let w := partBytes dtype
  (List.zipWith (reduceOne dtype redop) (chunksOf w (a.length / w) a) (chunksOf w (b.length / w) b)).flatten

/-- BF16 data widened exactly to FP32. -/
def widenAll (b : List Byte) : List Byte :=
  (chunksOf 2 (b.length / 2) b).flatMap fun x => leBytes 4 (bf16Widen (BitVec.ofNat 16 (leNat x))).toNat

/-- A chunk in partial format as OUT takes it: BF16 results by one rounding (R384); data that was only moved is what it
was. -/
def narrowAll (reduced : Bool) (b : List Byte) : List Byte :=
  (chunksOf 4 (b.length / 4) b).flatMap fun x =>
    let w := BitVec.ofNat 32 (leNat x)
    leBytes 2 (if reduced then (toBf16 w).toNat else bits w.toNat 31 16)

/-- The buffer of a slot. -/
def State.slotPlace (s : State) (g i : Nat) : Place := s.bufPlace (((s.group g).staging[i]?).getD 0)

/-- Bytes of a slot. -/
def State.slotRead (s : State) (g i n : Nat) : List Byte := s.rdPlace (s.slotPlace g i) 0 n

/-- Writes bytes of a slot. -/
def State.slotWrite (g i off : Nat) (d : List Byte) (s : State) : State := s.wrPlace (s.slotPlace g i) off d

/-- Slots in host memory are read for an operation: an uncorrectable or poisoned response aborts it with DATA_UE (R387); else
the operation goes on. -/
def State.readSlots (g seq : Nat) (slots : List Nat) (n : Nat) (go : State → State) (s : State) : State :=
  let addrs := slots.filterMap fun i => match s.slotPlace g i with
    | .mem a => some a
    | .sram _ => none
  let bad := addrs.any fun a => s.unreadable .request a n
  let s := addrs.foldl (fun s a => (s.dataRead a n).2) s
  if bad then s.abortOp g seq 1 (s.group g).self else go s

/-- OUT of a chunk is written where this member receives it (R383). -/
def State.writeOut (g : Nat) (o : CollOp) (c : Nat) (data : List Byte) (s : State) : State :=
  let d := o.desc
  let e := (s.group g).entry
  if cdOp d = 5 then s
  else s.wr (cdOut d + c * inChunk e d) (if cdType d = 3 then narrowAll (cdUp d) data else data)

/-- The chunk CRC (R386). -/
def chunkCrcOf (g seq c sender phase : Nat) (data : List Byte) : Nat :=
  (crc32c (leBytes 4 g ++ leBytes 4 seq ++ leBytes 4 c ++ leBytes 2 sender ++ leBytes 2 phase ++ data)).toNat

/-- DATA and END answer a PULL (R385, R386). -/
def State.sendChunk (g : Nat) (o : CollOp) (c : Chunk) (phase member : Nat) (s : State) : State :=
  let x := s.group g
  let n := chunkLen x.entry o.desc c.index
  s.readSlots g o.seq c.slot.toList n fun s =>
  let data := s.slotRead g (c.slot.getD 0) n
  let dest := (x.members[member]?).getD 0
  let s := ((chunksOf 4096 (ceilDiv n 4096) data).zipIdx).foldl (fun s y =>
    s.send (s.colPacket g dest 4 (colArg g o.seq c.index y.2 phase) y.1)) s
  s.send (s.colPacket g dest 5 (colArg g o.seq c.index 0 phase)
    (leBytes 8 (chunkCrcOf g o.seq c.index x.self phase data + n * 2 ^ 32 + cdOp o.desc * 2 ^ 53)))

/-- A chunk is ready to be pulled by its parent (phase 0) or its children (phase 1). -/
def Chunk.ready (c : Chunk) (phase : Nat) : Bool := if phase = 0 then c.stage == .up else c.stage == .down

/-- Changes a chunk in work. -/
def CollOp.modChunk (c : Nat) (f : Chunk → Chunk) (o : CollOp) : CollOp :=
  { o with work := o.work.map fun k => if k.index == c then f k else k }

/-- Pulls in the table for a chunk that is now ready are answered (R385), unless the group's context is not RESIDENT
(R422). -/
def State.answerPulls (g seq c : Nat) (s : State) : State :=
  match s.collOp g seq with
  | none => s
  | some o =>
    match o.work.find? fun k => k.index == c with
    | none => s
    | some k =>
      let on := s.ctxResident (grpCtx (s.group g).entry)
      let mine := s.coll.pulls.filter fun p => on && p.group == g && p.seq == seq && p.chunk == c && k.ready p.phase
      let s := { s with coll := { s.coll with pulls := s.coll.pulls.filter fun p => !mine.contains p } }
      mine.foldl (fun s p => s.sendChunk g o k p.phase p.member) s

/-- A chunk of an operation is complete at this member: the progress timer restarts (R388). -/
def State.chunkDone (g seq c : Nat) (s : State) : State :=
  s.modOp g seq fun o => { o with work := o.work.filter (fun k => k.index != c), finished := o.finished + 1 }

/-- A chunk is held for the children, or is complete when there are none. -/
def State.holdDown (g : Nat) (o : CollOp) (c slot : Nat) (s : State) : State :=
  if (s.tree g o.desc c).2.1.isEmpty then (s.dropSlot g slot).chunkDone g o.seq c
  else (s.modOp g o.seq (CollOp.modChunk c fun k => { k with stage := .down, slot := some slot, pull := none })).answerPulls
    g o.seq c

/-- Every child's partial has been added (R383): a member below the root holds its partial for its parent; the root has
the result. -/
def State.gathered (g : Nat) (o : CollOp) (c slot : Nat) (s : State) : State :=
  let (j, kids, _) := s.tree g o.desc c
  match o.work.find? fun k => k.index == c with
  | none => s
  | some k =>
    if k.added < kids.length then s
    else if j ≠ 0 then (s.modOp g o.seq (CollOp.modChunk c fun k => { k with stage := .up })).answerPulls g o.seq c
    else
      let s := s.writeOut g o c (s.slotRead g slot (chunkLen (s.group g).entry o.desc c))
      if cdDown o.desc then s.holdDown g o c slot else (s.dropSlot g slot).chunkDone g o.seq c

/-- This member's own data of a chunk, in partial format. -/
def State.ownData (s : State) (g : Nat) (d : List Byte) (c : Nat) : List Byte :=
  let e := (s.group g).entry
  let b := s.rd (cdIn d + c * inChunk e d) (chunkInLen e d c)
  if cdType d = 3 then widenAll b else b

/-- The next chunk of an operation is begun at this member, in a free slot (R383, R384). A read of IN that is
uncorrectable or poisoned aborts the operation (R387). -/
def State.beginChunk (g : Nat) (o : CollOp) (slot : Nat) (s : State) : State :=
  let c := o.begun
  let d := o.desc
  let e := (s.group g).entry
  let (j, _, _) := s.tree g d c
  let s := s.modOp g o.seq fun o => { o with begun := c + 1 }
  if !cdUp d ∧ j ≠ 0 then s.modOp g o.seq fun o => { o with work := o.work ++ [{ index := c, stage := .await }] }
  else
    let a := cdIn d + c * inChunk e d
    let n := chunkInLen e d c
    let (bad, s) := s.dataRead a n
    if bad then s.abortOp g o.seq 1 (s.group g).self
    else
      let data := s.ownData g d c
      let s := ((s.takeSlot g slot).slotWrite g slot 0 data).modOp g o.seq fun o =>
        { o with work := o.work ++ [{ index := c, stage := .gather, slot := some slot }] }
      match s.collOp g o.seq with
      | none => s
      | some o =>
        if cdUp d then s.gathered g o c slot
        else
          let s := if cdOp d = 3 then s.writeOut g o c data else s
          s.holdDown g o c slot

/-- A chunk of which this member can pull something now: the member to pull from and the phase. -/
def State.wantsPull (s : State) (g : Nat) (o : CollOp) (k : Chunk) : Option (Nat × Nat) :=
  if k.pull.isSome then none
  else
    let (_, kids, par) := s.tree g o.desc k.index
    match k.stage with
    | .gather => (kids[k.added]?).map fun m => (m, 0)
    | .await => some (par, 1)
    | _ => none

/-- PULL goes out (R385). -/
def State.sendPull (g seq c : Nat) (q : PullOut) (s : State) : State :=
  let x := s.group g
  s.send (s.colPacket g ((x.members[q.peer]?).getD 0) 3 (colArg g seq c 0 q.phase) (leBytes 8 x.self))

/-- The work of a group's active operations, in the order of their starting: its chunks in work. -/
def State.groupWork (s : State) (g : Nat) : List (CollOp × Chunk) :=
  (s.coll.ops.filter fun o => o.group == g && o.active && cdOp o.desc != 6).flatMap fun o => o.work.map fun k => (o, k)

/-- The first pull that may go out now. One slot stays for the chunk that stands first. -/
def State.nextPull (s : State) (g : Nat) (free : List Nat) : Option (CollOp × Chunk × Nat × Nat × Nat) :=
  (s.groupWork g).zipIdx.findSome? fun y =>
    match free, s.wantsPull g y.1.1 y.1.2 with
    | i :: rest, some (m, phase) => if y.2 = 0 ∨ !rest.isEmpty then some (y.1.1, y.1.2, i, m, phase) else none
    | _, _ => none

/-- The group issues what it can (R381, R385): pulls of the chunks in work first, then the next chunk of the earliest
operation that has one, while two slots are free. A group whose context is not RESIDENT issues none (R422). -/
def State.pump (g : Nat) : Nat → State → State
  | 0, s => s
  | n + 1, s =>
    let x := s.group g
    let free := (List.range x.staging.length).filter fun i => !x.used.contains i
    if !s.ctxResident (grpCtx x.entry) then s
    else match s.nextPull g free with
      | some (o, k, i, m, phase) =>
        let q : PullOut := { peer := m, slot := i, phase := phase }
        State.pump g n (((s.takeSlot g i).modOp g o.seq (CollOp.modChunk k.index fun k => { k with pull := some q })).sendPull
          g o.seq k.index q)
      | none =>
        let more := s.coll.ops.find? fun o => o.group == g && o.active && cdOp o.desc != 6
          && o.begun < chunkCount x.entry o.desc && o.work.length < x.staging.length
        match free, more with
        | i :: _ :: _, some o => State.pump g n (s.beginChunk g o i)
        | _, _ => s

/-- Steps a group can take at once at most. -/
def pumpFuel : Nat := 512

/-- The group issues what it can. -/
def State.pumpGroup (g : Nat) (s : State) : State := s.pump g pumpFuel

/-! ## The exchange all-reduce (R394) -/

/-- The span neighbours of a step: of Felano dimension STEP - 1, or at 15 the package slices. -/
def State.llPeers (s : State) (step : Nat) : List (Nat × Option Nat) :=
  let inSpan (n : Nat) : Bool := s.fld Reg.COLL_LL 12 1 ≤ nodePkg n && nodePkg n ≤ s.fld Reg.COLL_LL 24 13
  if step = 15 then s.packageMates.map fun m => (s.node / 8 * 8 + m, none)
  else ((s.dimPorts (step - 1)).map fun p => (s.fld (Reg.LINK_FAR p) 22 0, some p)).filter fun y => inSpan y.1

/-- The step after one: the dimensions in ascending order, then the package; 16 is past the last. -/
def nextStep (k : Nat) : Nat := if k < 4 then k + 1 else if k = 4 then 15 else 16

/-- The partial of a step goes to every neighbour of the step; past the last step there is none. -/
def State.llSend (o : CollOp) (s : State) : State :=
  (if 15 < o.step then [] else s.llPeers o.step).foldl (fun s y =>
    let p : Packet := llPacket s.node y.1 6 o.step false o.group o.seq o.count o.part
    match y.2 with
    | some port => s.putLocal port { p with birth := bits s.now 21 6 }
    | none => s.send p) s

/-- Partials of a step, by ascending node. -/
def State.llIn (s : State) (o : CollOp) : List LlrIn :=
  sortBy (fun a b => decide (a.node ≤ b.node))
    (s.coll.llr.filter fun y => y.group == o.group && y.seq == o.seq && y.step == o.step)

/-- Steps of an exchange that are complete are taken; the next one's partial goes out. -/
def State.llRun (g seq : Nat) : Nat → State → State
  | 0, s => s
  | n + 1, s =>
    match s.collOp g seq with
    | none => s
    | some o =>
      let got := s.llIn o
      if 15 < o.step ∨ !((s.llPeers o.step).all fun y => got.any fun x => x.node == y.1) then s
      else
        let mine := got.filter fun x => (s.llPeers o.step).any fun y => y.1 == x.node
        let o := { o with
          part := mine.foldl (fun a x => reduceVec (cdType o.desc) (cdRed o.desc) a x.part) o.part
          count := o.count + sumNat (mine.map (·.count))
          step := nextStep o.step }
        State.llRun g seq n ((s.modOp g seq fun _ => o).llSend o)

/-! ## Starting, completing, aborting -/

/-- An operation's trigger is met (R381). -/
def State.trigMet (s : State) (d : List Byte) : Bool :=
  cdTrig d == 0xFF || cdTrigValue d ≤ s.regNat (Reg.MSEM_SEM (cdTrig d))

/-- The members that dead-slice notices name. -/
def State.deadMembers (s : State) (x : Group) : Nat :=
  (x.members.filter fun m => match indexOfNat m s.res.sources with
    | some i => s.deadNow i
    | none => false).length

/-- The operation sends a chunk to that member in that phase (R383). -/
def State.servesPull (s : State) (o : CollOp) (p : Pull) : Bool :=
  let e := (s.group p.group).entry
  let (j, kids, par) := s.tree p.group o.desc p.chunk
  p.chunk < chunkCount e o.desc && (if p.phase = 0 then cdUp o.desc && j != 0 && par == p.member
    else cdDown o.desc && kids.contains p.member)

/-- COLL_OP_START (R381, R382): the earliest operation of a group that has not started; a pull that waits for a chunk the
operation does not have aborts it with ORDER_BAD. -/
def execCollOpStart (group : Nat) (s : State) : Out :=
  let x := s.group group
  let mine := s.coll.ops.filter fun o => o.group == group
  .next (match mine.find? fun o => !o.active with
    | none => s
    | some o =>
      if x.st ≠ 2 ∨ 4 ≤ (mine.filter (·.active)).length ∨ !s.trigMet o.desc ∨ !s.ctxResident (grpCtx x.entry) then s
      else
        let s := s.modOp group o.seq fun o => { o with active := true }
        match s.coll.pulls.find? fun p => p.group == group && p.seq == o.seq && !s.servesPull o p with
        | some p => (s.abortOp group o.seq 9 p.member).pumpGroup group
        | none =>
        if cdOp o.desc ≠ 6 then s.pumpGroup group
        else
          let n := cdLength o.desc
          let a := cdIn o.desc
          let (bad, s) := s.dataRead a n
          if bad then s.abortOp group o.seq 1 x.self
          else
            let o := { o with active := true, step := 1, part := s.rd a n, count := 1,
                              deadBefore := s.deadMembers x }
            ((s.modOp group o.seq fun _ => o).llSend o).llRun group o.seq 6)

/-- Every chunk of an operation is complete at this member. -/
def State.allChunks (s : State) (o : CollOp) : Bool :=
  o.active && o.work.isEmpty && o.finished == chunkCount (s.group o.group).entry o.desc

/-- COLL_OP_COMPLETE (R381, R394). -/
def execCollOpComplete (group seq : Nat) (s : State) : Out :=
  .next (match s.collOp group seq with
    | none => s
    | some o =>
      if cdOp o.desc = 6 then
        if o.step ≠ 16 then s
        else
          let x := s.group group
          let whole := o.count == grpCount x.entry - o.deadBefore
          let s := s.endOp group seq (if whole then 0 else 10) [.bytes (cdOut o.desc) o.part]
          if whole then s else s.collFault 0xB8 group seq 10 x.self
      else if s.allChunks o then (s.endOp group seq 0 []).pumpGroup group else s)

/-- A sequence number of a group that no descriptor has taken yet. -/
def seqAhead (next seq : Nat) : Bool := (seq + 2 ^ 16 - next) % 2 ^ 16 < 2 ^ 15

/-- Pulls that the table holds (R385). -/
def pullLimit : Nat := 8192

/-- A PULL waits in the table, or is answered RETRY (R385). -/
def State.holdPull (p : Pull) (dest : Nat) (s : State) : State :=
  if pullLimit ≤ s.coll.pulls.length then
    (s.send (s.colPacket p.group dest 7 (colArg p.group p.seq p.chunk 0 p.phase) [])).tallyAdd Pg.COLL 13 1
  else
    let s := { s with coll := { s.coll with pulls := s.coll.pulls ++ [p] } }
    s.tallyMax Pg.COLL 15 s.coll.pulls.length

/-- PULL_RECEIVE (R382, R385, R422). -/
def execPullReceive (p : Arrived) (s : State) : Out :=
  .next (s.withGroup p fun s =>
    let g := caGroup p.arg
    let x := s.group g
    let q : Pull := ⟨g, caSeq p.arg, caChunk p.arg, caPhase p.arg, bits (fieldAt p.payload 0 8) 14 0⟩
    if x.st = 3 ∨ x.st = 4 ∨ x.members[q.member]? ≠ some p.src then s
    else match s.collOp g q.seq with
      | none => if x.st = 1 ∨ seqAhead x.nextSeq q.seq then s.holdPull q p.src else s
      | some o =>
        if !o.active then s.holdPull q p.src
        else if !s.servesPull o q then s.abortOp g q.seq 9 q.member
        else match o.work.find? fun k => k.index == q.chunk && k.ready q.phase with
          | some k => if s.ctxResident (grpCtx x.entry) then s.sendChunk g o k q.phase q.member else s.holdPull q p.src
          | none => s.holdPull q p.src)

/-- A checked chunk is released (R383, R384, R386): a partial to the adder, a chunk coming down to OUT. -/
def State.releaseChunk (g : Nat) (o : CollOp) (k : Chunk) (q : PullOut) (s : State) : State :=
  let e := (s.group g).entry
  let n := chunkLen e o.desc k.index
  let data := s.slotRead g q.slot n
  match k.slot with
  | some a =>
    let acc := reduceVec (cdType o.desc) (cdRed o.desc) (s.slotRead g a n) data
    let s := (s.slotWrite g a 0 acc).dropSlot g q.slot
    let s := s.modOp g o.seq (CollOp.modChunk k.index fun k => { k with pull := none, added := k.added + 1 })
    match s.collOp g o.seq with
    | some o => s.gathered g o k.index a
    | none => s
  | none =>
    let s := if cdOp o.desc = 4 ∧ (s.tree g o.desc k.index).1 = 0 then s else s.writeOut g o k.index data
    s.holdDown g o k.index q.slot

/-- All of a chunk has arrived (R382, R386). -/
def State.checkChunk (g seq : Nat) (o : CollOp) (k : Chunk) (q : PullOut) (s : State) : State :=
  let x := s.group g
  match q.endSeen with
  | none => s
  | some (crc, n, op) =>
    if op ≠ cdOp o.desc ∨ n ≠ chunkLen x.entry o.desc k.index then s.abortOp g seq 9 q.peer
    else if q.bytes < n then s
    else s.readSlots g seq (q.slot :: k.slot.toList) n fun s =>
    if chunkCrcOf g seq k.index q.peer q.phase (s.slotRead g q.slot n) ≠ crc then
      let s := (s.tallyAdd Pg.COLL 12 1).collFault 0xB5 g seq 0 q.peer
      if 2 ≤ q.fails then (s.abortOp g seq 2 q.peer).safe0 5 0xB5 0 .calico
      else
        let q : PullOut := { peer := q.peer, slot := q.slot, phase := q.phase, fails := q.fails + 1 }
        (s.modOp g seq (CollOp.modChunk k.index fun k => { k with pull := some q })).sendPull g seq k.index q
    else
      let s := (s.tallyAdd Pg.COLL 11 1).lifeAdd 10 (units256 n)
      let s := s.send (s.colPacket g ((x.members[q.peer]?).getD 0) 6 (colArg g seq k.index 0 q.phase) (leBytes 8 x.self))
      (s.releaseChunk g o k q).pumpGroup g

/-- The pull that a DATA, END or RETRY packet answers. -/
def State.pullFor (s : State) (p : Arrived) : Option (CollOp × Chunk × PullOut) :=
  let g := caGroup p.arg
  match s.collOp g (caSeq p.arg) with
  | none => none
  | some o => (o.work.find? fun k => k.index == caChunk p.arg).bind fun k =>
      k.pull.bind fun q =>
        if q.phase = caPhase p.arg ∧ (s.group g).members[q.peer]? = some p.src then some (o, k, q) else none

/-- A pull takes what arrived, and the chunk is checked when it is whole. -/
def State.pullTakes (p : Arrived) (f : PullOut → PullOut) (s : State) : State :=
  match s.pullFor p with
  | none => s
  | some (o, k, q) =>
    let q := f q
    let s := s.modOp o.group o.seq (CollOp.modChunk k.index fun k => { k with pull := some q })
    s.checkChunk o.group o.seq o k q

/-- DATA_RECEIVE (R386): the bytes land in the reserved slot. -/
def execDataReceive (p : Arrived) (s : State) : Out :=
  .next (s.withGroup p fun s =>
    match s.pullFor p with
    | none => s
    | some (_, _, q) =>
      let g := caGroup p.arg
      let off := caIndex p.arg * 4096
      if q.packets.contains (caIndex p.arg) ∨ 2 ^ grpLog2 (s.group g).entry < off + p.payload.length then s
      else (s.slotWrite g q.slot off p.payload).pullTakes p fun q =>
        { q with packets := caIndex p.arg :: q.packets, bytes := q.bytes + p.payload.length })

/-- END_RECEIVE (R382, R386). -/
def execEndReceive (p : Arrived) (s : State) : Out :=
  let w := fieldAt p.payload 0 8
  .next (s.withGroup p fun s => s.pullTakes p fun q => { q with endSeen := some (bits w 31 0, bits w 52 32, bits w 55 53) })

/-- The parent has the partial of a chunk: its slot is free, and the chunk is awaited from above where one comes. -/
def State.upAcked (g : Nat) (o : CollOp) (k : Chunk) (s : State) : State :=
  let s := k.slot.toList.foldl (fun s i => s.dropSlot g i) s
  if cdDown o.desc then s.modOp g o.seq (CollOp.modChunk k.index fun k => { k with stage := .await, slot := none })
  else s.chunkDone g o.seq k.index

/-- A child has the chunk; after the last child the slot is free and the chunk complete. -/
def State.downAcked (g : Nat) (o : CollOp) (k : Chunk) (member : Nat) (s : State) : State :=
  let acks := (member :: k.acks).eraseDups
  if (s.tree g o.desc k.index).2.1.all acks.contains then
    (k.slot.toList.foldl (fun s i => s.dropSlot g i) s).chunkDone g o.seq k.index
  else s.modOp g o.seq (CollOp.modChunk k.index fun k => { k with acks := acks })

/-- COLL_ACK_RECEIVE (R386). -/
def execCollAckReceive (p : Arrived) (s : State) : Out :=
  .next (s.withGroup p fun s =>
    let g := caGroup p.arg
    let m := bits (fieldAt p.payload 0 8) 14 0
    match s.collOp g (caSeq p.arg) with
    | none => s
    | some o =>
      match o.work.find? fun k => k.index == caChunk p.arg && k.ready (caPhase p.arg) with
      | none => s
      | some k =>
        let (_, kids, par) := s.tree g o.desc k.index
        if (s.group g).members[m]? ≠ some p.src then s
        else if caPhase p.arg = 0 then if par = m then (s.upAcked g o k).pumpGroup g else s
        else if kids.contains m then (s.downAcked g o k m).pumpGroup g else s)

/-- RETRY_RECEIVE (R385): the pull is held back for 1 µs. -/
def execRetryReceive (p : Arrived) (s : State) : Out :=
  .next (s.withGroup p fun s =>
    match s.pullFor p with
    | none => s
    | some (o, k, q) =>
      s.modOp o.group o.seq (CollOp.modChunk k.index fun k => { k with pull := some { q with retry := true } }))

/-- PULL_RETRY (R385): 1 µs later the PULL goes out again. A group whose context is not RESIDENT sends none (R422). -/
def execPullRetry (group seq chunk : Nat) (s : State) : Out :=
  .next (match s.collOp group seq with
    | none => s
    | some o =>
      match (o.work.find? fun k => k.index == chunk).bind (·.pull) with
      | none => s
      | some q =>
        if !q.retry ∨ !s.ctxResident (grpCtx (s.group group).entry) then s
        else
          let q := { q with retry := false }
          (s.modOp group seq (CollOp.modChunk chunk fun k => { k with pull := some q })).sendPull group seq chunk q)

/-- ABORT_RECEIVE (R387). An ABORT of an operation whose descriptor is still to come is kept for it. -/
def execAbortReceive (p : Arrived) (s : State) : Out :=
  .next (s.withGroup p fun s =>
    let g := caGroup p.arg
    let seq := caSeq p.arg
    let x := s.group g
    let status := bits (fieldAt p.payload 0 8) 7 0
    if !x.members.contains p.src then s
    else match s.collOp g seq with
      | some _ => (s.endOp g seq status []).pumpGroup g
      | none =>
        if !seqAhead x.nextSeq seq ∨ s.coll.aborted.any fun y => y.1 == g && y.2.1 == seq then s
        else { s with coll := { s.coll with aborted := s.coll.aborted ++ [(g, seq, status)] } })

/-- COLL_PROGRESS_TIMEOUT (R388). -/
def execCollProgressTimeout (group seq : Nat) (s : State) : Out :=
  .next (match s.collOp group seq with
    | none => s.lateMargin
    | some o =>
      if !o.active then s
      else ((s.collFault 0xB7 group seq 3 (s.group group).self).abortOp group seq 3 (s.group group).self).pumpGroup group)

/-! ## Dead slices -/

/-- A group with a dead member turns BROKEN; its active operations abort, and those that have not started end NOT_READY
(R379, R388). -/
def State.breakGroup (node g : Nat) (s : State) : State :=
  let x := s.group g
  if x.st ≠ 2 ∨ !x.members.contains node then s
  else
    let m := x.members.idxOf node
    let ops := s.coll.ops.filter fun o => o.group == g
    let s := ops.foldl (fun s o => if o.active then s.abortOp g o.seq 4 m else s.endOp g o.seq 7 []) s
    s.setGroup g { s.group g with st := 4, code := 0xB6 }

/-- Collectives take a dead-slice notice. -/
def State.collDead (source : Nat) (s : State) : State :=
  match s.res.sources[source]? with
  | none => s
  | some node => (s.coll.groups.map (·.1)).foldl (fun s g => s.breakGroup node g) s

/-- The whole of a dead-slice notice on this slice (R265 to R267, R379, R388). -/
def State.deadSeen (source m : Nat) (s : State) : State :=
  if s.deadNow source then s.deadNotice source m else (s.deadNotice source m).collDead source

/-- DEAD_NOTICE_RECEIVE (R265 to R267, R379, R388). -/
def execDeadNoticeReceive (source rehomeBell : Nat) (s : State) : Out := .next (s.deadSeen source rehomeBell)

/-- DEAD_NOTICE_SEND (R265, R461, R462): the lead floods the notice for a dead slice of its package, and acts on it. -/
def execDeadNoticeSend (slice : Nat) (s : State) : Out :=
  let node := s.node / 8 * 8 + slice % 8
  match indexOfNat node s.res.sources with
  | none => .next s
  | some i =>
    if !s.isLead || s.deadNow i then .next s
    else
      let m := s.rehomeBell
      .next ((s.flood 4 (deadPayload i m)).deadSeen i m)

/-! ## Teardown of a job (R373, R388) -/

/-- The operations of the groups of a condition end TEARDOWN without ABORT. -/
def State.tearOps (f : Group → Bool) (s : State) : State :=
  (s.coll.ops.filter fun o => f (s.group o.group)).foldl (fun s o => s.endOp o.group o.seq 8 []) s

/-- The sequences of a set of contexts that are not FREE. -/
def State.seqsOf (s : State) (ctxs : List Nat) : List Nat :=
  (s.seqs.filter fun p => p.2.state != 0 && ctxs.contains p.2.ctx).map (·.1)

/-- MSEM_TEARDOWN (R373). -/
def State.jobTeardown (v : W64) (s : State) : State :=
  s.gated Reg.MSEM_TEARDOWN v fun s =>
    let job := bits v.toNat 15 0
    let ctxs := if job = s.fld Reg.CTX_MODEL 15 0 then [0, 1, 2, 3]
      else (s.ctx.ctxs.filter fun c => c.2.st != 0 && c.2.job == job).map (·.1)
    let s := (s.tearJob job).tearOps fun x => grpJob x.entry == job
    (s.failSeqs 5 0xFF (s.seqsOf ctxs)).tornJob job

/-- The command of that write. -/
def execJobTeardown (v : W64) (s : State) : Out := .next (s.jobTeardown v)

/-! ## The low-latency path -/

/-- A TIME flood from step `k` (R391, R392): every sender adds half of the round trip of the port it uses to the path
delay. -/
def State.timeFrom (k time delay : Nat) (s : State) : State :=
  if k = 15 ∨ !s.bit Reg.COLL_LL 0 then s
  else
    let inSpan (n : Nat) : Bool := s.fld Reg.COLL_LL 12 1 ≤ nodePkg n && nodePkg n ≤ s.fld Reg.COLL_LL 24 13
    let body (d : Nat) : List Byte := pad8 (leBytes 8 time ++ leBytes 4 d)
    let s := (List.range 4).foldl (fun s d =>
      if d + 1 ≤ k then s
      else (s.dimPorts d).foldl (fun s p =>
        let n := s.fld (Reg.LINK_FAR p) 22 0
        let half := s.fld (Reg.LINK_STAT p) 31 20 / 2
        if inSpan n then s.putLocal p (s.floodPacket n 2 (d + 1) (body (delay + half))) else s) s) s
    s.packageMates.foldl (fun s m => s.send (s.floodPacket (s.node / 8 * 8 + m) 2 15 (body delay))) s

/-- An offset above 20 ns is recorded, at most once per bell (R508). -/
def State.offsetHigh (off : Int) (s : State) : State := if 20 < off.natAbs then s.recordOnce Pg.TIME 0xF3 0 else s

/-- A lead's time base steps (R392, R507, R508). -/
def State.timeStep (t : Nat) (s : State) : State :=
  if t = s.now then s else (({ s with now := t, start := { s.start with slew := 0 } } : State).record Pg.TIME 0xF2 0)

/-- TIME_RECEIVE (R392): the flood goes on; a lead slice slews toward time + path delay, or steps before the first
PBELL_GO. The count never moves backward. -/
def execTimeReceive (p : Arrived) (s : State) : Out :=
  let a := p.arg.toNat
  let time := fieldAt p.payload 0 8
  let delay := fieldAt p.payload 8 4
  let s := if bits a 7 4 ≠ 15 ∧ s.bit Reg.COLL_LL 0 then (s.timeFrom (bits a 7 4) time delay).tallyAdd Pg.COLL 16 1 else s
  if !s.isLead then .next s
  else
    let off : Int := (time : Int) + (delay : Int) - (s.now : Int)
    let step := !s.bell.everGo
    let v := (BitVec.ofInt 32 off).toNat + delay % 2 ^ 16 * 2 ^ 32 + b2n (!step && off != 0) * 2 ^ 48 + 2 ^ 49
    let s := s.setReg Reg.TIME_MASTER (BitVec.ofNat 64 v)
    let s := s.offsetHigh off
    .next (if step then s.timeStep (max s.now (time + delay)) else { s with start := { s.start with slew := off } })

/-- The pairs of a LOAD message (R393). -/
def loadPairs (b : List Byte) : List (Nat × Nat) :=
  (List.range (b.length / 4)).map fun i => (bits (fieldAt b (4 * i) 4) 14 0, bits (fieldAt b (4 * i) 4) 31 15)

/-- LOAD_RECEIVE (R393): the global tally table takes the counts. -/
def execLoadReceive (p : Arrived) (s : State) : Out :=
  .next { s with res := { s.res with
    global := (loadPairs p.payload).foldl (fun t x => tSet zeroNat x.1 x.2 t) s.res.global } }

/-- LLR_RECEIVE (R394): a second partial from the same sender for the same step is discarded. -/
def execLlrReceive (p : Arrived) (s : State) : Out :=
  let a := p.arg.toNat
  let g := bits a 20 9
  let x : LlrIn := ⟨g, bits a 36 21, bits a 7 4, p.src, bits a 52 37, p.payload⟩
  let y := s.group g
  .next (if y.st = 0 then s.colStale
    else if s.coll.llr.any fun z => z.group == g && z.seq == x.seq && z.step == x.step && z.node == x.node then s
    else
      let known := (s.collOp g x.seq).isSome || seqAhead y.nextSeq x.seq
      let late := match s.collOp g x.seq with
        | some o => o.active && decide (x.step < o.step)
        | none => false
      if !known || late then s
      else
        let s := { s with coll := { s.coll with llr := s.coll.llr ++ [x] } }
        match s.collOp g x.seq with
        | some o => if o.active then s.llRun g x.seq 6 else s
        | none => s)

/-! ## What the registers show -/

/-- COLL_GSTAT: the group last named (R395). -/
def State.gstatView (s : State) : W64 :=
  let g := s.fld Reg.COLL_GSTAT 11 0
  let x := s.group g
  BitVec.ofNat 64 (g + x.st * 2 ^ 12 + x.code * 2 ^ 16 + x.self * 2 ^ 24
    + (s.coll.ops.filter fun o => o.group == g && o.active).length * 2 ^ 40)

/-- COLL_WAIT: the oldest descriptor that waits on its trigger (R381). -/
def State.waitView (s : State) : W64 :=
  match s.coll.ops.find? fun o => !o.active && !s.trigMet o.desc with
  | some o => BitVec.ofNat 64 (o.ring + 2 ^ 32)
  | none => 0#64

/-- This slice is the time master: the lead of the lowest-numbered live package of the span (R392). -/
def State.timeMaster (s : State) : Bool :=
  s.bit Reg.COLL_LL 0 && s.isLead && s.spanLive.all fun n => nodePkg s.node ≤ nodePkg n

/-- COLL_LL_STAT (R395). -/
def State.llStatView (s : State) : W64 := BitVec.ofNat 64 (s.spanLive.length % 2 ^ 16 + b2n s.timeMaster * 2 ^ 16)

end Sys2Proof.Machine
end

