-- ==== Sys2Proof/Machine/Fetch.lean ====
section
/-! DEFINITION. The residency planner at work (R249 to R258, R261 to R264): the order of fetches, eviction, the start and
end of a fetch, hint lists. -/
namespace Sys2Proof.Machine

/-! ## Order (R257) -/

/-- Cyclic distance of a layer from a planning point. -/
def State.layerDist (s : State) (point l : Nat) : Nat := let n := max 1 s.layers; (l + n - point % n) % n

/-- The fields of a hint entry (R258). -/
def hintExpert (h : Nat) : Nat := bits h 14 0
def hintNames (h e l : Nat) : Bool := hintExpert h == e && (bits h 15 15 == 1 || bits h 23 16 == l)
def hintAction (h : Nat) : Nat := bits h 26 24

/-- An entry of a hint list that is skipped whatever it names: a reserved bit, or an action without a meaning. -/
def hintBad (h : Nat) : Bool := bits h 63 27 != 0 || hintAction h == 0 || decide (4 < hintAction h)

/-- The place of a block in the current hint list, beyond its end when it is not named; an entry that is skipped names
none. -/
def State.hintPlace (s : State) (e l : Nat) : Nat :=
  (((s.res.hints.zipIdx).find? fun x => !hintBad x.1 && hintNames x.1 e l).map (·.2)).getD 256

/-- The first of two fetches to start (R257). -/
def State.fetchBefore (s : State) (a b : Fetch) : Bool :=
  let key (f : Fetch) : List Nat :=
    [1 - b2n f.heldFirst, s.hintPlace f.expert f.layer, s.layerDist f.point f.layer, 1 - b2n (dOpen (s.dirNow f.expert)),
     2 ^ 40 - s.loadOf f.expert, f.expert]
  decide (key a < key b)

/-- Blocks that may be evicted for an owner: unpinned, outside the protected layers, not in use. -/
def State.evictable (s : State) (c : Nat) : List (Nat × Block) :=
  s.t1Blocks.filter fun x => x.2.st == 2 && !x.2.pin && s.owner (keyExpert x.1) == c
    && !s.protectedLayer (keyLayerOf x.1) && !s.blockInUse (keyExpert x.1) (keyLayerOf x.1)

/-- The block evicted first: lowest load, then greatest layer distance, then highest expert (R257). -/
def State.evictBefore (s : State) (point : Nat) (a b : Nat × Block) : Bool :=
  let key (x : Nat × Block) : List Nat :=
    [s.loadOf (keyExpert x.1), 256 - s.layerDist point (keyLayerOf x.1), 2 ^ 15 - keyExpert x.1]
  decide (key a < key b)

/-- A block leaves tiers 0 and 1; work that waits for tiles of it is held again (R261). -/
def State.evict (k : Nat) (s : State) : State :=
  (({ s with res := { s.res with blocks := tDel k s.res.blocks } } : State).tallyAdd Pg.RES 4 1).holdUnits (keyExpert k)
    (keyLayerOf k)

/-- Room for a block of `n` bytes of an owner, evicting as far as that is allowed (R257): its place. -/
def State.makeRoom (c n point : Nat) : Nat → State → Option Nat × State
  | 0, s => (none, s)
  | fuel + 1, s =>
    let room := if s.t1Held c + n ≤ s.t1Quota c then s.placeT1 n else none
    match room with
    | some a => (some a, s)
    | none =>
      match (sortBy (s.evictBefore point) (s.evictable c)).head? with
      | some x => (s.evict x.1).makeRoom c n point fuel
      | none => (none, s)

/-! ## Starting a fetch -/

/-- The source of a fetch, in the order of R252: the first site of an open stall in this package, POOL_ADDR, MIRROR_ADDR;
and the mirror's block where there is one. -/
def State.fetchSource (s : State) (e l : Nat) : Option (Nat × Option Nat) :=
  let d := s.desc e
  let ent := s.dirNow e
  let src := s.res.sources
  let off := l * dscBytes d
  let dead (a : Nat) : Bool := (indexOfNat (faNode a) src).any s.deadNow
  let near := if dOpen ent ∧ dscPool d ≠ 0 then
      ((dSiteList ent).find? fun i => nodePkgDom (nodeAt src i) == nodePkgDom s.node).filter fun i => !s.deadNow i
    else none
  let alt := if dscMirror d = 0 then none else some (dscMirror d + off)
  match near with
  | some i => some (nodeAt src i * 2 ^ 41 + faOffset (dscPool d) + off, alt)
  | none =>
    if dscPool d ≠ 0 ∧ !dead (dscPool d) ∧ !s.res.mirrorFirst.contains e then some (dscPool d + off, alt)
    else alt.map fun m => (m, some m)

/-- A fetch of the queue is no longer wanted: its block is not ABSENT, or the expert is not hosted. -/
def State.fetchStale (s : State) (f : Fetch) : Bool :=
  s.blockState f.expert f.layer != 0 || !(s.hosted.contains f.expert || s.stillUsed f.expert) || s.layers ≤ f.layer

/-- A fetch leaves the queue. -/
def State.unqueue (f : Fetch) (s : State) : State :=
  { s with res := { s.res with queue := s.res.queue.filter fun g => !(g.expert == f.expert && g.layer == f.layer) } }

/-- The copy of a fetch starts: the block is FETCHING (R252). A fetch without a source has a dead target (R264). -/
def State.startFetch (f : Fetch) (a : Nat) (s : State) : State :=
  let n := dscBytes (s.desc f.expert)
  let c := s.owner f.expert
  let s := (s.unqueue f).setBlock f.expert f.layer { st := 1, addr := a }
  let s := { s with res := { s.res with t2used := tSet zeroNat c (tGet zeroNat c s.res.t2used + n) s.res.t2used } }
  match s.fetchSource f.expert f.layer with
  | some (src, alt) =>
    s.addCopy { id := 0, unit := 10, job := s.fld Reg.CTX_MODEL 15 0, src := src, dst := a, dstHost := true, len := n,
                prio := 3, alt := alt, fromMirror := alt == some src, a := f.expert, b := f.layer }
  | none => ((s.resFault 0x75 f.expert f.layer).raise Pg.RES).escalate 1 (faNode (dscPool (s.desc f.expert))) (s.fld Reg.CTX_MODEL 15 0)

/-- The first fetch in order that the quotas let start, starts, while the porter has room for a copy (R250, R257, R367). -/
def State.tryFetches : List Fetch → State → State
  | [], s => s
  | f :: t, s =>
    if s.fetchStale f then (s.unqueue f).tryFetches t
    else if copyLimit ≤ s.inFlight then s
    else
      let c := s.owner f.expert
      let n := dscBytes (s.desc f.expert)
      if s.t2Quota c < tGet zeroNat c s.res.t2used + n then s.tryFetches t
      else
        let (room, s) := s.makeRoom c n f.point (s.res.blocks.length + 1)
        match room with
        | some a => s.startFetch f a
        | none => (s.tallyAdd Pg.RES 7 1).tryFetches t

/-- RESIDENCY_FETCH_START (R247, R250, R252, R257). -/
def execResidencyFetchStart (s : State) : Out :=
  let s := s.pruneUndo.dropUnhosted
  .next (s.tryFetches (sortBy s.fetchBefore s.res.queue))

/-! ## The end of a fetch -/

/-- A half has a round of a layer of a bell still to start: the bell's set waits behind another, or it is at work below
the layer. -/
def HalfSt.ahead (h : HalfSt) (bell l : Nat) : Bool :=
  match h.sets with
  | a :: t => t.any (·.bell == bell) || (a.bell == bell && match h.cur with
    | some r => decide (r.layer < l)
    | none => decide (h.heldLayer.getD h.expected ≤ l))
  | [] => false

/-- A round of a layer may still start in a bell at this slice (R259): the Scales have not sampled the bell's tokens yet, or
one of the halves has not passed the layer, be it after the open of a later bell (R86). -/
def State.layerAhead (s : State) (bell l : Nat) : Bool :=
  (bell == s.bellNo && !s.bell.scalesDone) || s.cal.ahead bell l || s.mus.ahead bell l

/-- The bells whose planning point of a layer is past and whose last round of it has not started (R259). -/
def State.bellsAhead (s : State) (l : Nat) : List Nat :=
  ((s.res.planned.filter fun p => p % 256 == l).map (· / 256)).filter fun b => s.layerAhead b l

/-- The block has arrived whole: RESIDENT; the work held for it is ready, and pins, promotion and readiness follow (R252,
R259, R261). -/
def State.blockArrives (c : Copy) (s : State) : State :=
  let b := s.block c.a c.b
  let s := s.setBlock c.a c.b { b with st := 2 }
  let s := ((s.tallyAdd Pg.RES 0 1).tallyAdd Pg.RES 2 (units64 c.len)).releaseUnits c.a c.b
  let s := (s.takePin c.a c.b).promote
  (s.bellsAhead c.b).foldl (fun s bell => s.sendReady bell c.b c.a) s

/-- RESIDENCY_FETCH_DONE (R252, R263, R264): the copy of a block is over. Whole, the block is RESIDENT; unreadable, it is
FAILED; with a dead target it stays FETCHING; torn down with its job, it is ABSENT again. -/
def execResidencyFetchDone (expert layer : Nat) (s : State) : Out :=
  match s.porter.copies.find? fun c => c.unit == 10 && c.a == expert && c.b == layer && c.ended with
  | none => .next s
  | some c =>
    let s := ({ s with porter := { s.porter with copies := s.porter.copies.filter fun d => d.id != c.id } } : State).showPorter
    if (s.block expert layer).st ≠ 1 then .next s
    else if c.status = 0 then .next (s.blockArrives c)
    else if c.status = 6 then .next (s.failBlock expert layer)
    else if c.status = 17 then .next (s.setBlock expert layer {})
    else .next s

/-! ## Bell open (R250, R254, R256, R258) -/

/-- A hint entry that is handled: hosted expert, no reserved bit, and for EVICT a block neither protected nor in use. -/
def State.hintOne (h : Nat) (s : State) : State :=
  let e := hintExpert h
  let skip := s.tallyAdd Pg.RES 8 1
  let ls := if bits h 15 15 = 1 then List.range s.layers else [bits h 23 16]
  if hintBad h ∨ !s.hosted.contains e then skip
  else match hintAction h with
    | 1 =>
      let add := (ls.filter fun l => l < s.layers && s.blockState e l == 0 && !s.fetchQueued e l).map
        fun l => (⟨e, l, 0, false⟩ : Fetch)
      { s with res := { s.res with queue := s.res.queue ++ add } }
    | 2 => ls.foldl (fun s l =>
        ({ s with res := { s.res with pins := tPut (blockKey e l) true s.res.pins } } : State).takePin e l) s
    | 3 => ls.foldl (fun s l =>
        let s := { s with res := { s.res with pins := tPut (blockKey e l) false s.res.pins } }
        if (s.block e l).pin then s.setBlock e l { s.block e l with pin := false } else s) s
    | _ => ls.foldl (fun s l =>
        if s.protectedLayer l ∨ s.blockInUse e l then s.tallyAdd Pg.RES 8 1
        else if (s.block e l).st = 2 then s.evict (blockKey e l) else s) s

/-- A posted hint list is read (R258). -/
def State.readHints (s : State) : State :=
  match s.res.hintPost with
  | none => s
  | some (base, n) =>
    let hs := words64 n (s.rd base (8 * n))
    let s := (s.noteUe base (8 * n))
    let s := { s with res := { s.res with hintPost := none, hints := if s.poisoned base (8 * n) then [] else hs } }
    s.res.hints.foldl (fun s h => s.hintOne h) s

/-- The planner at a bell open: load tallies are latched, FAILED blocks go back to ABSENT, the tier 2 quota starts
again, hints are read, and the planning point of layer 0 is reached. -/
def State.plannerAtOpen (bell : Nat) (s : State) : State :=
  let s := { s with res := { s.res with
    latched := s.res.loads, loads := [], t2used := []
    blocks := s.res.blocks.filter fun x => x.2.st != 3
    planned := s.res.planned.filter fun p => bell ≤ p / 256 + 4 } }
  ((s.readHints).planPoint bell 0).promote

end Sys2Proof.Machine
end

