-- ==== Sys2Proof/Config.lean ====
section
/-! DEFINITION. The values the manual leaves open: constants without a body, so that nothing can be proved of their
values. Each is applied to the index that the state counts up (State.free) or to what the value depends on. -/
namespace Sys2Proof.Config

/-- One byte the manual leaves open, by its index (notes/assumptions/31.md to 34.md). -/
opaque freeByte : Nat → Byte

end Sys2Proof.Config
end

