-- ==== Sys2Proof/Machine/Score.lean ====
section
/-! DEFINITION. Scoring (R116 to R152, R443 to R445): the three stages of a token, token errors, the key banks, shadow
scoring and the tile tests, and the checks of the layer scoring and selection tables. -/
namespace Sys2Proof.Machine

/-! ## Rows -/

/-- Little-endian BF16 elements, widened. -/
def bf16List : List Byte → List F32
  | lo :: hi :: t => bf16Widen (hi ++ lo) :: bf16List t
  | _ => []

/-- E2M1 elements, two to a byte, the lower bits first (R120). -/
def e2m1List (b : List Byte) : List F32 :=
  b.flatMap fun x => [Elem.e2m1.decode (bits x.toNat 3 0), Elem.e2m1.decode (bits x.toNat 7 4)]

/-- The element values of a format code (R134). -/
def elemList (f : Nat) (b : List Byte) : List F32 :=
  if f = 4 then bf16List b
  else if f = 5 then e2m1List b
  else b.map fun x => (if f = 1 ∨ f = 3 then Elem.e5m2 else Elem.e4m3).decode x.toNat

/-- Row `r` of an image of `n` rows of length `len` (R135), read by `rd offset count`. -/
def imageRow (f n len : Nat) (rd : Nat → Nat → List Byte) (r : Nat) : Row :=
  let eb := len * fmtBytes2 f / 2
  ⟨elemList f (rd (r * eb) eb),
   if fmtMx f then some ((rd (n * eb + r * (len / 32)) (len / 32)).map (·.toNat)) else none⟩

/-- A query converted for a stage by a format code (R129, R130). -/
def queryRow (f : Nat) (q : List F32) : Row :=
  if f = 4 then bf16Row q else mxRow (if f = 5 then .e2m1 else if f = 3 then .e5m2 else .e4m3) q

/-- The index of the first value that is a NaN or an infinity. -/
def firstBadScore (xs : List F32) : Option Nat := (xs.zipIdx.find? fun p => !fFinite p.1).map (·.2)

/-! ## One token (R128 to R132) -/

/-- What scoring makes of a token: its candidates, or the cause and index of its token error. -/
structure ScoreResult where
  cands : List (Nat × F32) := []
  cause : Nat := 0
  index : Nat := 0

/-- The query (R128): the input vector against the projection rows. -/
def queryOf (x : ScoreEnt) (d : Nat) (proj : Nat → Nat → List Byte) (vec : List F32) : List F32 :=
  let inp : Row := if x.pfmt = 4 then ⟨vec, none⟩ else mxRow .e4m3 vec
  (List.range x.dkey).map fun j => dot inp (imageRow x.pfmt x.dkey d proj j) x.pscale

/-- The centroid scores (R129), from the centroid image of the bank. -/
def centroidScores (x : ScoreEnt) (cent : Nat → Nat → List Byte) (q : List F32) : List F32 :=
  let inp := queryRow (if x.cfmt = 5 then 5 else x.qfmt) q
  (List.range x.groups).map fun g => dot inp (imageRow x.cfmt x.groups x.dkey cent g) x.cscale

/-- The kept groups (R129), in ascending group index. -/
def keptGroups (n : Nat) (cs : List F32) : List Nat :=
  let best := (sortBy (fun (a b : F32 × Nat) => fLt b.1 a.1 || (fEq a.1 b.1 && a.2 < b.2)) cs.zipIdx).take n
  sortBy (fun a b => decide (a < b)) (best.map (·.2))

/-- The experts of the kept groups, ascending (R131). -/
def keptExperts (groups : List (Nat × Nat)) (kept : List Nat) : List Nat :=
  kept.flatMap fun g =>
    match groups[g]? with
    | some (f, n) => (List.range n).map (f + ·)
    | none => []

/-- Raw scores of experts (R130), from the key image of the bank. -/
def keyScores (x : ScoreEnt) (e : Nat) (keys : Nat → Nat → List Byte) (q : List F32) (ids : List Nat) : List (Nat × F32) :=
  let inp := queryRow x.qfmt q
  ids.map fun i => (i, dot inp (imageRow x.kfmt e x.dkey keys i) x.kscale)

/-- The offsets of the centroid image and the group table in a bank image (R137). -/
def centOff (x : ScoreEnt) (e : Nat) : Nat := imageBytes x.kfmt e x.dkey
def groupOff (x : ScoreEnt) (e : Nat) : Nat := centOff x e + imageBytes x.cfmt x.groups x.dkey

/-- Reads from a bank image. -/
def imgRead (img : List Byte) (base off n : Nat) : List Byte := (img.drop (base + off)).take n

/-- The key stage: candidates, or the lowest expert with a non-finite raw score (R132). -/
def keyStage (x : ScoreEnt) (e : Nat) (img : List Byte) (q : List F32) (ids : List Nat) : ScoreResult :=
  let raws := keyScores x e (imgRead img 0) q ids
  match raws.find? fun p => !fFinite p.2 with
  | some p => { cause := 4, index := p.1 }
  | none => { cands := raws }

/-- The stages after projection (R129 to R132). -/
def lateStages (x : ScoreEnt) (e : Nat) (img : List Byte) (q : List F32) : ScoreResult :=
  if !x.shortlist then keyStage x e img q (List.range e)
  else
    let cs := centroidScores x (imgRead img (centOff x e)) q
    match firstBadScore cs with
    | some g => { cause := 3, index := g }
    | none =>
      let groups := groupTable x.groups (img.drop (groupOff x e))
      keyStage x e img q (keptExperts groups (keptGroups x.topg cs))

/-- Scores one vector (R119, R128 to R132). -/
def scoreVector (x : ScoreEnt) (e d : Nat) (proj : Nat → Nat → List Byte) (img : List Byte) (vec : List F32) : ScoreResult :=
  match firstBadScore vec with
  | some i => { cause := 1, index := i }
  | none =>
    let q := queryOf x d proj vec
    match firstBadScore q with
    | some j => { cause := 2, index := j }
    | none => lateStages x e img q

/-! ## The wire vector (R121, R204) -/

/-- A vector on the wire; a block with a NaN or an infinity has no stated conversion, and its bytes are free values. -/
def State.wireVector (bf16 : Bool) (raw : List Byte) (s : State) : List Byte × State :=
  if bf16 then (raw, s)
  else
    let xs := bf16List raw
    let bs := chunksOf 32 xs.length xs
    let conv := bs.zipIdx.map fun p =>
      if p.1.all fFinite then
        let c := mxBlock .e4m3 p.1
        (c.1.map (BitVec.ofNat 8 ·), BitVec.ofNat 8 c.2)
      else ((List.range 32).map fun i => Config.freeByte (s.free + p.2 * 33 + i), Config.freeByte (s.free + p.2 * 33 + 32))
    (conv.flatMap (·.1) ++ conv.map (·.2), { s with free := s.free + bs.length * 33 })

/-! ## Images in memory -/

/-- A mirror address (R133): the sum modulo 2^52 of the image address and 64 times the signed distance. -/
def mirrorAddr (x : ScoreEnt) (a : Nat) : Nat := (a + bits x.mirror 51 6 * 64) % memSpace

/-- Where an image of `n` bytes at `a` can be read (R145): there, or at its mirror copy; none when neither reads. The image
is read again whole (DESIGN CHOICE, notes/assumptions/22.md). -/
def State.imageBase (s : State) (x : ScoreEnt) (a n : Nat) : Option Nat :=
  if !s.poisoned a n then some a
  else if x.mirror ≠ 0 ∧ !s.poisoned (mirrorAddr x a) n then some (mirrorAddr x a)
  else none

/-- An image as read, empty when it cannot be read. -/
def State.readImage (s : State) (x : ScoreEnt) (a n : Nat) : Option (List Byte) :=
  (s.imageBase x a n).map fun b => s.rd b n

/-- What reading an image counts and records (R35, R145): its requests, and those of its mirror copy where it is read too. -/
def State.noteImage (x : ScoreEnt) (a n : Nat) (s : State) : State :=
  let again := s.poisoned a n && x.mirror != 0
  let s := s.noteUe a n
  if again then s.noteUe (mirrorAddr x a) n else s

/-- The bank image of a layer (R137). -/
def State.bankImage (s : State) (x : ScoreEnt) (e : Nat) : Option (List Byte) :=
  match s.readImage x x.key (imageBytes x.kfmt e x.dkey) with
  | none => none
  | some k =>
    if !x.shortlist then some k
    else
      match s.readImage x x.cent (imageBytes x.cfmt x.groups x.dkey), s.readImage x x.group (4 * x.groups) with
      | some c, some g => some (k ++ c ++ g)
      | _, _ => none

/-! ## TOKEN_SCORE -/

/-- The first token of a round that is not yet scored. -/
def Round.toScore (r : Round) : Option Nat := (r.toks.zipIdx.find? fun p => !p.1.scored).map (·.2)

/-- The area of a bell and half (R116). -/
def areaIndex (bell : Nat) (h : Half) : Nat := 2 * (bell % 2) + h.num

/-- The tokens of a round that are scored. -/
def Round.scoredCount (r : Round) : Nat := (r.toks.filter fun t => t.scored).length

/-- The address of an input vector (R116). -/
def inputAddr (v : RoundView) (h : Half) (i : Nat) : Nat :=
  confFld v.conf Reg.SCORE_IN 51 12 * 4096 + areaIndex v.set.bell h * 8192 * 2 * confD v.conf + i * 2 * confD v.conf

/-- A half that has finished scoring a layer, or has no token of the bell to score (R141). -/
def State.halfDone (s : State) (bell : Nat) (h : Half) (k : KeyBank) : Bool :=
  match (s.half h).sets.find? fun a => a.bell == bell with
  | none => true
  | some a => a.toks.isEmpty || (match h with
    | .calico => k.doneCal
    | .muslin => k.doneMus)

/-- A half has scored every token of a layer (R141): when the other has too, its bank takes the layer two further on. -/
def State.scoredLayer (v : RoundView) (h : Half) (s : State) : State :=
  let t := s.tableAt v.set.bell
  match s.bankFor t v.rnd.layer with
  | none => s
  | some b =>
    let k := s.bank b
    let k := match h with
      | .calico => { k with doneCal := true }
      | .muslin => { k with doneMus := true }
    let s := s.setBank b k
    let n := confLayers v.conf
    let s := if 2 < n && s.halfDone v.set.bell .calico k && s.halfDone v.set.bell .muslin k
      then s.loadBank b t ((v.rnd.layer + 2) % n) else s
    s.switchBanks.oldTables

/-- The self-test after a mismatch runs from the end of the half's scoring (R148). -/
def State.startSelfTest (h : Half) (s : State) : State :=
  match s.score.mismatchHalf, (s.half h).cur with
  | some m, some r =>
    if m = h && r.toks.all fun t => t.scored then { s with score := { s.score with selfTest := true } } else s
  | _, _ => s

/-- R132: the token error of a non-finite value. -/
def State.scoreError (v : RoundView) (h : Half) (i : Nat) (t : Tok) (res : ScoreResult) (s : State) : State :=
  let s := s.setReg Reg.SCORE_FAULT_HANDLE (s.handleFor v.set t v.rnd.layer 0)
  let s := s.setReg Reg.SCORE_FAULT_INFO (BitVec.ofNat 64 (res.cause + res.index * 2 ^ 8 + v.rnd.layer * 2 ^ 24))
  let s := (s.record Pg.SCORE 0x30 0).tallyAdd Pg.SCORE 3 1
  s.modTok h i fun x => { x with err := true, errCause := res.cause }

/-- A projection image that cannot be read fails the round's sequences, once in the round (R145). -/
def State.projFault (v : RoundView) (i : Nat) (s : State) : State :=
  if i = 0 then (s.record Pg.KEYS 0x36 0).failSeqs 1 v.rnd.layer (v.set.toks.map (·.seq)) else s

/-- The token at scoring index `i` is scored. -/
def State.scoreToken (v : RoundView) (h : Half) (i : Nat) (t : Tok) (s : State) : State :=
  let x := s.scoreEnt v.conf v.rnd.layer
  let e := (tGet resetOf Reg.RES_DIR_LIVE v.conf).toNat % 2 ^ 16
  let d := confD v.conf
  let img := match s.bankFor (s.tableAt v.set.bell) v.rnd.layer with
    | some b => (s.bank b).img
    | none => []
  let raw := s.rd (inputAddr v h i) (2 * d)
  let s := s.memCount 0 (2 * d)
  let pb := s.imageBase x x.proj (x.projBytes d)
  let s := if pb.isNone then s.projFault v i else s
  let base := pb.getD x.proj
  let s := if i = 0 then s.noteImage x x.proj (x.projBytes d) else s
  let res := scoreVector x e d (fun off n => s.rd (base + off) n) img (bf16List raw)
  let (wire, s) := s.wireVector (confWireBf16 v.conf v.rnd.layer) raw
  let s := s.convPut h i (confWire v.conf v.rnd.layer) wire
  let taint := s.score.mismatchHalf.isSome
  let s := s.modTok h i fun r => { r with scored := true, cands := res.cands, taint := r.taint || taint }
  let s := s.tallyAdd Pg.SCORE 0 1
  let s := if res.cause = 0 then s else s.scoreError v h i t res
  if i + 1 = v.set.toks.length then (s.scoredLayer v h).startSelfTest h else s

/-- An uncorrectable or poisoned read of an input vector (R119, R35): MEM_UE for each request that failed, which for an
uncorrectable answer is the vector's first (DESIGN CHOICE, notes/assumptions/50.md), and its sequence fails. -/
def State.inputFault (v : RoundView) (h : Half) (i : Nat) (t : Tok) (s : State) : State :=
  let a := inputAddr v h i
  let n := 2 * confD v.conf
  let s := if s.poisoned a n then s.noteUe a n else (s.memCount 0 n).memFault 0x06 a (s.portOf a)
  s.failSeq 2 v.rnd.layer t.seq

/-! ## Words of the key store that cannot be corrected (R143, R144) -/

/-- The place of a word's bank among those of the key store: 20 of 1 MiB for each of A and B, then the projection area. -/
def areaPlaceOf (area : KeyArea) (addr : Nat) : Nat :=
  addr / 2 ^ 20 + match area with
    | .bank b => if b then 20 else 0
    | .proj => 40

/-- The addresses of a part of the key store that had an uncorrectable error in this bell. -/
def State.areaUe (s : State) : KeyArea → List Nat
  | .bank b => (s.bank b).ueSeen
  | .proj => s.score.projUe

/-- The address that a refetch is for, and since when. -/
def State.areaRefetch (s : State) : KeyArea → Option (Nat × Nat)
  | .bank b => (s.bank b).refetch
  | .proj => s.score.projRefetch.map fun p => (p.1, p.2.1)

/-- The first uncorrectable error at an address in a bell (R143): KEY_UE, and the 4 KiB of the image that hold the word are
fetched again. A word of the projection area is fetched for the half whose image it holds. -/
def State.areaFault (area : KeyArea) (addr : Nat) (h : Option Half) (s : State) : State :=
  let s := match area with
    | .bank b => s.setBank b { s.bank b with ueSeen := addr :: (s.bank b).ueSeen, refetch := some (addr, s.now) }
    | .proj => { s with score := { s.score with
        projUe := addr :: s.score.projUe
        projRefetch := match h with
          | some h => some (addr, s.now, h)
          | none => s.score.projRefetch } }
  s.record Pg.KEYS 0x34 0

/-- The second error at an address in a bell (R144): KEY_UE_REPEAT, and the bank is a permanent fault. -/
def State.areaRepeat (idx layer : Nat) (h : Half) (s : State) : State :=
  (s.safeReport 3 0x35 layer h 3 idx false).unitFault 3 idx 3 true

/-- A key store word that could not be corrected while a token is scored (R143, R144). -/
def State.keyWord (h : Half) (i layer : Nat) (area : KeyArea) (addr : Nat) (s : State) : State :=
  if (s.areaUe area).contains addr then
    let place := areaPlaceOf area addr
    ((s.record Pg.KEYS 0x35 0).taintTok h i).areaRepeat ((s.safe.keyPlaces[place]?).getD place) layer h
  else s.areaFault area addr (some h)

/-- Scoring of a half waits for a refetch of its bank image or of its projection image (R143). -/
def State.scoreWaits (s : State) (v : RoundView) (h : Half) : Bool :=
  ((s.bankFor (s.tableAt v.set.bell) v.rnd.layer).any fun b => (s.bank b).refetch.isSome)
    || s.score.projRefetch.any fun p => p.2.2 == h

/-- A token is read and scored, with the errors of its reads. -/
def State.scoreRead (v : RoundView) (h : Half) (i : Nat) (t : Tok) (ue : Option ReadFault) (s : State) : State :=
  match ue with
  | some (.keyWord area addr) =>
    let again := (s.areaUe area).contains addr
    let s := s.keyWord h i v.rnd.layer area addr
    if again then s.scoreToken v h i t else s
  | some .input => (s.inputFault v h i t).scoreToken v h i t
  | none =>
    let s := if s.poisoned (inputAddr v h i) (2 * confD v.conf) then s.inputFault v h i t else s
    s.scoreToken v h i t

/-- TOKEN_SCORE (R119, R128 to R132, R143 to R145, R148): the next unscored token of the half's running round. While a
part of its layer's images is fetched again nothing is scored, nor while its converted input has no buffer (R214, R215). -/
def execTokenScore (half : Half) (ue : Option ReadFault) (s : State) : Out :=
  match s.view half with
  | none => .next s
  | some v =>
    match v.rnd.toScore with
    | none => .next s
    | some i =>
      match v.set.toks[i]? with
      | none => .next s
      | some t =>
        if s.scoreWaits v half then .next s
        else
          let r := s.convRoom half i (confWire v.conf v.rnd.layer)
          .next (if r.1 then r.2.scoreRead v half i t ue else r.2)

/-! ## Shadow scoring and tile tests -/

/-- The tokens of a half scored since its last matching comparison are tainted (R148, R445). -/
def State.taintScored (h : Half) (s : State) : State :=
  match (s.half h).cur with
  | none => s
  | some r => s.taintRange h r.shadowOk r.scoredCount

/-- SHADOW_COMPARE (R147, R148, R445): the next shadowed token of the half, once the array has scored it. -/
def execShadowCompare (half : Half) (equal : Bool) (s : State) : Out :=
  match s.curRound half with
  | none => .next s
  | some (a, r) =>
    let i := r.shadowNext
    match a.toks[i]?, r.toks[i]? with
    | some t, some x =>
      if !x.scored || a.toks.length < i + 8 then .next s
      else
        let s := s.tallyAdd Pg.SCORE 1 1
        if equal then .next (s.modRound half fun r => { r with shadowNext := i + 64, shadowOk := i + 1 })
        else
          let s := s.modRound half fun r => { r with shadowNext := i + 64 }
          let s := s.setReg Reg.SCORE_SHADOW (s.handleFor a t r.layer 0)
          let s := (s.record Pg.SCORE 0x31 0).tallyAdd Pg.SCORE 2 1
          let s := (s.taintScored .calico).taintScored .muslin
          let s := s.safe0 3 0x31 r.layer half
          let s := { s with score := { s.score with mismatchHalf := some half } }
          .next (s.startSelfTest half)
    | _, _ => .next s

/-- A tile fails its self-test or the pattern test (R444, R445, R453): class 3, and a permanent fault; `delivered` tells that
part of its scope has rung LAYER_OUT (R437). -/
def State.tileFails (tile layer : Nat) (h : Half) (delivered : Bool) (s : State) : State :=
  ((s.record Pg.SAFE 0xD4 0).safeReport 3 0xD4 layer h 1 tile delivered).unitFault 1 tile 3 true

/-- The tile self-test ends (R148, R445): the tiles that failed are fenced; with none the fault was transient (R453).
The doorbells it held are tried again. -/
def execTileSelfTestDone (failed : List Nat) (s : State) : Out :=
  if !s.score.selfTest then .next s
  else
    let h := s.score.mismatchHalf.getD .calico
    let s := { s with score := { s.score with selfTest := false, mismatchHalf := none } }
    let fs := failed.filter fun t => t < 9
    let s := if fs.isEmpty then s.tallyAdd Pg.SAFE 7 1 else fs.foldl (fun s t => s.tileFails t (s.layerOf h) h false) s
    .next s.releaseAll

/-- A tile of the array (R127, R149): in use and not the shadowing one. -/
def State.arrayTile (s : State) (t : Nat) : Bool :=
  s.bit Reg.SCORE_TILES (4 + t) && s.fld Reg.SCORE_TILES 16 13 != t

/-- The last round of a half that rang LAYER_OUT, from the first token of it that a failing tile scored since its last passing
test or matching comparison, if there is one (R437, R444). -/
def State.patternOut (s : State) (tile : Nat) (h : Half) : Option (AdmSet × Round × Nat) :=
  let m := (tFind tile (s.pattern h)).getD (true, 0)
  match (s.half h).last with
  | some (a, r) =>
    let first := max r.shadowOk m.2
    if (m.1 || (s.half h).cur.isNone) && first < r.toks.length then some (a, r, first) else none
  | none => none

/-- The tokens of a half that a failing tile scored since its last passing test or matching comparison (R444). -/
def State.patternScope (tile : Nat) (h : Half) (s : State) : State :=
  let m := (tFind tile (s.pattern h)).getD (true, 0)
  let s := match (s.half h).cur with
    | some r => s.taintRange h (max r.shadowOk (if m.1 then 0 else m.2)) r.scoredCount
    | none => s
  match s.patternOut tile h with
  | some (a, r, first) => s.suspect a.bell r.layer h first (r.toks.length - 1)
  | none => s

/-- A tile passes its test: what it scores from now on counts anew. -/
def State.patternPass (tile : Nat) (h : Half) (s : State) : State :=
  let n := match (s.half h).cur, (s.half h).last with
    | some r, _ => r.scoredCount
    | none, some (_, r) => r.toks.length
    | none, none => 0
  s.setPattern h (tPut tile (false, n) (s.pattern h))

/-- TILE_PATTERN_TEST (R444) of a tile in use or the spare tile. -/
def execTilePatternTest (tile : Nat) (pass : Bool) (s : State) : Out :=
  if 8 < tile ∨ s.bit Reg.SPARE_TILES tile then .next s
  else if pass then .next ((s.patternPass tile .calico).patternPass tile .muslin)
  else
    let delivered := s.arrayTile tile && ((s.patternOut tile .calico).isSome || (s.patternOut tile .muslin).isSome)
    let s := if s.arrayTile tile then (s.patternScope tile .calico).patternScope tile .muslin else s
    .next (s.tileFails tile 0 .calico delivered)

/-! ## Key banks -/

/-- The loading bank holds its image (R141, R142, R145), and doorbells that wait for it are tried. An image that could not
be read from memory or its mirror fails the sequences of the layer's rounds; the bank then counts as complete, so that
VALID is set and the rounds go on to fail (DESIGN CHOICE, notes/assumptions/22.md). -/
def State.bankLoaded (bankB ok : Bool) (s : State) : State :=
  let k := s.bank bankB
  if !k.loading then s
  else
    let x := s.scoreEntAt k.table k.layer
    let img := if ok then s.bankImage x s.experts else none
    let s := s.noteImage x x.key (imageBytes x.kfmt s.experts x.dkey)
    let s := if x.shortlist then (s.noteImage x x.cent (imageBytes x.cfmt x.groups x.dkey)).noteImage x x.group (4 * x.groups) else s
    let s := s.setBank bankB { k with loading := false, valid := true, img := img.getD [], bad := img.isNone }
    let s := if img.isNone then s.record Pg.KEYS 0x36 0 else s
    let n := (s.reg Reg.CTX_MODEL).toNat
    let s := if !bankB && k.layer == 0 && 1 < bits n 24 16 && !s.score.bankB.valid && !s.score.bankB.loading
      then s.loadBank true k.table 1 else s
    ((s.keySettle .calico).keySettle .muslin).oldTables.releaseAll

/-- BANK_IMAGE_LOAD_DONE (R141, R142, R145). -/
def execBankImageLoadDone (bankB : Bool) (ok : Bool) (s : State) : Out := .next (s.bankLoaded bankB ok)

/-- What a bank holds one after another, as address in memory, offset in the bank and bytes: the key image, the centroid
image and the group table. -/
def bankPieces (x : ScoreEnt) (e : Nat) : List (Nat × Nat × Nat) :=
  (x.key, 0, centOff x e) :: if x.shortlist then
    [(x.cent, centOff x e, imageBytes x.cfmt x.groups x.dkey), (x.group, groupOff x e, 4 * x.groups)] else []

/-- The part of a memory image that a refetch of a bank word reads (R143): at most 4 KiB of the piece that holds it, by
address and bytes. -/
def bankPart (x : ScoreEnt) (e a : Nat) : Nat × Nat :=
  match (bankPieces x e).find? fun p => p.2.1 ≤ a && a < p.2.1 + p.2.2 with
  | some (base, off, n) => (base + (a - off) / 4096 * 4096, min 4096 (n - (a - off) / 4096 * 4096))
  | none => (x.key, 0)

/-- A refetch is over: no word of the part waits, and the time is retry time of the rounds that waited (R81, R143). -/
def State.refetchOver (area : KeyArea) (t : Nat) (s : State) : State :=
  let w := 2 * (s.now - t)
  let add (r : Round) : Round := { r with retry := r.retry + w }
  match area with
  | .bank b =>
    let k := s.bank b
    let f (r : Round) : Round := if r.layer = k.layer ∧ !r.toks.all (fun t => t.scored) then add r else r
    ((s.setBank b { k with refetch := none }).modRound .calico f).modRound .muslin f
  | .proj =>
    let h := s.score.projRefetch.map (·.2.2)
    let s := { s with score := { s.score with projRefetch := none } }
    match h with
    | some h => s.modRound h add
    | none => s

/-- The sequences of a half's running round fail where its layer's image cannot be read (R145). -/
def State.imageLost (h : Half) (layer : Nat) (s : State) : State :=
  match s.curRound h with
  | some (a, r) => if r.layer = layer then s.failSeqs 1 layer (a.toks.map (·.seq)) else s
  | none => s

/-- Neither the image nor its mirror gives what a refetch reads (R143, R145): the sequences of the layer's rounds fail. -/
def State.refetchLost (area : KeyArea) (s : State) : State :=
  let s := s.record Pg.KEYS 0x36 0
  match area with
  | .bank b =>
    let k := s.bank b
    ((s.setBank b { k with bad := true }).imageLost .calico k.layer).imageLost .muslin k.layer
  | .proj => match s.score.projRefetch with
    | some p => s.imageLost p.2.2 (s.layerOf p.2.2)
    | none => s

/-- What a refetch reads: the layer's scoring entry, and the part of the image by address and bytes. A word of the projection
area is taken for the image's byte of that offset (DESIGN CHOICE, notes/assumptions/22.md). -/
def State.refetchPart (s : State) (area : KeyArea) (a : Nat) : Option (ScoreEnt × Nat × Nat) :=
  match area with
  | .bank b =>
    let k := s.bank b
    let x := s.scoreEntAt k.table k.layer
    some (x, bankPart x s.experts a)
  | .proj =>
    (s.score.projRefetch.bind fun p => s.view p.2.2).map fun v =>
      let x := s.scoreEnt v.conf v.rnd.layer
      let off := a / 4096 * 4096
      (x, x.proj + off, min 4096 (x.projBytes (confD v.conf) - off))

/-- A refetch has read its part (R143, R145): from the image, or from its mirror when the image does not read. -/
def State.refetched (area : KeyArea) (a t : Nat) (s : State) : State :=
  match s.refetchPart area a with
  | none => s.refetchOver area t
  | some (x, base, n) =>
    let lost := (s.imageBase x base n).isNone
    let s := s.noteImage x base n
    (if lost then s.refetchLost area else s).refetchOver area t

/-- The MiB of a key store place is read again from memory into the bank that takes the place (R141, R145, R455), where a
whole image lies there: the parts of its pieces that lie in the MiB. The projection area streams and holds nothing to
read again. -/
def State.reloadPlace (p : Nat) (s : State) : State :=
  let b := decide (20 ≤ p)
  let k := s.bank b
  if 40 ≤ p ∨ !k.valid ∨ k.bad then s
  else
    let x := s.scoreEntAt k.table k.layer
    let lo := p % 20 * 2 ^ 20
    let parts := (bankPieces x s.experts).filterMap fun y =>
      let i := max lo y.2.1
      let j := min (lo + 2 ^ 20) (y.2.1 + y.2.2)
      if i < j then some (y.1 + (i - y.2.1), j - i) else none
    let lost := parts.any fun y => (s.imageBase x y.1 y.2).isNone
    let s := parts.foldl (fun s y => s.noteImage x y.1 y.2) s
    if lost then s.refetchLost (.bank b) else s

/-- KEY_REFETCH_DONE (R143): the part of the image at an address is whole again, or cannot be read; scoring goes on. -/
def execKeyRefetchDone (area : KeyArea) (addr : Nat) (s : State) : Out :=
  match s.areaRefetch area with
  | none => .next s
  | some (a, t) => .next (if a = addr then s.refetched area a t else s)

/-! ## Table checks -/

/-- The expert count that a table check uses (R138): the directory loaded for a model switch, else the one in force. -/
def State.checkExperts (s : State) : Nat :=
  match s.res.heldDir with
  | some p => p.entries.length
  | none => s.experts

/-- The reason a layer of a scoring table fails with, and its C (R138, R146). -/
def State.keysLayer (s : State) (base e d l : Nat) : Nat × Nat :=
  let at_ := base + 64 * l
  if s.unreadable .keys at_ 64 then (8, 0)
  else
    let b := s.rd at_ 64
    let x := scoreParse b
    if x.shortlist && s.unreadable .keys x.group (4 * x.groups) then (8, 0)
    else
      let g := s.groupsOf x
      (scoreReason b e g, x.cycles e d g)

/-- A write of a table register (R138, R154): a base stages the table and starts its check; 0 withdraws. -/
def State.tableWrite (reg check : Nat) (base : Nat) (v : W64) (s : State) : State :=
  if base = 0 then { s with staged := tDel reg s.staged } |>.setFld check 1 0 0
  else (s.stage reg v).setFld check 1 0 1

/-- KEYS_TABLE (R138). -/
def State.keysTableWrite (v : W64) (s : State) : State :=
  s.gated Reg.KEYS_TABLE v fun s =>
    { s.readsOver .keys with score := { s.score with keysPassed := none } }.tableWrite Reg.KEYS_TABLE Reg.KEYS_CHECK
      (bits v.toNat 51 14) v

/-- The command of that write. -/
def execKeysTableWrite (v : W64) (s : State) : Out := .next (s.keysTableWrite v)

/-- The outcome of a table check: the first failing layer with its reason, or none (R138). -/
def firstFail (rs : List Nat) : Option (Nat × Nat) := (rs.zipIdx.find? fun p => p.1 != 0).map fun p => (p.2, p.1)

/-- The unreadable reads of a table check over `n` layers are recorded (R35). -/
def State.noteTable (base size n : Nat) (s : State) : State :=
  (List.range n).foldl (fun s l => s.noteUe (base + size * l) size) s

/-- The read of a layer's group table during a check (R35, R138). -/
def State.noteGroups (base l : Nat) (s : State) : State :=
  let at_ := base + 64 * l
  let x := scoreParse (s.rd at_ 64)
  if s.poisoned at_ 64 || !x.shortlist then s else s.noteUe x.group (4 * x.groups)

/-- KEYS_CHECK_DONE (R138, R151): the check of the staged table ends; it waits while no directory image has loaded. -/
def execKeysCheckDone (s : State) : Out :=
  let e := s.checkExperts
  if s.fld Reg.KEYS_CHECK 1 0 ≠ 1 ∨ e = 0 then .next s
  else
    let v := s.stagedReg Reg.KEYS_TABLE
    let m := s.checkModel
    let s := s.noteTable v.toNat 64 (bits m 24 16)
    let s := (List.range (bits m 24 16)).foldl (fun s l => s.noteGroups v.toNat l) s
    let rs := (List.range (bits m 24 16)).map fun l => s.keysLayer v.toNat e (256 * bits m 31 25) l
    match firstFail (rs.map (·.1)) with
    | some (l, r) =>
      let c := maxNat ((rs.take l).map (·.2))
      let s := s.setReg Reg.KEYS_CHECK (BitVec.ofNat 64 (3 + l * 2 ^ 4 + r * 2 ^ 12 + c * 2 ^ 16))
      let s := { s with staged := tDel Reg.KEYS_TABLE s.staged }
      .next (s.record Pg.KEYS 0x32 0)
    | none =>
      let s := s.setReg Reg.KEYS_CHECK (BitVec.ofNat 64 (2 + maxNat (rs.map (·.2)) * 2 ^ 16))
      .next { s with score := { s.score with keysPassed := some (v.toNat, s.now) } }

/-- SEL_TABLE (R154). -/
def State.selTableWrite (v : W64) (s : State) : State :=
  s.gated Reg.SEL_TABLE v fun s =>
    { s.readsOver .sel with score := { s.score with selPassed := none } }.tableWrite Reg.SEL_TABLE Reg.SEL_CHECK v.toNat v

/-- The command of that write. -/
def execSelTableWrite (v : W64) (s : State) : Out := .next (s.selTableWrite v)

/-- SEL_CHECK_DONE (R154, R186). -/
def execSelCheckDone (s : State) : Out :=
  let e := s.checkExperts
  if s.fld Reg.SEL_CHECK 1 0 ≠ 1 ∨ e = 0 then .next s
  else
    let v := s.stagedReg Reg.SEL_TABLE
    let s := s.noteTable v.toNat 32 (bits s.checkModel 24 16)
    let rs := (List.range (bits s.checkModel 24 16)).map fun l =>
      let a := v.toNat + 32 * l
      if s.unreadable .sel a 32 then 7 else selReason (s.rd a 32) e
    match firstFail rs with
    | some (l, r) =>
      let s := ((s.setFld Reg.SEL_CHECK 1 0 3).setFld Reg.SEL_CHECK 11 4 l).setFld Reg.SEL_CHECK 15 12 r
      let s := { s with staged := tDel Reg.SEL_TABLE s.staged }
      .next (s.record Pg.SEL 0x38 0)
    | none =>
      let s := ((s.setFld Reg.SEL_CHECK 1 0 2).setFld Reg.SEL_CHECK 11 4 0).setFld Reg.SEL_CHECK 15 12 0
      .next { s with score := { s.score with selPassed := some (v.toNat, s.now) } }

end Sys2Proof.Machine
end

