-- ==== Sys2Proof/Machine/Ctx.lean ====
section
/-! DEFINITION. Models, contexts and pre-emption (R415 to R433): creating and destroying contexts, the switch of the lead
window, urgent pre-emption, the model switch, interference. -/
namespace Sys2Proof.Machine

/-! ## Creating a context (R419) -/

/-- Bytes of the state area that leads a save area (R419). -/
def stateArea : Nat := 262144

/-- The save areas in use, as base and size. -/
def State.saveAreas (s : State) : List (Nat × Nat) :=
  (s.ctx.ctxs.filter fun c => c.2.st != 0 && c.2.spill).map fun c => (c.2.saveBase, c.2.saveMib * mib + stateArea)

/-- The lowest free run of the save pool for SAVE_MIB (R419). -/
def State.saveRun (s : State) (n : Nat) : Option Nat :=
  if n % 2 ≠ 0 ∨ n < 2 ∨ 60 < n then none
  else placeIn (s.stagedFld Reg.CTX_SAVE_POOL 51 21 * 2 ^ 21) (s.stagedFld Reg.CTX_SAVE_POOL 15 0 * mib)
    (n * mib + stateArea) s.saveAreas

/-- A job that a new context may have (R417, R419). -/
def State.ctxJobOk (s : State) (c job : Nat) : Bool :=
  1 ≤ job && job ≤ 0xFFFE && job != s.stagedFld Reg.CTX_MODEL 15 0
    && !(s.ctx.ctxs.any fun x => x.1 != c && x.2.st != 0 && x.2.job == job)
    && ([Reg.ROUTE_JOBS0, Reg.ROUTE_JOBS1, Reg.ROUTE_JOBS2, Reg.ROUTE_JOBS3].any fun r =>
      (List.range 4).any fun j => s.fld r (16 * j + 15) (16 * j) == job)

/-- CREATE (R419): the checks in order; what passes is taken at once, and the context is SAVED. -/
def State.createCtx (c : Nat) (v : W64) (s : State) : State :=
  let w := v.toNat
  let job := bits w 47 32
  let frames := bits w 12 8
  let x : Ctx := { st := 4, job := job, tag := s.stagedFld Reg.CTX_MODEL 63 32, outSince := s.now }
  if s.ctxState c ≠ 0 then s.ctxFault 0xCB c
  else if !s.ctxJobOk c job then s.ctxFault 0xCC c
  else if bits w 4 4 = 0 then
    if frames < 1 ∨ 30 < frames ∨ s.freeFrames.length < frames then s.ctxFault 0xC9 c
    else
      let (fs, s) := s.takeFrames frames (.partition c none)
      s.modCtx c fun _ => { x with partFrames := fs }
  else match s.saveRun (bits w 21 16) with
    | none => s.ctxFault 0xCA c
    | some a => s.modCtx c fun _ => { x with spill := true, saveBase := a, saveMib := bits w 21 16 }

/-! ## Destroying a context (R428) -/

/-- Clears bits of CTX_RESIDENT, the staged and the live value (R425, R428). -/
def State.clearResident (mask : Nat) (s : State) : State :=
  let keep (n : Nat) : Nat := (List.range 4).foldl (fun n c => if mask.testBit c then setBits n c c 0 else n) n
  let s := match tFind Reg.CTX_RESIDENT s.staged with
    | some v => s.stage Reg.CTX_RESIDENT (BitVec.ofNat 64 (keep v.toNat))
    | none => s
  let s := s.setReg Reg.CTX_RESIDENT (BitVec.ofNat 64 (keep (s.regNat Reg.CTX_RESIDENT)))
  s.setReg Reg.CTX_RESIDENT_LIVE (BitVec.ofNat 64 (keep (s.regNat Reg.CTX_RESIDENT_LIVE)))

/-- Copies and requests of a context end TEARDOWN (R428 step 3). -/
def State.tearCtx (c : Nat) (s : State) : State :=
  let s := ((s.porter.copies.filter fun y => y.unit == 0 && y.prio == c && !y.ended).map (·.id)).foldl
    (fun s id => s.stopCopy id 17) s
  let ring (r : Req) : Bool := r.ctx == c && match r.for_ with
    | .cmd _ => true
    | _ => false
  let s := ((s.msem.reqs.filter ring).map (·.tag)).foldl (fun s t => s.finishReq t 17 []) s
  (s.porter.copies.map (·.id)).foldl (fun s id => s.settleCopy id) s

/-- A context is removed (R428). -/
def State.destroyCtx (c : Nat) (s : State) : State :=
  let x := s.ctxAt c
  let s := s.failSeqs 6 0xFF (s.seqsOf [c])
  let mine (g : Group) : Bool := g.st != 0 && grpCtx g.entry == c
  let s := s.tearOps mine
  let s := ((s.coll.groups.filter fun g => mine g.2).map (·.1)).foldl (fun s g => s.freeGroup g) s
  let s := s.tearCtx c
  let s := ((s.pool.bufs.filter fun b => b.2.ctx == some c).map (·.1)).foldl (fun s id => s.releaseBuf id) s
  let s := s.dropFrames x.partFrames
  let s := (List.range 32).foldl (fun s i => s.setReg (Reg.MSEM_SEM (32 * c + i)) 0#64) s
  (s.clearResident (2 ^ c)).modCtx c fun _ => {}

/-- DESTROY (R428): applies when STOPPING, SAVING or RESTORING ends; refused for an ABSENT context. -/
def State.destroyWrite (c : Nat) (s : State) : State :=
  match s.ctxState c with
  | 0 => s.ctxFault 0xCB c
  | 1 => s.destroyCtx c
  | 4 => s.destroyCtx c
  | _ => s.modCtx c fun x => { x with destroyWaits := true }

/-- A write of CTX_CREATE (R419, R428, R432). -/
def State.ctxCreateWrite (v : W64) (s : State) : State :=
  s.gated Reg.CTX_CREATE v fun s =>
    let c := bits v.toNat 1 0
    let create := bits v.toNat 2 2 == 1
    let destroy := bits v.toNat 3 3 == 1
    if create && destroy then s.dropWrite 0x03 Reg.CTX_CREATE
    else if create then s.createCtx c v
    else if destroy then s.destroyWrite c
    else s

/-- CTX_CREATE with CREATE (R419). -/
def execCtxCreate (v : W64) (s : State) : Out := .next (s.ctxCreateWrite v)

/-- CTX_CREATE with DESTROY (R428). -/
def execCtxDestroy (v : W64) (s : State) : Out := .next (s.ctxCreateWrite v)

/-! ## Leaving and entering (R420 to R426) -/

/-- A context stops (R422): it is no longer RESIDENT, and its drain begins. -/
def State.stopCtx (c : Nat) (urgent leaving : Bool) (s : State) : State :=
  let s := s.modCtx c fun x => { x with
    st := 2, urgent := x.urgent || urgent, leaving := x.leaving || leaving, outSince := s.now, switches := x.switches + 1 }
  let s := s.setFld Reg.CTX_RESIDENT_LIVE c c 0
  if urgent then s.tallyAdd Pg.CTX 1 1 else s

/-- Contexts that leave by the switch have all become SAVED. -/
def State.allLeft (s : State) : Bool := !(s.ctx.ctxs.any fun x => x.2.leaving)

/-- The state area of a context whose destroy waited, or could not be read, is gone with it (R424, R428). -/
def State.settleCtx (c : Nat) (s : State) : State := if (s.ctxAt c).destroyWaits then s.destroyCtx c else s

/-- Where the `i`-th frame of a context's save map lies (R419). -/
def Ctx.saveFrame (x : Ctx) (i : Nat) : Nat := x.saveBase + stateArea + i * frameBytes

/-- The buffers charged to a context that a save takes (R420, R379): those of SRAM but for a group's staging. -/
def State.liveBufs (s : State) (c : Nat) : List (Nat × Buf) :=
  s.pool.bufs.filter fun b => b.2.ctx == some c && bufTier b.1 == 0 && b.2.owners.getLast? != some 7

/-- One frame goes to the save area: its live buffers, or all of it for an urgent save (R420, R425); its buffers leave the
pool, and a frame left without a buffer is free at once (R426). -/
def State.saveOne (c : Nat) (f : Nat) (s : State) : State :=
  let x := s.ctxAt c
  let bufs := (s.liveBufs c).filter fun b => bufFrame b.1 == f
  let cls := (bufs.head?.map fun b => bufCls b.1).getD 0
  let at_ (b : Nat × Buf) : Nat := bufIdx b.1 % clsPerFrame cls
  let base := x.saveFrame x.saved.length
  let s := if x.urgent then s.wr base (s.rdSram (f * frameBytes) frameBytes)
    else bufs.foldl (fun s b =>
      s.wr (base + at_ b * clsBytes cls) (s.rdSram (f * frameBytes + at_ b * clsBytes cls) (clsBytes cls))) s
  let s := s.tallyAdd Pg.CTX 2 (units64 (if x.urgent then frameBytes else bufs.length * clsBytes cls))
  let s := (bufs.map (·.1)).foldl (fun s id => s.releaseBuf id) s
  s.modCtx c fun x => { x with saved := x.saved ++ [⟨cls, x.urgent, bufs.map fun b => (at_ b, b.2)⟩] }

/-- The frames that a context holds go to its save area, the lowest first (R420 step 2). -/
def State.saveFrames (c : Nat) (s : State) : State :=
  ((List.range frameCount).filter fun f => (s.liveBufs c).any fun b => bufFrame b.1 == f).foldl (fun s f => s.saveOne c f) s

/-- A buffer comes back into its frame `f`; one whose place cannot be read is lost, and the copy that owns it fails with
DATA_UE (R424). -/
def State.restoreBuf (c base f cls : Nat) (b : Nat × Buf) (s : State) : State :=
  let a := base + b.1 * clsBytes cls
  let d := s.rd a (clsBytes cls)
  let (bad, s) := s.dataRead a (clsBytes cls)
  if bad then
    let s := s.ctxFault 0xCF c
    match b.2.copy with
    | some id => (s.stopCopy id 6).settleCopy id
    | none => s
  else
    let s := { s with pool := { s.pool with bufs := tPut (bufId cls 0 (f * clsPerFrame cls + b.1)) b.2 s.pool.bufs } }
    s.wrSram (f * frameBytes + b.1 * clsBytes cls) d

/-- The `i`-th frame of a save map comes back into the lowest free frame (R420 step 3); one saved whole is restored whole
(R426). -/
def State.restoreOne (c i : Nat) (m : SavedFrame) (s : State) : State :=
  let base := (s.ctxAt c).saveFrame i
  match s.takeFrames 1 (.carved m.cls) with
  | ([], s) => s
  | (f :: _, s) =>
    let s := if m.whole then s.wrSram (f * frameBytes) (s.rd base frameBytes) else s
    let s := s.tallyAdd Pg.CTX 3 (units64 (if m.whole then frameBytes else m.bufs.length * clsBytes m.cls))
    m.bufs.foldl (fun s b => s.restoreBuf c base f m.cls b) s

/-- An entering context is restored (R420 step 3): a SPILL context's unit state is read, then its frames; an unreadable
state area destroys it (R424). -/
def State.restoreCtx (c : Nat) (s : State) : State :=
  let x := s.ctxAt c
  let (bad, s) := if x.spill then s.dataRead x.saveBase stateArea else (false, s)
  if bad then (s.ctxFault 0xCF c).destroyCtx c
  else
    let s := if x.spill then s.tallyAdd Pg.CTX 3 (units64 stateArea) else s
    let s := x.saved.zipIdx.foldl (fun s m => s.restoreOne c m.2 m.1) s
    s.modCtx c fun x => { x with st := 5, saved := [] }

/-- Entering contexts start when no context is still leaving and the frames they need are free (R420). -/
def State.startRestores (s : State) : State :=
  if !s.allLeft then s
  else ((s.ctx.ctxs.filter fun x => x.2.entering && x.2.st == 4).map (·.1)).foldl (fun s c =>
    if (s.ctxAt c).saved.length ≤ s.freeFrames.length then s.restoreCtx c else s) s

/-- A context's own steps have ended: it is SAVED; an urgent one raises the CTX vector (R425). -/
def State.savedCtx (c : Nat) (s : State) : State :=
  let urgent := (s.ctxAt c).urgent
  let s := s.modCtx c fun x => { x with st := 4, urgent := false, leaving := false }
  ((if urgent then s.raise Pg.CTX else s).settleCtx c).startRestores

/-- A packet of a job is still in an output queue or a replay buffer of this slice (R423). -/
def State.jobInOutputs (job : Nat) (s : State) : Bool :=
  s.route.queue.any (fun q => q.origin == .unit && q.pkt.job == job)
    || s.links.any fun l => l.2.out.any (fun p => p.1.job == job) || l.2.waiting.any (fun p => p.job == job)
      || l.2.sent.any fun p => p.2.job == job

/-- CTX_DRAIN_END (R423): once every packet of its job has left, a PARTITION context, which saves nothing, is SAVED, and a
SPILL context is saved. -/
def execCtxDrainEnd (c : Nat) (s : State) : Out :=
  .next (if s.ctxState c ≠ 2 ∨ s.jobInOutputs (s.ctxAt c).job then s
    else if (s.ctxAt c).spill then s.modCtx c fun x => { x with st := 3 } else s.savedCtx c)

/-- `n` bytes whose values the manual leaves open. -/
def State.freeBytes (s : State) (n : Nat) : List Byte := (List.range n).map fun i => Config.freeByte (s.free + i)

/-- CTX_SAVE_DONE (R420 step 2, R425): the frames that the context holds and its unit state are in the save area. The layout
of the unit state is the engine's own, so its bytes are free values. -/
def execCtxSaveDone (c : Nat) (s : State) : Out :=
  .next (if s.ctxState c ≠ 3 then s
    else
      let a := (s.ctxAt c).saveBase
      let s := s.saveFrames c
      let s := { (s.wr a (s.freeBytes stateArea)) with free := s.free + stateArea }
      (s.tallyAdd Pg.CTX 2 (units64 stateArea)).savedCtx c)

/-- The switch of a bell begins in its lead window (R420, R430): `bell` is the bell about to open. From the lead window
of the bell of an armed model switch every context leaves (R429). -/
def State.switchAtLead (bell : Nat) (s : State) : State :=
  let switch := s.armed && decide (s.regNat Reg.CTX_MODEL_AT ≤ bell)
  let mask := if switch then 0 else s.stagedFld Reg.CTX_RESIDENT 3 0
  let tag := if s.armed then s.fld Reg.CTX_MODEL 63 32 else s.stagedFld Reg.CTX_MODEL 63 32
  let named (c : Nat) : Bool := mask.testBit c
  let leave := (s.ctx.ctxs.filter fun x => x.2.st == 1 && !named x.1).map (·.1)
  let enter := (s.ctx.ctxs.filter fun x => x.2.st == 4 && named x.1 && x.2.tag == tag).map (·.1)
  if leave.isEmpty && enter.isEmpty then s
  else
    let s := leave.foldl (fun s c => s.stopCtx c false true) s
    let s := enter.foldl (fun s c => s.modCtx c fun x => { x with entering := true }) s
    ({ s with ctx := { s.ctx with switching := true } } : State).tallyAdd Pg.CTX 0 1 |>.startRestores

/-- CTX_SWITCH_DONE (R420): every step of the switch has ended; a context that still waits for free frames holds it up.
After the Scales sampled, CTX_SWITCH_LATE. -/
def execCtxSwitchDone (s : State) : Out :=
  let s := if s.ctx.switching then s.startRestores else s
  .next (if !s.ctx.switching || !s.allLeft || s.ctx.ctxs.any (fun x => x.2.entering && x.2.st == 4) then s
    else
      let late := s.ctx.switchLate
      let cs := (s.ctx.ctxs.filter fun x => x.2.st == 5).map (·.1)
      let s := { s with ctx := { s.ctx with switching := false, switchLate := false } }
      let s := cs.foldl (fun s c => (s.modCtx c fun x => { x with restored := true })) s
      if late then s.ctxFault 0xCE (cs.head?.getD 0) else s)

/-- The groups of a context resume: pulls that wait are answered, and new ones go out (R422, R426). -/
def State.resumeGroups (c : Nat) (s : State) : State :=
  let gs := (s.coll.groups.filter fun g => g.2.st == 2 && grpCtx g.2.entry == c).map (·.1)
  gs.foldl (fun s g =>
    let s := (s.groupWork g).foldl (fun s y => s.answerPulls g y.1.seq y.2.index) s
    s.pumpGroup g) s

/-- A restored context is RESIDENT (R420); a destroy that waited applies. -/
def State.enterCtx (c : Nat) (s : State) : State :=
  let s := s.modCtx c fun x => { x with st := 1, entering := false, restored := false, switches := x.switches + 1 }
  if (s.ctxAt c).destroyWaits then s.destroyCtx c
  else (s.setFld Reg.CTX_RESIDENT_LIVE c c 1).resumeGroups c

/-- CTX_MODEL_MISMATCH (R430): once, at the first bell open at which the mask names a SAVED context of another tag. -/
def State.mismatches (s : State) : State :=
  (List.range 4).foldl (fun s c =>
    let x := s.ctxAt c
    if x.st == 4 && s.bit Reg.CTX_RESIDENT c && x.tag != s.fld Reg.CTX_MODEL 63 32 && !x.mismatchSaid then
      (s.ctxFault 0xCD c).modCtx c fun x => { x with mismatchSaid := true }
    else s) s

/-- What CTX_INTERFc shows of the bell just ended (R431). -/
def State.interfere (opened : Nat) (s : State) : State :=
  (List.range 4).foldl (fun s c =>
    let x := s.ctxAt c
    let out := if x.st = 0 ∨ x.st = 1 then 0 else (s.now - max x.outSince opened) / 1000
    let v := min x.displaced 0xFFFF + min out 0xFFFFFF * 2 ^ 16 + min (x.poolWait / 1000) 0xFFFF * 2 ^ 40
      + min x.switches 0xFF * 2 ^ 56
    (s.setReg (Reg.CTX_INTERF0 + 8 * c) (BitVec.ofNat 64 v)).modCtx c fun x =>
      { x with displaced := 0, poolWait := 0, switches := 0 }) s

/-- Contexts at a bell open, after staged values have taken effect (R420, R430). -/
def State.ctxsAtOpen (s : State) : State :=
  let s := ((s.ctx.ctxs.filter fun x => x.2.restored).map (·.1)).foldl (fun s c => s.enterCtx c) s
  let s := if s.ctx.switching then { s with ctx := { s.ctx with switchLate := true } } else s
  s.mismatches

/-- CTX_URGENT (R425): the named RESIDENT contexts stop at once; one already leaving goes on with the urgent steps. -/
def State.ctxUrgent (v : W64) (s : State) : State :=
  s.gated Reg.CTX_URGENT v fun s =>
    (List.range 4).foldl (fun s c =>
      if !v.toNat.testBit c then s
      else
        let x := s.ctxAt c
        if x.st = 1 then (s.clearResident (2 ^ c)).stopCtx c true false
        else if (x.st = 2 ∨ x.st = 3) ∧ x.leaving then
          ((s.clearResident (2 ^ c)).modCtx c fun x => { x with urgent := true }).tallyAdd Pg.CTX 1 1
        else s) s

/-- The command of that write. -/
def execCtxUrgent (v : W64) (s : State) : Out := .next (s.ctxUrgent v)

/-! ## The model switch (R429) -/

/-- CTX_STATE MODEL. -/
def State.setModelState (n : Nat) (s : State) : State := s.setFld Reg.CTX_STATE 17 16 n

/-- CTX_MODEL_AT (R429): a bell number arms a switch, 0 disarms it. A switch in progress goes on. -/
def State.ctxModelAtWrite (v : W64) (s : State) : State :=
  s.gated Reg.CTX_MODEL_AT v fun s =>
    let s := s.setReg Reg.CTX_MODEL_AT v
    if s.fld Reg.CTX_STATE 17 16 = 2 then s
    else if v = 0#64 then ({ s with ctx := { s.ctx with modelStopped := false } } : State).setModelState 0
    else s.setModelState 1

/-- The command of that write. -/
def execCtxModelAtWrite (v : W64) (s : State) : Out := .next (s.ctxModelAtWrite v)

/-- MODEL_SWITCH_START (R429): the last layer round of the old model has ended on this slice, from the switch's bell
on. -/
def execModelSwitchStart (s : State) : Out :=
  .next (if s.ctx.modelStopped && s.fld Reg.CTX_STATE 17 16 == 1 && (s.cal.sets ++ s.mus.sets).all fun a => a.toks.isEmpty
    then s.setModelState 2 else s)

/-- A scoring table that passed its check takes effect (R138, R139). -/
def State.applyKeys (s : State) : State :=
  match tFind Reg.KEYS_TABLE s.staged, s.score.keysPassed with
  | some v, some _ =>
    let had := s.regNat Reg.KEYS_TABLE_LIVE != 0
    let s := { s with staged := tDel Reg.KEYS_TABLE s.staged, score := { s.score with keysPassed := none, switchPending := true } }
    let s := ((s.setReg Reg.KEYS_TABLE v).setReg Reg.KEYS_TABLE_LIVE v).setFld Reg.KEYS_CHECK 1 0 0
    (if had then s.setFld Reg.KEYS_OLD 0 0 0 else s).switchBanks.oldTables
  | _, _ => s

/-- A selection table that passed its check takes effect (R154). -/
def State.applySel (s : State) : State :=
  match tFind Reg.SEL_TABLE s.staged, s.score.selPassed with
  | some v, some _ =>
    let s := { s with staged := tDel Reg.SEL_TABLE s.staged, score := { s.score with selPassed := none } }
    (((s.setReg Reg.SEL_TABLE v).setReg Reg.SEL_TABLE_LIVE v).setFld Reg.SEL_CHECK 1 0 0).oldTables
  | _, _ => s

/-- A table check that has not passed holds the end of the switch (R429). -/
def checkPending (st : Nat) : Bool := st == 1 || st == 3

/-- The directory of the switch, and the residency map, undo table, keepers and bid space cleared (R429). -/
def State.switchDir (s : State) : State :=
  let s := match s.res.heldDesc with
    | some a => { (s.setReg Reg.RES_DESC (BitVec.ofNat 64 a)) with res := { s.res with heldDesc := none } }
    | none => s
  let s := { s with homeCal := {}, homeMus := {}, res := { s.res with blocks := [], undo := [], queue := [], planned := [] } }
  match s.res.heldDir with
  | some d => ({ s with res := { s.res with heldDir := none } } : State).dirInstall d.entries d.descs d.sources
  | none => s

/-- MODEL_SWITCH_DONE (R429, R430): the held tables take effect, the bank images of the first two layers are loaded, and
tokens are admitted from the next bell open. While a table has not passed its check the switch does not end. -/
def execModelSwitchDone (s : State) : Out :=
  .next (if s.fld Reg.CTX_STATE 17 16 ≠ 2 ∨ checkPending (s.fld Reg.KEYS_CHECK 1 0) ∨ checkPending (s.fld Reg.SEL_CHECK 1 0)
      ∨ checkPending (s.fld Reg.RES_DIR_STAT 1 0) then s
    else
      let s := match tFind Reg.CTX_MODEL s.staged with
        | some v => { (s.setReg Reg.CTX_MODEL v) with staged := tDel Reg.CTX_MODEL s.staged }
        | none => s
      let s := (s.switchDir.applyKeys).applySel
      let s := (s.bankLoaded false true).bankLoaded true true
      let s := (List.range 4).foldl (fun s c => s.modCtx c fun x => { x with mismatchSaid := false }) s
      (({ s with ctx := { s.ctx with modelStopped := false } } : State).setModelState 0).showMins)

/-- The bell of an armed switch opens: the Scales let no token in from here on (R429). -/
def State.modelAtOpen (bell : Nat) (s : State) : State :=
  if s.fld Reg.CTX_STATE 17 16 = 1 ∧ s.regNat Reg.CTX_MODEL_AT ≤ bell then { s with ctx := { s.ctx with modelStopped := true } }
  else s

/-! ## What the registers show -/

/-- CTX_STATE (R432). -/
def State.ctxStateView (s : State) : W64 :=
  BitVec.ofNat 64 (sumNat ((List.range 4).map fun c => s.ctxState c * 2 ^ (4 * c)) + s.fld Reg.CTX_STATE 17 16 * 2 ^ 16)

/-- CTX_INFOc (R432). -/
def State.ctxInfoView (s : State) (c : Nat) : W64 :=
  let x := s.ctxAt c
  let frames := (x.partFrames ++ s.framesOf c).eraseDups.length
  BitVec.ofNat 64 (x.job + b2n x.spill * 2 ^ 16 + min frames 63 * 2 ^ 17 + x.tag * 2 ^ 32)

end Sys2Proof.Machine
end

