-- ==== Sys2Proof/Machine/Safe.lean ====
section
/-! DEFINITION. Safety, spares and live repair (R439, R447 to R463): the unit counts and their places, retirement at a
bell open, ECC reports, latent tests, the microcode controllers, fail-silent slices, silence notes and the lead. -/
namespace Sys2Proof.Machine

/-! ## Units (R451, R465, R472) -/

/-- Units of a kind, spares included (R451). -/
def unitTotal : Nat → Nat
  | 1 => 9
  | 2 => 34
  | 3 => 52
  | 4 => 72
  | 5 => 2
  | 6 => 2
  | _ => 0

/-- Units of a kind in use when none is retired (R451, R472). -/
def unitActive : Nat → Nat
  | 1 => 8
  | 2 => 32
  | 3 => 48
  | 4 => 64
  | 5 => 1
  | 6 => 1
  | _ => 0

/-- The floor of the count in use (R451, R456). -/
def unitFloor : Nat → Nat
  | 1 => 2
  | 2 => 16
  | 3 => 44
  | 4 => 0
  | _ => 1

/-- The register and bit that show a unit as RETIRED (R465). -/
def retiredBit (kind index : Nat) : Nat × Nat :=
  if kind = 1 then (Reg.SPARE_TILES, index)
  else if kind = 2 then (Reg.SPARE_LANES, index)
  else if kind = 3 then (Reg.SPARE_KBANKS, index)
  else if kind = 4 then (if index < 64 then (Reg.SPARE_SBANKS0, index) else (Reg.SPARE_SBANKS1, index - 64))
  else if kind = 5 then (Reg.SPARE_CTRL, index)
  else (Reg.SPARE_CTRL, 3 + index)

/-- A unit is retired. -/
def State.unitRetired (s : State) (kind index : Nat) : Bool := s.bit (retiredBit kind index).1 (retiredBit kind index).2

/-- A spare that failed its test. -/
def State.testFailed (s : State) (kind index : Nat) : Bool :=
  s.safe.failedTest.any fun p => p.1 == kind && p.2 == index

/-- The units of a kind that are neither retired nor failed spares, in order. -/
def State.readyUnits (s : State) (kind : Nat) : List Nat :=
  (List.range (unitTotal kind)).filter fun i => !s.unitRetired kind i && !s.testFailed kind i

/-- The units in use (R455, R472). -/
def State.inUse (s : State) (kind : Nat) : List Nat := (s.readyUnits kind).take (unitActive kind)

/-- The spares ready. -/
def State.spares (s : State) (kind : Nat) : List Nat := (s.readyUnits kind).drop (unitActive kind)

/-- The bit mask of a list of numbers. -/
def maskOf (xs : List Nat) : Nat := xs.foldl (fun m i => m ||| 2 ^ i) 0

/-- SCORE_TILES and SORT_LANES show the units in use of a bell (R149, R150, R191), SPARE_LEFT the spares (R465). A spare tile
that failed its test while no tile is retired is no idle spare either, so that SHARED is set and A falls (DESIGN CHOICE,
notes/assumptions/22.md). -/
def State.showUnits (bell : Nat) (s : State) : State :=
  let u := s.inUse 1
  let spare := (s.spares 1).head?
  let shadow := spare.getD (u.getD (bell % max 1 u.length) 0)
  let act := if spare.isNone then u.length - 1 else u.length
  let s := s.setReg Reg.SCORE_TILES (BitVec.ofNat 64 (act + maskOf u * 2 ^ 4 + shadow * 2 ^ 13 + b2n spare.isNone * 2 ^ 17))
  let l := s.inUse 2
  let s := s.setReg Reg.SORT_LANES (BitVec.ofNat 64 (maskOf l + l.length * 2 ^ 40))
  let left (k : Nat) : Nat := (s.spares k).length
  s.setReg Reg.SPARE_LEFT (BitVec.ofNat 64 (left 1 + left 2 * 2 ^ 4 + left 3 * 2 ^ 8 + left 4 * 2 ^ 12))

/-- Too few tiles or lanes for the Scales to let a token in (R149, R191). -/
def State.exhausted (s : State) : State :=
  let s := if (s.inUse 1).length < 2 then s.record Pg.SCORE 0x37 0 else s
  if (s.inUse 2).length < 16 then s.record Pg.SORT 0x51 0 else s

/-- The bank at a place of the key store (kind 3) or of stall SRAM (kind 4). -/
def State.places (s : State) (kind : Nat) : List Nat :=
  let p := if kind = 3 then s.safe.keyPlaces else s.safe.stallPlaces
  if p.isEmpty then List.range (unitActive kind) else p

/-- The places of a kind take a list. -/
def State.setPlaces (kind : Nat) (p : List Nat) (s : State) : State :=
  if kind = 3 then { s with safe := { s.safe with keyPlaces := p } } else { s with safe := { s.safe with stallPlaces := p } }

/-- A frame whose bank has no spare leaves the pool, now or when it is free (R451). -/
def State.loseFrame (f : Nat) (s : State) : State :=
  let s := { s with pool := { s.pool with leaving := f :: s.pool.leaving } }
  if s.frameUse f == .free then s.setFrame f .free else s

/-- The last place of the projection area that still has a bank (R139, R451). -/
def State.lastProj (s : State) : Option Nat :=
  ((List.range 48).filter fun p => decide (40 ≤ p) && (s.places 3).getD p 255 != 255).getLast?

/-- A retired bank's place goes to a spare; without one a stall SRAM frame is lost, or the projection area gives its last
bank (R451, R455). What a key store bank held is read again from memory. -/
def State.movePlace (kind index : Nat) (spare : Option Nat) (s : State) : State :=
  match indexOfNat index (s.places kind) with
  | none => s
  | some p =>
    let ps := s.places kind
    let ps := match spare, s.lastProj with
      | some u, _ => modNth p (fun _ => u) ps
      | none, some q =>
        if kind = 3 then modNth q (fun _ => 255) (modNth p (fun u => if p < q then ps.getD q 255 else u) ps)
        else modNth p (fun _ => 255) ps
      | none, none => modNth p (fun _ => 255) ps
    let s := s.setPlaces kind ps
    if kind = 4 then (if spare.isNone then s.loseFrame (p / 2) else s) else s.reloadPlace p

/-! ## Retirement (R452, R455) -/

/-- A unit retires at a bell open (R455): the lowest ready spare takes its place, the SPARE page and the logs show it. -/
def State.retireUnit (kind index : Nat) (s : State) : State :=
  if s.unitRetired kind index then s
  else
    let spare := if (s.inUse kind).contains index then (s.spares kind).head? else none
    let used := (s.inUse kind).contains index
    let b := retiredBit kind index
    let s := s.setFld b.1 b.2 b.2 1
    let s := if kind = 1 then s.setFld Reg.SPARE_TILES (16 + index) (16 + index) 0 else s
    let s := if used ∧ (kind = 3 ∨ kind = 4) then s.movePlace kind index spare else s
    let s := if kind = 5 then
        { s.setFld Reg.SPARE_CTRL 2 2 (if s.fld Reg.SPARE_CTRL 2 2 = index then 1 - index % 2 else s.fld Reg.SPARE_CTRL 2 2) with
          safe := { s.safe with aucAlone := true } } else s
    let s := if used ∧ spare.isNone ∧ ((kind = 3 ∧ (s.inUse 3).length < 44) ∨ 5 ≤ kind)
      then { s with safe := { s.safe with retireSlice := true } } else s
    let s := s.record Pg.SPARE 0xDB 0
    let s := s.evWrite 3 kind index false 0 0#64
    let s := s.emit 0x08 [BitVec.ofNat 64 (kind + index * 2 ^ 4)]
    ({ s with start := { s.start with mapChanged := true } } : State).raise Pg.SPARE

/-- Marks made before a lead window retire at its bell open (R455). -/
def State.marksAtLead (s : State) : State :=
  { s with safe := { s.safe with marks := s.safe.marks.map fun m => { m with lead := true } } }

/-- Both auctioneers test themselves at the bell open after a silent disagreement (R457); the outcome of a hardware test
is no value of the manual: a free value. One that fails retires; with both R452 applies. -/
def State.auctioneersTest (s : State) : State :=
  if !s.safe.aucSelfTest then s
  else
    let w := (Config.freeByte s.free).toNat
    let s := { s with free := s.free + 1, safe := { s.safe with aucSelfTest := false } }
    let s := if bits w 0 0 = 1 then s.retireUnit 5 0 else s
    if bits w 1 1 = 1 then s.retireUnit 5 1 else s

/-- A fenced microcode controller tests itself at the next bell open (R458): it rejoins lock step, or it is retired; the
outcome of the hardware test is a free value. -/
def State.controllersTest (s : State) : State :=
  [0, 1].foldl (fun s c =>
    if !s.bit Reg.SAFE_ALARM (3 + c) || s.unitRetired 6 c then s
    else
      let w := (Config.freeByte s.free).toNat
      let s := { s with free := s.free + 1 }
      if w % 2 = 0 then s.setFld Reg.SAFE_ALARM (3 + c) (3 + c) 0 else s.retireUnit 6 c) s

/-- The retirements of a bell open (R455, R457, R458, R484 step 1). -/
def State.retireAtOpen (bell : Nat) (s : State) : State :=
  let due := s.safe.marks.filter (·.lead)
  let s := { s with safe := { s.safe with marks := s.safe.marks.filter fun m => !m.lead } }
  let s := due.foldl (fun s m => s.retireUnit m.kind m.index) s
  (s.auctioneersTest.controllersTest).showUnits bell

/-- The corrected errors of the bell that ends, as one event of kind 4 (R503); the per-bell counts restart. -/
def State.eccSummary (s : State) : State :=
  let c := s.safe.corrected
  let n := sumNat (c.map (·.2))
  let worst := c.foldl (fun (w : Nat × Nat) p => if w.2 < p.2 then p else w) (0, 0)
  let detail := BitVec.ofNat 64 (worst.1 % 128 + b2n (worst.1 / 256 == 4) * 2 ^ 7)
  let s := if n = 0 then s else s.evWrite 4 0 Pg.SAFE false n detail
  { s with safe := { s.safe with faults := [], corrected := [], ueSeen := [] } }

/-! ## SAFE_CAUSE (R439) -/

/-- A fault of a class was found in this cycle (R438). -/
def State.foundNow (s : State) (c : Nat) : Bool := s.safe.foundAt == s.now && s.safe.found.contains c

/-- One bit of SAFE_CAUSE is cleared, or refused while a unit fenced for its class is not retired (R439); a detection of the
same cycle wins over the clear (R438). -/
def State.clearCause (c : Nat) (s : State) : State :=
  if s.foundNow c then s
  else if s.safe.marks.any fun m => m.cls == c && m.fenced then s.record Pg.SAFE 0xDF 0
  else s.setFld Reg.SAFE_CAUSE c c 0

/-- SAFE_CAUSE_CLEAR (R439, R464): W1C; SAFE_FIRST and SAFE_FIRST_BELL are emptied when no cause is left. -/
def State.safeCauseClear (v : W64) (s : State) : State :=
  s.gated Reg.SAFE_CAUSE v fun s =>
    let hit := (List.range 9).filter fun c => bits v.toNat c c == 1 && s.bit Reg.SAFE_CAUSE c
    let s := hit.foldl (fun s c => s.clearCause c) s
    let s := if s.regNat Reg.SAFE_CAUSE = 0 then (s.setReg Reg.SAFE_FIRST 0#64).setReg Reg.SAFE_FIRST_BELL 0#64 else s
    s.driveAlarm

/-- The command of that write. -/
def execSafeCauseClear (v : W64) (s : State) : Out := .next (s.safeCauseClear v)

/-! ## ECC (R447 to R449) -/

/-- The kind and index of the bank that holds a word; none for the directory's memories, which no unit kind names. -/
def wordBank : Sys2Proof.SramWord → Option (Nat × Nat × Nat)
  | .keyStore b a => some (3, b, a)
  | .record _ _ _ b a => some (4, b, a)
  | .buffer _ b a => some (4, b, a)
  | .auction _ b a => some (4, b, a)
  | .directory _ => none
  | .idle b a => some (4, b, a)

/-- A corrected error (R447): counted, and a bank beyond BANK_CE_TH in one bell is marked. -/
def State.eccCorrected (w : SramWord) (s : State) : State :=
  let s := (s.tallyAdd Pg.SAFE 9 1).lifeAdd 13 1
  let k := (((wordBank w).map fun b => b.1 * 256 + b.2.1).getD 0)
  let n := tGet zeroNat k s.safe.corrected + 1
  let s := { s with safe := { s.safe with corrected := tPut k n s.safe.corrected } }
  match wordBank w with
  | none => s
  | some b => if n = s.fld Reg.SPARE_THRESH 15 0 + 1 then (s.record Pg.SAFE 0xD7 0).markUnit b.1 b.2.1 0 false else s

/-- A token of a half met a bad word: it is tainted in the running round (R448). -/
def State.taintWhere (h : Half) (f : Nat → RTok → Bool) (s : State) : State :=
  s.modRound h fun r => { r with toks := r.toks.mapIdx fun i t => if f i t then { t with taint := true } else t }

/-- A token read an expert's entry: a candidate or a choice of it, or the layer's shared expert. -/
def RTok.reads (e : Nat) (t : RTok) : Bool := (t.sel.any fun c => c.expert == e) || t.choices.any fun c => c.expert == e

/-- An expert's directory entry and descriptor are read again from memory, the image of R245 and the descriptor table;
the tokens that read it in this bell are tainted, or suspect where delivered (R448, class 3). -/
def State.reloadEntry (e : Nat) (s : State) : State :=
  let base := s.fld Reg.RES_DIR 51 16 * 2 ^ 16
  let s := s.noteUe (base + 16 * e) 16
  let s := if s.experts ≤ e ∨ s.poisoned (base + 16 * e) 16 then s
    else { s with res := { s.res with dir := tSet dirZero e (s.rdNat (base + 16 * e) 16) s.res.dir } }
  let s := { s with res := { s.res with descs := tDel e s.res.descs } }
  let s := s.fillDescs
  let out (h : Half) : Bool := (s.half h).last.any fun x => x.1.bell == s.bellNo && x.2.toks.any (RTok.reads e)
  let delivered := out .calico || out .muslin
  let s := [Half.calico, .muslin].foldl (fun s h =>
    let s := s.taintWhere h fun _ t => t.reads e
    match (s.half h).last with
    | some (a, r) => if (a.bell == s.bellNo && r.toks.any (RTok.reads e)) then s.suspect a.bell r.layer h 0 (a.toks.length - 1) else s
    | none => s) s
  s.safeReport 3 0xD8 (s.layerOf .calico) .calico 0 0 delivered

/-- An uncorrectable word of a pool buffer: the operation that owns the buffer fails (R448): a collective ends with
DATA_UE, a porter copy fails, a tile's outputs and the tokens of a gather or of converted inputs are tainted. -/
def State.bufferUe (id : Nat) (s : State) : State :=
  let s : State := match s.coll.groups.find? fun g => g.2.staging.contains id with
    | none => s
    | some (g, x) =>
      match s.coll.ops.find? fun (o : CollOp) => o.group == g && o.active && (o.slots.any fun i => x.staging[i]? == some id) with
      | some o => s.abortOp g o.seq 1 x.self
      | none => s
  let s : State := match (tFind id s.pool.bufs).bind (·.copy) with
    | some c => (s.stopCopy c 6).settleCopy c
    | none => s
  let s := { s with tiles := { s.tiles with
    tiles := s.tiles.tiles.map fun t => if t.out == id && !t.freed && t.st < 2 then { t with taint := true } else t } }
  let s : State := match tFind id s.gathers with
    | some g => s.taintWhere g.half fun i _ => g.recs.any fun r => r.token == i
    | none => s
  let s := [Half.calico, .muslin].foldl (fun s h =>
    match indexOfNat id (s.conv h), s.view h with
    | some k, some v =>
      let w := max 1 (confWire v.conf v.rnd.layer)
      s.taintRange h (k * 4096 / w) ((k * 4096 + 4095) / w + 1)
    | _, _ => s) s
  s.safe0 5 0xD8 (s.layerOf .calico) .calico

/-- The halves whose running round reads a part of the key store: of a bank's layer, or with tokens still to project. -/
def State.areaHalves (s : State) (area : KeyArea) : List Half :=
  [Half.calico, Half.muslin].filter fun h => (s.half h).cur.any fun r => match area with
    | .bank b => r.layer == (s.bank b).layer
    | .proj => !r.toks.all fun t => t.scored

/-- A key store word that the scrubber finds (R143, R144): its part of the image is fetched again; at the second error at an
address in one bell the tokens of the rounds that read it are tainted and the bank is a permanent fault. -/
def State.keyStoreUe (bank addr : Nat) (s : State) : State :=
  match indexOfNat bank (s.places 3) with
  | none => s
  | some p =>
    let area : KeyArea := if 40 ≤ p then .proj else .bank (decide (20 ≤ p))
    let a := p % 20 * 2 ^ 20 + addr % 2 ^ 20
    let hs := s.areaHalves area
    if !(s.areaUe area).contains a then s.areaFault area a hs.head?
    else
      let layer := match area with
        | .bank b => (s.bank b).layer
        | .proj => s.layerOf (hs.headD .calico)
      let s := hs.foldl (fun s h => s.taintHalf h) (s.record Pg.KEYS 0x35 0)
      s.areaRepeat bank layer (hs.headD .calico)

/-- An uncorrectable word of stall SRAM by what it holds (R448). -/
def State.stallUe (w : SramWord) (s : State) : State :=
  let s := s.record Pg.SAFE 0xD8 0
  let s : State := match w with
    | .keyStore _ _ => s
    | .record h e off _ _ =>
      let x := s.site h
      let s : State := match tFind (recKey e off) x.recs with
        | some r => s.setSite h { x with recs := tPut (recKey e off) { r with taint := true } x.recs }
        | none => s
      s.safe0 5 0xD8 x.layer h
    | .buffer id _ _ => s.bufferUe id
    | .auction h _ _ =>
      match (s.home h).cur with
      | some k => (s.safe0 3 0xD8 (keyLayer k) h).refuseRound h k
      | none => s
    | .directory e => s.reloadEntry e
    | .idle _ _ => s
  match wordBank w with
  | none => s
  | some b =>
    let key := (b.1 * 256 + b.2.1) * 2 ^ 32 + b.2.2 % 2 ^ 32
    if s.safe.ueSeen.contains key then s.unitFault b.1 b.2.1 0 true
    else { s with safe := { s.safe with ueSeen := key :: s.safe.ueSeen } }

/-- An uncorrectable word goes to its owner (R448). -/
def State.eccUe (w : SramWord) (s : State) : State :=
  match w with
  | .keyStore b a => s.keyStoreUe b a
  | _ => s.stallUe w

/-- SCRUB_READ (R447 to R449). -/
def execScrubRead (word : SramWord) (outcome : EccOutcome) (s : State) : Out :=
  .next (match outcome with
    | .clean => s
    | .corrected => s.eccCorrected word
    | .uncorrectable => s.eccUe word
    | .passEnd => s.setFld Reg.SAFE_LATENT 63 32 (s.fld Reg.SAFE_LATENT 63 32 + 1))

/-! ## Latent tests (R450) -/

/-- The key of a latent item: kind 0 for a checker. -/
def itemKey : Sys2Proof.LatentItem → Nat
  | .spare k i => k * 256 + i
  | .checker i => i

/-- A spare failed its test: FAILED_TEST and LATENT_FAIL, and it is never used (R450). -/
def State.spareFails (kind index : Nat) (s : State) : State :=
  let s := if kind = 1 then s.setFld Reg.SPARE_TILES (32 + index) (32 + index) 1 else s
  let s := { s with safe := { s.safe with
    failedTest := (kind, index) :: s.safe.failedTest, latent := tDel (kind * 256 + index) s.safe.latent } }
  s.record Pg.SPARE 0xD9 0

/-- A checker failed its injection test (R450). -/
def State.checkerFails (s : State) : State :=
  ((s.record Pg.SAFE 0xDA 0).setFld Reg.SAFE_CAUSE 8 8 1).driveAlarm

/-- LATENT_TEST (R450): a test of a unit that is no ready spare does not happen. -/
def execLatentTest (item : LatentItem) (pass : Bool) (s : State) : Out :=
  let runs := match item with
    | .spare k i => (s.spares k).contains i
    | .checker _ => true
  if !runs then .next s
  else
    let s := s.tallyAdd Pg.SAFE 10 1
    let s := { s with safe := { s.safe with latent := tPut (itemKey item) s.now s.safe.latent } }
    if pass then .next s
    else match item with
      | .spare k i => .next ((s.spareFails k i).showUnits s.bellNo)
      | .checker _ => .next s.checkerFails

/-- SAFE_LATENT as read (R464): the oldest test and the item that holds it. -/
def State.latentView (s : State) : W64 :=
  match s.safe.latent with
  | [] => s.reg Reg.SAFE_LATENT
  | p :: t =>
    let old := t.foldl (fun (m : Nat × Nat) q => if q.2 < m.2 then q else m) p
    let age := min ((s.now - old.2) / 1000000000) 65535
    BitVec.ofNat 64 (age + (old.1 / 256 % 16) * 2 ^ 16 + old.1 % 256 * 2 ^ 20 + s.fld Reg.SAFE_LATENT 63 32 * 2 ^ 32)

/-! ## SPARE_RETIRE (R456) -/

/-- SPARE_RETIRE (R456): the unit is marked, or the write is refused at the floor of its kind. -/
def State.spareRetire (v : W64) (s : State) : State :=
  s.gated Reg.SPARE_RETIRE v fun s =>
    let kind := bits v.toNat 3 0
    let index := bits v.toNat 11 4
    if unitTotal kind ≤ index ∨ s.unitRetired kind index then s
    else if (s.spares kind).isEmpty && decide ((s.inUse kind).length ≤ unitFloor kind) then
      s.dropWrite 0xDC Reg.SPARE_RETIRE
    else s.markUnit kind index 0 false

/-- The command of that write. -/
def execSpareRetire (v : W64) (s : State) : Out := .next (s.spareRetire v)

/-! ## The lead (R461, R482, R513) -/

/-- The slices bound and live, by PSAFE_SLICES. -/
def State.liveSlices (s : State) : List Nat := (List.range 8).filter fun i => s.bit Reg.PSAFE_SLICES i

/-- The package vectors with an enabled bit set become pending once at a new lead (R513). -/
def State.leadVectors (s : State) : State :=
  (List.range 6).foldl (fun s p =>
    let pg := 0x100 + p
    if (s.reg (Reg.PAGE_IRQ_RAW pg) &&& s.reg (Reg.PAGE_IRQ_EN pg)) ≠ 0#64 then s.pend (vectorOf pg) else s) s

/-- A slice becomes lead (R461, R477, R482): every register that shows the lead follows. -/
def State.setLead (x : Nat) (s : State) : State :=
  let n := min (s.fld Reg.LEAD_STAT 15 8 + 1) 255
  let s := s.setReg Reg.LEAD_STAT (BitVec.ofNat 64 (x + 2 ^ 3 + n * 2 ^ 8 + s.bellNo % 2 ^ 48 * 2 ^ 16))
  let s := s.setFld Reg.PBELL_STATE 10 8 x
  let s := s.setFld Reg.PTIME_STAT 2 0 x
  let s := s.setFld Reg.SLC_STATE 3 3 (b2n (x == s.slice))
  let s := { s with bell := { s.bell with markerSent := false } }
  if x = s.slice then s.leadVectors else s

/-- LEAD_CHANGE, a code of the SAFE page (R467), is recorded by the slice that becomes lead (R461). -/
def State.leadChange (x : Nat) (s : State) : State := if x = s.slice then s.record Pg.SAFE 0xDE 0 else s

/-- With the lead gone the lowest-numbered live slice leads (R461, R463), and records it. -/
def State.electLead (s : State) : State :=
  match s.liveSlices with
  | x :: _ => (s.setLead x).leadChange x
  | [] => s.setFld Reg.LEAD_STAT 3 3 0

/-- LEAD_MOVE (R482): the lead moves at the next bell open, or the write is refused with LEAD_BAD. -/
def State.leadMove (v : W64) (s : State) : State :=
  s.gated Reg.LEAD_MOVE v fun s =>
    let x := bits v.toNat 2 0
    if bits v.toNat 8 8 = 0 then s
    else if !s.bit Reg.PKG_SLICES x || !s.bit Reg.PSAFE_SLICES x || s.bit Reg.PKG_SLICES (16 + x)
        || s.bit Reg.PSAFE_SLICES (16 + x) then s.dropWrite 0xEF Reg.LEAD_MOVE
    else { s with safe := { s.safe with leadMove := some x } }

/-- The command of that write. -/
def execLeadMove (v : W64) (s : State) : Out := .next (s.leadMove v)

/-! ## A slice that fails (R458 to R462) -/

/-- The slice goes fail-silent (R459): no frame leaves, the heartbeat stops, the alarm holds, the state is FAILED. -/
def State.goSilent (cause : Nat) (s : State) : State :=
  if s.safe.silent then s
  else
    let s := { s with safe := { s.safe with silent := true } }
    let s := s.setFld Reg.SLC_STATE 2 0 7
    let s := s.setFld Reg.SAFE_ALARM 2 2 0
    let s := s.setReg Reg.PSAFE_DEAD (BitVec.ofNat 64 (s.slice + cause * 2 ^ 8 + s.bellNo % 2 ^ 48 * 2 ^ 16))
    s.driveAlarm

/-- FAIL_SILENT (R459); the cause in the code of PSAFE_DEAD. -/
def execFailSilent (cause : Nat) (s : State) : Out := .next (s.goSilent cause)

/-- MCODE_CTRL_ERROR (R458): a flagged controller is fenced and the other runs alone; with no flag, or with the other
controller out of use already, it is an internal control failure. -/
def execMcodeCtrlError (controller : Nat) (flagged : Bool) (s : State) : Out :=
  let c := controller % 2
  let out (k : Nat) : Bool := s.bit Reg.SAFE_ALARM (3 + k) || s.unitRetired 6 k
  .next (
    if out c then s
    else
      let s := s.record Pg.SAFE 0xD6 0
      if !flagged || out (1 - c) then s.goSilent 2
      else s.setFld Reg.SAFE_ALARM (3 + c) (3 + c) 1)

/-- The number of slices of the package (R40). -/
def State.sliceCount (s : State) : Nat := s.fld Reg.EBS_CFG 7 4

/-- The slices with an edge to a slice (R40). -/
def partnersOf (n x : Nat) : List Nat :=
  (([1, n - 1, 2, n + n - 2].map fun d => (x + d) % max 1 n).filter (· != x)).eraseDups

/-- The own edges that are in use: not unused and not retired (R460). -/
def State.ownEdges (s : State) : List Nat := (List.range 4).filter fun e => s.edgeState e != 0 && s.edgeState e != 5

/-- A slice of the package is dead (R460, R461): PSAFE_DEAD, a new lead where it led, and SLICE_DEAD, which is a code of a
package page and so the new lead's to log (R513). -/
def State.sliceDead (x cause : Nat) (s : State) : State :=
  if !s.bit Reg.PSAFE_SLICES x then s
  else
    let s := (s.setFld Reg.PSAFE_SLICES x x 0).setFld Reg.PSAFE_SLICES (8 + x) (8 + x) 1
    let s := (s.setFld Reg.PSAFE_SLICES (16 + x) (16 + x) 0).setFld Reg.PKG_SLICES x x 0
    let s := s.setReg Reg.PSAFE_DEAD (BitVec.ofNat 64 (x + cause * 2 ^ 8 + s.bellNo % 2 ^ 48 * 2 ^ 16))
    let s := { s with safe := { s.safe with notes := s.safe.notes.filter fun n => n.1 != x, leaving := s.safe.leaving.filter (· != x) } }
    let s := if s.fld Reg.LEAD_STAT 2 0 = x ∧ s.bit Reg.LEAD_STAT 3 then s.electLead else s
    s.record Pg.PSAFE 0xDD 0

/-- The verdict of R460: every live partner of a slice has reported it. -/
def State.verdict (x : Nat) (s : State) : State :=
  let ps := (partnersOf s.sliceCount x).filter fun p => s.bit Reg.PSAFE_SLICES p
  if (!ps.isEmpty) && ps.all fun p => s.safe.notes.contains (x, p) then s.sliceDead x 1 else s

/-- A silence note leaves over the edges to the partners other than some (R460). -/
def State.sendNote (silent reporter : Nat) (skip : List Nat) (s : State) : State :=
  let es := s.ownEdges.filter fun e => s.edgeState e == 3 && !skip.contains (s.edgePartner e)
  es.foldl (fun s e => s.putLocal (18 + e) (s.stamp
    { dest := s.node / 8 * 8 + s.edgePartner e, src := s.node, cls := 0, type := 0x06,
      payload := pad8 [BitVec.ofNat 8 silent, BitVec.ofNat 8 reporter] })) s

/-- A note is held, and its verdict is taken. -/
def State.holdNote (silent reporter : Nat) (s : State) : State :=
  if s.safe.notes.contains (silent, reporter) then s
  else ({ s with safe := { s.safe with notes := s.safe.notes ++ [(silent, reporter)] } } : State).verdict silent

/-- EDGE_SILENCE (R460): an edge without a good frame for 40 µs. A slice all of whose edges are silent goes fail-silent,
but for slice 0 of a package of two. -/
def execEdgeSilence (edge : Nat) (s : State) : Out :=
  if !s.bound || !s.ownEdges.contains edge then .next s
  else
    let s := { s with safe := { s.safe with quiet := (edge :: s.safe.quiet).eraseDups } }
    if (s.ownEdges.all fun e => s.safe.quiet.contains e) && !(s.sliceCount == 2 && s.slice == 0) then .next (s.goSilent 2)
    else
      let x := s.edgePartner edge
      .next ((s.sendNote x s.slice [x]).holdNote x s.slice)

/-- SILENCE_NOTE_RECEIVE (R460): the note is relayed once, and held. -/
def execSilenceNoteReceive (silent reporter : Nat) (s : State) : Out :=
  if !s.bound || silent == s.slice || s.safe.notes.contains (silent, reporter) then .next s
  else .next ((s.sendNote silent reporter [silent, reporter]).holdNote silent reporter)

/-! ## Retiring a slice (R463) -/

/-- The slice still has work that keeps it in the package: an expert, and for this slice its sequences and contexts. -/
def State.sliceHolds (s : State) (x : Nat) : Bool :=
  let i := indexOfNat (s.node / 8 * 8 + x) s.res.sources
  (i.elim false fun i => s.expertIds.any fun e => replicates (s.dirNow e) i)
    || (x == s.slice && ((s.seqs.any fun q => q.2.state != 0) || (List.range 4).any fun c => s.ctxState c == 1))

/-- PSAFE_RETIRE (R463): the slice leaves at the next bell open, or the write is refused with SPARE_EXHAUSTED. -/
def State.psafeRetire (v : W64) (s : State) : State :=
  s.gated Reg.PSAFE_RETIRE v fun s =>
    let x := bits v.toNat 2 0
    if bits v.toNat 8 8 = 0 || !s.bit Reg.PSAFE_SLICES x then s
    else if s.sliceHolds x || s.liveSlices == [x] then s.dropWrite 0xDC Reg.PSAFE_RETIRE
    else (({ s with safe := { s.safe with leaving := (x :: s.safe.leaving).eraseDups } }).setFld Reg.PSAFE_SLICES (16 + x) (16 + x) 1)

/-- The command of that write. -/
def execPsafeRetire (v : W64) (s : State) : Out := .next (s.psafeRetire v)

/-- A retiring slice leaves the package engine (R463): PARK_READY; this slice's ports go RETIRED. -/
def State.leavePackage (x : Nat) (s : State) : State :=
  let s := (s.setFld Reg.PSAFE_SLICES x x 0).setFld Reg.PSAFE_SLICES (16 + x) (16 + x) 0
  let s := (s.setFld Reg.PKG_SLICES x x 0).setFld Reg.PKG_SLICES (24 + x) (24 + x) 1
  let s := if x = s.slice then
      ((List.range 18).foldl (fun s p => if portCarries (s.portState p) then s.stopPort p 4 else s.setFld (Reg.LINK_STAT p) 2 0 4) s
        ).setFld Reg.EBS_STAT 28 28 0
    else s
  if s.fld Reg.LEAD_STAT 2 0 = x then s.electLead else s

/-- The slice changes of a bell open: slices that leave, a lead that moves, a slice that R452 retires. -/
def State.slicesAtOpen (s : State) : State :=
  let xs := sortBy (fun a b => decide (a < b)) s.safe.leaving
  let s := { s with safe := { s.safe with leaving := [] } }
  let s := xs.foldl (fun s x => s.leavePackage x) s
  let s : State := match s.safe.leadMove with
    | some x =>
      let s := { s with safe := { s.safe with leadMove := none } }
      if s.bit Reg.PSAFE_SLICES x && s.fld Reg.LEAD_STAT 2 0 != x then s.setLead x else s
    | none => s
  if s.safe.retireSlice then s.goSilent 4 else s

/-! ## Heartbeat (R55, R56) -/

/-- HEARTBEAT_EDGE (R55): the level changes while the heartbeat runs. -/
def execHeartbeatEdge (s : State) : Out :=
  .next (if s.bit Reg.SAFE_ALARM 2 then { s with pins := { s.pins with hbeat := !s.pins.hbeat } } else s)

end Sys2Proof.Machine
end

