-- ==== Sys2Proof/Machine/Logs.lean ====
section
/-! DEFINITION. Tallies, the tally roll and the event log over time (R493 to R508): the latch at a bell open, the slots
as read, draining the trace FIFO, merged recordings, and the time base registers. -/
namespace Sys2Proof.Machine

/-! ## Tallies (R493 to R496) -/

/-- Every page (R514, R515). -/
def allPages : List Nat := List.range 0x1E ++ (List.range 18).map (0x20 + ·) ++ (List.range 6).map (0x100 + ·)

/-- A page's bank changes hands at a latch: an old one not read counts in UNREAD (R495). -/
def State.countUnread (k : Nat) (s : State) : State :=
  allPages.foldl (fun s pg =>
    if s.tally.readMarks.contains (pg * 2 + k) then s
    else s.setFld (Reg.PAGE_TALLY_SEL pg) 47 32 (min (s.fld (Reg.PAGE_TALLY_SEL pg) 47 32 + 1) 65535)) s

/-- A tally of a bank carries SAT: its counter stopped at its limit (R494). -/
def tallySat (p : Nat × Nat) : Bool := p.2 == tallyLimit (p.1 / 64) (p.1 % 64)

/-- The latch at the open of bell `n` (R493 to R495, R498): the live counters go to bank `n mod 2` and restart, but for what
the cycle of the open has counted, which stays for bell `n`; SAT shows
in PAGE_IRQ_RAW and TALLY_SAT. -/
def State.latchTallies (n : Nat) (s : State) : State :=
  let k := n % 2
  let t := s.tally
  let had := if k = 0 then t.bell0 else t.bell1
  let s := if had.isSome then s.countUnread k else s
  let live := t.late.foldl (fun c p => tSet zeroNat p.1 p.2.1 c) t.live
  let next := t.late.foldl (fun c p => tSet zeroNat p.1 p.2.2 c) []
  let marks := t.readMarks.filter fun m => m % 2 != k
  let s := { s with tally :=
    if k = 0 then { t with live := next, late := [], bank0 := live, bell0 := some (n - 1), readMarks := marks }
    else { t with live := next, late := [], bank1 := live, bell1 := some (n - 1), readMarks := marks } }
  let pages := ((live.filter tallySat).map fun p => p.1 / 64).eraseDups
  let s := s.setReg Reg.TALLY_SAT (BitVec.ofNat 64 (maskOf (pages.filter (· < 50))))
  pages.foldl (fun s pg => s.setRaw pg 1) s

/-- The newest bank. -/
def TallySt.newest (t : TallySt) : Nat :=
  match t.bell0, t.bell1 with
  | some a, some b => if a < b then 1 else 0
  | none, some _ => 1
  | _, none => 0

/-- The bank in view of a page (R495). -/
def State.bankInView (s : State) (pg : Nat) : Nat :=
  if s.bit (Reg.PAGE_TALLY_SEL pg) 3 then s.tally.newest else s.fld (Reg.PAGE_TALLY_SEL pg) 2 2

/-- A latched tally slot as read (R494, R495). -/
def State.tallyView (s : State) (pg slot : Nat) : W64 :=
  let bank := if s.bankInView pg = 0 then s.tally.bank0 else s.tally.bank1
  let key := pg * 64 + 16 * s.fld (Reg.PAGE_TALLY_SEL pg) 1 0 + slot
  let v := tGet zeroNat key bank
  BitVec.ofNat 64 (v + b2n (v != 0 && tallySat (key, v)) * 2 ^ 63)

/-- PAGE_TALLY_BELL as read (R496). -/
def State.tallyBellView (s : State) (pg : Nat) : W64 :=
  BitVec.ofNat 64 ((if s.bankInView pg = 0 then s.tally.bell0 else s.tally.bell1).getD 0)

/-- A read of a slot marks the bank in view as read (R495). -/
def State.markRead (pg : Nat) (s : State) : State :=
  let k := pg * 2 + s.bankInView pg
  if s.tally.readMarks.contains k then s else { s with tally := { s.tally with readMarks := k :: s.tally.readMarks } }

/-- TALLY_SLOT_READ (R495, R469): a page that exists and that the slice serves. -/
def execTallySlotRead (page slot : Nat) (s : State) : Out :=
  .next (if 16 ≤ slot ∨ !pageExists page then s
    else if !s.bound && !servedUnbound page then s.record Pg.SLC 0xEC (dropDetail (page * 0x1000 + 0x80 + 8 * slot) false)
    else s.markRead page)

/-- A write of PAGE_TALLY_SEL (R496): GROUP, BANK and FOLLOW take the value, and CLR_UNREAD empties UNREAD. -/
def State.tallySel (pg : Nat) (v : W64) (s : State) : State :=
  let s := s.setFld (Reg.PAGE_TALLY_SEL pg) 3 0 v.toNat
  if bits v.toNat 4 4 = 1 then s.setFld (Reg.PAGE_TALLY_SEL pg) 47 32 0 else s

/-- CLR_UNREAD (R496): the write leaves the other fields as they are. -/
def execClrUnread (page : Nat) (s : State) : Out :=
  let r := Reg.PAGE_TALLY_SEL page
  .next (s.gated r (BitVec.ofNat 64 (s.fld r 3 0 + 16)) fun s => s.tallySel page (BitVec.ofNat 64 (s.fld r 3 0 + 16)))

/-! ## PAGE_CTL (R517, R518) -/

/-- PAGE_ERR_FIRST is emptied and PAGE_ERR_COUNT is zero (R518). -/
def State.errClear (pg : Nat) (s : State) : State := (s.setReg (Reg.PAGE_ERR_FIRST pg) 0#64).setReg (Reg.PAGE_ERR_COUNT pg) 0#64

/-- The staged values of a page are withdrawn (R517), and with a table its check. -/
def State.stageDiscard (pg : Nat) (s : State) : State :=
  let s := (s.staged.filter fun p => p.1 / 0x1000 == pg).foldl (fun s p => s.keepStaged p.1) s
  let s := { s with staged := s.staged.filter fun p => p.1 / 0x1000 != pg }
  if pg = Pg.KEYS then ({ s with score := { s.score with keysPassed := none } } : State).setFld Reg.KEYS_CHECK 1 0 0
  else if pg = Pg.SEL then ({ s with score := { s.score with selPassed := none } } : State).setFld Reg.SEL_CHECK 1 0 0
  else if pg = Pg.MSEM then { s with msem := { s.msem with checkedRegions := none } }
  else s

/-- A write of PAGE_CTL (R518). -/
def State.pageCtl (pg : Nat) (v : W64) (s : State) : State :=
  let s := if bits v.toNat 0 0 = 1 then s.errClear pg else s
  if bits v.toNat 1 1 = 1 then s.stageDiscard pg else s

/-- ERR_CLR (R518). -/
def execErrClr (page : Nat) (s : State) : Out := .next (s.gated (Reg.PAGE_CTL page) 1#64 (State.pageCtl page 1#64))

/-- STAGE_DISCARD (R517). -/
def execStageDiscard (page : Nat) (s : State) : Out := .next (s.gated (Reg.PAGE_CTL page) 2#64 (State.pageCtl page 2#64))

/-! ## The tally roll (R499 to R501) -/

/-- TRACE_MARK (R506): a MARK item when KIND 9 is enabled. -/
def State.traceMark (v : W64) (s : State) : State :=
  s.gated Reg.TRACE_MARK v fun s => s.emit 0x09 [v]

/-- The command of that write. -/
def execTraceMark (v : W64) (s : State) : Out := .next (s.traceMark v)

/-- A trace line is written and not yet acknowledged. -/
def State.traceOut (s : State) : Bool :=
  s.chains.any fun c => c.2.any fun w => match w with
    | .reg r _ => r == Reg.TRACE_WPTR
    | _ => false

/-- A line of eight words leaves the FIFO for the ring, and TRACE_WPTR follows its acknowledgement (R501); room has
returned, so a pending GAP item may enter (R500). -/
def State.traceLine (line rest : List W64) (s : State) : State :=
  let base := s.fld Reg.TRACE_RING 51 12 * 4096
  let w := s.regNat Reg.TRACE_WPTR
  let s := { s with trace := { s.trace with fifo := rest } }
  let s := s.startChain [.bytes (base + w % 2 ^ s.fld Reg.TRACE_RING 4 0) (line.flatMap fun x => leBytes 8 x.toNat),
    .reg Reg.TRACE_WPTR (BitVec.ofNat 64 (w + 64))]
  (s.tallyAdd Pg.TRACE 3 1).traceGap

/-- The FIFO drains: BASE is not zero and no line is on its way (R501). -/
def State.traceDrains (s : State) : Bool := s.fld Reg.TRACE_RING 51 12 != 0 && !s.traceOut

/-- TRACE_LINE_WRITE (R501). -/
def execTraceLineWrite (s : State) : Out :=
  .next (if s.traceDrains && decide (8 ≤ s.trace.fifo.length) then s.traceLine (s.trace.fifo.take 8) (s.trace.fifo.drop 8) else s)

/-- TRACE_LINE_PAD (R501): a partial line is filled with zero words. -/
def execTraceLinePad (s : State) : Out :=
  let f := s.trace.fifo
  .next (if s.traceDrains && !f.isEmpty && decide (f.length < 8) then
    s.traceLine (f ++ List.replicate (8 - f.length) 0#64) [] else s)

/-- TRACE_STAT as read (R506). -/
def State.traceStatView (s : State) : W64 :=
  BitVec.ofNat 64 (min (8 * s.trace.fifo.length) 32768 + b2n (s.trace.gapCount != 0) * 2 ^ 16)

/-! ## The event log (R503) -/

/-- At a bell open the entries that merged recordings get their COUNT, unless they have been overwritten (R503). -/
def State.mergeEvents (s : State) : State :=
  let s := s.evSeen.foldl (fun s e =>
    if e.count = 0 ∨ s.fld Reg.EVLOG_RING 51 18 = 0 ∨ e.seq + 4096 < s.regNat Reg.EVLOG_NEXT then s
    else s.startChain [.bytes (s.evAddr e.seq + 0x1C) (leBytes 4 (min e.count (2 ^ 32 - 1)))]) s
  { s with evSeen := [] }

/-! ## The time base (R47, R507, R508) -/

/-- PTIME_SET (R507): while STOPPED the lead's time base steps; otherwise the write is dropped with TIME_SET_BUSY. -/
def State.ptimeSet (v : W64) (s : State) : State :=
  s.gated Reg.PTIME_SET v fun s =>
    if s.bellState ≠ 0 then s.dropWrite 0xF1 Reg.PTIME_SET
    else if s.isLead then s.timeStep v.toNat else s

/-- The command of that write. -/
def execPtimeSet (v : W64) (s : State) : Out := .next (s.ptimeSet v)

/-- TSYNC_PULSE (R47, R507, R508): the slice aligns to the lead's value; a time master floods TIME. -/
def execTsyncPulse (leadTime : Nat) (s : State) : Out :=
  if !s.bound then .next s
  else
    let t : Nat := leadTime % 2 ^ 64
    let off : Int := if s.isLead then 0 else (t : Int) - (s.now : Int)
    let s := s.setReg Reg.TIME_SYNC (BitVec.ofNat 64 (BitVec.ofInt 32 off).toNat)
    let s := s.offsetHigh off
    let s := s.setFld Reg.PTIME_STAT 31 16 (min off.natAbs 65535)
    let s := if s.isLead then s else { s with now := t }
    .next (if s.isLead && s.timeMaster then s.timeFrom 0 s.now 0 else s)

/-- TSYNC_LOST (R47, R507): the count of missing pulses; the third records TSYNC_LOST. The time base goes on. -/
def execTsyncLost (missed : Nat) (s : State) : Out :=
  let was := s.bit Reg.TIME_SYNC 40
  let s := (s.setFld Reg.TIME_SYNC 39 32 (min missed 255)).setFld Reg.TIME_SYNC 40 40 (b2n (3 ≤ missed))
  .next (if 3 ≤ missed ∧ !was then s.record Pg.TIME 0xF0 0 else s)

end Sys2Proof.Machine
end

