-- ==== Sys2Proof/Machine/Memp.lean ====
section
/-! DEFINITION. The boundary (R31 to R35, R43 to R46, R52, R53, R521 to R523): memory responses and timeouts by what a
request served, interrupt messages, clocks and throttle steps. -/
namespace Sys2Proof.Machine

/-! ## Interrupt messages -/

/-- A vector's message may leave: it is pending, unmasked, sent by this slice, none of it is outstanding or waits to be
issued again, and every memory write has been acknowledged (R52, R53, R523). -/
def State.irqReady (s : State) (v : Nat) : Bool :=
  s.bit Reg.IRQ_PEND v && !s.bit Reg.IRQ_MASK v && (v < 0x38 || s.isLead) && s.chains.isEmpty
    && !(s.irq.inFlight.any fun m => m.1 == v) && !s.irq.failed.contains v

/-- A message is issued: the vector is no longer pending (R53). -/
def State.irqSend (v : Nat) (s : State) : State :=
  if !s.irqReady v then s
  else
    let m := (v, s.fld (Reg.IRQ_ADDR v) 51 3 * 8, s.reg (Reg.IRQ_DATA v))
    let s := { s with irq := { s.irq with inFlight := s.irq.inFlight ++ [m] } }
    (s.setFld Reg.IRQ_PEND v v 0).setFld Reg.IRQ_STAT 31 0 (s.fld Reg.IRQ_STAT 31 0 + 1)

/-- IRQ_MESSAGE_SEND (R52, R53). -/
def execIrqMessageSend (vector : Nat) (s : State) : Out := .next (if vector < 64 then s.irqSend vector else s)

/-- A message write was answered: its word is in memory. -/
def State.irqDone (v : Nat) (s : State) : State :=
  match s.irq.inFlight.find? fun m => m.1 == v with
  | none => s
  | some m =>
    ({ s with irq := { s.irq with inFlight := s.irq.inFlight.filter fun m => m.1 != v } } : State).wr m.2.1 (leBytes 8 m.2.2.toNat)

/-- A message write failed: IRQ_WRITE_FAIL, and the vector stays pending until the message is issued again (R523). -/
def State.irqFail (v : Nat) (s : State) : State :=
  if !(s.irq.inFlight.any fun m => m.1 == v) then s
  else
    let s := { s with irq := ⟨s.irq.inFlight.filter fun m => m.1 != v, v :: s.irq.failed⟩ }
    let s := (s.setFld Reg.IRQ_PEND v v 1).setFld Reg.IRQ_STAT 38 32 (v + 64)
    s.record Pg.IRQ 0x08 v

/-- A failed message is issued again (R523). -/
def State.irqAgain (v : Nat) (s : State) : State :=
  if !s.irq.failed.contains v then s
  else ({ s with irq := { s.irq with failed := s.irq.failed.filter (· != v) } } : State).irqSend v

/-- IRQ_RETRY_TIMER (R523): while the bell is STOPPED, 1 ms after the failure. -/
def execIrqRetryTimer (vector : Nat) (s : State) : Out := .next (if s.bellState = 0 then s.irqAgain vector else s)

/-- The reserved vectors as a mask (R515). -/
def reservedMask : Nat := maskOf ((List.range 64).filter reservedVector)

/-- A write of IRQ_MASK (R522): a vector without an address cannot be unmasked; reserved bits read one. Unmasking a
pending vector sends its message (R53). -/
def State.irqMask (v : W64) (s : State) : State :=
  let bad := (List.range 64).any fun i =>
    !reservedVector i && s.bit Reg.IRQ_MASK i && bits v.toNat i i == 0 && s.fld (Reg.IRQ_ADDR i) 51 3 == 0
  if bad then s.dropWrite 0x03 Reg.IRQ_MASK
  else
    let opened := (List.range 64).filter fun i => s.bit Reg.IRQ_MASK i && bits v.toNat i i == 0
    let s := s.setReg Reg.IRQ_MASK (v ||| BitVec.ofNat 64 reservedMask)
    opened.foldl (fun s i => s.irqSend i) s

/-- IRQ_MASK_WRITE (R53, R522). -/
def execIrqMaskWrite (v : W64) (s : State) : Out := .next (s.gated Reg.IRQ_MASK v (State.irqMask v))

/-- Every vector named becomes pending, for test (R522). -/
def State.irqForce (v : W64) (s : State) : State :=
  ((List.range 64).filter fun i => bits v.toNat i i == 1).foldl (fun s i => s.pend i) s

/-- IRQ_FORCE (R522). -/
def execIrqForce (v : W64) (s : State) : Out := .next (s.gated Reg.IRQ_FORCE v (State.irqForce v))

/-- A write of PAGE_IRQ_EN (R521): a bit that it enables and that is set already makes the vector pending. -/
def State.irqEnable (pg : Nat) (v : W64) (s : State) : State :=
  let raw := s.reg (Reg.PAGE_IRQ_RAW pg)
  let new := v &&& ~~~(s.reg (Reg.PAGE_IRQ_EN pg)) &&& raw
  let s := s.setReg (Reg.PAGE_IRQ_EN pg) v
  if new != 0#64 && s.sendsVector pg then s.pend (vectorOf pg) else s

/-- IRQ_ENABLE_WRITE (R521). -/
def execIrqEnableWrite (page : Nat) (v : W64) (s : State) : Out :=
  .next (s.gated (Reg.PAGE_IRQ_EN page) v (State.irqEnable page v))

/-- A write of IRQ_ADDRv or IRQ_DATAv (R522, R523): a failed message of the vector is issued again at once. -/
def State.irqAddr (vector r : Nat) (v : W64) (s : State) : State := (s.setReg r v).irqAgain vector

/-- IRQ_ADDR_WRITE (R522, R523). -/
def execIrqAddrWrite (vector : Nat) (data : Bool) (v : W64) (s : State) : Out :=
  if 64 ≤ vector then .next s
  else
    let r := if data then Reg.IRQ_DATA vector else Reg.IRQ_ADDR vector
    .next (s.gated r v (State.irqAddr vector r v))

/-! ## Memory responses and timeouts (R32, R34, R35) -/

/-- The residency fetch of a block, with the offset in it of a local read at an address. -/
def State.fetchAt (s : State) (e l addr : Nat) : Option (Copy × Nat) :=
  (s.porter.copies.find? fun c => c.unit == 10 && !c.ended && c.a == e && c.b == l).map fun c =>
    let off := match s.localEnd c c.src c.srcHost false 64 with
      | .ok a => if a ≤ addr ∧ addr < a + c.len then (addr - a) / 4096 * 4096 else 0
      | .error _ => 0
    (c, off)

/-- The uncorrectable data error of a request's target (R34, R35): what the owning chapter says of it. -/
def State.targetFails (t : MemTarget) (addr : Nat) (s : State) : State :=
  match t with
  | .irq v => s.irqFail v
  | .seqData i l => s.failSeq 2 l i
  | .ringWrite i l => s.failSeq 4 l i
  | .input h i =>
    match s.curRound h with
    | some (a, r) => match a.toks[i]? with
      | some t => s.failSeq 2 r.layer t.seq
      | none => s
    | none => s
  | .projImage h l mirror =>
    match s.curRound h with
    | some (a, r) =>
      if r.layer ≠ l ∨ (!mirror ∧ bits (s.scoreEnt (s.confAt a.bell) l).mirror 51 6 ≠ 0) then s
      else (s.record Pg.KEYS 0x36 0).failSeqs 1 l (a.toks.map (·.seq))
    | none => s
  | .bankImage l mirror =>
    match [false, true].find? fun b => (s.bank b).loading && (s.bank b).layer == l with
    | some b =>
      if !mirror ∧ bits (s.scoreEntAt (s.bank b).table l).mirror 51 6 ≠ 0 then s else s.bankLoaded b false
    | none =>
      match [false, true].find? fun b => (s.bank b).refetch.isSome && (s.bank b).layer == l with
      | some b =>
        if !mirror ∧ bits (s.scoreEntAt (s.bank b).table l).mirror 51 6 ≠ 0 then s
        else (s.refetchLost (.bank b)).refetchOver (.bank b) (((s.bank b).refetch.map (·.2)).getD s.now)
      | none => s
  | .weights e l mirror =>
    match s.fetchAt e l addr with
    | some (c, off) => (s.fetchFails c off (min 4096 (c.len - off)) mirror 6).settleCopy c.id
    | none => s
  | .ctxBuffer c b => (s.ctxFault 0xCF c).bufferUe b
  | .ctxState c => (s.ctxFault 0xCF c).destroyCtx c
  | .remote tag => s.finishReq tag 6 []
  | .copy id => (s.stopCopy id 6).settleCopy id
  | .table t => { s with readFailed := if s.readFailed.contains (t, addr) then s.readFailed else (t, addr) :: s.readFailed }
  | .other => s

/-- The address of a request: a line of the host physical address space (R30). -/
def reqAddr (a : Nat) : Nat := a % memSpace / 64 * 64

/-- Reads of a half that ECC correction stalled (R81): a cycle for each word, as R81 counts them, is retry time of its round. -/
def State.eccStall (t : MemTarget) (words : Nat) (s : State) : State :=
  let add (h : Half) (l : Option Nat) (s : State) : State :=
    s.modRound h fun r => if l.all (· == r.layer) then { r with retry := r.retry + words } else r
  match t with
  | .input h _ => add h none s
  | .projImage h l _ => add h (some l) s
  | .seqData i l => add (halfOf (bits (h64 (s.seq i).host).toNat 0 0)) (some l) s
  | _ => s

/-- A request was answered in this cycle (R87). -/
def State.answered (a : Nat) (s : State) : State :=
  { s with
    memRetry := s.memRetry.filter fun p => p.1 != a
    memDone := (a, s.now) :: s.memDone.filter fun p => p.2 == s.now && p.1 != a }

/-- MEM_RESPONSE (R35, R523): a poisoned or uncorrectable response records MEM_UE and fails its target; a poisoned line
stays poisoned until it is written whole. -/
def execMemResponse (addr port : Nat) (target : MemTarget) (result : MemResult) (s : State) : Out :=
  let addr := reqAddr addr
  let s := s.answered addr
  .next (match result with
    | .ok => match target with
      | .irq v => s.irqDone v
      | _ => s
    | .corrected words => s.eccStall target words
    | .poisoned =>
      let l := addr / 64
      let s := { s with poison := if s.poison.contains l then s.poison else sortBy (fun a b => decide (a < b)) (l :: s.poison) }
      (s.memFault 0x06 addr port).targetFails target addr
    | .uncorrectable => (s.memFault 0x06 addr port).targetFails target addr
    | .error => s.targetFails target addr)

/-- MEM_WRITE_ACK (R32). -/
def execMemWriteAck (chain : Nat) (s : State) : Out := .next (s.ackChain chain)

/-- MEM_TIMEOUT (R34, R87): a timeout in the cycle of the response is suppressed. Otherwise the request is issued once more
on the next port; when that times out too, the first port fails and the target has an uncorrectable data error. -/
def execMemTimeout (addr : Nat) (target : MemTarget) (s : State) : Out :=
  let addr := reqAddr addr
  if s.memDone.contains (addr, s.now) then .next s.lateMargin
  else match s.memRetry.find? fun p => p.1 == addr with
  | none => .next { s with memRetry := s.memRetry ++ [(addr, s.portOf addr)] }
  | some p =>
    let s := { s with memRetry := s.memRetry.filter fun q => q.1 != addr, portsLeaving := p.2 :: s.portsLeaving }
    let s := s.setFld Reg.MEMP_PORT_FAIL p.2 p.2 1
    .next ((s.memFault 0x05 addr p.2).targetFails target addr)

/-- The list of R31 in force at a bell (R34, R36): a port that failed since the bell before leaves it, even where its bit of
MEMP_PORT_FAIL has been cleared; it comes back only by a write of PORT_EN that a later bell open brings into force. -/
def State.portsAtOpen (staged : Bool) (s : State) : State :=
  let base := if staged then s.reg Reg.MEMP_PORT_EN else s.reg Reg.MEMP_PORT_LIVE
  let gone := s.reg Reg.MEMP_PORT_FAIL ||| BitVec.ofNat 64 (maskOf s.portsLeaving)
  ({ s with portsLeaving := [] } : State).setReg Reg.MEMP_PORT_LIVE (base &&& ~~~gone)

/-- FLOOR_SHORT (R33, R83): recorded once for the bell; the cycles counted are those at that moment. A running slot has the
cause FLOOR if it becomes late. -/
def execFloorShort (s : State) : Out :=
  .next (s.oncePerBell (Pg.MEMP * 256 + 4) fun s =>
    let s := (s.record Pg.MEMP 0x04 0).tallyAdd Pg.MEMP 2 2001
    let f (r : Round) : Round := { r with beyondW := true }
    (s.modRound .calico f).modRound .muslin f)

/-! ## Clocks (R43 to R46) -/

/-- ARITH_STEP_CHANGE (R43 to R45): a running slot is throttled when the clock falls below the step its bell was costed
at. -/
def execArithStepChange (step next : Nat) (s : State) : Out :=
  let s := { s with pins := { s.pins with arithStep := step % 4, arithNext := next % 4 } }
  .next ([Half.calico, .muslin].foldl (fun s h =>
    match s.curRound h with
    | some (a, _) => if a.step < step % 4 then s.modRound h fun r => { r with throttled := true } else s
    | none => s) s)

/-- CLK_FAULT (R46): recorded in the SLC page; the alarm goes to 0b10, and a fault of CTRL_CLK stops the heartbeat. -/
def execClkFault (clock : Clock) (s : State) : Out :=
  let s := s.record Pg.SLC 0x07 0
  let s := { s with safe := { s.safe with clkFault := true } }
  let s := if clock = .ctrl then s.setFld Reg.SAFE_ALARM 2 2 0 else s
  .next s.driveAlarm

end Sys2Proof.Machine
end

