-- ==== Sys2Proof/Machine/Bell.lean ====
section
/-! DEFINITION. The bell schedule (R60 to R67, R71): PBELL_GO, HALT, the markers, the period, the lead window; and step
plans as they are posted and checked (R72, R107, R108). -/
namespace Sys2Proof.Machine

/-! ## The period (R66) -/

/-- The staged bell period, where one is staged. -/
def State.stagedPeriod (s : State) : Option Nat := (tFind Reg.PBELL_PERIOD s.staged).map fun v => bits v.toNat 27 0

/-- The period in force (R91). -/
def State.periodLive (s : State) : Nat := s.fld Reg.PBELL_PERIOD_LIVE 27 0

/-- A staged period takes effect at the open of bell `n`, where none is in force or APPLY_AT has come (R13, R66). -/
def State.periodDue (s : State) (n : Nat) : Bool := s.periodLive == 0 || decide (s.regNat Reg.PBELL_APPLY_AT ≤ n)

/-- The period in force from the open of bell `n`. -/
def State.periodAt (s : State) (n : Nat) : Nat :=
  match s.stagedPeriod with
  | some p => if s.periodDue n then p else s.periodLive
  | none => s.periodLive

/-- A period is staged (R64, R66): PERIOD_LATE when APPLY_AT names a bell before the next one. -/
def State.stagePeriod (v : W64) (s : State) : State :=
  let s := s.stage Reg.PBELL_PERIOD v
  let s := { s with bell := { s.bell with periodEver := true } }
  let at_ := s.regNat Reg.PBELL_APPLY_AT
  if at_ ≠ 0 ∧ at_ < s.bell.nextBell then s.record Pg.PBELL 0x19 0 else s

/-- The period applies at the open of bell `n`: the marker's where one is held (R61), else that of R66. -/
def State.applyPeriod (n : Nat) (s : State) : State :=
  let due := s.stagedPeriod.isSome && s.periodDue n
  let p := s.periodAt n
  let s := if due then { (s.setReg Reg.PBELL_PERIOD (s.stagedReg Reg.PBELL_PERIOD)) with staged := tDel Reg.PBELL_PERIOD s.staged }
    else s
  let p := match s.bell.marker with
    | some (b, _, q) => if b = n then q else p
    | none => p
  s.setReg Reg.PBELL_PERIOD_LIVE (BitVec.ofNat 64 p)

/-! ## Start and stop -/

/-- The steps of `period` from `start` until a time of at least `t`. -/
def stepsTo (start period t : Nat) : Nat := ceilDiv (t - start) period

/-- The first scheduled bell that lies at least 10 µs ahead (R65): its number and time. Where a staged period applies at
a later bell than PBELL_FIRST, the bells up to that one follow the period in force. -/
def State.firstBell (s : State) : Nat × Nat :=
  let first := s.regNat Reg.PBELL_FIRST
  let start := s.regNat Reg.PBELL_START
  let p := s.periodAt first
  let j := stepsTo start p (s.now + 10000)
  let k := s.regNat Reg.PBELL_APPLY_AT - first
  if s.stagedPeriod.isNone ∨ s.periodDue first ∨ j ≤ k then (first + j, start + j * p)
  else
    let q := s.periodAt (first + k)
    let i := stepsTo (start + k * p) q (s.now + 10000)
    (first + k + i, start + k * p + i * q)

/-- GO (R64, R65, R91): the bell is armed, or the engine stays STOPPED with BAD_STAGE. -/
def State.bellGo (s : State) : State :=
  if s.bellState ≠ 0 then s
  else if !s.bell.periodEver ∨ s.periodAt (s.regNat Reg.PBELL_FIRST) = 0
      ∨ (s.bell.everOpened ∧ s.regNat Reg.PBELL_FIRST ≤ s.bell.highest) then s.dropWrite 0x10 Reg.PBELL_GO
  else
    let f := s.firstBell
    let s := { s with
      stagedLate := []
      bell := { s.bell with
        everGo := true, nextBell := f.1, nextOpen := f.2, marker := none, markerSent := false, leadOpen := false } }
    s.setFld Reg.PBELL_STATE 1 0 1

/-- HALT (R67, R91): no bell opens after the current one. -/
def State.bellHalt (s : State) : State :=
  if s.bellState ≠ 2 then s
  else
    let s := s.setFld Reg.PBELL_STATE 1 0 3
    ({ s with bell := { s.bell with marker := none, markerSent := false, leadOpen := false } } : State).haltDone

/-- A write of PBELL_GO (R91): both bits act on the state at the write. -/
def State.goWrite (v : W64) (s : State) : State :=
  let st := s.bellState
  let s := if bits v.toNat 1 1 = 1 then s.bellHalt else s
  if bits v.toNat 0 0 = 1 ∧ st = 0 then s.bellGo else s

/-- PBELL_GO (R64, R65). -/
def execPbellGo (s : State) : Out := .next (s.gated Reg.PBELL_GO 1#64 State.bellGo)

/-- PBELL_HALT (R67). -/
def execPbellHalt (s : State) : Out := .next (s.gated Reg.PBELL_GO 2#64 State.bellHalt)

/-! ## Markers (R61, R62) -/

/-- A bell is still to open: ARMED or RUNNING. -/
def State.bellComes (s : State) : Bool := s.bellState == 1 || s.bellState == 2

/-- The slice that sends the next marker: the lead, or the slice to which LEAD_MOVE moves the lead at that bell (R61, R482). -/
def State.sendsMarker (s : State) : Bool :=
  match s.safe.leadMove with
  | some x => x == s.slice
  | none => s.isLead

/-- BELL_MARKER_SEND (R61, R62, R482): the lead sends the marker of the next bell, at least 2 µs before it, to every other
slice of its package. -/
def execBellMarkerSend (s : State) : Out :=
  .next (if !s.sendsMarker || !s.bellComes || s.bell.markerSent || decide (s.bell.nextOpen < s.now + 2000) || s.safe.silent then s
    else
      let n := s.bell.nextBell
      let pay := pad8 (leBytes 8 n ++ leBytes 8 s.bell.nextOpen ++ leBytes 4 (s.periodAt n))
      let s := { s with bell := { s.bell with markerSent := true } }
      s.packageMates.foldl (fun s m => s.send (s.floodPacket (s.node / 8 * 8 + m) 1 15 pay)) s)

/-- BELL_MARKER_RECEIVE (R61): the slice follows the marker, with BELL_SKEW when its own copy of the schedule disagrees. A
marker of a bell already opened is a duplicate and changes nothing (R390). -/
def execBellMarkerReceive (bell opens period : Nat) (s : State) : Out :=
  .next (if !s.bellComes || decide (bell < s.bell.nextBell) then s
    else
      let same := bell == s.bell.nextBell && opens == s.bell.nextOpen && period == s.periodAt bell
      let s := { s with bell := { s.bell with marker := some (bell, opens, period), nextBell := bell, nextOpen := opens } }
      if same then s
      else
        let s := s.record Pg.BELL 0x17 0
        { s with bell := { s.bell with flags := setBits s.bell.flags 2 2 1 } })

/-! ## The lead window (R71) -/

/-- When the lead window of the next bell starts (R71): max(period × LEAD_PERMIL / 1,000, 2,000 ns) before its open, with the
period in force now; a fraction of a nanosecond counts as a whole one (DESIGN CHOICE, notes/assumptions/13.md). -/
def State.leadStart (s : State) : Nat :=
  s.bell.nextOpen - max (ceilDiv (s.periodLive * s.fld Reg.BELL_LEAD 9 0) 1000) 2000

/-- The lead window of the next bell is open: it has been opened, or the time base has reached its start (R71). -/
def State.inLead (s : State) : Bool := s.bellComes && (s.bell.leadOpen || decide (s.leadStart ≤ s.now))

/-- The lead window of the next bell starts: what it holds back and what runs in it (R72, R420, R429, R455). -/
def State.leadWindow (s : State) : State :=
  let s := { s with bell := { s.bell with leadOpen := true } }
  s.marksAtLead.switchAtLead s.bell.nextBell

/-- LEAD_WINDOW_OPEN (R71): the time base reaches the start of the lead window. -/
def execLeadWindowOpen (s : State) : Out :=
  .next (if s.bellComes && !s.bell.leadOpen then ({ s with now := max s.now s.leadStart } : State).leadWindow else s)

/-! ## Step plans (R72, R107, R108) -/

/-- Plans that one bell takes (R72). -/
def planLimit : Nat := 16

/-- BELL_PLAN_STAT QUEUED. -/
def State.showPlans (s : State) : State := s.setFld Reg.BELL_PLAN_STAT 4 0 s.bell.plans.length

/-- A plan waits for the bell after the next one (R72). -/
def State.deferPlan (code addr : Nat) (s : State) : State :=
  ({ s with bell := { s.bell with deferred := s.bell.deferred ++ [⟨addr, false, []⟩] } } : State).record Pg.BELL code 0

/-- A plan is posted (R72): for the next bell; inside the lead window, or as the 17th plan, for the bell after. A plan whose
check has not ended counts toward the 16, though it may be rejected later (DESIGN CHOICE, notes/assumptions/15.md). -/
def State.postPlan (addr : Nat) (s : State) : State :=
  let s := s.readsOver (.plan addr)
  if s.inLead then
    let s := s.deferPlan 0x14 addr
    { s with bell := { s.bell with flags := setBits s.bell.flags 3 3 1 } }
  else if planLimit ≤ s.bell.plans.length then s.deferPlan 0x15 addr
  else ({ s with bell := { s.bell with plans := s.bell.plans ++ [⟨addr, false, []⟩] } } : State).showPlans

/-- BELL_PLAN_POST (R72, R89). -/
def State.bellPlanPost (v : W64) (s : State) : State :=
  s.gated Reg.BELL_PLAN v fun s =>
    if bits v.toNat 0 0 = 0 then s else s.postPlan (bits v.toNat 51 6 * 64)

/-- The command of that write. -/
def execBellPlanPost (v : W64) (s : State) : Out := .next (s.bellPlanPost v)

/-- The check of a plan (R107, R108): QUEUED, or REJECTED with PLAN_MALFORMED; answers whether it passed. -/
def State.checkPlan (a : Nat) (s : State) : Bool × State :=
  let s := s.noteUe a (64 + 64 * s.planCount a)
  let ok := s.planOk a
  let s := s.readsOver (.plan a)
  if ok then (true, s.wr (a + 3) [1#8])
  else (false, (s.wr (a + 3) [3#8]).record Pg.SEQ 0x27 0)

/-- The first plan of a list that is not checked yet is checked: the list after it, where there is one. -/
def State.checkFirst (s : State) : List Plan → Option (List Plan × State)
  | [] => none
  | p :: t =>
    if p.checked then (State.checkFirst s t).map fun r => (p :: r.1, r.2)
    else
      let edits := s.planEdits p.addr
      let (ok, s) := s.checkPlan p.addr
      some (if ok then { p with checked := true, edits := edits } :: t else t, s)

/-- The oldest plan posted and not checked is checked. -/
def State.checkNextPlan (s : State) : State :=
  match s.checkFirst s.bell.plans with
  | some (ps, s) => ({ s with bell := { s.bell with plans := ps } } : State).showPlans
  | none =>
    match s.checkFirst s.bell.deferred with
    | some (ps, s) => { s with bell := { s.bell with deferred := ps } }
    | none => s

/-- PLAN_CHECK_DONE (R107, R108): the check of the plan posted first ends. -/
def execPlanCheckDone (s : State) : Out := .next s.checkNextPlan

/-- Plans apply at bell open, in the order posted; a check still under way ends first (R72, R107). A plan that was not
deferred is followed by those deferred, up to 16; more are deferred again with PLAN_FULL. -/
def State.plansAtOpen (s : State) : State :=
  let s := s.bell.plans.foldl (fun s p => if p.checked then s else s.checkNextPlan) s
  let ps := s.bell.plans
  let s := ps.foldl (fun s p => s.applyPlan p) s
  let d := s.bell.deferred
  let s := { s with bell := { s.bell with
    plans := d.take planLimit, deferred := d.drop planLimit, plansApplied := ps.length } }
  let s := (s.bell.deferred).foldl (fun s _ => s.record Pg.BELL 0x15 0) s
  s.showPlans.setFld Reg.BELL_PLAN_STAT 5 5 (b2n !d.isEmpty)

end Sys2Proof.Machine
end

