-- ==== Sys2Proof/Machine/Scales.lean ====
section
/-! DEFINITION. The Scales (R74 to R80, R104, R105, R117, R118, R149, R191, R195, R196, R216, R223, R286, R415, R416,
R479): the conditions under which no token is admitted, the formula of a slot's bound, and admission. -/
namespace Sys2Proof.Machine

/-! ## Values that would be in force (R416, R479) -/

/-- The registers as they would be in force at the next bell open: staged values, and tables that have passed. -/
def State.nextConf (s : State) : Table W64 :=
  let keep (r : Nat) : Bool := (r == Reg.KEYS_TABLE && s.score.keysPassed.isNone) || (r == Reg.SEL_TABLE && s.score.selPassed.isNone)
  let c := (s.staged.filter fun p => !keep p.1).foldl (fun c p => tSet resetOf p.1 p.2 c) s.regs
  let c := match s.score.keysPassed with
    | some _ => tSet resetOf Reg.KEYS_TABLE_LIVE (s.stagedReg Reg.KEYS_TABLE) c
    | none => c
  match s.score.selPassed with
  | some _ => tSet resetOf Reg.SEL_TABLE_LIVE (s.stagedReg Reg.SEL_TABLE) c
  | none => c

/-- A count of a configuration is below its minimum (R216). -/
def State.ovfShort (s : State) (c : Table W64) : Bool :=
  (s.ovfMins c).zipIdx.any fun p => 8 * confFld c Reg.POOL_OVF_CNT (16 * p.2 + 15) (16 * p.2) < p.1

/-! ## SLC_BLOCK (R479) -/

/-- The source set is this slice alone, or lies in this slice's package (R79). -/
def State.aloneSet (s : State) (nodes : List Nat) : Bool := nodes == [s.node]
def State.packageSet (s : State) (nodes : List Nat) : Bool := !nodes.isEmpty && nodes.all fun n => nodePkgDom n == nodePkgDom s.node

/-- The bits of SLC_BLOCK, from bit 0, under a configuration, a source set and a count of ports. -/
def State.blockBits (s : State) (c : Table W64) (nodes : List Nat) (ports : Nat) : List Bool :=
  let z (r hi lo : Nat) : Bool := confFld c r hi lo == 0
  [ z Reg.MEMP_FLOOR 13 0,
    z Reg.BELL_BUDGET 27 0,
    z Reg.SCORE_IN 51 12 || z Reg.SCORE_LIST 51 16,
    z Reg.KEYS_TABLE_LIVE 63 0,
    z Reg.SEL_TABLE_LIVE 63 0,
    z Reg.AUC_SRCSET 51 6 || z Reg.AUC_SRCCOUNT 15 0,
    s.experts == 0,
    z Reg.POOL_OVF 51 21 || s.ovfShort c,
    z Reg.CMB_RET 51 21 || z Reg.CMB_RET 15 0,
    z Reg.TILE_LIST 51 12 || z Reg.TILE_DBELL 51 3 || z Reg.TILE_VIEW 51 38,
    z Reg.CTX_MODEL 15 0 || z Reg.CTX_MODEL 24 16 || z Reg.CTX_MODEL 31 25,
    (s.inUse 1).length < 2,
    (s.inUse 2).length < 16,
    ports == 0 && !s.packageSet nodes && !s.aloneSet nodes ]

/-- Flags as a number, the first at bit 0. -/
def bitsOf (bs : List Bool) : Nat := sumNat (bs.zipIdx.map fun p => b2n p.1 * 2 ^ p.2)

/-- The live nodes of the source set at the next bell open (R79, R266, R479): a new set starts without notices. -/
def State.nextLive (s : State) : List Nat :=
  let xs := s.nextSources
  if xs = s.res.sources then
    ((List.range xs.length).filter fun i => !s.absentAt s.bell.nextBell i).map (nodeAt xs)
  else xs

/-- The live nodes of a bell's source set (R266). -/
def State.liveNodes (s : State) (bell : Nat) : List Nat := (s.liveSources bell).map (nodeAt (s.sourcesAt bell))

/-- What SLC_BLOCK shows (R479); before a repair map is accepted it stands at its reset value. -/
def State.blockView (s : State) : W64 :=
  if s.slcState < 3 then 0x3FFF#64
  else BitVec.ofNat 64 (bitsOf (s.blockBits s.nextConf s.nextLive ((List.range 18).filter s.inP).length))

/-! ## The formula (R79, R80) -/

/-- What a bell's Scales know besides the layer and N: the configuration, H, S, the rate P in GB/s and whether the port
parts stand, and W before the reduction of R140. -/
structure Terms where
  conf : Table W64
  h : Nat
  sources : Nat
  rate : Nat
  alone : Bool
  w : Nat
  tiles : Nat
  step : Nat
  deriving DecidableEq, Repr

/-- The frequency of an ARITH step in units of 0.1 GHz (R43). -/
def stepTenths (step : Nat) : Nat := [40, 32, 24, 16].getD step 16

/-- T_round of R80. -/
def tRound (diam : Nat) : Nat := if diam ≤ 4 then 1500 else 3000

/-- The bound of a layer's slot with N tokens (R79), from its scoring cycles, projection bytes and selection entry. -/
def slotBound (t : Terms) (l cycles proj : Nat) (e : SelEnt) (n : Nat) : Nat :=
  let c := t.conf
  let f := confFld c Reg.MEMP_FLOOR 13 0
  let diam := confFld c Reg.BELL_DIAM 3 0
  let d := confD c
  let scoring := max (ceilDiv (n * cycles * 80) (t.tiles * stepTenths t.step)) (ceilDiv (n * 2 * d + proj) f)
  let m := max t.h (n * e.g)
  let qf := m * confBfwd c l + t.sources * 64
  let w := t.w - n * confWire c l
  let port (b : Nat) : Nat := if t.alone then 0 else ceilDiv b t.rate
  let dispatch := port (min qf w) + ceilDiv (qf - w) f + diam * 120
  let ret := port (m * confBret c l + t.sources * 64) + diam * 120
  let combine := ceilDiv (ceilDiv (n * (e.sharedIds.length + e.g) * d) 4096) 2
  let output := ceilDiv (n * d * confOutBytes c l) f
  500 + scoring + 400 + 300 + (1 + e.x) * tRound diam + 200 + dispatch + ret + combine + output
    + confFld c Reg.BELL_ALLOW 15 0

/-- The bounds of every layer as functions of N: what is fixed per layer is computed once. -/
def State.layerBounds (s : State) (t : Terms) : List (Nat → Nat) :=
  (confRange t.conf).map fun l =>
    let x := s.scoreEnt t.conf l
    let d := confD t.conf
    let cycles := x.cycles s.experts d (s.groupsOf x)
    let proj := x.projBytes d
    let e := s.selEnt t.conf l
    slotBound t l cycles proj e

/-! ## Limits of one half -/

/-- The return area fits N tokens (R222, R223). -/
def State.areaFits (s : State) (c : Table W64) (n : Nat) : Bool :=
  let places := s.hMax c + s.gMax c
  decide (ceilDiv (n * places * 4) 4096 * 4096 + n * places * confBretMax c ≤ confFld c Reg.CMB_RET 15 0 * 2 ^ 20)

/-- The frames of the two regions and the free frames as the Scales count them: a region that waits for its new layout
counts with it (R195). -/
def State.regionPlan (s : State) : Nat × Nat × Nat :=
  let need := ceilDiv (s.regionBytes s.bellNo) frameBytes
  let place (h : Half) (free : Nat) : Nat × Nat :=
    let own := (s.region h).length
    if s.pool.regionWait.contains h then
      let n := min need (own + free)
      (n, own + free - n)
    else (own, free)
  let a := place .calico s.freeFrames.length
  let b := place .muslin a.2
  (a.1, b.1, b.2)

/-- The frames of a half's region, and W of R196 in frames, as sampled. -/
def Samp.own (x : Samp) (h : Half) : Nat := if h = .calico then x.calFrames else x.musFrames
def Samp.wFrames (x : Samp) (h : Half) : Nat := x.own h + x.free

/-- The receive region of a half has no place for all its bytes (R195, R219). -/
def State.recvShort (s : State) (c : Table W64) (h : Half) : Bool :=
  let ovf := if confFld c Reg.DISP_OVF 51 21 = 0 then 0 else confFld c Reg.DISP_OVF 15 0 * 2 ^ 20
  decide (s.bell.samp.own h * frameBytes + ovf < s.regionBytes s.bellNo)

/-! ## Candidates (R74, R104, R105, R111) -/

/-- A candidate's place in the order of R74 before its position: the level of its context, decode before prefill, the
bell since which it is pending, the hash. Two sequences of a slice never share a hash (R96, R97). -/
def Seq.hash (e : Seq) : W64 := h64 e.host
def Seq.prefill (e : Seq) : Bool := e.nextPos < e.promptEnd
def candBefore (a b : Nat × Seq) : Bool :=
  if a.2.ctx ≠ b.2.ctx then decide (b.2.ctx < a.2.ctx)
  else if a.2.prefill ≠ b.2.prefill then b.2.prefill
  else if a.2.pendSince ≠ b.2.pendSince then decide (a.2.pendSince < b.2.pendSince)
  else decide (a.2.hash.toNat < b.2.hash.toNat)

/-- P of R105: how many positions a sequence offers. -/
def Seq.offers (e : Seq) : Nat :=
  let p := min e.pending (2 ^ e.log2Pos)
  if e.prefill && e.chunk != 0 then min p e.chunk else p

/-- The half of a sequence (R19). -/
def Seq.half (e : Seq) : Half := halfOf (bits e.hash.toNat 0 0)

/-- A sequence offers candidates: ACTIVE, its context resident at this bell (R104, R111). -/
def State.offering (s : State) (e : Seq) : Bool := e.state == 1 && (s.ctxAt e.ctx).st == 1

/-- The candidates of a half in the order of R74. -/
def State.candidates (s : State) (h : Half) : List Tok :=
  let qs := sortBy candBefore (s.seqs.filter fun p => s.offering p.2 && p.2.half == h)
  qs.flatMap fun p => (List.range p.2.offers).map fun k =>
    { seq := p.1, pos := p.2.nextPos + k, gen := p.2.gen, ctx := p.2.ctx, host := p.2.host, hash := p.2.hash }

/-- The candidates that stood at the bell open (R74): a sequence that fails afterwards keeps its own (R112). -/
def State.candsOf (s : State) : Half → List Tok
  | .calico => s.bell.candCal
  | .muslin => s.bell.candMus

/-- The longest prefix: candidates are taken while the next one fits (R75); `n` are taken already. -/
def takeWhileFits (fits : Nat → Bool) : Nat → List Tok → List Tok
  | _, [] => []
  | n, t :: ts => if fits (n + 1) then t :: takeWhileFits fits (n + 1) ts else []

/-- Tokens of a half at most (R76). -/
def halfLimit : Nat := 8192

/-- The tokens admitted in a half, and whether the return area alone ended admission (R75, R76, R223). -/
def State.admitHalf (s : State) (c : Table W64) (bounds : List (Nat → Nat)) (h : Half) : List Tok × Bool :=
  let budget := confFld c Reg.BELL_BUDGET 27 0
  let inBudget (n : Nat) : Bool := decide (n ≤ halfLimit) && bounds.all fun b => decide (b n ≤ budget)
  if !inBudget 0 then ([], false)
  else
    let cs := s.candsOf h
    let xs := takeWhileFits (fun n => inBudget n && s.areaFits c n) 0 cs
    (xs, decide (xs.length < cs.length) && inBudget (xs.length + 1))

/-! ## Admission -/

/-- The terms of a half at the bell in progress. -/
def State.terms (s : State) (c : Table W64) (h : Half) : Terms :=
  let bell := s.bellNo
  let live := s.liveNodes bell
  let x := s.bell.samp
  { conf := c, h := s.siteH bell, sources := live.length, alone := s.aloneSet live
    rate := if s.packageSet live then 2500 * x.edges else 640 * x.ports
    w := x.wFrames h * frameBytes, tiles := x.tiles, step := x.step }

/-- TILE_CFG_BAD, TILE_EXHAUSTED, LANE_EXHAUSTED: conditions that the Scales record (R149, R191, R286). -/
def State.noteBlocks (c : Table W64) (s : State) : State :=
  let bad := confFld c Reg.TILE_LIST 51 12 = 0 ∨ confFld c Reg.TILE_DBELL 51 3 = 0 ∨ confFld c Reg.TILE_VIEW 51 38 = 0
  (if bad then s.tileFault 0x7F 0 none else s).exhausted

/-- Nothing is admitted in either half: a bit of SLC_BLOCK stands, a model switch is under way (R429), or P is zero
(R79). -/
def State.admitsNone (s : State) (c : Table W64) : Bool :=
  let t := s.terms c .calico
  (s.blockBits c (s.liveNodes s.bellNo) s.bell.samp.ports).any id || s.ctx.modelStopped || s.fld Reg.CTX_STATE 17 16 == 2
    || (!t.alone && t.rate == 0)

/-- Admission of a half: its tokens and the bound of each layer; RECV_SPACE and, once, CMB_RET_SPACE are recorded. Where a
condition stops all admission, the formula of R79 is not evaluated, and the bounds are 0 (DESIGN CHOICE,
notes/assumptions/16.md). -/
def State.scaleHalf (none_ : Bool) (c : Table W64) (h : Half) (s : State) : (List Tok × List Nat) × State :=
  let bounds := s.layerBounds (s.terms c h)
  if none_ then (([], bounds.map fun _ => 0), s)
  else if s.recvShort c h then (([], bounds.map fun _ => 0), s.record Pg.DISP 0x52 0)
  else
    let (xs, cut) := s.admitHalf c bounds h
    ((xs, bounds.map fun b => b xs.length), if cut then s.recordOnce Pg.CMB 0x60 0 else s)

/-- The admitted tokens of a sequence advance its entry (R95, R104). -/
def State.advanceSeq (bell : Nat) (toks : List Tok) (i : Nat) (s : State) : State :=
  let e := s.seq i
  let n := (toks.filter fun t => t.seq == i).length
  let next := e.nextPos + n
  s.setSeq i { e with
    nextPos := next, admitted := n, lifetime := e.lifetime + n
    pendSince := if n ≠ 0 ∧ e.promptEnd ≤ next then bell + 1 else e.pendSince }

/-- DISPLACED of R431: pending tokens of a context in a half that admitted a token of a higher level. -/
def State.displace (cands adm : List Tok) (s : State) : State :=
  let left := cands.drop adm.length
  left.foldl (fun s t =>
    if adm.any fun a => t.ctx < a.ctx then s.modCtx t.ctx fun x => { x with displaced := x.displaced + 1 } else s) s

/-- The bytes of an admission list (R116). -/
def State.listBytes (s : State) (toks : List Tok) : List Byte :=
  toks.flatMap fun t => leBytes 8 ((s.slice * 256 + t.seq) * 2 ^ 53 + t.pos * 2 ^ 29 + t.gen)

/-- The admission lists and then BELL_PENDING (R116, R117). -/
def State.writeLists (c : Table W64) (bell : Nat) (cal mus : List Tok) (pending : Nat) (s : State) : State :=
  let base := confFld c Reg.SCORE_LIST 51 16 * 2 ^ 16
  let one (h : Half) (ts : List Tok) : List WStep :=
    if ts.isEmpty ∨ base = 0 then [] else [.bytes (base + (2 * (bell % 2) + h.num) * 65536) (s.listBytes ts)]
  let v := pending % 2 ^ 32 + cal.length * 2 ^ 32 + mus.length * 2 ^ 48
  s.startChain (one .calico cal ++ one .muslin mus ++ [.reg Reg.BELL_PENDING (BitVec.ofNat 64 v)])

/-- Tokens that are pending and not admitted (R117): of every ACTIVE sequence, its pending tokens less those of it that were
admitted. -/
def State.pendingLeft (s : State) (toks : List Tok) : Nat :=
  sumNat ((s.seqs.filter fun p => p.2.state == 1).map fun p => p.2.pending - (toks.filter fun t => t.seq == p.1).length)

/-- The ledger record header (R88). -/
def State.ledgerHead (s : State) (c : Table W64) (bell cal mus pending : Nat) : List Byte :=
  let x := s.bell.samp
  leBytes 8 bell ++ leBytes 8 (s.regNat Reg.PBELL_OPEN) ++ leBytes 4 s.periodLive ++ leBytes 4 (confFld c Reg.BELL_BUDGET 27 0)
    ++ leBytes 2 (confFld c Reg.MEMP_FLOOR 13 0) ++ leBytes 1 x.step ++ leBytes 1 x.tiles ++ leBytes 1 x.ports
    ++ leBytes 1 (confFld c Reg.BELL_DIAM 3 0) ++ leBytes 2 (confLayers c) ++ leBytes 2 cal ++ leBytes 2 mus
    ++ leBytes 4 (min pending (2 ^ 32 - 1)) ++ leBytes 1 s.bell.plansApplied ++ leBytes 1 s.bell.flags ++ leBytes 22 0

/-- The header is written, and the bell's slots are counted; a bell of no routed layer has none to end (R88). -/
def State.openLedger (c : Table W64) (bell cal mus pending : Nat) (s : State) : State :=
  let slots := 2 * confLayers c
  let s := { s with bell := { s.bell with ledger := tSet zeroNat bell slots s.bell.ledger } }
  let s := match s.ledgerAt bell with
    | none => s
    | some a => s.startChain (.bytes a (s.ledgerHead c bell cal mus pending) ::
        (if slots = 0 then [.reg Reg.BELL_LEDGER_HEAD (BitVec.ofNat 64 bell)] else []))
  { s with bell := { s.bell with flags := 0 } }

/-- The admitted set of a half joins those that run or wait (R90). -/
def State.addSet (h : Half) (a : AdmSet) (s : State) : State :=
  let x := s.half h
  s.setHalf h { x with sets := x.sets ++ [a] }

/-- Admission at the bell in progress (R74 to R79). -/
def State.scales (s : State) : State :=
  let bell := s.bellNo
  let c := s.confAt bell
  let s := s.noteBlocks c
  let none_ := s.admitsNone c
  let cc := s.candsOf .calico
  let cm := s.candsOf .muslin
  let (a, s) := s.scaleHalf none_ c .calico
  let (b, s) := s.scaleHalf none_ c .muslin
  let toks := a.1 ++ b.1
  let noRoom := (!cc.isEmpty && a.1.isEmpty) || (!cm.isEmpty && b.1.isEmpty)
  let pend := s.pendingLeft toks
  let s := if noRoom then { s with bell := { s.bell with flags := setBits s.bell.flags 0 0 1 } } else s
  let s := (s.displace cc a.1).displace cm b.1
  let s := s.writeLists c bell a.1 b.1 pend
  let s := s.openLedger c bell a.1.length b.1.length pend
  let s := ((s.seqs.filter fun p => p.2.state != 0).map (·.1)).foldl (fun s i => s.advanceSeq bell toks i) s
  let s := (s.tallyAdd Pg.BELL 0 toks.length).tallyAdd Pg.SEQ 5 pend
  let s := s.emit 0x01 [BitVec.ofNat 64 bell, BitVec.ofNat 64 (a.1.length + b.1.length * 2 ^ 16)]
  if confLayers c = 0 then s
  else (s.addSet .calico ⟨bell, a.1, a.2, s.bell.samp.step, false⟩).addSet .muslin ⟨bell, b.1, b.2, s.bell.samp.step, false⟩

/-- The Scales of the bell in progress end, once a bell; held doorbells may take effect (R78). -/
def State.scalesEnd (s : State) : State :=
  if s.bell.scalesDone || !s.bell.everOpened then s
  else
    let s := s.scales
    ({ s with bell := { s.bell with scalesDone := true } } : State).releaseAll.switchBanks.oldTables.haltDone

/-- SCALES_COMPLETE (R78). -/
def execScalesComplete (s : State) : Out := .next s.scalesEnd

end Sys2Proof.Machine
end

