-- ==== Sys2Proof/Machine/Dirctl.lean ====
section
/-! DEFINITION. The package directory (R526 to R529): edit lists for every slice of the package, and the comparison of the
slices' directory copies. -/
namespace Sys2Proof.Machine

/-! ## Package edit lists (R526) -/

/-- A package list ends: APPLIED or REFUSED, with the DIRCTL vector. -/
def State.dirctlEnds (stat : Nat) (s : State) : State := (s.setReg Reg.DIRCTL_STAT (BitVec.ofNat 64 stat)).raise Pg.DIRCTL

/-- No slice applies the list: DIRCTL_STAT REFUSED, DIR_EDIT_REFUSED. -/
def State.dirctlRefuse (slice reason expert : Nat) (s : State) : State :=
  let st := 4 + slice % 8 * 2 ^ 4 + reason % 16 * 2 ^ 8 + expert % 2 ^ 15 * 2 ^ 12
  (s.dirctlEnds st).record Pg.DIRCTL 0x0A st

/-- DIRCTL_EDIT (R526): a list is posted to every slice; it replaces any list that is not in force. -/
def State.dirctlEdit (v : W64) (s : State) : State :=
  s.gated Reg.DIRCTL_EDIT v fun s =>
    let s := { s.readsOver .packageEdits with
      pkg := { s.pkg with dirList := some (bits v.toNat 51 12 * 4096, bits v.toNat 11 0 + 1, s.regNat Reg.DIRCTL_AT) }
      res := { s.res with edit := none, editPost := none } }
    s.setReg Reg.DIRCTL_STAT 1#64

/-- The command of that write. -/
def execDirctlEdit (v : W64) (s : State) : Out := .next (s.dirctlEdit v)

/-- Less than 1 µs is left until bell AT opens, or it has opened (R526). -/
def State.tooLate (s : State) (at_ : Nat) : Bool :=
  at_ != 0 && s.bellComes && (decide (at_ < s.bell.nextBell) || (at_ == s.bell.nextBell && decide (s.bell.nextOpen < s.now + 1000)))

/-- This slice's own check of a package list (R246): what it refuses with, or the list to queue. -/
def State.ownCheck (base n : Nat) (s : State) : Except (Nat × Nat × Bool) (List (Nat × Nat)) :=
  if s.unreadable .packageEdits base (32 * n) then .error (0, 8, false) else s.editCheck .packageEdits (s.editBytes base n)

/-- The refusal of the lowest-numbered slice. -/
def firstRefusal (xs : List (Nat × Nat × Nat)) : Option (Nat × Nat × Nat) :=
  (sortBy (fun a b => decide (a.1 < b.1)) xs).head?

/-- DIRCTL_CHECK_DONE (R526): every slice's check has ended; `results` are the refusals of the others, as slice, reason
and expert. The list is queued for one bell open or refused. -/
def execDirctlCheckDone (results : List (Nat × Nat × Nat)) (s : State) : Out :=
  match s.pkg.dirList with
  | none => .next s
  | some (base, n, at_) =>
    let s := ({ s with pkg := { s.pkg with dirList := none } } : State).noteUe base (32 * n)
    let others := results.filter fun r => r.1 != s.slice && s.bit Reg.PSAFE_SLICES r.1
    let s := if s.unreadable .packageEdits base (32 * n) then s else s.noteEdits (s.editBytes base n)
    let own := s.ownCheck base n
    let mine : List (Nat × Nat × Nat) := match own with
      | .error (e, r, _) => [(s.slice, r, e)]
      | .ok _ => []
    let s : State := match own with
      | .error (e, r, cap) => s.dirRefuse Reg.RES_EDIT_STAT 4 2 e r cap
      | .ok _ => s
    match firstRefusal (mine ++ others), own with
    | some (x, r, e), _ => .next (s.dirctlRefuse x r e)
    | none, .error (e, r, _) => .next (s.dirctlRefuse s.slice r e)
    | none, .ok edits =>
      if s.tooLate at_ then .next (s.dirctlRefuse 0 11 0)
      else
        let descs := s.descRead s.nextSources (s.descBase false) edits
        let s := (s.setReg Reg.RES_EDIT_STAT 2#64).setReg Reg.DIRCTL_STAT 2#64
        .next { s with res := { s.res with
          edit := some { edits := edits, descs := descs, checkedAt := s.now, pkg := true, atBell := at_ } } }

/-- Directory edit lists at the open of a bell (R246, R247, R526): the list that was queued, from either page; a package
list still in its checks at bell AT is LATE. -/
def State.editsOpen (bell : Nat) (rehomed : Bool) (s : State) : State :=
  let was := match s.res.edit with
    | some l => l.pkg
    | none => false
  let s := s.editsAtOpen bell rehomed
  let s :=
    if was && s.res.edit.isNone then
      if s.fld Reg.RES_EDIT_STAT 2 0 = 3 then s.dirctlEnds (3 + bell % 2 ^ 32 * 2 ^ 32)
      else s.dirctlRefuse s.slice (s.fld Reg.RES_EDIT_STAT 7 4) (s.fld Reg.RES_EDIT_STAT 22 8)
    else s
  match s.pkg.dirList with
  | some (_, _, at_) =>
    if at_ ≠ 0 ∧ at_ ≤ bell then ({ s with pkg := { s.pkg with dirList := none } } : State).dirctlRefuse 0 11 0 else s
  | none => s

/-! ## The comparison of the copies (R527) -/

/-- The digest of this slice's directory in force. -/
def State.dirDigest (s : State) : W64 := crc64 (s.expertIds.flatMap fun e => leBytes 16 (s.dirNow e))

/-- The slices that hold a directory copy: bound, alive and not parked. -/
def State.dirHolders (s : State) : List Nat := s.liveSlices.filter fun i => s.bit Reg.PKG_SLICES i && !s.bit Reg.PKG_SLICES (16 + i)

/-- How often a digest stands in a list. -/
def countDigest (d : W64) (xs : List (Nat × W64)) : Nat := (xs.filter fun p => p.2 == d).length

/-- The reference: the digest held by most slices; on a tie the lead's (R527). -/
def refDigest (lead : Nat) (xs : List (Nat × W64)) : W64 :=
  let top := maxNat (xs.map fun p => countDigest p.2 xs)
  let best := ((xs.filter fun p => countDigest p.2 xs == top).map (·.2)).eraseDups
  match best with
  | [d] => d
  | _ => match xs.find? fun p => p.1 == lead with
    | some p => p.2
    | none => best.headD 0

/-- Layers of a half's first set whose LAYER_OUT has rung. -/
def HalfSt.rung (x : HalfSt) : Nat :=
  match x.cur, x.heldLayer with
  | some r, _ => r.layer
  | none, some l => l
  | none, none => x.expected

/-- The scope of R527 in a half: every token of the rounds admitted at the bell; rounds that have rung LAYER_OUT are
suspect. -/
def State.splitScope (bell : Nat) (h : Half) (s : State) : State :=
  let x := s.half h
  let s : State := match x.sets with
    | a :: _ =>
      if a.bell = bell ∧ !a.toks.isEmpty then
        let s := (List.range x.rung).foldl (fun (s : State) l => s.suspect bell l h 0 (a.toks.length - 1)) s
        s.taintHalf h
      else s
    | [] => s
  let x := s.half h
  s.setHalf h { x with sets := x.sets.map fun (a : AdmSet) => if a.bell = bell then { a with taint := true } else a }

/-- A round admitted at the bell has rung LAYER_OUT in a half: part of the scope is delivered (R437). -/
def State.splitDelivered (s : State) (bell : Nat) (h : Half) : Bool :=
  match (s.half h).sets with
  | a :: _ => a.bell == bell && !a.toks.isEmpty && decide (0 < (s.half h).rung)
  | [] => false

/-- DIR_DIGEST_COMPARE (R527): the reference digest, the slices that differ from it or sent none, and, when this slice is
one of them, its wrong-selection report. `digests` are the digests of the other slices that arrived. -/
def execDirDigestCompare (digests : List (Nat × W64)) (s : State) : Out :=
  .next (if !s.bit Reg.DIRCTL_CTL 0 || !s.bell.everOpened || !s.dirHolders.contains s.slice then s
    else
      let hs := s.dirHolders
      let xs := (s.slice, s.dirDigest) :: digests.filter fun p => p.1 != s.slice && hs.contains p.1
      let ref := refDigest (s.fld Reg.LEAD_STAT 2 0) xs
      let same (i : Nat) : Bool := xs.any fun p => p.1 == i && p.2 == ref
      let split := maskOf (hs.filter fun i => !same i)
      let v := split + 2 ^ 8 + s.bellNo % 2 ^ 48 * 2 ^ 16
      let s := (s.setReg Reg.DIRCTL_DIGEST ref).setReg Reg.DIRCTL_SPLIT (BitVec.ofNat 64 v)
      if split = 0 then s
      else
        let s := (s.record Pg.DIRCTL 0x09 v).raise Pg.DIRCTL
        if same s.slice then s
        else
          let delivered := s.splitDelivered s.bellNo .calico || s.splitDelivered s.bellNo .muslin
          ((s.splitScope s.bellNo .calico).splitScope s.bellNo .muslin).safeReport 3 0x09 0 .calico 0 0 delivered)

end Sys2Proof.Machine
end

