-- ==== Sys2Proof/Machine/Sha.lean ====
section
/-! DEFINITION. SHA-256, the digest of a microcode image (R474, as in FIPS 180-4). -/
namespace Sys2Proof.Machine

/-- A word of SHA-256. -/
abbrev ShaWord := BitVec 32

/-- The primes below `n`, ascending. -/
def primesBelow (n : Nat) : List Nat :=
  (List.range n).filter fun p => 2 ≤ p && (List.range p).all fun d => d < 2 || p % d != 0

/-- The first 32 bits of the fraction of the `k`-th root of `p`, `p` below `16 ^ k`: the root of `p * 2 ^ (32 * k)` is
formed bit by bit from the top. -/
def rootFraction (k p : Nat) : ShaWord :=
  BitVec.ofNat 32 ((List.range 36).foldr (fun i r => if (r + 2 ^ i) ^ k ≤ p * 2 ^ (32 * k) then r + 2 ^ i else r) 0)

/-- The round constants of FIPS 180-4: the fractions of the cube roots of the first 64 primes (PRESUMED,
notes/assumptions/30.md). -/
def shaK : List ShaWord := (primesBelow 312).map (rootFraction 3)

/-- The initial hash value of FIPS 180-4: the fractions of the square roots of the first eight primes. -/
def shaInit : List ShaWord := (primesBelow 20).map (rootFraction 2)

/-- The big-endian word of four bytes. -/
def shaWord (b : List Byte) : ShaWord := BitVec.ofNat 32 (b.foldl (fun n x => n * 256 + x.toNat) 0)

/-- The words of a byte list, `n` of them. -/
def shaWords : Nat → List Byte → List ShaWord
  | 0, _ => []
  | n + 1, b => shaWord (b.take 4) :: shaWords n (b.drop 4)

/-- The message padded with 0x80, zeros, and its length in bits as eight bytes, most significant first. -/
def shaPad (b : List Byte) : List Byte :=
  b ++ [0x80#8] ++ leBytes ((119 - b.length % 64) % 64) 0 ++ (leBytes 8 (8 * b.length)).reverse

/-- A sum of rotations and one shift, as the message schedule uses it. -/
def shaSmall (r1 r2 sh : Nat) (x : ShaWord) : ShaWord := x.rotateRight r1 ^^^ x.rotateRight r2 ^^^ (x >>> sh)

/-- A sum of three rotations, as the rounds use it. -/
def shaBig (r1 r2 r3 : Nat) (x : ShaWord) : ShaWord := x.rotateRight r1 ^^^ x.rotateRight r2 ^^^ x.rotateRight r3

/-- Picks, bit by bit, from the second word where the first has a one and from the third elsewhere. -/
def shaPick (x y z : ShaWord) : ShaWord := (x &&& y) ||| (~~~x &&& z)

/-- The bit that at least two of three words have. -/
def shaMost (x y z : ShaWord) : ShaWord := (x &&& (y ||| z)) ||| (y &&& z)

/-- One of the 64 rounds over the eight working variables a to h, held in that order, with the sum of its constant and its
schedule word: every variable moves one place on, h leaves, and e and a take the new sums. -/
def shaRound (v : List ShaWord) (kw : ShaWord) : List ShaWord :=
  let at_ (i : Nat) : ShaWord := v.getD i 0#32
  let gain := at_ 7 + kw + shaPick (at_ 4) (at_ 5) (at_ 6) + shaBig 6 11 25 (at_ 4)
  let top := gain + shaMost (at_ 0) (at_ 1) (at_ 2) + shaBig 2 13 22 (at_ 0)
  top :: (v.take 7).modify 3 (· + gain)

/-- The rounds over the constants; `ws` holds the next 16 schedule words, and the schedule grows as they are used. -/
def shaRounds : List ShaWord → List ShaWord → List ShaWord → List ShaWord
  | [], _, v => v
  | _, [], v => v
  | k :: ks, w :: ws, v =>
    let next := w + shaSmall 7 18 3 (ws.getD 0 0#32) + ws.getD 8 0#32 + shaSmall 17 19 10 (ws.getD 13 0#32)
    shaRounds ks (ws ++ [next]) (shaRound v (k + w))

/-- One block of 64 bytes enters the hash value. -/
def shaBlock (h : List ShaWord) (b : List Byte) : List ShaWord :=
  List.zipWith (· + ·) h (shaRounds shaK (shaWords 16 b) h)

/-- `n` blocks, in order. -/
def shaBlocks : Nat → List Byte → List ShaWord → List ShaWord
  | 0, _, h => h
  | n + 1, b, h => shaBlocks n (b.drop 64) (shaBlock h (b.take 64))

/-- The 32 bytes of the digest of a message. -/
def sha256 (b : List Byte) : List Byte :=
  let p := shaPad b
  (shaBlocks (p.length / 64) p shaInit).flatMap fun w => (leBytes 4 w.toNat).reverse

end Sys2Proof.Machine
end

