-- ==== Sys2Proof/Machine/Startup.lean ====
section
/-! DEFINITION. Start-up and live change (R48 to R51, R58, R468 to R486): resets, built-in test, the repair map, microcode,
Ebsan binding and the package engine. -/
namespace Sys2Proof.Machine

/-! ## Resets (R48 to R50) -/

/-- What a reset leaves (R50's table): registers, memories of the slice and membership as at reset, host memory kept;
`time` is the time base afterwards. Free values, the waiting commands, and what the integrator wires stay. -/
def State.cleared (time : Nat) (s : State) : State :=
  { State.reset with
    pins := { s.pins with hbeat := false }, apertureBase := s.apertureBase, now := time, mem := s.mem, poison := s.poison,
    free := s.free, pending := s.pending }

/-- PORST_ASSERT (R48): the whole slice is cleared, the time base too. -/
def execPorstAssert (s : State) : Out :=
  let s := s.cleared 0
  .next { s with pins := { s.pins with porstLow := true } }

/-- Built-in test starts when the last reset is released (R470). -/
def State.startBist (s : State) : State :=
  if s.pins.porstLow || s.pins.slrstLow || s.start.porstHeld || s.start.slrstHeld then s
  else
    let s := s.setFld Reg.SLC_STATE 2 0 1
    if s.start.resetClock then ({ s with start := { s.start with resetClock := false } } : State).record Pg.SLC 0xE0 0 else s

/-- PORST_RELEASE (R48): with stable clocks built-in test starts; released earlier, the engine stays in reset until the
clocks have been stable, which the next release with stable clocks stands for. -/
def execPorstRelease (clocksStable : Bool) (s : State) : Out :=
  if !s.pins.porstLow && !s.start.porstHeld then .next s
  else
    let s := { s with
      pins := { s.pins with porstLow := false, powered := true }
      start := { s.start with porstHeld := !clocksStable, resetClock := s.start.resetClock || !clocksStable } }
    .next s.startBist

/-- The slice is in the reset of IKC_PORST_N, in which IKC_SLRST_N has no effect (R48, R50). -/
def State.inPorst (s : State) : Bool := s.pins.porstLow || s.start.porstHeld

/-- SLRST_ASSERT (R49, R50, R459): no effect while IKC_PORST_N is low; otherwise the slice is cleared but for the time
base, and is fail-silent. -/
def execSlrstAssert (s : State) : Out :=
  if s.inPorst then .next { s with pins := { s.pins with slrstLow := true } }
  else
    let s := s.cleared s.now
    .next { s with pins := { s.pins with slrstLow := true }, safe := { s.safe with silent := true } }

/-- SLRST_RELEASE (R48, R50, R481): built-in test starts; released before the clocks are stable the slice stays in reset, as
R48 says of IKC_PORST_N. While IKC_PORST_N is low only the pin changes. -/
def execSlrstRelease (clocksStable : Bool) (s : State) : Out :=
  if s.inPorst then .next { s with pins := { s.pins with slrstLow := false } }
  else if !s.pins.slrstLow && !s.start.slrstHeld then .next s
  else
    let s := { s with
      pins := { s.pins with slrstLow := false }
      safe := { s.safe with silent := !clocksStable }
      start := { s.start with slrstHeld := !clocksStable, resetClock := s.start.resetClock || !clocksStable } }
    .next s.startBist

/-- POWER_REMOVE (R58): the own slice keeps nothing, its memory stacks included (R461); another slice is PARKED when it
was PARK_READY, and dead otherwise. -/
def execPowerRemove (slice : Nat) (s : State) : Out :=
  if slice % 8 = s.slice then
    let s := s.cleared 0
    .next { s with pins := { s.pins with powered := false, porstLow := true }, mem := [], poison := [] }
  else if s.bit Reg.PKG_SLICES (24 + slice % 8) then
    .next ((s.setFld Reg.PKG_SLICES (24 + slice % 8) (24 + slice % 8) 0).setFld Reg.PKG_SLICES (16 + slice % 8) (16 + slice % 8) 1)
  else .next (s.sliceDead (slice % 8) 1)

/-! ## Built-in test (R470) -/

/-- A failed unit that no spare covers: one without a spare, or both of a lock-stepped pair (R470). -/
def bistFatal (failed : List (Nat × Nat)) : Bool :=
  (failed.any fun u => u.1 == 11) || [5, 6].any fun k => failed.contains (k, 0) && failed.contains (k, 1)

/-! ## The repair map (R471, R472) -/

/-- The bit of a unit in the map image, as a bit number of the 64 bytes: kinds 1 to 6, 7 Felano port, 8 wavelength, 9 Ebsan
edge, 10 memory port (R471, R487). -/
def mapBit (kind index : Nat) : Nat :=
  if kind = 1 then 64 + index
  else if kind = 2 then 64 + 9 + index
  else if kind = 5 then 64 + 43 + index
  else if kind = 6 then 64 + 45 + index
  else if kind = 9 then 64 + 47 + index
  else if kind = 3 then 128 + index
  else if kind = 4 then 192 + index
  else if kind = 7 then 256 + 8 + index
  else if kind = 10 then 256 + 26 + index
  else 320 + index

/-- Kinds of a map with their unit counts. -/
def mapKinds : List (Nat × Nat) := [(1, 9), (2, 34), (3, 52), (4, 72), (5, 2), (6, 2), (7, 18), (8, 162), (9, 4), (10, 16)]

/-- Every unit of a map. -/
def mapUnits : List (Nat × Nat) := mapKinds.flatMap fun k => (List.range k.2).map fun i => (k.1, i)

/-- The mask of the bits of a map image that name a unit. -/
def mapMask : Nat := maskOf (mapUnits.map fun u => mapBit u.1 u.2)

/-- The map image of a set of units (R471). -/
def mapImage (units : List (Nat × Nat)) : List Byte :=
  let n := maskOf ((units.filter mapUnits.contains).map fun u => mapBit u.1 u.2)
  let body := leBytes 56 (n / 2 ^ 64)
  leBytes 2 1 ++ leBytes 2 0 ++ leBytes 4 (crc32c body).toNat ++ body

/-- A map with a wrong format, CRC or reserved bit (R472). -/
def mapBad (b : List Byte) : Bool :=
  fieldAt b 0 2 != 1 || fieldAt b 2 2 != 0 || fieldAt b 4 4 != (crc32c ((b.drop 8).take 56)).toNat
    || (let n := fieldAt b 0 64 / 2 ^ 64 * 2 ^ 64; n &&& mapMask != n)

/-- A map retires a unit. -/
def mapRetires (b : List Byte) (kind index : Nat) : Bool := bits (fieldAt b 0 64) (mapBit kind index) (mapBit kind index) == 1

/-- Units of a kind in use under a map (R472): the lowest-numbered that are not retired, up to the active count; of
memory ports, edges and controllers every one that is not retired; of lanes the count of each port. -/
def mapInUse (b : List Byte) (kind : Nat) : List Nat :=
  let n := (mapKinds.find? fun k => k.1 == kind).elim 0 (·.2)
  let live := (List.range n).filter fun i => !mapRetires b kind i
  if kind = 8 then (List.range 18).flatMap fun p => (live.filter fun i => i / 9 == p).take 8
  else if kind = 7 then live.take 16
  else if kind = 6 ∨ 9 ≤ kind then live
  else live.take (unitActive kind)

/-- A unit in use under a map failed built-in test (R472). -/
def State.mapMismatch (s : State) (b : List Byte) : Bool := s.start.bistFailed.any fun u => (mapInUse b u.1).contains u.2

/-- The SPARE page, ports, lanes, edges and memory ports take a map (R472). -/
def State.showMap (b : List Byte) (s : State) : State :=
  let s := [1, 2, 3, 4, 5, 6].foldl (fun s k =>
    (List.range (unitTotal k)).foldl (fun s i =>
      if mapRetires b k i then s.setFld (retiredBit k i).1 (retiredBit k i).2 (retiredBit k i).2 1 else s) s) s
  let s := (List.range 18).foldl (fun s p =>
    let lanes := (mapInUse b 8).filterMap fun i => if i / 9 = p then some (i % 9) else none
    let gone := (List.range 9).filter fun j => mapRetires b 8 (9 * p + j) || s.start.bistFailed.contains (8, 9 * p + j)
    let s := (s.setFld (Reg.LINK_STAT p) 11 3 (maskOf lanes)).setFld (Reg.LINK_LANE p) 8 0 (maskOf gone)
    if mapRetires b 7 p then s.setFld (Reg.LINK_STAT p) 2 0 4
    else if s.start.bistFailed.contains (7, p) then s.setFld (Reg.LINK_STAT p) 2 0 3 else s) s
  let s := (List.range 4).foldl (fun s e => if mapRetires b 9 e then s.setFld Reg.EBS_STAT (4 * e + 3) (4 * e) 5 else s) s
  s.setFld Reg.MEMP_PORT_FAIL 15 0 (maskOf ((List.range 16).filter fun p => mapRetires b 10 p))

/-- The spares that failed built-in test become FAILED_TEST (R450, R472). -/
def State.failedSpares (b : List Byte) (s : State) : State :=
  (s.start.bistFailed.filter fun u => mapUnits.contains u && !mapRetires b u.1 u.2).foldl (fun s u => s.spareFails u.1 u.2) s

/-- An accepted map takes effect (R472, R56): the places of banks, the unit counts, the latent tests' start, the
heartbeat, MCODE_WAIT. -/
def State.mapAccept (b : List Byte) (s : State) : State :=
  let s := (s.showMap b).failedSpares b
  let k := s.inUse 3
  let t := s.inUse 4
  let s := (s.setPlaces 3 (k ++ List.replicate (48 - k.length) 255)).setPlaces 4 (t ++ List.replicate (64 - t.length) 255)
  let lost := ((List.range 64).filter fun i => t.length ≤ i).map (· / 2)
  let s := lost.eraseDups.foldl (fun s f => s.loseFrame f) s
  let auc := s.readyUnits 5
  let s := { s with safe := { s.safe with
    aucAlone := auc.length < 2
    latent := ([1, 2, 3, 4].flatMap fun k => (s.spares k).map fun i => k * 256 + i).foldl
      (fun t k => tPut k s.now t) s.safe.latent } }
  let s := s.setFld Reg.SPARE_CTRL 2 2 (auc.headD 0)
  let s := (s.showUnits 0).setFld Reg.SAFE_ALARM 2 2 1
  let s := { s with start := { s.start with mapOk := true, mapHeld := none } }
  s.setFld Reg.SLC_STATE 2 0 3

/-- A repair map is loaded and checked (R472). -/
def State.loadMap (addr : Nat) (s : State) : State :=
  let s := s.noteUe addr 64
  let b := s.rd addr 64
  if s.poisoned addr 64 || mapBad b then s.record Pg.SLC 0xE4 0
  else if s.mapMismatch b then s.record Pg.SLC 0xE5 0
  else s.mapAccept b

/-- SLC_REPAIR (R472): held during built-in test, loaded in MAP_WAIT, dropped with WRITE_ONCE once a map is accepted. -/
def State.slcRepair (v : W64) (s : State) : State :=
  s.gated Reg.SLC_REPAIR v fun s =>
    if s.start.mapOk then s.dropWrite 0xE6 Reg.SLC_REPAIR
    else
      let s := s.setReg Reg.SLC_REPAIR v
      let a := bits v.toNat 51 6 * 64
      if s.slcState = 1 then { s with start := { s.start with mapHeld := some a } }
      else if s.slcState = 2 then s.loadMap a
      else s

/-- The command of that write. -/
def execSlcRepair (v : W64) (s : State) : Out := .next (s.slcRepair v)

/-- BIST_DONE (R470): the outcome is shown; a fatal failure ends in FAILED, any other leaves the decision to the repair
map, and a map written meanwhile is loaded (R472). -/
def execBistDone (failed : List (Nat × Nat)) (micros : Nat) (s : State) : Out :=
  if s.slcState ≠ 1 then .next s
  else
    let fatal := bistFatal failed
    let first := failed.headD (0, 0)
    let s := s.setReg Reg.SLC_BIST (BitVec.ofNat 64 (1 + b2n fatal * 2 + first.1 % 16 * 2 ^ 2 + first.2 % 256 * 2 ^ 6
      + min failed.length 255 * 2 ^ 16 + min micros 65535 * 2 ^ 32))
    let s := { s with start := { s.start with bistFailed := failed } }
    if fatal then .next ((s.record Pg.SLC 0xE3 0).setFld Reg.SLC_STATE 2 0 7)
    else
      let s := if failed.isEmpty then s else s.record Pg.SLC 0xE2 0
      let s := s.setFld Reg.SLC_STATE 2 0 2
      .next (match s.start.mapHeld with
        | some a => ({ s with start := { s.start with mapHeld := none } } : State).loadMap a
        | none => s)

/-! ## SLC_MAPOUT (R473) -/

/-- The units that are retired now: the map in force (R473). -/
def State.retiredUnits (s : State) : List (Nat × Nat) :=
  mapUnits.filter fun u =>
    if u.1 ≤ 6 then s.unitRetired u.1 u.2
    else if u.1 = 7 then s.portState u.2 == 4
    else if u.1 = 8 then s.bit (Reg.LINK_LANE (u.2 / 9)) (u.2 % 9)
    else if u.1 = 9 then s.edgeState u.2 == 5
    else s.bit Reg.MEMP_PORT_FAIL u.2

/-- A map image is written to ADDR, and DONE is set when it is acknowledged (R473): the map in force, or the units that
failed built-in test. -/
def State.mapOut (failed : Bool) (s : State) : State :=
  let v := setBits (s.regNat Reg.SLC_MAPOUT) 3 3 0
  let units := if failed then s.start.bistFailed else s.retiredUnits
  let s := s.setReg Reg.SLC_MAPOUT (BitVec.ofNat 64 v)
  s.startChain [.bytes (bits v 51 6 * 64) (mapImage units), .reg Reg.SLC_MAPOUT (BitVec.ofNat 64 (v + 8))]

/-- SLC_MAPOUT (R473, R487): a non-zero ADDR starts a write-out. -/
def State.slcMapout (v : W64) (s : State) : State :=
  s.gated Reg.SLC_MAPOUT v fun s =>
    let s := s.accessWrite Reg.SLC_MAPOUT v
    let s := s.setFld Reg.SLC_MAPOUT 3 3 0
    let s := { s with start := { s.start with mapLast := s.retiredUnits } }
    if bits v.toNat 51 6 = 0 then s else s.mapOut (bits v.toNat 0 0 == 1)

/-- The command of that write. -/
def execSlcMapout (v : W64) (s : State) : Out := .next (s.slcMapout v)

/-- With AUTO set the map in force is written again after a bell open at which it changed (R473): by a unit, a port, a lane,
an edge or a memory port that went out of use. -/
def State.mapOutAtOpen (s : State) : State :=
  let changed := s.start.mapChanged
  let s := { s with start := { s.start with mapChanged := false } }
  if s.bit Reg.SLC_MAPOUT 2 && s.fld Reg.SLC_MAPOUT 51 6 != 0 then
    let now := s.retiredUnits
    if changed || now != s.start.mapLast then ({ s with start := { s.start with mapLast := now } } : State).mapOut false else s
  else s

/-- A unit of kind 1 to 6 is reset (R51's table): what the engine keeps of it, which is the counts of its faults and of its
corrected errors, its addresses with an error, and what a tile scored since its last test. A retired bank lies at no
address, so none of its SRAM contents can be read. -/
def State.unitReset (kind index : Nat) (s : State) : State :=
  let k := kind * 256 + index
  let s := { s with safe := { s.safe with
    faults := tDel k s.safe.faults, corrected := tDel k s.safe.corrected
    ueSeen := s.safe.ueSeen.filter fun a => a / 2 ^ 32 != k } }
  if kind = 1 then
    { s with score := { s.score with patternCal := tDel index s.score.patternCal, patternMus := tDel index s.score.patternMus } }
  else s

/-- SLC_UNIT_RST (R51): a retired unit is reset; one that is not retired refuses it with UNIT_ACTIVE. A KIND outside 1 to 6
or an INDEX beyond the units of the kind names no unit, and nothing happens (DESIGN CHOICE, notes/assumptions/51.md). -/
def State.slcUnitRst (v : W64) (s : State) : State :=
  s.gated Reg.SLC_UNIT_RST v fun s =>
    let kind := bits v.toNat 3 0
    let index := bits v.toNat 11 4
    if bits v.toNat 12 12 = 0 ∨ unitTotal kind ≤ index then s
    else if s.unitRetired kind index then s.unitReset kind index
    else s.dropWrite 0xE1 Reg.SLC_UNIT_RST

/-- The command of that write. -/
def execSlcUnitRst (v : W64) (s : State) : Out := .next (s.slcUnitRst v)

/-! ## Microcode (R474, R475, R485, R486) -/

/-- The words of a digest slot have all been written (R475). -/
def State.slotWhole (s : State) (slot : Nat) : Bool :=
  (List.range 4).all fun w => s.start.onceWritten.contains (Reg.MCODE_EXPECT slot w)

/-- The digest of a slot as bytes: word `w` holds bytes 8w to 8w + 7 (R474). -/
def State.slotDigest (s : State) (slot : Nat) : List Byte :=
  (List.range 4).flatMap fun w => leBytes 8 (s.regNat (Reg.MCODE_EXPECT slot w))

/-- MCODE_EXPECT (R475): each word is written once. -/
def execMcodeExpectWrite (slot word : Nat) (v : W64) (s : State) : Out :=
  if 8 ≤ slot ∨ 4 ≤ word then .next s
  else
    let r := Reg.MCODE_EXPECT slot word
    .next (s.gated r v fun s => s.writeOnce r 0xE6 v)

/-- A microcode bank by number. -/
def State.mcBank (s : State) (b : Nat) : McBank := if b = 0 then s.start.bank0 else s.start.bank1

/-- A microcode bank takes a value; MCODE_STAT and MCODE_REV follow. -/
def State.setMcBank (b : Nat) (x : McBank) (s : State) : State :=
  ({ s with start := if b = 0 then { s.start with bank0 := x } else { s.start with bank1 := x } } : State).showMcode

/-- The bank a load goes to: the one not in force; bank 0 at start (R475). -/
def State.loadTo (s : State) : Nat :=
  let b := s.fld Reg.MCODE_STAT 0 0
  if (s.mcBank b).st = 3 then 1 - b else 0

/-- A microcode image header is wrong (R474). -/
def mcHeaderBad (b : List Byte) : Bool :=
  let n := fieldAt b 8 4
  fieldAt b 0 2 != 1 || fieldAt b 2 2 != 0 || fieldAt b 4 4 == 0 || n % 64 != 0 || decide (n < 128) || decide (524288 < n)
    || fieldAt b 0x0C 52 != 0

/-- MCODE_LOAD (R475, R486): a load starts, or is refused with MCODE_BAD. -/
def State.mcodeLoad (v : W64) (s : State) : State :=
  s.gated Reg.MCODE_LOAD v fun s =>
    let a := bits v.toNat 51 6 * 64
    let k := s.loadTo
    let st := (s.mcBank k).st
    let s := s.noteUe a 64
    if !((List.range 8).any s.slotWhole) || st == 3 || st == 4 || s.poisoned a 64 || mcHeaderBad (s.rd a 64) then
      s.dropWrite 0xE8 Reg.MCODE_LOAD
    else (s.readsOver .microcode).setMcBank k { st := 1, rev := s.rdNat (a + 4) 4, addr := a }

/-- The command of that write. -/
def execMcodeLoad (v : W64) (s : State) : Out := .next (s.mcodeLoad v)

/-- Edges that R40 uses and the map does not retire start to train once EBS_CFG is written and the slice is BINDING
(R476); their partners are shown. -/
def State.trainEdges (s : State) : State :=
  let n := s.sliceCount
  if n = 0 ∨ s.slcState < 4 then s
  else
    (([1, n - 1, 2, n + n - 2].map fun d => (s.slice + d) % n).zipIdx).foldl (fun s p =>
      let e := p.2
      if p.1 = s.slice then s
      else
        let s := s.setFld Reg.EBS_STAT (3 * e + 18) (3 * e + 16) p.1
        if s.edgeState e = 0 then s.setFld Reg.EBS_STAT (4 * e + 3) (4 * e) 2 else s) s

/-- BINDING starts (R468, R476). -/
def State.enterBinding (s : State) : State :=
  (({ s with start := { s.start with bindSince := s.now, minoritySaid := false } } : State).setFld Reg.SLC_STATE 2 0 4).trainEdges

/-- A bank comes into force (R475, R485). -/
def State.mcInForce (b : Nat) (s : State) : State :=
  (s.setFld Reg.MCODE_STAT 0 0 b).setMcBank b { s.mcBank b with st := 3 }

/-- MCODE_HASH_DONE (R475): the bank is ACCEPTED when the digest equals a complete slot, and in MCODE_WAIT in force at
once; otherwise FAILED, with MCODE_DIGEST. -/
def execMcodeHashDone (s : State) : Out :=
  match [0, 1].find? fun b => (s.mcBank b).st == 1 with
  | none => .next s
  | some k =>
    let x := s.mcBank k
    let n := s.rdNat (x.addr + 8) 4
    let s := s.noteUe x.addr n
    let img := s.rd x.addr n
    let d := sha256 img
    let hit := if s.unreadable .microcode x.addr n then none
      else (List.range 8).find? fun i => s.slotWhole i && s.slotDigest i == d
    match hit with
    | none => .next ((s.setMcBank k { x with st := 5 }).record Pg.MCODE 0xE7 0)
    | some i =>
      let s := (s.setFld Reg.MCODE_STAT 10 8 i).setMcBank k { x with st := 2, img := img }
      .next (if s.slcState = 3 then (s.mcInForce k).enterBinding else s)

/-- MCODE_SWITCH (R485): a switch is armed for a bell, or with 0 disarmed. -/
def State.mcodeSwitchWrite (v : W64) (s : State) : State :=
  s.gated Reg.MCODE_SWITCH v fun s =>
    (s.setReg Reg.MCODE_SWITCH v).setFld Reg.MCODE_STAT 12 12 (b2n (v != 0#64))

/-- The command of that write. -/
def execMcodeSwitchWrite (v : W64) (s : State) : Out := .next (s.mcodeSwitchWrite v)

/-- An armed microcode switch at a bell open (R485): the ACCEPTED bank comes into force and the other becomes OLD; with
no ACCEPTED bank the switch is dropped. -/
def State.mcodeAtOpen (bell : Nat) (s : State) : State :=
  if !s.bit Reg.MCODE_STAT 12 || decide (bell < s.regNat Reg.MCODE_SWITCH) then s
  else
    let s := s.setFld Reg.MCODE_STAT 12 12 0
    let b := s.fld Reg.MCODE_STAT 0 0
    if (s.mcBank (1 - b)).st ≠ 2 then s.record Pg.MCODE 0xE9 0
    else
      let s := (s.setMcBank b { s.mcBank b with st := 4 }).mcInForce (1 - b)
      let s := { s with start := { s.start with mcBell := bell } }
      (s.setFld Reg.MCODE_STAT 11 11 0).freeOldBank

/-! ## Ebsan binding (R476, R477, R481) -/

/-- EBS_CFG (R476): written once; COUNT shows in the PKG page. -/
def State.ebsCfgWrite (v : W64) (s : State) : State :=
  s.gated Reg.EBS_CFG v fun s =>
    if s.start.onceWritten.contains Reg.EBS_CFG then s.dropWrite 0xE6 Reg.EBS_CFG
    else ((s.writeOnce Reg.EBS_CFG 0xE6 v).setFld Reg.PKG_SLICES 11 8 (bits v.toNat 7 4)).trainEdges

/-- The command of that write. -/
def execEbsCfgWrite (v : W64) (s : State) : Out := .next (s.ebsCfgWrite v)

/-- EBS_EDGE_RETRY (R476): an edge that is not UP trains; with its partner's IDENT it goes UP, or to MISMATCH with
EBS_MISMATCH; without one it is DOWN. -/
def execEbsEdgeRetry (edge : Nat) (ident : Option EdgeIdent) (s : State) : Out :=
  let st := s.edgeState edge
  let set (x : Nat) (s : State) : State := s.setFld Reg.EBS_STAT (4 * edge + 3) (4 * edge) x
  if 4 ≤ edge ∨ s.slcState < 4 ∨ s.slcState = 7 ∨ ¬(st = 1 ∨ st = 2 ∨ st = 4) then .next s
  else match ident with
    | none => .next (set 1 s)
    | some i =>
      if i.slice = s.edgePartner edge ∧ i.count = s.sliceCount then
        .next (((set 3 s).setLink (18 + edge) { ({} : Link) with credits := fullCredits }).forgetCredits (18 + edge))
      else
        let s := set 4 s
        let s := s.setReg Reg.EBS_FAULT (BitVec.ofNat 64 (edge + 0xEA * 2 ^ 8 + i.slice % 8 * 2 ^ 16 + i.count % 16 * 2 ^ 20))
        .next (s.recordF Pg.EBS 0xEA Reg.EBS_FAULT)

/-- The slices of a list are bound and live (R477, R481). -/
def State.bindSlices (xs : List Nat) (s : State) : State :=
  xs.foldl (fun s x =>
    let x := x % 8
    let s := ((s.setFld Reg.PKG_SLICES x x 1).setFld Reg.PKG_SLICES (16 + x) (16 + x) 0).setFld Reg.PKG_SLICES (24 + x) (24 + x) 0
    (s.setFld Reg.PSAFE_SLICES x x 1).setFld Reg.PSAFE_SLICES (8 + x) (8 + x) 0) s

/-- This slice goes BOUND (R477). -/
def State.goBound (s : State) : State := (s.setFld Reg.EBS_STAT 28 28 1).setFld Reg.SLC_STATE 2 0 5

/-- A component may be the package engine: more than half of the slices, or half with slice 0 (R477). -/
def majority (n : Nat) (component : List Nat) : Bool :=
  decide (n < 2 * component.length) || (2 * component.length == n && component.contains 0)

/-- PACKAGE_BIND (R477, R481): a slice in BINDING joins a bound partner's package engine, or its component becomes the
package engine and its lowest slice the lead, or it records EBS_MINORITY once; a bound slice takes slices in. -/
def execPackageBind (component : List Nat) (boundLead : Option Nat) (s : State) : Out :=
  let xs := component.eraseDups
  if s.bound then .next (s.bindSlices xs)
  else if s.slcState ≠ 4 then .next s
  else match boundLead with
    | some l =>
      let s := ((s.bindSlices (s.slice :: xs)).goBound).setFld Reg.LEAD_STAT 3 0 (l % 8 + 8)
      .next ((s.setFld Reg.PBELL_STATE 10 8 (l % 8)).setFld Reg.PTIME_STAT 2 0 (l % 8))
    | none =>
      let waited := decide (s.start.bindSince + 1000000 * s.fld Reg.EBS_WAIT 9 0 ≤ s.now)
      if !(xs.length == s.sliceCount || waited) then .next s
      else if majority s.sliceCount xs && xs.contains s.slice then
        .next ((((s.bindSlices xs).goBound).setLead (xs.foldl min 7)).record Pg.SAFE 0xDE 0)
      else if s.start.minoritySaid then .next s
      else .next (({ s with start := { s.start with minoritySaid := true } } : State).record Pg.EBS 0xEB 0)

end Sys2Proof.Machine
end

