-- ==== Sys2Proof/Machine/Open.lean ====
section
/-! DEFINITION. The open of a bell (R60, R61, R484): what closes with the bell before, the changes that take effect, in
their order, the plans, and what the Scales sample. -/
namespace Sys2Proof.Machine

/-! ## The source set (R166, R187) -/

/-- A write of the cycle of this bell open waits for the following one (R12): while this bell opens, each register has the
value staged before that cycle. -/
def State.stagedForOpen (s : State) : State :=
  { s with staged := s.stagedLate.foldl (fun t p => match p.2 with
    | some v => tPut p.1 v t
    | none => tDel p.1 t) s.staged }

/-- What was staged in the cycle of the bell open stays staged for the following one (R12); `late` is what the registers
of that cycle hold, by register. -/
def State.stagedAfterOpen (late : Table (Option W64)) (s : State) : State :=
  { s with
    staged := late.foldl (fun t p => match p.2 with
      | some v => tPut p.1 v t
      | none => t) s.staged
    stagedLate := [] }

/-- The values that the registers written in the cycle of the bell open have staged now. -/
def State.lateNow (s : State) : Table (Option W64) := s.stagedLate.map fun p => (p.1, tFind p.1 s.staged)

/-- Staged values of some registers are dropped. -/
def State.dropStaged (rs : List Nat) (s : State) : State := { s with staged := s.staged.filter fun p => !rs.contains p.1 }

/-- The registers whose staging R166 checks together. -/
def srcRegs : List Nat := [Reg.AUC_SRCSET, Reg.AUC_SRCCOUNT, Reg.AUC_BIDSPACE]

/-- The limit on S × BIDSPACE (R166). -/
def spaceLimit (diam : Nat) : Nat := if diam ≤ 4 then 64000 else 202240

/-- A staged source set or bid space is refused: the values in force stay (R166). -/
def State.srcRefuse (code : Nat) (s : State) : State :=
  ((s.dropStaged srcRegs).setFld Reg.AUC_SPACE 24 24 1).record Pg.AUC code 0

/-- A source set comes into force; notices name indices of the set they were sent for, so a new list starts without. -/
def State.setSources (xs : List Nat) (s : State) : State :=
  let s := s.setFld Reg.AUC_SPACE 24 24 0
  if xs = s.res.sources then s else { s with res := { s.res with sources := xs, dead := [], rehomed := [] } }

/-- The staged source set and bid space are checked at the bell open (R166). -/
def State.sourcesAtOpen (s : State) : State :=
  if !srcRegs.any s.isStaged then s
  else
    let base := s.stagedFld Reg.AUC_SRCSET 51 6 * 64
    let n := s.stagedFld Reg.AUC_SRCCOUNT 15 0
    let named := base != 0 && n != 0
    let s := if named then s.noteUe base (4 * n) else s
    match (if named then s.readSources base n else some []) with
    | none => s.srcRefuse 0x40
    | some xs =>
      if spaceLimit (s.stagedFld Reg.BELL_DIAM 3 0) < n * s.stagedFld Reg.AUC_BIDSPACE 12 0 then s.srcRefuse 0x41
      else s.setSources xs

/-- Stall SRAM bytes of keepers and bid space (R166). -/
def State.auctionBytes (s : State) : Nat := 1638400 + s.fld Reg.AUC_SRCCOUNT 15 0 * s.fld Reg.AUC_BIDSPACE 12 0 * 16

/-- Keepers and bid space hold whole frames (R196); AUC_SPACE shows their size (R187), in KiB rounded up (DESIGN CHOICE,
notes/assumptions/43.md). -/
def State.layFixed (s : State) : State :=
  let have_ := (List.range frameCount).filter fun f => s.frameUse f == .fixed
  let need := ceilDiv s.auctionBytes frameBytes
  let s := if have_.length < need then (s.takeFrames (need - have_.length) .fixed).2 else s.dropFrames (have_.drop need)
  s.setFld Reg.AUC_SPACE 23 0 (ceilDiv s.auctionBytes 1024)

/-! ## Staged registers (R484 steps 6 and 7) -/

/-- The staged registers that take effect by a rule of their own. -/
def State.keepsStaged (s : State) (r : Nat) : Bool :=
  r == Reg.MSEM_REGIONS || r == Reg.KEYS_TABLE || r == Reg.SEL_TABLE || r == Reg.PBELL_PERIOD || (r == Reg.CTX_MODEL && s.armed)
    || ((r == Reg.TILE_MODE || r == Reg.TILE_LIST || r == Reg.TILE_DBELL) && s.tiles.tiles.any fun t => t.st == 0)

/-- Every other bell-staged register takes effect (R11, R484 step 7). -/
def State.applyStaged (s : State) : State :=
  let now := s.staged.filter fun p => !s.keepsStaged p.1
  let later := s.staged.filter fun p => s.keepsStaged p.1
  { now.foldl (fun s p => s.setReg p.1 p.2) s with staged := later }

/-- Staged quotas above their area are refused with FIELD_RANGE (R249). -/
def State.quotasAtOpen (s : State) : State :=
  let rs := (List.range 4).map fun c => Reg.RES_QUOTA0 + 8 * c
  if rs.any s.isStaged && !s.quotasOk then (s.dropStaged rs).dropWrite 0x03 Reg.RES_QUOTA0 else s

/-- A table check that ended 1 µs or more before now. -/
def State.passedInTime (s : State) (p : Option (Nat × Nat)) : Bool :=
  match p with
  | some (_, t) => decide (t + 1000 ≤ s.now)
  | none => false

/-- Scoring and selection tables, regions, and the bell of an armed model switch (R484 step 6); during a switch the
tables are held for it (R429). -/
def State.tablesAtOpen (bell : Nat) (s : State) : State :=
  let s := if s.passedInTime s.score.keysPassed && !s.armed then s.applyKeys else s
  let s := if s.passedInTime s.score.selPassed && !s.armed then s.applySel else s
  s.regionsAtOpen.modelAtOpen bell

/-- The registers of step 7, with the checks made at the bell open and what follows from them. -/
def State.registersAtOpen (s : State) : State :=
  let ports := s.isStaged Reg.MEMP_PORT_EN
  let s := s.sourcesAtOpen.quotasAtOpen.detAtOpen.applyStaged
  ((s.rolesAtOpen).portsAtOpen ports).checkDiam

/-! ## The changes of a bell open in their order (R484) -/

/-- The edit lists follow the rehoming; they wait when it moved an expert (R247, R268). -/
def State.afterRehome (bell : Nat) (r : Bool × State) : State := r.2.editsOpen bell r.1

/-- Everything that changes at the open of a bell. -/
def State.changesAtOpen (bell : Nat) (s : State) : State :=
  let s := (s.retireAtOpen bell).linksAtOpen
  let s := State.afterRehome bell (s.rehome bell)
  let s := (s.mcodeAtOpen bell).routesAtOpen
  let s := (s.tablesAtOpen bell).registersAtOpen
  s.ctxsAtOpen

/-- What follows from the directory and the tables in force at a bell. -/
def State.viewsAtOpen (s : State) : State :=
  let s := ((s.showHosted s.res.sources).fillDescs.dropUnhosted.pruneUndo).showMins
  s.setFld Reg.CMB_TABLE 25 16 s.cmbInUse

/-! ## What closes with the bell before -/

/-- The bell before ends: tallies are latched (R493), merged events and corrected errors are logged (R503), CTX_INTERFc is
latched (R431), and what happens once in a bell may happen again. -/
def State.closeBell (n : Nat) (s : State) : State :=
  let s := ((s.latchTallies n).mergeEvents.eccSummary).tallyMax Pg.POOL 9 s.carvedFrames
  let s := if s.bell.everOpened then s.interfere (s.regNat Reg.PBELL_OPEN) else s
  { s with
    msem := { s.msem with mailed := [] }
    score := { s.score with
      bankA := { s.score.bankA with ueSeen := [] }, bankB := { s.score.bankB with ueSeen := [] }, projUe := [] }
    bell := { s.bell with once := [], peerLate := s.bell.peerLate.filter fun p =>
      n ≤ p.1 || (s.cal.sets ++ s.mus.sets).any fun a => a.bell == p.1 } }

/-- BELL_MARKER_LOST (R61): a slice other than the lead that holds no marker of the bell opens it from its own copy. -/
def State.markerLost (n : Nat) (s : State) : State :=
  let held := match s.bell.marker with
    | some m => m.1 == n
    | none => false
  if s.isLead || held then s
  else
    let s := s.record Pg.BELL 0x16 0
    { s with bell := { s.bell with flags := setBits s.bell.flags 1 1 1 } }

/-- The registers that show the bell (R89, R91). -/
def State.showBell (n t : Nat) (s : State) : State :=
  let s := (s.setReg Reg.BELL_NUMBER (BitVec.ofNat 64 n)).setReg Reg.BELL_LATE 0#64
  let s := (s.setReg Reg.PBELL_NUMBER (BitVec.ofNat 64 n)).setReg Reg.PBELL_OPEN (BitVec.ofNat 64 t)
  s.setFld Reg.PBELL_STATE 1 0 2

/-! ## What is laid out and sampled -/

/-- The Scales sample, and the candidates stand (R74, R78). -/
def State.sampleScales (s : State) : State :=
  let p := s.regionPlan
  let x : Samp := {
    step := max s.pins.arithStep s.pins.arithNext
    tiles := s.fld Reg.SCORE_TILES 3 0
    ports := ((List.range 18).filter fun q => s.bit (Reg.LINK_STAT q) 18).length
    edges := ((List.range 4).filter fun e => s.edgeState e == 3).length
    calFrames := p.1, musFrames := p.2.1, free := p.2.2 }
  { s with bell := { s.bell with
    samp := x, scalesDone := false, candCal := s.candidates .calico, candMus := s.candidates .muslin } }

/-- A bell is no longer needed once no set, no site and no home works on it (R86). -/
def State.bellNeeded (s : State) (n b : Nat) : Bool :=
  decide (n ≤ b + 4) || (s.cal.sets ++ s.mus.sets).any (fun a => a.bell == b) || (s.siteCal.active && s.siteCal.bell == b)
    || (s.siteMus.active && s.siteMus.bell == b)

/-- The registers and the source set that the rounds of the bell run under are kept (R24, R86). -/
def State.keepConf (n : Nat) (s : State) : State :=
  let h := s.bell.hist.filter fun e => s.bellNeeded n e.bell
  { s with bell := { s.bell with hist := ⟨n, s.regs, s.res.sources⟩ :: h } }

/-! ## LOAD (R393) -/

/-- An entry of a LOAD message. -/
def loadEntry (e n : Nat) : List Byte := leBytes 4 (e % 2 ^ 15 + min n 131071 * 2 ^ 15)

/-- LOAD messages of 16 entries; an odd last one repeats its last entry, so that the payload is whole words. -/
def loadMessages : Nat → List (Nat × Nat) → List (List Byte)
  | 0, _ => []
  | _, [] => []
  | k + 1, xs =>
    let a := xs.take 16
    let a := if a.length % 2 = 1 then a ++ [a.getLastD (0, 0)] else a
    (a.flatMap fun p => loadEntry p.1 p.2) :: loadMessages k (xs.drop 16)

/-- Every home floods the grants of its capped stalls in the bell before; its own counts go to its own table (R393). -/
def State.floodLoads (bell : Nat) (s : State) : State :=
  let xs := (s.homedStalls bell).map fun e => (e, tGet zeroNat e s.res.latched)
  let s := { s with res := { s.res with global := xs.foldl (fun t p => tSet zeroNat p.1 (min p.2 131071) t) s.res.global } }
  (loadMessages (xs.length + 1) xs).foldl (fun s m => s.flood 5 m) s

/-! ## BELL_OPEN -/

/-- Start-up of the slice completes at its first bell open (R480). -/
def State.completeStart (s : State) : State :=
  if s.slcState = 5 then (s.setFld Reg.SLC_STATE 2 0 6).driveAlarm else s

/-- The schedule goes on to the next bell (R60). -/
def State.nextOnSchedule (n t : Nat) (s : State) : State :=
  { s with bell := { s.bell with
    nextBell := n + 1, nextOpen := t + s.periodLive, marker := none, markerSent := false, leadOpen := false
    everOpened := true, highest := max s.bell.highest n } }

/-- What takes effect at a bell open does so in one cycle (R517), whose recordings R519 orders by their codes. -/
def State.cycleBegins (s : State) : State :=
  let ps := (List.range 0x40 ++ (List.range 6).map (0x100 + ·)).filter fun p => s.fld (Reg.PAGE_ERR_FIRST p) 7 0 == 0
  { s with bell := { s.bell with cycle := ps } }

/-- The cycle of the bell open is over. -/
def State.cycleEnds (s : State) : State := { s with bell := { s.bell with cycle := [] } }

/-- Bell n opens at T(n) (R60, R61, R71, R78, R484, R523). Scales and a lead window that have not come yet come first. -/
def State.openBell (s : State) : State :=
  let s := s.scalesEnd
  let s := if s.bell.leadOpen then s else s.leadWindow
  let n := s.bell.nextBell
  let t := s.bell.nextOpen
  let ran := s.bell.everOpened
  let late := s.lateNow
  let s := (({ s with now := max s.now t } : State).stagedForOpen).cycleBegins
  let s := (s.closeBell n).showBell n t
  let s := (s.markerLost n).applyPeriod n
  let s := (s.irq.failed.eraseDups).foldl (fun s v => s.irqAgain v) s
  let s := (s.changesAtOpen n).viewsAtOpen.completeStart
  let s := s.layFixed.layRegions
  let s := (s.keepConf n).plansAtOpen
  let s := s.sampleScales
  let s := s.plannerAtOpen n
  let s := if ran then s.floodLoads n else s
  let s := (s.nextOnSchedule n t).lifeAdd 12 1
  (s.mapOutAtOpen.slicesAtOpen.stagedAfterOpen late).cycleEnds

/-- BELL_OPEN (R60): the time base reaches T(n). -/
def execBellOpen (s : State) : Out :=
  .next (if s.bellComes && (s.slcState == 5 || s.slcState == 6) then s.openBell else s)

end Sys2Proof.Machine
end

