-- ==== Sys2Proof/Machine/Flags.lean ====
section
/-! DEFINITION. What a read of a register returns (R10, R516): the identity and status fields of the page header (R518)
and the status registers that show the state of a unit, beside the values that registers hold. -/
namespace Sys2Proof.Machine

/-! ## The page header (R518) -/

/-- The number of latched tallies of each page, in the order its chapter lists them (R492). -/
def tallyCount (pg : Nat) : Nat :=
  match pg with
  | 0x01 => 4
  | 0x02 => 6
  | 0x03 => 5
  | 0x05 => 4
  | 0x06 => 9
  | 0x07 => 3
  | 0x08 => 6
  | 0x09 => 10
  | 0x0A => 9
  | 0x0B => 9
  | 0x0C => 5
  | 0x0D => 3
  | 0x0E => 14
  | 0x0F => 45
  | 0x10 => 18
  | 0x11 => 9
  | 0x12 => 6
  | 0x13 => 5
  | 0x14 => 4
  | 0x15 => 11
  | 0x1A => 4
  | _ => if 0x20 ≤ pg ∧ pg < 0x32 then 18 else 0

/-- PAGE_ID (R518): block, package page, the slice that serves the read, revision 0x01. -/
def State.pageId (s : State) (pg : Nat) : Nat :=
  pg % 0x100 + b2n (0x100 ≤ pg) * 2 ^ 8 + (if 0x100 ≤ pg then s.fld Reg.LEAD_STAT 2 0 else s.slice) * 2 ^ 9 + 0x01 * 2 ^ 16

/-- The page has bell-staged registers (R518). -/
def pageHasStaged (pg : Nat) : Bool :=
  (List.range 0x100).any fun i => match pageSpec pg (0x100 + 8 * i) with
    | some x => x.bs != 0
    | none => false

/-- PAGE_CAP (R518). -/
def pageCap (pg : Nat) : Nat :=
  tallyCount pg + (if 0x20 ≤ pg ∧ pg < 0x32 then pg - 0x20 else 0) * 2 ^ 8 + b2n (pageHasStaged pg) * 2 ^ 16
    + vectorOf pg * 2 ^ 24

/-- PAGE_STAT (R518): STAGED, ERR, IRQ. -/
def State.pageStat (s : State) (pg : Nat) : Nat :=
  b2n (s.pageStaged pg) + b2n (s.fld (Reg.PAGE_ERR_FIRST pg) 7 0 != 0) * 2
    + b2n ((s.regNat (Reg.PAGE_IRQ_RAW pg)) &&& (s.regNat (Reg.PAGE_IRQ_EN pg)) != 0) * 4

/-! ## Status registers of the units -/

/-- SEQ_COUNT (R114). -/
def State.seqCountView (s : State) : Nat :=
  s.seqCount 1 + s.seqCount 2 * 2 ^ 16 + s.seqCount 3 * 2 ^ 32 + s.seqCount 0 * 2 ^ 48

/-- The round of a half that waits to close and the time of its first bid-close (R187). -/
def HomeHalf.firstClose (x : HomeHalf) : Option (Nat × Nat) :=
  x.closes.foldl (fun (m : Option (Nat × Nat)) c => match m with
    | none => some (c.1, c.2.2.2)
    | some b => if c.2.2.2 < b.2 then some (c.1, c.2.2.2) else some b) none

/-- AUC_ROUND for a half and round. -/
def State.aucRoundOf (s : State) (h : Half) (k : Nat) : Nat :=
  keyLayer k + h.num * 2 ^ 8 + keyRound k * 2 ^ 9
    + (((s.home h).closes.filter fun c => c.1 == k).length % 2 ^ 16) * 2 ^ 16 + 2 ^ 32

/-- AUC_ROUND (R187): of the rounds waiting to close, the one whose first bid-close came earliest, Calico on a tie. -/
def State.aucRoundView (s : State) : Nat :=
  match s.homeCal.firstClose, s.homeMus.firstClose with
  | none, none => 0
  | some a, none => s.aucRoundOf .calico a.1
  | none, some b => s.aucRoundOf .muslin b.1
  | some a, some b => if a.2 ≤ b.2 then s.aucRoundOf .calico a.1 else s.aucRoundOf .muslin b.1

/-- DISP_RECV (R219). -/
def State.dispRecvView (s : State) : Nat :=
  ceilDiv (s.regionBytes s.bellNo) 1024 % 2 ^ 24 + (s.pool.regionCal.length % 64) * 2 ^ 24
    + (s.pool.regionMus.length % 64) * 2 ^ 32 + ((s.bell.samp.wFrames .calico * 2048) % 2 ^ 24) * 2 ^ 40

/-- DISP_TOK (R219). -/
def State.dispTokView (s : State) : Nat :=
  match s.tok.serving with
  | some h => h.num + 2
  | none => 0

/-- Free buffers of a class in the frames carved for it (R220). -/
def State.sramFree (s : State) (c : Nat) : Nat :=
  sumNat ((List.range frameCount).map fun f =>
    if s.frameUse f == .carved c then
      ((List.range (clsPerFrame c)).filter fun i => !s.bufUsed (bufId c 0 (f * clsPerFrame c + i))).length
    else 0)

/-- Free overflow buffers of a class (R220). -/
def State.ovfFree (s : State) (c : Nat) : Nat :=
  s.ovfCount c - (s.pool.bufs.filter fun b => bufCls b.1 == c && bufTier b.1 == 1 && decide (bufIdx b.1 < s.ovfCount c)).length

/-- Four 16-bit class fields. -/
def classFields (f : Nat → Nat) : Nat :=
  (List.range 4).foldl (fun n c => n + (f c % 2 ^ 16) * 2 ^ (16 * c)) 0

/-- Frames used in a way. -/
def State.framesUsed (s : State) (p : FrameUse → Bool) : Nat := ((List.range frameCount).filter fun f => p (s.frameUse f)).length

/-- A frame of a receive region. -/
def FrameUse.isRecv : FrameUse → Bool
  | .recv _ => true
  | _ => false

/-- A frame of keepers, bid space or a partition. -/
def FrameUse.isFixed : FrameUse → Bool
  | .fixed => true
  | .partition _ _ => true
  | _ => false

/-- POOL_FRAMES (R220). -/
def State.poolFramesView (s : State) : Nat :=
  s.freeFrames.length + s.framesUsed FrameUse.isRecv * 2 ^ 8 + s.carvedFrames * 2 ^ 16 + s.framesUsed FrameUse.isFixed * 2 ^ 24

/-- CMB_TABLE (R240). -/
def State.cmbTableView (s : State) : Nat := s.cmbInUse + s.fld Reg.CMB_TABLE 25 16 * 2 ^ 16

/-- Blocks of hosted experts in a state, over the layers of the model in force (R254, R270). -/
def State.blockCount (s : State) (st : Nat) : Nat :=
  sumNat (s.hosted.map fun e => ((List.range s.layers).filter fun l => s.blockState e l == st).length)

/-- RES_STAT (R270). -/
def State.resStatView (s : State) : Nat :=
  s.blockCount 2 % 2 ^ 21 + (s.blockCount 1 % 2 ^ 21) * 2 ^ 21 + (s.blockCount 3 % 2 ^ 21) * 2 ^ 42

/-- TILE_STAT (R286). -/
def State.tileStatView (s : State) : Nat :=
  (s.tiles.tiles.filter fun t => t.st == 0).length % 2 ^ 14
    + ((s.tiles.units.filter fun p => 0 < p.2.posted).length % 2 ^ 13) * 2 ^ 16 + (s.tiles.quar.length % 2 ^ 16) * 2 ^ 32

/-! ## Reading a register -/

/-- The value a register of a page header shows. -/
def State.headerView (s : State) (pg off : Nat) : W64 :=
  if off = 0x00 then BitVec.ofNat 64 (s.pageId pg)
  else if off = 0x08 then BitVec.ofNat 64 (pageCap pg)
  else if off = 0x18 then BitVec.ofNat 64 (s.pageStat pg)
  else if off = 0x48 then s.tallyBellView pg
  else if 0x80 ≤ off then s.tallyView pg ((off - 0x80) / 8)
  else s.stagedReg (pg * 0x1000 + off)

/-- The registers whose read shows the state of a unit. -/
def State.shown (s : State) (r : Nat) : Option W64 :=
  if r = Reg.SEQ_COUNT then some (BitVec.ofNat 64 s.seqCountView)
  else if r = Reg.AUC_ROUND then some (BitVec.ofNat 64 s.aucRoundView)
  else if r = Reg.DISP_RECV then some (BitVec.ofNat 64 s.dispRecvView)
  else if r = Reg.DISP_TOK then some (BitVec.ofNat 64 s.dispTokView)
  else if r = Reg.POOL_SRAM_FREE then some (BitVec.ofNat 64 (classFields s.sramFree))
  else if r = Reg.POOL_OVF_FREE then some (BitVec.ofNat 64 (classFields fun c => s.ovfFree c / 8))
  else if r = Reg.POOL_FRAMES then some (BitVec.ofNat 64 s.poolFramesView)
  else if r = Reg.CMB_TABLE then some (BitVec.ofNat 64 s.cmbTableView)
  else if r = Reg.RES_STAT then some (BitVec.ofNat 64 s.resStatView)
  else if r = Reg.TILE_STAT then some (BitVec.ofNat 64 s.tileStatView)
  else if r = Reg.COLL_GSTAT then some s.gstatView
  else if r = Reg.COLL_WAIT then some s.waitView
  else if r = Reg.COLL_LL_STAT then some s.llStatView
  else if r = Reg.CTX_STATE then some s.ctxStateView
  else if r = Reg.CTX_INFO0 then some (s.ctxInfoView 0)
  else if r = Reg.CTX_INFO1 then some (s.ctxInfoView 1)
  else if r = Reg.CTX_INFO2 then some (s.ctxInfoView 2)
  else if r = Reg.CTX_INFO3 then some (s.ctxInfoView 3)
  else if r = Reg.SLC_BLOCK then some s.blockView
  else if r = Reg.TRACE_STAT then some s.traceStatView
  else if r = Reg.TIME_NOW ∨ r = Reg.PTIME_NOW then some (BitVec.ofNat 64 s.now)
  else if r = Reg.SAFE_LATENT then some s.latentView
  else none

/-- The bits of a register that a read shows: write-only bits and reserved bits read zero (R10, R14). -/
def readable (x : RegSpec) : W64 := BitVec.ofNat 64 (x.rw ||| x.ro ||| x.w1c ||| x.bs)

/-- What a read of a register returns (R10, R14, R512, R516): a bell-staged register its staged value. An unbound slice
serves only its own pages of R469. -/
def State.readReg (s : State) (r : Nat) : W64 :=
  if !s.bound && !servedUnbound (r / 0x1000) then 0#64
  else match regSpec r with
    | none => 0#64
    | some x =>
      (if r % 0x1000 < 0x100 then s.headerView (r / 0x1000) (r % 0x1000) else (s.shown r).getD (s.stagedReg r)) &&& readable x

end Sys2Proof.Machine
end

