-- ==== Sys2Proof/Machine/Port.lean ====
section
/-! DEFINITION. The register port (R1, R9 to R14, R28, R29, R469, R511 to R513, R517): where an offset of the window
leads, what a write of each register does, and path operations at a hop and at their target (R326, R327). -/
namespace Sys2Proof.Machine

/-! ## Registers whose write has an effect of its own -/

/-- A write that takes effect by its access type alone (R10). -/
def State.plainWrite (r : Nat) (v : W64) (s : State) : State := s.gated r v (State.accessWrite r v)

/-- A write that the owning chapter may refuse, by a test on the state and the value. -/
def State.testedWrite (r code : Nat) (bad : State → W64 → Bool) (v : W64) (s : State) : State :=
  s.gated r v fun s => if bad s v then s.dropWrite code r else s.accessWrite r v

/-- The bell is not STOPPED (R64, R114). -/
def notStopped (s : State) (_ : W64) : Bool := s.bellState != 0

/-- A write of CTX_MODEL is refused (R416, R432): the job of an existing context, or another shape while the bell runs and
no model switch is armed. -/
def ctxModelBad (s : State) (v : W64) : Bool :=
  let old := s.stagedReg Reg.CTX_MODEL
  ((List.range 4).any fun c => (s.ctxAt c).st != 0 && (s.ctxAt c).job == bits v.toNat 15 0)
    || (bits v.toNat 31 16 != bits old.toNat 31 16 && s.bellState != 0 && s.fld Reg.CTX_STATE 17 16 == 0)

/-- A write of CTX_SAVE_POOL changes it while a SPILL context exists (R432). -/
def savePoolBad (s : State) (v : W64) : Bool :=
  v != s.stagedReg Reg.CTX_SAVE_POOL && (List.range 4).any fun c => (s.ctxAt c).st != 0 && (s.ctxAt c).spill

/-- CTX_RESIDENT (R420, R430): a new mask may record CTX_MODEL_MISMATCH again. -/
def State.residentWrite (v : W64) (s : State) : State :=
  s.gated Reg.CTX_RESIDENT v fun s =>
    (List.range 4).foldl (fun s c => s.modCtx c fun x => { x with mismatchSaid := false }) (s.accessWrite Reg.CTX_RESIDENT v)

/-- A group is not FREE (R395). -/
def groupsUsed (s : State) (_ : W64) : Bool := s.coll.groups.any fun p => p.2.st != 0

/-- EVLOG_HEAD above NEXT (R505). -/
def headAhead (s : State) (v : W64) : Bool := decide (s.regNat Reg.EVLOG_NEXT < v.toNat)

/-- POOL_OVF_CNT (R216): staged, with POOL_OVF_SHORT where a count is below its minimum. -/
def State.ovfCntWrite (v : W64) (s : State) : State :=
  s.gated Reg.POOL_OVF_CNT v fun s =>
    let s := s.accessWrite Reg.POOL_OVF_CNT v
    let least := s.reg Reg.POOL_OVF_MIN
    if (List.range 4).any fun c => bits v.toNat (16 * c + 15) (16 * c) < bits least.toNat (16 * c + 15) (16 * c) then
      s.record Pg.POOL 0x5D 0 else s

/-- PBELL_PERIOD (R64, R66). -/
def State.periodWrite (v : W64) (s : State) : State := s.gated Reg.PBELL_PERIOD v (State.stagePeriod v)

/-- PBELL_GO (R91). -/
def State.pbellGoWrite (v : W64) (s : State) : State := s.gated Reg.PBELL_GO v (State.goWrite v)

/-- The registers of the bell, the sequences and scoring whose write is not a plain one. -/
def portOpsA : List (Nat × (W64 → State → State)) := [
  (Reg.PBELL_PERIOD, State.periodWrite),
  (Reg.PBELL_START, State.testedWrite Reg.PBELL_START 0x10 notStopped),
  (Reg.PBELL_FIRST, State.testedWrite Reg.PBELL_FIRST 0x10 notStopped),
  (Reg.PBELL_GO, State.pbellGoWrite),
  (Reg.BELL_LAYER_IN, State.layerIn),
  (Reg.BELL_PLAN, State.bellPlanPost),
  (Reg.SEQ_TABLE, State.testedWrite Reg.SEQ_TABLE 0x2B notStopped),
  (Reg.SEQ_HASH_IN, State.seqHashIn),
  (Reg.KEYS_TABLE, State.keysTableWrite),
  (Reg.SEL_TABLE, State.selTableWrite),
  (Reg.POOL_OVF_CNT, State.ovfCntWrite),
  (Reg.RES_DIR, State.resDirWrite),
  (Reg.RES_EDIT, State.resEditWrite),
  (Reg.RES_DESC, State.resDescWrite),
  (Reg.RES_HINT, State.resHintWrite),
  (Reg.TILE_HEAD, State.tileHead),
  (Reg.TILE_DONE, State.tileDone),
  (Reg.TILE_QUAR, State.tileQuarRelease)]

/-- The registers of the fabric and of remote memory whose write is not a plain one. -/
def portOpsB : List (Nat × (W64 → State → State)) := [
  (Reg.ROUTE_IMAGE, State.routeImageWrite),
  (Reg.ROUTE_SWITCH, State.routeSwitchWrite),
  (Reg.DISC_IDENT, State.discIdentWrite),
  (Reg.DISC_INCARN, State.discIncarnWrite),
  (Reg.DISC_CTL, State.discStart),
  (Reg.DISC_NODE, State.discNodeWrite false),
  (Reg.DISC_PATH, State.pathOpSend),
  (Reg.MSEM_REGIONS, State.msemRegionsWrite),
  (Reg.MSEM_TAIL, State.msemTail),
  (Reg.MSEM_TEARDOWN, State.jobTeardown),
  (Reg.PORTER_TAIL, State.porterTail),
  (Reg.COLL_GROUPS, State.testedWrite Reg.COLL_GROUPS 0xB3 groupsUsed),
  (Reg.COLL_CREATE, State.collCreateWrite),
  (Reg.COLL_TAIL, State.collTail)]

/-- The registers of the remaining pages whose write is not a plain one. -/
def portOpsC : List (Nat × (W64 → State → State)) := [
  (Reg.DET_PAIR, State.testedWrite Reg.DET_PAIR 0xC3 State.detPairBad),
  (Reg.DET_DIV_CLR, State.detDivClr),
  (Reg.CTX_MODEL, State.testedWrite Reg.CTX_MODEL 0xCB ctxModelBad),
  (Reg.CTX_MODEL_AT, State.ctxModelAtWrite),
  (Reg.CTX_SAVE_POOL, State.testedWrite Reg.CTX_SAVE_POOL 0xCB savePoolBad),
  (Reg.CTX_CREATE, State.ctxCreateWrite),
  (Reg.CTX_RESIDENT, State.residentWrite),
  (Reg.CTX_URGENT, State.ctxUrgent),
  (Reg.SAFE_CAUSE, State.safeCauseClear),
  (Reg.SPARE_RETIRE, State.spareRetire),
  (Reg.PSAFE_RETIRE, State.psafeRetire),
  (Reg.LEAD_MOVE, State.leadMove),
  (Reg.DIRCTL_EDIT, State.dirctlEdit),
  (Reg.PTIME_SET, State.ptimeSet),
  (Reg.TRACE_MARK, State.traceMark),
  (Reg.EVLOG_HEAD, State.testedWrite Reg.EVLOG_HEAD 0x03 headAhead),
  (Reg.SLC_REPAIR, State.slcRepair),
  (Reg.SLC_MAPOUT, State.slcMapout),
  (Reg.SLC_UNIT_RST, State.slcUnitRst),
  (Reg.MCODE_LOAD, State.mcodeLoad),
  (Reg.MCODE_SWITCH, State.mcodeSwitchWrite),
  (Reg.EBS_CFG, State.ebsCfgWrite),
  (Reg.IRQ_MASK, fun v s => s.gated Reg.IRQ_MASK v (State.irqMask v)),
  (Reg.IRQ_FORCE, fun v s => s.gated Reg.IRQ_FORCE v (State.irqForce v))]

/-- The operation of a register in a list. -/
def portFind (r : Nat) : List (Nat × (W64 → State → State)) → Option (W64 → State → State)
  | [] => none
  | (k, f) :: t => if k = r then some f else portFind r t

/-- A write of a header register (R496, R518, R521). -/
def State.headerWrite (r : Nat) (v : W64) (s : State) : State :=
  let pg := r / 0x1000
  if r % 0x1000 = 0x10 then s.gated r v (State.pageCtl pg v)
  else if r % 0x1000 = 0x28 then s.gated r v (State.irqEnable pg v)
  else if r % 0x1000 = 0x40 then s.gated r v (State.tallySel pg v)
  else s.plainWrite r v

/-- A write of a register of this slice, or of its copy of a package page. -/
def State.regWrite (r : Nat) (v : W64) (s : State) : State :=
  if r % 0x1000 < 0x100 then s.headerWrite r v
  else if Reg.IRQ_ADDR 0 ≤ r ∧ r < Reg.IRQ_ADDR 64 then
    s.gated r v (State.irqAddr ((r - Reg.IRQ_ADDR 0) / 16) r v)
  else if Reg.MCODE_EXPECT 0 0 ≤ r ∧ r < Reg.MCODE_EXPECT 8 0 then s.gated r v (State.writeOnce r 0xE6 v)
  else match portFind r portOpsA with
    | some f => f v s
    | none =>
      match portFind r portOpsB with
      | some f => f v s
      | none =>
        match portFind r portOpsC with
        | some f => f v s
        | none => s.plainWrite r v

/-! ## The window (R511, R512) -/

/-- Where an offset of the window leads. -/
inductive WinPlace where
  /-- a package page: register number -/
  | package (r : Nat)
  /-- the range of a slice: slice and register number -/
  | slice (k r : Nat)
  /-- the broadcast alias -/
  | alias_ (r : Nat)
  /-- no page; the number names no register -/
  | unassigned (r : Nat)
  deriving DecidableEq, Repr

/-- The window layout (R511). -/
def winPlace (o : Nat) : WinPlace :=
  if o < 0x100000 then .package (0x100000 + o)
  else if o < 0x300000 then .slice ((o - 0x100000) / 0x40000) ((o - 0x100000) % 0x40000)
  else if o < 0x340000 then .alias_ (o - 0x300000)
  else .unassigned (o % 0x40000)

/-- An access to the range of a slice that is absent or PARKED is recorded (R1, R28, R490). -/
def State.pkgFault (code slice r : Nat) (s : State) : State :=
  (s.setReg Reg.PKG_FAULT (BitVec.ofNat 64 (code + slice % 8 * 2 ^ 8 + r % 0x40000 * 2 ^ 18))).record Pg.PKG code (dropDetail r false)

/-- An access that is not an aligned one of 64 bits is answered with an error and recorded by the slice it addresses; for
a package or unassigned offset that is the lead (R9, R512). -/
def State.sizeError (p : WinPlace) (s : State) : State :=
  match p with
  | .package r => if s.isLead || !s.bound then s.record Pg.SLC 0x01 (dropDetail r false) else s
  | .slice k r => if k == s.slice || !s.bound then s.record Pg.SLC 0x01 (dropDetail r false) else s
  | .alias_ r => s.record Pg.SLC 0x01 (dropDetail r true)
  | .unassigned r => if s.isLead || !s.bound then s.record Pg.SLC 0x01 (dropDetail r false) else s

/-- A write that sets a bit where no register is, seen by the lead (R512). -/
def State.noRegister (r : Nat) (v : W64) (s : State) : State :=
  if v = 0#64 ∨ !s.isLead then s else s.record Pg.SLC 0x02 (dropDetail r false)

/-- A write through the alias reaches this slice unless it is PARKED (R29, R511). -/
def State.aliasWrite (r : Nat) (v : W64) (s : State) : State :=
  if s.bit Reg.PKG_SLICES (16 + s.slice) then s
  else { (({ s with viaAlias := true } : State).regWrite r v) with viaAlias := false }

/-- An aligned write by a bound slice's window (R1, R28, R511). A write to another live slice changes nothing here. -/
def State.placeWrite (p : WinPlace) (v : W64) (s : State) : State :=
  match p with
  | .package r => if pageExists (r / 0x1000) then s.regWrite r v else s.noRegister r v
  | .slice k r =>
    if s.bit Reg.PKG_SLICES (16 + k) then s.pkgFault 0xEE k r
    else if k == s.slice then s.regWrite r v
    else if s.bit Reg.PKG_SLICES k then s
    else s.pkgFault 0xED k r
  | .alias_ r => s.aliasWrite r v
  | .unassigned r => s.noRegister r v

/-- An aligned write at an unbound slice (R469): only its own SLC, MCODE, EBS, SPARE and SAFE pages are served. -/
def State.unboundWrite (p : WinPlace) (v : W64) (s : State) : State :=
  match p with
  | .package r => s.record Pg.SLC 0xEC (dropDetail r false)
  | .slice k r =>
    if k == s.slice && servedUnbound (r / 0x1000) then s.regWrite r v else s.record Pg.SLC 0xEC (dropDetail r false)
  | .alias_ r => s.record Pg.SLC 0xEC (dropDetail r true)
  | .unassigned r => s.record Pg.SLC 0xEC (dropDetail r false)

/-- REGISTER_WRITE (R9, R10): a write of `size` bytes at an offset of the window. -/
def execRegisterWrite (offset size : Nat) (v : W64) (s : State) : Out :=
  let p := winPlace offset
  .next (if size != 8 || offset % 8 != 0 then s.sizeError p
    else if !s.bound then s.unboundWrite p v
    else s.placeWrite p v)

/-! ## Reads (R1, R9, R26, R28, R469, R495, R511, R512) -/

/-- The answer to an access at the register port: with an error response or without (R9, R28), and for a read the value. -/
structure PortAnswer where
  error : Bool
  value : W64
  deriving DecidableEq, Repr

/-- The register is a latched tally slot of a page that exists. -/
def tallySlot (r : Nat) : Bool := 0x80 ≤ r % 0x1000 && r % 0x1000 < 0x100 && pageExists (r / 0x1000)

/-- A read of a register of this slice (R10, R469, R495, R516): of a tally slot it marks the bank in view as read, and an
unbound slice records NOT_BOUND for a page it does not serve. -/
def State.regRead (r : Nat) (s : State) : W64 × State :=
  let v := s.readReg r
  if !s.bound && !servedUnbound (r / 0x1000) then (v, s.record Pg.SLC 0xEC (dropDetail r false))
  else (v, if tallySlot r then s.markRead (r / 0x1000) else s)

/-- An aligned read at a bound slice's window (R1, R28, R511). The range of a slice that is absent or PARKED reads zero; the
lead serves package pages and the alias from its own registers. A read that another live slice serves changes nothing here
and its value is not this slice's. -/
def State.placeRead (p : WinPlace) (s : State) : Option W64 × State :=
  let own (r : Nat) : Option W64 × State := let x := s.regRead r; (some x.1, x.2)
  match p with
  | .package r => if !pageExists (r / 0x1000) then (some 0#64, s) else if s.isLead then own r else (none, s)
  | .slice k r =>
    if s.bit Reg.PKG_SLICES (16 + k) then (some 0#64, s)
    else if k == s.slice then own r
    else (if s.bit Reg.PKG_SLICES k then none else some 0#64, s)
  | .alias_ r => if s.isLead then own r else (none, s)
  | .unassigned _ => (some 0#64, s)

/-- An aligned read at an unbound slice (R469): only its own SLC, MCODE, EBS, SPARE and SAFE pages are served. -/
def State.unboundRead (p : WinPlace) (s : State) : Option W64 × State :=
  let no (r : Nat) (via : Bool) : Option W64 × State := (some 0#64, s.record Pg.SLC 0xEC (dropDetail r via))
  match p with
  | .package r => no r false
  | .slice k r => if k == s.slice then let x := s.regRead r; (some x.1, x.2) else no r false
  | .alias_ r => no r true
  | .unassigned r => no r false

/-- A read of `size` bytes at an offset of the window: the answer, none where another live slice gives it, and the state
after it (R1, R9, R28, R512). The table of commands has no row for a read but that of a tally slot. -/
def State.portRead (offset size : Nat) (s : State) : Option PortAnswer × State :=
  let p := winPlace offset
  if size != 8 || offset % 8 != 0 then (some ⟨true, 0#64⟩, s.sizeError p)
  else
    let r := if s.bound then s.placeRead p else s.unboundRead p
    (r.1.map fun v => ⟨false, v⟩, r.2)

/-- The answer to a write of `size` bytes at an offset (R9, R28): only the size and the alignment give an error. -/
def writeAnswer (offset size : Nat) : PortAnswer := ⟨size != 8 || offset % 8 != 0, 0#64⟩

/-! ## Path operations at a hop (R326, R327) -/

/-- The register a path operation names: a page of the two, and the offset. -/
def pathReg (b : List Byte) : Option Nat :=
  let x := fieldAt b 0x20 2
  if bits x 15 12 = 0 then some (Pg.DISC * 0x1000 + bits x 11 0)
  else if bits x 15 12 = 1 then some (Pg.ROUTE * 0x1000 + bits x 11 0)
  else none

/-- An access that came by a path operation, as though by the register port (R9 to R14). -/
def State.pathAccess (r : Nat) (v : W64) (s : State) : State :=
  if r % 8 ≠ 0 then s.record Pg.SLC 0x01 (dropDetail r false) else s.regWrite r v

/-- The code that an access records first: what it would leave in PAGE_ERR_FIRST of the page or of SLC, were both empty. -/
def State.refusedCode (r : Nat) (f : State → State) (s : State) : Nat :=
  let e (s : State) : State := (s.setReg (Reg.PAGE_ERR_FIRST (r / 0x1000)) 0#64).setReg (Reg.PAGE_ERR_FIRST Pg.SLC) 0#64
  let t := f (e s)
  let a := t.fld (Reg.PAGE_ERR_FIRST (r / 0x1000)) 7 0
  if a ≠ 0 then a else t.fld (Reg.PAGE_ERR_FIRST Pg.SLC) 7 0

/-- The reply of a target: REPLY, status, code and value in place (R326). -/
def pathAnswer (b : List Byte) (status code : Nat) (value : W64) : List Byte :=
  b.take 2 ++ [BitVec.ofNat 8 (bits (fieldAt b 2 1) 0 0 + 2), BitVec.ofNat 8 status] ++ leBytes 4 code ++ (b.drop 8).take 0x20
    ++ leBytes 8 value.toNat ++ (b.drop 0x30).take 16

/-- The access at the target: the answer and the state after it. -/
def State.pathTarget (b : List Byte) (s : State) : List Byte × State :=
  let v := BitVec.ofNat 64 (fieldAt b 0x28 8)
  match pathReg b with
  | none => (pathAnswer b 1 0 v, s)
  | some r =>
    if bits (fieldAt b 2 1) 0 0 = 1 then
      let code := s.refusedCode r (State.pathAccess r v)
      (pathAnswer b (if code = 0 then 0 else 2) code v, s.pathAccess r v)
    else if r % 8 ≠ 0 then (pathAnswer b 2 0x01 0#64, s.record Pg.SLC 0x01 (dropDetail r false))
    else
      let x := s.regRead r
      (pathAnswer b 0 0 x.1, x.2)

/-- A reply goes back one hop, by the entry port recorded at this hop; at the origin, index 0, it is the answer (R327).
The hop index counts down. -/
def State.pathBack (b : List Byte) (s : State) : State :=
  let i := fieldAt b 1 1
  if i = 0 then s.pathReply b
  else
    let p := fieldAt b (0x18 + (i - 1)) 1
    if s.discPorts.contains p then s.sendLocal p 0x05 (setByte 1 (i - 1) b) else s

/-- PATH_OP_RECEIVE (R327): the entry port is written down; a hop on the way sends the operation on, the target applies
it and answers, and a reply goes back the way it came. -/
def execPathOpReceive (port : Nat) (payload : List Byte) (s : State) : Out :=
  .next (s.discMessage port fun s =>
    let n := fieldAt payload 0 1
    let i := fieldAt payload 1 1
    if n = 0 ∨ 8 < n ∨ n < i then s
    else if bits (fieldAt payload 2 1) 1 1 = 1 then s.pathBack payload
    else if i = 0 then s
    else
      let b := setByte (0x18 + (i - 1)) port payload
      if i < n then s.pathForward i b
      else
        let (b, s) := s.pathTarget b
        s.pathBack b)

end Sys2Proof.Machine
end

