-- ==== Sys2Proof/Machine/Dispatch.lean ====
section
/-! DEFINITION. The dispatch: one arm per command of the table, each one direct call of its meaning. -/
namespace Sys2Proof.Machine

/-- A command's effect on everything but the queue of waiting commands. -/
def exec (i : Instr) (s : State) : Host.Outcome State Fault Refusal :=
  match i with
  | .registerWrite offset size v => Sys2Proof.Machine.execRegisterWrite offset size v s
  | .porstAssert => Sys2Proof.Machine.execPorstAssert s
  | .porstRelease clocksStable => Sys2Proof.Machine.execPorstRelease clocksStable s
  | .slrstAssert => Sys2Proof.Machine.execSlrstAssert s
  | .slrstRelease clocksStable => Sys2Proof.Machine.execSlrstRelease clocksStable s
  | .arithStepChange step next => Sys2Proof.Machine.execArithStepChange step next s
  | .clkFault clock => Sys2Proof.Machine.execClkFault clock s
  | .tsyncPulse leadTime => Sys2Proof.Machine.execTsyncPulse leadTime s
  | .tsyncLost missed => Sys2Proof.Machine.execTsyncLost missed s
  | .powerRemove slice => Sys2Proof.Machine.execPowerRemove slice s
  | .memResponse addr port target result => Sys2Proof.Machine.execMemResponse addr port target result s
  | .memWriteAck chain => Sys2Proof.Machine.execMemWriteAck chain s
  | .memTimeout addr target => Sys2Proof.Machine.execMemTimeout addr target s
  | .floorShort => Sys2Proof.Machine.execFloorShort s
  | .apertureWrite place bytes => Sys2Proof.Machine.execApertureWrite place bytes s
  | .irqMessageSend vector => Sys2Proof.Machine.execIrqMessageSend vector s
  | .irqRetryTimer vector => Sys2Proof.Machine.execIrqRetryTimer vector s
  | .irqMaskWrite v => Sys2Proof.Machine.execIrqMaskWrite v s
  | .irqForce v => Sys2Proof.Machine.execIrqForce v s
  | .irqEnableWrite page v => Sys2Proof.Machine.execIrqEnableWrite page v s
  | .irqAddrWrite vector data v => Sys2Proof.Machine.execIrqAddrWrite vector data v s
  | .errClr page => Sys2Proof.Machine.execErrClr page s
  | .stageDiscard page => Sys2Proof.Machine.execStageDiscard page s
  | .tallySlotRead page slot => Sys2Proof.Machine.execTallySlotRead page slot s
  | .clrUnread page => Sys2Proof.Machine.execClrUnread page s
  | .pbellGo => Sys2Proof.Machine.execPbellGo s
  | .pbellHalt => Sys2Proof.Machine.execPbellHalt s
  | .bellMarkerSend => Sys2Proof.Machine.execBellMarkerSend s
  | .bellMarkerReceive bell opens period => Sys2Proof.Machine.execBellMarkerReceive bell opens period s
  | .leadWindowOpen => Sys2Proof.Machine.execLeadWindowOpen s
  | .bellOpen => Sys2Proof.Machine.execBellOpen s
  | .dirDigestCompare digests => Sys2Proof.Machine.execDirDigestCompare digests s
  | .scalesComplete => Sys2Proof.Machine.execScalesComplete s
  | .layerIn v => Sys2Proof.Machine.execLayerIn v s
  | .layerOut half => Sys2Proof.Machine.execLayerOut half s
  | .bellPlanPost v => Sys2Proof.Machine.execBellPlanPost v s
  | .planCheckDone => Sys2Proof.Machine.execPlanCheckDone s
  | .slotLate half => Sys2Proof.Machine.execSlotLate half s
  | .lateNoticeReceive bell layer half => Sys2Proof.Machine.execLateNoticeReceive bell layer half s
  | .seqHashIn v => Sys2Proof.Machine.execSeqHashIn v s
  | .tokenScore half ue => Sys2Proof.Machine.execTokenScore half ue s
  | .shadowCompare half equal => Sys2Proof.Machine.execShadowCompare half equal s
  | .tileSelfTestDone failed => Sys2Proof.Machine.execTileSelfTestDone failed s
  | .tilePatternTest tile pass => Sys2Proof.Machine.execTilePatternTest tile pass s
  | .keysTableWrite v => Sys2Proof.Machine.execKeysTableWrite v s
  | .keysCheckDone => Sys2Proof.Machine.execKeysCheckDone s
  | .bankImageLoadDone bankB ok => Sys2Proof.Machine.execBankImageLoadDone bankB ok s
  | .keyRefetchDone area addr => Sys2Proof.Machine.execKeyRefetchDone area addr s
  | .selTableWrite v => Sys2Proof.Machine.execSelTableWrite v s
  | .selCheckDone => Sys2Proof.Machine.execSelCheckDone s
  | .tokenSelect half checkerOk => Sys2Proof.Machine.execTokenSelect half checkerOk s
  | .bidCloseSend half => Sys2Proof.Machine.execBidCloseSend half s
  | .bidReceive src record => Sys2Proof.Machine.execBidReceive src record s
  | .tieNoteReceive src half bell layer round record => Sys2Proof.Machine.execTieNoteReceive src half bell layer round record s
  | .bidCloseReceive src record => Sys2Proof.Machine.execBidCloseReceive src record s
  | .bidSkew src half => Sys2Proof.Machine.execBidSkew src half s
  | .auctionRoundClose half lockstep => Sys2Proof.Machine.execAuctionRoundClose half lockstep s
  | .aucCloseTimeout half => Sys2Proof.Machine.execAucCloseTimeout half s
  | .verdictReceive home bell layer half round verdict => Sys2Proof.Machine.execVerdictReceive home bell layer half round verdict s
  | .roundFold half => Sys2Proof.Machine.execRoundFold half s
  | .gateWeightsDone half => Sys2Proof.Machine.execGateWeightsDone half s
  | .releaseReceiveHome src record => Sys2Proof.Machine.execReleaseReceiveHome src record s
  | .releaseReceiveSite src record => Sys2Proof.Machine.execReleaseReceiveSite src record s
  | .reservationNoticeReceive home record => Sys2Proof.Machine.execReservationNoticeReceive home record s
  | .readinessRecordReceive record => Sys2Proof.Machine.execReadinessRecordReceive record s
  | .tokChunkSend => Sys2Proof.Machine.execTokChunkSend s
  | .tokChunkReceive src tag bytes crc => Sys2Proof.Machine.execTokChunkReceive src tag bytes crc s
  | .poolRequestGrant cls => Sys2Proof.Machine.execPoolRequestGrant cls s
  | .poolStarved cls => Sys2Proof.Machine.execPoolStarved cls s
  | .tilePost => Sys2Proof.Machine.execTilePost s
  | .tileHead v => Sys2Proof.Machine.execTileHead v s
  | .tileDone v => Sys2Proof.Machine.execTileDone v s
  | .tileTimeout list index => Sys2Proof.Machine.execTileTimeout list index s
  | .tileQuarRelease v => Sys2Proof.Machine.execTileQuarRelease v s
  | .returnChunkReceive src tag bytes crc => Sys2Proof.Machine.execReturnChunkReceive src tag bytes crc s
  | .returnTimeout half => Sys2Proof.Machine.execReturnTimeout half s
  | .tokenCombine half fault => Sys2Proof.Machine.execTokenCombine half fault s
  | .resDirWrite v => Sys2Proof.Machine.execResDirWrite v s
  | .resDirLoadDone => Sys2Proof.Machine.execResDirLoadDone s
  | .resEditWrite v => Sys2Proof.Machine.execResEditWrite v s
  | .resEditCheckDone => Sys2Proof.Machine.execResEditCheckDone s
  | .resDescWrite v => Sys2Proof.Machine.execResDescWrite v s
  | .resHintWrite v => Sys2Proof.Machine.execResHintWrite v s
  | .residencyFetchStart => Sys2Proof.Machine.execResidencyFetchStart s
  | .residencyFetchDone expert layer => Sys2Proof.Machine.execResidencyFetchDone expert layer s
  | .deadNoticeSend slice => Sys2Proof.Machine.execDeadNoticeSend slice s
  | .deadNoticeReceive source rehomeBell => Sys2Proof.Machine.execDeadNoticeReceive source rehomeBell s
  | .linkFrameSend port => Sys2Proof.Machine.execLinkFrameSend port s
  | .linkFrameReceive port bytes corrected side => Sys2Proof.Machine.execLinkFrameReceive port bytes corrected side s
  | .phyLockLoss port => Sys2Proof.Machine.execPhyLockLoss port s
  | .linkTrainDone port rtt farNode farPort => Sys2Proof.Machine.execLinkTrainDone port rtt farNode farPort s
  | .packetForward index => Sys2Proof.Machine.execPacketForward index s
  | .escWaitTimeout index => Sys2Proof.Machine.execEscWaitTimeout index s
  | .ackReceive src record => Sys2Proof.Machine.execAckReceive src record s
  | .nakCrcReceive src record => Sys2Proof.Machine.execNakCrcReceive src record s
  | .nakSpanReceive src record => Sys2Proof.Machine.execNakSpanReceive src record s
  | .barrowAckReceive src record => Sys2Proof.Machine.execBarrowAckReceive src record s
  | .skipReceive src record => Sys2Proof.Machine.execSkipReceive src record s
  | .retxTimeout dest cls seq => Sys2Proof.Machine.execRetxTimeout dest cls seq s
  | .e2eLost dest cls seq => Sys2Proof.Machine.execE2eLost dest cls seq s
  | .skipResend dest cls seq => Sys2Proof.Machine.execSkipResend dest cls seq s
  | .discIdentWrite v => Sys2Proof.Machine.execDiscIdentWrite v s
  | .discIncarnWrite v => Sys2Proof.Machine.execDiscIncarnWrite v s
  | .discStart v => Sys2Proof.Machine.execDiscStart v s
  | .discNodeWrite v by_ => Sys2Proof.Machine.execDiscNodeWrite v by_ s
  | .electSend => Sys2Proof.Machine.execElectSend s
  | .electReceive port payload => Sys2Proof.Machine.execElectReceive port payload s
  | .electReportExpire port => Sys2Proof.Machine.execElectReportExpire port s
  | .claimSend => Sys2Proof.Machine.execClaimSend s
  | .claimReceive port payload => Sys2Proof.Machine.execClaimReceive port payload s
  | .assignNumbering => Sys2Proof.Machine.execAssignNumbering s
  | .assignReceive port payload => Sys2Proof.Machine.execAssignReceive port payload s
  | .lsbOriginate => Sys2Proof.Machine.execLsbOriginate s
  | .lsbReceive port payload => Sys2Proof.Machine.execLsbReceive port payload s
  | .pathOpSend v => Sys2Proof.Machine.execPathOpSend v s
  | .pathOpReceive port payload => Sys2Proof.Machine.execPathOpReceive port payload s
  | .pathOpReplyReceive payload => Sys2Proof.Machine.execPathOpReplyReceive payload s
  | .pathOpTimeout => Sys2Proof.Machine.execPathOpTimeout s
  | .mgrMailReceive payload => Sys2Proof.Machine.execMgrMailReceive payload s
  | .routeImageWrite v => Sys2Proof.Machine.execRouteImageWrite v s
  | .routeImageCheckDone => Sys2Proof.Machine.execRouteImageCheckDone s
  | .routeSwitchWrite v => Sys2Proof.Machine.execRouteSwitchWrite v s
  | .routeSwitchAt => Sys2Proof.Machine.execRouteSwitchAt s
  | .routeDrainEnd => Sys2Proof.Machine.execRouteDrainEnd s
  | .msemRegionsWrite v => Sys2Proof.Machine.execMsemRegionsWrite v s
  | .msemRegionsCheckDone => Sys2Proof.Machine.execMsemRegionsCheckDone s
  | .msemTail v => Sys2Proof.Machine.execMsemTail v s
  | .msemCmdLoad => Sys2Proof.Machine.execMsemCmdLoad s
  | .msemCmdStore => Sys2Proof.Machine.execMsemCmdStore s
  | .msemCmdStoreMasked => Sys2Proof.Machine.execMsemCmdStoreMasked s
  | .msemCmdStoreCount => Sys2Proof.Machine.execMsemCmdStoreCount s
  | .msemCmdAdd => Sys2Proof.Machine.execMsemCmdAdd s
  | .msemCmdMinS => Sys2Proof.Machine.execMsemCmdMinS s
  | .msemCmdMaxS => Sys2Proof.Machine.execMsemCmdMaxS s
  | .msemCmdMinU => Sys2Proof.Machine.execMsemCmdMinU s
  | .msemCmdMaxU => Sys2Proof.Machine.execMsemCmdMaxU s
  | .msemCmdCas => Sys2Proof.Machine.execMsemCmdCas s
  | .msemCmdFadd32 => Sys2Proof.Machine.execMsemCmdFadd32 s
  | .msemCmdFence => Sys2Proof.Machine.execMsemCmdFence s
  | .fenceComplete id => Sys2Proof.Machine.execFenceComplete id s
  | .reqLoad p => Sys2Proof.Machine.execReqLoad p s
  | .reqStore p => Sys2Proof.Machine.execReqStore p s
  | .reqStoreMasked p => Sys2Proof.Machine.execReqStoreMasked p s
  | .reqStoreCount p => Sys2Proof.Machine.execReqStoreCount p s
  | .reqAdd p => Sys2Proof.Machine.execReqAdd p s
  | .reqMinS p => Sys2Proof.Machine.execReqMinS p s
  | .reqMaxS p => Sys2Proof.Machine.execReqMaxS p s
  | .reqMinU p => Sys2Proof.Machine.execReqMinU p s
  | .reqMaxU p => Sys2Proof.Machine.execReqMaxU p s
  | .reqCas p => Sys2Proof.Machine.execReqCas p s
  | .reqFadd32 p => Sys2Proof.Machine.execReqFadd32 p s
  | .reqStub p => Sys2Proof.Machine.execReqStub p s
  | .reqLoadGw p => Sys2Proof.Machine.execReqLoadGw p s
  | .reqStoreGw p => Sys2Proof.Machine.execReqStoreGw p s
  | .fwdRequestReceive type p => Sys2Proof.Machine.execFwdRequestReceive type p s
  | .invalidateReceive p => Sys2Proof.Machine.execInvalidateReceive p s
  | .rspReceive p => Sys2Proof.Machine.execRspReceive p s
  | .remoteTimeout tag => Sys2Proof.Machine.execRemoteTimeout tag s
  | .jobTeardown v => Sys2Proof.Machine.execJobTeardown v s
  | .porterTail v => Sys2Proof.Machine.execPorterTail v s
  | .porterRequestIssue => Sys2Proof.Machine.execPorterRequestIssue s
  | .collCreate v => Sys2Proof.Machine.execCollCreate v s
  | .collDestroy v => Sys2Proof.Machine.execCollDestroy v s
  | .joinSend group => Sys2Proof.Machine.execJoinSend group s
  | .joinReceive p => Sys2Proof.Machine.execJoinReceive p s
  | .readyReceive p => Sys2Proof.Machine.execReadyReceive p s
  | .collCreateTimeout group => Sys2Proof.Machine.execCollCreateTimeout group s
  | .collTail v => Sys2Proof.Machine.execCollTail v s
  | .collOpStart group => Sys2Proof.Machine.execCollOpStart group s
  | .collOpComplete group seq => Sys2Proof.Machine.execCollOpComplete group seq s
  | .pullReceive p => Sys2Proof.Machine.execPullReceive p s
  | .dataReceive p => Sys2Proof.Machine.execDataReceive p s
  | .endReceive p => Sys2Proof.Machine.execEndReceive p s
  | .collAckReceive p => Sys2Proof.Machine.execCollAckReceive p s
  | .retryReceive p => Sys2Proof.Machine.execRetryReceive p s
  | .pullRetry group seq chunk => Sys2Proof.Machine.execPullRetry group seq chunk s
  | .abortReceive p => Sys2Proof.Machine.execAbortReceive p s
  | .collProgressTimeout group seq => Sys2Proof.Machine.execCollProgressTimeout group seq s
  | .timeReceive p => Sys2Proof.Machine.execTimeReceive p s
  | .loadReceive p => Sys2Proof.Machine.execLoadReceive p s
  | .llrReceive p => Sys2Proof.Machine.execLlrReceive p s
  | .halfDigestDone half => Sys2Proof.Machine.execHalfDigestDone half s
  | .detDigestReceive record => Sys2Proof.Machine.execDetDigestReceive record s
  | .detPairTimeout => Sys2Proof.Machine.execDetPairTimeout s
  | .detDivClr v => Sys2Proof.Machine.execDetDivClr v s
  | .ctxCreate v => Sys2Proof.Machine.execCtxCreate v s
  | .ctxDestroy v => Sys2Proof.Machine.execCtxDestroy v s
  | .ctxDrainEnd c => Sys2Proof.Machine.execCtxDrainEnd c s
  | .ctxSaveDone c => Sys2Proof.Machine.execCtxSaveDone c s
  | .ctxSwitchDone => Sys2Proof.Machine.execCtxSwitchDone s
  | .ctxUrgent v => Sys2Proof.Machine.execCtxUrgent v s
  | .ctxModelAtWrite v => Sys2Proof.Machine.execCtxModelAtWrite v s
  | .modelSwitchStart => Sys2Proof.Machine.execModelSwitchStart s
  | .modelSwitchDone => Sys2Proof.Machine.execModelSwitchDone s
  | .safeCauseClear v => Sys2Proof.Machine.execSafeCauseClear v s
  | .wdogOverrun half => Sys2Proof.Machine.execWdogOverrun half s
  | .scrubRead word outcome => Sys2Proof.Machine.execScrubRead word outcome s
  | .latentTest item pass => Sys2Proof.Machine.execLatentTest item pass s
  | .mcodeCtrlError controller flagged => Sys2Proof.Machine.execMcodeCtrlError controller flagged s
  | .failSilent cause => Sys2Proof.Machine.execFailSilent cause s
  | .edgeSilence edge => Sys2Proof.Machine.execEdgeSilence edge s
  | .silenceNoteReceive silent reporter => Sys2Proof.Machine.execSilenceNoteReceive silent reporter s
  | .spareRetire v => Sys2Proof.Machine.execSpareRetire v s
  | .psafeRetire v => Sys2Proof.Machine.execPsafeRetire v s
  | .bistDone failed micros => Sys2Proof.Machine.execBistDone failed micros s
  | .slcRepair v => Sys2Proof.Machine.execSlcRepair v s
  | .slcMapout v => Sys2Proof.Machine.execSlcMapout v s
  | .slcUnitRst v => Sys2Proof.Machine.execSlcUnitRst v s
  | .mcodeExpectWrite slot word v => Sys2Proof.Machine.execMcodeExpectWrite slot word v s
  | .mcodeLoad v => Sys2Proof.Machine.execMcodeLoad v s
  | .mcodeHashDone => Sys2Proof.Machine.execMcodeHashDone s
  | .mcodeSwitchWrite v => Sys2Proof.Machine.execMcodeSwitchWrite v s
  | .ebsCfgWrite v => Sys2Proof.Machine.execEbsCfgWrite v s
  | .ebsEdgeRetry edge ident => Sys2Proof.Machine.execEbsEdgeRetry edge ident s
  | .packageBind component boundLead => Sys2Proof.Machine.execPackageBind component boundLead s
  | .leadMove v => Sys2Proof.Machine.execLeadMove v s
  | .traceMark v => Sys2Proof.Machine.execTraceMark v s
  | .traceLineWrite => Sys2Proof.Machine.execTraceLineWrite s
  | .traceLinePad => Sys2Proof.Machine.execTraceLinePad s
  | .ptimeSet v => Sys2Proof.Machine.execPtimeSet v s
  | .dirctlEdit v => Sys2Proof.Machine.execDirctlEdit v s
  | .dirctlCheckDone results => Sys2Proof.Machine.execDirctlCheckDone results s
  | .portTrainRetry port => Sys2Proof.Machine.execPortTrainRetry port s
  | .packetExpiry index => Sys2Proof.Machine.execPacketExpiry index s
  | .lsdbFreshExpire node => Sys2Proof.Machine.execLsdbFreshExpire node s
  | .heartbeatEdge => Sys2Proof.Machine.execHeartbeatEdge s

end Sys2Proof.Machine
end

