-- ==== Sys2Proof/Machine/Tick.lean ====
section
/-! DEFINITION. What happens when no command waits: one cycle of the time reference (R47, R392). -/
namespace Sys2Proof.Machine

/-- One cycle: the time base, the slew left and its age. A slew in progress moves the time base by 1 ns in 1,000 cycles,
never backward (R392). -/
def slewStep (now : Nat) (slew : Int) (age : Nat) : Nat × Int × Nat :=
  if slew = 0 then (now + 1, 0, 0)
  else if age + 1 < 1000 then (now + 1, slew, age + 1)
  else if 0 < slew then (now + 2, slew - 1, 0)
  else (now, slew + 1, 0)

/-- The time base counts one cycle of IKC_TREF (R47). In the reset of IKC_PORST_N, which an early release does not end
(R48), it stands at its cleared value, and without power it does not count. -/
def State.tick (s : State) : State :=
  if s.pins.porstLow || s.start.porstHeld || !s.pins.powered then s
  else
    let r := slewStep s.now s.start.slew s.start.slewAge
    let s := { s with now := r.1, start := { s.start with slew := r.2.1, slewAge := r.2.2 } }
    if s.bit Reg.TIME_MASTER 48 && r.2.1 == 0 then s.setFld Reg.TIME_MASTER 48 48 0 else s

end Sys2Proof.Machine
end

