-- ==== Sys2Proof/Safety.lean ====
section
/-! DEFINITION. What a safe state and a safe step are: the canonical forms of the memories, the limits that every step
keeps, and what a command leaves alone. Claims are stated in these terms. -/
namespace Sys2Proof.Machine

/-- Host memory is in its canonical form: addresses strictly rising, no entry equal to what an unlisted byte reads as. -/
abbrev Memory.wf (m : Table Byte) : Prop := tWf byteZero m = true

/-- What every step keeps: registers, host memory and stall SRAM in their canonical forms, every live tally below its
limit, with what the cycle of an open keeps apart (R493, R494), no more bytes in the trace FIFO than it has (R499), and no register write in flight between commands. -/
structure State.Inv (s : State) : Prop where
  regs : tWf resetOf s.regs = true
  mem : Memory.wf s.mem
  sram : Memory.wf s.sram
  tally : (∀ p ∈ s.tally.live, p.2 < 2 ^ 40) ∧ ∀ p ∈ s.tally.late, p.2.1 < 2 ^ 40 ∧ p.2.2 < 2 ^ 40
  trace : 8 * s.trace.fifo.length ≤ fifoBytes
  viaAlias : s.viaAlias = false

/-- Every register but those listed holds in `t` what it holds in `s`. -/
def State.RegsBut (l : List Nat) (s t : State) : Prop := ∀ r, r ∉ l → t.reg r = s.reg r

/-- Every byte of host memory reads in `t` as it reads in `s`. -/
def State.SameMemory (s t : State) : Prop := ∀ a, t.rdByte a = s.rdByte a

/-- Every byte of host memory outside the `n` bytes from `lo` reads in `t` as it reads in `s`. -/
def State.MemoryBut (lo n : Nat) (s t : State) : Prop :=
  ∀ a, a < memSpace → a < lo ∨ lo + n ≤ a → t.rdByte a = s.rdByte a

/-- Every byte of stall SRAM reads in `t` as it reads in `s`. -/
def State.SameSram (s t : State) : Prop := ∀ a, tGet byteZero a t.sram = tGet byteZero a s.sram

/-- The registers that recording a code in a page may change (R519): the page's header, the event log's place, the
pending vectors, and the memory bytes counted. -/
def recordRegs (pg : Nat) : List Nat :=
  [Reg.PAGE_ERR_FIRST pg, Reg.PAGE_ERR_COUNT pg, Reg.PAGE_IRQ_RAW pg, Reg.IRQ_PEND, Reg.EVLOG_NEXT, Reg.EVLOG_STAT,
    Reg.TALLY_LIFE 1]

/-- A code has been recorded in a page (R519): PAGE_ERR_FIRST takes it when it was empty, or when the recordings of the
same cycle filled it and the code is lower, PAGE_ERR_COUNT rises by 1 without passing its limit, and PAGE_IRQ_RAW ERR is
set. Between commands no cycle is open. -/
def State.Recorded (pg code detail : Nat) (s t : State) : Prop :=
  t.reg (Reg.PAGE_ERR_FIRST pg) = (if s.fld (Reg.PAGE_ERR_FIRST pg) 7 0 = 0 ∨ (pg ∈ s.bell.cycle ∧ code < s.fld (Reg.PAGE_ERR_FIRST pg) 7 0) then
      BitVec.ofNat 64 (code + (s.bellNo % 2 ^ 24) * 2 ^ 8 + (detail % 2 ^ 32) * 2 ^ 32)
    else s.reg (Reg.PAGE_ERR_FIRST pg))
  ∧ t.reg (Reg.PAGE_ERR_COUNT pg) = BitVec.ofNat 64 (min (s.regNat (Reg.PAGE_ERR_COUNT pg) + 1) (2 ^ 32 - 1))
  ∧ t.bit (Reg.PAGE_IRQ_RAW pg) 0 = true

/-- A write of a register passes every check made before it has an effect: R469, R14 and R512, R525. -/
def State.Accepts (r : Nat) (v : W64) (s : State) : Prop :=
  (s.bound = true ∨ servedUnbound (r / 0x1000) = true) ∧ setsReserved r v = false ∧ (regSpec r).isSome = true
    ∧ fieldsInRange r v.toNat = true

/-- Every part of the state but registers, host memory, chains of writes, the codes seen in the bell, tallies and the
trace FIFO is in `t` as in `s`. -/
def State.LogOnly (s t : State) : Prop :=
  t = { s with
    regs := t.regs, mem := t.mem, poison := t.poison, chains := t.chains, nextChain := t.nextChain
    evSeen := t.evSeen, tally := t.tally, trace := t.trace }

/-- What recording a code leaves alone (R503, R519): every register but those of `recordRegs`, every byte of host memory
but the entry of the event log, and the rest of the state. -/
structure State.RecordFrame (pg : Nat) (s t : State) : Prop where
  regs : s.RegsBut (recordRegs pg) t
  mem : s.MemoryBut (s.evAddr (s.regNat Reg.EVLOG_NEXT)) 64 t
  rest : s.LogOnly t

end Sys2Proof.Machine
end

