-- ==== Sys2Proof/WellFormed.lean ====
section
/-! DEFINITION. What a well-formed command is: every operand lies in the range that the manual's numbering gives it. The
meanings are total: they do not lean on it. -/
namespace Sys2Proof

/-- A node ID has 23 bits (R314). -/
def nodeOk (n : Nat) : Bool := decide (n < 2 ^ 23)

/-- A page number that can be addressed: a slice page 0x00 to 0x3F, or a package page as 0x100 to 0x1FF (R511). -/
def pageOk (pg : Nat) : Bool := decide (pg < 0x40) || (decide (0x100 ≤ pg) && decide (pg < 0x200))

/-- A packet payload is whole 8 B words, at most 4,112 B (R299). -/
def payloadOk (b : List Byte) : Bool := decide (b.length % 8 = 0) && decide (b.length ≤ 4112)

/-- A chunk carries at most 4,096 B (R205). -/
def chunkOk (b : List Byte) : Bool := decide (b.length ≤ 4096)

/-- The header fields and the payload of a packet taken in (R299). -/
def arrivedOk (p : Arrived) : Bool :=
  nodeOk p.src && decide (p.job < 65536) && decide (p.seq < 65536) && decide (p.prio < 4) && payloadOk p.payload

/-- A command is well formed. -/
def Instr.wf : Instr → Bool
  | .registerWrite offset _ _ => decide (offset < 0x400000)
  | .porstAssert => true
  | .porstRelease _ => true
  | .slrstAssert => true
  | .slrstRelease _ => true
  | .arithStepChange _ _ => true
  | .clkFault _ => true
  | .tsyncPulse leadTime => decide (leadTime < 2 ^ 64)
  | .tsyncLost _ => true
  | .powerRemove slice => decide (slice < 8)
  | .memResponse addr port _ _ => decide (addr < 2 ^ 52) && decide (port < 16)
  | .memWriteAck _ => true
  | .memTimeout addr _ => decide (addr < 2 ^ 52)
  | .floorShort => true
  | .apertureWrite _ _ => true
  | .irqMessageSend vector => decide (vector < 64)
  | .irqRetryTimer vector => decide (vector < 64)
  | .irqMaskWrite _ => true
  | .irqForce _ => true
  | .irqEnableWrite page _ => pageOk page
  | .irqAddrWrite vector _ _ => decide (vector < 64)
  | .errClr page => pageOk page
  | .stageDiscard page => pageOk page
  | .tallySlotRead page slot => pageOk page && decide (slot < 16)
  | .clrUnread page => pageOk page
  | .pbellGo => true
  | .pbellHalt => true
  | .bellMarkerSend => true
  | .bellMarkerReceive bell opens period => decide (bell < 2 ^ 64) && decide (opens < 2 ^ 64) && decide (period < 2 ^ 28)
  | .leadWindowOpen => true
  | .bellOpen => true
  | .dirDigestCompare digests => digests.all fun d => d.1 < 8
  | .scalesComplete => true
  | .layerIn _ => true
  | .layerOut _ => true
  | .bellPlanPost _ => true
  | .planCheckDone => true
  | .slotLate _ => true
  | .lateNoticeReceive bell layer _ => decide (bell < 2 ^ 64) && decide (layer < 256)
  | .seqHashIn _ => true
  | .tokenScore _ _ => true
  | .shadowCompare _ _ => true
  | .tileSelfTestDone failed => failed.all (· < 9)
  | .tilePatternTest _ _ => true
  | .keysTableWrite _ => true
  | .keysCheckDone => true
  | .bankImageLoadDone _ _ => true
  | .keyRefetchDone _ _ => true
  | .selTableWrite _ => true
  | .selCheckDone => true
  | .tokenSelect _ _ => true
  | .bidCloseSend _ => true
  | .bidReceive src record => nodeOk src && record.length == 16
  | .tieNoteReceive src _ bell layer round record => nodeOk src && decide (bell < 2 ^ 64) && decide (layer < 256) && decide (round < 3) && record.length == 16
  | .bidCloseReceive src record => nodeOk src && record.length == 16
  | .bidSkew src _ => decide (src < 32768)
  | .auctionRoundClose _ _ => true
  | .aucCloseTimeout _ => true
  | .verdictReceive home bell layer _ round _ => nodeOk home && decide (bell < 2 ^ 64) && decide (layer < 256) && decide (round < 3)
  | .roundFold _ => true
  | .gateWeightsDone _ => true
  | .releaseReceiveHome src record => nodeOk src && record.length == 16
  | .releaseReceiveSite src record => nodeOk src && record.length == 16
  | .reservationNoticeReceive home record => nodeOk home && record.length == 16
  | .readinessRecordReceive record => record.length == 16
  | .tokChunkSend => true
  | .tokChunkReceive src _ bytes _ => nodeOk src && chunkOk bytes
  | .poolRequestGrant cls => decide (cls < 4)
  | .poolStarved cls => decide (cls < 4)
  | .tilePost => true
  | .tileHead _ => true
  | .tileDone _ => true
  | .tileTimeout list _ => decide (list < 16)
  | .tileQuarRelease _ => true
  | .returnChunkReceive src _ bytes _ => nodeOk src && chunkOk bytes
  | .returnTimeout _ => true
  | .tokenCombine _ _ => true
  | .resDirWrite _ => true
  | .resDirLoadDone => true
  | .resEditWrite _ => true
  | .resEditCheckDone => true
  | .resDescWrite _ => true
  | .resHintWrite _ => true
  | .residencyFetchStart => true
  | .residencyFetchDone expert layer => decide (expert < 32768) && decide (layer < 256)
  | .deadNoticeSend slice => decide (slice < 8)
  | .deadNoticeReceive source rehomeBell => decide (source < 32768) && decide (rehomeBell < 2 ^ 64)
  | .linkFrameSend port => decide (port < 22)
  | .linkFrameReceive port bytes _ side => decide (port < 22) && bytes.length == 1024
      && side.beside.all fun x => (x.1.all fun d => decide (d < 4)) && decide (x.2 ≤ 2)
  | .phyLockLoss port => decide (port < 18)
  | .linkTrainDone port _ farNode farPort => decide (port < 18) && nodeOk farNode && decide (farPort < 18)
  | .packetForward _ => true
  | .escWaitTimeout _ => true
  | .ackReceive src record => nodeOk src && record.length == 8
  | .nakCrcReceive src record => nodeOk src && record.length == 8
  | .nakSpanReceive src record => nodeOk src && record.length == 8
  | .barrowAckReceive src record => nodeOk src && record.length == 8
  | .skipReceive src record => nodeOk src && record.length == 8
  | .retxTimeout dest cls seq => nodeOk dest && decide (cls < 8) && decide (seq < 65536)
  | .e2eLost dest cls seq => nodeOk dest && decide (cls < 8) && decide (seq < 65536)
  | .skipResend dest cls seq => nodeOk dest && decide (cls < 8) && decide (seq < 65536)
  | .discIdentWrite _ => true
  | .discIncarnWrite _ => true
  | .discStart _ => true
  | .discNodeWrite _ w => w.lead.all nodeOk
  | .electSend => true
  | .electReceive port payload => decide (port < 18) && payloadOk payload
  | .electReportExpire port => decide (port < 18)
  | .claimSend => true
  | .claimReceive port payload => decide (port < 18) && payloadOk payload
  | .assignNumbering => true
  | .assignReceive port payload => decide (port < 18) && payloadOk payload
  | .lsbOriginate => true
  | .lsbReceive port payload => decide (port < 18) && payloadOk payload
  | .pathOpSend _ => true
  | .pathOpReceive port payload => decide (port < 18) && payloadOk payload
  | .pathOpReplyReceive payload => payloadOk payload
  | .pathOpTimeout => true
  | .mgrMailReceive payload => payloadOk payload
  | .routeImageWrite _ => true
  | .routeImageCheckDone => true
  | .routeSwitchWrite _ => true
  | .routeSwitchAt => true
  | .routeDrainEnd => true
  | .msemRegionsWrite _ => true
  | .msemRegionsCheckDone => true
  | .msemTail _ => true
  | .msemCmdLoad => true
  | .msemCmdStore => true
  | .msemCmdStoreMasked => true
  | .msemCmdStoreCount => true
  | .msemCmdAdd => true
  | .msemCmdMinS => true
  | .msemCmdMaxS => true
  | .msemCmdMinU => true
  | .msemCmdMaxU => true
  | .msemCmdCas => true
  | .msemCmdFadd32 => true
  | .msemCmdFence => true
  | .fenceComplete _ => true
  | .reqLoad p => arrivedOk p
  | .reqStore p => arrivedOk p
  | .reqStoreMasked p => arrivedOk p
  | .reqStoreCount p => arrivedOk p
  | .reqAdd p => arrivedOk p
  | .reqMinS p => arrivedOk p
  | .reqMaxS p => arrivedOk p
  | .reqMinU p => arrivedOk p
  | .reqMaxU p => arrivedOk p
  | .reqCas p => arrivedOk p
  | .reqFadd32 p => arrivedOk p
  | .reqStub p => arrivedOk p
  | .reqLoadGw p => arrivedOk p
  | .reqStoreGw p => arrivedOk p
  | .fwdRequestReceive _ p => arrivedOk p
  | .invalidateReceive p => arrivedOk p
  | .rspReceive p => arrivedOk p
  | .remoteTimeout _ => true
  | .jobTeardown _ => true
  | .porterTail _ => true
  | .porterRequestIssue => true
  | .collCreate _ => true
  | .collDestroy _ => true
  | .joinSend group => decide (group < 4096)
  | .joinReceive p => arrivedOk p
  | .readyReceive p => arrivedOk p
  | .collCreateTimeout group => decide (group < 4096)
  | .collTail _ => true
  | .collOpStart group => decide (group < 4096)
  | .collOpComplete group seq => decide (group < 4096) && decide (seq < 65536)
  | .pullReceive p => arrivedOk p
  | .dataReceive p => arrivedOk p
  | .endReceive p => arrivedOk p
  | .collAckReceive p => arrivedOk p
  | .retryReceive p => arrivedOk p
  | .pullRetry group seq _ => decide (group < 4096) && decide (seq < 65536)
  | .abortReceive p => arrivedOk p
  | .collProgressTimeout group seq => decide (group < 4096) && decide (seq < 65536)
  | .timeReceive p => arrivedOk p
  | .loadReceive p => arrivedOk p
  | .llrReceive p => arrivedOk p
  | .halfDigestDone _ => true
  | .detDigestReceive record => record.length == 64
  | .detPairTimeout => true
  | .detDivClr _ => true
  | .ctxCreate _ => true
  | .ctxDestroy _ => true
  | .ctxDrainEnd c => decide (c < 4)
  | .ctxSaveDone c => decide (c < 4)
  | .ctxSwitchDone => true
  | .ctxUrgent _ => true
  | .ctxModelAtWrite _ => true
  | .modelSwitchStart => true
  | .modelSwitchDone => true
  | .safeCauseClear _ => true
  | .wdogOverrun _ => true
  | .scrubRead _ _ => true
  | .latentTest _ _ => true
  | .mcodeCtrlError controller _ => decide (controller < 2)
  | .failSilent _ => true
  | .edgeSilence edge => decide (edge < 4)
  | .silenceNoteReceive silent reporter => decide (silent < 8) && decide (reporter < 8)
  | .spareRetire _ => true
  | .psafeRetire _ => true
  | .bistDone _ _ => true
  | .slcRepair _ => true
  | .slcMapout _ => true
  | .slcUnitRst _ => true
  | .mcodeExpectWrite slot word _ => decide (slot < 8) && decide (word < 4)
  | .mcodeLoad _ => true
  | .mcodeHashDone => true
  | .mcodeSwitchWrite _ => true
  | .ebsCfgWrite _ => true
  | .ebsEdgeRetry edge _ => decide (edge < 4)
  | .packageBind component boundLead => component.all (· < 8) && boundLead.all (· < 8)
  | .leadMove _ => true
  | .traceMark _ => true
  | .traceLineWrite => true
  | .traceLinePad => true
  | .ptimeSet _ => true
  | .dirctlEdit _ => true
  | .dirctlCheckDone results => results.all fun d => d.1 < 8
  | .portTrainRetry port => decide (port < 18)
  | .packetExpiry _ => true
  | .lsdbFreshExpire node => nodeOk node
  | .heartbeatEdge => true

end Sys2Proof
end

