-- ==== Sys2Proof/Certificates/Slice0/Obligations.lean ====
section
/-! DEFINITION. The statements for the provers. Each says what a command of the table does in a state, as the manual's
rules give it, what it leaves alone, and under which conditions on the state and the operands it does so. -/
open Sys2Proof Sys2Proof.Machine

namespace Sys2Proof.Machine

/-- A register whose write has no rule of its own: it takes effect by its access type alone (R10). -/
def plainRegister (r : Nat) : Bool :=
  0x100 ≤ r % 0x1000 && !(Reg.IRQ_ADDR 0 ≤ r && r < Reg.IRQ_ADDR 64) && !(Reg.MCODE_EXPECT 0 0 ≤ r && r < Reg.MCODE_EXPECT 8 0)
    && (portFind r portOpsA).isNone && (portFind r portOpsB).isNone && (portFind r portOpsC).isNone

/-- The offset in the window of register `r` of slice `k` (R511). -/
def sliceOffset (k r : Nat) : Nat := 0x100000 + k * 0x40000 + r

/-- A code is recorded as R519 says and nothing else changes (R503). -/
def State.Records (pg code detail : Nat) (s t : State) : Prop :=
  State.Recorded pg code detail s t ∧ State.RecordFrame pg s t

/-- A half's round at this compute site has no FINAL yet (R198, R200): arrivals only count. -/
def State.SiteOpen (h : Half) (bell layer : Nat) (s : State) : Prop :=
  (s.site h).active = true ∧ (s.site h).bell = bell ∧ (s.site h).layer = layer ∧ (s.site h).finals = []
    ∧ (s.site h).stalls ≠ [] ∧ (s.site h).acked = [] ∧ s.pool.regionWait = []

/-- What the check of the directory image that RES_DIR names finds, in memory that is nowhere poisoned and with no read of it
failed (R244, R245). -/
def State.imageCheck (s : State) (nodes : List Nat) (held : Bool) : Option (Nat × Nat × Bool) :=
  let entries := (List.range (s.fld Reg.RES_DIR 15 0)).map fun e => s.rdNat (s.fld Reg.RES_DIR 51 16 * 2 ^ 16 + 16 * e) 16
  s.dirCheck .directory nodes (s.descBase held) entries (entries.zipIdx.map fun p => (p.2, s.entryBreaches nodes true p.1))
    (entries.zipIdx.map fun p => (p.2, p.1))

/-- Output `k` takes one packet more than before, which joins its queue or waits for credits (R307), and that packet is as
`P` says. -/
def State.LinkGets (k : Nat) (s t : State) (P : Packet → Prop) : Prop :=
  ∃ x, t.link k = (s.link k).enqueue s.now x ∧ P x

/-- The router holds one packet more than before, last in its queue, and that packet is as `P` says. -/
def State.QueueGets (s t : State) (P : Packet → Prop) : Prop :=
  ∃ q, t.route.queue = s.route.queue ++ [q] ∧ P q.pkt

/-- The output queue gains a response (R355) to `dest` of a tag, status and data, of a job and priority. -/
def State.Answers (dest job prio tag status : Nat) (data : List Byte) (s t : State) : Prop :=
  s.QueueGets t fun p => p.dest = dest ∧ p.src = s.node ∧ p.cls = 3 ∧ p.type = 1 ∧ p.job = job ∧ p.prio = prio
    ∧ p.arg = BitVec.ofNat 64 (tag + status * 2 ^ 16) ∧ p.payload = data

/-- A REQ packet has its turn, with none parked or skipped after it (R354). -/
def State.InTurn (s : State) (p : Arrived) : Prop :=
  p.seq < 65536 ∧ tGet zeroNat p.src s.msem.nextSeq = p.seq ∧ s.msem.parked = [] ∧ s.msem.skips = []

/-- The unit of remote memory after the turn of a REQ packet (R354). -/
def State.turned (s : State) (p : Arrived) : MsemSt :=
  { s.msem with nextSeq := tSet zeroNat p.src ((p.seq + 1) % 65536) s.msem.nextSeq }

/-- Region `i` holds the `n` bytes at `off`, is not forwarded, and lets `src` access them under `job` with the flag `k`
(0 READ, 1 WRITE, 2 ATOMIC) at the alignment `al` (R350, R351). -/
def State.Allowed (s : State) (i off n k al src job : Nat) : Prop :=
  s.windowRegion off n = some i ∧ rgFlag (s.regionAt s.liveRegions i) 4 = false ∧ rgJob (s.regionAt s.liveRegions i) = job
    ∧ rgFlag (s.regionAt s.liveRegions i) k = true ∧ off % al = 0
    ∧ (k = 0 ∨ rgAny (s.regionAt s.liveRegions i) = true ∨ rgOwner (s.regionAt s.liveRegions i) = src)

/-- The round `r` has become late: LATE stands in it and in the status of each of its tokens whose record is issued (R84). -/
def State.MadeLate (r : Round) (now : Option Round) : Prop :=
  ∃ x, now = some x ∧ x = { r with late := true, toks := x.toks } ∧ x.toks.length = r.toks.length
    ∧ ∀ (i : Nat) (y : RTok), r.toks[i]? = some y → ∃ z, x.toks[i]? = some z
      ∧ z.status = if y.issued then setBits y.status 11 11 1 else y.status

/-- What scoring token `i` of a half's round gives, with its input and its images read from memory that is nowhere poisoned
(R119 to R136). -/
def State.scoreOf (s : State) (v : RoundView) (h : Half) (i : Nat) : ScoreResult :=
  let x := s.scoreEnt v.conf v.rnd.layer
  let img := match s.bankFor (s.tableAt v.set.bell) v.rnd.layer with
    | some b => (s.bank b).img
    | none => []
  scoreVector x ((tGet resetOf Reg.RES_DIR_LIVE v.conf).toNat % 2 ^ 16) (confD v.conf) (fun off n => s.rd (x.proj + off) n) img
    (bf16List (s.rd (inputAddr v h i) (2 * confD v.conf)))

/-- The staging slots named of a collective that lie in host memory can be read (R387). -/
def State.SlotsRead (s : State) (g : Nat) (slots : List Nat) (n : Nat) : Prop :=
  ∀ b ∈ slots, ∀ a, s.slotPlace g b = .mem a → s.unreadable .request a n = false

end Sys2Proof.Machine

/-- For every command, queue and state: a step of a state with that command at the front of its queue is exec of the
command on the state with the queue's rest. -/
def Obligations.StepRunsFrontCommand : Prop :=
  ∀ (c : Instr) (rest : List Instr) (s : State), step { s with pending := c :: rest } = exec c { s with pending := rest }

/-- With an empty queue a step answers a next state in which only the time base, the slew in progress and
TIME_MASTER SLEWING may differ (R47, R392); it stands still in power-on reset, which an early release does not end
(R48), and without power, and with no slew it counts one nanosecond. That an idle step is one tick is the model's
choice (log entry 1). -/
def Obligations.IdleStepIsOneTick : Prop :=
  ∀ s : State, s.pending = [] →
    ∃ t, step s = .next t
      ∧ t = { s with now := t.now, start := t.start, regs := t.regs } ∧ (s.Inv → s.RegsBut [Reg.TIME_MASTER] t)
      ∧ ((s.pins.porstLow = true ∨ s.start.porstHeld = true ∨ s.pins.powered = false) → t = s)
      ∧ (s.pins.porstLow = false → s.start.porstHeld = false → s.pins.powered = true → s.start.slew = 0 → t.now = s.now + 1)
      ∧ (s.pins.porstLow = false → s.start.porstHeld = false → s.pins.powered = true → s.now ≤ t.now ∧ t.now ≤ s.now + 2)

/-- The state right after reset has its registers, host memory and stall SRAM in canonical form with nothing listed,
no live tally, an empty trace FIFO and an empty queue. What unlisted host memory reads as, and the values of
registers that the manual gives no reset value for, are the model's choice (log entries 2 and 3). -/
def Obligations.ResetHasInvariant : Prop :=
  State.reset.Inv ∧ State.reset.pending = [] ∧ State.reset.regs = [] ∧ State.reset.mem = []
    ∧ State.reset.reg Reg.SAFE_ALARM = 2#64 ∧ State.reset.slcState = 0 ∧ State.reset.bellState = 0
    ∧ State.reset.reg Reg.IRQ_MASK = 0xFFFFFFFFFFFFFFFF#64
    ∧ ∀ pg, pg < 0x200 → State.reset.reg (Reg.PAGE_IRQ_EN pg) = 4#64

/-- From every state with the invariant (registers, host memory and stall SRAM in canonical form, every live tally,
and what the cycle of an open keeps apart of one (R493), below its 40-bit limit of R494, no more bytes in the trace
FIFO than its 32 KiB of R499, no register write in flight), whatever command is at the front of the queue, with
whatever operands: the step answers a next state, and it has the invariant. -/
def Obligations.StepKeepsInvariant : Prop :=
  ∀ s : State, s.Inv → ∃ t, step s = .next t ∧ t.Inv

/-- For every command with any operands and every state with the invariant, exec answers a next state, which has the
invariant and the same queue of waiting commands: no command of the table ends in a fault or a refusal. -/
def Obligations.EveryCommandAnswers : Prop :=
  ∀ (c : Instr) (s : State), s.Inv → ∃ t, exec c s = .next t ∧ t.Inv ∧ t.pending = s.pending

/-- At a bound slice that is not PARKED, an aligned 64-bit REGISTER_WRITE of a register of this slice without a rule
of its own, whose value sets no reserved bit and has every field in range, does this (R10): a bell-staged register
is staged whole and the value in force stays (R11, R517), and while an open is due at this cycle what was staged
before it is kept for that open (R12); of any other register each RW bit takes the value written, each W1C bit
written 1 clears, and every other bit stays. Every other register, memory and the rest of the state stay. -/
def Obligations.RegisterWriteTakesEffect : Prop :=
  ∀ (s : State) (r : Nat) (v : W64) (x : RegSpec), s.Inv → s.bound = true → s.slice < 8 →
    s.bit Reg.PKG_SLICES (16 + s.slice) = false → r < 0x40000 → r % 8 = 0 → plainRegister r = true →
    regSpec r = some x → s.Accepts r v →
    ∃ t, exec (.registerWrite (sliceOffset s.slice r) 8 v) s = .next t ∧ t = { s with regs := t.regs, staged := t.staged, stagedLate := t.stagedLate }
      ∧ (x.bs ≠ 0 → t.stagedReg r = v ∧ t.regs = s.regs)
      ∧ (x.bs = 0 → t.staged = s.staged ∧ t.stagedLate = s.stagedLate ∧ s.RegsBut [r] t ∧ ∀ i, i < 64 →
          (t.reg r).getLsbD i =
            if x.w1c.testBit i then (s.reg r).getLsbD i && !v.getLsbD i && !x.rw.testBit i
            else if x.rw.testBit i then v.getLsbD i else (s.reg r).getLsbD i)

/-- REGISTER_WRITE changes nothing but what recording a code changes (R503, R519), in these cases. An access to this
slice's range that is not an aligned one of 64 bits records ACCESS_SIZE in the SLC page (R9). An unbound slice
records NOT_BOUND in its SLC page for every package page, every alias offset, every range of another slice, and
every page of its own but SLC, MCODE, EBS, SPARE and SAFE (R469). At a bound slice a value that sets a reserved bit
of a plain register of an existing page of its own records RSVD_WRITE in that page (R14), and one with a field out
of range FIELD_RANGE (R525). A write to the range of a PARKED slice records SLICE_PARKED, and to that of an absent
slice ABSENT_SLICE, in the PKG page, with PKG_FAULT (R1, R28). -/
def Obligations.RegisterWriteDropped : Prop :=
  ∀ (s : State) (k r size : Nat) (v : W64), s.Inv → k < 8 → s.slice < 8 → r < 0x40000 →
    ((size ≠ 8 ∨ r % 8 ≠ 0) → ∃ t, exec (.registerWrite (sliceOffset s.slice r) size v) s = .next t
      ∧ s.Records Pg.SLC 0x01 (dropDetail r false) t)
    ∧ (s.bound = false → r % 8 = 0 → (k ≠ s.slice ∨ servedUnbound (r / 0x1000) = false) →
      ∃ t, exec (.registerWrite (sliceOffset k r) 8 v) s = .next t ∧ s.Records Pg.SLC 0xEC (dropDetail r false) t)
    ∧ (s.bound = false → r % 8 = 0 → r + 0x300000 < 0x340000 →
      ∃ t, exec (.registerWrite (r + 0x300000) 8 v) s = .next t ∧ s.Records Pg.SLC 0xEC (dropDetail r true) t)
    ∧ (s.bound = false → r % 8 = 0 → r < 0x40000 →
      ∃ t, exec (.registerWrite r 8 v) s = .next t ∧ s.Records Pg.SLC 0xEC (dropDetail (0x100000 + r) false) t)
    ∧ (s.bound = true → r % 8 = 0 → s.bit Reg.PKG_SLICES (16 + k) = true →
      ∃ t, exec (.registerWrite (sliceOffset k r) 8 v) s = .next t
        ∧ t.reg Reg.PKG_FAULT = BitVec.ofNat 64 (0xEE + k * 2 ^ 8 + r * 2 ^ 18)
        ∧ State.Records Pg.PKG 0xEE (dropDetail r false) (s.setReg Reg.PKG_FAULT (BitVec.ofNat 64 (0xEE + k * 2 ^ 8 + r * 2 ^ 18))) t)
    ∧ (s.bound = true → r % 8 = 0 → s.bit Reg.PKG_SLICES (16 + k) = false → k ≠ s.slice → s.bit Reg.PKG_SLICES k = false →
      ∃ t, exec (.registerWrite (sliceOffset k r) 8 v) s = .next t
        ∧ t.reg Reg.PKG_FAULT = BitVec.ofNat 64 (0xED + k * 2 ^ 8 + r * 2 ^ 18)
        ∧ State.Records Pg.PKG 0xED (dropDetail r false) (s.setReg Reg.PKG_FAULT (BitVec.ofNat 64 (0xED + k * 2 ^ 8 + r * 2 ^ 18))) t)
    ∧ (s.bound = true → r % 8 = 0 → s.bit Reg.PKG_SLICES (16 + s.slice) = false → plainRegister r = true →
      pageExists (r / 0x1000) = true → setsReserved r v = true →
      ∃ t, exec (.registerWrite (sliceOffset s.slice r) 8 v) s = .next t ∧ s.Records (r / 0x1000) 0x02 (dropDetail r false) t)
    ∧ (s.bound = true → r % 8 = 0 → s.bit Reg.PKG_SLICES (16 + s.slice) = false → plainRegister r = true →
      setsReserved r v = false → (regSpec r).isSome = true → fieldsInRange r v.toNat = false →
      ∃ t, exec (.registerWrite (sliceOffset s.slice r) 8 v) s = .next t ∧ s.Records (r / 0x1000) 0x03 (dropDetail r false) t)

/-- On a page that exists and that the slice serves: ERR_CLR empties PAGE_ERR_FIRST and sets PAGE_ERR_COUNT to zero,
and changes no other register (R518). STAGE_DISCARD withdraws every staged value of its page, so that each register
of the page reads its value in force again, and leaves the staged values of the other pages and every value in force
(R517). CLR_UNREAD sets UNREAD of PAGE_TALLY_SEL to zero and leaves its GROUP, BANK and FOLLOW and every other
register (R496). A read of a tally slot marks the bank in view of the page as read and changes nothing else (R495).
Memory stays in each case. -/
def Obligations.PageControlsAct : Prop :=
  ∀ (s : State) (pg slot : Nat), s.Inv → pageExists pg = true → (s.bound = true ∨ servedUnbound pg = true) → slot < 16 →
    (∃ t, exec (.errClr pg) s = .next t ∧ t = { s with regs := t.regs } ∧ t.reg (Reg.PAGE_ERR_FIRST pg) = 0#64
      ∧ t.reg (Reg.PAGE_ERR_COUNT pg) = 0#64 ∧ s.RegsBut [Reg.PAGE_ERR_FIRST pg, Reg.PAGE_ERR_COUNT pg] t)
    ∧ (∃ t, exec (.stageDiscard pg) s = .next t ∧ s.SameMemory t
      ∧ (∀ r, r / 0x1000 = pg → t.stagedReg r = t.reg r)
      ∧ (∀ p, p ∈ t.staged ↔ p ∈ s.staged ∧ p.1 / 0x1000 ≠ pg)
      ∧ s.RegsBut [Reg.KEYS_CHECK, Reg.SEL_CHECK] t)
    ∧ (∃ t, exec (.clrUnread pg) s = .next t ∧ t = { s with regs := t.regs }
      ∧ t.fld (Reg.PAGE_TALLY_SEL pg) 47 32 = 0 ∧ t.fld (Reg.PAGE_TALLY_SEL pg) 3 0 = s.fld (Reg.PAGE_TALLY_SEL pg) 3 0
      ∧ s.RegsBut [Reg.PAGE_TALLY_SEL pg] t)
    ∧ (∃ t, exec (.tallySlotRead pg slot) s = .next t ∧ t = { s with tally := t.tally } ∧ t.tally.live = s.tally.live
      ∧ t.tally.bank0 = s.tally.bank0 ∧ t.tally.bank1 = s.tally.bank1
      ∧ (pg * 2 + s.bankInView pg) ∈ t.tally.readMarks)

/-- At a bound slice: IRQ_FORCE, with no bit of a reserved vector, makes each vector named pending, leaves every
other bit of IRQ_PEND and changes no other register (R522). IRQ_MASK takes the value written, with the bits of
reserved vectors one, unless the write would unmask a non-reserved vector whose IRQ_ADDR ADDR is zero: then it is
dropped and FIELD_RANGE recorded; where it unmasks no vector that may send, nothing else changes (R53, R522).
PAGE_IRQ_EN takes the value written, and where that enables a bit already set in PAGE_IRQ_RAW the page's vector
becomes pending (R521). -/
def Obligations.VectorsBecomePending : Prop :=
  ∀ (s : State) (v : W64) (pg : Nat), s.Inv → s.bound = true →
    (s.Accepts Reg.IRQ_FORCE v → ∃ t, exec (.irqForce v) s = .next t ∧ t = { s with regs := t.regs }
      ∧ s.RegsBut [Reg.IRQ_PEND] t
      ∧ ∀ i, i < 64 → (t.reg Reg.IRQ_PEND).getLsbD i = ((s.reg Reg.IRQ_PEND).getLsbD i || v.getLsbD i))
    ∧ ((∀ i, i < 64 → reservedVector i = false → (s.reg Reg.IRQ_MASK).getLsbD i = true → v.getLsbD i = false →
          s.fld (Reg.IRQ_ADDR i) 51 3 ≠ 0 ∧ (s.reg Reg.IRQ_PEND).getLsbD i = false) →
      (∀ i, i < 64 → reservedVector i = true → (s.reg Reg.IRQ_PEND).getLsbD i = false) →
      ∃ t, exec (.irqMaskWrite v) s = .next t ∧ t = { s with regs := t.regs } ∧ s.RegsBut [Reg.IRQ_MASK] t
        ∧ ∀ i, i < 64 → (t.reg Reg.IRQ_MASK).getLsbD i = (v.getLsbD i || reservedVector i))
    ∧ ((∃ i, i < 64 ∧ reservedVector i = false ∧ (s.reg Reg.IRQ_MASK).getLsbD i = true ∧ v.getLsbD i = false
          ∧ s.fld (Reg.IRQ_ADDR i) 51 3 = 0) →
      ∃ t, exec (.irqMaskWrite v) s = .next t ∧ s.Records Pg.IRQ 0x03 (dropDetail Reg.IRQ_MASK false) t)
    ∧ (pageExists pg = true → v.toNat < 8 →
      ∃ t, exec (.irqEnableWrite pg v) s = .next t ∧ t = { s with regs := t.regs }
        ∧ s.RegsBut [Reg.PAGE_IRQ_EN pg, Reg.IRQ_PEND] t ∧ t.reg (Reg.PAGE_IRQ_EN pg) = v
        ∧ ((∃ i, i < 3 ∧ v.getLsbD i = true ∧ (s.reg (Reg.PAGE_IRQ_EN pg)).getLsbD i = false
              ∧ (s.reg (Reg.PAGE_IRQ_RAW pg)).getLsbD i = true) → s.sendsVector pg = true →
            reservedVector (vectorOf pg) = false → t.bit Reg.IRQ_PEND (vectorOf pg) = true))

/-- IRQ_MESSAGE_SEND of a vector that is pending, unmasked and sent by this slice, with no write of memory
outstanding and no message of it under way or failed, issues one message with the vector's address and data, ends
its pending state and adds 1 to IRQ_STAT SENT modulo 2^32 (R52, R53). Of a masked vector, or of one that is not
pending, it changes nothing. While the bell is STOPPED IRQ_RETRY_TIMER of a failed vector that is pending and
unmasked issues its message again (R523), and a write of its IRQ_ADDR or IRQ_DATA does so at once with the value
written. -/
def Obligations.InterruptMessages : Prop :=
  ∀ (s : State) (n : Nat) (v : W64), s.Inv → n < 64 → s.bound = true →
    ((s.bit Reg.IRQ_PEND n = true ∧ s.bit Reg.IRQ_MASK n = false ∧ (n < 0x38 ∨ s.isLead = true) ∧ s.chains = []) →
      (∀ m ∈ s.irq.inFlight, m.1 ≠ n) →
      (n ∉ s.irq.failed → ∃ t, exec (.irqMessageSend n) s = .next t ∧ t = { s with regs := t.regs, irq := t.irq }
        ∧ s.RegsBut [Reg.IRQ_PEND, Reg.IRQ_STAT] t
        ∧ t.irq = { s.irq with inFlight := s.irq.inFlight ++ [(n, s.fld (Reg.IRQ_ADDR n) 51 3 * 8, s.reg (Reg.IRQ_DATA n))] }
        ∧ t.bit Reg.IRQ_PEND n = false ∧ t.fld Reg.IRQ_STAT 31 0 = (s.fld Reg.IRQ_STAT 31 0 + 1) % 2 ^ 32
        ∧ t.fld Reg.IRQ_STAT 63 32 = s.fld Reg.IRQ_STAT 63 32)
      ∧ (n ∈ s.irq.failed → s.bellState = 0 → ∃ t, exec (.irqRetryTimer n) s = .next t
        ∧ t = { s with regs := t.regs, irq := t.irq } ∧ s.RegsBut [Reg.IRQ_PEND, Reg.IRQ_STAT] t ∧ n ∉ t.irq.failed
        ∧ (n, s.fld (Reg.IRQ_ADDR n) 51 3 * 8, s.reg (Reg.IRQ_DATA n)) ∈ t.irq.inFlight ∧ t.bit Reg.IRQ_PEND n = false)
      ∧ (n ∈ s.irq.failed → reservedVector n = false → ∃ t, exec (.irqAddrWrite n true v) s = .next t
        ∧ t = { s with regs := t.regs, irq := t.irq } ∧ s.RegsBut [Reg.IRQ_DATA n, Reg.IRQ_PEND, Reg.IRQ_STAT] t
        ∧ t.reg (Reg.IRQ_DATA n) = v ∧ n ∉ t.irq.failed ∧ (n, s.fld (Reg.IRQ_ADDR n) 51 3 * 8, v) ∈ t.irq.inFlight))
    ∧ ((s.bit Reg.IRQ_PEND n = false ∨ s.bit Reg.IRQ_MASK n = true) → exec (.irqMessageSend n) s = .next s)
    ∧ (n ∉ s.irq.failed → s.Accepts (Reg.IRQ_ADDR n) v → ∃ t, exec (.irqAddrWrite n false v) s = .next t
      ∧ t = { s with regs := t.regs } ∧ s.RegsBut [Reg.IRQ_ADDR n] t ∧ t.reg (Reg.IRQ_ADDR n) = v)

/-- A response without error to a message write of a vector puts its data word at its address, little-endian, and
ends the message; every other byte of memory stays. A poisoned response lists its 64 B line as poisoned, so that a
later read of the line is an uncorrectable data error, and sets MEMP_FAULT to the address, port and MEM_UE, which is
recorded; an uncorrectable one does the same without the poison (R35). The first timeout of a request changes
nothing but the note that it is issued again; when that times out too, the first port's bit in MEMP_PORT_FAIL is set
and that port leaves the list at the next bell open, MEMP_FAULT takes the address, that port and MEM_TIMEOUT, and
the code is recorded (R34). A timeout of a request that was answered in the same cycle is suppressed and only
counted in LATE_MARGIN (R87). A request's address is that of its 64 B line (R30). The targets here are those whose
failure has no further effect in a rule of their own. FLOOR_SHORT records its code once for the bell and not again
(R33). -/
def Obligations.MemoryRequestsEnd : Prop :=
  ∀ (s : State) (addr port n : Nat), s.Inv → addr < memSpace → port < 16 → n < 64 →
    (∀ a w, s.irq.inFlight = [(n, a, w)] → a + 8 ≤ memSpace →
      ∃ t, exec (.memResponse addr port (.irq n) .ok) s = .next t ∧ t.irq.inFlight = [] ∧ (reqAddr addr, s.now) ∈ t.memDone ∧ s.MemoryBut a 8 t
        ∧ (∀ i, i < 8 → t.rdByte (a + i) = BitVec.ofNat 8 (w.toNat / 256 ^ i)) ∧ s.RegsBut [Reg.TALLY_LIFE 1] t)
    ∧ (∃ t, exec (.memResponse addr port .other .poisoned) s = .next t ∧ addr / 64 ∈ t.poison
      ∧ t.reg Reg.MEMP_FAULT = BitVec.ofNat 64 (bits addr 51 6 * 2 ^ 6 + port * 2 ^ 52 + 0x06 * 2 ^ 56)
      ∧ s.RegsBut (Reg.MEMP_FAULT :: recordRegs Pg.MEMP) t)
    ∧ (∃ t, exec (.memResponse addr port .other .uncorrectable) s = .next t
      ∧ t.reg Reg.MEMP_FAULT = BitVec.ofNat 64 (bits addr 51 6 * 2 ^ 6 + port * 2 ^ 52 + 0x06 * 2 ^ 56)
      ∧ t.bit (Reg.PAGE_IRQ_RAW Pg.MEMP) 0 = true ∧ s.RegsBut (Reg.MEMP_FAULT :: recordRegs Pg.MEMP) t)
    ∧ ((reqAddr addr, s.now) ∈ s.memDone → ∃ t, exec (.memTimeout addr .other) s = .next t ∧ t = { s with tally := t.tally }
      ∧ (s.bellDue = false → t = s.tallyAdd Pg.BELL 3 1))
    ∧ ((reqAddr addr, s.now) ∉ s.memDone → s.memRetry = [] →
      exec (.memTimeout addr .other) s = .next { s with memRetry := [(reqAddr addr, s.portOf (reqAddr addr))] })
    ∧ ((reqAddr addr, s.now) ∉ s.memDone → s.memRetry = [(reqAddr addr, port)] →
      ∃ t, exec (.memTimeout addr .other) s = .next t ∧ t.memRetry = [] ∧ t.portsLeaving = port :: s.portsLeaving
      ∧ t.bit Reg.MEMP_PORT_FAIL port = true
      ∧ t.reg Reg.MEMP_FAULT = BitVec.ofNat 64 (bits addr 51 6 * 2 ^ 6 + port * 2 ^ 52 + 0x05 * 2 ^ 56)
      ∧ s.RegsBut (Reg.MEMP_FAULT :: Reg.MEMP_PORT_FAIL :: recordRegs Pg.MEMP) t)
    ∧ (Pg.MEMP * 256 + 4 ∉ s.bell.once → ∃ t, exec .floorShort s = .next t ∧ Pg.MEMP * 256 + 4 ∈ t.bell.once
      ∧ State.Recorded Pg.MEMP 0x04 0 s t ∧ s.RegsBut (recordRegs Pg.MEMP) t)
    ∧ (Pg.MEMP * 256 + 4 ∈ s.bell.once → exec .floorShort s = .next s)

/-- When the outstanding write of a chain is acknowledged and the chain goes on with a further write of memory, that
write is issued, and no other (R32): its bytes are in memory, every byte outside them stays, and the chain keeps
what follows. When the chain goes on with an engine update of a register and nothing follows, the register takes the
value and the chain ends. An aperture write inside a return buffer of a posted, uncompleted tile and outside its
record prefixes puts its bytes at the offset in stall SRAM and changes nothing else (R37); any other write, and any
write of a receive view, is dropped and APERTURE_WRITE recorded in the TILE page. -/
def Obligations.OrderedChainsAndAperture : Prop :=
  ∀ (s : State) (c a r : Nat) (d : List Byte) (v : W64) (w : List WStep) (off : Nat) (h : Half), s.Inv → a + d.length ≤ memSpace →
    (tFind c s.chains = some (.bytes a d :: w) → ∃ t, exec (.memWriteAck c) s = .next t ∧ s.MemoryBut a d.length t
      ∧ (∀ i, (hi : i < d.length) → t.rdByte (a + i) = d[i]) ∧ tFind c t.chains = some w ∧ s.RegsBut [Reg.TALLY_LIFE 1] t)
    ∧ (s.chains = [(c, [.reg r v])] → ∃ t, exec (.memWriteAck c) s = .next t ∧ t = { s with regs := t.regs, chains := [] }
      ∧ t.reg r = v ∧ s.RegsBut [r] t)
    ∧ (tFind c s.chains = none → exec (.memWriteAck c) s = .next s)
    ∧ (s.apertureOk off d.length = true → ∃ t, exec (.apertureWrite (.sram off) d) s = .next t ∧ t = { s with sram := t.sram }
      ∧ (∀ i, (hi : i < d.length) → tGet byteZero (off + i) t.sram = d[i])
      ∧ ∀ k, k < off ∨ off + d.length ≤ k → tGet byteZero k t.sram = tGet byteZero k s.sram)
    ∧ (s.apertureOk off d.length = false → ∃ t, exec (.apertureWrite (.sram off) d) s = .next t ∧ s.SameSram t
      ∧ t.bit (Reg.PAGE_IRQ_RAW Pg.TILE) 0 = true)
    ∧ (∃ t, exec (.apertureWrite (.view h off) d) s = .next t ∧ s.SameSram t ∧ t.bit (Reg.PAGE_IRQ_RAW Pg.TILE) 0 = true)

/-- IKC_PORST_N going low returns every register, stall SRAM, every table and every tally to its reset state and the
time base to zero, with host memory kept; the pins that the integrator drives stay (R48, R50). IKC_SLRST_N going low
does the same but for the time base, and the slice is fail-silent (R49, R459); while the reset of IKC_PORST_N holds,
its assertion and its release have no effect but that of its pin (R50). Release of IKC_PORST_N or IKC_SLRST_N with
stable clocks and the other pin high starts built-in test: SLC_STATE goes to BIST and no other register changes
(R48, R470, R481). Released early, the engine stays in that reset: no register changes, and RESET_CLOCK is due
(R48). Power removed from this slice leaves nothing, host memory behind it included (R58). -/
def Obligations.ResetsClear : Prop :=
  ∀ s : State, s.Inv →
    (∃ t, exec .porstAssert s = .next t ∧ t.regs = [] ∧ t.staged = [] ∧ t.sram = [] ∧ t.now = 0 ∧ t.mem = s.mem
      ∧ t.pins.porstLow = true ∧ t.seqs = [] ∧ t.tally = {} ∧ t.trace = {} ∧ t.bell = {} ∧ t.start = {} ∧ t.links = []
      ∧ t.pending = s.pending)
    ∧ (s.inPorst = false → ∃ t, exec .slrstAssert s = .next t ∧ t.regs = [] ∧ t.staged = [] ∧ t.sram = []
      ∧ t.now = s.now ∧ t.mem = s.mem ∧ t.pins.slrstLow = true ∧ t.safe.silent = true ∧ t.tally = {} ∧ t.bell = {})
    ∧ (s.inPorst = true → exec .slrstAssert s = .next { s with pins := { s.pins with slrstLow := true } })
    ∧ (s.inPorst = true → ∀ c, exec (.slrstRelease c) s = .next { s with pins := { s.pins with slrstLow := false } })
    ∧ (s.pins.porstLow = true → s.pins.slrstLow = false → s.start.slrstHeld = false → s.start.resetClock = false →
      ∃ t, exec (.porstRelease true) s = .next t ∧ t.pins.porstLow = false ∧ t.slcState = 1 ∧ s.RegsBut [Reg.SLC_STATE] t
        ∧ t = { s with regs := t.regs, pins := t.pins, start := { s.start with porstHeld := false } })
    ∧ (s.pins.porstLow = true → ∃ t, exec (.porstRelease false) s = .next t ∧ t.regs = s.regs ∧ t.start.resetClock = true
      ∧ t.inPorst = true)
    ∧ (s.pins.slrstLow = true → s.inPorst = false → ∃ t, exec (.slrstRelease false) s = .next t ∧ t.regs = s.regs
      ∧ t.start.resetClock = true ∧ t.start.slrstHeld = true ∧ t.safe.silent = true)
    ∧ (s.pins.slrstLow = true → s.inPorst = false → s.start.resetClock = false →
      ∃ t, exec (.slrstRelease true) s = .next t ∧ t.pins.slrstLow = false ∧ t.slcState = 1 ∧ s.RegsBut [Reg.SLC_STATE] t
        ∧ t.safe.silent = false)
    ∧ (∀ k, k % 8 = s.slice → ∃ t, exec (.powerRemove k) s = .next t ∧ t.regs = [] ∧ t.mem = [] ∧ t.now = 0
      ∧ t.pins.powered = false)
    ∧ (∀ k, k < 8 → k ≠ s.slice → s.bit Reg.PKG_SLICES (24 + k) = true → ∃ t, exec (.powerRemove k) s = .next t
      ∧ t = { s with regs := t.regs } ∧ s.RegsBut [Reg.PKG_SLICES] t ∧ t.bit Reg.PKG_SLICES (16 + k) = true
      ∧ t.bit Reg.PKG_SLICES (24 + k) = false)

/-- A change of IKC_ARITH_STEP or IKC_ARITH_NEXT sets the two pins and, with no round running, nothing else. A clock
fault records CLK_FAULT in the SLC page and drives IKC_ALARM to 0b10, and one of IKC_CTRL_CLK stops the heartbeat,
whose next edge then leaves IKC_HBEAT at its level; while it runs an edge turns the level (R46, R55). A TSYNC pulse
sets the time base of a bound slice that is not the lead to the lead's value, for an offset of at most 20 ns with no
code recorded; the lead's own stays (R47). The third missing pulse records TSYNC_LOST, the time base going on, and
fewer do not. PTIME_SET steps the lead's time base while the bell is STOPPED, recording TIME_STEP; otherwise it is
dropped with TIME_SET_BUSY. -/
def Obligations.ClocksAndTimeBase : Prop :=
  ∀ (s : State) (a b n : Nat) (v : W64), s.Inv → n < 2 ^ 64 →
    (s.cal.cur = none → s.mus.cur = none → a < 4 → b < 4 →
      exec (.arithStepChange a b) s = .next { s with pins := { s.pins with arithStep := a, arithNext := b } })
    ∧ (∀ c, ∃ t, exec (.clkFault c) s = .next t ∧ t.fld Reg.SAFE_ALARM 1 0 = 2 ∧ State.Recorded Pg.SLC 0x07 0 s t
      ∧ t.safe.clkFault = true ∧ (c = .ctrl → t.bit Reg.SAFE_ALARM 2 = false)
      ∧ s.RegsBut (Reg.SAFE_ALARM :: Reg.PSAFE_CAUSE :: recordRegs Pg.SLC) t)
    ∧ (s.bit Reg.SAFE_ALARM 2 = true → exec .heartbeatEdge s = .next { s with pins := { s.pins with hbeat := !s.pins.hbeat } })
    ∧ (s.bit Reg.SAFE_ALARM 2 = false → exec .heartbeatEdge s = .next s)
    ∧ (s.bound = true → s.isLead = false → n ≤ s.now + 20 → s.now ≤ n + 20 → ∃ t, exec (.tsyncPulse n) s = .next t ∧ t.now = n
      ∧ t = { s with regs := t.regs, now := n } ∧ s.RegsBut [Reg.TIME_SYNC, Reg.PTIME_STAT] t)
    ∧ (s.bound = true → s.isLead = true → s.bit Reg.COLL_LL 0 = false → ∃ t, exec (.tsyncPulse n) s = .next t
      ∧ t = { s with regs := t.regs } ∧ s.RegsBut [Reg.TIME_SYNC, Reg.PTIME_STAT] t)
    ∧ (s.bit Reg.TIME_SYNC 40 = false → 3 ≤ a → ∃ t, exec (.tsyncLost a) s = .next t ∧ t.bit Reg.TIME_SYNC 40 = true
      ∧ t.fld Reg.TIME_SYNC 39 32 = min a 255 ∧ State.Recorded Pg.TIME 0xF0 0 s t ∧ t.now = s.now)
    ∧ (a < 3 → ∃ t, exec (.tsyncLost a) s = .next t ∧ t.fld Reg.TIME_SYNC 39 32 = a ∧ s.RegsBut [Reg.TIME_SYNC] t
      ∧ t = { s with regs := t.regs })
    ∧ (s.Accepts Reg.PTIME_SET v → s.bellState = 0 → s.isLead = true → v.toNat ≠ s.now → ∃ t, exec (.ptimeSet v) s = .next t
      ∧ t.now = v.toNat ∧ State.Recorded Pg.TIME 0xF2 0 s t ∧ s.RegsBut (recordRegs Pg.TIME) t)
    ∧ (s.Accepts Reg.PTIME_SET v → s.bellState ≠ 0 → ∃ t, exec (.ptimeSet v) s = .next t ∧ t.now = s.now
      ∧ s.Records Pg.PTIME 0xF1 (dropDetail Reg.PTIME_SET false) t)

/-- While the bell is STOPPED, a period is in force or staged, and no higher bell number has been opened than
PBELL_FIRST, GO arms the bell (R64, R65): with no staged period the first bell is number PBELL_FIRST + j at
PBELL_START + j × period, for the least j that puts it at least 10 µs after the write; PBELL_STATE becomes ARMED, no
write is kept for an open missed before, and no other register changes. With no period ever staged, or PBELL_FIRST
at or below a bell already opened, the engine stays STOPPED and BAD_STAGE is recorded in the PBELL page. HALT while
RUNNING, with work admitted left, makes the state HALTING and keeps the bell number, and with none left STOPPED
(R67), where a checked region table that waits comes into force (R349). In any other state neither bit does anything
but this. -/
def Obligations.BellStartsAndStops : Prop :=
  ∀ s : State, s.Inv → s.bound = true →
    (s.bellState = 0 → s.bell.periodEver = true → tFind Reg.PBELL_PERIOD s.staged = none → 0 < s.periodLive →
      (s.bell.everOpened = true → s.bell.highest < s.regNat Reg.PBELL_FIRST) →
      ∃ t j, exec .pbellGo s = .next t
        ∧ t = { s with regs := t.regs, bell := t.bell, stagedLate := [] } ∧ s.RegsBut [Reg.PBELL_STATE] t
        ∧ t.bellState = 1 ∧ t.bell.nextBell = s.regNat Reg.PBELL_FIRST + j
        ∧ t.bell.nextOpen = s.regNat Reg.PBELL_START + j * s.periodLive ∧ s.now + 10000 ≤ t.bell.nextOpen
        ∧ ∀ i, i < j → s.regNat Reg.PBELL_START + i * s.periodLive < s.now + 10000)
    ∧ (s.bellState = 0 → (s.bell.periodEver = false ∨ (s.bell.everOpened = true ∧ s.regNat Reg.PBELL_FIRST ≤ s.bell.highest)) →
      ∃ t, exec .pbellGo s = .next t ∧ t.bellState = 0 ∧ s.Records Pg.PBELL 0x10 (dropDetail Reg.PBELL_GO false) t)
    ∧ (s.bellState ≠ 0 → exec .pbellGo s = .next s)
    ∧ (s.bellState = 2 → ∃ t, exec .pbellHalt s = .next t ∧ t.bell.marker = none
      ∧ (s.msem.checkedRegions = none → t = { s with regs := t.regs, bell := t.bell } ∧ s.RegsBut [Reg.PBELL_STATE] t)
      ∧ t.bellState = (if s.bell.scalesDone = true ∧ ∀ a ∈ s.cal.sets ++ s.mus.sets, a.toks = [] then 0 else 3))
    ∧ (s.bellState ≠ 2 → exec .pbellHalt s = .next s)

/-- While a bell is to come, the slice that will lead at it (the lead, or the slice to which LEAD_MOVE moves the
lead; log entry 13) and is not silent sends, at least 2 µs before the bell, one marker to every other bound slice of
its package through the low-latency path, and sends no second one (R61); another slice sends none. A marker of the
next bell or a later one is followed: the slice holds it and its next bell and opening time are those of the marker;
where it differs from the slice's own copy of the schedule BELL_SKEW is recorded, and where it agrees no register
changes. A marker of a bell already opened changes nothing. The lead window opens once a bell, and not before T(n)
less the larger of its share of the period and 2,000 ns: with no context to switch it sets only that the window is
open and brings the time base to that time where it is behind (R71; log entry 13). -/
def Obligations.BellMarkersAndLeadWindow : Prop :=
  ∀ (s : State) (b o p : Nat), s.Inv → s.bellComes = true →
    (s.sendsMarker = true → s.bell.markerSent = false → s.now + 2000 ≤ s.bell.nextOpen → s.safe.silent = false →
      ∃ t, exec .bellMarkerSend s = .next t ∧ t.bell = { s.bell with markerSent := true } ∧ t.regs = s.regs
        ∧ t.route.queue.length = s.route.queue.length + s.packageMates.length
        ∧ ∀ m ∈ s.packageMates, ∃ q ∈ t.route.queue, q.pkt.dest = s.node / 8 * 8 + m
            ∧ fieldAt q.pkt.payload 0 8 = s.bell.nextBell % 2 ^ 64 ∧ fieldAt q.pkt.payload 8 8 = s.bell.nextOpen % 2 ^ 64)
    ∧ ((s.sendsMarker = false ∨ s.bell.markerSent = true ∨ s.bell.nextOpen < s.now + 2000) → exec .bellMarkerSend s = .next s)
    ∧ (s.bell.nextBell ≤ b → ∃ t, exec (.bellMarkerReceive b o p) s = .next t ∧ t.bell.marker = some (b, o, p)
      ∧ t.bell.nextBell = b ∧ t.bell.nextOpen = o
      ∧ (b = s.bell.nextBell → o = s.bell.nextOpen → p = s.periodAt b → t.regs = s.regs ∧ t.mem = s.mem)
      ∧ (¬(b = s.bell.nextBell ∧ o = s.bell.nextOpen ∧ p = s.periodAt b) → State.Recorded Pg.BELL 0x17 0 s t
        ∧ s.RegsBut (recordRegs Pg.BELL) t))
    ∧ (b < s.bell.nextBell → exec (.bellMarkerReceive b o p) s = .next s)
    ∧ (s.bell.leadOpen = false → s.ctx.ctxs = [] → s.safe.marks = [] →
      exec .leadWindowOpen s = .next { s with bell := { s.bell with leadOpen := true }, now := max s.now s.leadStart })
    ∧ (s.bell.leadOpen = true → exec .leadWindowOpen s = .next s)

/-- BELL_OPEN at a bound or running slice with a bell to come opens it: the next bell on the schedule is the one
after the bell opened, no marker and no lead window of it stand, the Scales of the new bell are still to end, and
the slice has opened a bell (R60, R61, R71, R78); where the Scales of the bell before have ended and the lead window
has opened, it is exactly the bell that was next. With no bell to come nothing opens. The Scales of a bell end once
(R78): each half admits the tokens that R75 and R77 give it, and a half that admits any has them as a set of the
bell; with no sequence and no doorbell held no token is admitted and they show BELL_PENDING zero; a second end in
the bell changes nothing. A late notice is kept with its bell, layer and half; where the round of that bell, layer
and half runs and is not late, the notice is also the round's cause PEER, and otherwise nothing else changes (R83).
-/
def Obligations.BellOpensAndScales : Prop :=
  ∀ (s : State) (b l : Nat) (h : Half), s.Inv →
    (s.bellComes = true → (s.slcState = 5 ∨ s.slcState = 6) → ∃ t, exec .bellOpen s = .next t ∧ t.bell.everOpened = true
      ∧ t.bell.marker = none ∧ t.bell.markerSent = false ∧ t.bell.leadOpen = false ∧ t.bell.scalesDone = false
      ∧ 0 < t.bell.nextBell ∧ t.bell.nextBell ≤ t.bell.highest + 1
      ∧ (s.bell.scalesDone = true → s.bell.leadOpen = true → t.bell.nextBell = s.bell.nextBell + 1))
    ∧ (s.bellComes = false → exec .bellOpen s = .next s)
    ∧ (s.bell.everOpened = true → s.bell.scalesDone = false → s.seqs = [] → s.cal.heldLayer = none → s.mus.heldLayer = none →
      ∃ t, exec .scalesComplete s = .next t ∧ t.bell.scalesDone = true ∧ t.reg Reg.BELL_PENDING = 0#64 ∧ t.seqs = [])
    ∧ (s.bell.everOpened = true → s.bell.scalesDone = false → ∃ t, exec .scalesComplete s = .next t ∧ t.bell.scalesDone = true
      ∧ ∀ c s1 a d, c = s.confAt s.bellNo → s1 = s.noteBlocks c → a = s1.scaleHalf (s1.admitsNone c) c .calico →
          d = a.2.scaleHalf (s1.admitsNone c) c .muslin → 0 < confLayers c →
          (a.1.1 ≠ [] → ∃ x ∈ t.cal.sets, x.bell = s.bellNo ∧ x.toks = a.1.1 ∧ x.bounds = a.1.2)
          ∧ (d.1.1 ≠ [] → ∃ x ∈ t.mus.sets, x.bell = s.bellNo ∧ x.toks = d.1.1 ∧ x.bounds = d.1.2))
    ∧ (s.bell.scalesDone = true → exec .scalesComplete s = .next s)
    ∧ (s.bell.everOpened = false → exec .scalesComplete s = .next s)
    ∧ ∃ u, u = { s with bell := { s.bell with peerLate := (b, l, h) :: s.bell.peerLate } }
      ∧ ((∀ a r, s.curRound h = some (a, r) → a.bell ≠ b ∨ r.layer ≠ l ∨ r.late = true) →
        exec (.lateNoticeReceive b l h) s = .next u)
      ∧ ∀ a r, s.curRound h = some (a, r) → a.bell = b → r.layer = l → r.late = false →
        ∃ t, exec (.lateNoticeReceive b l h) s = .next t ∧ (t.half h).cur = some { r with peer := true }
          ∧ (t.half h).sets = (s.half h).sets ∧ t = { u with cal := t.cal, mus := t.mus }

/-- BELL_PLAN POST outside the lead window, which no command needs to open (R71, R72), queues the plan behind those
posted, up to 16, and shows their number in QUEUED; as the 17th it waits for the bell after the next with PLAN_FULL
recorded, and inside the lead window with PLAN_LATE (R72). The end of the check of the plan posted first, when it
passes, writes status QUEUED into its header and keeps the plan with its edits as the check read them; when it
fails, REJECTED, drops the plan and records PLAN_MALFORMED in the SEQ page (R107, R108). Of memory only the status
byte of the plan and the entry of the event log may change. -/
def Obligations.StepPlansPost : Prop :=
  ∀ (s : State) (v : W64) (a : Nat), s.Inv → s.Accepts Reg.BELL_PLAN v → bits v.toNat 0 0 = 1 → a = bits v.toNat 51 6 * 64 →
    (s.inLead = false → s.bell.plans.length < 16 → ∃ t, exec (.bellPlanPost v) s = .next t
      ∧ t = { s with regs := t.regs, readFailed := t.readFailed, bell := { s.bell with plans := s.bell.plans ++ [⟨a, false, []⟩] } }
      ∧ (∀ p, p ∈ t.readFailed ↔ p ∈ s.readFailed ∧ p.1 ≠ .plan a)
      ∧ s.RegsBut [Reg.BELL_PLAN_STAT] t ∧ t.fld Reg.BELL_PLAN_STAT 4 0 = s.bell.plans.length + 1)
    ∧ (s.inLead = false → 16 ≤ s.bell.plans.length → ∃ t, exec (.bellPlanPost v) s = .next t
      ∧ t.bell = { s.bell with deferred := s.bell.deferred ++ [⟨a, false, []⟩] } ∧ State.Recorded Pg.BELL 0x15 0 s t
      ∧ s.RegsBut (recordRegs Pg.BELL) t)
    ∧ (s.inLead = true → ∃ t, exec (.bellPlanPost v) s = .next t
      ∧ t.bell.deferred = s.bell.deferred ++ [⟨a, false, []⟩] ∧ t.bell.plans = s.bell.plans
      ∧ State.Recorded Pg.BELL 0x14 0 s t ∧ s.RegsBut (recordRegs Pg.BELL) t)
    ∧ (s.bell.plans = [⟨a, false, []⟩] → s.planOk a = true → ∃ t, exec .planCheckDone s = .next t
      ∧ t.bell.plans = [⟨a, true, s.planEdits a⟩]
      ∧ t.rdByte (a + 3) = 1#8 ∧ s.MemoryBut (a + 3) 1 t)
    ∧ (s.bell.plans = [⟨a, false, []⟩] → s.planOk a = false → s.poison = [] → s.fld Reg.EVLOG_RING 51 18 = 0 →
      ∃ t, exec .planCheckDone s = .next t ∧ t.bell.plans = [] ∧ t.rdByte (a + 3) = 3#8 ∧ s.MemoryBut (a + 3) 1 t
        ∧ t.bit (Reg.PAGE_IRQ_RAW Pg.SEQ) 0 = true)
    ∧ (s.bell.plans = [] → s.bell.deferred = [] → exec .planCheckDone s = .next s)

/-- A doorbell for a layer at or above the routed layer count is dropped with LAYER_RANGE. The doorbell of the layer
that its half expects, when no set of the half waits and none is being admitted, is held until one does; a doorbell
for the layer held is ignored with DOORBELL_DUP and one for another layer is dropped with LAYER_ORDER; each of these
leaves the half as it was (R90). When every token of a round that has its gate weights has its result and status
written, its ledger checks are made, no record is stale and it is late or not over its promise, LAYER_OUT rings: the
round is over, BELL_LAYER_OUT shows its layer for its half as valid, and the determinism unit has the half to digest
(R21, R89, R405); before that nothing rings. -/
def Obligations.LayerDoorbells : Prop :=
  ∀ (s : State) (v : W64) (l k : Nat) (a : AdmSet) (r : Round) (rest : List AdmSet), s.Inv → s.Accepts Reg.BELL_LAYER_IN v →
    bits v.toNat 8 8 = 0 → l = bits v.toNat 7 0 →
    (s.layers ≤ l → ∃ t, exec (.layerIn v) s = .next t ∧ s.Records Pg.BELL 0x12 (dropDetail Reg.BELL_LAYER_IN false) t)
    ∧ (l < s.layers → s.cal.heldLayer = none → s.cal.sets = [] → (s.bell.everOpened = false ∨ s.bell.scalesDone = true) →
      s.cal.expected = l →
      exec (.layerIn v) s = .next { s with cal := { s.cal with heldLayer := some l, expected := nextLayer s.layers l } })
    ∧ (l < s.layers → s.cal.heldLayer = some k → ∃ t, exec (.layerIn v) s = .next t
      ∧ s.Records Pg.BELL (if l = k then 0x11 else 0x13) (dropDetail Reg.BELL_LAYER_IN false) t)
    ∧ (s.cal.sets = a :: rest → s.cal.cur = some r → s.cal.heldLayer = none → r.gated = true → r.ledgerDone = true →
      r.stale = [] → (r.late = true ∨ r.over s.now true = false) → (∀ x ∈ r.toks, x.issued = true ∧ x.written = true) → r.layer + 1 < confLayers (s.confAt a.bell) →
      ∃ t, exec (.layerOut .calico) s = .next t ∧ t.cal.cur = none ∧ t.cal.sets = a :: rest ∧ t.cal.last = some (a, r)
        ∧ t.fld Reg.BELL_LAYER_OUT 7 0 = r.layer % 256 ∧ t.bit Reg.BELL_LAYER_OUT 16 = true ∧ t.mus.cur = s.mus.cur)
    ∧ (s.cal.sets = a :: rest → s.cal.cur = some r → (r.gated = false ∨ ∃ x ∈ r.toks, x.written = false) →
      exec (.layerOut .calico) s = .next s)

/-- When a running slot exceeds its promise the engine sets LATE in the round and in the status of each token whose
record is issued, records SLOT_LATE, raises the BELL vector and, for the first late slot of a bell, sets BELL_LATE
with the layer, half and first cause (R83, R84); a slot already late, or not over its promise, does nothing, and
with no slot running the expiry only counts in LATE_MARGIN (R87). The slot watchdog of a running slot without LATE,
20 µs over its promise, sets it, records WDOG_OVERRUN and reports a fault of class 7, so that the alarm is 0b10
(R446); a slot already late, or not so long over it, does nothing. -/
def Obligations.SlotsGoLate : Prop :=
  ∀ (s : State) (h : Half) (a : AdmSet) (r : Round) (rest : List AdmSet), s.Inv → r.layer < 256 →
    ((s.half h).sets = a :: rest → (s.half h).cur = some r → r.late = false →
      (r.over s.now false = true → ∃ t, exec (.slotLate h) s = .next t ∧ State.MadeLate r (t.half h).cur
        ∧ t.bit (Reg.PAGE_IRQ_RAW Pg.BELL) 0 = true ∧ t.bit (Reg.PAGE_IRQ_RAW Pg.BELL) 2 = true ∧ t.bit Reg.BELL_LATE 12 = true
        ∧ (s.bit Reg.BELL_LATE 12 = false → t.fld Reg.BELL_LATE 7 0 = r.layer ∧ t.fld Reg.BELL_LATE 8 8 = h.num))
      ∧ (r.over s.now false = false → exec (.slotLate h) s = .next s)
      ∧ (r.engineTime s.now false < r.promise + 20000 → exec (.wdogOverrun h) s = .next s)
      ∧ (r.promise + 20000 ≤ r.engineTime s.now false → ∃ t, exec (.wdogOverrun h) s = .next t
        ∧ State.MadeLate r (t.half h).cur
        ∧ t.bit Reg.SAFE_CAUSE 7 = true ∧ t.fld Reg.SAFE_ALARM 1 0 = 2 ∧ t.fld Reg.SAFE_WDOG 7 0 = r.layer
        ∧ t.bit (Reg.PAGE_IRQ_RAW Pg.SAFE) 0 = true))
    ∧ ((s.half h).sets = a :: rest → (s.half h).cur = some r → r.late = true →
      exec (.slotLate h) s = .next s ∧ exec (.wdogOverrun h) s = .next s)
    ∧ (s.curRound h = none → exec (.slotLate h) s = .next (s.tallyAdd Pg.BELL 3 1) ∧ exec (.wdogOverrun h) s = .next (s.tallyAdd Pg.BELL 3 1))

/-- TOKEN_SCORE scores the first token of the half's running round that is not yet scored, where no part of its
images is being fetched again and the pool gives its conversion its room: with an input that can be read, memory
nowhere poisoned, the token is scored with the candidates that the scoring rules give, no other token of the round
changes, and the SCORE page counts one more token (R119, R128); with an input that cannot be read it is scored too,
and its sequence, if ACTIVE, fails (R119, R112). An uncorrectable key word met for the first time leaves the token
unscored and starts the fetch of its part again, with KEY_UE recorded (R143). While a part is being fetched again
nothing happens. A matching shadow comparison of a scored token moves the covered tokens up to it and the next
comparison 64 tokens on, and changes nothing else but the count (R147, R148). A mismatch records SHADOW_MISMATCH,
reports a dangerous fault of class 3, so that the alarm is 0b10, taints every token of the half scored since its
last matching comparison (R148), and marks its half for the tile self-test. With no round running neither does
anything. -/
def Obligations.TokensAreScored : Prop :=
  ∀ (s : State) (h : Half) (v : RoundView) (i : Nat) (x : Tok) (y : RTok), s.Inv → s.view h = some v →
    v.set.toks[i]? = some x → v.rnd.toks[i]? = some y →
      (v.rnd.toScore = some i → s.scoreWaits v h = false → (s.convRoom h i (confWire v.conf v.rnd.layer)).1 = true →
        (s.poison = [] → ∃ t r' y', exec (.tokenScore h none) s = .next t ∧ (t.half h).cur = some r' ∧ r'.toks[i]? = some y'
          ∧ y'.scored = true ∧ y'.cands = (s.scoreOf v h i).cands ∧ (∀ j, j ≠ i → r'.toks[j]? = v.rnd.toks[j]?)
          ∧ (t.half h.other).cur = (s.half h.other).cur
          ∧ tGet zeroNat (Pg.SCORE * 64) t.tally.live
            = min (tGet zeroNat (Pg.SCORE * 64) s.tally.live + 1) (tallyLimit Pg.SCORE 0))
        ∧ (∃ t r' y', exec (.tokenScore h (some .input)) s = .next t ∧ (t.half h).cur = some r' ∧ r'.toks[i]? = some y'
          ∧ y'.scored = true
          ∧ ((s.seq x.seq).state = 1 → (s.seq x.seq).failure = 0#64 → (t.seq x.seq).state = 3 ∧ y'.failed = true))
        ∧ ∀ area addr, addr ∉ s.areaUe area →
            ∃ t r', exec (.tokenScore h (some (.keyWord area addr))) s = .next t ∧ (t.half h).cur = some r'
              ∧ r'.toks[i]? = some y ∧ t.areaRefetch area = some (addr, s.now) ∧ t.bit (Reg.PAGE_IRQ_RAW Pg.KEYS) 0 = true)
      ∧ (s.scoreWaits v h = true → ∀ ue, exec (.tokenScore h ue) s = .next s)
      ∧ (v.rnd.shadowNext = i → y.scored = true → i + 8 ≤ v.set.toks.length →
        exec (.shadowCompare h true) s = .next ((s.tallyAdd Pg.SCORE 1 1).modRound h
          fun q => { q with shadowNext := i + 64, shadowOk := i + 1 })
        ∧ ∃ t r', exec (.shadowCompare h false) s = .next t ∧ t.score.mismatchHalf = some h
          ∧ t.bit (Reg.PAGE_IRQ_RAW Pg.SCORE) 0 = true ∧ t.bit Reg.SAFE_CAUSE 3 = true ∧ t.fld Reg.SAFE_ALARM 1 0 = 2
          ∧ (t.half h).cur = some r' ∧ r'.shadowNext = i + 64
          ∧ ∀ j z, v.rnd.shadowOk ≤ j → j < v.rnd.scoredCount → r'.toks[j]? = some z → z.taint = true)
      ∧ ∀ k, s.curRound k = none → (∀ ue, exec (.tokenScore k ue) s = .next s) ∧ ∀ e, exec (.shadowCompare k e) s = .next s

/-- A tile self-test that ends with no failing tile, with no doorbell held, ends the test, counts one transient
fault in the SAFE page and changes nothing else (R445, R453). One that ends with a failing tile in use reports a
dangerous fault of class 3 and fences it in SPARE_TILES. A pattern test of a tile in use that fails records
PATTERN_FAIL, reports a dangerous fault of class 3 with the alarm at 0b10, and fences the tile in SPARE_TILES (R444,
R454); one that passes changes nothing but what the tile has scored since; a retired tile is not tested. -/
def Obligations.TileTestsEnd : Prop :=
  ∀ (s : State) (n : Nat), s.Inv →
    (s.score.selfTest = true → s.cal.heldLayer = none → s.mus.heldLayer = none → exec (.tileSelfTestDone []) s
      = .next (({ s with score := { s.score with selfTest := false, mismatchHalf := none } } : State).tallyAdd Pg.SAFE 7 1))
    ∧ (s.score.selfTest = true → n ≤ 8 → s.bit Reg.SPARE_TILES n = false → ∃ t, exec (.tileSelfTestDone [n]) s = .next t
      ∧ t.score.selfTest = false ∧ t.bit Reg.SPARE_TILES (16 + n) = true ∧ t.bit Reg.SAFE_CAUSE 3 = true)
    ∧ (s.score.selfTest = false → exec (.tileSelfTestDone []) s = .next s)
    ∧ (n ≤ 8 → s.bit Reg.SPARE_TILES n = false →
      (∃ t, exec (.tilePatternTest n false) s = .next t ∧ t.bit Reg.SPARE_TILES (16 + n) = true ∧ t.bit Reg.SAFE_CAUSE 3 = true
        ∧ t.fld Reg.SAFE_ALARM 1 0 = 2 ∧ t.bit (Reg.PAGE_IRQ_RAW Pg.SAFE) 0 = true)
      ∧ ∃ t, exec (.tilePatternTest n true) s = .next t ∧ t = { s with score := t.score }
        ∧ t.score = { s.score with patternCal := t.score.patternCal, patternMus := t.score.patternMus })
    ∧ (s.bit Reg.SPARE_TILES n = true → exec (.tilePatternTest n false) s = .next s)

/-- A write of KEYS_TABLE with a base stages the table and sets its check RUNNING; with base 0 it withdraws a staged
table and its check (R138). When the check of the staged table ends, with a directory loaded, nothing poisoned and
no read of the table failed, it PASSES, and the table waits for its bell open, where every layer's entry is well
formed; otherwise it FAILS, the staged table is withdrawn and KEY_TABLE_BAD is recorded. The same holds of SEL_TABLE
with its own entries and SEL_TABLE_BAD (R154). A check that is not running does not end. SEQ_HASH_IN gives H64 of
the ID in SEQ_HASH_OUT and changes nothing else (R96, R114). -/
def Obligations.ScoringTables : Prop :=
  ∀ (s : State) (v : W64), s.Inv →
    (s.Accepts Reg.KEYS_TABLE v → bits v.toNat 51 14 ≠ 0 → ∃ t, exec (.keysTableWrite v) s = .next t
      ∧ t.stagedReg Reg.KEYS_TABLE = v ∧ t.fld Reg.KEYS_CHECK 1 0 = 1 ∧ s.RegsBut [Reg.KEYS_CHECK] t)
    ∧ (s.Accepts Reg.KEYS_TABLE v → bits v.toNat 51 14 = 0 → ∃ t, exec (.keysTableWrite v) s = .next t
      ∧ t.staged = tDel Reg.KEYS_TABLE s.staged ∧ t.fld Reg.KEYS_CHECK 1 0 = 0 ∧ t.score.keysPassed = none)
    ∧ (s.fld Reg.KEYS_CHECK 1 0 = 1 → s.checkExperts ≠ 0 → s.poison = [] → s.readFailed = [] → ∃ t, exec .keysCheckDone s = .next t
      ∧ ((∀ l, l < bits s.checkModel 24 16 →
            (s.keysLayer (s.stagedReg Reg.KEYS_TABLE).toNat s.checkExperts (256 * bits s.checkModel 31 25) l).1 = 0) →
          t.fld Reg.KEYS_CHECK 1 0 = 2 ∧ t.score.keysPassed = some ((s.stagedReg Reg.KEYS_TABLE).toNat, s.now)
            ∧ t.staged = s.staged)
      ∧ ((∃ l, l < bits s.checkModel 24 16 ∧
            (s.keysLayer (s.stagedReg Reg.KEYS_TABLE).toNat s.checkExperts (256 * bits s.checkModel 31 25) l).1 ≠ 0) →
          t.fld Reg.KEYS_CHECK 1 0 = 3 ∧ t.staged = tDel Reg.KEYS_TABLE s.staged
            ∧ t.bit (Reg.PAGE_IRQ_RAW Pg.KEYS) 0 = true))
    ∧ (s.fld Reg.KEYS_CHECK 1 0 ≠ 1 → exec .keysCheckDone s = .next s)
    ∧ (s.Accepts Reg.SEL_TABLE v → v ≠ 0#64 → ∃ t, exec (.selTableWrite v) s = .next t
      ∧ t.stagedReg Reg.SEL_TABLE = v ∧ t.fld Reg.SEL_CHECK 1 0 = 1 ∧ s.RegsBut [Reg.SEL_CHECK] t)
    ∧ (s.fld Reg.SEL_CHECK 1 0 = 1 → s.checkExperts ≠ 0 → s.poison = [] → s.readFailed = [] → ∃ t, exec .selCheckDone s = .next t
      ∧ ((∀ l, l < bits s.checkModel 24 16 →
            selReason (s.rd ((s.stagedReg Reg.SEL_TABLE).toNat + 32 * l) 32) s.checkExperts = 0) →
          t.fld Reg.SEL_CHECK 1 0 = 2 ∧ t.score.selPassed = some ((s.stagedReg Reg.SEL_TABLE).toNat, s.now))
      ∧ ((∃ l, l < bits s.checkModel 24 16 ∧
            selReason (s.rd ((s.stagedReg Reg.SEL_TABLE).toNat + 32 * l) 32) s.checkExperts ≠ 0) →
          t.fld Reg.SEL_CHECK 1 0 = 3 ∧ t.staged = tDel Reg.SEL_TABLE s.staged ∧ t.bit (Reg.PAGE_IRQ_RAW Pg.SEL) 0 = true))
    ∧ (s.Accepts Reg.SEQ_HASH_IN v → ∃ t, exec (.seqHashIn v) s = .next t ∧ t = { s with regs := t.regs }
      ∧ t.reg Reg.SEQ_HASH_OUT = h64 v ∧ s.RegsBut [Reg.SEQ_HASH_OUT] t)

/-- When the load into a key bank completes, with no doorbell held, the bank holds its layer's image and loads no
more; an image that could not be read is marked bad and records KEY_IMAGE_BAD in the KEYS page (R141, R145). A bank
that is not loading is left alone. When the part of an image that is fetched again is whole, memory nowhere
poisoned, the bank waits no longer and the wait counts, in cycles of 0.5 ns, as retry time of its layer's round that
is not scored whole (R81, R143); the same holds of the projection area and the round that waits for it. A completion
for another address, or where nothing is fetched again, changes nothing. -/
def Obligations.BankImagesComplete : Prop :=
  ∀ (s : State) (b : Bool) (a t0 : Nat), s.Inv → s.cal.heldLayer = none → s.mus.heldLayer = none →
    ((s.bank b).loading = true → ∃ t, exec (.bankImageLoadDone b true) s = .next t ∧ (t.bank b).valid = true
      ∧ (t.bank b).loading = false ∧ (t.bank b).layer = (s.bank b).layer)
    ∧ ((s.bank b).loading = true → ∃ t, exec (.bankImageLoadDone b false) s = .next t ∧ (t.bank b).bad = true
      ∧ (t.bank b).loading = false ∧ t.bit (Reg.PAGE_IRQ_RAW Pg.KEYS) 0 = true)
    ∧ ((s.bank b).loading = false → exec (.bankImageLoadDone b true) s = .next s)
    ∧ ((s.bank b).refetch = some (a, t0) → s.poison = [] → ∃ t, exec (.keyRefetchDone (.bank b) a) s = .next t
      ∧ (t.bank b).refetch = none
      ∧ (∀ r, s.cal.cur = some r → r.layer = (s.bank b).layer → (∃ x ∈ r.toks, x.scored = false) →
          t.cal.cur = some { r with retry := r.retry + 2 * (s.now - t0) })
      ∧ s.RegsBut [Reg.KEYS_BANK, Reg.TALLY_LIFE 0] t)
    ∧ (∀ h, s.score.projRefetch = some (a, t0, h) → s.poison = [] → ∃ t, exec (.keyRefetchDone .proj a) s = .next t
      ∧ t.score.projRefetch = none
      ∧ (∀ r, (s.half h).cur = some r → (t.half h).cur = some { r with retry := r.retry + 2 * (s.now - t0) })
      ∧ s.RegsBut [Reg.TALLY_LIFE 0] t)
    ∧ (∀ area, (∀ q, s.areaRefetch area = some q → q.1 ≠ a) → exec (.keyRefetchDone area a) s = .next s)

/-- TOKEN_SELECT takes the first scored token of the round that is not selected. A token error has every rank of its
choices empty and is counted (R161). A token whose effective scores are finite is selected with its candidates in
the selection order, the best first, as many as the layer selects (R157, R158); where the order checker disagrees it
is selected too, tainted, and a dangerous fault of class 3 reported (R443); one with a score that is not finite
becomes a token error with cause 5, recorded as NONFINITE in the SEL page (R161). With no such token nothing
happens. BID_CLOSE_SEND, once every token is selected and in round 0 every shadow comparison has ended, sends what
the bins hold and one bid-close to every live source, and closes the round (R165, R189); before that it does
nothing. -/
def Obligations.TokensSelect : Prop :=
  ∀ (s : State) (h : Half) (v : RoundView) (i : Nat) (x : Tok) (y : RTok), s.Inv → s.view h = some v →
    (v.rnd.toSelect = some i → v.set.toks[i]? = some x → v.rnd.toks[i]? = some y → v.sel.sharedIds = [] →
      (y.err = true → ∃ t r' y', exec (.tokenSelect h true) s = .next t ∧ (t.half h).cur = some r' ∧ r'.toks[i]? = some y'
        ∧ y' = { y with selected := true, choices := emptyChoices v.sel.choices } ∧ (∀ j, j ≠ i → r'.toks[j]? = v.rnd.toks[j]?)
        ∧ t.regs = s.regs)
      ∧ (y.err = false → (∀ c ∈ s.cands v x y, fFinite c.eff = true) → ∃ t r' y', exec (.tokenSelect h true) s = .next t
        ∧ (t.half h).cur = some r' ∧ r'.toks[i]? = some y' ∧ y'.selected = true
        ∧ y'.sel.take v.sel.choices
          = (sortBy (candLt fun e => dTie (s.dirAt v.set.bell e)) (s.cands v x y)).take v.sel.choices)
      ∧ (y.err = false → (∀ c ∈ s.cands v x y, fFinite c.eff = true) → ∃ t r' y', exec (.tokenSelect h false) s = .next t
        ∧ (t.half h).cur = some r' ∧ r'.toks[i]? = some y' ∧ y'.selected = true ∧ y'.taint = true
        ∧ t.bit Reg.SAFE_CAUSE 3 = true)
      ∧ (y.err = false → (∃ c ∈ s.cands v x y, fFinite c.eff = false) → ∃ t r' y', exec (.tokenSelect h true) s = .next t
        ∧ (t.half h).cur = some r' ∧ r'.toks[i]? = some y' ∧ y'.selected = true ∧ y'.err = true ∧ y'.errCause = 5
        ∧ y'.choices = emptyChoices v.sel.choices ∧ t.bit (Reg.PAGE_IRQ_RAW Pg.SEL) 0 = true))
    ∧ (v.rnd.toSelect = none → exec (.tokenSelect h true) s = .next s)
    ∧ (v.rnd.closed = false → v.rnd.folded = false → (∀ z ∈ v.rnd.toks, z.selected = true) →
      (v.rnd.ar = 0 → v.rnd.shadowsDone = true) → ∃ t, exec (.bidCloseSend h) s = .next t ∧ t.regs = s.regs
        ∧ (t.half h).cur = some { v.rnd with bins := [], closed := true, lastVerdict := s.now }
        ∧ t.route.queue.length = s.route.queue.length + v.rnd.bins.length
          + ((s.liveSources v.set.bell).filter fun k => !s.deadNow k).length)
    ∧ ((v.rnd.closed = true ∨ v.rnd.folded = true ∨ ∃ z ∈ v.rnd.toks, z.selected = false) →
      exec (.bidCloseSend h) s = .next s)

/-- A verdict whose rebuilt handle passes its check and that answers a choice still awaiting one, from that choice's
home and for the running round, settles it: a grant makes it granted with the offset given, a refusal refused with
the reason given (R103, R170). Any other verdict with a good handle is discarded: AUC_FAULT takes the handle,
AUC_VERDICT_EXTRA is recorded and a lost-or-duplicated fault reported (R170). A round whose bid-closes have left and
that awaits no verdict folds: where a spill round is left the next one starts, and after the last one the half is
folded, each token waiting for its shared places and its grants (R178, R227). While a choice awaits its verdict
nothing folds. -/
def Obligations.VerdictsAndFolds : Prop :=
  ∀ (s : State) (h : Half) (v : RoundView) (w : W64) (i j : Nat) (x : Tok) (y : RTok) (c : Choice) (home : Node), s.Inv →
    s.view h = some v →
    (s.handleVerdict (s.verdictHandle v.set.bell v.rnd.layer h w) = .pass → v.rnd.folded = false → j = vChoice v.sel.ec w →
      (v.set.toks.zipIdx.find? fun p => p.1.seq == vIndex w && p.1.pos == vPos w) = some (x, i) →
      v.rnd.toks[i]? = some y → y.choices[j]? = some c →
      (c.st = .awaiting → nodeAt v.sources (s.homeOf v c) = home →
        ∃ t r' y' c', exec (.verdictReceive home v.set.bell v.rnd.layer h v.rnd.ar w) s = .next t
          ∧ (t.half h).cur = some r' ∧ r'.toks[i]? = some y' ∧ y'.choices[j]? = some c' ∧ t.regs = s.regs
          ∧ c'.expert = c.expert ∧ (vGrant w = true → c'.st = .granted ∧ c'.offset = vOffset w)
          ∧ (vGrant w = false → c'.st = .refused ∧ c'.reason = vReason w))
      ∧ (c.st ≠ .awaiting → ∃ t, exec (.verdictReceive home v.set.bell v.rnd.layer h v.rnd.ar w) s = .next t
        ∧ (t.half h).cur = some v.rnd ∧ t.reg Reg.AUC_FAULT = s.verdictHandle v.set.bell v.rnd.layer h w
        ∧ t.bit (Reg.PAGE_IRQ_RAW Pg.AUC) 0 = true ∧ t.bit Reg.SAFE_CAUSE 2 = true))
    ∧ (v.rnd.closed = true → v.rnd.folded = false → (∀ z ∈ v.rnd.toks, ∀ q ∈ z.choices, q.st ≠ .awaiting) →
      v.rnd.sentBids = [] →
      (v.rnd.ar < v.sel.x → ∃ t r', exec (.roundFold h) s = .next t ∧ (t.half h).cur = some r' ∧ r'.ar = v.rnd.ar + 1
        ∧ r'.closed = false ∧ r'.folded = false)
      ∧ (v.sel.x ≤ v.rnd.ar → v.sel.ec = false → ∃ t r', exec (.roundFold h) s = .next t ∧ (t.half h).cur = some r'
        ∧ r'.folded = true ∧ t.regs = s.regs
        ∧ r'.toks.map (·.t) = v.rnd.toks.map fun z => (v.sel.sharedIds.length : Int) + z.granted))
    ∧ ((v.rnd.closed = false ∨ v.rnd.folded = true ∨ ∃ z ∈ v.rnd.toks, ∃ q ∈ z.choices, q.st = .awaiting) →
      exec (.roundFold h) s = .next s)

/-- After the last fold of a half GATE_WEIGHTS_DONE gives every token of the round its weight list in the order of
its places, and the round has its gate weights (R184, R222); before the last fold, and a second time, it does
nothing. -/
def Obligations.GateWeights : Prop :=
  ∀ (s : State) (h : Half) (v : RoundView), s.Inv → s.view h = some v →
    (v.rnd.folded = true → v.rnd.gated = false → ∃ t r', exec (.gateWeightsDone h) s = .next t ∧ (t.half h).cur = some r'
      ∧ r'.gated = true ∧ r'.layer = v.rnd.layer ∧ r'.toks.map (·.weights) = v.rnd.toks.map fun z => placeWeights v.sel z)
    ∧ ((v.rnd.folded = false ∨ v.rnd.gated = true) → exec (.gateWeightsDone h) s = .next s)

/-- A bid of the round in progress from a source of the set, for a capped stall homed here, is held in bid space and
counted for its source until its tie note is there (R163, R164, R169). With the tie note both leave bid space and
the bid meets its keeper: with room left it enters the keeper in grant order; with none, a bid that is below the
last one kept is refused with CAPACITY, and one above it takes its place and the displaced bid is refused with
CAPACITY (R167, R169); a refusal sends a verdict to the bid's source (R170). In a round that its home has ended a
bid is refused with TOKEN_ERROR and a tie note discarded (R174). -/
def Obligations.BidsMeetTheirKeepers : Prop :=
  ∀ (s : State) (src : Node) (half : Half) (rec note : List Byte) (i k : Nat) (x : HomeHalf) (b : Bid) (kp : List Bid), s.Inv →
    half = halfOf (hHalf (recLo rec)) →
    k = roundKey (fullBell s.bellNo (hBell (recLo rec))) (hLayer (recLo rec)) (bits (recHi rec).toNat 53 52) →
    hLayer (recLo rec) < 256 → indexOfNat src (s.sourcesAt (keyBell k)) = some i → s.roundOccurs k = true →
    recKind (recHi rec) = 0 → x = s.home half → b = bidOf i (recLo rec) (recHi rec) (recLo note) →
    (x.timedOut.contains k = false → x.done.any (k ≤ ·) = false → x.cur = some k → (tFind k x.closedNr).isSome = true →
      x.closeOf k i = none → s.isHomed (keyBell k) b.expert = true →
      (x.space = [] → exec (.bidReceive src rec) s
        = .next (s.setHome half { x with space := [⟨k, i, recLo rec, recHi rec⟩], merged := bump i 1 x.merged }))
      ∧ (x.space = [⟨k, i, recLo rec, recHi rec⟩] → bits (recHi note).toNat 37 32 ≤ 1 →
        noteFor k i (recLo rec) ⟨k, i, recLo note, recHi note⟩ = true →
        ((tFind k x.closedNr).getD []).contains b.expert = false → kp = (tFind b.expert x.keepers).getD [] →
        (kp.any fun c => sameKey (s.selEnt (s.confAt (keyBell k)) (keyLayer k)).ec b c) = false →
        (kp.length < tGet zeroNat b.expert x.room →
          ∃ t, exec (.tieNoteReceive src half (keyBell k) (keyLayer k) (keyRound k) note) s = .next t ∧ t.regs = s.regs
            ∧ t.mem = s.mem ∧ t.route = s.route ∧ t.home half = { x with
              space := [], merged := bump i 1 x.merged, bids := bump b.expert 1 x.bids,
              keepers := tPut b.expert
                (insertBy (bidLt (s.selEnt (s.confAt (keyBell k)) (keyLayer k)).ec) b kp) x.keepers })
        ∧ (∀ w, tGet zeroNat b.expert x.room ≤ kp.length → tGet zeroNat b.expert x.room ≠ 0 → kp.getLast? = some w →
          ∃ t, exec (.tieNoteReceive src half (keyBell k) (keyLayer k) (keyRound k) note) s = .next t ∧ t.regs = s.regs
            ∧ t.mem = s.mem
            ∧ (bidLt (s.selEnt (s.confAt (keyBell k)) (keyLayer k)).ec b w = false →
              (t.home half).keepers = x.keepers ∧ (t.home half).refusals = bump b.expert 1 x.refusals
              ∧ t.route = (s.sendVerdicts half k i [verdictWord b false 1 0]).route)
            ∧ (bidLt (s.selEnt (s.confAt (keyBell k)) (keyLayer k)).ec b w = true →
              (t.home half).keepers = tPut b.expert
                (insertBy (bidLt (s.selEnt (s.confAt (keyBell k)) (keyLayer k)).ec) b kp.dropLast) x.keepers
              ∧ (t.home half).refusals = bump w.expert 1 x.refusals
              ∧ t.route = (s.sendVerdicts half k w.src [verdictWord w false 1 0]).route))))
    ∧ (x.timedOut.contains k = true →
      (∃ t, exec (.bidReceive src rec) s = .next t ∧ t.regs = s.regs ∧ t.home half = x
        ∧ t.route = (s.sendVerdicts half k i [verdictWord (bidOf i (recLo rec) (recHi rec) 0#64) false 4 0]).route)
      ∧ exec (.tieNoteReceive src half (keyBell k) (keyLayer k) (keyRound k) note) s = .next s)

/-- The first bid-close of a source for the round in progress is counted with its record count; a second one is
discarded with AUC_CLOSE_COUNT and a lost-or-duplicated fault (R165, R169, R175), and one of a bell that cannot be
in progress with BELL_SKEW (R63; log entry 19). The close does nothing before every bid-close, every counted record
and every merge is in hand. Then, with the auctioneers agreeing, the bids of the keeper of a stall are granted in
order: its room falls and its grants rise by their number, the round is done, and a verdict with the grant and its
stall offset goes to the source (R169, R170). A close at which one auctioneer flags itself fences that one, the
other going on alone, and one at which they disagree with neither flagged reports a fault of class 3 and starts
their self-test (R457). The close timer of a round that can close only counts in LATE_MARGIN (R87); of one that
cannot, the round is ended, its records leave bid space and AUC_CLOSE_TIMEOUT is recorded (R174). A release counts
as a refusal moved from the grants of its stall half (R179). A source whose bid space stays full is named in
AUC_SKEW with AUC_BID_SKEW recorded (R173). -/
def Obligations.RoundsCloseOrEnd : Prop :=
  ∀ (s : State) (src : Node) (half : Half) (rec : List Byte) (i j k e d n : Nat) (x : HomeHalf) (kp : List Bid), s.Inv →
    x = s.home half →
    (half = halfOf (bits (recHi rec).toNat 8 8) → indexOfNat src (s.sourcesAt (keyBell k)) = some i →
      k = roundKey (recLo rec).toNat (bits (recHi rec).toNat 7 0) (bits (recHi rec).toNat 10 9) → s.roundOccurs k = true →
      n = bits (recHi rec).toNat 55 32 → s.otherBell half (recLo rec).toNat = false → x.timedOut.contains k = false → x.done.any (k ≤ ·) = false →
      (x.closeOf k i = none → x.cur = some k → (tFind k x.closedNr).isSome = true → tGet zeroNat i x.merged ≤ n →
        exec (.bidCloseReceive src rec) s = .next (s.setHome half { x with closes := x.closes ++ [(k, i, n, s.now)] }))
      ∧ ((x.closeOf k i).isSome = true → ∃ t, exec (.bidCloseReceive src rec) s = .next t ∧ t.home half = x
        ∧ t.bit (Reg.PAGE_IRQ_RAW Pg.AUC) 0 = true ∧ t.bit Reg.SAFE_CAUSE 2 = true))
    ∧ (half = halfOf (bits (recHi rec).toNat 8 8) → (indexOfNat src (s.sourcesAt (recLo rec).toNat)).isSome = true →
      s.otherBell half (recLo rec).toNat = true → ∃ t, exec (.bidCloseReceive src rec) s = .next t
        ∧ (t.home half).closes = x.closes ∧ (t.home half).cur = x.cur ∧ t.bit (Reg.PAGE_IRQ_RAW Pg.BELL) 0 = true)
    ∧ (∀ w, x.cur = some k → s.closeReady half k = true → s.safe.aucAlone = false →
      (∃ t, exec (.auctionRoundClose half (.flagged w)) s = .next t ∧ t.safe.aucAlone = true ∧ (w % 2) ∈ t.safe.aucFenced
        ∧ t.bit (Reg.PAGE_IRQ_RAW Pg.SAFE) 0 = true)
      ∧ ∃ t, exec (.auctionRoundClose half .silent) s = .next t ∧ t.safe.aucSelfTest = true ∧ t.bit Reg.SAFE_CAUSE 3 = true)
    ∧ (x.cur = none → exec (.auctionRoundClose half .agree) s = .next s ∧ exec (.bidSkew i half) s = .next s)
    ∧ (x.cur = some k → s.closeReady half k = false → exec (.auctionRoundClose half .agree) s = .next s)
    ∧ (x.cur = some k → s.closeReady half k = true → x.overSrc = [] → x.space = [] → x.timedOut = [] →
      (∀ c ∈ x.closes, c.1 = k) → s.homedStalls (keyBell k) = [e] → d = s.dirAt (keyBell k) e → x.keepers = [(e, kp)] →
      ∃ t, exec (.auctionRoundClose half .agree) s = .next t ∧ (t.home half).cur = none ∧ (t.home half).done = some k
        ∧ (t.home half).keepers = [] ∧ tGet zeroNat e (t.home half).room = tGet zeroNat e x.room - kp.length
        ∧ tGet zeroNat e (t.home half).grants = tGet zeroNat e x.grants + kp.length
        ∧ ∀ b place, kp = [b] → place = (indexOfNat (replica (s.sourcesAt (keyBell k)) e d b.src) (dSiteList d)).getD 0 →
          ∃ q ∈ t.route.queue, q.pkt.dest = nodeAt (s.sourcesAt (keyBell k)) b.src ∧ q.pkt.cls = 4 ∧ q.pkt.type = 1
            ∧ q.pkt.payload.drop 8
              = leBytes 8 (verdictWord b true 0 (tGet zeroNat (e * 4 + place) x.offsets)).toNat)
    ∧ (x.closes = [] → exec (.aucCloseTimeout half) s = .next s)
    ∧ (x.earliest = some k → x.cur = some k → s.closeReady half k = true →
      exec (.aucCloseTimeout half) s = .next s.lateMargin)
    ∧ (x.earliest = some k → x.cur ≠ some k → x.timedOut.contains k = false →
      ∃ t, exec (.aucCloseTimeout half) s = .next t ∧ (t.home half).timedOut = k :: x.timedOut ∧ (t.home half).cur = x.cur
        ∧ (t.home half).space = x.space.filter (fun r => r.key != k) ∧ t.bit (Reg.PAGE_IRQ_RAW Pg.AUC) 0 = true)
    ∧ (x.cur = some k → ∃ t, exec (.bidSkew i half) s = .next t ∧ t.home half = x
      ∧ t.reg Reg.AUC_SKEW = BitVec.ofNat 64 (i % 2 ^ 16 + keyLayer k * 2 ^ 16 + half.num * 2 ^ 24)
      ∧ t.bit (Reg.PAGE_IRQ_RAW Pg.AUC) 0 = true)
    ∧ (half = halfOf (hHalf (recLo rec)) → e = bits (recHi rec).toNat 14 0 → x.cur = some k →
      keyBell k = fullBell s.bellNo (hBell (recLo rec)) → keyLayer k = hLayer (recLo rec) →
      indexOfNat src (s.sourcesAt (keyBell k)) = some j → ∃ t, exec (.releaseReceiveHome src rec) s = .next t
        ∧ tGet zeroNat e (t.home half).grants = tGet zeroNat e x.grants - 1
        ∧ tGet zeroNat e (t.home half).refusals = tGet zeroNat e x.refusals + 1 ∧ t.regs = s.regs ∧ t.route = s.route
        ∧ (t.home half).room = x.room)

/-- Before any FINAL of the half: a reservation notice adds its count to the arrival counter X of its stall and its
bytes to Y of its source; a release takes one record of both back and marks its offset empty (R199). A FINAL is
held; one below the counts of its notices taints the stall half and records NOTICE_MISMATCH (R202); with a FINAL a
stall half with nothing to come and no record is done (R198, R200). A release at or beyond the FINAL count is
rejected with RELEASE_FILLED (R202). A notice or a release of an earlier layer round than the half is in does
nothing (R197). A header chunk is taken with its counts; a record chunk whose CRC holds lowers Y by its bytes, is
written at its place of the receive region (R194) and joins its record; a chunk whose CRC fails under every bell it
may belong to is, the first time, not counted and DISP_FAULT names it (R206 to R209). -/
def Obligations.SiteCountsArrivals : Prop :=
  ∀ (s : State) (src home : Node) (half : Half) (rec : List Byte) (bell layer e i n bf : Nat) (x : SiteHalf) (tag : W64)
    (bytes : List Byte) (crc : BitVec 32), s.Inv → x = s.site half → bf = s.siteFwd half →
    (s.SiteOpen half bell layer → bell = fieldAt rec 0 8 → layer = fieldAt rec 8 1 → half = halfOf (bits (fieldAt rec 9 1) 0 0) →
      e = fieldAt rec 0xA 2 % 2 ^ 15 → i = fieldAt rec 0xC 2 % 2 ^ 15 → n = fieldAt rec 0xE 2 % 2 ^ 13 →
      (tFind e x.stalls).isSome = true →
      (bits (fieldAt rec 9 1) 3 3 = 0 → s.deadNow i = false → ∃ t, exec (.reservationNoticeReceive home rec) s = .next t
        ∧ t.regs = s.regs ∧ t.mem = s.mem ∧ t.site half = { x with
          x := addInt e n x.x, y := addInt i (n * bf : Nat) x.y
          counts := bump (pairKey e i) n x.counts, sums := bump e n x.sums })
      ∧ (bits (fieldAt rec 9 1) 3 3 = 1 → (∃ p ∈ x.stalls, p.1 ≠ e) → (tFind e x.x).getD 0 ≠ 0 →
        tGet zeroNat e x.sums ≤ n →
        exec (.reservationNoticeReceive home rec) s = .next (s.setSite half { x with finals := [(e, n)] }))
      ∧ (∀ y, bits (fieldAt rec 9 1) 3 3 = 1 → (∃ p ∈ x.stalls, p.1 ≠ e) → (tFind e x.x).getD 0 ≠ 0 →
        n < tGet zeroNat e x.sums → tFind e x.stalls = some y → y.expert = e → y.mismatch = false →
        ∃ t, exec (.reservationNoticeReceive home rec) s = .next t ∧ tFind e (t.site half).finals = some n
          ∧ (t.stallHalf half e).taint = true ∧ t.bit (Reg.PAGE_IRQ_RAW Pg.DISP) 0 = true ∧ t.bit Reg.SAFE_CAUSE 2 = true)
      ∧ (∀ y, bits (fieldAt rec 9 1) 3 3 = 1 → x.stalls = [(e, y)] → y.st = 0 → y.expert = e → x.recs = [] →
        (tFind e x.x).getD 0 = 0 →
        ∃ t, exec (.reservationNoticeReceive home rec) s = .next t ∧ (t.stallHalf half e).st = 2))
    ∧ (half = halfOf (hHalf (recLo rec)) → bell = fullBell s.bellNo (hBell (recLo rec)) → layer = hLayer (recLo rec) →
      x.active = true → x.bell = bell → x.layer = layer → e = bits (recHi rec).toNat 14 0 →
      n = bits (recHi rec).toNat 27 16 → indexOfNat src (s.sourcesAt bell) = some i → (tFind e x.stalls).isSome = true →
      (s.SiteOpen half bell layer → exec (.releaseReceiveSite src rec) s = .next (s.setSite half { x with
        x := addInt e (-1) x.x, y := addInt i (-(bf : Int)) x.y
        released := bump (pairKey e i) 1 x.released, empties := recKey e n :: x.empties }))
      ∧ (∀ f, tFind e x.finals = some f → f ≤ n → ∃ t, exec (.releaseReceiveSite src rec) s = .next t
        ∧ t.bit (Reg.PAGE_IRQ_RAW Pg.DISP) 0 = true ∧ t.bit Reg.SAFE_CAUSE 2 = true
        ∧ (t.site half).released = x.released ∧ (t.site half).empties = x.empties))
    ∧ (x.active = true →
      (half = halfOf (bits (fieldAt rec 9 1) 0 0) → fieldAt rec 0 8 * 256 + fieldAt rec 8 1 < x.bell * 256 + x.layer →
        exec (.reservationNoticeReceive home rec) s = .next s)
      ∧ (half = halfOf (hHalf (recLo rec)) →
        fullBell s.bellNo (hBell (recLo rec)) * 256 + hLayer (recLo rec) < x.bell * 256 + x.layer →
        exec (.releaseReceiveSite src rec) s = .next s))
    ∧ (s.SiteOpen half bell layer → half = halfOf (tHalf tag) → layer = tLayer tag →
      indexOfNat src (s.sourcesAt bell) = some i → s.tagNoPlace half tag = false →
      (tHdr tag = true → bytes.length = 64 → crc = chunkCrc bell tag src s.node bytes → tFind i x.hdrs = none →
        fieldAt bytes 0 8 = bell → ∃ t, exec (.tokChunkReceive src tag bytes crc) s = .next t
          ∧ s.RegsBut [Reg.TALLY_LIFE 8] t ∧ t.mem = s.mem ∧ t.sram = s.sram
          ∧ t.site half = { x with
            hdrs := tPut i (parseHeader bytes) x.hdrs, chunksIn := bump i 1 x.chunksIn, bytesIn := bump i 64 x.bytesIn })
      ∧ (tHdr tag = false → bytes.length = s.partLen half (tPart tag) → crc = chunkCrc bell tag src s.node bytes →
        tFind (recKey (tExpert tag) (tOffset tag)) x.recs = none → s.partHandleBad half src tag bytes = false →
        ∃ t r, exec (.tokChunkReceive src tag bytes crc) s = .next t
          ∧ t.sram = (s.regionWrite half (s.recOff half (tExpert tag) (tOffset tag) + 4096 * tPart tag) bytes).sram
          ∧ t.mem = (s.regionWrite half (s.recOff half (tExpert tag) (tOffset tag) + 4096 * tPart tag) bytes).mem
          ∧ (t.site half).y = addInt i (-(bytes.length : Int)) x.y
          ∧ (t.site half).chunksIn = bump i 1 x.chunksIn ∧ (t.site half).bytesIn = bump i bytes.length x.bytesIn
          ∧ (t.site half).recs = tPut (recKey (tExpert tag) (tOffset tag)) r x.recs
          ∧ r.src = i ∧ r.parts = 2 ^ tPart tag ∧ r.token = tToken tag ∧ r.rank = tRank tag ∧ r.taint = false)
      ∧ (bytes.length = (if tHdr tag then 64 else s.partLen half (tPart tag)) →
        crc ≠ chunkCrc bell tag src s.node bytes → s.chunkBell half tag src bytes crc = bell →
        x.crcFail.contains (i, tagKey tag) = false →
        ∃ t, exec (.tokChunkReceive src tag bytes crc) s = .next t ∧ t.reg Reg.DISP_FAULT = tag
          ∧ t.bit (Reg.PAGE_IRQ_RAW Pg.DISP) 0 = true ∧ t.sram = s.sram
          ∧ t.site half = { x with crcFail := (i, tagKey tag) :: x.crcFail }))

/-- With a chunk ready, the sender takes the first ready chunk of the half it serves (of both halves ready, the one
whose spell of readiness began earlier, Calico on a tie) and sends a forward chunk for another slice as a TOK
packet, keeping a copy for the resend of R208 (R205, R213); with none ready it serves no half. A readiness record at
the home of its stall sets the replica's bit of the slot of its bell and layer; a record with a later tag begins the
slot anew, one with an earlier tag is discarded, and one for a stall not homed here does nothing (R260). -/
def Obligations.ChunksLeaveInTurn : Prop :=
  ∀ (s : State) (half : Half) (c : TokChunk) (rest : List TokChunk) (rec : List Byte) (bell layer e i : Nat), s.Inv →
    (s.tok.cal = [] → s.tok.mus = [] →
      exec .tokChunkSend s = .next { s with tok := { s.tok with serving := none, countedTo := s.now } })
    ∧ ((half = .calico ∧ (s.tok.mus = [] ∨ s.tok.sinceCal ≤ s.tok.sinceMus)
        ∨ half = .muslin ∧ (s.tok.cal = [] ∨ s.tok.sinceMus < s.tok.sinceCal)) →
      s.tokQueue half = c :: rest → tDir c.tag = 0 → c.dest ≠ s.node → ∃ t, exec .tokChunkSend s = .next t
        ∧ s.RegsBut [Reg.TALLY_LIFE 7] t ∧ t.mem = s.mem ∧ t.tokQueue half = rest
        ∧ t.tokQueue half.other = s.tokQueue half.other
        ∧ t.tok.serving = some half ∧ t.tok.kept = s.tok.kept ++ [c]
        ∧ t.route.queue = s.route.queue ++ [⟨s.tokPacket c, .unit, none, 0, true⟩])
    ∧ (bell = fieldAt rec 0 8 → layer = fieldAt rec 8 1 → e = fieldAt rec 0xA 2 % 2 ^ 15 → i = fieldAt rec 0xC 2 % 2 ^ 15 →
      (s.isHomed bell e = false → exec (.readinessRecordReceive rec) s = .next s)
      ∧ (s.isHomed bell e = true →
        (tFind (e * 4 + layer % 4) s.res.ready = none → exec (.readinessRecordReceive rec) s = .next { s with
          res := { s.res with ready := tPut (e * 4 + layer % 4) ⟨bell % 2 ^ 16, layer, [i]⟩ s.res.ready } })
        ∧ (∀ r, tFind (e * 4 + layer % 4) s.res.ready = some r →
          (r.bell = bell % 2 ^ 16 → r.layer = layer → exec (.readinessRecordReceive rec) s = .next { s with
            res := { s.res with ready := tPut (e * 4 + layer % 4) { r with bits := (i :: r.bits).eraseDups } s.res.ready } })
          ∧ (r.bell < 2 ^ 16 → r.bell = (bell % 2 ^ 16 + 2 ^ 16 - 1) % 2 ^ 16 →
            exec (.readinessRecordReceive rec) s = .next { s with
              res := { s.res with ready := tPut (e * 4 + layer % 4) ⟨bell % 2 ^ 16, layer, [i]⟩ s.res.ready } })
          ∧ (r.bell = bell % 2 ^ 16 → layer < r.layer → exec (.readinessRecordReceive rec) s = .next s))))

/-- A waiting request of a conversion slice takes the buffer that the order of R215 finds, with its owners; without
a waiting request or a buffer nothing happens; a request that waits too long records POOL_STARVED once per bell
(R215). Of the units that wait, the one that became ready first (of one time Calico first, then the lowest expert)
is posted, where its tile is one, its list has room and no write outstanding, and no request waits for a buffer of
its class: a return buffer with owners TILE and DISP, the descriptor written in the list's next slot, the tail of
the list advanced (R273, R275, R277, R278). A completion notice with status OK for a posted tile completes it and
counts its unit down; one that names no such tile is dropped with TILE_BAD_DONE, a lost-or-duplicated fault unless
the tile timed out or was withdrawn (R281, R282). A TILE_HEAD within the list moves its head, one beyond its tail is
dropped with TILE_BAD_HEAD (R278). A tile that times out completes tainted, its buffer is quarantined and
TILE_TIMEOUT recorded; TILE_QUAR RELEASE frees the quarantined buffers (R283, R286). -/
def Obligations.PoolsAndTiles : Prop :=
  ∀ (s : State) (cls k f n c tl list index : Nat) (w : Waiter) (u : TUnit) (x : Tile) (v : W64), s.Inv →
    ((s.pool.waiters.find? fun w => w.cls == cls) = none →
      exec (.poolRequestGrant cls) s = .next s ∧ exec (.poolStarved cls) s = .next s)
    ∧ ((s.pool.waiters.find? fun w => w.cls == cls) = some w →
      (s.findFor cls w.ctx = none → exec (.poolRequestGrant cls) s = .next s)
      ∧ (∀ p hc, w.for_ = .conv hc → s.findFor cls w.ctx = some p → ∃ t, exec (.poolRequestGrant cls) s = .next t ∧ t.regs = s.regs
        ∧ t.mem = s.mem ∧ t.pool.waiters = s.pool.waiters.erase w ∧ t.pool.grants = s.pool.grants ++ [(p.1, w)]
        ∧ t.pool.bufs = tPut p.1 ⟨w.owners, w.ctx, none⟩ s.pool.bufs)
      ∧ (s.bell.once.contains (Pg.POOL * 256 + 0x5E) = true → exec (.poolStarved cls) s = .next s)
      ∧ (s.bell.once.contains (Pg.POOL * 256 + 0x5E) = false → ∃ t, exec (.poolStarved cls) s = .next t
        ∧ State.Recorded Pg.POOL 0x5E 0 s t ∧ s.RegsBut (recordRegs Pg.POOL) t ∧ t.pool = s.pool))
    ∧ ((s.tiles.units.filter fun p => p.2.waits) = [] → exec .tilePost s = .next s)
    ∧ ((sortBy (fun a b => a.2.before b.2) (s.tiles.units.filter fun p => p.2.waits)).head? = some (k, u) →
      tFind k s.tiles.units = some u → u.posted = 0 → s.unitTiles u = [(f, n)] → s.freeCtr = some c →
      list = s.tileList u.expert → tl = tGet zeroNat list s.tiles.tails → s.listRoom list = true →
      tFind list s.tiles.listChain = none →
      (s.pool.waiters.any fun w => w.cls == clsFor (n * confBret (s.confAt u.bell) u.layer)) = false →
      ∀ p, s.findFor (clsFor (n * confBret (s.confAt u.bell) u.layer)) none = some p → ∃ t, exec .tilePost s = .next t
        ∧ t.tiles.tiles = s.tiles.tiles ++ [⟨k, list, tl, f, n, p.1, c, false, 0, false⟩]
        ∧ t.tiles.tails = tPut list ((tl + 1) % 2 ^ 32) s.tiles.tails ∧ tFind p.1 t.pool.bufs = some ⟨[4, 3], none, none⟩
        ∧ t.rd (s.slotAddr list tl) 32 = s.tileDesc u f n p.1 c)
    ∧ (s.Accepts Reg.TILE_DONE v → list = bits v.toNat 4 0 → index = bits v.toNat 63 32 →
      ((s.tiles.tiles.find? fun t => t.list == list && t.index == index && t.ctr == bits v.toNat 27 16 && t.st == 0) = some x →
        tFind x.unit s.tiles.units = some u → 1 < u.left → bits v.toNat 9 8 = 0 →
        exec (.tileDone v) s = .next { s with tiles := { s.tiles with
          tiles := s.tiles.tiles.map fun y => if y == x then { y with st := 1 } else y
          units := tPut x.unit { u with left := u.left - 1 } s.tiles.units } })
      ∧ ((s.tiles.tiles.any fun t => t.list == list && t.index == index) = false → ∃ t, exec (.tileDone v) s = .next t
        ∧ t.tiles = s.tiles ∧ t.bit (Reg.PAGE_IRQ_RAW Pg.TILE) 0 = true ∧ t.bit Reg.SAFE_CAUSE 2 = true))
    ∧ (s.Accepts Reg.TILE_HEAD v → list = bits v.toNat 4 0 → index = bits v.toNat 63 32 →
      f = tGet zeroNat list s.tiles.heads → n = tGet zeroNat list s.tiles.tails →
      ((index + 2 ^ 32 - f) % 2 ^ 32 ≤ (n + 2 ^ 32 - f) % 2 ^ 32 → exec (.tileHead v) s
        = .next { s with tiles := { s.tiles with heads := tPut list index s.tiles.heads } })
      ∧ ((n + 2 ^ 32 - f) % 2 ^ 32 < (index + 2 ^ 32 - f) % 2 ^ 32 → ∃ t, exec (.tileHead v) s = .next t
        ∧ t.tiles = s.tiles ∧ t.bit (Reg.PAGE_IRQ_RAW Pg.TILE) 0 = true
        ∧ s.RegsBut (Reg.TILE_FAULT :: recordRegs Pg.TILE) t))
    ∧ (((s.tiles.tiles.find? fun t => t.list == list && t.index == index && t.st == 0) = none →
        exec (.tileTimeout list index) s = .next s.lateMargin)
      ∧ ((s.tiles.tiles.find? fun t => t.list == list && t.index == index && t.st == 0) = some x →
        tFind x.unit s.tiles.units = some u → 1 < u.left → ∃ t, exec (.tileTimeout list index) s = .next t
          ∧ t.tiles = { s.tiles with
            quar := s.tiles.quar ++ [x.out]
            tiles := s.tiles.tiles.map fun y => if y == x then { y with st := 2, taint := true } else y
            units := tPut x.unit { u with left := u.left - 1 } s.tiles.units }
          ∧ t.bit (Reg.PAGE_IRQ_RAW Pg.TILE) 0 = true ∧ t.bit (Reg.PAGE_IRQ_RAW Pg.TILE) 2 = true))
    ∧ (s.Accepts Reg.TILE_QUAR v →
      (bits v.toNat 0 0 = 0 → exec (.tileQuarRelease v) s = .next s)
      ∧ (bits v.toNat 0 0 = 1 → (s.tiles.quar = [] → ∃ t, exec (.tileQuarRelease v) s = .next t ∧ t.pool = s.pool
          ∧ t.regs = s.regs ∧ t.tiles.quar = [])
        ∧ (∀ b o, s.tiles.quar = [b] → tFind b s.pool.bufs = some o → o.owners.getLast? = some 3 →
          ∃ t, exec (.tileQuarRelease v) s = .next t ∧ t.pool.bufs = tDel b s.pool.bufs ∧ t.tiles.quar = []
            ∧ t.regs = s.regs)))

/-- The header of a return barrow that comes after the LAYER_OUT of its round, with the counts of what came of the
barrow, is acknowledged to the site and completes the barrow, with no fault (R210, R212, R227). With no such barrow
open, a chunk of a layer that no round of its half runs, and that the last round did not run, is not combined: it is
recorded in the CMB page with a wrong-sequence fault and the half stays as it is (R228); a chunk that comes after
the return timer has expired counts only as stale (R230). The header of a return barrow, none of whose copies has
failed its CRC, is kept with its counts, its ready time and its wait (R212, R227). The record chunk that completes
the record of a granted place is written at that place of the return area (R222, R224); when its handle passes the
check and names the token, its weight is the one sent and its flags are clear, the place is filled and T of the
token falls by 1 (R228, R236); the bytes expected of its site fall by the chunk's (R227). The return timer acts
once, after the forward part: where every place is filled it only counts in LATE_MARGIN (R87); else every token that
still waits becomes ready and tainted, every other token stays as it is, and CMB_RETURN_LOST is recorded with a
lost-or-duplicated fault (R230). -/
def Obligations.ReturnsFillPlaces : Prop :=
  ∀ (s u : State) (half : Half) (v : RoundView) (src : Node) (tag : W64) (bytes pre : List Byte) (crc : BitVec 32)
    (site q : Nat) (x : Tok) (y : RTok) (o : OpenReturn), s.Inv →
    (half = halfOf (tHalf tag) → (s.half half).openReturns = [o] → o.lost = false → o.node = src → o.layer = tLayer tag →
      tHdr tag = true → tagBad tag = false → bytes.length = 64 → crc = chunkCrc o.bell tag src s.node bytes →
      fieldAt bytes 0 8 = o.bell → (parseHeader bytes).records = o.records → (parseHeader bytes).bytes = o.bytes + 64 →
      (parseHeader bytes).chunks = o.chunks + 1 → ∃ t, exec (.returnChunkReceive src tag bytes crc) s = .next t
        ∧ t.half half = { s.half half with openReturns := [] } ∧ s.RegsBut [Reg.TALLY_LIFE 8] t ∧ t.mem = s.mem ∧ t.sram = s.sram
        ∧ (src ≠ s.node → s.QueueGets t fun p => p.dest = src ∧ p.cls = 7 ∧ p.payload = barrowAck o.bell o.layer half true))
    ∧ (s.view half = some v →
    (half = halfOf (tHalf tag) → (s.half half).openReturns = [] →
      (v.rnd.layer ≠ tLayer tag → ((s.half half).last.all fun p => p.2.layer != tLayer tag) = true →
        ∃ t, exec (.returnChunkReceive src tag bytes crc) s = .next t ∧ t.half half = s.half half
        ∧ t.bit (Reg.PAGE_IRQ_RAW Pg.CMB) 0 = true ∧ t.bit Reg.SAFE_CAUSE 1 = true ∧ t.sram = s.sram)
      ∧ (v.rnd.layer = tLayer tag → v.rnd.folded = true →
        (v.rnd.returnLost = true → ∃ t, exec (.returnChunkReceive src tag bytes crc) s = .next t
          ∧ (t.half half).cur = some { v.rnd with staleIn := v.rnd.staleIn + 1 }
          ∧ t.bit (Reg.PAGE_IRQ_RAW Pg.CMB) 0 = true ∧ t.sram = s.sram)
        ∧ (v.rnd.returnLost = false → indexOfNat src v.sources = some site → s.returnTagBad v tag = false →
          crc = chunkCrc v.set.bell tag src s.node bytes → tFind site v.rnd.hdrs = none →
          (tHdr tag = true → bytes.length = 64 → (v.rnd.crcFail.find? fun p => p.1 == (site, tagKey tag)) = none →
            fieldAt bytes 0 8 = v.set.bell → (parseHeader bytes).held = false →
            (tFind site v.rnd.z).getD 0 ≠ 0 → ∃ t, exec (.returnChunkReceive src tag bytes crc) s = .next t
              ∧ s.RegsBut [Reg.TALLY_LIFE 8] t ∧ t.mem = s.mem ∧ t.sram = s.sram
              ∧ (t.half half).cur = some { v.rnd with
                hdrs := tPut site (parseHeader bytes) v.rnd.hdrs
                chunksIn := tPut site (tGet zeroNat site v.rnd.chunksIn + 1) v.rnd.chunksIn
                retReady := max v.rnd.retReady (parseHeader bytes).ready
                retWait := max v.rnd.retWait (parseHeader bytes).wait })
          ∧ (tHdr tag = false → partsOf v.bret ≤ 16 → bytes.length = min 4096 (v.bret - 4096 * tPart tag) →
            returnPlace v site tag = some q → v.set.toks[tToken tag]? = some x → v.rnd.toks[tToken tag]? = some y →
            bits (tGet zeroNat q y.parts) (tPart tag) (tPart tag) = 0 →
            setBits (tGet zeroNat q y.parts) (tPart tag) (tPart tag) 1 = 2 ^ partsOf v.bret - 1 →
            u = s.retWrite v half (v.placeOff (tToken tag) q + 4096 * tPart tag) bytes →
            pre = u.retRead v half (v.placeOff (tToken tag) q) 16 →
            s.handleVerdict (BitVec.ofNat 64 (fieldAt pre 0 8)) = .pass →
            hSlot (BitVec.ofNat 64 (fieldAt pre 0 8)) % 256 = x.seq → hPos (BitVec.ofNat 64 (fieldAt pre 0 8)) = x.pos →
            y.filled.contains q = false → 0 < y.t → y.weights.getD q 0#32 = BitVec.ofNat 32 (fieldAt pre 8 4) →
            bits (fieldAt pre 0xC 1) 1 0 = 0 →
            ∃ t r' y', exec (.returnChunkReceive src tag bytes crc) s = .next t ∧ (t.half half).cur = some r'
              ∧ t.sram = u.sram ∧ t.mem = u.mem
              ∧ s.RegsBut [Reg.TALLY_LIFE 8, Reg.TALLY_LIFE 1, Reg.CMB_TABLE] t
              ∧ r'.toks[tToken tag]? = some y' ∧ y'.filled = q :: y.filled ∧ y'.t = y.t - 1 ∧ y'.taint = y.taint
              ∧ (∀ j, j ≠ tToken tag → r'.toks[j]? = v.rnd.toks[j]?)
              ∧ r'.z = tPut site ((tFind site v.rnd.z).getD 0 - (bytes.length : Int)) v.rnd.z
              ∧ r'.recsIn = tPut site (tGet zeroNat site v.rnd.recsIn + 1) v.rnd.recsIn))))
    ∧ ((v.rnd.fwdEnd = none ∨ v.rnd.returnLost = true ∨ v.rnd.gated = false) → exec (.returnTimeout half) s = .next s)
    ∧ (v.rnd.fwdEnd.isSome = true → v.rnd.returnLost = false → v.rnd.gated = true →
      ((∀ z ∈ v.rnd.toks, z.t ≤ 0) → exec (.returnTimeout half) s = .next s.lateMargin)
      ∧ ((∃ z ∈ v.rnd.toks, 0 < z.t) → ∃ t r', exec (.returnTimeout half) s = .next t ∧ (t.half half).cur = some r'
        ∧ r'.returnLost = true ∧ t.bit (Reg.PAGE_IRQ_RAW Pg.CMB) 0 = true ∧ t.bit Reg.SAFE_CAUSE 2 = true
        ∧ ∀ (i : Nat) (z : RTok), v.rnd.toks[i]? = some z → ∃ z', r'.toks[i]? = some z'
          ∧ (0 < z.t → z'.t = 0 ∧ z'.taint = true ∧ z'.ready = true) ∧ (z.t ≤ 0 → z' = z))))

/-- Once the gate weights are there, TOKEN_COMBINE takes the first token of the combining table. A token that is not
withheld, with a clean check, gets the ordered sum of R231 as its vector, with the number of its contributions, and
the status word of R235; one that the checker of R239 finds faulty is tainted and its record withheld, with no
vector and no contribution, and the fault recorded in the CMB page. Its record is issued. With no ready token
nothing happens. -/
def Obligations.TokensCombineInOrder : Prop :=
  ∀ (s : State) (half : Half) (v : RoundView) (i : Nat) (rest : List Nat) (x : Tok) (y : RTok) (f : CombineFault), s.Inv →
    s.view half = some v →
    (v.rnd.readyQ = [] ∨ v.rnd.gated = false → exec (.tokenCombine half f) s = .next s)
    ∧ (v.rnd.readyQ = i :: rest → v.rnd.gated = true → v.set.toks[i]? = some x → v.rnd.toks[i]? = some y → y.chain = none →
      y.withheld = false →
      (f = .none → (s.combineTok v half i y).2.1 = false → ∃ t r' y', exec (.tokenCombine half f) s = .next t
        ∧ (t.half half).cur = some r' ∧ r'.readyQ = rest ∧ r'.toks[i]? = some y' ∧ y'.vec = (s.combineTok v half i y).1
        ∧ y'.contrib = (s.combineTok v half i y).2.2 ∧ y'.status = y.statusWord v.rnd.late false ∧ y'.issued = true
        ∧ r'.combined = v.rnd.combined + (s.combineTok v half i y).2.2
        ∧ ∀ j, j ≠ i → r'.toks[j]? = v.rnd.toks[j]?)
      ∧ (f ≠ .none → ∃ t r' y', exec (.tokenCombine half f) s = .next t ∧ (t.half half).cur = some r' ∧ r'.readyQ = rest
        ∧ r'.toks[i]? = some y' ∧ y'.vec = [] ∧ y'.contrib = 0 ∧ y'.taint = true ∧ y'.issued = true
        ∧ y'.status = { y with taint := true }.statusWord v.rnd.late false
        ∧ t.bit (Reg.PAGE_IRQ_RAW Pg.CMB) 0 = true))

/-- A write of RES_DIR starts a load while the bell is STOPPED or a model switch is armed, with the source set read
then; at any other time it is dropped with DIR_BUSY, as a write of RES_DESC is (R245, R270). When the image passes
its checks it is in force, entry by entry as memory holds it, or is held for the model switch; when it fails,
RES_DIR_STAT names the expert and the reason and the directory in force stays (R244, R245). A write of RES_EDIT
posts a list, in place of one posted before, and is dropped with DIR_BUSY while no directory is in force or a
package list is in its checks (R246, R526); a list that passes waits for a bell open with the descriptors read, one
that fails is rejected (R246). RES_HINT posts a hint list for the next bell open (R258). -/
def Obligations.DirectoryLoadsAndEdits : Prop :=
  ∀ (s : State) (v : W64), s.Inv →
    (s.Accepts Reg.RES_DIR v →
      (s.bellState = 0 ∨ s.armed = true → ∃ t, exec (.resDirWrite v) s = .next t ∧ t.mem = s.mem
        ∧ s.RegsBut [Reg.RES_DIR, Reg.RES_DIR_STAT] t ∧ t.reg Reg.RES_DIR = v ∧ t.reg Reg.RES_DIR_STAT = 1#64
        ∧ t.res = { s.res with dirLoad := some (s.nextSources, s.bellState != 0) })
      ∧ (s.bellState ≠ 0 → s.armed = false → ∃ t, exec (.resDirWrite v) s = .next t ∧ t.res = s.res
        ∧ s.RegsBut (Reg.RES_FAULT :: recordRegs Pg.RES) t ∧ t.bit (Reg.PAGE_IRQ_RAW Pg.RES) 0 = true
        ∧ t.fld Reg.RES_FAULT 31 24 = 0x71))
    ∧ (s.res.dirLoad = none → exec .resDirLoadDone s = .next s)
    ∧ (∀ nodes held, s.res.dirLoad = some (nodes, held) → s.poison = [] → s.readFailed = [] →
      (s.imageCheck nodes held = none → ∃ t, exec .resDirLoadDone s = .next t ∧ t.res.dirLoad = none
        ∧ t.fld Reg.RES_DIR_STAT 1 0 = 2 ∧ t.mem = s.mem
        ∧ (held = false → t.experts = s.fld Reg.RES_DIR 15 0 ∧ t.res.edit = none ∧ t.res.undo = []
          ∧ s.RegsBut [Reg.RES_DIR_STAT, Reg.RES_DIR_LIVE, Reg.RES_HOSTED, Reg.POOL_OVF_MIN, Reg.TALLY_LIFE 0] t
          ∧ ∀ e, e < s.fld Reg.RES_DIR 15 0 → t.dirNow e = s.rdNat (s.fld Reg.RES_DIR 51 16 * 2 ^ 16 + 16 * e) 16)
        ∧ (held = true → t.res.dir = s.res.dir ∧ t.res.heldDir.isSome = true
          ∧ s.RegsBut [Reg.RES_DIR_STAT, Reg.TALLY_LIFE 0] t))
      ∧ (∀ e r cap, s.imageCheck nodes held = some (e, r, cap) → ∃ t, exec .resDirLoadDone s = .next t
        ∧ t.res = { s.res with dirLoad := none } ∧ t.fld Reg.RES_DIR_STAT 1 0 = 3 ∧ t.fld Reg.RES_DIR_STAT 7 4 = r % 16
        ∧ t.fld Reg.RES_DIR_STAT 22 8 = e % 2 ^ 15
        ∧ t.bit (Reg.PAGE_IRQ_RAW (if cap then Pg.AUC else Pg.RES)) 0 = true))
    ∧ (s.Accepts Reg.RES_EDIT v →
      (s.experts ≠ 0 → s.fld Reg.DIRCTL_STAT 2 0 ≠ 1 → s.fld Reg.DIRCTL_STAT 2 0 ≠ 2 → exec (.resEditWrite v) s
        = .next (({ s.readsOver .edits with res := { s.res with
          editPost := some (bits v.toNat 51 12 * 4096, bits v.toNat 11 0 + 1), edit := none } } : State).setReg
            Reg.RES_EDIT_STAT 1#64))
      ∧ (s.experts = 0 ∨ s.fld Reg.DIRCTL_STAT 2 0 = 1 ∨ s.fld Reg.DIRCTL_STAT 2 0 = 2 →
        ∃ t, exec (.resEditWrite v) s = .next t ∧ t.res = s.res ∧ t.bit (Reg.PAGE_IRQ_RAW Pg.RES) 0 = true
          ∧ t.fld Reg.RES_FAULT 31 24 = 0x71))
    ∧ (s.res.editPost = none → exec .resEditCheckDone s = .next s)
    ∧ (∀ base n, s.res.editPost = some (base, n) → s.poison = [] → s.readFailed = [] →
      (∀ edits, s.editCheck .edits (s.editBytes base n) = .ok edits → ∃ t, exec .resEditCheckDone s = .next t
        ∧ t.reg Reg.RES_EDIT_STAT = 2#64 ∧ s.RegsBut [Reg.RES_EDIT_STAT, Reg.TALLY_LIFE 0] t ∧ t.mem = s.mem
        ∧ t.res = { s.res with
          editPost := none
          edit := some { edits := edits, descs := s.descRead s.nextSources (s.descBase false) edits, checkedAt := s.now } })
      ∧ (∀ e r cap, s.editCheck .edits (s.editBytes base n) = .error (e, r, cap) → ∃ t, exec .resEditCheckDone s = .next t
        ∧ t.res = { s.res with editPost := none } ∧ t.fld Reg.RES_EDIT_STAT 2 0 = 4
        ∧ t.fld Reg.RES_EDIT_STAT 22 8 = e % 2 ^ 15
        ∧ t.bit (Reg.PAGE_IRQ_RAW (if cap then Pg.AUC else Pg.RES)) 0 = true))
    ∧ (s.Accepts Reg.RES_DESC v →
      (s.bellState = 0 → exec (.resDescWrite v) s = .next (s.setReg Reg.RES_DESC v))
      ∧ (s.bellState ≠ 0 → s.armed = true → exec (.resDescWrite v) s
        = .next { s with res := { s.res with heldDesc := some (bits v.toNat 51 12 * 4096) } })
      ∧ (s.bellState ≠ 0 → s.armed = false → ∃ t, exec (.resDescWrite v) s = .next t ∧ t.res = s.res
        ∧ t.reg Reg.RES_DESC = s.reg Reg.RES_DESC ∧ t.bit (Reg.PAGE_IRQ_RAW Pg.RES) 0 = true))
    ∧ (s.Accepts Reg.RES_HINT v → exec (.resHintWrite v) s = .next { s with
      res := { s.res with hintPost := some (bits v.toNat 51 12 * 4096, bits v.toNat 7 0 + 1) } })

/-- First the directory entries that no older round still uses are forgotten, and the blocks, descriptors and queued
fetches of experts that are neither hosted nor still used (R24, R247). Then the fetch queued alone leaves the queue:
a block that is no longer wanted just goes; one within its owner's tier 2 and tier 1 quotas, while fewer copies are
in flight than the porter takes, with a place in tier 1 and a source, is FETCHING at that place, with a porter copy
of the block from the source to it (R250, R252, R257). With nothing queued nothing starts. When the copy is over, a
block that arrived whole is RESIDENT, one that could not be read is FAILED (said for a block that no unit of the
tile lists awaits), and one whose job was torn down is ABSENT (R252, R263, R264); without a copy that is over, and
for a block not FETCHING, no block changes. A dead-slice notice is shown in RES_DEAD and noted with its rehoming
bell, and every record held of the dead source leaves bid space (R265, R267); a second notice for the source changes
nothing more. The lead sends the notice of a dead slice of its package once, and acts on it (R265); another slice
sends none. -/
def Obligations.BlocksAreFetched : Prop :=
  ∀ (s u : State) (f : Fetch) (e l a n src m : Nat) (alt : Option Nat) (c : Copy), s.Inv →
    (u = s.pruneUndo.dropUnhosted → u.res.queue = [] → exec .residencyFetchStart s = .next u)
    ∧ (u = s.pruneUndo.dropUnhosted → u.res.queue = [f] → n = dscBytes (u.desc f.expert) →
      (u.fetchStale f = true → exec .residencyFetchStart s = .next { u with res := { u.res with queue := [] } })
      ∧ (u.fetchStale f = false → u.inFlight < copyLimit →
        tGet zeroNat (u.owner f.expert) u.res.t2used + n ≤ u.t2Quota (u.owner f.expert) →
        u.t1Held (u.owner f.expert) + n ≤ u.t1Quota (u.owner f.expert) → u.placeT1 n = some a →
        u.fetchSource f.expert f.layer = some (src, alt) → ∃ t, exec .residencyFetchStart s = .next t ∧ t.res.queue = []
          ∧ t.block f.expert f.layer = { st := 1, addr := a } ∧ t.mem = s.mem
          ∧ t.porter.copies = s.porter.copies ++ [{
              id := s.porter.nextId, unit := 10, job := s.fld Reg.CTX_MODEL 15 0, src := src, dst := a, dstHost := true
              len := n, prio := 3, alt := alt, fromMirror := alt == some src, a := f.expert, b := f.layer }]))
    ∧ ((s.porter.copies.find? fun c => c.unit == 10 && c.a == e && c.b == l && c.ended) = none →
      exec (.residencyFetchDone e l) s = .next s)
    ∧ ((s.porter.copies.find? fun c => c.unit == 10 && c.a == e && c.b == l && c.ended) = some c →
      ∃ t, exec (.residencyFetchDone e l) s = .next t
        ∧ ((∀ p ∈ s.tiles.units, p.2.expert ≠ e ∨ p.2.layer ≠ l) →
          t.porter.copies = s.porter.copies.filter (fun d => d.id != c.id))
        ∧ ((s.block e l).st ≠ 1 → t.res = s.res)
        ∧ ((s.block e l).st = 1 → l < 256 → (c.status = 0 → (t.block e l).st = 2)
          ∧ (c.status = 6 → (∀ p ∈ s.tiles.units, p.2.expert ≠ e ∨ p.2.layer ≠ l) → (t.block e l).st = 3)
          ∧ (c.status = 17 → tRising 0 s.res.blocks = true → (t.block e l).st = 0)))
    ∧ (s.deadNow a = true → exec (.deadNoticeReceive a m) s
      = .next (s.setReg Reg.RES_DEAD (BitVec.ofNat 64 (a % 2 ^ 15 + 2 ^ 15 + m % 2 ^ 48 * 2 ^ 16))))
    ∧ (s.cal.cur = none → s.mus.cur = none → s.siteCal.active = false → s.siteMus.active = false → s.coll.groups = [] →
      (s.deadNow a = false → ∃ t, exec (.deadNoticeReceive a m) s = .next t ∧ s.RegsBut [Reg.RES_DEAD] t ∧ t.mem = s.mem
        ∧ t.reg Reg.RES_DEAD = BitVec.ofNat 64 (a % 2 ^ 15 + 2 ^ 15 + m % 2 ^ 48 * 2 ^ 16)
        ∧ t.res = { s.res with dead := s.res.dead ++ [(a, m)] }
        ∧ t.homeCal.space = s.homeCal.space.filter (fun r => r.src != a)
        ∧ t.homeMus.space = s.homeMus.space.filter (fun r => r.src != a))
      ∧ (indexOfNat (s.node / 8 * 8 + n % 8) s.res.sources = some a → s.isLead = true → s.deadNow a = false →
        ∃ t, exec (.deadNoticeSend n) s = .next t ∧ t.res = { s.res with dead := s.res.dead ++ [(a, s.rehomeBell)] }
          ∧ (s.bit Reg.COLL_LL 0 = true → ∃ q ∈ t.route.queue,
            q.pkt = llPacket s.node s.node 4 0 true 0 0 0 (deadPayload a s.rehomeBell))))
    ∧ (s.isLead = false ∨ indexOfNat (s.node / 8 * 8 + n % 8) s.res.sources = none → exec (.deadNoticeSend n) s = .next s)

/-- A link that carries frames and answers no NAK sends the next frame with its FSEQ and keeps it for replay: with
512 frames kept an empty one without control words; else with the first 6 control words that wait, empty when no
packet waits, and a waiting packet that fits is packed at its start and leaves the output (R288 to R290, R292).
While a NAK is answered it sends a kept frame again (R292). A frame with a bad CRC or length, or touched by an
uncorrectable codeword, is discarded and a NAK goes out with the next frame, the number expected staying as it is;
the frame expected, without control words, and with a packet for another slice that is in order, brings that packet
whole to the router, with what travels beside it over an edge, and the number expected moves on (R289, R292, R307,
R333). A link that neither carries frames nor trains sends and takes none; one that trains sends and takes control
words alone (R290; how is the model's choice, log entry 25). Loss of lock fails a port that carries frames: its
state is FAILED, LINK_DOWN is recorded and its packets go back to the router as they were before their hop (R296). A
port that is DOWN and enabled, of a bound slice, starts training: it is TRAINING and sends IDENT and PROBE; the end
of training makes it UP, or idle as a spare, with its round trip, its far end and full credits, and above 340 ns
LONG (R290, R294, R307, R478). -/
def Obligations.LinksCarryFrames : Prop :=
  ∀ (s : State) (port : Nat) (l : Link) (bytes b : List Byte) (corrected : List (Nat × Nat)) (side : FrameSide) (p : Packet)
    (t0 ack rtt fn fp : Nat), s.Inv → tWf linkNone s.links = true → l = s.link port →
    (s.carries port = false → s.training port = false →
      exec (.linkFrameSend port) s = .next s ∧ exec (.linkFrameReceive port bytes corrected side) s = .next s)
    ∧ (s.carries port = false → s.training port = true →
      exec (.linkFrameSend port) s = .next ((s.linkTally port 0 1).setLink port { l with ctl := l.ctl.drop 6 })
      ∧ (frameOk bytes side.blamed = false → exec (.linkFrameReceive port bytes corrected side) s = .next s)
      ∧ (frameOk bytes side.blamed = true →
        exec (.linkFrameReceive port bytes corrected side) s = .next (s.controlWords port bytes)))
    ∧ (s.carries port = true → l.resend = 0 →
      (512 ≤ l.kept → exec (.linkFrameSend port) s
        = .next ((s.linkTally port 0 1).setLink port { l with
          fseq := (l.fseq + 1) % 4096, resend := 0, nak := false
          replay := l.replay ++ [{
            fseq := l.fseq, bytes := frameBytes8 l.fseq l.expect l.nak 127 [] [], upto := l.streamEnd - l.stream.length
            idle := true }] }))
      ∧ (l.kept < 512 → l.out = [] → l.stream = [] → exec (.linkFrameSend port) s
        = .next ((s.linkTally port 0 1).setLink port { l with
          ctl := l.ctl.drop 6, fseq := (l.fseq + 1) % 4096, resend := 0, nak := false
          replay := l.replay ++ [{
            fseq := l.fseq, bytes := frameBytes8 l.fseq l.expect l.nak 127 (l.ctl.take 6) [], upto := l.streamEnd }] }))
      ∧ (l.kept < 512 → l.out = [(p, t0)] → l.stream = [] → p.cls < 8 → p.dest % 2 ^ 32 ≠ 0 →
        (packetBytes p).length ≤ 960 → ∃ t, exec (.linkFrameSend port) s = .next t ∧ t.regs = s.regs ∧ t.mem = s.mem
          ∧ (t.link port).out = [] ∧ (t.link port).stream = [] ∧ (t.link port).fseq = (l.fseq + 1) % 4096
          ∧ (t.link port).sent = l.sent ++ [(l.streamEnd + (packetBytes p).length, p)]
          ∧ (t.link port).replay = l.replay ++ [{
            fseq := l.fseq, bytes := frameBytes8 l.fseq l.expect l.nak 0 (l.ctl.take 6) (packetBytes p)
            upto := l.streamEnd + (packetBytes p).length }]))
    ∧ (s.carries port = true → 0 < l.resend → l.resend ≤ l.replay.length → ∃ t, exec (.linkFrameSend port) s = .next t
      ∧ (t.link port).resend = l.resend - 1 ∧ (t.link port).fseq = l.fseq ∧ (t.link port).out = l.out
      ∧ (t.link port).replay.length = l.replay.length ∧ t.reg (Reg.TALLY_LIFE 14) = s.reg (Reg.TALLY_LIFE 14) + 1#64)
    ∧ (s.carries port = true →
      (frameOk bytes side.blamed = false →
        ∃ t, exec (.linkFrameReceive port bytes corrected side) s = .next t ∧ t.regs = s.regs ∧ t.route = s.route
          ∧ t.link port = { l with
            nak := true, discarding := true, corrected := (t.link port).corrected, blamed := (t.link port).blamed })
      ∧ (bytes = frameBytes8 l.expect ack false 0 [] b → side.blamed = [] → ack < 4096 → l.expect < 4096 → l.swapIn = none →
        (l.partBytes = none ∨ l.partBytes = some []) →
        b.length = wireLength (fieldAt b 0x0E 2 % 8192) → b.length ≤ 960 → (∃ x ∈ b, x ≠ 0#8) → packetBad b = false →
        p = packetOf b → s.tooOld p = false → (s.inputRefuse port p).isNone = true → takenAtOnce s.node p = false →
        tGet zeroNat (partKey (bufferOf p) (min p.lane 2)) l.inUse + packetUnits p ≤ bufferUnits (bufferOf p) (min p.lane 2) →
        ∃ t, exec (.linkFrameReceive port bytes corrected side) s = .next t ∧ t.regs = s.regs ∧ t.mem = s.mem
          ∧ (t.link port).expect = (l.expect + 1) % 4096
          ∧ t.route.queue = s.route.queue ++ [{
            pkt := { p with
              entryDim := if port < 18 then some (s.portDim s.liveRoute port) else (side.beside.getD 0 (none, 1)).1
              edges := if port < 18 then 0 else (side.beside.getD 0 (none, 1)).2 }
            origin := .port port, since := none, part := p.lane, owes := true }]))
    ∧ (port < 18 → portCarries (s.portState port) = true → ∃ t, exec (.phyLockLoss port) s = .next t ∧ t.portState port = 3
      ∧ t.bit (Reg.PAGE_IRQ_RAW (Pg.LINK port)) 0 = true ∧ (t.link port).out = [] ∧ (t.link port).replay = []
      ∧ t.route.queue = (s.route.queue.map fun q => if q.origin == .port port then { q with owes := false } else q)
        ++ (l.handBack port).map fun p => ⟨p, .again, none, p.lane, false⟩)
    ∧ ((18 ≤ port ∨ portCarries (s.portState port) = false) → exec (.phyLockLoss port) s = .next s)
    ∧ (port < 18 → s.bound = true → s.portState port = 0 → s.bit (Reg.LINK_CTL port) 0 = true →
      ∃ t, exec (.portTrainRetry port) s = .next t ∧ t.regs = (s.setFld (Reg.LINK_STAT port) 2 0 1).regs
        ∧ t.portState port = 1 ∧ t.mem = s.mem ∧ t.route = s.route
        ∧ t.link port = { l with ctl := l.ctl ++ [s.identWord port, probeWord false] })
    ∧ ((18 ≤ port ∨ s.portState port ≠ 0 ∨ s.bound = false ∨ s.bit (Reg.LINK_CTL port) 0 = false) →
      exec (.portTrainRetry port) s = .next s)
    ∧ (port < 18 → s.portState port = 1 → ∃ t, exec (.linkTrainDone port rtt fn fp) s = .next t
      ∧ t.portState port = (if s.role port = 1 then 5 else 2) ∧ t.fld (Reg.LINK_STAT port) 31 20 = min rtt 4095
      ∧ t.bit (Reg.LINK_STAT port) 17 = decide (340 < rtt) ∧ t.fld (Reg.LINK_FAR port) 22 0 = fn % 2 ^ 23
      ∧ t.fld (Reg.LINK_FAR port) 28 24 = fp % 32 ∧ t.link port = { credits := fullCredits }
      ∧ (rtt ≤ 340 → s.RegsBut [Reg.LINK_STAT port, Reg.LINK_FAR port] t)
      ∧ (340 < rtt → t.bit (Reg.PAGE_IRQ_RAW (Pg.LINK port)) 0 = true))
    ∧ ((18 ≤ port ∨ s.portState port ≠ 1) → exec (.linkTrainDone port rtt fn fp) s = .next s)

/-- A packet of this slice with a next hop and room in its window is given the next SEQ of its destination and class
and the epoch in force, is kept until it is acknowledged, and joins the output of that hop (R302, R331, R338). A
packet that came in for this slice, whose trailer holds and that the window accepts, is acknowledged (R304, R305). A
packet without route is discarded with its code in ROUTE_FAULT, and one that came in and has no credit waits, from
its first such turn on (R309, R331, R334, R336). A packet that came in and is too old is discarded where it waits
(R301). A packet that has waited ESC_WAIT since its first turn without a credit and has none still takes its escape
route from then on; any other stays as it is (R309). Where the queue has no such packet nothing happens. -/
def Obligations.PacketsAreForwarded : Prop :=
  ∀ (s : State) (i k : Nat) (q : RQ) (p p' : Packet) (subst : Bool) (code : Nat), s.Inv → tWf linkNone s.links = true →
    (s.route.queue[i]? = none → exec (.packetForward i) s = .next s ∧ exec (.escWaitTimeout i) s = .next s
      ∧ exec (.packetExpiry i) s = .next s)
    ∧ (s.route.queue[i]? = some q →
      (q.origin = .unit → p = { q.pkt with epoch := s.epoch } → s.epochMiss p = false → windowed p = true → p.cls ≠ 1 →
        s.hopFor p = .go k p' subst → s.windowFull p' = false → ∃ t x o, exec (.packetForward i) s = .next t
          ∧ t.route.queue = s.route.queue.eraseIdx i ∧ (t.link k).out = (s.link k).out ++ [(x, s.now)]
          ∧ x.dest = q.pkt.dest ∧ x.cls = q.pkt.cls ∧ x.type = q.pkt.type ∧ x.payload = q.pkt.payload ∧ x.epoch = s.epoch
          ∧ x.seq = tGet zeroNat (pairCls q.pkt.dest q.pkt.cls) s.e2e.next ∧ x.hops = p'.hops ∧ x.lane = p'.lane
          ∧ t.e2e.outst = s.e2e.outst ++ [o] ∧ o.dest = q.pkt.dest ∧ o.cls = q.pkt.cls ∧ o.seq = x.seq
          ∧ o.pkt.payload = q.pkt.payload)
      ∧ (∀ port, q.origin = .port port → s.tooOld q.pkt = false → q.pkt.dest = s.node → windowed q.pkt = true →
        s.epochMiss q.pkt = false → s.trailerOk q.pkt = true → s.reorderFull q.pkt = false →
        s.windowVerdict q.pkt.src q.pkt.cls q.pkt.seq = .accept → (q.pkt.cls = 0 ∨ s.jobAccepted q.pkt.job = true) →
        ∃ t x base, exec (.packetForward i) s = .next t ∧ t.route.queue = s.route.queue.eraseIdx i ++ [x]
          ∧ x.pkt.dest = q.pkt.src ∧ x.pkt.cls = 7 ∧ x.pkt.type = 0
          ∧ x.pkt.payload = ackRecord base q.pkt.seq q.pkt.cls 0)
      ∧ (q.origin ≠ .unit → s.tooOld q.pkt = false → s.epochMiss q.pkt = false → s.hopFor q.pkt = .drop code →
        ∃ t, exec (.packetForward i) s = .next t ∧ t.route.queue = s.route.queue.eraseIdx i
          ∧ t.fld Reg.ROUTE_FAULT 22 0 = q.pkt.dest % 2 ^ 23 ∧ (code < 256 → t.fld Reg.ROUTE_FAULT 31 24 = code)
          ∧ t.bit (Reg.PAGE_IRQ_RAW Pg.ROUTE) 0 = true)
      ∧ (q.origin ≠ .unit → s.tooOld q.pkt = false → s.epochMiss q.pkt = false → s.hopFor q.pkt = .wait →
        exec (.packetForward i) s = .next { s with route := { s.route with
          queue := modNth i (fun x => { x with since := some (x.since.getD s.now) }) s.route.queue } })
      ∧ (q.origin ≠ .unit → s.tooOld q.pkt = true → ∃ t, exec (.packetForward i) s = .next t
        ∧ t.route.queue = s.route.queue.eraseIdx i ∧ exec (.packetExpiry i) s = .next t)
      ∧ ((q.origin = .unit ∨ s.tooOld q.pkt = false) → exec (.packetExpiry i) s = .next s)
      ∧ (∀ t0, q.pkt.esc = false → q.since = some t0 → t0 + 8 * s.fld (Reg.LINK_E2E 0) 39 32 ≤ s.now → s.hopFor q.pkt = .wait →
        ∃ t, exec (.escWaitTimeout i) s = .next t ∧ t.regs = s.regs ∧ t.links = s.links
          ∧ t.route = { s.route with
            queue := modNth i (fun _ => { q with pkt := { q.pkt with esc := true } }) s.route.queue })
      ∧ ((q.pkt.esc = true ∨ q.since = none ∨ (∃ t0, q.since = some t0 ∧ s.now < t0 + 8 * s.fld (Reg.LINK_E2E 0) 39 32)
          ∨ s.hopFor q.pkt ≠ .wait) → exec (.escWaitTimeout i) s = .next s))

/-- With no packet held back or sent again for a NAK, an ACK completes every packet outstanding to its sender in its
class with a SEQ below BASE, and the SEQ it names; a packet that a NAK_SPAN holds back goes out again when BASE
comes near (R302, R305). A NAK_CRC sends the packet it names again and notes its time, and is ignored where it names
none; a NAK_SPAN marks it (R302, R304). A BARROW record for a return barrow lets the site give up its copies; for
the last forward barrow of a half it ends the forward interval (R68, R305). A SKIP is taken like a packet that
arrived: it is acknowledged, and its SEQ counts as received from then on (R303). Records of KIND 5 to 7 are dropped
and counted (R305). A packet without acknowledgement goes out again, up to RETRIES times (R302); after that and a
further wait E2E_LOST is recorded with the packet in LINK_E2E_STAT, the packet is skipped and a SKIP sent, again and
again until an ACK has come (R303); a timer that finds its packet complete only counts in LATE_MARGIN (R87). -/
def Obligations.WindowsAndAcknowledgements : Prop :=
  ∀ (s : State) (src : Node) (rec : List Byte) (cls seq base : Nat) (o : Outst), s.Inv →
    cls = ackCls rec → seq = ackSeq rec → base = ackBase rec →
    (5 ≤ ackKind rec → ∀ c ∈ [Instr.ackReceive src rec, .nakCrcReceive src rec, .nakSpanReceive src rec,
      .barrowAckReceive src rec, .skipReceive src rec], exec c s = .next (s.tallyAdd (Pg.LINK 0) 17 1))
    ∧ (ackKind rec = 0 →
      ((∀ o ∈ s.e2e.outst, o.span = false ∧ o.nakAt = none) → exec (.ackReceive src rec) s = .next { s with e2e := { s.e2e with
        outst := s.e2e.outst.filter fun o => !(o.dest == src && o.cls == cls
          && (decide (1 ≤ (base + 65536 - o.seq) % 65536 ∧ (base + 65536 - o.seq) % 65536 ≤ 32768)
            || (o.seq == seq && !o.skipped))) } })
      ∧ (s.e2e.outst = [o] → o.dest = src → o.cls = cls → o.seq ≠ seq → o.span = true →
        (o.seq + 65536 - base) % 65536 < 1024 → o.seq < 65536 → exec (.ackReceive src rec) s
          = .next (({ s with e2e := { s.e2e with outst := [{ o with span := false }] } } : State).resend o)))
    ∧ (ackKind rec = 1 → (s.outstOf src cls seq = none → exec (.nakCrcReceive src rec) s = .next s)
      ∧ (s.outstOf src cls seq = some o → o.skipped = false → exec (.nakCrcReceive src rec) s
        = .next ((s.modOutst src o.cls o.seq fun o => { o with nakAt := some (o.nakAt.getD s.now) }).resend o)))
    ∧ (ackKind rec = 2 → exec (.nakSpanReceive src rec) s = .next { s with e2e := { s.e2e with
      outst := s.e2e.outst.map fun o =>
        if o.dest == src && o.cls == cls && o.seq == seq then { o with span := true } else o } })
    ∧ (ackKind rec = 3 →
      (bits (leNat (rec.take 8)) 47 47 = 1 → ∃ t, exec (.barrowAckReceive src rec) s = .next t
        ∧ t = { s with tok := { s.tok with kept := t.tok.kept } }
        ∧ ∀ c, c ∈ t.tok.kept ↔ c ∈ s.tok.kept ∧ ¬(c.dest = src ∧ tDir c.tag = 1
          ∧ tHalf c.tag = (halfOf (bits (leNat (rec.take 8)) 46 46)).num ∧ c.bell % 256 = bits (leNat (rec.take 8)) 55 48
          ∧ tLayer c.tag = bits (leNat (rec.take 8)) 45 38))
      ∧ (∀ h a r site, bits (leNat (rec.take 8)) 47 47 = 0 → h = halfOf (bits (leNat (rec.take 8)) 46 46) →
        s.curRound h = some (a, r) → a.bell % 256 = bits (leNat (rec.take 8)) 55 48 →
        r.layer = bits (leNat (rec.take 8)) 45 38 → indexOfNat src (s.sourcesAt a.bell) = some site → r.unacked = [site] →
        ∃ t r', exec (.barrowAckReceive src rec) s = .next t ∧ (t.half h).cur = some r' ∧ r'.unacked = []
          ∧ r'.fwdEnd = some s.now ∧ r'.layer = r.layer))
    ∧ (ackKind rec = 4 → tWf (fun _ => ({} : RxWin)) s.e2e.rx = true →
      (s.windowVerdict src cls seq = .accept → (s.rxWin src cls).base < 65536 → cls ≠ 1 → ∃ t x, exec (.skipReceive src rec) s = .next t
        ∧ t.route.queue = s.route.queue ++ [x] ∧ x.pkt.dest = src ∧ x.pkt.cls = 7 ∧ x.pkt.type = 0
        ∧ t.windowVerdict src cls seq = .duplicate ∧ s.RegsBut [Reg.LINK_E2E_STAT 0] t)
      ∧ (s.windowVerdict src cls seq = .duplicate → exec (.skipReceive src rec) s
        = .next ((s.acknowledge src cls seq 0).tallyAdd (Pg.LINK 0) 15 1)))
    ∧ (s.outstOf src cls seq = none → ∀ c ∈ [Instr.retxTimeout src cls seq, .e2eLost src cls seq, .skipResend src cls seq],
      exec c s = .next s.lateMargin)
    ∧ (s.outstOf src cls seq = some o →
      (o.skipped = false → o.tries < s.fld (Reg.LINK_E2E 0) 14 12 → exec (.retxTimeout src cls seq) s
          = .next ((s.modOutst src cls seq fun o => { o with tries := o.tries + 1 }).resend o)
        ∧ exec (.e2eLost src cls seq) s = .next s ∧ exec (.skipResend src cls seq) s = .next s)
      ∧ (o.skipped = false → s.fld (Reg.LINK_E2E 0) 14 12 ≤ o.tries → exec (.retxTimeout src cls seq) s = .next s
        ∧ ∃ t, exec (.e2eLost src cls seq) s = .next t ∧ t.bit (Reg.PAGE_IRQ_RAW (Pg.LINK 0)) 0 = true
          ∧ t.fld (Reg.LINK_E2E_STAT 0) 34 12 = src % 2 ^ 23 ∧ t.fld (Reg.LINK_E2E_STAT 0) 37 35 = cls
          ∧ t.fld (Reg.LINK_E2E_STAT 0) 53 38 = seq
          ∧ t.e2e.outst = s.e2e.outst.map (fun o =>
            if o.dest == src && o.cls == cls && o.seq == seq then { o with skipped := true } else o)
          ∧ ∃ x ∈ t.route.queue, x.pkt.dest = src ∧ x.pkt.cls = 7 ∧ x.pkt.payload = ackRecord 0 seq cls 4)
      ∧ (o.skipped = true → exec (.retxTimeout src cls seq) s = .next s ∧ exec (.e2eLost src cls seq) s = .next s
        ∧ exec (.skipResend src cls seq) s = .next (s.sendAck src (ackRecord 0 seq cls 4))))

/-- DISC_IDENT and DISC_INCARN take their first accepted write; a later one is dropped with ALREADY_WRITTEN (R318).
A write of DISC_CTL with START needs both of them: without, it is dropped with NOT_IDENTIFIED; with, an idle
discovery starts, state ELECTING, with the slice its own coordinator while no report stands (R318, R320). A write of
DISC_NODE that names another slice, that changes or invalidates a VALID node while the bell is not STOPPED, or whose
domain and package differ from the lead's, is dropped; any other takes effect with SOURCE 1 (R322). The ID that the
package's lead hands on takes effect, under the same checks, while AUTO is 1 and the slice has none: SOURCE 2, state
ASSIGNED and version 0 of its route table LIVE (R321). ELECT goes out once on every port of discovery, and after 8
periods without change the state is SETTLED (R319, R320). A report of a smaller identity within the TTL makes it the
coordinator, its hops one more and its port the parent (R320); a report that ages out is forgotten, and without
reports the slice is its own coordinator. A message on a gateway-role port is discarded and recorded (R319). -/
def Obligations.IdentityAndElection : Prop :=
  ∀ (s : State) (v : W64) (w : NodeWriter) (port : Nat) (b : List Byte) (r : Report) (bad : Prop), s.Inv →
    (∀ c ∈ [(Instr.discIdentWrite v, Reg.DISC_IDENT), (.discIncarnWrite v, Reg.DISC_INCARN)], s.Accepts c.2 v →
      (c.2 ∈ s.start.onceWritten → ∃ t, exec c.1 s = .next t ∧ s.Records Pg.DISC 0x9A (dropDetail c.2 false) t)
      ∧ (c.2 ∉ s.start.onceWritten → exec c.1 s
        = .next (({ s with start := { s.start with onceWritten := c.2 :: s.start.onceWritten } } : State).setReg c.2 v)))
    ∧ (s.Accepts Reg.DISC_CTL v →
      (bits v.toNat 0 0 = 0 → exec (.discStart v) s = .next (s.setReg Reg.DISC_CTL v))
      ∧ (bits v.toNat 0 0 = 1 → (Reg.DISC_IDENT ∉ s.start.onceWritten ∨ Reg.DISC_INCARN ∉ s.start.onceWritten) →
        ∃ t, exec (.discStart v) s = .next t ∧ s.Records Pg.DISC 0x9B (dropDetail Reg.DISC_CTL false) t)
      ∧ (bits v.toNat 0 0 = 1 → Reg.DISC_IDENT ∈ s.start.onceWritten → Reg.DISC_INCARN ∈ s.start.onceWritten →
        s.discRuns = false → ∃ t, exec (.discStart v) s = .next t ∧ t.reg Reg.DISC_CTL = v ∧ t.fld Reg.DISC_STAT 1 0 = 1
          ∧ s.RegsBut [Reg.DISC_CTL, Reg.DISC_STAT, Reg.DISC_COORD] t ∧ s.SameMemory t
          ∧ (s.disc.reports = [] → t.reg Reg.DISC_COORD = s.reg Reg.DISC_IDENT ∧ t.bit Reg.DISC_STAT 12 = true))
      ∧ (Reg.DISC_IDENT ∈ s.start.onceWritten → Reg.DISC_INCARN ∈ s.start.onceWritten → s.discRuns = true →
        exec (.discStart v) s = .next (s.setReg Reg.DISC_CTL v)))
    ∧ (s.Accepts Reg.DISC_NODE v →
      (bad ↔ bits v.toNat 2 0 ≠ s.slice
        ∨ (s.nodeValid = true ∧ s.bellState ≠ 0 ∧ (bits v.toNat 22 0 ≠ s.node ∨ bits v.toNat 23 23 = 0))
        ∨ (s.isLead = false ∧ ∃ n, w.lead = some n ∧ n / 8 ≠ bits v.toNat 22 3)) →
      (bad → ∃ t, exec (.discNodeWrite v w) s = .next t
        ∧ ({ s with disc := { s.disc with leadId := w.lead } } : State).Records Pg.DISC 0x9C (dropDetail Reg.DISC_NODE false) t)
      ∧ (¬bad → w.auto = false → exec (.discNodeWrite v w) s
        = .next (({ s with disc := { s.disc with leadId := w.lead } } : State).setReg Reg.DISC_NODE
          (BitVec.ofNat 64 (bits v.toNat 23 0 + bits v.toNat 23 23 * 2 ^ 24))))
      ∧ (¬bad → w.auto = true → s.bit Reg.DISC_CTL 1 = true → s.nodeValid = false → ∃ t, exec (.discNodeWrite v w) s = .next t
        ∧ t.nodeValid = true ∧ t.node = bits v.toNat 22 0 ∧ t.fld Reg.DISC_NODE 25 24 = 2 ∧ t.fld Reg.DISC_STAT 1 0 = 3
        ∧ t.route.v0.st = 3 ∧ s.RegsBut [Reg.DISC_NODE, Reg.DISC_STAT, Reg.ROUTE_STAT] t ∧ s.SameMemory t)
      ∧ (¬bad → w.auto = true → (s.bit Reg.DISC_CTL 1 = false ∨ s.nodeValid = true) →
        exec (.discNodeWrite v w) s = .next { s with disc := { s.disc with leadId := w.lead } }))
    ∧ (s.discRuns = false → exec .electSend s = .next s)
    ∧ (s.discRuns = true → s.disc.reports = [] → s.disc.best = s.ident → tWf linkNone s.links = true →
      ∃ t, exec .electSend s = .next t ∧ t.disc.stable = s.disc.stable + 1
        ∧ (s.fld Reg.DISC_STAT 1 0 = 1 → t.fld Reg.DISC_STAT 1 0 = if 8 ≤ s.disc.stable + 1 then 2 else 1)
        ∧ s.RegsBut [Reg.DISC_STAT, Reg.DISC_COORD] t ∧ s.SameMemory t
        ∧ (∀ p ∈ s.discPorts, State.LinkGets p s t fun x => x.cls = 0 ∧ x.type = 1 ∧ x.payload = t.electPayload)
        ∧ ∀ p, p ∉ s.discPorts → t.link p = s.link p)
    ∧ (port < 18 → s.role port = 2 → ∃ t, exec (.electReceive port b) s = .next t ∧ s.Records Pg.DISC 0x9E 0 t)
    ∧ ((18 ≤ port ∨ s.role port ≠ 2) → s.discRuns = false → exec (.electReceive port b) s = .next s)
    ∧ (port < 18 → s.role port ≠ 2 → s.discRuns = true → s.disc.reports = [] → fieldAt b 8 8 < s.ident →
      fieldAt b 16 1 + 1 ≤ s.discTtl → ∃ t, exec (.electReceive port b) s = .next t
        ∧ t.regNat Reg.DISC_COORD = fieldAt b 8 8 ∧ t.fld Reg.DISC_STAT 6 2 = fieldAt b 16 1 + 1
        ∧ t.fld Reg.DISC_STAT 11 7 = port ∧ t.bit Reg.DISC_STAT 12 = false ∧ t.disc.reports = [(port, ⟨fieldAt b 8 8, fieldAt b 16 1, s.now⟩)]
        ∧ s.RegsBut [Reg.DISC_STAT, Reg.DISC_COORD] t ∧ s.SameMemory t
        ∧ (s.disc.best ≠ fieldAt b 8 8 → t.fld Reg.DISC_STAT 1 0 = 1 ∧ t.disc.claims = [] ∧ t.disc.stable = 0))
    ∧ (port < 18 → s.role port ≠ 2 → s.discRuns = true → s.disc.reports = [] → s.ident ≤ fieldAt b 8 8 →
      ∃ t, exec (.electReceive port b) s = .next t ∧ t.reg Reg.DISC_COORD = s.reg Reg.DISC_IDENT
        ∧ t.bit Reg.DISC_STAT 12 = true ∧ t.disc.reports = [(port, ⟨fieldAt b 8 8, fieldAt b 16 1, s.now⟩)])
    ∧ (tFind port s.disc.reports = none → exec (.electReportExpire port) s = .next s)
    ∧ (tFind port s.disc.reports = some r →
      (s.now < r.at_ + 3 * s.electNs → exec (.electReportExpire port) s = .next s)
      ∧ (r.at_ + 3 * s.electNs ≤ s.now → ∃ t, exec (.electReportExpire port) s = .next t
        ∧ t.disc.reports = tDel port s.disc.reports ∧ s.RegsBut [Reg.DISC_STAT, Reg.DISC_COORD] t
        ∧ (s.disc.reports = [(port, r)] → s.discRuns = true →
          t.reg Reg.DISC_COORD = s.reg Reg.DISC_IDENT ∧ t.bit Reg.DISC_STAT 12 = true)))

/-- A settled lead without a node ID claims one while AUTO is 1: a coordinator keeps the claim, any other slice
sends it by its parent port, and a claim of an identity already kept changes nothing (R321). After 16 ELECT periods
without a new claim the coordinator numbers every kept claim, no number twice, those that hold one keeping it, and
sends ASSIGN on every port; earlier nothing happens (R321). An ASSIGN record not seen before goes on by every other
port, and gives the lead it names its node ID with SOURCE 2, state ASSIGNED and version 0 of its route table LIVE
(R321). A slice with a node ID floods its beacon with the next sequence number (R323). A beacon that is newer, of
the own domain and of another node is stored, its port records before its head, and goes on with its TTL one less;
one of an incarnation that changed clears what is outstanding to the node and what of its requests is parked, which
are numbered from 0 again; one that is older only counts, and one of a foreign domain is recorded (R323 to R325). An
entry not updated for 3 periods is no longer FRESH (R324). -/
def Obligations.AssignmentAndBeacons : Prop :=
  ∀ (s : State) (port n : Nat) (b r : List Byte) (e : Lsb), s.Inv → tWf linkNone s.links = true →
    (s.isLead = true → s.bit Reg.DISC_CTL 1 = true → s.nodeValid = false → 2 ≤ s.fld Reg.DISC_STAT 1 0 →
      (s.bit Reg.DISC_STAT 12 = true → (∀ d ∈ s.disc.claims, d.ident ≠ s.ident) → exec .claimSend s
        = .next { s with disc := { s.disc with
            claims := s.disc.claims ++ [⟨s.ident, s.fld Reg.EBS_CFG 7 4, s.fld Reg.DISC_CTL 35 28, 0xFFFF, none⟩]
            lastClaim := s.now } })
      ∧ (s.bit Reg.DISC_STAT 12 = false → ∃ t, exec .claimSend s = .next t ∧ t = { s with links := t.links }
        ∧ State.LinkGets (s.fld Reg.DISC_STAT 11 7) s t fun x => x.cls = 0 ∧ x.type = 2 ∧ x.payload.length = 32
          ∧ fieldAt x.payload 0 8 = s.ident ∧ fieldAt x.payload 10 2 = 0xFFFF))
    ∧ ((s.isLead = false ∨ s.bit Reg.DISC_CTL 1 = false ∨ s.nodeValid = true ∨ s.fld Reg.DISC_STAT 1 0 < 2) →
      exec .claimSend s = .next s)
    ∧ (port < 18 → s.role port = 2 → ∀ c ∈ [Instr.claimReceive port b, .assignReceive port b, .lsbReceive port b],
      ∃ t, exec c s = .next t ∧ s.Records Pg.DISC 0x9E 0 t)
    ∧ ((18 ≤ port ∨ s.role port ≠ 2) → s.discRuns = true → s.bit Reg.DISC_STAT 12 = true →
      ((∀ d ∈ s.disc.claims, d.ident ≠ fieldAt b 0 8) → exec (.claimReceive port b) s
        = .next { s with disc := { s.disc with
            claims := s.disc.claims ++ [⟨fieldAt b 0 8, fieldAt b 8 1, fieldAt b 9 1, fieldAt b 10 2, none⟩]
            lastClaim := s.now } })
      ∧ ((∃ d ∈ s.disc.claims, d.ident = fieldAt b 0 8) → exec (.claimReceive port b) s = .next s))
    ∧ ((18 ≤ port ∨ s.role port ≠ 2) → s.discRuns = true → s.bit Reg.DISC_STAT 12 = false →
      ∃ t, exec (.claimReceive port b) s = .next t ∧ t = { s with links := t.links }
        ∧ State.LinkGets (s.fld Reg.DISC_STAT 11 7) s t fun x => x.cls = 0 ∧ x.type = 2 ∧ x.payload = b)
    ∧ ((s.bit Reg.DISC_STAT 12 = false ∨ (∀ c ∈ s.disc.claims, c.number.isSome = true)
        ∨ s.now < s.disc.lastClaim + 16 * s.electNs) → exec .assignNumbering s = .next s)
    ∧ (s.bit Reg.DISC_STAT 12 = true → (∃ c ∈ s.disc.claims, c.number = none) →
      s.disc.lastClaim + 16 * s.electNs ≤ s.now → s.disc.claims.length ≤ 32 → (s.disc.claims.map (·.ident)).Nodup →
      (s.disc.claims.filterMap (·.number)).Nodup → ∃ t, exec .assignNumbering s = .next t
        ∧ t.disc.claims.length = s.disc.claims.length ∧ (∀ c ∈ t.disc.claims, c.number.isSome = true)
        ∧ (t.disc.claims.filterMap (·.number)).Nodup
        ∧ (∀ c ∈ s.disc.claims, ∃ d ∈ t.disc.claims, d.ident = c.ident ∧ (c.number.isSome = true → d = c))
        ∧ t.fld Reg.DISC_STAT 41 29 = s.disc.claims.length ∧ s.SameMemory t
        ∧ ∀ p ∈ s.discPorts, State.LinkGets p s t fun x => x.type = 3
          ∧ fieldAt x.payload 0 16 = (s.disc.claims.filter fun c => c.number.isNone).length)
    ∧ ((18 ≤ port ∨ s.role port ≠ 2) → assignRecords b = [r] →
      ((fieldAt r 0 8, fieldAt r 8 2, fieldAt r 10 2) ∈ s.disc.seen → exec (.assignReceive port b) s = .next s)
      ∧ ((fieldAt r 0 8, fieldAt r 8 2, fieldAt r 10 2) ∉ s.disc.seen → ∃ t, exec (.assignReceive port b) s = .next t
        ∧ t.disc.seen = (fieldAt r 0 8, fieldAt r 8 2, fieldAt r 10 2) :: s.disc.seen ∧ s.SameMemory t
        ∧ (∀ p ∈ s.discPorts, p ≠ port → State.LinkGets p s t fun x => x.type = 3 ∧ fieldAt x.payload 0 16 = 1)
        ∧ t.link port = s.link port
        ∧ (s.isLead = true → s.bit Reg.DISC_CTL 1 = true → s.nodeValid = false → fieldAt r 0 8 = s.ident → s.slice < 8 →
          t.nodeValid = true ∧ t.fld Reg.DISC_NODE 25 24 = 2 ∧ t.node
            = fieldAt r 8 2 % 256 * 2 ^ 15 + fieldAt r 10 2 % 4096 * 2 ^ 3 + s.slice
          ∧ t.fld Reg.DISC_STAT 1 0 = 3 ∧ t.route.v0.st = 3
          ∧ s.RegsBut [Reg.DISC_NODE, Reg.DISC_STAT, Reg.ROUTE_STAT] t)
        ∧ (fieldAt r 0 8 ≠ s.ident → t.regs = s.regs)))
    ∧ (s.nodeValid = false → exec .lsbOriginate s = .next s)
    ∧ (s.nodeValid = true → ∃ t, exec .lsbOriginate s = .next t ∧ t.disc.lsbSeq = (s.disc.lsbSeq + 1) % 2 ^ 32
      ∧ t = { s with disc := t.disc, links := t.links }
      ∧ ∀ p ∈ s.discPorts, State.LinkGets p s t fun x => x.type = 4 ∧ fieldAt x.payload 0 8 = s.ident
        ∧ fieldAt x.payload 8 4 = s.node ∧ fieldAt x.payload 0x10 4 = t.disc.lsbSeq)
    ∧ ((18 ≤ port ∨ s.role port ≠ 2) → n = fieldAt b 8 4 →
      (nodeDomain n ≠ s.domain → ∃ t, exec (.lsbReceive port b) s = .next t ∧ s.Records Pg.DISC 0x9E 0 t)
      ∧ (nodeDomain n = s.domain → (s.nodeValid = true ∧ n = s.node ∨ (tFind n s.disc.lsdb = some e
          ∧ fieldAt e.payload 0x0C 4 = fieldAt b 0x0C 4 ∧ fieldAt e.payload 0x10 4 = fieldAt b 0x10 4)) →
        exec (.lsbReceive port b) s = .next (s.tallyAdd Pg.DISC 1 1))
      ∧ (nodeDomain n = s.domain → (s.nodeValid = false ∨ n ≠ s.node) → (tFind n s.disc.lsdb = none
          ∨ (tFind n s.disc.lsdb = some e ∧ fieldAt e.payload 0x0C 4 ≠ fieldAt b 0x0C 4)) →
        ∃ t, exec (.lsbReceive port b) s = .next t ∧ t.disc.lsdb = tPut n ⟨b.take 0xB0, s.now, true⟩ s.disc.lsdb
          ∧ (s.fld Reg.DISC_LSDB 51 23 = 0 → s.SameMemory t)
          ∧ (∀ a, s.lsdbAddr n = some a → t.rd (a + 0x20) 224 = padTo 224 ((b.take 0xB0).drop 0x20)
            ∧ s.MemoryBut (a + 0x20) 224 t)
          ∧ (∀ p ∈ s.discPorts, p ≠ port → 1 < fieldAt b 0x16 1 → State.LinkGets p s t fun x => x.type = 4
            ∧ fieldAt x.payload 0x16 1 = fieldAt b 0x16 1 - 1)
          ∧ (fieldAt b 0x16 1 ≤ 1 → t.links = s.links)
          ∧ t.e2e.outst = (if tFind n s.disc.lsdb = none then s.e2e.outst
            else s.e2e.outst.filter fun o => o.dest != n)
          ∧ (tFind n s.disc.lsdb ≠ none → t.msem.nextSeq = tDel n s.msem.nextSeq
            ∧ t.msem.parked = s.msem.parked.filter fun x => x.src != n)))
    ∧ (tFind n s.disc.lsdb = none → exec (.lsdbFreshExpire n) s = .next s)
    ∧ (tFind n s.disc.lsdb = some e →
      ((e.fresh = false ∨ s.now ≤ e.updated + 3000000 * s.fld Reg.DISC_CTL 27 18) →
        exec (.lsdbFreshExpire n) s = .next s)
      ∧ (e.fresh = true → e.updated + 3000000 * s.fld Reg.DISC_CTL 27 18 < s.now → 0x15 ≤ e.payload.length →
        ∃ t, exec (.lsdbFreshExpire n) s = .next t ∧ t.disc.lsdb = tPut n { e with fresh := false } s.disc.lsdb
          ∧ (∀ a, s.lsdbAddr n = some a → (t.rdByte (a + 0x15)).toNat % 2 = 0 ∧ s.MemoryBut a 32 t)
          ∧ (s.lsdbAddr n = none → s.SameMemory t)))

/-- Only a MANAGER slice sends a path operation: it is read from memory and leaves by its first out-port with index
1; with a count that is no count, or by a port that discovery does not use, nothing leaves (R326), nor when it is
poisoned, which records MEM_UE (R35; that it does not leave is the model's choice, assumption 52). At a hop on the
way the entry port is written down and the operation goes on by the out-port of that hop with the index one further
(R327). At its target a read answers with the register's value and marks what that read marks, and a write has the
effect of the same write by the register port; the answer goes back by the port it came by (R326, R327). A reply
goes back one hop, and at the origin it is written over the operation and raises the DISC vector; a timeout writes
the status TIMEOUT and one that finds the reply there only counts in LATE_MARGIN (R87, R327). Manager mail is
written to the next 256 B entry of the ring, the head moves on and the DISC vector is raised; with no room it is
dropped and counted (R328). -/
def Obligations.PathOperationsAndMail : Prop :=
  ∀ (s u : State) (v : W64) (port n i a r : Nat) (b : List Byte), s.Inv → tWf linkNone s.links = true →
    (s.Accepts Reg.DISC_PATH v →
      (s.bit Reg.DISC_CTL 2 = false → ∃ t, exec (.pathOpSend v) s = .next t ∧ s.Records Pg.DISC 0x9E 0 t)
      ∧ (s.bit Reg.DISC_CTL 2 = true → s.poisoned (bits v.toNat 51 6 * 64) 64 = true → ∃ t, exec (.pathOpSend v) s = .next t
        ∧ t.disc.pathAddr = some (bits v.toNat 51 6 * 64) ∧ t.links = s.links ∧ s.SameMemory t
        ∧ t.bit (Reg.PAGE_IRQ_RAW Pg.MEMP) 0 = true)
      ∧ (s.bit Reg.DISC_CTL 2 = true → a = bits v.toNat 51 6 * 64 → s.poisoned a 64 = false → n = fieldAt (s.rd a 64) 0 1 → 
        port = fieldAt (s.rd a 64) 0x10 1 → ∃ t, exec (.pathOpSend v) s = .next t ∧ t.disc.pathAddr = some a
          ∧ s.RegsBut [Reg.TALLY_LIFE 0] t ∧ s.SameMemory t
          ∧ (1 ≤ n → n ≤ 8 → port ∈ s.discPorts → State.LinkGets port s t fun x => x.type = 5
            ∧ x.payload = setByte 1 1 (s.rd a 64))
          ∧ ((n = 0 ∨ 8 < n ∨ port ∉ s.discPorts) → t.links = s.links)))
    ∧ (port < 18 → s.role port = 2 → ∃ t, exec (.pathOpReceive port b) s = .next t ∧ s.Records Pg.DISC 0x9E 0 t)
    ∧ ((18 ≤ port ∨ s.role port ≠ 2) → n = fieldAt b 0 1 → i = fieldAt b 1 1 → b.length = 64 →
      ((n = 0 ∨ 8 < n ∨ n < i) → exec (.pathOpReceive port b) s = .next s)
      ∧ (1 ≤ n → n ≤ 8 → i ≤ n →
        (bits (fieldAt b 2 1) 1 1 = 0 →
          (i = 0 → exec (.pathOpReceive port b) s = .next s)
          ∧ (0 < i → i < n →
            (fieldAt b (0x10 + i) 1 ∉ s.discPorts → exec (.pathOpReceive port b) s = .next s)
            ∧ (fieldAt b (0x10 + i) 1 ∈ s.discPorts → ∃ t, exec (.pathOpReceive port b) s = .next t
              ∧ t = { s with links := t.links } ∧ State.LinkGets (fieldAt b (0x10 + i) 1) s t fun x => x.type = 5
                ∧ x.payload = setByte 1 (i + 1) (setByte (0x18 + (i - 1)) port b)))
          ∧ (i = n → port ∈ s.discPorts → pathReg b = some r → r % 8 = 0 →
            (bits (fieldAt b 2 1) 0 0 = 0 → ∃ t, exec (.pathOpReceive port b) s = .next t
              ∧ t = { (s.regRead r).2 with links := t.links }
              ∧ State.LinkGets port s t fun x => x.type = 5 ∧ fieldAt x.payload 1 1 = i - 1 ∧ fieldAt x.payload 2 1 = 2
                ∧ fieldAt x.payload 3 1 = 0 ∧ fieldAt x.payload 0x28 8 = (s.regRead r).1.toNat)
            ∧ (bits (fieldAt b 2 1) 0 0 = 1 → s.bound = true → s.slice < 8 → s.bit Reg.PKG_SLICES (16 + s.slice) = false →
              exec (.registerWrite (sliceOffset s.slice r) 8 (BitVec.ofNat 64 (fieldAt b 0x28 8))) s = .next u →
              ∃ t, exec (.pathOpReceive port b) s = .next t ∧ t = { u with links := t.links })))
        ∧ (bits (fieldAt b 2 1) 1 1 = 1 →
          (i = 0 → exec (.pathOpReceive port b) s = exec (.pathOpReplyReceive b) s)
          ∧ (0 < i → fieldAt b (0x18 + (i - 1)) 1 ∈ s.discPorts → ∃ t, exec (.pathOpReceive port b) s = .next t
            ∧ t = { s with links := t.links }
            ∧ State.LinkGets (fieldAt b (0x18 + (i - 1)) 1) s t fun x => x.type = 5 ∧ x.payload = setByte 1 (i - 1) b))))
    ∧ (s.disc.pathAddr = none → exec (.pathOpReplyReceive b) s = .next s
      ∧ exec .pathOpTimeout s = .next (s.tallyAdd Pg.BELL 3 1))
    ∧ (s.disc.pathAddr = some a → a + 64 ≤ memSpace →
      (b.length = 64 → ∃ t, exec (.pathOpReplyReceive b) s = .next t ∧ t.disc.pathAddr = none ∧ t.rd a 64 = b
        ∧ s.MemoryBut a 64 t ∧ t.bit (Reg.PAGE_IRQ_RAW Pg.DISC) 2 = true
        ∧ s.RegsBut [Reg.PAGE_IRQ_RAW Pg.DISC, Reg.IRQ_PEND, Reg.TALLY_LIFE 1] t)
      ∧ (∃ t, exec .pathOpTimeout s = .next t ∧ t.disc.pathAddr = none ∧ t.rdByte (a + 3) = 3#8 ∧ s.MemoryBut (a + 3) 1 t
        ∧ s.RegsBut [Reg.TALLY_LIFE 1] t))
    ∧ (n = (s.fld Reg.DISC_MAIL_HEAD 47 32 + 65536 - s.fld Reg.DISC_MAIL_HEAD 15 0) % 65536 → 
      a = s.fld Reg.DISC_MAIL 51 12 * 4096 + s.fld Reg.DISC_MAIL_HEAD 47 32 % 2 ^ s.fld Reg.DISC_MAIL 3 0 * 256 →
      ((s.fld Reg.DISC_MAIL 3 0 = 0 ∨ 2 ^ s.fld Reg.DISC_MAIL 3 0 ≤ n) → exec (.mgrMailReceive b) s
        = .next (s.tallyAdd Pg.DISC 3 1))
      ∧ (0 < s.fld Reg.DISC_MAIL 3 0 → n < 2 ^ s.fld Reg.DISC_MAIL 3 0 → a + 256 ≤ memSpace → b.length = 256 →
        ∃ t, exec (.mgrMailReceive b) s = .next t ∧ t.rd a 256 = b ∧ s.MemoryBut a 256 t
          ∧ t.fld Reg.DISC_MAIL_HEAD 47 32 = (s.fld Reg.DISC_MAIL_HEAD 47 32 + 1) % 65536
          ∧ t.fld Reg.DISC_MAIL_HEAD 15 0 = s.fld Reg.DISC_MAIL_HEAD 15 0
          ∧ t.bit (Reg.PAGE_IRQ_RAW Pg.DISC) 2 = true
          ∧ s.RegsBut [Reg.DISC_MAIL_HEAD, Reg.PAGE_IRQ_RAW Pg.DISC, Reg.IRQ_PEND, Reg.TALLY_LIFE 1] t))

/-- A write of ROUTE_IMAGE loads an image into the version that is not LIVE, which is LOADING then; while that
version is LOADING or DRAINING a write, of zero too, is dropped with the code of R339, and else a write of zero
starts nothing (R339). The check passes exactly when every read of the image succeeded and none of it is poisoned,
its version is 1, it names this node, MAXHOP is 1 to 8, its reserved bits are zero, every port dimension is 0 to 3
or 15, the order is that of the LIVE version while the bell runs, and every entry is as R330 says. An image that
passes makes its version READY, or LIVE where none is LIVE, with what it holds; one that fails makes it FAILED with
the reason and entry in ROUTE_STAT, and the code is recorded (R330, R339). A write of ROUTE_SWITCH arms a switch,
and zero disarms it. At its time, the bell STOPPED, a READY version becomes LIVE and the LIVE one DRAINING until
twice the flight time has passed; a LOADING one makes it wait, and any other drops it with ROUTE_SWITCH_BAD (R340).
A DRAINING version becomes EMPTY at its time (R341). -/
def Obligations.RouteTablesLoadAndSwitch : Prop :=
  ∀ (s : State) (v : W64) (k reason entry base : Nat) (head es : List Byte), s.Inv →
    (s.Accepts Reg.ROUTE_IMAGE v → k = (if s.route.v0.st = 3 then 1 else 0) →
      (v = 0#64 → (s.routeVer k).st ≠ 1 → (s.routeVer k).st ≠ 4 → exec (.routeImageWrite v) s = .next (s.setReg Reg.ROUTE_IMAGE v))
      ∧ (((s.routeVer k).st = 1 ∨ (s.routeVer k).st = 4) → ∃ t, exec (.routeImageWrite v) s = .next t
        ∧ s.Records Pg.ROUTE 0x96 (dropDetail Reg.ROUTE_IMAGE false) t)
      ∧ (v ≠ 0#64 → (s.routeVer k).st ≠ 1 → (s.routeVer k).st ≠ 4 → ∃ t, exec (.routeImageWrite v) s = .next t
        ∧ t.routeVer k = { st := 1 } ∧ t.routeVer (1 - k) = s.routeVer (1 - k) ∧ t.reg Reg.ROUTE_IMAGE = v
        ∧ t.fld Reg.ROUTE_STAT (3 * k + 3) (3 * k + 1) = 1 ∧ s.RegsBut [Reg.ROUTE_IMAGE, Reg.ROUTE_STAT] t
        ∧ s.SameMemory t))
    ∧ (head = s.rd base 64 → es = s.rd (base + 64) 32768 → (s.routeReason base = none ↔
      s.unreadable .route base 32832 = false ∧ fieldAt head 0 2 = 1 ∧ fieldAt head 8 4 = s.node
      ∧ 1 ≤ fieldAt head 2 1 ∧ fieldAt head 2 1 ≤ 8 ∧ routeHeadReserved head = false
      ∧ (∀ p < 18, bits (fieldAt head 0x10 9) (4 * p + 3) (4 * p) ≤ 3 ∨ bits (fieldAt head 0x10 9) (4 * p + 3) (4 * p) = 15)
      ∧ (s.bellState = 0 ∨ (s.route.v0.st ≠ 3 ∧ s.route.v1.st ≠ 3) ∨ fieldAt head 4 4 = s.liveRoute.order)
      ∧ ∀ p < 4096, ∀ e, e = fieldAt es (8 * p) 8 → bits e 63 39 = 0
        ∧ (p = nodePkg s.node → bits e 38 38 = 1 ∧ bits e 26 22 = 31 ∧ bits e 21 0 = 0 ∧ bits e 33 30 = 0 ∧ bits e 37 34 = 0)
        ∧ (p ≠ nodePkg s.node → bits e 38 38 = 0 → e = 0)
        ∧ (p ≠ nodePkg s.node → bits e 38 38 = 1 → bits e 26 22 ≤ 21 ∧ 1 ≤ bits e 33 30 ∧ bits e 33 30 ≤ bits e 37 34
          ∧ bits e 37 34 ≤ fieldAt head 2 1
          ∧ (∀ q < 18, bits e q q = 1 → bits (fieldAt head 0x10 9) (4 * q + 3) (4 * q) ≠ 15)
          ∧ (bits e 26 22 < 18 → bits (fieldAt head 0x10 9) (4 * bits e 26 22 + 3) (4 * bits e 26 22) = bits e 29 28))))
    ∧ (s.route.v0.st ≠ 1 → s.route.v1.st ≠ 1 → exec .routeImageCheckDone s = .next s)
    ∧ ((k = 0 ∧ s.route.v0.st = 1 ∨ k = 1 ∧ s.route.v0.st ≠ 1 ∧ s.route.v1.st = 1) →
      base = s.fld Reg.ROUTE_IMAGE 51 12 * 4096 → head = s.rd base 64 → s.poisoned base 32832 = false →
      (s.routeReason base = some (reason, entry) → ∃ t, exec .routeImageCheckDone s = .next t ∧ t.routeVer k = { st := 5 }
        ∧ t.routeVer (1 - k) = s.routeVer (1 - k) ∧ t.fld Reg.ROUTE_STAT 11 8 = reason
        ∧ t.fld Reg.ROUTE_STAT 23 12 = entry ∧ t.fld Reg.ROUTE_STAT (3 * k + 3) (3 * k + 1) = 5
        ∧ State.Recorded Pg.ROUTE 0x95 0 s t ∧ s.RegsBut (Reg.ROUTE_STAT :: Reg.TALLY_LIFE 0 :: recordRegs Pg.ROUTE) t)
      ∧ (s.routeReason base = none → ∃ t, exec .routeImageCheckDone s = .next t
        ∧ t.routeVer k = ⟨if s.liveVer = none then 3 else 2, fieldAt head 2 1, fieldAt head 4 4, fieldAt head 0x10 9,
            tableOf (words64 4096 (s.rd (base + 64) 32768))⟩
        ∧ t.routeVer (1 - k) = s.routeVer (1 - k) ∧ s.RegsBut [Reg.ROUTE_STAT, Reg.TALLY_LIFE 0] t ∧ s.SameMemory t
        ∧ t.fld Reg.ROUTE_STAT (3 * k + 3) (3 * k + 1) = (if s.liveVer = none then 3 else 2)
        ∧ (s.liveVer = none → t.fld Reg.ROUTE_STAT 0 0 = k)))
    ∧ (s.Accepts Reg.ROUTE_SWITCH v → ∃ t, exec (.routeSwitchWrite v) s = .next t ∧ t = { s with regs := t.regs }
      ∧ t.reg Reg.ROUTE_SWITCH = v ∧ t.bit Reg.ROUTE_STAT 7 = decide (v ≠ 0#64)
      ∧ s.RegsBut [Reg.ROUTE_SWITCH, Reg.ROUTE_STAT] t)
    ∧ ((s.bellState ≠ 0 ∨ s.bit Reg.ROUTE_STAT 7 = false ∨ s.now < s.regNat Reg.ROUTE_SWITCH) →
      exec .routeSwitchAt s = .next s)
    ∧ (s.bellState = 0 → s.bit Reg.ROUTE_STAT 7 = true → s.regNat Reg.ROUTE_SWITCH ≤ s.now →
      k = (if s.route.v0.st = 3 then 1 else 0) →
      ((s.routeVer k).st = 1 → exec .routeSwitchAt s = .next s)
      ∧ ((s.routeVer k).st = 2 → ∃ t, exec .routeSwitchAt s = .next t ∧ t.routeVer k = { s.routeVer k with st := 3 }
        ∧ (∀ old, s.liveVer = some old → t.routeVer old = { s.routeVer old with st := 4 })
        ∧ (s.liveVer = none → t.routeVer (1 - k) = s.routeVer (1 - k))
        ∧ t.route.drainAt = s.now + 2000 * s.fld (Reg.LINK_E2E 0) 25 16 ∧ t.bit Reg.ROUTE_STAT 7 = false
        ∧ t.fld Reg.ROUTE_STAT 0 0 = k ∧ s.RegsBut [Reg.ROUTE_STAT] t ∧ s.SameMemory t)
      ∧ ((s.routeVer k).st ≠ 1 → (s.routeVer k).st ≠ 2 → ∃ t, exec .routeSwitchAt s = .next t ∧ t.route = s.route
        ∧ t.bit Reg.ROUTE_STAT 7 = false ∧ State.Recorded Pg.ROUTE 0x98 0 s t
        ∧ s.RegsBut (Reg.ROUTE_STAT :: recordRegs Pg.ROUTE) t))
    ∧ (k = (if s.route.v0.st = 4 then 0 else 1) →
      ((s.routeVer k).st = 4 → s.route.drainAt ≤ s.now → ∃ t, exec .routeDrainEnd s = .next t ∧ t.routeVer k = {}
        ∧ t.routeVer (1 - k) = s.routeVer (1 - k) ∧ t.fld Reg.ROUTE_STAT (3 * k + 3) (3 * k + 1) = 0
        ∧ s.RegsBut [Reg.ROUTE_STAT] t ∧ s.SameMemory t)
      ∧ (((s.routeVer k).st ≠ 4 ∨ s.now < s.route.drainAt) → exec .routeDrainEnd s = .next s))

/-- A command at the head of the ring that keeps its layout, of a context with a job that is RESIDENT, whose window
is in this domain and whose local bytes can be read, is issued: a request with a tag no other holds becomes
outstanding, and a REQ packet of its type, place, lines and payload leaves for its destination; the head moves on
and memory stays (R352, R357). A LOAD that names this slice, of an accepted job, with no relay waiting for a place,
is served at once: its data is in place first (R357). Nothing is issued while a fence has not completed, while
16,384 requests are outstanding, or by a command of another type than the head's. A command that cannot be read ends
with status 6, and a poisoned one also records MEM_UE (R35; the status is the model's choice, assumption 52). A
command that breaks its layout ends with CMD_BAD and the code recorded; one whose context has no job or is not
RESIDENT with NO_JOB, one of a job torn down with TEARDOWN, one for another domain with status 19, one whose local
bytes cannot be read with 6, and one whose semaphore is another context's with CMD_BAD and the code in CTX_FAULT:
the status byte is written, the head moves on and no request leaves (R357, R370, R373, R422). MSEM_TAIL is the
host's tail. A fence takes the requests of this slice to its node, or all, that are outstanding, and the REQ packets
to it that are neither acknowledged nor skipped; it completes, with its status byte zero, when none of those
requests is, none of their packets waits, and each of those packets is acknowledged or skipped (R343, R358). -/
def Obligations.RingCommandsAreIssued : Prop :=
  ∀ (s : State) (v : W64) (a la n c job fa i id : Nat) (b : List Byte) (x : Instr × Nat × List Byte) (f : Fence), s.Inv →
    b = s.rd a 64 → la = fieldAt b 0x10 8 → n = 64 * (fieldAt b 2 1 + 1) → c = bits (fieldAt b 1 1) 1 0 → job = s.ctxJob c →
    fa = (s.translate (fieldAt b 8 8)).1 → a + 64 ≤ memSpace →
    x ∈ [(Instr.msemCmdLoad, 1, []), (.msemCmdStore, 2, s.rd la n), (.msemCmdStoreMasked, 3, leBytes 8 (fieldAt b 0x18 8) ++ s.rd la 64),
      (.msemCmdStoreCount, 4, leBytes 8 (fieldAt b 5 1) ++ s.rd la n), (.msemCmdAdd, 0x10, leBytes 8 (fieldAt b 0x18 8)),
      (.msemCmdMinS, 0x11, leBytes 8 (fieldAt b 0x18 8)), (.msemCmdMaxS, 0x12, leBytes 8 (fieldAt b 0x18 8)),
      (.msemCmdMinU, 0x13, leBytes 8 (fieldAt b 0x18 8)), (.msemCmdMaxU, 0x14, leBytes 8 (fieldAt b 0x18 8)),
      (.msemCmdCas, 0x15, leBytes 8 (fieldAt b 0x18 8) ++ leBytes 8 (fieldAt b 0x20 8)),
      (.msemCmdFadd32, 0x16, leBytes 8 (fieldAt b 0x18 8)), (.msemCmdFence, 0xF0, [])] →
    (s.Accepts Reg.MSEM_TAIL v → exec (.msemTail v) s = .next { s with msem := { s.msem with tail := bits v.toNat 31 0 } })
    ∧ ((s.fld Reg.MSEM_RING 4 0 = 0 ∨ (s.msem.tail + 2 ^ 32 - s.fld Reg.MSEM_HEAD 31 0) % 2 ^ 32 = 0) → exec x.1 s = .next s)
    ∧ (0 < s.fld Reg.MSEM_RING 4 0 → (s.msem.tail + 2 ^ 32 - s.fld Reg.MSEM_HEAD 31 0) % 2 ^ 32 ≠ 0 →
      a = s.fld Reg.MSEM_RING 51 12 * 4096 + s.fld Reg.MSEM_HEAD 31 0 % 2 ^ s.fld Reg.MSEM_RING 4 0 * 64 →
      ((s.msem.fences ≠ [] ∨ 16384 ≤ s.msem.reqs.length) → exec x.1 s = .next s)
      ∧ (s.msem.fences = [] → s.msem.reqs.length < 16384 → s.unreadable .request a 64 = true → ∃ t, exec x.1 s = .next t
        ∧ t.rdByte (a + 0x28) = 6#8 ∧ t.fld Reg.MSEM_HEAD 31 0 = (s.fld Reg.MSEM_HEAD 31 0 + 1) % 2 ^ 32
        ∧ t.msem.reqs = s.msem.reqs ∧ t.route = s.route ∧ (s.poisoned a 64 = true → t.bit (Reg.PAGE_IRQ_RAW Pg.MEMP) 0 = true))
      ∧ (s.msem.fences = [] → s.msem.reqs.length < 16384 → s.unreadable .request a 64 = false →
        (fieldAt b 0 1 ∈ commandTypes → fieldAt b 0 1 ≠ x.2.1 → exec x.1 s = .next s)
        ∧ ((fieldAt b 0 1 ∉ commandTypes ∨ fieldAt b 0 1 = x.2.1 ∧ commandOk b = false) → ∃ t, exec x.1 s = .next t
          ∧ t.rdByte (a + 0x28) = 21#8 ∧ t.fld Reg.MSEM_HEAD 31 0 = (s.fld Reg.MSEM_HEAD 31 0 + 1) % 2 ^ 32
          ∧ t.msem.reqs = s.msem.reqs ∧ t.route = s.route ∧ t.fld Reg.MSEM_FAULT 31 24 = 0xA1
          ∧ t.bit (Reg.PAGE_IRQ_RAW Pg.MSEM) 0 = true)
        ∧ (fieldAt b 0 1 = x.2.1 → commandOk b = true → fieldAt b 3 1 ≤ 127 → fieldAt b 3 1 / 32 ≠ c → ∃ t, exec x.1 s = .next t
          ∧ t.rdByte (a + 0x28) = 21#8 ∧ t.fld Reg.MSEM_HEAD 31 0 = (s.fld Reg.MSEM_HEAD 31 0 + 1) % 2 ^ 32
          ∧ t.msem.reqs = s.msem.reqs ∧ t.fld Reg.CTX_FAULT 15 8 = 0xC8 ∧ t.bit (Reg.PAGE_IRQ_RAW Pg.CTX) 0 = true)
        ∧ (fieldAt b 0 1 = x.2.1 → commandOk b = true → (127 < fieldAt b 3 1 ∨ fieldAt b 3 1 / 32 = c) → job ≠ 0 →
          s.ctxState c = 1 → s.tornAt job (s.fld Reg.MSEM_HEAD 31 0) false = false →
          nodeDomain (faNode fa) = nodeDomain s.node → 2 ≤ x.2.1 → x.2.1 ≤ 4 → s.unreadable .request la n = true →
          ∃ t, exec x.1 s = .next t
          ∧ t.rdByte (a + 0x28) = 6#8 ∧ t.fld Reg.MSEM_HEAD 31 0 = (s.fld Reg.MSEM_HEAD 31 0 + 1) % 2 ^ 32
          ∧ t.msem.reqs = s.msem.reqs ∧ (s.poisoned la n = true → t.bit (Reg.PAGE_IRQ_RAW Pg.MEMP) 0 = true))
        ∧ (∀ st, fieldAt b 0 1 = x.2.1 → commandOk b = true → (127 < fieldAt b 3 1 ∨ fieldAt b 3 1 / 32 = c) →
          (st = 20 ∧ (job = 0 ∨ s.ctxState c ≠ 1)
            ∨ x.2.1 ≠ 0xF0 ∧ job ≠ 0 ∧ s.ctxState c = 1 ∧ (st = 17 ∧ s.tornAt job (s.fld Reg.MSEM_HEAD 31 0) false = true
              ∨ st = 19 ∧ s.tornAt job (s.fld Reg.MSEM_HEAD 31 0) false = false ∧ nodeDomain (faNode fa) ≠ nodeDomain s.node)) →
          ∃ t, exec x.1 s = .next t ∧ t.rdByte (a + 0x28) = BitVec.ofNat 8 st ∧ s.MemoryBut (a + 0x28) 1 t
            ∧ t.fld Reg.MSEM_HEAD 31 0 = (s.fld Reg.MSEM_HEAD 31 0 + 1) % 2 ^ 32 ∧ t.msem = s.msem ∧ t.route = s.route
            ∧ s.RegsBut [Reg.MSEM_HEAD, Reg.TALLY_LIFE 0, Reg.TALLY_LIFE 1] t)
        ∧ (fieldAt b 0 1 = x.2.1 → commandOk b = true → (127 < fieldAt b 3 1 ∨ fieldAt b 3 1 / 32 = c) → job ≠ 0 →
          s.ctxState c = 1 →
          (x.2.1 ≠ 0xF0 → s.tornAt job (s.fld Reg.MSEM_HEAD 31 0) false = false → nodeDomain (faNode fa) = nodeDomain s.node →
            (2 ≤ x.2.1 → x.2.1 ≤ 4 → s.unreadable .request la n = false) → s.msem.reqs.length + s.msem.invals.length < 65535 →
            (faNode fa ≠ s.node → ∃ t r, exec x.1 s = .next t ∧ t.msem.reqs = s.msem.reqs ++ [r] ∧ r.dest = faNode fa
              ∧ r.type = x.2.1 ∧ r.job = job ∧ r.lines = fieldAt b 2 1 + 1 ∧ r.localAddr = la ∧ r.statusAddr = a + 0x28
              ∧ r.sem = fieldAt b 3 1 ∧ (∀ q ∈ s.msem.reqs, q.tag ≠ r.tag)
              ∧ s.QueueGets t (fun p => p.dest = faNode fa ∧ p.src = s.node ∧ p.cls = 1 ∧ p.type = x.2.1 ∧ p.job = job
                ∧ argTag p.arg = r.tag ∧ argOff p.arg = faOffset fa ∧ argLines p.arg = fieldAt b 2 1 + 1
                ∧ argFlag p.arg = decide (bits (fieldAt b 1 1) 2 2 = 1) ∧ p.payload = x.2.2)
              ∧ t.fld Reg.MSEM_HEAD 31 0 = (s.fld Reg.MSEM_HEAD 31 0 + 1) % 2 ^ 32 ∧ s.SameMemory t
              ∧ s.RegsBut [Reg.MSEM_HEAD, Reg.MSEM_STAT, Reg.TALLY_LIFE 0] t)
            ∧ (faNode fa = s.node → x.2.1 = 1 → s.windowRegion (faOffset fa) n = some i →
              rgFlag (s.regionAt s.liveRegions i) 4 = false → bits (fieldAt b 1 1) 2 2 = 0 →
              accessStatus (s.regionAt s.liveRegions i) 1 s.node job (faOffset fa) = 0 →
              (∀ w ∈ s.msem.waiting, w.region ≠ i) → s.jobAccepted job = true → s.msem.relays = [] →
              s.poison = [] → s.readFailed = [] → la + n ≤ memSpace →
              ∃ t, exec x.1 s = .next t ∧ s.MemoryBut la n t ∧ t.msem.reqs = s.msem.reqs ∧ t.route = s.route
                ∧ t.rd la n = s.rd (rgHost (s.regionAt s.liveRegions i)
                  + (faOffset fa - rgOffset (s.regionAt s.liveRegions i))) n))
          ∧ (x.2.1 = 0xF0 → ∃ t, exec x.1 s = .next t ∧ s.SameMemory t ∧ s.RegsBut [Reg.MSEM_HEAD, Reg.TALLY_LIFE 0] t ∧ t.route = s.route
            ∧ t.fld Reg.MSEM_HEAD 31 0 = (s.fld Reg.MSEM_HEAD 31 0 + 1) % 2 ^ 32
            ∧ t.msem = { s.msem with
                fences := [{
                  id := s.msem.nextFence
                  tags := (s.msem.reqs.filter fun r =>
                    !r.relayed && (decide (bits (fieldAt b 4 1) 0 0 = 1) || r.dest == faNode (fieldAt b 8 8))).map (·.tag)
                  seqs := (s.e2e.outst.filter fun o => o.cls == 1 && !o.skipped
                    && (decide (bits (fieldAt b 4 1) 0 0 = 1) || o.dest == faNode (fieldAt b 8 8))).map fun o => (o.dest, o.seq)
                  sem := fieldAt b 3 1, statusAddr := a + 0x28 }]
                nextFence := s.msem.nextFence + 1 }))))
    ∧ ((∀ g ∈ s.msem.fences, g.id ≠ id) → exec (.fenceComplete id) s = .next s)
    ∧ (s.msem.fences = [f] → f.id = id →
      (((∃ y ∈ f.seqs, ∃ o ∈ s.e2e.outst, o.dest = y.1 ∧ o.cls = 1 ∧ o.seq = y.2 ∧ o.skipped = false) ∨ ∃ g ∈ f.tags, (∃ r ∈ s.msem.reqs, r.tag = g) ∨ (∃ o ∈ s.e2e.outst, o.cls = 1 ∧ o.skipped = false ∧ argTag o.pkt.arg = g)
          ∨ ∃ q ∈ s.route.queue, q.pkt.cls = 1 ∧ q.pkt.src = s.node ∧ argTag q.pkt.arg = g) →
        exec (.fenceComplete id) s = .next s)
      ∧ ((∀ g ∈ f.tags, (∀ r ∈ s.msem.reqs, r.tag ≠ g) ∧ (∀ o ∈ s.e2e.outst, argTag o.pkt.arg ≠ g)
          ∧ ∀ q ∈ s.route.queue, argTag q.pkt.arg ≠ g) →
        (∀ y ∈ f.seqs, ∀ o ∈ s.e2e.outst, o.dest = y.1 → o.cls = 1 → o.seq = y.2 → o.skipped = true) → f.statusAddr < memSpace → ∃ t, exec (.fenceComplete id) s = .next t
        ∧ t.msem = { s.msem with fences := [] } ∧ t.rdByte f.statusAddr = 0#8 ∧ s.MemoryBut f.statusAddr 1 t
        ∧ s.RegsBut [Reg.TALLY_LIFE 1] t))

/-- A REQ packet in its turn, of an accepted job, to bytes of a region that allows it and whose readers hold no
copy, is applied: the stores put their lines or their masked bytes in place, the atomics put the sum, minimum,
maximum, swap or rounded sum there, and every other byte of memory stays; the answer carries the old value for an
atomic (R350, R352, R353). LOAD changes no byte and answers with the lines; one that keeps a copy is entered among
the holders of a cacheable region, and answers with status 8 where the region is not cacheable (R352, R360).
STORE_COUNT also adds its bytes to its semaphore, or answers PERM after its lines where the semaphore is another
job's (R352). STUB only has its turn (R354, R364). While readers hold a copy a store waits for the answers to their
invalidations (R361). A refused request has no effect and answers with the status of the first check that fails: the
job, the region, the access (R350). Unreadable bytes answer with status 6. A gateway request is relayed to the far
node with a tag of its own, waits for that while 16,384 requests are outstanding (R352), or is answered with status
19 where no gateway port leads there (R370). A request ahead of its turn is parked, or refused with a NAK_SPAN where
there is no room (R354). -/
def Obligations.DestinationAppliesRequests : Prop :=
  ∀ (s : State) (p : Arrived) (i a off n tag far q st : Nat) (bt : List Byte) (v v4 o1 o2 : W64), s.Inv →
    off = argOff p.arg → tag = argTag p.arg → n = 64 * argLines p.arg → bt = s.regionAt s.liveRegions i →
    a = rgHost bt + (off - rgOffset bt) → a + 64 * 64 ≤ memSpace → p.src < 2 ^ 23 → p.job < 2 ^ 16 →
    v = BitVec.ofNat 64 (s.rdNat a 8) → v4 = BitVec.ofNat 64 (s.rdNat a 4) →
    o1 = BitVec.ofNat 64 (fieldAt p.payload 0 8) → o2 = BitVec.ofNat 64 (fieldAt p.payload 8 8) →
    (s.InTurn p → s.jobAccepted p.job = true → (∀ w ∈ s.msem.waiting, w.region ≠ i) →
      (∀ x : Instr × Nat × Nat × Nat × List Byte × List Byte,
        x ∈ [(Instr.reqStore p, n, 1, 64, p.payload.take n, []),
          (.reqStoreMasked p, n, 1, 64, (List.range 64).map (fun j =>
            if bits (fieldAt p.payload 0 8) j j = 1 then p.payload.getD (8 + j) 0#8 else s.rdByte (a + j)), []),
          (.reqAdd p, 8, 2, 8, leBytes 8 (v + o1).toNat, leBytes 8 v.toNat),
          (.reqMinS p, 8, 2, 8, leBytes 8 (if v.slt o1 then v else o1).toNat, leBytes 8 v.toNat),
          (.reqMaxS p, 8, 2, 8, leBytes 8 (if v.slt o1 then o1 else v).toNat, leBytes 8 v.toNat),
          (.reqMinU p, 8, 2, 8, leBytes 8 (if v < o1 then v else o1).toNat, leBytes 8 v.toNat),
          (.reqMaxU p, 8, 2, 8, leBytes 8 (if v < o1 then o1 else v).toNat, leBytes 8 v.toNat),
          (.reqCas p, 8, 2, 8, leBytes 8 (if v = o1 then o2 else v).toNat, leBytes 8 v.toNat),
          (.reqFadd32 p, 4, 2, 4, leBytes 4 (fAdd (v4.setWidth 32) (o1.setWidth 32)).toNat, leBytes 8 v4.toNat)] →
        s.Allowed i off x.2.1 x.2.2.1 x.2.2.2.1 p.src p.job →
        (s.holders i = [] → (x.2.2.1 = 2 → s.unreadable .request a x.2.1 = false) → x.2.2.2.2.1.length = x.2.1 → ∃ t, exec x.1 s = .next t
          ∧ t.rd a x.2.1 = x.2.2.2.2.1 ∧ s.MemoryBut a x.2.1 t ∧ s.Answers p.src p.job p.prio tag 0 x.2.2.2.2.2 t
          ∧ t.msem = s.turned p ∧ s.RegsBut [Reg.TALLY_LIFE 0, Reg.TALLY_LIFE 1] t)
        ∧ (∀ h : Nat × Nat, s.holders i = [h] → ∃ t w y, exec x.1 s = .next t ∧ s.SameMemory t ∧ t.regs = s.regs
          ∧ t.msem.waiting = w :: s.msem.waiting ∧ w.waits = [y] ∧ w.src = p.src ∧ w.region = i
          ∧ s.QueueGets t fun m => m.dest = h.2 ∧ m.cls = 2 ∧ m.type = 0x50 ∧ argTag m.arg = y ∧ fieldAt m.payload 0 4 = s.node % 2 ^ 32
            ∧ fieldAt m.payload 8 8 = off)
        ∧ (x.2.2.1 = 2 → s.holders i = [] → s.unreadable .request a x.2.1 = true → ∃ t, exec x.1 s = .next t
          ∧ s.Answers p.src p.job p.prio tag 6 [] t ∧ t.msem = s.turned p ∧ t.bit (Reg.PAGE_IRQ_RAW Pg.MSEM) 0 = true))
      ∧ (s.Allowed i off n 0 64 p.src p.job → s.unreadable .request a n = false →
        (argFlag p.arg = false → ∃ t, exec (.reqLoad p) s = .next t ∧ s.SameMemory t
          ∧ s.Answers p.src p.job p.prio tag 0 (s.rd a n) t ∧ t.msem = s.turned p ∧ s.RegsBut [Reg.TALLY_LIFE 0] t)
        ∧ (argFlag p.arg = true → rgFlag bt 3 = false → ∃ t, exec (.reqLoad p) s = .next t ∧ s.SameMemory t
          ∧ s.Answers p.src p.job p.prio tag 8 (s.rd a n) t ∧ s.RegsBut [Reg.TALLY_LIFE 0] t)
        ∧ (∀ h, argFlag p.arg = true → rgFlag bt 3 = true → s.holdAddr i = some h → h + 256 ≤ memSpace → s.holders i = [] →
          ∃ t, exec (.reqLoad p) s = .next t ∧ s.MemoryBut h 4 t ∧ t.holders i = [(0, p.src)]
            ∧ s.Answers p.src p.job p.prio tag 0 (s.rd a n) t))
      ∧ (s.Allowed i off n 0 64 p.src p.job → s.unreadable .request a n = true → ∃ t, exec (.reqLoad p) s = .next t
        ∧ s.Answers p.src p.job p.prio tag 6 [] t ∧ t.bit (Reg.PAGE_IRQ_RAW Pg.MSEM) 0 = true)
      ∧ (s.Allowed i off n 1 64 p.src p.job → s.holders i = [] → 8 + n ≤ p.payload.length → ∀ k, k = bits (fieldAt p.payload 0 8) 6 0 →
        (s.ctxJob (k / 32) = p.job → ∃ t, exec (.reqStoreCount p) s = .next t ∧ t.rd a n = (p.payload.drop 8).take n
          ∧ s.MemoryBut a n t ∧ t.reg (Reg.MSEM_SEM k) = s.reg (Reg.MSEM_SEM k) + BitVec.ofNat 64 n
          ∧ s.Answers p.src p.job p.prio tag 0 [] t
          ∧ s.RegsBut [Reg.MSEM_SEM k, Reg.PAGE_IRQ_RAW Pg.MSEM, Reg.IRQ_PEND, Reg.TALLY_LIFE 1] t)
        ∧ (s.ctxJob (k / 32) ≠ p.job → ∃ t, exec (.reqStoreCount p) s = .next t
          ∧ t.reg (Reg.MSEM_SEM k) = s.reg (Reg.MSEM_SEM k) ∧ s.Answers p.src p.job p.prio tag 3 [] t)))
    ∧ (s.InTurn p → ∃ t, exec (.reqStub p) s = .next t ∧ t = { s with msem := s.turned p, tally := t.tally })
    ∧ (s.InTurn p → ∀ x : Instr × Nat × Nat × Nat,
      x ∈ [(Instr.reqLoad p, n, 0, 64), (.reqStore p, n, 1, 64), (.reqStoreMasked p, n, 1, 64), (.reqStoreCount p, n, 1, 64),
        (.reqAdd p, 8, 2, 8), (.reqMinS p, 8, 2, 8), (.reqMaxS p, 8, 2, 8), (.reqMinU p, 8, 2, 8), (.reqMaxU p, 8, 2, 8),
        (.reqCas p, 8, 2, 8), (.reqFadd32 p, 4, 2, 4)] →
      (st = 1 ∧ s.jobAccepted p.job = false
        ∨ s.jobAccepted p.job = true ∧ (st = 2 ∧ s.windowRegion off x.2.1 = none
          ∨ s.windowRegion off x.2.1 = some i ∧ rgFlag bt 4 = false ∧
            (st = 3 ∧ (rgJob bt ≠ p.job ∨ rgFlag bt x.2.2.1 = false)
            ∨ rgJob bt = p.job ∧ rgFlag bt x.2.2.1 = true ∧
              (st = 4 ∧ x.2.2.1 ≠ 0 ∧ rgAny bt = false ∧ rgOwner bt ≠ p.src
              ∨ st = 5 ∧ (x.2.2.1 = 0 ∨ rgAny bt = true ∨ rgOwner bt = p.src) ∧ off % x.2.2.2 ≠ 0)))) →
      ∃ t, exec x.1 s = .next t ∧ s.Answers p.src p.job p.prio tag st [] t ∧ t.msem = s.turned p
        ∧ Pg.MSEM * 256 + 0xA3 ∈ t.bell.once
        ∧ (Pg.MSEM * 256 + 0xA3 ∈ s.bell.once → s.SameMemory t ∧ t.regs = s.regs)
        ∧ (Pg.MSEM * 256 + 0xA3 ∉ s.bell.once → t.fld Reg.MSEM_FAULT 31 24 = 0xA3 ∧ t.fld Reg.MSEM_FAULT 55 48 = st
          ∧ s.RegsBut (Reg.MSEM_FAULT :: recordRegs Pg.MSEM) t
          ∧ s.MemoryBut (s.evAddr (s.regNat Reg.EVLOG_NEXT)) 64 t))
    ∧ (s.InTurn p → s.jobAccepted p.job = true → far = bits (fieldAt p.payload 0 8) 22 0 → ∀ x : Instr × Nat,
      x ∈ [(Instr.reqLoadGw p, 1), (.reqStoreGw p, 2)] →
      ((∀ port < 18, ¬(s.role port = 2 ∧ s.portState port = 2 ∧ s.fld (Reg.LINK_FAR port) 22 0 = far)) → ∃ t, exec x.1 s = .next t
        ∧ s.Answers p.src p.job p.prio tag 19 [] t ∧ t.msem = s.turned p ∧ t.fld Reg.MSEM_FAULT 31 24 = 0xA8)
      ∧ ((∃ port < 18, s.role port = 2 ∧ s.portState port = 2 ∧ s.fld (Reg.LINK_FAR port) 22 0 = far) →
        (16384 ≤ s.msem.reqs.length → ∃ t y, exec x.1 s = .next t
          ∧ t.msem = { s.turned p with relays := s.msem.relays ++ [y] } ∧ t.regs = s.regs ∧ s.SameMemory t ∧ t.route = s.route
          ∧ y.src = p.src ∧ y.type = x.2 + 0x40 ∧ y.job = p.job ∧ y.arg = p.arg ∧ y.payload = p.payload)
        ∧ (s.msem.reqs.length < 16384 → s.msem.reqs.length + s.msem.invals.length < 65535 → ∃ t r, exec x.1 s = .next t ∧ t.msem.reqs = s.msem.reqs ++ [r]
          ∧ (∀ r' ∈ s.msem.reqs, r'.tag ≠ r.tag) ∧ r.for_ = .relay p.src tag ∧ r.type = x.2 ∧ r.job = p.job
          ∧ s.RegsBut [Reg.MSEM_STAT] t ∧ s.SameMemory t
          ∧ s.QueueGets t fun m => m.dest = far ∧ m.cls = 2 ∧ m.type = x.2 ∧ m.job = p.job ∧ argTag m.arg = r.tag
            ∧ argOff m.arg = off ∧ argLines m.arg = argLines p.arg
            ∧ m.payload = leBytes 8 s.node ++ p.payload.drop 8)))
    ∧ (q = tGet zeroNat p.src s.msem.nextSeq → p.seq < 65536 → q < 65536 → p.seq ≠ q → ∀ x : Instr × Nat,
      x ∈ [(Instr.reqLoad p, 1), (.reqStore p, 2), (.reqStoreMasked p, 3), (.reqStoreCount p, 4), (.reqAdd p, 0x10), (.reqMinS p, 0x11),
        (.reqMaxS p, 0x12), (.reqMinU p, 0x13), (.reqMaxU p, 0x14), (.reqCas p, 0x15), (.reqFadd32 p, 0x16), (.reqStub p, 0x20),
        (.reqLoadGw p, 0x41), (.reqStoreGw p, 0x42)] →
      (32768 ≤ (p.seq + 65536 - q) % 65536 → exec x.1 s = .next s)
      ∧ ((p.seq + 65536 - q) % 65536 < 32768 → s.fld Reg.MSEM_ROB 15 0 ≤ s.msem.parked.length →
        exec x.1 s = .next (s.acknowledge p.src 1 p.seq 2))
      ∧ ((p.seq + 65536 - q) % 65536 < 32768 → s.msem.parked.length < s.fld Reg.MSEM_ROB 15 0 → ∃ t w, exec x.1 s = .next t
        ∧ t = { s with msem := { s.msem with parked := s.msem.parked ++ [w] }, tally := t.tally }
        ∧ w.src = p.src ∧ w.seq = p.seq ∧ w.type = x.2 ∧ w.job = p.job ∧ w.arg = p.arg ∧ w.payload = p.payload))

/-- A write of MSEM_REGIONS stages a table; the check withdraws one that fails and records MSEM_REGION_BAD, puts one
that passes in force at once while the bell is STOPPED, and keeps it for a bell open otherwise (R349). A request in
its turn to a region that is forwarded has no effect here: it goes on to the region's node, its source before its
payload (R351). A request so forwarded acts as the one of its source would, and is answered to that source; to a
region that is forwarded again it is answered with status 7 (R351). An invalidation puts its record in the ring and
moves the head, or sets OVERFLOW and records the code where there is no room; it is answered and the MSEM vector
raised either way (R362). -/
def Obligations.RegionsForwardsAndInvalidations : Prop :=
  ∀ (s u : State) (v : W64) (p : Arrived) (i used a : Nat) (x : (Arrived → Instr) × Nat), s.Inv → p.job < 2 ^ 16 →
    x ∈ [(Instr.reqLoad, 1), (.reqStore, 2), (.reqStoreMasked, 3), (.reqStoreCount, 4), (.reqAdd, 0x10), (.reqMinS, 0x11),
      (.reqMaxS, 0x12), (.reqMinU, 0x13), (.reqMaxU, 0x14), (.reqCas, 0x15), (.reqFadd32, 0x16)] →
    (s.Accepts Reg.MSEM_REGIONS v → ∃ t, exec (.msemRegionsWrite v) s = .next t ∧ t.stagedReg Reg.MSEM_REGIONS = v
      ∧ t = { s.readsOver .regions with
        staged := t.staged, stagedLate := t.stagedLate, msem := { s.msem with checkedRegions := none } })
    ∧ (tFind Reg.MSEM_REGIONS s.staged = none → exec .msemRegionsCheckDone s = .next s)
    ∧ (tFind Reg.MSEM_REGIONS s.staged = some v →
      (s.regionsOk v = false → s.poisoned (bits v.toNat 51 12 * 4096) (32 * bits v.toNat 8 0) = false →
        ∃ t, exec .msemRegionsCheckDone s = .next t ∧ t.staged = tDel Reg.MSEM_REGIONS s.staged ∧ t.liveRegions = s.liveRegions
          ∧ t.fld Reg.MSEM_FAULT 31 24 = 0xA0 ∧ s.RegsBut (Reg.MSEM_FAULT :: Reg.TALLY_LIFE 0 :: recordRegs Pg.MSEM) t
          ∧ t.bit (Reg.PAGE_IRQ_RAW Pg.MSEM) 0 = true)
      ∧ (s.regionsOk v = true → s.bellState ≠ 0 → ∃ t, exec .msemRegionsCheckDone s = .next t
        ∧ t.msem = { s.msem with checkedRegions := some (v, s.now) } ∧ t.staged = s.staged ∧ s.RegsBut [Reg.TALLY_LIFE 0] t
        ∧ s.SameMemory t)
      ∧ (s.regionsOk v = true → s.bellState = 0 → ∃ t, exec .msemRegionsCheckDone s = .next t ∧ t.liveRegions = v
        ∧ t.reg Reg.MSEM_REGIONS = v ∧ t.staged = tDel Reg.MSEM_REGIONS s.staged
        ∧ (s.fld Reg.MSEM_HOLD 51 16 = 0 → s.SameMemory t ∧ t.route = s.route
          ∧ s.RegsBut [Reg.MSEM_REGIONS, Reg.MSEM_REGIONS_LIVE, Reg.TALLY_LIFE 0] t)))
    ∧ (s.InTurn p → s.jobAccepted p.job = true → s.windowRegion (argOff p.arg) (reqBytes x.2 (argLines p.arg)) = some i →
      rgFlag (s.regionAt s.liveRegions i) 4 = true → ∃ t, exec (x.1 p) s = .next t ∧ s.SameMemory t ∧ t.regs = s.regs
        ∧ t.msem = s.turned p ∧ s.QueueGets t fun m => m.dest = rgFwdNode (s.regionAt s.liveRegions i) ∧ m.src = s.node
          ∧ m.cls = 2 ∧ m.type = x.2 ∧ m.job = p.job ∧ m.arg = p.arg ∧ m.payload = leBytes 8 p.src ++ p.payload)
    ∧ (s.InTurn { p with src := bits (fieldAt p.payload 0 8) 22 0, payload := p.payload.drop 8 } →
      exec (x.1 { p with src := bits (fieldAt p.payload 0 8) 22 0, payload := p.payload.drop 8 }) s = .next u →
      (∀ i, s.windowRegion (argOff p.arg) (reqBytes x.2 (argLines p.arg)) = some i →
        rgFlag (s.regionAt s.liveRegions i) 4 = false) → ∃ t, exec (.fwdRequestReceive x.2 p) s = .next t
      ∧ t.mem = u.mem ∧ t.regs = u.regs ∧ t.route = u.route)
    ∧ (s.jobAccepted p.job = true → s.windowRegion (argOff p.arg) (reqBytes x.2 (argLines p.arg)) = some i →
      rgFlag (s.regionAt s.liveRegions i) 4 = true → ∃ t, exec (.fwdRequestReceive x.2 p) s = .next t
        ∧ s.Answers (bits (fieldAt p.payload 0 8) 22 0) p.job p.prio (argTag p.arg) 7 [] t ∧ t.msem = s.msem)
    ∧ (used = (s.fld Reg.MSEM_INVAL_HEAD 47 32 + 65536 - s.fld Reg.MSEM_INVAL_HEAD 15 0) % 65536 →
      a = s.fld Reg.MSEM_INVAL 51 12 * 4096 + s.fld Reg.MSEM_INVAL_HEAD 47 32 % 2 ^ s.fld Reg.MSEM_INVAL 3 0 * 16 →
      ∃ t, exec (.invalidateReceive p) s = .next t ∧ t.bit (Reg.PAGE_IRQ_RAW Pg.MSEM) 2 = true
        ∧ s.QueueGets t (fun m => m.dest = p.src ∧ m.cls = 3 ∧ m.type = 0x50 ∧ m.job = p.job
          ∧ m.arg = BitVec.ofNat 64 (argTag p.arg) ∧ m.payload = [])
        ∧ ((s.fld Reg.MSEM_INVAL 3 0 = 0 ∨ 2 ^ s.fld Reg.MSEM_INVAL 3 0 ≤ used) → t.bit Reg.MSEM_INVAL_STAT 0 = true
          ∧ t.fld Reg.MSEM_FAULT 31 24 = 0xA5 ∧ t.reg Reg.MSEM_INVAL_HEAD = s.reg Reg.MSEM_INVAL_HEAD)
        ∧ (0 < s.fld Reg.MSEM_INVAL 3 0 → used < 2 ^ s.fld Reg.MSEM_INVAL 3 0 → a + 16 ≤ memSpace → p.payload.length = 16 →
          t.rd a 16 = p.payload ∧ s.MemoryBut a 16 t
          ∧ t.fld Reg.MSEM_INVAL_HEAD 47 32 = (s.fld Reg.MSEM_INVAL_HEAD 47 32 + 1) % 65536
          ∧ s.RegsBut [Reg.MSEM_INVAL_HEAD, Reg.PAGE_IRQ_RAW Pg.MSEM, Reg.IRQ_PEND, Reg.TALLY_LIFE 1] t))

/-- A response ends the request of its tag, no relay waiting for its place: a ring command's data is put in place,
or its status byte written at once where there is none to put; a relayed request is answered to its source, and a
combined one to each contributor with the value before its own operation (R355, R357, R364, R370). A response to an
invalidation lets the store that waits for it go on, where the region still allows it (R349, R361); one whose tag
nothing carries only counts (R355). A request without an answer in time ends with TIMEOUT, a combined one with its
own code, an invalidation is given up, each recorded in MSEM_FAULT with the MSEM vector; a timer that finds nothing
only counts in LATE_MARGIN (R87, R361, R364, R371, R372). A teardown clears the job from ROUTE_JOBS, ends its
requests, stops its copies, keeps the tails for what the rings still hold, shows the job in MSEM_STAT and records
JOB_TORN (R373). A write of PORTER_TAIL starts the descriptors up to it: a good one becomes a copy, a bad one ends
with its status in PORTER_FAULT and its count zero (R366, R367), and so does one that cannot be read, with DATA_UE
(the model's choice, assumption 52), a poisoned one recording MEM_UE (R35). The copy whose turn it is sends a LOAD
for remote bytes, a STORE or STORE_COUNT of its own bytes, or moves local bytes at once (R367). -/
def Obligations.RequestsEndAndCopiesMove : Prop :=
  ∀ (s : State) (p : Arrived) (tag st a h n i k src tg t2 src2 : Nat) (r : Req) (c : Combine) (w : Waiting) (iv : Inval) (v a1 a2 : W64)
    (b bi : List Byte) (cp : Copy), s.Inv →
    (tag = bits p.arg.toNat 15 0 → st = bits p.arg.toNat 23 16 →
      ((∀ x ∈ s.msem.invals, x.tag ≠ tag) → (∀ x ∈ s.msem.reqs, x.tag ≠ tag) →
        exec (.rspReceive p) s = .next (s.tallyAdd Pg.MSEM 33 1))
      ∧ ((∀ x ∈ s.msem.invals, x.tag ≠ tag) → s.msem.reqs = [r] → r.tag = tag → s.msem.relays = [] →
        (∀ j, r.for_ = .cmd j →
          ((st = 0 ∨ st = 8) → p.payload ≠ [] → r.localAddr + p.payload.length ≤ memSpace → ∃ t, exec (.rspReceive p) s = .next t
            ∧ t.msem.reqs = [] ∧ t.rd r.localAddr p.payload.length = p.payload ∧ s.MemoryBut r.localAddr p.payload.length t
            ∧ tFind s.nextChain t.chains = some ([.bytes r.statusAddr [BitVec.ofNat 8 st]]
                ++ (if r.sem = 0xFF then [] else [.semAdd r.sem 1#64]))
            ∧ s.RegsBut [Reg.MSEM_STAT, Reg.TALLY_LIFE 1] t)
          ∧ ((st ≠ 0 ∧ st ≠ 8 ∨ p.payload = []) → r.statusAddr < memSpace → ∃ t, exec (.rspReceive p) s = .next t
            ∧ t.msem.reqs = [] ∧ t.rdByte r.statusAddr = BitVec.ofNat 8 st ∧ s.MemoryBut r.statusAddr 1 t
            ∧ s.RegsBut [Reg.MSEM_STAT, Reg.TALLY_LIFE 1] t))
        ∧ (r.for_ = .relay src tg → ∃ t, exec (.rspReceive p) s = .next t ∧ t.msem.reqs = [] ∧ s.SameMemory t
          ∧ s.Answers src r.job r.prio tg st p.payload t)
        ∧ (r.for_ = .combined → s.msem.combines = [c] → c.tag = tag → c.type = 0x10 → c.parts = [(src, tg, a1), (src2, t2, a2)] → st = 0 →
          ∃ t x y, exec (.rspReceive p) s = .next t ∧ t.msem.reqs = [] ∧ t.msem.combines = [] ∧ s.SameMemory t
            ∧ t.route.queue = s.route.queue ++ [x, y] ∧ x.pkt.dest = src ∧ y.pkt.dest = src2
            ∧ x.pkt.arg = BitVec.ofNat 64 tg ∧ y.pkt.arg = BitVec.ofNat 64 t2
            ∧ x.pkt.payload = leBytes 8 (BitVec.ofNat 64 (leNat p.payload)).toNat
            ∧ y.pkt.payload = leBytes 8 (BitVec.ofNat 64 (leNat p.payload) + a1).toNat))
      ∧ (s.msem.invals = [iv] → iv.tag = tag →
        (s.msem.waiting = [] → exec (.rspReceive p) s = .next { s with msem := { s.msem with invals := [] } })
        ∧ (s.msem.waiting = [w] → w.waits = [tag] → w.region = i → w.caused = true → w.type = 2 → w.own = false →
          bi = s.regionAt s.liveRegions i → a = rgHost bi + (argOff w.arg - rgOffset bi) → n = 64 * argLines w.arg →
          s.Allowed i (argOff w.arg) n 1 64 w.src w.job → a + n ≤ memSpace → n ≤ w.payload.length → s.holdAddr i = none → ∃ t, exec (.rspReceive p) s = .next t
          ∧ t.msem = { s.msem with invals := [], waiting := [] } ∧ t.rd a n = w.payload.take n ∧ s.MemoryBut a n t
          ∧ s.Answers w.src w.job w.prio (argTag w.arg) 0 [] t)))
    ∧ ((∀ x ∈ s.msem.invals, x.tag ≠ tag) →
      ((∀ x ∈ s.msem.reqs, x.tag ≠ tag) → exec (.remoteTimeout tag) s = .next (s.tallyAdd Pg.BELL 3 1))
      ∧ (s.msem.reqs = [r] → r.tag = tag → s.msem.relays = [] → r.job < 2 ^ 16 →
        (∀ j, r.for_ = .cmd j → ∃ t, exec (.remoteTimeout tag) s = .next t ∧ t.msem.reqs = []
          ∧ t.rdByte r.statusAddr = 16#8 ∧ t.fld Reg.MSEM_FAULT 31 24 = 0xA2 ∧ t.fld Reg.MSEM_FAULT 22 0 = r.dest % 2 ^ 23
          ∧ t.bit (Reg.PAGE_IRQ_RAW Pg.MSEM) 2 = true)
        ∧ (r.for_ = .combined → s.msem.combines = [c] → c.tag = tag → c.parts = [(src, tg, a1)] → s.bit Reg.MSEM_MGR 23 = false →
          ∃ t, exec (.remoteTimeout tag) s = .next t ∧ t.msem.reqs = [] ∧ t.msem.combines = []
          ∧ s.Answers src c.job c.prio tg 10 [] t ∧ t.fld Reg.MSEM_FAULT 31 24 = 0xA6)))
    ∧ (s.msem.invals = [iv] → iv.tag = tag → s.msem.waiting = [] → ∃ t, exec (.remoteTimeout tag) s = .next t ∧ t.msem.invals = []
      ∧ t.fld Reg.MSEM_FAULT 31 24 = 0xA4 ∧ t.fld Reg.MSEM_FAULT 22 0 = iv.node % 2 ^ 23
      ∧ t.bit (Reg.PAGE_IRQ_RAW Pg.MSEM) 2 = true)
    ∧ (s.Accepts Reg.MSEM_TEARDOWN v → ∀ job, job = bits v.toNat 15 0 → ∃ t, exec (.jobTeardown v) s = .next t
      ∧ (∀ x ∈ [Reg.ROUTE_JOBS0, Reg.ROUTE_JOBS1, Reg.ROUTE_JOBS2, Reg.ROUTE_JOBS3], ∀ j < 4, t.fld x (16 * j + 15) (16 * j)
        = if s.fld x (16 * j + 15) (16 * j) = job then 0 else s.fld x (16 * j + 15) (16 * j))
      ∧ (∀ x ∈ t.msem.reqs, x.job = job → x.for_ = .combined)
      ∧ (∀ x ∈ t.porter.copies, x.job = job → x.stopped = true ∨ x.ended = true)
      ∧ t.msem.torn = (job, s.msem.tail, s.porter.tail) :: s.msem.torn.filter (fun x => x.1 != job)
      ∧ t.fld Reg.MSEM_STAT 47 32 = job ∧ t.bit (Reg.PAGE_IRQ_RAW Pg.MSEM) 2 = true ∧ t.fld Reg.MSEM_FAULT 31 24 = 0xA9)
    ∧ (s.Accepts Reg.PORTER_TAIL v → h = s.fld Reg.PORTER_HEAD 31 0 →
      (s.fld Reg.PORTER_RING 4 0 = 0 ∨ h = bits v.toNat 31 0 → exec (.porterTail v) s
        = .next { s with porter := { s.porter with tail := bits v.toNat 31 0 } })
      ∧ (0 < s.fld Reg.PORTER_RING 4 0 → bits v.toNat 31 0 = (h + 1) % 2 ^ 32 → s.inFlight < 64 →
        (∀ x ∈ s.porter.copies, x.id < s.porter.nextId) →
        a = s.fld Reg.PORTER_RING 51 12 * 4096 + h % 2 ^ s.fld Reg.PORTER_RING 4 0 * 64 → a + 64 ≤ memSpace → b = s.rd a 64 →
        (s.unreadable .request a 64 = true → ∃ t, exec (.porterTail v) s = .next t ∧ t.porter.copies = s.porter.copies
          ∧ t.rd (a + 0x28) 8 = leBytes 8 0 ∧ t.fld Reg.PORTER_FAULT 31 0 = h ∧ t.fld Reg.PORTER_FAULT 39 32 = 6
          ∧ t.fld Reg.PORTER_HEAD 31 0 = (h + 1) % 2 ^ 32 ∧ t.bit (Reg.PAGE_IRQ_RAW Pg.PORTER) 0 = true
          ∧ (s.poisoned a 64 = true → t.bit (Reg.PAGE_IRQ_RAW Pg.MEMP) 0 = true))
        ∧ (s.unreadable .request a 64 = false → s.descStatus b = 0 → ∃ t x, exec (.porterTail v) s = .next t ∧ t.porter.copies = s.porter.copies ++ [x]
          ∧ x.id = s.porter.nextId ∧ x.unit = 0 ∧ x.src = fieldAt b 8 8 ∧ x.dst = fieldAt b 0x10 8 ∧ x.len = fieldAt b 0x18 8
          ∧ x.job = s.ctxJob (bits (fieldAt b 0 1) 1 0) ∧ x.lines = fieldAt b 2 1 + 1 ∧ x.issued = 0 ∧ x.done = 0 ∧ x.out = 0
          ∧ x.status = 0 ∧ x.descAddr = a ∧ t.fld Reg.PORTER_HEAD 31 0 = (h + 1) % 2 ^ 32
          ∧ s.RegsBut [Reg.PORTER_HEAD, Reg.PORTER_STAT, Reg.TALLY_LIFE 0] t ∧ s.SameMemory t ∧ t.route = s.route)
        ∧ (s.unreadable .request a 64 = false → s.descStatus b ≠ 0 → ∃ t, exec (.porterTail v) s = .next t ∧ t.porter.copies = s.porter.copies
          ∧ t.rd (a + 0x28) 8 = leBytes 8 0 ∧ t.fld Reg.PORTER_FAULT 31 0 = h ∧ t.fld Reg.PORTER_FAULT 39 32 = s.descStatus b
          ∧ t.fld Reg.PORTER_HEAD 31 0 = (h + 1) % 2 ^ 32 ∧ t.bit (Reg.PAGE_IRQ_RAW Pg.PORTER) 0 = true)))
    ∧ ((s.fld Reg.PORTER_RING 4 0 = 0 ∨ s.fld Reg.PORTER_HEAD 31 0 = s.porter.tail) →
      ((∀ x ∈ s.porter.copies, s.copyReady x = false) → exec .porterRequestIssue s = .next s)
      ∧ (s.porter.copies = [cp] → s.copyReady cp = true → cp.alt = none → cp.srcHost = false → cp.dstHost = false →
        s.translate (cp.src + cp.issued) = (cp.src + cp.issued, false) → s.translate (cp.dst + cp.issued) = (cp.dst + cp.issued, false) →
        n = min (64 * cp.lines) (cp.len - cp.issued) → n % 64 = 0 → 0 < n → n ≤ 4096 → s.msem.reqs.length + s.msem.invals.length < 65535 →
        (faNode (cp.src + cp.issued) ≠ s.node → nodeDomain (faNode (cp.src + cp.issued)) = nodeDomain s.node →
          s.Allowed i (faOffset (cp.dst + cp.issued)) n 1 64 s.node cp.job → bi = s.regionAt s.liveRegions i →
          ∃ t x, exec .porterRequestIssue s = .next t ∧ t.msem.reqs = s.msem.reqs ++ [x] ∧ x.type = 1 ∧ x.lines = n / 64
            ∧ x.for_ = .copy cp.id cp.issued ∧ x.localAddr = rgHost bi + (faOffset (cp.dst + cp.issued) - rgOffset bi)
            ∧ t.porter.copies = [{ cp with issued := cp.issued + n, out := cp.out + 1 }] ∧ t.porter.turn = cp.id
            ∧ s.QueueGets t (fun m => m.dest = faNode (cp.src + cp.issued) ∧ m.cls = 1 ∧ m.type = 1 ∧ argTag m.arg = x.tag
              ∧ argOff m.arg = faOffset (cp.src + cp.issued) ∧ argLines m.arg = n / 64 ∧ m.payload = [])
            ∧ s.SameMemory t ∧ s.RegsBut [Reg.MSEM_STAT] t)
        ∧ (faNode (cp.src + cp.issued) = s.node → s.Allowed i (faOffset (cp.src + cp.issued)) n 0 64 s.node cp.job →
          bi = s.regionAt s.liveRegions i → a = rgHost bi + (faOffset (cp.src + cp.issued) - rgOffset bi) → s.unreadable .request a n = false →
          (faNode (cp.dst + cp.issued) ≠ s.node → nodeDomain (faNode (cp.dst + cp.issued)) = nodeDomain s.node →
            ∃ t x, exec .porterRequestIssue s = .next t ∧ t.msem.reqs = s.msem.reqs ++ [x] ∧ x.lines = n / 64
            ∧ t.porter.copies = [{ cp with issued := cp.issued + n, out := cp.out + 1 }] ∧ s.SameMemory t
            ∧ s.QueueGets t (fun m => m.dest = faNode (cp.dst + cp.issued) ∧ m.cls = 1 ∧ argTag m.arg = x.tag
              ∧ argOff m.arg = faOffset (cp.dst + cp.issued) ∧ m.type = (if cp.destSem = none then 2 else 4)
              ∧ m.payload = cp.destSem.elim (s.rd a n) fun j => leBytes 8 j ++ s.rd a n)
            ∧ s.RegsBut [Reg.MSEM_STAT, Reg.TALLY_LIFE 0] t)
          ∧ (faNode (cp.dst + cp.issued) = s.node → s.Allowed k (faOffset (cp.dst + cp.issued)) n 1 64 s.node cp.job →
            h = rgHost (s.regionAt s.liveRegions k) + (faOffset (cp.dst + cp.issued) - rgOffset (s.regionAt s.liveRegions k)) →
            h + n ≤ memSpace → cp.done + n < cp.len → ∃ t, exec .porterRequestIssue s = .next t ∧ t.rd h n = s.rd a n
            ∧ s.MemoryBut h n t ∧ t.porter.copies = [{ cp with issued := cp.issued + n, done := cp.done + n }]
            ∧ t.msem = s.msem ∧ t.route = s.route ∧ s.RegsBut [Reg.TALLY_LIFE 0, Reg.TALLY_LIFE 1, Reg.TALLY_LIFE 9] t))))

/-- A write of COLL_CREATE with both bits is dropped with FIELD_RANGE (R395). CREATE of a group that is not FREE,
and DESTROY of one with operations, record GROUP_BUSY in COLL_FAULT and change no group (R378, R379). CREATE reads
the entry and its members: a bad entry makes the group FAILED with GROUP_BAD, no staging with its own code;
otherwise the group is JOINING with its entry, members, place, digest and staging, and a member other than 0 sends
its JOIN to member 0 (R377, R378). DESTROY makes the group FREE (R379). A member sends its JOIN again while it joins
and its READY has not come (R378). Member 0 notes each JOIN once; the last one makes it send READY to every other
member, with status 0 where every digest is its own, and take it itself: READY, or FAILED (R378). A READY counts
only from member 0. A group that is still JOINING when the time of COLL_TO has passed since its CREATE is FAILED
with the timeout's code; before then, and in any other state, the timer finds nothing to do (R378). A packet for a
FREE group is discarded and counted (R379). -/
def Obligations.GroupsAreCreated : Prop :=
  ∀ (s u : State) (v : W64) (p : Arrived) (g : Nat) (x : Group) (e : List Byte) (ms ids : List Nat) (w m : Nat), s.Inv →
    tWf groupNone s.coll.groups = true → g < 4096 → x = s.group g →
    (s.bound = true → setsReserved Reg.COLL_CREATE v = false → bits v.toNat 17 16 = 3 →
      ∀ c ∈ [Instr.collCreate v, .collDestroy v], ∃ t, exec c s = .next t
        ∧ s.Records Pg.COLL 0x03 (dropDetail Reg.COLL_CREATE false) t)
    ∧ (s.Accepts Reg.COLL_CREATE v → g = bits v.toNat 11 0 →
      (bits v.toNat 16 16 = 1 → bits v.toNat 17 17 = 0 →
        (x.st ≠ 0 → ∃ t, exec (.collCreate v) s = .next t ∧ t.coll = s.coll ∧ t.fld Reg.COLL_FAULT 35 28 = 0xB3
          ∧ t.fld Reg.COLL_FAULT 11 0 = g ∧ t.fld Reg.COLL_GSTAT 11 0 = g ∧ t.bit (Reg.PAGE_IRQ_RAW Pg.COLL) 0 = true
          ∧ s.RegsBut (Reg.COLL_GSTAT :: Reg.COLL_FAULT :: recordRegs Pg.COLL) t)
        ∧ (x.st = 0 → s.poison = [] → s.readFailed = [] → e = s.rd (s.grpAddr g) 64 → ms = s.grpMembers e →
          ((grpEntryOk e = false ∨ s.membersOk ms = false) → ∃ t, exec (.collCreate v) s = .next t ∧ (t.group g).st = 3
            ∧ (t.group g).code = 0xB0 ∧ t.fld Reg.COLL_FAULT 35 28 = 0xB0 ∧ t.route = s.route)
          ∧ (grpEntryOk e = true → s.membersOk ms = true → grpLL e = false → s.coll.aborted = [] →
            (State.takeStaging (chunkClass (grpLog2 e)) (grpCtx e) (grpSlots e) []
              (((s.setFld Reg.COLL_GSTAT 11 0 g).memCount 0 64).memCount 0 (4 * grpCount e)) = (some ids, u) →
              ∃ t, exec (.collCreate v) s = .next t
              ∧ t.group g = { st := 1, entry := e, created := s.now, members := ms, self := ms.idxOf s.node, staging := ids, digest := (crc32c (s.rd (grpBase e) (4 * grpCount e) ++ (e.drop 8).take 8)).toNat }
              ∧ (∀ k, k ≠ g → t.group k = s.group k) ∧ t.mem = u.mem ∧ t.regs = u.regs
              ∧ (ms.idxOf s.node = 0 → t.route = s.route)
              ∧ (ms.idxOf s.node ≠ 0 → s.QueueGets t fun q => q.dest = ms.headD 0 ∧ q.cls = 6 ∧ q.type = 1 ∧ q.job = grpJob e
                ∧ q.arg = BitVec.ofNat 64 g ∧ q.payload = leBytes 8 ((t.group g).digest + ms.idxOf s.node * 2 ^ 32)))
            ∧ (State.takeStaging (chunkClass (grpLog2 e)) (grpCtx e) (grpSlots e) []
              (((s.setFld Reg.COLL_GSTAT 11 0 g).memCount 0 64).memCount 0 (4 * grpCount e)) = (none, u) →
              ∃ t, exec (.collCreate v) s = .next t ∧ (t.group g).st = 3 ∧ (t.group g).code = 0xB1
              ∧ t.fld Reg.COLL_FAULT 35 28 = 0xB1))))
      ∧ (bits v.toNat 16 16 = 0 → bits v.toNat 17 17 = 1 →
        ((∃ o ∈ s.coll.ops, o.group = g) → ∃ t, exec (.collDestroy v) s = .next t ∧ t.coll = s.coll
          ∧ t.fld Reg.COLL_FAULT 35 28 = 0xB3 ∧ t.fld Reg.COLL_FAULT 11 0 = g)
        ∧ ((∀ o ∈ s.coll.ops, o.group ≠ g) → ∃ t, exec (.collDestroy v) s = .next t ∧ t.group g = {}
          ∧ (∀ k, k ≠ g → t.group k = s.group k) ∧ t.coll.ops = s.coll.ops ∧ (∀ q ∈ t.coll.pulls, q.group ≠ g)
          ∧ t.fld Reg.COLL_GSTAT 11 0 = g ∧ (x.staging = [] → s.RegsBut [Reg.COLL_GSTAT] t ∧ s.SameMemory t))))
    ∧ ((x.st ≠ 1 ∨ x.self = 0 ∨ x.members = []) → exec (.joinSend g) s = .next s)
    ∧ (x.st = 1 → x.self ≠ 0 → x.members ≠ [] → ∃ t, exec (.joinSend g) s = .next t ∧ t = { s with route := t.route }
      ∧ s.QueueGets t fun q => q.dest = x.members.headD 0 ∧ q.cls = 6 ∧ q.type = 1 ∧ q.arg = BitVec.ofNat 64 g
        ∧ q.payload = leBytes 8 (x.digest + x.self * 2 ^ 32))
    ∧ ((x.st ≠ 1 ∨ s.now < x.created + 1000000 * s.fld Reg.COLL_TO 41 32) → exec (.collCreateTimeout g) s = .next s)
    ∧ (x.st = 1 → x.created + 1000000 * s.fld Reg.COLL_TO 41 32 ≤ s.now → ∃ t, exec (.collCreateTimeout g) s = .next t ∧ (t.group g).st = 3 ∧ (t.group g).code = 0xB7
      ∧ (t.group g).members = x.members ∧ t.fld Reg.COLL_FAULT 35 28 = 0xB7)
    ∧ (g = caGroup p.arg → w = fieldAt p.payload 0 8 → m = bits w 46 32 →
      (x.st = 0 → ∀ c ∈ [Instr.joinReceive p, .readyReceive p], exec c s = .next (s.tallyAdd Pg.COLL 14 1))
      ∧ (x.st ≠ 0 → (x.st ≠ 1 ∨ x.self ≠ 0 ∨ m = 0 ∨ x.members[m]? ≠ some p.src ∨ ∃ j ∈ x.joins, j.1 = m) →
        exec (.joinReceive p) s = .next s)
      ∧ (x.st = 1 → x.self = 0 → m ≠ 0 → x.members[m]? = some p.src → (∀ j ∈ x.joins, j.1 ≠ m) →
        (x.joins.length + 2 < x.members.length → exec (.joinReceive p) s
          = .next (s.setGroup g { x with joins := x.joins ++ [(m, bits w 31 0)] }))
        ∧ (x.members.length ≤ x.joins.length + 2 → ∀ ok, ok = decide (∀ j ∈ x.joins ++ [(m, bits w 31 0)], j.2 = x.digest) →
          ∃ t, exec (.joinReceive p) s = .next t ∧ (t.group g).st = (if ok then 2 else 3)
            ∧ (ok = false → (t.group g).code = 0xB2 ∧ t.fld Reg.COLL_FAULT 35 28 = 0xB2)
            ∧ (ok = true → t.regs = s.regs ∧ s.SameMemory t)
            ∧ t.route.queue = s.route.queue ++ (x.members.drop 1).map fun n =>
              ⟨s.colPacket g n 2 g (leBytes 8 (if ok then 0 else 1)), .unit, none, 0, true⟩))
      ∧ (x.st ≠ 0 → (x.st ≠ 1 ∨ x.members[0]? ≠ some p.src) → exec (.readyReceive p) s = .next s)
      ∧ (x.st = 1 → x.members[0]? = some p.src →
        (bits w 0 0 = 0 → exec (.readyReceive p) s = .next (s.setGroup g { x with st := 2, joins := [] }))
        ∧ (bits w 0 0 = 1 → ∃ t, exec (.readyReceive p) s = .next t ∧ (t.group g).st = 3 ∧ (t.group g).code = 0xB2
          ∧ t.fld Reg.COLL_FAULT 35 28 = 0xB2)))

/-- A write of COLL_TAIL reads each new descriptor once: a good one is queued on its group with the next sequence
number; a bad one is completed at once with its status, and COLL_HEAD passes it (R380). The earliest operation of a
READY group that has not started becomes active when its trigger is met, fewer than four of the group are active and
its context is RESIDENT; else it waits (R381, R422); one for which a pull waits of a chunk it does not serve is
aborted with status 9 (R382). A member below the root of a broadcast of one chunk asks its parent for it (R383,
R385). The exchange takes its own data as its first partial, and without neighbours it is past its last step at once
(R394). An operation whose chunks are all complete ends with status 0 and its sequence number in the descriptor; an
exchange writes OUT first, and ends with status 10 and COLL_FAULT where contributors are missing (R381, R394). An
operation without progress in time is aborted: ABORT goes to every other member, and the code and the member are
recorded (R387, R388). An ABORT from a member ends the operation with the status it carries, and one for a
descriptor still to come is kept (R387). A timer that finds no operation only counts in LATE_MARGIN (R87). -/
def Obligations.DescriptorsStartAndEnd : Prop :=
  ∀ (s : State) (v : W64) (p : Arrived) (g seq a st tl : Nat) (x : Group) (d : List Byte) (o : CollOp), s.Inv →
    tWf groupNone s.coll.groups = true → g < 4096 → x = s.group g →
    (s.Accepts Reg.COLL_TAIL v → tl = s.coll.tail → tl < 2 ^ 32 →
      ((s.fld Reg.COLL_RING 4 0 = 0 ∨ bits v.toNat 31 0 = tl) → exec (.collTail v) s = .next s)
      ∧ (0 < s.fld Reg.COLL_RING 4 0 → bits v.toNat 31 0 = (tl + 1) % 2 ^ 32 → s.poison = [] → s.readFailed = [] → s.coll.aborted = [] →
        a = s.fld Reg.COLL_RING 51 12 * 4096 + tl % 2 ^ s.fld Reg.COLL_RING 4 0 * 64 → a + 64 ≤ memSpace → d = s.rd a 64 →
        g = cdGroup d → st = s.cdStatus d →
        (st = 0 → ∃ t, exec (.collTail v) s = .next t ∧ t.coll.ops = s.coll.ops ++ [{ group := g, seq := x.nextSeq, ring := tl, addr := a, desc := d }]
          ∧ t.group g = { x with nextSeq := (x.nextSeq + 1) % 2 ^ 16 } ∧ t.coll.tail = (tl + 1) % 2 ^ 32
          ∧ s.RegsBut [Reg.TALLY_LIFE 0] t ∧ s.SameMemory t)
        ∧ (st ≠ 0 → s.coll.ringDone = [] → s.fld Reg.COLL_HEAD 31 0 = tl → ∃ t, exec (.collTail v) s = .next t
          ∧ t.coll.ops = s.coll.ops ∧ t.rd (a + 0x28) 16 = leBytes 8 st ++ leBytes 8 0
          ∧ t.fld Reg.COLL_HEAD 31 0 = (tl + 1) % 2 ^ 32 ∧ t.coll.ringDone = []
          ∧ (st = 6 → t.fld Reg.COLL_FAULT 35 28 = 0xB4) ∧ (st ≠ 6 → s.MemoryBut (a + 0x28) 16 t))))
    ∧ (((∀ q ∈ s.coll.ops, q.group = g → q.active = true) ∨ x.st ≠ 2
        ∨ 4 ≤ (s.coll.ops.filter fun q => q.group == g && q.active).length ∨ s.ctxResident (grpCtx x.entry) = false) →
      exec (.collOpStart g) s = .next s)
    ∧ (s.coll.ops = [o] → o.group = g → o.seq = seq → o.active = false → x.st = 2 → s.ctxResident (grpCtx x.entry) = true → s.poison = [] →
      s.readFailed = [] →
      ((cdTrig o.desc ≠ 0xFF ∧ s.regNat (Reg.MSEM_SEM (cdTrig o.desc)) < cdTrigValue o.desc) →
        exec (.collOpStart g) s = .next s)
      ∧ ((cdTrig o.desc = 0xFF ∨ cdTrigValue o.desc ≤ s.regNat (Reg.MSEM_SEM (cdTrig o.desc))) →
        (∀ y, (s.coll.pulls.find? fun y => y.group == g && y.seq == seq && !s.servesPull o y) = some y →
          ∃ t, exec (.collOpStart g) s = .next t ∧ t.coll.ops = [] ∧ t.fld Reg.COLL_FAULT 35 28 = 0xB6
            ∧ t.fld Reg.COLL_FAULT 43 36 = 9)
        ∧ ((∀ y ∈ s.coll.pulls, y.group = g → y.seq = seq → s.servesPull o y = true) →
        (∃ t, exec (.collOpStart g) s = .next t ∧ ∃ q, t.coll.ops = [q] ∧ q.active = true ∧ q.seq = seq ∧ q.group = g ∧ q.desc = o.desc)
        ∧ (cdOp o.desc = 4 → chunkCount x.entry o.desc = 1 → o.work = [] → o.begun = 0 → x.used = [] → 4 ≤ x.staging.length →
          (s.tree g o.desc 0).1 ≠ 0 → ∃ t, exec (.collOpStart g) s = .next t
          ∧ t.coll.ops = [{ o with active := true, begun := 1, work := [{ index := 0, stage := .await, pull := some { peer := (s.tree g o.desc 0).2.2, slot := 0, phase := 1 } }] }]
          ∧ (t.group g).used = [0] ∧ t.regs = s.regs ∧ s.SameMemory t
          ∧ s.QueueGets t fun q => q.dest = (x.members[(s.tree g o.desc 0).2.2]?).getD 0 ∧ q.cls = 6 ∧ q.type = 3
            ∧ q.arg = BitVec.ofNat 64 (colArg g seq 0 0 1) ∧ q.payload = leBytes 8 x.self)
        ∧ (cdOp o.desc = 6 → (∀ k ∈ [1, 2, 3, 4, 15], s.llPeers k = []) → ∃ t, exec (.collOpStart g) s = .next t
          ∧ t.coll.ops = [{ o with active := true, step := 16, part := s.rd (cdIn o.desc) (cdLength o.desc), count := 1, deadBefore := s.deadMembers x }]
          ∧ t.route = s.route ∧ s.SameMemory t ∧ s.RegsBut [Reg.TALLY_LIFE 0] t))))
    ∧ ((∀ q ∈ s.coll.ops, q.group ≠ g ∨ q.seq ≠ seq) → exec (.collOpComplete g seq) s = .next s
      ∧ exec (.collProgressTimeout g seq) s = .next (s.tallyAdd Pg.BELL 3 1))
    ∧ (s.coll.ops = [o] → o.group = g → o.seq = seq → s.coll.ringDone = [] → s.fld Reg.COLL_HEAD 31 0 = o.ring → o.addr + 64 ≤ memSpace →
      (cdOp o.desc = 6 → o.step ≠ 16 → exec (.collOpComplete g seq) s = .next s)
      ∧ (cdOp o.desc = 6 → o.step = 16 → cdOut o.desc + o.part.length ≤ memSpace →
        (o.count = grpCount x.entry - o.deadBefore → ∃ t, exec (.collOpComplete g seq) s = .next t ∧ t.coll.ops = []
          ∧ t.rd (cdOut o.desc) o.part.length = o.part ∧ s.MemoryBut (cdOut o.desc) o.part.length t
          ∧ t.fld Reg.COLL_HEAD 31 0 = (o.ring + 1) % 2 ^ 32)
        ∧ (o.count ≠ grpCount x.entry - o.deadBefore → ∃ t, exec (.collOpComplete g seq) s = .next t ∧ t.coll.ops = []
          ∧ t.fld Reg.COLL_FAULT 35 28 = 0xB8 ∧ t.fld Reg.COLL_FAULT 43 36 = 10))
      ∧ (cdOp o.desc ≠ 6 → s.allChunks o = false → exec (.collOpComplete g seq) s = .next s)
      ∧ (cdOp o.desc ≠ 6 → o.active = true → o.work = [] → o.finished = chunkCount x.entry o.desc → seq < 2 ^ 64 →
        ∃ t, exec (.collOpComplete g seq) s = .next t
        ∧ t.coll.ops = [] ∧ t.rd (o.addr + 0x28) 16 = leBytes 8 0 ++ leBytes 8 seq ∧ s.MemoryBut (o.addr + 0x28) 16 t
        ∧ t.fld Reg.COLL_HEAD 31 0 = (o.ring + 1) % 2 ^ 32 ∧ s.RegsBut [Reg.COLL_HEAD, Reg.TALLY_LIFE 1] t ∧ t.route = s.route)
      ∧ (o.active = false → exec (.collProgressTimeout g seq) s = .next s)
      ∧ (o.active = true → ∃ t, exec (.collProgressTimeout g seq) s = .next t ∧ t.coll.ops = []
        ∧ t.fld Reg.COLL_FAULT 35 28 = 0xB6 ∧ t.fld Reg.COLL_FAULT 43 36 = 3 ∧ t.bit (Reg.PAGE_IRQ_RAW Pg.COLL) 0 = true
        ∧ t.route.queue = s.route.queue ++ (x.members.filter fun n => n != s.node).map fun n =>
          ⟨s.colPacket g n 8 (colArg g seq 0 0 0) (leBytes 8 (3 + x.self * 2 ^ 8)), .unit, none, 0, true⟩))
    ∧ (g = caGroup p.arg → seq = caSeq p.arg →
      (x.st = 0 → exec (.abortReceive p) s = .next (s.tallyAdd Pg.COLL 14 1))
      ∧ (x.st ≠ 0 → p.src ∉ x.members → exec (.abortReceive p) s = .next s)
      ∧ (x.st ≠ 0 → p.src ∈ x.members →
        (s.coll.ops = [o] → o.group = g → o.seq = seq → o.addr + 64 ≤ memSpace → ∃ t, exec (.abortReceive p) s = .next t ∧ t.coll.ops = []
          ∧ t.rd (o.addr + 0x28) 16 = leBytes 8 (bits (fieldAt p.payload 0 8) 7 0) ++ leBytes 8 seq
          ∧ s.MemoryBut (o.addr + 0x28) 16 t ∧ t.route = s.route)
        ∧ ((∀ q ∈ s.coll.ops, q.group ≠ g ∨ q.seq ≠ seq) → (∀ y ∈ s.coll.aborted, y.1 ≠ g ∨ y.2.1 ≠ seq) →
          (seqAhead x.nextSeq seq = true → exec (.abortReceive p) s = .next { s with coll := { s.coll with
            aborted := s.coll.aborted ++ [(g, seq, bits (fieldAt p.payload 0 8) 7 0)] } })
          ∧ (seqAhead x.nextSeq seq = false → exec (.abortReceive p) s = .next s))))

/-- A PULL for a chunk that is ready is answered with its DATA and its END, whose word carries the chunk CRC, the
length and the operation; one that comes early waits in the pull table, or is answered RETRY when the table is full;
one that the operation does not serve aborts it with status 9; one from no member, or of a FAILED or BROKEN group,
is ignored (R382, R385, R386). DATA lands in the reserved slot at its place, once each; END is kept until every byte
has come (R386). A whole chunk whose CRC fails is pulled again, and the third time the operation is aborted and the
fault reported; a length or operation that differs aborts it with status 9, and a staging slot in host memory that
cannot be read aborts it with status 1 (R382, R386, R387). A whole chunk that passes is acknowledged; coming down to
a member without children it is written to OUT and complete, and a partial is added to the member's own (R383, R384,
R386). The parent's ACK ends a chunk going up, the last child's ACK one going down (R386). RETRY holds a pull back,
and it goes out again afterwards (R385). An exchange partial is kept while its operation is to come, added once for
its step, and ignored when it is late or was there before (R394). A packet of a FREE group is counted (R379). -/
def Obligations.ChunksMoveByPull : Prop :=
  ∀ (s : State) (p : Arrived) (g seq c m n ph w a : Nat) (x : Group) (o : CollOp) (k : Chunk) (q : PullOut) (d acc : List Byte) (z : LlrIn),
    s.Inv → tWf groupNone s.coll.groups = true → g = caGroup p.arg → seq = caSeq p.arg → c = caChunk p.arg → ph = caPhase p.arg →
    x = s.group g → w = fieldAt p.payload 0 8 → m = bits w 14 0 →
    (x.st = 0 → ∀ i ∈ [Instr.pullReceive p, .dataReceive p, .endReceive p, .collAckReceive p, .retryReceive p],
      exec i s = .next (s.tallyAdd Pg.COLL 14 1))
    ∧ (x.st ≠ 0 → (x.st = 3 ∨ x.st = 4 ∨ x.members[m]? ≠ some p.src) → exec (.pullReceive p) s = .next s)
    ∧ (x.st = 1 ∨ x.st = 2 → x.members[m]? = some p.src →
      ((∀ y ∈ s.coll.ops, y.group ≠ g ∨ y.seq ≠ seq) →
        (x.st = 2 → seqAhead x.nextSeq seq = false → exec (.pullReceive p) s = .next s)
        ∧ ((x.st = 1 ∨ seqAhead x.nextSeq seq = true) → s.coll.pulls.length < 8192 → exec (.pullReceive p) s
          = .next (({ s with coll := { s.coll with pulls := s.coll.pulls ++ [⟨g, seq, c, ph, m⟩] } } : State).tallyMax Pg.COLL 15
              (s.coll.pulls.length + 1)))
        ∧ ((x.st = 1 ∨ seqAhead x.nextSeq seq = true) → 8192 ≤ s.coll.pulls.length → exec (.pullReceive p) s
          = .next ((s.send (s.colPacket g p.src 7 (colArg g seq c 0 ph) [])).tallyAdd Pg.COLL 13 1)))
      ∧ (s.coll.ops = [o] → o.group = g → o.seq = seq → o.active = true →
        (s.servesPull o ⟨g, seq, c, ph, m⟩ = false → ∃ t, exec (.pullReceive p) s = .next t ∧ t.coll.ops = []
          ∧ t.fld Reg.COLL_FAULT 35 28 = 0xB6 ∧ t.fld Reg.COLL_FAULT 43 36 = 9)
        ∧ (s.servesPull o ⟨g, seq, c, ph, m⟩ = true → o.work = [k] → k.index = c → (if ph = 0 then k.stage = .up else k.stage = .down) →
          s.ctxResident (grpCtx x.entry) = true → n = chunkLen x.entry o.desc c → 0 < n → n ≤ 4096 → d = s.slotRead g (k.slot.getD 0) n →
          (s.SlotsRead g k.slot.toList n → ∃ t, exec (.pullReceive p) s = .next t
            ∧ t = { s with regs := t.regs, tally := t.tally, readFailed := t.readFailed, route := t.route }
            ∧ s.RegsBut [Reg.TALLY_LIFE 0] t
            ∧ t.route = { s.route with queue := s.route.queue
              ++ [⟨s.colPacket g p.src 4 (colArg g seq c 0 ph) d, .unit, none, 0, true⟩,
                  ⟨s.colPacket g p.src 5 (colArg g seq c 0 ph) (leBytes 8 (chunkCrcOf g seq c x.self ph d + n * 2 ^ 32
                    + cdOp o.desc * 2 ^ 53)), .unit, none, 0, true⟩] })
          ∧ (¬s.SlotsRead g k.slot.toList n → ∃ t, exec (.pullReceive p) s = .next t ∧ t.coll.ops = []
            ∧ t.fld Reg.COLL_FAULT 35 28 = 0xB6 ∧ t.fld Reg.COLL_FAULT 43 36 = 1))))
    ∧ (x.st ≠ 0 → (∀ y ∈ s.coll.ops, y.group ≠ g ∨ y.seq ≠ seq) →
      ∀ i ∈ [Instr.dataReceive p, .endReceive p, .collAckReceive p, .retryReceive p, .pullRetry g seq c], exec i s = .next s)
    ∧ (x.st ≠ 0 → s.coll.ops = [o] → o.group = g → o.seq = seq → o.work = [k] → k.index = c → k.pull = some q →
      (∀ r, r = bits p.arg.toNat 60 53 → q.phase = ph → x.members[q.peer]? = some p.src →
        ((r ∈ q.packets ∨ 2 ^ grpLog2 x.entry < r * 4096 + p.payload.length) → exec (.dataReceive p) s = .next s)
        ∧ (r ∉ q.packets → r * 4096 + p.payload.length ≤ 2 ^ grpLog2 x.entry → q.endSeen = none → exec (.dataReceive p) s
          = .next ((s.slotWrite g q.slot (r * 4096) p.payload).modOp g seq (CollOp.modChunk c fun k =>
            { k with pull := some { q with packets := r :: q.packets, bytes := q.bytes + p.payload.length } })))
        ∧ (exec (.retryReceive p) s = .next (s.modOp g seq (CollOp.modChunk c fun k => { k with pull := some { q with retry := true } })))
        ∧ (n = chunkLen x.entry o.desc c → d = s.slotRead g q.slot n →
          ((bits w 55 53 ≠ cdOp o.desc ∨ bits w 52 32 ≠ n) → ∃ t, exec (.endReceive p) s = .next t ∧ t.coll.ops = []
            ∧ t.fld Reg.COLL_FAULT 35 28 = 0xB6 ∧ t.fld Reg.COLL_FAULT 43 36 = 9)
          ∧ (bits w 55 53 = cdOp o.desc → bits w 52 32 = n → q.bytes < n → exec (.endReceive p) s
            = .next (s.modOp g seq (CollOp.modChunk c fun k =>
              { k with pull := some { q with endSeen := some (bits w 31 0, n, cdOp o.desc) } })))
          ∧ (bits w 55 53 = cdOp o.desc → bits w 52 32 = n → n ≤ q.bytes → ¬s.SlotsRead g (q.slot :: k.slot.toList) n →
            ∃ t, exec (.endReceive p) s = .next t ∧ t.coll.ops = [] ∧ t.fld Reg.COLL_FAULT 35 28 = 0xB6
              ∧ t.fld Reg.COLL_FAULT 43 36 = 1)
          ∧ (bits w 55 53 = cdOp o.desc → bits w 52 32 = n → n ≤ q.bytes →
            s.SlotsRead g (q.slot :: k.slot.toList) n → chunkCrcOf g seq c q.peer ph d ≠ bits w 31 0 →
            (q.fails < 2 → ∃ t, exec (.endReceive p) s = .next t ∧ t.fld Reg.COLL_FAULT 35 28 = 0xB5
              ∧ t.coll.ops = [{ o with work := [{ k with pull := some { peer := q.peer, slot := q.slot, phase := ph, fails := q.fails + 1 } }] }]
              ∧ s.QueueGets t fun y => y.dest = p.src ∧ y.cls = 6 ∧ y.type = 3 ∧ y.payload = leBytes 8 x.self)
            ∧ (2 ≤ q.fails → ∃ t, exec (.endReceive p) s = .next t ∧ t.coll.ops = [] ∧ t.fld Reg.COLL_FAULT 43 36 = 2
              ∧ t.bit Reg.SAFE_CAUSE 5 = true))
          ∧ (bits w 55 53 = cdOp o.desc → bits w 52 32 = n → n ≤ q.bytes →
            s.SlotsRead g (q.slot :: k.slot.toList) n → chunkCrcOf g seq c q.peer ph d = bits w 31 0 →
            o.begun = chunkCount x.entry o.desc →
            (k.slot = none → cdOp o.desc ≠ 5 → cdType o.desc ≠ 3 → (s.tree g o.desc c).1 ≠ 0 → (s.tree g o.desc c).2.1 = [] →
              a = cdOut o.desc + c * inChunk x.entry o.desc → 0 < n → a + n ≤ memSpace → ∃ t, exec (.endReceive p) s = .next t
              ∧ t.rd a n = d ∧ s.MemoryBut a n t ∧ t.coll.ops = [{ o with work := [], finished := o.finished + 1 }]
              ∧ s.RegsBut [Reg.TALLY_LIFE 0, Reg.TALLY_LIFE 1, Reg.TALLY_LIFE 10] t
              ∧ s.QueueGets t fun y => y.dest = p.src ∧ y.cls = 6 ∧ y.type = 6 ∧ y.payload = leBytes 8 x.self)
            ∧ (∀ b, k.slot = some b → k.stage = .gather → k.added + 1 < (s.tree g o.desc c).2.1.length →
              acc = reduceVec (cdType o.desc) (cdRed o.desc) (s.slotRead g b n) d → ∃ t k', exec (.endReceive p) s = .next t
              ∧ t.coll.ops = [{ o with work := [k'] }] ∧ k'.added = k.added + 1 ∧ k'.slot = some b ∧ k'.stage = .gather
              ∧ t.mem = (s.slotWrite g b 0 acc).mem ∧ t.sram = (s.slotWrite g b 0 acc).sram))))
      ∧ ((q.retry = false ∨ s.ctxResident (grpCtx x.entry) = false) → exec (.pullRetry g seq c) s = .next s)
      ∧ (q.retry = true → s.ctxResident (grpCtx x.entry) = true → exec (.pullRetry g seq c) s
        = .next ((s.modOp g seq (CollOp.modChunk c fun k => { k with pull := some { q with retry := false } })).send
          (s.colPacket g ((x.members[q.peer]?).getD 0) 3 (colArg g seq c 0 q.phase) (leBytes 8 x.self)))))
    ∧ (x.st ≠ 0 → s.coll.ops = [o] → o.group = g → o.seq = seq → o.work = [k] → k.index = c →
      ((¬(if ph = 0 then k.stage = .up ∧ (s.tree g o.desc c).2.2 = m else k.stage = .down ∧ m ∈ (s.tree g o.desc c).2.1)
          ∨ x.members[m]? ≠ some p.src) → exec (.collAckReceive p) s = .next s)
      ∧ (x.members[m]? = some p.src → o.begun = chunkCount x.entry o.desc →
        (ph = 0 → k.stage = .up → (s.tree g o.desc c).2.2 = m →
          (cdDown o.desc = false → ∃ t, exec (.collAckReceive p) s = .next t ∧ t = { s with coll := t.coll }
            ∧ t.coll.ops = [{ o with work := [], finished := o.finished + 1 }]
            ∧ (∀ b, k.slot = some b → b ∉ (t.group g).used))
          ∧ (cdDown o.desc = true → ∃ t k', exec (.collAckReceive p) s = .next t ∧ t.coll.ops = [{ o with work := [k'] }]
            ∧ k'.stage = .await ∧ k'.slot = none))
        ∧ (ph = 1 → k.stage = .down → m ∈ (s.tree g o.desc c).2.1 → k.pull = none →
          ((∀ y ∈ (s.tree g o.desc c).2.1, y = m ∨ y ∈ k.acks) → ∃ t, exec (.collAckReceive p) s = .next t ∧ t = { s with coll := t.coll }
            ∧ t.coll.ops = [{ o with work := [], finished := o.finished + 1 }])
          ∧ ((∃ y ∈ (s.tree g o.desc c).2.1, y ≠ m ∧ y ∉ k.acks) → ∃ t k', exec (.collAckReceive p) s = .next t
            ∧ t = { s with coll := { s.coll with ops := [{ o with work := [k'] }] } } ∧ k'.stage = .down ∧ m ∈ k'.acks))))
    ∧ (z = ⟨bits p.arg.toNat 20 9, bits p.arg.toNat 36 21, bits p.arg.toNat 7 4, p.src, bits p.arg.toNat 52 37, p.payload⟩ →
      ((s.group z.group).st = 0 → exec (.llrReceive p) s = .next (s.tallyAdd Pg.COLL 14 1))
      ∧ ((s.group z.group).st ≠ 0 →
        ((∃ y ∈ s.coll.llr, y.group = z.group ∧ y.seq = z.seq ∧ y.step = z.step ∧ y.node = z.node) → exec (.llrReceive p) s = .next s)
        ∧ (s.coll.llr = [] → s.coll.ops = [] →
          (seqAhead (s.group z.group).nextSeq z.seq = false → exec (.llrReceive p) s = .next s)
          ∧ (seqAhead (s.group z.group).nextSeq z.seq = true → exec (.llrReceive p) s
            = .next { s with coll := { s.coll with llr := [z] } }))
        ∧ (s.coll.llr = [] → s.coll.ops = [o] → o.group = z.group → o.seq = z.seq → o.active = true →
          (z.step < o.step → exec (.llrReceive p) s = .next s)
          ∧ (z.step = 15 → o.step = 15 → (∃ y, s.llPeers 15 = [(p.src, y)]) → exec (.llrReceive p) s
            = .next { s with coll := { s.coll with
                llr := [z]
                ops := [{ o with part := reduceVec (cdType o.desc) (cdRed o.desc) o.part p.payload, count := o.count + z.count, step := 16 }] } }))))

/-- A TIME message sets the time base of a lead forward to the time it carries with its path delay while the bell
has never gone, and records the step; afterwards it only sets the slew; the count never moves backward, and
TIME_MASTER shows it (R392, R507, R508). At any other slice it only goes on, and with the low-latency path off it
goes nowhere. LOAD puts its counts into the global tally table and changes nothing else (R393). A half whose digests
are complete shows them in DET_LAST, writes its record to the ring, the first 8 bytes last, and sends it to the
partner while lock-step runs; with DIGEST 0 none is formed (R404 to R409). A partner's record is compared with the
own one of that half: equal digests only end the wait, another token count and the first stage that differs are
recorded, latched in DET_DIV while none is, and reported by class where the control asks (R409, R410). One without a
counterpart waits, the oldest giving way with a record when 64 wait, and one of a half long formed is discarded;
without lock-step every record is discarded (R409, R411). The oldest own record is recorded as lost once TIMEOUT_US
has passed since its writing, and not before (R411). DET_DIV_CLR clears the latch (R413). -/
def Obligations.TimeLoadAndDigests : Prop :=
  ∀ (s : State) (p : Arrived) (h : Half) (a : AdmSet) (r : Round) (b l rec_ : List Byte) (v : W64) (time delay tm slot g : Nat) (ds : List Nat), s.Inv →
    (time = fieldAt p.payload 0 8 → delay = fieldAt p.payload 8 4 →
      ((s.bit Reg.COLL_LL 0 = false ∨ bits p.arg.toNat 7 4 = 15) → s.isLead = false → exec (.timeReceive p) s = .next s)
      ∧ (s.isLead = false → ∃ t, exec (.timeReceive p) s = .next t ∧ t = { s with links := t.links, route := t.route, tally := t.tally })
      ∧ (s.isLead = true → ∃ t, exec (.timeReceive p) s = .next t ∧ t.bit Reg.TIME_MASTER 49 = true
        ∧ t.fld Reg.TIME_MASTER 47 32 = delay % 2 ^ 16 ∧ s.now ≤ t.now
        ∧ (s.bell.everGo = false → t.now = max s.now (time + delay)
          ∧ (s.now < time + delay → t.bit (Reg.PAGE_IRQ_RAW Pg.TIME) 0 = true))
        ∧ (s.bell.everGo = true → t.now = s.now ∧ t.start.slew = (time : Int) + (delay : Int) - (s.now : Int))))
    ∧ (∃ t, exec (.loadReceive p) s = .next t ∧ t = { s with res := { s.res with global := t.res.global } }
      ∧ (p.payload = [] → t = s)
      ∧ (p.payload.length = 4 → t.res.global = tSet zeroNat (bits (leNat p.payload) 14 0) (bits (leNat p.payload) 31 15) s.res.global))
    ∧ ((∀ d ∈ s.det.due, d.1 ≠ h) → exec (.halfDigestDone h) s = .next s)
    ∧ (s.det.due = [(h, a, r)] →
      (s.bit Reg.DET_CTL 0 = false → exec (.halfDigestDone h) s = .next { s with det := { s.det with due := [] } })
      ∧ (s.bit Reg.DET_CTL 0 = true → s.bit Reg.DET_CTL 3 = false → (s.pairOn = false ∨ s.det.partners = [] ∧ s.det.locals.length < 64) → ds = [1, 2, 3, 4, 5].map (halfDigest r.layer h r.toks) →
        rec_ = halfRecord a.bell r.layer h r.toks.length ds →
        slot = s.fld Reg.DET_RING 51 12 * 4096 + s.fld Reg.DET_STAT 31 0 % 2 ^ s.fld Reg.DET_RING 4 0 * 64 → slot + 64 ≤ memSpace →
        ∃ t, exec (.halfDigestDone h) s = .next t ∧ t.det.due = []
        ∧ t.reg Reg.DET_LAST_ID = BitVec.ofNat 64 (r.layer + h.num * 2 ^ 8 + a.bell % 2 ^ 48 * 2 ^ 16)
        ∧ (∀ i < 5, t.reg (Reg.DET_LAST_S1 + 8 * i) = BitVec.ofNat 64 (halfDigest r.layer h r.toks (i + 1)))
        ∧ (s.fld Reg.DET_RING 51 12 ≠ 0 → t.rd (slot + 8) 56 = rec_.drop 8 ∧ s.MemoryBut (slot + 8) 56 t
          ∧ tFind s.nextChain t.chains = some [.bytes slot (rec_.take 8)]
          ∧ t.fld Reg.DET_STAT 31 0 = (s.fld Reg.DET_STAT 31 0 + 1) % 2 ^ 32)
        ∧ (s.fld Reg.DET_RING 51 12 = 0 → s.SameMemory t)
        ∧ (s.pairOn = false → t.route = s.route ∧ s.RegsBut [Reg.DET_LAST_ID, Reg.DET_LAST_S1, Reg.DET_LAST_S1 + 8, Reg.DET_LAST_S1 + 16,
            Reg.DET_LAST_S1 + 24, Reg.DET_LAST_S1 + 32, Reg.DET_STAT, Reg.TALLY_LIFE 1] t)
        ∧ (s.pairOn = true → s.det.partners = [] → s.det.locals = [] → t.det.locals = [(rec_, s.now)]
          ∧ s.QueueGets t fun m => m.dest = s.fld Reg.DET_PAIR 22 0 ∧ m.cls = 0 ∧ m.type = 0x41 ∧ m.payload = rec_)))
    ∧ (s.pairOn = false → exec (.detDigestReceive b) s = .next s)
    ∧ (s.pairOn = true → (∀ x ∈ s.det.locals, hrSame x.1 b = false) →
      ((∃ k, tFind (hrHalf b) s.det.formed = some k ∧ hrBell b * 256 + hrLayer b ≤ k) → exec (.detDigestReceive b) s = .next s)
      ∧ ((∀ k, tFind (hrHalf b) s.det.formed = some k → k < hrBell b * 256 + hrLayer b) →
        (s.det.partners.length < 64 → ∃ t, exec (.detDigestReceive b) s = .next t
          ∧ t = { s with regs := t.regs, det := { s.det with partners := s.det.partners ++ [b] } }
          ∧ t.fld Reg.DET_STAT 46 40 = s.det.partners.length + 1 ∧ s.RegsBut [Reg.DET_STAT] t)
        ∧ (64 ≤ s.det.partners.length → ∃ t, exec (.detDigestReceive b) s = .next t
          ∧ t.det.partners = s.det.partners.drop 1 ++ [b] ∧ State.Recorded Pg.DET 0xC2 0 s t
          ∧ s.RegsBut (Reg.DET_STAT :: recordRegs Pg.DET) t)))
    ∧ (s.pairOn = true → s.det.locals = [(l, tm)] → hrSame l b = true →
      ((hrN l = hrN b ∧ ∀ k ∈ [1, 2, 3, 4, 5], hrDigest l k = hrDigest b k) → ∃ t, exec (.detDigestReceive b) s = .next t
        ∧ t.det = { s.det with locals := [] } ∧ s.RegsBut [Reg.DET_STAT] t ∧ s.SameMemory t)
      ∧ (hrN l ≠ hrN b → ∃ t, exec (.detDigestReceive b) s = .next t ∧ t.det.locals = [] ∧ t.bit (Reg.PAGE_IRQ_RAW Pg.DET) 0 = true
        ∧ t.bit (Reg.PAGE_IRQ_RAW Pg.DET) 2 = true ∧ t.bit Reg.DET_DIV 12 = true
        ∧ (s.bit Reg.DET_DIV 12 = false → t.reg Reg.DET_DIV = BitVec.ofNat 64 (hrLayer l + hrHalf l * 2 ^ 8 + 2 ^ 12 + 2 ^ 13)
          ∧ t.regNat Reg.DET_DIV_BELL = hrBell l)
        ∧ (s.bit Reg.DET_DIV 12 = true → t.reg Reg.DET_DIV = s.reg Reg.DET_DIV))
      ∧ (hrN l = hrN b → g ∈ [1, 2, 3, 4, 5] → hrDigest l g ≠ hrDigest b g → (∀ k, 1 ≤ k → k < g → hrDigest l k = hrDigest b k) →
        ∃ t, exec (.detDigestReceive b) s = .next t ∧ t.det.locals = [] ∧ t.bit (Reg.PAGE_IRQ_RAW Pg.DET) 2 = true
        ∧ (s.bit Reg.DET_DIV 12 = false → t.reg Reg.DET_DIV = BitVec.ofNat 64 (hrLayer l + hrHalf l * 2 ^ 8 + g * 2 ^ 9 + 2 ^ 12)
          ∧ t.regNat Reg.DET_DIV_BELL = hrBell l)
        ∧ (s.bit Reg.DET_CTL 2 = false → t.reg Reg.SAFE_CAUSE = s.reg Reg.SAFE_CAUSE)
        ∧ (s.bit Reg.DET_CTL 2 = true → t.bit Reg.SAFE_CAUSE (if g ≤ 3 then 3 else g) = true)))
    ∧ (s.det.locals = [] → exec .detPairTimeout s = .next (s.tallyAdd Pg.BELL 3 1))
    ∧ (s.det.locals = (l, tm) :: s.det.locals.drop 1 → s.now < tm + 1000 * s.fld Reg.DET_PAIR 41 32 →
      exec .detPairTimeout s = .next s)
    ∧ (s.det.locals = (l, tm) :: s.det.locals.drop 1 → tm + 1000 * s.fld Reg.DET_PAIR 41 32 ≤ s.now → s.det.locals.length ≤ 64 → ∃ t, exec .detPairTimeout s = .next t
      ∧ t.det = { s.det with locals := s.det.locals.drop 1 } ∧ t.fld Reg.DET_STAT 38 32 = s.det.locals.length - 1
      ∧ State.Recorded Pg.DET 0xC2 0 s t ∧ s.RegsBut (Reg.DET_STAT :: recordRegs Pg.DET) t)
    ∧ (s.Accepts Reg.DET_DIV_CLR v →
      (bits v.toNat 0 0 = 0 → exec (.detDivClr v) s = .next s)
      ∧ (bits v.toNat 0 0 = 1 → exec (.detDivClr v) s = .next ((s.setReg Reg.DET_DIV 0#64).setReg Reg.DET_DIV_BELL 0#64)))

/-- CREATE of an existing context, with a job it may not have, or without room is refused with its code in
CTX_FAULT; otherwise the context is SAVED at once with its job and tag, its partition frames out of the pool, or its
save area (R417, R419). DESTROY clears a RESIDENT or SAVED context, its semaphores and its place in the mask, waits
while the context is in between, and is refused for an ABSENT one; with CREATE it is dropped (R428, R432).
CTX_URGENT stops each RESIDENT context it names at once and takes it out of the mask; one already leaving goes on as
urgent; no other changes (R425). When its drain ends, no packet of its job being left in an output, a SPILL context
is saved and a PARTITION context is SAVED; a save writes its state area, whose bytes the manual leaves open, after
it the live buffers of the frames the context holds, each at its place, and without any no other byte; then the
context is SAVED, and an urgent one raises the vector (R420, R423, R425). A switch ends when no context is still
leaving and none that enters waits for free frames, and the restored ones enter at the next bell open; a late one is
recorded (R420). CTX_MODEL_AT arms and disarms a model switch; it begins when the old model's last round has ended,
and at its end the staged model and tables are in force; while a table has not passed its check it does not end
(R429). -/
def Obligations.ContextsAndModelsSwitch : Prop :=
  ∀ (s u : State) (v w : W64) (c job n a : Nat) (x : Ctx), s.Inv → tWf ctxNone s.ctx.ctxs = true → c < 4 → x = s.ctxAt c →
    (s.bound = true → setsReserved Reg.CTX_CREATE v = false → bits v.toNat 3 2 = 3 →
      ∀ i ∈ [Instr.ctxCreate v, .ctxDestroy v], ∃ t, exec i s = .next t
        ∧ s.Records Pg.CTX 0x03 (dropDetail Reg.CTX_CREATE false) t)
    ∧ (s.Accepts Reg.CTX_CREATE v → c = bits v.toNat 1 0 → job = bits v.toNat 47 32 →
      (bits v.toNat 2 2 = 1 → bits v.toNat 3 3 = 0 →
        (∀ code, (code = 0xCB ∧ x.st ≠ 0
            ∨ x.st = 0 ∧ (code = 0xCC ∧ s.ctxJobOk c job = false
              ∨ s.ctxJobOk c job = true ∧ (code = 0xC9 ∧ bits v.toNat 4 4 = 0
                  ∧ (bits v.toNat 12 8 = 0 ∨ 30 < bits v.toNat 12 8 ∨ s.freeFrames.length < bits v.toNat 12 8)
                ∨ code = 0xCA ∧ bits v.toNat 4 4 = 1 ∧ s.saveRun (bits v.toNat 21 16) = none))) →
          ∃ t, exec (.ctxCreate v) s = .next t ∧ t.ctx = s.ctx ∧ t.pool = s.pool ∧ t.fld Reg.CTX_FAULT 15 8 = code
            ∧ t.fld Reg.CTX_FAULT 7 0 = c ∧ t.bit (Reg.PAGE_IRQ_RAW Pg.CTX) 0 = true
            ∧ s.RegsBut (Reg.CTX_FAULT :: recordRegs Pg.CTX) t)
        ∧ (x.st = 0 → s.ctxJobOk c job = true →
          (bits v.toNat 4 4 = 0 → n = bits v.toNat 12 8 → 1 ≤ n → n ≤ 30 → n ≤ s.freeFrames.length →
            tWf frameFree s.pool.frames = true → ∃ t, exec (.ctxCreate v) s = .next t ∧ t.regs = s.regs ∧ s.SameMemory t
            ∧ t.ctxAt c = { st := 4, job := job, tag := s.stagedFld Reg.CTX_MODEL 63 32, outSince := s.now, partFrames := s.freeFrames.take n }
            ∧ (∀ f ∈ s.freeFrames.take n, t.frameUse f = .partition c none)
            ∧ (∀ f, f ∉ s.freeFrames.take n → t.frameUse f = s.frameUse f) ∧ ∀ k, k ≠ c → t.ctxAt k = s.ctxAt k)
          ∧ (bits v.toNat 4 4 = 1 → s.saveRun (bits v.toNat 21 16) = some a → exec (.ctxCreate v) s
            = .next (s.modCtx c fun _ => { st := 4, job := job, tag := s.stagedFld Reg.CTX_MODEL 63 32, outSince := s.now, spill := true, saveBase := a, saveMib := bits v.toNat 21 16 }))))
      ∧ (bits v.toNat 2 2 = 0 → bits v.toNat 3 3 = 1 →
        (x.st = 0 → ∃ t, exec (.ctxDestroy v) s = .next t ∧ t.ctx = s.ctx ∧ t.fld Reg.CTX_FAULT 15 8 = 0xCB)
        ∧ ((x.st = 1 ∨ x.st = 4) → ∃ t, exec (.ctxDestroy v) s = .next t ∧ t.ctxAt c = {}
          ∧ (∀ i < 32, t.reg (Reg.MSEM_SEM (32 * c + i)) = 0#64) ∧ t.bit Reg.CTX_RESIDENT c = false
          ∧ t.bit Reg.CTX_RESIDENT_LIVE c = false)
        ∧ (x.st ≠ 0 → x.st ≠ 1 → x.st ≠ 4 → exec (.ctxDestroy v) s
          = .next (s.modCtx c fun x => { x with destroyWaits := true }))))
    ∧ (s.Accepts Reg.CTX_URGENT v → ∃ t, exec (.ctxUrgent v) s = .next t ∧ s.SameMemory t
      ∧ s.RegsBut [Reg.CTX_RESIDENT, Reg.CTX_RESIDENT_LIVE] t
      ∧ (v.toNat.testBit c = false → t.ctxAt c = s.ctxAt c ∧ t.bit Reg.CTX_RESIDENT c = s.bit Reg.CTX_RESIDENT c)
      ∧ (v.toNat.testBit c = true →
        (x.st = 1 → (t.ctxAt c).st = 2 ∧ (t.ctxAt c).urgent = true ∧ t.bit Reg.CTX_RESIDENT c = false
          ∧ t.bit Reg.CTX_RESIDENT_LIVE c = false)
        ∧ ((x.st = 2 ∨ x.st = 3) → x.leaving = true → t.ctxAt c = { x with urgent := true } ∧ t.bit Reg.CTX_RESIDENT c = false)
        ∧ ((x.st = 0 ∨ 4 ≤ x.st ∨ x.st ≠ 1 ∧ x.leaving = false) → t.ctxAt c = x)))
    ∧ ((x.st ≠ 2 ∨ s.jobInOutputs x.job = true) → exec (.ctxDrainEnd c) s = .next s)
    ∧ (x.st = 2 → s.jobInOutputs x.job = false → x.spill = true → exec (.ctxDrainEnd c) s = .next (s.modCtx c fun x => { x with st := 3 }))
    ∧ (x.st = 2 → s.jobInOutputs x.job = false → x.spill = false → x.entering = false → x.destroyWaits = false → s.poison = [] →
      s.readFailed = [] → ∃ t, exec (.ctxDrainEnd c) s = .next t
      ∧ t.ctxAt c = { x with st := 4, urgent := false, leaving := false }
      ∧ (x.urgent = true → t.bit (Reg.PAGE_IRQ_RAW Pg.CTX) 2 = true))
    ∧ (x.st ≠ 3 → exec (.ctxSaveDone c) s = .next s)
    ∧ (x.st = 3 → x.entering = false → x.destroyWaits = false → s.poison = [] → s.readFailed = [] → x.saveBase + 262144 ≤ memSpace →
      ∃ t, exec (.ctxSaveDone c) s = .next t ∧ (t.ctxAt c).st = 4 ∧ (t.ctxAt c).urgent = false ∧ (t.ctxAt c).leaving = false
      ∧ t.free = s.free + 262144 ∧ (∀ i < 262144, t.rdByte (x.saveBase + i) = Config.freeByte (s.free + i))
      ∧ (x.urgent = true → t.bit (Reg.PAGE_IRQ_RAW Pg.CTX) 2 = true)
      ∧ (s.liveBufs c = [] → t.ctxAt c = { x with st := 4, urgent := false, leaving := false } ∧ s.MemoryBut x.saveBase 262144 t)
      ∧ (∀ id b, s.liveBufs c = [(id, b)] → bufFrame id < frameCount → x.saved = [] → x.urgent = false →
        n = bufIdx id % clsPerFrame (bufCls id) → a = x.saveBase + 262144 + n * clsBytes (bufCls id) →
        a + clsBytes (bufCls id) ≤ memSpace →
        t.rd a (clsBytes (bufCls id)) = s.rdSram (bufFrame id * frameBytes + n * clsBytes (bufCls id)) (clsBytes (bufCls id))
        ∧ (t.ctxAt c).saved = [⟨bufCls id, false, [(n, b)]⟩]))
    ∧ ((s.ctx.switching = false ∨ ∃ y ∈ s.ctx.ctxs, y.2.leaving = true) → exec .ctxSwitchDone s = .next s)
    ∧ (s.ctx.switching = true → (∀ y ∈ s.ctx.ctxs, y.1 < 4 ∧ y.2.leaving = false ∧ (y.2.entering = false ∨ y.2.st ≠ 4)) →
      ∃ t, exec .ctxSwitchDone s = .next t
      ∧ t.ctx.switching = false ∧ t.ctx.switchLate = false
      ∧ t.ctxAt c = (if x.st = 5 then { x with restored := true } else x)
      ∧ (s.ctx.switchLate = false → t.regs = s.regs) ∧ (s.ctx.switchLate = true → t.fld Reg.CTX_FAULT 15 8 = 0xCE))
    ∧ (s.ctx.ctxs = [(c, x)] → s.ctx.switching = true → x.leaving = false → x.entering = true → x.st = 4 →
      s.freeFrames.length < x.saved.length → exec .ctxSwitchDone s = .next s)
    ∧ (s.Accepts Reg.CTX_MODEL_AT v → u = s.setReg Reg.CTX_MODEL_AT v →
      (s.fld Reg.CTX_STATE 17 16 = 2 → exec (.ctxModelAtWrite v) s = .next u)
      ∧ (s.fld Reg.CTX_STATE 17 16 ≠ 2 → v = 0#64 → exec (.ctxModelAtWrite v) s
        = .next (({ u with ctx := { u.ctx with modelStopped := false } } : State).setFld Reg.CTX_STATE 17 16 0))
      ∧ (s.fld Reg.CTX_STATE 17 16 ≠ 2 → v ≠ 0#64 → exec (.ctxModelAtWrite v) s = .next (u.setFld Reg.CTX_STATE 17 16 1)))
    ∧ ((s.ctx.modelStopped = true ∧ s.fld Reg.CTX_STATE 17 16 = 1 ∧ ∀ y ∈ s.cal.sets ++ s.mus.sets, y.toks = []) →
      exec .modelSwitchStart s = .next (s.setFld Reg.CTX_STATE 17 16 2))
    ∧ (¬(s.ctx.modelStopped = true ∧ s.fld Reg.CTX_STATE 17 16 = 1 ∧ ∀ y ∈ s.cal.sets ++ s.mus.sets, y.toks = []) →
      exec .modelSwitchStart s = .next s)
    ∧ ((s.fld Reg.CTX_STATE 17 16 ≠ 2 ∨ ∃ r ∈ [Reg.KEYS_CHECK, Reg.SEL_CHECK, Reg.RES_DIR_STAT], s.fld r 1 0 = 1 ∨ s.fld r 1 0 = 3) →
      exec .modelSwitchDone s = .next s)
    ∧ (s.fld Reg.CTX_STATE 17 16 = 2 → (∀ r ∈ [Reg.KEYS_CHECK, Reg.SEL_CHECK, Reg.RES_DIR_STAT], s.fld r 1 0 ≠ 1 ∧ s.fld r 1 0 ≠ 3) →
      ∃ t, exec .modelSwitchDone s = .next t ∧ t.fld Reg.CTX_STATE 17 16 = 0 ∧ t.ctx.modelStopped = false
      ∧ (tFind Reg.CTX_MODEL s.staged = some v → t.reg Reg.CTX_MODEL = v)
      ∧ (tFind Reg.KEYS_TABLE s.staged = some w → s.score.keysPassed.isSome = true → t.reg Reg.KEYS_TABLE_LIVE = w)
      ∧ (tFind Reg.SEL_TABLE s.staged = some w → s.score.selPassed.isSome = true → t.reg Reg.SEL_TABLE_LIVE = w))

/-- A write of SAFE_CAUSE clears each cause it names, but one of which a tile or lane is fenced and not retired yet,
which is refused with its code, and one found in this cycle; when none is left SAFE_FIRST and SAFE_FIRST_BELL are
emptied (R439). A clean scrub read changes nothing and the end of a pass adds 1 to its count; a corrected error is
counted, and the one past the threshold in a bell marks the bank and is recorded (R447, R449). An uncorrectable word
of stall SRAM is recorded; a token record in it is tainted and the fault reported, an idle one only remembered, and
a second error there marks the bank; a key store word of a bank or of the projection area is fetched again, and at
its second error in a bell reported (R143, R448). A latent test of a ready spare or a checker is counted; a spare
that fails is never used, a failing checker is cause 8 (R450). A flagged controller is fenced while the other runs;
otherwise the slice goes fail-silent: state FAILED, the heartbeat stops, PSAFE_DEAD and the alarm say so (R458,
R459). SPARE_RETIRE marks a unit, and is refused at its floor without a spare (R456). -/
def Obligations.FaultsAndTestsAreRecorded : Prop :=
  ∀ (s : State) (v : W64) (c kind index n p cause : Nat) (w : SramWord) (h : Half) (e off bk ad : Nat) (flagged : Bool) (rc : SiteRec), s.Inv →
    (s.Accepts Reg.SAFE_CAUSE v → ∃ t, exec (.safeCauseClear v) s = .next t
      ∧ (∀ k < 9, t.bit Reg.SAFE_CAUSE k = (s.bit Reg.SAFE_CAUSE k
        && (!v.getLsbD k || s.foundNow k || s.safe.marks.any fun m => m.cls == k && m.fenced)))
      ∧ (t.reg Reg.SAFE_CAUSE = 0#64 → t.reg Reg.SAFE_FIRST = 0#64 ∧ t.reg Reg.SAFE_FIRST_BELL = 0#64)
      ∧ (t.reg Reg.SAFE_CAUSE ≠ 0#64 → t.reg Reg.SAFE_FIRST = s.reg Reg.SAFE_FIRST ∧ t.fld Reg.SAFE_ALARM 1 0 = 2)
      ∧ ((∀ m ∈ s.safe.marks, m.fenced = false) → s.SameMemory t
        ∧ s.RegsBut [Reg.SAFE_CAUSE, Reg.SAFE_FIRST, Reg.SAFE_FIRST_BELL, Reg.SAFE_ALARM, Reg.PSAFE_CAUSE] t)
      ∧ ((∃ m ∈ s.safe.marks, m.cls < 9 ∧ m.fenced = true ∧ v.getLsbD m.cls = true ∧ s.foundNow m.cls = false
        ∧ s.bit Reg.SAFE_CAUSE m.cls = true) →
        t.bit (Reg.PAGE_IRQ_RAW Pg.SAFE) 0 = true))
    ∧ exec (.scrubRead w .clean) s = .next s
    ∧ exec (.scrubRead w .passEnd) s = .next (s.setFld Reg.SAFE_LATENT 63 32 (s.fld Reg.SAFE_LATENT 63 32 + 1))
    ∧ ((∃ h' e' o', w = .record h' e' o' bk ad) ∨ (∃ i, w = .buffer i bk ad) ∨ (∃ h', w = .auction h' bk ad) ∨ w = .idle bk ad →
      n = tGet zeroNat (4 * 256 + bk) s.safe.corrected + 1 → ∃ t, exec (.scrubRead w .corrected) s = .next t
      ∧ tGet zeroNat (4 * 256 + bk) t.safe.corrected = n ∧ t.reg (Reg.TALLY_LIFE 13) = s.reg (Reg.TALLY_LIFE 13) + 1#64
      ∧ (n ≠ s.fld Reg.SPARE_THRESH 15 0 + 1 → s.RegsBut [Reg.TALLY_LIFE 13] t ∧ s.SameMemory t ∧ t.safe.marks = s.safe.marks)
      ∧ (n = s.fld Reg.SPARE_THRESH 15 0 + 1 → t.bit (Reg.PAGE_IRQ_RAW Pg.SAFE) 0 = true
        ∧ ∃ m ∈ t.safe.marks, m.kind = 4 ∧ m.index = bk))
    ∧ (∃ t, exec (.scrubRead (.idle bk ad) .uncorrectable) s = .next t ∧ State.Recorded Pg.SAFE 0xD8 0 s t
      ∧ s.RegsBut (recordRegs Pg.SAFE) t
      ∧ ((4 * 256 + bk) * 2 ^ 32 + ad % 2 ^ 32 ∉ s.safe.ueSeen → t.safe.marks = s.safe.marks
        ∧ (4 * 256 + bk) * 2 ^ 32 + ad % 2 ^ 32 ∈ t.safe.ueSeen)
      ∧ ((4 * 256 + bk) * 2 ^ 32 + ad % 2 ^ 32 ∈ s.safe.ueSeen → ∃ m ∈ t.safe.marks, m.kind = 4 ∧ m.index = bk))
    ∧ (tFind (recKey e off) (s.site h).recs = some rc → ∃ t, exec (.scrubRead (.record h e off bk ad) .uncorrectable) s = .next t
      ∧ tFind (recKey e off) (t.site h).recs = some { rc with taint := true } ∧ t.bit Reg.SAFE_CAUSE 5 = true)
    ∧ (indexOfNat bk (s.places 3) = some p → p < 20 → ad < 2 ^ 20 →
      (p * 2 ^ 20 + ad ∉ s.score.bankA.ueSeen → ∃ t, exec (.scrubRead (.keyStore bk ad) .uncorrectable) s = .next t
        ∧ t.score.bankA.refetch = some (p * 2 ^ 20 + ad, s.now) ∧ State.Recorded Pg.KEYS 0x34 0 s t ∧ s.RegsBut (recordRegs Pg.KEYS) t)
      ∧ (p * 2 ^ 20 + ad ∈ s.score.bankA.ueSeen → ∃ t, exec (.scrubRead (.keyStore bk ad) .uncorrectable) s = .next t
        ∧ t.bit Reg.SAFE_CAUSE 3 = true ∧ ∃ m ∈ t.safe.marks, m.kind = 3 ∧ m.index = bk))
    ∧ (indexOfNat bk (s.places 3) = some p → 40 ≤ p → ad < 2 ^ 20 →
      (p % 20 * 2 ^ 20 + ad ∉ s.score.projUe → ∃ t, exec (.scrubRead (.keyStore bk ad) .uncorrectable) s = .next t
        ∧ t.score.projUe = (p % 20 * 2 ^ 20 + ad) :: s.score.projUe ∧ State.Recorded Pg.KEYS 0x34 0 s t ∧ s.RegsBut (recordRegs Pg.KEYS) t
        ∧ ∀ h' : Half, (∀ h'' : Half, (s.half h'').cur.any (fun r => !r.toks.all RTok.scored) = (h'' == h')) →
          t.score.projRefetch = some (p % 20 * 2 ^ 20 + ad, s.now, h'))
      ∧ (p % 20 * 2 ^ 20 + ad ∈ s.score.projUe → ∃ t, exec (.scrubRead (.keyStore bk ad) .uncorrectable) s = .next t
        ∧ t.bit Reg.SAFE_CAUSE 3 = true ∧ ∃ m ∈ t.safe.marks, m.kind = 3 ∧ m.index = bk))
    ∧ (index ∉ s.spares kind → ∀ pass, exec (.latentTest (.spare kind index) pass) s = .next s)
    ∧ (∀ i : LatentItem, (∀ k j, i = .spare k j → j ∈ s.spares k) → exec (.latentTest i true) s
      = .next { s.tallyAdd Pg.SAFE 10 1 with safe := { s.safe with latent := tPut (itemKey i) s.now s.safe.latent } })
    ∧ (index ∈ s.spares kind → ∃ t, exec (.latentTest (.spare kind index) false) s = .next t ∧ index ∉ t.spares kind
      ∧ index ∉ t.inUse kind ∧ (kind, index) ∈ t.safe.failedTest ∧ t.bit (Reg.PAGE_IRQ_RAW Pg.SPARE) 0 = true)
    ∧ (∃ t, exec (.latentTest (.checker c) false) s = .next t ∧ t.bit Reg.SAFE_CAUSE 8 = true
      ∧ t.fld Reg.SAFE_ALARM 1 0 = 2 ∧ t.bit (Reg.PAGE_IRQ_RAW Pg.SAFE) 0 = true)
    ∧ (c < 2 → (s.bit Reg.SAFE_ALARM (3 + c) = true ∨ s.unitRetired 6 c = true) → exec (.mcodeCtrlError c flagged) s = .next s)
    ∧ (c < 2 → s.bit Reg.SAFE_ALARM (3 + c) = false → s.unitRetired 6 c = false →
      (flagged = true → s.bit Reg.SAFE_ALARM (3 + (1 - c)) = false → s.unitRetired 6 (1 - c) = false →
        ∃ t, exec (.mcodeCtrlError c flagged) s = .next t ∧ t.bit Reg.SAFE_ALARM (3 + c) = true ∧ t.safe = s.safe
        ∧ State.Recorded Pg.SAFE 0xD6 0 s t ∧ s.RegsBut (Reg.SAFE_ALARM :: recordRegs Pg.SAFE) t)
      ∧ ((flagged = false ∨ s.bit Reg.SAFE_ALARM (3 + (1 - c)) = true ∨ s.unitRetired 6 (1 - c) = true) →
        ∃ t, exec (.mcodeCtrlError c flagged) s = .next t ∧ t.safe.silent = true ∧ State.Recorded Pg.SAFE 0xD6 0 s t
        ∧ (s.safe.silent = false → t.slcState = 7)))
    ∧ (s.safe.silent = true → exec (.failSilent cause) s = .next s)
    ∧ (s.safe.silent = false → ∃ t, exec (.failSilent cause) s = .next t ∧ t.safe = { s.safe with silent := true } ∧ t.slcState = 7
      ∧ t.bit Reg.SAFE_ALARM 2 = false ∧ t.fld Reg.SAFE_ALARM 1 0 = 2
      ∧ (cause < 256 → t.reg Reg.PSAFE_DEAD = BitVec.ofNat 64 (s.slice + cause * 2 ^ 8 + s.bellNo % 2 ^ 48 * 2 ^ 16))
      ∧ s.RegsBut [Reg.SLC_STATE, Reg.SAFE_ALARM, Reg.PSAFE_DEAD, Reg.PSAFE_CAUSE] t ∧ s.SameMemory t)
    ∧ (s.Accepts Reg.SPARE_RETIRE v → kind = bits v.toNat 3 0 → index = bits v.toNat 11 4 →
      ((unitTotal kind ≤ index ∨ s.unitRetired kind index = true) → exec (.spareRetire v) s = .next s)
      ∧ (index < unitTotal kind → s.unitRetired kind index = false →
        (s.spares kind = [] → (s.inUse kind).length ≤ unitFloor kind → ∃ t, exec (.spareRetire v) s = .next t
          ∧ s.Records Pg.SPARE 0xDC (dropDetail Reg.SPARE_RETIRE false) t)
        ∧ ((s.spares kind ≠ [] ∨ unitFloor kind < (s.inUse kind).length) →
          (∀ m ∈ s.safe.marks, m.kind ≠ kind ∨ m.index ≠ index) → exec (.spareRetire v) s
          = .next { s with safe := { s.safe with marks := s.safe.marks ++ [⟨kind, index, 0, false, false⟩] } })))

/-- EBS_CFG takes its first write, shows the count of slices in the PKG page and starts the edges of a slice in
BINDING; a later write is dropped with WRITE_ONCE (R476). An edge that is not UP trains: with its partner's identity
it is UP with full credits, with another it is MISMATCH and recorded, with none DOWN (R476). A slice in BINDING
joins the package engine of a bound partner; with all its slices, or after the wait with a majority, its component
becomes the package engine and its lowest slice the lead, which each records; a minority is recorded once; a bound
slice takes slices in (R477, R481). An edge without a good frame for 40 us sends a silence note over the other edges
and holds it; when all are silent the slice goes fail-silent, but slice 0 of two (R460). A note is relayed once and
held. When every live partner of a slice has reported it the slice is dead: it leaves the live slices, the code is
recorded, and where it led the lowest live slice leads and records it (R460, R461). PSAFE_RETIRE and LEAD_MOVE are
noted for the next bell open, or refused where R463 and R482 say. -/
def Obligations.SlicesJoinAndLeave : Prop :=
  ∀ (s : State) (v : W64) (x edge l : Nat) (id : EdgeIdent) (comp : List Nat), s.Inv → tWf linkNone s.links = true → s.slice < 8 →
    (s.Accepts Reg.EBS_CFG v →
      (Reg.EBS_CFG ∈ s.start.onceWritten → ∃ t, exec (.ebsCfgWrite v) s = .next t ∧ s.Records Pg.EBS 0xE6 (dropDetail Reg.EBS_CFG false) t)
      ∧ (Reg.EBS_CFG ∉ s.start.onceWritten → ∃ t, exec (.ebsCfgWrite v) s = .next t ∧ t.reg Reg.EBS_CFG = v
        ∧ t.fld Reg.PKG_SLICES 11 8 = bits v.toNat 7 4 ∧ t.start.onceWritten = Reg.EBS_CFG :: s.start.onceWritten
        ∧ s.RegsBut [Reg.EBS_CFG, Reg.PKG_SLICES, Reg.EBS_STAT] t ∧ s.SameMemory t
        ∧ (s.slcState < 4 → t.reg Reg.EBS_STAT = s.reg Reg.EBS_STAT)
        ∧ (4 ≤ s.slcState → 2 ≤ bits v.toNat 7 4 → bits v.toNat 7 4 ≤ 8 → bits v.toNat 2 0 < bits v.toNat 7 4 → s.edgeState 0 = 0 → t.edgeState 0 = 2
          ∧ t.edgePartner 0 = (bits v.toNat 2 0 + 1) % bits v.toNat 7 4)))
    ∧ ((4 ≤ edge ∨ s.slcState < 4 ∨ s.slcState = 7 ∨ ¬(s.edgeState edge = 1 ∨ s.edgeState edge = 2 ∨ s.edgeState edge = 4)) →
      ∀ i, exec (.ebsEdgeRetry edge i) s = .next s)
    ∧ (edge < 4 → 4 ≤ s.slcState → s.slcState ≠ 7 → (s.edgeState edge = 1 ∨ s.edgeState edge = 2 ∨ s.edgeState edge = 4) →
      (exec (.ebsEdgeRetry edge none) s = .next (s.setFld Reg.EBS_STAT (4 * edge + 3) (4 * edge) 1))
      ∧ (id.slice = s.edgePartner edge → id.count = s.sliceCount → ∃ t, exec (.ebsEdgeRetry edge (some id)) s = .next t
        ∧ t.edgeState edge = 3 ∧ t.link (18 + edge) = { credits := fullCredits } ∧ s.RegsBut [Reg.EBS_STAT] t)
      ∧ ((id.slice ≠ s.edgePartner edge ∨ id.count ≠ s.sliceCount) → ∃ t, exec (.ebsEdgeRetry edge (some id)) s = .next t
        ∧ t.edgeState edge = 4 ∧ t.reg Reg.EBS_FAULT = BitVec.ofNat 64 (edge + 0xEA * 2 ^ 8 + id.slice % 8 * 2 ^ 16 + id.count % 16 * 2 ^ 20)
        ∧ t.bit (Reg.PAGE_IRQ_RAW Pg.EBS) 0 = true ∧ s.RegsBut (Reg.EBS_STAT :: Reg.EBS_FAULT :: recordRegs Pg.EBS) t))
    ∧ (comp.Nodup → (∀ y ∈ comp, y < 8) →
      (s.bound = true → ∀ b, ∃ t, exec (.packageBind comp b) s = .next t ∧ s.RegsBut [Reg.PKG_SLICES, Reg.PSAFE_SLICES] t ∧ s.SameMemory t
        ∧ ∀ y ∈ comp, t.bit Reg.PKG_SLICES y = true ∧ t.bit Reg.PKG_SLICES (16 + y) = false ∧ t.bit Reg.PSAFE_SLICES y = true)
      ∧ (s.bound = false → s.slcState ≠ 4 → ∀ b, exec (.packageBind comp b) s = .next s)
      ∧ (s.bound = false → s.slcState = 4 →
        (∃ t, exec (.packageBind comp (some l)) s = .next t ∧ t.bound = true ∧ t.slcState = 5 ∧ t.fld Reg.LEAD_STAT 2 0 = l % 8
          ∧ t.bit Reg.LEAD_STAT 3 = true ∧ ∀ y ∈ s.slice :: comp, t.bit Reg.PKG_SLICES y = true ∧ t.bit Reg.PSAFE_SLICES y = true)
        ∧ (comp.length ≠ s.sliceCount → s.now < s.start.bindSince + 1000000 * s.fld Reg.EBS_WAIT 9 0 →
          exec (.packageBind comp none) s = .next s)
        ∧ ((comp.length = s.sliceCount ∨ s.start.bindSince + 1000000 * s.fld Reg.EBS_WAIT 9 0 ≤ s.now) →
          (s.slice ∈ comp → (s.sliceCount < 2 * comp.length ∨ 2 * comp.length = s.sliceCount ∧ 0 ∈ comp) →
            ∃ t, exec (.packageBind comp none) s = .next t ∧ t.bound = true ∧ t.slcState = 5
            ∧ (∀ y ∈ comp, t.bit Reg.PKG_SLICES y = true) ∧ t.bit Reg.LEAD_STAT 3 = true
            ∧ t.fld Reg.LEAD_STAT 2 0 ∈ comp ∧ (∀ y ∈ comp, t.fld Reg.LEAD_STAT 2 0 ≤ y)
            ∧ t.isLead = decide (∀ y ∈ comp, s.slice ≤ y) ∧ t.bit (Reg.PAGE_IRQ_RAW Pg.SAFE) 0 = true)
          ∧ ((s.slice ∉ comp ∨ 2 * comp.length < s.sliceCount ∨ 2 * comp.length = s.sliceCount ∧ 0 ∉ comp) →
            (s.start.minoritySaid = true → exec (.packageBind comp none) s = .next s)
            ∧ (s.start.minoritySaid = false → ∃ t, exec (.packageBind comp none) s = .next t ∧ t.start.minoritySaid = true
              ∧ t.bound = false ∧ State.Recorded Pg.EBS 0xEB 0 s t ∧ s.RegsBut (recordRegs Pg.EBS) t)))))
    ∧ ((s.bound = false ∨ edge ∉ s.ownEdges) → exec (.edgeSilence edge) s = .next s)
    ∧ (s.bound = true → edge ∈ s.ownEdges →
      ((∀ e ∈ s.ownEdges, e = edge ∨ e ∈ s.safe.quiet) → ¬(s.sliceCount = 2 ∧ s.slice = 0) → ∃ t, exec (.edgeSilence edge) s = .next t
        ∧ t.safe.silent = true ∧ (s.safe.silent = false → t.slcState = 7))
      ∧ ((s.sliceCount = 2 ∧ s.slice = 0 ∨ ∃ e ∈ s.ownEdges, e ≠ edge ∧ e ∉ s.safe.quiet) → x = s.edgePartner edge →
        ∃ t, exec (.edgeSilence edge) s = .next t ∧ edge ∈ t.safe.quiet
        ∧ ((x, s.slice) ∈ t.safe.notes ∨ t.bit Reg.PSAFE_SLICES x = false)
        ∧ ∀ e ∈ s.ownEdges, s.edgeState e = 3 → s.edgePartner e ≠ x → State.LinkGets (18 + e) s t fun p =>
          p.type = 6 ∧ p.cls = 0 ∧ p.payload = pad8 [BitVec.ofNat 8 x, BitVec.ofNat 8 s.slice]))
    ∧ ((s.bound = false ∨ x = s.slice ∨ (x, l) ∈ s.safe.notes) → exec (.silenceNoteReceive x l) s = .next s)
    ∧ (s.bound = true → x ≠ s.slice → (x, l) ∉ s.safe.notes → x < 8 →
      (∃ t, exec (.silenceNoteReceive x l) s = .next t ∧ ((x, l) ∈ t.safe.notes ∨ t.bit Reg.PSAFE_SLICES x = false)
        ∧ ∀ e ∈ s.ownEdges, s.edgeState e = 3 → s.edgePartner e ≠ x → s.edgePartner e ≠ l → State.LinkGets (18 + e) s t fun p =>
          p.type = 6 ∧ p.cls = 0 ∧ p.payload = pad8 [BitVec.ofNat 8 x, BitVec.ofNat 8 l])
      ∧ (s.bit Reg.PSAFE_SLICES x = true → l ∈ partnersOf s.sliceCount x → s.bit Reg.PSAFE_SLICES l = true →
        (∀ p ∈ partnersOf s.sliceCount x, s.bit Reg.PSAFE_SLICES p = true → p = l ∨ (x, p) ∈ s.safe.notes) →
        ∃ t, exec (.silenceNoteReceive x l) s = .next t ∧ t.bit Reg.PSAFE_SLICES x = false ∧ t.bit Reg.PSAFE_SLICES (8 + x) = true
        ∧ t.bit Reg.PKG_SLICES x = false ∧ t.fld Reg.PSAFE_DEAD 2 0 = x ∧ t.bit (Reg.PAGE_IRQ_RAW Pg.PSAFE) 0 = true
        ∧ (s.fld Reg.LEAD_STAT 2 0 ≠ x → t.reg Reg.LEAD_STAT = s.reg Reg.LEAD_STAT)
        ∧ (s.fld Reg.LEAD_STAT 2 0 = x → s.bit Reg.LEAD_STAT 3 = true → (∃ y ∈ s.liveSlices, y ≠ x) →
          t.fld Reg.LEAD_STAT 2 0 ∈ t.liveSlices ∧ (∀ y ∈ t.liveSlices, t.fld Reg.LEAD_STAT 2 0 ≤ y)
          ∧ (t.isLead = true → t.bit (Reg.PAGE_IRQ_RAW Pg.SAFE) 0 = true))))
    ∧ (s.Accepts Reg.PSAFE_RETIRE v → x = bits v.toNat 2 0 →
      ((bits v.toNat 8 8 = 0 ∨ s.bit Reg.PSAFE_SLICES x = false) → exec (.psafeRetire v) s = .next s)
      ∧ (bits v.toNat 8 8 = 1 → s.bit Reg.PSAFE_SLICES x = true →
        ((s.sliceHolds x = true ∨ s.liveSlices = [x]) → ∃ t, exec (.psafeRetire v) s = .next t
          ∧ s.Records Pg.PSAFE 0xDC (dropDetail Reg.PSAFE_RETIRE false) t)
        ∧ (s.sliceHolds x = false → s.liveSlices ≠ [x] → ∃ t, exec (.psafeRetire v) s = .next t ∧ x ∈ t.safe.leaving
          ∧ t.bit Reg.PSAFE_SLICES (16 + x) = true ∧ s.RegsBut [Reg.PSAFE_SLICES] t
          ∧ t = { s with regs := t.regs, safe := { s.safe with leaving := t.safe.leaving } })))
    ∧ (s.Accepts Reg.LEAD_MOVE v → x = bits v.toNat 2 0 →
      (bits v.toNat 8 8 = 0 → exec (.leadMove v) s = .next s)
      ∧ (bits v.toNat 8 8 = 1 → (s.bit Reg.PKG_SLICES x = false ∨ s.bit Reg.PSAFE_SLICES x = false ∨ s.bit Reg.PKG_SLICES (16 + x) = true
          ∨ s.bit Reg.PSAFE_SLICES (16 + x) = true) → ∃ t, exec (.leadMove v) s = .next t
        ∧ s.Records Pg.LEAD 0xEF (dropDetail Reg.LEAD_MOVE false) t)
      ∧ (bits v.toNat 8 8 = 1 → s.bit Reg.PKG_SLICES x = true → s.bit Reg.PSAFE_SLICES x = true → s.bit Reg.PKG_SLICES (16 + x) = false →
        s.bit Reg.PSAFE_SLICES (16 + x) = false → exec (.leadMove v) s = .next { s with safe := { s.safe with leadMove := some x } }))

/-- BIST_DONE in state BIST shows its outcome and ends in FAILED with BIST_FATAL or in MAP_WAIT, with BIST_UNITS
where a unit failed; a map named meanwhile is loaded (R470, R472). SLC_REPAIR holds its map during the test, loads
it in MAP_WAIT (bad: MAP_BAD, naming a failed unit in use: MAP_MISMATCH, both stay in MAP_WAIT; else MCODE_WAIT, its
units are retired and the heartbeat may run), and is dropped with WRITE_ONCE once a map is accepted (R472).
SLC_MAPOUT with an ADDR writes the image of the retired units, or of those that failed the test, and sets DONE after
it (R473). SLC_UNIT_RST is refused at a unit that is not retired, and at a retired one clears what is kept of the
unit: its fault and error counts, its addresses with an error, and what a tile scored since its test (R51). A word
of MCODE_EXPECT is written once (R475). MCODE_LOAD starts a load into the bank that is not in force, or is refused
with MCODE_BAD (R474, R475). MCODE_HASH_DONE accepts the image whose SHA-256 digest stands in a complete slot, and
in MCODE_WAIT brings it into force and starts BINDING; another, or one that could not be read, fails with
MCODE_DIGEST (R475). MCODE_SWITCH takes its value, and ARMED shows that it is not 0 (R485). -/
def Obligations.StartupRepairAndMicrocode : Prop :=
  ∀ (s : State) (v : W64) (failed : List (Nat × Nat)) (micros a n kind index slot word k i : Nat) (b : List Byte) (x : McBank), s.Inv →
    (s.slcState ≠ 1 → exec (.bistDone failed micros) s = .next s)
    ∧ (s.slcState = 1 → v = BitVec.ofNat 64 (1 + b2n (bistFatal failed) * 2 + (failed.headD (0, 0)).1 % 16 * 2 ^ 2
        + (failed.headD (0, 0)).2 % 256 * 2 ^ 6 + min failed.length 255 * 2 ^ 16 + min micros 65535 * 2 ^ 32) →
      (bistFatal failed = true → ∃ t, exec (.bistDone failed micros) s = .next t ∧ t.reg Reg.SLC_BIST = v ∧ t.slcState = 7
        ∧ State.Recorded Pg.SLC 0xE3 0 s t ∧ s.RegsBut (Reg.SLC_BIST :: Reg.SLC_STATE :: recordRegs Pg.SLC) t)
      ∧ (failed = [] → s.start.mapHeld = none → exec (.bistDone failed micros) s
        = .next (({ s.setReg Reg.SLC_BIST v with start := { s.start with bistFailed := [] } } : State).setFld Reg.SLC_STATE 2 0 2))
      ∧ (failed = [] → s.start.mapHeld = some a → s.poison = [] → mapBad (s.rd a 64) = true →
        ∃ t, exec (.bistDone failed micros) s = .next t ∧ t.reg Reg.SLC_BIST = v ∧ t.slcState = 2 ∧ t.start.mapHeld = none
        ∧ State.Recorded Pg.SLC 0xE4 0 s t)
      ∧ (failed ≠ [] → bistFatal failed = false → s.start.mapHeld = none → ∃ t, exec (.bistDone failed micros) s = .next t
        ∧ t.reg Reg.SLC_BIST = v ∧ t.slcState = 2 ∧ t.start = { s.start with bistFailed := failed }
        ∧ State.Recorded Pg.SLC 0xE2 0 s t ∧ s.RegsBut (Reg.SLC_BIST :: Reg.SLC_STATE :: recordRegs Pg.SLC) t))
    ∧ (s.Accepts Reg.SLC_REPAIR v →
      (s.start.mapOk = true → ∃ t, exec (.slcRepair v) s = .next t ∧ s.Records Pg.SLC 0xE6 (dropDetail Reg.SLC_REPAIR false) t)
      ∧ (s.start.mapOk = false → s.slcState = 1 → exec (.slcRepair v) s
        = .next { s.setReg Reg.SLC_REPAIR v with start := { s.start with mapHeld := some (bits v.toNat 51 6 * 64) } })
      ∧ (s.start.mapOk = false → s.slcState ≠ 1 → s.slcState ≠ 2 → exec (.slcRepair v) s = .next (s.setReg Reg.SLC_REPAIR v))
      ∧ (s.start.mapOk = false → s.slcState = 2 → s.poison = [] → b = s.rd (bits v.toNat 51 6 * 64) 64 →
        (∀ code, (code = 0xE4 ∧ mapBad b = true ∨ code = 0xE5 ∧ mapBad b = false ∧ s.mapMismatch b = true) →
          ∃ t, exec (.slcRepair v) s = .next t ∧ t.reg Reg.SLC_REPAIR = v ∧ t.slcState = 2 ∧ t.start = s.start
          ∧ State.Recorded Pg.SLC code 0 s t
          ∧ s.RegsBut (Reg.SLC_REPAIR :: Reg.TALLY_LIFE 0 :: recordRegs Pg.SLC) t)
        ∧ (mapBad b = false → s.mapMismatch b = false → ∃ t, exec (.slcRepair v) s = .next t ∧ t.reg Reg.SLC_REPAIR = v
          ∧ t.slcState = 3 ∧ t.start.mapOk = true ∧ t.bit Reg.SAFE_ALARM 2 = true
          ∧ (∀ k, 1 ≤ k → k ≤ 6 → ∀ i < unitTotal k, mapRetires b k i = true → t.unitRetired k i = true))))
    ∧ (s.Accepts Reg.SLC_MAPOUT v →
      (bits v.toNat 51 6 = 0 → exec (.slcMapout v) s
        = .next { ((s.accessWrite Reg.SLC_MAPOUT v).setFld Reg.SLC_MAPOUT 3 3 0) with start := { s.start with mapLast := s.retiredUnits } })
      ∧ (bits v.toNat 51 6 ≠ 0 → a = bits v.toNat 51 6 * 64 → ∃ t, exec (.slcMapout v) s = .next t
        ∧ t.rd a 64 = mapImage (if bits v.toNat 0 0 = 1 then s.start.bistFailed else s.retiredUnits) ∧ s.MemoryBut a 64 t
        ∧ t.bit Reg.SLC_MAPOUT 3 = false ∧ t.fld Reg.SLC_MAPOUT 51 6 = bits v.toNat 51 6
        ∧ tFind s.nextChain t.chains = some [.reg Reg.SLC_MAPOUT (t.reg Reg.SLC_MAPOUT + 8#64)]
        ∧ t.start = { s.start with mapLast := s.retiredUnits } ∧ s.RegsBut [Reg.SLC_MAPOUT, Reg.TALLY_LIFE 1] t))
    ∧ (s.Accepts Reg.SLC_UNIT_RST v → kind = bits v.toNat 3 0 → index = bits v.toNat 11 4 →
      ((bits v.toNat 12 12 = 0 ∨ unitTotal kind ≤ index) → exec (.slcUnitRst v) s = .next s)
      ∧ (bits v.toNat 12 12 = 1 → index < unitTotal kind → s.unitRetired kind index = true → ∃ t, exec (.slcUnitRst v) s = .next t
        ∧ t = { s with safe := t.safe, score := t.score } ∧ t.score.bankA = s.score.bankA ∧ t.score.bankB = s.score.bankB
        ∧ t.safe = { s.safe with faults := t.safe.faults, corrected := t.safe.corrected, ueSeen := t.safe.ueSeen }
        ∧ tGet zeroNat (kind * 256 + index) t.safe.faults = 0 ∧ tGet zeroNat (kind * 256 + index) t.safe.corrected = 0
        ∧ (∀ j, j ≠ kind * 256 + index → tGet zeroNat j t.safe.faults = tGet zeroNat j s.safe.faults
          ∧ tGet zeroNat j t.safe.corrected = tGet zeroNat j s.safe.corrected)
        ∧ (∀ q, q ∈ t.safe.ueSeen ↔ q ∈ s.safe.ueSeen ∧ q / 2 ^ 32 ≠ kind * 256 + index)
        ∧ (kind = 1 → tFind index t.score.patternCal = none ∧ tFind index t.score.patternMus = none)
        ∧ (kind ≠ 1 → t.score = s.score))
      ∧ (bits v.toNat 12 12 = 1 → index < unitTotal kind → s.unitRetired kind index = false → ∃ t, exec (.slcUnitRst v) s = .next t
        ∧ s.Records Pg.SLC 0xE1 (dropDetail Reg.SLC_UNIT_RST false) t))
    ∧ ((8 ≤ slot ∨ 4 ≤ word) → exec (.mcodeExpectWrite slot word v) s = .next s)
    ∧ (slot < 8 → word < 4 → s.Accepts (Reg.MCODE_EXPECT slot word) v →
      (Reg.MCODE_EXPECT slot word ∈ s.start.onceWritten → ∃ t, exec (.mcodeExpectWrite slot word v) s = .next t
        ∧ s.Records Pg.MCODE 0xE6 (dropDetail (Reg.MCODE_EXPECT slot word) false) t)
      ∧ (Reg.MCODE_EXPECT slot word ∉ s.start.onceWritten → ∃ t, exec (.mcodeExpectWrite slot word v) s = .next t
        ∧ t.reg (Reg.MCODE_EXPECT slot word) = v ∧ s.RegsBut [Reg.MCODE_EXPECT slot word] t ∧ s.SameMemory t
        ∧ t.start = { s.start with onceWritten := Reg.MCODE_EXPECT slot word :: s.start.onceWritten }))
    ∧ (s.Accepts Reg.MCODE_LOAD v → s.poison = [] → a = bits v.toNat 51 6 * 64 → k = s.loadTo →
      (((∀ j < 8, s.slotWhole j = false) ∨ (s.mcBank k).st = 3 ∨ (s.mcBank k).st = 4 ∨ mcHeaderBad (s.rd a 64) = true) →
        ∃ t, exec (.mcodeLoad v) s = .next t ∧ State.Recorded Pg.MCODE 0xE8 (dropDetail Reg.MCODE_LOAD false) s t
        ∧ t.start = s.start ∧ s.RegsBut (Reg.TALLY_LIFE 0 :: recordRegs Pg.MCODE) t)
      ∧ ((∃ j < 8, s.slotWhole j = true) → (s.mcBank k).st ≠ 3 → (s.mcBank k).st ≠ 4 → mcHeaderBad (s.rd a 64) = false →
        ∃ t, exec (.mcodeLoad v) s = .next t ∧ t.mcBank k = { st := 1, rev := s.rdNat (a + 4) 4, addr := a }
        ∧ t.mcBank (1 - k) = s.mcBank (1 - k) ∧ (∀ q ∈ t.readFailed, q.1 ≠ .microcode) ∧ t.fld Reg.MCODE_STAT (3 + 3 * k) (1 + 3 * k) = 1 ∧ s.SameMemory t
        ∧ s.RegsBut [Reg.MCODE_STAT, Reg.MCODE_REV, Reg.TALLY_LIFE 0] t))
    ∧ (s.start.bank0.st ≠ 1 → s.start.bank1.st ≠ 1 → exec .mcodeHashDone s = .next s)
    ∧ ((k = 0 ∨ k = 1 ∧ s.start.bank0.st ≠ 1) → x = s.mcBank k → x.st = 1 → s.poison = [] → n = s.rdNat (x.addr + 8) 4 →
      (s.unreadable .microcode x.addr n = false → i < 8 → s.slotWhole i = true → s.slotDigest i = sha256 (s.rd x.addr n) → ∃ t, exec .mcodeHashDone s = .next t
        ∧ (s.slcState ≠ 3 → t.mcBank k = { x with st := 2, img := s.rd x.addr n } ∧ t.slcState = s.slcState
          ∧ s.RegsBut [Reg.MCODE_STAT, Reg.MCODE_REV, Reg.TALLY_LIFE 0] t)
        ∧ (s.slcState = 3 → t.mcBank k = { x with st := 3, img := s.rd x.addr n } ∧ t.slcState = 4 ∧ t.fld Reg.MCODE_STAT 0 0 = k
          ∧ t.start.bindSince = s.now))
      ∧ ((s.unreadable .microcode x.addr n = true ∨ ∀ j < 8, s.slotWhole j = true → s.slotDigest j ≠ sha256 (s.rd x.addr n)) → ∃ t, exec .mcodeHashDone s = .next t
        ∧ t.mcBank k = { x with st := 5 } ∧ State.Recorded Pg.MCODE 0xE7 0 s t ∧ t.slcState = s.slcState
        ∧ s.RegsBut (Reg.MCODE_STAT :: Reg.MCODE_REV :: Reg.TALLY_LIFE 0 :: recordRegs Pg.MCODE) t))
    ∧ (s.Accepts Reg.MCODE_SWITCH v → exec (.mcodeSwitchWrite v) s
      = .next ((s.setReg Reg.MCODE_SWITCH v).setFld Reg.MCODE_STAT 12 12 (b2n (v != 0#64))))

/-- TRACE_MARK enters the trace FIFO as an item of KIND 9 when that kind is enabled, is truncated or dropped and
counted in the pending GAP item when the room of R500 is not there, as while BASE is zero (R501), and changes
nothing else (R500, R506). With a ring and no line on its way a full line of eight words leaves the FIFO for the
ring's next place, TRACE_WPTR follows its acknowledgement, and a pending GAP item enters when it fits; a partial
line leaves filled with zero words (R500, R501). DIRCTL_EDIT posts a package list in place of any list not in force
(R526). When its checks end the list is queued for the bell of DIRCTL_AT, or refused with the slice, reason and
expert of the lowest refusal, or with reason LATE when less than 1 us is left (R526). DIR_DIGEST_COMPARE shows the
reference digest, held by most slices and on a tie the lead's, and the slices that differ or sent none; a slice that
is one of them reports a wrong selection (R527). -/
def Obligations.TraceAndPackageDirectory : Prop :=
  ∀ (s : State) (v d : W64) (a w y r e n at_ : Nat) (cap : Bool) (edits : List (Nat × Nat)) (f : List W64) (gap : List W64)
    (results : List (Nat × Nat × Nat)) (digests : List (Nat × W64)), s.Inv →
    (s.Accepts Reg.TRACE_MARK v →
      (s.bit Reg.TRACE_CTL 9 = false → exec (.traceMark v) s = .next s)
      ∧ (s.bit Reg.TRACE_CTL 9 = true → s.trace.gapCount = 0 → ∃ t, exec (.traceMark v) s = .next t
        ∧ t = { s with trace := t.trace, tally := t.tally }
        ∧ (48 < s.trace.free → s.fld Reg.TRACE_RING 51 12 ≠ 0 → t.trace = { s.trace with fifo := s.trace.fifo ++ [traceHeader 9 s.now, v, traceLength 3 false] })
        ∧ (s.trace.free = 48 → s.fld Reg.TRACE_RING 51 12 ≠ 0 → t.trace = { s.trace with fifo := s.trace.fifo ++ [traceHeader 9 s.now, traceLength 2 true] })
        ∧ (s.trace.free < 48 ∨ s.fld Reg.TRACE_RING 51 12 = 0 → t.trace = { s.trace with gapCount := 1, gapFirst := s.now })))
    ∧ ((s.traceDrains = false ∨ s.trace.fifo.length < 8) → exec .traceLineWrite s = .next s)
    ∧ ((s.traceDrains = false ∨ s.trace.fifo = [] ∨ 8 ≤ s.trace.fifo.length) → exec .traceLinePad s = .next s)
    ∧ (w = s.regNat Reg.TRACE_WPTR → a = s.fld Reg.TRACE_RING 51 12 * 4096 + w % 2 ^ s.fld Reg.TRACE_RING 4 0 → a + 64 ≤ memSpace →
      gap = [traceHeader 0x0F s.now, BitVec.ofNat 64 (min s.trace.gapCount (2 ^ 32 - 1)), BitVec.ofNat 64 s.trace.gapFirst,
        traceLength 4 false] → s.traceDrains = true →
      (8 ≤ s.trace.fifo.length → f = s.trace.fifo.drop 8 → ∃ t, exec .traceLineWrite s = .next t
        ∧ t.rd a 64 = (s.trace.fifo.take 8).flatMap (fun x => leBytes 8 x.toNat) ∧ s.MemoryBut a 64 t ∧ s.RegsBut [Reg.TALLY_LIFE 1] t
        ∧ tFind s.nextChain t.chains = some [.reg Reg.TRACE_WPTR (BitVec.ofNat 64 (w + 64))]
        ∧ t.trace.fifo = (if s.trace.gapCount ≠ 0 ∧ f.length ≤ 4087 then f ++ gap else f))
      ∧ (0 < s.trace.fifo.length → s.trace.fifo.length < 8 → ∃ t, exec .traceLinePad s = .next t
        ∧ t.rd a 64 = (s.trace.fifo ++ List.replicate (8 - s.trace.fifo.length) 0#64).flatMap (fun x => leBytes 8 x.toNat)
        ∧ s.MemoryBut a 64 t ∧ s.RegsBut [Reg.TALLY_LIFE 1] t
        ∧ tFind s.nextChain t.chains = some [.reg Reg.TRACE_WPTR (BitVec.ofNat 64 (w + 64))]
        ∧ t.trace.fifo = (if s.trace.gapCount ≠ 0 then gap else []) ∧ t.trace.gapCount = 0))
    ∧ (s.Accepts Reg.DIRCTL_EDIT v → ∃ t, exec (.dirctlEdit v) s = .next t ∧ t.reg Reg.DIRCTL_STAT = 1#64
      ∧ s.RegsBut [Reg.DIRCTL_STAT] t ∧ s.SameMemory t ∧ (∀ q ∈ t.readFailed, q.1 ≠ .packageEdits)
      ∧ t.pkg = { s.pkg with dirList := some (bits v.toNat 51 12 * 4096, bits v.toNat 11 0 + 1, s.regNat Reg.DIRCTL_AT) }
      ∧ t.res = { s.res with edit := none, editPost := none })
    ∧ (s.pkg.dirList = none → exec (.dirctlCheckDone results) s = .next s)
    ∧ (s.pkg.dirList = some (a, n, at_) → s.poison = [] →
      (s.ownCheck a n = .ok edits → (∀ p ∈ results, p.1 = s.slice ∨ s.bit Reg.PSAFE_SLICES p.1 = false) →
        (s.tooLate at_ = false → ∃ t, exec (.dirctlCheckDone results) s = .next t ∧ t.reg Reg.RES_EDIT_STAT = 2#64
          ∧ t.reg Reg.DIRCTL_STAT = 2#64 ∧ s.RegsBut [Reg.RES_EDIT_STAT, Reg.DIRCTL_STAT, Reg.TALLY_LIFE 0] t ∧ s.SameMemory t
          ∧ t.pkg = { s.pkg with dirList := none } ∧ ∃ l, t.res = { s.res with edit := some l } ∧ l.edits = edits
          ∧ l.checkedAt = s.now ∧ l.pkg = true ∧ l.atBell = at_)
        ∧ (s.tooLate at_ = true → ∃ t, exec (.dirctlCheckDone results) s = .next t ∧ t.res = s.res
          ∧ t.reg Reg.DIRCTL_STAT = BitVec.ofNat 64 (4 + 11 * 2 ^ 8) ∧ t.bit (Reg.PAGE_IRQ_RAW Pg.DIRCTL) 2 = true
          ∧ State.Recorded Pg.DIRCTL 0x0A (4 + 11 * 2 ^ 8) s t
          ∧ s.RegsBut (Reg.DIRCTL_STAT :: Reg.TALLY_LIFE 0 :: recordRegs Pg.DIRCTL) t))
      ∧ (s.ownCheck a n = .ok edits → results = [(y, r, e)] → y ≠ s.slice → s.bit Reg.PSAFE_SLICES y = true →
        w = 4 + y % 8 * 2 ^ 4 + r % 16 * 2 ^ 8 + e % 2 ^ 15 * 2 ^ 12 → ∃ t, exec (.dirctlCheckDone results) s = .next t
        ∧ t.reg Reg.DIRCTL_STAT = BitVec.ofNat 64 w ∧ t.res = s.res ∧ t.pkg = { s.pkg with dirList := none }
        ∧ t.bit (Reg.PAGE_IRQ_RAW Pg.DIRCTL) 2 = true ∧ State.Recorded Pg.DIRCTL 0x0A w s t
        ∧ s.RegsBut (Reg.DIRCTL_STAT :: Reg.TALLY_LIFE 0 :: recordRegs Pg.DIRCTL) t)
      ∧ (s.ownCheck a n = .error (e, r, cap) → results = [] → w = 4 + s.slice % 8 * 2 ^ 4 + r % 16 * 2 ^ 8 + e % 2 ^ 15 * 2 ^ 12 →
        ∃ t, exec (.dirctlCheckDone results) s = .next t ∧ t.reg Reg.DIRCTL_STAT = BitVec.ofNat 64 w
        ∧ t.fld Reg.RES_EDIT_STAT 2 0 = 4 ∧ t.fld Reg.RES_EDIT_STAT 7 4 = r % 16 ∧ t.fld Reg.RES_EDIT_STAT 22 8 = e % 2 ^ 15
        ∧ t.pkg = { s.pkg with dirList := none } ∧ t.bit (Reg.PAGE_IRQ_RAW Pg.DIRCTL) 2 = true
        ∧ State.Recorded Pg.DIRCTL 0x0A w s t))
    ∧ ((s.bit Reg.DIRCTL_CTL 0 = false ∨ s.bell.everOpened = false ∨ s.slice ∉ s.dirHolders) →
      exec (.dirDigestCompare digests) s = .next s)
    ∧ (s.bit Reg.DIRCTL_CTL 0 = true → s.bell.everOpened = true →
      ((s.dirHolders = [s.slice] ∨ y ≠ s.slice ∧ (∀ i, i ∈ s.dirHolders ↔ i = s.slice ∨ i = y) ∧ digests = [(y, s.dirDigest)]) →
        exec (.dirDigestCompare digests) s
        = .next ((s.setReg Reg.DIRCTL_DIGEST s.dirDigest).setReg Reg.DIRCTL_SPLIT (BitVec.ofNat 64 (2 ^ 8 + s.bellNo % 2 ^ 48 * 2 ^ 16))))
      ∧ (y ≠ s.slice → (∀ i, i ∈ s.dirHolders ↔ i = s.slice ∨ i = y) → digests = [(y, d)] → d ≠ s.dirDigest →
        (s.fld Reg.LEAD_STAT 2 0 = y → w = 2 ^ s.slice + 2 ^ 8 + s.bellNo % 2 ^ 48 * 2 ^ 16 →
          ∃ t, exec (.dirDigestCompare digests) s = .next t ∧ t.reg Reg.DIRCTL_DIGEST = d ∧ t.reg Reg.DIRCTL_SPLIT = BitVec.ofNat 64 w
          ∧ State.Recorded Pg.DIRCTL 0x09 w s t ∧ t.bit (Reg.PAGE_IRQ_RAW Pg.DIRCTL) 2 = true ∧ t.bit Reg.SAFE_CAUSE 3 = true)
        ∧ (s.fld Reg.LEAD_STAT 2 0 = s.slice → w = 2 ^ y + 2 ^ 8 + s.bellNo % 2 ^ 48 * 2 ^ 16 →
          ∃ t, exec (.dirDigestCompare digests) s = .next t ∧ t.reg Reg.DIRCTL_DIGEST = s.dirDigest
          ∧ t.reg Reg.DIRCTL_SPLIT = BitVec.ofNat 64 w ∧ State.Recorded Pg.DIRCTL 0x09 w s t
          ∧ t.bit (Reg.PAGE_IRQ_RAW Pg.DIRCTL) 2 = true
          ∧ s.RegsBut (Reg.DIRCTL_DIGEST :: Reg.DIRCTL_SPLIT :: recordRegs Pg.DIRCTL) t))
      ∧ (y ≠ s.slice → (∀ i, i ∈ s.dirHolders ↔ i = s.slice ∨ i = y) → digests = [] → ∃ t, exec (.dirDigestCompare digests) s = .next t
        ∧ t.reg Reg.DIRCTL_DIGEST = s.dirDigest
        ∧ t.reg Reg.DIRCTL_SPLIT = BitVec.ofNat 64 (2 ^ y + 2 ^ 8 + s.bellNo % 2 ^ 48 * 2 ^ 16)))

/-- T_round is 1,500 ns when DIAM is 1 to 4 and 3,000 ns when DIAM is 5 to 8 (R80): each auction round that a layer
may spill into adds that much to the bound of its slot, whatever the other quantities are. -/
def Obligations.SpillRoundTime : Prop :=
  ∀ (t : Terms) (l cycles proj n : Nat) (e : SelEnt), e.ec = false → e.spill = true →
    (1 ≤ confFld t.conf Reg.BELL_DIAM 3 0 → confFld t.conf Reg.BELL_DIAM 3 0 ≤ 4 → tRound (confFld t.conf Reg.BELL_DIAM 3 0) = 1500
      ∧ slotBound t l cycles proj { e with rounds := e.rounds + 1 } n = slotBound t l cycles proj e n + 1500)
    ∧ (5 ≤ confFld t.conf Reg.BELL_DIAM 3 0 → confFld t.conf Reg.BELL_DIAM 3 0 ≤ 8 → tRound (confFld t.conf Reg.BELL_DIAM 3 0) = 3000
      ∧ slotBound t l cycles proj { e with rounds := e.rounds + 1 } n = slotBound t l cycles proj e n + 3000)

/-- A live counter stops at its limit: 2^32 - 1 for frames replayed, corrected symbols, uncorrectable codewords,
NAK_CRC and NAK_SPAN of a LINK page and the corrected ECC errors of the SAFE page, and 2^40 - 1 for every other
tally. A bell open latches it into the bank of its number modulo 2, and every live counter restarts, at 0 but for
what the cycle of the open itself counted, which is not latched; the latched register holds the count in [39:0],
zero in [62:40], and SAT in [63], set when the counter stood at its limit (R494). -/
def Obligations.TalliesStopAndShowSat : Prop :=
  ∀ (s t : State) (pg i n k lim bell slot c d : Nat), s.Inv → i < 64 → k = pg * 64 + i →
    lim = (if (0x20 ≤ pg ∧ pg < 0x32 ∧ i ∈ [1, 2, 3, 13, 14]) ∨ (pg = Pg.SAFE ∧ i = 9) then 2 ^ 32 - 1 else 2 ^ 40 - 1) →
    tGet zeroNat k (s.tallyAdd pg i n).tally.live = min (tGet zeroNat k s.tally.live + n) lim
    ∧ (slot < 16 → ((∀ p ∈ s.tally.late, p.1 ≠ k) ∧ c = tGet zeroNat k s.tally.live ∧ d = 0
        ∨ (∃ p ∈ s.tally.late, p.1 = k) ∧ ∀ p ∈ s.tally.late, p.1 = k → p.2 = (c, d)) → t = s.latchTallies bell → i = 16 * t.fld (Reg.PAGE_TALLY_SEL pg) 1 0 + slot → t.bankInView pg = bell % 2 →
      bits (t.tallyView pg slot).toNat 39 0 = c
      ∧ bits (t.tallyView pg slot).toNat 62 40 = 0
      ∧ bits (t.tallyView pg slot).toNat 63 63 = (if c = lim then 1 else 0)
      ∧ tGet zeroNat k t.tally.live = d)

/-- A clear of bit c of SAFE_CAUSE while a tile or lane fenced for a class-c fault is not yet retired is refused:
the bit stays set and CLEAR_REFUSED is recorded in the SAFE page. With no such unit, as from the bell open at which
it has retired, the bit clears; but a fault of the class found in the cycle of the clear keeps it set (R438). When
the last bit is cleared at a running slice that is not silent and whose clocks are good, IKC_ALARM is 0b01 after
that very command (R439). -/
def Obligations.CausesClearUnderTheirFence : Prop :=
  ∀ (s : State) (v : W64), s.Inv → s.Accepts Reg.SAFE_CAUSE v → ∃ t, exec (.safeCauseClear v) s = .next t
    ∧ (∀ c < 9, v.getLsbD c = true → s.bit Reg.SAFE_CAUSE c = true →
      ((∃ m ∈ s.safe.marks, m.cls = c ∧ m.fenced = true) → s.foundNow c = false → t.bit Reg.SAFE_CAUSE c = true
        ∧ t.bit (Reg.PAGE_IRQ_RAW Pg.SAFE) 0 = true
        ∧ (s.fld (Reg.PAGE_ERR_FIRST Pg.SAFE) 7 0 = 0 → t.fld (Reg.PAGE_ERR_FIRST Pg.SAFE) 7 0 = 0xDF))
      ∧ (s.foundNow c = true → t.bit Reg.SAFE_CAUSE c = true)
      ∧ ((∀ m ∈ s.safe.marks, m.cls = c → m.fenced = false) → s.foundNow c = false → t.bit Reg.SAFE_CAUSE c = false))
    ∧ (t.reg Reg.SAFE_CAUSE = 0#64 → s.slcState = 6 → s.safe.silent = false → s.safe.clkFault = false → t.fld Reg.SAFE_ALARM 1 0 = 1)
end

