-- ==== Sys2Proof/Laws/Sparse.lean ====
section
/-! SUPPORT. The laws of sparse tables: a read after a write, writes that leave other keys alone, and every write keeps
the canonical form. -/
namespace Sys2Proof.Machine

variable {α : Type}

theorem tRising_mono {lo lo' : Nat} {m : Table α} (h : tRising lo m = true) (hl : lo' ≤ lo) : tRising lo' m = true := by
  cases m with
  | nil => rfl
  | cons p t =>
    obtain ⟨a, v⟩ := p
    simp only [tRising, Bool.and_eq_true, decide_eq_true_eq] at h ⊢
    exact ⟨by omega, h.2⟩

theorem tFind_below {lo k : Nat} {m : Table α} (h : tRising lo m = true) (hk : k < lo) : tFind k m = none := by
  cases m with
  | nil => rfl
  | cons p t =>
    obtain ⟨a, v⟩ := p
    simp only [tRising, Bool.and_eq_true, decide_eq_true_eq] at h
    simp only [tFind]
    rw [if_neg (by omega), if_pos (by omega)]

theorem tRising_tPut {lo k : Nat} {v : α} {m : Table α} (h : tRising lo m = true) (hk : lo ≤ k) :
    tRising lo (tPut k v m) = true := by
  induction m generalizing lo with
  | nil => simp [tPut, tRising, hk]
  | cons p t ih =>
    obtain ⟨a, w⟩ := p
    simp only [tRising, Bool.and_eq_true, decide_eq_true_eq] at h
    simp only [tPut]
    split
    · simp only [tRising, Bool.and_eq_true, decide_eq_true_eq]
      exact ⟨hk, by omega, h.2⟩
    · split
      · rename_i h1 h2
        subst h2
        simp only [tRising, Bool.and_eq_true, decide_eq_true_eq]
        exact ⟨hk, h.2⟩
      · simp only [tRising, Bool.and_eq_true, decide_eq_true_eq]
        exact ⟨h.1, ih h.2 (by omega)⟩

theorem tRising_tDel {lo k : Nat} {m : Table α} (h : tRising lo m = true) : tRising lo (tDel k m) = true := by
  induction m generalizing lo with
  | nil => rfl
  | cons p t ih =>
    obtain ⟨a, w⟩ := p
    simp only [tRising, Bool.and_eq_true, decide_eq_true_eq] at h
    simp only [tDel]
    split
    · simp only [tRising, Bool.and_eq_true, decide_eq_true_eq]
      exact h
    · split
      · exact tRising_mono h.2 (by omega)
      · simp only [tRising, Bool.and_eq_true, decide_eq_true_eq]
        exact ⟨h.1, ih h.2⟩

theorem mem_tPut {k : Nat} {v : α} {m : Table α} {p : Nat × α} (h : p ∈ tPut k v m) : p = (k, v) ∨ p ∈ m := by
  induction m with
  | nil => simpa [tPut] using h
  | cons q t ih =>
    obtain ⟨a, w⟩ := q
    simp only [tPut] at h
    split at h
    · simpa using h
    · split at h
      · rcases List.mem_cons.1 h with h | h
        · exact .inl h
        · exact .inr (List.mem_cons_of_mem _ h)
      · rcases List.mem_cons.1 h with h | h
        · exact .inr (by simp [h])
        · rcases ih h with h | h
          · exact .inl h
          · exact .inr (List.mem_cons_of_mem _ h)

theorem mem_tDel {k : Nat} {m : Table α} {p : Nat × α} (h : p ∈ tDel k m) : p ∈ m := by
  induction m with
  | nil => simp [tDel] at h
  | cons q t ih =>
    obtain ⟨a, w⟩ := q
    simp only [tDel] at h
    split at h
    · exact h
    · split at h
      · exact List.mem_cons_of_mem _ h
      · rcases List.mem_cons.1 h with h | h
        · simp [h]
        · exact List.mem_cons_of_mem _ (ih h)

theorem tFind_mem {k : Nat} {v : α} {m : Table α} (h : tFind k m = some v) : (k, v) ∈ m := by
  induction m with
  | nil => simp [tFind] at h
  | cons q t ih =>
    obtain ⟨a, w⟩ := q
    simp only [tFind] at h
    split at h
    · rename_i e
      simp_all
    · split at h
      · simp at h
      · exact List.mem_cons_of_mem _ (ih h)

/-- A key just listed is found. -/
theorem tFind_tPut_same {k : Nat} {v : α} {m : Table α} : tFind k (tPut k v m) = some v := by
  induction m with
  | nil => simp [tPut, tFind]
  | cons p t ih =>
    simp only [tPut]
    split
    · simp [tFind]
    · split
      · simp [tFind]
      · simp only [tFind]
        rw [if_neg (by omega), if_neg (by omega)]
        exact ih

/-- Listing a key leaves every other key as it was. -/
theorem tFind_tPut_other {j k : Nat} {v : α} {m : Table α} (hj : j ≠ k) : tFind j (tPut k v m) = tFind j m := by
  induction m with
  | nil =>
    simp only [tPut, tFind]
    rw [if_neg (by omega)]
    split <;> rfl
  | cons p t ih =>
    obtain ⟨a, w⟩ := p
    simp only [tPut]
    split
    · simp only [tFind]
      rw [if_neg (by omega)]
      split
      · rw [if_neg (by omega), if_pos (by omega)]
      · rfl
    · split
      · rename_i e
        subst e
        simp only [tFind, if_neg (show ¬ k = j by omega)]
      · simp only [tFind, ih]

/-- A key just unlisted is not found. -/
theorem tFind_tDel_same {lo k : Nat} {m : Table α} (h : tRising lo m = true) : tFind k (tDel k m) = none := by
  induction m generalizing lo with
  | nil => rfl
  | cons p t ih =>
    obtain ⟨a, w⟩ := p
    simp only [tRising, Bool.and_eq_true, decide_eq_true_eq] at h
    simp only [tDel]
    split
    · simp only [tFind]
      rw [if_neg (by omega), if_pos (by omega)]
    · split
      · exact tFind_below h.2 (by omega)
      · simp only [tFind]
        rw [if_neg (by omega), if_neg (by omega)]
        exact ih h.2

/-- Unlisting a key leaves every other key as it was. -/
theorem tFind_tDel_other {lo j k : Nat} {m : Table α} (h : tRising lo m = true) (hj : j ≠ k) :
    tFind j (tDel k m) = tFind j m := by
  induction m generalizing lo with
  | nil => rfl
  | cons p t ih =>
    obtain ⟨a, w⟩ := p
    simp only [tRising, Bool.and_eq_true, decide_eq_true_eq] at h
    simp only [tDel]
    split
    · rfl
    · split
      · simp only [tFind]
        rw [if_neg (by omega)]
        split
        · exact tFind_below h.2 (by omega)
        · rfl
      · simp only [tFind, ih h.2]

variable [DecidableEq α]

theorem tWf_rising {d : Nat → α} {m : Table α} (h : tWf d m = true) : tRising 0 m = true := by
  simp only [tWf, Bool.and_eq_true] at h
  exact h.1

/-- A read of the key just written gives the value written. -/
theorem tGet_tSet_same {d : Nat → α} {k : Nat} {v : α} {m : Table α} (h : tWf d m = true) :
    tGet d k (tSet d k v m) = v := by
  simp only [tGet, tSet]
  split
  · rw [tFind_tDel_same (tWf_rising h)]
    simp_all
  · rw [tFind_tPut_same]
    rfl

/-- A write leaves what every other key reads as. -/
theorem tGet_tSet_other {d : Nat → α} {j k : Nat} {v : α} {m : Table α} (h : tWf d m = true) (hj : j ≠ k) :
    tGet d j (tSet d k v m) = tGet d j m := by
  simp only [tGet, tSet]
  split
  · rw [tFind_tDel_other (tWf_rising h) hj]
  · rw [tFind_tPut_other hj]

theorem tNoDefault_iff {d : Nat → α} {m : Table α} : tNoDefault d m = true ↔ ∀ p ∈ m, p.2 ≠ d p.1 := by
  simp [tNoDefault]

/-- A write keeps the canonical form. -/
theorem tWf_tSet {d : Nat → α} {k : Nat} {v : α} {m : Table α} (h : tWf d m = true) : tWf d (tSet d k v m) = true := by
  simp only [tWf, Bool.and_eq_true, tNoDefault_iff] at h ⊢
  simp only [tSet]
  split
  · exact ⟨tRising_tDel h.1, fun p hp => h.2 p (mem_tDel hp)⟩
  · rename_i hv
    refine ⟨tRising_tPut h.1 (Nat.zero_le _), fun p hp => ?_⟩
    rcases mem_tPut hp with hp | hp
    · simpa [hp] using hv
    · exact h.2 p hp

/-- A write of a run keeps the canonical form. -/
theorem tWf_tSetRun {d : Nat → α} {k : Nat} {vs : List α} {m : Table α} (h : tWf d m = true) :
    tWf d (tSetRun d k vs m) = true := by
  induction vs generalizing k m with
  | nil => exact h
  | cons v vs ih => exact ih (tWf_tSet h)

/-- A write of a run leaves what every key before or after it reads as. -/
theorem tGet_tSetRun_other {d : Nat → α} {j k : Nat} {vs : List α} {m : Table α} (h : tWf d m = true)
    (hj : j < k ∨ k + vs.length ≤ j) : tGet d j (tSetRun d k vs m) = tGet d j m := by
  induction vs generalizing k m with
  | nil => rfl
  | cons v vs ih =>
    simp only [List.length_cons] at hj
    simp only [tSetRun]
    rw [ih (tWf_tSet h) (by omega), tGet_tSet_other h (by omega)]

/-- A read inside a run just written gives the value written there. -/
theorem tGet_tSetRun_same {d : Nat → α} {k i : Nat} {vs : List α} {m : Table α} (h : tWf d m = true)
    (hi : i < vs.length) : tGet d (k + i) (tSetRun d k vs m) = vs[i] := by
  induction vs generalizing k i m with
  | nil => simp at hi
  | cons v vs ih =>
    simp only [tSetRun]
    cases i with
    | zero =>
      rw [tGet_tSetRun_other (tWf_tSet h) (by omega)]
      simpa using tGet_tSet_same h
    | succ i =>
      simp only [List.length_cons] at hi
      have := ih (k := k + 1) (i := i) (m := tSet d k v m) (tWf_tSet h) (by omega)
      rw [show k + 1 + i = k + (i + 1) from by omega] at this
      simpa using this

/-- What a key reads as after any write is the new value or what it read as before. -/
theorem tGet_tSet_cases {d : Nat → α} {j k : Nat} {v : α} {m : Table α} (h : tWf d m = true) :
    tGet d j (tSet d k v m) = if j = k then v else tGet d j m := by
  split
  · rename_i e
    rw [e, tGet_tSet_same h]
  · rename_i e
    exact tGet_tSet_other h e

end Sys2Proof.Machine
end

