-- ==== Sys2Proof/Laws/Kept.lean ====
section
/-! SUPPORT. What every operation of the model keeps: the canonical forms of the registers and the memories, the limit of
the live tallies (R494), the capacity of the trace FIFO (R499), the queue of waiting commands, and whether a write comes
through the broadcast alias. One lemma per operation stands in the files of this folder that bear the name of the
operation's file. -/
namespace Sys2Proof.Machine

/-- What every operation keeps, over the parts of the state it reads. -/
structure KeptF (pq : List Instr) (va : Bool) (regs : Table W64) (mem sram : Table Byte) (tally : TallySt)
    (trace : TraceSt) (pending : List Instr) (viaAlias : Bool) : Prop where
  regs : tWf resetOf regs = true
  mem : tWf byteZero mem = true
  sram : tWf byteZero sram = true
  tally : (∀ p ∈ tally.live, p.2 < 2 ^ 40) ∧ ∀ p ∈ tally.late, p.2.1 < 2 ^ 40 ∧ p.2.2 < 2 ^ 40
  trace : 8 * trace.fifo.length ≤ fifoBytes
  pending : pending = pq
  viaAlias : viaAlias = va

/-- A state as every operation keeps it, with the queue `pq`. -/
def Kept (pq : List Instr) (va : Bool) (s : State) : Prop :=
  KeptF pq va s.regs s.mem s.sram s.tally s.trace s.pending s.viaAlias

/-- An outcome that is a next state as every operation keeps it. -/
def KeptOut (pq : List Instr) (va : Bool) (o : Out) : Prop := ∃ t, o = .next t ∧ Kept pq va t

variable {pq : List Instr} {va : Bool}

theorem Kept.regs {s : State} (h : Kept pq va s) : tWf resetOf s.regs = true := KeptF.regs h
theorem Kept.mem {s : State} (h : Kept pq va s) : tWf byteZero s.mem = true := KeptF.mem h
theorem Kept.sram {s : State} (h : Kept pq va s) : tWf byteZero s.sram = true := KeptF.sram h
theorem Kept.tally {s : State} (h : Kept pq va s) :
    (∀ p ∈ s.tally.live, p.2 < 2 ^ 40) ∧ ∀ p ∈ s.tally.late, p.2.1 < 2 ^ 40 ∧ p.2.2 < 2 ^ 40 := KeptF.tally h
theorem Kept.trace {s : State} (h : Kept pq va s) : 8 * s.trace.fifo.length ≤ fifoBytes := KeptF.trace h
theorem Kept.pending {s : State} (h : Kept pq va s) : s.pending = pq := KeptF.pending h
theorem Kept.viaAlias {s : State} (h : Kept pq va s) : s.viaAlias = va := KeptF.viaAlias h

theorem Kept.congr {s t : State} (h : Kept pq va s) (hr : t.regs = s.regs) (hm : t.mem = s.mem) (hs : t.sram = s.sram)
    (ht : t.tally = s.tally) (hf : t.trace = s.trace) (hp : t.pending = s.pending) (ha : t.viaAlias = s.viaAlias) :
    Kept pq va t := by
  unfold Kept
  rw [hr, hm, hs, ht, hf, hp, ha]
  exact h

theorem keptF_fold {s : State} :
    KeptF pq va s.regs s.mem s.sram s.tally s.trace s.pending s.viaAlias = Kept pq va s := rfl

theorem kept_mk {pins apertureBase regs staged stagedLate now mem sram poison chains nextChain memRetry memDone portsLeaving readFailed irq evSeen tally trace bell
    seqs cal mus homeCal homeMus siteCal siteMus tok tiles gathers pool score res ctx safe start links e2e disc route
    msem porter coll det pkg free pending viaAlias} :
    Kept pq va ⟨pins, apertureBase, regs, staged, stagedLate, now, mem, sram, poison, chains, nextChain, memRetry, memDone,
      portsLeaving, readFailed, irq, evSeen,
      tally, trace, bell, seqs, cal, mus, homeCal, homeMus, siteCal, siteMus, tok, tiles, gathers, pool, score, res,
      ctx, safe, start, links, e2e, disc, route, msem, porter, coll, det, pkg, free, pending, viaAlias⟩
      = KeptF pq va regs mem sram tally trace pending viaAlias := rfl

theorem kept_lock {p : Prop} (h : p) : p := h

theorem keptOut_next {s : State} (h : Kept pq va s) : KeptOut pq va (.next s) := ⟨s, rfl, h⟩

theorem kept_ite {c : Prop} [Decidable c] {x y : State} (hx : Kept pq va x) (hy : Kept pq va y) :
    Kept pq va (if c then x else y) := by
  split <;> assumption

theorem keptOut_ite {c : Prop} [Decidable c] {x y : Out} (hx : KeptOut pq va x) (hy : KeptOut pq va y) :
    KeptOut pq va (if c then x else y) := by
  split <;> assumption

theorem kept_foldl {α : Type} {f : State → α → State} {l : List α} {s : State} (hs : Kept pq va s)
    (hf : ∀ s x, Kept pq va s → Kept pq va (f s x)) : Kept pq va (l.foldl f s) := by
  induction l generalizing s with
  | nil => exact hs
  | cons x t ih => exact ih (hf s x hs)

theorem kept_foldl_snd {α β : Type} {f : β × State → α → β × State} {l : List α} {p : β × State}
    (hs : Kept pq va p.2) (hf : ∀ p x, Kept pq va p.2 → Kept pq va (f p x).2) : Kept pq va (l.foldl f p).2 := by
  induction l generalizing p with
  | nil => exact hs
  | cons x t ih => exact ih (hf p x hs)

theorem mem_tSet {α : Type} [DecidableEq α] {d : Nat → α} {k : Nat} {v : α} {m : Table α} {p : Nat × α}
    (h : p ∈ tSet d k v m) : p = (k, v) ∨ p ∈ m := by
  simp only [tSet] at h
  split at h
  · exact .inr (mem_tDel h)
  · exact mem_tPut h

theorem mem_of_tFind {α : Type} {k : Nat} {v : α} {m : Table α} (h : tFind k m = some v) : (k, v) ∈ m := by
  induction m with
  | nil => cases h
  | cons p t ih =>
    obtain ⟨a, w⟩ := p
    simp only [tFind] at h
    split at h
    · cases h
      simp_all
    · split at h
      · cases h
      · exact List.mem_cons_of_mem _ (ih h)

/-- A counter read from a table whose entries are below the limit is below it. -/
theorem tGet_lt {k : Nat} {m : Table Nat} (h : ∀ p ∈ m, p.2 < 2 ^ 40) : tGet zeroNat k m < 2 ^ 40 := by
  unfold tGet
  cases h' : tFind k m with
  | none => exact (by decide : 0 < 2 ^ 40)
  | some v => exact h _ (mem_of_tFind h')

/-- Counters set from a list of values below the limit stay below it. -/
theorem tSet_foldl_lt {l : Table (Nat × Nat)} {f : Nat × Nat → Nat} (hl : ∀ p ∈ l, f p.2 < 2 ^ 40) {m : Table Nat}
    (hm : ∀ p ∈ m, p.2 < 2 ^ 40) : ∀ p ∈ l.foldl (fun c p => tSet zeroNat p.1 (f p.2) c) m, p.2 < 2 ^ 40 := by
  induction l generalizing m with
  | nil => exact hm
  | cons a t ih =>
    refine ih (fun p hp => hl p (List.mem_cons_of_mem _ hp)) fun p hp => ?_
    rcases mem_tSet hp with rfl | hp
    · exact hl a List.mem_cons_self
    · exact hm p hp

theorem tallyLimit_lt (pg i : Nat) : tallyLimit pg i < 2 ^ 40 := by
  unfold tallyLimit
  split <;> decide

theorem traceFill_length {free : Nat} {ws acc out : List W64} {b : Bool} (h : traceFill free ws acc = (out, b))
    (hf : 8 ≤ free) : 8 * out.length + 8 ≤ 8 * acc.length + free := by
  induction ws generalizing free acc with
  | nil =>
    simp only [traceFill] at h
    cases h
    omega
  | cons w t ih =>
    simp only [traceFill] at h
    split at h
    · cases h
      omega
    · have := ih h (by omega)
      simp only [List.length_append, List.length_cons, List.length_nil] at this
      omega

end Sys2Proof.Machine
end

