-- ==== Sys2Proof/Laws/Ops.lean ====
section
/-! SUPPORT. What each operation of Machine/Ops.lean keeps (Laws/Kept.lean). -/
set_option linter.all false
namespace Sys2Proof.Machine

variable {pq : List Instr} {va : Bool}

theorem State.setReg_kept (r : Nat) (v : W64) {s : State} (hs : Kept pq va s) : Kept pq va (State.setReg r v s) := by
  exact ⟨tWf_tSet hs.regs, hs.mem, hs.sram, hs.tally, hs.trace, hs.pending, hs.viaAlias⟩

theorem State.setFld_kept (r : Nat) (hi : Nat) (lo : Nat) (x : Nat) {s : State} (hs : Kept pq va s) : Kept pq va (State.setFld r hi lo x s) := by
  unfold State.setFld
  repeat' first
    | with_reducible assumption
    | intro _
    | (extract_lets +onlyGivenNames lx; refine (fun (hlx : Kept pq va lx) => ?_ : Kept pq va lx → _) ?_; rotate_left; simp -zeta only [lx]; clear lx; rotate_right; clear_value lx; revert lx; refine kept_lock ?_; intro lx hlx)
    | (extract_lets +onlyGivenNames lx; clear_value lx; revert lx; refine kept_lock ?_; intro lx)
    | with_reducible apply State.setReg_kept
    | with_reducible apply kept_ite
    | with_reducible apply kept_foldl
    | simp -zeta only [kept_mk, keptF_fold]
    | split

theorem State.keepStaged_kept (r : Nat) {s : State} (hs : Kept pq va s) : Kept pq va (State.keepStaged r s) := by
  unfold State.keepStaged
  repeat' first
    | with_reducible assumption
    | intro _
    | (extract_lets +onlyGivenNames lx; refine (fun (hlx : Kept pq va lx) => ?_ : Kept pq va lx → _) ?_; rotate_left; simp -zeta only [lx]; clear lx; rotate_right; clear_value lx; revert lx; refine kept_lock ?_; intro lx hlx)
    | (extract_lets +onlyGivenNames lx; clear_value lx; revert lx; refine kept_lock ?_; intro lx)
    | with_reducible apply kept_ite
    | with_reducible apply kept_foldl
    | simp -zeta only [kept_mk, keptF_fold]
    | split

theorem State.stage_kept (r : Nat) (v : W64) {s : State} (hs : Kept pq va s) : Kept pq va (State.stage r v s) := by
  unfold State.stage
  repeat' first
    | with_reducible assumption
    | intro _
    | (extract_lets +onlyGivenNames lx; refine (fun (hlx : Kept pq va lx) => ?_ : Kept pq va lx → _) ?_; rotate_left; simp -zeta only [lx]; clear lx; rotate_right; clear_value lx; revert lx; refine kept_lock ?_; intro lx hlx)
    | (extract_lets +onlyGivenNames lx; clear_value lx; revert lx; refine kept_lock ?_; intro lx)
    | with_reducible apply State.keepStaged_kept
    | with_reducible apply kept_ite
    | with_reducible apply kept_foldl
    | simp -zeta only [kept_mk, keptF_fold]
    | split

theorem State.tallyLate_kept (k : Nat) (f : Nat → Nat) (hf : ∀ m, f m < 2 ^ 40) {s : State} (hs : Kept pq va s) :
    Kept pq va (State.tallyLate k f s) := by
  unfold State.tallyLate
  split
  · exact hs
  extract_lets p
  have hp : p.1 < 2 ^ 40 := by
    simp only [p]
    cases h : tFind k s.tally.late with
    | none => exact tGet_lt hs.tally.1
    | some q => exact (hs.tally.2 _ (mem_of_tFind h)).1
  refine ⟨hs.regs, hs.mem, hs.sram, ⟨hs.tally.1, fun q hq => ?_⟩, hs.trace, hs.pending, hs.viaAlias⟩
  rcases mem_tPut hq with rfl | hq
  · exact ⟨hp, hf _⟩
  · exact hs.tally.2 q hq

theorem State.tallyAdd_kept (pg : Nat) (i : Nat) (n : Nat) {s : State} (hs : Kept pq va s) : Kept pq va (State.tallyAdd pg i n s) := by
  unfold State.tallyAdd
  extract_lets k s1 v
  have h1 : Kept pq va s1 := State.tallyLate_kept _ _ (fun _ => Nat.lt_of_le_of_lt (Nat.min_le_right _ _) (tallyLimit_lt _ _)) hs
  clear_value s1
  refine ⟨h1.regs, h1.mem, h1.sram, ⟨fun p hp => ?_, h1.tally.2⟩, h1.trace, h1.pending, h1.viaAlias⟩
  rcases mem_tSet hp with rfl | hp
  · exact Nat.lt_of_le_of_lt (Nat.min_le_right _ _) (tallyLimit_lt _ _)
  · exact h1.tally.1 p hp

theorem State.tallyMax_kept (pg : Nat) (i : Nat) (n : Nat) {s : State} (hs : Kept pq va s) : Kept pq va (State.tallyMax pg i n s) := by
  unfold State.tallyMax
  extract_lets k s1 v
  have h1 : Kept pq va s1 := State.tallyLate_kept _ _ (fun _ => Nat.lt_of_le_of_lt (Nat.min_le_right _ _) (tallyLimit_lt _ _)) hs
  clear_value s1
  refine ⟨h1.regs, h1.mem, h1.sram, ⟨fun p hp => ?_, h1.tally.2⟩, h1.trace, h1.pending, h1.viaAlias⟩
  rcases mem_tSet hp with rfl | hp
  · exact Nat.lt_of_le_of_lt (Nat.min_le_right _ _) (tallyLimit_lt _ _)
  · exact h1.tally.1 p hp

theorem State.lifeAdd_kept (j : Nat) (n : Nat) {s : State} (hs : Kept pq va s) : Kept pq va (State.lifeAdd j n s) := by
  unfold State.lifeAdd
  repeat' first
    | with_reducible assumption
    | intro _
    | (extract_lets +onlyGivenNames lx; refine (fun (hlx : Kept pq va lx) => ?_ : Kept pq va lx → _) ?_; rotate_left; simp -zeta only [lx]; clear lx; rotate_right; clear_value lx; revert lx; refine kept_lock ?_; intro lx hlx)
    | (extract_lets +onlyGivenNames lx; clear_value lx; revert lx; refine kept_lock ?_; intro lx)
    | with_reducible apply State.setReg_kept
    | with_reducible apply kept_ite
    | with_reducible apply kept_foldl
    | simp -zeta only [kept_mk, keptF_fold]
    | split

theorem State.memCount_kept (k : Nat) (n : Nat) {s : State} (hs : Kept pq va s) : Kept pq va (State.memCount k n s) := by
  unfold State.memCount
  repeat' first
    | with_reducible assumption
    | intro _
    | (extract_lets +onlyGivenNames lx; refine (fun (hlx : Kept pq va lx) => ?_ : Kept pq va lx → _) ?_; rotate_left; simp -zeta only [lx]; clear lx; rotate_right; clear_value lx; revert lx; refine kept_lock ?_; intro lx hlx)
    | (extract_lets +onlyGivenNames lx; clear_value lx; revert lx; refine kept_lock ?_; intro lx)
    | with_reducible apply State.lifeAdd_kept
    | with_reducible apply State.tallyAdd_kept
    | with_reducible apply kept_ite
    | with_reducible apply kept_foldl
    | simp -zeta only [kept_mk, keptF_fold]
    | split

theorem State.lateMargin_kept {s : State} (hs : Kept pq va s) : Kept pq va (State.lateMargin s) := by
  unfold State.lateMargin
  repeat' first
    | with_reducible assumption
    | intro _
    | (extract_lets +onlyGivenNames lx; refine (fun (hlx : Kept pq va lx) => ?_ : Kept pq va lx → _) ?_; rotate_left; simp -zeta only [lx]; clear lx; rotate_right; clear_value lx; revert lx; refine kept_lock ?_; intro lx hlx)
    | (extract_lets +onlyGivenNames lx; clear_value lx; revert lx; refine kept_lock ?_; intro lx)
    | with_reducible apply State.tallyAdd_kept
    | with_reducible apply kept_ite
    | with_reducible apply kept_foldl
    | simp -zeta only [kept_mk, keptF_fold]
    | split

theorem State.wr_kept (a : Nat) (data : List Byte) {s : State} (hs : Kept pq va s) : Kept pq va (State.wr a data s) := by
  refine State.memCount_kept _ _ ?_
  exact ⟨hs.regs, tWf_tSetRun hs.mem, hs.sram, hs.tally, hs.trace, hs.pending, hs.viaAlias⟩

theorem State.wrNat_kept (a : Nat) (n : Nat) (v : Nat) {s : State} (hs : Kept pq va s) : Kept pq va (State.wrNat a n v s) := by
  unfold State.wrNat
  repeat' first
    | with_reducible assumption
    | intro _
    | (extract_lets +onlyGivenNames lx; refine (fun (hlx : Kept pq va lx) => ?_ : Kept pq va lx → _) ?_; rotate_left; simp -zeta only [lx]; clear lx; rotate_right; clear_value lx; revert lx; refine kept_lock ?_; intro lx hlx)
    | (extract_lets +onlyGivenNames lx; clear_value lx; revert lx; refine kept_lock ?_; intro lx)
    | with_reducible apply State.wr_kept
    | with_reducible apply kept_ite
    | with_reducible apply kept_foldl
    | simp -zeta only [kept_mk, keptF_fold]
    | split

theorem State.readsOver_kept (t : TableRead) {s : State} (hs : Kept pq va s) : Kept pq va (State.readsOver t s) := by
  unfold State.readsOver
  repeat' first
    | with_reducible assumption
    | intro _
    | (extract_lets +onlyGivenNames lx; refine (fun (hlx : Kept pq va lx) => ?_ : Kept pq va lx → _) ?_; rotate_left; simp -zeta only [lx]; clear lx; rotate_right; clear_value lx; revert lx; refine kept_lock ?_; intro lx hlx)
    | (extract_lets +onlyGivenNames lx; clear_value lx; revert lx; refine kept_lock ?_; intro lx)
    | with_reducible apply kept_ite
    | with_reducible apply kept_foldl
    | simp -zeta only [kept_mk, keptF_fold]
    | split

theorem State.wrSram_kept (a : Nat) (data : List Byte) {s : State} (hs : Kept pq va s) : Kept pq va (State.wrSram a data s) := by
  exact ⟨hs.regs, hs.mem, tWf_tSetRun hs.sram, hs.tally, hs.trace, hs.pending, hs.viaAlias⟩

theorem State.pend_kept (v : Nat) {s : State} (hs : Kept pq va s) : Kept pq va (State.pend v s) := by
  unfold State.pend
  repeat' first
    | with_reducible assumption
    | intro _
    | (extract_lets +onlyGivenNames lx; refine (fun (hlx : Kept pq va lx) => ?_ : Kept pq va lx → _) ?_; rotate_left; simp -zeta only [lx]; clear lx; rotate_right; clear_value lx; revert lx; refine kept_lock ?_; intro lx hlx)
    | (extract_lets +onlyGivenNames lx; clear_value lx; revert lx; refine kept_lock ?_; intro lx)
    | with_reducible apply State.setFld_kept
    | with_reducible apply kept_ite
    | with_reducible apply kept_foldl
    | simp -zeta only [kept_mk, keptF_fold]
    | split

theorem State.setRaw_kept (pg : Nat) (i : Nat) {s : State} (hs : Kept pq va s) : Kept pq va (State.setRaw pg i s) := by
  unfold State.setRaw
  repeat' first
    | with_reducible assumption
    | intro _
    | (extract_lets +onlyGivenNames lx; refine (fun (hlx : Kept pq va lx) => ?_ : Kept pq va lx → _) ?_; rotate_left; simp -zeta only [lx]; clear lx; rotate_right; clear_value lx; revert lx; refine kept_lock ?_; intro lx hlx)
    | (extract_lets +onlyGivenNames lx; clear_value lx; revert lx; refine kept_lock ?_; intro lx)
    | with_reducible apply State.pend_kept
    | with_reducible apply State.setFld_kept
    | with_reducible apply kept_ite
    | with_reducible apply kept_foldl
    | simp -zeta only [kept_mk, keptF_fold]
    | split

theorem State.raise_kept (pg : Nat) {s : State} (hs : Kept pq va s) : Kept pq va (State.raise pg s) := by
  unfold State.raise
  repeat' first
    | with_reducible assumption
    | intro _
    | (extract_lets +onlyGivenNames lx; refine (fun (hlx : Kept pq va lx) => ?_ : Kept pq va lx → _) ?_; rotate_left; simp -zeta only [lx]; clear lx; rotate_right; clear_value lx; revert lx; refine kept_lock ?_; intro lx hlx)
    | (extract_lets +onlyGivenNames lx; clear_value lx; revert lx; refine kept_lock ?_; intro lx)
    | with_reducible apply State.setRaw_kept
    | with_reducible apply kept_ite
    | with_reducible apply kept_foldl
    | simp -zeta only [kept_mk, keptF_fold]
    | split

theorem State.semAdd_kept (n : Nat) (v : W64) {s : State} (hs : Kept pq va s) : Kept pq va (State.semAdd n v s) := by
  unfold State.semAdd
  repeat' first
    | with_reducible assumption
    | intro _
    | (extract_lets +onlyGivenNames lx; refine (fun (hlx : Kept pq va lx) => ?_ : Kept pq va lx → _) ?_; rotate_left; simp -zeta only [lx]; clear lx; rotate_right; clear_value lx; revert lx; refine kept_lock ?_; intro lx hlx)
    | (extract_lets +onlyGivenNames lx; clear_value lx; revert lx; refine kept_lock ?_; intro lx)
    | with_reducible apply State.raise_kept
    | with_reducible apply State.setReg_kept
    | with_reducible apply kept_ite
    | with_reducible apply kept_foldl
    | simp -zeta only [kept_mk, keptF_fold]
    | split

theorem State.setHalf_kept (h : Half) (x : HalfSt) {s : State} (hs : Kept pq va s) : Kept pq va (State.setHalf h x s) := by
  unfold State.setHalf
  repeat' first
    | with_reducible assumption
    | intro _
    | (extract_lets +onlyGivenNames lx; refine (fun (hlx : Kept pq va lx) => ?_ : Kept pq va lx → _) ?_; rotate_left; simp -zeta only [lx]; clear lx; rotate_right; clear_value lx; revert lx; refine kept_lock ?_; intro lx hlx)
    | (extract_lets +onlyGivenNames lx; clear_value lx; revert lx; refine kept_lock ?_; intro lx)
    | with_reducible apply kept_ite
    | with_reducible apply kept_foldl
    | simp -zeta only [kept_mk, keptF_fold]
    | split

theorem State.modRound_kept (h : Half) (f : Round → Round) {s : State} (hs : Kept pq va s) : Kept pq va (State.modRound h f s) := by
  unfold State.modRound
  repeat' first
    | with_reducible assumption
    | intro _
    | (extract_lets +onlyGivenNames lx; refine (fun (hlx : Kept pq va lx) => ?_ : Kept pq va lx → _) ?_; rotate_left; simp -zeta only [lx]; clear lx; rotate_right; clear_value lx; revert lx; refine kept_lock ?_; intro lx hlx)
    | (extract_lets +onlyGivenNames lx; clear_value lx; revert lx; refine kept_lock ?_; intro lx)
    | with_reducible apply State.setHalf_kept
    | with_reducible apply kept_ite
    | with_reducible apply kept_foldl
    | simp -zeta only [kept_mk, keptF_fold]
    | split

theorem State.modTok_kept (h : Half) (i : Nat) (f : RTok → RTok) {s : State} (hs : Kept pq va s) : Kept pq va (State.modTok h i f s) := by
  unfold State.modTok
  repeat' first
    | with_reducible assumption
    | intro _
    | (extract_lets +onlyGivenNames lx; refine (fun (hlx : Kept pq va lx) => ?_ : Kept pq va lx → _) ?_; rotate_left; simp -zeta only [lx]; clear lx; rotate_right; clear_value lx; revert lx; refine kept_lock ?_; intro lx hlx)
    | (extract_lets +onlyGivenNames lx; clear_value lx; revert lx; refine kept_lock ?_; intro lx)
    | with_reducible apply State.modRound_kept
    | with_reducible apply kept_ite
    | with_reducible apply kept_foldl
    | simp -zeta only [kept_mk, keptF_fold]
    | split

theorem State.runStep_kept (w : WStep) {s : State} (hs : Kept pq va s) : Kept pq va (State.runStep w s) := by
  unfold State.runStep
  repeat' first
    | with_reducible assumption
    | intro _
    | (extract_lets +onlyGivenNames lx; refine (fun (hlx : Kept pq va lx) => ?_ : Kept pq va lx → _) ?_; rotate_left; simp -zeta only [lx]; clear lx; rotate_right; clear_value lx; revert lx; refine kept_lock ?_; intro lx hlx)
    | (extract_lets +onlyGivenNames lx; clear_value lx; revert lx; refine kept_lock ?_; intro lx)
    | with_reducible apply State.modTok_kept
    | with_reducible apply State.semAdd_kept
    | with_reducible apply State.setReg_kept
    | with_reducible apply State.wr_kept
    | with_reducible apply kept_ite
    | with_reducible apply kept_foldl
    | simp -zeta only [kept_mk, keptF_fold]
    | split

theorem State.runChain_kept (a0 : List WStep) {a1 : State} (hs : Kept pq va a1) : Kept pq va (State.runChain a0 a1).1 := by
  induction a0 generalizing a1 with
  | nil => exact hs
  | cons w t ih =>
    cases w with
    | bytes a d => exact State.wr_kept _ _ hs
    | reg r v => exact ih (State.runStep_kept _ hs)
    | semAdd n v => exact ih (State.runStep_kept _ hs)
    | tokenWritten h i => exact ih (State.runStep_kept _ hs)

theorem State.runChain_kept' {a0 : List WStep} {a1 : State}  {t : State} {r : _} {r2 : _} (he : State.runChain a0 a1 = (t, r, r2)) (hs : Kept pq va a1) : Kept pq va t := by
  have := State.runChain_kept a0 hs
  rwa [he] at this

theorem State.startChain_kept (w : List WStep) {s : State} (hs : Kept pq va s) : Kept pq va (State.startChain w s) := by
  unfold State.startChain
  repeat' first
    | with_reducible assumption
    | intro _
    | (extract_lets +onlyGivenNames lx; refine (fun (hlx : Kept pq va lx) => ?_ : Kept pq va lx → _) ?_; rotate_left; simp -zeta only [lx]; clear lx; rotate_right; clear_value lx; revert lx; refine kept_lock ?_; intro lx hlx)
    | (extract_lets +onlyGivenNames lx; clear_value lx; revert lx; refine kept_lock ?_; intro lx)
    | with_reducible apply State.runChain_kept
    | with_reducible apply kept_ite
    | with_reducible apply kept_foldl
    | simp -zeta only [kept_mk, keptF_fold]
    | split
    | (with_reducible refine State.runChain_kept' (by with_reducible assumption) ?_)

theorem State.ackChain_kept (c : Nat) {s : State} (hs : Kept pq va s) : Kept pq va (State.ackChain c s) := by
  unfold State.ackChain
  repeat' first
    | with_reducible assumption
    | intro _
    | (extract_lets +onlyGivenNames lx; refine (fun (hlx : Kept pq va lx) => ?_ : Kept pq va lx → _) ?_; rotate_left; simp -zeta only [lx]; clear lx; rotate_right; clear_value lx; revert lx; refine kept_lock ?_; intro lx hlx)
    | (extract_lets +onlyGivenNames lx; clear_value lx; revert lx; refine kept_lock ?_; intro lx)
    | with_reducible apply State.runChain_kept
    | with_reducible apply kept_ite
    | with_reducible apply kept_foldl
    | simp -zeta only [kept_mk, keptF_fold]
    | split
    | (with_reducible refine State.runChain_kept' (by with_reducible assumption) ?_)

/-- The room that an item finds is never more than the FIFO has. -/
theorem State.traceRoom_le (s : State) : s.traceRoom ≤ s.trace.free := by
  unfold State.traceRoom
  split
  · exact Nat.zero_le _
  · exact Nat.le_refl _

theorem State.traceGap_kept {s : State} (hs : Kept pq va s) : Kept pq va (State.traceGap s) := by
  unfold State.traceGap
  extract_lets t item
  split
  · exact hs
  · rename_i hc
    refine State.tallyAdd_kept _ _ _ ?_
    refine ⟨hs.regs, hs.mem, hs.sram, hs.tally, ?_, hs.pending, hs.viaAlias⟩
    have hr := s.traceRoom_le
    simp only [TraceSt.free, t, not_or, Nat.not_lt] at hc hr
    simp only [List.length_append, t, item, List.length_cons, List.length_nil]
    omega

theorem State.emit_kept (kind : Nat) (payload : List W64) {s : State} (hs : Kept pq va s) : Kept pq va (State.emit kind payload s) := by
  unfold State.emit
  split
  · exact hs
  · have h1 := State.traceGap_kept hs
    generalize s.traceGap = s1 at h1 ⊢
    extract_lets u t
    split
    · refine State.tallyAdd_kept _ _ _ ?_
      exact ⟨h1.regs, h1.mem, h1.sram, h1.tally, h1.trace, h1.pending, h1.viaAlias⟩
    · rename_i hc
      split
      rename_i ws trunc hf
      extract_lets item s2
      have h2 : Kept pq va s2 := by
        refine ⟨h1.regs, h1.mem, h1.sram, h1.tally, ?_, h1.pending, h1.viaAlias⟩
        have hl := traceFill_length hf
        have ht := h1.trace
        have hr := s1.traceRoom_le
        simp only [TraceSt.free, u, t, not_or, Nat.not_lt] at hc hl hr
        simp only [s2, item, u, t, List.length_append, List.length_cons, List.length_nil]
        simp only [List.length_nil] at hl
        omega
      clear_value s2
      have h3 := State.tallyAdd_kept Pg.TRACE 0 1 h2
      exact kept_ite (State.tallyAdd_kept _ _ _ h3) h3

theorem State.evLost_kept {s : State} (hs : Kept pq va s) : Kept pq va (State.evLost s) := by
  unfold State.evLost
  repeat' first
    | with_reducible assumption
    | intro _
    | (extract_lets +onlyGivenNames lx; refine (fun (hlx : Kept pq va lx) => ?_ : Kept pq va lx → _) ?_; rotate_left; simp -zeta only [lx]; clear lx; rotate_right; clear_value lx; revert lx; refine kept_lock ?_; intro lx hlx)
    | (extract_lets +onlyGivenNames lx; clear_value lx; revert lx; refine kept_lock ?_; intro lx)
    | with_reducible apply State.setReg_kept
    | with_reducible apply kept_ite
    | with_reducible apply kept_foldl
    | simp -zeta only [kept_mk, keptF_fold]
    | split

theorem State.evWrite_kept (kind : Nat) (code : Nat) (page : Nat) (pkg : Bool) (count : Nat) (detail : W64) {s : State} (hs : Kept pq va s) : Kept pq va (State.evWrite kind code page pkg count detail s) := by
  unfold State.evWrite
  repeat' first
    | with_reducible assumption
    | intro _
    | (extract_lets +onlyGivenNames lx; refine (fun (hlx : Kept pq va lx) => ?_ : Kept pq va lx → _) ?_; rotate_left; simp -zeta only [lx]; clear lx; rotate_right; clear_value lx; revert lx; refine kept_lock ?_; intro lx hlx)
    | (extract_lets +onlyGivenNames lx; clear_value lx; revert lx; refine kept_lock ?_; intro lx)
    | with_reducible apply State.evLost_kept
    | with_reducible apply State.setReg_kept
    | with_reducible apply State.startChain_kept
    | with_reducible apply kept_ite
    | with_reducible apply kept_foldl
    | simp -zeta only [kept_mk, keptF_fold]
    | split

theorem State.evCode_kept (pg : Nat) (code : Nat) (detail : W64) {s : State} (hs : Kept pq va s) : Kept pq va (State.evCode pg code detail s) := by
  unfold State.evCode
  repeat' first
    | with_reducible assumption
    | intro _
    | (extract_lets +onlyGivenNames lx; refine (fun (hlx : Kept pq va lx) => ?_ : Kept pq va lx → _) ?_; rotate_left; simp -zeta only [lx]; clear lx; rotate_right; clear_value lx; revert lx; refine kept_lock ?_; intro lx hlx)
    | (extract_lets +onlyGivenNames lx; clear_value lx; revert lx; refine kept_lock ?_; intro lx)
    | with_reducible apply State.evWrite_kept
    | with_reducible apply kept_ite
    | with_reducible apply kept_foldl
    | simp -zeta only [kept_mk, keptF_fold]
    | split

theorem State.record_kept (pg : Nat) (code : Nat) (detail : Nat) {s : State} (hs : Kept pq va s) : Kept pq va (State.record pg code detail s) := by
  unfold State.record
  repeat' first
    | with_reducible assumption
    | intro _
    | (extract_lets +onlyGivenNames lx; refine (fun (hlx : Kept pq va lx) => ?_ : Kept pq va lx → _) ?_; rotate_left; simp -zeta only [lx]; clear lx; rotate_right; clear_value lx; revert lx; refine kept_lock ?_; intro lx hlx)
    | (extract_lets +onlyGivenNames lx; clear_value lx; revert lx; refine kept_lock ?_; intro lx)
    | with_reducible apply State.emit_kept
    | with_reducible apply State.evCode_kept
    | with_reducible apply State.setRaw_kept
    | with_reducible apply State.setReg_kept
    | with_reducible apply kept_ite
    | with_reducible apply kept_foldl
    | simp -zeta only [kept_mk, keptF_fold]
    | split

theorem State.recordF_kept (pg : Nat) (code : Nat) (faultReg : Nat) {s : State} (hs : Kept pq va s) : Kept pq va (State.recordF pg code faultReg s) := by
  unfold State.recordF
  repeat' first
    | with_reducible assumption
    | intro _
    | (extract_lets +onlyGivenNames lx; refine (fun (hlx : Kept pq va lx) => ?_ : Kept pq va lx → _) ?_; rotate_left; simp -zeta only [lx]; clear lx; rotate_right; clear_value lx; revert lx; refine kept_lock ?_; intro lx hlx)
    | (extract_lets +onlyGivenNames lx; clear_value lx; revert lx; refine kept_lock ?_; intro lx)
    | with_reducible apply State.record_kept
    | with_reducible apply kept_ite
    | with_reducible apply kept_foldl
    | simp -zeta only [kept_mk, keptF_fold]
    | split

theorem State.oncePerBell_kept (k : Nat) {f : State → State} {s : State} (hf : ∀ s, Kept pq va s → Kept pq va (f s)) (hs : Kept pq va s) : Kept pq va (State.oncePerBell k f s) := by
  unfold State.oncePerBell
  repeat' first
    | with_reducible assumption
    | intro _
    | (extract_lets +onlyGivenNames lx; refine (fun (hlx : Kept pq va lx) => ?_ : Kept pq va lx → _) ?_; rotate_left; simp -zeta only [lx]; clear lx; rotate_right; clear_value lx; revert lx; refine kept_lock ?_; intro lx hlx)
    | (extract_lets +onlyGivenNames lx; clear_value lx; revert lx; refine kept_lock ?_; intro lx)
    | with_reducible apply hf
    | with_reducible apply kept_ite
    | with_reducible apply kept_foldl
    | simp -zeta only [kept_mk, keptF_fold]
    | split

theorem State.recordOnce_kept (pg : Nat) (code : Nat) (detail : Nat) {s : State} (hs : Kept pq va s) : Kept pq va (State.recordOnce pg code detail s) := by
  unfold State.recordOnce
  repeat' first
    | with_reducible assumption
    | intro _
    | (extract_lets +onlyGivenNames lx; refine (fun (hlx : Kept pq va lx) => ?_ : Kept pq va lx → _) ?_; rotate_left; simp -zeta only [lx]; clear lx; rotate_right; clear_value lx; revert lx; refine kept_lock ?_; intro lx hlx)
    | (extract_lets +onlyGivenNames lx; clear_value lx; revert lx; refine kept_lock ?_; intro lx)
    | with_reducible apply State.oncePerBell_kept
    | with_reducible apply State.record_kept
    | with_reducible apply kept_ite
    | with_reducible apply kept_foldl
    | simp -zeta only [kept_mk, keptF_fold]
    | split

theorem State.driveAlarm_kept {s : State} (hs : Kept pq va s) : Kept pq va (State.driveAlarm s) := by
  unfold State.driveAlarm
  repeat' first
    | with_reducible assumption
    | intro _
    | (extract_lets +onlyGivenNames lx; refine (fun (hlx : Kept pq va lx) => ?_ : Kept pq va lx → _) ?_; rotate_left; simp -zeta only [lx]; clear lx; rotate_right; clear_value lx; revert lx; refine kept_lock ?_; intro lx hlx)
    | (extract_lets +onlyGivenNames lx; clear_value lx; revert lx; refine kept_lock ?_; intro lx)
    | with_reducible apply State.setFld_kept
    | with_reducible apply kept_ite
    | with_reducible apply kept_foldl
    | simp -zeta only [kept_mk, keptF_fold]
    | split

theorem State.noteFound_kept (cls : Nat) (first : Bool) {s : State} (hs : Kept pq va s) : Kept pq va (State.noteFound cls first s) := by
  unfold State.noteFound
  repeat' first
    | with_reducible assumption
    | intro _
    | (extract_lets +onlyGivenNames lx; refine (fun (hlx : Kept pq va lx) => ?_ : Kept pq va lx → _) ?_; rotate_left; simp -zeta only [lx]; clear lx; rotate_right; clear_value lx; revert lx; refine kept_lock ?_; intro lx hlx)
    | (extract_lets +onlyGivenNames lx; clear_value lx; revert lx; refine kept_lock ?_; intro lx)
    | with_reducible apply kept_ite
    | with_reducible apply kept_foldl
    | simp -zeta only [kept_mk, keptF_fold]
    | split

theorem State.safeReport_kept (cls : Nat) (code : Nat) (layer : Nat) (half : Half) (kind : Nat) (index : Nat) (delivered : Bool) {s : State} (hs : Kept pq va s) : Kept pq va (State.safeReport cls code layer half kind index delivered s) := by
  unfold State.safeReport
  repeat' first
    | with_reducible assumption
    | intro _
    | (extract_lets +onlyGivenNames lx; refine (fun (hlx : Kept pq va lx) => ?_ : Kept pq va lx → _) ?_; rotate_left; simp -zeta only [lx]; clear lx; rotate_right; clear_value lx; revert lx; refine kept_lock ?_; intro lx hlx)
    | (extract_lets +onlyGivenNames lx; clear_value lx; revert lx; refine kept_lock ?_; intro lx)
    | with_reducible apply State.driveAlarm_kept
    | with_reducible apply State.evWrite_kept
    | with_reducible apply State.lifeAdd_kept
    | with_reducible apply State.noteFound_kept
    | with_reducible apply State.raise_kept
    | with_reducible apply State.record_kept
    | with_reducible apply State.setFld_kept
    | with_reducible apply State.setReg_kept
    | with_reducible apply State.tallyAdd_kept
    | with_reducible apply kept_ite
    | with_reducible apply kept_foldl
    | simp -zeta only [kept_mk, keptF_fold]
    | split

theorem State.safe0_kept (cls : Nat) (code : Nat) (layer : Nat) (half : Half) {s : State} (hs : Kept pq va s) : Kept pq va (State.safe0 cls code layer half s) := by
  unfold State.safe0
  repeat' first
    | with_reducible assumption
    | intro _
    | (extract_lets +onlyGivenNames lx; refine (fun (hlx : Kept pq va lx) => ?_ : Kept pq va lx → _) ?_; rotate_left; simp -zeta only [lx]; clear lx; rotate_right; clear_value lx; revert lx; refine kept_lock ?_; intro lx hlx)
    | (extract_lets +onlyGivenNames lx; clear_value lx; revert lx; refine kept_lock ?_; intro lx)
    | with_reducible apply State.safeReport_kept
    | with_reducible apply kept_ite
    | with_reducible apply kept_foldl
    | simp -zeta only [kept_mk, keptF_fold]
    | split

theorem State.suspect_kept (bell : Nat) (layer : Nat) (half : Half) (first : Nat) (last : Nat) {s : State} (hs : Kept pq va s) : Kept pq va (State.suspect bell layer half first last s) := by
  unfold State.suspect
  repeat' first
    | with_reducible assumption
    | intro _
    | (extract_lets +onlyGivenNames lx; refine (fun (hlx : Kept pq va lx) => ?_ : Kept pq va lx → _) ?_; rotate_left; simp -zeta only [lx]; clear lx; rotate_right; clear_value lx; revert lx; refine kept_lock ?_; intro lx hlx)
    | (extract_lets +onlyGivenNames lx; clear_value lx; revert lx; refine kept_lock ?_; intro lx)
    | with_reducible apply State.evWrite_kept
    | with_reducible apply State.setReg_kept
    | with_reducible apply State.tallyAdd_kept
    | with_reducible apply kept_ite
    | with_reducible apply kept_foldl
    | simp -zeta only [kept_mk, keptF_fold]
    | split

theorem State.taintRange_kept (h : Half) (a : Nat) (b : Nat) {s : State} (hs : Kept pq va s) : Kept pq va (State.taintRange h a b s) := by
  unfold State.taintRange
  repeat' first
    | with_reducible assumption
    | intro _
    | (extract_lets +onlyGivenNames lx; refine (fun (hlx : Kept pq va lx) => ?_ : Kept pq va lx → _) ?_; rotate_left; simp -zeta only [lx]; clear lx; rotate_right; clear_value lx; revert lx; refine kept_lock ?_; intro lx hlx)
    | (extract_lets +onlyGivenNames lx; clear_value lx; revert lx; refine kept_lock ?_; intro lx)
    | with_reducible apply State.modRound_kept
    | with_reducible apply kept_ite
    | with_reducible apply kept_foldl
    | simp -zeta only [kept_mk, keptF_fold]
    | split

theorem State.taintTok_kept (h : Half) (i : Nat) {s : State} (hs : Kept pq va s) : Kept pq va (State.taintTok h i s) := by
  unfold State.taintTok
  repeat' first
    | with_reducible assumption
    | intro _
    | (extract_lets +onlyGivenNames lx; refine (fun (hlx : Kept pq va lx) => ?_ : Kept pq va lx → _) ?_; rotate_left; simp -zeta only [lx]; clear lx; rotate_right; clear_value lx; revert lx; refine kept_lock ?_; intro lx hlx)
    | (extract_lets +onlyGivenNames lx; clear_value lx; revert lx; refine kept_lock ?_; intro lx)
    | with_reducible apply State.modTok_kept
    | with_reducible apply kept_ite
    | with_reducible apply kept_foldl
    | simp -zeta only [kept_mk, keptF_fold]
    | split

theorem State.lostDup_kept (code : Nat) (layer : Nat) (h : Half) {s : State} (hs : Kept pq va s) : Kept pq va (State.lostDup code layer h s) := by
  unfold State.lostDup
  repeat' first
    | with_reducible assumption
    | intro _
    | (extract_lets +onlyGivenNames lx; refine (fun (hlx : Kept pq va lx) => ?_ : Kept pq va lx → _) ?_; rotate_left; simp -zeta only [lx]; clear lx; rotate_right; clear_value lx; revert lx; refine kept_lock ?_; intro lx hlx)
    | (extract_lets +onlyGivenNames lx; clear_value lx; revert lx; refine kept_lock ?_; intro lx)
    | with_reducible apply State.safe0_kept
    | with_reducible apply kept_ite
    | with_reducible apply kept_foldl
    | simp -zeta only [kept_mk, keptF_fold]
    | split

theorem State.discarded_kept (code : Nat) {s : State} (hs : Kept pq va s) : Kept pq va (State.discarded code s) := by
  unfold State.discarded
  repeat' first
    | with_reducible assumption
    | intro _
    | (extract_lets +onlyGivenNames lx; refine (fun (hlx : Kept pq va lx) => ?_ : Kept pq va lx → _) ?_; rotate_left; simp -zeta only [lx]; clear lx; rotate_right; clear_value lx; revert lx; refine kept_lock ?_; intro lx hlx)
    | (extract_lets +onlyGivenNames lx; clear_value lx; revert lx; refine kept_lock ?_; intro lx)
    | with_reducible apply State.tallyAdd_kept
    | with_reducible apply kept_ite
    | with_reducible apply kept_foldl
    | simp -zeta only [kept_mk, keptF_fold]
    | split

theorem State.send_kept (p : Packet) {s : State} (hs : Kept pq va s) : Kept pq va (State.send p s) := by
  unfold State.send
  repeat' first
    | with_reducible assumption
    | intro _
    | (extract_lets +onlyGivenNames lx; refine (fun (hlx : Kept pq va lx) => ?_ : Kept pq va lx → _) ?_; rotate_left; simp -zeta only [lx]; clear lx; rotate_right; clear_value lx; revert lx; refine kept_lock ?_; intro lx hlx)
    | (extract_lets +onlyGivenNames lx; clear_value lx; revert lx; refine kept_lock ?_; intro lx)
    | with_reducible apply kept_ite
    | with_reducible apply kept_foldl
    | simp -zeta only [kept_mk, keptF_fold]
    | split

theorem State.sendAuc_kept (dest : Nat) (recs : List Byte) {s : State} (hs : Kept pq va s) : Kept pq va (State.sendAuc dest recs s) := by
  unfold State.sendAuc
  repeat' first
    | with_reducible assumption
    | intro _
    | (extract_lets +onlyGivenNames lx; refine (fun (hlx : Kept pq va lx) => ?_ : Kept pq va lx → _) ?_; rotate_left; simp -zeta only [lx]; clear lx; rotate_right; clear_value lx; revert lx; refine kept_lock ?_; intro lx hlx)
    | (extract_lets +onlyGivenNames lx; clear_value lx; revert lx; refine kept_lock ?_; intro lx)
    | with_reducible apply State.send_kept
    | with_reducible apply kept_ite
    | with_reducible apply kept_foldl
    | simp -zeta only [kept_mk, keptF_fold]
    | split

theorem State.flood_kept (kind : Nat) (payload : List Byte) {s : State} (hs : Kept pq va s) : Kept pq va (State.flood kind payload s) := by
  unfold State.flood
  repeat' first
    | with_reducible assumption
    | intro _
    | (extract_lets +onlyGivenNames lx; refine (fun (hlx : Kept pq va lx) => ?_ : Kept pq va lx → _) ?_; rotate_left; simp -zeta only [lx]; clear lx; rotate_right; clear_value lx; revert lx; refine kept_lock ?_; intro lx hlx)
    | (extract_lets +onlyGivenNames lx; clear_value lx; revert lx; refine kept_lock ?_; intro lx)
    | with_reducible apply State.send_kept
    | with_reducible apply kept_ite
    | with_reducible apply kept_foldl
    | simp -zeta only [kept_mk, keptF_fold]
    | split

end Sys2Proof.Machine
end

