-- ==== Sys2Proof/Laws/Operands.lean ====
section
/-! SUPPORT. What each operation of Machine/Operands.lean keeps (Laws/Kept.lean). -/
set_option linter.all false
namespace Sys2Proof.Machine

variable {pq : List Instr} {va : Bool}

theorem State.dropWrite_kept (code : Nat) (r : Nat) {s : State} (hs : Kept pq va s) : Kept pq va (State.dropWrite code r s) := by
  unfold State.dropWrite
  repeat' first
    | with_reducible assumption
    | intro _
    | (extract_lets +onlyGivenNames lx; refine (fun (hlx : Kept pq va lx) => ?_ : Kept pq va lx → _) ?_; rotate_left; simp -zeta only [lx]; clear lx; rotate_right; clear_value lx; revert lx; refine kept_lock ?_; intro lx hlx)
    | (extract_lets +onlyGivenNames lx; clear_value lx; revert lx; refine kept_lock ?_; intro lx)
    | with_reducible apply State.record_kept
    | with_reducible apply kept_ite
    | with_reducible apply kept_foldl
    | simp -zeta only [kept_mk, keptF_fold]
    | split

theorem State.gated_kept (r : Nat) (v : W64) {ok : State → State} {s : State} (hf : ∀ s, Kept pq va s → Kept pq va (ok s)) (hs : Kept pq va s) : Kept pq va (State.gated r v ok s) := by
  unfold State.gated
  repeat' first
    | with_reducible assumption
    | intro _
    | (extract_lets +onlyGivenNames lx; refine (fun (hlx : Kept pq va lx) => ?_ : Kept pq va lx → _) ?_; rotate_left; simp -zeta only [lx]; clear lx; rotate_right; clear_value lx; revert lx; refine kept_lock ?_; intro lx hlx)
    | (extract_lets +onlyGivenNames lx; clear_value lx; revert lx; refine kept_lock ?_; intro lx)
    | with_reducible apply hf
    | with_reducible apply State.dropWrite_kept
    | with_reducible apply State.record_kept
    | with_reducible apply kept_ite
    | with_reducible apply kept_foldl
    | simp -zeta only [kept_mk, keptF_fold]
    | split

theorem State.accessWrite_kept (r : Nat) (v : W64) {s : State} (hs : Kept pq va s) : Kept pq va (State.accessWrite r v s) := by
  unfold State.accessWrite
  repeat' first
    | with_reducible assumption
    | intro _
    | (extract_lets +onlyGivenNames lx; refine (fun (hlx : Kept pq va lx) => ?_ : Kept pq va lx → _) ?_; rotate_left; simp -zeta only [lx]; clear lx; rotate_right; clear_value lx; revert lx; refine kept_lock ?_; intro lx hlx)
    | (extract_lets +onlyGivenNames lx; clear_value lx; revert lx; refine kept_lock ?_; intro lx)
    | with_reducible apply State.setReg_kept
    | with_reducible apply State.stage_kept
    | with_reducible apply kept_ite
    | with_reducible apply kept_foldl
    | simp -zeta only [kept_mk, keptF_fold]
    | split

theorem State.discardHandle_kept (h : W64) (stale : Bool) (layer : Nat) (half : Half) {s : State} (hs : Kept pq va s) : Kept pq va (State.discardHandle h stale layer half s) := by
  unfold State.discardHandle
  repeat' first
    | with_reducible assumption
    | intro _
    | (extract_lets +onlyGivenNames lx; refine (fun (hlx : Kept pq va lx) => ?_ : Kept pq va lx → _) ?_; rotate_left; simp -zeta only [lx]; clear lx; rotate_right; clear_value lx; revert lx; refine kept_lock ?_; intro lx hlx)
    | (extract_lets +onlyGivenNames lx; clear_value lx; revert lx; refine kept_lock ?_; intro lx)
    | with_reducible apply State.record_kept
    | with_reducible apply State.safe0_kept
    | with_reducible apply State.setReg_kept
    | with_reducible apply State.tallyAdd_kept
    | with_reducible apply kept_ite
    | with_reducible apply kept_foldl
    | simp -zeta only [kept_mk, keptF_fold]
    | split

theorem State.wrPlace_kept (p : Place) (off : Nat) (d : List Byte) {s : State} (hs : Kept pq va s) : Kept pq va (State.wrPlace p off d s) := by
  unfold State.wrPlace
  repeat' first
    | with_reducible assumption
    | intro _
    | (extract_lets +onlyGivenNames lx; refine (fun (hlx : Kept pq va lx) => ?_ : Kept pq va lx → _) ?_; rotate_left; simp -zeta only [lx]; clear lx; rotate_right; clear_value lx; revert lx; refine kept_lock ?_; intro lx hlx)
    | (extract_lets +onlyGivenNames lx; clear_value lx; revert lx; refine kept_lock ?_; intro lx)
    | with_reducible apply State.wr_kept
    | with_reducible apply State.wrSram_kept
    | with_reducible apply kept_ite
    | with_reducible apply kept_foldl
    | simp -zeta only [kept_mk, keptF_fold]
    | split

end Sys2Proof.Machine
end

