-- ==== Sys2Proof/Laws/Seqs.lean ====
section
/-! SUPPORT. What each operation of Machine/Seqs.lean keeps (Laws/Kept.lean). -/
set_option linter.all false
namespace Sys2Proof.Machine

variable {pq : List Instr} {va : Bool}

theorem State.copySeq_kept (i : Nat) {s : State} (hs : Kept pq va s) : Kept pq va (State.copySeq i s) := by
  unfold State.copySeq
  repeat' first
    | with_reducible assumption
    | intro _
    | (extract_lets +onlyGivenNames lx; refine (fun (hlx : Kept pq va lx) => ?_ : Kept pq va lx → _) ?_; rotate_left; simp -zeta only [lx]; clear lx; rotate_right; clear_value lx; revert lx; refine kept_lock ?_; intro lx hlx)
    | (extract_lets +onlyGivenNames lx; clear_value lx; revert lx; refine kept_lock ?_; intro lx)
    | with_reducible apply State.startChain_kept
    | with_reducible apply kept_ite
    | with_reducible apply kept_foldl
    | simp -zeta only [kept_mk, keptF_fold]
    | split

theorem State.setSeq_kept (i : Nat) (e : Seq) {s : State} (hs : Kept pq va s) : Kept pq va (State.setSeq i e s) := by
  unfold State.setSeq
  repeat' first
    | with_reducible assumption
    | intro _
    | (extract_lets +onlyGivenNames lx; refine (fun (hlx : Kept pq va lx) => ?_ : Kept pq va lx → _) ?_; rotate_left; simp -zeta only [lx]; clear lx; rotate_right; clear_value lx; revert lx; refine kept_lock ?_; intro lx hlx)
    | (extract_lets +onlyGivenNames lx; clear_value lx; revert lx; refine kept_lock ?_; intro lx)
    | with_reducible apply State.copySeq_kept
    | with_reducible apply State.setFld_kept
    | with_reducible apply kept_ite
    | with_reducible apply kept_foldl
    | simp -zeta only [kept_mk, keptF_fold]
    | split

theorem State.writeRecord_kept (h : Half) (i : Nat) (vector : Bool) {s : State} (hs : Kept pq va s) : Kept pq va (State.writeRecord h i vector s) := by
  unfold State.writeRecord
  repeat' first
    | with_reducible assumption
    | intro _
    | (extract_lets +onlyGivenNames lx; refine (fun (hlx : Kept pq va lx) => ?_ : Kept pq va lx → _) ?_; rotate_left; simp -zeta only [lx]; clear lx; rotate_right; clear_value lx; revert lx; refine kept_lock ?_; intro lx hlx)
    | (extract_lets +onlyGivenNames lx; clear_value lx; revert lx; refine kept_lock ?_; intro lx)
    | with_reducible apply State.modTok_kept
    | with_reducible apply State.startChain_kept
    | with_reducible apply kept_ite
    | with_reducible apply kept_foldl
    | simp -zeta only [kept_mk, keptF_fold]
    | split

theorem State.failRecord_kept (h : Half) (i : Nat) (late : Bool) {s : State} (hs : Kept pq va s) : Kept pq va (State.failRecord h i late s) := by
  unfold State.failRecord
  repeat' first
    | with_reducible assumption
    | intro _
    | (extract_lets +onlyGivenNames lx; refine (fun (hlx : Kept pq va lx) => ?_ : Kept pq va lx → _) ?_; rotate_left; simp -zeta only [lx]; clear lx; rotate_right; clear_value lx; revert lx; refine kept_lock ?_; intro lx hlx)
    | (extract_lets +onlyGivenNames lx; clear_value lx; revert lx; refine kept_lock ?_; intro lx)
    | with_reducible apply State.modTok_kept
    | with_reducible apply State.writeRecord_kept
    | with_reducible apply kept_ite
    | with_reducible apply kept_foldl
    | simp -zeta only [kept_mk, keptF_fold]
    | split

theorem State.failTokens_kept (h : Half) (q : Nat) {s : State} (hs : Kept pq va s) : Kept pq va (State.failTokens h q s) := by
  unfold State.failTokens
  repeat' first
    | with_reducible assumption
    | intro _
    | (extract_lets +onlyGivenNames lx; refine (fun (hlx : Kept pq va lx) => ?_ : Kept pq va lx → _) ?_; rotate_left; simp -zeta only [lx]; clear lx; rotate_right; clear_value lx; revert lx; refine kept_lock ?_; intro lx hlx)
    | (extract_lets +onlyGivenNames lx; clear_value lx; revert lx; refine kept_lock ?_; intro lx)
    | with_reducible apply State.failRecord_kept
    | with_reducible apply State.modTok_kept
    | with_reducible apply kept_ite
    | with_reducible apply kept_foldl
    | simp -zeta only [kept_mk, keptF_fold]
    | split

theorem State.recordFailure_kept (q : Nat) (cause : Nat) (layer : Nat) (st : Nat) {s : State} (hs : Kept pq va s) : Kept pq va (State.recordFailure q cause layer st s) := by
  unfold State.recordFailure
  repeat' first
    | with_reducible assumption
    | intro _
    | (extract_lets +onlyGivenNames lx; refine (fun (hlx : Kept pq va lx) => ?_ : Kept pq va lx → _) ?_; rotate_left; simp -zeta only [lx]; clear lx; rotate_right; clear_value lx; revert lx; refine kept_lock ?_; intro lx hlx)
    | (extract_lets +onlyGivenNames lx; clear_value lx; revert lx; refine kept_lock ?_; intro lx)
    | with_reducible apply State.failTokens_kept
    | with_reducible apply State.raise_kept
    | with_reducible apply State.record_kept
    | with_reducible apply State.setReg_kept
    | with_reducible apply State.setSeq_kept
    | with_reducible apply State.tallyAdd_kept
    | with_reducible apply kept_ite
    | with_reducible apply kept_foldl
    | simp -zeta only [kept_mk, keptF_fold]
    | split

theorem State.failSeq_kept (cause : Nat) (layer : Nat) (q : Nat) {s : State} (hs : Kept pq va s) : Kept pq va (State.failSeq cause layer q s) := by
  unfold State.failSeq
  repeat' first
    | with_reducible assumption
    | intro _
    | (extract_lets +onlyGivenNames lx; refine (fun (hlx : Kept pq va lx) => ?_ : Kept pq va lx → _) ?_; rotate_left; simp -zeta only [lx]; clear lx; rotate_right; clear_value lx; revert lx; refine kept_lock ?_; intro lx hlx)
    | (extract_lets +onlyGivenNames lx; clear_value lx; revert lx; refine kept_lock ?_; intro lx)
    | with_reducible apply State.recordFailure_kept
    | with_reducible apply State.tallyAdd_kept
    | with_reducible apply kept_ite
    | with_reducible apply kept_foldl
    | simp -zeta only [kept_mk, keptF_fold]
    | split

theorem State.failSeqs_kept (cause : Nat) (layer : Nat) (qs : List Nat) {s : State} (hs : Kept pq va s) : Kept pq va (State.failSeqs cause layer qs s) := by
  unfold State.failSeqs
  repeat' first
    | with_reducible assumption
    | intro _
    | (extract_lets +onlyGivenNames lx; refine (fun (hlx : Kept pq va lx) => ?_ : Kept pq va lx → _) ?_; rotate_left; simp -zeta only [lx]; clear lx; rotate_right; clear_value lx; revert lx; refine kept_lock ?_; intro lx hlx)
    | (extract_lets +onlyGivenNames lx; clear_value lx; revert lx; refine kept_lock ?_; intro lx)
    | with_reducible apply State.failSeq_kept
    | with_reducible apply kept_ite
    | with_reducible apply kept_foldl
    | simp -zeta only [kept_mk, keptF_fold]
    | split

theorem State.endDraining_kept {s : State} (hs : Kept pq va s) : Kept pq va (State.endDraining s) := by
  unfold State.endDraining
  repeat' first
    | with_reducible assumption
    | intro _
    | (extract_lets +onlyGivenNames lx; refine (fun (hlx : Kept pq va lx) => ?_ : Kept pq va lx → _) ?_; rotate_left; simp -zeta only [lx]; clear lx; rotate_right; clear_value lx; revert lx; refine kept_lock ?_; intro lx hlx)
    | (extract_lets +onlyGivenNames lx; clear_value lx; revert lx; refine kept_lock ?_; intro lx)
    | with_reducible apply State.setSeq_kept
    | with_reducible apply kept_ite
    | with_reducible apply kept_foldl
    | simp -zeta only [kept_mk, keptF_fold]
    | split

theorem State.editStatus_kept (a : Nat) (status : Nat) {s : State} (hs : Kept pq va s) : Kept pq va (State.editStatus a status s) := by
  unfold State.editStatus
  repeat' first
    | with_reducible assumption
    | intro _
    | (extract_lets +onlyGivenNames lx; refine (fun (hlx : Kept pq va lx) => ?_ : Kept pq va lx → _) ?_; rotate_left; simp -zeta only [lx]; clear lx; rotate_right; clear_value lx; revert lx; refine kept_lock ?_; intro lx hlx)
    | (extract_lets +onlyGivenNames lx; clear_value lx; revert lx; refine kept_lock ?_; intro lx)
    | with_reducible apply State.wr_kept
    | with_reducible apply kept_ite
    | with_reducible apply kept_foldl
    | simp -zeta only [kept_mk, keptF_fold]
    | split

theorem State.editRefuse_kept (a : Nat) (code : Nat) {s : State} (hs : Kept pq va s) : Kept pq va (State.editRefuse a code s) := by
  unfold State.editRefuse
  repeat' first
    | with_reducible assumption
    | intro _
    | (extract_lets +onlyGivenNames lx; refine (fun (hlx : Kept pq va lx) => ?_ : Kept pq va lx → _) ?_; rotate_left; simp -zeta only [lx]; clear lx; rotate_right; clear_value lx; revert lx; refine kept_lock ?_; intro lx hlx)
    | (extract_lets +onlyGivenNames lx; clear_value lx; revert lx; refine kept_lock ?_; intro lx)
    | with_reducible apply State.editStatus_kept
    | with_reducible apply State.record_kept
    | with_reducible apply kept_ite
    | with_reducible apply kept_foldl
    | simp -zeta only [kept_mk, keptF_fold]
    | split

theorem State.editStart_kept (a : Nat) (b : List Byte) {s : State} (hs : Kept pq va s) : Kept pq va (State.editStart a b s) := by
  unfold State.editStart
  repeat' first
    | with_reducible assumption
    | intro _
    | (extract_lets +onlyGivenNames lx; refine (fun (hlx : Kept pq va lx) => ?_ : Kept pq va lx → _) ?_; rotate_left; simp -zeta only [lx]; clear lx; rotate_right; clear_value lx; revert lx; refine kept_lock ?_; intro lx hlx)
    | (extract_lets +onlyGivenNames lx; clear_value lx; revert lx; refine kept_lock ?_; intro lx)
    | with_reducible apply State.editRefuse_kept
    | with_reducible apply State.editStatus_kept
    | with_reducible apply State.setSeq_kept
    | with_reducible apply State.tallyAdd_kept
    | with_reducible apply State.wr_kept
    | with_reducible apply kept_ite
    | with_reducible apply kept_foldl
    | simp -zeta only [kept_mk, keptF_fold]
    | split

theorem State.editFinish_kept (a : Nat) (b : List Byte) {s : State} (hs : Kept pq va s) : Kept pq va (State.editFinish a b s) := by
  unfold State.editFinish
  repeat' first
    | with_reducible assumption
    | intro _
    | (extract_lets +onlyGivenNames lx; refine (fun (hlx : Kept pq va lx) => ?_ : Kept pq va lx → _) ?_; rotate_left; simp -zeta only [lx]; clear lx; rotate_right; clear_value lx; revert lx; refine kept_lock ?_; intro lx hlx)
    | (extract_lets +onlyGivenNames lx; clear_value lx; revert lx; refine kept_lock ?_; intro lx)
    | with_reducible apply State.editRefuse_kept
    | with_reducible apply State.editStatus_kept
    | with_reducible apply State.setSeq_kept
    | with_reducible apply State.tallyAdd_kept
    | with_reducible apply kept_ite
    | with_reducible apply kept_foldl
    | simp -zeta only [kept_mk, keptF_fold]
    | split

theorem State.editChunk_kept (a : Nat) (b : List Byte) {s : State} (hs : Kept pq va s) : Kept pq va (State.editChunk a b s) := by
  unfold State.editChunk
  repeat' first
    | with_reducible assumption
    | intro _
    | (extract_lets +onlyGivenNames lx; refine (fun (hlx : Kept pq va lx) => ?_ : Kept pq va lx → _) ?_; rotate_left; simp -zeta only [lx]; clear lx; rotate_right; clear_value lx; revert lx; refine kept_lock ?_; intro lx hlx)
    | (extract_lets +onlyGivenNames lx; clear_value lx; revert lx; refine kept_lock ?_; intro lx)
    | with_reducible apply State.editRefuse_kept
    | with_reducible apply State.editStatus_kept
    | with_reducible apply State.setSeq_kept
    | with_reducible apply kept_ite
    | with_reducible apply kept_foldl
    | simp -zeta only [kept_mk, keptF_fold]
    | split

theorem State.editPriority_kept (a : Nat) (b : List Byte) {s : State} (hs : Kept pq va s) : Kept pq va (State.editPriority a b s) := by
  unfold State.editPriority
  repeat' first
    | with_reducible assumption
    | intro _
    | (extract_lets +onlyGivenNames lx; refine (fun (hlx : Kept pq va lx) => ?_ : Kept pq va lx → _) ?_; rotate_left; simp -zeta only [lx]; clear lx; rotate_right; clear_value lx; revert lx; refine kept_lock ?_; intro lx hlx)
    | (extract_lets +onlyGivenNames lx; clear_value lx; revert lx; refine kept_lock ?_; intro lx)
    | with_reducible apply State.editRefuse_kept
    | with_reducible apply State.editStatus_kept
    | with_reducible apply State.setSeq_kept
    | with_reducible apply kept_ite
    | with_reducible apply kept_foldl
    | simp -zeta only [kept_mk, keptF_fold]
    | split

theorem State.editExtend_kept (a : Nat) (b : List Byte) {s : State} (hs : Kept pq va s) : Kept pq va (State.editExtend a b s) := by
  unfold State.editExtend
  repeat' first
    | with_reducible assumption
    | intro _
    | (extract_lets +onlyGivenNames lx; refine (fun (hlx : Kept pq va lx) => ?_ : Kept pq va lx → _) ?_; rotate_left; simp -zeta only [lx]; clear lx; rotate_right; clear_value lx; revert lx; refine kept_lock ?_; intro lx hlx)
    | (extract_lets +onlyGivenNames lx; clear_value lx; revert lx; refine kept_lock ?_; intro lx)
    | with_reducible apply State.editRefuse_kept
    | with_reducible apply State.editStatus_kept
    | with_reducible apply State.setSeq_kept
    | with_reducible apply kept_ite
    | with_reducible apply kept_foldl
    | simp -zeta only [kept_mk, keptF_fold]
    | split

theorem State.applyEdit_kept (a : Nat) (b : List Byte) {s : State} (hs : Kept pq va s) : Kept pq va (State.applyEdit a b s) := by
  unfold State.applyEdit
  repeat' first
    | with_reducible assumption
    | intro _
    | (extract_lets +onlyGivenNames lx; refine (fun (hlx : Kept pq va lx) => ?_ : Kept pq va lx → _) ?_; rotate_left; simp -zeta only [lx]; clear lx; rotate_right; clear_value lx; revert lx; refine kept_lock ?_; intro lx hlx)
    | (extract_lets +onlyGivenNames lx; clear_value lx; revert lx; refine kept_lock ?_; intro lx)
    | with_reducible apply State.editChunk_kept
    | with_reducible apply State.editExtend_kept
    | with_reducible apply State.editFinish_kept
    | with_reducible apply State.editPriority_kept
    | with_reducible apply State.editStart_kept
    | with_reducible apply kept_ite
    | with_reducible apply kept_foldl
    | simp -zeta only [kept_mk, keptF_fold]
    | split

theorem State.applyPlan_kept (p : Plan) {s : State} (hs : Kept pq va s) : Kept pq va (State.applyPlan p s) := by
  unfold State.applyPlan
  repeat' first
    | with_reducible assumption
    | intro _
    | (extract_lets +onlyGivenNames lx; refine (fun (hlx : Kept pq va lx) => ?_ : Kept pq va lx → _) ?_; rotate_left; simp -zeta only [lx]; clear lx; rotate_right; clear_value lx; revert lx; refine kept_lock ?_; intro lx hlx)
    | (extract_lets +onlyGivenNames lx; clear_value lx; revert lx; refine kept_lock ?_; intro lx)
    | with_reducible apply State.applyEdit_kept
    | with_reducible apply State.wr_kept
    | with_reducible apply State.wrNat_kept
    | with_reducible apply kept_ite
    | with_reducible apply kept_foldl
    | simp -zeta only [kept_mk, keptF_fold]
    | split

theorem State.seqHashIn_kept (v : W64) {s : State} (hs : Kept pq va s) : Kept pq va (State.seqHashIn v s) := by
  unfold State.seqHashIn
  repeat' first
    | with_reducible assumption
    | intro _
    | (extract_lets +onlyGivenNames lx; refine (fun (hlx : Kept pq va lx) => ?_ : Kept pq va lx → _) ?_; rotate_left; simp -zeta only [lx]; clear lx; rotate_right; clear_value lx; revert lx; refine kept_lock ?_; intro lx hlx)
    | (extract_lets +onlyGivenNames lx; clear_value lx; revert lx; refine kept_lock ?_; intro lx)
    | with_reducible apply State.gated_kept
    | with_reducible apply State.setReg_kept
    | with_reducible apply kept_ite
    | with_reducible apply kept_foldl
    | simp -zeta only [kept_mk, keptF_fold]
    | split

theorem execSeqHashIn_kept (v : W64) {s : State} (hs : Kept pq va s) : KeptOut pq va (execSeqHashIn v s) := by
  unfold execSeqHashIn
  repeat' first
    | with_reducible assumption
    | intro _
    | (extract_lets +onlyGivenNames lx; refine (fun (hlx : Kept pq va lx) => ?_ : Kept pq va lx → _) ?_; rotate_left; simp -zeta only [lx]; clear lx; rotate_right; clear_value lx; revert lx; refine kept_lock ?_; intro lx hlx)
    | (extract_lets +onlyGivenNames lx; clear_value lx; revert lx; refine kept_lock ?_; intro lx)
    | with_reducible apply keptOut_next
    | with_reducible apply keptOut_ite
    | with_reducible apply State.seqHashIn_kept
    | with_reducible apply kept_ite
    | with_reducible apply kept_foldl
    | simp -zeta only [kept_mk, keptF_fold]
    | split

end Sys2Proof.Machine
end

