-- ==== Sys2Proof/Laws/Pools.lean ====
section
/-! SUPPORT. What each operation of Machine/Pools.lean keeps (Laws/Kept.lean). -/
set_option linter.all false
namespace Sys2Proof.Machine

variable {pq : List Instr} {va : Bool}

theorem State.setFrame_kept (f : Nat) (u : FrameUse) {s : State} (hs : Kept pq va s) : Kept pq va (State.setFrame f u s) := by
  unfold State.setFrame
  repeat' first
    | with_reducible assumption
    | intro _
    | (extract_lets +onlyGivenNames lx; refine (fun (hlx : Kept pq va lx) => ?_ : Kept pq va lx → _) ?_; rotate_left; simp -zeta only [lx]; clear lx; rotate_right; clear_value lx; revert lx; refine kept_lock ?_; intro lx hlx)
    | (extract_lets +onlyGivenNames lx; clear_value lx; revert lx; refine kept_lock ?_; intro lx)
    | with_reducible apply kept_ite
    | with_reducible apply kept_foldl
    | simp -zeta only [kept_mk, keptF_fold]
    | split

theorem State.takeFrames_kept (n : Nat) (u : FrameUse) {s : State} (hs : Kept pq va s) : Kept pq va (State.takeFrames n u s).2 := by
  unfold State.takeFrames
  repeat' first
    | with_reducible assumption
    | intro _
    | (extract_lets +onlyGivenNames lx; refine (fun (hlx : Kept pq va lx) => ?_ : Kept pq va lx → _) ?_; rotate_left; simp -zeta only [lx]; clear lx; rotate_right; clear_value lx; revert lx; refine kept_lock ?_; intro lx hlx)
    | (extract_lets +onlyGivenNames lx; clear_value lx; revert lx; refine kept_lock ?_; intro lx)
    | with_reducible apply State.setFrame_kept
    | with_reducible apply kept_ite
    | with_reducible apply kept_foldl
    | simp -zeta only [kept_mk, keptF_fold]
    | split

theorem State.takeFrames_kept' {n : Nat} {u : FrameUse} {s : State}  {r : _} {t : State} (he : State.takeFrames n u s = (r, t)) (hs : Kept pq va s) : Kept pq va t := by
  have := State.takeFrames_kept n u hs
  rwa [he] at this

theorem State.dropFrames_kept (fs : List Nat) {s : State} (hs : Kept pq va s) : Kept pq va (State.dropFrames fs s) := by
  unfold State.dropFrames
  repeat' first
    | with_reducible assumption
    | intro _
    | (extract_lets +onlyGivenNames lx; refine (fun (hlx : Kept pq va lx) => ?_ : Kept pq va lx → _) ?_; rotate_left; simp -zeta only [lx]; clear lx; rotate_right; clear_value lx; revert lx; refine kept_lock ?_; intro lx hlx)
    | (extract_lets +onlyGivenNames lx; clear_value lx; revert lx; refine kept_lock ?_; intro lx)
    | with_reducible apply State.setFrame_kept
    | with_reducible apply kept_ite
    | with_reducible apply kept_foldl
    | simp -zeta only [kept_mk, keptF_fold]
    | split

theorem State.modCtx_kept (c : Nat) (f : Ctx → Ctx) {s : State} (hs : Kept pq va s) : Kept pq va (State.modCtx c f s) := by
  unfold State.modCtx
  repeat' first
    | with_reducible assumption
    | intro _
    | (extract_lets +onlyGivenNames lx; refine (fun (hlx : Kept pq va lx) => ?_ : Kept pq va lx → _) ?_; rotate_left; simp -zeta only [lx]; clear lx; rotate_right; clear_value lx; revert lx; refine kept_lock ?_; intro lx hlx)
    | (extract_lets +onlyGivenNames lx; clear_value lx; revert lx; refine kept_lock ?_; intro lx)
    | with_reducible apply kept_ite
    | with_reducible apply kept_foldl
    | simp -zeta only [kept_mk, keptF_fold]
    | split

theorem State.carve_kept (f : Nat) (c : Nat) {s : State} (hs : Kept pq va s) : Kept pq va (State.carve f c s) := by
  unfold State.carve
  repeat' first
    | with_reducible assumption
    | intro _
    | (extract_lets +onlyGivenNames lx; refine (fun (hlx : Kept pq va lx) => ?_ : Kept pq va lx → _) ?_; rotate_left; simp -zeta only [lx]; clear lx; rotate_right; clear_value lx; revert lx; refine kept_lock ?_; intro lx hlx)
    | (extract_lets +onlyGivenNames lx; clear_value lx; revert lx; refine kept_lock ?_; intro lx)
    | with_reducible apply State.setFrame_kept
    | with_reducible apply kept_ite
    | with_reducible apply kept_foldl
    | simp -zeta only [kept_mk, keptF_fold]
    | split

theorem State.takeBuf_kept (c : Nat) (owners : List Nat) (ctx : Option Nat) {s : State} (hs : Kept pq va s) : Kept pq va (State.takeBuf c owners ctx s).2 := by
  unfold State.takeBuf
  repeat' first
    | with_reducible assumption
    | intro _
    | (extract_lets +onlyGivenNames lx; refine (fun (hlx : Kept pq va lx) => ?_ : Kept pq va lx → _) ?_; rotate_left; simp -zeta only [lx]; clear lx; rotate_right; clear_value lx; revert lx; refine kept_lock ?_; intro lx hlx)
    | (extract_lets +onlyGivenNames lx; clear_value lx; revert lx; refine kept_lock ?_; intro lx)
    | with_reducible apply State.carve_kept
    | with_reducible apply State.tallyAdd_kept
    | with_reducible apply State.tallyMax_kept
    | with_reducible apply kept_ite
    | with_reducible apply kept_foldl
    | simp -zeta only [kept_mk, keptF_fold]
    | split

theorem State.takeBuf_kept' {c : Nat} {owners : List Nat} {ctx : Option Nat} {s : State}  {r : _} {t : State} (he : State.takeBuf c owners ctx s = (r, t)) (hs : Kept pq va s) : Kept pq va t := by
  have := State.takeBuf_kept c owners ctx hs
  rwa [he] at this

theorem State.allocBuf_kept (c : Nat) (owners : List Nat) (ctx : Option Nat) {s : State} (hs : Kept pq va s) : Kept pq va (State.allocBuf c owners ctx s).2 := by
  unfold State.allocBuf
  repeat' first
    | with_reducible assumption
    | intro _
    | (extract_lets +onlyGivenNames lx; refine (fun (hlx : Kept pq va lx) => ?_ : Kept pq va lx → _) ?_; rotate_left; simp -zeta only [lx]; clear lx; rotate_right; clear_value lx; revert lx; refine kept_lock ?_; intro lx hlx)
    | (extract_lets +onlyGivenNames lx; clear_value lx; revert lx; refine kept_lock ?_; intro lx)
    | with_reducible apply State.takeBuf_kept
    | with_reducible apply kept_ite
    | with_reducible apply kept_foldl
    | simp -zeta only [kept_mk, keptF_fold]
    | split
    | (with_reducible refine State.takeBuf_kept' (by with_reducible assumption) ?_)

theorem State.allocBuf_kept' {c : Nat} {owners : List Nat} {ctx : Option Nat} {s : State}  {r : _} {t : State} (he : State.allocBuf c owners ctx s = (r, t)) (hs : Kept pq va s) : Kept pq va t := by
  have := State.allocBuf_kept c owners ctx hs
  rwa [he] at this

theorem State.waitBuf_kept (c : Nat) (owners : List Nat) (w : WaitFor) {s : State} (hs : Kept pq va s) : Kept pq va (State.waitBuf c owners w s) := by
  unfold State.waitBuf
  repeat' first
    | with_reducible assumption
    | intro _
    | (extract_lets +onlyGivenNames lx; refine (fun (hlx : Kept pq va lx) => ?_ : Kept pq va lx → _) ?_; rotate_left; simp -zeta only [lx]; clear lx; rotate_right; clear_value lx; revert lx; refine kept_lock ?_; intro lx hlx)
    | (extract_lets +onlyGivenNames lx; clear_value lx; revert lx; refine kept_lock ?_; intro lx)
    | with_reducible apply kept_ite
    | with_reducible apply kept_foldl
    | simp -zeta only [kept_mk, keptF_fold]
    | split

theorem State.slotBuf_kept (h : Half) (id : Nat) {s : State} (hs : Kept pq va s) : Kept pq va (State.slotBuf h id s) := by
  unfold State.slotBuf
  repeat' first
    | with_reducible assumption
    | intro _
    | (extract_lets +onlyGivenNames lx; refine (fun (hlx : Kept pq va lx) => ?_ : Kept pq va lx → _) ?_; rotate_left; simp -zeta only [lx]; clear lx; rotate_right; clear_value lx; revert lx; refine kept_lock ?_; intro lx hlx)
    | (extract_lets +onlyGivenNames lx; clear_value lx; revert lx; refine kept_lock ?_; intro lx)
    | with_reducible apply State.modRound_kept
    | with_reducible apply kept_ite
    | with_reducible apply kept_foldl
    | simp -zeta only [kept_mk, keptF_fold]
    | split

theorem State.releaseBuf_kept (id : Nat) {s : State} (hs : Kept pq va s) : Kept pq va (State.releaseBuf id s) := by
  unfold State.releaseBuf
  repeat' first
    | with_reducible assumption
    | intro _
    | (extract_lets +onlyGivenNames lx; refine (fun (hlx : Kept pq va lx) => ?_ : Kept pq va lx → _) ?_; rotate_left; simp -zeta only [lx]; clear lx; rotate_right; clear_value lx; revert lx; refine kept_lock ?_; intro lx hlx)
    | (extract_lets +onlyGivenNames lx; clear_value lx; revert lx; refine kept_lock ?_; intro lx)
    | with_reducible apply State.setFrame_kept
    | with_reducible apply kept_ite
    | with_reducible apply kept_foldl
    | simp -zeta only [kept_mk, keptF_fold]
    | split

theorem State.badFree_kept (id : Nat) (unit : Nat) (code : Nat) {s : State} (hs : Kept pq va s) : Kept pq va (State.badFree id unit code s) := by
  unfold State.badFree
  repeat' first
    | with_reducible assumption
    | intro _
    | (extract_lets +onlyGivenNames lx; refine (fun (hlx : Kept pq va lx) => ?_ : Kept pq va lx → _) ?_; rotate_left; simp -zeta only [lx]; clear lx; rotate_right; clear_value lx; revert lx; refine kept_lock ?_; intro lx hlx)
    | (extract_lets +onlyGivenNames lx; clear_value lx; revert lx; refine kept_lock ?_; intro lx)
    | with_reducible apply State.lostDup_kept
    | with_reducible apply State.record_kept
    | with_reducible apply State.setReg_kept
    | with_reducible apply kept_ite
    | with_reducible apply kept_foldl
    | simp -zeta only [kept_mk, keptF_fold]
    | split

theorem State.freeBuf_kept (id : Nat) (unit : Nat) {s : State} (hs : Kept pq va s) : Kept pq va (State.freeBuf id unit s) := by
  unfold State.freeBuf
  repeat' first
    | with_reducible assumption
    | intro _
    | (extract_lets +onlyGivenNames lx; refine (fun (hlx : Kept pq va lx) => ?_ : Kept pq va lx → _) ?_; rotate_left; simp -zeta only [lx]; clear lx; rotate_right; clear_value lx; revert lx; refine kept_lock ?_; intro lx hlx)
    | (extract_lets +onlyGivenNames lx; clear_value lx; revert lx; refine kept_lock ?_; intro lx)
    | with_reducible apply State.badFree_kept
    | with_reducible apply State.releaseBuf_kept
    | with_reducible apply kept_ite
    | with_reducible apply kept_foldl
    | simp -zeta only [kept_mk, keptF_fold]
    | split

theorem State.freeBufs_kept (ids : List Nat) (unit : Nat) {s : State} (hs : Kept pq va s) : Kept pq va (State.freeBufs ids unit s) := by
  unfold State.freeBufs
  repeat' first
    | with_reducible assumption
    | intro _
    | (extract_lets +onlyGivenNames lx; refine (fun (hlx : Kept pq va lx) => ?_ : Kept pq va lx → _) ?_; rotate_left; simp -zeta only [lx]; clear lx; rotate_right; clear_value lx; revert lx; refine kept_lock ?_; intro lx hlx)
    | (extract_lets +onlyGivenNames lx; clear_value lx; revert lx; refine kept_lock ?_; intro lx)
    | with_reducible apply State.freeBuf_kept
    | with_reducible apply kept_ite
    | with_reducible apply kept_foldl
    | simp -zeta only [kept_mk, keptF_fold]
    | split

theorem State.areaWrite_kept (frames : List Nat) (memBase : Nat) (a2 : Nat) (a3 : Nat) (a4 : List Byte) {a5 : State} (hs : Kept pq va a5) : Kept pq va (State.areaWrite frames memBase a2 a3 a4 a5) := by
  induction a2 generalizing a3 a4 a5 with
  | zero =>
    simp -zeta only [State.areaWrite]
    try exact hs
  | succ n ih =>
    rw [State.areaWrite]
    repeat' first
      | with_reducible assumption
      | intro _
      | (extract_lets +onlyGivenNames lx; refine (fun (hlx : Kept pq va lx) => ?_ : Kept pq va lx → _) ?_; rotate_left; simp -zeta only [lx]; clear lx; rotate_right; clear_value lx; revert lx; refine kept_lock ?_; intro lx hlx)
      | (extract_lets +onlyGivenNames lx; clear_value lx; revert lx; refine kept_lock ?_; intro lx)
      | with_reducible apply ih
      | with_reducible apply State.wrPlace_kept
      | with_reducible apply kept_ite
      | with_reducible apply kept_foldl
      | simp -zeta only [kept_mk, keptF_fold]
      | split

theorem State.regionWrite_kept (h : Half) (off : Nat) (d : List Byte) {s : State} (hs : Kept pq va s) : Kept pq va (State.regionWrite h off d s) := by
  unfold State.regionWrite
  repeat' first
    | with_reducible assumption
    | intro _
    | (extract_lets +onlyGivenNames lx; refine (fun (hlx : Kept pq va lx) => ?_ : Kept pq va lx → _) ?_; rotate_left; simp -zeta only [lx]; clear lx; rotate_right; clear_value lx; revert lx; refine kept_lock ?_; intro lx hlx)
    | (extract_lets +onlyGivenNames lx; clear_value lx; revert lx; refine kept_lock ?_; intro lx)
    | with_reducible apply State.areaWrite_kept
    | with_reducible apply kept_ite
    | with_reducible apply kept_foldl
    | simp -zeta only [kept_mk, keptF_fold]
    | split

theorem State.setConv_kept (h : Half) (ids : List Nat) {s : State} (hs : Kept pq va s) : Kept pq va (State.setConv h ids s) := by
  unfold State.setConv
  repeat' first
    | with_reducible assumption
    | intro _
    | (extract_lets +onlyGivenNames lx; refine (fun (hlx : Kept pq va lx) => ?_ : Kept pq va lx → _) ?_; rotate_left; simp -zeta only [lx]; clear lx; rotate_right; clear_value lx; revert lx; refine kept_lock ?_; intro lx hlx)
    | (extract_lets +onlyGivenNames lx; clear_value lx; revert lx; refine kept_lock ?_; intro lx)
    | with_reducible apply kept_ite
    | with_reducible apply kept_foldl
    | simp -zeta only [kept_mk, keptF_fold]
    | split

theorem State.convAdd_kept (h : Half) (id : Nat) {s : State} (hs : Kept pq va s) : Kept pq va (State.convAdd h id s) := by
  unfold State.convAdd
  repeat' first
    | with_reducible assumption
    | intro _
    | (extract_lets +onlyGivenNames lx; refine (fun (hlx : Kept pq va lx) => ?_ : Kept pq va lx → _) ?_; rotate_left; simp -zeta only [lx]; clear lx; rotate_right; clear_value lx; revert lx; refine kept_lock ?_; intro lx hlx)
    | (extract_lets +onlyGivenNames lx; clear_value lx; revert lx; refine kept_lock ?_; intro lx)
    | with_reducible apply State.setConv_kept
    | with_reducible apply State.slotBuf_kept
    | with_reducible apply kept_ite
    | with_reducible apply kept_foldl
    | simp -zeta only [kept_mk, keptF_fold]
    | split

theorem State.convWait_kept (h : Half) {s : State} (hs : Kept pq va s) : Kept pq va (State.convWait h s) := by
  unfold State.convWait
  repeat' first
    | with_reducible assumption
    | intro _
    | (extract_lets +onlyGivenNames lx; refine (fun (hlx : Kept pq va lx) => ?_ : Kept pq va lx → _) ?_; rotate_left; simp -zeta only [lx]; clear lx; rotate_right; clear_value lx; revert lx; refine kept_lock ?_; intro lx hlx)
    | (extract_lets +onlyGivenNames lx; clear_value lx; revert lx; refine kept_lock ?_; intro lx)
    | with_reducible apply State.waitBuf_kept
    | with_reducible apply kept_ite
    | with_reducible apply kept_foldl
    | simp -zeta only [kept_mk, keptF_fold]
    | split

theorem State.convGrow_kept (h : Half) (a1 : Nat) (a2 : Nat) {a3 : State} (hs : Kept pq va a3) : Kept pq va (State.convGrow h a1 a2 a3) := by
  induction a1 generalizing a2 a3 with
  | zero =>
    simp -zeta only [State.convGrow]
    try exact hs
  | succ n ih =>
    rw [State.convGrow]
    repeat' first
      | with_reducible assumption
      | intro _
      | (extract_lets +onlyGivenNames lx; refine (fun (hlx : Kept pq va lx) => ?_ : Kept pq va lx → _) ?_; rotate_left; simp -zeta only [lx]; clear lx; rotate_right; clear_value lx; revert lx; refine kept_lock ?_; intro lx hlx)
      | (extract_lets +onlyGivenNames lx; clear_value lx; revert lx; refine kept_lock ?_; intro lx)
      | with_reducible apply ih
      | with_reducible apply State.allocBuf_kept
      | with_reducible apply State.convAdd_kept
      | with_reducible apply State.convWait_kept
      | with_reducible apply kept_ite
      | with_reducible apply kept_foldl
      | simp -zeta only [kept_mk, keptF_fold]
      | split
      | (with_reducible refine State.allocBuf_kept' (by with_reducible assumption) ?_)

theorem State.convRoom_kept (h : Half) (i : Nat) (v : Nat) {s : State} (hs : Kept pq va s) : Kept pq va (State.convRoom h i v s).2 := by
  unfold State.convRoom
  repeat' first
    | with_reducible assumption
    | intro _
    | (extract_lets +onlyGivenNames lx; refine (fun (hlx : Kept pq va lx) => ?_ : Kept pq va lx → _) ?_; rotate_left; simp -zeta only [lx]; clear lx; rotate_right; clear_value lx; revert lx; refine kept_lock ?_; intro lx hlx)
    | (extract_lets +onlyGivenNames lx; clear_value lx; revert lx; refine kept_lock ?_; intro lx)
    | with_reducible apply State.convGrow_kept
    | with_reducible apply kept_ite
    | with_reducible apply kept_foldl
    | simp -zeta only [kept_mk, keptF_fold]
    | split

theorem State.convRoom_kept' {h : Half} {i : Nat} {v : Nat} {s : State}  {r : _} {t : State} (he : State.convRoom h i v s = (r, t)) (hs : Kept pq va s) : Kept pq va t := by
  have := State.convRoom_kept h i v hs
  rwa [he] at this

theorem State.convWrite_kept (h : Half) (a1 : Nat) (a2 : Nat) (a3 : List Byte) {a4 : State} (hs : Kept pq va a4) : Kept pq va (State.convWrite h a1 a2 a3 a4) := by
  induction a1 generalizing a2 a3 a4 with
  | zero =>
    simp -zeta only [State.convWrite]
    try exact hs
  | succ n ih =>
    rw [State.convWrite]
    repeat' first
      | with_reducible assumption
      | intro _
      | (extract_lets +onlyGivenNames lx; refine (fun (hlx : Kept pq va lx) => ?_ : Kept pq va lx → _) ?_; rotate_left; simp -zeta only [lx]; clear lx; rotate_right; clear_value lx; revert lx; refine kept_lock ?_; intro lx hlx)
      | (extract_lets +onlyGivenNames lx; clear_value lx; revert lx; refine kept_lock ?_; intro lx)
      | with_reducible apply ih
      | with_reducible apply State.wrPlace_kept
      | with_reducible apply kept_ite
      | with_reducible apply kept_foldl
      | simp -zeta only [kept_mk, keptF_fold]
      | split

theorem State.convPut_kept (h : Half) (i : Nat) (v : Nat) (d : List Byte) {s : State} (hs : Kept pq va s) : Kept pq va (State.convPut h i v d s) := by
  unfold State.convPut
  repeat' first
    | with_reducible assumption
    | intro _
    | (extract_lets +onlyGivenNames lx; refine (fun (hlx : Kept pq va lx) => ?_ : Kept pq va lx → _) ?_; rotate_left; simp -zeta only [lx]; clear lx; rotate_right; clear_value lx; revert lx; refine kept_lock ?_; intro lx hlx)
    | (extract_lets +onlyGivenNames lx; clear_value lx; revert lx; refine kept_lock ?_; intro lx)
    | with_reducible apply State.convGrow_kept
    | with_reducible apply State.convWrite_kept
    | with_reducible apply kept_ite
    | with_reducible apply kept_foldl
    | simp -zeta only [kept_mk, keptF_fold]
    | split

theorem execPoolStarved_kept (cls : Nat) {s : State} (hs : Kept pq va s) : KeptOut pq va (execPoolStarved cls s) := by
  unfold execPoolStarved
  repeat' first
    | with_reducible assumption
    | intro _
    | (extract_lets +onlyGivenNames lx; refine (fun (hlx : Kept pq va lx) => ?_ : Kept pq va lx → _) ?_; rotate_left; simp -zeta only [lx]; clear lx; rotate_right; clear_value lx; revert lx; refine kept_lock ?_; intro lx hlx)
    | (extract_lets +onlyGivenNames lx; clear_value lx; revert lx; refine kept_lock ?_; intro lx)
    | with_reducible apply keptOut_next
    | with_reducible apply keptOut_ite
    | with_reducible apply State.recordOnce_kept
    | with_reducible apply kept_ite
    | with_reducible apply kept_foldl
    | simp -zeta only [kept_mk, keptF_fold]
    | split

end Sys2Proof.Machine
end

