-- ==== Sys2Proof/Laws/Units.lean ====
section
/-! SUPPORT. What each operation of Machine/Units.lean keeps (Laws/Kept.lean). -/
set_option linter.all false
namespace Sys2Proof.Machine

variable {pq : List Instr} {va : Bool}

theorem State.markUnit_kept (kind : Nat) (index : Nat) (cls : Nat) (fenced : Bool) {s : State} (hs : Kept pq va s) : Kept pq va (State.markUnit kind index cls fenced s) := by
  unfold State.markUnit
  repeat' first
    | with_reducible assumption
    | intro _
    | (extract_lets +onlyGivenNames lx; refine (fun (hlx : Kept pq va lx) => ?_ : Kept pq va lx → _) ?_; rotate_left; simp -zeta only [lx]; clear lx; rotate_right; clear_value lx; revert lx; refine kept_lock ?_; intro lx hlx)
    | (extract_lets +onlyGivenNames lx; clear_value lx; revert lx; refine kept_lock ?_; intro lx)
    | with_reducible apply kept_ite
    | with_reducible apply kept_foldl
    | simp -zeta only [kept_mk, keptF_fold]
    | split

theorem State.fenceUnit_kept (kind : Nat) (index : Nat) {s : State} (hs : Kept pq va s) : Kept pq va (State.fenceUnit kind index s) := by
  unfold State.fenceUnit
  repeat' first
    | with_reducible assumption
    | intro _
    | (extract_lets +onlyGivenNames lx; refine (fun (hlx : Kept pq va lx) => ?_ : Kept pq va lx → _) ?_; rotate_left; simp -zeta only [lx]; clear lx; rotate_right; clear_value lx; revert lx; refine kept_lock ?_; intro lx hlx)
    | (extract_lets +onlyGivenNames lx; clear_value lx; revert lx; refine kept_lock ?_; intro lx)
    | with_reducible apply State.setFld_kept
    | with_reducible apply kept_ite
    | with_reducible apply kept_foldl
    | simp -zeta only [kept_mk, keptF_fold]
    | split

theorem State.unitFault_kept (kind : Nat) (index : Nat) (cls : Nat) (permanent : Bool) {s : State} (hs : Kept pq va s) : Kept pq va (State.unitFault kind index cls permanent s) := by
  unfold State.unitFault
  repeat' first
    | with_reducible assumption
    | intro _
    | (extract_lets +onlyGivenNames lx; refine (fun (hlx : Kept pq va lx) => ?_ : Kept pq va lx → _) ?_; rotate_left; simp -zeta only [lx]; clear lx; rotate_right; clear_value lx; revert lx; refine kept_lock ?_; intro lx hlx)
    | (extract_lets +onlyGivenNames lx; clear_value lx; revert lx; refine kept_lock ?_; intro lx)
    | with_reducible apply State.fenceUnit_kept
    | with_reducible apply State.markUnit_kept
    | with_reducible apply State.tallyAdd_kept
    | with_reducible apply kept_ite
    | with_reducible apply kept_foldl
    | simp -zeta only [kept_mk, keptF_fold]
    | split

theorem State.taintHalf_kept (h : Half) {s : State} (hs : Kept pq va s) : Kept pq va (State.taintHalf h s) := by
  unfold State.taintHalf
  repeat' first
    | with_reducible assumption
    | intro _
    | (extract_lets +onlyGivenNames lx; refine (fun (hlx : Kept pq va lx) => ?_ : Kept pq va lx → _) ?_; rotate_left; simp -zeta only [lx]; clear lx; rotate_right; clear_value lx; revert lx; refine kept_lock ?_; intro lx hlx)
    | (extract_lets +onlyGivenNames lx; clear_value lx; revert lx; refine kept_lock ?_; intro lx)
    | with_reducible apply State.modRound_kept
    | with_reducible apply kept_ite
    | with_reducible apply kept_foldl
    | simp -zeta only [kept_mk, keptF_fold]
    | split

theorem State.scopeHalf_kept (bell : Nat) (layer : Nat) (h : Half) (first : Nat) (last : Nat) {s : State} (hs : Kept pq va s) : Kept pq va (State.scopeHalf bell layer h first last s).2 := by
  unfold State.scopeHalf
  repeat' first
    | with_reducible assumption
    | intro _
    | (extract_lets +onlyGivenNames lx; refine (fun (hlx : Kept pq va lx) => ?_ : Kept pq va lx → _) ?_; rotate_left; simp -zeta only [lx]; clear lx; rotate_right; clear_value lx; revert lx; refine kept_lock ?_; intro lx hlx)
    | (extract_lets +onlyGivenNames lx; clear_value lx; revert lx; refine kept_lock ?_; intro lx)
    | with_reducible apply State.suspect_kept
    | with_reducible apply State.taintRange_kept
    | with_reducible apply kept_ite
    | with_reducible apply kept_foldl
    | simp -zeta only [kept_mk, keptF_fold]
    | split

theorem State.scopeHalf_kept' {bell : Nat} {layer : Nat} {h : Half} {first : Nat} {last : Nat} {s : State}  {r : _} {t : State} (he : State.scopeHalf bell layer h first last s = (r, t)) (hs : Kept pq va s) : Kept pq va t := by
  have := State.scopeHalf_kept bell layer h first last hs
  rwa [he] at this

theorem State.ledgerBreak_kept (check : Nat) (expert : Nat) (node : Nat) (layer : Nat) (h : Half) {s : State} (hs : Kept pq va s) : Kept pq va (State.ledgerBreak check expert node layer h s) := by
  unfold State.ledgerBreak
  repeat' first
    | with_reducible assumption
    | intro _
    | (extract_lets +onlyGivenNames lx; refine (fun (hlx : Kept pq va lx) => ?_ : Kept pq va lx → _) ?_; rotate_left; simp -zeta only [lx]; clear lx; rotate_right; clear_value lx; revert lx; refine kept_lock ?_; intro lx hlx)
    | (extract_lets +onlyGivenNames lx; clear_value lx; revert lx; refine kept_lock ?_; intro lx)
    | with_reducible apply State.lostDup_kept
    | with_reducible apply State.record_kept
    | with_reducible apply State.setReg_kept
    | with_reducible apply kept_ite
    | with_reducible apply kept_foldl
    | simp -zeta only [kept_mk, keptF_fold]
    | split

end Sys2Proof.Machine
end

