-- ==== Sys2Proof/Laws/Source.lean ====
section
/-! SUPPORT. What each operation of Machine/Source.lean keeps (Laws/Kept.lean). -/
set_option linter.all false
namespace Sys2Proof.Machine

variable {pq : List Instr} {va : Bool}

theorem State.modChoice_kept (h : Half) (i : Nat) (j : Nat) (f : Choice → Choice) {s : State} (hs : Kept pq va s) : Kept pq va (State.modChoice h i j f s) := by
  unfold State.modChoice
  repeat' first
    | with_reducible assumption
    | intro _
    | (extract_lets +onlyGivenNames lx; refine (fun (hlx : Kept pq va lx) => ?_ : Kept pq va lx → _) ?_; rotate_left; simp -zeta only [lx]; clear lx; rotate_right; clear_value lx; revert lx; refine kept_lock ?_; intro lx hlx)
    | (extract_lets +onlyGivenNames lx; clear_value lx; revert lx; refine kept_lock ?_; intro lx)
    | with_reducible apply State.modTok_kept
    | with_reducible apply kept_ite
    | with_reducible apply kept_foldl
    | simp -zeta only [kept_mk, keptF_fold]
    | split

theorem State.refuseChoice_kept (h : Half) (i : Nat) (j : Nat) (reason : Nat) (round : Nat) (noSpill : Bool) {s : State} (hs : Kept pq va s) : Kept pq va (State.refuseChoice h i j reason round noSpill s) := by
  unfold State.refuseChoice
  repeat' first
    | with_reducible assumption
    | intro _
    | (extract_lets +onlyGivenNames lx; refine (fun (hlx : Kept pq va lx) => ?_ : Kept pq va lx → _) ?_; rotate_left; simp -zeta only [lx]; clear lx; rotate_right; clear_value lx; revert lx; refine kept_lock ?_; intro lx hlx)
    | (extract_lets +onlyGivenNames lx; clear_value lx; revert lx; refine kept_lock ?_; intro lx)
    | with_reducible apply State.modTok_kept
    | with_reducible apply kept_ite
    | with_reducible apply kept_foldl
    | simp -zeta only [kept_mk, keptF_fold]
    | split

theorem State.decideChoice_kept (v : RoundView) (h : Half) (i : Nat) (j : Nat) (round : Nat) {s : State} (hs : Kept pq va s) : Kept pq va (State.decideChoice v h i j round s) := by
  unfold State.decideChoice
  repeat' first
    | with_reducible assumption
    | intro _
    | (extract_lets +onlyGivenNames lx; refine (fun (hlx : Kept pq va lx) => ?_ : Kept pq va lx → _) ?_; rotate_left; simp -zeta only [lx]; clear lx; rotate_right; clear_value lx; revert lx; refine kept_lock ?_; intro lx hlx)
    | (extract_lets +onlyGivenNames lx; clear_value lx; revert lx; refine kept_lock ?_; intro lx)
    | with_reducible apply State.failSeq_kept
    | with_reducible apply State.loadAdd_kept
    | with_reducible apply State.modChoice_kept
    | with_reducible apply State.modTok_kept
    | with_reducible apply State.refuseChoice_kept
    | with_reducible apply State.tallyAdd_kept
    | with_reducible apply kept_ite
    | with_reducible apply kept_foldl
    | simp -zeta only [kept_mk, keptF_fold]
    | split

theorem State.binAdd_kept (h : Half) (home : Nat) (node : Nat) (bid : Bool) (rec_ : List Byte) {s : State} (hs : Kept pq va s) : Kept pq va (State.binAdd h home node bid rec_ s) := by
  unfold State.binAdd
  repeat' first
    | with_reducible assumption
    | intro _
    | (extract_lets +onlyGivenNames lx; refine (fun (hlx : Kept pq va lx) => ?_ : Kept pq va lx → _) ?_; rotate_left; simp -zeta only [lx]; clear lx; rotate_right; clear_value lx; revert lx; refine kept_lock ?_; intro lx hlx)
    | (extract_lets +onlyGivenNames lx; clear_value lx; revert lx; refine kept_lock ?_; intro lx)
    | with_reducible apply State.modRound_kept
    | with_reducible apply State.sendAuc_kept
    | with_reducible apply State.tallyAdd_kept
    | with_reducible apply kept_ite
    | with_reducible apply kept_foldl
    | simp -zeta only [kept_mk, keptF_fold]
    | split

theorem State.sortAbsent_kept (v : RoundView) (h : Half) (i : Nat) (j : Nat) (round : Nat) (handle : W64) {s : State} (hs : Kept pq va s) : Kept pq va (State.sortAbsent v h i j round handle s) := by
  unfold State.sortAbsent
  repeat' first
    | with_reducible assumption
    | intro _
    | (extract_lets +onlyGivenNames lx; refine (fun (hlx : Kept pq va lx) => ?_ : Kept pq va lx → _) ?_; rotate_left; simp -zeta only [lx]; clear lx; rotate_right; clear_value lx; revert lx; refine kept_lock ?_; intro lx hlx)
    | (extract_lets +onlyGivenNames lx; clear_value lx; revert lx; refine kept_lock ?_; intro lx)
    | with_reducible apply State.record_kept
    | with_reducible apply State.refuseChoice_kept
    | with_reducible apply State.safe0_kept
    | with_reducible apply State.setReg_kept
    | with_reducible apply kept_ite
    | with_reducible apply kept_foldl
    | simp -zeta only [kept_mk, keptF_fold]
    | split

theorem State.loseChoice_kept (h : Half) (i : Nat) (j : Nat) (round : Nat) {s : State} (hs : Kept pq va s) : Kept pq va (State.loseChoice h i j round s) := by
  unfold State.loseChoice
  repeat' first
    | with_reducible assumption
    | intro _
    | (extract_lets +onlyGivenNames lx; refine (fun (hlx : Kept pq va lx) => ?_ : Kept pq va lx → _) ?_; rotate_left; simp -zeta only [lx]; clear lx; rotate_right; clear_value lx; revert lx; refine kept_lock ?_; intro lx hlx)
    | (extract_lets +onlyGivenNames lx; clear_value lx; revert lx; refine kept_lock ?_; intro lx)
    | with_reducible apply State.refuseChoice_kept
    | with_reducible apply State.taintTok_kept
    | with_reducible apply kept_ite
    | with_reducible apply kept_foldl
    | simp -zeta only [kept_mk, keptF_fold]
    | split

theorem State.bidToken_kept (v : RoundView) (h : Half) (i : Nat) (round : Nat) {s : State} (hs : Kept pq va s) : Kept pq va (State.bidToken v h i round s) := by
  unfold State.bidToken
  repeat' first
    | with_reducible assumption
    | intro _
    | (extract_lets +onlyGivenNames lx; refine (fun (hlx : Kept pq va lx) => ?_ : Kept pq va lx → _) ?_; rotate_left; simp -zeta only [lx]; clear lx; rotate_right; clear_value lx; revert lx; refine kept_lock ?_; intro lx hlx)
    | (extract_lets +onlyGivenNames lx; clear_value lx; revert lx; refine kept_lock ?_; intro lx)
    | with_reducible apply State.binAdd_kept
    | with_reducible apply State.loseChoice_kept
    | with_reducible apply State.modChoice_kept
    | with_reducible apply State.modRound_kept
    | with_reducible apply State.sortAbsent_kept
    | with_reducible apply kept_ite
    | with_reducible apply kept_foldl
    | simp -zeta only [kept_mk, keptF_fold]
    | split

theorem State.sharedCapped_kept (v : RoundView) {s : State} (hs : Kept pq va s) : Kept pq va (State.sharedCapped v s) := by
  unfold State.sharedCapped
  repeat' first
    | with_reducible assumption
    | intro _
    | (extract_lets +onlyGivenNames lx; refine (fun (hlx : Kept pq va lx) => ?_ : Kept pq va lx → _) ?_; rotate_left; simp -zeta only [lx]; clear lx; rotate_right; clear_value lx; revert lx; refine kept_lock ?_; intro lx hlx)
    | (extract_lets +onlyGivenNames lx; clear_value lx; revert lx; refine kept_lock ?_; intro lx)
    | with_reducible apply State.recordOnce_kept
    | with_reducible apply kept_ite
    | with_reducible apply kept_foldl
    | simp -zeta only [kept_mk, keptF_fold]
    | split

theorem State.selectNone_kept (v : RoundView) (h : Half) (i : Nat) {s : State} (hs : Kept pq va s) : Kept pq va (State.selectNone v h i s) := by
  unfold State.selectNone
  repeat' first
    | with_reducible assumption
    | intro _
    | (extract_lets +onlyGivenNames lx; refine (fun (hlx : Kept pq va lx) => ?_ : Kept pq va lx → _) ?_; rotate_left; simp -zeta only [lx]; clear lx; rotate_right; clear_value lx; revert lx; refine kept_lock ?_; intro lx hlx)
    | (extract_lets +onlyGivenNames lx; clear_value lx; revert lx; refine kept_lock ?_; intro lx)
    | with_reducible apply State.modTok_kept
    | with_reducible apply kept_ite
    | with_reducible apply kept_foldl
    | simp -zeta only [kept_mk, keptF_fold]
    | split

theorem State.selectError_kept (v : RoundView) (h : Half) (i : Nat) (t : Tok) (expert : Nat) {s : State} (hs : Kept pq va s) : Kept pq va (State.selectError v h i t expert s) := by
  unfold State.selectError
  repeat' first
    | with_reducible assumption
    | intro _
    | (extract_lets +onlyGivenNames lx; refine (fun (hlx : Kept pq va lx) => ?_ : Kept pq va lx → _) ?_; rotate_left; simp -zeta only [lx]; clear lx; rotate_right; clear_value lx; revert lx; refine kept_lock ?_; intro lx hlx)
    | (extract_lets +onlyGivenNames lx; clear_value lx; revert lx; refine kept_lock ?_; intro lx)
    | with_reducible apply State.modTok_kept
    | with_reducible apply State.record_kept
    | with_reducible apply State.selectNone_kept
    | with_reducible apply State.setReg_kept
    | with_reducible apply State.tallyAdd_kept
    | with_reducible apply kept_ite
    | with_reducible apply kept_foldl
    | simp -zeta only [kept_mk, keptF_fold]
    | split

theorem State.selectChoices_kept (v : RoundView) (h : Half) (i : Nat) (cs : List Cand) {s : State} (hs : Kept pq va s) : Kept pq va (State.selectChoices v h i cs s) := by
  unfold State.selectChoices
  repeat' first
    | with_reducible assumption
    | intro _
    | (extract_lets +onlyGivenNames lx; refine (fun (hlx : Kept pq va lx) => ?_ : Kept pq va lx → _) ?_; rotate_left; simp -zeta only [lx]; clear lx; rotate_right; clear_value lx; revert lx; refine kept_lock ?_; intro lx hlx)
    | (extract_lets +onlyGivenNames lx; clear_value lx; revert lx; refine kept_lock ?_; intro lx)
    | with_reducible apply State.decideChoice_kept
    | with_reducible apply State.modTok_kept
    | with_reducible apply kept_ite
    | with_reducible apply kept_foldl
    | simp -zeta only [kept_mk, keptF_fold]
    | split

theorem execTokenSelect_kept (half : Half) (checkerOk : Bool) {s : State} (hs : Kept pq va s) : KeptOut pq va (execTokenSelect half checkerOk s) := by
  unfold execTokenSelect
  repeat' first
    | with_reducible assumption
    | intro _
    | (extract_lets +onlyGivenNames lx; refine (fun (hlx : Kept pq va lx) => ?_ : Kept pq va lx → _) ?_; rotate_left; simp -zeta only [lx]; clear lx; rotate_right; clear_value lx; revert lx; refine kept_lock ?_; intro lx hlx)
    | (extract_lets +onlyGivenNames lx; clear_value lx; revert lx; refine kept_lock ?_; intro lx)
    | with_reducible apply keptOut_next
    | with_reducible apply keptOut_ite
    | with_reducible apply State.bidToken_kept
    | with_reducible apply State.record_kept
    | with_reducible apply State.safe0_kept
    | with_reducible apply State.selectChoices_kept
    | with_reducible apply State.selectError_kept
    | with_reducible apply State.selectNone_kept
    | with_reducible apply State.sharedCapped_kept
    | with_reducible apply State.taintTok_kept
    | with_reducible apply State.tallyAdd_kept
    | with_reducible apply kept_ite
    | with_reducible apply kept_foldl
    | simp -zeta only [kept_mk, keptF_fold]
    | split

theorem State.flushBins_kept (v : RoundView) (h : Half) {s : State} (hs : Kept pq va s) : Kept pq va (State.flushBins v h s) := by
  unfold State.flushBins
  repeat' first
    | with_reducible assumption
    | intro _
    | (extract_lets +onlyGivenNames lx; refine (fun (hlx : Kept pq va lx) => ?_ : Kept pq va lx → _) ?_; rotate_left; simp -zeta only [lx]; clear lx; rotate_right; clear_value lx; revert lx; refine kept_lock ?_; intro lx hlx)
    | (extract_lets +onlyGivenNames lx; clear_value lx; revert lx; refine kept_lock ?_; intro lx)
    | with_reducible apply State.modRound_kept
    | with_reducible apply State.sendAuc_kept
    | with_reducible apply kept_ite
    | with_reducible apply kept_foldl
    | simp -zeta only [kept_mk, keptF_fold]
    | split

theorem State.sendCloses_kept (bell : Nat) (layer : Nat) (h : Half) (round : Nat) (counts : Table Nat) (sources : List Nat) {s : State} (hs : Kept pq va s) : Kept pq va (State.sendCloses bell layer h round counts sources s) := by
  unfold State.sendCloses
  repeat' first
    | with_reducible assumption
    | intro _
    | (extract_lets +onlyGivenNames lx; refine (fun (hlx : Kept pq va lx) => ?_ : Kept pq va lx → _) ?_; rotate_left; simp -zeta only [lx]; clear lx; rotate_right; clear_value lx; revert lx; refine kept_lock ?_; intro lx hlx)
    | (extract_lets +onlyGivenNames lx; clear_value lx; revert lx; refine kept_lock ?_; intro lx)
    | with_reducible apply State.sendAuc_kept
    | with_reducible apply kept_ite
    | with_reducible apply kept_foldl
    | simp -zeta only [kept_mk, keptF_fold]
    | split

theorem execBidCloseSend_kept (half : Half) {s : State} (hs : Kept pq va s) : KeptOut pq va (execBidCloseSend half s) := by
  unfold execBidCloseSend
  repeat' first
    | with_reducible assumption
    | intro _
    | (extract_lets +onlyGivenNames lx; refine (fun (hlx : Kept pq va lx) => ?_ : Kept pq va lx → _) ?_; rotate_left; simp -zeta only [lx]; clear lx; rotate_right; clear_value lx; revert lx; refine kept_lock ?_; intro lx hlx)
    | (extract_lets +onlyGivenNames lx; clear_value lx; revert lx; refine kept_lock ?_; intro lx)
    | with_reducible apply keptOut_next
    | with_reducible apply keptOut_ite
    | with_reducible apply State.flushBins_kept
    | with_reducible apply State.modRound_kept
    | with_reducible apply State.sendCloses_kept
    | with_reducible apply kept_ite
    | with_reducible apply kept_foldl
    | simp -zeta only [kept_mk, keptF_fold]
    | split

theorem State.verdictExtra_kept (handle : W64) (layer : Nat) (h : Half) {s : State} (hs : Kept pq va s) : Kept pq va (State.verdictExtra handle layer h s) := by
  unfold State.verdictExtra
  repeat' first
    | with_reducible assumption
    | intro _
    | (extract_lets +onlyGivenNames lx; refine (fun (hlx : Kept pq va lx) => ?_ : Kept pq va lx → _) ?_; rotate_left; simp -zeta only [lx]; clear lx; rotate_right; clear_value lx; revert lx; refine kept_lock ?_; intro lx hlx)
    | (extract_lets +onlyGivenNames lx; clear_value lx; revert lx; refine kept_lock ?_; intro lx)
    | with_reducible apply State.lostDup_kept
    | with_reducible apply State.record_kept
    | with_reducible apply State.setReg_kept
    | with_reducible apply kept_ite
    | with_reducible apply kept_foldl
    | simp -zeta only [kept_mk, keptF_fold]
    | split

theorem State.applyVerdict_kept (v : RoundView) (h : Half) (i : Nat) (j : Nat) (w : W64) {s : State} (hs : Kept pq va s) : Kept pq va (State.applyVerdict v h i j w s) := by
  unfold State.applyVerdict
  repeat' first
    | with_reducible assumption
    | intro _
    | (extract_lets +onlyGivenNames lx; refine (fun (hlx : Kept pq va lx) => ?_ : Kept pq va lx → _) ?_; rotate_left; simp -zeta only [lx]; clear lx; rotate_right; clear_value lx; revert lx; refine kept_lock ?_; intro lx hlx)
    | (extract_lets +onlyGivenNames lx; clear_value lx; revert lx; refine kept_lock ?_; intro lx)
    | with_reducible apply State.modChoice_kept
    | with_reducible apply State.modRound_kept
    | with_reducible apply State.modTok_kept
    | with_reducible apply State.refuseChoice_kept
    | with_reducible apply kept_ite
    | with_reducible apply kept_foldl
    | simp -zeta only [kept_mk, keptF_fold]
    | split

theorem State.verdictPassed_kept (home : Node) (bell : Nat) (layer : Nat) (half : Half) (round : Nat) (verdict : W64) (handle : W64) {s : State} (hs : Kept pq va s) : Kept pq va (State.verdictPassed home bell layer half round verdict handle s) := by
  unfold State.verdictPassed
  repeat' first
    | with_reducible assumption
    | intro _
    | (extract_lets +onlyGivenNames lx; refine (fun (hlx : Kept pq va lx) => ?_ : Kept pq va lx → _) ?_; rotate_left; simp -zeta only [lx]; clear lx; rotate_right; clear_value lx; revert lx; refine kept_lock ?_; intro lx hlx)
    | (extract_lets +onlyGivenNames lx; clear_value lx; revert lx; refine kept_lock ?_; intro lx)
    | with_reducible apply State.applyVerdict_kept
    | with_reducible apply State.verdictExtra_kept
    | with_reducible apply kept_ite
    | with_reducible apply kept_foldl
    | simp -zeta only [kept_mk, keptF_fold]
    | split

theorem State.verdictBy_kept (x : HandleVerdict) (home : Node) (bell : Nat) (layer : Nat) (half : Half) (round : Nat) (verdict : W64) (handle : W64) {s : State} (hs : Kept pq va s) : Kept pq va (State.verdictBy x home bell layer half round verdict handle s) := by
  unfold State.verdictBy
  repeat' first
    | with_reducible assumption
    | intro _
    | (extract_lets +onlyGivenNames lx; refine (fun (hlx : Kept pq va lx) => ?_ : Kept pq va lx → _) ?_; rotate_left; simp -zeta only [lx]; clear lx; rotate_right; clear_value lx; revert lx; refine kept_lock ?_; intro lx hlx)
    | (extract_lets +onlyGivenNames lx; clear_value lx; revert lx; refine kept_lock ?_; intro lx)
    | with_reducible apply State.discardHandle_kept
    | with_reducible apply State.verdictPassed_kept
    | with_reducible apply kept_ite
    | with_reducible apply kept_foldl
    | simp -zeta only [kept_mk, keptF_fold]
    | split

theorem execVerdictReceive_kept (home : Node) (bell : Nat) (layer : Nat) (half : Half) (round : Nat) (verdict : W64) {s : State} (hs : Kept pq va s) : KeptOut pq va (execVerdictReceive home bell layer half round verdict s) := by
  unfold execVerdictReceive
  repeat' first
    | with_reducible assumption
    | intro _
    | (extract_lets +onlyGivenNames lx; refine (fun (hlx : Kept pq va lx) => ?_ : Kept pq va lx → _) ?_; rotate_left; simp -zeta only [lx]; clear lx; rotate_right; clear_value lx; revert lx; refine kept_lock ?_; intro lx hlx)
    | (extract_lets +onlyGivenNames lx; clear_value lx; revert lx; refine kept_lock ?_; intro lx)
    | with_reducible apply keptOut_next
    | with_reducible apply keptOut_ite
    | with_reducible apply State.verdictBy_kept
    | with_reducible apply kept_ite
    | with_reducible apply kept_foldl
    | simp -zeta only [kept_mk, keptF_fold]
    | split

theorem State.ledger1_kept (v : RoundView) (h : Half) {s : State} (hs : Kept pq va s) : Kept pq va (State.ledger1 v h s) := by
  unfold State.ledger1
  repeat' first
    | with_reducible assumption
    | intro _
    | (extract_lets +onlyGivenNames lx; refine (fun (hlx : Kept pq va lx) => ?_ : Kept pq va lx → _) ?_; rotate_left; simp -zeta only [lx]; clear lx; rotate_right; clear_value lx; revert lx; refine kept_lock ?_; intro lx hlx)
    | (extract_lets +onlyGivenNames lx; clear_value lx; revert lx; refine kept_lock ?_; intro lx)
    | with_reducible apply State.ledgerBreak_kept
    | with_reducible apply State.taintHalf_kept
    | with_reducible apply kept_ite
    | with_reducible apply kept_foldl
    | simp -zeta only [kept_mk, keptF_fold]
    | split

theorem State.spillToken_kept (v : RoundView) (h : Half) (i : Nat) (r : Nat) {s : State} (hs : Kept pq va s) : Kept pq va (State.spillToken v h i r s) := by
  unfold State.spillToken
  repeat' first
    | with_reducible assumption
    | intro _
    | (extract_lets +onlyGivenNames lx; refine (fun (hlx : Kept pq va lx) => ?_ : Kept pq va lx → _) ?_; rotate_left; simp -zeta only [lx]; clear lx; rotate_right; clear_value lx; revert lx; refine kept_lock ?_; intro lx hlx)
    | (extract_lets +onlyGivenNames lx; clear_value lx; revert lx; refine kept_lock ?_; intro lx)
    | with_reducible apply State.bidToken_kept
    | with_reducible apply State.decideChoice_kept
    | with_reducible apply State.modTok_kept
    | with_reducible apply State.tallyAdd_kept
    | with_reducible apply kept_ite
    | with_reducible apply kept_foldl
    | simp -zeta only [kept_mk, keptF_fold]
    | split

theorem State.capToken_kept (v : RoundView) (h : Half) (i : Nat) {s : State} (hs : Kept pq va s) : Kept pq va (State.capToken v h i s) := by
  unfold State.capToken
  repeat' first
    | with_reducible assumption
    | intro _
    | (extract_lets +onlyGivenNames lx; refine (fun (hlx : Kept pq va lx) => ?_ : Kept pq va lx → _) ?_; rotate_left; simp -zeta only [lx]; clear lx; rotate_right; clear_value lx; revert lx; refine kept_lock ?_; intro lx hlx)
    | (extract_lets +onlyGivenNames lx; clear_value lx; revert lx; refine kept_lock ?_; intro lx)
    | with_reducible apply State.refuseChoice_kept
    | with_reducible apply State.sendAuc_kept
    | with_reducible apply kept_ite
    | with_reducible apply kept_foldl
    | simp -zeta only [kept_mk, keptF_fold]
    | split

theorem State.preset_kept (v : RoundView) (h : Half) {s : State} (hs : Kept pq va s) : Kept pq va (State.preset v h s) := by
  unfold State.preset
  repeat' first
    | with_reducible assumption
    | intro _
    | (extract_lets +onlyGivenNames lx; refine (fun (hlx : Kept pq va lx) => ?_ : Kept pq va lx → _) ?_; rotate_left; simp -zeta only [lx]; clear lx; rotate_right; clear_value lx; revert lx; refine kept_lock ?_; intro lx hlx)
    | (extract_lets +onlyGivenNames lx; clear_value lx; revert lx; refine kept_lock ?_; intro lx)
    | with_reducible apply State.modRound_kept
    | with_reducible apply kept_ite
    | with_reducible apply kept_foldl
    | simp -zeta only [kept_mk, keptF_fold]
    | split

theorem State.lastFold_kept (v : RoundView) (h : Half) {s : State} (hs : Kept pq va s) : Kept pq va (State.lastFold v h s) := by
  unfold State.lastFold
  repeat' first
    | with_reducible assumption
    | intro _
    | (extract_lets +onlyGivenNames lx; refine (fun (hlx : Kept pq va lx) => ?_ : Kept pq va lx → _) ?_; rotate_left; simp -zeta only [lx]; clear lx; rotate_right; clear_value lx; revert lx; refine kept_lock ?_; intro lx hlx)
    | (extract_lets +onlyGivenNames lx; clear_value lx; revert lx; refine kept_lock ?_; intro lx)
    | with_reducible apply State.capToken_kept
    | with_reducible apply State.modRound_kept
    | with_reducible apply State.preset_kept
    | with_reducible apply kept_ite
    | with_reducible apply kept_foldl
    | simp -zeta only [kept_mk, keptF_fold]
    | split

theorem execRoundFold_kept (half : Half) {s : State} (hs : Kept pq va s) : KeptOut pq va (execRoundFold half s) := by
  unfold execRoundFold
  repeat' first
    | with_reducible assumption
    | intro _
    | (extract_lets +onlyGivenNames lx; refine (fun (hlx : Kept pq va lx) => ?_ : Kept pq va lx → _) ?_; rotate_left; simp -zeta only [lx]; clear lx; rotate_right; clear_value lx; revert lx; refine kept_lock ?_; intro lx hlx)
    | (extract_lets +onlyGivenNames lx; clear_value lx; revert lx; refine kept_lock ?_; intro lx)
    | with_reducible apply keptOut_next
    | with_reducible apply keptOut_ite
    | with_reducible apply State.lastFold_kept
    | with_reducible apply State.ledger1_kept
    | with_reducible apply State.modRound_kept
    | with_reducible apply State.spillToken_kept
    | with_reducible apply kept_ite
    | with_reducible apply kept_foldl
    | simp -zeta only [kept_mk, keptF_fold]
    | split

end Sys2Proof.Machine
end

