-- ==== Sys2Proof/Laws/Regions.lean ====
section
/-! SUPPORT. What each operation of Machine/Regions.lean keeps (Laws/Kept.lean). -/
namespace Sys2Proof.Machine

variable {pq : List Instr} {va : Bool}

theorem State.msemTally_kept (i : Nat) {s : State} (hs : Kept pq va s) : Kept pq va (State.msemTally i s) := by
  unfold State.msemTally
  repeat' first
    | with_reducible assumption
    | intro _
    | (extract_lets +onlyGivenNames lx; refine (fun (hlx : Kept pq va lx) => ?_ : Kept pq va lx → _) ?_; rotate_left; simp -zeta only [lx]; clear lx; rotate_right; clear_value lx; revert lx; refine kept_lock ?_; intro lx hlx)
    | (extract_lets +onlyGivenNames lx; clear_value lx; revert lx; refine kept_lock ?_; intro lx)
    | with_reducible apply State.tallyAdd_kept
    | with_reducible apply kept_ite
    | with_reducible apply kept_foldl
    | simp -zeta only [kept_mk, keptF_fold]
    | split

theorem State.clearHolders_kept (i : Nat) {s : State} (hs : Kept pq va s) : Kept pq va (State.clearHolders i s) := by
  unfold State.clearHolders
  repeat' first
    | with_reducible assumption
    | intro _
    | (extract_lets +onlyGivenNames lx; refine (fun (hlx : Kept pq va lx) => ?_ : Kept pq va lx → _) ?_; rotate_left; simp -zeta only [lx]; clear lx; rotate_right; clear_value lx; revert lx; refine kept_lock ?_; intro lx hlx)
    | (extract_lets +onlyGivenNames lx; clear_value lx; revert lx; refine kept_lock ?_; intro lx)
    | with_reducible apply State.wr_kept
    | with_reducible apply kept_ite
    | with_reducible apply kept_foldl
    | simp -zeta only [kept_mk, keptF_fold]
    | split

theorem State.addHolder_kept (i : Nat) (node : Nat) {s : State} (hs : Kept pq va s) : Kept pq va (State.addHolder i node s).2 := by
  unfold State.addHolder
  repeat' first
    | with_reducible assumption
    | intro _
    | (extract_lets +onlyGivenNames lx; refine (fun (hlx : Kept pq va lx) => ?_ : Kept pq va lx → _) ?_; rotate_left; simp -zeta only [lx]; clear lx; rotate_right; clear_value lx; revert lx; refine kept_lock ?_; intro lx hlx)
    | (extract_lets +onlyGivenNames lx; clear_value lx; revert lx; refine kept_lock ?_; intro lx)
    | with_reducible apply State.wr_kept
    | with_reducible apply kept_ite
    | with_reducible apply kept_foldl
    | simp -zeta only [kept_mk, keptF_fold]
    | split

theorem State.addHolder_kept' {i : Nat} {node : Nat} {s : State}  {r : _} {t : State} (he : State.addHolder i node s = (r, t)) (hs : Kept pq va s) : Kept pq va t := by
  have := State.addHolder_kept i node hs
  rwa [he] at this

theorem State.sendInval_kept (node : Nat) (job : Nat) (off : Nat) (lines : Nat) {s : State} (hs : Kept pq va s) : Kept pq va (State.sendInval node job off lines s) := by
  unfold State.sendInval
  repeat' first
    | with_reducible assumption
    | intro _
    | (extract_lets +onlyGivenNames lx; refine (fun (hlx : Kept pq va lx) => ?_ : Kept pq va lx → _) ?_; rotate_left; simp -zeta only [lx]; clear lx; rotate_right; clear_value lx; revert lx; refine kept_lock ?_; intro lx hlx)
    | (extract_lets +onlyGivenNames lx; clear_value lx; revert lx; refine kept_lock ?_; intro lx)
    | with_reducible apply State.msemTally_kept
    | with_reducible apply State.send_kept
    | with_reducible apply kept_ite
    | with_reducible apply kept_foldl
    | simp -zeta only [kept_mk, keptF_fold]
    | split

theorem State.applyRegions_kept (v : W64) {s : State} (hs : Kept pq va s) : Kept pq va (State.applyRegions v s) := by
  unfold State.applyRegions
  repeat' first
    | with_reducible assumption
    | intro _
    | (extract_lets +onlyGivenNames lx; refine (fun (hlx : Kept pq va lx) => ?_ : Kept pq va lx → _) ?_; rotate_left; simp -zeta only [lx]; clear lx; rotate_right; clear_value lx; revert lx; refine kept_lock ?_; intro lx hlx)
    | (extract_lets +onlyGivenNames lx; clear_value lx; revert lx; refine kept_lock ?_; intro lx)
    | with_reducible apply State.addHolder_kept
    | with_reducible apply State.clearHolders_kept
    | with_reducible apply State.sendInval_kept
    | with_reducible apply State.setReg_kept
    | with_reducible apply kept_ite
    | with_reducible apply kept_foldl
    | simp -zeta only [kept_mk, keptF_fold]
    | split
    | (with_reducible refine State.addHolder_kept' (by with_reducible assumption) ?_)

theorem State.regionsStopped_kept {s : State} (hs : Kept pq va s) : Kept pq va (State.regionsStopped s) := by
  unfold State.regionsStopped
  repeat' first
    | with_reducible assumption
    | intro _
    | (extract_lets +onlyGivenNames lx; refine (fun (hlx : Kept pq va lx) => ?_ : Kept pq va lx → _) ?_; rotate_left; simp -zeta only [lx]; clear lx; rotate_right; clear_value lx; revert lx; refine kept_lock ?_; intro lx hlx)
    | (extract_lets +onlyGivenNames lx; clear_value lx; revert lx; refine kept_lock ?_; intro lx)
    | with_reducible apply State.applyRegions_kept
    | with_reducible apply kept_ite
    | with_reducible apply kept_foldl
    | simp -zeta only [kept_mk, keptF_fold]
    | split

end Sys2Proof.Machine
end

