-- ==== Sys2Proof/Laws/Auction.lean ====
section
/-! SUPPORT. What each operation of Machine/Auction.lean keeps (Laws/Kept.lean). -/
set_option linter.all false
namespace Sys2Proof.Machine

variable {pq : List Instr} {va : Bool}

theorem State.setHome_kept (h : Half) (x : HomeHalf) {s : State} (hs : Kept pq va s) : Kept pq va (State.setHome h x s) := by
  unfold State.setHome
  repeat' first
    | with_reducible assumption
    | intro _
    | (extract_lets +onlyGivenNames lx; refine (fun (hlx : Kept pq va lx) => ?_ : Kept pq va lx → _) ?_; rotate_left; simp -zeta only [lx]; clear lx; rotate_right; clear_value lx; revert lx; refine kept_lock ?_; intro lx hlx)
    | (extract_lets +onlyGivenNames lx; clear_value lx; revert lx; refine kept_lock ?_; intro lx)
    | with_reducible apply kept_ite
    | with_reducible apply kept_foldl
    | simp -zeta only [kept_mk, keptF_fold]
    | split

theorem State.modHome_kept (h : Half) (f : HomeHalf → HomeHalf) {s : State} (hs : Kept pq va s) : Kept pq va (State.modHome h f s) := by
  unfold State.modHome
  repeat' first
    | with_reducible assumption
    | intro _
    | (extract_lets +onlyGivenNames lx; refine (fun (hlx : Kept pq va lx) => ?_ : Kept pq va lx → _) ?_; rotate_left; simp -zeta only [lx]; clear lx; rotate_right; clear_value lx; revert lx; refine kept_lock ?_; intro lx hlx)
    | (extract_lets +onlyGivenNames lx; clear_value lx; revert lx; refine kept_lock ?_; intro lx)
    | with_reducible apply State.setHome_kept
    | with_reducible apply kept_ite
    | with_reducible apply kept_foldl
    | simp -zeta only [kept_mk, keptF_fold]
    | split

theorem State.sendVerdicts_kept (h : Half) (k : Nat) (src : Nat) (ws : List W64) {s : State} (hs : Kept pq va s) : Kept pq va (State.sendVerdicts h k src ws s) := by
  unfold State.sendVerdicts
  repeat' first
    | with_reducible assumption
    | intro _
    | (extract_lets +onlyGivenNames lx; refine (fun (hlx : Kept pq va lx) => ?_ : Kept pq va lx → _) ?_; rotate_left; simp -zeta only [lx]; clear lx; rotate_right; clear_value lx; revert lx; refine kept_lock ?_; intro lx hlx)
    | (extract_lets +onlyGivenNames lx; clear_value lx; revert lx; refine kept_lock ?_; intro lx)
    | with_reducible apply State.send_kept
    | with_reducible apply kept_ite
    | with_reducible apply kept_foldl
    | simp -zeta only [kept_mk, keptF_fold]
    | split

theorem State.refuseBid_kept (h : Half) (k : Nat) (b : Bid) (reason : Nat) {s : State} (hs : Kept pq va s) : Kept pq va (State.refuseBid h k b reason s) := by
  unfold State.refuseBid
  repeat' first
    | with_reducible assumption
    | intro _
    | (extract_lets +onlyGivenNames lx; refine (fun (hlx : Kept pq va lx) => ?_ : Kept pq va lx → _) ?_; rotate_left; simp -zeta only [lx]; clear lx; rotate_right; clear_value lx; revert lx; refine kept_lock ?_; intro lx hlx)
    | (extract_lets +onlyGivenNames lx; clear_value lx; revert lx; refine kept_lock ?_; intro lx)
    | with_reducible apply State.modHome_kept
    | with_reducible apply State.sendVerdicts_kept
    | with_reducible apply State.tallyAdd_kept
    | with_reducible apply kept_ite
    | with_reducible apply kept_foldl
    | simp -zeta only [kept_mk, keptF_fold]
    | split

theorem State.notHome_kept (h : Half) (k : Nat) (handle : W64) {s : State} (hs : Kept pq va s) : Kept pq va (State.notHome h k handle s) := by
  unfold State.notHome
  repeat' first
    | with_reducible assumption
    | intro _
    | (extract_lets +onlyGivenNames lx; refine (fun (hlx : Kept pq va lx) => ?_ : Kept pq va lx → _) ?_; rotate_left; simp -zeta only [lx]; clear lx; rotate_right; clear_value lx; revert lx; refine kept_lock ?_; intro lx hlx)
    | (extract_lets +onlyGivenNames lx; clear_value lx; revert lx; refine kept_lock ?_; intro lx)
    | with_reducible apply State.record_kept
    | with_reducible apply State.safe0_kept
    | with_reducible apply State.setReg_kept
    | with_reducible apply kept_ite
    | with_reducible apply kept_foldl
    | simp -zeta only [kept_mk, keptF_fold]
    | split

theorem State.closeCount_kept (h : Half) (k : Nat) {s : State} (hs : Kept pq va s) : Kept pq va (State.closeCount h k s) := by
  unfold State.closeCount
  repeat' first
    | with_reducible assumption
    | intro _
    | (extract_lets +onlyGivenNames lx; refine (fun (hlx : Kept pq va lx) => ?_ : Kept pq va lx → _) ?_; rotate_left; simp -zeta only [lx]; clear lx; rotate_right; clear_value lx; revert lx; refine kept_lock ?_; intro lx hlx)
    | (extract_lets +onlyGivenNames lx; clear_value lx; revert lx; refine kept_lock ?_; intro lx)
    | with_reducible apply State.lostDup_kept
    | with_reducible apply State.record_kept
    | with_reducible apply kept_ite
    | with_reducible apply kept_foldl
    | simp -zeta only [kept_mk, keptF_fold]
    | split

theorem State.keepBid_kept (h : Half) (k : Nat) (ec : Bool) (b : Bid) {s : State} (hs : Kept pq va s) : Kept pq va (State.keepBid h k ec b s) := by
  unfold State.keepBid
  repeat' first
    | with_reducible assumption
    | intro _
    | (extract_lets +onlyGivenNames lx; refine (fun (hlx : Kept pq va lx) => ?_ : Kept pq va lx → _) ?_; rotate_left; simp -zeta only [lx]; clear lx; rotate_right; clear_value lx; revert lx; refine kept_lock ?_; intro lx hlx)
    | (extract_lets +onlyGivenNames lx; clear_value lx; revert lx; refine kept_lock ?_; intro lx)
    | with_reducible apply State.modHome_kept
    | with_reducible apply State.record_kept
    | with_reducible apply State.refuseBid_kept
    | with_reducible apply State.tallyAdd_kept
    | with_reducible apply kept_ite
    | with_reducible apply kept_foldl
    | simp -zeta only [kept_mk, keptF_fold]
    | split

theorem State.mergeBid_kept (h : Half) (k : Nat) (b : Bid) {s : State} (hs : Kept pq va s) : Kept pq va (State.mergeBid h k b s) := by
  unfold State.mergeBid
  repeat' first
    | with_reducible assumption
    | intro _
    | (extract_lets +onlyGivenNames lx; refine (fun (hlx : Kept pq va lx) => ?_ : Kept pq va lx → _) ?_; rotate_left; simp -zeta only [lx]; clear lx; rotate_right; clear_value lx; revert lx; refine kept_lock ?_; intro lx hlx)
    | (extract_lets +onlyGivenNames lx; clear_value lx; revert lx; refine kept_lock ?_; intro lx)
    | with_reducible apply State.keepBid_kept
    | with_reducible apply State.modHome_kept
    | with_reducible apply State.refuseBid_kept
    | with_reducible apply State.tallyAdd_kept
    | with_reducible apply kept_ite
    | with_reducible apply kept_foldl
    | simp -zeta only [kept_mk, keptF_fold]
    | split

theorem State.tryBid_kept (h : Half) (k : Nat) (r : HeldRec) {s : State} (hs : Kept pq va s) : Kept pq va (State.tryBid h k r s) := by
  unfold State.tryBid
  repeat' first
    | with_reducible assumption
    | intro _
    | (extract_lets +onlyGivenNames lx; refine (fun (hlx : Kept pq va lx) => ?_ : Kept pq va lx → _) ?_; rotate_left; simp -zeta only [lx]; clear lx; rotate_right; clear_value lx; revert lx; refine kept_lock ?_; intro lx hlx)
    | (extract_lets +onlyGivenNames lx; clear_value lx; revert lx; refine kept_lock ?_; intro lx)
    | with_reducible apply State.mergeBid_kept
    | with_reducible apply State.modHome_kept
    | with_reducible apply State.notHome_kept
    | with_reducible apply State.sendVerdicts_kept
    | with_reducible apply State.tallyAdd_kept
    | with_reducible apply kept_ite
    | with_reducible apply kept_foldl
    | simp -zeta only [kept_mk, keptF_fold]
    | split

theorem State.mergeAll_kept (h : Half) (k : Nat) {s : State} (hs : Kept pq va s) : Kept pq va (State.mergeAll h k s) := by
  unfold State.mergeAll
  repeat' first
    | with_reducible assumption
    | intro _
    | (extract_lets +onlyGivenNames lx; refine (fun (hlx : Kept pq va lx) => ?_ : Kept pq va lx → _) ?_; rotate_left; simp -zeta only [lx]; clear lx; rotate_right; clear_value lx; revert lx; refine kept_lock ?_; intro lx hlx)
    | (extract_lets +onlyGivenNames lx; clear_value lx; revert lx; refine kept_lock ?_; intro lx)
    | with_reducible apply State.tryBid_kept
    | with_reducible apply kept_ite
    | with_reducible apply kept_foldl
    | simp -zeta only [kept_mk, keptF_fold]
    | split

theorem State.checkOver_kept (h : Half) (k : Nat) (src : Nat) {s : State} (hs : Kept pq va s) : Kept pq va (State.checkOver h k src s) := by
  unfold State.checkOver
  repeat' first
    | with_reducible assumption
    | intro _
    | (extract_lets +onlyGivenNames lx; refine (fun (hlx : Kept pq va lx) => ?_ : Kept pq va lx → _) ?_; rotate_left; simp -zeta only [lx]; clear lx; rotate_right; clear_value lx; revert lx; refine kept_lock ?_; intro lx hlx)
    | (extract_lets +onlyGivenNames lx; clear_value lx; revert lx; refine kept_lock ?_; intro lx)
    | with_reducible apply State.closeCount_kept
    | with_reducible apply State.modHome_kept
    | with_reducible apply kept_ite
    | with_reducible apply kept_foldl
    | simp -zeta only [kept_mk, keptF_fold]
    | split

theorem State.startRound_kept (h : Half) (k : Nat) {s : State} (hs : Kept pq va s) : Kept pq va (State.startRound h k s) := by
  unfold State.startRound
  repeat' first
    | with_reducible assumption
    | intro _
    | (extract_lets +onlyGivenNames lx; refine (fun (hlx : Kept pq va lx) => ?_ : Kept pq va lx → _) ?_; rotate_left; simp -zeta only [lx]; clear lx; rotate_right; clear_value lx; revert lx; refine kept_lock ?_; intro lx hlx)
    | (extract_lets +onlyGivenNames lx; clear_value lx; revert lx; refine kept_lock ?_; intro lx)
    | with_reducible apply State.modHome_kept
    | with_reducible apply kept_ite
    | with_reducible apply kept_foldl
    | simp -zeta only [kept_mk, keptF_fold]
    | split

theorem State.enterRound_kept (h : Half) (k : Nat) {s : State} (hs : Kept pq va s) : Kept pq va (State.enterRound h k s) := by
  unfold State.enterRound
  repeat' first
    | with_reducible assumption
    | intro _
    | (extract_lets +onlyGivenNames lx; refine (fun (hlx : Kept pq va lx) => ?_ : Kept pq va lx → _) ?_; rotate_left; simp -zeta only [lx]; clear lx; rotate_right; clear_value lx; revert lx; refine kept_lock ?_; intro lx hlx)
    | (extract_lets +onlyGivenNames lx; clear_value lx; revert lx; refine kept_lock ?_; intro lx)
    | with_reducible apply State.checkOver_kept
    | with_reducible apply State.mergeAll_kept
    | with_reducible apply State.modHome_kept
    | with_reducible apply kept_ite
    | with_reducible apply kept_foldl
    | simp -zeta only [kept_mk, keptF_fold]
    | split

theorem State.homeBreak_kept (check : Nat) (h : Half) (k : Nat) (e : Nat) (node : Nat) {s : State} (hs : Kept pq va s) : Kept pq va (State.homeBreak check h k e node s) := by
  unfold State.homeBreak
  repeat' first
    | with_reducible assumption
    | intro _
    | (extract_lets +onlyGivenNames lx; refine (fun (hlx : Kept pq va lx) => ?_ : Kept pq va lx → _) ?_; rotate_left; simp -zeta only [lx]; clear lx; rotate_right; clear_value lx; revert lx; refine kept_lock ?_; intro lx hlx)
    | (extract_lets +onlyGivenNames lx; clear_value lx; revert lx; refine kept_lock ?_; intro lx)
    | with_reducible apply State.ledgerBreak_kept
    | with_reducible apply State.modHome_kept
    | with_reducible apply State.taintQueued_kept
    | with_reducible apply kept_ite
    | with_reducible apply kept_foldl
    | simp -zeta only [kept_mk, keptF_fold]
    | split

theorem State.sendFinal_kept (h : Half) (k : Nat) (e : Nat) {s : State} (hs : Kept pq va s) : Kept pq va (State.sendFinal h k e s) := by
  unfold State.sendFinal
  repeat' first
    | with_reducible assumption
    | intro _
    | (extract_lets +onlyGivenNames lx; refine (fun (hlx : Kept pq va lx) => ?_ : Kept pq va lx → _) ?_; rotate_left; simp -zeta only [lx]; clear lx; rotate_right; clear_value lx; revert lx; refine kept_lock ?_; intro lx hlx)
    | (extract_lets +onlyGivenNames lx; clear_value lx; revert lx; refine kept_lock ?_; intro lx)
    | with_reducible apply State.homeBreak_kept
    | with_reducible apply State.modHome_kept
    | with_reducible apply State.sendAuc_kept
    | with_reducible apply kept_ite
    | with_reducible apply kept_foldl
    | simp -zeta only [kept_mk, keptF_fold]
    | split

theorem State.finals_kept (h : Half) (k : Nat) {s : State} (hs : Kept pq va s) : Kept pq va (State.finals h k s) := by
  unfold State.finals
  repeat' first
    | with_reducible assumption
    | intro _
    | (extract_lets +onlyGivenNames lx; refine (fun (hlx : Kept pq va lx) => ?_ : Kept pq va lx → _) ?_; rotate_left; simp -zeta only [lx]; clear lx; rotate_right; clear_value lx; revert lx; refine kept_lock ?_; intro lx hlx)
    | (extract_lets +onlyGivenNames lx; clear_value lx; revert lx; refine kept_lock ?_; intro lx)
    | with_reducible apply State.sendFinal_kept
    | with_reducible apply kept_ite
    | with_reducible apply kept_foldl
    | simp -zeta only [kept_mk, keptF_fold]
    | split

theorem State.ledger2_kept (h : Half) (k : Nat) {s : State} (hs : Kept pq va s) : Kept pq va (State.ledger2 h k s) := by
  unfold State.ledger2
  repeat' first
    | with_reducible assumption
    | intro _
    | (extract_lets +onlyGivenNames lx; refine (fun (hlx : Kept pq va lx) => ?_ : Kept pq va lx → _) ?_; rotate_left; simp -zeta only [lx]; clear lx; rotate_right; clear_value lx; revert lx; refine kept_lock ?_; intro lx hlx)
    | (extract_lets +onlyGivenNames lx; clear_value lx; revert lx; refine kept_lock ?_; intro lx)
    | with_reducible apply State.homeBreak_kept
    | with_reducible apply kept_ite
    | with_reducible apply kept_foldl
    | simp -zeta only [kept_mk, keptF_fold]
    | split

theorem State.endRound_kept (h : Half) (k : Nat) {s : State} (hs : Kept pq va s) : Kept pq va (State.endRound h k s) := by
  unfold State.endRound
  repeat' first
    | with_reducible assumption
    | intro _
    | (extract_lets +onlyGivenNames lx; refine (fun (hlx : Kept pq va lx) => ?_ : Kept pq va lx → _) ?_; rotate_left; simp -zeta only [lx]; clear lx; rotate_right; clear_value lx; revert lx; refine kept_lock ?_; intro lx hlx)
    | (extract_lets +onlyGivenNames lx; clear_value lx; revert lx; refine kept_lock ?_; intro lx)
    | with_reducible apply State.finals_kept
    | with_reducible apply State.ledger2_kept
    | with_reducible apply State.modHome_kept
    | with_reducible apply State.tallyAdd_kept
    | with_reducible apply kept_ite
    | with_reducible apply kept_foldl
    | simp -zeta only [kept_mk, keptF_fold]
    | split

theorem State.homeAdvance_kept (h : Half) (a1 : Nat) {a2 : State} (hs : Kept pq va a2) : Kept pq va (State.homeAdvance h a1 a2) := by
  induction a1 generalizing a2 with
  | zero =>
    simp -zeta only [State.homeAdvance]
    try exact hs
  | succ n ih =>
    rw [State.homeAdvance]
    repeat' first
      | with_reducible assumption
      | intro _
      | (extract_lets +onlyGivenNames lx; refine (fun (hlx : Kept pq va lx) => ?_ : Kept pq va lx → _) ?_; rotate_left; simp -zeta only [lx]; clear lx; rotate_right; clear_value lx; revert lx; refine kept_lock ?_; intro lx hlx)
      | (extract_lets +onlyGivenNames lx; clear_value lx; revert lx; refine kept_lock ?_; intro lx)
      | with_reducible apply ih
      | with_reducible apply State.endRound_kept
      | with_reducible apply State.enterRound_kept
      | with_reducible apply kept_ite
      | with_reducible apply kept_foldl
      | simp -zeta only [kept_mk, keptF_fold]
      | split

theorem State.refuseRound_kept (h : Half) (k : Nat) {s : State} (hs : Kept pq va s) : Kept pq va (State.refuseRound h k s) := by
  unfold State.refuseRound
  repeat' first
    | with_reducible assumption
    | intro _
    | (extract_lets +onlyGivenNames lx; refine (fun (hlx : Kept pq va lx) => ?_ : Kept pq va lx → _) ?_; rotate_left; simp -zeta only [lx]; clear lx; rotate_right; clear_value lx; revert lx; refine kept_lock ?_; intro lx hlx)
    | (extract_lets +onlyGivenNames lx; clear_value lx; revert lx; refine kept_lock ?_; intro lx)
    | with_reducible apply State.endRound_kept
    | with_reducible apply State.homeAdvance_kept
    | with_reducible apply State.modHome_kept
    | with_reducible apply State.refuseBid_kept
    | with_reducible apply kept_ite
    | with_reducible apply kept_foldl
    | simp -zeta only [kept_mk, keptF_fold]
    | split

theorem State.holdRecord_kept (h : Half) (k : Nat) (src : Nat) (lo : W64) (hi : W64) {s : State} (hs : Kept pq va s) : Kept pq va (State.holdRecord h k src lo hi s) := by
  unfold State.holdRecord
  repeat' first
    | with_reducible assumption
    | intro _
    | (extract_lets +onlyGivenNames lx; refine (fun (hlx : Kept pq va lx) => ?_ : Kept pq va lx → _) ?_; rotate_left; simp -zeta only [lx]; clear lx; rotate_right; clear_value lx; revert lx; refine kept_lock ?_; intro lx hlx)
    | (extract_lets +onlyGivenNames lx; clear_value lx; revert lx; refine kept_lock ?_; intro lx)
    | with_reducible apply State.checkOver_kept
    | with_reducible apply State.homeAdvance_kept
    | with_reducible apply State.mergeAll_kept
    | with_reducible apply State.modHome_kept
    | with_reducible apply State.startRound_kept
    | with_reducible apply kept_ite
    | with_reducible apply kept_foldl
    | simp -zeta only [kept_mk, keptF_fold]
    | split

theorem State.refuseStranger_kept (h : Half) (k : Nat) (src : Node) (lo : W64) (hi : W64) {s : State} (hs : Kept pq va s) : Kept pq va (State.refuseStranger h k src lo hi s) := by
  unfold State.refuseStranger
  repeat' first
    | with_reducible assumption
    | intro _
    | (extract_lets +onlyGivenNames lx; refine (fun (hlx : Kept pq va lx) => ?_ : Kept pq va lx → _) ?_; rotate_left; simp -zeta only [lx]; clear lx; rotate_right; clear_value lx; revert lx; refine kept_lock ?_; intro lx hlx)
    | (extract_lets +onlyGivenNames lx; clear_value lx; revert lx; refine kept_lock ?_; intro lx)
    | with_reducible apply State.notHome_kept
    | with_reducible apply State.send_kept
    | with_reducible apply State.tallyAdd_kept
    | with_reducible apply kept_ite
    | with_reducible apply kept_foldl
    | simp -zeta only [kept_mk, keptF_fold]
    | split

theorem execBidReceive_kept (src : Node) (record : List Byte) {s : State} (hs : Kept pq va s) : KeptOut pq va (execBidReceive src record s) := by
  unfold execBidReceive
  repeat' first
    | with_reducible assumption
    | intro _
    | (extract_lets +onlyGivenNames lx; refine (fun (hlx : Kept pq va lx) => ?_ : Kept pq va lx → _) ?_; rotate_left; simp -zeta only [lx]; clear lx; rotate_right; clear_value lx; revert lx; refine kept_lock ?_; intro lx hlx)
    | (extract_lets +onlyGivenNames lx; refine (fun (hfn : ∀ s, Kept pq va s → Kept pq va (lx s)) => ?_ : (∀ s, Kept pq va s → Kept pq va (lx s)) → _) ?_; rotate_left; simp -zeta only [lx]; clear lx; rotate_right; clear_value lx; revert lx; refine kept_lock ?_; intro lx hfn)
    | (extract_lets +onlyGivenNames lx; clear_value lx; revert lx; refine kept_lock ?_; intro lx)
    | with_reducible apply hfn
    | with_reducible apply keptOut_next
    | with_reducible apply keptOut_ite
    | with_reducible apply State.closeCount_kept
    | with_reducible apply State.holdRecord_kept
    | with_reducible apply State.notHome_kept
    | with_reducible apply State.refuseStranger_kept
    | with_reducible apply State.sendVerdicts_kept
    | with_reducible apply State.setReg_kept
    | with_reducible apply State.tallyAdd_kept
    | with_reducible apply kept_ite
    | with_reducible apply kept_foldl
    | simp -zeta only [kept_mk, keptF_fold]
    | split

theorem execTieNoteReceive_kept (src : Node) (half : Half) (bell : Nat) (layer : Nat) (round : Nat) (record : List Byte) {s : State} (hs : Kept pq va s) : KeptOut pq va (execTieNoteReceive src half bell layer round record s) := by
  unfold execTieNoteReceive
  repeat' first
    | with_reducible assumption
    | intro _
    | (extract_lets +onlyGivenNames lx; refine (fun (hlx : Kept pq va lx) => ?_ : Kept pq va lx → _) ?_; rotate_left; simp -zeta only [lx]; clear lx; rotate_right; clear_value lx; revert lx; refine kept_lock ?_; intro lx hlx)
    | (extract_lets +onlyGivenNames lx; clear_value lx; revert lx; refine kept_lock ?_; intro lx)
    | with_reducible apply keptOut_next
    | with_reducible apply keptOut_ite
    | with_reducible apply State.closeCount_kept
    | with_reducible apply State.holdRecord_kept
    | with_reducible apply State.notHome_kept
    | with_reducible apply kept_ite
    | with_reducible apply kept_foldl
    | simp -zeta only [kept_mk, keptF_fold]
    | split

theorem execBidCloseReceive_kept (src : Node) (record : List Byte) {s : State} (hs : Kept pq va s) : KeptOut pq va (execBidCloseReceive src record s) := by
  unfold execBidCloseReceive
  repeat' first
    | with_reducible assumption
    | intro _
    | (extract_lets +onlyGivenNames lx; refine (fun (hlx : Kept pq va lx) => ?_ : Kept pq va lx → _) ?_; rotate_left; simp -zeta only [lx]; clear lx; rotate_right; clear_value lx; revert lx; refine kept_lock ?_; intro lx hlx)
    | (extract_lets +onlyGivenNames lx; clear_value lx; revert lx; refine kept_lock ?_; intro lx)
    | with_reducible apply keptOut_next
    | with_reducible apply keptOut_ite
    | with_reducible apply State.bellSkew_kept
    | with_reducible apply State.checkOver_kept
    | with_reducible apply State.closeCount_kept
    | with_reducible apply State.homeAdvance_kept
    | with_reducible apply State.modHome_kept
    | with_reducible apply State.notHome_kept
    | with_reducible apply State.startRound_kept
    | with_reducible apply kept_ite
    | with_reducible apply kept_foldl
    | simp -zeta only [kept_mk, keptF_fold]
    | split

theorem execBidSkew_kept (src : Nat) (half : Half) {s : State} (hs : Kept pq va s) : KeptOut pq va (execBidSkew src half s) := by
  unfold execBidSkew
  repeat' first
    | with_reducible assumption
    | intro _
    | (extract_lets +onlyGivenNames lx; refine (fun (hlx : Kept pq va lx) => ?_ : Kept pq va lx → _) ?_; rotate_left; simp -zeta only [lx]; clear lx; rotate_right; clear_value lx; revert lx; refine kept_lock ?_; intro lx hlx)
    | (extract_lets +onlyGivenNames lx; clear_value lx; revert lx; refine kept_lock ?_; intro lx)
    | with_reducible apply keptOut_next
    | with_reducible apply keptOut_ite
    | with_reducible apply State.flood_kept
    | with_reducible apply State.record_kept
    | with_reducible apply State.setReg_kept
    | with_reducible apply kept_ite
    | with_reducible apply kept_foldl
    | simp -zeta only [kept_mk, keptF_fold]
    | split

theorem State.dropOver_kept (h : Half) (k : Nat) {s : State} (hs : Kept pq va s) : Kept pq va (State.dropOver h k s) := by
  unfold State.dropOver
  repeat' first
    | with_reducible assumption
    | intro _
    | (extract_lets +onlyGivenNames lx; refine (fun (hlx : Kept pq va lx) => ?_ : Kept pq va lx → _) ?_; rotate_left; simp -zeta only [lx]; clear lx; rotate_right; clear_value lx; revert lx; refine kept_lock ?_; intro lx hlx)
    | (extract_lets +onlyGivenNames lx; clear_value lx; revert lx; refine kept_lock ?_; intro lx)
    | with_reducible apply State.modHome_kept
    | with_reducible apply State.refuseBid_kept
    | with_reducible apply State.setReg_kept
    | with_reducible apply kept_ite
    | with_reducible apply kept_foldl
    | simp -zeta only [kept_mk, keptF_fold]
    | split

theorem State.sendNotices_kept (h : Half) (k : Nat) (e : Nat) (gs : List Grant) {s : State} (hs : Kept pq va s) : Kept pq va (State.sendNotices h k e gs s) := by
  unfold State.sendNotices
  repeat' first
    | with_reducible assumption
    | intro _
    | (extract_lets +onlyGivenNames lx; refine (fun (hlx : Kept pq va lx) => ?_ : Kept pq va lx → _) ?_; rotate_left; simp -zeta only [lx]; clear lx; rotate_right; clear_value lx; revert lx; refine kept_lock ?_; intro lx hlx)
    | (extract_lets +onlyGivenNames lx; clear_value lx; revert lx; refine kept_lock ?_; intro lx)
    | with_reducible apply State.modHome_kept
    | with_reducible apply State.sendAuc_kept
    | with_reducible apply kept_ite
    | with_reducible apply kept_foldl
    | simp -zeta only [kept_mk, keptF_fold]
    | split

theorem State.closeStall_kept (h : Half) (k : Nat) (e : Nat) {s : State} (hs : Kept pq va s) : Kept pq va (State.closeStall h k e s).2 := by
  unfold State.closeStall
  repeat' first
    | with_reducible assumption
    | intro _
    | (extract_lets +onlyGivenNames lx; refine (fun (hlx : Kept pq va lx) => ?_ : Kept pq va lx → _) ?_; rotate_left; simp -zeta only [lx]; clear lx; rotate_right; clear_value lx; revert lx; refine kept_lock ?_; intro lx hlx)
    | (extract_lets +onlyGivenNames lx; clear_value lx; revert lx; refine kept_lock ?_; intro lx)
    | with_reducible apply State.loadAdd_kept
    | with_reducible apply State.modHome_kept
    | with_reducible apply State.sendNotices_kept
    | with_reducible apply State.tallyAdd_kept
    | with_reducible apply kept_ite
    | with_reducible apply kept_foldl
    | simp -zeta only [kept_mk, keptF_fold]
    | split

theorem State.closeStall_kept' {h : Half} {k : Nat} {e : Nat} {s : State}  {r : _} {t : State} (he : State.closeStall h k e s = (r, t)) (hs : Kept pq va s) : Kept pq va t := by
  have := State.closeStall_kept h k e hs
  rwa [he] at this

theorem State.sendGrants_kept (h : Half) (k : Nat) (gs : List Grant) {s : State} (hs : Kept pq va s) : Kept pq va (State.sendGrants h k gs s) := by
  unfold State.sendGrants
  repeat' first
    | with_reducible assumption
    | intro _
    | (extract_lets +onlyGivenNames lx; refine (fun (hlx : Kept pq va lx) => ?_ : Kept pq va lx → _) ?_; rotate_left; simp -zeta only [lx]; clear lx; rotate_right; clear_value lx; revert lx; refine kept_lock ?_; intro lx hlx)
    | (extract_lets +onlyGivenNames lx; clear_value lx; revert lx; refine kept_lock ?_; intro lx)
    | with_reducible apply State.sendVerdicts_kept
    | with_reducible apply kept_ite
    | with_reducible apply kept_foldl
    | simp -zeta only [kept_mk, keptF_fold]
    | split

theorem State.closeRound_kept (h : Half) (k : Nat) {s : State} (hs : Kept pq va s) : Kept pq va (State.closeRound h k s) := by
  unfold State.closeRound
  repeat' first
    | with_reducible assumption
    | intro _
    | (extract_lets +onlyGivenNames lx; refine (fun (hlx : Kept pq va lx) => ?_ : Kept pq va lx → _) ?_; rotate_left; simp -zeta only [lx]; clear lx; rotate_right; clear_value lx; revert lx; refine kept_lock ?_; intro lx hlx)
    | (extract_lets +onlyGivenNames lx; clear_value lx; revert lx; refine kept_lock ?_; intro lx)
    | with_reducible apply State.closeStall_kept
    | with_reducible apply State.dropOver_kept
    | with_reducible apply State.endRound_kept
    | with_reducible apply State.homeAdvance_kept
    | with_reducible apply State.sendGrants_kept
    | with_reducible apply kept_ite
    | with_reducible apply kept_foldl
    | simp -zeta only [kept_mk, keptF_fold]
    | split
    | (with_reducible refine State.closeStall_kept' (by with_reducible assumption) ?_)

theorem State.fenceAuctioneer_kept (w : Nat) {s : State} (hs : Kept pq va s) : Kept pq va (State.fenceAuctioneer w s) := by
  unfold State.fenceAuctioneer
  repeat' first
    | with_reducible assumption
    | intro _
    | (extract_lets +onlyGivenNames lx; refine (fun (hlx : Kept pq va lx) => ?_ : Kept pq va lx → _) ?_; rotate_left; simp -zeta only [lx]; clear lx; rotate_right; clear_value lx; revert lx; refine kept_lock ?_; intro lx hlx)
    | (extract_lets +onlyGivenNames lx; clear_value lx; revert lx; refine kept_lock ?_; intro lx)
    | with_reducible apply State.markUnit_kept
    | with_reducible apply State.record_kept
    | with_reducible apply State.setFld_kept
    | with_reducible apply State.tallyAdd_kept
    | with_reducible apply kept_ite
    | with_reducible apply kept_foldl
    | simp -zeta only [kept_mk, keptF_fold]
    | split

theorem execAuctionRoundClose_kept (half : Half) (lockstep : Lockstep) {s : State} (hs : Kept pq va s) : KeptOut pq va (execAuctionRoundClose half lockstep s) := by
  unfold execAuctionRoundClose
  repeat' first
    | with_reducible assumption
    | intro _
    | (extract_lets +onlyGivenNames lx; refine (fun (hlx : Kept pq va lx) => ?_ : Kept pq va lx → _) ?_; rotate_left; simp -zeta only [lx]; clear lx; rotate_right; clear_value lx; revert lx; refine kept_lock ?_; intro lx hlx)
    | (extract_lets +onlyGivenNames lx; clear_value lx; revert lx; refine kept_lock ?_; intro lx)
    | with_reducible apply keptOut_next
    | with_reducible apply keptOut_ite
    | with_reducible apply State.closeRound_kept
    | with_reducible apply State.fenceAuctioneer_kept
    | with_reducible apply State.record_kept
    | with_reducible apply State.refuseRound_kept
    | with_reducible apply State.safe0_kept
    | with_reducible apply kept_ite
    | with_reducible apply kept_foldl
    | simp -zeta only [kept_mk, keptF_fold]
    | split

theorem execAucCloseTimeout_kept (half : Half) {s : State} (hs : Kept pq va s) : KeptOut pq va (execAucCloseTimeout half s) := by
  unfold execAucCloseTimeout
  repeat' first
    | with_reducible assumption
    | intro _
    | (extract_lets +onlyGivenNames lx; refine (fun (hlx : Kept pq va lx) => ?_ : Kept pq va lx → _) ?_; rotate_left; simp -zeta only [lx]; clear lx; rotate_right; clear_value lx; revert lx; refine kept_lock ?_; intro lx hlx)
    | (extract_lets +onlyGivenNames lx; clear_value lx; revert lx; refine kept_lock ?_; intro lx)
    | with_reducible apply keptOut_next
    | with_reducible apply keptOut_ite
    | with_reducible apply State.lateMargin_kept
    | with_reducible apply State.record_kept
    | with_reducible apply State.refuseRound_kept
    | with_reducible apply kept_ite
    | with_reducible apply kept_foldl
    | simp -zeta only [kept_mk, keptF_fold]
    | split

theorem execReleaseReceiveHome_kept (src : Node) (record : List Byte) {s : State} (hs : Kept pq va s) : KeptOut pq va (execReleaseReceiveHome src record s) := by
  unfold execReleaseReceiveHome
  repeat' first
    | with_reducible assumption
    | intro _
    | (extract_lets +onlyGivenNames lx; refine (fun (hlx : Kept pq va lx) => ?_ : Kept pq va lx → _) ?_; rotate_left; simp -zeta only [lx]; clear lx; rotate_right; clear_value lx; revert lx; refine kept_lock ?_; intro lx hlx)
    | (extract_lets +onlyGivenNames lx; clear_value lx; revert lx; refine kept_lock ?_; intro lx)
    | with_reducible apply keptOut_next
    | with_reducible apply keptOut_ite
    | with_reducible apply State.modHome_kept
    | with_reducible apply State.notHome_kept
    | with_reducible apply State.tallyAdd_kept
    | with_reducible apply kept_ite
    | with_reducible apply kept_foldl
    | simp -zeta only [kept_mk, keptF_fold]
    | split

theorem execReadinessRecordReceive_kept (record : List Byte) {s : State} (hs : Kept pq va s) : KeptOut pq va (execReadinessRecordReceive record s) := by
  unfold execReadinessRecordReceive
  repeat' first
    | with_reducible assumption
    | intro _
    | (extract_lets +onlyGivenNames lx; refine (fun (hlx : Kept pq va lx) => ?_ : Kept pq va lx → _) ?_; rotate_left; simp -zeta only [lx]; clear lx; rotate_right; clear_value lx; revert lx; refine kept_lock ?_; intro lx hlx)
    | (extract_lets +onlyGivenNames lx; refine (fun (hfn : ∀ a, Kept pq va (lx a)) => ?_ : (∀ a, Kept pq va (lx a)) → _) ?_; rotate_left; simp -zeta only [lx]; clear lx; rotate_right; clear_value lx; revert lx; refine kept_lock ?_; intro lx hfn)
    | (extract_lets +onlyGivenNames lx; clear_value lx; revert lx; refine kept_lock ?_; intro lx)
    | with_reducible apply hfn
    | with_reducible apply keptOut_next
    | with_reducible apply keptOut_ite
    | with_reducible apply kept_ite
    | with_reducible apply kept_foldl
    | simp -zeta only [kept_mk, keptF_fold]
    | split

theorem State.homeDead_kept (h : Half) (src : Nat) {s : State} (hs : Kept pq va s) : Kept pq va (State.homeDead h src s) := by
  unfold State.homeDead
  repeat' first
    | with_reducible assumption
    | intro _
    | (extract_lets +onlyGivenNames lx; refine (fun (hlx : Kept pq va lx) => ?_ : Kept pq va lx → _) ?_; rotate_left; simp -zeta only [lx]; clear lx; rotate_right; clear_value lx; revert lx; refine kept_lock ?_; intro lx hlx)
    | (extract_lets +onlyGivenNames lx; clear_value lx; revert lx; refine kept_lock ?_; intro lx)
    | with_reducible apply State.modHome_kept
    | with_reducible apply State.refuseBid_kept
    | with_reducible apply kept_ite
    | with_reducible apply kept_foldl
    | simp -zeta only [kept_mk, keptF_fold]
    | split

end Sys2Proof.Machine
end

