-- ==== Sys2Proof/Laws/Places.lean ====
section
/-! SUPPORT. What each operation of Machine/Places.lean keeps (Laws/Kept.lean). -/
set_option linter.all false
namespace Sys2Proof.Machine

variable {pq : List Instr} {va : Bool}

theorem State.retWrite_kept (v : RoundView) (h : Half) (off : Nat) (d : List Byte) {s : State} (hs : Kept pq va s) : Kept pq va (State.retWrite v h off d s) := by
  unfold State.retWrite
  repeat' first
    | with_reducible assumption
    | intro _
    | (extract_lets +onlyGivenNames lx; refine (fun (hlx : Kept pq va lx) => ?_ : Kept pq va lx → _) ?_; rotate_left; simp -zeta only [lx]; clear lx; rotate_right; clear_value lx; revert lx; refine kept_lock ?_; intro lx hlx)
    | (extract_lets +onlyGivenNames lx; clear_value lx; revert lx; refine kept_lock ?_; intro lx)
    | with_reducible apply State.areaWrite_kept
    | with_reducible apply kept_ite
    | with_reducible apply kept_foldl
    | simp -zeta only [kept_mk, keptF_fold]
    | split

theorem State.retCount_kept (v : RoundView) (h : Half) (off : Nat) (n : Nat) {s : State} (hs : Kept pq va s) : Kept pq va (State.retCount v h off n s) := by
  unfold State.retCount
  repeat' first
    | with_reducible assumption
    | intro _
    | (extract_lets +onlyGivenNames lx; refine (fun (hlx : Kept pq va lx) => ?_ : Kept pq va lx → _) ?_; rotate_left; simp -zeta only [lx]; clear lx; rotate_right; clear_value lx; revert lx; refine kept_lock ?_; intro lx hlx)
    | (extract_lets +onlyGivenNames lx; clear_value lx; revert lx; refine kept_lock ?_; intro lx)
    | with_reducible apply State.modRound_kept
    | with_reducible apply State.tallyAdd_kept
    | with_reducible apply kept_ite
    | with_reducible apply kept_foldl
    | simp -zeta only [kept_mk, keptF_fold]
    | split

theorem State.cmbFault_kept (code : Nat) (handle : Option W64) (layer : Nat) (place : Nat) (h : Half) {s : State} (hs : Kept pq va s) : Kept pq va (State.cmbFault code handle layer place h s) := by
  unfold State.cmbFault
  repeat' first
    | with_reducible assumption
    | intro _
    | (extract_lets +onlyGivenNames lx; refine (fun (hlx : Kept pq va lx) => ?_ : Kept pq va lx → _) ?_; rotate_left; simp -zeta only [lx]; clear lx; rotate_right; clear_value lx; revert lx; refine kept_lock ?_; intro lx hlx)
    | (extract_lets +onlyGivenNames lx; clear_value lx; revert lx; refine kept_lock ?_; intro lx)
    | with_reducible apply State.recordF_kept
    | with_reducible apply State.setReg_kept
    | with_reducible apply kept_ite
    | with_reducible apply kept_foldl
    | simp -zeta only [kept_mk, keptF_fold]
    | split

theorem State.cmbPeak_kept {s : State} (hs : Kept pq va s) : Kept pq va (State.cmbPeak s) := by
  unfold State.cmbPeak
  repeat' first
    | with_reducible assumption
    | intro _
    | (extract_lets +onlyGivenNames lx; refine (fun (hlx : Kept pq va lx) => ?_ : Kept pq va lx → _) ?_; rotate_left; simp -zeta only [lx]; clear lx; rotate_right; clear_value lx; revert lx; refine kept_lock ?_; intro lx hlx)
    | (extract_lets +onlyGivenNames lx; clear_value lx; revert lx; refine kept_lock ?_; intro lx)
    | with_reducible apply State.setFld_kept
    | with_reducible apply kept_ite
    | with_reducible apply kept_foldl
    | simp -zeta only [kept_mk, keptF_fold]
    | split

theorem State.enterReady_kept (h : Half) (is : List Nat) {s : State} (hs : Kept pq va s) : Kept pq va (State.enterReady h is s) := by
  unfold State.enterReady
  repeat' first
    | with_reducible assumption
    | intro _
    | (extract_lets +onlyGivenNames lx; refine (fun (hlx : Kept pq va lx) => ?_ : Kept pq va lx → _) ?_; rotate_left; simp -zeta only [lx]; clear lx; rotate_right; clear_value lx; revert lx; refine kept_lock ?_; intro lx hlx)
    | (extract_lets +onlyGivenNames lx; clear_value lx; revert lx; refine kept_lock ?_; intro lx)
    | with_reducible apply State.cmbPeak_kept
    | with_reducible apply State.modRound_kept
    | with_reducible apply kept_ite
    | with_reducible apply kept_foldl
    | simp -zeta only [kept_mk, keptF_fold]
    | split

theorem State.countPlace_kept (h : Half) (i : Nat) (q : Nat) {s : State} (hs : Kept pq va s) : Kept pq va (State.countPlace h i q s) := by
  unfold State.countPlace
  repeat' first
    | with_reducible assumption
    | intro _
    | (extract_lets +onlyGivenNames lx; refine (fun (hlx : Kept pq va lx) => ?_ : Kept pq va lx → _) ?_; rotate_left; simp -zeta only [lx]; clear lx; rotate_right; clear_value lx; revert lx; refine kept_lock ?_; intro lx hlx)
    | (extract_lets +onlyGivenNames lx; clear_value lx; revert lx; refine kept_lock ?_; intro lx)
    | with_reducible apply State.enterReady_kept
    | with_reducible apply State.modTok_kept
    | with_reducible apply kept_ite
    | with_reducible apply kept_foldl
    | simp -zeta only [kept_mk, keptF_fold]
    | split

theorem State.weightCheck_kept (v : RoundView) (h : Half) (i : Nat) (q : Nat) (w : F32) (x : RTok) {s : State} (hs : Kept pq va s) : Kept pq va (State.weightCheck v h i q w x s) := by
  unfold State.weightCheck
  repeat' first
    | with_reducible assumption
    | intro _
    | (extract_lets +onlyGivenNames lx; refine (fun (hlx : Kept pq va lx) => ?_ : Kept pq va lx → _) ?_; rotate_left; simp -zeta only [lx]; clear lx; rotate_right; clear_value lx; revert lx; refine kept_lock ?_; intro lx hlx)
    | (extract_lets +onlyGivenNames lx; clear_value lx; revert lx; refine kept_lock ?_; intro lx)
    | with_reducible apply State.cmbFault_kept
    | with_reducible apply State.safe0_kept
    | with_reducible apply State.taintTok_kept
    | with_reducible apply kept_ite
    | with_reducible apply kept_foldl
    | simp -zeta only [kept_mk, keptF_fold]
    | split

theorem State.taintIn_kept (v : RoundView) (h : Half) (i : Nat) (q : Nat) (x : RTok) {s : State} (hs : Kept pq va s) : Kept pq va (State.taintIn v h i q x s) := by
  unfold State.taintIn
  repeat' first
    | with_reducible assumption
    | intro _
    | (extract_lets +onlyGivenNames lx; refine (fun (hlx : Kept pq va lx) => ?_ : Kept pq va lx → _) ?_; rotate_left; simp -zeta only [lx]; clear lx; rotate_right; clear_value lx; revert lx; refine kept_lock ?_; intro lx hlx)
    | (extract_lets +onlyGivenNames lx; clear_value lx; revert lx; refine kept_lock ?_; intro lx)
    | with_reducible apply State.cmbFault_kept
    | with_reducible apply State.modTok_kept
    | with_reducible apply kept_ite
    | with_reducible apply kept_foldl
    | simp -zeta only [kept_mk, keptF_fold]
    | split

theorem State.withholdLate_kept (v : RoundView) (h : Half) (x : RTok) (q : Nat) {s : State} (hs : Kept pq va s) : Kept pq va (State.withholdLate v h x q s) := by
  unfold State.withholdLate
  repeat' first
    | with_reducible assumption
    | intro _
    | (extract_lets +onlyGivenNames lx; refine (fun (hlx : Kept pq va lx) => ?_ : Kept pq va lx → _) ?_; rotate_left; simp -zeta only [lx]; clear lx; rotate_right; clear_value lx; revert lx; refine kept_lock ?_; intro lx hlx)
    | (extract_lets +onlyGivenNames lx; clear_value lx; revert lx; refine kept_lock ?_; intro lx)
    | with_reducible apply State.modRound_kept
    | with_reducible apply kept_ite
    | with_reducible apply kept_foldl
    | simp -zeta only [kept_mk, keptF_fold]
    | split

theorem State.fillLate_kept (v : RoundView) (h : Half) (i : Nat) (q : Nat) (x : RTok) {s : State} (hs : Kept pq va s) : Kept pq va (State.fillLate v h i q x s) := by
  unfold State.fillLate
  repeat' first
    | with_reducible assumption
    | intro _
    | (extract_lets +onlyGivenNames lx; refine (fun (hlx : Kept pq va lx) => ?_ : Kept pq va lx → _) ?_; rotate_left; simp -zeta only [lx]; clear lx; rotate_right; clear_value lx; revert lx; refine kept_lock ?_; intro lx hlx)
    | (extract_lets +onlyGivenNames lx; clear_value lx; revert lx; refine kept_lock ?_; intro lx)
    | with_reducible apply State.modTok_kept
    | with_reducible apply State.withholdLate_kept
    | with_reducible apply kept_ite
    | with_reducible apply kept_foldl
    | simp -zeta only [kept_mk, keptF_fold]
    | split

theorem State.dropRecord_kept (h : Half) (site : Option Nat) {s : State} (hs : Kept pq va s) : Kept pq va (State.dropRecord h site s) := by
  unfold State.dropRecord
  repeat' first
    | with_reducible assumption
    | intro _
    | (extract_lets +onlyGivenNames lx; refine (fun (hlx : Kept pq va lx) => ?_ : Kept pq va lx → _) ?_; rotate_left; simp -zeta only [lx]; clear lx; rotate_right; clear_value lx; revert lx; refine kept_lock ?_; intro lx hlx)
    | (extract_lets +onlyGivenNames lx; clear_value lx; revert lx; refine kept_lock ?_; intro lx)
    | with_reducible apply State.modRound_kept
    | with_reducible apply kept_ite
    | with_reducible apply kept_foldl
    | simp -zeta only [kept_mk, keptF_fold]
    | split

theorem State.fillPassed_kept (v : RoundView) (h : Half) (i : Nat) (q : Nat) (t : Tok) (x : RTok) (rec_ : List Byte) (taint : Bool) {s : State} (hs : Kept pq va s) : Kept pq va (State.fillPassed v h i q t x rec_ taint s) := by
  unfold State.fillPassed
  repeat' first
    | with_reducible assumption
    | intro _
    | (extract_lets +onlyGivenNames lx; refine (fun (hlx : Kept pq va lx) => ?_ : Kept pq va lx → _) ?_; rotate_left; simp -zeta only [lx]; clear lx; rotate_right; clear_value lx; revert lx; refine kept_lock ?_; intro lx hlx)
    | (extract_lets +onlyGivenNames lx; clear_value lx; revert lx; refine kept_lock ?_; intro lx)
    | with_reducible apply State.countPlace_kept
    | with_reducible apply State.failSeq_kept
    | with_reducible apply State.fillLate_kept
    | with_reducible apply State.taintIn_kept
    | with_reducible apply State.weightCheck_kept
    | with_reducible apply kept_ite
    | with_reducible apply kept_foldl
    | simp -zeta only [kept_mk, keptF_fold]
    | split

theorem State.fillPlace_kept (v : RoundView) (h : Half) (i : Nat) (q : Nat) (site : Option Nat) (rec_ : List Byte) (taint : Bool) {s : State} (hs : Kept pq va s) : Kept pq va (State.fillPlace v h i q site rec_ taint s) := by
  unfold State.fillPlace
  repeat' first
    | with_reducible assumption
    | intro _
    | (extract_lets +onlyGivenNames lx; refine (fun (hlx : Kept pq va lx) => ?_ : Kept pq va lx → _) ?_; rotate_left; simp -zeta only [lx]; clear lx; rotate_right; clear_value lx; revert lx; refine kept_lock ?_; intro lx hlx)
    | (extract_lets +onlyGivenNames lx; clear_value lx; revert lx; refine kept_lock ?_; intro lx)
    | with_reducible apply State.cmbFault_kept
    | with_reducible apply State.discardHandle_kept
    | with_reducible apply State.dropRecord_kept
    | with_reducible apply State.fillPassed_kept
    | with_reducible apply State.safe0_kept
    | with_reducible apply kept_ite
    | with_reducible apply kept_foldl
    | simp -zeta only [kept_mk, keptF_fold]
    | split

theorem State.localCopy_kept (h : Half) (i : Nat) (q : Nat) (rec_ : List Byte) (taint : Bool) {s : State} (hs : Kept pq va s) : Kept pq va (State.localCopy h i q rec_ taint s) := by
  unfold State.localCopy
  repeat' first
    | with_reducible assumption
    | intro _
    | (extract_lets +onlyGivenNames lx; refine (fun (hlx : Kept pq va lx) => ?_ : Kept pq va lx → _) ?_; rotate_left; simp -zeta only [lx]; clear lx; rotate_right; clear_value lx; revert lx; refine kept_lock ?_; intro lx hlx)
    | (extract_lets +onlyGivenNames lx; clear_value lx; revert lx; refine kept_lock ?_; intro lx)
    | with_reducible apply State.fillPlace_kept
    | with_reducible apply State.modRound_kept
    | with_reducible apply State.retCount_kept
    | with_reducible apply State.retWrite_kept
    | with_reducible apply kept_ite
    | with_reducible apply kept_foldl
    | simp -zeta only [kept_mk, keptF_fold]
    | split

theorem State.returnComplete_kept (h : Half) (site : Nat) (tag : W64) {s : State} (hs : Kept pq va s) : Kept pq va (State.returnComplete h site tag s) := by
  unfold State.returnComplete
  repeat' first
    | with_reducible assumption
    | intro _
    | (extract_lets +onlyGivenNames lx; refine (fun (hlx : Kept pq va lx) => ?_ : Kept pq va lx → _) ?_; rotate_left; simp -zeta only [lx]; clear lx; rotate_right; clear_value lx; revert lx; refine kept_lock ?_; intro lx hlx)
    | (extract_lets +onlyGivenNames lx; clear_value lx; revert lx; refine kept_lock ?_; intro lx)
    | with_reducible apply State.chunkFault_kept
    | with_reducible apply State.modRound_kept
    | with_reducible apply State.sendAck_kept
    | with_reducible apply kept_ite
    | with_reducible apply kept_foldl
    | simp -zeta only [kept_mk, keptF_fold]
    | split

theorem State.returnHeader_kept (v : RoundView) (h : Half) (site : Nat) (hd : BarrowHdr) {s : State} (hs : Kept pq va s) : Kept pq va (State.returnHeader v h site hd s) := by
  unfold State.returnHeader
  repeat' first
    | with_reducible assumption
    | intro _
    | (extract_lets +onlyGivenNames lx; refine (fun (hlx : Kept pq va lx) => ?_ : Kept pq va lx → _) ?_; rotate_left; simp -zeta only [lx]; clear lx; rotate_right; clear_value lx; revert lx; refine kept_lock ?_; intro lx hlx)
    | (extract_lets +onlyGivenNames lx; clear_value lx; revert lx; refine kept_lock ?_; intro lx)
    | with_reducible apply State.markLate_kept
    | with_reducible apply State.modRound_kept
    | with_reducible apply State.returnComplete_kept
    | with_reducible apply kept_ite
    | with_reducible apply kept_foldl
    | simp -zeta only [kept_mk, keptF_fold]
    | split

theorem State.returnPart_kept (v : RoundView) (h : Half) (site : Nat) (q : Nat) (tag : W64) (bytes : List Byte) (ok : Bool) {s : State} (hs : Kept pq va s) : Kept pq va (State.returnPart v h site q tag bytes ok s) := by
  unfold State.returnPart
  repeat' first
    | with_reducible assumption
    | intro _
    | (extract_lets +onlyGivenNames lx; refine (fun (hlx : Kept pq va lx) => ?_ : Kept pq va lx → _) ?_; rotate_left; simp -zeta only [lx]; clear lx; rotate_right; clear_value lx; revert lx; refine kept_lock ?_; intro lx hlx)
    | (extract_lets +onlyGivenNames lx; clear_value lx; revert lx; refine kept_lock ?_; intro lx)
    | with_reducible apply State.fillPlace_kept
    | with_reducible apply State.modRound_kept
    | with_reducible apply State.modTok_kept
    | with_reducible apply State.retCount_kept
    | with_reducible apply State.retWrite_kept
    | with_reducible apply State.returnComplete_kept
    | with_reducible apply kept_ite
    | with_reducible apply kept_foldl
    | simp -zeta only [kept_mk, keptF_fold]
    | split

theorem State.returnRetry_kept (h : Half) (t : Option Nat) {s : State} (hs : Kept pq va s) : Kept pq va (State.returnRetry h t s) := by
  unfold State.returnRetry
  repeat' first
    | with_reducible assumption
    | intro _
    | (extract_lets +onlyGivenNames lx; refine (fun (hlx : Kept pq va lx) => ?_ : Kept pq va lx → _) ?_; rotate_left; simp -zeta only [lx]; clear lx; rotate_right; clear_value lx; revert lx; refine kept_lock ?_; intro lx hlx)
    | (extract_lets +onlyGivenNames lx; clear_value lx; revert lx; refine kept_lock ?_; intro lx)
    | with_reducible apply State.modRound_kept
    | with_reducible apply kept_ite
    | with_reducible apply kept_foldl
    | simp -zeta only [kept_mk, keptF_fold]
    | split

theorem State.returnTake_kept (v : RoundView) (h : Half) (site : Nat) (q : Option Nat) (tag : W64) (bytes : List Byte) (ok : Bool) {s : State} (hs : Kept pq va s) : Kept pq va (State.returnTake v h site q tag bytes ok s) := by
  unfold State.returnTake
  repeat' first
    | with_reducible assumption
    | intro _
    | (extract_lets +onlyGivenNames lx; refine (fun (hlx : Kept pq va lx) => ?_ : Kept pq va lx → _) ?_; rotate_left; simp -zeta only [lx]; clear lx; rotate_right; clear_value lx; revert lx; refine kept_lock ?_; intro lx hlx)
    | (extract_lets +onlyGivenNames lx; clear_value lx; revert lx; refine kept_lock ?_; intro lx)
    | with_reducible apply State.bellSkew_kept
    | with_reducible apply State.returnHeader_kept
    | with_reducible apply State.returnPart_kept
    | with_reducible apply kept_ite
    | with_reducible apply kept_foldl
    | simp -zeta only [kept_mk, keptF_fold]
    | split

theorem State.returnLive_kept (v : RoundView) (h : Half) (src : Node) (tag : W64) (bytes : List Byte) (crc : BitVec 32) {s : State} (hs : Kept pq va s) : Kept pq va (State.returnLive v h src tag bytes crc s) := by
  unfold State.returnLive
  repeat' first
    | with_reducible assumption
    | intro _
    | (extract_lets +onlyGivenNames lx; refine (fun (hlx : Kept pq va lx) => ?_ : Kept pq va lx → _) ?_; rotate_left; simp -zeta only [lx]; clear lx; rotate_right; clear_value lx; revert lx; refine kept_lock ?_; intro lx hlx)
    | (extract_lets +onlyGivenNames lx; clear_value lx; revert lx; refine kept_lock ?_; intro lx)
    | with_reducible apply State.chunkFault_kept
    | with_reducible apply State.cmbFault_kept
    | with_reducible apply State.crcFault_kept
    | with_reducible apply State.modRound_kept
    | with_reducible apply State.returnRetry_kept
    | with_reducible apply State.returnTake_kept
    | with_reducible apply State.safe0_kept
    | with_reducible apply kept_ite
    | with_reducible apply kept_foldl
    | simp -zeta only [kept_mk, keptF_fold]
    | split

theorem State.returnStale_kept (v : RoundView) (h : Half) (tag : W64) {s : State} (hs : Kept pq va s) : Kept pq va (State.returnStale v h tag s) := by
  unfold State.returnStale
  repeat' first
    | with_reducible assumption
    | intro _
    | (extract_lets +onlyGivenNames lx; refine (fun (hlx : Kept pq va lx) => ?_ : Kept pq va lx → _) ?_; rotate_left; simp -zeta only [lx]; clear lx; rotate_right; clear_value lx; revert lx; refine kept_lock ?_; intro lx hlx)
    | (extract_lets +onlyGivenNames lx; clear_value lx; revert lx; refine kept_lock ?_; intro lx)
    | with_reducible apply State.cmbFault_kept
    | with_reducible apply State.modRound_kept
    | with_reducible apply kept_ite
    | with_reducible apply kept_foldl
    | simp -zeta only [kept_mk, keptF_fold]
    | split

theorem State.returnNowhere_kept (h : Half) (tag : W64) {s : State} (hs : Kept pq va s) : Kept pq va (State.returnNowhere h tag s) := by
  unfold State.returnNowhere
  repeat' first
    | with_reducible assumption
    | intro _
    | (extract_lets +onlyGivenNames lx; refine (fun (hlx : Kept pq va lx) => ?_ : Kept pq va lx → _) ?_; rotate_left; simp -zeta only [lx]; clear lx; rotate_right; clear_value lx; revert lx; refine kept_lock ?_; intro lx hlx)
    | (extract_lets +onlyGivenNames lx; clear_value lx; revert lx; refine kept_lock ?_; intro lx)
    | with_reducible apply State.cmbFault_kept
    | with_reducible apply State.safe0_kept
    | with_reducible apply kept_ite
    | with_reducible apply kept_foldl
    | simp -zeta only [kept_mk, keptF_fold]
    | split

theorem State.setOpenReturn_kept (h : Half) (o : OpenReturn) (n : Option OpenReturn) {s : State} (hs : Kept pq va s) : Kept pq va (State.setOpenReturn h o n s) := by
  unfold State.setOpenReturn
  repeat' first
    | with_reducible assumption
    | intro _
    | (extract_lets +onlyGivenNames lx; refine (fun (hlx : Kept pq va lx) => ?_ : Kept pq va lx → _) ?_; rotate_left; simp -zeta only [lx]; clear lx; rotate_right; clear_value lx; revert lx; refine kept_lock ?_; intro lx hlx)
    | (extract_lets +onlyGivenNames lx; clear_value lx; revert lx; refine kept_lock ?_; intro lx)
    | with_reducible apply State.setHalf_kept
    | with_reducible apply kept_ite
    | with_reducible apply kept_foldl
    | simp -zeta only [kept_mk, keptF_fold]
    | split

theorem State.lateHeader_kept (h : Half) (o : OpenReturn) (tag : W64) (bytes : List Byte) (crc : BitVec 32) {s : State} (hs : Kept pq va s) : Kept pq va (State.lateHeader h o tag bytes crc s) := by
  unfold State.lateHeader
  repeat' first
    | with_reducible assumption
    | intro _
    | (extract_lets +onlyGivenNames lx; refine (fun (hlx : Kept pq va lx) => ?_ : Kept pq va lx → _) ?_; rotate_left; simp -zeta only [lx]; clear lx; rotate_right; clear_value lx; revert lx; refine kept_lock ?_; intro lx hlx)
    | (extract_lets +onlyGivenNames lx; clear_value lx; revert lx; refine kept_lock ?_; intro lx)
    | with_reducible apply State.bellSkew_kept
    | with_reducible apply State.chunkFault_kept
    | with_reducible apply State.crcFault_kept
    | with_reducible apply State.dispFault_kept
    | with_reducible apply State.safeReport_kept
    | with_reducible apply State.sendAck_kept
    | with_reducible apply State.setOpenReturn_kept
    | with_reducible apply State.suspect_kept
    | with_reducible apply kept_ite
    | with_reducible apply kept_foldl
    | simp -zeta only [kept_mk, keptF_fold]
    | split

theorem State.lastStale_kept (h : Half) (bell : Nat) (layer : Nat) {s : State} (hs : Kept pq va s) : Kept pq va (State.lastStale h bell layer s) := by
  unfold State.lastStale
  repeat' first
    | with_reducible assumption
    | intro _
    | (extract_lets +onlyGivenNames lx; refine (fun (hlx : Kept pq va lx) => ?_ : Kept pq va lx → _) ?_; rotate_left; simp -zeta only [lx]; clear lx; rotate_right; clear_value lx; revert lx; refine kept_lock ?_; intro lx hlx)
    | (extract_lets +onlyGivenNames lx; clear_value lx; revert lx; refine kept_lock ?_; intro lx)
    | with_reducible apply State.setHalf_kept
    | with_reducible apply kept_ite
    | with_reducible apply kept_foldl
    | simp -zeta only [kept_mk, keptF_fold]
    | split

theorem State.staleChunk_kept (h : Half) (bell : Nat) (layer : Nat) (handles : List W64) (tag : W64) {s : State} (hs : Kept pq va s) : Kept pq va (State.staleChunk h bell layer handles tag s) := by
  unfold State.staleChunk
  repeat' first
    | with_reducible assumption
    | intro _
    | (extract_lets +onlyGivenNames lx; refine (fun (hlx : Kept pq va lx) => ?_ : Kept pq va lx → _) ?_; rotate_left; simp -zeta only [lx]; clear lx; rotate_right; clear_value lx; revert lx; refine kept_lock ?_; intro lx hlx)
    | (extract_lets +onlyGivenNames lx; clear_value lx; revert lx; refine kept_lock ?_; intro lx)
    | with_reducible apply State.cmbFault_kept
    | with_reducible apply State.lastStale_kept
    | with_reducible apply kept_ite
    | with_reducible apply kept_foldl
    | simp -zeta only [kept_mk, keptF_fold]
    | split

theorem State.returnOpen_kept (h : Half) (o : OpenReturn) (tag : W64) (bytes : List Byte) (crc : BitVec 32) {s : State} (hs : Kept pq va s) : Kept pq va (State.returnOpen h o tag bytes crc s) := by
  unfold State.returnOpen
  repeat' first
    | with_reducible assumption
    | intro _
    | (extract_lets +onlyGivenNames lx; refine (fun (hlx : Kept pq va lx) => ?_ : Kept pq va lx → _) ?_; rotate_left; simp -zeta only [lx]; clear lx; rotate_right; clear_value lx; revert lx; refine kept_lock ?_; intro lx hlx)
    | (extract_lets +onlyGivenNames lx; clear_value lx; revert lx; refine kept_lock ?_; intro lx)
    | with_reducible apply State.lateHeader_kept
    | with_reducible apply State.setOpenReturn_kept
    | with_reducible apply State.staleChunk_kept
    | with_reducible apply kept_ite
    | with_reducible apply kept_foldl
    | simp -zeta only [kept_mk, keptF_fold]
    | split

theorem State.returnAgain_kept (src : Node) (tag : W64) (bytes : List Byte) (crc : BitVec 32) (h : Half) {s : State} (hs : Kept pq va s) : Kept pq va (State.returnAgain src tag bytes crc h s) := by
  unfold State.returnAgain
  repeat' first
    | with_reducible assumption
    | intro _
    | (extract_lets +onlyGivenNames lx; refine (fun (hlx : Kept pq va lx) => ?_ : Kept pq va lx → _) ?_; rotate_left; simp -zeta only [lx]; clear lx; rotate_right; clear_value lx; revert lx; refine kept_lock ?_; intro lx hlx)
    | (extract_lets +onlyGivenNames lx; clear_value lx; revert lx; refine kept_lock ?_; intro lx)
    | with_reducible apply State.chunkFault_kept
    | with_reducible apply State.crcFault_kept
    | with_reducible apply State.returnNowhere_kept
    | with_reducible apply State.staleChunk_kept
    | with_reducible apply kept_ite
    | with_reducible apply kept_foldl
    | simp -zeta only [kept_mk, keptF_fold]
    | split

theorem State.returnChunk_kept (src : Node) (tag : W64) (bytes : List Byte) (crc : BitVec 32) {s : State} (hs : Kept pq va s) : Kept pq va (State.returnChunk src tag bytes crc s) := by
  unfold State.returnChunk
  repeat' first
    | with_reducible assumption
    | intro _
    | (extract_lets +onlyGivenNames lx; refine (fun (hlx : Kept pq va lx) => ?_ : Kept pq va lx → _) ?_; rotate_left; simp -zeta only [lx]; clear lx; rotate_right; clear_value lx; revert lx; refine kept_lock ?_; intro lx hlx)
    | (extract_lets +onlyGivenNames lx; clear_value lx; revert lx; refine kept_lock ?_; intro lx)
    | with_reducible apply State.cmbFault_kept
    | with_reducible apply State.lifeAdd_kept
    | with_reducible apply State.returnLive_kept
    | with_reducible apply State.returnStale_kept
    | with_reducible apply State.safe0_kept
    | with_reducible apply State.tallyAdd_kept
    | with_reducible apply State.returnOpen_kept
    | with_reducible apply State.returnAgain_kept
    | with_reducible apply kept_ite
    | with_reducible apply kept_foldl
    | simp -zeta only [kept_mk, keptF_fold]
    | split

theorem State.takeTok_kept (src : Node) (tag : W64) {s : State} (hs : Kept pq va s) : Kept pq va (State.takeTok src tag s).2 := by
  unfold State.takeTok
  repeat' first
    | with_reducible assumption
    | intro _
    | (extract_lets +onlyGivenNames lx; refine (fun (hlx : Kept pq va lx) => ?_ : Kept pq va lx → _) ?_; rotate_left; simp -zeta only [lx]; clear lx; rotate_right; clear_value lx; revert lx; refine kept_lock ?_; intro lx hlx)
    | (extract_lets +onlyGivenNames lx; clear_value lx; revert lx; refine kept_lock ?_; intro lx)
    | with_reducible apply kept_ite
    | with_reducible apply kept_foldl
    | simp -zeta only [kept_mk, keptF_fold]
    | split

theorem State.takeTok_kept' {src : Node} {tag : W64} {s : State}  {r : _} {t : State} (he : State.takeTok src tag s = (r, t)) (hs : Kept pq va s) : Kept pq va t := by
  have := State.takeTok_kept src tag hs
  rwa [he] at this

theorem execReturnChunkReceive_kept (src : Node) (tag : W64) (bytes : List Byte) (crc : BitVec 32) {s : State} (hs : Kept pq va s) : KeptOut pq va (execReturnChunkReceive src tag bytes crc s) := by
  unfold execReturnChunkReceive
  repeat' first
    | with_reducible assumption
    | intro _
    | (extract_lets +onlyGivenNames lx; refine (fun (hlx : Kept pq va lx) => ?_ : Kept pq va lx → _) ?_; rotate_left; simp -zeta only [lx]; clear lx; rotate_right; clear_value lx; revert lx; refine kept_lock ?_; intro lx hlx)
    | (extract_lets +onlyGivenNames lx; clear_value lx; revert lx; refine kept_lock ?_; intro lx)
    | with_reducible apply keptOut_next
    | with_reducible apply keptOut_ite
    | with_reducible apply State.returnChunk_kept
    | with_reducible apply State.takeTok_kept
    | with_reducible apply kept_ite
    | with_reducible apply kept_foldl
    | simp -zeta only [kept_mk, keptF_fold]
    | split
    | (with_reducible refine State.takeTok_kept' (by with_reducible assumption) ?_)

theorem State.ledger4_kept (h : Half) (r : Round) {s : State} (hs : Kept pq va s) : Kept pq va (State.ledger4 h r s) := by
  unfold State.ledger4
  repeat' first
    | with_reducible assumption
    | intro _
    | (extract_lets +onlyGivenNames lx; refine (fun (hlx : Kept pq va lx) => ?_ : Kept pq va lx → _) ?_; rotate_left; simp -zeta only [lx]; clear lx; rotate_right; clear_value lx; revert lx; refine kept_lock ?_; intro lx hlx)
    | (extract_lets +onlyGivenNames lx; clear_value lx; revert lx; refine kept_lock ?_; intro lx)
    | with_reducible apply State.ledgerBreak_kept
    | with_reducible apply State.taintHalf_kept
    | with_reducible apply kept_ite
    | with_reducible apply kept_foldl
    | simp -zeta only [kept_mk, keptF_fold]
    | split

theorem State.fwdAcked_kept (h : Half) (site : Nat) {s : State} (hs : Kept pq va s) : Kept pq va (State.fwdAcked h site s) := by
  unfold State.fwdAcked
  repeat' first
    | with_reducible assumption
    | intro _
    | (extract_lets +onlyGivenNames lx; refine (fun (hlx : Kept pq va lx) => ?_ : Kept pq va lx → _) ?_; rotate_left; simp -zeta only [lx]; clear lx; rotate_right; clear_value lx; revert lx; refine kept_lock ?_; intro lx hlx)
    | (extract_lets +onlyGivenNames lx; clear_value lx; revert lx; refine kept_lock ?_; intro lx)
    | with_reducible apply State.ledger4_kept
    | with_reducible apply State.modRound_kept
    | with_reducible apply kept_ite
    | with_reducible apply kept_foldl
    | simp -zeta only [kept_mk, keptF_fold]
    | split

theorem State.giveUp_kept (h : Half) (i : Nat) {s : State} (hs : Kept pq va s) : Kept pq va (State.giveUp h i s) := by
  unfold State.giveUp
  repeat' first
    | with_reducible assumption
    | intro _
    | (extract_lets +onlyGivenNames lx; refine (fun (hlx : Kept pq va lx) => ?_ : Kept pq va lx → _) ?_; rotate_left; simp -zeta only [lx]; clear lx; rotate_right; clear_value lx; revert lx; refine kept_lock ?_; intro lx hlx)
    | (extract_lets +onlyGivenNames lx; clear_value lx; revert lx; refine kept_lock ?_; intro lx)
    | with_reducible apply State.enterReady_kept
    | with_reducible apply State.modTok_kept
    | with_reducible apply kept_ite
    | with_reducible apply kept_foldl
    | simp -zeta only [kept_mk, keptF_fold]
    | split

theorem execReturnTimeout_kept (half : Half) {s : State} (hs : Kept pq va s) : KeptOut pq va (execReturnTimeout half s) := by
  unfold execReturnTimeout
  repeat' first
    | with_reducible assumption
    | intro _
    | (extract_lets +onlyGivenNames lx; refine (fun (hlx : Kept pq va lx) => ?_ : Kept pq va lx → _) ?_; rotate_left; simp -zeta only [lx]; clear lx; rotate_right; clear_value lx; revert lx; refine kept_lock ?_; intro lx hlx)
    | (extract_lets +onlyGivenNames lx; clear_value lx; revert lx; refine kept_lock ?_; intro lx)
    | with_reducible apply keptOut_next
    | with_reducible apply keptOut_ite
    | with_reducible apply State.cmbFault_kept
    | with_reducible apply State.giveUp_kept
    | with_reducible apply State.lateMargin_kept
    | with_reducible apply State.lostDup_kept
    | with_reducible apply State.modRound_kept
    | with_reducible apply kept_ite
    | with_reducible apply kept_foldl
    | simp -zeta only [kept_mk, keptF_fold]
    | split

theorem State.freeGathers_kept (h : Half) {s : State} (hs : Kept pq va s) : Kept pq va (State.freeGathers h s) := by
  unfold State.freeGathers
  repeat' first
    | with_reducible assumption
    | intro _
    | (extract_lets +onlyGivenNames lx; refine (fun (hlx : Kept pq va lx) => ?_ : Kept pq va lx → _) ?_; rotate_left; simp -zeta only [lx]; clear lx; rotate_right; clear_value lx; revert lx; refine kept_lock ?_; intro lx hlx)
    | (extract_lets +onlyGivenNames lx; clear_value lx; revert lx; refine kept_lock ?_; intro lx)
    | with_reducible apply State.freeBuf_kept
    | with_reducible apply kept_ite
    | with_reducible apply kept_foldl
    | simp -zeta only [kept_mk, keptF_fold]
    | split

theorem State.issueTok_kept (v : RoundView) (h : Half) (i : Nat) (x : RTok) (vec : List Byte) (bad : Bool) (n : Nat) {s : State} (hs : Kept pq va s) : Kept pq va (State.issueTok v h i x vec bad n s) := by
  unfold State.issueTok
  repeat' first
    | with_reducible assumption
    | intro _
    | (extract_lets +onlyGivenNames lx; refine (fun (hlx : Kept pq va lx) => ?_ : Kept pq va lx → _) ?_; rotate_left; simp -zeta only [lx]; clear lx; rotate_right; clear_value lx; revert lx; refine kept_lock ?_; intro lx hlx)
    | (extract_lets +onlyGivenNames lx; clear_value lx; revert lx; refine kept_lock ?_; intro lx)
    | with_reducible apply State.freeGathers_kept
    | with_reducible apply State.lifeAdd_kept
    | with_reducible apply State.modRound_kept
    | with_reducible apply State.modTok_kept
    | with_reducible apply State.tallyAdd_kept
    | with_reducible apply State.writeRecord_kept
    | with_reducible apply kept_ite
    | with_reducible apply kept_foldl
    | simp -zeta only [kept_mk, keptF_fold]
    | split

theorem execTokenCombine_kept (half : Half) (fault : CombineFault) {s : State} (hs : Kept pq va s) : KeptOut pq va (execTokenCombine half fault s) := by
  unfold execTokenCombine
  repeat' first
    | with_reducible assumption
    | intro _
    | (extract_lets +onlyGivenNames lx; refine (fun (hlx : Kept pq va lx) => ?_ : Kept pq va lx → _) ?_; rotate_left; simp -zeta only [lx]; clear lx; rotate_right; clear_value lx; revert lx; refine kept_lock ?_; intro lx hlx)
    | (extract_lets +onlyGivenNames lx; clear_value lx; revert lx; refine kept_lock ?_; intro lx)
    | with_reducible apply keptOut_next
    | with_reducible apply keptOut_ite
    | with_reducible apply State.cmbFault_kept
    | with_reducible apply State.issueTok_kept
    | with_reducible apply State.modRound_kept
    | with_reducible apply State.safe0_kept
    | with_reducible apply State.taintTok_kept
    | with_reducible apply State.tallyAdd_kept
    | with_reducible apply kept_ite
    | with_reducible apply kept_foldl
    | simp -zeta only [kept_mk, keptF_fold]
    | split

theorem State.ledger6_kept (v : RoundView) (h : Half) {s : State} (hs : Kept pq va s) : Kept pq va (State.ledger6 v h s) := by
  unfold State.ledger6
  repeat' first
    | with_reducible assumption
    | intro _
    | (extract_lets +onlyGivenNames lx; refine (fun (hlx : Kept pq va lx) => ?_ : Kept pq va lx → _) ?_; rotate_left; simp -zeta only [lx]; clear lx; rotate_right; clear_value lx; revert lx; refine kept_lock ?_; intro lx hlx)
    | (extract_lets +onlyGivenNames lx; clear_value lx; revert lx; refine kept_lock ?_; intro lx)
    | with_reducible apply State.ledgerBreak_kept
    | with_reducible apply State.taintHalf_kept
    | with_reducible apply kept_ite
    | with_reducible apply kept_foldl
    | simp -zeta only [kept_mk, keptF_fold]
    | split

theorem State.ledger7_kept (v : RoundView) (h : Half) {s : State} (hs : Kept pq va s) : Kept pq va (State.ledger7 v h s) := by
  unfold State.ledger7
  repeat' first
    | with_reducible assumption
    | intro _
    | (extract_lets +onlyGivenNames lx; refine (fun (hlx : Kept pq va lx) => ?_ : Kept pq va lx → _) ?_; rotate_left; simp -zeta only [lx]; clear lx; rotate_right; clear_value lx; revert lx; refine kept_lock ?_; intro lx hlx)
    | (extract_lets +onlyGivenNames lx; clear_value lx; revert lx; refine kept_lock ?_; intro lx)
    | with_reducible apply State.ledgerBreak_kept
    | with_reducible apply State.taintHalf_kept
    | with_reducible apply kept_ite
    | with_reducible apply kept_foldl
    | simp -zeta only [kept_mk, keptF_fold]
    | split

theorem State.roundLedger_kept (v : RoundView) (h : Half) {s : State} (hs : Kept pq va s) : Kept pq va (State.roundLedger v h s) := by
  unfold State.roundLedger
  repeat' first
    | with_reducible assumption
    | intro _
    | (extract_lets +onlyGivenNames lx; refine (fun (hlx : Kept pq va lx) => ?_ : Kept pq va lx → _) ?_; rotate_left; simp -zeta only [lx]; clear lx; rotate_right; clear_value lx; revert lx; refine kept_lock ?_; intro lx hlx)
    | (extract_lets +onlyGivenNames lx; clear_value lx; revert lx; refine kept_lock ?_; intro lx)
    | with_reducible apply State.ledger6_kept
    | with_reducible apply State.ledger7_kept
    | with_reducible apply State.modRound_kept
    | with_reducible apply kept_ite
    | with_reducible apply kept_foldl
    | simp -zeta only [kept_mk, keptF_fold]
    | split

theorem State.withholdRecord_kept (h : Half) (i : Nat) (late : Bool) {s : State} (hs : Kept pq va s) : Kept pq va (State.withholdRecord h i late s) := by
  unfold State.withholdRecord
  repeat' first
    | with_reducible assumption
    | intro _
    | (extract_lets +onlyGivenNames lx; refine (fun (hlx : Kept pq va lx) => ?_ : Kept pq va lx → _) ?_; rotate_left; simp -zeta only [lx]; clear lx; rotate_right; clear_value lx; revert lx; refine kept_lock ?_; intro lx hlx)
    | (extract_lets +onlyGivenNames lx; clear_value lx; revert lx; refine kept_lock ?_; intro lx)
    | with_reducible apply State.modTok_kept
    | with_reducible apply State.writeRecord_kept
    | with_reducible apply kept_ite
    | with_reducible apply kept_foldl
    | simp -zeta only [kept_mk, keptF_fold]
    | split

theorem State.layerRings_kept (h : Half) (a : AdmSet) (r : Round) {s : State} (hs : Kept pq va s) : Kept pq va (State.layerRings h a r s) := by
  unfold State.layerRings
  repeat' first
    | with_reducible assumption
    | intro _
    | (extract_lets +onlyGivenNames lx; refine (fun (hlx : Kept pq va lx) => ?_ : Kept pq va lx → _) ?_; rotate_left; simp -zeta only [lx]; clear lx; rotate_right; clear_value lx; revert lx; refine kept_lock ?_; intro lx hlx)
    | (extract_lets +onlyGivenNames lx; clear_value lx; revert lx; refine kept_lock ?_; intro lx)
    | with_reducible apply State.release_kept
    | with_reducible apply State.ringLayerOut_kept
    | with_reducible apply State.tallyAdd_kept
    | with_reducible apply kept_ite
    | with_reducible apply kept_foldl
    | simp -zeta only [kept_mk, keptF_fold]
    | split

theorem State.layerEnd_kept (h : Half) (a : AdmSet) (r : Round) {s : State} (hs : Kept pq va s) : Kept pq va (State.layerEnd h a r s) := by
  unfold State.layerEnd
  repeat' first
    | with_reducible assumption
    | intro _
    | (extract_lets +onlyGivenNames lx; refine (fun (hlx : Kept pq va lx) => ?_ : Kept pq va lx → _) ?_; rotate_left; simp -zeta only [lx]; clear lx; rotate_right; clear_value lx; revert lx; refine kept_lock ?_; intro lx hlx)
    | (extract_lets +onlyGivenNames lx; clear_value lx; revert lx; refine kept_lock ?_; intro lx)
    | with_reducible apply State.layerRings_kept
    | with_reducible apply State.markLate_kept
    | with_reducible apply kept_ite
    | with_reducible apply kept_foldl
    | simp -zeta only [kept_mk, keptF_fold]
    | split

theorem execLayerOut_kept (half : Half) {s : State} (hs : Kept pq va s) : KeptOut pq va (execLayerOut half s) := by
  unfold execLayerOut
  repeat' first
    | with_reducible assumption
    | intro _
    | (extract_lets +onlyGivenNames lx; refine (fun (hlx : Kept pq va lx) => ?_ : Kept pq va lx → _) ?_; rotate_left; simp -zeta only [lx]; clear lx; rotate_right; clear_value lx; revert lx; refine kept_lock ?_; intro lx hlx)
    | (extract_lets +onlyGivenNames lx; clear_value lx; revert lx; refine kept_lock ?_; intro lx)
    | with_reducible apply keptOut_next
    | with_reducible apply keptOut_ite
    | with_reducible apply State.layerEnd_kept
    | with_reducible apply State.roundLedger_kept
    | with_reducible apply State.withholdRecord_kept
    | with_reducible apply kept_ite
    | with_reducible apply kept_foldl
    | simp -zeta only [kept_mk, keptF_fold]
    | split

end Sys2Proof.Machine
end

