-- ==== Sys2Proof/Laws/Tiles.lean ====
section
/-! SUPPORT. What each operation of Machine/Tiles.lean keeps (Laws/Kept.lean). -/
set_option linter.all false
namespace Sys2Proof.Machine

variable {pq : List Instr} {va : Bool}

theorem State.setSite_kept (h : Half) (x : SiteHalf) {s : State} (hs : Kept pq va s) : Kept pq va (State.setSite h x s) := by
  unfold State.setSite
  repeat' first
    | with_reducible assumption
    | intro _
    | (extract_lets +onlyGivenNames lx; refine (fun (hlx : Kept pq va lx) => ?_ : Kept pq va lx → _) ?_; rotate_left; simp -zeta only [lx]; clear lx; rotate_right; clear_value lx; revert lx; refine kept_lock ?_; intro lx hlx)
    | (extract_lets +onlyGivenNames lx; clear_value lx; revert lx; refine kept_lock ?_; intro lx)
    | with_reducible apply kept_ite
    | with_reducible apply kept_foldl
    | simp -zeta only [kept_mk, keptF_fold]
    | split

theorem State.modSite_kept (h : Half) (f : SiteHalf → SiteHalf) {s : State} (hs : Kept pq va s) : Kept pq va (State.modSite h f s) := by
  unfold State.modSite
  repeat' first
    | with_reducible assumption
    | intro _
    | (extract_lets +onlyGivenNames lx; refine (fun (hlx : Kept pq va lx) => ?_ : Kept pq va lx → _) ?_; rotate_left; simp -zeta only [lx]; clear lx; rotate_right; clear_value lx; revert lx; refine kept_lock ?_; intro lx hlx)
    | (extract_lets +onlyGivenNames lx; clear_value lx; revert lx; refine kept_lock ?_; intro lx)
    | with_reducible apply State.setSite_kept
    | with_reducible apply kept_ite
    | with_reducible apply kept_foldl
    | simp -zeta only [kept_mk, keptF_fold]
    | split

theorem State.setStall_kept (h : Half) (x : StallHalf) {s : State} (hs : Kept pq va s) : Kept pq va (State.setStall h x s) := by
  unfold State.setStall
  repeat' first
    | with_reducible assumption
    | intro _
    | (extract_lets +onlyGivenNames lx; refine (fun (hlx : Kept pq va lx) => ?_ : Kept pq va lx → _) ?_; rotate_left; simp -zeta only [lx]; clear lx; rotate_right; clear_value lx; revert lx; refine kept_lock ?_; intro lx hlx)
    | (extract_lets +onlyGivenNames lx; clear_value lx; revert lx; refine kept_lock ?_; intro lx)
    | with_reducible apply State.modSite_kept
    | with_reducible apply kept_ite
    | with_reducible apply kept_foldl
    | simp -zeta only [kept_mk, keptF_fold]
    | split

theorem State.setRegion_kept (h : Half) (fs : List Nat) {s : State} (hs : Kept pq va s) : Kept pq va (State.setRegion h fs s) := by
  unfold State.setRegion
  repeat' first
    | with_reducible assumption
    | intro _
    | (extract_lets +onlyGivenNames lx; refine (fun (hlx : Kept pq va lx) => ?_ : Kept pq va lx → _) ?_; rotate_left; simp -zeta only [lx]; clear lx; rotate_right; clear_value lx; revert lx; refine kept_lock ?_; intro lx hlx)
    | (extract_lets +onlyGivenNames lx; clear_value lx; revert lx; refine kept_lock ?_; intro lx)
    | with_reducible apply kept_ite
    | with_reducible apply kept_foldl
    | simp -zeta only [kept_mk, keptF_fold]
    | split

theorem State.layRegion_kept (h : Half) {s : State} (hs : Kept pq va s) : Kept pq va (State.layRegion h s) := by
  unfold State.layRegion
  repeat' first
    | with_reducible assumption
    | intro _
    | (extract_lets +onlyGivenNames lx; refine (fun (hlx : Kept pq va lx) => ?_ : Kept pq va lx → _) ?_; rotate_left; simp -zeta only [lx]; clear lx; rotate_right; clear_value lx; revert lx; refine kept_lock ?_; intro lx hlx)
    | (extract_lets +onlyGivenNames lx; clear_value lx; revert lx; refine kept_lock ?_; intro lx)
    | with_reducible apply State.dropFrames_kept
    | with_reducible apply State.setRegion_kept
    | with_reducible apply State.takeFrames_kept
    | with_reducible apply kept_ite
    | with_reducible apply kept_foldl
    | simp -zeta only [kept_mk, keptF_fold]
    | split
    | (with_reducible refine State.takeFrames_kept' (by with_reducible assumption) ?_)

theorem State.layRegions_kept {s : State} (hs : Kept pq va s) : Kept pq va (State.layRegions s) := by
  unfold State.layRegions
  repeat' first
    | with_reducible assumption
    | intro _
    | (extract_lets +onlyGivenNames lx; refine (fun (hlx : Kept pq va lx) => ?_ : Kept pq va lx → _) ?_; rotate_left; simp -zeta only [lx]; clear lx; rotate_right; clear_value lx; revert lx; refine kept_lock ?_; intro lx hlx)
    | (extract_lets +onlyGivenNames lx; clear_value lx; revert lx; refine kept_lock ?_; intro lx)
    | with_reducible apply State.layRegion_kept
    | with_reducible apply kept_ite
    | with_reducible apply kept_foldl
    | simp -zeta only [kept_mk, keptF_fold]
    | split

theorem State.regionDue_kept (h : Half) {s : State} (hs : Kept pq va s) : Kept pq va (State.regionDue h s) := by
  unfold State.regionDue
  repeat' first
    | with_reducible assumption
    | intro _
    | (extract_lets +onlyGivenNames lx; refine (fun (hlx : Kept pq va lx) => ?_ : Kept pq va lx → _) ?_; rotate_left; simp -zeta only [lx]; clear lx; rotate_right; clear_value lx; revert lx; refine kept_lock ?_; intro lx hlx)
    | (extract_lets +onlyGivenNames lx; clear_value lx; revert lx; refine kept_lock ?_; intro lx)
    | with_reducible apply State.layRegion_kept
    | with_reducible apply kept_ite
    | with_reducible apply kept_foldl
    | simp -zeta only [kept_mk, keptF_fold]
    | split

theorem State.returnHeaders_kept (h : Half) {s : State} (hs : Kept pq va s) : Kept pq va (State.returnHeaders h s) := by
  unfold State.returnHeaders
  repeat' first
    | with_reducible assumption
    | intro _
    | (extract_lets +onlyGivenNames lx; refine (fun (hlx : Kept pq va lx) => ?_ : Kept pq va lx → _) ?_; rotate_left; simp -zeta only [lx]; clear lx; rotate_right; clear_value lx; revert lx; refine kept_lock ?_; intro lx hlx)
    | (extract_lets +onlyGivenNames lx; clear_value lx; revert lx; refine kept_lock ?_; intro lx)
    | with_reducible apply State.modSite_kept
    | with_reducible apply State.tokReady_kept
    | with_reducible apply kept_ite
    | with_reducible apply kept_foldl
    | simp -zeta only [kept_mk, keptF_fold]
    | split

theorem State.ledger5_kept (h : Half) (e : Nat) {s : State} (hs : Kept pq va s) : Kept pq va (State.ledger5 h e s) := by
  unfold State.ledger5
  repeat' first
    | with_reducible assumption
    | intro _
    | (extract_lets +onlyGivenNames lx; refine (fun (hlx : Kept pq va lx) => ?_ : Kept pq va lx → _) ?_; rotate_left; simp -zeta only [lx]; clear lx; rotate_right; clear_value lx; revert lx; refine kept_lock ?_; intro lx hlx)
    | (extract_lets +onlyGivenNames lx; clear_value lx; revert lx; refine kept_lock ?_; intro lx)
    | with_reducible apply State.ledgerBreak_kept
    | with_reducible apply State.setStall_kept
    | with_reducible apply kept_ite
    | with_reducible apply kept_foldl
    | simp -zeta only [kept_mk, keptF_fold]
    | split

theorem State.queueReturn_kept (h : Half) (e : Nat) (off : Nat) (r : SiteRec) (o : Outputs) {s : State} (hs : Kept pq va s) : Kept pq va (State.queueReturn h e off r o s) := by
  unfold State.queueReturn
  repeat' first
    | with_reducible assumption
    | intro _
    | (extract_lets +onlyGivenNames lx; refine (fun (hlx : Kept pq va lx) => ?_ : Kept pq va lx → _) ?_; rotate_left; simp -zeta only [lx]; clear lx; rotate_right; clear_value lx; revert lx; refine kept_lock ?_; intro lx hlx)
    | (extract_lets +onlyGivenNames lx; clear_value lx; revert lx; refine kept_lock ?_; intro lx)
    | with_reducible apply State.modSite_kept
    | with_reducible apply State.tokReady_kept
    | with_reducible apply kept_ite
    | with_reducible apply kept_foldl
    | simp -zeta only [kept_mk, keptF_fold]
    | split

theorem State.stallDone_kept (h : Half) (e : Nat) (tiled : Bool) (o : Outputs) {s : State} (hs : Kept pq va s) : Kept pq va (State.stallDone h e tiled o s) := by
  unfold State.stallDone
  repeat' first
    | with_reducible assumption
    | intro _
    | (extract_lets +onlyGivenNames lx; refine (fun (hlx : Kept pq va lx) => ?_ : Kept pq va lx → _) ?_; rotate_left; simp -zeta only [lx]; clear lx; rotate_right; clear_value lx; revert lx; refine kept_lock ?_; intro lx hlx)
    | (extract_lets +onlyGivenNames lx; clear_value lx; revert lx; refine kept_lock ?_; intro lx)
    | with_reducible apply State.ledger5_kept
    | with_reducible apply State.queueReturn_kept
    | with_reducible apply State.regionDue_kept
    | with_reducible apply State.returnHeaders_kept
    | with_reducible apply State.setStall_kept
    | with_reducible apply kept_ite
    | with_reducible apply kept_foldl
    | simp -zeta only [kept_mk, keptF_fold]
    | split

theorem State.setUnit_kept (k : Nat) (u : TUnit) {s : State} (hs : Kept pq va s) : Kept pq va (State.setUnit k u s) := by
  unfold State.setUnit
  repeat' first
    | with_reducible assumption
    | intro _
    | (extract_lets +onlyGivenNames lx; refine (fun (hlx : Kept pq va lx) => ?_ : Kept pq va lx → _) ?_; rotate_left; simp -zeta only [lx]; clear lx; rotate_right; clear_value lx; revert lx; refine kept_lock ?_; intro lx hlx)
    | (extract_lets +onlyGivenNames lx; clear_value lx; revert lx; refine kept_lock ?_; intro lx)
    | with_reducible apply kept_ite
    | with_reducible apply kept_foldl
    | simp -zeta only [kept_mk, keptF_fold]
    | split

theorem State.fetchFirst_kept (e : Nat) (l : Nat) {s : State} (hs : Kept pq va s) : Kept pq va (State.fetchFirst e l s) := by
  unfold State.fetchFirst
  repeat' first
    | with_reducible assumption
    | intro _
    | (extract_lets +onlyGivenNames lx; refine (fun (hlx : Kept pq va lx) => ?_ : Kept pq va lx → _) ?_; rotate_left; simp -zeta only [lx]; clear lx; rotate_right; clear_value lx; revert lx; refine kept_lock ?_; intro lx hlx)
    | (extract_lets +onlyGivenNames lx; clear_value lx; revert lx; refine kept_lock ?_; intro lx)
    | with_reducible apply kept_ite
    | with_reducible apply kept_foldl
    | simp -zeta only [kept_mk, keptF_fold]
    | split

theorem State.holdBlock_kept (e : Nat) (l : Nat) {s : State} (hs : Kept pq va s) : Kept pq va (State.holdBlock e l s) := by
  unfold State.holdBlock
  repeat' first
    | with_reducible assumption
    | intro _
    | (extract_lets +onlyGivenNames lx; refine (fun (hlx : Kept pq va lx) => ?_ : Kept pq va lx → _) ?_; rotate_left; simp -zeta only [lx]; clear lx; rotate_right; clear_value lx; revert lx; refine kept_lock ?_; intro lx hlx)
    | (extract_lets +onlyGivenNames lx; clear_value lx; revert lx; refine kept_lock ?_; intro lx)
    | with_reducible apply State.fetchFirst_kept
    | with_reducible apply State.resFault_kept
    | with_reducible apply State.tallyAdd_kept
    | with_reducible apply kept_ite
    | with_reducible apply kept_foldl
    | simp -zeta only [kept_mk, keptF_fold]
    | split

theorem State.listWrites_kept (list : Nat) (w : List WStep) {s : State} (hs : Kept pq va s) : Kept pq va (State.listWrites list w s) := by
  unfold State.listWrites
  repeat' first
    | with_reducible assumption
    | intro _
    | (extract_lets +onlyGivenNames lx; refine (fun (hlx : Kept pq va lx) => ?_ : Kept pq va lx → _) ?_; rotate_left; simp -zeta only [lx]; clear lx; rotate_right; clear_value lx; revert lx; refine kept_lock ?_; intro lx hlx)
    | (extract_lets +onlyGivenNames lx; clear_value lx; revert lx; refine kept_lock ?_; intro lx)
    | with_reducible apply State.startChain_kept
    | with_reducible apply kept_ite
    | with_reducible apply kept_foldl
    | simp -zeta only [kept_mk, keptF_fold]
    | split

theorem State.postTile_kept (k : Nat) (u : TUnit) (first : Nat) (count : Nat) {s : State} (hs : Kept pq va s) : ∀ t, State.postTile k u first count s = some t → Kept pq va t := by
  intro t ht
  unfold State.postTile at ht
  extract_lets list bret at ht
  split at ht
  · cases ht
  · split at ht
    · cases ht
    · rename_i out s1 he
      have h1 := State.allocBuf_kept' he hs
      extract_lets s2 s3 n d s4 s5 at ht
      have h2 : Kept pq va s2 := kept_ite (State.slotBuf_kept _ _ h1) h1
      have h3 : Kept pq va s3 := kept_foldl h2 fun s i h => State.wrPlace_kept _ _ _ h
      have h4 : Kept pq va s4 := State.listWrites_kept _ _ h3
      clear_value s4
      cases ht
      refine State.tallyAdd_kept _ _ _ (State.tallyAdd_kept _ _ _ ?_)
      exact Kept.congr h4 rfl rfl rfl rfl rfl rfl rfl

theorem State.postTile_kept' {k : Nat} {u : TUnit} {first : Nat} {count : Nat} {s : State}  {t : State} (he : State.postTile k u first count s = some t) (hs : Kept pq va s) : Kept pq va t :=
  State.postTile_kept _ _ _ _ hs t he

theorem State.unitWaits_kept (k : Nat) (u : TUnit) {s : State} (hs : Kept pq va s) : Kept pq va (State.unitWaits k u s) := by
  unfold State.unitWaits
  repeat' first
    | with_reducible assumption
    | intro _
    | (extract_lets +onlyGivenNames lx; refine (fun (hlx : Kept pq va lx) => ?_ : Kept pq va lx → _) ?_; rotate_left; simp -zeta only [lx]; clear lx; rotate_right; clear_value lx; revert lx; refine kept_lock ?_; intro lx hlx)
    | (extract_lets +onlyGivenNames lx; clear_value lx; revert lx; refine kept_lock ?_; intro lx)
    | with_reducible apply State.setUnit_kept
    | with_reducible apply kept_ite
    | with_reducible apply kept_foldl
    | simp -zeta only [kept_mk, keptF_fold]
    | split

theorem State.waitOver_kept (u : TUnit) {s : State} (hs : Kept pq va s) : Kept pq va (State.waitOver u s) := by
  unfold State.waitOver
  repeat' first
    | with_reducible assumption
    | intro _
    | (extract_lets +onlyGivenNames lx; refine (fun (hlx : Kept pq va lx) => ?_ : Kept pq va lx → _) ?_; rotate_left; simp -zeta only [lx]; clear lx; rotate_right; clear_value lx; revert lx; refine kept_lock ?_; intro lx hlx)
    | (extract_lets +onlyGivenNames lx; clear_value lx; revert lx; refine kept_lock ?_; intro lx)
    | with_reducible apply State.tallyAdd_kept
    | with_reducible apply kept_ite
    | with_reducible apply kept_foldl
    | simp -zeta only [kept_mk, keptF_fold]
    | split

theorem State.tilePosted_kept (k : Nat) (u : TUnit) (r : Option State) {s : State} (hr : ∀ t, r = some t → Kept pq va t) (hs : Kept pq va s) : Kept pq va (State.tilePosted k u r s).2 := by
  unfold State.tilePosted
  split
  · exact kept_ite (State.setUnit_kept _ _ hs) hs
  · rename_i s1
    exact State.setUnit_kept _ _ (State.tallyAdd_kept _ _ _ (hr s1 rfl))

theorem State.postStep_kept (k : Nat) (p : Nat × Nat) {s : State} (hs : Kept pq va s) : Kept pq va (State.postStep k p s).2 := by
  unfold State.postStep
  split
  · exact hs
  · rename_i u he
    have h := State.postTile_kept k u p.1 p.2 hs
    exact State.tilePosted_kept k u (State.postTile k u p.1 p.2 s) h hs

theorem State.postStep_kept' {k : Nat} {p : Nat × Nat} {s : State}  {r : _} {t : State} (he : State.postStep k p s = (r, t)) (hs : Kept pq va s) : Kept pq va t := by
  have := State.postStep_kept k p hs
  rwa [he] at this

theorem State.postTiles_kept (k : Nat) (a1 : List (Nat × Nat)) {a2 : State} (hs : Kept pq va a2) : Kept pq va (State.postTiles k a1 a2) := by
  induction a1 generalizing a2 with
  | nil => exact hs
  | cons p t ih =>
    rw [State.postTiles]
    have h := State.postStep_kept k p hs
    exact kept_ite (ih h) h

theorem State.freeUnit_kept (k : Nat) {s : State} (hs : Kept pq va s) : Kept pq va (State.freeUnit k s) := by
  unfold State.freeUnit
  repeat' first
    | with_reducible assumption
    | intro _
    | (extract_lets +onlyGivenNames lx; refine (fun (hlx : Kept pq va lx) => ?_ : Kept pq va lx → _) ?_; rotate_left; simp -zeta only [lx]; clear lx; rotate_right; clear_value lx; revert lx; refine kept_lock ?_; intro lx hlx)
    | (extract_lets +onlyGivenNames lx; clear_value lx; revert lx; refine kept_lock ?_; intro lx)
    | with_reducible apply State.freeBuf_kept
    | with_reducible apply kept_ite
    | with_reducible apply kept_foldl
    | simp -zeta only [kept_mk, keptF_fold]
    | split

theorem State.gatherOut_kept (k : Nat) (u : TUnit) (b : Nat) (o : Outputs) {s : State} (hs : Kept pq va s) : Kept pq va (State.gatherOut k u b o s) := by
  unfold State.gatherOut
  repeat' first
    | with_reducible assumption
    | intro _
    | (extract_lets +onlyGivenNames lx; refine (fun (hlx : Kept pq va lx) => ?_ : Kept pq va lx → _) ?_; rotate_left; simp -zeta only [lx]; clear lx; rotate_right; clear_value lx; revert lx; refine kept_lock ?_; intro lx hlx)
    | (extract_lets +onlyGivenNames lx; clear_value lx; revert lx; refine kept_lock ?_; intro lx)
    | with_reducible apply State.localCopy_kept
    | with_reducible apply State.markLate_kept
    | with_reducible apply State.modRound_kept
    | with_reducible apply kept_ite
    | with_reducible apply kept_foldl
    | simp -zeta only [kept_mk, keptF_fold]
    | split

theorem State.unitDone_kept (k : Nat) (o : Outputs) {s : State} (hs : Kept pq va s) : Kept pq va (State.unitDone k o s) := by
  unfold State.unitDone
  repeat' first
    | with_reducible assumption
    | intro _
    | (extract_lets +onlyGivenNames lx; refine (fun (hlx : Kept pq va lx) => ?_ : Kept pq va lx → _) ?_; rotate_left; simp -zeta only [lx]; clear lx; rotate_right; clear_value lx; revert lx; refine kept_lock ?_; intro lx hlx)
    | (extract_lets +onlyGivenNames lx; clear_value lx; revert lx; refine kept_lock ?_; intro lx)
    | with_reducible apply State.freeUnit_kept
    | with_reducible apply State.gatherOut_kept
    | with_reducible apply State.stallDone_kept
    | with_reducible apply State.waitOver_kept
    | with_reducible apply kept_ite
    | with_reducible apply kept_foldl
    | simp -zeta only [kept_mk, keptF_fold]
    | split

theorem State.addUnit_kept (h : Half) (bell : Nat) (layer : Nat) (e : Nat) (buf : Option Nat) {s : State} (hs : Kept pq va s) : Kept pq va (State.addUnit h bell layer e buf s) := by
  unfold State.addUnit
  repeat' first
    | with_reducible assumption
    | intro _
    | (extract_lets +onlyGivenNames lx; refine (fun (hlx : Kept pq va lx) => ?_ : Kept pq va lx → _) ?_; rotate_left; simp -zeta only [lx]; clear lx; rotate_right; clear_value lx; revert lx; refine kept_lock ?_; intro lx hlx)
    | (extract_lets +onlyGivenNames lx; clear_value lx; revert lx; refine kept_lock ?_; intro lx)
    | with_reducible apply State.fetchFirst_kept
    | with_reducible apply State.holdBlock_kept
    | with_reducible apply State.unitDone_kept
    | with_reducible apply kept_ite
    | with_reducible apply kept_foldl
    | simp -zeta only [kept_mk, keptF_fold]
    | split

theorem State.tileEnds_kept (t : Tile) (st : Nat) (taint : Bool) {s : State} (hs : Kept pq va s) : Kept pq va (State.tileEnds t st taint s) := by
  unfold State.tileEnds
  repeat' first
    | with_reducible assumption
    | intro _
    | (extract_lets +onlyGivenNames lx; refine (fun (hlx : Kept pq va lx) => ?_ : Kept pq va lx → _) ?_; rotate_left; simp -zeta only [lx]; clear lx; rotate_right; clear_value lx; revert lx; refine kept_lock ?_; intro lx hlx)
    | (extract_lets +onlyGivenNames lx; clear_value lx; revert lx; refine kept_lock ?_; intro lx)
    | with_reducible apply State.setUnit_kept
    | with_reducible apply State.unitDone_kept
    | with_reducible apply kept_ite
    | with_reducible apply kept_foldl
    | simp -zeta only [kept_mk, keptF_fold]
    | split

theorem State.quarantine_kept (out : Nat) {s : State} (hs : Kept pq va s) : Kept pq va (State.quarantine out s) := by
  unfold State.quarantine
  repeat' first
    | with_reducible assumption
    | intro _
    | (extract_lets +onlyGivenNames lx; refine (fun (hlx : Kept pq va lx) => ?_ : Kept pq va lx → _) ?_; rotate_left; simp -zeta only [lx]; clear lx; rotate_right; clear_value lx; revert lx; refine kept_lock ?_; intro lx hlx)
    | (extract_lets +onlyGivenNames lx; clear_value lx; revert lx; refine kept_lock ?_; intro lx)
    | with_reducible apply kept_ite
    | with_reducible apply kept_foldl
    | simp -zeta only [kept_mk, keptF_fold]
    | split

theorem State.tileFaultReg_kept (code : Nat) (list : Nat) (u : Option TUnit) {s : State} (hs : Kept pq va s) : Kept pq va (State.tileFaultReg code list u s) := by
  unfold State.tileFaultReg
  repeat' first
    | with_reducible assumption
    | intro _
    | (extract_lets +onlyGivenNames lx; refine (fun (hlx : Kept pq va lx) => ?_ : Kept pq va lx → _) ?_; rotate_left; simp -zeta only [lx]; clear lx; rotate_right; clear_value lx; revert lx; refine kept_lock ?_; intro lx hlx)
    | (extract_lets +onlyGivenNames lx; clear_value lx; revert lx; refine kept_lock ?_; intro lx)
    | with_reducible apply State.setReg_kept
    | with_reducible apply kept_ite
    | with_reducible apply kept_foldl
    | simp -zeta only [kept_mk, keptF_fold]
    | split

theorem State.tileFault_kept (code : Nat) (list : Nat) (u : Option TUnit) {s : State} (hs : Kept pq va s) : Kept pq va (State.tileFault code list u s) := by
  unfold State.tileFault
  repeat' first
    | with_reducible assumption
    | intro _
    | (extract_lets +onlyGivenNames lx; refine (fun (hlx : Kept pq va lx) => ?_ : Kept pq va lx → _) ?_; rotate_left; simp -zeta only [lx]; clear lx; rotate_right; clear_value lx; revert lx; refine kept_lock ?_; intro lx hlx)
    | (extract_lets +onlyGivenNames lx; clear_value lx; revert lx; refine kept_lock ?_; intro lx)
    | with_reducible apply State.recordF_kept
    | with_reducible apply State.tileFaultReg_kept
    | with_reducible apply kept_ite
    | with_reducible apply kept_foldl
    | simp -zeta only [kept_mk, keptF_fold]
    | split

theorem State.postUnit_kept (k : Nat) (u : TUnit) {s : State} (hs : Kept pq va s) : Kept pq va (State.postUnit k u s) := by
  unfold State.postUnit
  repeat' first
    | with_reducible assumption
    | intro _
    | (extract_lets +onlyGivenNames lx; refine (fun (hlx : Kept pq va lx) => ?_ : Kept pq va lx → _) ?_; rotate_left; simp -zeta only [lx]; clear lx; rotate_right; clear_value lx; revert lx; refine kept_lock ?_; intro lx hlx)
    | (extract_lets +onlyGivenNames lx; clear_value lx; revert lx; refine kept_lock ?_; intro lx)
    | with_reducible apply State.postTiles_kept
    | with_reducible apply State.setUnit_kept
    | with_reducible apply State.unitWaits_kept
    | with_reducible apply kept_ite
    | with_reducible apply kept_foldl
    | simp -zeta only [kept_mk, keptF_fold]
    | split

theorem State.releaseUnits_kept (e : Nat) (l : Nat) {s : State} (hs : Kept pq va s) : Kept pq va (State.releaseUnits e l s) := by
  unfold State.releaseUnits
  repeat' first
    | with_reducible assumption
    | intro _
    | (extract_lets +onlyGivenNames lx; refine (fun (hlx : Kept pq va lx) => ?_ : Kept pq va lx → _) ?_; rotate_left; simp -zeta only [lx]; clear lx; rotate_right; clear_value lx; revert lx; refine kept_lock ?_; intro lx hlx)
    | (extract_lets +onlyGivenNames lx; clear_value lx; revert lx; refine kept_lock ?_; intro lx)
    | with_reducible apply kept_ite
    | with_reducible apply kept_foldl
    | simp -zeta only [kept_mk, keptF_fold]
    | split

theorem State.holdUnit_kept (k : Nat) (u : TUnit) {s : State} (hs : Kept pq va s) : Kept pq va (State.holdUnit k u s) := by
  unfold State.holdUnit
  repeat' first
    | with_reducible assumption
    | intro _
    | (extract_lets +onlyGivenNames lx; refine (fun (hlx : Kept pq va lx) => ?_ : Kept pq va lx → _) ?_; rotate_left; simp -zeta only [lx]; clear lx; rotate_right; clear_value lx; revert lx; refine kept_lock ?_; intro lx hlx)
    | (extract_lets +onlyGivenNames lx; clear_value lx; revert lx; refine kept_lock ?_; intro lx)
    | with_reducible apply State.fetchFirst_kept
    | with_reducible apply State.holdBlock_kept
    | with_reducible apply State.setUnit_kept
    | with_reducible apply kept_ite
    | with_reducible apply kept_foldl
    | simp -zeta only [kept_mk, keptF_fold]
    | split

theorem State.holdUnits_kept (e : Nat) (l : Nat) {s : State} (hs : Kept pq va s) : Kept pq va (State.holdUnits e l s) := by
  unfold State.holdUnits
  repeat' first
    | with_reducible assumption
    | intro _
    | (extract_lets +onlyGivenNames lx; refine (fun (hlx : Kept pq va lx) => ?_ : Kept pq va lx → _) ?_; rotate_left; simp -zeta only [lx]; clear lx; rotate_right; clear_value lx; revert lx; refine kept_lock ?_; intro lx hlx)
    | (extract_lets +onlyGivenNames lx; clear_value lx; revert lx; refine kept_lock ?_; intro lx)
    | with_reducible apply State.holdUnit_kept
    | with_reducible apply kept_ite
    | with_reducible apply kept_foldl
    | simp -zeta only [kept_mk, keptF_fold]
    | split

theorem execTilePost_kept {s : State} (hs : Kept pq va s) : KeptOut pq va (execTilePost s) := by
  unfold execTilePost
  repeat' first
    | with_reducible assumption
    | intro _
    | (extract_lets +onlyGivenNames lx; refine (fun (hlx : Kept pq va lx) => ?_ : Kept pq va lx → _) ?_; rotate_left; simp -zeta only [lx]; clear lx; rotate_right; clear_value lx; revert lx; refine kept_lock ?_; intro lx hlx)
    | (extract_lets +onlyGivenNames lx; clear_value lx; revert lx; refine kept_lock ?_; intro lx)
    | with_reducible apply keptOut_next
    | with_reducible apply keptOut_ite
    | with_reducible apply State.postUnit_kept
    | with_reducible apply kept_ite
    | with_reducible apply kept_foldl
    | simp -zeta only [kept_mk, keptF_fold]
    | split

theorem State.tileHead_kept (v : W64) {s : State} (hs : Kept pq va s) : Kept pq va (State.tileHead v s) := by
  unfold State.tileHead
  repeat' first
    | with_reducible assumption
    | intro _
    | (extract_lets +onlyGivenNames lx; refine (fun (hlx : Kept pq va lx) => ?_ : Kept pq va lx → _) ?_; rotate_left; simp -zeta only [lx]; clear lx; rotate_right; clear_value lx; revert lx; refine kept_lock ?_; intro lx hlx)
    | (extract_lets +onlyGivenNames lx; clear_value lx; revert lx; refine kept_lock ?_; intro lx)
    | with_reducible apply State.dropWrite_kept
    | with_reducible apply State.gated_kept
    | with_reducible apply State.tileFaultReg_kept
    | with_reducible apply kept_ite
    | with_reducible apply kept_foldl
    | simp -zeta only [kept_mk, keptF_fold]
    | split

theorem execTileHead_kept (v : W64) {s : State} (hs : Kept pq va s) : KeptOut pq va (execTileHead v s) := by
  unfold execTileHead
  repeat' first
    | with_reducible assumption
    | intro _
    | (extract_lets +onlyGivenNames lx; refine (fun (hlx : Kept pq va lx) => ?_ : Kept pq va lx → _) ?_; rotate_left; simp -zeta only [lx]; clear lx; rotate_right; clear_value lx; revert lx; refine kept_lock ?_; intro lx hlx)
    | (extract_lets +onlyGivenNames lx; clear_value lx; revert lx; refine kept_lock ?_; intro lx)
    | with_reducible apply keptOut_next
    | with_reducible apply keptOut_ite
    | with_reducible apply State.tileHead_kept
    | with_reducible apply kept_ite
    | with_reducible apply kept_foldl
    | simp -zeta only [kept_mk, keptF_fold]
    | split

theorem State.badDone_kept (list : Nat) (index : Nat) {s : State} (hs : Kept pq va s) : Kept pq va (State.badDone list index s) := by
  unfold State.badDone
  repeat' first
    | with_reducible assumption
    | intro _
    | (extract_lets +onlyGivenNames lx; refine (fun (hlx : Kept pq va lx) => ?_ : Kept pq va lx → _) ?_; rotate_left; simp -zeta only [lx]; clear lx; rotate_right; clear_value lx; revert lx; refine kept_lock ?_; intro lx hlx)
    | (extract_lets +onlyGivenNames lx; clear_value lx; revert lx; refine kept_lock ?_; intro lx)
    | with_reducible apply State.dropWrite_kept
    | with_reducible apply State.lostDup_kept
    | with_reducible apply State.tileFaultReg_kept
    | with_reducible apply kept_ite
    | with_reducible apply kept_foldl
    | simp -zeta only [kept_mk, keptF_fold]
    | split

theorem State.failUnit_kept (k : Nat) {s : State} (hs : Kept pq va s) : Kept pq va (State.failUnit k s) := by
  unfold State.failUnit
  repeat' first
    | with_reducible assumption
    | intro _
    | (extract_lets +onlyGivenNames lx; refine (fun (hlx : Kept pq va lx) => ?_ : Kept pq va lx → _) ?_; rotate_left; simp -zeta only [lx]; clear lx; rotate_right; clear_value lx; revert lx; refine kept_lock ?_; intro lx hlx)
    | (extract_lets +onlyGivenNames lx; clear_value lx; revert lx; refine kept_lock ?_; intro lx)
    | with_reducible apply State.setUnit_kept
    | with_reducible apply State.unitDone_kept
    | with_reducible apply kept_ite
    | with_reducible apply kept_foldl
    | simp -zeta only [kept_mk, keptF_fold]
    | split

theorem State.failBlock_kept (e : Nat) (l : Nat) {s : State} (hs : Kept pq va s) : Kept pq va (State.failBlock e l s) := by
  unfold State.failBlock
  repeat' first
    | with_reducible assumption
    | intro _
    | (extract_lets +onlyGivenNames lx; refine (fun (hlx : Kept pq va lx) => ?_ : Kept pq va lx → _) ?_; rotate_left; simp -zeta only [lx]; clear lx; rotate_right; clear_value lx; revert lx; refine kept_lock ?_; intro lx hlx)
    | (extract_lets +onlyGivenNames lx; clear_value lx; revert lx; refine kept_lock ?_; intro lx)
    | with_reducible apply State.failUnit_kept
    | with_reducible apply State.setBlock_kept
    | with_reducible apply kept_ite
    | with_reducible apply kept_foldl
    | simp -zeta only [kept_mk, keptF_fold]
    | split

theorem State.tileDone_kept (v : W64) {s : State} (hs : Kept pq va s) : Kept pq va (State.tileDone v s) := by
  unfold State.tileDone
  repeat' first
    | with_reducible assumption
    | intro _
    | (extract_lets +onlyGivenNames lx; refine (fun (hlx : Kept pq va lx) => ?_ : Kept pq va lx → _) ?_; rotate_left; simp -zeta only [lx]; clear lx; rotate_right; clear_value lx; revert lx; refine kept_lock ?_; intro lx hlx)
    | (extract_lets +onlyGivenNames lx; clear_value lx; revert lx; refine kept_lock ?_; intro lx)
    | with_reducible apply State.badDone_kept
    | with_reducible apply State.failBlock_kept
    | with_reducible apply State.gated_kept
    | with_reducible apply State.safe0_kept
    | with_reducible apply State.tileEnds_kept
    | with_reducible apply State.tileFault_kept
    | with_reducible apply kept_ite
    | with_reducible apply kept_foldl
    | simp -zeta only [kept_mk, keptF_fold]
    | split

theorem execTileDone_kept (v : W64) {s : State} (hs : Kept pq va s) : KeptOut pq va (execTileDone v s) := by
  unfold execTileDone
  repeat' first
    | with_reducible assumption
    | intro _
    | (extract_lets +onlyGivenNames lx; refine (fun (hlx : Kept pq va lx) => ?_ : Kept pq va lx → _) ?_; rotate_left; simp -zeta only [lx]; clear lx; rotate_right; clear_value lx; revert lx; refine kept_lock ?_; intro lx hlx)
    | (extract_lets +onlyGivenNames lx; clear_value lx; revert lx; refine kept_lock ?_; intro lx)
    | with_reducible apply keptOut_next
    | with_reducible apply keptOut_ite
    | with_reducible apply State.tileDone_kept
    | with_reducible apply kept_ite
    | with_reducible apply kept_foldl
    | simp -zeta only [kept_mk, keptF_fold]
    | split

theorem execTileTimeout_kept (list : Nat) (index : Nat) {s : State} (hs : Kept pq va s) : KeptOut pq va (execTileTimeout list index s) := by
  unfold execTileTimeout
  repeat' first
    | with_reducible assumption
    | intro _
    | (extract_lets +onlyGivenNames lx; refine (fun (hlx : Kept pq va lx) => ?_ : Kept pq va lx → _) ?_; rotate_left; simp -zeta only [lx]; clear lx; rotate_right; clear_value lx; revert lx; refine kept_lock ?_; intro lx hlx)
    | (extract_lets +onlyGivenNames lx; clear_value lx; revert lx; refine kept_lock ?_; intro lx)
    | with_reducible apply keptOut_next
    | with_reducible apply keptOut_ite
    | with_reducible apply State.lateMargin_kept
    | with_reducible apply State.quarantine_kept
    | with_reducible apply State.raise_kept
    | with_reducible apply State.tallyAdd_kept
    | with_reducible apply State.tileEnds_kept
    | with_reducible apply State.tileFault_kept
    | with_reducible apply kept_ite
    | with_reducible apply kept_foldl
    | simp -zeta only [kept_mk, keptF_fold]
    | split

theorem State.tileQuarRelease_kept (v : W64) {s : State} (hs : Kept pq va s) : Kept pq va (State.tileQuarRelease v s) := by
  unfold State.tileQuarRelease
  repeat' first
    | with_reducible assumption
    | intro _
    | (extract_lets +onlyGivenNames lx; refine (fun (hlx : Kept pq va lx) => ?_ : Kept pq va lx → _) ?_; rotate_left; simp -zeta only [lx]; clear lx; rotate_right; clear_value lx; revert lx; refine kept_lock ?_; intro lx hlx)
    | (extract_lets +onlyGivenNames lx; clear_value lx; revert lx; refine kept_lock ?_; intro lx)
    | with_reducible apply State.freeBuf_kept
    | with_reducible apply State.gated_kept
    | with_reducible apply kept_ite
    | with_reducible apply kept_foldl
    | simp -zeta only [kept_mk, keptF_fold]
    | split

theorem execTileQuarRelease_kept (v : W64) {s : State} (hs : Kept pq va s) : KeptOut pq va (execTileQuarRelease v s) := by
  unfold execTileQuarRelease
  repeat' first
    | with_reducible assumption
    | intro _
    | (extract_lets +onlyGivenNames lx; refine (fun (hlx : Kept pq va lx) => ?_ : Kept pq va lx → _) ?_; rotate_left; simp -zeta only [lx]; clear lx; rotate_right; clear_value lx; revert lx; refine kept_lock ?_; intro lx hlx)
    | (extract_lets +onlyGivenNames lx; clear_value lx; revert lx; refine kept_lock ?_; intro lx)
    | with_reducible apply keptOut_next
    | with_reducible apply keptOut_ite
    | with_reducible apply State.tileQuarRelease_kept
    | with_reducible apply kept_ite
    | with_reducible apply kept_foldl
    | simp -zeta only [kept_mk, keptF_fold]
    | split

theorem State.withdrawTile_kept (t : Tile) {s : State} (hs : Kept pq va s) : Kept pq va (State.withdrawTile t s) := by
  unfold State.withdrawTile
  repeat' first
    | with_reducible assumption
    | intro _
    | (extract_lets +onlyGivenNames lx; refine (fun (hlx : Kept pq va lx) => ?_ : Kept pq va lx → _) ?_; rotate_left; simp -zeta only [lx]; clear lx; rotate_right; clear_value lx; revert lx; refine kept_lock ?_; intro lx hlx)
    | (extract_lets +onlyGivenNames lx; clear_value lx; revert lx; refine kept_lock ?_; intro lx)
    | with_reducible apply State.quarantine_kept
    | with_reducible apply State.tallyAdd_kept
    | with_reducible apply State.tileEnds_kept
    | with_reducible apply State.tileFault_kept
    | with_reducible apply kept_ite
    | with_reducible apply kept_foldl
    | simp -zeta only [kept_mk, keptF_fold]
    | split

theorem State.dropTile_kept (u : TUnit) {s : State} (hs : Kept pq va s) : Kept pq va (State.dropTile u s) := by
  unfold State.dropTile
  repeat' first
    | with_reducible assumption
    | intro _
    | (extract_lets +onlyGivenNames lx; refine (fun (hlx : Kept pq va lx) => ?_ : Kept pq va lx → _) ?_; rotate_left; simp -zeta only [lx]; clear lx; rotate_right; clear_value lx; revert lx; refine kept_lock ?_; intro lx hlx)
    | (extract_lets +onlyGivenNames lx; clear_value lx; revert lx; refine kept_lock ?_; intro lx)
    | with_reducible apply State.tallyAdd_kept
    | with_reducible apply State.tileFault_kept
    | with_reducible apply kept_ite
    | with_reducible apply kept_foldl
    | simp -zeta only [kept_mk, keptF_fold]
    | split

theorem State.withdrawUnit_kept (k : Nat) {s : State} (hs : Kept pq va s) : Kept pq va (State.withdrawUnit k s) := by
  unfold State.withdrawUnit
  repeat' first
    | with_reducible assumption
    | intro _
    | (extract_lets +onlyGivenNames lx; refine (fun (hlx : Kept pq va lx) => ?_ : Kept pq va lx → _) ?_; rotate_left; simp -zeta only [lx]; clear lx; rotate_right; clear_value lx; revert lx; refine kept_lock ?_; intro lx hlx)
    | (extract_lets +onlyGivenNames lx; clear_value lx; revert lx; refine kept_lock ?_; intro lx)
    | with_reducible apply State.dropTile_kept
    | with_reducible apply State.setUnit_kept
    | with_reducible apply State.unitDone_kept
    | with_reducible apply State.withdrawTile_kept
    | with_reducible apply kept_ite
    | with_reducible apply kept_foldl
    | simp -zeta only [kept_mk, keptF_fold]
    | split

theorem State.withdrawOlder_kept (h : Half) (bell : Nat) (layer : Nat) {s : State} (hs : Kept pq va s) : Kept pq va (State.withdrawOlder h bell layer s) := by
  unfold State.withdrawOlder
  repeat' first
    | with_reducible assumption
    | intro _
    | (extract_lets +onlyGivenNames lx; refine (fun (hlx : Kept pq va lx) => ?_ : Kept pq va lx → _) ?_; rotate_left; simp -zeta only [lx]; clear lx; rotate_right; clear_value lx; revert lx; refine kept_lock ?_; intro lx hlx)
    | (extract_lets +onlyGivenNames lx; clear_value lx; revert lx; refine kept_lock ?_; intro lx)
    | with_reducible apply State.lostDup_kept
    | with_reducible apply State.record_kept
    | with_reducible apply State.withdrawUnit_kept
    | with_reducible apply kept_ite
    | with_reducible apply kept_foldl
    | simp -zeta only [kept_mk, keptF_fold]
    | split

theorem execApertureWrite_kept (place : AperturePlace) (bytes : List Byte) {s : State} (hs : Kept pq va s) : KeptOut pq va (execApertureWrite place bytes s) := by
  unfold execApertureWrite
  repeat' first
    | with_reducible assumption
    | intro _
    | (extract_lets +onlyGivenNames lx; refine (fun (hlx : Kept pq va lx) => ?_ : Kept pq va lx → _) ?_; rotate_left; simp -zeta only [lx]; clear lx; rotate_right; clear_value lx; revert lx; refine kept_lock ?_; intro lx hlx)
    | (extract_lets +onlyGivenNames lx; clear_value lx; revert lx; refine kept_lock ?_; intro lx)
    | with_reducible apply keptOut_next
    | with_reducible apply keptOut_ite
    | with_reducible apply State.tileFault_kept
    | with_reducible apply State.wrSram_kept
    | with_reducible apply kept_ite
    | with_reducible apply kept_foldl
    | simp -zeta only [kept_mk, keptF_fold]
    | split

end Sys2Proof.Machine
end

