-- ==== Sys2Proof/Laws/Site.lean ====
section
/-! SUPPORT. What each operation of Machine/Site.lean keeps (Laws/Kept.lean). -/
set_option linter.all false
namespace Sys2Proof.Machine

variable {pq : List Instr} {va : Bool}

theorem State.siteEnter_kept (h : Half) (bell : Nat) (layer : Nat) {s : State} (hs : Kept pq va s) : ∀ t, State.siteEnter h bell layer s = some t → Kept pq va t := by
  intro t ht
  unfold State.siteEnter at ht
  extract_lets x s1 stalls at ht
  split at ht
  · cases ht
    exact hs
  · split at ht
    · cases ht
    · cases ht
      exact State.setSite_kept _ _ (State.withdrawOlder_kept _ _ _ hs)

theorem State.siteEnter_kept' {h : Half} {bell : Nat} {layer : Nat} {s : State}  {t : State} (he : State.siteEnter h bell layer s = some t) (hs : Kept pq va s) : Kept pq va t :=
  State.siteEnter_kept _ _ _ hs t he

theorem State.siteFault_kept (code : Nat) (layer : Nat) (h : Half) {s : State} (hs : Kept pq va s) : Kept pq va (State.siteFault code layer h s) := by
  unfold State.siteFault
  repeat' first
    | with_reducible assumption
    | intro _
    | (extract_lets +onlyGivenNames lx; refine (fun (hlx : Kept pq va lx) => ?_ : Kept pq va lx → _) ?_; rotate_left; simp -zeta only [lx]; clear lx; rotate_right; clear_value lx; revert lx; refine kept_lock ?_; intro lx hlx)
    | (extract_lets +onlyGivenNames lx; clear_value lx; revert lx; refine kept_lock ?_; intro lx)
    | with_reducible apply State.lostDup_kept
    | with_reducible apply State.record_kept
    | with_reducible apply kept_ite
    | with_reducible apply kept_foldl
    | simp -zeta only [kept_mk, keptF_fold]
    | split

theorem State.noticeMismatch_kept (h : Half) (e : Nat) {s : State} (hs : Kept pq va s) : Kept pq va (State.noticeMismatch h e s) := by
  unfold State.noticeMismatch
  repeat' first
    | with_reducible assumption
    | intro _
    | (extract_lets +onlyGivenNames lx; refine (fun (hlx : Kept pq va lx) => ?_ : Kept pq va lx → _) ?_; rotate_left; simp -zeta only [lx]; clear lx; rotate_right; clear_value lx; revert lx; refine kept_lock ?_; intro lx hlx)
    | (extract_lets +onlyGivenNames lx; clear_value lx; revert lx; refine kept_lock ?_; intro lx)
    | with_reducible apply State.setStall_kept
    | with_reducible apply State.siteFault_kept
    | with_reducible apply State.taintQueued_kept
    | with_reducible apply kept_ite
    | with_reducible apply kept_foldl
    | simp -zeta only [kept_mk, keptF_fold]
    | split

theorem State.noticeOver_kept (h : Half) (e : Nat) {s : State} (hs : Kept pq va s) : Kept pq va (State.noticeOver h e s) := by
  unfold State.noticeOver
  repeat' first
    | with_reducible assumption
    | intro _
    | (extract_lets +onlyGivenNames lx; refine (fun (hlx : Kept pq va lx) => ?_ : Kept pq va lx → _) ?_; rotate_left; simp -zeta only [lx]; clear lx; rotate_right; clear_value lx; revert lx; refine kept_lock ?_; intro lx hlx)
    | (extract_lets +onlyGivenNames lx; clear_value lx; revert lx; refine kept_lock ?_; intro lx)
    | with_reducible apply State.noticeMismatch_kept
    | with_reducible apply kept_ite
    | with_reducible apply kept_foldl
    | simp -zeta only [kept_mk, keptF_fold]
    | split

theorem State.stallTry_kept (h : Half) (e : Nat) {s : State} (hs : Kept pq va s) : Kept pq va (State.stallTry h e s) := by
  unfold State.stallTry
  repeat' first
    | with_reducible assumption
    | intro _
    | (extract_lets +onlyGivenNames lx; refine (fun (hlx : Kept pq va lx) => ?_ : Kept pq va lx → _) ?_; rotate_left; simp -zeta only [lx]; clear lx; rotate_right; clear_value lx; revert lx; refine kept_lock ?_; intro lx hlx)
    | (extract_lets +onlyGivenNames lx; clear_value lx; revert lx; refine kept_lock ?_; intro lx)
    | with_reducible apply State.addUnit_kept
    | with_reducible apply State.noticeMismatch_kept
    | with_reducible apply State.setStall_kept
    | with_reducible apply State.stallDone_kept
    | with_reducible apply kept_ite
    | with_reducible apply kept_foldl
    | simp -zeta only [kept_mk, keptF_fold]
    | split

theorem State.taintSource_kept (h : Half) (i : Nat) {s : State} (hs : Kept pq va s) : Kept pq va (State.taintSource h i s) := by
  unfold State.taintSource
  repeat' first
    | with_reducible assumption
    | intro _
    | (extract_lets +onlyGivenNames lx; refine (fun (hlx : Kept pq va lx) => ?_ : Kept pq va lx → _) ?_; rotate_left; simp -zeta only [lx]; clear lx; rotate_right; clear_value lx; revert lx; refine kept_lock ?_; intro lx hlx)
    | (extract_lets +onlyGivenNames lx; clear_value lx; revert lx; refine kept_lock ?_; intro lx)
    | with_reducible apply State.modSite_kept
    | with_reducible apply State.taintQueued_kept
    | with_reducible apply kept_ite
    | with_reducible apply kept_foldl
    | simp -zeta only [kept_mk, keptF_fold]
    | split

theorem State.barrowTry_kept (h : Half) (i : Nat) {s : State} (hs : Kept pq va s) : Kept pq va (State.barrowTry h i s) := by
  unfold State.barrowTry
  repeat' first
    | with_reducible assumption
    | intro _
    | (extract_lets +onlyGivenNames lx; refine (fun (hlx : Kept pq va lx) => ?_ : Kept pq va lx → _) ?_; rotate_left; simp -zeta only [lx]; clear lx; rotate_right; clear_value lx; revert lx; refine kept_lock ?_; intro lx hlx)
    | (extract_lets +onlyGivenNames lx; clear_value lx; revert lx; refine kept_lock ?_; intro lx)
    | with_reducible apply State.fwdAcked_kept
    | with_reducible apply State.modSite_kept
    | with_reducible apply State.sendAck_kept
    | with_reducible apply State.siteFault_kept
    | with_reducible apply State.taintSource_kept
    | with_reducible apply kept_ite
    | with_reducible apply kept_foldl
    | simp -zeta only [kept_mk, keptF_fold]
    | split

theorem State.siteSettle_kept (h : Half) {s : State} (hs : Kept pq va s) : Kept pq va (State.siteSettle h s) := by
  unfold State.siteSettle
  repeat' first
    | with_reducible assumption
    | intro _
    | (extract_lets +onlyGivenNames lx; refine (fun (hlx : Kept pq va lx) => ?_ : Kept pq va lx → _) ?_; rotate_left; simp -zeta only [lx]; clear lx; rotate_right; clear_value lx; revert lx; refine kept_lock ?_; intro lx hlx)
    | (extract_lets +onlyGivenNames lx; clear_value lx; revert lx; refine kept_lock ?_; intro lx)
    | with_reducible apply State.barrowTry_kept
    | with_reducible apply State.regionDue_kept
    | with_reducible apply State.returnHeaders_kept
    | with_reducible apply State.stallTry_kept
    | with_reducible apply kept_ite
    | with_reducible apply kept_foldl
    | simp -zeta only [kept_mk, keptF_fold]
    | split

theorem State.loseSource_kept (h : Half) (i : Nat) {s : State} (hs : Kept pq va s) : Kept pq va (State.loseSource h i s) := by
  unfold State.loseSource
  repeat' first
    | with_reducible assumption
    | intro _
    | (extract_lets +onlyGivenNames lx; refine (fun (hlx : Kept pq va lx) => ?_ : Kept pq va lx → _) ?_; rotate_left; simp -zeta only [lx]; clear lx; rotate_right; clear_value lx; revert lx; refine kept_lock ?_; intro lx hlx)
    | (extract_lets +onlyGivenNames lx; clear_value lx; revert lx; refine kept_lock ?_; intro lx)
    | with_reducible apply State.modSite_kept
    | with_reducible apply kept_ite
    | with_reducible apply kept_foldl
    | simp -zeta only [kept_mk, keptF_fold]
    | split

theorem State.siteDead_kept (i : Nat) {s : State} (hs : Kept pq va s) : Kept pq va (State.siteDead i s) := by
  unfold State.siteDead
  repeat' first
    | with_reducible assumption
    | intro _
    | (extract_lets +onlyGivenNames lx; refine (fun (hlx : Kept pq va lx) => ?_ : Kept pq va lx → _) ?_; rotate_left; simp -zeta only [lx]; clear lx; rotate_right; clear_value lx; revert lx; refine kept_lock ?_; intro lx hlx)
    | (extract_lets +onlyGivenNames lx; clear_value lx; revert lx; refine kept_lock ?_; intro lx)
    | with_reducible apply State.loseSource_kept
    | with_reducible apply State.setTokQueue_kept
    | with_reducible apply State.siteSettle_kept
    | with_reducible apply kept_ite
    | with_reducible apply kept_foldl
    | simp -zeta only [kept_mk, keptF_fold]
    | split

theorem State.siteNotice_kept (h : Half) (e : Nat) (src : Nat) (n : Nat) (final : Bool) {s : State} (hs : Kept pq va s) : Kept pq va (State.siteNotice h e src n final s) := by
  unfold State.siteNotice
  repeat' first
    | with_reducible assumption
    | intro _
    | (extract_lets +onlyGivenNames lx; refine (fun (hlx : Kept pq va lx) => ?_ : Kept pq va lx → _) ?_; rotate_left; simp -zeta only [lx]; clear lx; rotate_right; clear_value lx; revert lx; refine kept_lock ?_; intro lx hlx)
    | (extract_lets +onlyGivenNames lx; clear_value lx; revert lx; refine kept_lock ?_; intro lx)
    | with_reducible apply State.loseSource_kept
    | with_reducible apply State.modSite_kept
    | with_reducible apply State.noticeOver_kept
    | with_reducible apply kept_ite
    | with_reducible apply kept_foldl
    | simp -zeta only [kept_mk, keptF_fold]
    | split

theorem execReservationNoticeReceive_kept (home : Node) (record : List Byte) {s : State} (hs : Kept pq va s) : KeptOut pq va (execReservationNoticeReceive home record s) := by
  unfold execReservationNoticeReceive
  repeat' first
    | with_reducible assumption
    | intro _
    | (extract_lets +onlyGivenNames lx; refine (fun (hlx : Kept pq va lx) => ?_ : Kept pq va lx → _) ?_; rotate_left; simp -zeta only [lx]; clear lx; rotate_right; clear_value lx; revert lx; refine kept_lock ?_; intro lx hlx)
    | (extract_lets +onlyGivenNames lx; clear_value lx; revert lx; refine kept_lock ?_; intro lx)
    | with_reducible apply keptOut_next
    | with_reducible apply keptOut_ite
    | with_reducible apply State.loadAdd_kept
    | with_reducible apply State.siteNotice_kept
    | with_reducible apply State.siteSettle_kept
    | with_reducible apply kept_ite
    | with_reducible apply kept_foldl
    | simp -zeta only [kept_mk, keptF_fold]
    | split
    | (with_reducible refine State.siteEnter_kept' (by with_reducible assumption) ?_)

theorem State.siteRelease_kept (h : Half) (i : Nat) (e : Nat) (off : Nat) {s : State} (hs : Kept pq va s) : Kept pq va (State.siteRelease h i e off s) := by
  unfold State.siteRelease
  repeat' first
    | with_reducible assumption
    | intro _
    | (extract_lets +onlyGivenNames lx; refine (fun (hlx : Kept pq va lx) => ?_ : Kept pq va lx → _) ?_; rotate_left; simp -zeta only [lx]; clear lx; rotate_right; clear_value lx; revert lx; refine kept_lock ?_; intro lx hlx)
    | (extract_lets +onlyGivenNames lx; clear_value lx; revert lx; refine kept_lock ?_; intro lx)
    | with_reducible apply State.modSite_kept
    | with_reducible apply State.siteFault_kept
    | with_reducible apply kept_ite
    | with_reducible apply kept_foldl
    | simp -zeta only [kept_mk, keptF_fold]
    | split

theorem execReleaseReceiveSite_kept (src : Node) (record : List Byte) {s : State} (hs : Kept pq va s) : KeptOut pq va (execReleaseReceiveSite src record s) := by
  unfold execReleaseReceiveSite
  repeat' first
    | with_reducible assumption
    | intro _
    | (extract_lets +onlyGivenNames lx; refine (fun (hlx : Kept pq va lx) => ?_ : Kept pq va lx → _) ?_; rotate_left; simp -zeta only [lx]; clear lx; rotate_right; clear_value lx; revert lx; refine kept_lock ?_; intro lx hlx)
    | (extract_lets +onlyGivenNames lx; clear_value lx; revert lx; refine kept_lock ?_; intro lx)
    | with_reducible apply keptOut_next
    | with_reducible apply keptOut_ite
    | with_reducible apply State.siteRelease_kept
    | with_reducible apply State.siteSettle_kept
    | with_reducible apply kept_ite
    | with_reducible apply kept_foldl
    | simp -zeta only [kept_mk, keptF_fold]
    | split
    | (with_reducible refine State.siteEnter_kept' (by with_reducible assumption) ?_)

theorem State.countChunk_kept (h : Half) (i : Nat) (n : Nat) {s : State} (hs : Kept pq va s) : Kept pq va (State.countChunk h i n s) := by
  unfold State.countChunk
  repeat' first
    | with_reducible assumption
    | intro _
    | (extract_lets +onlyGivenNames lx; refine (fun (hlx : Kept pq va lx) => ?_ : Kept pq va lx → _) ?_; rotate_left; simp -zeta only [lx]; clear lx; rotate_right; clear_value lx; revert lx; refine kept_lock ?_; intro lx hlx)
    | (extract_lets +onlyGivenNames lx; clear_value lx; revert lx; refine kept_lock ?_; intro lx)
    | with_reducible apply State.modSite_kept
    | with_reducible apply kept_ite
    | with_reducible apply kept_foldl
    | simp -zeta only [kept_mk, keptF_fold]
    | split

theorem State.siteHeader_kept (h : Half) (i : Nat) (bytes : List Byte) (ok : Bool) {s : State} (hs : Kept pq va s) : Kept pq va (State.siteHeader h i bytes ok s) := by
  unfold State.siteHeader
  repeat' first
    | with_reducible assumption
    | intro _
    | (extract_lets +onlyGivenNames lx; refine (fun (hlx : Kept pq va lx) => ?_ : Kept pq va lx → _) ?_; rotate_left; simp -zeta only [lx]; clear lx; rotate_right; clear_value lx; revert lx; refine kept_lock ?_; intro lx hlx)
    | (extract_lets +onlyGivenNames lx; clear_value lx; revert lx; refine kept_lock ?_; intro lx)
    | with_reducible apply State.bellSkew_kept
    | with_reducible apply State.countChunk_kept
    | with_reducible apply State.modSite_kept
    | with_reducible apply kept_ite
    | with_reducible apply kept_foldl
    | simp -zeta only [kept_mk, keptF_fold]
    | split

theorem State.regionCount_kept (h : Half) (off : Nat) (n : Nat) {s : State} (hs : Kept pq va s) : Kept pq va (State.regionCount h off n s) := by
  unfold State.regionCount
  repeat' first
    | with_reducible assumption
    | intro _
    | (extract_lets +onlyGivenNames lx; refine (fun (hlx : Kept pq va lx) => ?_ : Kept pq va lx → _) ?_; rotate_left; simp -zeta only [lx]; clear lx; rotate_right; clear_value lx; revert lx; refine kept_lock ?_; intro lx hlx)
    | (extract_lets +onlyGivenNames lx; clear_value lx; revert lx; refine kept_lock ?_; intro lx)
    | with_reducible apply State.modRound_kept
    | with_reducible apply kept_ite
    | with_reducible apply kept_foldl
    | simp -zeta only [kept_mk, keptF_fold]
    | split

theorem State.sitePart_kept (h : Half) (i : Nat) (job : Nat) (prio : Nat) (tag : W64) (bytes : List Byte) (ok : Bool) {s : State} (hs : Kept pq va s) : Kept pq va (State.sitePart h i job prio tag bytes ok s) := by
  unfold State.sitePart
  repeat' first
    | with_reducible assumption
    | intro _
    | (extract_lets +onlyGivenNames lx; refine (fun (hlx : Kept pq va lx) => ?_ : Kept pq va lx → _) ?_; rotate_left; simp -zeta only [lx]; clear lx; rotate_right; clear_value lx; revert lx; refine kept_lock ?_; intro lx hlx)
    | (extract_lets +onlyGivenNames lx; clear_value lx; revert lx; refine kept_lock ?_; intro lx)
    | with_reducible apply State.countChunk_kept
    | with_reducible apply State.modSite_kept
    | with_reducible apply State.regionCount_kept
    | with_reducible apply State.regionWrite_kept
    | with_reducible apply kept_ite
    | with_reducible apply kept_foldl
    | simp -zeta only [kept_mk, keptF_fold]
    | split

theorem State.siteTake_kept (h : Half) (src : Node) (i : Nat) (job : Nat) (prio : Nat) (tag : W64) (bytes : List Byte) (ok : Bool) {s : State} (hs : Kept pq va s) : Kept pq va (State.siteTake h src i job prio tag bytes ok s) := by
  unfold State.siteTake
  repeat' first
    | with_reducible assumption
    | intro _
    | (extract_lets +onlyGivenNames lx; refine (fun (hlx : Kept pq va lx) => ?_ : Kept pq va lx → _) ?_; rotate_left; simp -zeta only [lx]; clear lx; rotate_right; clear_value lx; revert lx; refine kept_lock ?_; intro lx hlx)
    | (extract_lets +onlyGivenNames lx; clear_value lx; revert lx; refine kept_lock ?_; intro lx)
    | with_reducible apply State.chunkFault_kept
    | with_reducible apply State.discardHandle_kept
    | with_reducible apply State.siteHeader_kept
    | with_reducible apply State.sitePart_kept
    | with_reducible apply kept_ite
    | with_reducible apply kept_foldl
    | simp -zeta only [kept_mk, keptF_fold]
    | split

theorem State.lastEarly_kept (h : Half) (i : Nat) (tag : W64) {s : State} (hs : Kept pq va s) : Kept pq va (State.lastEarly h i tag s) := by
  unfold State.lastEarly
  repeat' first
    | with_reducible assumption
    | intro _
    | (extract_lets +onlyGivenNames lx; refine (fun (hlx : Kept pq va lx) => ?_ : Kept pq va lx → _) ?_; rotate_left; simp -zeta only [lx]; clear lx; rotate_right; clear_value lx; revert lx; refine kept_lock ?_; intro lx hlx)
    | (extract_lets +onlyGivenNames lx; clear_value lx; revert lx; refine kept_lock ?_; intro lx)
    | with_reducible apply State.tallyAdd_kept
    | with_reducible apply kept_ite
    | with_reducible apply kept_foldl
    | simp -zeta only [kept_mk, keptF_fold]
    | split

theorem State.siteChunk_kept (h : Half) (src : Node) (job : Nat) (prio : Nat) (tag : W64) (bytes : List Byte) (crc : BitVec 32) {s : State} (hs : Kept pq va s) : Kept pq va (State.siteChunk h src job prio tag bytes crc s) := by
  unfold State.siteChunk
  repeat' first
    | with_reducible assumption
    | intro _
    | (extract_lets +onlyGivenNames lx; refine (fun (hlx : Kept pq va lx) => ?_ : Kept pq va lx → _) ?_; rotate_left; simp -zeta only [lx]; clear lx; rotate_right; clear_value lx; revert lx; refine kept_lock ?_; intro lx hlx)
    | (extract_lets +onlyGivenNames lx; clear_value lx; revert lx; refine kept_lock ?_; intro lx)
    | with_reducible apply State.chunkFault_kept
    | with_reducible apply State.crcFault_kept
    | with_reducible apply State.lastEarly_kept
    | with_reducible apply State.modSite_kept
    | with_reducible apply State.siteSettle_kept
    | with_reducible apply State.siteTake_kept
    | with_reducible apply kept_ite
    | with_reducible apply kept_foldl
    | simp -zeta only [kept_mk, keptF_fold]
    | split

theorem State.aheadChunk_kept (h : Half) (src : Node) (job : Nat) (prio : Nat) (tag : W64) (bytes : List Byte) (crc : BitVec 32) {t : State} {s : State} (hs : Kept pq va t) (hs : Kept pq va s) : Kept pq va (State.aheadChunk h src job prio tag bytes crc t s) := by
  unfold State.aheadChunk
  repeat' first
    | with_reducible assumption
    | intro _
    | (extract_lets +onlyGivenNames lx; refine (fun (hlx : Kept pq va lx) => ?_ : Kept pq va lx → _) ?_; rotate_left; simp -zeta only [lx]; clear lx; rotate_right; clear_value lx; revert lx; refine kept_lock ?_; intro lx hlx)
    | (extract_lets +onlyGivenNames lx; clear_value lx; revert lx; refine kept_lock ?_; intro lx)
    | with_reducible apply State.chunkFault_kept
    | with_reducible apply State.crcFault_kept
    | with_reducible apply State.modSite_kept
    | with_reducible apply State.siteChunk_kept
    | with_reducible apply kept_ite
    | with_reducible apply kept_foldl
    | simp -zeta only [kept_mk, keptF_fold]
    | split

theorem State.forwardChunk_kept (src : Node) (job : Nat) (prio : Nat) (tag : W64) (bytes : List Byte) (crc : BitVec 32) {s : State} (hs : Kept pq va s) : Kept pq va (State.forwardChunk src job prio tag bytes crc s) := by
  unfold State.forwardChunk
  repeat' first
    | with_reducible assumption
    | intro _
    | (extract_lets +onlyGivenNames lx; refine (fun (hlx : Kept pq va lx) => ?_ : Kept pq va lx → _) ?_; rotate_left; simp -zeta only [lx]; clear lx; rotate_right; clear_value lx; revert lx; refine kept_lock ?_; intro lx hlx)
    | (extract_lets +onlyGivenNames lx; clear_value lx; revert lx; refine kept_lock ?_; intro lx)
    | with_reducible apply State.aheadChunk_kept
    | with_reducible apply State.lifeAdd_kept
    | with_reducible apply State.siteChunk_kept
    | with_reducible apply State.tallyAdd_kept
    | with_reducible apply kept_ite
    | with_reducible apply kept_foldl
    | simp -zeta only [kept_mk, keptF_fold]
    | split
    | (with_reducible refine State.siteEnter_kept' (by with_reducible assumption) ?_)

theorem execTokChunkReceive_kept (src : Node) (tag : W64) (bytes : List Byte) (crc : BitVec 32) {s : State} (hs : Kept pq va s) : KeptOut pq va (execTokChunkReceive src tag bytes crc s) := by
  unfold execTokChunkReceive
  repeat' first
    | with_reducible assumption
    | intro _
    | (extract_lets +onlyGivenNames lx; refine (fun (hlx : Kept pq va lx) => ?_ : Kept pq va lx → _) ?_; rotate_left; simp -zeta only [lx]; clear lx; rotate_right; clear_value lx; revert lx; refine kept_lock ?_; intro lx hlx)
    | (extract_lets +onlyGivenNames lx; clear_value lx; revert lx; refine kept_lock ?_; intro lx)
    | with_reducible apply keptOut_next
    | with_reducible apply keptOut_ite
    | with_reducible apply State.forwardChunk_kept
    | with_reducible apply State.takeTok_kept
    | with_reducible apply kept_ite
    | with_reducible apply kept_foldl
    | simp -zeta only [kept_mk, keptF_fold]
    | split
    | (with_reducible refine State.takeTok_kept' (by with_reducible assumption) ?_)

end Sys2Proof.Machine
end

