-- ==== Sys2Proof/Laws/Mins.lean ====
section
/-! SUPPORT. What each operation of Machine/Mins.lean keeps (Laws/Kept.lean). -/
namespace Sys2Proof.Machine

variable {pq : List Instr} {va : Bool}

theorem State.showMins_kept {s : State} (hs : Kept pq va s) : Kept pq va (State.showMins s) := by
  unfold State.showMins
  repeat' first
    | with_reducible assumption
    | intro _
    | (extract_lets +onlyGivenNames lx; refine (fun (hlx : Kept pq va lx) => ?_ : Kept pq va lx → _) ?_; rotate_left; simp -zeta only [lx]; clear lx; rotate_right; clear_value lx; revert lx; refine kept_lock ?_; intro lx hlx)
    | (extract_lets +onlyGivenNames lx; clear_value lx; revert lx; refine kept_lock ?_; intro lx)
    | with_reducible apply State.setReg_kept
    | with_reducible apply kept_ite
    | with_reducible apply kept_foldl
    | simp -zeta only [kept_mk, keptF_fold]
    | split

end Sys2Proof.Machine
end

