-- ==== Sys2Proof/Laws/Forward.lean ====
section
/-! SUPPORT. What each operation of Machine/Forward.lean keeps (Laws/Kept.lean). -/
set_option linter.all false
namespace Sys2Proof.Machine

variable {pq : List Instr} {va : Bool}

theorem State.dequeue_kept (i : Nat) {s : State} (hs : Kept pq va s) : Kept pq va (State.dequeue i s) := by
  unfold State.dequeue
  repeat' first
    | with_reducible assumption
    | intro _
    | (extract_lets +onlyGivenNames lx; refine (fun (hlx : Kept pq va lx) => ?_ : Kept pq va lx → _) ?_; rotate_left; simp -zeta only [lx]; clear lx; rotate_right; clear_value lx; revert lx; refine kept_lock ?_; intro lx hlx)
    | (extract_lets +onlyGivenNames lx; clear_value lx; revert lx; refine kept_lock ?_; intro lx)
    | with_reducible apply kept_ite
    | with_reducible apply kept_foldl
    | simp -zeta only [kept_mk, keptF_fold]
    | split

theorem State.refuseJob_kept (p : Packet) {s : State} (hs : Kept pq va s) : Kept pq va (State.refuseJob p s) := by
  unfold State.refuseJob
  repeat' first
    | with_reducible assumption
    | intro _
    | (extract_lets +onlyGivenNames lx; refine (fun (hlx : Kept pq va lx) => ?_ : Kept pq va lx → _) ?_; rotate_left; simp -zeta only [lx]; clear lx; rotate_right; clear_value lx; revert lx; refine kept_lock ?_; intro lx hlx)
    | (extract_lets +onlyGivenNames lx; clear_value lx; revert lx; refine kept_lock ?_; intro lx)
    | with_reducible apply State.discarded_kept
    | with_reducible apply State.passReq_kept
    | with_reducible apply State.routeFault_kept
    | with_reducible apply State.sendRsp_kept
    | with_reducible apply kept_ite
    | with_reducible apply kept_foldl
    | simp -zeta only [kept_mk, keptF_fold]
    | split

theorem State.deliver_kept (p : Packet) {s : State} (hs : Kept pq va s) : Kept pq va (State.deliver p s) := by
  unfold State.deliver
  repeat' first
    | with_reducible assumption
    | intro _
    | (extract_lets +onlyGivenNames lx; refine (fun (hlx : Kept pq va lx) => ?_ : Kept pq va lx → _) ?_; rotate_left; simp -zeta only [lx]; clear lx; rotate_right; clear_value lx; revert lx; refine kept_lock ?_; intro lx hlx)
    | (extract_lets +onlyGivenNames lx; clear_value lx; revert lx; refine kept_lock ?_; intro lx)
    | with_reducible apply State.acknowledge_kept
    | with_reducible apply State.refuseJob_kept
    | with_reducible apply State.tallyAdd_kept
    | with_reducible apply State.windowTake_kept
    | with_reducible apply kept_ite
    | with_reducible apply kept_foldl
    | simp -zeta only [kept_mk, keptF_fold]
    | split
    | (with_reducible refine State.windowTake_kept' (by with_reducible assumption) ?_)

theorem State.setOut_kept (k : Nat) (i : Nat) (p : Packet) {s : State} (hs : Kept pq va s) : Kept pq va (State.setOut k i p s) := by
  unfold State.setOut
  repeat' first
    | with_reducible assumption
    | intro _
    | (extract_lets +onlyGivenNames lx; refine (fun (hlx : Kept pq va lx) => ?_ : Kept pq va lx → _) ?_; rotate_left; simp -zeta only [lx]; clear lx; rotate_right; clear_value lx; revert lx; refine kept_lock ?_; intro lx hlx)
    | (extract_lets +onlyGivenNames lx; clear_value lx; revert lx; refine kept_lock ?_; intro lx)
    | with_reducible apply State.setLink_kept
    | with_reducible apply kept_ite
    | with_reducible apply kept_foldl
    | simp -zeta only [kept_mk, keptF_fold]
    | split

theorem State.joinEntry_kept (k : Nat) (i : Nat) (q : Packet) (p : Packet) (c : Combine) {s : State} (hs : Kept pq va s) : Kept pq va (State.joinEntry k i q p c s) := by
  unfold State.joinEntry
  repeat' first
    | with_reducible assumption
    | intro _
    | (extract_lets +onlyGivenNames lx; refine (fun (hlx : Kept pq va lx) => ?_ : Kept pq va lx → _) ?_; rotate_left; simp -zeta only [lx]; clear lx; rotate_right; clear_value lx; revert lx; refine kept_lock ?_; intro lx hlx)
    | (extract_lets +onlyGivenNames lx; clear_value lx; revert lx; refine kept_lock ?_; intro lx)
    | with_reducible apply State.modOutst_kept
    | with_reducible apply State.msemTally_kept
    | with_reducible apply State.putOut_kept
    | with_reducible apply State.setOut_kept
    | with_reducible apply kept_ite
    | with_reducible apply kept_foldl
    | simp -zeta only [kept_mk, keptF_fold]
    | split

theorem State.newEntry_kept (k : Nat) (i : Nat) (q : Packet) (p : Packet) {s : State} (hs : Kept pq va s) : Kept pq va (State.newEntry k i q p s) := by
  unfold State.newEntry
  repeat' first
    | with_reducible assumption
    | intro _
    | (extract_lets +onlyGivenNames lx; refine (fun (hlx : Kept pq va lx) => ?_ : Kept pq va lx → _) ?_; rotate_left; simp -zeta only [lx]; clear lx; rotate_right; clear_value lx; revert lx; refine kept_lock ?_; intro lx hlx)
    | (extract_lets +onlyGivenNames lx; clear_value lx; revert lx; refine kept_lock ?_; intro lx)
    | with_reducible apply State.msemTally_kept
    | with_reducible apply State.putOut_kept
    | with_reducible apply State.setLink_kept
    | with_reducible apply State.setOut_kept
    | with_reducible apply State.showMsem_kept
    | with_reducible apply kept_ite
    | with_reducible apply kept_foldl
    | simp -zeta only [kept_mk, keptF_fold]
    | split

theorem State.putReq_kept (k : Nat) (p : Packet) {s : State} (hs : Kept pq va s) : Kept pq va (State.putReq k p s) := by
  unfold State.putReq
  repeat' first
    | with_reducible assumption
    | intro _
    | (extract_lets +onlyGivenNames lx; refine (fun (hlx : Kept pq va lx) => ?_ : Kept pq va lx → _) ?_; rotate_left; simp -zeta only [lx]; clear lx; rotate_right; clear_value lx; revert lx; refine kept_lock ?_; intro lx hlx)
    | (extract_lets +onlyGivenNames lx; clear_value lx; revert lx; refine kept_lock ?_; intro lx)
    | with_reducible apply State.joinEntry_kept
    | with_reducible apply State.newEntry_kept
    | with_reducible apply State.putOut_kept
    | with_reducible apply kept_ite
    | with_reducible apply kept_foldl
    | simp -zeta only [kept_mk, keptF_fold]
    | split

theorem State.emitTo_kept (q : RQ) (k : Nat) (p : Packet) (subst : Bool) {s : State} (hs : Kept pq va s) : Kept pq va (State.emitTo q k p subst s) := by
  unfold State.emitTo
  repeat' first
    | with_reducible assumption
    | intro _
    | (extract_lets +onlyGivenNames lx; refine (fun (hlx : Kept pq va lx) => ?_ : Kept pq va lx → _) ?_; rotate_left; simp -zeta only [lx]; clear lx; rotate_right; clear_value lx; revert lx; refine kept_lock ?_; intro lx hlx)
    | (extract_lets +onlyGivenNames lx; clear_value lx; revert lx; refine kept_lock ?_; intro lx)
    | with_reducible apply State.freeInput_kept
    | with_reducible apply State.lifeAdd_kept
    | with_reducible apply State.putOut_kept
    | with_reducible apply State.putReq_kept
    | with_reducible apply State.setLink_kept
    | with_reducible apply State.tallyAdd_kept
    | with_reducible apply kept_ite
    | with_reducible apply kept_foldl
    | simp -zeta only [kept_mk, keptF_fold]
    | split

theorem State.injectFails_kept (p : Packet) (status : Nat) {s : State} (hs : Kept pq va s) : Kept pq va (State.injectFails p status s) := by
  unfold State.injectFails
  repeat' first
    | with_reducible assumption
    | intro _
    | (extract_lets +onlyGivenNames lx; refine (fun (hlx : Kept pq va lx) => ?_ : Kept pq va lx → _) ?_; rotate_left; simp -zeta only [lx]; clear lx; rotate_right; clear_value lx; revert lx; refine kept_lock ?_; intro lx hlx)
    | (extract_lets +onlyGivenNames lx; clear_value lx; revert lx; refine kept_lock ?_; intro lx)
    | with_reducible apply State.finishReq_kept
    | with_reducible apply kept_ite
    | with_reducible apply kept_foldl
    | simp -zeta only [kept_mk, keptF_fold]
    | split

theorem State.inject_kept (p : Packet) {s : State} (hs : Kept pq va s) : Kept pq va (State.inject p s).2 := by
  unfold State.inject
  repeat' first
    | with_reducible assumption
    | intro _
    | (extract_lets +onlyGivenNames lx; refine (fun (hlx : Kept pq va lx) => ?_ : Kept pq va lx → _) ?_; rotate_left; simp -zeta only [lx]; clear lx; rotate_right; clear_value lx; revert lx; refine kept_lock ?_; intro lx hlx)
    | (extract_lets +onlyGivenNames lx; clear_value lx; revert lx; refine kept_lock ?_; intro lx)
    | with_reducible apply kept_ite
    | with_reducible apply kept_foldl
    | simp -zeta only [kept_mk, keptF_fold]
    | split

theorem State.inject_kept' {p : Packet} {s : State}  {r : _} {t : State} (he : State.inject p s = (r, t)) (hs : Kept pq va s) : Kept pq va t := by
  have := State.inject_kept p hs
  rwa [he] at this

theorem State.discard_kept (i : Nat) (q : RQ) (code : Nat) (status : Nat) {s : State} (hs : Kept pq va s) : Kept pq va (State.discard i q code status s) := by
  unfold State.discard
  repeat' first
    | with_reducible assumption
    | intro _
    | (extract_lets +onlyGivenNames lx; refine (fun (hlx : Kept pq va lx) => ?_ : Kept pq va lx → _) ?_; rotate_left; simp -zeta only [lx]; clear lx; rotate_right; clear_value lx; revert lx; refine kept_lock ?_; intro lx hlx)
    | (extract_lets +onlyGivenNames lx; clear_value lx; revert lx; refine kept_lock ?_; intro lx)
    | with_reducible apply State.dequeue_kept
    | with_reducible apply State.discarded_kept
    | with_reducible apply State.freeInput_kept
    | with_reducible apply State.injectFails_kept
    | with_reducible apply State.routeFault_kept
    | with_reducible apply kept_ite
    | with_reducible apply kept_foldl
    | simp -zeta only [kept_mk, keptF_fold]
    | split

theorem State.forwardTo_kept (i : Nat) (q : RQ) (k : Nat) (p : Packet) (subst : Bool) {s : State} (hs : Kept pq va s) : Kept pq va (State.forwardTo i q k p subst s) := by
  unfold State.forwardTo
  repeat' first
    | with_reducible assumption
    | intro _
    | (extract_lets +onlyGivenNames lx; refine (fun (hlx : Kept pq va lx) => ?_ : Kept pq va lx → _) ?_; rotate_left; simp -zeta only [lx]; clear lx; rotate_right; clear_value lx; revert lx; refine kept_lock ?_; intro lx hlx)
    | (extract_lets +onlyGivenNames lx; clear_value lx; revert lx; refine kept_lock ?_; intro lx)
    | with_reducible apply State.dequeue_kept
    | with_reducible apply State.emitTo_kept
    | with_reducible apply State.inject_kept
    | with_reducible apply kept_ite
    | with_reducible apply kept_foldl
    | simp -zeta only [kept_mk, keptF_fold]
    | split
    | (with_reducible refine State.inject_kept' (by with_reducible assumption) ?_)

theorem State.foundNone_kept (i : Nat) {s : State} (hs : Kept pq va s) : Kept pq va (State.foundNone i s) := by
  unfold State.foundNone
  repeat' first
    | with_reducible assumption
    | intro _
    | (extract_lets +onlyGivenNames lx; refine (fun (hlx : Kept pq va lx) => ?_ : Kept pq va lx → _) ?_; rotate_left; simp -zeta only [lx]; clear lx; rotate_right; clear_value lx; revert lx; refine kept_lock ?_; intro lx hlx)
    | (extract_lets +onlyGivenNames lx; clear_value lx; revert lx; refine kept_lock ?_; intro lx)
    | with_reducible apply kept_ite
    | with_reducible apply kept_foldl
    | simp -zeta only [kept_mk, keptF_fold]
    | split

theorem execPacketForward_kept (index : Nat) {s : State} (hs : Kept pq va s) : KeptOut pq va (execPacketForward index s) := by
  unfold execPacketForward
  repeat' first
    | with_reducible assumption
    | intro _
    | (extract_lets +onlyGivenNames lx; refine (fun (hlx : Kept pq va lx) => ?_ : Kept pq va lx → _) ?_; rotate_left; simp -zeta only [lx]; clear lx; rotate_right; clear_value lx; revert lx; refine kept_lock ?_; intro lx hlx)
    | (extract_lets +onlyGivenNames lx; clear_value lx; revert lx; refine kept_lock ?_; intro lx)
    | with_reducible apply keptOut_next
    | with_reducible apply keptOut_ite
    | with_reducible apply State.deliver_kept
    | with_reducible apply State.dequeue_kept
    | with_reducible apply State.discard_kept
    | with_reducible apply State.expired_kept
    | with_reducible apply State.floodFrom_kept
    | with_reducible apply State.forwardTo_kept
    | with_reducible apply State.foundNone_kept
    | with_reducible apply State.freeInput_kept
    | with_reducible apply State.oncePerBell_kept
    | with_reducible apply State.raise_kept
    | with_reducible apply State.routeFault_kept
    | with_reducible apply kept_ite
    | with_reducible apply kept_foldl
    | simp -zeta only [kept_mk, keptF_fold]
    | split

theorem execEscWaitTimeout_kept (index : Nat) {s : State} (hs : Kept pq va s) : KeptOut pq va (execEscWaitTimeout index s) := by
  unfold execEscWaitTimeout
  repeat' first
    | with_reducible assumption
    | intro _
    | (extract_lets +onlyGivenNames lx; refine (fun (hlx : Kept pq va lx) => ?_ : Kept pq va lx → _) ?_; rotate_left; simp -zeta only [lx]; clear lx; rotate_right; clear_value lx; revert lx; refine kept_lock ?_; intro lx hlx)
    | (extract_lets +onlyGivenNames lx; clear_value lx; revert lx; refine kept_lock ?_; intro lx)
    | with_reducible apply keptOut_next
    | with_reducible apply keptOut_ite
    | with_reducible apply State.linkTally_kept
    | with_reducible apply kept_ite
    | with_reducible apply kept_foldl
    | simp -zeta only [kept_mk, keptF_fold]
    | split

theorem execPacketExpiry_kept (index : Nat) {s : State} (hs : Kept pq va s) : KeptOut pq va (execPacketExpiry index s) := by
  unfold execPacketExpiry
  repeat' first
    | with_reducible assumption
    | intro _
    | (extract_lets +onlyGivenNames lx; refine (fun (hlx : Kept pq va lx) => ?_ : Kept pq va lx → _) ?_; rotate_left; simp -zeta only [lx]; clear lx; rotate_right; clear_value lx; revert lx; refine kept_lock ?_; intro lx hlx)
    | (extract_lets +onlyGivenNames lx; clear_value lx; revert lx; refine kept_lock ?_; intro lx)
    | with_reducible apply keptOut_next
    | with_reducible apply keptOut_ite
    | with_reducible apply State.dequeue_kept
    | with_reducible apply State.expired_kept
    | with_reducible apply State.freeInput_kept
    | with_reducible apply kept_ite
    | with_reducible apply kept_foldl
    | simp -zeta only [kept_mk, keptF_fold]
    | split

end Sys2Proof.Machine
end

