-- ==== Sys2Proof/Laws/Coll.lean ====
section
/-! SUPPORT. What each operation of Machine/Coll.lean keeps (Laws/Kept.lean). -/
set_option linter.all false
namespace Sys2Proof.Machine

variable {pq : List Instr} {va : Bool}

theorem State.setGroup_kept (g : Nat) (x : Group) {s : State} (hs : Kept pq va s) : Kept pq va (State.setGroup g x s) := by
  unfold State.setGroup
  repeat' first
    | with_reducible assumption
    | intro _
    | (extract_lets +onlyGivenNames lx; refine (fun (hlx : Kept pq va lx) => ?_ : Kept pq va lx → _) ?_; rotate_left; simp -zeta only [lx]; clear lx; rotate_right; clear_value lx; revert lx; refine kept_lock ?_; intro lx hlx)
    | (extract_lets +onlyGivenNames lx; clear_value lx; revert lx; refine kept_lock ?_; intro lx)
    | with_reducible apply kept_ite
    | with_reducible apply kept_foldl
    | simp -zeta only [kept_mk, keptF_fold]
    | split

theorem State.collFault_kept (code : Nat) (g : Nat) (seq : Nat) (status : Nat) (member : Nat) {s : State} (hs : Kept pq va s) : Kept pq va (State.collFault code g seq status member s) := by
  unfold State.collFault
  repeat' first
    | with_reducible assumption
    | intro _
    | (extract_lets +onlyGivenNames lx; refine (fun (hlx : Kept pq va lx) => ?_ : Kept pq va lx → _) ?_; rotate_left; simp -zeta only [lx]; clear lx; rotate_right; clear_value lx; revert lx; refine kept_lock ?_; intro lx hlx)
    | (extract_lets +onlyGivenNames lx; clear_value lx; revert lx; refine kept_lock ?_; intro lx)
    | with_reducible apply State.recordF_kept
    | with_reducible apply State.setReg_kept
    | with_reducible apply kept_ite
    | with_reducible apply kept_foldl
    | simp -zeta only [kept_mk, keptF_fold]
    | split

theorem State.failGroup_kept (g : Nat) (code : Nat) {s : State} (hs : Kept pq va s) : Kept pq va (State.failGroup g code s) := by
  unfold State.failGroup
  repeat' first
    | with_reducible assumption
    | intro _
    | (extract_lets +onlyGivenNames lx; refine (fun (hlx : Kept pq va lx) => ?_ : Kept pq va lx → _) ?_; rotate_left; simp -zeta only [lx]; clear lx; rotate_right; clear_value lx; revert lx; refine kept_lock ?_; intro lx hlx)
    | (extract_lets +onlyGivenNames lx; clear_value lx; revert lx; refine kept_lock ?_; intro lx)
    | with_reducible apply State.collFault_kept
    | with_reducible apply State.freeBufs_kept
    | with_reducible apply State.setGroup_kept
    | with_reducible apply kept_ite
    | with_reducible apply kept_foldl
    | simp -zeta only [kept_mk, keptF_fold]
    | split

theorem State.takeStaging_kept (cls : Nat) (ctx : Nat) (a2 : Nat) (a3 : List Nat) {a4 : State} (hs : Kept pq va a4) : Kept pq va (State.takeStaging cls ctx a2 a3 a4).2 := by
  induction a2 generalizing a3 a4 with
  | zero =>
    simp -zeta only [State.takeStaging]
    try exact hs
  | succ n ih =>
    rw [State.takeStaging]
    repeat' first
      | with_reducible assumption
      | intro _
      | (extract_lets +onlyGivenNames lx; refine (fun (hlx : Kept pq va lx) => ?_ : Kept pq va lx → _) ?_; rotate_left; simp -zeta only [lx]; clear lx; rotate_right; clear_value lx; revert lx; refine kept_lock ?_; intro lx hlx)
      | (extract_lets +onlyGivenNames lx; clear_value lx; revert lx; refine kept_lock ?_; intro lx)
      | with_reducible apply ih
      | with_reducible apply State.allocBuf_kept
      | with_reducible apply State.freeBufs_kept
      | with_reducible apply kept_ite
      | with_reducible apply kept_foldl
      | simp -zeta only [kept_mk, keptF_fold]
      | split
      | (with_reducible refine State.allocBuf_kept' (by with_reducible assumption) ?_)

theorem State.takeStaging_kept' {cls : Nat} {ctx : Nat} {a2 : Nat} {a3 : List Nat} {a4 : State}  {r : _} {t : State} (he : State.takeStaging cls ctx a2 a3 a4 = (r, t)) (hs : Kept pq va a4) : Kept pq va t := by
  have := State.takeStaging_kept cls ctx a2 a3 hs
  rwa [he] at this

theorem State.sendJoin_kept (g : Nat) {s : State} (hs : Kept pq va s) : Kept pq va (State.sendJoin g s) := by
  unfold State.sendJoin
  repeat' first
    | with_reducible assumption
    | intro _
    | (extract_lets +onlyGivenNames lx; refine (fun (hlx : Kept pq va lx) => ?_ : Kept pq va lx → _) ?_; rotate_left; simp -zeta only [lx]; clear lx; rotate_right; clear_value lx; revert lx; refine kept_lock ?_; intro lx hlx)
    | (extract_lets +onlyGivenNames lx; clear_value lx; revert lx; refine kept_lock ?_; intro lx)
    | with_reducible apply State.send_kept
    | with_reducible apply kept_ite
    | with_reducible apply kept_foldl
    | simp -zeta only [kept_mk, keptF_fold]
    | split

theorem State.createGroup_kept (g : Nat) {s : State} (hs : Kept pq va s) : Kept pq va (State.createGroup g s) := by
  unfold State.createGroup
  repeat' first
    | with_reducible assumption
    | intro _
    | (extract_lets +onlyGivenNames lx; refine (fun (hlx : Kept pq va lx) => ?_ : Kept pq va lx → _) ?_; rotate_left; simp -zeta only [lx]; clear lx; rotate_right; clear_value lx; revert lx; refine kept_lock ?_; intro lx hlx)
    | (extract_lets +onlyGivenNames lx; clear_value lx; revert lx; refine kept_lock ?_; intro lx)
    | with_reducible apply State.collFault_kept
    | with_reducible apply State.dataRead_kept
    | with_reducible apply State.failGroup_kept
    | with_reducible apply State.sendJoin_kept
    | with_reducible apply State.setGroup_kept
    | with_reducible apply State.takeStaging_kept
    | with_reducible apply kept_ite
    | with_reducible apply kept_foldl
    | simp -zeta only [kept_mk, keptF_fold]
    | split
    | (with_reducible refine State.dataRead_kept' (by with_reducible assumption) ?_)
    | (with_reducible refine State.takeStaging_kept' (by with_reducible assumption) ?_)

theorem State.freeGroup_kept (g : Nat) {s : State} (hs : Kept pq va s) : Kept pq va (State.freeGroup g s) := by
  unfold State.freeGroup
  repeat' first
    | with_reducible assumption
    | intro _
    | (extract_lets +onlyGivenNames lx; refine (fun (hlx : Kept pq va lx) => ?_ : Kept pq va lx → _) ?_; rotate_left; simp -zeta only [lx]; clear lx; rotate_right; clear_value lx; revert lx; refine kept_lock ?_; intro lx hlx)
    | (extract_lets +onlyGivenNames lx; clear_value lx; revert lx; refine kept_lock ?_; intro lx)
    | with_reducible apply State.freeBufs_kept
    | with_reducible apply State.setGroup_kept
    | with_reducible apply kept_ite
    | with_reducible apply kept_foldl
    | simp -zeta only [kept_mk, keptF_fold]
    | split

theorem State.collCreateWrite_kept (v : W64) {s : State} (hs : Kept pq va s) : Kept pq va (State.collCreateWrite v s) := by
  unfold State.collCreateWrite
  repeat' first
    | with_reducible assumption
    | intro _
    | (extract_lets +onlyGivenNames lx; refine (fun (hlx : Kept pq va lx) => ?_ : Kept pq va lx → _) ?_; rotate_left; simp -zeta only [lx]; clear lx; rotate_right; clear_value lx; revert lx; refine kept_lock ?_; intro lx hlx)
    | (extract_lets +onlyGivenNames lx; clear_value lx; revert lx; refine kept_lock ?_; intro lx)
    | with_reducible apply State.collFault_kept
    | with_reducible apply State.createGroup_kept
    | with_reducible apply State.dropWrite_kept
    | with_reducible apply State.freeGroup_kept
    | with_reducible apply State.gated_kept
    | with_reducible apply State.setFld_kept
    | with_reducible apply kept_ite
    | with_reducible apply kept_foldl
    | simp -zeta only [kept_mk, keptF_fold]
    | split

theorem execCollCreate_kept (v : W64) {s : State} (hs : Kept pq va s) : KeptOut pq va (execCollCreate v s) := by
  unfold execCollCreate
  repeat' first
    | with_reducible assumption
    | intro _
    | (extract_lets +onlyGivenNames lx; refine (fun (hlx : Kept pq va lx) => ?_ : Kept pq va lx → _) ?_; rotate_left; simp -zeta only [lx]; clear lx; rotate_right; clear_value lx; revert lx; refine kept_lock ?_; intro lx hlx)
    | (extract_lets +onlyGivenNames lx; clear_value lx; revert lx; refine kept_lock ?_; intro lx)
    | with_reducible apply keptOut_next
    | with_reducible apply keptOut_ite
    | with_reducible apply State.collCreateWrite_kept
    | with_reducible apply kept_ite
    | with_reducible apply kept_foldl
    | simp -zeta only [kept_mk, keptF_fold]
    | split

theorem execCollDestroy_kept (v : W64) {s : State} (hs : Kept pq va s) : KeptOut pq va (execCollDestroy v s) := by
  unfold execCollDestroy
  repeat' first
    | with_reducible assumption
    | intro _
    | (extract_lets +onlyGivenNames lx; refine (fun (hlx : Kept pq va lx) => ?_ : Kept pq va lx → _) ?_; rotate_left; simp -zeta only [lx]; clear lx; rotate_right; clear_value lx; revert lx; refine kept_lock ?_; intro lx hlx)
    | (extract_lets +onlyGivenNames lx; clear_value lx; revert lx; refine kept_lock ?_; intro lx)
    | with_reducible apply keptOut_next
    | with_reducible apply keptOut_ite
    | with_reducible apply State.collCreateWrite_kept
    | with_reducible apply kept_ite
    | with_reducible apply kept_foldl
    | simp -zeta only [kept_mk, keptF_fold]
    | split

theorem execJoinSend_kept (group : Nat) {s : State} (hs : Kept pq va s) : KeptOut pq va (execJoinSend group s) := by
  unfold execJoinSend
  repeat' first
    | with_reducible assumption
    | intro _
    | (extract_lets +onlyGivenNames lx; refine (fun (hlx : Kept pq va lx) => ?_ : Kept pq va lx → _) ?_; rotate_left; simp -zeta only [lx]; clear lx; rotate_right; clear_value lx; revert lx; refine kept_lock ?_; intro lx hlx)
    | (extract_lets +onlyGivenNames lx; clear_value lx; revert lx; refine kept_lock ?_; intro lx)
    | with_reducible apply keptOut_next
    | with_reducible apply keptOut_ite
    | with_reducible apply State.sendJoin_kept
    | with_reducible apply kept_ite
    | with_reducible apply kept_foldl
    | simp -zeta only [kept_mk, keptF_fold]
    | split

theorem State.colStale_kept {s : State} (hs : Kept pq va s) : Kept pq va (State.colStale s) := by
  unfold State.colStale
  repeat' first
    | with_reducible assumption
    | intro _
    | (extract_lets +onlyGivenNames lx; refine (fun (hlx : Kept pq va lx) => ?_ : Kept pq va lx → _) ?_; rotate_left; simp -zeta only [lx]; clear lx; rotate_right; clear_value lx; revert lx; refine kept_lock ?_; intro lx hlx)
    | (extract_lets +onlyGivenNames lx; clear_value lx; revert lx; refine kept_lock ?_; intro lx)
    | with_reducible apply State.tallyAdd_kept
    | with_reducible apply kept_ite
    | with_reducible apply kept_foldl
    | simp -zeta only [kept_mk, keptF_fold]
    | split

theorem State.withGroup_kept (p : Arrived) {f : State → State} {s : State} (hf : ∀ s, Kept pq va s → Kept pq va (f s)) (hs : Kept pq va s) : Kept pq va (State.withGroup p f s) := by
  unfold State.withGroup
  repeat' first
    | with_reducible assumption
    | intro _
    | (extract_lets +onlyGivenNames lx; refine (fun (hlx : Kept pq va lx) => ?_ : Kept pq va lx → _) ?_; rotate_left; simp -zeta only [lx]; clear lx; rotate_right; clear_value lx; revert lx; refine kept_lock ?_; intro lx hlx)
    | (extract_lets +onlyGivenNames lx; clear_value lx; revert lx; refine kept_lock ?_; intro lx)
    | with_reducible apply hf
    | with_reducible apply State.colStale_kept
    | with_reducible apply kept_ite
    | with_reducible apply kept_foldl
    | simp -zeta only [kept_mk, keptF_fold]
    | split

theorem State.groupReady_kept (g : Nat) (status : Nat) {s : State} (hs : Kept pq va s) : Kept pq va (State.groupReady g status s) := by
  unfold State.groupReady
  repeat' first
    | with_reducible assumption
    | intro _
    | (extract_lets +onlyGivenNames lx; refine (fun (hlx : Kept pq va lx) => ?_ : Kept pq va lx → _) ?_; rotate_left; simp -zeta only [lx]; clear lx; rotate_right; clear_value lx; revert lx; refine kept_lock ?_; intro lx hlx)
    | (extract_lets +onlyGivenNames lx; clear_value lx; revert lx; refine kept_lock ?_; intro lx)
    | with_reducible apply State.failGroup_kept
    | with_reducible apply State.setGroup_kept
    | with_reducible apply kept_ite
    | with_reducible apply kept_foldl
    | simp -zeta only [kept_mk, keptF_fold]
    | split

theorem State.allJoined_kept (g : Nat) {s : State} (hs : Kept pq va s) : Kept pq va (State.allJoined g s) := by
  unfold State.allJoined
  repeat' first
    | with_reducible assumption
    | intro _
    | (extract_lets +onlyGivenNames lx; refine (fun (hlx : Kept pq va lx) => ?_ : Kept pq va lx → _) ?_; rotate_left; simp -zeta only [lx]; clear lx; rotate_right; clear_value lx; revert lx; refine kept_lock ?_; intro lx hlx)
    | (extract_lets +onlyGivenNames lx; clear_value lx; revert lx; refine kept_lock ?_; intro lx)
    | with_reducible apply State.groupReady_kept
    | with_reducible apply State.send_kept
    | with_reducible apply kept_ite
    | with_reducible apply kept_foldl
    | simp -zeta only [kept_mk, keptF_fold]
    | split

theorem execJoinReceive_kept (p : Arrived) {s : State} (hs : Kept pq va s) : KeptOut pq va (execJoinReceive p s) := by
  unfold execJoinReceive
  repeat' first
    | with_reducible assumption
    | intro _
    | (extract_lets +onlyGivenNames lx; refine (fun (hlx : Kept pq va lx) => ?_ : Kept pq va lx → _) ?_; rotate_left; simp -zeta only [lx]; clear lx; rotate_right; clear_value lx; revert lx; refine kept_lock ?_; intro lx hlx)
    | (extract_lets +onlyGivenNames lx; clear_value lx; revert lx; refine kept_lock ?_; intro lx)
    | with_reducible apply keptOut_next
    | with_reducible apply keptOut_ite
    | with_reducible apply State.allJoined_kept
    | with_reducible apply State.setGroup_kept
    | with_reducible apply State.withGroup_kept
    | with_reducible apply kept_ite
    | with_reducible apply kept_foldl
    | simp -zeta only [kept_mk, keptF_fold]
    | split

theorem execReadyReceive_kept (p : Arrived) {s : State} (hs : Kept pq va s) : KeptOut pq va (execReadyReceive p s) := by
  unfold execReadyReceive
  repeat' first
    | with_reducible assumption
    | intro _
    | (extract_lets +onlyGivenNames lx; refine (fun (hlx : Kept pq va lx) => ?_ : Kept pq va lx → _) ?_; rotate_left; simp -zeta only [lx]; clear lx; rotate_right; clear_value lx; revert lx; refine kept_lock ?_; intro lx hlx)
    | (extract_lets +onlyGivenNames lx; clear_value lx; revert lx; refine kept_lock ?_; intro lx)
    | with_reducible apply keptOut_next
    | with_reducible apply keptOut_ite
    | with_reducible apply State.groupReady_kept
    | with_reducible apply State.withGroup_kept
    | with_reducible apply kept_ite
    | with_reducible apply kept_foldl
    | simp -zeta only [kept_mk, keptF_fold]
    | split

theorem execCollCreateTimeout_kept (group : Nat) {s : State} (hs : Kept pq va s) : KeptOut pq va (execCollCreateTimeout group s) := by
  unfold execCollCreateTimeout
  repeat' first
    | with_reducible assumption
    | intro _
    | (extract_lets +onlyGivenNames lx; refine (fun (hlx : Kept pq va lx) => ?_ : Kept pq va lx → _) ?_; rotate_left; simp -zeta only [lx]; clear lx; rotate_right; clear_value lx; revert lx; refine kept_lock ?_; intro lx hlx)
    | (extract_lets +onlyGivenNames lx; clear_value lx; revert lx; refine kept_lock ?_; intro lx)
    | with_reducible apply keptOut_next
    | with_reducible apply keptOut_ite
    | with_reducible apply State.failGroup_kept
    | with_reducible apply kept_ite
    | with_reducible apply kept_foldl
    | simp -zeta only [kept_mk, keptF_fold]
    | split

theorem State.collHead_kept (a0 : Nat) {a1 : State} (hs : Kept pq va a1) : Kept pq va (State.collHead a0 a1) := by
  induction a0 generalizing a1 with
  | zero =>
    simp -zeta only [State.collHead]
    try exact hs
  | succ n ih =>
    rw [State.collHead]
    repeat' first
      | with_reducible assumption
      | intro _
      | (extract_lets +onlyGivenNames lx; refine (fun (hlx : Kept pq va lx) => ?_ : Kept pq va lx → _) ?_; rotate_left; simp -zeta only [lx]; clear lx; rotate_right; clear_value lx; revert lx; refine kept_lock ?_; intro lx hlx)
      | (extract_lets +onlyGivenNames lx; clear_value lx; revert lx; refine kept_lock ?_; intro lx)
      | with_reducible apply ih
      | with_reducible apply State.setFld_kept
      | with_reducible apply kept_ite
      | with_reducible apply kept_foldl
      | simp -zeta only [kept_mk, keptF_fold]
      | split

theorem State.ringDoneAt_kept (i : Nat) {s : State} (hs : Kept pq va s) : Kept pq va (State.ringDoneAt i s) := by
  unfold State.ringDoneAt
  repeat' first
    | with_reducible assumption
    | intro _
    | (extract_lets +onlyGivenNames lx; refine (fun (hlx : Kept pq va lx) => ?_ : Kept pq va lx → _) ?_; rotate_left; simp -zeta only [lx]; clear lx; rotate_right; clear_value lx; revert lx; refine kept_lock ?_; intro lx hlx)
    | (extract_lets +onlyGivenNames lx; clear_value lx; revert lx; refine kept_lock ?_; intro lx)
    | with_reducible apply State.collHead_kept
    | with_reducible apply kept_ite
    | with_reducible apply kept_foldl
    | simp -zeta only [kept_mk, keptF_fold]
    | split

theorem State.writeDone_kept (out : List WStep) (addr : Nat) (status : Nat) (seq : Nat) (sem : Nat) {s : State} (hs : Kept pq va s) : Kept pq va (State.writeDone out addr status seq sem s) := by
  unfold State.writeDone
  repeat' first
    | with_reducible assumption
    | intro _
    | (extract_lets +onlyGivenNames lx; refine (fun (hlx : Kept pq va lx) => ?_ : Kept pq va lx → _) ?_; rotate_left; simp -zeta only [lx]; clear lx; rotate_right; clear_value lx; revert lx; refine kept_lock ?_; intro lx hlx)
    | (extract_lets +onlyGivenNames lx; clear_value lx; revert lx; refine kept_lock ?_; intro lx)
    | with_reducible apply State.startChain_kept
    | with_reducible apply kept_ite
    | with_reducible apply kept_foldl
    | simp -zeta only [kept_mk, keptF_fold]
    | split

theorem State.refuseDesc_kept (i : Nat) (addr : Nat) (status : Nat) (d : List Byte) {s : State} (hs : Kept pq va s) : Kept pq va (State.refuseDesc i addr status d s) := by
  unfold State.refuseDesc
  repeat' first
    | with_reducible assumption
    | intro _
    | (extract_lets +onlyGivenNames lx; refine (fun (hlx : Kept pq va lx) => ?_ : Kept pq va lx → _) ?_; rotate_left; simp -zeta only [lx]; clear lx; rotate_right; clear_value lx; revert lx; refine kept_lock ?_; intro lx hlx)
    | (extract_lets +onlyGivenNames lx; clear_value lx; revert lx; refine kept_lock ?_; intro lx)
    | with_reducible apply State.collFault_kept
    | with_reducible apply State.ringDoneAt_kept
    | with_reducible apply State.tallyAdd_kept
    | with_reducible apply State.writeDone_kept
    | with_reducible apply kept_ite
    | with_reducible apply kept_foldl
    | simp -zeta only [kept_mk, keptF_fold]
    | split

theorem State.modOp_kept (g : Nat) (seq : Nat) (f : CollOp → CollOp) {s : State} (hs : Kept pq va s) : Kept pq va (State.modOp g seq f s) := by
  unfold State.modOp
  repeat' first
    | with_reducible assumption
    | intro _
    | (extract_lets +onlyGivenNames lx; refine (fun (hlx : Kept pq va lx) => ?_ : Kept pq va lx → _) ?_; rotate_left; simp -zeta only [lx]; clear lx; rotate_right; clear_value lx; revert lx; refine kept_lock ?_; intro lx hlx)
    | (extract_lets +onlyGivenNames lx; clear_value lx; revert lx; refine kept_lock ?_; intro lx)
    | with_reducible apply kept_ite
    | with_reducible apply kept_foldl
    | simp -zeta only [kept_mk, keptF_fold]
    | split

theorem State.takeSlot_kept (g : Nat) (i : Nat) {s : State} (hs : Kept pq va s) : Kept pq va (State.takeSlot g i s) := by
  unfold State.takeSlot
  repeat' first
    | with_reducible assumption
    | intro _
    | (extract_lets +onlyGivenNames lx; refine (fun (hlx : Kept pq va lx) => ?_ : Kept pq va lx → _) ?_; rotate_left; simp -zeta only [lx]; clear lx; rotate_right; clear_value lx; revert lx; refine kept_lock ?_; intro lx hlx)
    | (extract_lets +onlyGivenNames lx; clear_value lx; revert lx; refine kept_lock ?_; intro lx)
    | with_reducible apply State.setGroup_kept
    | with_reducible apply kept_ite
    | with_reducible apply kept_foldl
    | simp -zeta only [kept_mk, keptF_fold]
    | split

theorem State.dropSlot_kept (g : Nat) (i : Nat) {s : State} (hs : Kept pq va s) : Kept pq va (State.dropSlot g i s) := by
  unfold State.dropSlot
  repeat' first
    | with_reducible assumption
    | intro _
    | (extract_lets +onlyGivenNames lx; refine (fun (hlx : Kept pq va lx) => ?_ : Kept pq va lx → _) ?_; rotate_left; simp -zeta only [lx]; clear lx; rotate_right; clear_value lx; revert lx; refine kept_lock ?_; intro lx hlx)
    | (extract_lets +onlyGivenNames lx; clear_value lx; revert lx; refine kept_lock ?_; intro lx)
    | with_reducible apply State.setGroup_kept
    | with_reducible apply kept_ite
    | with_reducible apply kept_foldl
    | simp -zeta only [kept_mk, keptF_fold]
    | split

theorem State.endOp_kept (g : Nat) (seq : Nat) (status : Nat) (out : List WStep) {s : State} (hs : Kept pq va s) : Kept pq va (State.endOp g seq status out s) := by
  unfold State.endOp
  repeat' first
    | with_reducible assumption
    | intro _
    | (extract_lets +onlyGivenNames lx; refine (fun (hlx : Kept pq va lx) => ?_ : Kept pq va lx → _) ?_; rotate_left; simp -zeta only [lx]; clear lx; rotate_right; clear_value lx; revert lx; refine kept_lock ?_; intro lx hlx)
    | (extract_lets +onlyGivenNames lx; clear_value lx; revert lx; refine kept_lock ?_; intro lx)
    | with_reducible apply State.dropSlot_kept
    | with_reducible apply State.ringDoneAt_kept
    | with_reducible apply State.tallyAdd_kept
    | with_reducible apply State.writeDone_kept
    | with_reducible apply kept_ite
    | with_reducible apply kept_foldl
    | simp -zeta only [kept_mk, keptF_fold]
    | split

theorem State.abortOp_kept (g : Nat) (seq : Nat) (status : Nat) (member : Nat) {s : State} (hs : Kept pq va s) : Kept pq va (State.abortOp g seq status member s) := by
  unfold State.abortOp
  repeat' first
    | with_reducible assumption
    | intro _
    | (extract_lets +onlyGivenNames lx; refine (fun (hlx : Kept pq va lx) => ?_ : Kept pq va lx → _) ?_; rotate_left; simp -zeta only [lx]; clear lx; rotate_right; clear_value lx; revert lx; refine kept_lock ?_; intro lx hlx)
    | (extract_lets +onlyGivenNames lx; clear_value lx; revert lx; refine kept_lock ?_; intro lx)
    | with_reducible apply State.collFault_kept
    | with_reducible apply State.endOp_kept
    | with_reducible apply State.send_kept
    | with_reducible apply kept_ite
    | with_reducible apply kept_foldl
    | simp -zeta only [kept_mk, keptF_fold]
    | split

theorem State.readDesc_kept (i : Nat) {s : State} (hs : Kept pq va s) : Kept pq va (State.readDesc i s) := by
  unfold State.readDesc
  repeat' first
    | with_reducible assumption
    | intro _
    | (extract_lets +onlyGivenNames lx; refine (fun (hlx : Kept pq va lx) => ?_ : Kept pq va lx → _) ?_; rotate_left; simp -zeta only [lx]; clear lx; rotate_right; clear_value lx; revert lx; refine kept_lock ?_; intro lx hlx)
    | (extract_lets +onlyGivenNames lx; clear_value lx; revert lx; refine kept_lock ?_; intro lx)
    | with_reducible apply State.dataRead_kept
    | with_reducible apply State.endOp_kept
    | with_reducible apply State.refuseDesc_kept
    | with_reducible apply State.setGroup_kept
    | with_reducible apply kept_ite
    | with_reducible apply kept_foldl
    | simp -zeta only [kept_mk, keptF_fold]
    | split
    | (with_reducible refine State.dataRead_kept' (by with_reducible assumption) ?_)

theorem State.readDescs_kept (from_ : Nat) (a1 : Nat) {a2 : State} (hs : Kept pq va a2) : Kept pq va (State.readDescs from_ a1 a2) := by
  induction a1 generalizing a2 from_ with
  | zero =>
    simp -zeta only [State.readDescs]
    try exact hs
  | succ n ih =>
    rw [State.readDescs]
    repeat' first
      | with_reducible assumption
      | intro _
      | (extract_lets +onlyGivenNames lx; refine (fun (hlx : Kept pq va lx) => ?_ : Kept pq va lx → _) ?_; rotate_left; simp -zeta only [lx]; clear lx; rotate_right; clear_value lx; revert lx; refine kept_lock ?_; intro lx hlx)
      | (extract_lets +onlyGivenNames lx; clear_value lx; revert lx; refine kept_lock ?_; intro lx)
      | with_reducible apply ih
      | with_reducible apply State.readDesc_kept
      | with_reducible apply kept_ite
      | with_reducible apply kept_foldl
      | simp -zeta only [kept_mk, keptF_fold]
      | split

theorem State.collTail_kept (v : W64) {s : State} (hs : Kept pq va s) : Kept pq va (State.collTail v s) := by
  unfold State.collTail
  repeat' first
    | with_reducible assumption
    | intro _
    | (extract_lets +onlyGivenNames lx; refine (fun (hlx : Kept pq va lx) => ?_ : Kept pq va lx → _) ?_; rotate_left; simp -zeta only [lx]; clear lx; rotate_right; clear_value lx; revert lx; refine kept_lock ?_; intro lx hlx)
    | (extract_lets +onlyGivenNames lx; clear_value lx; revert lx; refine kept_lock ?_; intro lx)
    | with_reducible apply State.gated_kept
    | with_reducible apply State.readDescs_kept
    | with_reducible apply kept_ite
    | with_reducible apply kept_foldl
    | simp -zeta only [kept_mk, keptF_fold]
    | split

theorem execCollTail_kept (v : W64) {s : State} (hs : Kept pq va s) : KeptOut pq va (execCollTail v s) := by
  unfold execCollTail
  repeat' first
    | with_reducible assumption
    | intro _
    | (extract_lets +onlyGivenNames lx; refine (fun (hlx : Kept pq va lx) => ?_ : Kept pq va lx → _) ?_; rotate_left; simp -zeta only [lx]; clear lx; rotate_right; clear_value lx; revert lx; refine kept_lock ?_; intro lx hlx)
    | (extract_lets +onlyGivenNames lx; clear_value lx; revert lx; refine kept_lock ?_; intro lx)
    | with_reducible apply keptOut_next
    | with_reducible apply keptOut_ite
    | with_reducible apply State.collTail_kept
    | with_reducible apply kept_ite
    | with_reducible apply kept_foldl
    | simp -zeta only [kept_mk, keptF_fold]
    | split

theorem State.slotWrite_kept (g : Nat) (i : Nat) (off : Nat) (d : List Byte) {s : State} (hs : Kept pq va s) : Kept pq va (State.slotWrite g i off d s) := by
  unfold State.slotWrite
  repeat' first
    | with_reducible assumption
    | intro _
    | (extract_lets +onlyGivenNames lx; refine (fun (hlx : Kept pq va lx) => ?_ : Kept pq va lx → _) ?_; rotate_left; simp -zeta only [lx]; clear lx; rotate_right; clear_value lx; revert lx; refine kept_lock ?_; intro lx hlx)
    | (extract_lets +onlyGivenNames lx; clear_value lx; revert lx; refine kept_lock ?_; intro lx)
    | with_reducible apply State.wrPlace_kept
    | with_reducible apply kept_ite
    | with_reducible apply kept_foldl
    | simp -zeta only [kept_mk, keptF_fold]
    | split

theorem State.readSlots_kept (g : Nat) (seq : Nat) (slots : List Nat) (n : Nat) {go : State → State} {s : State} (hf : ∀ s, Kept pq va s → Kept pq va (go s)) (hs : Kept pq va s) : Kept pq va (State.readSlots g seq slots n go s) := by
  unfold State.readSlots
  repeat' first
    | with_reducible assumption
    | intro _
    | (extract_lets +onlyGivenNames lx; refine (fun (hlx : Kept pq va lx) => ?_ : Kept pq va lx → _) ?_; rotate_left; simp -zeta only [lx]; clear lx; rotate_right; clear_value lx; revert lx; refine kept_lock ?_; intro lx hlx)
    | (extract_lets +onlyGivenNames lx; clear_value lx; revert lx; refine kept_lock ?_; intro lx)
    | with_reducible apply hf
    | with_reducible apply State.abortOp_kept
    | with_reducible apply State.dataRead_kept
    | with_reducible apply kept_ite
    | with_reducible apply kept_foldl
    | simp -zeta only [kept_mk, keptF_fold]
    | split
    | (with_reducible refine State.dataRead_kept' (by with_reducible assumption) ?_)

theorem State.writeOut_kept (g : Nat) (o : CollOp) (c : Nat) (data : List Byte) {s : State} (hs : Kept pq va s) : Kept pq va (State.writeOut g o c data s) := by
  unfold State.writeOut
  repeat' first
    | with_reducible assumption
    | intro _
    | (extract_lets +onlyGivenNames lx; refine (fun (hlx : Kept pq va lx) => ?_ : Kept pq va lx → _) ?_; rotate_left; simp -zeta only [lx]; clear lx; rotate_right; clear_value lx; revert lx; refine kept_lock ?_; intro lx hlx)
    | (extract_lets +onlyGivenNames lx; clear_value lx; revert lx; refine kept_lock ?_; intro lx)
    | with_reducible apply State.wr_kept
    | with_reducible apply kept_ite
    | with_reducible apply kept_foldl
    | simp -zeta only [kept_mk, keptF_fold]
    | split

theorem State.sendChunk_kept (g : Nat) (o : CollOp) (c : Chunk) (phase : Nat) (member : Nat) {s : State} (hs : Kept pq va s) : Kept pq va (State.sendChunk g o c phase member s) := by
  unfold State.sendChunk
  repeat' first
    | with_reducible assumption
    | intro _
    | (extract_lets +onlyGivenNames lx; refine (fun (hlx : Kept pq va lx) => ?_ : Kept pq va lx → _) ?_; rotate_left; simp -zeta only [lx]; clear lx; rotate_right; clear_value lx; revert lx; refine kept_lock ?_; intro lx hlx)
    | (extract_lets +onlyGivenNames lx; clear_value lx; revert lx; refine kept_lock ?_; intro lx)
    | with_reducible apply State.readSlots_kept
    | with_reducible apply State.send_kept
    | with_reducible apply kept_ite
    | with_reducible apply kept_foldl
    | simp -zeta only [kept_mk, keptF_fold]
    | split

theorem State.answerPulls_kept (g : Nat) (seq : Nat) (c : Nat) {s : State} (hs : Kept pq va s) : Kept pq va (State.answerPulls g seq c s) := by
  unfold State.answerPulls
  repeat' first
    | with_reducible assumption
    | intro _
    | (extract_lets +onlyGivenNames lx; refine (fun (hlx : Kept pq va lx) => ?_ : Kept pq va lx → _) ?_; rotate_left; simp -zeta only [lx]; clear lx; rotate_right; clear_value lx; revert lx; refine kept_lock ?_; intro lx hlx)
    | (extract_lets +onlyGivenNames lx; clear_value lx; revert lx; refine kept_lock ?_; intro lx)
    | with_reducible apply State.sendChunk_kept
    | with_reducible apply kept_ite
    | with_reducible apply kept_foldl
    | simp -zeta only [kept_mk, keptF_fold]
    | split

theorem State.chunkDone_kept (g : Nat) (seq : Nat) (c : Nat) {s : State} (hs : Kept pq va s) : Kept pq va (State.chunkDone g seq c s) := by
  unfold State.chunkDone
  repeat' first
    | with_reducible assumption
    | intro _
    | (extract_lets +onlyGivenNames lx; refine (fun (hlx : Kept pq va lx) => ?_ : Kept pq va lx → _) ?_; rotate_left; simp -zeta only [lx]; clear lx; rotate_right; clear_value lx; revert lx; refine kept_lock ?_; intro lx hlx)
    | (extract_lets +onlyGivenNames lx; clear_value lx; revert lx; refine kept_lock ?_; intro lx)
    | with_reducible apply State.modOp_kept
    | with_reducible apply kept_ite
    | with_reducible apply kept_foldl
    | simp -zeta only [kept_mk, keptF_fold]
    | split

theorem State.holdDown_kept (g : Nat) (o : CollOp) (c : Nat) (slot : Nat) {s : State} (hs : Kept pq va s) : Kept pq va (State.holdDown g o c slot s) := by
  unfold State.holdDown
  repeat' first
    | with_reducible assumption
    | intro _
    | (extract_lets +onlyGivenNames lx; refine (fun (hlx : Kept pq va lx) => ?_ : Kept pq va lx → _) ?_; rotate_left; simp -zeta only [lx]; clear lx; rotate_right; clear_value lx; revert lx; refine kept_lock ?_; intro lx hlx)
    | (extract_lets +onlyGivenNames lx; clear_value lx; revert lx; refine kept_lock ?_; intro lx)
    | with_reducible apply State.answerPulls_kept
    | with_reducible apply State.chunkDone_kept
    | with_reducible apply State.dropSlot_kept
    | with_reducible apply State.modOp_kept
    | with_reducible apply kept_ite
    | with_reducible apply kept_foldl
    | simp -zeta only [kept_mk, keptF_fold]
    | split

theorem State.gathered_kept (g : Nat) (o : CollOp) (c : Nat) (slot : Nat) {s : State} (hs : Kept pq va s) : Kept pq va (State.gathered g o c slot s) := by
  unfold State.gathered
  repeat' first
    | with_reducible assumption
    | intro _
    | (extract_lets +onlyGivenNames lx; refine (fun (hlx : Kept pq va lx) => ?_ : Kept pq va lx → _) ?_; rotate_left; simp -zeta only [lx]; clear lx; rotate_right; clear_value lx; revert lx; refine kept_lock ?_; intro lx hlx)
    | (extract_lets +onlyGivenNames lx; clear_value lx; revert lx; refine kept_lock ?_; intro lx)
    | with_reducible apply State.answerPulls_kept
    | with_reducible apply State.chunkDone_kept
    | with_reducible apply State.dropSlot_kept
    | with_reducible apply State.holdDown_kept
    | with_reducible apply State.modOp_kept
    | with_reducible apply State.writeOut_kept
    | with_reducible apply kept_ite
    | with_reducible apply kept_foldl
    | simp -zeta only [kept_mk, keptF_fold]
    | split

theorem State.beginChunk_kept (g : Nat) (o : CollOp) (slot : Nat) {s : State} (hs : Kept pq va s) : Kept pq va (State.beginChunk g o slot s) := by
  unfold State.beginChunk
  repeat' first
    | with_reducible assumption
    | intro _
    | (extract_lets +onlyGivenNames lx; refine (fun (hlx : Kept pq va lx) => ?_ : Kept pq va lx → _) ?_; rotate_left; simp -zeta only [lx]; clear lx; rotate_right; clear_value lx; revert lx; refine kept_lock ?_; intro lx hlx)
    | (extract_lets +onlyGivenNames lx; clear_value lx; revert lx; refine kept_lock ?_; intro lx)
    | with_reducible apply State.abortOp_kept
    | with_reducible apply State.dataRead_kept
    | with_reducible apply State.gathered_kept
    | with_reducible apply State.holdDown_kept
    | with_reducible apply State.modOp_kept
    | with_reducible apply State.slotWrite_kept
    | with_reducible apply State.takeSlot_kept
    | with_reducible apply State.writeOut_kept
    | with_reducible apply kept_ite
    | with_reducible apply kept_foldl
    | simp -zeta only [kept_mk, keptF_fold]
    | split
    | (with_reducible refine State.dataRead_kept' (by with_reducible assumption) ?_)

theorem State.sendPull_kept (g : Nat) (seq : Nat) (c : Nat) (q : PullOut) {s : State} (hs : Kept pq va s) : Kept pq va (State.sendPull g seq c q s) := by
  unfold State.sendPull
  repeat' first
    | with_reducible assumption
    | intro _
    | (extract_lets +onlyGivenNames lx; refine (fun (hlx : Kept pq va lx) => ?_ : Kept pq va lx → _) ?_; rotate_left; simp -zeta only [lx]; clear lx; rotate_right; clear_value lx; revert lx; refine kept_lock ?_; intro lx hlx)
    | (extract_lets +onlyGivenNames lx; clear_value lx; revert lx; refine kept_lock ?_; intro lx)
    | with_reducible apply State.send_kept
    | with_reducible apply kept_ite
    | with_reducible apply kept_foldl
    | simp -zeta only [kept_mk, keptF_fold]
    | split

theorem State.pump_kept (g : Nat) (a1 : Nat) {a2 : State} (hs : Kept pq va a2) : Kept pq va (State.pump g a1 a2) := by
  induction a1 generalizing a2 with
  | zero =>
    simp -zeta only [State.pump]
    try exact hs
  | succ n ih =>
    rw [State.pump]
    repeat' first
      | with_reducible assumption
      | intro _
      | (extract_lets +onlyGivenNames lx; refine (fun (hlx : Kept pq va lx) => ?_ : Kept pq va lx → _) ?_; rotate_left; simp -zeta only [lx]; clear lx; rotate_right; clear_value lx; revert lx; refine kept_lock ?_; intro lx hlx)
      | (extract_lets +onlyGivenNames lx; clear_value lx; revert lx; refine kept_lock ?_; intro lx)
      | with_reducible apply ih
      | with_reducible apply State.beginChunk_kept
      | with_reducible apply State.modOp_kept
      | with_reducible apply State.sendPull_kept
      | with_reducible apply State.takeSlot_kept
      | with_reducible apply kept_ite
      | with_reducible apply kept_foldl
      | simp -zeta only [kept_mk, keptF_fold]
      | split

theorem State.pumpGroup_kept (g : Nat) {s : State} (hs : Kept pq va s) : Kept pq va (State.pumpGroup g s) := by
  unfold State.pumpGroup
  repeat' first
    | with_reducible assumption
    | intro _
    | (extract_lets +onlyGivenNames lx; refine (fun (hlx : Kept pq va lx) => ?_ : Kept pq va lx → _) ?_; rotate_left; simp -zeta only [lx]; clear lx; rotate_right; clear_value lx; revert lx; refine kept_lock ?_; intro lx hlx)
    | (extract_lets +onlyGivenNames lx; clear_value lx; revert lx; refine kept_lock ?_; intro lx)
    | with_reducible apply State.pump_kept
    | with_reducible apply kept_ite
    | with_reducible apply kept_foldl
    | simp -zeta only [kept_mk, keptF_fold]
    | split

theorem State.llSend_kept (o : CollOp) {s : State} (hs : Kept pq va s) : Kept pq va (State.llSend o s) := by
  unfold State.llSend
  repeat' first
    | with_reducible assumption
    | intro _
    | (extract_lets +onlyGivenNames lx; refine (fun (hlx : Kept pq va lx) => ?_ : Kept pq va lx → _) ?_; rotate_left; simp -zeta only [lx]; clear lx; rotate_right; clear_value lx; revert lx; refine kept_lock ?_; intro lx hlx)
    | (extract_lets +onlyGivenNames lx; clear_value lx; revert lx; refine kept_lock ?_; intro lx)
    | with_reducible apply State.putLocal_kept
    | with_reducible apply State.send_kept
    | with_reducible apply kept_ite
    | with_reducible apply kept_foldl
    | simp -zeta only [kept_mk, keptF_fold]
    | split

theorem State.llRun_kept (g : Nat) (seq : Nat) (a2 : Nat) {a3 : State} (hs : Kept pq va a3) : Kept pq va (State.llRun g seq a2 a3) := by
  induction a2 generalizing a3 with
  | zero =>
    simp -zeta only [State.llRun]
    try exact hs
  | succ n ih =>
    rw [State.llRun]
    repeat' first
      | with_reducible assumption
      | intro _
      | (extract_lets +onlyGivenNames lx; refine (fun (hlx : Kept pq va lx) => ?_ : Kept pq va lx → _) ?_; rotate_left; simp -zeta only [lx]; clear lx; rotate_right; clear_value lx; revert lx; refine kept_lock ?_; intro lx hlx)
      | (extract_lets +onlyGivenNames lx; clear_value lx; revert lx; refine kept_lock ?_; intro lx)
      | with_reducible apply ih
      | with_reducible apply State.llSend_kept
      | with_reducible apply State.modOp_kept
      | with_reducible apply kept_ite
      | with_reducible apply kept_foldl
      | simp -zeta only [kept_mk, keptF_fold]
      | split

theorem execCollOpStart_kept (group : Nat) {s : State} (hs : Kept pq va s) : KeptOut pq va (execCollOpStart group s) := by
  unfold execCollOpStart
  repeat' first
    | with_reducible assumption
    | intro _
    | (extract_lets +onlyGivenNames lx; refine (fun (hlx : Kept pq va lx) => ?_ : Kept pq va lx → _) ?_; rotate_left; simp -zeta only [lx]; clear lx; rotate_right; clear_value lx; revert lx; refine kept_lock ?_; intro lx hlx)
    | (extract_lets +onlyGivenNames lx; clear_value lx; revert lx; refine kept_lock ?_; intro lx)
    | with_reducible apply keptOut_next
    | with_reducible apply keptOut_ite
    | with_reducible apply State.abortOp_kept
    | with_reducible apply State.dataRead_kept
    | with_reducible apply State.llRun_kept
    | with_reducible apply State.llSend_kept
    | with_reducible apply State.modOp_kept
    | with_reducible apply State.pumpGroup_kept
    | with_reducible apply kept_ite
    | with_reducible apply kept_foldl
    | simp -zeta only [kept_mk, keptF_fold]
    | split
    | (with_reducible refine State.dataRead_kept' (by with_reducible assumption) ?_)

theorem execCollOpComplete_kept (group : Nat) (seq : Nat) {s : State} (hs : Kept pq va s) : KeptOut pq va (execCollOpComplete group seq s) := by
  unfold execCollOpComplete
  repeat' first
    | with_reducible assumption
    | intro _
    | (extract_lets +onlyGivenNames lx; refine (fun (hlx : Kept pq va lx) => ?_ : Kept pq va lx → _) ?_; rotate_left; simp -zeta only [lx]; clear lx; rotate_right; clear_value lx; revert lx; refine kept_lock ?_; intro lx hlx)
    | (extract_lets +onlyGivenNames lx; clear_value lx; revert lx; refine kept_lock ?_; intro lx)
    | with_reducible apply keptOut_next
    | with_reducible apply keptOut_ite
    | with_reducible apply State.collFault_kept
    | with_reducible apply State.endOp_kept
    | with_reducible apply State.pumpGroup_kept
    | with_reducible apply kept_ite
    | with_reducible apply kept_foldl
    | simp -zeta only [kept_mk, keptF_fold]
    | split

theorem State.holdPull_kept (p : Pull) (dest : Nat) {s : State} (hs : Kept pq va s) : Kept pq va (State.holdPull p dest s) := by
  unfold State.holdPull
  repeat' first
    | with_reducible assumption
    | intro _
    | (extract_lets +onlyGivenNames lx; refine (fun (hlx : Kept pq va lx) => ?_ : Kept pq va lx → _) ?_; rotate_left; simp -zeta only [lx]; clear lx; rotate_right; clear_value lx; revert lx; refine kept_lock ?_; intro lx hlx)
    | (extract_lets +onlyGivenNames lx; clear_value lx; revert lx; refine kept_lock ?_; intro lx)
    | with_reducible apply State.send_kept
    | with_reducible apply State.tallyAdd_kept
    | with_reducible apply State.tallyMax_kept
    | with_reducible apply kept_ite
    | with_reducible apply kept_foldl
    | simp -zeta only [kept_mk, keptF_fold]
    | split

theorem execPullReceive_kept (p : Arrived) {s : State} (hs : Kept pq va s) : KeptOut pq va (execPullReceive p s) := by
  unfold execPullReceive
  repeat' first
    | with_reducible assumption
    | intro _
    | (extract_lets +onlyGivenNames lx; refine (fun (hlx : Kept pq va lx) => ?_ : Kept pq va lx → _) ?_; rotate_left; simp -zeta only [lx]; clear lx; rotate_right; clear_value lx; revert lx; refine kept_lock ?_; intro lx hlx)
    | (extract_lets +onlyGivenNames lx; clear_value lx; revert lx; refine kept_lock ?_; intro lx)
    | with_reducible apply keptOut_next
    | with_reducible apply keptOut_ite
    | with_reducible apply State.abortOp_kept
    | with_reducible apply State.holdPull_kept
    | with_reducible apply State.sendChunk_kept
    | with_reducible apply State.withGroup_kept
    | with_reducible apply kept_ite
    | with_reducible apply kept_foldl
    | simp -zeta only [kept_mk, keptF_fold]
    | split

theorem State.releaseChunk_kept (g : Nat) (o : CollOp) (k : Chunk) (q : PullOut) {s : State} (hs : Kept pq va s) : Kept pq va (State.releaseChunk g o k q s) := by
  unfold State.releaseChunk
  repeat' first
    | with_reducible assumption
    | intro _
    | (extract_lets +onlyGivenNames lx; refine (fun (hlx : Kept pq va lx) => ?_ : Kept pq va lx → _) ?_; rotate_left; simp -zeta only [lx]; clear lx; rotate_right; clear_value lx; revert lx; refine kept_lock ?_; intro lx hlx)
    | (extract_lets +onlyGivenNames lx; clear_value lx; revert lx; refine kept_lock ?_; intro lx)
    | with_reducible apply State.dropSlot_kept
    | with_reducible apply State.gathered_kept
    | with_reducible apply State.holdDown_kept
    | with_reducible apply State.modOp_kept
    | with_reducible apply State.slotWrite_kept
    | with_reducible apply State.writeOut_kept
    | with_reducible apply kept_ite
    | with_reducible apply kept_foldl
    | simp -zeta only [kept_mk, keptF_fold]
    | split

theorem State.checkChunk_kept (g : Nat) (seq : Nat) (o : CollOp) (k : Chunk) (q : PullOut) {s : State} (hs : Kept pq va s) : Kept pq va (State.checkChunk g seq o k q s) := by
  unfold State.checkChunk
  repeat' first
    | with_reducible assumption
    | intro _
    | (extract_lets +onlyGivenNames lx; refine (fun (hlx : Kept pq va lx) => ?_ : Kept pq va lx → _) ?_; rotate_left; simp -zeta only [lx]; clear lx; rotate_right; clear_value lx; revert lx; refine kept_lock ?_; intro lx hlx)
    | (extract_lets +onlyGivenNames lx; clear_value lx; revert lx; refine kept_lock ?_; intro lx)
    | with_reducible apply State.abortOp_kept
    | with_reducible apply State.collFault_kept
    | with_reducible apply State.lifeAdd_kept
    | with_reducible apply State.modOp_kept
    | with_reducible apply State.pumpGroup_kept
    | with_reducible apply State.readSlots_kept
    | with_reducible apply State.releaseChunk_kept
    | with_reducible apply State.safe0_kept
    | with_reducible apply State.send_kept
    | with_reducible apply State.sendPull_kept
    | with_reducible apply State.tallyAdd_kept
    | with_reducible apply kept_ite
    | with_reducible apply kept_foldl
    | simp -zeta only [kept_mk, keptF_fold]
    | split

theorem State.pullTakes_kept (p : Arrived) (f : PullOut → PullOut) {s : State} (hs : Kept pq va s) : Kept pq va (State.pullTakes p f s) := by
  unfold State.pullTakes
  repeat' first
    | with_reducible assumption
    | intro _
    | (extract_lets +onlyGivenNames lx; refine (fun (hlx : Kept pq va lx) => ?_ : Kept pq va lx → _) ?_; rotate_left; simp -zeta only [lx]; clear lx; rotate_right; clear_value lx; revert lx; refine kept_lock ?_; intro lx hlx)
    | (extract_lets +onlyGivenNames lx; clear_value lx; revert lx; refine kept_lock ?_; intro lx)
    | with_reducible apply State.checkChunk_kept
    | with_reducible apply State.modOp_kept
    | with_reducible apply kept_ite
    | with_reducible apply kept_foldl
    | simp -zeta only [kept_mk, keptF_fold]
    | split

theorem execDataReceive_kept (p : Arrived) {s : State} (hs : Kept pq va s) : KeptOut pq va (execDataReceive p s) := by
  unfold execDataReceive
  repeat' first
    | with_reducible assumption
    | intro _
    | (extract_lets +onlyGivenNames lx; refine (fun (hlx : Kept pq va lx) => ?_ : Kept pq va lx → _) ?_; rotate_left; simp -zeta only [lx]; clear lx; rotate_right; clear_value lx; revert lx; refine kept_lock ?_; intro lx hlx)
    | (extract_lets +onlyGivenNames lx; clear_value lx; revert lx; refine kept_lock ?_; intro lx)
    | with_reducible apply keptOut_next
    | with_reducible apply keptOut_ite
    | with_reducible apply State.pullTakes_kept
    | with_reducible apply State.slotWrite_kept
    | with_reducible apply State.withGroup_kept
    | with_reducible apply kept_ite
    | with_reducible apply kept_foldl
    | simp -zeta only [kept_mk, keptF_fold]
    | split

theorem execEndReceive_kept (p : Arrived) {s : State} (hs : Kept pq va s) : KeptOut pq va (execEndReceive p s) := by
  unfold execEndReceive
  repeat' first
    | with_reducible assumption
    | intro _
    | (extract_lets +onlyGivenNames lx; refine (fun (hlx : Kept pq va lx) => ?_ : Kept pq va lx → _) ?_; rotate_left; simp -zeta only [lx]; clear lx; rotate_right; clear_value lx; revert lx; refine kept_lock ?_; intro lx hlx)
    | (extract_lets +onlyGivenNames lx; clear_value lx; revert lx; refine kept_lock ?_; intro lx)
    | with_reducible apply keptOut_next
    | with_reducible apply keptOut_ite
    | with_reducible apply State.pullTakes_kept
    | with_reducible apply State.withGroup_kept
    | with_reducible apply kept_ite
    | with_reducible apply kept_foldl
    | simp -zeta only [kept_mk, keptF_fold]
    | split

theorem State.upAcked_kept (g : Nat) (o : CollOp) (k : Chunk) {s : State} (hs : Kept pq va s) : Kept pq va (State.upAcked g o k s) := by
  unfold State.upAcked
  repeat' first
    | with_reducible assumption
    | intro _
    | (extract_lets +onlyGivenNames lx; refine (fun (hlx : Kept pq va lx) => ?_ : Kept pq va lx → _) ?_; rotate_left; simp -zeta only [lx]; clear lx; rotate_right; clear_value lx; revert lx; refine kept_lock ?_; intro lx hlx)
    | (extract_lets +onlyGivenNames lx; clear_value lx; revert lx; refine kept_lock ?_; intro lx)
    | with_reducible apply State.chunkDone_kept
    | with_reducible apply State.dropSlot_kept
    | with_reducible apply State.modOp_kept
    | with_reducible apply kept_ite
    | with_reducible apply kept_foldl
    | simp -zeta only [kept_mk, keptF_fold]
    | split

theorem State.downAcked_kept (g : Nat) (o : CollOp) (k : Chunk) (member : Nat) {s : State} (hs : Kept pq va s) : Kept pq va (State.downAcked g o k member s) := by
  unfold State.downAcked
  repeat' first
    | with_reducible assumption
    | intro _
    | (extract_lets +onlyGivenNames lx; refine (fun (hlx : Kept pq va lx) => ?_ : Kept pq va lx → _) ?_; rotate_left; simp -zeta only [lx]; clear lx; rotate_right; clear_value lx; revert lx; refine kept_lock ?_; intro lx hlx)
    | (extract_lets +onlyGivenNames lx; clear_value lx; revert lx; refine kept_lock ?_; intro lx)
    | with_reducible apply State.chunkDone_kept
    | with_reducible apply State.dropSlot_kept
    | with_reducible apply State.modOp_kept
    | with_reducible apply kept_ite
    | with_reducible apply kept_foldl
    | simp -zeta only [kept_mk, keptF_fold]
    | split

theorem execCollAckReceive_kept (p : Arrived) {s : State} (hs : Kept pq va s) : KeptOut pq va (execCollAckReceive p s) := by
  unfold execCollAckReceive
  repeat' first
    | with_reducible assumption
    | intro _
    | (extract_lets +onlyGivenNames lx; refine (fun (hlx : Kept pq va lx) => ?_ : Kept pq va lx → _) ?_; rotate_left; simp -zeta only [lx]; clear lx; rotate_right; clear_value lx; revert lx; refine kept_lock ?_; intro lx hlx)
    | (extract_lets +onlyGivenNames lx; clear_value lx; revert lx; refine kept_lock ?_; intro lx)
    | with_reducible apply keptOut_next
    | with_reducible apply keptOut_ite
    | with_reducible apply State.downAcked_kept
    | with_reducible apply State.pumpGroup_kept
    | with_reducible apply State.upAcked_kept
    | with_reducible apply State.withGroup_kept
    | with_reducible apply kept_ite
    | with_reducible apply kept_foldl
    | simp -zeta only [kept_mk, keptF_fold]
    | split

theorem execRetryReceive_kept (p : Arrived) {s : State} (hs : Kept pq va s) : KeptOut pq va (execRetryReceive p s) := by
  unfold execRetryReceive
  repeat' first
    | with_reducible assumption
    | intro _
    | (extract_lets +onlyGivenNames lx; refine (fun (hlx : Kept pq va lx) => ?_ : Kept pq va lx → _) ?_; rotate_left; simp -zeta only [lx]; clear lx; rotate_right; clear_value lx; revert lx; refine kept_lock ?_; intro lx hlx)
    | (extract_lets +onlyGivenNames lx; clear_value lx; revert lx; refine kept_lock ?_; intro lx)
    | with_reducible apply keptOut_next
    | with_reducible apply keptOut_ite
    | with_reducible apply State.modOp_kept
    | with_reducible apply State.withGroup_kept
    | with_reducible apply kept_ite
    | with_reducible apply kept_foldl
    | simp -zeta only [kept_mk, keptF_fold]
    | split

theorem execPullRetry_kept (group : Nat) (seq : Nat) (chunk : Nat) {s : State} (hs : Kept pq va s) : KeptOut pq va (execPullRetry group seq chunk s) := by
  unfold execPullRetry
  repeat' first
    | with_reducible assumption
    | intro _
    | (extract_lets +onlyGivenNames lx; refine (fun (hlx : Kept pq va lx) => ?_ : Kept pq va lx → _) ?_; rotate_left; simp -zeta only [lx]; clear lx; rotate_right; clear_value lx; revert lx; refine kept_lock ?_; intro lx hlx)
    | (extract_lets +onlyGivenNames lx; clear_value lx; revert lx; refine kept_lock ?_; intro lx)
    | with_reducible apply keptOut_next
    | with_reducible apply keptOut_ite
    | with_reducible apply State.modOp_kept
    | with_reducible apply State.sendPull_kept
    | with_reducible apply kept_ite
    | with_reducible apply kept_foldl
    | simp -zeta only [kept_mk, keptF_fold]
    | split

theorem execAbortReceive_kept (p : Arrived) {s : State} (hs : Kept pq va s) : KeptOut pq va (execAbortReceive p s) := by
  unfold execAbortReceive
  repeat' first
    | with_reducible assumption
    | intro _
    | (extract_lets +onlyGivenNames lx; refine (fun (hlx : Kept pq va lx) => ?_ : Kept pq va lx → _) ?_; rotate_left; simp -zeta only [lx]; clear lx; rotate_right; clear_value lx; revert lx; refine kept_lock ?_; intro lx hlx)
    | (extract_lets +onlyGivenNames lx; clear_value lx; revert lx; refine kept_lock ?_; intro lx)
    | with_reducible apply keptOut_next
    | with_reducible apply keptOut_ite
    | with_reducible apply State.endOp_kept
    | with_reducible apply State.pumpGroup_kept
    | with_reducible apply State.withGroup_kept
    | with_reducible apply kept_ite
    | with_reducible apply kept_foldl
    | simp -zeta only [kept_mk, keptF_fold]
    | split

theorem execCollProgressTimeout_kept (group : Nat) (seq : Nat) {s : State} (hs : Kept pq va s) : KeptOut pq va (execCollProgressTimeout group seq s) := by
  unfold execCollProgressTimeout
  repeat' first
    | with_reducible assumption
    | intro _
    | (extract_lets +onlyGivenNames lx; refine (fun (hlx : Kept pq va lx) => ?_ : Kept pq va lx → _) ?_; rotate_left; simp -zeta only [lx]; clear lx; rotate_right; clear_value lx; revert lx; refine kept_lock ?_; intro lx hlx)
    | (extract_lets +onlyGivenNames lx; clear_value lx; revert lx; refine kept_lock ?_; intro lx)
    | with_reducible apply keptOut_next
    | with_reducible apply keptOut_ite
    | with_reducible apply State.abortOp_kept
    | with_reducible apply State.collFault_kept
    | with_reducible apply State.lateMargin_kept
    | with_reducible apply State.pumpGroup_kept
    | with_reducible apply kept_ite
    | with_reducible apply kept_foldl
    | simp -zeta only [kept_mk, keptF_fold]
    | split

theorem State.breakGroup_kept (node : Nat) (g : Nat) {s : State} (hs : Kept pq va s) : Kept pq va (State.breakGroup node g s) := by
  unfold State.breakGroup
  repeat' first
    | with_reducible assumption
    | intro _
    | (extract_lets +onlyGivenNames lx; refine (fun (hlx : Kept pq va lx) => ?_ : Kept pq va lx → _) ?_; rotate_left; simp -zeta only [lx]; clear lx; rotate_right; clear_value lx; revert lx; refine kept_lock ?_; intro lx hlx)
    | (extract_lets +onlyGivenNames lx; clear_value lx; revert lx; refine kept_lock ?_; intro lx)
    | with_reducible apply State.abortOp_kept
    | with_reducible apply State.endOp_kept
    | with_reducible apply State.setGroup_kept
    | with_reducible apply kept_ite
    | with_reducible apply kept_foldl
    | simp -zeta only [kept_mk, keptF_fold]
    | split

theorem State.collDead_kept (source : Nat) {s : State} (hs : Kept pq va s) : Kept pq va (State.collDead source s) := by
  unfold State.collDead
  repeat' first
    | with_reducible assumption
    | intro _
    | (extract_lets +onlyGivenNames lx; refine (fun (hlx : Kept pq va lx) => ?_ : Kept pq va lx → _) ?_; rotate_left; simp -zeta only [lx]; clear lx; rotate_right; clear_value lx; revert lx; refine kept_lock ?_; intro lx hlx)
    | (extract_lets +onlyGivenNames lx; clear_value lx; revert lx; refine kept_lock ?_; intro lx)
    | with_reducible apply State.breakGroup_kept
    | with_reducible apply kept_ite
    | with_reducible apply kept_foldl
    | simp -zeta only [kept_mk, keptF_fold]
    | split

theorem State.deadSeen_kept (source : Nat) (m : Nat) {s : State} (hs : Kept pq va s) : Kept pq va (State.deadSeen source m s) := by
  unfold State.deadSeen
  repeat' first
    | with_reducible assumption
    | intro _
    | (extract_lets +onlyGivenNames lx; refine (fun (hlx : Kept pq va lx) => ?_ : Kept pq va lx → _) ?_; rotate_left; simp -zeta only [lx]; clear lx; rotate_right; clear_value lx; revert lx; refine kept_lock ?_; intro lx hlx)
    | (extract_lets +onlyGivenNames lx; clear_value lx; revert lx; refine kept_lock ?_; intro lx)
    | with_reducible apply State.collDead_kept
    | with_reducible apply State.deadNotice_kept
    | with_reducible apply kept_ite
    | with_reducible apply kept_foldl
    | simp -zeta only [kept_mk, keptF_fold]
    | split

theorem execDeadNoticeReceive_kept (source : Nat) (rehomeBell : Nat) {s : State} (hs : Kept pq va s) : KeptOut pq va (execDeadNoticeReceive source rehomeBell s) := by
  unfold execDeadNoticeReceive
  repeat' first
    | with_reducible assumption
    | intro _
    | (extract_lets +onlyGivenNames lx; refine (fun (hlx : Kept pq va lx) => ?_ : Kept pq va lx → _) ?_; rotate_left; simp -zeta only [lx]; clear lx; rotate_right; clear_value lx; revert lx; refine kept_lock ?_; intro lx hlx)
    | (extract_lets +onlyGivenNames lx; clear_value lx; revert lx; refine kept_lock ?_; intro lx)
    | with_reducible apply keptOut_next
    | with_reducible apply keptOut_ite
    | with_reducible apply State.deadSeen_kept
    | with_reducible apply kept_ite
    | with_reducible apply kept_foldl
    | simp -zeta only [kept_mk, keptF_fold]
    | split

theorem execDeadNoticeSend_kept (slice : Nat) {s : State} (hs : Kept pq va s) : KeptOut pq va (execDeadNoticeSend slice s) := by
  unfold execDeadNoticeSend
  repeat' first
    | with_reducible assumption
    | intro _
    | (extract_lets +onlyGivenNames lx; refine (fun (hlx : Kept pq va lx) => ?_ : Kept pq va lx → _) ?_; rotate_left; simp -zeta only [lx]; clear lx; rotate_right; clear_value lx; revert lx; refine kept_lock ?_; intro lx hlx)
    | (extract_lets +onlyGivenNames lx; clear_value lx; revert lx; refine kept_lock ?_; intro lx)
    | with_reducible apply keptOut_next
    | with_reducible apply keptOut_ite
    | with_reducible apply State.deadSeen_kept
    | with_reducible apply State.flood_kept
    | with_reducible apply kept_ite
    | with_reducible apply kept_foldl
    | simp -zeta only [kept_mk, keptF_fold]
    | split

theorem State.tearOps_kept (f : Group → Bool) {s : State} (hs : Kept pq va s) : Kept pq va (State.tearOps f s) := by
  unfold State.tearOps
  repeat' first
    | with_reducible assumption
    | intro _
    | (extract_lets +onlyGivenNames lx; refine (fun (hlx : Kept pq va lx) => ?_ : Kept pq va lx → _) ?_; rotate_left; simp -zeta only [lx]; clear lx; rotate_right; clear_value lx; revert lx; refine kept_lock ?_; intro lx hlx)
    | (extract_lets +onlyGivenNames lx; clear_value lx; revert lx; refine kept_lock ?_; intro lx)
    | with_reducible apply State.endOp_kept
    | with_reducible apply kept_ite
    | with_reducible apply kept_foldl
    | simp -zeta only [kept_mk, keptF_fold]
    | split

theorem State.jobTeardown_kept (v : W64) {s : State} (hs : Kept pq va s) : Kept pq va (State.jobTeardown v s) := by
  unfold State.jobTeardown
  repeat' first
    | with_reducible assumption
    | intro _
    | (extract_lets +onlyGivenNames lx; refine (fun (hlx : Kept pq va lx) => ?_ : Kept pq va lx → _) ?_; rotate_left; simp -zeta only [lx]; clear lx; rotate_right; clear_value lx; revert lx; refine kept_lock ?_; intro lx hlx)
    | (extract_lets +onlyGivenNames lx; clear_value lx; revert lx; refine kept_lock ?_; intro lx)
    | with_reducible apply State.failSeqs_kept
    | with_reducible apply State.gated_kept
    | with_reducible apply State.tearJob_kept
    | with_reducible apply State.tearOps_kept
    | with_reducible apply State.tornJob_kept
    | with_reducible apply kept_ite
    | with_reducible apply kept_foldl
    | simp -zeta only [kept_mk, keptF_fold]
    | split

theorem execJobTeardown_kept (v : W64) {s : State} (hs : Kept pq va s) : KeptOut pq va (execJobTeardown v s) := by
  unfold execJobTeardown
  repeat' first
    | with_reducible assumption
    | intro _
    | (extract_lets +onlyGivenNames lx; refine (fun (hlx : Kept pq va lx) => ?_ : Kept pq va lx → _) ?_; rotate_left; simp -zeta only [lx]; clear lx; rotate_right; clear_value lx; revert lx; refine kept_lock ?_; intro lx hlx)
    | (extract_lets +onlyGivenNames lx; clear_value lx; revert lx; refine kept_lock ?_; intro lx)
    | with_reducible apply keptOut_next
    | with_reducible apply keptOut_ite
    | with_reducible apply State.jobTeardown_kept
    | with_reducible apply kept_ite
    | with_reducible apply kept_foldl
    | simp -zeta only [kept_mk, keptF_fold]
    | split

theorem State.timeFrom_kept (k : Nat) (time : Nat) (delay : Nat) {s : State} (hs : Kept pq va s) : Kept pq va (State.timeFrom k time delay s) := by
  unfold State.timeFrom
  repeat' first
    | with_reducible assumption
    | intro _
    | (extract_lets +onlyGivenNames lx; refine (fun (hlx : Kept pq va lx) => ?_ : Kept pq va lx → _) ?_; rotate_left; simp -zeta only [lx]; clear lx; rotate_right; clear_value lx; revert lx; refine kept_lock ?_; intro lx hlx)
    | (extract_lets +onlyGivenNames lx; clear_value lx; revert lx; refine kept_lock ?_; intro lx)
    | with_reducible apply State.putLocal_kept
    | with_reducible apply State.send_kept
    | with_reducible apply kept_ite
    | with_reducible apply kept_foldl
    | simp -zeta only [kept_mk, keptF_fold]
    | split

theorem State.offsetHigh_kept (off : Int) {s : State} (hs : Kept pq va s) : Kept pq va (State.offsetHigh off s) := by
  unfold State.offsetHigh
  repeat' first
    | with_reducible assumption
    | intro _
    | (extract_lets +onlyGivenNames lx; refine (fun (hlx : Kept pq va lx) => ?_ : Kept pq va lx → _) ?_; rotate_left; simp -zeta only [lx]; clear lx; rotate_right; clear_value lx; revert lx; refine kept_lock ?_; intro lx hlx)
    | (extract_lets +onlyGivenNames lx; clear_value lx; revert lx; refine kept_lock ?_; intro lx)
    | with_reducible apply State.recordOnce_kept
    | with_reducible apply kept_ite
    | with_reducible apply kept_foldl
    | simp -zeta only [kept_mk, keptF_fold]
    | split

theorem State.timeStep_kept (t : Nat) {s : State} (hs : Kept pq va s) : Kept pq va (State.timeStep t s) := by
  unfold State.timeStep
  repeat' first
    | with_reducible assumption
    | intro _
    | (extract_lets +onlyGivenNames lx; refine (fun (hlx : Kept pq va lx) => ?_ : Kept pq va lx → _) ?_; rotate_left; simp -zeta only [lx]; clear lx; rotate_right; clear_value lx; revert lx; refine kept_lock ?_; intro lx hlx)
    | (extract_lets +onlyGivenNames lx; clear_value lx; revert lx; refine kept_lock ?_; intro lx)
    | with_reducible apply State.record_kept
    | with_reducible apply kept_ite
    | with_reducible apply kept_foldl
    | simp -zeta only [kept_mk, keptF_fold]
    | split

theorem execTimeReceive_kept (p : Arrived) {s : State} (hs : Kept pq va s) : KeptOut pq va (execTimeReceive p s) := by
  unfold execTimeReceive
  repeat' first
    | with_reducible assumption
    | intro _
    | (extract_lets +onlyGivenNames lx; refine (fun (hlx : Kept pq va lx) => ?_ : Kept pq va lx → _) ?_; rotate_left; simp -zeta only [lx]; clear lx; rotate_right; clear_value lx; revert lx; refine kept_lock ?_; intro lx hlx)
    | (extract_lets +onlyGivenNames lx; clear_value lx; revert lx; refine kept_lock ?_; intro lx)
    | with_reducible apply keptOut_next
    | with_reducible apply keptOut_ite
    | with_reducible apply State.offsetHigh_kept
    | with_reducible apply State.setReg_kept
    | with_reducible apply State.tallyAdd_kept
    | with_reducible apply State.timeFrom_kept
    | with_reducible apply State.timeStep_kept
    | with_reducible apply kept_ite
    | with_reducible apply kept_foldl
    | simp -zeta only [kept_mk, keptF_fold]
    | split

theorem execLoadReceive_kept (p : Arrived) {s : State} (hs : Kept pq va s) : KeptOut pq va (execLoadReceive p s) := by
  unfold execLoadReceive
  repeat' first
    | with_reducible assumption
    | intro _
    | (extract_lets +onlyGivenNames lx; refine (fun (hlx : Kept pq va lx) => ?_ : Kept pq va lx → _) ?_; rotate_left; simp -zeta only [lx]; clear lx; rotate_right; clear_value lx; revert lx; refine kept_lock ?_; intro lx hlx)
    | (extract_lets +onlyGivenNames lx; clear_value lx; revert lx; refine kept_lock ?_; intro lx)
    | with_reducible apply keptOut_next
    | with_reducible apply keptOut_ite
    | with_reducible apply kept_ite
    | with_reducible apply kept_foldl
    | simp -zeta only [kept_mk, keptF_fold]
    | split

theorem execLlrReceive_kept (p : Arrived) {s : State} (hs : Kept pq va s) : KeptOut pq va (execLlrReceive p s) := by
  unfold execLlrReceive
  repeat' first
    | with_reducible assumption
    | intro _
    | (extract_lets +onlyGivenNames lx; refine (fun (hlx : Kept pq va lx) => ?_ : Kept pq va lx → _) ?_; rotate_left; simp -zeta only [lx]; clear lx; rotate_right; clear_value lx; revert lx; refine kept_lock ?_; intro lx hlx)
    | (extract_lets +onlyGivenNames lx; clear_value lx; revert lx; refine kept_lock ?_; intro lx)
    | with_reducible apply keptOut_next
    | with_reducible apply keptOut_ite
    | with_reducible apply State.colStale_kept
    | with_reducible apply State.llRun_kept
    | with_reducible apply kept_ite
    | with_reducible apply kept_foldl
    | simp -zeta only [kept_mk, keptF_fold]
    | split

end Sys2Proof.Machine
end

