-- ==== Sys2Proof/Laws/Fetch.lean ====
section
/-! SUPPORT. What each operation of Machine/Fetch.lean keeps (Laws/Kept.lean). -/
set_option linter.all false
namespace Sys2Proof.Machine

variable {pq : List Instr} {va : Bool}

theorem State.evict_kept (k : Nat) {s : State} (hs : Kept pq va s) : Kept pq va (State.evict k s) := by
  unfold State.evict
  repeat' first
    | with_reducible assumption
    | intro _
    | (extract_lets +onlyGivenNames lx; refine (fun (hlx : Kept pq va lx) => ?_ : Kept pq va lx → _) ?_; rotate_left; simp -zeta only [lx]; clear lx; rotate_right; clear_value lx; revert lx; refine kept_lock ?_; intro lx hlx)
    | (extract_lets +onlyGivenNames lx; clear_value lx; revert lx; refine kept_lock ?_; intro lx)
    | with_reducible apply State.holdUnits_kept
    | with_reducible apply State.tallyAdd_kept
    | with_reducible apply kept_ite
    | with_reducible apply kept_foldl
    | simp -zeta only [kept_mk, keptF_fold]
    | split

theorem State.makeRoom_kept (c : Nat) (n : Nat) (point : Nat) (a3 : Nat) {a4 : State} (hs : Kept pq va a4) : Kept pq va (State.makeRoom c n point a3 a4).2 := by
  induction a3 generalizing a4 with
  | zero =>
    simp -zeta only [State.makeRoom]
    try exact hs
  | succ n ih =>
    rw [State.makeRoom]
    repeat' first
      | with_reducible assumption
      | intro _
      | (extract_lets +onlyGivenNames lx; refine (fun (hlx : Kept pq va lx) => ?_ : Kept pq va lx → _) ?_; rotate_left; simp -zeta only [lx]; clear lx; rotate_right; clear_value lx; revert lx; refine kept_lock ?_; intro lx hlx)
      | (extract_lets +onlyGivenNames lx; clear_value lx; revert lx; refine kept_lock ?_; intro lx)
      | with_reducible apply ih
      | with_reducible apply State.evict_kept
      | with_reducible apply kept_ite
      | with_reducible apply kept_foldl
      | simp -zeta only [kept_mk, keptF_fold]
      | split

theorem State.makeRoom_kept' {c : Nat} {n : Nat} {point : Nat} {a3 : Nat} {a4 : State}  {r : _} {t : State} (he : State.makeRoom c n point a3 a4 = (r, t)) (hs : Kept pq va a4) : Kept pq va t := by
  have := State.makeRoom_kept c n point a3 hs
  rwa [he] at this

theorem State.unqueue_kept (f : Fetch) {s : State} (hs : Kept pq va s) : Kept pq va (State.unqueue f s) := by
  unfold State.unqueue
  repeat' first
    | with_reducible assumption
    | intro _
    | (extract_lets +onlyGivenNames lx; refine (fun (hlx : Kept pq va lx) => ?_ : Kept pq va lx → _) ?_; rotate_left; simp -zeta only [lx]; clear lx; rotate_right; clear_value lx; revert lx; refine kept_lock ?_; intro lx hlx)
    | (extract_lets +onlyGivenNames lx; clear_value lx; revert lx; refine kept_lock ?_; intro lx)
    | with_reducible apply kept_ite
    | with_reducible apply kept_foldl
    | simp -zeta only [kept_mk, keptF_fold]
    | split

theorem State.startFetch_kept (f : Fetch) (a : Nat) {s : State} (hs : Kept pq va s) : Kept pq va (State.startFetch f a s) := by
  unfold State.startFetch
  repeat' first
    | with_reducible assumption
    | intro _
    | (extract_lets +onlyGivenNames lx; refine (fun (hlx : Kept pq va lx) => ?_ : Kept pq va lx → _) ?_; rotate_left; simp -zeta only [lx]; clear lx; rotate_right; clear_value lx; revert lx; refine kept_lock ?_; intro lx hlx)
    | (extract_lets +onlyGivenNames lx; clear_value lx; revert lx; refine kept_lock ?_; intro lx)
    | with_reducible apply State.addCopy_kept
    | with_reducible apply State.escalate_kept
    | with_reducible apply State.raise_kept
    | with_reducible apply State.resFault_kept
    | with_reducible apply State.setBlock_kept
    | with_reducible apply State.unqueue_kept
    | with_reducible apply kept_ite
    | with_reducible apply kept_foldl
    | simp -zeta only [kept_mk, keptF_fold]
    | split

theorem State.tryFetches_kept (a0 : List Fetch) {a1 : State} (hs : Kept pq va a1) : Kept pq va (State.tryFetches a0 a1) := by
  induction a0 generalizing a1 with
  | nil =>
    simp -zeta only [State.tryFetches]
    try exact hs
  | cons x t ih =>
    rw [State.tryFetches]
    repeat' first
      | with_reducible assumption
      | intro _
      | (extract_lets +onlyGivenNames lx; refine (fun (hlx : Kept pq va lx) => ?_ : Kept pq va lx → _) ?_; rotate_left; simp -zeta only [lx]; clear lx; rotate_right; clear_value lx; revert lx; refine kept_lock ?_; intro lx hlx)
      | (extract_lets +onlyGivenNames lx; clear_value lx; revert lx; refine kept_lock ?_; intro lx)
      | with_reducible apply ih
      | with_reducible apply State.makeRoom_kept
      | with_reducible apply State.startFetch_kept
      | with_reducible apply State.tallyAdd_kept
      | with_reducible apply State.unqueue_kept
      | with_reducible apply kept_ite
      | with_reducible apply kept_foldl
      | simp -zeta only [kept_mk, keptF_fold]
      | split
      | (with_reducible refine State.makeRoom_kept' (by with_reducible assumption) ?_)

theorem execResidencyFetchStart_kept {s : State} (hs : Kept pq va s) : KeptOut pq va (execResidencyFetchStart s) := by
  unfold execResidencyFetchStart
  repeat' first
    | with_reducible assumption
    | intro _
    | (extract_lets +onlyGivenNames lx; refine (fun (hlx : Kept pq va lx) => ?_ : Kept pq va lx → _) ?_; rotate_left; simp -zeta only [lx]; clear lx; rotate_right; clear_value lx; revert lx; refine kept_lock ?_; intro lx hlx)
    | (extract_lets +onlyGivenNames lx; clear_value lx; revert lx; refine kept_lock ?_; intro lx)
    | with_reducible apply keptOut_next
    | with_reducible apply keptOut_ite
    | with_reducible apply State.dropUnhosted_kept
    | with_reducible apply State.pruneUndo_kept
    | with_reducible apply State.tryFetches_kept
    | with_reducible apply kept_ite
    | with_reducible apply kept_foldl
    | simp -zeta only [kept_mk, keptF_fold]
    | split

theorem State.blockArrives_kept (c : Copy) {s : State} (hs : Kept pq va s) : Kept pq va (State.blockArrives c s) := by
  unfold State.blockArrives
  repeat' first
    | with_reducible assumption
    | intro _
    | (extract_lets +onlyGivenNames lx; refine (fun (hlx : Kept pq va lx) => ?_ : Kept pq va lx → _) ?_; rotate_left; simp -zeta only [lx]; clear lx; rotate_right; clear_value lx; revert lx; refine kept_lock ?_; intro lx hlx)
    | (extract_lets +onlyGivenNames lx; clear_value lx; revert lx; refine kept_lock ?_; intro lx)
    | with_reducible apply State.promote_kept
    | with_reducible apply State.releaseUnits_kept
    | with_reducible apply State.sendReady_kept
    | with_reducible apply State.setBlock_kept
    | with_reducible apply State.takePin_kept
    | with_reducible apply State.tallyAdd_kept
    | with_reducible apply kept_ite
    | with_reducible apply kept_foldl
    | simp -zeta only [kept_mk, keptF_fold]
    | split

theorem execResidencyFetchDone_kept (expert : Nat) (layer : Nat) {s : State} (hs : Kept pq va s) : KeptOut pq va (execResidencyFetchDone expert layer s) := by
  unfold execResidencyFetchDone
  repeat' first
    | with_reducible assumption
    | intro _
    | (extract_lets +onlyGivenNames lx; refine (fun (hlx : Kept pq va lx) => ?_ : Kept pq va lx → _) ?_; rotate_left; simp -zeta only [lx]; clear lx; rotate_right; clear_value lx; revert lx; refine kept_lock ?_; intro lx hlx)
    | (extract_lets +onlyGivenNames lx; clear_value lx; revert lx; refine kept_lock ?_; intro lx)
    | with_reducible apply keptOut_next
    | with_reducible apply keptOut_ite
    | with_reducible apply State.blockArrives_kept
    | with_reducible apply State.failBlock_kept
    | with_reducible apply State.setBlock_kept
    | with_reducible apply State.showPorter_kept
    | with_reducible apply kept_ite
    | with_reducible apply kept_foldl
    | simp -zeta only [kept_mk, keptF_fold]
    | split

theorem State.hintOne_kept (h : Nat) {s : State} (hs : Kept pq va s) : Kept pq va (State.hintOne h s) := by
  unfold State.hintOne
  repeat' first
    | with_reducible assumption
    | intro _
    | (extract_lets +onlyGivenNames lx; refine (fun (hlx : Kept pq va lx) => ?_ : Kept pq va lx → _) ?_; rotate_left; simp -zeta only [lx]; clear lx; rotate_right; clear_value lx; revert lx; refine kept_lock ?_; intro lx hlx)
    | (extract_lets +onlyGivenNames lx; clear_value lx; revert lx; refine kept_lock ?_; intro lx)
    | with_reducible apply State.evict_kept
    | with_reducible apply State.setBlock_kept
    | with_reducible apply State.takePin_kept
    | with_reducible apply State.tallyAdd_kept
    | with_reducible apply kept_ite
    | with_reducible apply kept_foldl
    | simp -zeta only [kept_mk, keptF_fold]
    | split

theorem State.readHints_kept {s : State} (hs : Kept pq va s) : Kept pq va (State.readHints s) := by
  unfold State.readHints
  repeat' first
    | with_reducible assumption
    | intro _
    | (extract_lets +onlyGivenNames lx; refine (fun (hlx : Kept pq va lx) => ?_ : Kept pq va lx → _) ?_; rotate_left; simp -zeta only [lx]; clear lx; rotate_right; clear_value lx; revert lx; refine kept_lock ?_; intro lx hlx)
    | (extract_lets +onlyGivenNames lx; clear_value lx; revert lx; refine kept_lock ?_; intro lx)
    | with_reducible apply State.hintOne_kept
    | with_reducible apply State.noteUe_kept
    | with_reducible apply kept_ite
    | with_reducible apply kept_foldl
    | simp -zeta only [kept_mk, keptF_fold]
    | split

theorem State.plannerAtOpen_kept (bell : Nat) {s : State} (hs : Kept pq va s) : Kept pq va (State.plannerAtOpen bell s) := by
  unfold State.plannerAtOpen
  repeat' first
    | with_reducible assumption
    | intro _
    | (extract_lets +onlyGivenNames lx; refine (fun (hlx : Kept pq va lx) => ?_ : Kept pq va lx → _) ?_; rotate_left; simp -zeta only [lx]; clear lx; rotate_right; clear_value lx; revert lx; refine kept_lock ?_; intro lx hlx)
    | (extract_lets +onlyGivenNames lx; clear_value lx; revert lx; refine kept_lock ?_; intro lx)
    | with_reducible apply State.planPoint_kept
    | with_reducible apply State.promote_kept
    | with_reducible apply State.readHints_kept
    | with_reducible apply kept_ite
    | with_reducible apply kept_foldl
    | simp -zeta only [kept_mk, keptF_fold]
    | split

end Sys2Proof.Machine
end

