-- ==== Sys2Proof/Laws/Dispatch.lean ====
section
/-! SUPPORT. What the dispatch answers for each command: the command's own meaning. Proofs rewrite with these, so that no
proof unfolds the whole dispatch. -/
set_option linter.all false
namespace Sys2Proof.Machine

variable {s : State}

@[simp] theorem exec_registerWrite {offset} {size} {v} : exec (.registerWrite offset size v) s = execRegisterWrite offset size v s := (rfl)
@[simp] theorem exec_porstAssert : exec (.porstAssert) s = execPorstAssert s := (rfl)
@[simp] theorem exec_porstRelease {clocksStable} : exec (.porstRelease clocksStable) s = execPorstRelease clocksStable s := (rfl)
@[simp] theorem exec_slrstAssert : exec (.slrstAssert) s = execSlrstAssert s := (rfl)
@[simp] theorem exec_slrstRelease {clocksStable} : exec (.slrstRelease clocksStable) s = execSlrstRelease clocksStable s := (rfl)
@[simp] theorem exec_arithStepChange {step} {next} : exec (.arithStepChange step next) s = execArithStepChange step next s := (rfl)
@[simp] theorem exec_clkFault {clock} : exec (.clkFault clock) s = execClkFault clock s := (rfl)
@[simp] theorem exec_tsyncPulse {leadTime} : exec (.tsyncPulse leadTime) s = execTsyncPulse leadTime s := (rfl)
@[simp] theorem exec_tsyncLost {missed} : exec (.tsyncLost missed) s = execTsyncLost missed s := (rfl)
@[simp] theorem exec_powerRemove {slice} : exec (.powerRemove slice) s = execPowerRemove slice s := (rfl)
@[simp] theorem exec_memResponse {addr} {port} {target} {result} : exec (.memResponse addr port target result) s = execMemResponse addr port target result s := (rfl)
@[simp] theorem exec_memWriteAck {chain} : exec (.memWriteAck chain) s = execMemWriteAck chain s := (rfl)
@[simp] theorem exec_memTimeout {addr} {target} : exec (.memTimeout addr target) s = execMemTimeout addr target s := (rfl)
@[simp] theorem exec_floorShort : exec (.floorShort) s = execFloorShort s := (rfl)
@[simp] theorem exec_apertureWrite {place} {bytes} : exec (.apertureWrite place bytes) s = execApertureWrite place bytes s := (rfl)
@[simp] theorem exec_irqMessageSend {vector} : exec (.irqMessageSend vector) s = execIrqMessageSend vector s := (rfl)
@[simp] theorem exec_irqRetryTimer {vector} : exec (.irqRetryTimer vector) s = execIrqRetryTimer vector s := (rfl)
@[simp] theorem exec_irqMaskWrite {v} : exec (.irqMaskWrite v) s = execIrqMaskWrite v s := (rfl)
@[simp] theorem exec_irqForce {v} : exec (.irqForce v) s = execIrqForce v s := (rfl)
@[simp] theorem exec_irqEnableWrite {page} {v} : exec (.irqEnableWrite page v) s = execIrqEnableWrite page v s := (rfl)
@[simp] theorem exec_irqAddrWrite {vector} {data} {v} : exec (.irqAddrWrite vector data v) s = execIrqAddrWrite vector data v s := (rfl)
@[simp] theorem exec_errClr {page} : exec (.errClr page) s = execErrClr page s := (rfl)
@[simp] theorem exec_stageDiscard {page} : exec (.stageDiscard page) s = execStageDiscard page s := (rfl)
@[simp] theorem exec_tallySlotRead {page} {slot} : exec (.tallySlotRead page slot) s = execTallySlotRead page slot s := (rfl)
@[simp] theorem exec_clrUnread {page} : exec (.clrUnread page) s = execClrUnread page s := (rfl)
@[simp] theorem exec_pbellGo : exec (.pbellGo) s = execPbellGo s := (rfl)
@[simp] theorem exec_pbellHalt : exec (.pbellHalt) s = execPbellHalt s := (rfl)
@[simp] theorem exec_bellMarkerSend : exec (.bellMarkerSend) s = execBellMarkerSend s := (rfl)
@[simp] theorem exec_bellMarkerReceive {bell} {opens} {period} : exec (.bellMarkerReceive bell opens period) s = execBellMarkerReceive bell opens period s := (rfl)
@[simp] theorem exec_leadWindowOpen : exec (.leadWindowOpen) s = execLeadWindowOpen s := (rfl)
@[simp] theorem exec_bellOpen : exec (.bellOpen) s = execBellOpen s := (rfl)
@[simp] theorem exec_dirDigestCompare {digests} : exec (.dirDigestCompare digests) s = execDirDigestCompare digests s := (rfl)
@[simp] theorem exec_scalesComplete : exec (.scalesComplete) s = execScalesComplete s := (rfl)
@[simp] theorem exec_layerIn {v} : exec (.layerIn v) s = execLayerIn v s := (rfl)
@[simp] theorem exec_layerOut {half} : exec (.layerOut half) s = execLayerOut half s := (rfl)
@[simp] theorem exec_bellPlanPost {v} : exec (.bellPlanPost v) s = execBellPlanPost v s := (rfl)
@[simp] theorem exec_planCheckDone : exec (.planCheckDone) s = execPlanCheckDone s := (rfl)
@[simp] theorem exec_slotLate {half} : exec (.slotLate half) s = execSlotLate half s := (rfl)
@[simp] theorem exec_lateNoticeReceive {bell} {layer} {half} : exec (.lateNoticeReceive bell layer half) s = execLateNoticeReceive bell layer half s := (rfl)
@[simp] theorem exec_seqHashIn {v} : exec (.seqHashIn v) s = execSeqHashIn v s := (rfl)
@[simp] theorem exec_tokenScore {half} {ue} : exec (.tokenScore half ue) s = execTokenScore half ue s := (rfl)
@[simp] theorem exec_shadowCompare {half} {equal} : exec (.shadowCompare half equal) s = execShadowCompare half equal s := (rfl)
@[simp] theorem exec_tileSelfTestDone {failed} : exec (.tileSelfTestDone failed) s = execTileSelfTestDone failed s := (rfl)
@[simp] theorem exec_tilePatternTest {tile} {pass} : exec (.tilePatternTest tile pass) s = execTilePatternTest tile pass s := (rfl)
@[simp] theorem exec_keysTableWrite {v} : exec (.keysTableWrite v) s = execKeysTableWrite v s := (rfl)
@[simp] theorem exec_keysCheckDone : exec (.keysCheckDone) s = execKeysCheckDone s := (rfl)
@[simp] theorem exec_bankImageLoadDone {bankB} {ok} : exec (.bankImageLoadDone bankB ok) s = execBankImageLoadDone bankB ok s := (rfl)
@[simp] theorem exec_keyRefetchDone {bankB} {addr} : exec (.keyRefetchDone bankB addr) s = execKeyRefetchDone bankB addr s := (rfl)
@[simp] theorem exec_selTableWrite {v} : exec (.selTableWrite v) s = execSelTableWrite v s := (rfl)
@[simp] theorem exec_selCheckDone : exec (.selCheckDone) s = execSelCheckDone s := (rfl)
@[simp] theorem exec_tokenSelect {half} {checkerOk} : exec (.tokenSelect half checkerOk) s = execTokenSelect half checkerOk s := (rfl)
@[simp] theorem exec_bidCloseSend {half} : exec (.bidCloseSend half) s = execBidCloseSend half s := (rfl)
@[simp] theorem exec_bidReceive {src} {record} : exec (.bidReceive src record) s = execBidReceive src record s := (rfl)
@[simp] theorem exec_tieNoteReceive {src} {half} {bell} {layer} {round} {record} : exec (.tieNoteReceive src half bell layer round record) s = execTieNoteReceive src half bell layer round record s := (rfl)
@[simp] theorem exec_bidCloseReceive {src} {record} : exec (.bidCloseReceive src record) s = execBidCloseReceive src record s := (rfl)
@[simp] theorem exec_bidSkew {src} {half} : exec (.bidSkew src half) s = execBidSkew src half s := (rfl)
@[simp] theorem exec_auctionRoundClose {half} {lockstep} : exec (.auctionRoundClose half lockstep) s = execAuctionRoundClose half lockstep s := (rfl)
@[simp] theorem exec_aucCloseTimeout {half} : exec (.aucCloseTimeout half) s = execAucCloseTimeout half s := (rfl)
@[simp] theorem exec_verdictReceive {home} {bell} {layer} {half} {round} {verdict} : exec (.verdictReceive home bell layer half round verdict) s = execVerdictReceive home bell layer half round verdict s := (rfl)
@[simp] theorem exec_roundFold {half} : exec (.roundFold half) s = execRoundFold half s := (rfl)
@[simp] theorem exec_gateWeightsDone {half} : exec (.gateWeightsDone half) s = execGateWeightsDone half s := (rfl)
@[simp] theorem exec_releaseReceiveHome {src} {record} : exec (.releaseReceiveHome src record) s = execReleaseReceiveHome src record s := (rfl)
@[simp] theorem exec_releaseReceiveSite {src} {record} : exec (.releaseReceiveSite src record) s = execReleaseReceiveSite src record s := (rfl)
@[simp] theorem exec_reservationNoticeReceive {home} {record} : exec (.reservationNoticeReceive home record) s = execReservationNoticeReceive home record s := (rfl)
@[simp] theorem exec_readinessRecordReceive {record} : exec (.readinessRecordReceive record) s = execReadinessRecordReceive record s := (rfl)
@[simp] theorem exec_tokChunkSend : exec (.tokChunkSend) s = execTokChunkSend s := (rfl)
@[simp] theorem exec_tokChunkReceive {src} {tag} {bytes} {crc} : exec (.tokChunkReceive src tag bytes crc) s = execTokChunkReceive src tag bytes crc s := (rfl)
@[simp] theorem exec_poolRequestGrant {cls} : exec (.poolRequestGrant cls) s = execPoolRequestGrant cls s := (rfl)
@[simp] theorem exec_poolStarved {cls} : exec (.poolStarved cls) s = execPoolStarved cls s := (rfl)
@[simp] theorem exec_tilePost : exec (.tilePost) s = execTilePost s := (rfl)
@[simp] theorem exec_tileHead {v} : exec (.tileHead v) s = execTileHead v s := (rfl)
@[simp] theorem exec_tileDone {v} : exec (.tileDone v) s = execTileDone v s := (rfl)
@[simp] theorem exec_tileTimeout {list} {index} : exec (.tileTimeout list index) s = execTileTimeout list index s := (rfl)
@[simp] theorem exec_tileQuarRelease {v} : exec (.tileQuarRelease v) s = execTileQuarRelease v s := (rfl)
@[simp] theorem exec_returnChunkReceive {src} {tag} {bytes} {crc} : exec (.returnChunkReceive src tag bytes crc) s = execReturnChunkReceive src tag bytes crc s := (rfl)
@[simp] theorem exec_returnTimeout {half} : exec (.returnTimeout half) s = execReturnTimeout half s := (rfl)
@[simp] theorem exec_tokenCombine {half} {fault} : exec (.tokenCombine half fault) s = execTokenCombine half fault s := (rfl)
@[simp] theorem exec_resDirWrite {v} : exec (.resDirWrite v) s = execResDirWrite v s := (rfl)
@[simp] theorem exec_resDirLoadDone : exec (.resDirLoadDone) s = execResDirLoadDone s := (rfl)
@[simp] theorem exec_resEditWrite {v} : exec (.resEditWrite v) s = execResEditWrite v s := (rfl)
@[simp] theorem exec_resEditCheckDone : exec (.resEditCheckDone) s = execResEditCheckDone s := (rfl)
@[simp] theorem exec_resDescWrite {v} : exec (.resDescWrite v) s = execResDescWrite v s := (rfl)
@[simp] theorem exec_resHintWrite {v} : exec (.resHintWrite v) s = execResHintWrite v s := (rfl)
@[simp] theorem exec_residencyFetchStart : exec (.residencyFetchStart) s = execResidencyFetchStart s := (rfl)
@[simp] theorem exec_residencyFetchDone {expert} {layer} : exec (.residencyFetchDone expert layer) s = execResidencyFetchDone expert layer s := (rfl)
@[simp] theorem exec_deadNoticeSend {slice} : exec (.deadNoticeSend slice) s = execDeadNoticeSend slice s := (rfl)
@[simp] theorem exec_deadNoticeReceive {source} {rehomeBell} : exec (.deadNoticeReceive source rehomeBell) s = execDeadNoticeReceive source rehomeBell s := (rfl)
@[simp] theorem exec_linkFrameSend {port} : exec (.linkFrameSend port) s = execLinkFrameSend port s := (rfl)
@[simp] theorem exec_linkFrameReceive {port} {bytes} {corrected} {side} :
    exec (.linkFrameReceive port bytes corrected side) s = execLinkFrameReceive port bytes corrected side s := (rfl)
@[simp] theorem exec_phyLockLoss {port} : exec (.phyLockLoss port) s = execPhyLockLoss port s := (rfl)
@[simp] theorem exec_linkTrainDone {port} {rtt} {farNode} {farPort} : exec (.linkTrainDone port rtt farNode farPort) s = execLinkTrainDone port rtt farNode farPort s := (rfl)
@[simp] theorem exec_packetForward {index} : exec (.packetForward index) s = execPacketForward index s := (rfl)
@[simp] theorem exec_escWaitTimeout {index} : exec (.escWaitTimeout index) s = execEscWaitTimeout index s := (rfl)
@[simp] theorem exec_ackReceive {src} {record} : exec (.ackReceive src record) s = execAckReceive src record s := (rfl)
@[simp] theorem exec_nakCrcReceive {src} {record} : exec (.nakCrcReceive src record) s = execNakCrcReceive src record s := (rfl)
@[simp] theorem exec_nakSpanReceive {src} {record} : exec (.nakSpanReceive src record) s = execNakSpanReceive src record s := (rfl)
@[simp] theorem exec_barrowAckReceive {src} {record} : exec (.barrowAckReceive src record) s = execBarrowAckReceive src record s := (rfl)
@[simp] theorem exec_skipReceive {src} {record} : exec (.skipReceive src record) s = execSkipReceive src record s := (rfl)
@[simp] theorem exec_retxTimeout {dest} {cls} {seq} : exec (.retxTimeout dest cls seq) s = execRetxTimeout dest cls seq s := (rfl)
@[simp] theorem exec_e2eLost {dest} {cls} {seq} : exec (.e2eLost dest cls seq) s = execE2eLost dest cls seq s := (rfl)
@[simp] theorem exec_skipResend {dest} {cls} {seq} : exec (.skipResend dest cls seq) s = execSkipResend dest cls seq s := (rfl)
@[simp] theorem exec_discIdentWrite {v} : exec (.discIdentWrite v) s = execDiscIdentWrite v s := (rfl)
@[simp] theorem exec_discIncarnWrite {v} : exec (.discIncarnWrite v) s = execDiscIncarnWrite v s := (rfl)
@[simp] theorem exec_discStart {v} : exec (.discStart v) s = execDiscStart v s := (rfl)
@[simp] theorem exec_discNodeWrite {v} {by_} :
    exec (.discNodeWrite v by_) s = execDiscNodeWrite v by_ s := (rfl)
@[simp] theorem exec_electSend : exec (.electSend) s = execElectSend s := (rfl)
@[simp] theorem exec_electReceive {port} {payload} : exec (.electReceive port payload) s = execElectReceive port payload s := (rfl)
@[simp] theorem exec_electReportExpire {port} : exec (.electReportExpire port) s = execElectReportExpire port s := (rfl)
@[simp] theorem exec_claimSend : exec (.claimSend) s = execClaimSend s := (rfl)
@[simp] theorem exec_claimReceive {port} {payload} : exec (.claimReceive port payload) s = execClaimReceive port payload s := (rfl)
@[simp] theorem exec_assignNumbering : exec (.assignNumbering) s = execAssignNumbering s := (rfl)
@[simp] theorem exec_assignReceive {port} {payload} : exec (.assignReceive port payload) s = execAssignReceive port payload s := (rfl)
@[simp] theorem exec_lsbOriginate : exec (.lsbOriginate) s = execLsbOriginate s := (rfl)
@[simp] theorem exec_lsbReceive {port} {payload} : exec (.lsbReceive port payload) s = execLsbReceive port payload s := (rfl)
@[simp] theorem exec_pathOpSend {v} : exec (.pathOpSend v) s = execPathOpSend v s := (rfl)
@[simp] theorem exec_pathOpReceive {port} {payload} : exec (.pathOpReceive port payload) s = execPathOpReceive port payload s := (rfl)
@[simp] theorem exec_pathOpReplyReceive {payload} : exec (.pathOpReplyReceive payload) s = execPathOpReplyReceive payload s := (rfl)
@[simp] theorem exec_pathOpTimeout : exec (.pathOpTimeout) s = execPathOpTimeout s := (rfl)
@[simp] theorem exec_mgrMailReceive {payload} : exec (.mgrMailReceive payload) s = execMgrMailReceive payload s := (rfl)
@[simp] theorem exec_routeImageWrite {v} : exec (.routeImageWrite v) s = execRouteImageWrite v s := (rfl)
@[simp] theorem exec_routeImageCheckDone : exec (.routeImageCheckDone) s = execRouteImageCheckDone s := (rfl)
@[simp] theorem exec_routeSwitchWrite {v} : exec (.routeSwitchWrite v) s = execRouteSwitchWrite v s := (rfl)
@[simp] theorem exec_routeSwitchAt : exec (.routeSwitchAt) s = execRouteSwitchAt s := (rfl)
@[simp] theorem exec_routeDrainEnd : exec (.routeDrainEnd) s = execRouteDrainEnd s := (rfl)
@[simp] theorem exec_msemRegionsWrite {v} : exec (.msemRegionsWrite v) s = execMsemRegionsWrite v s := (rfl)
@[simp] theorem exec_msemRegionsCheckDone : exec (.msemRegionsCheckDone) s = execMsemRegionsCheckDone s := (rfl)
@[simp] theorem exec_msemTail {v} : exec (.msemTail v) s = execMsemTail v s := (rfl)
@[simp] theorem exec_msemCmdLoad : exec (.msemCmdLoad) s = execMsemCmdLoad s := (rfl)
@[simp] theorem exec_msemCmdStore : exec (.msemCmdStore) s = execMsemCmdStore s := (rfl)
@[simp] theorem exec_msemCmdStoreMasked : exec (.msemCmdStoreMasked) s = execMsemCmdStoreMasked s := (rfl)
@[simp] theorem exec_msemCmdStoreCount : exec (.msemCmdStoreCount) s = execMsemCmdStoreCount s := (rfl)
@[simp] theorem exec_msemCmdAdd : exec (.msemCmdAdd) s = execMsemCmdAdd s := (rfl)
@[simp] theorem exec_msemCmdMinS : exec (.msemCmdMinS) s = execMsemCmdMinS s := (rfl)
@[simp] theorem exec_msemCmdMaxS : exec (.msemCmdMaxS) s = execMsemCmdMaxS s := (rfl)
@[simp] theorem exec_msemCmdMinU : exec (.msemCmdMinU) s = execMsemCmdMinU s := (rfl)
@[simp] theorem exec_msemCmdMaxU : exec (.msemCmdMaxU) s = execMsemCmdMaxU s := (rfl)
@[simp] theorem exec_msemCmdCas : exec (.msemCmdCas) s = execMsemCmdCas s := (rfl)
@[simp] theorem exec_msemCmdFadd32 : exec (.msemCmdFadd32) s = execMsemCmdFadd32 s := (rfl)
@[simp] theorem exec_msemCmdFence : exec (.msemCmdFence) s = execMsemCmdFence s := (rfl)
@[simp] theorem exec_fenceComplete {id} : exec (.fenceComplete id) s = execFenceComplete id s := (rfl)
@[simp] theorem exec_reqLoad {p} : exec (.reqLoad p) s = execReqLoad p s := (rfl)
@[simp] theorem exec_reqStore {p} : exec (.reqStore p) s = execReqStore p s := (rfl)
@[simp] theorem exec_reqStoreMasked {p} : exec (.reqStoreMasked p) s = execReqStoreMasked p s := (rfl)
@[simp] theorem exec_reqStoreCount {p} : exec (.reqStoreCount p) s = execReqStoreCount p s := (rfl)
@[simp] theorem exec_reqAdd {p} : exec (.reqAdd p) s = execReqAdd p s := (rfl)
@[simp] theorem exec_reqMinS {p} : exec (.reqMinS p) s = execReqMinS p s := (rfl)
@[simp] theorem exec_reqMaxS {p} : exec (.reqMaxS p) s = execReqMaxS p s := (rfl)
@[simp] theorem exec_reqMinU {p} : exec (.reqMinU p) s = execReqMinU p s := (rfl)
@[simp] theorem exec_reqMaxU {p} : exec (.reqMaxU p) s = execReqMaxU p s := (rfl)
@[simp] theorem exec_reqCas {p} : exec (.reqCas p) s = execReqCas p s := (rfl)
@[simp] theorem exec_reqFadd32 {p} : exec (.reqFadd32 p) s = execReqFadd32 p s := (rfl)
@[simp] theorem exec_reqStub {p} : exec (.reqStub p) s = execReqStub p s := (rfl)
@[simp] theorem exec_reqLoadGw {p} : exec (.reqLoadGw p) s = execReqLoadGw p s := (rfl)
@[simp] theorem exec_reqStoreGw {p} : exec (.reqStoreGw p) s = execReqStoreGw p s := (rfl)
@[simp] theorem exec_fwdRequestReceive {type} {p} : exec (.fwdRequestReceive type p) s = execFwdRequestReceive type p s := (rfl)
@[simp] theorem exec_invalidateReceive {p} : exec (.invalidateReceive p) s = execInvalidateReceive p s := (rfl)
@[simp] theorem exec_rspReceive {p} : exec (.rspReceive p) s = execRspReceive p s := (rfl)
@[simp] theorem exec_remoteTimeout {tag} : exec (.remoteTimeout tag) s = execRemoteTimeout tag s := (rfl)
@[simp] theorem exec_jobTeardown {v} : exec (.jobTeardown v) s = execJobTeardown v s := (rfl)
@[simp] theorem exec_porterTail {v} : exec (.porterTail v) s = execPorterTail v s := (rfl)
@[simp] theorem exec_porterRequestIssue : exec (.porterRequestIssue) s = execPorterRequestIssue s := (rfl)
@[simp] theorem exec_collCreate {v} : exec (.collCreate v) s = execCollCreate v s := (rfl)
@[simp] theorem exec_collDestroy {v} : exec (.collDestroy v) s = execCollDestroy v s := (rfl)
@[simp] theorem exec_joinSend {group} : exec (.joinSend group) s = execJoinSend group s := (rfl)
@[simp] theorem exec_joinReceive {p} : exec (.joinReceive p) s = execJoinReceive p s := (rfl)
@[simp] theorem exec_readyReceive {p} : exec (.readyReceive p) s = execReadyReceive p s := (rfl)
@[simp] theorem exec_collCreateTimeout {group} : exec (.collCreateTimeout group) s = execCollCreateTimeout group s := (rfl)
@[simp] theorem exec_collTail {v} : exec (.collTail v) s = execCollTail v s := (rfl)
@[simp] theorem exec_collOpStart {group} : exec (.collOpStart group) s = execCollOpStart group s := (rfl)
@[simp] theorem exec_collOpComplete {group} {seq} : exec (.collOpComplete group seq) s = execCollOpComplete group seq s := (rfl)
@[simp] theorem exec_pullReceive {p} : exec (.pullReceive p) s = execPullReceive p s := (rfl)
@[simp] theorem exec_dataReceive {p} : exec (.dataReceive p) s = execDataReceive p s := (rfl)
@[simp] theorem exec_endReceive {p} : exec (.endReceive p) s = execEndReceive p s := (rfl)
@[simp] theorem exec_collAckReceive {p} : exec (.collAckReceive p) s = execCollAckReceive p s := (rfl)
@[simp] theorem exec_retryReceive {p} : exec (.retryReceive p) s = execRetryReceive p s := (rfl)
@[simp] theorem exec_pullRetry {group} {seq} {chunk} : exec (.pullRetry group seq chunk) s = execPullRetry group seq chunk s := (rfl)
@[simp] theorem exec_abortReceive {p} : exec (.abortReceive p) s = execAbortReceive p s := (rfl)
@[simp] theorem exec_collProgressTimeout {group} {seq} : exec (.collProgressTimeout group seq) s = execCollProgressTimeout group seq s := (rfl)
@[simp] theorem exec_timeReceive {p} : exec (.timeReceive p) s = execTimeReceive p s := (rfl)
@[simp] theorem exec_loadReceive {p} : exec (.loadReceive p) s = execLoadReceive p s := (rfl)
@[simp] theorem exec_llrReceive {p} : exec (.llrReceive p) s = execLlrReceive p s := (rfl)
@[simp] theorem exec_halfDigestDone {half} : exec (.halfDigestDone half) s = execHalfDigestDone half s := (rfl)
@[simp] theorem exec_detDigestReceive {record} : exec (.detDigestReceive record) s = execDetDigestReceive record s := (rfl)
@[simp] theorem exec_detPairTimeout : exec (.detPairTimeout) s = execDetPairTimeout s := (rfl)
@[simp] theorem exec_detDivClr {v} : exec (.detDivClr v) s = execDetDivClr v s := (rfl)
@[simp] theorem exec_ctxCreate {v} : exec (.ctxCreate v) s = execCtxCreate v s := (rfl)
@[simp] theorem exec_ctxDestroy {v} : exec (.ctxDestroy v) s = execCtxDestroy v s := (rfl)
@[simp] theorem exec_ctxDrainEnd {c} : exec (.ctxDrainEnd c) s = execCtxDrainEnd c s := (rfl)
@[simp] theorem exec_ctxSaveDone {c} : exec (.ctxSaveDone c) s = execCtxSaveDone c s := (rfl)
@[simp] theorem exec_ctxSwitchDone : exec (.ctxSwitchDone) s = execCtxSwitchDone s := (rfl)
@[simp] theorem exec_ctxUrgent {v} : exec (.ctxUrgent v) s = execCtxUrgent v s := (rfl)
@[simp] theorem exec_ctxModelAtWrite {v} : exec (.ctxModelAtWrite v) s = execCtxModelAtWrite v s := (rfl)
@[simp] theorem exec_modelSwitchStart : exec (.modelSwitchStart) s = execModelSwitchStart s := (rfl)
@[simp] theorem exec_modelSwitchDone : exec (.modelSwitchDone) s = execModelSwitchDone s := (rfl)
@[simp] theorem exec_safeCauseClear {v} : exec (.safeCauseClear v) s = execSafeCauseClear v s := (rfl)
@[simp] theorem exec_wdogOverrun {half} : exec (.wdogOverrun half) s = execWdogOverrun half s := (rfl)
@[simp] theorem exec_scrubRead {word} {outcome} : exec (.scrubRead word outcome) s = execScrubRead word outcome s := (rfl)
@[simp] theorem exec_latentTest {item} {pass} : exec (.latentTest item pass) s = execLatentTest item pass s := (rfl)
@[simp] theorem exec_mcodeCtrlError {controller} {flagged} : exec (.mcodeCtrlError controller flagged) s = execMcodeCtrlError controller flagged s := (rfl)
@[simp] theorem exec_failSilent {cause} : exec (.failSilent cause) s = execFailSilent cause s := (rfl)
@[simp] theorem exec_edgeSilence {edge} : exec (.edgeSilence edge) s = execEdgeSilence edge s := (rfl)
@[simp] theorem exec_silenceNoteReceive {silent} {reporter} : exec (.silenceNoteReceive silent reporter) s = execSilenceNoteReceive silent reporter s := (rfl)
@[simp] theorem exec_spareRetire {v} : exec (.spareRetire v) s = execSpareRetire v s := (rfl)
@[simp] theorem exec_psafeRetire {v} : exec (.psafeRetire v) s = execPsafeRetire v s := (rfl)
@[simp] theorem exec_bistDone {failed} {micros} : exec (.bistDone failed micros) s = execBistDone failed micros s := (rfl)
@[simp] theorem exec_slcRepair {v} : exec (.slcRepair v) s = execSlcRepair v s := (rfl)
@[simp] theorem exec_slcMapout {v} : exec (.slcMapout v) s = execSlcMapout v s := (rfl)
@[simp] theorem exec_slcUnitRst {v} : exec (.slcUnitRst v) s = execSlcUnitRst v s := (rfl)
@[simp] theorem exec_mcodeExpectWrite {slot} {word} {v} : exec (.mcodeExpectWrite slot word v) s = execMcodeExpectWrite slot word v s := (rfl)
@[simp] theorem exec_mcodeLoad {v} : exec (.mcodeLoad v) s = execMcodeLoad v s := (rfl)
@[simp] theorem exec_mcodeHashDone : exec (.mcodeHashDone) s = execMcodeHashDone s := (rfl)
@[simp] theorem exec_mcodeSwitchWrite {v} : exec (.mcodeSwitchWrite v) s = execMcodeSwitchWrite v s := (rfl)
@[simp] theorem exec_ebsCfgWrite {v} : exec (.ebsCfgWrite v) s = execEbsCfgWrite v s := (rfl)
@[simp] theorem exec_ebsEdgeRetry {edge} {ident} : exec (.ebsEdgeRetry edge ident) s = execEbsEdgeRetry edge ident s := (rfl)
@[simp] theorem exec_packageBind {component} {boundLead} : exec (.packageBind component boundLead) s = execPackageBind component boundLead s := (rfl)
@[simp] theorem exec_leadMove {v} : exec (.leadMove v) s = execLeadMove v s := (rfl)
@[simp] theorem exec_traceMark {v} : exec (.traceMark v) s = execTraceMark v s := (rfl)
@[simp] theorem exec_traceLineWrite : exec (.traceLineWrite) s = execTraceLineWrite s := (rfl)
@[simp] theorem exec_traceLinePad : exec (.traceLinePad) s = execTraceLinePad s := (rfl)
@[simp] theorem exec_ptimeSet {v} : exec (.ptimeSet v) s = execPtimeSet v s := (rfl)
@[simp] theorem exec_dirctlEdit {v} : exec (.dirctlEdit v) s = execDirctlEdit v s := (rfl)
@[simp] theorem exec_dirctlCheckDone {results} : exec (.dirctlCheckDone results) s = execDirctlCheckDone results s := (rfl)
@[simp] theorem exec_portTrainRetry {port} : exec (.portTrainRetry port) s = execPortTrainRetry port s := (rfl)
@[simp] theorem exec_packetExpiry {index} : exec (.packetExpiry index) s = execPacketExpiry index s := (rfl)
@[simp] theorem exec_lsdbFreshExpire {node} : exec (.lsdbFreshExpire node) s = execLsdbFreshExpire node s := (rfl)
@[simp] theorem exec_heartbeatEdge : exec (.heartbeatEdge) s = execHeartbeatEdge s := (rfl)

end Sys2Proof.Machine
end

