-- ==== Sys2Proof/Laws/Open.lean ====
section
/-! SUPPORT. What each operation of Machine/Open.lean keeps (Laws/Kept.lean). -/
set_option linter.all false
namespace Sys2Proof.Machine

variable {pq : List Instr} {va : Bool}

theorem State.stagedForOpen_kept {s : State} (hs : Kept pq va s) : Kept pq va (State.stagedForOpen s) := by
  unfold State.stagedForOpen
  repeat' first
    | with_reducible assumption
    | intro _
    | (extract_lets +onlyGivenNames lx; refine (fun (hlx : Kept pq va lx) => ?_ : Kept pq va lx → _) ?_; rotate_left; simp -zeta only [lx]; clear lx; rotate_right; clear_value lx; revert lx; refine kept_lock ?_; intro lx hlx)
    | (extract_lets +onlyGivenNames lx; clear_value lx; revert lx; refine kept_lock ?_; intro lx)
    | with_reducible apply kept_ite
    | with_reducible apply kept_foldl
    | simp -zeta only [kept_mk, keptF_fold]
    | split

theorem State.stagedAfterOpen_kept (late : Table (Option W64)) {s : State} (hs : Kept pq va s) : Kept pq va (State.stagedAfterOpen late s) := by
  unfold State.stagedAfterOpen
  repeat' first
    | with_reducible assumption
    | intro _
    | (extract_lets +onlyGivenNames lx; refine (fun (hlx : Kept pq va lx) => ?_ : Kept pq va lx → _) ?_; rotate_left; simp -zeta only [lx]; clear lx; rotate_right; clear_value lx; revert lx; refine kept_lock ?_; intro lx hlx)
    | (extract_lets +onlyGivenNames lx; clear_value lx; revert lx; refine kept_lock ?_; intro lx)
    | with_reducible apply kept_ite
    | with_reducible apply kept_foldl
    | simp -zeta only [kept_mk, keptF_fold]
    | split

theorem State.dropStaged_kept (rs : List Nat) {s : State} (hs : Kept pq va s) : Kept pq va (State.dropStaged rs s) := by
  unfold State.dropStaged
  repeat' first
    | with_reducible assumption
    | intro _
    | (extract_lets +onlyGivenNames lx; refine (fun (hlx : Kept pq va lx) => ?_ : Kept pq va lx → _) ?_; rotate_left; simp -zeta only [lx]; clear lx; rotate_right; clear_value lx; revert lx; refine kept_lock ?_; intro lx hlx)
    | (extract_lets +onlyGivenNames lx; clear_value lx; revert lx; refine kept_lock ?_; intro lx)
    | with_reducible apply kept_ite
    | with_reducible apply kept_foldl
    | simp -zeta only [kept_mk, keptF_fold]
    | split

theorem State.srcRefuse_kept (code : Nat) {s : State} (hs : Kept pq va s) : Kept pq va (State.srcRefuse code s) := by
  unfold State.srcRefuse
  repeat' first
    | with_reducible assumption
    | intro _
    | (extract_lets +onlyGivenNames lx; refine (fun (hlx : Kept pq va lx) => ?_ : Kept pq va lx → _) ?_; rotate_left; simp -zeta only [lx]; clear lx; rotate_right; clear_value lx; revert lx; refine kept_lock ?_; intro lx hlx)
    | (extract_lets +onlyGivenNames lx; clear_value lx; revert lx; refine kept_lock ?_; intro lx)
    | with_reducible apply State.dropStaged_kept
    | with_reducible apply State.record_kept
    | with_reducible apply State.setFld_kept
    | with_reducible apply kept_ite
    | with_reducible apply kept_foldl
    | simp -zeta only [kept_mk, keptF_fold]
    | split

theorem State.setSources_kept (xs : List Nat) {s : State} (hs : Kept pq va s) : Kept pq va (State.setSources xs s) := by
  unfold State.setSources
  repeat' first
    | with_reducible assumption
    | intro _
    | (extract_lets +onlyGivenNames lx; refine (fun (hlx : Kept pq va lx) => ?_ : Kept pq va lx → _) ?_; rotate_left; simp -zeta only [lx]; clear lx; rotate_right; clear_value lx; revert lx; refine kept_lock ?_; intro lx hlx)
    | (extract_lets +onlyGivenNames lx; clear_value lx; revert lx; refine kept_lock ?_; intro lx)
    | with_reducible apply State.setFld_kept
    | with_reducible apply kept_ite
    | with_reducible apply kept_foldl
    | simp -zeta only [kept_mk, keptF_fold]
    | split

theorem State.sourcesAtOpen_kept {s : State} (hs : Kept pq va s) : Kept pq va (State.sourcesAtOpen s) := by
  unfold State.sourcesAtOpen
  repeat' first
    | with_reducible assumption
    | intro _
    | (extract_lets +onlyGivenNames lx; refine (fun (hlx : Kept pq va lx) => ?_ : Kept pq va lx → _) ?_; rotate_left; simp -zeta only [lx]; clear lx; rotate_right; clear_value lx; revert lx; refine kept_lock ?_; intro lx hlx)
    | (extract_lets +onlyGivenNames lx; clear_value lx; revert lx; refine kept_lock ?_; intro lx)
    | with_reducible apply State.noteUe_kept
    | with_reducible apply State.setSources_kept
    | with_reducible apply State.srcRefuse_kept
    | with_reducible apply kept_ite
    | with_reducible apply kept_foldl
    | simp -zeta only [kept_mk, keptF_fold]
    | split

theorem State.layFixed_kept {s : State} (hs : Kept pq va s) : Kept pq va (State.layFixed s) := by
  unfold State.layFixed
  repeat' first
    | with_reducible assumption
    | intro _
    | (extract_lets +onlyGivenNames lx; refine (fun (hlx : Kept pq va lx) => ?_ : Kept pq va lx → _) ?_; rotate_left; simp -zeta only [lx]; clear lx; rotate_right; clear_value lx; revert lx; refine kept_lock ?_; intro lx hlx)
    | (extract_lets +onlyGivenNames lx; clear_value lx; revert lx; refine kept_lock ?_; intro lx)
    | with_reducible apply State.dropFrames_kept
    | with_reducible apply State.setFld_kept
    | with_reducible apply State.takeFrames_kept
    | with_reducible apply kept_ite
    | with_reducible apply kept_foldl
    | simp -zeta only [kept_mk, keptF_fold]
    | split
    | (with_reducible refine State.takeFrames_kept' (by with_reducible assumption) ?_)

theorem State.applyStaged_kept {s : State} (hs : Kept pq va s) : Kept pq va (State.applyStaged s) := by
  unfold State.applyStaged
  repeat' first
    | with_reducible assumption
    | intro _
    | (extract_lets +onlyGivenNames lx; refine (fun (hlx : Kept pq va lx) => ?_ : Kept pq va lx → _) ?_; rotate_left; simp -zeta only [lx]; clear lx; rotate_right; clear_value lx; revert lx; refine kept_lock ?_; intro lx hlx)
    | (extract_lets +onlyGivenNames lx; clear_value lx; revert lx; refine kept_lock ?_; intro lx)
    | with_reducible apply State.setReg_kept
    | with_reducible apply kept_ite
    | with_reducible apply kept_foldl
    | simp -zeta only [kept_mk, keptF_fold]
    | split

theorem State.quotasAtOpen_kept {s : State} (hs : Kept pq va s) : Kept pq va (State.quotasAtOpen s) := by
  unfold State.quotasAtOpen
  repeat' first
    | with_reducible assumption
    | intro _
    | (extract_lets +onlyGivenNames lx; refine (fun (hlx : Kept pq va lx) => ?_ : Kept pq va lx → _) ?_; rotate_left; simp -zeta only [lx]; clear lx; rotate_right; clear_value lx; revert lx; refine kept_lock ?_; intro lx hlx)
    | (extract_lets +onlyGivenNames lx; clear_value lx; revert lx; refine kept_lock ?_; intro lx)
    | with_reducible apply State.dropStaged_kept
    | with_reducible apply State.dropWrite_kept
    | with_reducible apply kept_ite
    | with_reducible apply kept_foldl
    | simp -zeta only [kept_mk, keptF_fold]
    | split

theorem State.tablesAtOpen_kept (bell : Nat) {s : State} (hs : Kept pq va s) : Kept pq va (State.tablesAtOpen bell s) := by
  unfold State.tablesAtOpen
  repeat' first
    | with_reducible assumption
    | intro _
    | (extract_lets +onlyGivenNames lx; refine (fun (hlx : Kept pq va lx) => ?_ : Kept pq va lx → _) ?_; rotate_left; simp -zeta only [lx]; clear lx; rotate_right; clear_value lx; revert lx; refine kept_lock ?_; intro lx hlx)
    | (extract_lets +onlyGivenNames lx; clear_value lx; revert lx; refine kept_lock ?_; intro lx)
    | with_reducible apply State.applyKeys_kept
    | with_reducible apply State.applySel_kept
    | with_reducible apply State.modelAtOpen_kept
    | with_reducible apply State.regionsAtOpen_kept
    | with_reducible apply kept_ite
    | with_reducible apply kept_foldl
    | simp -zeta only [kept_mk, keptF_fold]
    | split

theorem State.registersAtOpen_kept {s : State} (hs : Kept pq va s) : Kept pq va (State.registersAtOpen s) := by
  unfold State.registersAtOpen
  repeat' first
    | with_reducible assumption
    | intro _
    | (extract_lets +onlyGivenNames lx; refine (fun (hlx : Kept pq va lx) => ?_ : Kept pq va lx → _) ?_; rotate_left; simp -zeta only [lx]; clear lx; rotate_right; clear_value lx; revert lx; refine kept_lock ?_; intro lx hlx)
    | (extract_lets +onlyGivenNames lx; clear_value lx; revert lx; refine kept_lock ?_; intro lx)
    | with_reducible apply State.applyStaged_kept
    | with_reducible apply State.checkDiam_kept
    | with_reducible apply State.detAtOpen_kept
    | with_reducible apply State.portsAtOpen_kept
    | with_reducible apply State.quotasAtOpen_kept
    | with_reducible apply State.rolesAtOpen_kept
    | with_reducible apply State.sourcesAtOpen_kept
    | with_reducible apply kept_ite
    | with_reducible apply kept_foldl
    | simp -zeta only [kept_mk, keptF_fold]
    | split

theorem State.afterRehome_kept (bell : Nat) {r : Bool × State} (hs : Kept pq va r.2) : Kept pq va (State.afterRehome bell r) := by
  exact State.editsOpen_kept bell r.1 hs

theorem State.changesAtOpen_kept (bell : Nat) {s : State} (hs : Kept pq va s) : Kept pq va (State.changesAtOpen bell s) := by
  unfold State.changesAtOpen
  have h1 := State.linksAtOpen_kept (State.retireAtOpen_kept bell hs)
  have h2 := State.afterRehome_kept bell (State.rehome_kept bell h1)
  refine kept_lock ?_
  extract_lets s1 s2 s3 s4
  have h4 : Kept pq va s3 := State.routesAtOpen_kept (State.mcodeAtOpen_kept _ h2)
  have h5 : Kept pq va s4 := State.registersAtOpen_kept (State.tablesAtOpen_kept _ h4)
  exact State.ctxsAtOpen_kept h5

theorem State.viewsAtOpen_kept {s : State} (hs : Kept pq va s) : Kept pq va (State.viewsAtOpen s) := by
  unfold State.viewsAtOpen
  repeat' first
    | with_reducible assumption
    | intro _
    | (extract_lets +onlyGivenNames lx; refine (fun (hlx : Kept pq va lx) => ?_ : Kept pq va lx → _) ?_; rotate_left; simp -zeta only [lx]; clear lx; rotate_right; clear_value lx; revert lx; refine kept_lock ?_; intro lx hlx)
    | (extract_lets +onlyGivenNames lx; clear_value lx; revert lx; refine kept_lock ?_; intro lx)
    | with_reducible apply State.dropUnhosted_kept
    | with_reducible apply State.fillDescs_kept
    | with_reducible apply State.pruneUndo_kept
    | with_reducible apply State.setFld_kept
    | with_reducible apply State.showHosted_kept
    | with_reducible apply State.showMins_kept
    | with_reducible apply kept_ite
    | with_reducible apply kept_foldl
    | simp -zeta only [kept_mk, keptF_fold]
    | split

theorem State.closeBell_kept (n : Nat) {s : State} (hs : Kept pq va s) : Kept pq va (State.closeBell n s) := by
  unfold State.closeBell
  repeat' first
    | with_reducible assumption
    | intro _
    | (extract_lets +onlyGivenNames lx; refine (fun (hlx : Kept pq va lx) => ?_ : Kept pq va lx → _) ?_; rotate_left; simp -zeta only [lx]; clear lx; rotate_right; clear_value lx; revert lx; refine kept_lock ?_; intro lx hlx)
    | (extract_lets +onlyGivenNames lx; clear_value lx; revert lx; refine kept_lock ?_; intro lx)
    | with_reducible apply State.eccSummary_kept
    | with_reducible apply State.interfere_kept
    | with_reducible apply State.latchTallies_kept
    | with_reducible apply State.mergeEvents_kept
    | with_reducible apply State.tallyMax_kept
    | with_reducible apply kept_ite
    | with_reducible apply kept_foldl
    | simp -zeta only [kept_mk, keptF_fold]
    | split

theorem State.markerLost_kept (n : Nat) {s : State} (hs : Kept pq va s) : Kept pq va (State.markerLost n s) := by
  unfold State.markerLost
  repeat' first
    | with_reducible assumption
    | intro _
    | (extract_lets +onlyGivenNames lx; refine (fun (hlx : Kept pq va lx) => ?_ : Kept pq va lx → _) ?_; rotate_left; simp -zeta only [lx]; clear lx; rotate_right; clear_value lx; revert lx; refine kept_lock ?_; intro lx hlx)
    | (extract_lets +onlyGivenNames lx; clear_value lx; revert lx; refine kept_lock ?_; intro lx)
    | with_reducible apply State.record_kept
    | with_reducible apply kept_ite
    | with_reducible apply kept_foldl
    | simp -zeta only [kept_mk, keptF_fold]
    | split

theorem State.showBell_kept (n : Nat) (t : Nat) {s : State} (hs : Kept pq va s) : Kept pq va (State.showBell n t s) := by
  unfold State.showBell
  repeat' first
    | with_reducible assumption
    | intro _
    | (extract_lets +onlyGivenNames lx; refine (fun (hlx : Kept pq va lx) => ?_ : Kept pq va lx → _) ?_; rotate_left; simp -zeta only [lx]; clear lx; rotate_right; clear_value lx; revert lx; refine kept_lock ?_; intro lx hlx)
    | (extract_lets +onlyGivenNames lx; clear_value lx; revert lx; refine kept_lock ?_; intro lx)
    | with_reducible apply State.setFld_kept
    | with_reducible apply State.setReg_kept
    | with_reducible apply kept_ite
    | with_reducible apply kept_foldl
    | simp -zeta only [kept_mk, keptF_fold]
    | split

theorem State.sampleScales_kept {s : State} (hs : Kept pq va s) : Kept pq va (State.sampleScales s) := by
  unfold State.sampleScales
  repeat' first
    | with_reducible assumption
    | intro _
    | (extract_lets +onlyGivenNames lx; refine (fun (hlx : Kept pq va lx) => ?_ : Kept pq va lx → _) ?_; rotate_left; simp -zeta only [lx]; clear lx; rotate_right; clear_value lx; revert lx; refine kept_lock ?_; intro lx hlx)
    | (extract_lets +onlyGivenNames lx; clear_value lx; revert lx; refine kept_lock ?_; intro lx)
    | with_reducible apply kept_ite
    | with_reducible apply kept_foldl
    | simp -zeta only [kept_mk, keptF_fold]
    | split

theorem State.keepConf_kept (n : Nat) {s : State} (hs : Kept pq va s) : Kept pq va (State.keepConf n s) := by
  unfold State.keepConf
  repeat' first
    | with_reducible assumption
    | intro _
    | (extract_lets +onlyGivenNames lx; refine (fun (hlx : Kept pq va lx) => ?_ : Kept pq va lx → _) ?_; rotate_left; simp -zeta only [lx]; clear lx; rotate_right; clear_value lx; revert lx; refine kept_lock ?_; intro lx hlx)
    | (extract_lets +onlyGivenNames lx; clear_value lx; revert lx; refine kept_lock ?_; intro lx)
    | with_reducible apply kept_ite
    | with_reducible apply kept_foldl
    | simp -zeta only [kept_mk, keptF_fold]
    | split

theorem State.floodLoads_kept (bell : Nat) {s : State} (hs : Kept pq va s) : Kept pq va (State.floodLoads bell s) := by
  unfold State.floodLoads
  repeat' first
    | with_reducible assumption
    | intro _
    | (extract_lets +onlyGivenNames lx; refine (fun (hlx : Kept pq va lx) => ?_ : Kept pq va lx → _) ?_; rotate_left; simp -zeta only [lx]; clear lx; rotate_right; clear_value lx; revert lx; refine kept_lock ?_; intro lx hlx)
    | (extract_lets +onlyGivenNames lx; clear_value lx; revert lx; refine kept_lock ?_; intro lx)
    | with_reducible apply State.flood_kept
    | with_reducible apply kept_ite
    | with_reducible apply kept_foldl
    | simp -zeta only [kept_mk, keptF_fold]
    | split

theorem State.completeStart_kept {s : State} (hs : Kept pq va s) : Kept pq va (State.completeStart s) := by
  unfold State.completeStart
  repeat' first
    | with_reducible assumption
    | intro _
    | (extract_lets +onlyGivenNames lx; refine (fun (hlx : Kept pq va lx) => ?_ : Kept pq va lx → _) ?_; rotate_left; simp -zeta only [lx]; clear lx; rotate_right; clear_value lx; revert lx; refine kept_lock ?_; intro lx hlx)
    | (extract_lets +onlyGivenNames lx; clear_value lx; revert lx; refine kept_lock ?_; intro lx)
    | with_reducible apply State.driveAlarm_kept
    | with_reducible apply State.setFld_kept
    | with_reducible apply kept_ite
    | with_reducible apply kept_foldl
    | simp -zeta only [kept_mk, keptF_fold]
    | split

theorem State.nextOnSchedule_kept (n : Nat) (t : Nat) {s : State} (hs : Kept pq va s) : Kept pq va (State.nextOnSchedule n t s) := by
  unfold State.nextOnSchedule
  repeat' first
    | with_reducible assumption
    | intro _
    | (extract_lets +onlyGivenNames lx; refine (fun (hlx : Kept pq va lx) => ?_ : Kept pq va lx → _) ?_; rotate_left; simp -zeta only [lx]; clear lx; rotate_right; clear_value lx; revert lx; refine kept_lock ?_; intro lx hlx)
    | (extract_lets +onlyGivenNames lx; clear_value lx; revert lx; refine kept_lock ?_; intro lx)
    | with_reducible apply kept_ite
    | with_reducible apply kept_foldl
    | simp -zeta only [kept_mk, keptF_fold]
    | split

theorem State.cycleBegins_kept {s : State} (hs : Kept pq va s) : Kept pq va (State.cycleBegins s) := by
  unfold State.cycleBegins
  repeat' first
    | with_reducible assumption
    | intro _
    | (extract_lets +onlyGivenNames lx; refine (fun (hlx : Kept pq va lx) => ?_ : Kept pq va lx → _) ?_; rotate_left; simp -zeta only [lx]; clear lx; rotate_right; clear_value lx; revert lx; refine kept_lock ?_; intro lx hlx)
    | (extract_lets +onlyGivenNames lx; clear_value lx; revert lx; refine kept_lock ?_; intro lx)
    | with_reducible apply kept_ite
    | with_reducible apply kept_foldl
    | simp -zeta only [kept_mk, keptF_fold]
    | split

theorem State.cycleEnds_kept {s : State} (hs : Kept pq va s) : Kept pq va (State.cycleEnds s) := by
  unfold State.cycleEnds
  repeat' first
    | with_reducible assumption
    | intro _
    | (extract_lets +onlyGivenNames lx; refine (fun (hlx : Kept pq va lx) => ?_ : Kept pq va lx → _) ?_; rotate_left; simp -zeta only [lx]; clear lx; rotate_right; clear_value lx; revert lx; refine kept_lock ?_; intro lx hlx)
    | (extract_lets +onlyGivenNames lx; clear_value lx; revert lx; refine kept_lock ?_; intro lx)
    | with_reducible apply kept_ite
    | with_reducible apply kept_foldl
    | simp -zeta only [kept_mk, keptF_fold]
    | split

theorem State.openBell_kept {s : State} (hs : Kept pq va s) : Kept pq va (State.openBell s) := by
  unfold State.openBell
  repeat' first
    | with_reducible assumption
    | intro _
    | (extract_lets +onlyGivenNames lx; refine (fun (hlx : Kept pq va lx) => ?_ : Kept pq va lx → _) ?_; rotate_left; simp -zeta only [lx]; clear lx; rotate_right; clear_value lx; revert lx; refine kept_lock ?_; intro lx hlx)
    | (extract_lets +onlyGivenNames lx; clear_value lx; revert lx; refine kept_lock ?_; intro lx)
    | with_reducible apply State.applyPeriod_kept
    | with_reducible apply State.changesAtOpen_kept
    | with_reducible apply State.closeBell_kept
    | with_reducible apply State.completeStart_kept
    | with_reducible apply State.cycleBegins_kept
    | with_reducible apply State.cycleEnds_kept
    | with_reducible apply State.floodLoads_kept
    | with_reducible apply State.irqAgain_kept
    | with_reducible apply State.keepConf_kept
    | with_reducible apply State.layFixed_kept
    | with_reducible apply State.layRegions_kept
    | with_reducible apply State.leadWindow_kept
    | with_reducible apply State.lifeAdd_kept
    | with_reducible apply State.mapOutAtOpen_kept
    | with_reducible apply State.markerLost_kept
    | with_reducible apply State.nextOnSchedule_kept
    | with_reducible apply State.plannerAtOpen_kept
    | with_reducible apply State.plansAtOpen_kept
    | with_reducible apply State.sampleScales_kept
    | with_reducible apply State.scalesEnd_kept
    | with_reducible apply State.showBell_kept
    | with_reducible apply State.slicesAtOpen_kept
    | with_reducible apply State.stagedAfterOpen_kept
    | with_reducible apply State.stagedForOpen_kept
    | with_reducible apply State.viewsAtOpen_kept
    | with_reducible apply kept_ite
    | with_reducible apply kept_foldl
    | simp -zeta only [kept_mk, keptF_fold]
    | split

theorem execBellOpen_kept {s : State} (hs : Kept pq va s) : KeptOut pq va (execBellOpen s) := by
  unfold execBellOpen
  repeat' first
    | with_reducible assumption
    | intro _
    | (extract_lets +onlyGivenNames lx; refine (fun (hlx : Kept pq va lx) => ?_ : Kept pq va lx → _) ?_; rotate_left; simp -zeta only [lx]; clear lx; rotate_right; clear_value lx; revert lx; refine kept_lock ?_; intro lx hlx)
    | (extract_lets +onlyGivenNames lx; clear_value lx; revert lx; refine kept_lock ?_; intro lx)
    | with_reducible apply keptOut_next
    | with_reducible apply keptOut_ite
    | with_reducible apply State.openBell_kept
    | with_reducible apply kept_ite
    | with_reducible apply kept_foldl
    | simp -zeta only [kept_mk, keptF_fold]
    | split

end Sys2Proof.Machine
end

