-- ==== Sys2Proof/Laws/Port.lean ====
section
/-! SUPPORT. What each operation of Machine/Port.lean keeps (Laws/Kept.lean). -/
set_option linter.all false
namespace Sys2Proof.Machine

variable {pq : List Instr} {va : Bool}

theorem State.plainWrite_kept (r : Nat) (v : W64) {s : State} (hs : Kept pq va s) : Kept pq va (State.plainWrite r v s) := by
  unfold State.plainWrite
  repeat' first
    | with_reducible assumption
    | intro _
    | (extract_lets +onlyGivenNames lx; refine (fun (hlx : Kept pq va lx) => ?_ : Kept pq va lx → _) ?_; rotate_left; simp -zeta only [lx]; clear lx; rotate_right; clear_value lx; revert lx; refine kept_lock ?_; intro lx hlx)
    | (extract_lets +onlyGivenNames lx; clear_value lx; revert lx; refine kept_lock ?_; intro lx)
    | with_reducible apply State.accessWrite_kept
    | with_reducible apply State.gated_kept
    | with_reducible apply kept_ite
    | with_reducible apply kept_foldl
    | simp -zeta only [kept_mk, keptF_fold]
    | split

theorem State.testedWrite_kept (r : Nat) (code : Nat) (bad : State → W64 → Bool) (v : W64) {s : State} (hs : Kept pq va s) : Kept pq va (State.testedWrite r code bad v s) := by
  unfold State.testedWrite
  repeat' first
    | with_reducible assumption
    | intro _
    | (extract_lets +onlyGivenNames lx; refine (fun (hlx : Kept pq va lx) => ?_ : Kept pq va lx → _) ?_; rotate_left; simp -zeta only [lx]; clear lx; rotate_right; clear_value lx; revert lx; refine kept_lock ?_; intro lx hlx)
    | (extract_lets +onlyGivenNames lx; clear_value lx; revert lx; refine kept_lock ?_; intro lx)
    | with_reducible apply State.accessWrite_kept
    | with_reducible apply State.dropWrite_kept
    | with_reducible apply State.gated_kept
    | with_reducible apply kept_ite
    | with_reducible apply kept_foldl
    | simp -zeta only [kept_mk, keptF_fold]
    | split

theorem State.residentWrite_kept (v : W64) {s : State} (hs : Kept pq va s) : Kept pq va (State.residentWrite v s) := by
  unfold State.residentWrite
  repeat' first
    | with_reducible assumption
    | intro _
    | (extract_lets +onlyGivenNames lx; refine (fun (hlx : Kept pq va lx) => ?_ : Kept pq va lx → _) ?_; rotate_left; simp -zeta only [lx]; clear lx; rotate_right; clear_value lx; revert lx; refine kept_lock ?_; intro lx hlx)
    | (extract_lets +onlyGivenNames lx; clear_value lx; revert lx; refine kept_lock ?_; intro lx)
    | with_reducible apply State.accessWrite_kept
    | with_reducible apply State.gated_kept
    | with_reducible apply State.modCtx_kept
    | with_reducible apply kept_ite
    | with_reducible apply kept_foldl
    | simp -zeta only [kept_mk, keptF_fold]
    | split

theorem State.ovfCntWrite_kept (v : W64) {s : State} (hs : Kept pq va s) : Kept pq va (State.ovfCntWrite v s) := by
  unfold State.ovfCntWrite
  repeat' first
    | with_reducible assumption
    | intro _
    | (extract_lets +onlyGivenNames lx; refine (fun (hlx : Kept pq va lx) => ?_ : Kept pq va lx → _) ?_; rotate_left; simp -zeta only [lx]; clear lx; rotate_right; clear_value lx; revert lx; refine kept_lock ?_; intro lx hlx)
    | (extract_lets +onlyGivenNames lx; clear_value lx; revert lx; refine kept_lock ?_; intro lx)
    | with_reducible apply State.accessWrite_kept
    | with_reducible apply State.gated_kept
    | with_reducible apply State.record_kept
    | with_reducible apply kept_ite
    | with_reducible apply kept_foldl
    | simp -zeta only [kept_mk, keptF_fold]
    | split

theorem State.periodWrite_kept (v : W64) {s : State} (hs : Kept pq va s) : Kept pq va (State.periodWrite v s) := by
  unfold State.periodWrite
  repeat' first
    | with_reducible assumption
    | intro _
    | (extract_lets +onlyGivenNames lx; refine (fun (hlx : Kept pq va lx) => ?_ : Kept pq va lx → _) ?_; rotate_left; simp -zeta only [lx]; clear lx; rotate_right; clear_value lx; revert lx; refine kept_lock ?_; intro lx hlx)
    | (extract_lets +onlyGivenNames lx; clear_value lx; revert lx; refine kept_lock ?_; intro lx)
    | with_reducible apply State.gated_kept
    | with_reducible apply State.stagePeriod_kept
    | with_reducible apply kept_ite
    | with_reducible apply kept_foldl
    | simp -zeta only [kept_mk, keptF_fold]
    | split

theorem State.pbellGoWrite_kept (v : W64) {s : State} (hs : Kept pq va s) : Kept pq va (State.pbellGoWrite v s) := by
  unfold State.pbellGoWrite
  repeat' first
    | with_reducible assumption
    | intro _
    | (extract_lets +onlyGivenNames lx; refine (fun (hlx : Kept pq va lx) => ?_ : Kept pq va lx → _) ?_; rotate_left; simp -zeta only [lx]; clear lx; rotate_right; clear_value lx; revert lx; refine kept_lock ?_; intro lx hlx)
    | (extract_lets +onlyGivenNames lx; clear_value lx; revert lx; refine kept_lock ?_; intro lx)
    | with_reducible apply State.gated_kept
    | with_reducible apply State.goWrite_kept
    | with_reducible apply kept_ite
    | with_reducible apply kept_foldl
    | simp -zeta only [kept_mk, keptF_fold]
    | split

theorem State.headerWrite_kept (r : Nat) (v : W64) {s : State} (hs : Kept pq va s) : Kept pq va (State.headerWrite r v s) := by
  unfold State.headerWrite
  repeat' first
    | with_reducible assumption
    | intro _
    | (extract_lets +onlyGivenNames lx; refine (fun (hlx : Kept pq va lx) => ?_ : Kept pq va lx → _) ?_; rotate_left; simp -zeta only [lx]; clear lx; rotate_right; clear_value lx; revert lx; refine kept_lock ?_; intro lx hlx)
    | (extract_lets +onlyGivenNames lx; clear_value lx; revert lx; refine kept_lock ?_; intro lx)
    | with_reducible apply State.gated_kept
    | with_reducible apply State.irqEnable_kept
    | with_reducible apply State.pageCtl_kept
    | with_reducible apply State.plainWrite_kept
    | with_reducible apply State.tallySel_kept
    | with_reducible apply kept_ite
    | with_reducible apply kept_foldl
    | simp -zeta only [kept_mk, keptF_fold]
    | split

theorem portFind_mem {r : Nat} {l : List (Nat × (W64 → State → State))} {f : W64 → State → State}
    (h : portFind r l = some f) : (r, f) ∈ l := by
  induction l with
  | nil => cases h
  | cons p t ih =>
    obtain ⟨k, g⟩ := p
    simp only [portFind] at h
    split at h
    · rename_i e
      cases h
      simp [e]
    · exact List.mem_cons_of_mem _ (ih h)

theorem portOpsA_kept : ∀ p ∈ portOpsA, ∀ (v : W64) (s : State), Kept pq va s → Kept pq va (p.2 v s) := by
  intro p hp v s hs
  simp only [portOpsA, List.mem_cons, List.not_mem_nil, or_false] at hp
  rcases hp with rfl | rfl | rfl | rfl | rfl | rfl | rfl | rfl | rfl | rfl | rfl | rfl | rfl | rfl | rfl | rfl | rfl | rfl
  · (first | exact State.periodWrite_kept _ hs | exact State.periodWrite_kept _ _ hs | exact State.periodWrite_kept _ _ _ _ hs | exact State.periodWrite_kept _ _ _ hs)
  · (first | exact State.testedWrite_kept _ hs | exact State.testedWrite_kept _ _ hs | exact State.testedWrite_kept _ _ _ _ hs | exact State.testedWrite_kept _ _ _ hs)
  · (first | exact State.testedWrite_kept _ hs | exact State.testedWrite_kept _ _ hs | exact State.testedWrite_kept _ _ _ _ hs | exact State.testedWrite_kept _ _ _ hs)
  · (first | exact State.pbellGoWrite_kept _ hs | exact State.pbellGoWrite_kept _ _ hs | exact State.pbellGoWrite_kept _ _ _ _ hs | exact State.pbellGoWrite_kept _ _ _ hs)
  · (first | exact State.layerIn_kept _ hs | exact State.layerIn_kept _ _ hs | exact State.layerIn_kept _ _ _ _ hs | exact State.layerIn_kept _ _ _ hs)
  · (first | exact State.bellPlanPost_kept _ hs | exact State.bellPlanPost_kept _ _ hs | exact State.bellPlanPost_kept _ _ _ _ hs | exact State.bellPlanPost_kept _ _ _ hs)
  · (first | exact State.testedWrite_kept _ hs | exact State.testedWrite_kept _ _ hs | exact State.testedWrite_kept _ _ _ _ hs | exact State.testedWrite_kept _ _ _ hs)
  · (first | exact State.seqHashIn_kept _ hs | exact State.seqHashIn_kept _ _ hs | exact State.seqHashIn_kept _ _ _ _ hs | exact State.seqHashIn_kept _ _ _ hs)
  · (first | exact State.keysTableWrite_kept _ hs | exact State.keysTableWrite_kept _ _ hs | exact State.keysTableWrite_kept _ _ _ _ hs | exact State.keysTableWrite_kept _ _ _ hs)
  · (first | exact State.selTableWrite_kept _ hs | exact State.selTableWrite_kept _ _ hs | exact State.selTableWrite_kept _ _ _ _ hs | exact State.selTableWrite_kept _ _ _ hs)
  · (first | exact State.ovfCntWrite_kept _ hs | exact State.ovfCntWrite_kept _ _ hs | exact State.ovfCntWrite_kept _ _ _ _ hs | exact State.ovfCntWrite_kept _ _ _ hs)
  · (first | exact State.resDirWrite_kept _ hs | exact State.resDirWrite_kept _ _ hs | exact State.resDirWrite_kept _ _ _ _ hs | exact State.resDirWrite_kept _ _ _ hs)
  · (first | exact State.resEditWrite_kept _ hs | exact State.resEditWrite_kept _ _ hs | exact State.resEditWrite_kept _ _ _ _ hs | exact State.resEditWrite_kept _ _ _ hs)
  · (first | exact State.resDescWrite_kept _ hs | exact State.resDescWrite_kept _ _ hs | exact State.resDescWrite_kept _ _ _ _ hs | exact State.resDescWrite_kept _ _ _ hs)
  · (first | exact State.resHintWrite_kept _ hs | exact State.resHintWrite_kept _ _ hs | exact State.resHintWrite_kept _ _ _ _ hs | exact State.resHintWrite_kept _ _ _ hs)
  · (first | exact State.tileHead_kept _ hs | exact State.tileHead_kept _ _ hs | exact State.tileHead_kept _ _ _ _ hs | exact State.tileHead_kept _ _ _ hs)
  · (first | exact State.tileDone_kept _ hs | exact State.tileDone_kept _ _ hs | exact State.tileDone_kept _ _ _ _ hs | exact State.tileDone_kept _ _ _ hs)
  · (first | exact State.tileQuarRelease_kept _ hs | exact State.tileQuarRelease_kept _ _ hs | exact State.tileQuarRelease_kept _ _ _ _ hs | exact State.tileQuarRelease_kept _ _ _ hs)

theorem portOpsB_kept : ∀ p ∈ portOpsB, ∀ (v : W64) (s : State), Kept pq va s → Kept pq va (p.2 v s) := by
  intro p hp v s hs
  simp only [portOpsB, List.mem_cons, List.not_mem_nil, or_false] at hp
  rcases hp with rfl | rfl | rfl | rfl | rfl | rfl | rfl | rfl | rfl | rfl | rfl | rfl | rfl | rfl
  · (first | exact State.routeImageWrite_kept _ hs | exact State.routeImageWrite_kept _ _ hs | exact State.routeImageWrite_kept _ _ _ _ hs | exact State.routeImageWrite_kept _ _ _ hs)
  · (first | exact State.routeSwitchWrite_kept _ hs | exact State.routeSwitchWrite_kept _ _ hs | exact State.routeSwitchWrite_kept _ _ _ _ hs | exact State.routeSwitchWrite_kept _ _ _ hs)
  · (first | exact State.discIdentWrite_kept _ hs | exact State.discIdentWrite_kept _ _ hs | exact State.discIdentWrite_kept _ _ _ _ hs | exact State.discIdentWrite_kept _ _ _ hs)
  · (first | exact State.discIncarnWrite_kept _ hs | exact State.discIncarnWrite_kept _ _ hs | exact State.discIncarnWrite_kept _ _ _ _ hs | exact State.discIncarnWrite_kept _ _ _ hs)
  · (first | exact State.discStart_kept _ hs | exact State.discStart_kept _ _ hs | exact State.discStart_kept _ _ _ _ hs | exact State.discStart_kept _ _ _ hs)
  · (first | exact State.discNodeWrite_kept _ hs | exact State.discNodeWrite_kept _ _ hs | exact State.discNodeWrite_kept _ _ _ _ hs | exact State.discNodeWrite_kept _ _ _ hs)
  · (first | exact State.pathOpSend_kept _ hs | exact State.pathOpSend_kept _ _ hs | exact State.pathOpSend_kept _ _ _ _ hs | exact State.pathOpSend_kept _ _ _ hs)
  · (first | exact State.msemRegionsWrite_kept _ hs | exact State.msemRegionsWrite_kept _ _ hs | exact State.msemRegionsWrite_kept _ _ _ _ hs | exact State.msemRegionsWrite_kept _ _ _ hs)
  · (first | exact State.msemTail_kept _ hs | exact State.msemTail_kept _ _ hs | exact State.msemTail_kept _ _ _ _ hs | exact State.msemTail_kept _ _ _ hs)
  · (first | exact State.jobTeardown_kept _ hs | exact State.jobTeardown_kept _ _ hs | exact State.jobTeardown_kept _ _ _ _ hs | exact State.jobTeardown_kept _ _ _ hs)
  · (first | exact State.porterTail_kept _ hs | exact State.porterTail_kept _ _ hs | exact State.porterTail_kept _ _ _ _ hs | exact State.porterTail_kept _ _ _ hs)
  · (first | exact State.testedWrite_kept _ hs | exact State.testedWrite_kept _ _ hs | exact State.testedWrite_kept _ _ _ _ hs | exact State.testedWrite_kept _ _ _ hs)
  · (first | exact State.collCreateWrite_kept _ hs | exact State.collCreateWrite_kept _ _ hs | exact State.collCreateWrite_kept _ _ _ _ hs | exact State.collCreateWrite_kept _ _ _ hs)
  · (first | exact State.collTail_kept _ hs | exact State.collTail_kept _ _ hs | exact State.collTail_kept _ _ _ _ hs | exact State.collTail_kept _ _ _ hs)

theorem portOpsC_kept : ∀ p ∈ portOpsC, ∀ (v : W64) (s : State), Kept pq va s → Kept pq va (p.2 v s) := by
  intro p hp v s hs
  simp only [portOpsC, List.mem_cons, List.not_mem_nil, or_false] at hp
  rcases hp with rfl | rfl | rfl | rfl | rfl | rfl | rfl | rfl | rfl | rfl | rfl | rfl | rfl | rfl | rfl | rfl | rfl | rfl | rfl | rfl | rfl | rfl | rfl | rfl
  · (first | exact State.testedWrite_kept _ hs | exact State.testedWrite_kept _ _ hs | exact State.testedWrite_kept _ _ _ _ hs | exact State.testedWrite_kept _ _ _ hs)
  · (first | exact State.detDivClr_kept _ hs | exact State.detDivClr_kept _ _ hs | exact State.detDivClr_kept _ _ _ _ hs | exact State.detDivClr_kept _ _ _ hs)
  · (first | exact State.testedWrite_kept _ hs | exact State.testedWrite_kept _ _ hs | exact State.testedWrite_kept _ _ _ _ hs | exact State.testedWrite_kept _ _ _ hs)
  · (first | exact State.ctxModelAtWrite_kept _ hs | exact State.ctxModelAtWrite_kept _ _ hs | exact State.ctxModelAtWrite_kept _ _ _ _ hs | exact State.ctxModelAtWrite_kept _ _ _ hs)
  · (first | exact State.testedWrite_kept _ hs | exact State.testedWrite_kept _ _ hs | exact State.testedWrite_kept _ _ _ _ hs | exact State.testedWrite_kept _ _ _ hs)
  · (first | exact State.ctxCreateWrite_kept _ hs | exact State.ctxCreateWrite_kept _ _ hs | exact State.ctxCreateWrite_kept _ _ _ _ hs | exact State.ctxCreateWrite_kept _ _ _ hs)
  · (first | exact State.residentWrite_kept _ hs | exact State.residentWrite_kept _ _ hs | exact State.residentWrite_kept _ _ _ _ hs | exact State.residentWrite_kept _ _ _ hs)
  · (first | exact State.ctxUrgent_kept _ hs | exact State.ctxUrgent_kept _ _ hs | exact State.ctxUrgent_kept _ _ _ _ hs | exact State.ctxUrgent_kept _ _ _ hs)
  · (first | exact State.safeCauseClear_kept _ hs | exact State.safeCauseClear_kept _ _ hs | exact State.safeCauseClear_kept _ _ _ _ hs | exact State.safeCauseClear_kept _ _ _ hs)
  · (first | exact State.spareRetire_kept _ hs | exact State.spareRetire_kept _ _ hs | exact State.spareRetire_kept _ _ _ _ hs | exact State.spareRetire_kept _ _ _ hs)
  · (first | exact State.psafeRetire_kept _ hs | exact State.psafeRetire_kept _ _ hs | exact State.psafeRetire_kept _ _ _ _ hs | exact State.psafeRetire_kept _ _ _ hs)
  · (first | exact State.leadMove_kept _ hs | exact State.leadMove_kept _ _ hs | exact State.leadMove_kept _ _ _ _ hs | exact State.leadMove_kept _ _ _ hs)
  · (first | exact State.dirctlEdit_kept _ hs | exact State.dirctlEdit_kept _ _ hs | exact State.dirctlEdit_kept _ _ _ _ hs | exact State.dirctlEdit_kept _ _ _ hs)
  · (first | exact State.ptimeSet_kept _ hs | exact State.ptimeSet_kept _ _ hs | exact State.ptimeSet_kept _ _ _ _ hs | exact State.ptimeSet_kept _ _ _ hs)
  · (first | exact State.traceMark_kept _ hs | exact State.traceMark_kept _ _ hs | exact State.traceMark_kept _ _ _ _ hs | exact State.traceMark_kept _ _ _ hs)
  · (first | exact State.testedWrite_kept _ hs | exact State.testedWrite_kept _ _ hs | exact State.testedWrite_kept _ _ _ _ hs | exact State.testedWrite_kept _ _ _ hs)
  · (first | exact State.slcRepair_kept _ hs | exact State.slcRepair_kept _ _ hs | exact State.slcRepair_kept _ _ _ _ hs | exact State.slcRepair_kept _ _ _ hs)
  · (first | exact State.slcMapout_kept _ hs | exact State.slcMapout_kept _ _ hs | exact State.slcMapout_kept _ _ _ _ hs | exact State.slcMapout_kept _ _ _ hs)
  · (first | exact State.slcUnitRst_kept _ hs | exact State.slcUnitRst_kept _ _ hs | exact State.slcUnitRst_kept _ _ _ _ hs | exact State.slcUnitRst_kept _ _ _ hs)
  · (first | exact State.mcodeLoad_kept _ hs | exact State.mcodeLoad_kept _ _ hs | exact State.mcodeLoad_kept _ _ _ _ hs | exact State.mcodeLoad_kept _ _ _ hs)
  · (first | exact State.mcodeSwitchWrite_kept _ hs | exact State.mcodeSwitchWrite_kept _ _ hs | exact State.mcodeSwitchWrite_kept _ _ _ _ hs | exact State.mcodeSwitchWrite_kept _ _ _ hs)
  · (first | exact State.ebsCfgWrite_kept _ hs | exact State.ebsCfgWrite_kept _ _ hs | exact State.ebsCfgWrite_kept _ _ _ _ hs | exact State.ebsCfgWrite_kept _ _ _ hs)
  · exact State.gated_kept _ _ (fun s h => State.irqMask_kept _ h) hs
  · exact State.gated_kept _ _ (fun s h => State.irqForce_kept _ h) hs

theorem State.regWrite_kept (r : Nat) (v : W64) {s : State} (hs : Kept pq va s) : Kept pq va (State.regWrite r v s) := by
  unfold State.regWrite
  split
  · exact State.headerWrite_kept _ _ hs
  · split
    · exact State.gated_kept _ _ (fun s h => State.irqAddr_kept _ _ _ h) hs
    · split
      · exact State.gated_kept _ _ (fun s h => State.writeOnce_kept _ _ _ h) hs
      · split
        · rename_i f hf
          exact portOpsA_kept _ (portFind_mem hf) _ _ hs
        · split
          · rename_i f hf
            exact portOpsB_kept _ (portFind_mem hf) _ _ hs
          · split
            · rename_i f hf
              exact portOpsC_kept _ (portFind_mem hf) _ _ hs
            · exact State.plainWrite_kept _ _ hs

theorem State.pkgFault_kept (code : Nat) (slice : Nat) (r : Nat) {s : State} (hs : Kept pq va s) : Kept pq va (State.pkgFault code slice r s) := by
  unfold State.pkgFault
  repeat' first
    | with_reducible assumption
    | intro _
    | (extract_lets +onlyGivenNames lx; refine (fun (hlx : Kept pq va lx) => ?_ : Kept pq va lx → _) ?_; rotate_left; simp -zeta only [lx]; clear lx; rotate_right; clear_value lx; revert lx; refine kept_lock ?_; intro lx hlx)
    | (extract_lets +onlyGivenNames lx; clear_value lx; revert lx; refine kept_lock ?_; intro lx)
    | with_reducible apply State.record_kept
    | with_reducible apply State.setReg_kept
    | with_reducible apply kept_ite
    | with_reducible apply kept_foldl
    | simp -zeta only [kept_mk, keptF_fold]
    | split

theorem State.sizeError_kept (p : WinPlace) {s : State} (hs : Kept pq va s) : Kept pq va (State.sizeError p s) := by
  unfold State.sizeError
  repeat' first
    | with_reducible assumption
    | intro _
    | (extract_lets +onlyGivenNames lx; refine (fun (hlx : Kept pq va lx) => ?_ : Kept pq va lx → _) ?_; rotate_left; simp -zeta only [lx]; clear lx; rotate_right; clear_value lx; revert lx; refine kept_lock ?_; intro lx hlx)
    | (extract_lets +onlyGivenNames lx; clear_value lx; revert lx; refine kept_lock ?_; intro lx)
    | with_reducible apply State.record_kept
    | with_reducible apply kept_ite
    | with_reducible apply kept_foldl
    | simp -zeta only [kept_mk, keptF_fold]
    | split

theorem State.noRegister_kept (r : Nat) (v : W64) {s : State} (hs : Kept pq va s) : Kept pq va (State.noRegister r v s) := by
  unfold State.noRegister
  repeat' first
    | with_reducible assumption
    | intro _
    | (extract_lets +onlyGivenNames lx; refine (fun (hlx : Kept pq va lx) => ?_ : Kept pq va lx → _) ?_; rotate_left; simp -zeta only [lx]; clear lx; rotate_right; clear_value lx; revert lx; refine kept_lock ?_; intro lx hlx)
    | (extract_lets +onlyGivenNames lx; clear_value lx; revert lx; refine kept_lock ?_; intro lx)
    | with_reducible apply State.record_kept
    | with_reducible apply kept_ite
    | with_reducible apply kept_foldl
    | simp -zeta only [kept_mk, keptF_fold]
    | split

theorem State.aliasWrite_kept (r : Nat) (v : W64) {s : State} (hs : Kept pq false s) : Kept pq false (State.aliasWrite r v s) := by
  unfold State.aliasWrite
  split
  · exact hs
  · have h : Kept pq true { s with viaAlias := true } :=
      ⟨hs.regs, hs.mem, hs.sram, hs.tally, hs.trace, hs.pending, rfl⟩
    have h := State.regWrite_kept r v h
    exact ⟨h.regs, h.mem, h.sram, h.tally, h.trace, h.pending, rfl⟩

theorem State.placeWrite_kept (p : WinPlace) (v : W64) {s : State} (hs : Kept pq false s) : Kept pq false (State.placeWrite p v s) := by
  unfold State.placeWrite
  repeat' first
    | with_reducible assumption
    | intro _
    | (extract_lets +onlyGivenNames lx; refine (fun (hlx : Kept pq false lx) => ?_ : Kept pq false lx → _) ?_; rotate_left; simp -zeta only [lx]; clear lx; rotate_right; clear_value lx; revert lx; refine kept_lock ?_; intro lx hlx)
    | (extract_lets +onlyGivenNames lx; clear_value lx; revert lx; refine kept_lock ?_; intro lx)
    | with_reducible apply State.aliasWrite_kept
    | with_reducible apply State.noRegister_kept
    | with_reducible apply State.pkgFault_kept
    | with_reducible apply State.regWrite_kept
    | with_reducible apply kept_ite
    | with_reducible apply kept_foldl
    | simp -zeta only [kept_mk, keptF_fold]
    | split

theorem State.unboundWrite_kept (p : WinPlace) (v : W64) {s : State} (hs : Kept pq va s) : Kept pq va (State.unboundWrite p v s) := by
  unfold State.unboundWrite
  repeat' first
    | with_reducible assumption
    | intro _
    | (extract_lets +onlyGivenNames lx; refine (fun (hlx : Kept pq va lx) => ?_ : Kept pq va lx → _) ?_; rotate_left; simp -zeta only [lx]; clear lx; rotate_right; clear_value lx; revert lx; refine kept_lock ?_; intro lx hlx)
    | (extract_lets +onlyGivenNames lx; clear_value lx; revert lx; refine kept_lock ?_; intro lx)
    | with_reducible apply State.record_kept
    | with_reducible apply State.regWrite_kept
    | with_reducible apply kept_ite
    | with_reducible apply kept_foldl
    | simp -zeta only [kept_mk, keptF_fold]
    | split

theorem execRegisterWrite_kept (offset : Nat) (size : Nat) (v : W64) {s : State} (hs : Kept pq false s) : KeptOut pq false (execRegisterWrite offset size v s) := by
  unfold execRegisterWrite
  repeat' first
    | with_reducible assumption
    | intro _
    | (extract_lets +onlyGivenNames lx; refine (fun (hlx : Kept pq false lx) => ?_ : Kept pq false lx → _) ?_; rotate_left; simp -zeta only [lx]; clear lx; rotate_right; clear_value lx; revert lx; refine kept_lock ?_; intro lx hlx)
    | (extract_lets +onlyGivenNames lx; clear_value lx; revert lx; refine kept_lock ?_; intro lx)
    | with_reducible apply keptOut_next
    | with_reducible apply keptOut_ite
    | with_reducible apply State.placeWrite_kept
    | with_reducible apply State.sizeError_kept
    | with_reducible apply State.unboundWrite_kept
    | with_reducible apply kept_ite
    | with_reducible apply kept_foldl
    | simp -zeta only [kept_mk, keptF_fold]
    | split

theorem State.regRead_kept (r : Nat) {s : State} (hs : Kept pq va s) : Kept pq va (State.regRead r s).2 := by
  unfold State.regRead
  repeat' first
    | with_reducible assumption
    | intro _
    | (extract_lets +onlyGivenNames lx; refine (fun (hlx : Kept pq va lx) => ?_ : Kept pq va lx → _) ?_; rotate_left; simp -zeta only [lx]; clear lx; rotate_right; clear_value lx; revert lx; refine kept_lock ?_; intro lx hlx)
    | (extract_lets +onlyGivenNames lx; clear_value lx; revert lx; refine kept_lock ?_; intro lx)
    | with_reducible apply State.markRead_kept
    | with_reducible apply State.record_kept
    | with_reducible apply kept_ite
    | with_reducible apply kept_foldl
    | simp -zeta only [kept_mk, keptF_fold]
    | split

theorem State.placeRead_kept (p : WinPlace) {s : State} (hs : Kept pq va s) : Kept pq va (State.placeRead p s).2 := by
  unfold State.placeRead
  have h : ∀ r, Kept pq va (s.regRead r).2 := fun r => State.regRead_kept r hs
  dsimp only
  split
  · split
    · exact hs
    · split
      · exact h _
      · exact hs
  · split
    · exact hs
    · split
      · exact h _
      · exact hs
  · split
    · exact h _
    · exact hs
  · exact hs

theorem State.unboundRead_kept (p : WinPlace) {s : State} (hs : Kept pq va s) : Kept pq va (State.unboundRead p s).2 := by
  unfold State.unboundRead
  have h : ∀ d, Kept pq va (s.record Pg.SLC 0xEC d) := fun d => State.record_kept _ _ _ hs
  dsimp only
  split
  · exact h _
  · split
    · exact State.regRead_kept _ hs
    · exact h _
  · exact h _
  · exact h _

theorem State.portRead_kept (offset : Nat) (size : Nat) {s : State} (hs : Kept pq va s) : Kept pq va (State.portRead offset size s).2 := by
  unfold State.portRead
  dsimp only
  split
  · exact State.sizeError_kept _ hs
  · split
    · exact State.placeRead_kept _ hs
    · exact State.unboundRead_kept _ hs

theorem State.pathAccess_kept (r : Nat) (v : W64) {s : State} (hs : Kept pq va s) : Kept pq va (State.pathAccess r v s) := by
  unfold State.pathAccess
  repeat' first
    | with_reducible assumption
    | intro _
    | (extract_lets +onlyGivenNames lx; refine (fun (hlx : Kept pq va lx) => ?_ : Kept pq va lx → _) ?_; rotate_left; simp -zeta only [lx]; clear lx; rotate_right; clear_value lx; revert lx; refine kept_lock ?_; intro lx hlx)
    | (extract_lets +onlyGivenNames lx; refine (fun (hfn : ∀ s, Kept pq va s → Kept pq va (lx s)) => ?_ : (∀ s, Kept pq va s → Kept pq va (lx s)) → _) ?_; rotate_left; simp -zeta only [lx]; clear lx; rotate_right; clear_value lx; revert lx; refine kept_lock ?_; intro lx hfn)
    | (extract_lets +onlyGivenNames lx; clear_value lx; revert lx; refine kept_lock ?_; intro lx)
    | with_reducible apply hfn
    | with_reducible apply State.record_kept
    | with_reducible apply State.regWrite_kept
    | with_reducible apply kept_ite
    | with_reducible apply kept_foldl
    | simp -zeta only [kept_mk, keptF_fold]
    | split

theorem State.pathTarget_kept (b : List Byte) {s : State} (hs : Kept pq va s) : Kept pq va (State.pathTarget b s).2 := by
  unfold State.pathTarget
  dsimp only
  split
  · exact hs
  · split
    · exact State.pathAccess_kept _ _ hs
    · split
      · exact State.record_kept _ _ _ hs
      · exact State.regRead_kept _ hs

theorem State.pathTarget_kept' {b : List Byte} {s : State}  {r : _} {t : State} (he : State.pathTarget b s = (r, t)) (hs : Kept pq va s) : Kept pq va t := by
  have := State.pathTarget_kept b hs
  rwa [he] at this

theorem State.pathBack_kept (b : List Byte) {s : State} (hs : Kept pq va s) : Kept pq va (State.pathBack b s) := by
  unfold State.pathBack
  repeat' first
    | with_reducible assumption
    | intro _
    | (extract_lets +onlyGivenNames lx; refine (fun (hlx : Kept pq va lx) => ?_ : Kept pq va lx → _) ?_; rotate_left; simp -zeta only [lx]; clear lx; rotate_right; clear_value lx; revert lx; refine kept_lock ?_; intro lx hlx)
    | (extract_lets +onlyGivenNames lx; clear_value lx; revert lx; refine kept_lock ?_; intro lx)
    | with_reducible apply State.pathReply_kept
    | with_reducible apply State.sendLocal_kept
    | with_reducible apply kept_ite
    | with_reducible apply kept_foldl
    | simp -zeta only [kept_mk, keptF_fold]
    | split

theorem execPathOpReceive_kept (port : Nat) (payload : List Byte) {s : State} (hs : Kept pq va s) : KeptOut pq va (execPathOpReceive port payload s) := by
  unfold execPathOpReceive
  repeat' first
    | with_reducible assumption
    | intro _
    | (extract_lets +onlyGivenNames lx; refine (fun (hlx : Kept pq va lx) => ?_ : Kept pq va lx → _) ?_; rotate_left; simp -zeta only [lx]; clear lx; rotate_right; clear_value lx; revert lx; refine kept_lock ?_; intro lx hlx)
    | (extract_lets +onlyGivenNames lx; clear_value lx; revert lx; refine kept_lock ?_; intro lx)
    | with_reducible apply keptOut_next
    | with_reducible apply keptOut_ite
    | with_reducible apply State.discMessage_kept
    | with_reducible apply State.pathBack_kept
    | with_reducible apply State.pathForward_kept
    | with_reducible apply State.pathTarget_kept
    | with_reducible apply kept_ite
    | with_reducible apply kept_foldl
    | simp -zeta only [kept_mk, keptF_fold]
    | split
    | (with_reducible refine State.pathTarget_kept' (by with_reducible assumption) ?_)

end Sys2Proof.Machine
end

