-- ==== Sys2Proof/Laws/State.lean ====
section
/-! SUPPORT. The laws of the state: for every update, what each field of the state holds after it; how fields of a
register, registers, host memory and stall SRAM read after a write; and how frames compose. -/
set_option linter.all false
namespace Sys2Proof.Machine

/-! ## Fields of the state after an update -/
section setReg
variable {s : State} {r : Nat} {v : W64}
@[simp] theorem State.setReg_pins : (s.setReg r v).pins = s.pins := (rfl)
@[simp] theorem State.setReg_apertureBase : (s.setReg r v).apertureBase = s.apertureBase := (rfl)
@[simp] theorem State.setReg_staged : (s.setReg r v).staged = s.staged := (rfl)
@[simp] theorem State.setReg_stagedLate : (s.setReg r v).stagedLate = s.stagedLate := (rfl)
@[simp] theorem State.setReg_now : (s.setReg r v).now = s.now := (rfl)
@[simp] theorem State.setReg_mem : (s.setReg r v).mem = s.mem := (rfl)
@[simp] theorem State.setReg_sram : (s.setReg r v).sram = s.sram := (rfl)
@[simp] theorem State.setReg_poison : (s.setReg r v).poison = s.poison := (rfl)
@[simp] theorem State.setReg_chains : (s.setReg r v).chains = s.chains := (rfl)
@[simp] theorem State.setReg_nextChain : (s.setReg r v).nextChain = s.nextChain := (rfl)
@[simp] theorem State.setReg_memRetry : (s.setReg r v).memRetry = s.memRetry := (rfl)
@[simp] theorem State.setReg_memDone : (s.setReg r v).memDone = s.memDone := (rfl)
@[simp] theorem State.setReg_portsLeaving : (s.setReg r v).portsLeaving = s.portsLeaving := (rfl)
@[simp] theorem State.setReg_readFailed : (s.setReg r v).readFailed = s.readFailed := (rfl)
@[simp] theorem State.setReg_irq : (s.setReg r v).irq = s.irq := (rfl)
@[simp] theorem State.setReg_evSeen : (s.setReg r v).evSeen = s.evSeen := (rfl)
@[simp] theorem State.setReg_tally : (s.setReg r v).tally = s.tally := (rfl)
@[simp] theorem State.setReg_trace : (s.setReg r v).trace = s.trace := (rfl)
@[simp] theorem State.setReg_bell : (s.setReg r v).bell = s.bell := (rfl)
@[simp] theorem State.setReg_seqs : (s.setReg r v).seqs = s.seqs := (rfl)
@[simp] theorem State.setReg_cal : (s.setReg r v).cal = s.cal := (rfl)
@[simp] theorem State.setReg_mus : (s.setReg r v).mus = s.mus := (rfl)
@[simp] theorem State.setReg_homeCal : (s.setReg r v).homeCal = s.homeCal := (rfl)
@[simp] theorem State.setReg_homeMus : (s.setReg r v).homeMus = s.homeMus := (rfl)
@[simp] theorem State.setReg_siteCal : (s.setReg r v).siteCal = s.siteCal := (rfl)
@[simp] theorem State.setReg_siteMus : (s.setReg r v).siteMus = s.siteMus := (rfl)
@[simp] theorem State.setReg_tok : (s.setReg r v).tok = s.tok := (rfl)
@[simp] theorem State.setReg_tiles : (s.setReg r v).tiles = s.tiles := (rfl)
@[simp] theorem State.setReg_gathers : (s.setReg r v).gathers = s.gathers := (rfl)
@[simp] theorem State.setReg_pool : (s.setReg r v).pool = s.pool := (rfl)
@[simp] theorem State.setReg_score : (s.setReg r v).score = s.score := (rfl)
@[simp] theorem State.setReg_res : (s.setReg r v).res = s.res := (rfl)
@[simp] theorem State.setReg_ctx : (s.setReg r v).ctx = s.ctx := (rfl)
@[simp] theorem State.setReg_safe : (s.setReg r v).safe = s.safe := (rfl)
@[simp] theorem State.setReg_start : (s.setReg r v).start = s.start := (rfl)
@[simp] theorem State.setReg_links : (s.setReg r v).links = s.links := (rfl)
@[simp] theorem State.setReg_e2e : (s.setReg r v).e2e = s.e2e := (rfl)
@[simp] theorem State.setReg_disc : (s.setReg r v).disc = s.disc := (rfl)
@[simp] theorem State.setReg_route : (s.setReg r v).route = s.route := (rfl)
@[simp] theorem State.setReg_msem : (s.setReg r v).msem = s.msem := (rfl)
@[simp] theorem State.setReg_porter : (s.setReg r v).porter = s.porter := (rfl)
@[simp] theorem State.setReg_coll : (s.setReg r v).coll = s.coll := (rfl)
@[simp] theorem State.setReg_det : (s.setReg r v).det = s.det := (rfl)
@[simp] theorem State.setReg_pkg : (s.setReg r v).pkg = s.pkg := (rfl)
@[simp] theorem State.setReg_free : (s.setReg r v).free = s.free := (rfl)
@[simp] theorem State.setReg_pending : (s.setReg r v).pending = s.pending := (rfl)
@[simp] theorem State.setReg_viaAlias : (s.setReg r v).viaAlias = s.viaAlias := (rfl)
end setReg

section setFld
variable {s : State} {r hi lo x : Nat}
@[simp] theorem State.setFld_pins : (s.setFld r hi lo x).pins = s.pins := (rfl)
@[simp] theorem State.setFld_apertureBase : (s.setFld r hi lo x).apertureBase = s.apertureBase := (rfl)
@[simp] theorem State.setFld_staged : (s.setFld r hi lo x).staged = s.staged := (rfl)
@[simp] theorem State.setFld_stagedLate : (s.setFld r hi lo x).stagedLate = s.stagedLate := (rfl)
@[simp] theorem State.setFld_now : (s.setFld r hi lo x).now = s.now := (rfl)
@[simp] theorem State.setFld_mem : (s.setFld r hi lo x).mem = s.mem := (rfl)
@[simp] theorem State.setFld_sram : (s.setFld r hi lo x).sram = s.sram := (rfl)
@[simp] theorem State.setFld_poison : (s.setFld r hi lo x).poison = s.poison := (rfl)
@[simp] theorem State.setFld_chains : (s.setFld r hi lo x).chains = s.chains := (rfl)
@[simp] theorem State.setFld_nextChain : (s.setFld r hi lo x).nextChain = s.nextChain := (rfl)
@[simp] theorem State.setFld_memRetry : (s.setFld r hi lo x).memRetry = s.memRetry := (rfl)
@[simp] theorem State.setFld_memDone : (s.setFld r hi lo x).memDone = s.memDone := (rfl)
@[simp] theorem State.setFld_portsLeaving : (s.setFld r hi lo x).portsLeaving = s.portsLeaving := (rfl)
@[simp] theorem State.setFld_readFailed : (s.setFld r hi lo x).readFailed = s.readFailed := (rfl)
@[simp] theorem State.setFld_irq : (s.setFld r hi lo x).irq = s.irq := (rfl)
@[simp] theorem State.setFld_evSeen : (s.setFld r hi lo x).evSeen = s.evSeen := (rfl)
@[simp] theorem State.setFld_tally : (s.setFld r hi lo x).tally = s.tally := (rfl)
@[simp] theorem State.setFld_trace : (s.setFld r hi lo x).trace = s.trace := (rfl)
@[simp] theorem State.setFld_bell : (s.setFld r hi lo x).bell = s.bell := (rfl)
@[simp] theorem State.setFld_seqs : (s.setFld r hi lo x).seqs = s.seqs := (rfl)
@[simp] theorem State.setFld_cal : (s.setFld r hi lo x).cal = s.cal := (rfl)
@[simp] theorem State.setFld_mus : (s.setFld r hi lo x).mus = s.mus := (rfl)
@[simp] theorem State.setFld_homeCal : (s.setFld r hi lo x).homeCal = s.homeCal := (rfl)
@[simp] theorem State.setFld_homeMus : (s.setFld r hi lo x).homeMus = s.homeMus := (rfl)
@[simp] theorem State.setFld_siteCal : (s.setFld r hi lo x).siteCal = s.siteCal := (rfl)
@[simp] theorem State.setFld_siteMus : (s.setFld r hi lo x).siteMus = s.siteMus := (rfl)
@[simp] theorem State.setFld_tok : (s.setFld r hi lo x).tok = s.tok := (rfl)
@[simp] theorem State.setFld_tiles : (s.setFld r hi lo x).tiles = s.tiles := (rfl)
@[simp] theorem State.setFld_gathers : (s.setFld r hi lo x).gathers = s.gathers := (rfl)
@[simp] theorem State.setFld_pool : (s.setFld r hi lo x).pool = s.pool := (rfl)
@[simp] theorem State.setFld_score : (s.setFld r hi lo x).score = s.score := (rfl)
@[simp] theorem State.setFld_res : (s.setFld r hi lo x).res = s.res := (rfl)
@[simp] theorem State.setFld_ctx : (s.setFld r hi lo x).ctx = s.ctx := (rfl)
@[simp] theorem State.setFld_safe : (s.setFld r hi lo x).safe = s.safe := (rfl)
@[simp] theorem State.setFld_start : (s.setFld r hi lo x).start = s.start := (rfl)
@[simp] theorem State.setFld_links : (s.setFld r hi lo x).links = s.links := (rfl)
@[simp] theorem State.setFld_e2e : (s.setFld r hi lo x).e2e = s.e2e := (rfl)
@[simp] theorem State.setFld_disc : (s.setFld r hi lo x).disc = s.disc := (rfl)
@[simp] theorem State.setFld_route : (s.setFld r hi lo x).route = s.route := (rfl)
@[simp] theorem State.setFld_msem : (s.setFld r hi lo x).msem = s.msem := (rfl)
@[simp] theorem State.setFld_porter : (s.setFld r hi lo x).porter = s.porter := (rfl)
@[simp] theorem State.setFld_coll : (s.setFld r hi lo x).coll = s.coll := (rfl)
@[simp] theorem State.setFld_det : (s.setFld r hi lo x).det = s.det := (rfl)
@[simp] theorem State.setFld_pkg : (s.setFld r hi lo x).pkg = s.pkg := (rfl)
@[simp] theorem State.setFld_free : (s.setFld r hi lo x).free = s.free := (rfl)
@[simp] theorem State.setFld_pending : (s.setFld r hi lo x).pending = s.pending := (rfl)
@[simp] theorem State.setFld_viaAlias : (s.setFld r hi lo x).viaAlias = s.viaAlias := (rfl)
end setFld

section stage
variable {s : State} {r : Nat} {v : W64}
theorem State.keepStaged_eq : s.keepStaged r = { s with stagedLate := (s.keepStaged r).stagedLate } := by
  simp only [State.keepStaged]
  split <;> rfl
theorem State.stage_eq :
    s.stage r v = { s with staged := tPut r v s.staged, stagedLate := (s.keepStaged r).stagedLate } := by
  unfold State.stage
  rw [State.keepStaged_eq]
@[simp] theorem State.stage_staged : (s.stage r v).staged = tPut r v s.staged := by rw [State.stage_eq]
@[simp] theorem State.stage_pins : (s.stage r v).pins = s.pins := by rw [State.stage_eq]
@[simp] theorem State.stage_apertureBase : (s.stage r v).apertureBase = s.apertureBase := by rw [State.stage_eq]
@[simp] theorem State.stage_regs : (s.stage r v).regs = s.regs := by rw [State.stage_eq]
@[simp] theorem State.stage_now : (s.stage r v).now = s.now := by rw [State.stage_eq]
@[simp] theorem State.stage_mem : (s.stage r v).mem = s.mem := by rw [State.stage_eq]
@[simp] theorem State.stage_sram : (s.stage r v).sram = s.sram := by rw [State.stage_eq]
@[simp] theorem State.stage_poison : (s.stage r v).poison = s.poison := by rw [State.stage_eq]
@[simp] theorem State.stage_chains : (s.stage r v).chains = s.chains := by rw [State.stage_eq]
@[simp] theorem State.stage_nextChain : (s.stage r v).nextChain = s.nextChain := by rw [State.stage_eq]
@[simp] theorem State.stage_memRetry : (s.stage r v).memRetry = s.memRetry := by rw [State.stage_eq]
@[simp] theorem State.stage_memDone : (s.stage r v).memDone = s.memDone := by rw [State.stage_eq]
@[simp] theorem State.stage_portsLeaving : (s.stage r v).portsLeaving = s.portsLeaving := by rw [State.stage_eq]
@[simp] theorem State.stage_readFailed : (s.stage r v).readFailed = s.readFailed := by rw [State.stage_eq]
@[simp] theorem State.stage_irq : (s.stage r v).irq = s.irq := by rw [State.stage_eq]
@[simp] theorem State.stage_evSeen : (s.stage r v).evSeen = s.evSeen := by rw [State.stage_eq]
@[simp] theorem State.stage_tally : (s.stage r v).tally = s.tally := by rw [State.stage_eq]
@[simp] theorem State.stage_trace : (s.stage r v).trace = s.trace := by rw [State.stage_eq]
@[simp] theorem State.stage_bell : (s.stage r v).bell = s.bell := by rw [State.stage_eq]
@[simp] theorem State.stage_seqs : (s.stage r v).seqs = s.seqs := by rw [State.stage_eq]
@[simp] theorem State.stage_cal : (s.stage r v).cal = s.cal := by rw [State.stage_eq]
@[simp] theorem State.stage_mus : (s.stage r v).mus = s.mus := by rw [State.stage_eq]
@[simp] theorem State.stage_homeCal : (s.stage r v).homeCal = s.homeCal := by rw [State.stage_eq]
@[simp] theorem State.stage_homeMus : (s.stage r v).homeMus = s.homeMus := by rw [State.stage_eq]
@[simp] theorem State.stage_siteCal : (s.stage r v).siteCal = s.siteCal := by rw [State.stage_eq]
@[simp] theorem State.stage_siteMus : (s.stage r v).siteMus = s.siteMus := by rw [State.stage_eq]
@[simp] theorem State.stage_tok : (s.stage r v).tok = s.tok := by rw [State.stage_eq]
@[simp] theorem State.stage_tiles : (s.stage r v).tiles = s.tiles := by rw [State.stage_eq]
@[simp] theorem State.stage_gathers : (s.stage r v).gathers = s.gathers := by rw [State.stage_eq]
@[simp] theorem State.stage_pool : (s.stage r v).pool = s.pool := by rw [State.stage_eq]
@[simp] theorem State.stage_score : (s.stage r v).score = s.score := by rw [State.stage_eq]
@[simp] theorem State.stage_res : (s.stage r v).res = s.res := by rw [State.stage_eq]
@[simp] theorem State.stage_ctx : (s.stage r v).ctx = s.ctx := by rw [State.stage_eq]
@[simp] theorem State.stage_safe : (s.stage r v).safe = s.safe := by rw [State.stage_eq]
@[simp] theorem State.stage_start : (s.stage r v).start = s.start := by rw [State.stage_eq]
@[simp] theorem State.stage_links : (s.stage r v).links = s.links := by rw [State.stage_eq]
@[simp] theorem State.stage_e2e : (s.stage r v).e2e = s.e2e := by rw [State.stage_eq]
@[simp] theorem State.stage_disc : (s.stage r v).disc = s.disc := by rw [State.stage_eq]
@[simp] theorem State.stage_route : (s.stage r v).route = s.route := by rw [State.stage_eq]
@[simp] theorem State.stage_msem : (s.stage r v).msem = s.msem := by rw [State.stage_eq]
@[simp] theorem State.stage_porter : (s.stage r v).porter = s.porter := by rw [State.stage_eq]
@[simp] theorem State.stage_coll : (s.stage r v).coll = s.coll := by rw [State.stage_eq]
@[simp] theorem State.stage_det : (s.stage r v).det = s.det := by rw [State.stage_eq]
@[simp] theorem State.stage_pkg : (s.stage r v).pkg = s.pkg := by rw [State.stage_eq]
@[simp] theorem State.stage_free : (s.stage r v).free = s.free := by rw [State.stage_eq]
@[simp] theorem State.stage_pending : (s.stage r v).pending = s.pending := by rw [State.stage_eq]
@[simp] theorem State.stage_viaAlias : (s.stage r v).viaAlias = s.viaAlias := by rw [State.stage_eq]
end stage

theorem State.tallyLate_eq {s : State} {k : Nat} {f : Nat → Nat} :
    s.tallyLate k f = { s with tally := (s.tallyLate k f).tally } := by
  unfold State.tallyLate
  split <;> rfl

section tallyAdd
variable {s : State} {pg i n : Nat}
theorem State.tallyAdd_eq : s.tallyAdd pg i n = { s with tally := (s.tallyAdd pg i n).tally } := by
  dsimp only [State.tallyAdd]
  rw [State.tallyLate_eq]
@[simp] theorem State.tallyAdd_pins : (s.tallyAdd pg i n).pins = s.pins := by rw [State.tallyAdd_eq]
@[simp] theorem State.tallyAdd_apertureBase : (s.tallyAdd pg i n).apertureBase = s.apertureBase := by rw [State.tallyAdd_eq]
@[simp] theorem State.tallyAdd_regs : (s.tallyAdd pg i n).regs = s.regs := by rw [State.tallyAdd_eq]
@[simp] theorem State.tallyAdd_staged : (s.tallyAdd pg i n).staged = s.staged := by rw [State.tallyAdd_eq]
@[simp] theorem State.tallyAdd_stagedLate : (s.tallyAdd pg i n).stagedLate = s.stagedLate := by rw [State.tallyAdd_eq]
@[simp] theorem State.tallyAdd_now : (s.tallyAdd pg i n).now = s.now := by rw [State.tallyAdd_eq]
@[simp] theorem State.tallyAdd_mem : (s.tallyAdd pg i n).mem = s.mem := by rw [State.tallyAdd_eq]
@[simp] theorem State.tallyAdd_sram : (s.tallyAdd pg i n).sram = s.sram := by rw [State.tallyAdd_eq]
@[simp] theorem State.tallyAdd_poison : (s.tallyAdd pg i n).poison = s.poison := by rw [State.tallyAdd_eq]
@[simp] theorem State.tallyAdd_chains : (s.tallyAdd pg i n).chains = s.chains := by rw [State.tallyAdd_eq]
@[simp] theorem State.tallyAdd_nextChain : (s.tallyAdd pg i n).nextChain = s.nextChain := by rw [State.tallyAdd_eq]
@[simp] theorem State.tallyAdd_memRetry : (s.tallyAdd pg i n).memRetry = s.memRetry := by rw [State.tallyAdd_eq]
@[simp] theorem State.tallyAdd_memDone : (s.tallyAdd pg i n).memDone = s.memDone := by rw [State.tallyAdd_eq]
@[simp] theorem State.tallyAdd_portsLeaving : (s.tallyAdd pg i n).portsLeaving = s.portsLeaving := by rw [State.tallyAdd_eq]
@[simp] theorem State.tallyAdd_readFailed : (s.tallyAdd pg i n).readFailed = s.readFailed := by rw [State.tallyAdd_eq]
@[simp] theorem State.tallyAdd_irq : (s.tallyAdd pg i n).irq = s.irq := by rw [State.tallyAdd_eq]
@[simp] theorem State.tallyAdd_evSeen : (s.tallyAdd pg i n).evSeen = s.evSeen := by rw [State.tallyAdd_eq]
@[simp] theorem State.tallyAdd_trace : (s.tallyAdd pg i n).trace = s.trace := by rw [State.tallyAdd_eq]
@[simp] theorem State.tallyAdd_bell : (s.tallyAdd pg i n).bell = s.bell := by rw [State.tallyAdd_eq]
@[simp] theorem State.tallyAdd_seqs : (s.tallyAdd pg i n).seqs = s.seqs := by rw [State.tallyAdd_eq]
@[simp] theorem State.tallyAdd_cal : (s.tallyAdd pg i n).cal = s.cal := by rw [State.tallyAdd_eq]
@[simp] theorem State.tallyAdd_mus : (s.tallyAdd pg i n).mus = s.mus := by rw [State.tallyAdd_eq]
@[simp] theorem State.tallyAdd_homeCal : (s.tallyAdd pg i n).homeCal = s.homeCal := by rw [State.tallyAdd_eq]
@[simp] theorem State.tallyAdd_homeMus : (s.tallyAdd pg i n).homeMus = s.homeMus := by rw [State.tallyAdd_eq]
@[simp] theorem State.tallyAdd_siteCal : (s.tallyAdd pg i n).siteCal = s.siteCal := by rw [State.tallyAdd_eq]
@[simp] theorem State.tallyAdd_siteMus : (s.tallyAdd pg i n).siteMus = s.siteMus := by rw [State.tallyAdd_eq]
@[simp] theorem State.tallyAdd_tok : (s.tallyAdd pg i n).tok = s.tok := by rw [State.tallyAdd_eq]
@[simp] theorem State.tallyAdd_tiles : (s.tallyAdd pg i n).tiles = s.tiles := by rw [State.tallyAdd_eq]
@[simp] theorem State.tallyAdd_gathers : (s.tallyAdd pg i n).gathers = s.gathers := by rw [State.tallyAdd_eq]
@[simp] theorem State.tallyAdd_pool : (s.tallyAdd pg i n).pool = s.pool := by rw [State.tallyAdd_eq]
@[simp] theorem State.tallyAdd_score : (s.tallyAdd pg i n).score = s.score := by rw [State.tallyAdd_eq]
@[simp] theorem State.tallyAdd_res : (s.tallyAdd pg i n).res = s.res := by rw [State.tallyAdd_eq]
@[simp] theorem State.tallyAdd_ctx : (s.tallyAdd pg i n).ctx = s.ctx := by rw [State.tallyAdd_eq]
@[simp] theorem State.tallyAdd_safe : (s.tallyAdd pg i n).safe = s.safe := by rw [State.tallyAdd_eq]
@[simp] theorem State.tallyAdd_start : (s.tallyAdd pg i n).start = s.start := by rw [State.tallyAdd_eq]
@[simp] theorem State.tallyAdd_links : (s.tallyAdd pg i n).links = s.links := by rw [State.tallyAdd_eq]
@[simp] theorem State.tallyAdd_e2e : (s.tallyAdd pg i n).e2e = s.e2e := by rw [State.tallyAdd_eq]
@[simp] theorem State.tallyAdd_disc : (s.tallyAdd pg i n).disc = s.disc := by rw [State.tallyAdd_eq]
@[simp] theorem State.tallyAdd_route : (s.tallyAdd pg i n).route = s.route := by rw [State.tallyAdd_eq]
@[simp] theorem State.tallyAdd_msem : (s.tallyAdd pg i n).msem = s.msem := by rw [State.tallyAdd_eq]
@[simp] theorem State.tallyAdd_porter : (s.tallyAdd pg i n).porter = s.porter := by rw [State.tallyAdd_eq]
@[simp] theorem State.tallyAdd_coll : (s.tallyAdd pg i n).coll = s.coll := by rw [State.tallyAdd_eq]
@[simp] theorem State.tallyAdd_det : (s.tallyAdd pg i n).det = s.det := by rw [State.tallyAdd_eq]
@[simp] theorem State.tallyAdd_pkg : (s.tallyAdd pg i n).pkg = s.pkg := by rw [State.tallyAdd_eq]
@[simp] theorem State.tallyAdd_free : (s.tallyAdd pg i n).free = s.free := by rw [State.tallyAdd_eq]
@[simp] theorem State.tallyAdd_pending : (s.tallyAdd pg i n).pending = s.pending := by rw [State.tallyAdd_eq]
@[simp] theorem State.tallyAdd_viaAlias : (s.tallyAdd pg i n).viaAlias = s.viaAlias := by rw [State.tallyAdd_eq]
end tallyAdd

section tallyMax
variable {s : State} {pg i n : Nat}
theorem State.tallyMax_eq : s.tallyMax pg i n = { s with tally := (s.tallyMax pg i n).tally } := by
  dsimp only [State.tallyMax]
  rw [State.tallyLate_eq]
@[simp] theorem State.tallyMax_pins : (s.tallyMax pg i n).pins = s.pins := by rw [State.tallyMax_eq]
@[simp] theorem State.tallyMax_apertureBase : (s.tallyMax pg i n).apertureBase = s.apertureBase := by rw [State.tallyMax_eq]
@[simp] theorem State.tallyMax_regs : (s.tallyMax pg i n).regs = s.regs := by rw [State.tallyMax_eq]
@[simp] theorem State.tallyMax_staged : (s.tallyMax pg i n).staged = s.staged := by rw [State.tallyMax_eq]
@[simp] theorem State.tallyMax_stagedLate : (s.tallyMax pg i n).stagedLate = s.stagedLate := by rw [State.tallyMax_eq]
@[simp] theorem State.tallyMax_now : (s.tallyMax pg i n).now = s.now := by rw [State.tallyMax_eq]
@[simp] theorem State.tallyMax_mem : (s.tallyMax pg i n).mem = s.mem := by rw [State.tallyMax_eq]
@[simp] theorem State.tallyMax_sram : (s.tallyMax pg i n).sram = s.sram := by rw [State.tallyMax_eq]
@[simp] theorem State.tallyMax_poison : (s.tallyMax pg i n).poison = s.poison := by rw [State.tallyMax_eq]
@[simp] theorem State.tallyMax_chains : (s.tallyMax pg i n).chains = s.chains := by rw [State.tallyMax_eq]
@[simp] theorem State.tallyMax_nextChain : (s.tallyMax pg i n).nextChain = s.nextChain := by rw [State.tallyMax_eq]
@[simp] theorem State.tallyMax_memRetry : (s.tallyMax pg i n).memRetry = s.memRetry := by rw [State.tallyMax_eq]
@[simp] theorem State.tallyMax_memDone : (s.tallyMax pg i n).memDone = s.memDone := by rw [State.tallyMax_eq]
@[simp] theorem State.tallyMax_portsLeaving : (s.tallyMax pg i n).portsLeaving = s.portsLeaving := by rw [State.tallyMax_eq]
@[simp] theorem State.tallyMax_readFailed : (s.tallyMax pg i n).readFailed = s.readFailed := by rw [State.tallyMax_eq]
@[simp] theorem State.tallyMax_irq : (s.tallyMax pg i n).irq = s.irq := by rw [State.tallyMax_eq]
@[simp] theorem State.tallyMax_evSeen : (s.tallyMax pg i n).evSeen = s.evSeen := by rw [State.tallyMax_eq]
@[simp] theorem State.tallyMax_trace : (s.tallyMax pg i n).trace = s.trace := by rw [State.tallyMax_eq]
@[simp] theorem State.tallyMax_bell : (s.tallyMax pg i n).bell = s.bell := by rw [State.tallyMax_eq]
@[simp] theorem State.tallyMax_seqs : (s.tallyMax pg i n).seqs = s.seqs := by rw [State.tallyMax_eq]
@[simp] theorem State.tallyMax_cal : (s.tallyMax pg i n).cal = s.cal := by rw [State.tallyMax_eq]
@[simp] theorem State.tallyMax_mus : (s.tallyMax pg i n).mus = s.mus := by rw [State.tallyMax_eq]
@[simp] theorem State.tallyMax_homeCal : (s.tallyMax pg i n).homeCal = s.homeCal := by rw [State.tallyMax_eq]
@[simp] theorem State.tallyMax_homeMus : (s.tallyMax pg i n).homeMus = s.homeMus := by rw [State.tallyMax_eq]
@[simp] theorem State.tallyMax_siteCal : (s.tallyMax pg i n).siteCal = s.siteCal := by rw [State.tallyMax_eq]
@[simp] theorem State.tallyMax_siteMus : (s.tallyMax pg i n).siteMus = s.siteMus := by rw [State.tallyMax_eq]
@[simp] theorem State.tallyMax_tok : (s.tallyMax pg i n).tok = s.tok := by rw [State.tallyMax_eq]
@[simp] theorem State.tallyMax_tiles : (s.tallyMax pg i n).tiles = s.tiles := by rw [State.tallyMax_eq]
@[simp] theorem State.tallyMax_gathers : (s.tallyMax pg i n).gathers = s.gathers := by rw [State.tallyMax_eq]
@[simp] theorem State.tallyMax_pool : (s.tallyMax pg i n).pool = s.pool := by rw [State.tallyMax_eq]
@[simp] theorem State.tallyMax_score : (s.tallyMax pg i n).score = s.score := by rw [State.tallyMax_eq]
@[simp] theorem State.tallyMax_res : (s.tallyMax pg i n).res = s.res := by rw [State.tallyMax_eq]
@[simp] theorem State.tallyMax_ctx : (s.tallyMax pg i n).ctx = s.ctx := by rw [State.tallyMax_eq]
@[simp] theorem State.tallyMax_safe : (s.tallyMax pg i n).safe = s.safe := by rw [State.tallyMax_eq]
@[simp] theorem State.tallyMax_start : (s.tallyMax pg i n).start = s.start := by rw [State.tallyMax_eq]
@[simp] theorem State.tallyMax_links : (s.tallyMax pg i n).links = s.links := by rw [State.tallyMax_eq]
@[simp] theorem State.tallyMax_e2e : (s.tallyMax pg i n).e2e = s.e2e := by rw [State.tallyMax_eq]
@[simp] theorem State.tallyMax_disc : (s.tallyMax pg i n).disc = s.disc := by rw [State.tallyMax_eq]
@[simp] theorem State.tallyMax_route : (s.tallyMax pg i n).route = s.route := by rw [State.tallyMax_eq]
@[simp] theorem State.tallyMax_msem : (s.tallyMax pg i n).msem = s.msem := by rw [State.tallyMax_eq]
@[simp] theorem State.tallyMax_porter : (s.tallyMax pg i n).porter = s.porter := by rw [State.tallyMax_eq]
@[simp] theorem State.tallyMax_coll : (s.tallyMax pg i n).coll = s.coll := by rw [State.tallyMax_eq]
@[simp] theorem State.tallyMax_det : (s.tallyMax pg i n).det = s.det := by rw [State.tallyMax_eq]
@[simp] theorem State.tallyMax_pkg : (s.tallyMax pg i n).pkg = s.pkg := by rw [State.tallyMax_eq]
@[simp] theorem State.tallyMax_free : (s.tallyMax pg i n).free = s.free := by rw [State.tallyMax_eq]
@[simp] theorem State.tallyMax_pending : (s.tallyMax pg i n).pending = s.pending := by rw [State.tallyMax_eq]
@[simp] theorem State.tallyMax_viaAlias : (s.tallyMax pg i n).viaAlias = s.viaAlias := by rw [State.tallyMax_eq]
end tallyMax

section lifeAdd
variable {s : State} {j n : Nat}
@[simp] theorem State.lifeAdd_pins : (s.lifeAdd j n).pins = s.pins := (rfl)
@[simp] theorem State.lifeAdd_apertureBase : (s.lifeAdd j n).apertureBase = s.apertureBase := (rfl)
@[simp] theorem State.lifeAdd_staged : (s.lifeAdd j n).staged = s.staged := (rfl)
@[simp] theorem State.lifeAdd_stagedLate : (s.lifeAdd j n).stagedLate = s.stagedLate := (rfl)
@[simp] theorem State.lifeAdd_now : (s.lifeAdd j n).now = s.now := (rfl)
@[simp] theorem State.lifeAdd_mem : (s.lifeAdd j n).mem = s.mem := (rfl)
@[simp] theorem State.lifeAdd_sram : (s.lifeAdd j n).sram = s.sram := (rfl)
@[simp] theorem State.lifeAdd_poison : (s.lifeAdd j n).poison = s.poison := (rfl)
@[simp] theorem State.lifeAdd_chains : (s.lifeAdd j n).chains = s.chains := (rfl)
@[simp] theorem State.lifeAdd_nextChain : (s.lifeAdd j n).nextChain = s.nextChain := (rfl)
@[simp] theorem State.lifeAdd_memRetry : (s.lifeAdd j n).memRetry = s.memRetry := (rfl)
@[simp] theorem State.lifeAdd_memDone : (s.lifeAdd j n).memDone = s.memDone := (rfl)
@[simp] theorem State.lifeAdd_portsLeaving : (s.lifeAdd j n).portsLeaving = s.portsLeaving := (rfl)
@[simp] theorem State.lifeAdd_readFailed : (s.lifeAdd j n).readFailed = s.readFailed := (rfl)
@[simp] theorem State.lifeAdd_irq : (s.lifeAdd j n).irq = s.irq := (rfl)
@[simp] theorem State.lifeAdd_evSeen : (s.lifeAdd j n).evSeen = s.evSeen := (rfl)
@[simp] theorem State.lifeAdd_tally : (s.lifeAdd j n).tally = s.tally := (rfl)
@[simp] theorem State.lifeAdd_trace : (s.lifeAdd j n).trace = s.trace := (rfl)
@[simp] theorem State.lifeAdd_bell : (s.lifeAdd j n).bell = s.bell := (rfl)
@[simp] theorem State.lifeAdd_seqs : (s.lifeAdd j n).seqs = s.seqs := (rfl)
@[simp] theorem State.lifeAdd_cal : (s.lifeAdd j n).cal = s.cal := (rfl)
@[simp] theorem State.lifeAdd_mus : (s.lifeAdd j n).mus = s.mus := (rfl)
@[simp] theorem State.lifeAdd_homeCal : (s.lifeAdd j n).homeCal = s.homeCal := (rfl)
@[simp] theorem State.lifeAdd_homeMus : (s.lifeAdd j n).homeMus = s.homeMus := (rfl)
@[simp] theorem State.lifeAdd_siteCal : (s.lifeAdd j n).siteCal = s.siteCal := (rfl)
@[simp] theorem State.lifeAdd_siteMus : (s.lifeAdd j n).siteMus = s.siteMus := (rfl)
@[simp] theorem State.lifeAdd_tok : (s.lifeAdd j n).tok = s.tok := (rfl)
@[simp] theorem State.lifeAdd_tiles : (s.lifeAdd j n).tiles = s.tiles := (rfl)
@[simp] theorem State.lifeAdd_gathers : (s.lifeAdd j n).gathers = s.gathers := (rfl)
@[simp] theorem State.lifeAdd_pool : (s.lifeAdd j n).pool = s.pool := (rfl)
@[simp] theorem State.lifeAdd_score : (s.lifeAdd j n).score = s.score := (rfl)
@[simp] theorem State.lifeAdd_res : (s.lifeAdd j n).res = s.res := (rfl)
@[simp] theorem State.lifeAdd_ctx : (s.lifeAdd j n).ctx = s.ctx := (rfl)
@[simp] theorem State.lifeAdd_safe : (s.lifeAdd j n).safe = s.safe := (rfl)
@[simp] theorem State.lifeAdd_start : (s.lifeAdd j n).start = s.start := (rfl)
@[simp] theorem State.lifeAdd_links : (s.lifeAdd j n).links = s.links := (rfl)
@[simp] theorem State.lifeAdd_e2e : (s.lifeAdd j n).e2e = s.e2e := (rfl)
@[simp] theorem State.lifeAdd_disc : (s.lifeAdd j n).disc = s.disc := (rfl)
@[simp] theorem State.lifeAdd_route : (s.lifeAdd j n).route = s.route := (rfl)
@[simp] theorem State.lifeAdd_msem : (s.lifeAdd j n).msem = s.msem := (rfl)
@[simp] theorem State.lifeAdd_porter : (s.lifeAdd j n).porter = s.porter := (rfl)
@[simp] theorem State.lifeAdd_coll : (s.lifeAdd j n).coll = s.coll := (rfl)
@[simp] theorem State.lifeAdd_det : (s.lifeAdd j n).det = s.det := (rfl)
@[simp] theorem State.lifeAdd_pkg : (s.lifeAdd j n).pkg = s.pkg := (rfl)
@[simp] theorem State.lifeAdd_free : (s.lifeAdd j n).free = s.free := (rfl)
@[simp] theorem State.lifeAdd_pending : (s.lifeAdd j n).pending = s.pending := (rfl)
@[simp] theorem State.lifeAdd_viaAlias : (s.lifeAdd j n).viaAlias = s.viaAlias := (rfl)
end lifeAdd

section memCount
variable {s : State} {k n : Nat}
@[simp] theorem State.memCount_pins : (s.memCount k n).pins = s.pins := by simp [State.memCount]
@[simp] theorem State.memCount_apertureBase : (s.memCount k n).apertureBase = s.apertureBase := by simp [State.memCount]
@[simp] theorem State.memCount_staged : (s.memCount k n).staged = s.staged := by simp [State.memCount]
@[simp] theorem State.memCount_stagedLate : (s.memCount k n).stagedLate = s.stagedLate := by simp [State.memCount]
@[simp] theorem State.memCount_now : (s.memCount k n).now = s.now := by simp [State.memCount]
@[simp] theorem State.memCount_mem : (s.memCount k n).mem = s.mem := by simp [State.memCount]
@[simp] theorem State.memCount_sram : (s.memCount k n).sram = s.sram := by simp [State.memCount]
@[simp] theorem State.memCount_poison : (s.memCount k n).poison = s.poison := by simp [State.memCount]
@[simp] theorem State.memCount_chains : (s.memCount k n).chains = s.chains := by simp [State.memCount]
@[simp] theorem State.memCount_nextChain : (s.memCount k n).nextChain = s.nextChain := by simp [State.memCount]
@[simp] theorem State.memCount_memRetry : (s.memCount k n).memRetry = s.memRetry := by simp [State.memCount]
@[simp] theorem State.memCount_memDone : (s.memCount k n).memDone = s.memDone := by simp [State.memCount]
@[simp] theorem State.memCount_portsLeaving : (s.memCount k n).portsLeaving = s.portsLeaving := by simp [State.memCount]
@[simp] theorem State.memCount_readFailed : (s.memCount k n).readFailed = s.readFailed := by simp [State.memCount]
@[simp] theorem State.memCount_irq : (s.memCount k n).irq = s.irq := by simp [State.memCount]
@[simp] theorem State.memCount_evSeen : (s.memCount k n).evSeen = s.evSeen := by simp [State.memCount]
@[simp] theorem State.memCount_trace : (s.memCount k n).trace = s.trace := by simp [State.memCount]
@[simp] theorem State.memCount_bell : (s.memCount k n).bell = s.bell := by simp [State.memCount]
@[simp] theorem State.memCount_seqs : (s.memCount k n).seqs = s.seqs := by simp [State.memCount]
@[simp] theorem State.memCount_cal : (s.memCount k n).cal = s.cal := by simp [State.memCount]
@[simp] theorem State.memCount_mus : (s.memCount k n).mus = s.mus := by simp [State.memCount]
@[simp] theorem State.memCount_homeCal : (s.memCount k n).homeCal = s.homeCal := by simp [State.memCount]
@[simp] theorem State.memCount_homeMus : (s.memCount k n).homeMus = s.homeMus := by simp [State.memCount]
@[simp] theorem State.memCount_siteCal : (s.memCount k n).siteCal = s.siteCal := by simp [State.memCount]
@[simp] theorem State.memCount_siteMus : (s.memCount k n).siteMus = s.siteMus := by simp [State.memCount]
@[simp] theorem State.memCount_tok : (s.memCount k n).tok = s.tok := by simp [State.memCount]
@[simp] theorem State.memCount_tiles : (s.memCount k n).tiles = s.tiles := by simp [State.memCount]
@[simp] theorem State.memCount_gathers : (s.memCount k n).gathers = s.gathers := by simp [State.memCount]
@[simp] theorem State.memCount_pool : (s.memCount k n).pool = s.pool := by simp [State.memCount]
@[simp] theorem State.memCount_score : (s.memCount k n).score = s.score := by simp [State.memCount]
@[simp] theorem State.memCount_res : (s.memCount k n).res = s.res := by simp [State.memCount]
@[simp] theorem State.memCount_ctx : (s.memCount k n).ctx = s.ctx := by simp [State.memCount]
@[simp] theorem State.memCount_safe : (s.memCount k n).safe = s.safe := by simp [State.memCount]
@[simp] theorem State.memCount_start : (s.memCount k n).start = s.start := by simp [State.memCount]
@[simp] theorem State.memCount_links : (s.memCount k n).links = s.links := by simp [State.memCount]
@[simp] theorem State.memCount_e2e : (s.memCount k n).e2e = s.e2e := by simp [State.memCount]
@[simp] theorem State.memCount_disc : (s.memCount k n).disc = s.disc := by simp [State.memCount]
@[simp] theorem State.memCount_route : (s.memCount k n).route = s.route := by simp [State.memCount]
@[simp] theorem State.memCount_msem : (s.memCount k n).msem = s.msem := by simp [State.memCount]
@[simp] theorem State.memCount_porter : (s.memCount k n).porter = s.porter := by simp [State.memCount]
@[simp] theorem State.memCount_coll : (s.memCount k n).coll = s.coll := by simp [State.memCount]
@[simp] theorem State.memCount_det : (s.memCount k n).det = s.det := by simp [State.memCount]
@[simp] theorem State.memCount_pkg : (s.memCount k n).pkg = s.pkg := by simp [State.memCount]
@[simp] theorem State.memCount_free : (s.memCount k n).free = s.free := by simp [State.memCount]
@[simp] theorem State.memCount_pending : (s.memCount k n).pending = s.pending := by simp [State.memCount]
@[simp] theorem State.memCount_viaAlias : (s.memCount k n).viaAlias = s.viaAlias := by simp [State.memCount]
end memCount

section lateMargin
variable {s : State} 
@[simp] theorem State.lateMargin_pins : s.lateMargin.pins = s.pins := by simp [State.lateMargin]
@[simp] theorem State.lateMargin_apertureBase : s.lateMargin.apertureBase = s.apertureBase := by simp [State.lateMargin]
@[simp] theorem State.lateMargin_regs : s.lateMargin.regs = s.regs := by simp [State.lateMargin]
@[simp] theorem State.lateMargin_staged : s.lateMargin.staged = s.staged := by simp [State.lateMargin]
@[simp] theorem State.lateMargin_stagedLate : s.lateMargin.stagedLate = s.stagedLate := by simp [State.lateMargin]
@[simp] theorem State.lateMargin_now : s.lateMargin.now = s.now := by simp [State.lateMargin]
@[simp] theorem State.lateMargin_mem : s.lateMargin.mem = s.mem := by simp [State.lateMargin]
@[simp] theorem State.lateMargin_sram : s.lateMargin.sram = s.sram := by simp [State.lateMargin]
@[simp] theorem State.lateMargin_poison : s.lateMargin.poison = s.poison := by simp [State.lateMargin]
@[simp] theorem State.lateMargin_chains : s.lateMargin.chains = s.chains := by simp [State.lateMargin]
@[simp] theorem State.lateMargin_nextChain : s.lateMargin.nextChain = s.nextChain := by simp [State.lateMargin]
@[simp] theorem State.lateMargin_memRetry : s.lateMargin.memRetry = s.memRetry := by simp [State.lateMargin]
@[simp] theorem State.lateMargin_memDone : s.lateMargin.memDone = s.memDone := by simp [State.lateMargin]
@[simp] theorem State.lateMargin_portsLeaving : s.lateMargin.portsLeaving = s.portsLeaving := by simp [State.lateMargin]
@[simp] theorem State.lateMargin_readFailed : s.lateMargin.readFailed = s.readFailed := by simp [State.lateMargin]
@[simp] theorem State.lateMargin_irq : s.lateMargin.irq = s.irq := by simp [State.lateMargin]
@[simp] theorem State.lateMargin_evSeen : s.lateMargin.evSeen = s.evSeen := by simp [State.lateMargin]
@[simp] theorem State.lateMargin_trace : s.lateMargin.trace = s.trace := by simp [State.lateMargin]
@[simp] theorem State.lateMargin_bell : s.lateMargin.bell = s.bell := by simp [State.lateMargin]
@[simp] theorem State.lateMargin_seqs : s.lateMargin.seqs = s.seqs := by simp [State.lateMargin]
@[simp] theorem State.lateMargin_cal : s.lateMargin.cal = s.cal := by simp [State.lateMargin]
@[simp] theorem State.lateMargin_mus : s.lateMargin.mus = s.mus := by simp [State.lateMargin]
@[simp] theorem State.lateMargin_homeCal : s.lateMargin.homeCal = s.homeCal := by simp [State.lateMargin]
@[simp] theorem State.lateMargin_homeMus : s.lateMargin.homeMus = s.homeMus := by simp [State.lateMargin]
@[simp] theorem State.lateMargin_siteCal : s.lateMargin.siteCal = s.siteCal := by simp [State.lateMargin]
@[simp] theorem State.lateMargin_siteMus : s.lateMargin.siteMus = s.siteMus := by simp [State.lateMargin]
@[simp] theorem State.lateMargin_tok : s.lateMargin.tok = s.tok := by simp [State.lateMargin]
@[simp] theorem State.lateMargin_tiles : s.lateMargin.tiles = s.tiles := by simp [State.lateMargin]
@[simp] theorem State.lateMargin_gathers : s.lateMargin.gathers = s.gathers := by simp [State.lateMargin]
@[simp] theorem State.lateMargin_pool : s.lateMargin.pool = s.pool := by simp [State.lateMargin]
@[simp] theorem State.lateMargin_score : s.lateMargin.score = s.score := by simp [State.lateMargin]
@[simp] theorem State.lateMargin_res : s.lateMargin.res = s.res := by simp [State.lateMargin]
@[simp] theorem State.lateMargin_ctx : s.lateMargin.ctx = s.ctx := by simp [State.lateMargin]
@[simp] theorem State.lateMargin_safe : s.lateMargin.safe = s.safe := by simp [State.lateMargin]
@[simp] theorem State.lateMargin_start : s.lateMargin.start = s.start := by simp [State.lateMargin]
@[simp] theorem State.lateMargin_links : s.lateMargin.links = s.links := by simp [State.lateMargin]
@[simp] theorem State.lateMargin_e2e : s.lateMargin.e2e = s.e2e := by simp [State.lateMargin]
@[simp] theorem State.lateMargin_disc : s.lateMargin.disc = s.disc := by simp [State.lateMargin]
@[simp] theorem State.lateMargin_route : s.lateMargin.route = s.route := by simp [State.lateMargin]
@[simp] theorem State.lateMargin_msem : s.lateMargin.msem = s.msem := by simp [State.lateMargin]
@[simp] theorem State.lateMargin_porter : s.lateMargin.porter = s.porter := by simp [State.lateMargin]
@[simp] theorem State.lateMargin_coll : s.lateMargin.coll = s.coll := by simp [State.lateMargin]
@[simp] theorem State.lateMargin_det : s.lateMargin.det = s.det := by simp [State.lateMargin]
@[simp] theorem State.lateMargin_pkg : s.lateMargin.pkg = s.pkg := by simp [State.lateMargin]
@[simp] theorem State.lateMargin_free : s.lateMargin.free = s.free := by simp [State.lateMargin]
@[simp] theorem State.lateMargin_pending : s.lateMargin.pending = s.pending := by simp [State.lateMargin]
@[simp] theorem State.lateMargin_viaAlias : s.lateMargin.viaAlias = s.viaAlias := by simp [State.lateMargin]
end lateMargin

section wr
variable {s : State} {a : Nat} {d : List Byte}
/-- A write of memory changes memory, the poison of the lines it covers, and what counts it. -/
theorem State.wr_eq : s.wr a d = { s with
    mem := tSetRun byteZero (a % memSpace) d s.mem, regs := (s.wr a d).regs, poison := (s.wr a d).poison
    tally := (s.wr a d).tally } := by
  dsimp only [State.wr, State.memCount, State.lifeAdd, State.setReg]
  rw [State.tallyAdd_eq]
@[simp] theorem State.wr_pins : (s.wr a d).pins = s.pins := by simp [State.wr]
@[simp] theorem State.wr_apertureBase : (s.wr a d).apertureBase = s.apertureBase := by simp [State.wr]
@[simp] theorem State.wr_staged : (s.wr a d).staged = s.staged := by simp [State.wr]
@[simp] theorem State.wr_stagedLate : (s.wr a d).stagedLate = s.stagedLate := by simp [State.wr]
@[simp] theorem State.wr_now : (s.wr a d).now = s.now := by simp [State.wr]
@[simp] theorem State.wr_sram : (s.wr a d).sram = s.sram := by simp [State.wr]
@[simp] theorem State.wr_chains : (s.wr a d).chains = s.chains := by simp [State.wr]
@[simp] theorem State.wr_nextChain : (s.wr a d).nextChain = s.nextChain := by simp [State.wr]
@[simp] theorem State.wr_memRetry : (s.wr a d).memRetry = s.memRetry := by simp [State.wr]
@[simp] theorem State.wr_memDone : (s.wr a d).memDone = s.memDone := by simp [State.wr]
@[simp] theorem State.wr_portsLeaving : (s.wr a d).portsLeaving = s.portsLeaving := by simp [State.wr]
@[simp] theorem State.wr_readFailed : (s.wr a d).readFailed = s.readFailed := by simp [State.wr]
@[simp] theorem State.wr_irq : (s.wr a d).irq = s.irq := by simp [State.wr]
@[simp] theorem State.wr_evSeen : (s.wr a d).evSeen = s.evSeen := by simp [State.wr]
@[simp] theorem State.wr_trace : (s.wr a d).trace = s.trace := by simp [State.wr]
@[simp] theorem State.wr_bell : (s.wr a d).bell = s.bell := by simp [State.wr]
@[simp] theorem State.wr_seqs : (s.wr a d).seqs = s.seqs := by simp [State.wr]
@[simp] theorem State.wr_cal : (s.wr a d).cal = s.cal := by simp [State.wr]
@[simp] theorem State.wr_mus : (s.wr a d).mus = s.mus := by simp [State.wr]
@[simp] theorem State.wr_homeCal : (s.wr a d).homeCal = s.homeCal := by simp [State.wr]
@[simp] theorem State.wr_homeMus : (s.wr a d).homeMus = s.homeMus := by simp [State.wr]
@[simp] theorem State.wr_siteCal : (s.wr a d).siteCal = s.siteCal := by simp [State.wr]
@[simp] theorem State.wr_siteMus : (s.wr a d).siteMus = s.siteMus := by simp [State.wr]
@[simp] theorem State.wr_tok : (s.wr a d).tok = s.tok := by simp [State.wr]
@[simp] theorem State.wr_tiles : (s.wr a d).tiles = s.tiles := by simp [State.wr]
@[simp] theorem State.wr_gathers : (s.wr a d).gathers = s.gathers := by simp [State.wr]
@[simp] theorem State.wr_pool : (s.wr a d).pool = s.pool := by simp [State.wr]
@[simp] theorem State.wr_score : (s.wr a d).score = s.score := by simp [State.wr]
@[simp] theorem State.wr_res : (s.wr a d).res = s.res := by simp [State.wr]
@[simp] theorem State.wr_ctx : (s.wr a d).ctx = s.ctx := by simp [State.wr]
@[simp] theorem State.wr_safe : (s.wr a d).safe = s.safe := by simp [State.wr]
@[simp] theorem State.wr_start : (s.wr a d).start = s.start := by simp [State.wr]
@[simp] theorem State.wr_links : (s.wr a d).links = s.links := by simp [State.wr]
@[simp] theorem State.wr_e2e : (s.wr a d).e2e = s.e2e := by simp [State.wr]
@[simp] theorem State.wr_disc : (s.wr a d).disc = s.disc := by simp [State.wr]
@[simp] theorem State.wr_route : (s.wr a d).route = s.route := by simp [State.wr]
@[simp] theorem State.wr_msem : (s.wr a d).msem = s.msem := by simp [State.wr]
@[simp] theorem State.wr_porter : (s.wr a d).porter = s.porter := by simp [State.wr]
@[simp] theorem State.wr_coll : (s.wr a d).coll = s.coll := by simp [State.wr]
@[simp] theorem State.wr_det : (s.wr a d).det = s.det := by simp [State.wr]
@[simp] theorem State.wr_pkg : (s.wr a d).pkg = s.pkg := by simp [State.wr]
@[simp] theorem State.wr_free : (s.wr a d).free = s.free := by simp [State.wr]
@[simp] theorem State.wr_pending : (s.wr a d).pending = s.pending := by simp [State.wr]
@[simp] theorem State.wr_viaAlias : (s.wr a d).viaAlias = s.viaAlias := by simp [State.wr]
end wr

section wrNat
variable {s : State} {a n v : Nat}
@[simp] theorem State.wrNat_pins : (s.wrNat a n v).pins = s.pins := by simp [State.wrNat]
@[simp] theorem State.wrNat_apertureBase : (s.wrNat a n v).apertureBase = s.apertureBase := by simp [State.wrNat]
@[simp] theorem State.wrNat_staged : (s.wrNat a n v).staged = s.staged := by simp [State.wrNat]
@[simp] theorem State.wrNat_stagedLate : (s.wrNat a n v).stagedLate = s.stagedLate := by simp [State.wrNat]
@[simp] theorem State.wrNat_now : (s.wrNat a n v).now = s.now := by simp [State.wrNat]
@[simp] theorem State.wrNat_sram : (s.wrNat a n v).sram = s.sram := by simp [State.wrNat]
@[simp] theorem State.wrNat_chains : (s.wrNat a n v).chains = s.chains := by simp [State.wrNat]
@[simp] theorem State.wrNat_nextChain : (s.wrNat a n v).nextChain = s.nextChain := by simp [State.wrNat]
@[simp] theorem State.wrNat_memRetry : (s.wrNat a n v).memRetry = s.memRetry := by simp [State.wrNat]
@[simp] theorem State.wrNat_memDone : (s.wrNat a n v).memDone = s.memDone := by simp [State.wrNat]
@[simp] theorem State.wrNat_portsLeaving : (s.wrNat a n v).portsLeaving = s.portsLeaving := by simp [State.wrNat]
@[simp] theorem State.wrNat_readFailed : (s.wrNat a n v).readFailed = s.readFailed := by simp [State.wrNat]
@[simp] theorem State.wrNat_irq : (s.wrNat a n v).irq = s.irq := by simp [State.wrNat]
@[simp] theorem State.wrNat_evSeen : (s.wrNat a n v).evSeen = s.evSeen := by simp [State.wrNat]
@[simp] theorem State.wrNat_trace : (s.wrNat a n v).trace = s.trace := by simp [State.wrNat]
@[simp] theorem State.wrNat_bell : (s.wrNat a n v).bell = s.bell := by simp [State.wrNat]
@[simp] theorem State.wrNat_seqs : (s.wrNat a n v).seqs = s.seqs := by simp [State.wrNat]
@[simp] theorem State.wrNat_cal : (s.wrNat a n v).cal = s.cal := by simp [State.wrNat]
@[simp] theorem State.wrNat_mus : (s.wrNat a n v).mus = s.mus := by simp [State.wrNat]
@[simp] theorem State.wrNat_homeCal : (s.wrNat a n v).homeCal = s.homeCal := by simp [State.wrNat]
@[simp] theorem State.wrNat_homeMus : (s.wrNat a n v).homeMus = s.homeMus := by simp [State.wrNat]
@[simp] theorem State.wrNat_siteCal : (s.wrNat a n v).siteCal = s.siteCal := by simp [State.wrNat]
@[simp] theorem State.wrNat_siteMus : (s.wrNat a n v).siteMus = s.siteMus := by simp [State.wrNat]
@[simp] theorem State.wrNat_tok : (s.wrNat a n v).tok = s.tok := by simp [State.wrNat]
@[simp] theorem State.wrNat_tiles : (s.wrNat a n v).tiles = s.tiles := by simp [State.wrNat]
@[simp] theorem State.wrNat_gathers : (s.wrNat a n v).gathers = s.gathers := by simp [State.wrNat]
@[simp] theorem State.wrNat_pool : (s.wrNat a n v).pool = s.pool := by simp [State.wrNat]
@[simp] theorem State.wrNat_score : (s.wrNat a n v).score = s.score := by simp [State.wrNat]
@[simp] theorem State.wrNat_res : (s.wrNat a n v).res = s.res := by simp [State.wrNat]
@[simp] theorem State.wrNat_ctx : (s.wrNat a n v).ctx = s.ctx := by simp [State.wrNat]
@[simp] theorem State.wrNat_safe : (s.wrNat a n v).safe = s.safe := by simp [State.wrNat]
@[simp] theorem State.wrNat_start : (s.wrNat a n v).start = s.start := by simp [State.wrNat]
@[simp] theorem State.wrNat_links : (s.wrNat a n v).links = s.links := by simp [State.wrNat]
@[simp] theorem State.wrNat_e2e : (s.wrNat a n v).e2e = s.e2e := by simp [State.wrNat]
@[simp] theorem State.wrNat_disc : (s.wrNat a n v).disc = s.disc := by simp [State.wrNat]
@[simp] theorem State.wrNat_route : (s.wrNat a n v).route = s.route := by simp [State.wrNat]
@[simp] theorem State.wrNat_msem : (s.wrNat a n v).msem = s.msem := by simp [State.wrNat]
@[simp] theorem State.wrNat_porter : (s.wrNat a n v).porter = s.porter := by simp [State.wrNat]
@[simp] theorem State.wrNat_coll : (s.wrNat a n v).coll = s.coll := by simp [State.wrNat]
@[simp] theorem State.wrNat_det : (s.wrNat a n v).det = s.det := by simp [State.wrNat]
@[simp] theorem State.wrNat_pkg : (s.wrNat a n v).pkg = s.pkg := by simp [State.wrNat]
@[simp] theorem State.wrNat_free : (s.wrNat a n v).free = s.free := by simp [State.wrNat]
@[simp] theorem State.wrNat_pending : (s.wrNat a n v).pending = s.pending := by simp [State.wrNat]
@[simp] theorem State.wrNat_viaAlias : (s.wrNat a n v).viaAlias = s.viaAlias := by simp [State.wrNat]
end wrNat

section wrSram
variable {s : State} {a : Nat} {d : List Byte}
@[simp] theorem State.wrSram_pins : (s.wrSram a d).pins = s.pins := (rfl)
@[simp] theorem State.wrSram_apertureBase : (s.wrSram a d).apertureBase = s.apertureBase := (rfl)
@[simp] theorem State.wrSram_regs : (s.wrSram a d).regs = s.regs := (rfl)
@[simp] theorem State.wrSram_staged : (s.wrSram a d).staged = s.staged := (rfl)
@[simp] theorem State.wrSram_stagedLate : (s.wrSram a d).stagedLate = s.stagedLate := (rfl)
@[simp] theorem State.wrSram_now : (s.wrSram a d).now = s.now := (rfl)
@[simp] theorem State.wrSram_mem : (s.wrSram a d).mem = s.mem := (rfl)
@[simp] theorem State.wrSram_poison : (s.wrSram a d).poison = s.poison := (rfl)
@[simp] theorem State.wrSram_chains : (s.wrSram a d).chains = s.chains := (rfl)
@[simp] theorem State.wrSram_nextChain : (s.wrSram a d).nextChain = s.nextChain := (rfl)
@[simp] theorem State.wrSram_memRetry : (s.wrSram a d).memRetry = s.memRetry := (rfl)
@[simp] theorem State.wrSram_memDone : (s.wrSram a d).memDone = s.memDone := (rfl)
@[simp] theorem State.wrSram_portsLeaving : (s.wrSram a d).portsLeaving = s.portsLeaving := (rfl)
@[simp] theorem State.wrSram_readFailed : (s.wrSram a d).readFailed = s.readFailed := (rfl)
@[simp] theorem State.wrSram_irq : (s.wrSram a d).irq = s.irq := (rfl)
@[simp] theorem State.wrSram_evSeen : (s.wrSram a d).evSeen = s.evSeen := (rfl)
@[simp] theorem State.wrSram_tally : (s.wrSram a d).tally = s.tally := (rfl)
@[simp] theorem State.wrSram_trace : (s.wrSram a d).trace = s.trace := (rfl)
@[simp] theorem State.wrSram_bell : (s.wrSram a d).bell = s.bell := (rfl)
@[simp] theorem State.wrSram_seqs : (s.wrSram a d).seqs = s.seqs := (rfl)
@[simp] theorem State.wrSram_cal : (s.wrSram a d).cal = s.cal := (rfl)
@[simp] theorem State.wrSram_mus : (s.wrSram a d).mus = s.mus := (rfl)
@[simp] theorem State.wrSram_homeCal : (s.wrSram a d).homeCal = s.homeCal := (rfl)
@[simp] theorem State.wrSram_homeMus : (s.wrSram a d).homeMus = s.homeMus := (rfl)
@[simp] theorem State.wrSram_siteCal : (s.wrSram a d).siteCal = s.siteCal := (rfl)
@[simp] theorem State.wrSram_siteMus : (s.wrSram a d).siteMus = s.siteMus := (rfl)
@[simp] theorem State.wrSram_tok : (s.wrSram a d).tok = s.tok := (rfl)
@[simp] theorem State.wrSram_tiles : (s.wrSram a d).tiles = s.tiles := (rfl)
@[simp] theorem State.wrSram_gathers : (s.wrSram a d).gathers = s.gathers := (rfl)
@[simp] theorem State.wrSram_pool : (s.wrSram a d).pool = s.pool := (rfl)
@[simp] theorem State.wrSram_score : (s.wrSram a d).score = s.score := (rfl)
@[simp] theorem State.wrSram_res : (s.wrSram a d).res = s.res := (rfl)
@[simp] theorem State.wrSram_ctx : (s.wrSram a d).ctx = s.ctx := (rfl)
@[simp] theorem State.wrSram_safe : (s.wrSram a d).safe = s.safe := (rfl)
@[simp] theorem State.wrSram_start : (s.wrSram a d).start = s.start := (rfl)
@[simp] theorem State.wrSram_links : (s.wrSram a d).links = s.links := (rfl)
@[simp] theorem State.wrSram_e2e : (s.wrSram a d).e2e = s.e2e := (rfl)
@[simp] theorem State.wrSram_disc : (s.wrSram a d).disc = s.disc := (rfl)
@[simp] theorem State.wrSram_route : (s.wrSram a d).route = s.route := (rfl)
@[simp] theorem State.wrSram_msem : (s.wrSram a d).msem = s.msem := (rfl)
@[simp] theorem State.wrSram_porter : (s.wrSram a d).porter = s.porter := (rfl)
@[simp] theorem State.wrSram_coll : (s.wrSram a d).coll = s.coll := (rfl)
@[simp] theorem State.wrSram_det : (s.wrSram a d).det = s.det := (rfl)
@[simp] theorem State.wrSram_pkg : (s.wrSram a d).pkg = s.pkg := (rfl)
@[simp] theorem State.wrSram_free : (s.wrSram a d).free = s.free := (rfl)
@[simp] theorem State.wrSram_pending : (s.wrSram a d).pending = s.pending := (rfl)
@[simp] theorem State.wrSram_viaAlias : (s.wrSram a d).viaAlias = s.viaAlias := (rfl)
end wrSram

section send
variable {s : State} {p : Packet}
@[simp] theorem State.send_pins : (s.send p).pins = s.pins := (rfl)
@[simp] theorem State.send_apertureBase : (s.send p).apertureBase = s.apertureBase := (rfl)
@[simp] theorem State.send_regs : (s.send p).regs = s.regs := (rfl)
@[simp] theorem State.send_staged : (s.send p).staged = s.staged := (rfl)
@[simp] theorem State.send_stagedLate : (s.send p).stagedLate = s.stagedLate := (rfl)
@[simp] theorem State.send_now : (s.send p).now = s.now := (rfl)
@[simp] theorem State.send_mem : (s.send p).mem = s.mem := (rfl)
@[simp] theorem State.send_sram : (s.send p).sram = s.sram := (rfl)
@[simp] theorem State.send_poison : (s.send p).poison = s.poison := (rfl)
@[simp] theorem State.send_chains : (s.send p).chains = s.chains := (rfl)
@[simp] theorem State.send_nextChain : (s.send p).nextChain = s.nextChain := (rfl)
@[simp] theorem State.send_memRetry : (s.send p).memRetry = s.memRetry := (rfl)
@[simp] theorem State.send_memDone : (s.send p).memDone = s.memDone := (rfl)
@[simp] theorem State.send_portsLeaving : (s.send p).portsLeaving = s.portsLeaving := (rfl)
@[simp] theorem State.send_readFailed : (s.send p).readFailed = s.readFailed := (rfl)
@[simp] theorem State.send_irq : (s.send p).irq = s.irq := (rfl)
@[simp] theorem State.send_evSeen : (s.send p).evSeen = s.evSeen := (rfl)
@[simp] theorem State.send_tally : (s.send p).tally = s.tally := (rfl)
@[simp] theorem State.send_trace : (s.send p).trace = s.trace := (rfl)
@[simp] theorem State.send_bell : (s.send p).bell = s.bell := (rfl)
@[simp] theorem State.send_seqs : (s.send p).seqs = s.seqs := (rfl)
@[simp] theorem State.send_cal : (s.send p).cal = s.cal := (rfl)
@[simp] theorem State.send_mus : (s.send p).mus = s.mus := (rfl)
@[simp] theorem State.send_homeCal : (s.send p).homeCal = s.homeCal := (rfl)
@[simp] theorem State.send_homeMus : (s.send p).homeMus = s.homeMus := (rfl)
@[simp] theorem State.send_siteCal : (s.send p).siteCal = s.siteCal := (rfl)
@[simp] theorem State.send_siteMus : (s.send p).siteMus = s.siteMus := (rfl)
@[simp] theorem State.send_tok : (s.send p).tok = s.tok := (rfl)
@[simp] theorem State.send_tiles : (s.send p).tiles = s.tiles := (rfl)
@[simp] theorem State.send_gathers : (s.send p).gathers = s.gathers := (rfl)
@[simp] theorem State.send_pool : (s.send p).pool = s.pool := (rfl)
@[simp] theorem State.send_score : (s.send p).score = s.score := (rfl)
@[simp] theorem State.send_res : (s.send p).res = s.res := (rfl)
@[simp] theorem State.send_ctx : (s.send p).ctx = s.ctx := (rfl)
@[simp] theorem State.send_safe : (s.send p).safe = s.safe := (rfl)
@[simp] theorem State.send_start : (s.send p).start = s.start := (rfl)
@[simp] theorem State.send_links : (s.send p).links = s.links := (rfl)
@[simp] theorem State.send_e2e : (s.send p).e2e = s.e2e := (rfl)
@[simp] theorem State.send_disc : (s.send p).disc = s.disc := (rfl)
@[simp] theorem State.send_msem : (s.send p).msem = s.msem := (rfl)
@[simp] theorem State.send_porter : (s.send p).porter = s.porter := (rfl)
@[simp] theorem State.send_coll : (s.send p).coll = s.coll := (rfl)
@[simp] theorem State.send_det : (s.send p).det = s.det := (rfl)
@[simp] theorem State.send_pkg : (s.send p).pkg = s.pkg := (rfl)
@[simp] theorem State.send_free : (s.send p).free = s.free := (rfl)
@[simp] theorem State.send_pending : (s.send p).pending = s.pending := (rfl)
@[simp] theorem State.send_viaAlias : (s.send p).viaAlias = s.viaAlias := (rfl)
end send

/-! ## Fields of a number -/

theorem setBits_eq {v hi lo x : Nat} (h : lo ≤ hi) :
    setBits v hi lo x = (v / 2 ^ lo / 2 ^ (hi + 1 - lo) * 2 ^ (hi + 1 - lo) + x % 2 ^ (hi + 1 - lo)) * 2 ^ lo + v % 2 ^ lo := by
  simp only [setBits, bits, Nat.shiftRight_eq_div_pow]
  have h1 := Nat.div_add_mod v (2 ^ lo)
  have h2 := Nat.div_add_mod (v / 2 ^ lo) (2 ^ (hi + 1 - lo))
  generalize 2 ^ lo = p at *
  generalize 2 ^ (hi + 1 - lo) = q at *
  generalize v / p = a at *
  generalize v % p = c at *
  generalize a / q = b at *
  generalize a % q = d at *
  subst h1
  rw [← h2]
  have e1 : p * (q * b + d) = q * b * p + d * p := by
    rw [Nat.mul_add, ← Nat.mul_assoc, Nat.mul_comm p q, Nat.mul_comm p d, Nat.mul_right_comm]
  have e2 : (b * q + x % q) * p = q * b * p + x % q * p := by
    rw [Nat.add_mul, Nat.mul_comm b q]
  rw [e1, e2]
  omega

/-- A field just set reads as the value set. -/
@[simp] theorem bits_setBits_same {v hi lo x : Nat} (h : lo ≤ hi) :
    bits (setBits v hi lo x) hi lo = x % 2 ^ (hi + 1 - lo) := by
  rw [setBits_eq h]
  simp only [bits, Nat.shiftRight_eq_div_pow]
  rw [Nat.mul_comm _ (2 ^ lo), Nat.mul_add_div (Nat.two_pow_pos lo), Nat.div_eq_of_lt (Nat.mod_lt _ (Nat.two_pow_pos lo)),
    Nat.add_zero, Nat.mul_comm, Nat.mul_add_mod]
  exact Nat.mod_eq_of_lt (Nat.mod_lt _ (Nat.two_pow_pos _))

theorem testBit_setBits {v hi lo x i : Nat} (h : lo ≤ hi) :
    (setBits v hi lo x).testBit i = if i < lo then v.testBit i else if i ≤ hi then x.testBit (i - lo) else v.testBit i := by
  rw [setBits_eq h, Nat.mul_comm _ (2 ^ lo), Nat.testBit_two_pow_mul_add _ (Nat.mod_lt _ (Nat.two_pow_pos lo)),
    Nat.mul_comm _ (2 ^ (hi + 1 - lo)), Nat.testBit_two_pow_mul_add _ (Nat.mod_lt _ (Nat.two_pow_pos _))]
  by_cases h1 : i < lo
  · simp [h1, Nat.testBit_mod_two_pow]
  · by_cases h2 : i ≤ hi
    · simp [h1, h2, Nat.testBit_mod_two_pow, show i - lo < hi + 1 - lo by omega]
    · simp [h1, h2, show ¬ i - lo < hi + 1 - lo by omega, Nat.testBit_div_two_pow, show lo + (hi + 1 - lo + (i - lo - (hi + 1 - lo))) = i by omega,
        Nat.add_comm, Nat.add_left_comm]

theorem testBit_bits {v hi lo i : Nat} : (bits v hi lo).testBit i = (decide (i < hi + 1 - lo) && v.testBit (lo + i)) := by
  simp [bits, Nat.testBit_mod_two_pow, Nat.testBit_shiftRight]

/-- A field that does not meet the field set reads as before. -/
theorem bits_setBits_other {v hi lo x hi' lo' : Nat} (h : lo ≤ hi) (d : hi' < lo ∨ hi < lo') :
    bits (setBits v hi lo x) hi' lo' = bits v hi' lo' := by
  apply Nat.eq_of_testBit_eq
  intro i
  rw [testBit_bits, testBit_bits, testBit_setBits h]
  by_cases hi1 : i < hi' + 1 - lo'
  · simp only [hi1, decide_true, Bool.true_and]
    split
    · rfl
    · split
      · omega
      · rfl
  · simp [hi1]

theorem setBits_lt {v hi lo x : Nat} (h : lo ≤ hi) (hh : hi < 64) (hv : v < 2 ^ 64) : setBits v hi lo x < 2 ^ 64 := by
  apply Nat.lt_pow_two_of_testBit
  intro i hi'
  rw [testBit_setBits h, if_neg (by omega), if_neg (by omega)]
  exact Nat.testBit_lt_two_pow (Nat.lt_of_lt_of_le hv (Nat.pow_le_pow_right (by decide) hi'))

theorem bits_lt (v hi lo : Nat) : bits v hi lo < 2 ^ (hi + 1 - lo) := Nat.mod_lt _ (Nat.two_pow_pos _)

theorem bits_full {v : Nat} (h : v < 2 ^ 64) : bits v 63 0 = v := by
  show (v >>> 0) % 2 ^ 64 = v
  rw [Nat.shiftRight_zero]
  exact Nat.mod_eq_of_lt h

/-! ## Registers -/

section regs
variable {s : State} {r k : Nat} {v : W64}

@[simp] theorem State.setReg_regs : (s.setReg r v).regs = tSet resetOf r v s.regs := (rfl)
@[simp] theorem State.lifeAdd_eq {j n : Nat} :
    s.lifeAdd j n = s.setReg (Reg.TALLY_LIFE j) (s.reg (Reg.TALLY_LIFE j) + BitVec.ofNat 64 n) := (rfl)

theorem State.reg_of_regs {s t : State} (h : t.regs = s.regs) (r : Nat) : t.reg r = s.reg r := by
  simp only [State.reg, h]

theorem State.fld_of_reg {s t : State} {r : Nat} (h : t.reg r = s.reg r) (hi lo : Nat) : t.fld r hi lo = s.fld r hi lo := by
  simp only [State.fld, h]

theorem State.regs_setReg_wf (h : tWf resetOf s.regs = true) : tWf resetOf (s.setReg r v).regs = true := tWf_tSet h

theorem State.regs_setFld_wf {hi lo x : Nat} (h : tWf resetOf s.regs = true) :
    tWf resetOf (s.setFld r hi lo x).regs = true := tWf_tSet h

/-- A register just written holds what was written; every other register holds what it held. -/
theorem State.reg_setReg (h : tWf resetOf s.regs = true) : (s.setReg r v).reg k = if k = r then v else s.reg k :=
  tGet_tSet_cases h

theorem State.reg_setReg_same (h : tWf resetOf s.regs = true) : (s.setReg r v).reg r = v := tGet_tSet_same h

theorem State.reg_setReg_other (h : tWf resetOf s.regs = true) (hk : k ≠ r) : (s.setReg r v).reg k = s.reg k :=
  tGet_tSet_other h hk

theorem State.reg_setFld_other {hi lo x : Nat} (h : tWf resetOf s.regs = true) (hk : k ≠ r) :
    (s.setFld r hi lo x).reg k = s.reg k := tGet_tSet_other h hk

theorem State.reg_setFld_same {hi lo x : Nat} (h : tWf resetOf s.regs = true) :
    (s.setFld r hi lo x).reg r = BitVec.ofNat 64 (setBits (s.reg r).toNat hi lo x) := tGet_tSet_same h

theorem State.toNat_setFld_same {hi lo x : Nat} (h : tWf resetOf s.regs = true) (hl : lo ≤ hi) (hh : hi < 64) :
    ((s.setFld r hi lo x).reg r).toNat = setBits (s.reg r).toNat hi lo x := by
  rw [State.reg_setFld_same h, BitVec.toNat_ofNat, Nat.mod_eq_of_lt (setBits_lt hl hh (s.reg r).isLt)]

/-- A field just written holds the low bits of what was written. -/
theorem State.fld_setFld_same {hi lo x : Nat} (h : tWf resetOf s.regs = true) (hl : lo ≤ hi) (hh : hi < 64) :
    (s.setFld r hi lo x).fld r hi lo = x % 2 ^ (hi + 1 - lo) := by
  rw [State.fld, State.toNat_setFld_same h hl hh, bits_setBits_same hl]

/-- A field of the register written that does not meet the field written holds what it held. -/
theorem State.fld_setFld_apart {hi lo x hi' lo' : Nat} (h : tWf resetOf s.regs = true) (hl : lo ≤ hi) (hh : hi < 64)
    (d : hi' < lo ∨ hi < lo') : (s.setFld r hi lo x).fld r hi' lo' = s.fld r hi' lo' := by
  rw [State.fld, State.toNat_setFld_same h hl hh, bits_setBits_other hl d, State.fld]

theorem State.fld_setFld_other {hi lo x hi' lo' : Nat} (h : tWf resetOf s.regs = true) (hk : k ≠ r) :
    (s.setFld r hi lo x).fld k hi' lo' = s.fld k hi' lo' := by
  rw [State.fld, State.reg_setFld_other h hk, State.fld]

theorem State.fld_setReg_other {hi' lo' : Nat} (h : tWf resetOf s.regs = true) (hk : k ≠ r) :
    (s.setReg r v).fld k hi' lo' = s.fld k hi' lo' := by
  rw [State.fld, State.reg_setReg_other h hk, State.fld]

theorem State.fld_setReg_same {hi' lo' : Nat} (h : tWf resetOf s.regs = true) :
    (s.setReg r v).fld r hi' lo' = bits v.toNat hi' lo' := by
  rw [State.fld, State.reg_setReg_same h]

end regs

/-! ## Host memory and stall SRAM -/

section mem
variable {s : State} {a k : Nat} {d : List Byte}

@[simp] theorem State.wr_mem : (s.wr a d).mem = tSetRun byteZero (a % memSpace) d s.mem := by simp [State.wr]
@[simp] theorem State.wrSram_sram : (s.wrSram a d).sram = tSetRun byteZero a d s.sram := (rfl)

theorem State.wr_regs : (s.wr a d).regs
    = (s.setReg (Reg.TALLY_LIFE 1) (s.reg (Reg.TALLY_LIFE 1) + BitVec.ofNat 64 (units256 d.length))).regs := by
  simp [State.wr, State.memCount, State.lifeAdd, State.setReg, State.reg]

/-- A write of memory changes no register but the lifetime tally of bytes written. -/
theorem State.wr_regsBut (h : tWf resetOf s.regs = true) : s.RegsBut [Reg.TALLY_LIFE 1] (s.wr a d) := by
  intro r hr
  rw [State.reg_of_regs State.wr_regs]
  exact State.reg_setReg_other h (by simpa using hr)

/-- A byte inside a run just written reads as written. -/
theorem State.rdByte_wr_same {i : Nat} (h : tWf byteZero s.mem = true) (hi : i < d.length) (ha : a + d.length ≤ memSpace) :
    (s.wr a d).rdByte (a + i) = d[i] := by
  rw [State.rdByte, State.wr_mem, Nat.mod_eq_of_lt (by omega : a + i < memSpace), Nat.mod_eq_of_lt (by omega : a < memSpace)]
  exact tGet_tSetRun_same h hi

/-- Every byte outside a run just written reads as before. -/
theorem State.wr_memoryBut (h : tWf byteZero s.mem = true) (ha : a < memSpace) : s.MemoryBut a d.length (s.wr a d) := by
  intro b hb hout
  rw [State.rdByte, State.wr_mem, Nat.mod_eq_of_lt hb, Nat.mod_eq_of_lt ha, tGet_tSetRun_other h hout, State.rdByte,
    Nat.mod_eq_of_lt hb]

theorem State.wrSram_same {i : Nat} (h : tWf byteZero s.sram = true) (hi : i < d.length) :
    tGet byteZero (a + i) (s.wrSram a d).sram = d[i] := tGet_tSetRun_same h hi

theorem State.wrSram_other (h : tWf byteZero s.sram = true) (ho : k < a ∨ a + d.length ≤ k) :
    tGet byteZero k (s.wrSram a d).sram = tGet byteZero k s.sram := tGet_tSetRun_other h ho

end mem

/-! ## Frames -/

section frames
variable {s t u : State} {l l' : List Nat}

theorem State.RegsBut.refl : s.RegsBut l s := fun _ _ => rfl

theorem State.RegsBut.trans {k : List Nat} (h : s.RegsBut l t) (h' : t.RegsBut l' u) (hl : ∀ r ∈ l, r ∈ k)
    (hl' : ∀ r ∈ l', r ∈ k) : s.RegsBut k u :=
  fun r hr => (h' r fun x => hr (hl' r x)).trans (h r fun x => hr (hl r x))

theorem State.RegsBut.mono (h : s.RegsBut l t) (hl : ∀ r ∈ l, r ∈ l') : s.RegsBut l' t := fun r hr => h r fun x => hr (hl r x)

theorem State.RegsBut.of_regs (h : t.regs = s.regs) : s.RegsBut l t := fun r _ => State.reg_of_regs h r

theorem State.setReg_regsBut {r : Nat} {v : W64} (h : tWf resetOf s.regs = true) (hr : r ∈ l) : s.RegsBut l (s.setReg r v) :=
  fun k hk => State.reg_setReg_other h fun e => hk (e ▸ hr)

theorem State.setFld_regsBut {r hi lo x : Nat} (h : tWf resetOf s.regs = true) (hr : r ∈ l) :
    s.RegsBut l (s.setFld r hi lo x) := fun k hk => State.reg_setFld_other h fun e => hk (e ▸ hr)

theorem State.SameMemory.of_mem (h : t.mem = s.mem) : s.SameMemory t := fun a => by simp only [State.rdByte, h]

theorem State.MemoryBut.of_mem {lo n : Nat} (h : t.mem = s.mem) : s.MemoryBut lo n t := fun a _ _ => by
  simp only [State.rdByte, h]

theorem State.MemoryBut.trans {lo n : Nat} (h : s.MemoryBut lo n t) (h' : t.MemoryBut lo n u) : s.MemoryBut lo n u :=
  fun a ha ho => (h' a ha ho).trans (h a ha ho)

theorem State.SameSram.of_sram (h : t.sram = s.sram) : s.SameSram t := fun a => by simp only [h]

end frames

/-! ## The gate of a register write -/

/-- A write that passes every check has its effect. -/
theorem State.gated_of_accepts {s : State} {r : Nat} {v : W64} {ok : State → State} (h : s.Accepts r v) :
    s.gated r v ok = ok s := by
  obtain ⟨h1, h2, h3, h4⟩ := h
  have e1 : (!s.bound && !servedUnbound (r / 0x1000)) = false := by
    rcases h1 with h1 | h1 <;> simp [h1]
  have e3 : (regSpec r).isNone = false := by cases hx : regSpec r <;> simp_all
  rw [State.gated, e1, h2, e3, h4]
  rfl

end Sys2Proof.Machine
end

