-- ==== Sys2Proof/Laws/Record.lean ====
section
/-! SUPPORT. What recording a code does and what it leaves alone (R503, R519, R521): one lemma for each operation that
`State.record` is made of, and the two that every later proof cites, `State.record_recorded` and `State.record_frame`. -/
namespace Sys2Proof.Machine

variable {s t u : State}

theorem State.LogOnly.refl : s.LogOnly s := rfl

theorem State.LogOnly.trans (h : s.LogOnly t) (h' : t.LogOnly u) : s.LogOnly u := by
  unfold State.LogOnly at *
  exact h'.trans (by rw [h])

theorem State.setReg_logOnly {r : Nat} {v : W64} : s.LogOnly (s.setReg r v) := rfl
theorem State.setFld_logOnly {r hi lo x : Nat} : s.LogOnly (s.setFld r hi lo x) := rfl
theorem State.tallyAdd_logOnly {pg i n : Nat} : s.LogOnly (s.tallyAdd pg i n) := by
  rw [State.tallyAdd_eq]
  rfl
theorem State.wr_logOnly {a : Nat} {d : List Byte} : s.LogOnly (s.wr a d) := by
  rw [State.wr_eq]
  rfl

/-! ## Interrupts (R521) -/

theorem State.pend_logOnly {v : Nat} : s.LogOnly (s.pend v) := by
  unfold State.pend
  split <;> rfl

theorem State.pend_mem {v : Nat} : (s.pend v).mem = s.mem := by
  unfold State.pend
  split <;> rfl

theorem State.pend_wf {v : Nat} (h : tWf resetOf s.regs = true) : tWf resetOf (s.pend v).regs = true := by
  unfold State.pend
  split
  · exact h
  · exact State.regs_setFld_wf h

theorem State.pend_regsBut {v : Nat} (h : tWf resetOf s.regs = true) : s.RegsBut [Reg.IRQ_PEND] (s.pend v) := by
  unfold State.pend
  split
  · exact State.RegsBut.refl
  · exact State.setFld_regsBut h (by simp)

theorem State.setRaw_logOnly {pg i : Nat} : s.LogOnly (s.setRaw pg i) := by
  simp only [State.setRaw]
  split
  · exact State.LogOnly.trans State.setFld_logOnly State.pend_logOnly
  · exact State.setFld_logOnly

theorem State.setRaw_mem {pg i : Nat} : (s.setRaw pg i).mem = s.mem := by
  simp only [State.setRaw]
  split
  · exact State.pend_mem
  · rfl

theorem State.setRaw_wf {pg i : Nat} (h : tWf resetOf s.regs = true) : tWf resetOf (s.setRaw pg i).regs = true := by
  simp only [State.setRaw]
  split
  · exact State.pend_wf (State.regs_setFld_wf h)
  · exact State.regs_setFld_wf h

/-- Setting a bit of PAGE_IRQ_RAW changes that register and IRQ_PEND alone. -/
theorem State.setRaw_regsBut {pg i : Nat} (h : tWf resetOf s.regs = true) :
    s.RegsBut [Reg.PAGE_IRQ_RAW pg, Reg.IRQ_PEND] (s.setRaw pg i) := by
  simp only [State.setRaw]
  split
  · exact (State.setFld_regsBut (l := [Reg.PAGE_IRQ_RAW pg]) h (by simp)).trans (State.pend_regsBut (State.regs_setFld_wf h)) (by simp) (by simp)
  · exact State.setFld_regsBut h (by simp)

/-- A page's PAGE_IRQ_RAW is not IRQ_PEND: header registers lie below offset 0x100 (R518). -/
theorem headerReg_ne {pg off r : Nat} (ho : off < 0x100) (hr : 0x100 ≤ r % 0x1000) : pg * 0x1000 + off ≠ r := by
  omega

theorem State.setRaw_bit {pg i : Nat} (h : tWf resetOf s.regs = true) (hi : i < 64) :
    (s.setRaw pg i).bit (Reg.PAGE_IRQ_RAW pg) i = true := by
  have e : (s.setFld (Reg.PAGE_IRQ_RAW pg) i i 1).bit (Reg.PAGE_IRQ_RAW pg) i = true := by
    rw [State.bit, State.fld_setFld_same h (Nat.le_refl i) hi]
    simp [show i + 1 - i = 1 by omega]
  simp only [State.setRaw]
  split
  · rw [State.bit, State.fld, State.pend_regsBut (State.regs_setFld_wf h)]
    · exact e
    · simp only [List.mem_singleton]
      exact headerReg_ne (by decide) (by decide)
  · exact e

/-! ## The event log (R503) -/

theorem State.startChain_bytes {a : Nat} {d : List Byte} {w : List WStep} :
    s.startChain (.bytes a d :: w)
      = { s.wr a d with chains := tPut s.nextChain w s.chains, nextChain := s.nextChain + 1 } := by
  simp [State.startChain, State.runChain]

theorem State.evLost_logOnly : s.LogOnly s.evLost := rfl

theorem State.evLost_regsBut (h : tWf resetOf s.regs = true) : s.RegsBut [Reg.EVLOG_STAT] s.evLost :=
  State.setReg_regsBut h (by simp)

theorem State.evBody_length {now bell code page flags count : Nat} {detail : W64} :
    (evBody now bell code page flags count detail).length = 56 := rfl

theorem State.evAddr_le (q : Nat) : s.evAddr q + 64 ≤ memSpace := by
  have h := bits_lt (s.reg Reg.EVLOG_RING).toNat 51 18
  simp only [State.evAddr, State.fld, memSpace]
  omega

/-- An ordered chain of two writes issues the first one now (R32). -/
theorem State.startChain_pair {a : Nat} {d : List Byte} {w : List WStep} (hr : tWf resetOf s.regs = true)
    (hm : tWf byteZero s.mem = true) (ha : a < memSpace) :
    s.RegsBut [Reg.TALLY_LIFE 1] (s.startChain (.bytes a d :: w)) ∧ s.LogOnly (s.startChain (.bytes a d :: w))
      ∧ tWf resetOf (s.startChain (.bytes a d :: w)).regs = true ∧ s.MemoryBut a d.length (s.startChain (.bytes a d :: w)) := by
  rw [State.startChain_bytes]
  refine ⟨State.wr_regsBut hr, State.wr_logOnly.trans rfl, ?_, State.wr_memoryBut hm ha⟩
  show tWf resetOf (s.wr a d).regs = true
  rw [State.wr_regs]
  exact tWf_tSet hr

theorem State.evAddr_of_regs (h : t.reg Reg.EVLOG_RING = s.reg Reg.EVLOG_RING) (q : Nat) : t.evAddr q = s.evAddr q := by
  simp only [State.evAddr, State.fld, h]

theorem State.evEntry {q : Nat} {d w : List Byte} (hr : tWf resetOf s.regs = true) (hm : tWf byteZero s.mem = true)
    (hd : d.length = 56) :
    s.RegsBut [Reg.TALLY_LIFE 1] (s.startChain [.bytes (s.evAddr q + 8) d, .bytes (s.evAddr q) w])
      ∧ s.LogOnly (s.startChain [.bytes (s.evAddr q + 8) d, .bytes (s.evAddr q) w])
      ∧ tWf resetOf (s.startChain [.bytes (s.evAddr q + 8) d, .bytes (s.evAddr q) w]).regs = true
      ∧ s.MemoryBut (s.evAddr q) 64 (s.startChain [.bytes (s.evAddr q + 8) d, .bytes (s.evAddr q) w]) := by
  have hb := State.evAddr_le (s := s) q
  have h := State.startChain_pair (a := s.evAddr q + 8) (d := d) (w := [.bytes (s.evAddr q) w]) hr hm (by omega)
  exact ⟨h.1, h.2.1, h.2.2.1, fun b h1 h2 => h.2.2.2 b h1 (by omega)⟩

/-- What an event entry changes: the log's place, the bytes of the entry, and what a write of memory counts (R503). -/
def State.EvSpec (s t : State) : Prop :=
  s.RegsBut [Reg.EVLOG_NEXT, Reg.EVLOG_STAT, Reg.TALLY_LIFE 1] t ∧ s.LogOnly t ∧ tWf resetOf t.regs = true
    ∧ s.MemoryBut (s.evAddr (s.regNat Reg.EVLOG_NEXT)) 64 t

theorem State.evEntry_spec {q : Nat} {s1 s2 : State} {d w : List Byte} (h1 : s.RegsBut [Reg.EVLOG_NEXT] s1)
    (l1 : s.LogOnly s1) (m1 : s1.mem = s.mem) (h2 : s1.RegsBut [Reg.EVLOG_STAT] s2) (l2 : s1.LogOnly s2) (m2 : s2.mem = s1.mem)
    (w2 : tWf resetOf s2.regs = true) (hm : tWf byteZero s.mem = true) (hd : d.length = 56)
    (hq : q = s.regNat Reg.EVLOG_NEXT) :
    s.EvSpec (s2.startChain [.bytes (s2.evAddr q + 8) d, .bytes (s2.evAddr q) w]) := by
  have e : s2.evAddr q = s.evAddr q := State.evAddr_of_regs ((h2 _ (by decide)).trans (h1 _ (by decide))) q
  have h := State.evEntry (q := q) (d := d) (w := w) w2 (by rw [m2, m1]; exact hm) hd
  refine ⟨?_, l1.trans (l2.trans h.2.1), h.2.2.1, ?_⟩
  · exact h1.trans (h2.trans (k := [Reg.EVLOG_STAT, Reg.TALLY_LIFE 1]) h.1 (by simp) (by simp)) (by simp) (by simp)
  · subst hq
    intro b hb1 hb2
    rw [h.2.2.2 b hb1 (by rw [e]; exact hb2)]
    simp only [State.rdByte, m2, m1]

theorem State.evWrite_spec {kind code page count : Nat} {pkg : Bool} {detail : W64} (hr : tWf resetOf s.regs = true)
    (hm : tWf byteZero s.mem = true) : s.EvSpec (s.evWrite kind code page pkg count detail) := by
  have hw := State.regs_setReg_wf (r := Reg.EVLOG_NEXT) (v := BitVec.ofNat 64 (s.regNat Reg.EVLOG_NEXT + 1)) hr
  have h1 : s.RegsBut [Reg.EVLOG_NEXT] (s.setReg Reg.EVLOG_NEXT (BitVec.ofNat 64 (s.regNat Reg.EVLOG_NEXT + 1))) :=
    State.setReg_regsBut hr (by simp)
  have l1 : s.LogOnly (s.setReg Reg.EVLOG_NEXT (BitVec.ofNat 64 (s.regNat Reg.EVLOG_NEXT + 1))) := State.setReg_logOnly
  have m1 : (s.setReg Reg.EVLOG_NEXT (BitVec.ofNat 64 (s.regNat Reg.EVLOG_NEXT + 1))).mem = s.mem := State.setReg_mem
  simp only [State.evWrite]
  generalize s.setReg Reg.EVLOG_NEXT (BitVec.ofNat 64 (s.regNat Reg.EVLOG_NEXT + 1)) = s1 at *
  split
  · exact ⟨h1.trans (State.evLost_regsBut hw) (by simp) (by simp), l1.trans State.evLost_logOnly, State.regs_setReg_wf hw,
      State.MemoryBut.of_mem m1⟩
  · split
    · exact State.evEntry_spec h1 l1 m1 (State.evLost_regsBut hw) State.evLost_logOnly rfl
        (State.regs_setReg_wf hw) hm State.evBody_length rfl
    · exact State.evEntry_spec h1 l1 m1 State.RegsBut.refl State.LogOnly.refl rfl hw hm State.evBody_length rfl

theorem State.EvSpec.of_regs (h : s.EvSpec t) (hr : u.regs = t.regs) (hm : u.mem = t.mem) (hl : t.LogOnly u) : s.EvSpec u :=
  ⟨fun r hx => (State.reg_of_regs hr r).trans (h.1 r hx), h.2.1.trans hl, hr ▸ h.2.2.1, fun a h1 h2 => by
    rw [← h.2.2.2 a h1 h2]; simp only [State.rdByte, hm]⟩

theorem State.EvSpec.refl (hr : tWf resetOf s.regs = true) : s.EvSpec s :=
  ⟨State.RegsBut.refl, State.LogOnly.refl, hr, State.MemoryBut.of_mem rfl⟩

theorem State.evCode_spec {pg code : Nat} {detail : W64} (hr : tWf resetOf s.regs = true) (hm : tWf byteZero s.mem = true) :
    s.EvSpec (s.evCode pg code detail) := by
  simp only [State.evCode]
  split
  · exact (State.EvSpec.refl hr).of_regs rfl rfl rfl
  · exact (State.evWrite_spec hr hm).of_regs rfl rfl rfl

/-! ## The tally roll (R500) -/

/-- Every part of the state but tallies and the trace FIFO is in `t` as in `s`. -/
def State.TraceOnly (s t : State) : Prop := t = { s with tally := t.tally, trace := t.trace }

theorem State.TraceOnly.trans (h : s.TraceOnly t) (h' : t.TraceOnly u) : s.TraceOnly u := by
  unfold State.TraceOnly at *
  exact h'.trans (by rw [h])

theorem State.tallyAdd_traceOnly {pg i n : Nat} : s.TraceOnly (s.tallyAdd pg i n) := by
  rw [State.tallyAdd_eq]
  rfl

theorem State.setTrace_traceOnly {x : TraceSt} : s.TraceOnly { s with trace := x } := rfl

theorem State.traceGap_traceOnly : s.TraceOnly s.traceGap := by
  simp only [State.traceGap]
  split
  · exact rfl
  · exact State.setTrace_traceOnly.trans State.tallyAdd_traceOnly

/-- An emission changes the trace FIFO and tallies alone. -/
theorem State.emit_traceOnly {kind : Nat} {p : List W64} : s.TraceOnly (s.emit kind p) := by
  have hg := s.traceGap_traceOnly
  simp only [State.emit]
  generalize s.traceGap = u at *
  have ha : ∀ x i n, s.TraceOnly (State.tallyAdd Pg.TRACE i n { u with trace := x }) := fun x i n =>
    (hg.trans State.setTrace_traceOnly).trans State.tallyAdd_traceOnly
  split
  · exact rfl
  · split
    · exact ha _ _ _
    · split
      · exact (ha _ _ _).trans State.tallyAdd_traceOnly
      · exact ha _ _ _

theorem State.emit_spec {kind : Nat} {p : List W64} :
    (s.emit kind p).regs = s.regs ∧ (s.emit kind p).mem = s.mem ∧ s.LogOnly (s.emit kind p) := by
  have h : s.TraceOnly (s.emit kind p) := State.emit_traceOnly
  unfold State.TraceOnly at h
  generalize s.emit kind p = t at h
  rw [h]
  exact ⟨rfl, rfl, rfl⟩

/-! ## Recording (R519) -/

theorem State.takesFirst_iff {pg code : Nat} : s.takesFirst pg code = true ↔
    s.fld (Reg.PAGE_ERR_FIRST pg) 7 0 = 0 ∨ (pg ∈ s.bell.cycle ∧ code < s.fld (Reg.PAGE_ERR_FIRST pg) 7 0) := by
  simp [State.takesFirst]

/-- The part of recording that a page's header shows. -/
def State.recHead (pg code detail : Nat) (s : State) : State :=
  let s := if s.takesFirst pg code then
      s.setReg (Reg.PAGE_ERR_FIRST pg) (BitVec.ofNat 64 (code + (s.bellNo % 2 ^ 24) * 2 ^ 8 + detail % 2 ^ 32 * 2 ^ 32)) else s
  let s := s.setReg (Reg.PAGE_ERR_COUNT pg) (BitVec.ofNat 64 (min (s.regNat (Reg.PAGE_ERR_COUNT pg) + 1) (2 ^ 32 - 1)))
  s.setRaw pg 0

/-- The part of recording that the event log and the tally roll show. -/
def State.recLog (pg code detail : Nat) (s : State) : State :=
  if !s.sendsVector pg then s
  else
    (s.evCode pg code (BitVec.ofNat 64 (detail % 2 ^ 32))).emit 0x07
      [BitVec.ofNat 64 (code + (pg % 0x100) * 2 ^ 8 + b2n (0x100 ≤ pg) * 2 ^ 16 + detail % 2 ^ 32 * 2 ^ 32)]

theorem State.recLog_spec {pg code detail : Nat} (hr : tWf resetOf s.regs = true) (hm : tWf byteZero s.mem = true) :
    s.EvSpec (s.recLog pg code detail) := by
  unfold State.recLog
  split
  · exact State.EvSpec.refl hr
  · exact (State.evCode_spec hr hm).of_regs State.emit_spec.1 State.emit_spec.2.1 State.emit_spec.2.2

theorem recordRegs_apart (pg : Nat) : Reg.PAGE_ERR_FIRST pg ≠ Reg.PAGE_ERR_COUNT pg
    ∧ Reg.PAGE_IRQ_RAW pg ≠ Reg.PAGE_ERR_COUNT pg ∧ Reg.PAGE_IRQ_RAW pg ≠ Reg.PAGE_ERR_FIRST pg
    ∧ Reg.IRQ_PEND ≠ Reg.PAGE_ERR_COUNT pg ∧ Reg.IRQ_PEND ≠ Reg.PAGE_ERR_FIRST pg := by
  simp only [Reg.PAGE_ERR_FIRST, Reg.PAGE_ERR_COUNT, Reg.PAGE_IRQ_RAW, Reg.IRQ_PEND]
  omega

/-- What the header part of recording does, after PAGE_ERR_FIRST. -/
theorem State.recHead_rest {pg code detail : Nat} {s1 : State} {c : W64}
    (b1 : s.RegsBut [Reg.PAGE_ERR_FIRST pg] s1) (l1 : s.LogOnly s1)
    (w1 : tWf resetOf s1.regs = true) (m1 : s1.mem = s.mem)
    (f1 : s1.reg (Reg.PAGE_ERR_FIRST pg) = (if s.fld (Reg.PAGE_ERR_FIRST pg) 7 0 = 0 ∨ (pg ∈ s.bell.cycle ∧ code < s.fld (Reg.PAGE_ERR_FIRST pg) 7 0) then
      BitVec.ofNat 64 (code + (s.bellNo % 2 ^ 24) * 2 ^ 8 + detail % 2 ^ 32 * 2 ^ 32) else s.reg (Reg.PAGE_ERR_FIRST pg)))
    (hc : c = BitVec.ofNat 64 (min (s1.regNat (Reg.PAGE_ERR_COUNT pg) + 1) (2 ^ 32 - 1))) :
    s.RegsBut [Reg.PAGE_ERR_FIRST pg, Reg.PAGE_ERR_COUNT pg, Reg.PAGE_IRQ_RAW pg, Reg.IRQ_PEND]
        ((s1.setReg (Reg.PAGE_ERR_COUNT pg) c).setRaw pg 0)
      ∧ s.LogOnly ((s1.setReg (Reg.PAGE_ERR_COUNT pg) c).setRaw pg 0)
      ∧ tWf resetOf ((s1.setReg (Reg.PAGE_ERR_COUNT pg) c).setRaw pg 0).regs = true
      ∧ ((s1.setReg (Reg.PAGE_ERR_COUNT pg) c).setRaw pg 0).mem = s.mem
      ∧ State.Recorded pg code detail s ((s1.setReg (Reg.PAGE_ERR_COUNT pg) c).setRaw pg 0) := by
  have hne := recordRegs_apart pg
  have w2 := State.regs_setReg_wf (r := Reg.PAGE_ERR_COUNT pg) (v := c) w1
  have b2 : s1.RegsBut [Reg.PAGE_ERR_COUNT pg] (s1.setReg (Reg.PAGE_ERR_COUNT pg) c) := State.setReg_regsBut w1 (by simp)
  have l2 : s1.LogOnly (s1.setReg (Reg.PAGE_ERR_COUNT pg) c) := State.setReg_logOnly
  have m2 : (s1.setReg (Reg.PAGE_ERR_COUNT pg) c).mem = s1.mem := State.setReg_mem
  have e2 : (s1.setReg (Reg.PAGE_ERR_COUNT pg) c).reg (Reg.PAGE_ERR_COUNT pg) = c := State.reg_setReg_same w1
  generalize s1.setReg (Reg.PAGE_ERR_COUNT pg) c = s2 at *
  have b3 := State.setRaw_regsBut (pg := pg) (i := 0) w2
  refine ⟨?_, l1.trans (l2.trans State.setRaw_logOnly), State.setRaw_wf w2, State.setRaw_mem.trans (m2.trans m1), ?_, ?_, ?_⟩
  · exact b1.trans (b2.trans (k := [Reg.PAGE_ERR_COUNT pg, Reg.PAGE_IRQ_RAW pg, Reg.IRQ_PEND]) b3 (by simp) (by simp))
      (by simp) (by simp)
  · rw [b3 _ (by simp only [List.mem_cons, List.not_mem_nil, or_false]; exact fun h => h.elim hne.2.2.1.symm hne.2.2.2.2.symm),
      b2 _ (by simpa using hne.1), f1]
  · rw [b3 _ (by simp only [List.mem_cons, List.not_mem_nil, or_false]; exact fun h => h.elim hne.2.1.symm hne.2.2.2.1.symm),
      e2, hc, State.regNat, b1 _ (by simpa using hne.1.symm), State.regNat]
  · exact State.setRaw_bit w2 (by decide)

theorem State.recHead_spec {pg code detail : Nat} (hr : tWf resetOf s.regs = true) :
    s.RegsBut [Reg.PAGE_ERR_FIRST pg, Reg.PAGE_ERR_COUNT pg, Reg.PAGE_IRQ_RAW pg, Reg.IRQ_PEND] (s.recHead pg code detail)
      ∧ s.LogOnly (s.recHead pg code detail) ∧ tWf resetOf (s.recHead pg code detail).regs = true
      ∧ (s.recHead pg code detail).mem = s.mem ∧ State.Recorded pg code detail s (s.recHead pg code detail) := by
  unfold State.recHead
  extract_lets s1 s2
  have h : s.RegsBut [Reg.PAGE_ERR_FIRST pg] s1 ∧ s.LogOnly s1 ∧ tWf resetOf s1.regs = true ∧ s1.mem = s.mem ∧
      s1.reg (Reg.PAGE_ERR_FIRST pg) = (if s.fld (Reg.PAGE_ERR_FIRST pg) 7 0 = 0 ∨ (pg ∈ s.bell.cycle ∧ code < s.fld (Reg.PAGE_ERR_FIRST pg) 7 0) then
      BitVec.ofNat 64 (code + (s.bellNo % 2 ^ 24) * 2 ^ 8 + detail % 2 ^ 32 * 2 ^ 32) else s.reg (Reg.PAGE_ERR_FIRST pg)) := by
    by_cases h0 : s.fld (Reg.PAGE_ERR_FIRST pg) 7 0 = 0 ∨ (pg ∈ s.bell.cycle ∧ code < s.fld (Reg.PAGE_ERR_FIRST pg) 7 0)
    · simp only [s1, if_pos h0, if_pos (State.takesFirst_iff.2 h0)]
      exact ⟨State.setReg_regsBut hr (by simp), State.setReg_logOnly, State.regs_setReg_wf hr, State.setReg_mem,
        State.reg_setReg_same hr⟩
    · simp only [s1, if_neg h0, if_neg (fun h => h0 (State.takesFirst_iff.1 h))]
      exact ⟨State.RegsBut.refl, State.LogOnly.refl, hr, trivial, trivial⟩
  simp only [s2]
  clear s2
  clear_value s1
  exact State.recHead_rest h.1 h.2.1 h.2.2.1 h.2.2.2.1 h.2.2.2.2 rfl

/-- What recording is, over any state that the header part has reached. -/
theorem State.record_both {pg code detail : Nat} (h : s.Inv) :
    State.Recorded pg code detail s (s.record pg code detail) ∧ State.RecordFrame pg s (s.record pg code detail) := by
  have key : ∀ s3 : State,
      s.RegsBut [Reg.PAGE_ERR_FIRST pg, Reg.PAGE_ERR_COUNT pg, Reg.PAGE_IRQ_RAW pg, Reg.IRQ_PEND] s3 → s.LogOnly s3 →
      tWf resetOf s3.regs = true → s3.mem = s.mem → State.Recorded pg code detail s s3 →
      State.Recorded pg code detail s (s3.recLog pg code detail) ∧ State.RecordFrame pg s (s3.recLog pg code detail) := by
    intro s3 a1 a2 a3 a4 a5
    have b := State.recLog_spec (pg := pg) (code := code) (detail := detail) a3 (by rw [a4]; exact h.mem)
    have ne : ∀ r, r = Reg.PAGE_ERR_FIRST pg ∨ r = Reg.PAGE_ERR_COUNT pg ∨ r = Reg.PAGE_IRQ_RAW pg →
        r ∉ [Reg.EVLOG_NEXT, Reg.EVLOG_STAT, Reg.TALLY_LIFE 1] := by
      intro r hr
      simp only [Reg.PAGE_ERR_FIRST, Reg.PAGE_ERR_COUNT, Reg.PAGE_IRQ_RAW] at hr
      simp only [Reg.EVLOG_NEXT, Reg.EVLOG_STAT, Reg.TALLY_LIFE, List.mem_cons, List.not_mem_nil, or_false]
      omega
    have ne' : ∀ r, r = Reg.EVLOG_NEXT ∨ r = Reg.EVLOG_RING → s3.reg r = s.reg r := by
      intro r hr
      refine a1 r ?_
      simp only [Reg.EVLOG_NEXT, Reg.EVLOG_RING] at hr
      simp only [Reg.PAGE_ERR_FIRST, Reg.PAGE_ERR_COUNT, Reg.PAGE_IRQ_RAW, Reg.IRQ_PEND, List.mem_cons, List.not_mem_nil,
        or_false]
      omega
    refine ⟨⟨(b.1 _ (ne _ (.inl rfl))).trans a5.1, (b.1 _ (ne _ (.inr (.inl rfl)))).trans a5.2.1, ?_⟩,
      a1.trans b.1 (by simp [recordRegs]) (by simp [recordRegs]), ?_, a2.trans b.2.1⟩
    · rw [State.bit, State.fld, b.1 _ (ne _ (.inr (.inr rfl)))]
      exact a5.2.2
    · intro x h1 h2
      rw [b.2.2.2 x h1]
      · simp only [State.rdByte, a4]
      · rw [State.evAddr_of_regs (ne' _ (.inr rfl)), State.regNat, ne' _ (.inl rfl)]
        exact h2
  have a := State.recHead_spec (pg := pg) (code := code) (detail := detail) h.regs
  unfold State.record
  extract_lets d s1 s2 s3
  have e : State.recHead pg code detail s = s3 := by
    unfold State.recHead
    exact rfl
  rw [e] at a
  clear_value s3
  have k := key s3 a.1 a.2.1 a.2.2.1 a.2.2.2.1 a.2.2.2.2
  unfold State.recLog at k
  exact k

/-- Recording a code does what R519 says of the page's header. -/
theorem State.record_recorded {pg code detail : Nat} (h : s.Inv) : State.Recorded pg code detail s (s.record pg code detail) :=
  (State.record_both h).1

/-- Recording a code leaves everything else alone. -/
theorem State.record_frame {pg code detail : Nat} (h : s.Inv) : State.RecordFrame pg s (s.record pg code detail) :=
  (State.record_both h).2

end Sys2Proof.Machine
end

