-- ==== Sys2Proof/Tests/Slice0.lean ====
section
/-! SUPPORT. Tests of the model. The first part checks it against worked examples and tables of the manual, each named
in its docstring. The second part shows, for every statement with hypotheses, states and operands that meet them: one
theorem for each statement, one existential for each set of hypotheses of a clause. -/
open Sys2Proof Sys2Proof.Machine

namespace Sys2Proof.Tests

set_option maxRecDepth 20000
set_option Elab.async false

/-! ## Worked examples of the manual -/

/-- A configuration that holds these registers and no others. -/
def tab (l : List (Nat × Nat)) : Table W64 := l.foldl (fun m p => tSet resetOf p.1 (BitVec.ofNat 64 p.2) m) []

/-- ASCII text as bytes. -/
def ascii (l : List Nat) : List Byte := l.map (BitVec.ofNat 8)

theorem test_reset_memory : Memory.wf State.reset.mem := by decide

/-- The check value of the CRC-32C that R207 names: RFC 3720's polynomial over the digits 1 to 9. -/
theorem test_crc32c_check : crc32c (ascii [0x31, 0x32, 0x33, 0x34, 0x35, 0x36, 0x37, 0x38, 0x39]) = 0xE3069283#32 := by
  decide +kernel

/-- The check value of CRC-64/ECMA over the digits 1 to 9. -/
theorem test_crc64_check : crc64 (ascii [0x31, 0x32, 0x33, 0x34, 0x35, 0x36, 0x37, 0x38, 0x39]) = 0x6C40DF5F0B497347#64 := by
  decide +kernel

/-- SHA-256 of the three letters abc, as FIPS 180-4 gives it. -/
theorem test_sha256_abc : sha256 (ascii [0x61, 0x62, 0x63]) = ascii
    [0xBA, 0x78, 0x16, 0xBF, 0x8F, 0x01, 0xCF, 0xEA, 0x41, 0x41, 0x40, 0xDE, 0x5D, 0xAE, 0x22, 0x23,
     0xB0, 0x03, 0x61, 0xA3, 0x96, 0x17, 0x7A, 0x9C, 0xB4, 0x10, 0xFF, 0x61, 0xF2, 0x00, 0x15, 0xAD] := by
  decide +kernel

/-- The handle of position 116 in layer 12 (file 04, the million-token prompt). -/
theorem test_handle_example : mkHandle 0x511 116 12 0 0 0x41A2B 3 = 0xA220000E81802BC3#64 := by decide +kernel

/-- The CRC-8 of that handle after each byte (file 04). -/
theorem test_handle_check_steps :
    ((List.range 8).map fun n => crc8 ((handleBytes (handleBody 0x511 116 12 0 0 0x2B) 3).take (n + 1)))
      = ascii [0x94, 0x05, 0x1B, 0x6B, 0x98, 0x48, 0x2E, 0xC3] := by decide +kernel

/-- The handle is stale under the next generation (file 04). -/
theorem test_handle_stale : handleOk 0xA220000E81802BC3#64 3 = true ∧ handleOk 0xA220000E81802BC3#64 4 = false := by
  decide +kernel

/-- The MXFP8 block of file 05: scale byte 0x78, codes 0x7C and 0x55. -/
theorem test_mxfp8_example :
    mxBlock .e4m3 (0x40400000#32 :: bf16Widen 0x3DCD#16 :: List.replicate 30 0#32)
      = (0x7C :: 0x55 :: List.replicate 30 0, 0x78) := by decide +kernel

/-- The combine example of file 08: nine places, the last but one empty. -/
def combineRows : List (F32 × List F32) :=
  [(0x3F800000#32, [0x3FC00000#32]), (0x3E800000#32, [0x40000000#32]), (0x3E400000#32, [0xBF800000#32]),
   (0x3E000000#32, [0x3F400000#32]), (0x3E000000#32, [0x3F000000#32]), (0x3E000000#32, [0x3E800000#32]),
   (0x3E000000#32, [0x3D000000#32]), (0x3D800000#32, [0x3C000000#32])]

/-- The accumulator after each place (file 08): 1.5, 2.0, 1.8125, 1.90625, 1.96875, 2.0, 2.00390625, 2.00439453125. -/
theorem test_combine_example_sums :
    ((List.range 8).map fun n => orderedSum 1 (combineRows.take (n + 1)))
      = [[0x3FC00000#32], [0x40000000#32], [0x3FE80000#32], [0x3FF40000#32], [0x3FFC0000#32], [0x40000000#32],
         [0x40004000#32], [0x40004800#32]] := by decide +kernel

/-- Its element 0 is written as BF16 0x4000 (file 08). -/
theorem test_combine_example_element : outBytes false 0x40004800#32 = ascii [0x00, 0x40] := by decide +kernel

/-- Its status word (file 08): seven granted ranks, rank 6 empty, a spill. -/
theorem test_combine_example_status :
    ({ choices := (List.range 8).map fun r => { index := r, expert := r, eff := 0, raw := 0,
                                                 st := if r = 6 then .empty else .granted },
       spilled := true } : RTok).statusWord false false = 0x2207 := by decide +kernel

/-- The Bolt-16K configuration of files 02, 03 and 17. -/
def bolt : Table W64 :=
  tab [(Reg.CTX_MODEL, 64 * 2 ^ 16 + 28 * 2 ^ 25), (Reg.MEMP_FLOOR, 4000), (Reg.BELL_DIAM, 4), (Reg.BELL_ALLOW, 1000)]

/-- Its slot bound with `tiles` tiles at an ARITH step, for `n` tokens. -/
def boltBound (tiles step n : Nat) : Nat :=
  slotBound ⟨bolt, 1280, 512, 10240, false, 2 ^ 25, tiles, step⟩ 0 244 0 { topk := 8, flags := 2, rounds := 2, shared := 1 } n

/-- B_fwd and B_ret of a Bolt-16K layer (files 03 and 07). -/
theorem test_record_bytes : (confBfwd bolt 0, confBret bolt 0) = (7408, 14352) := by decide +kernel

/-- The edge of admission at 4.0 GHz (file 03): 247 tokens take 29,965 ns and 248 take 30,053 ns. -/
theorem test_bound_admission : [247, 248].map (boltBound 8 0) = [29965, 30053] := by decide +kernel

/-- The planned step to 1.6 GHz (file 02): 118 tokens fit in 30 µs and 119 do not. -/
theorem test_bound_slow_clock : [118, 119].map (boltBound 8 3) = [29936, 30101] := by decide +kernel

/-- A tile less (file 17): 20.08 µs becomes 21.22 µs, and 19.65 µs becomes 20.74 µs. -/
theorem test_bound_seven_tiles : [131, 125].map (boltBound 8 0) = [20081, 19646] ∧ [131, 125].map (boltBound 7 0) = [21223, 20736] := by
  decide +kernel

/-- A rank-5 bid of the contested stall of file 06. -/
def rank5 (src : Nat) (eff : F32) (hash : W64) : Bid := ⟨src, 0#64, eff, 1200, 5, 0, hash, 0⟩

/-- The grant order of that stall (file 06): V before Q by the hash, Q before P and P before Z by the score. -/
theorem test_grant_order :
    [bidLt false (rank5 37 0x40340000#32 0x5B110E96C2F74A08#64) (rank5 301 0x40340000#32 0x9E0471D206B833A5#64),
     bidLt false (rank5 301 0x40340000#32 0x9E0471D206B833A5#64) (rank5 12 0x402E0000#32 0x0C3A5D10E82B917C#64),
     bidLt false (rank5 12 0x402E0000#32 0x0C3A5D10E82B917C#64) (rank5 455 0x401E0000#32 0x3390A4C17E05D26B#64)]
      = [true, true, true] := by decide +kernel

/-- BASE and the bitmap after each arrival of the barrow of file 11 (the last entry of the bitmap arrived first). -/
def arrivals : Nat → List Nat → RxWin → List (Nat × List Nat)
  | 0, _, _ => []
  | _ + 1, [], _ => []
  | n + 1, x :: t, w =>
    let u := advanceBase 1025 { w with got := x :: w.got }
    (u.base, u.got) :: arrivals n t u

/-- The window at slice 37 (file 11). -/
theorem test_window_example :
    arrivals 9 [0x0004, 0xFFFD, 0xFFFC, 0x0000, 0xFFFE, 0x0001, 0x0003, 0xFFFF, 0x0002] { base := 0xFFFC }
      = [(0xFFFC, [4]), (0xFFFC, [0xFFFD, 4]), (0xFFFE, [4]), (0xFFFE, [0, 4]), (0xFFFF, [0, 4]), (0xFFFF, [1, 0, 4]),
         (0xFFFF, [3, 1, 0, 4]), (0x0002, [3, 4]), (0x0005, [])] := by decide +kernel

/-- The route entry of file 12: ADAPT, ESC_HOP, ESC_DIM, DIST, ESC_DIST, VALID. -/
theorem test_route_entry_example :
    (reAdapt 0x48A18030C0, reEsc 0x48A18030C0, reEscDim 0x48A18030C0, reDist 0x48A18030C0, reEscDist 0x48A18030C0,
      reValid 0x48A18030C0) = (0x30C0, 6, 2, 2, 2, true) := by decide +kernel

/-- The Felano-1 fold of file 13: page 467 with J = 3 lies at node 6. -/
theorem test_fold_example : ilvHash true 3 (467 / 8) = 5 ∧ (467 % 8) ^^^ ilvHash true 3 (467 / 8) = 6 := by decide +kernel

/-- The three counters of file 13: the operands combine to 13, and the answers are 1,000, 1,007 and 1,012. -/
theorem test_combining_example :
    combineAll 0x10 [(48, 1, 7#64), (96, 2, 5#64), (40, 3, 1#64)] = 13#64
      ∧ atomicNew 0x10 1000#64 7#64 0#64 = 1007#64 ∧ atomicNew 0x10 1007#64 5#64 0#64 = 1012#64 := by decide +kernel

/-- The relative indexes of file 14, with its tree. -/
theorem test_tree_example :
    (List.range 4).map (relIndex 4 0) = [0, 1, 2, 3] ∧ (List.range 4).map (relIndex 4 1) = [3, 0, 1, 2]
      ∧ relChildren 4 0 = [1, 2] ∧ relChildren 4 2 = [3] := by decide +kernel

/-- The two sums of file 14: element 0 of chunk 0 is 2^−24, and element 0 of chunk 1 is 2^−23. -/
theorem test_reduce_example :
    fAdd (fAdd 0x3F800000#32 0x33800000#32) (fAdd 0x33800000#32 0xBF800000#32) = 0x33800000#32
      ∧ fAdd (fAdd 0x33800000#32 0x33800000#32) (fAdd 0xBF800000#32 0x3F800000#32) = 0x34000000#32 := by decide +kernel

/-- Slice 37 of file 20: bound as slice 5 of eight, the bell of the example running, BUDGET_NS 30,000. -/
def slice37 : State :=
  { State.reset with
    regs := tab [(Reg.EBS_STAT, 2 ^ 28), (Reg.EBS_CFG, 5), (Reg.SLC_STATE, 6), (Reg.PKG_SLICES, 0xFF),
      (Reg.PSAFE_SLICES, 0xFF), (Reg.BELL_NUMBER, 0x41A2B), (Reg.BELL_BUDGET, 30000), (Reg.PAGE_IRQ_EN 1, 5)] }

/-- The write of 500 (file 20): dropped, recorded in PAGE_ERR_FIRST, and vector 0x01 pending. -/
theorem test_field_range_example :
    (match exec (.registerWrite 0x241100 8 500#64) slice37 with
      | .next t => [t.reg Reg.BELL_BUDGET, t.reg (Reg.PAGE_ERR_FIRST 1), t.reg (Reg.PAGE_IRQ_RAW 1) &&& 1#64,
          t.reg Reg.IRQ_PEND]
      | _ => []) = [30000#64, 0x00001100041A2B03#64, 1#64, 2#64] := by decide +kernel

/-- The write of 28,000 through the broadcast alias (file 20): staged, with PAGE_STAT STAGED showing it. -/
theorem test_staged_example :
    (match exec (.registerWrite 0x301100 8 28000#64) slice37 with
      | .next t => [t.reg Reg.BELL_BUDGET, t.stagedReg Reg.BELL_BUDGET, BitVec.ofNat 64 (b2n (t.pageStaged 1))]
      | _ => []) = [30000#64, 28000#64, 1#64] := by decide +kernel

/-- T_max of file 10: 146 records of 14,352 B fill a return buffer. -/
theorem test_tile_max_example :
    ({ State.reset with regs := tab [(Reg.TILE_MODE, 256 * 2 ^ 8)] } : State).tMax 14352 = 146 := by decide +kernel

/-! ## Well-formedness: for each check a command it refuses, and the largest operand it takes -/

/-- A packet that is well formed, to be changed in one field. -/
def goodPacket : Arrived := ⟨2 ^ 23 - 1, 65535, 65535, 3, 0#64, List.replicate 8 0#8⟩

/-- Operands of the boundary, the bell and the pages. -/
theorem test_ill_formed_boundary : ((
    [.registerWrite 0x400000 8 0#64, .tsyncPulse (2 ^ 64), .powerRemove 8, .memResponse (2 ^ 52) 0 .other .ok,
     .memResponse 0 16 .other .ok, .memTimeout (2 ^ 52) .other, .irqMessageSend 64, .irqRetryTimer 64,
     .irqEnableWrite 0x40 0#64, .irqEnableWrite 0x200 0#64, .irqAddrWrite 64 false 0#64, .errClr 0xFF,
     .stageDiscard 0x40, .tallySlotRead 0x40 0, .tallySlotRead 1 16, .clrUnread 0x200,
     .bellMarkerReceive (2 ^ 64) 0 0, .bellMarkerReceive 0 (2 ^ 64) 0, .bellMarkerReceive 0 0 (2 ^ 28),
     .dirDigestCompare [(8, 0#64)], .lateNoticeReceive (2 ^ 64) 0 .calico, .lateNoticeReceive 0 256 .calico,
     .tileSelfTestDone [9]] : List Instr).all fun c => !c.wf) = true := by decide +kernel

theorem test_well_formed_boundary : ((
    [.registerWrite 0x3FFFFF 8 0#64, .tsyncPulse (2 ^ 64 - 1), .powerRemove 7,
     .memResponse (2 ^ 52 - 1) 15 .other .ok, .memTimeout (2 ^ 52 - 1) .other, .irqMessageSend 63,
     .irqRetryTimer 63, .irqEnableWrite 0x3F 0#64, .irqEnableWrite 0x1FF 0#64, .irqAddrWrite 63 false 0#64,
     .errClr 0x100, .stageDiscard 0x3F, .tallySlotRead 1 15, .clrUnread 0x1FF,
     .bellMarkerReceive (2 ^ 64 - 1) (2 ^ 64 - 1) (2 ^ 28 - 1), .dirDigestCompare [(7, 0#64)],
     .lateNoticeReceive (2 ^ 64 - 1) 255 .muslin, .tileSelfTestDone [8]] : List Instr).all Instr.wf) = true := by decide +kernel

/-- Operands of the auction, the barrows, the tiles and residency. -/
theorem test_ill_formed_rounds : ((
    [.bidReceive (2 ^ 23) (List.replicate 16 0#8), .bidReceive 0 (List.replicate 15 0#8),
     .tieNoteReceive (2 ^ 23) .calico 0 0 0 (List.replicate 16 0#8),
     .tieNoteReceive 0 .calico (2 ^ 64) 0 0 (List.replicate 16 0#8),
     .tieNoteReceive 0 .calico 0 256 0 (List.replicate 16 0#8),
     .tieNoteReceive 0 .calico 0 0 3 (List.replicate 16 0#8),
     .tieNoteReceive 0 .calico 0 0 0 (List.replicate 15 0#8), .bidCloseReceive (2 ^ 23) (List.replicate 16 0#8),
     .bidCloseReceive 0 (List.replicate 15 0#8), .bidSkew 32768 .calico,
     .verdictReceive (2 ^ 23) 0 0 .calico 0 0#64, .verdictReceive 0 (2 ^ 64) 0 .calico 0 0#64,
     .verdictReceive 0 0 256 .calico 0 0#64, .verdictReceive 0 0 0 .calico 3 0#64,
     .releaseReceiveHome (2 ^ 23) (List.replicate 16 0#8), .releaseReceiveHome 0 (List.replicate 15 0#8),
     .releaseReceiveSite (2 ^ 23) (List.replicate 16 0#8), .releaseReceiveSite 0 (List.replicate 15 0#8),
     .reservationNoticeReceive (2 ^ 23) (List.replicate 16 0#8),
     .reservationNoticeReceive 0 (List.replicate 15 0#8), .readinessRecordReceive (List.replicate 15 0#8),
     .tokChunkReceive (2 ^ 23) 0#64 [] 0#32, .tokChunkReceive 0 0#64 (List.replicate 4097 0#8) 0#32,
     .poolRequestGrant 4, .poolStarved 4, .tileTimeout 16 0, .returnChunkReceive (2 ^ 23) 0#64 [] 0#32,
     .returnChunkReceive 0 0#64 (List.replicate 4097 0#8) 0#32, .residencyFetchDone 32768 0,
     .residencyFetchDone 0 256, .deadNoticeSend 8, .deadNoticeReceive 32768 0, .deadNoticeReceive 0 (2 ^ 64)] : List Instr).all fun c => !c.wf) = true := by decide +kernel

theorem test_well_formed_rounds : ((
    [.bidReceive (2 ^ 23 - 1) (List.replicate 16 0#8),
     .tieNoteReceive (2 ^ 23 - 1) .muslin (2 ^ 64 - 1) 255 2 (List.replicate 16 0#8),
     .bidCloseReceive (2 ^ 23 - 1) (List.replicate 16 0#8), .bidSkew 32767 .calico,
     .verdictReceive (2 ^ 23 - 1) (2 ^ 64 - 1) 255 .muslin 2 0#64,
     .releaseReceiveHome 0 (List.replicate 16 0#8), .releaseReceiveSite 0 (List.replicate 16 0#8),
     .reservationNoticeReceive 0 (List.replicate 16 0#8), .readinessRecordReceive (List.replicate 16 0#8),
     .tokChunkReceive 0 0#64 (List.replicate 4096 0#8) 0#32, .poolRequestGrant 3, .poolStarved 3,
     .tileTimeout 15 0, .returnChunkReceive 0 0#64 (List.replicate 4096 0#8) 0#32,
     .residencyFetchDone 32767 255, .deadNoticeSend 7, .deadNoticeReceive 32767 (2 ^ 64 - 1)] : List Instr).all Instr.wf) = true := by decide +kernel

/-- Operands of the links, discovery and routing. -/
theorem test_ill_formed_fabric : ((
    [.linkFrameSend 22, .linkFrameReceive 22 (List.replicate 1024 0#8) [] ⟨[], []⟩,
     .linkFrameReceive 0 (List.replicate 1023 0#8) [] ⟨[], []⟩,
     .linkFrameReceive 0 (List.replicate 1024 0#8) [] ⟨[], [(some 4, 0)]⟩,
     .linkFrameReceive 0 (List.replicate 1024 0#8) [] ⟨[], [(none, 3)]⟩, .phyLockLoss 18, .linkTrainDone 18 0 0 0,
     .linkTrainDone 0 0 (2 ^ 23) 0, .linkTrainDone 0 0 0 18, .ackReceive (2 ^ 23) (List.replicate 8 0#8),
     .nakCrcReceive (2 ^ 23) (List.replicate 8 0#8), .nakSpanReceive (2 ^ 23) (List.replicate 8 0#8),
     .barrowAckReceive (2 ^ 23) (List.replicate 8 0#8), .skipReceive (2 ^ 23) (List.replicate 8 0#8),
     .ackReceive 0 (List.replicate 9 0#8), .nakCrcReceive 0 (List.replicate 9 0#8),
     .nakSpanReceive 0 (List.replicate 9 0#8), .barrowAckReceive 0 (List.replicate 9 0#8),
     .skipReceive 0 (List.replicate 9 0#8), .retxTimeout (2 ^ 23) 0 0, .retxTimeout 0 8 0,
     .retxTimeout 0 0 65536, .e2eLost (2 ^ 23) 0 0, .e2eLost 0 8 0, .e2eLost 0 0 65536,
     .skipResend (2 ^ 23) 0 0, .skipResend 0 8 0, .skipResend 0 0 65536, .discNodeWrite 0#64 ⟨some (2 ^ 23), false⟩,
     .electReceive 18 [], .electReceive 0 [0#8], .claimReceive 18 [], .claimReceive 0 [0#8],
     .assignReceive 18 [], .assignReceive 0 [0#8], .lsbReceive 18 [], .lsbReceive 0 [0#8], .pathOpReceive 18 [],
     .pathOpReceive 0 [0#8], .electReportExpire 18, .pathOpReplyReceive [0#8],
     .mgrMailReceive (List.replicate 4120 0#8), .portTrainRetry 18, .lsdbFreshExpire (2 ^ 23)] : List Instr).all fun c => !c.wf) = true := by decide +kernel

theorem test_well_formed_fabric : ((
    [.linkFrameSend 21, .linkFrameReceive 21 (List.replicate 1024 0#8) [] ⟨[7], [(some 3, 2)]⟩, .phyLockLoss 17,
     .linkTrainDone 17 0 (2 ^ 23 - 1) 17, .ackReceive (2 ^ 23 - 1) (List.replicate 8 0#8),
     .nakCrcReceive (2 ^ 23 - 1) (List.replicate 8 0#8), .nakSpanReceive (2 ^ 23 - 1) (List.replicate 8 0#8),
     .barrowAckReceive (2 ^ 23 - 1) (List.replicate 8 0#8), .skipReceive (2 ^ 23 - 1) (List.replicate 8 0#8),
     .retxTimeout (2 ^ 23 - 1) 7 65535, .e2eLost (2 ^ 23 - 1) 7 65535, .skipResend (2 ^ 23 - 1) 7 65535,
     .discNodeWrite 0#64 ⟨some (2 ^ 23 - 1), true⟩, .electReceive 17 (List.replicate 4112 0#8),
     .claimReceive 17 (List.replicate 4112 0#8), .assignReceive 17 (List.replicate 4112 0#8),
     .lsbReceive 17 (List.replicate 4112 0#8), .pathOpReceive 17 (List.replicate 4112 0#8),
     .electReportExpire 17, .pathOpReplyReceive [], .mgrMailReceive (List.replicate 4112 0#8),
     .portTrainRetry 17, .lsdbFreshExpire (2 ^ 23 - 1)] : List Instr).all Instr.wf) = true := by decide +kernel

/-- Operands of the collectives, contexts, safety and start-up. -/
theorem test_ill_formed_machine : ((
    [.joinSend 4096, .collCreateTimeout 4096, .collOpStart 4096, .collOpComplete 4096 0,
     .collOpComplete 0 65536, .pullRetry 4096 0 0, .pullRetry 0 65536 0, .collProgressTimeout 4096 0,
     .collProgressTimeout 0 65536, .detDigestReceive (List.replicate 63 0#8), .ctxDrainEnd 4, .ctxSaveDone 4,
     .mcodeCtrlError 2 false, .edgeSilence 4, .silenceNoteReceive 8 0, .silenceNoteReceive 0 8,
     .mcodeExpectWrite 8 0 0#64, .mcodeExpectWrite 0 4 0#64, .ebsEdgeRetry 4 none, .packageBind [8] none,
     .packageBind [] (some 8), .dirctlCheckDone [(8, 0, 0)]] : List Instr).all fun c => !c.wf) = true := by decide +kernel

theorem test_well_formed_machine : ((
    [.joinSend 4095, .collCreateTimeout 4095, .collOpStart 4095, .collOpComplete 4095 65535,
     .pullRetry 4095 65535 0, .collProgressTimeout 4095 65535, .detDigestReceive (List.replicate 64 0#8),
     .ctxDrainEnd 3, .ctxSaveDone 3, .mcodeCtrlError 1 false, .edgeSilence 3, .silenceNoteReceive 7 7,
     .mcodeExpectWrite 7 3 0#64, .ebsEdgeRetry 3 none, .packageBind [7] (some 7), .dirctlCheckDone [(7, 0, 0)]] : List Instr).all Instr.wf) = true := by decide +kernel

/-- The commands that carry a packet. -/
def packetCommands : List (Arrived → Instr) :=
  [.reqLoad, .reqStore, .reqStoreMasked, .reqStoreCount, .reqAdd, .reqMinS, .reqMaxS, .reqMinU, .reqMaxU,
   .reqCas, .reqFadd32, .reqStub, .reqLoadGw, .reqStoreGw, .fwdRequestReceive 0, .invalidateReceive,
   .rspReceive, .joinReceive, .readyReceive, .pullReceive, .dataReceive, .endReceive, .collAckReceive,
   .retryReceive, .abortReceive, .timeReceive, .loadReceive, .llrReceive]

/-- A packet with a bad source, job, SEQ, priority or payload. -/
theorem test_ill_formed_packets :
    ((packetCommands.all fun f => (
      [{ goodPacket with src := 2 ^ 23 }, { goodPacket with job := 65536 }, { goodPacket with seq := 65536 },
       { goodPacket with prio := 4 }, { goodPacket with payload := [0#8] },
       { goodPacket with payload := List.replicate 4120 0#8 }].all fun p => !(f p).wf)) : Bool) = true := by
  decide +kernel

theorem test_well_formed_packets : (packetCommands.all fun f => (f goodPacket).wf) = true := by decide +kernel

/-! ## Witnesses: states and operands that meet the hypotheses of the statements -/

/-- The invariant from its parts, as one check. -/
theorem inv_of {s : State} (h : (tWf resetOf s.regs && tWf byteZero s.mem && tWf byteZero s.sram
    && (s.tally.live.all fun p => decide (p.2 < 2 ^ 40)) && (s.tally.late.all fun p => decide (p.2.1 < 2 ^ 40 ∧ p.2.2 < 2 ^ 40))
    && decide (8 * s.trace.fifo.length ≤ fifoBytes) && !s.viaAlias) = true) :
    s.Inv := by
  simp only [Bool.and_eq_true, Bool.not_eq_true', List.all_eq_true, decide_eq_true_eq] at h
  exact ⟨h.1.1.1.1.1.1, h.1.1.1.1.1.2, h.1.1.1.1.2, ⟨h.1.1.1.2, h.1.1.2⟩, h.1.2, h.2⟩

/-- What holds of the value an option has. -/
theorem all_some {α : Type} {o : Option α} {P : α → Prop} [DecidablePred P] (h : (o.all fun x => decide (P x)) = true) :
    ∀ x, o = some x → P x := by
  rintro x rfl
  simpa using h

/-- What holds of the pair an option has. -/
theorem all_pair {α β : Type} {o : Option (α × β)} {P : α → β → Prop} [∀ a b, Decidable (P a b)]
    (h : (o.all fun x => decide (P x.1 x.2)) = true) : ∀ a b, o = some (a, b) → P a b := by
  rintro a b rfl
  simpa using h

/-- Staging slots that can be read, as one check. -/
theorem slots_read {s : State} {g n : Nat} {l : List Nat}
    (h : (l.all fun b => match s.slotPlace g b with | .mem a => !s.unreadable .request a n | .sram _ => true) = true) :
    s.SlotsRead g l n := by
  intro b hb a ha
  have hk := List.all_eq_true.mp h b hb
  rw [ha] at hk
  simpa using hk

/-- A staging slot that cannot be read. -/
theorem slots_bad {s : State} {g n : Nat} {l : List Nat}
    (h : (l.all fun b => match s.slotPlace g b with | .mem a => !s.unreadable .request a n | .sram _ => true) = false) :
    ¬s.SlotsRead g l n := by
  intro k
  have ht : (l.all fun b => match s.slotPlace g b with | .mem a => !s.unreadable .request a n | .sram _ => true) = true := by
    refine List.all_eq_true.mpr fun b hb => ?_
    cases hp : s.slotPlace g b with
    | sram a => rfl
    | mem a => simp [k b hb a hp]
  rw [ht] at h
  cases h

/-- Does this answer a next state? -/
def isNext (x : Host.Outcome State Fault Refusal) : Bool := match x with | .next _ => true | _ => false

/-- An answer that is a next state is the next state of what `f` reads from it. -/
theorem nx_of {x : Host.Outcome State Fault Refusal} {f : Host.Outcome State Fault Refusal → State} (h : isNext x = true)
    (hf : ∀ t, f (.next t) = t) : x = .next (f x) := by
  cases x <;> first | rw [hf] | cases h

/-- A check that answers this value. -/
theorem ok_of {ε α : Type} [DecidableEq α] {x : Except ε α} {v : α}
    (h : (match x with | .ok a => decide (a = v) | .error _ => false) = true) : x = .ok v := by
  cases x with
  | ok a => exact congrArg _ (of_decide_eq_true h)
  | error e => cases h

/-- A check that answers this error. -/
theorem err_of {ε α : Type} [DecidableEq ε] {x : Except ε α} {v : ε}
    (h : (match x with | .error a => decide (a = v) | .ok _ => false) = true) : x = .error v := by
  cases x with
  | error a => exact congrArg _ (of_decide_eq_true h)
  | ok e => cases h

/-- A bounded check, with its two bounds. -/
theorem between {g : Nat} {P : Nat → Prop} (h : ∀ k, k < g → 1 ≤ k → P k) : ∀ k, 1 ≤ k → k < g → P k :=
  fun k a b => h k b a

/-- The members of a list of two. -/
theorem mem_two {l : List Nat} {a b : Nat} (h : l = [a, b]) : ∀ i, i ∈ l ↔ i = a ∨ i = b := by
  subst h
  simp

/-- A word of a number. -/
def w (n : Nat) : W64 := BitVec.ofNat 64 n

/-- The state after reset, with these registers written. -/
def st (l : List (Nat × Nat)) : State :=
  { State.reset with regs := l.foldl (fun m p => tSet resetOf p.1 (BitVec.ofNat 64 p.2) m) State.reset.regs }

/-- bound, running slice 0 of one, the lead -/
def bnd (l : List (Nat × Nat)) : State :=
  st ([(Reg.EBS_STAT, 2 ^ 28), (Reg.SLC_STATE, 6 + 8), (Reg.PKG_SLICES, 1), (Reg.PSAFE_SLICES, 1),
      (Reg.LEAD_STAT, 8)] ++ l)

/-- CTX_MODEL of L layers and d_model 256 * D -/
def mdl (l d : Nat) : Nat := l * 2 ^ 16 + d * 2 ^ 25

def tok (i : Nat) : Tok := ⟨i, 0, 0, 0, 0#64, 0#64⟩

def adm (b : Nat) (ts : List Tok) : AdmSet := { bell := b, toks := ts, bounds := [10000, 10000] }

def rnd (l : Nat) (ts : List RTok) : Round := { layer := l, start := 0, toks := ts }

def half (h : Half) (a : AdmSet) (r : Round) (s : State) : State := s.setHalf h { sets := [a], cur := some r }

/-- a posted tile: unit 0, buffer of class 2 in frame 0 -/
def tileS : State :=
  { bnd [(Reg.CTX_MODEL, mdl 2 1)] with
    tiles := {
      units := [(0,
          { half := .calico, bell := 0, layer := 0, expert := 5, buf := none, posted := 1, total := 1, ctr := 7,
            left := 1, bufs := 1 })], nextUnit := 1,
       tiles := [⟨0, 0, 0, 0, 2, bufId 2 0 0, 7, false, 0, false⟩], tails := [(0, 1)] } }

/-- a directory entry with one site -/
def dirE (tie home cap opn state : Nat) : Nat := tie * 2 ^ 32 + home * 2 ^ 48 + cap * 2 ^ 110 + opn * 2 ^ 123 + state * 2 ^ 124

def b8 (l : List Nat) : List Byte := l.map (BitVec.ofNat 8)

/-- two layers: DROP with two choices, SPILL with one choice and one spill round; four experts,
two capped and homed here -/
def wld (l : List (Nat × Nat)) : State :=
  let s := bnd ([(Reg.CTX_MODEL, mdl 2 1), (Reg.RES_DIR_LIVE, 4), (Reg.SEL_TABLE_LIVE, 0x8000),
      (Reg.KEYS_TABLE_LIVE, 0x9000), (Reg.BELL_NUMBER, 3)] ++ l)
  { s with
    mem := tSetRun byteZero 0x8020 (b8 [1, 2, 1, 1]) (tSetRun byteZero 0x8000 (b8 [2]) []),
    res := { s.res with
      sources := [0],
      dir := [(0, dirE 0 0 0 1 0), (1, dirE 1 0 2 0 0), (2, dirE 2 0 1 0 0), (3, dirE 0 0 0 1 0)] },
    seqs := [(0, { state := 1 }), (1, { state := 1 })] }

def f1 : F32 := 0x3F800000#32

def f2 : F32 := 0x40000000#32

def fInf : F32 := 0x7F800000#32

def viewOf (s : State) (h : Half) : RoundView := (s.view h).getD ⟨adm 0 [], rnd 0 [], [], {}, []⟩

def awaitC (e : Nat) : Choice := { index := 0, expert := e, eff := f1, raw := f1, st := .awaiting }

def wld1 : State := { wld [] with
  res := { (wld []).res with
    dir := [(0, dirE 0 0 0 1 0), (1, dirE 1 0 2 0 0), (2, dirE 2 0 0 1 0), (3, dirE 0 0 0 1 0)] } }

namespace G00

def st0_0 : State :=
  { st [] with pins := { State.reset.pins with porstLow := false, powered := true }, now := 3 }

/-- States and operands that meet the hypotheses of each clause of `Obligations.IdleStepIsOneTick`. -/
theorem witness_IdleStepIsOneTick :
    (∃ (s : State),
      (s.pending = [] ∧ (s.pins.porstLow = true ∨ s.start.porstHeld = true ∨ s.pins.powered = false)) ∧ s.Inv)
    ∧ (∃ (s : State), s.pending = [] ∧ s.pins.porstLow = false ∧ s.start.porstHeld = false
      ∧ s.pins.powered = true ∧ s.start.slew = 0) :=
  ⟨⟨st [], (by decide +kernel), inv_of (by decide +kernel)⟩,
   ⟨st0_0, by decide +kernel⟩⟩

def regspe1_0 : RegSpec :=
  (regSpec Reg.BELL_DIAM).getD ⟨0, 0, 0, 0, 0, 0, 0⟩

def regspe1_1 : RegSpec :=
  (regSpec (Reg.MSEM_SEM 5)).getD ⟨0, 0, 0, 0, 0, 0, 0⟩

/-- States and operands that meet the hypotheses of each clause of `Obligations.RegisterWriteTakesEffect`. -/
theorem witness_RegisterWriteTakesEffect :
    (∃ (s : State) (r : Nat) (v : W64) (x : RegSpec), s.Inv
      ∧ (s.bound = true ∧ s.slice < 8 ∧ s.bit Reg.PKG_SLICES (16 + s.slice) = false ∧ r < 0x40000 ∧ r % 8 = 0
        ∧ plainRegister r = true ∧ regSpec r = some x ∧ s.Accepts r v) ∧ x.bs ≠ 0)
    ∧ (∃ (s : State) (r : Nat) (v : W64) (x : RegSpec), s.Inv
      ∧ (s.bound = true ∧ s.slice < 8 ∧ s.bit Reg.PKG_SLICES (16 + s.slice) = false ∧ r < 0x40000 ∧ r % 8 = 0
        ∧ plainRegister r = true ∧ regSpec r = some x ∧ s.Accepts r v) ∧ x.bs = 0) :=
  ⟨⟨bnd [], 4376, 3#64, regspe1_0, inv_of (by decide +kernel), (by unfold State.Accepts; decide +kernel),
     by decide +kernel⟩,
   ⟨bnd [(Reg.DIRCTL_AT, 9)], 62504, 7#64, regspe1_1, inv_of (by decide +kernel),
     (by unfold State.Accepts; decide +kernel), by decide +kernel⟩⟩

/-- States and operands that meet the hypotheses of each clause of `Obligations.RegisterWriteDropped`. -/
theorem witness_RegisterWriteDropped :
    (∃ (s : State) (k r : Nat), s.Inv ∧ k < 8 ∧ s.slice < 8 ∧ r < 0x40000 ∧ s.bound = false ∧ r % 8 = 0
      ∧ (k ≠ s.slice ∨ servedUnbound (r / 0x1000) = false) ∧ r + 0x300000 < 0x340000)
    ∧ (∃ (s : State) (k r : Nat) (v : W64), s.Inv
      ∧ (k < 8 ∧ s.slice < 8 ∧ r < 0x40000 ∧ s.bound = true ∧ r % 8 = 0
        ∧ s.bit Reg.PKG_SLICES (16 + s.slice) = false ∧ plainRegister r = true
        ∧ pageExists (r / 0x1000) = true) ∧ setsReserved r v = true ∧ s.bit Reg.PKG_SLICES (16 + k) = true)
    ∧ (∃ (s : State) (k r size : Nat), s.Inv ∧ k < 8 ∧ s.slice < 8 ∧ r < 0x40000 ∧ (size ≠ 8 ∨ r % 8 ≠ 0))
    ∧ (∃ (s : State) (k r : Nat), s.Inv ∧ k < 8 ∧ s.slice < 8 ∧ r < 0x40000 ∧ s.bound = true ∧ r % 8 = 0
      ∧ s.bit Reg.PKG_SLICES (16 + k) = false ∧ k ≠ s.slice ∧ s.bit Reg.PKG_SLICES k = false)
    ∧ (∃ (s : State) (k r : Nat) (v : W64), s.Inv
      ∧ (k < 8 ∧ s.slice < 8 ∧ r < 0x40000 ∧ s.bound = true ∧ r % 8 = 0
        ∧ s.bit Reg.PKG_SLICES (16 + s.slice) = false ∧ plainRegister r = true ∧ setsReserved r v = false)
      ∧ (regSpec r).isSome = true ∧ fieldsInRange r v.toNat = false) :=
  ⟨⟨st [], 1, 0x108, inv_of (by decide +kernel), by decide +kernel⟩,
   ⟨bnd [(Reg.PKG_SLICES, 0x20001)], 1, 0x5108, 3#64, inv_of (by decide +kernel), (by decide +kernel),
     by decide +kernel⟩,
   ⟨bnd [], 0, 0x108, 4, inv_of (by decide +kernel), by decide +kernel⟩,
   ⟨bnd [], 1, 0x5108, inv_of (by decide +kernel), by decide +kernel⟩,
   ⟨bnd [], 0, 4376, 15#64, inv_of (by decide +kernel), (by decide +kernel), by decide +kernel⟩⟩

/-- States and operands that meet the hypotheses of each clause of `Obligations.PageControlsAct`. -/
theorem witness_PageControlsAct :
    (∃ (s : State) (pg slot : Nat), s.Inv ∧ pageExists pg = true ∧ (s.bound = true ∨ servedUnbound pg = true)
      ∧ slot < 16) :=
  ⟨bnd [], 5, 3, inv_of (by decide +kernel), by decide +kernel⟩

/-- States and operands that meet the hypotheses of each clause of `Obligations.VectorsBecomePending`. -/
theorem witness_VectorsBecomePending :
    (∃ (s : State) (v : W64) (pg : Nat), s.Inv ∧ s.bound = true ∧ pageExists pg = true ∧ v.toNat < 8
      ∧ (∃ i, i < 3 ∧ v.getLsbD i = true ∧ (s.reg (Reg.PAGE_IRQ_EN pg)).getLsbD i = false
        ∧ (s.reg (Reg.PAGE_IRQ_RAW pg)).getLsbD i = true) ∧ s.sendsVector pg = true
      ∧ reservedVector (vectorOf pg) = false
      ∧ (∃ i, i < 64 ∧ reservedVector i = false ∧ (s.reg Reg.IRQ_MASK).getLsbD i = true ∧ v.getLsbD i = false
        ∧ s.fld (Reg.IRQ_ADDR i) 51 3 = 0) ∧ s.Accepts Reg.IRQ_FORCE v)
    ∧ (∃ (s : State) (v : W64), s.Inv ∧ s.bound = true
      ∧ (∀ i, i < 64 → reservedVector i = false → (s.reg Reg.IRQ_MASK).getLsbD i = true → v.getLsbD i = false →
        s.fld (Reg.IRQ_ADDR i) 51 3 ≠ 0 ∧ (s.reg Reg.IRQ_PEND).getLsbD i = false)
      ∧ (∀ i, i < 64 → reservedVector i = true → (s.reg Reg.IRQ_PEND).getLsbD i = false)) :=
  ⟨⟨bnd [(Reg.PAGE_IRQ_RAW 5, 1)], 5#64, 5, inv_of (by decide +kernel), by unfold State.Accepts; decide +kernel⟩,
   ⟨bnd [], 0xFFFFFFFFFFFFFFFF#64, inv_of (by decide +kernel), by decide +kernel⟩⟩

def st5_0 : State :=
  bnd [(Reg.IRQ_PEND,1),(Reg.IRQ_MASK,2),(Reg.IRQ_ADDR 0,0x1000),(Reg.IRQ_DATA 0,77)]

def st5_1 : State :=
  { bnd [(Reg.IRQ_PEND,1),(Reg.IRQ_MASK,2),(Reg.IRQ_ADDR 0,0x1000),(Reg.IRQ_DATA 0,77)] with
    irq := { State.reset.irq with failed := [0] } }

/-- States and operands that meet the hypotheses of each clause of `Obligations.InterruptMessages`. -/
theorem witness_InterruptMessages :
    (∃ (s : State) (n : Nat) (v : W64), s.Inv ∧ n < 64 ∧ s.bound = true
      ∧ (s.bit Reg.IRQ_PEND n = true ∧ s.bit Reg.IRQ_MASK n = false ∧ (n < 0x38 ∨ s.isLead = true)
        ∧ s.chains = []) ∧ (∀ m ∈ s.irq.inFlight, m.1 ≠ n) ∧ n ∉ s.irq.failed ∧ s.Accepts (Reg.IRQ_ADDR n) v)
    ∧ (∃ (s : State) (n : Nat), s.Inv ∧ n < 64 ∧ s.bound = true
      ∧ (s.bit Reg.IRQ_PEND n = true ∧ s.bit Reg.IRQ_MASK n = false ∧ (n < 0x38 ∨ s.isLead = true)
        ∧ s.chains = []) ∧ (∀ m ∈ s.irq.inFlight, m.1 ≠ n) ∧ n ∈ s.irq.failed ∧ reservedVector n = false
      ∧ s.bellState = 0)
    ∧ (∃ (s : State) (n : Nat), s.Inv ∧ n < 64 ∧ s.bound = true
      ∧ (s.bit Reg.IRQ_PEND n = false ∨ s.bit Reg.IRQ_MASK n = true)) :=
  ⟨⟨st5_0, 0, 0#64, inv_of (by decide +kernel), by unfold State.Accepts; decide +kernel⟩,
   ⟨st5_1, 0, inv_of (by decide +kernel), by decide +kernel⟩,
   ⟨bnd [(Reg.IRQ_PEND,1),(Reg.IRQ_MASK,1)], 0, inv_of (by decide +kernel), by decide +kernel⟩⟩

def st6_0 : State :=
  { st [(Reg.SLC_STATE,6)] with irq := { State.reset.irq with inFlight := [(0, 16, 5#64)] } }

def st6_1 : State :=
  { bnd [(Reg.EVLOG_RING, 2^18)] with memRetry := [(0x1040,3)] }

def st6_2 : State :=
  { bnd [(Reg.TRACE_CTL, 0xFFFF)] with bell := { State.reset.bell with once := [Pg.MEMP * 256 + 4] } }

def st6_3 : State :=
  { bnd [] with memDone := [(0x1040, 0)] }

/-- States and operands that meet the hypotheses of each clause of `Obligations.MemoryRequestsEnd`. -/
theorem witness_MemoryRequestsEnd :
    (∃ (s : State) (addr port n : Nat) (a : _) (w : _), s.Inv ∧ addr < memSpace ∧ port < 16 ∧ n < 64
      ∧ (reqAddr addr, s.now) ∉ s.memDone ∧ s.memRetry = [] ∧ s.irq.inFlight = [(n, a, w)] ∧ a + 8 ≤ memSpace
      ∧ Pg.MEMP * 256 + 4 ∉ s.bell.once)
    ∧ (∃ (s : State) (addr port n : Nat), s.Inv ∧ addr < memSpace ∧ port < 16 ∧ n < 64
      ∧ (reqAddr addr, s.now) ∉ s.memDone ∧ s.memRetry = [(reqAddr addr, port)])
    ∧ (∃ (s : State) (addr port n : Nat), s.Inv ∧ addr < memSpace ∧ port < 16 ∧ n < 64
      ∧ Pg.MEMP * 256 + 4 ∈ s.bell.once)
    ∧ (∃ (s : State) (addr port n : Nat), s.Inv ∧ addr < memSpace ∧ port < 16 ∧ n < 64
      ∧ (reqAddr addr, s.now) ∈ s.memDone ∧ s.bellDue = false) :=
  ⟨⟨st6_0, 16, 0, 0, 16, 0x0000000000000005#64, inv_of (by decide +kernel), by decide +kernel⟩,
   ⟨st6_1, 0x1040, 3, 0, inv_of (by decide +kernel), by decide +kernel⟩,
   ⟨st6_2, 0, 3, 0, inv_of (by decide +kernel), by decide +kernel⟩,
   ⟨st6_3, 0x1040, 3, 0, inv_of (by decide +kernel), by decide +kernel⟩⟩

def st7_0 : State :=
  { st [] with chains := [(0, [.bytes 64 [1#8,2#8], .reg 5 3#64])] }

def st7_1 : State :=
  { st [] with chains := [(4, [.reg Reg.TRACE_WPTR 64#64])] }

/-- States and operands that meet the hypotheses of each clause of `Obligations.OrderedChainsAndAperture`. -/
theorem witness_OrderedChainsAndAperture :
    (∃ (s : State) (c a : Nat) (d : List Byte) (w : List WStep) (off : Nat), s.Inv ∧ a + d.length ≤ memSpace
      ∧ s.apertureOk off d.length = false ∧ tFind c s.chains = some (.bytes a d :: w))
    ∧ (∃ (s : State) (c a : Nat) (d : List Byte) (off : Nat), s.Inv ∧ a + d.length ≤ memSpace
      ∧ s.apertureOk off d.length = true ∧ tFind c s.chains = none)
    ∧ (∃ (s : State) (c a r : Nat) (d : List Byte) (v : W64), s.Inv ∧ a + d.length ≤ memSpace
      ∧ s.chains = [(c, [.reg r v])]) :=
  ⟨⟨st7_0, 0, 64, [1#8,2#8], [.reg 5 3#64], 0, inv_of (by decide +kernel), by decide +kernel⟩,
   ⟨tileS, 4, 0, [1#8], 16, inv_of (by decide +kernel), by decide +kernel⟩,
   ⟨st7_1, 4, 0, 0x1a110, [], 64#64, inv_of (by decide +kernel), by decide +kernel⟩⟩

def st8_0 : State :=
  { bnd [(5,6)] with mem := [(5,6#8)], now := 77, pins := { State.reset.pins with porstLow := true } }

def st8_1 : State :=
  { bnd [(5,6)] with
    mem := [(5,6#8)], now := 77, pins := { State.reset.pins with porstLow := false, slrstLow := true } }

/-- States and operands that meet the hypotheses of each clause of `Obligations.ResetsClear`. -/
theorem witness_ResetsClear :
    (∃ (s : State) (k : _), s.Inv ∧ s.pins.porstLow = true ∧ s.pins.slrstLow = false
      ∧ s.start.slrstHeld = false ∧ s.start.resetClock = false ∧ k % 8 = s.slice ∧ s.inPorst = true)
    ∧ (∃ (s : State), s.Inv ∧ s.pins.slrstLow = true ∧ s.inPorst = false ∧ s.start.resetClock = false)
    ∧ (∃ (s : State) (k : _), s.Inv ∧ k < 8 ∧ k ≠ s.slice ∧ s.bit Reg.PKG_SLICES (24 + k) = true) :=
  ⟨⟨st8_0, 0, inv_of (by decide +kernel), by decide +kernel⟩,
   ⟨st8_1, inv_of (by decide +kernel), by decide +kernel⟩,
   ⟨bnd [(Reg.PKG_SLICES, 2^25 + 1)], 1, inv_of (by decide +kernel), by decide +kernel⟩⟩

def st9_0 : State :=
  { bnd [(Reg.SLC_STATE,6)] with now := 90 }

def st9_1 : State :=
  { bnd [(Reg.PBELL_STATE,2)] with now := 90 }

/-- States and operands that meet the hypotheses of each clause of `Obligations.ClocksAndTimeBase`. -/
theorem witness_ClocksAndTimeBase :
    (∃ (s : State) (a b n : Nat) (v : W64) (c : Clock), s.Inv
      ∧ (n < 2 ^ 64 ∧ s.Accepts Reg.PTIME_SET v ∧ s.bellState = 0 ∧ s.isLead = true ∧ v.toNat ≠ s.now
        ∧ s.cal.cur = none ∧ s.mus.cur = none ∧ a < 4)
      ∧ (b < 4 ∧ s.bound = true ∧ s.bit Reg.COLL_LL 0 = false ∧ s.bit Reg.TIME_SYNC 40 = false ∧ 3 ≤ a)
      ∧ (c = .ctrl) ∧ s.bit Reg.SAFE_ALARM 2 = false)
    ∧ (∃ (s : State) (a n : Nat), s.Inv ∧ n < 2 ^ 64 ∧ s.bound = true ∧ s.isLead = false ∧ n ≤ s.now + 20
      ∧ s.now ≤ n + 20 ∧ a < 3)
    ∧ (∃ (s : State) (n : Nat), s.Inv ∧ n < 2 ^ 64 ∧ s.bit Reg.SAFE_ALARM 2 = true)
    ∧ (∃ (s : State) (n : Nat) (v : W64), s.Inv ∧ n < 2 ^ 64 ∧ s.Accepts Reg.PTIME_SET v ∧ s.bellState ≠ 0) :=
  ⟨⟨bnd [], 3, 1, 77, 8#64, Sys2Proof.Clock.ctrl, inv_of (by decide +kernel),
     (by unfold State.Accepts; decide +kernel), (by decide +kernel), (rfl), by decide +kernel⟩,
   ⟨st9_0, 2, 77, inv_of (by decide +kernel), by decide +kernel⟩,
   ⟨bnd [(Reg.SAFE_ALARM,4)], 77, inv_of (by decide +kernel), by decide +kernel⟩,
   ⟨st9_1, 77, 8#64, inv_of (by decide +kernel), by unfold State.Accepts; decide +kernel⟩⟩

def st10_0 : State :=
  { bnd [(Reg.PBELL_PERIOD_LIVE, 100000),(Reg.PBELL_FIRST,5),(Reg.PBELL_START,50)] with
    now := 1000000, bell := { State.reset.bell with periodEver := true } }

def st10_1 : State :=
  { bnd [(Reg.PBELL_STATE, 2)] with
    bell := { State.reset.bell with periodEver := true, everOpened := true, highest := 5, scalesDone := true } }

def st10_2 : State :=
  { bnd [(Reg.PBELL_PERIOD_LIVE, 100000),(Reg.PBELL_FIRST,5),(Reg.PBELL_START,50)] with
    bell := { State.reset.bell with periodEver := true, everOpened := true, highest := 5 } }

/-- States and operands that meet the hypotheses of each clause of `Obligations.BellStartsAndStops`. -/
theorem witness_BellStartsAndStops :
    (∃ (s : State), s.Inv ∧ s.bound = true ∧ s.bellState = 0 ∧ s.bell.periodEver = true
      ∧ tFind Reg.PBELL_PERIOD s.staged = none ∧ 0 < s.periodLive
      ∧ (s.bell.everOpened = true → s.bell.highest < s.regNat Reg.PBELL_FIRST) ∧ s.bellState ≠ 2)
    ∧ (∃ (s : State), s.Inv ∧ s.bound = true ∧ s.bellState = 2 ∧ s.msem.checkedRegions = none ∧ s.bellState ≠ 0)
    ∧ (∃ (s : State), s.Inv ∧ s.bound = true ∧ s.bellState = 0
      ∧ (s.bell.periodEver = false ∨ (s.bell.everOpened = true ∧ s.regNat Reg.PBELL_FIRST ≤ s.bell.highest))) :=
  ⟨⟨st10_0, inv_of (by decide +kernel), by decide +kernel⟩,
   ⟨st10_1, inv_of (by decide +kernel), by decide +kernel⟩,
   ⟨st10_2, inv_of (by decide +kernel), by decide +kernel⟩⟩

def st11_0 : State :=
  { bnd [(Reg.PBELL_STATE, 2),(Reg.PBELL_PERIOD_LIVE, 100000),(Reg.PKG_SLICES, 3),(Reg.PSAFE_SLICES, 3),(Reg.EBS_CFG,
        32)] with
    bell := { State.reset.bell with nextBell := 5, nextOpen := 90000 } }

def st11_1 : State :=
  { bnd [(Reg.PBELL_STATE, 2),(Reg.PBELL_PERIOD_LIVE, 100000),(Reg.PKG_SLICES, 3)] with
    bell := { State.reset.bell with nextBell := 5, nextOpen := 90000, markerSent := true, leadOpen := true } }

def st11_2 : State :=
  { bnd [(Reg.PBELL_STATE, 2),(Reg.PBELL_PERIOD_LIVE, 100000),(Reg.PKG_SLICES, 3),(Reg.SLC_STATE,6)] with
    bell := { State.reset.bell with nextBell := 5, nextOpen := 90000, markerSent := false, leadOpen := true } }

/-- States and operands that meet the hypotheses of each clause of `Obligations.BellMarkersAndLeadWindow`. -/
theorem witness_BellMarkersAndLeadWindow :
    (∃ (s : State) (b o p : Nat), s.Inv
      ∧ (s.bellComes = true ∧ s.bell.nextBell ≤ b ∧ b = s.bell.nextBell ∧ o = s.bell.nextOpen
        ∧ p = s.periodAt b ∧ s.sendsMarker = true ∧ s.bell.markerSent = false ∧ s.now + 2000 ≤ s.bell.nextOpen)
      ∧ s.safe.silent = false ∧ s.bell.leadOpen = false ∧ s.ctx.ctxs = [] ∧ s.safe.marks = [])
    ∧ (∃ (s : State) (b o p : Nat), s.Inv ∧ s.bellComes = true ∧ s.bell.nextBell ≤ b
      ∧ (¬(b = s.bell.nextBell ∧ o = s.bell.nextOpen ∧ p = s.periodAt b))
      ∧ (s.sendsMarker = false ∨ s.bell.markerSent = true ∨ s.bell.nextOpen < s.now + 2000)
      ∧ s.bell.leadOpen = true)
    ∧ (∃ (s : State) (b : Nat), s.Inv ∧ s.bellComes = true ∧ b < s.bell.nextBell) :=
  ⟨⟨st11_0, 5, 90000, 100000, inv_of (by decide +kernel), (by decide +kernel), by decide +kernel⟩,
   ⟨st11_1, 6, 90000, 100000, inv_of (by decide +kernel), by decide +kernel⟩,
   ⟨st11_2, 4, inv_of (by decide +kernel), by decide +kernel⟩⟩

def st13_0 : State :=
  { bnd [] with bell := { State.reset.bell with plans := List.replicate 16 ⟨128, false, []⟩ } }

def st13_1 : State :=
  { bnd [(Reg.PBELL_STATE, 2),(Reg.PBELL_PERIOD_LIVE, 100000)] with
    bell := { State.reset.bell with nextBell := 5, nextOpen := 90000, leadOpen := true } }

def st13_2 : State :=
  { bnd [] with bell := { State.reset.bell with plans := [⟨64, false, []⟩] } }

def st13_3 : State :=
  (st13_2 : State).wr 64 [1#8,0#8,0#8,0#8,0#8,0#8,0#8,0#8,5#8]

/-- States and operands that meet the hypotheses of each clause of `Obligations.StepPlansPost`. -/
theorem witness_StepPlansPost :
    (∃ (s : State) (v : W64) (a : Nat), s.Inv ∧ s.Accepts Reg.BELL_PLAN v ∧ bits v.toNat 0 0 = 1
      ∧ a = bits v.toNat 51 6 * 64 ∧ s.bell.plans = [] ∧ s.bell.deferred = [] ∧ s.inLead = false
      ∧ s.bell.plans.length < 16)
    ∧ (∃ (s : State) (v : W64) (a : Nat), s.Inv ∧ s.Accepts Reg.BELL_PLAN v ∧ bits v.toNat 0 0 = 1
      ∧ a = bits v.toNat 51 6 * 64 ∧ s.inLead = false ∧ 16 ≤ s.bell.plans.length)
    ∧ (∃ (s : State) (v : W64) (a : Nat), s.Inv ∧ s.Accepts Reg.BELL_PLAN v ∧ bits v.toNat 0 0 = 1
      ∧ a = bits v.toNat 51 6 * 64 ∧ s.inLead = true)
    ∧ (∃ (s : State) (v : W64) (a : Nat), s.Inv ∧ s.Accepts Reg.BELL_PLAN v ∧ bits v.toNat 0 0 = 1
      ∧ a = bits v.toNat 51 6 * 64 ∧ s.bell.plans = [⟨a, false, []⟩] ∧ s.planOk a = false ∧ s.poison = []
      ∧ s.fld Reg.EVLOG_RING 51 18 = 0)
    ∧ (∃ (s : State) (v : W64) (a : Nat), s.Inv ∧ s.Accepts Reg.BELL_PLAN v ∧ bits v.toNat 0 0 = 1
      ∧ a = bits v.toNat 51 6 * 64 ∧ s.bell.plans = [⟨a, false, []⟩] ∧ s.planOk a = true) :=
  ⟨⟨bnd [], 65#64, 64, inv_of (by decide +kernel), by unfold State.Accepts; decide +kernel⟩,
   ⟨st13_0, 65#64, 64, inv_of (by decide +kernel), by unfold State.Accepts; decide +kernel⟩,
   ⟨st13_1, 65#64, 64, inv_of (by decide +kernel), by unfold State.Accepts; decide +kernel⟩,
   ⟨st13_2, 65#64, 64, inv_of (by decide +kernel), by unfold State.Accepts; decide +kernel⟩,
   ⟨st13_3, 65#64, 64, inv_of (by decide +kernel), by unfold State.Accepts; decide +kernel⟩⟩

def st14_0 : State :=
  { bnd [(Reg.CTX_MODEL, mdl 2 1)] with cal := { State.reset.cal with heldLayer := some 1 } }

def st14_1 : State :=
  half .calico (adm 3 [tok 0]) { rnd 0 [{ issued := true, written := true }] with
    gated := true, ledgerDone := true } (bnd [(Reg.CTX_MODEL, mdl 2 1)])

def round14_2 : Round :=
  { rnd 0 [{ issued := true, written := true }] with gated := true, ledgerDone := true }

def st14_3 : State :=
  half .calico (adm 3 [tok 0]) { rnd 0 [{ issued := true, written := false }] with
    gated := true, ledgerDone := true } (bnd [(Reg.CTX_MODEL, mdl 2 1)])

def round14_4 : Round :=
  { rnd 0 [{ issued := true, written := false }] with gated := true, ledgerDone := true }

/-- States and operands that meet the hypotheses of each clause of `Obligations.LayerDoorbells`. -/
theorem witness_LayerDoorbells :
    (∃ (s : State) (v : W64) (l : Nat), s.Inv ∧ s.Accepts Reg.BELL_LAYER_IN v ∧ bits v.toNat 8 8 = 0
      ∧ l = bits v.toNat 7 0 ∧ s.layers ≤ l)
    ∧ (∃ (s : State) (v : W64) (l : Nat), s.Inv ∧ s.Accepts Reg.BELL_LAYER_IN v ∧ bits v.toNat 8 8 = 0
      ∧ l = bits v.toNat 7 0 ∧ l < s.layers ∧ s.cal.heldLayer = none ∧ s.cal.sets = []
      ∧ (s.bell.everOpened = false ∨ s.bell.scalesDone = true) ∧ s.cal.expected = l)
    ∧ (∃ (s : State) (v : W64) (l k : Nat), s.Inv ∧ s.Accepts Reg.BELL_LAYER_IN v ∧ bits v.toNat 8 8 = 0
      ∧ l = bits v.toNat 7 0 ∧ l < s.layers ∧ s.cal.heldLayer = some k)
    ∧ (∃ (s : State) (v : W64) (l : Nat) (a : AdmSet) (r : Round) (rest : List AdmSet), s.Inv
      ∧ (s.Accepts Reg.BELL_LAYER_IN v ∧ bits v.toNat 8 8 = 0 ∧ l = bits v.toNat 7 0 ∧ s.cal.sets = a :: rest
        ∧ s.cal.cur = some r ∧ s.cal.heldLayer = none ∧ r.gated = true ∧ r.ledgerDone = true) ∧ r.stale = []
      ∧ (r.late = true ∨ r.over s.now true = false) ∧ (∀ x ∈ r.toks, x.issued = true ∧ x.written = true)
      ∧ r.layer + 1 < confLayers (s.confAt a.bell))
    ∧ (∃ (s : State) (v : W64) (l : Nat) (a : AdmSet) (r : Round) (rest : List AdmSet), s.Inv
      ∧ s.Accepts Reg.BELL_LAYER_IN v ∧ bits v.toNat 8 8 = 0 ∧ l = bits v.toNat 7 0 ∧ s.cal.sets = a :: rest
      ∧ s.cal.cur = some r ∧ (r.gated = false ∨ ∃ x ∈ r.toks, x.written = false)) :=
  ⟨⟨bnd [(Reg.CTX_MODEL, mdl 2 1)], 2#64, 2, inv_of (by decide +kernel), by unfold State.Accepts; decide +kernel⟩,
   ⟨bnd [(Reg.CTX_MODEL, mdl 2 1)], 0#64, 0, inv_of (by decide +kernel), by unfold State.Accepts; decide +kernel⟩,
   ⟨st14_0, 0#64, 0, 1, inv_of (by decide +kernel), by unfold State.Accepts; decide +kernel⟩,
   ⟨st14_1, 0#64, 0, adm 3 [tok 0], round14_2, [], inv_of (by decide +kernel),
     (by unfold State.Accepts; decide +kernel), by decide +kernel⟩,
   ⟨st14_3, 0#64, 0, adm 3 [tok 0], round14_4, [], inv_of (by decide +kernel),
     by unfold State.Accepts; decide +kernel⟩⟩

def st15_0 : State :=
  { half .calico (adm 3 []) (rnd 1 []) (bnd []) with now := 50000 }

def st15_1 : State :=
  half .calico (adm 3 []) (rnd 1 []) (bnd [])

def st15_2 : State :=
  half .muslin (adm 3 []) { rnd 1 [] with late := true } (bnd [])

/-- States and operands that meet the hypotheses of each clause of `Obligations.SlotsGoLate`. -/
theorem witness_SlotsGoLate :
    (∃ (s : State) (h : Half) (a : AdmSet) (r : Round) (rest : List AdmSet), s.Inv ∧ r.layer < 256
      ∧ (s.half h).sets = a :: rest ∧ (s.half h).cur = some r ∧ r.late = false ∧ r.over s.now false = true
      ∧ s.bit Reg.BELL_LATE 12 = false ∧ r.promise + 20000 ≤ r.engineTime s.now false)
    ∧ (∃ (s : State) (h : Half) (a : AdmSet) (r : Round) (rest : List AdmSet), s.Inv ∧ r.layer < 256
      ∧ (s.half h).sets = a :: rest ∧ (s.half h).cur = some r ∧ r.late = false
      ∧ r.engineTime s.now false < r.promise + 20000 ∧ r.over s.now false = false)
    ∧ (∃ (s : State) (h : Half) (a : AdmSet) (r : Round) (rest : List AdmSet), s.Inv ∧ r.layer < 256
      ∧ (s.half h).sets = a :: rest ∧ (s.half h).cur = some r ∧ r.late = true)
    ∧ (∃ (s : State) (h : Half) (r : Round), s.Inv ∧ r.layer < 256 ∧ s.curRound h = none) :=
  ⟨⟨st15_0, .calico, adm 3 [], rnd 1 [], [], inv_of (by decide +kernel), by decide +kernel⟩,
   ⟨st15_1, .calico, adm 3 [], rnd 1 [], [], inv_of (by decide +kernel), by decide +kernel⟩,
   ⟨st15_2, .muslin, adm 3 [], { rnd 1 [] with late := true }, [], inv_of (by decide +kernel), by decide +kernel⟩,
   ⟨bnd [], .muslin, rnd 0 [], inv_of (by decide +kernel), by decide +kernel⟩⟩

def st16_0 : State :=
  half .calico (adm 3 [tok 0, tok 1, tok 2]) (rnd 1 [{ scored := true }, {}, {}]) (wld [])

def roundv16_1 : RoundView :=
  viewOf st16_0 .calico

def tok16_2 : Tok :=
  ((adm 3 [tok 0, tok 1, tok 2]).toks[1]?).getD (tok 0)

def rtok16_3 : RTok :=
  ((rnd 1 [{ scored := true }, {}, {}]).toks[1]?).getD ({} : RTok)

def st16_4 : State :=
  half .calico (adm 3 [tok 0, tok 1, tok 2]) (rnd 1 [{ scored := true }, {}, {}])
  ({ wld [] with
      score := { State.reset.score with
        bankA := { valid := true, layer := 1, refetch := some (8, 3) }, projRefetch := some (5, 3, .calico) } })

def roundv16_5 : RoundView :=
  viewOf st16_4 .calico

def st16_6 : State :=
  half .muslin (adm 3 (List.replicate 9 (tok 0))) (rnd 1 (List.replicate 9 { scored := true })) (wld [])

def roundv16_7 : RoundView :=
  viewOf st16_6 .muslin

def tok16_8 : Tok :=
  ((adm 3 (List.replicate 9 (tok 0))).toks[0]?).getD (tok 0)

def rtok16_9 : RTok :=
  ((rnd 1 (List.replicate 9 { scored := true })).toks[0]?).getD ({} : RTok)

/-- States and operands that meet the hypotheses of each clause of `Obligations.TokensAreScored`. -/
theorem witness_TokensAreScored :
    (∃ (s : State) (h : Half) (v : RoundView) (i : Nat) (x : Tok) (y : RTok) (area : _) (addr : _) (k : _),
      s.Inv
      ∧ (s.view h = some v ∧ v.set.toks[i]? = some x ∧ v.rnd.toks[i]? = some y ∧ v.rnd.toScore = some i
        ∧ s.scoreWaits v h = false ∧ (s.convRoom h i (confWire v.conf v.rnd.layer)).1 = true
        ∧ (s.seq x.seq).state = 1 ∧ (s.seq x.seq).failure = 0#64) ∧ addr ∉ s.areaUe area ∧ s.poison = []
      ∧ s.curRound k = none)
    ∧ (∃ (s : State) (h : Half) (v : RoundView) (i : Nat) (x : Tok) (y : RTok), s.Inv ∧ s.view h = some v
      ∧ v.set.toks[i]? = some x ∧ v.rnd.toks[i]? = some y ∧ s.scoreWaits v h = true)
    ∧ (∃ (s : State) (h : Half) (v : RoundView) (i : Nat) (x : Tok) (y : RTok), s.Inv ∧ s.view h = some v
      ∧ v.set.toks[i]? = some x ∧ v.rnd.toks[i]? = some y ∧ v.rnd.shadowNext = i ∧ y.scored = true
      ∧ i + 8 ≤ v.set.toks.length) :=
  ⟨⟨st16_0, .calico, roundv16_1, 1, tok16_2, rtok16_3, Sys2Proof.KeyArea.bank false, 0, Sys2Proof.Half.muslin,
     inv_of (by decide +kernel), (by decide +kernel), by decide +kernel⟩,
   ⟨st16_4, .calico, roundv16_5, 1, tok16_2, rtok16_3, inv_of (by decide +kernel), by decide +kernel⟩,
   ⟨st16_6, .muslin, roundv16_7, 0, tok16_8, rtok16_9, inv_of (by decide +kernel), by decide +kernel⟩⟩

def st17_0 : State :=
  { bnd [] with score := { State.reset.score with selfTest := true } }

/-- States and operands that meet the hypotheses of each clause of `Obligations.TileTestsEnd`. -/
theorem witness_TileTestsEnd :
    (∃ (s : State) (n : Nat), s.Inv ∧ s.score.selfTest = true ∧ n ≤ 8 ∧ s.bit Reg.SPARE_TILES n = false
      ∧ s.cal.heldLayer = none ∧ s.mus.heldLayer = none)
    ∧ (∃ (s : State) (n : Nat), s.Inv ∧ s.bit Reg.SPARE_TILES n = true ∧ s.score.selfTest = false) :=
  ⟨⟨st17_0, 8, inv_of (by decide +kernel), by decide +kernel⟩,
   ⟨bnd [(Reg.SPARE_TILES,1)], 0, inv_of (by decide +kernel), by decide +kernel⟩⟩

def st18_0 : State :=
  { bnd [(Reg.KEYS_CHECK,1),(Reg.SEL_CHECK,1),(Reg.RES_DIR_LIVE,4),(Reg.CTX_MODEL,mdl 0 1)] with
    staged := [(Reg.KEYS_TABLE, 0x4000#64)] }

def st18_1 : State :=
  { bnd [(Reg.KEYS_CHECK,1),(Reg.SEL_CHECK,1),(Reg.RES_DIR_LIVE,4),(Reg.CTX_MODEL,mdl 2 1)] with
    staged := [(Reg.KEYS_TABLE, 0x4000#64),(Reg.SEL_TABLE, 0x4000#64)] }

/-- States and operands that meet the hypotheses of each clause of `Obligations.ScoringTables`. -/
theorem witness_ScoringTables :
    (∃ (s : State) (v : W64), s.Inv ∧ s.Accepts Reg.KEYS_TABLE v ∧ bits v.toNat 51 14 ≠ 0
      ∧ s.Accepts Reg.SEL_TABLE v ∧ v ≠ 0#64 ∧ s.Accepts Reg.SEQ_HASH_IN v ∧ s.fld Reg.KEYS_CHECK 1 0 ≠ 1)
    ∧ (∃ (s : State), s.Inv ∧ s.fld Reg.KEYS_CHECK 1 0 = 1 ∧ s.checkExperts ≠ 0 ∧ s.poison = []
      ∧ s.readFailed = []
      ∧ (∀ l, l < bits s.checkModel 24 16 →
        (s.keysLayer (s.stagedReg Reg.KEYS_TABLE).toNat s.checkExperts (256 * bits s.checkModel 31 25) l).1 = 0)
      ∧ s.fld Reg.SEL_CHECK 1 0 = 1
      ∧ (∀ l, l < bits s.checkModel 24 16 →
        selReason (s.rd ((s.stagedReg Reg.SEL_TABLE).toNat + 32 * l) 32) s.checkExperts = 0))
    ∧ (∃ (s : State), s.Inv ∧ s.fld Reg.KEYS_CHECK 1 0 = 1 ∧ s.checkExperts ≠ 0 ∧ s.poison = []
      ∧ s.readFailed = []
      ∧ (∃ l, l < bits s.checkModel 24 16
        ∧ (s.keysLayer (s.stagedReg Reg.KEYS_TABLE).toNat s.checkExperts (256 * bits s.checkModel 31 25) l).1 ≠ 0)
      ∧ s.fld Reg.SEL_CHECK 1 0 = 1
      ∧ (∃ l, l < bits s.checkModel 24 16
        ∧ selReason (s.rd ((s.stagedReg Reg.SEL_TABLE).toNat + 32 * l) 32) s.checkExperts ≠ 0))
    ∧ (∃ (s : State) (v : W64), s.Inv ∧ s.Accepts Reg.KEYS_TABLE v ∧ bits v.toNat 51 14 = 0) :=
  ⟨⟨bnd [], 16384#64, inv_of (by decide +kernel), by unfold State.Accepts; decide +kernel⟩,
   ⟨st18_0, inv_of (by decide +kernel), by decide +kernel⟩,
   ⟨st18_1, inv_of (by decide +kernel), by decide +kernel⟩,
   ⟨bnd [], 0#64, inv_of (by decide +kernel), by unfold State.Accepts; decide +kernel⟩⟩

def st19_0 : State :=
  { bnd [(Reg.RES_DIR_LIVE,4),(Reg.CTX_MODEL,mdl 2 1)] with
    score := { State.reset.score with projRefetch := some (8, 3, .calico), projUe := [8] }, now := 50,
    cal := { State.reset.cal with sets := [adm 2 [tok 0]], cur := some (rnd 1 [{}]) } }

def st19_1 : State :=
  { bnd [(Reg.RES_DIR_LIVE,4),(Reg.CTX_MODEL,mdl 2 1)] with
    score := { State.reset.score with bankA := { loading := true, layer := 1 } } }

def st19_2 : State :=
  { bnd [(Reg.RES_DIR_LIVE,4),(Reg.CTX_MODEL,mdl 2 1)] with
    score := { State.reset.score with bankB := { valid := true, layer := 1, refetch := some (8, 3) } },
    now := 50, cal := { State.reset.cal with sets := [adm 2 [tok 0]], cur := some (rnd 1 [{}]) } }

/-- States and operands that meet the hypotheses of each clause of `Obligations.BankImagesComplete`. -/
theorem witness_BankImagesComplete :
    (∃ (s : State) (b : Bool) (a t0 : Nat) (h : _) (area : _), s.Inv ∧ s.cal.heldLayer = none
      ∧ s.mus.heldLayer = none ∧ s.score.projRefetch = some (a, t0, h) ∧ s.poison = []
      ∧ (s.bank b).loading = false ∧ (∀ q, s.areaRefetch area = some q → q.1 ≠ a))
    ∧ (∃ (s : State) (b : Bool), s.Inv ∧ s.cal.heldLayer = none ∧ s.mus.heldLayer = none
      ∧ (s.bank b).loading = true)
    ∧ (∃ (s : State) (b : Bool) (a t0 : Nat), s.Inv ∧ s.cal.heldLayer = none ∧ s.mus.heldLayer = none
      ∧ (s.bank b).refetch = some (a, t0) ∧ s.poison = []) :=
  ⟨⟨st19_0, true, 8, 3, Sys2Proof.Half.calico, Sys2Proof.KeyArea.bank false, inv_of (by decide +kernel),
     by decide +kernel⟩,
   ⟨st19_1, false, inv_of (by decide +kernel), by decide +kernel⟩,
   ⟨st19_2, true, 8, 3, inv_of (by decide +kernel), by decide +kernel⟩⟩

def st20_0 : State :=
  half .calico (adm 3 [tok 0, tok 1]) (rnd 0 [{ scored := true, err := true }, {}]) (wld [])

def roundv20_1 : RoundView :=
  viewOf st20_0 .calico

def tok20_2 : Tok :=
  ((adm 3 [tok 0, tok 1]).toks[0]?).getD (tok 0)

def rtok20_3 : RTok :=
  ((rnd 0 [{ scored := true, err := true }, {}]).toks[0]?).getD ({} : RTok)

def st20_4 : State :=
  half .calico (adm 3 [tok 0, tok 1])
  ({ rnd 0 [{ scored := true, selected := true }, { selected := true }] with bins := [(0, leBytes 16 5)] })
  (wld [])

def roundv20_5 : RoundView :=
  viewOf st20_4 .calico

def st20_6 : State :=
  half .calico (adm 3 [tok 0, tok 1]) (rnd 0 [{ scored := true, cands := [(0,f1),(1,f2),(2,0#32)] }, {}]) (wld [])

def roundv20_7 : RoundView :=
  viewOf st20_6 .calico

def rtok20_8 : RTok :=
  ((rnd 0 [{ scored := true, cands := [(0,f1),(1,f2),(2,0#32)] }, {}]).toks[0]?).getD ({} : RTok)

def st20_9 : State :=
  half .calico (adm 3 [tok 0, tok 1]) (rnd 0 [{ scored := true, cands := [(0,f1),(1,fInf),(2,0#32)] }, {}])
  (wld [])

def roundv20_10 : RoundView :=
  viewOf st20_9 .calico

def rtok20_11 : RTok :=
  ((rnd 0 [{ scored := true, cands := [(0,f1),(1,fInf),(2,0#32)] }, {}]).toks[0]?).getD ({} : RTok)

/-- States and operands that meet the hypotheses of each clause of `Obligations.TokensSelect`. -/
theorem witness_TokensSelect :
    (∃ (s : State) (h : Half) (v : RoundView) (i : Nat) (x : Tok) (y : RTok), s.Inv ∧ s.view h = some v
      ∧ v.rnd.toSelect = some i ∧ v.set.toks[i]? = some x ∧ v.rnd.toks[i]? = some y ∧ v.sel.sharedIds = []
      ∧ y.err = true ∧ (v.rnd.closed = true ∨ v.rnd.folded = true ∨ ∃ z ∈ v.rnd.toks, z.selected = false))
    ∧ (∃ (s : State) (h : Half) (v : RoundView), s.Inv ∧ s.view h = some v ∧ v.rnd.closed = false
      ∧ v.rnd.folded = false ∧ (∀ z ∈ v.rnd.toks, z.selected = true)
      ∧ (v.rnd.ar = 0 → v.rnd.shadowsDone = true) ∧ v.rnd.toSelect = none)
    ∧ (∃ (s : State) (h : Half) (v : RoundView) (i : Nat) (x : Tok) (y : RTok), s.Inv ∧ s.view h = some v
      ∧ v.rnd.toSelect = some i ∧ v.set.toks[i]? = some x ∧ v.rnd.toks[i]? = some y ∧ v.sel.sharedIds = []
      ∧ y.err = false ∧ (∀ c ∈ s.cands v x y, fFinite c.eff = true))
    ∧ (∃ (s : State) (h : Half) (v : RoundView) (i : Nat) (x : Tok) (y : RTok), s.Inv ∧ s.view h = some v
      ∧ v.rnd.toSelect = some i ∧ v.set.toks[i]? = some x ∧ v.rnd.toks[i]? = some y ∧ v.sel.sharedIds = []
      ∧ y.err = false ∧ (∃ c ∈ s.cands v x y, fFinite c.eff = false)) :=
  ⟨⟨st20_0, .calico, roundv20_1, 0, tok20_2, rtok20_3, inv_of (by decide +kernel), by decide +kernel⟩,
   ⟨st20_4, .calico, roundv20_5, inv_of (by decide +kernel), by decide +kernel⟩,
   ⟨st20_6, .calico, roundv20_7, 0, tok20_2, rtok20_8, inv_of (by decide +kernel), by decide +kernel⟩,
   ⟨st20_9, .calico, roundv20_10, 0, tok20_2, rtok20_11, inv_of (by decide +kernel), by decide +kernel⟩⟩

def st22_0 : State :=
  half .calico (adm 3 [tok 0, tok 1])
  ({ rnd 0 [{ selected := true, choices := [{ awaitC 1 with st := .granted }], sel := [⟨1, f1, f1⟩] },
        { selected := true }] with
      folded := true }) (wld [])

def roundv22_1 : RoundView :=
  viewOf st22_0 .calico

def st22_2 : State :=
  half .calico (adm 3 [tok 0, tok 1])
  ({ rnd 0 [{ selected := true }, { selected := true }] with folded := true, gated := true }) (wld [])

def roundv22_3 : RoundView :=
  viewOf st22_2 .calico

/-- States and operands that meet the hypotheses of each clause of `Obligations.GateWeights`. -/
theorem witness_GateWeights :
    (∃ (s : State) (h : Half) (v : RoundView), s.Inv ∧ s.view h = some v ∧ v.rnd.folded = true
      ∧ v.rnd.gated = false)
    ∧ (∃ (s : State) (h : Half) (v : RoundView), s.Inv ∧ s.view h = some v
      ∧ (v.rnd.folded = false ∨ v.rnd.gated = true)) :=
  ⟨⟨st22_0, .calico, roundv22_1, inv_of (by decide +kernel), by decide +kernel⟩,
   ⟨st22_2, .calico, roundv22_3, inv_of (by decide +kernel), by decide +kernel⟩⟩

def st23_0 : State :=
  (wld []).setHome .calico { ({} : HomeHalf) with cur := some (3 * 1024), closedNr := [(3 * 1024, [])] }

def listby23_1 : List Byte :=
  leBytes 8 ((3 % 256) * 2 ^ 8) ++ leBytes 8 (0x3F800000 + 1 * 2 ^ 32)

def listby23_2 : List Byte :=
  leBytes 8 77 ++ leBytes 8 (1 * 2 ^ 32 + 2 * 2 ^ 62)

def homeha23_3 : HomeHalf :=
  { ({} : HomeHalf) with cur := some (3 * 1024), closedNr := [(3 * 1024, [])] }

def bid23_4 : Bid :=
  bidOf 0 (recLo listby23_1) (recHi listby23_1) (recLo listby23_2)

def st23_5 : State :=
  (wld []).setHome .calico { ({} : HomeHalf) with
    cur := some (3 * 1024), closedNr := [(3 * 1024, [])], room := [(1, 2)],
    space := [⟨3 * 1024, 0, recLo listby23_1, recHi listby23_1⟩] }

def homeha23_6 : HomeHalf :=
  { ({} : HomeHalf) with
    cur := some (3 * 1024), closedNr := [(3 * 1024, [])], room := [(1, 2)],
    space := [⟨3 * 1024, 0, recLo listby23_1, recHi listby23_1⟩] }

def st23_7 : State :=
  (wld []).setHome .calico { ({} : HomeHalf) with
    cur := some (3 * 1024), closedNr := [(3 * 1024, [])], room := [(1, 1)],
    space := [⟨3 * 1024, 0, recLo listby23_1, recHi listby23_1⟩],
    keepers := [(1, [⟨0, 0#64, f2, 1, 0, 0, 99#64, 0⟩])] }

def homeha23_8 : HomeHalf :=
  { ({} : HomeHalf) with
    cur := some (3 * 1024), closedNr := [(3 * 1024, [])], room := [(1, 1)],
    space := [⟨3 * 1024, 0, recLo listby23_1, recHi listby23_1⟩],
    keepers := [(1, [⟨0, 0#64, f2, 1, 0, 0, 99#64, 0⟩])] }

def st23_9 : State :=
  (wld []).setHome .calico { ({} : HomeHalf) with
    cur := some (3 * 1024), closedNr := [(3 * 1024, [])], room := [(1, 1)],
    space := [⟨3 * 1024, 0, recLo listby23_1, recHi listby23_1⟩],
    keepers := [(1, [⟨0, 0#64, 0#32, 1, 0, 0, 99#64, 0⟩])] }

def homeha23_10 : HomeHalf :=
  { ({} : HomeHalf) with
    cur := some (3 * 1024), closedNr := [(3 * 1024, [])], room := [(1, 1)],
    space := [⟨3 * 1024, 0, recLo listby23_1, recHi listby23_1⟩],
    keepers := [(1, [⟨0, 0#64, 0#32, 1, 0, 0, 99#64, 0⟩])] }

def st23_11 : State :=
  (wld []).setHome .calico { ({} : HomeHalf) with timedOut := [3 * 1024] }

def homeha23_12 : HomeHalf :=
  { ({} : HomeHalf) with timedOut := [3 * 1024] }

/-- States and operands that meet the hypotheses of each clause of `Obligations.BidsMeetTheirKeepers`. -/
theorem witness_BidsMeetTheirKeepers :
    (∃ (s : State) (src : Node) (half : Half) (rec note : List Byte) (i k : Nat) (x : HomeHalf) (b : Bid),
      s.Inv
      ∧ (half = halfOf (hHalf (recLo rec)) ∧ k = roundKey (fullBell s.bellNo (hBell (recLo rec)))
        (hLayer (recLo rec)) (bits (recHi rec).toNat 53 52) ∧ hLayer (recLo rec) < 256
        ∧ indexOfNat src (s.sourcesAt (keyBell k)) = some i ∧ s.roundOccurs k = true ∧ recKind (recHi rec) = 0)
      ∧ (x = s.home half) ∧ (b = bidOf i (recLo rec) (recHi rec) (recLo note)) ∧ x.timedOut.contains k = false
      ∧ x.done.any (k ≤ ·) = false ∧ x.cur = some k ∧ (tFind k x.closedNr).isSome = true ∧ x.closeOf k i = none
      ∧ s.isHomed (keyBell k) b.expert = true ∧ x.space = [])
    ∧ (∃ (s : State) (src : Node) (half : Half) (rec note : List Byte) (i k : Nat) (x : HomeHalf) (b : Bid)
      (kp : List Bid), s.Inv
      ∧ (half = halfOf (hHalf (recLo rec)) ∧ k = roundKey (fullBell s.bellNo (hBell (recLo rec)))
        (hLayer (recLo rec)) (bits (recHi rec).toNat 53 52) ∧ hLayer (recLo rec) < 256
        ∧ indexOfNat src (s.sourcesAt (keyBell k)) = some i ∧ s.roundOccurs k = true ∧ recKind (recHi rec) = 0)
      ∧ (x = s.home half) ∧ (b = bidOf i (recLo rec) (recHi rec) (recLo note))
      ∧ (x.timedOut.contains k = false ∧ x.done.any (k ≤ ·) = false ∧ x.cur = some k
        ∧ (tFind k x.closedNr).isSome = true ∧ x.closeOf k i = none ∧ s.isHomed (keyBell k) b.expert = true
        ∧ x.space = [⟨k, i, recLo rec, recHi rec⟩] ∧ bits (recHi note).toNat 37 32 ≤ 1) ∧ noteFor k i (recLo rec)
      ⟨k, i, recLo note, recHi note⟩ = true ∧ ((tFind k x.closedNr).getD []).contains b.expert = false
      ∧ kp = (tFind b.expert x.keepers).getD []
      ∧ (kp.any fun c => sameKey (s.selEnt (s.confAt (keyBell k)) (keyLayer k)).ec b c) = false
      ∧ kp.length < tGet zeroNat b.expert x.room)
    ∧ (∃ (s : State) (src : Node) (half : Half) (rec note : List Byte) (i k : Nat) (x : HomeHalf) (b : Bid)
      (kp : List Bid) (w : _), s.Inv
      ∧ (half = halfOf (hHalf (recLo rec)) ∧ k = roundKey (fullBell s.bellNo (hBell (recLo rec)))
        (hLayer (recLo rec)) (bits (recHi rec).toNat 53 52) ∧ hLayer (recLo rec) < 256
        ∧ indexOfNat src (s.sourcesAt (keyBell k)) = some i ∧ s.roundOccurs k = true ∧ recKind (recHi rec) = 0)
      ∧ (x = s.home half) ∧ (b = bidOf i (recLo rec) (recHi rec) (recLo note))
      ∧ (x.timedOut.contains k = false ∧ x.done.any (k ≤ ·) = false ∧ x.cur = some k
        ∧ (tFind k x.closedNr).isSome = true ∧ x.closeOf k i = none ∧ s.isHomed (keyBell k) b.expert = true
        ∧ x.space = [⟨k, i, recLo rec, recHi rec⟩] ∧ bits (recHi note).toNat 37 32 ≤ 1) ∧ noteFor k i (recLo rec)
      ⟨k, i, recLo note, recHi note⟩ = true ∧ ((tFind k x.closedNr).getD []).contains b.expert = false
      ∧ kp = (tFind b.expert x.keepers).getD []
      ∧ (kp.any fun c => sameKey (s.selEnt (s.confAt (keyBell k)) (keyLayer k)).ec b c) = false
      ∧ tGet zeroNat b.expert x.room ≤ kp.length ∧ tGet zeroNat b.expert x.room ≠ 0 ∧ kp.getLast? = some w
      ∧ bidLt (s.selEnt (s.confAt (keyBell k)) (keyLayer k)).ec b w = false)
    ∧ (∃ (s : State) (src : Node) (half : Half) (rec note : List Byte) (i k : Nat) (x : HomeHalf) (b : Bid)
      (kp : List Bid) (w : _), s.Inv
      ∧ (half = halfOf (hHalf (recLo rec)) ∧ k = roundKey (fullBell s.bellNo (hBell (recLo rec)))
        (hLayer (recLo rec)) (bits (recHi rec).toNat 53 52) ∧ hLayer (recLo rec) < 256
        ∧ indexOfNat src (s.sourcesAt (keyBell k)) = some i ∧ s.roundOccurs k = true ∧ recKind (recHi rec) = 0)
      ∧ (x = s.home half) ∧ (b = bidOf i (recLo rec) (recHi rec) (recLo note))
      ∧ (x.timedOut.contains k = false ∧ x.done.any (k ≤ ·) = false ∧ x.cur = some k
        ∧ (tFind k x.closedNr).isSome = true ∧ x.closeOf k i = none ∧ s.isHomed (keyBell k) b.expert = true
        ∧ x.space = [⟨k, i, recLo rec, recHi rec⟩] ∧ bits (recHi note).toNat 37 32 ≤ 1) ∧ noteFor k i (recLo rec)
      ⟨k, i, recLo note, recHi note⟩ = true ∧ ((tFind k x.closedNr).getD []).contains b.expert = false
      ∧ kp = (tFind b.expert x.keepers).getD []
      ∧ (kp.any fun c => sameKey (s.selEnt (s.confAt (keyBell k)) (keyLayer k)).ec b c) = false
      ∧ tGet zeroNat b.expert x.room ≤ kp.length ∧ tGet zeroNat b.expert x.room ≠ 0 ∧ kp.getLast? = some w
      ∧ bidLt (s.selEnt (s.confAt (keyBell k)) (keyLayer k)).ec b w = true)
    ∧ (∃ (s : State) (src : Node) (half : Half) (rec note : List Byte) (i k : Nat) (x : HomeHalf) (b : Bid),
      s.Inv
      ∧ (half = halfOf (hHalf (recLo rec)) ∧ k = roundKey (fullBell s.bellNo (hBell (recLo rec)))
        (hLayer (recLo rec)) (bits (recHi rec).toNat 53 52) ∧ hLayer (recLo rec) < 256
        ∧ indexOfNat src (s.sourcesAt (keyBell k)) = some i ∧ s.roundOccurs k = true ∧ recKind (recHi rec) = 0)
      ∧ (x = s.home half) ∧ (b = bidOf i (recLo rec) (recHi rec) (recLo note)) ∧ x.timedOut.contains k = true) :=
  ⟨⟨st23_0, 0, .calico, listby23_1, listby23_2, 0, 3072, homeha23_3, bid23_4, inv_of (by decide +kernel),
     (by decide +kernel), (rfl), (rfl), by decide +kernel⟩,
   ⟨st23_5, 0, .calico, listby23_1, listby23_2, 0, 3072, homeha23_6, bid23_4, [], inv_of (by decide +kernel),
     (by decide +kernel), (rfl), (rfl), (by decide +kernel), by decide +kernel⟩,
   ⟨st23_7, 0, .calico, listby23_1, listby23_2, 0, 3072, homeha23_8, bid23_4, [⟨0, 0#64, f2, 1, 0, 0, 99#64, 0⟩],
     { src := 0,   handle := 0x0000000000000000#64,   eff := 0x40000000#32,   expert := 1,   rank := 0,
         ext := 0,   hash := 0x0000000000000063#64,   pos := 0 }, inv_of (by decide +kernel),
     (by decide +kernel), (rfl), (rfl), (by decide +kernel), by decide +kernel⟩,
   ⟨st23_9, 0, .calico, listby23_1, listby23_2, 0, 3072, homeha23_10, bid23_4,
     [⟨0, 0#64, 0#32, 1, 0, 0, 99#64, 0⟩],
     { src := 0,   handle := 0x0000000000000000#64,   eff := 0x00000000#32,   expert := 1,   rank := 0,
         ext := 0,   hash := 0x0000000000000063#64,   pos := 0 }, inv_of (by decide +kernel),
     (by decide +kernel), (rfl), (rfl), (by decide +kernel), by decide +kernel⟩,
   ⟨st23_11, 0, .calico, listby23_1, listby23_2, 0, 3072, homeha23_12, bid23_4, inv_of (by decide +kernel),
     (by decide +kernel), (rfl), (rfl), by decide +kernel⟩⟩

def st24_0 : State :=
  (wld1.setHome .calico { ({} : HomeHalf) with
      cur := some (3 * 1024), closedNr := [(3 * 1024, [])], closes := [(3 * 1024, 0, 2, 0)], merged := [(0, 2)],
      keepers := [(1, [⟨0, 0#64, f2, 1, 0, 0, 99#64, 0⟩])], room := [(1, 2)] })

def listby24_1 : List Byte :=
  leBytes 8 3 ++ leBytes 8 (2 * 2 ^ 32 + 3 * 2 ^ 62)

def homeha24_2 : HomeHalf :=
  { ({} : HomeHalf) with
    cur := some (3 * 1024), closedNr := [(3 * 1024, [])], closes := [(3 * 1024, 0, 2, 0)], merged := [(0, 2)],
    keepers := [(1, [⟨0, 0#64, f2, 1, 0, 0, 99#64, 0⟩])], room := [(1, 2)] }

def st24_3 : State :=
  ((wld []).setHome .calico { ({} : HomeHalf) with
      cur := some (3 * 1024), closedNr := [(3 * 1024, [])], grants := [(1, 3)] })

def listby24_4 : List Byte :=
  leBytes 8 (3 * 2 ^ 8) ++ leBytes 8 (1 + 2 ^ 62)

def homeha24_5 : HomeHalf :=
  { ({} : HomeHalf) with cur := some (3 * 1024), closedNr := [(3 * 1024, [])], grants := [(1, 3)] }

def st24_6 : State :=
  ((wld []).setHome .calico { ({} : HomeHalf) with done := some (3 * 1024), closes := [(3 * 1024 + 4, 0, 1, 0)] })

def homeha24_7 : HomeHalf :=
  { ({} : HomeHalf) with done := some (3 * 1024), closes := [(3 * 1024 + 4, 0, 1, 0)] }

def st24_8 : State :=
  ((wld []).setHome .calico { ({} : HomeHalf) with
      cur := some (3 * 1024), closedNr := [(3 * 1024, [])], merged := [(0, 2)] })

def homeha24_9 : HomeHalf :=
  { ({} : HomeHalf) with cur := some (3 * 1024), closedNr := [(3 * 1024, [])], merged := [(0, 2)] }

/-- States and operands that meet the hypotheses of each clause of `Obligations.RoundsCloseOrEnd`. -/
theorem witness_RoundsCloseOrEnd :
    (∃ (s : State) (src : Node) (half : Half) (rec : List Byte) (i k e d n : Nat) (x : HomeHalf) (kp : List Bid),
      s.Inv ∧ (x = s.home half)
      ∧ (half = halfOf (bits (recHi rec).toNat 8 8) ∧ indexOfNat src (s.sourcesAt (keyBell k)) = some i
        ∧ k = roundKey (recLo rec).toNat (bits (recHi rec).toNat 7 0) (bits (recHi rec).toNat 10 9)
        ∧ s.roundOccurs k = true ∧ n = bits (recHi rec).toNat 55 32
        ∧ s.otherBell half (recLo rec).toNat = false ∧ x.timedOut.contains k = false
        ∧ x.done.any (k ≤ ·) = false)
      ∧ ((x.closeOf k i).isSome = true ∧ x.cur = some k ∧ s.closeReady half k = true ∧ x.overSrc = []
        ∧ x.space = [] ∧ x.timedOut = [] ∧ (∀ c ∈ x.closes, c.1 = k) ∧ s.homedStalls (keyBell k) = [e])
      ∧ d = s.dirAt (keyBell k) e ∧ x.keepers = [(e, kp)] ∧ s.safe.aucAlone = false ∧ x.earliest = some k)
    ∧ (∃ (s : State) (src : Node) (half : Half) (rec : List Byte) (j k e : Nat) (x : HomeHalf), s.Inv
      ∧ (x = s.home half)
      ∧ (half = halfOf (hHalf (recLo rec)) ∧ e = bits (recHi rec).toNat 14 0 ∧ x.cur = some k
        ∧ keyBell k = fullBell s.bellNo (hBell (recLo rec)) ∧ keyLayer k = hLayer (recLo rec)
        ∧ indexOfNat src (s.sourcesAt (keyBell k)) = some j ∧ half = halfOf (bits (recHi rec).toNat 8 8)
        ∧ (indexOfNat src (s.sourcesAt (recLo rec).toNat)).isSome = true)
      ∧ s.otherBell half (recLo rec).toNat = true ∧ s.closeReady half k = false ∧ x.closes = [])
    ∧ (∃ (s : State) (half : Half) (k : Nat) (x : HomeHalf), s.Inv ∧ (x = s.home half) ∧ x.earliest = some k
      ∧ x.cur ≠ some k ∧ x.timedOut.contains k = false ∧ x.cur = none)
    ∧ (∃ (s : State) (src : Node) (half : Half) (rec : List Byte) (i k n : Nat) (x : HomeHalf), s.Inv
      ∧ (x = s.home half)
      ∧ (half = halfOf (bits (recHi rec).toNat 8 8) ∧ indexOfNat src (s.sourcesAt (keyBell k)) = some i
        ∧ k = roundKey (recLo rec).toNat (bits (recHi rec).toNat 7 0) (bits (recHi rec).toNat 10 9)
        ∧ s.roundOccurs k = true ∧ n = bits (recHi rec).toNat 55 32
        ∧ s.otherBell half (recLo rec).toNat = false ∧ x.timedOut.contains k = false
        ∧ x.done.any (k ≤ ·) = false) ∧ x.closeOf k i = none ∧ x.cur = some k
      ∧ (tFind k x.closedNr).isSome = true ∧ tGet zeroNat i x.merged ≤ n) :=
  ⟨⟨st24_0, 0, .calico, listby24_1, 0, 3072, 1, 0x8000000000000000000100000000, 2, homeha24_2,
     [⟨0, 0#64, f2, 1, 0, 0, 99#64, 0⟩], inv_of (by decide +kernel), (rfl), (by decide +kernel),
     (by decide +kernel), by decide +kernel⟩,
   ⟨st24_3, 0, .calico, listby24_4, 0, 3072, 1, homeha24_5, inv_of (by decide +kernel), (rfl),
     (by decide +kernel), by decide +kernel⟩,
   ⟨st24_6, .calico, 3076, homeha24_7, inv_of (by decide +kernel), (rfl), by decide +kernel⟩,
   ⟨st24_8, 0, .calico, listby24_1, 0, 3072, 2, homeha24_9, inv_of (by decide +kernel), (rfl),
     (by decide +kernel), by decide +kernel⟩⟩

def listby26_0 : List Byte :=
  leBytes 8 3 ++ b8 [0, 0] ++ leBytes 2 1 ++ leBytes 2 0 ++ leBytes 2 0

def st26_1 : State :=
  { wld [] with tok := { cal := [(⟨9, mkTag 1 0 0 false false false 0 0 5 1, b8 [1,2,3], 3, 0, 3⟩ : TokChunk)] } }

def tokchu26_2 : TokChunk :=
  (⟨9, mkTag 1 0 0 false false false 0 0 5 1, b8 [1,2,3], 3, 0, 3⟩ : TokChunk)

def listby26_3 : List Byte :=
  leBytes 8 3 ++ b8 [0, 0] ++ leBytes 2 0 ++ leBytes 2 0 ++ leBytes 2 0

def st26_4 : State :=
  { wld [] with res := { (wld []).res with ready := [(4, ⟨3, 0, [1]⟩)] } }

def st26_5 : State :=
  { wld [] with res := { (wld []).res with ready := [(4, ⟨2, 0, [1]⟩)] } }

def st26_6 : State :=
  { wld [] with res := { (wld []).res with ready := [(4, ⟨3, 4, [1]⟩)] } }

/-- States and operands that meet the hypotheses of each clause of `Obligations.ChunksLeaveInTurn`. -/
theorem witness_ChunksLeaveInTurn :
    (∃ (s : State) (rec : List Byte) (bell layer e i : Nat), s.Inv ∧ bell = fieldAt rec 0 8
      ∧ layer = fieldAt rec 8 1 ∧ e = fieldAt rec 0xA 2 % 2 ^ 15 ∧ i = fieldAt rec 0xC 2 % 2 ^ 15
      ∧ s.isHomed bell e = true ∧ tFind (e * 4 + layer % 4) s.res.ready = none ∧ s.tok.cal = [] ∧ s.tok.mus = [])
    ∧ (∃ (s : State) (half : Half) (c : TokChunk) (rest : List TokChunk), s.Inv
      ∧ (half = .calico ∧ (s.tok.mus = [] ∨ s.tok.sinceCal ≤ s.tok.sinceMus) ∨ half = .muslin
        ∧ (s.tok.cal = [] ∨ s.tok.sinceMus < s.tok.sinceCal)) ∧ s.tokQueue half = c :: rest ∧ tDir c.tag = 0
      ∧ c.dest ≠ s.node)
    ∧ (∃ (s : State) (rec : List Byte) (bell layer e i : Nat), s.Inv ∧ bell = fieldAt rec 0 8
      ∧ layer = fieldAt rec 8 1 ∧ e = fieldAt rec 0xA 2 % 2 ^ 15 ∧ i = fieldAt rec 0xC 2 % 2 ^ 15
      ∧ s.isHomed bell e = false)
    ∧ (∃ (s : State) (rec : List Byte) (bell layer e i : Nat) (r : _), s.Inv ∧ bell = fieldAt rec 0 8
      ∧ layer = fieldAt rec 8 1 ∧ e = fieldAt rec 0xA 2 % 2 ^ 15 ∧ i = fieldAt rec 0xC 2 % 2 ^ 15
      ∧ s.isHomed bell e = true ∧ tFind (e * 4 + layer % 4) s.res.ready = some r ∧ r.bell = bell % 2 ^ 16
      ∧ r.layer = layer)
    ∧ (∃ (s : State) (rec : List Byte) (bell layer e i : Nat) (r : _), s.Inv ∧ bell = fieldAt rec 0 8
      ∧ layer = fieldAt rec 8 1 ∧ e = fieldAt rec 0xA 2 % 2 ^ 15 ∧ i = fieldAt rec 0xC 2 % 2 ^ 15
      ∧ s.isHomed bell e = true ∧ tFind (e * 4 + layer % 4) s.res.ready = some r ∧ r.bell < 2 ^ 16
      ∧ r.bell = (bell % 2 ^ 16 + 2 ^ 16 - 1) % 2 ^ 16)
    ∧ (∃ (s : State) (rec : List Byte) (bell layer e i : Nat) (r : _), s.Inv ∧ bell = fieldAt rec 0 8
      ∧ layer = fieldAt rec 8 1 ∧ e = fieldAt rec 0xA 2 % 2 ^ 15 ∧ i = fieldAt rec 0xC 2 % 2 ^ 15
      ∧ s.isHomed bell e = true ∧ tFind (e * 4 + layer % 4) s.res.ready = some r ∧ r.bell = bell % 2 ^ 16
      ∧ layer < r.layer) :=
  ⟨⟨{ wld [] with tok := {  } }, listby26_0, 3, 0, 1, 0, inv_of (by decide +kernel), by decide +kernel⟩,
   ⟨st26_1, .calico, tokchu26_2, [], inv_of (by decide +kernel), by decide +kernel⟩,
   ⟨{ wld [] with tok := {  } }, listby26_3, 3, 0, 0, 0, inv_of (by decide +kernel), by decide +kernel⟩,
   ⟨st26_4, listby26_0, 3, 0, 1, 0, (tFind ((1) * 4 + (0) % 4) (st26_4).res.ready).getD ⟨0, 0, []⟩,
     inv_of (by decide +kernel), by decide +kernel⟩,
   ⟨st26_5, listby26_0, 3, 0, 1, 0, (tFind ((1) * 4 + (0) % 4) (st26_5).res.ready).getD ⟨0, 0, []⟩,
     inv_of (by decide +kernel), by decide +kernel⟩,
   ⟨st26_6, listby26_0, 3, 0, 1, 0, (tFind ((1) * 4 + (0) % 4) (st26_6).res.ready).getD ⟨0, 0, []⟩,
     inv_of (by decide +kernel), by decide +kernel⟩⟩

def terms52_0 : Terms :=
  ({ conf := [(Reg.BELL_DIAM, w 1)], h := 3, sources := 2, rate := 50, alone := false, w := 10, tiles := 8,
     step := 0 } : Terms)

def selent52_1 : SelEnt :=
  ({ flags := 2, rounds := 2, topk := 2, cap := 3 } : SelEnt)

def terms52_2 : Terms :=
  ({ conf := [(Reg.BELL_DIAM, w 5)], h := 3, sources := 2, rate := 50, alone := false, w := 10, tiles := 8,
     step := 0 } : Terms)

/-- States and operands that meet the hypotheses of each clause of `Obligations.SpillRoundTime`. -/
theorem witness_SpillRoundTime :
    (∃ (t : Terms) (e : SelEnt), e.ec = false ∧ e.spill = true ∧ 1 ≤ confFld t.conf Reg.BELL_DIAM 3 0
      ∧ confFld t.conf Reg.BELL_DIAM 3 0 ≤ 4)
    ∧ (∃ (t : Terms) (e : SelEnt), e.ec = false ∧ e.spill = true ∧ 5 ≤ confFld t.conf Reg.BELL_DIAM 3 0
      ∧ confFld t.conf Reg.BELL_DIAM 3 0 ≤ 8) :=
  ⟨⟨terms52_0, selent52_1, by decide +kernel⟩,
   ⟨terms52_2, selent52_1, by decide +kernel⟩⟩

def st53_0 : State :=
  (let s := st [(Reg.PAGE_TALLY_SEL (0x20), 0)]; { s with
      tally := { s.tally with live := [((0x20) * 64 + 1, 4294967295)] } })

def st53_1 : State :=
  st53_0.latchTallies 8

/-- States and operands that meet the hypotheses of each clause of `Obligations.TalliesStopAndShowSat`. -/
theorem witness_TalliesStopAndShowSat :
    (∃ (s t : State) (pg i k lim bell slot c d : Nat), s.Inv
      ∧ (i < 64 ∧ k = pg * 64 + i
        ∧ lim = (if (0x20 ≤ pg ∧ pg < 0x32 ∧ i ∈ [1, 2, 3, 13, 14])
          ∨ (pg = Pg.SAFE ∧ i = 9) then 2 ^ 32 - 1 else 2 ^ 40 - 1) ∧ slot < 16
        ∧ ((∀ p ∈ s.tally.late, p.1 ≠ k) ∧ c = tGet zeroNat k s.tally.live ∧ d = 0
          ∨ (∃ p ∈ s.tally.late, p.1 = k) ∧ ∀ p ∈ s.tally.late, p.1 = k → p.2 = (c, d)))
      ∧ (t = s.latchTallies bell) ∧ i = 16 * t.fld (Reg.PAGE_TALLY_SEL pg) 1 0 + slot
      ∧ t.bankInView pg = bell % 2) :=
  ⟨st53_0, st53_1, 0x20, 1, 2049, 0xffffffff, 8, 1, 0xffffffff, 0, inv_of (by decide +kernel),
    (by decide +kernel), (rfl), by decide +kernel⟩

def st54_0 : State :=
  (let s := bnd [(Reg.SAFE_CAUSE, 0x28)]; { s with safe := { s.safe with marks := [⟨1, 2, 3, false, true⟩] } })

/-- States and operands that meet the hypotheses of each clause of `Obligations.CausesClearUnderTheirFence`. -/
theorem witness_CausesClearUnderTheirFence :
    (∃ (s : State) (v : W64), s.Inv ∧ s.Accepts Reg.SAFE_CAUSE v) :=
  ⟨st54_0, 0x28#64, inv_of (by decide +kernel), by unfold State.Accepts; decide +kernel⟩

end G00

namespace G01

def st12_0 : State :=
  { bnd [(Reg.PBELL_STATE, 2),(Reg.PBELL_PERIOD_LIVE, 100000)] with
    bell := { State.reset.bell with
      nextBell := 5, nextOpen := 90000, everOpened := true, highest := 4, scalesDone := true, leadOpen := true } }

def st12_1 : State :=
  half .calico (adm 3 [tok 0]) (rnd 1 [{}]) (bnd [])

def st12_2 : State :=
  { bnd [(Reg.PBELL_STATE, 0),(Reg.PBELL_PERIOD_LIVE, 100000)] with
    bell := { State.reset.bell with nextBell := 5, nextOpen := 90000, everOpened := true } }

/-- States and operands that meet the hypotheses of each clause of `Obligations.BellOpensAndScales`. -/
theorem witness_BellOpensAndScales :
    (∃ (s : State) (b l : Nat) (h : Half), s.Inv
      ∧ (s.bellComes = true ∧ (s.slcState = 5 ∨ s.slcState = 6) ∧ s.bell.scalesDone = true
        ∧ s.bell.leadOpen = true)
      ∧ (∀ a r, s.curRound h = some (a, r) → a.bell ≠ b ∨ r.layer ≠ l ∨ r.late = true))
    ∧ (∃ (s : State) (b l : Nat) (h : Half) (a : _) (r : _), s.Inv ∧ s.curRound h = some (a, r) ∧ a.bell = b
      ∧ r.layer = l ∧ r.late = false ∧ s.bell.everOpened = false ∧ s.bellComes = false)
    ∧ (∃ (s : State), s.Inv ∧ s.bell.everOpened = true ∧ s.bell.scalesDone = false ∧ s.seqs = []
      ∧ s.cal.heldLayer = none ∧ s.mus.heldLayer = none) :=
  ⟨⟨st12_0, 5, 1, Half.calico, inv_of (by decide +kernel), (by decide +kernel), (all_pair (by decide +kernel))⟩,
   ⟨st12_1, 3, 1, .calico,
     { bell := 3,
         toks := [{
           seq := 0, pos := 0, gen := 0, ctx := 0, host := 0x0000000000000000#64,
           hash := 0x0000000000000000#64 }],   bounds := [10000, 10000],   step := 0,   taint := false },
     { layer := 1,   start := 0,
         toks := [{
           scored := false,              selected := false,              err := false,
                        taint := false,              subst := false,              spilled := false,
                        failed := false,              cands := [],              choices := [],
                        reserve := [],              hist := [],              errCause := 0,
                        sel := [],              weights := [],              filled := [],
                        parts := [],              t := 0,              ready := false,
                        issued := false,              written := false,              status := 0,
                        contrib := 0,              vec := [],              chain := none,
                        taintIn := false }],   shadowOk := 0,   shadowNext := 0,   ar := 0,   closed := false,
         bins := [],   sentBids := [],   sentRecs := [],   verdicts := [],   lostBids := [],   folded := false,
         gated := false,   z := [],   zPreset := [],   hdrs := [],   recsIn := [],   chunksIn := [],
         timedPlaces := [],   lostPlaces := [],   unacked := [],   shipped := [],   crcFail := [],
         fwdEnd := none,   lastVerdict := 0,   retReady := 0,   held := false,   bound := 0,   overlap := 0,
         retWait := 0,   retry := 0,   heldTo := 0,   beyondW := false,   throttled := false,   peer := false,
         late := false,   readyQ := [],   ledgerDone := false,   returnLost := false,   areaFrames := [],
         localCopies := 0,   combined := 0,   withheldIn := 0,   combinedBy := [],   withheldBy := [],
         discarded := [],   staleIn := 0 }, inv_of (by decide +kernel), by decide +kernel⟩,
   ⟨st12_2, inv_of (by decide +kernel), by decide +kernel⟩⟩

end G01

namespace G02

def st21_0 : State :=
  half .calico (adm 3 [tok 0, tok 1])
  ({ rnd 0 [{ selected := true, choices := [awaitC 1] }, { selected := true }] with closed := true }) (wld [])

def roundv21_1 : RoundView :=
  viewOf st21_0 .calico

def tok21_2 : Tok :=
  ((adm 3 [tok 0, tok 1]).toks[0]?).getD (tok 0)

def rtok21_3 : RTok :=
  (({ rnd 0 [{ selected := true, choices := [awaitC 1] }, { selected := true }] with closed := true }).toks[0]?).getD ({
      } : RTok)

def choice21_4 : Choice :=
  (((({ rnd 0 [{ selected := true, choices := [awaitC 1] }, { selected := true }] with closed := true }).toks[0]?).getD ({
          } : RTok)).choices[0]?).getD (awaitC 0)

def st21_5 : State :=
  half .calico (adm 3 [tok 0, tok 1])
  ({ rnd 0 [{ selected := true, choices := [{ awaitC 1 with st := .granted }] }, { selected := true }] with
      closed := true }) (wld [])

def roundv21_6 : RoundView :=
  viewOf st21_5 .calico

def rtok21_7 : RTok :=
  (({ rnd 0 [{ selected := true, choices := [{ awaitC 1 with st := .granted }] }, { selected := true }] with
        closed := true }).toks[0]?).getD ({} : RTok)

def choice21_8 : Choice :=
  (((({ rnd 0 [{ selected := true, choices := [{ awaitC 1 with st := .granted }] }, { selected := true }] with
            closed := true }).toks[0]?).getD ({} : RTok)).choices[0]?).getD (awaitC 0)

def st21_9 : State :=
  half .calico (adm 3 [tok 0, tok 1])
  ({ rnd 1 [{ selected := true, choices := [{ awaitC 1 with st := .refused }] }, { selected := true }] with
      closed := true }) (wld [])

def roundv21_10 : RoundView :=
  viewOf st21_9 .calico

/-- States and operands that meet the hypotheses of each clause of `Obligations.VerdictsAndFolds`. -/
theorem witness_VerdictsAndFolds :
    (∃ (s : State) (h : Half) (v : RoundView) (w : W64) (i j : Nat) (x : Tok) (y : RTok) (c : Choice)
      (home : Node), s.Inv
      ∧ (s.view h = some v ∧ s.handleVerdict (s.verdictHandle v.set.bell v.rnd.layer h w) = .pass
        ∧ v.rnd.folded = false ∧ j = vChoice v.sel.ec w
        ∧ (v.set.toks.zipIdx.find? fun p => p.1.seq == vIndex w && p.1.pos == vPos w) = some (x, i)
        ∧ v.rnd.toks[i]? = some y ∧ y.choices[j]? = some c ∧ c.st = .awaiting)
      ∧ nodeAt v.sources (s.homeOf v c) = home ∧ vGrant w = true
      ∧ (v.rnd.closed = false ∨ v.rnd.folded = true ∨ ∃ z ∈ v.rnd.toks, ∃ q ∈ z.choices, q.st = .awaiting))
    ∧ (∃ (s : State) (h : Half) (v : RoundView) (w : W64) (i j : Nat) (x : Tok) (y : RTok) (c : Choice), s.Inv
      ∧ (s.view h = some v ∧ s.handleVerdict (s.verdictHandle v.set.bell v.rnd.layer h w) = .pass
        ∧ v.rnd.folded = false ∧ j = vChoice v.sel.ec w
        ∧ (v.set.toks.zipIdx.find? fun p => p.1.seq == vIndex w && p.1.pos == vPos w) = some (x, i)
        ∧ v.rnd.toks[i]? = some y ∧ y.choices[j]? = some c ∧ c.st ≠ .awaiting) ∧ v.rnd.closed = true
      ∧ (∀ z ∈ v.rnd.toks, ∀ q ∈ z.choices, q.st ≠ .awaiting) ∧ v.rnd.sentBids = [] ∧ v.sel.x ≤ v.rnd.ar
      ∧ v.sel.ec = false)
    ∧ (∃ (s : State) (h : Half) (v : RoundView) (w : W64) (i j : Nat) (x : Tok) (y : RTok) (c : Choice)
      (home : Node), s.Inv
      ∧ (s.view h = some v ∧ s.handleVerdict (s.verdictHandle v.set.bell v.rnd.layer h w) = .pass
        ∧ v.rnd.folded = false ∧ j = vChoice v.sel.ec w
        ∧ (v.set.toks.zipIdx.find? fun p => p.1.seq == vIndex w && p.1.pos == vPos w) = some (x, i)
        ∧ v.rnd.toks[i]? = some y ∧ y.choices[j]? = some c ∧ c.st = .awaiting)
      ∧ nodeAt v.sources (s.homeOf v c) = home ∧ vGrant w = false)
    ∧ (∃ (s : State) (h : Half) (v : RoundView) (x : Tok), s.Inv ∧ s.view h = some v ∧ v.rnd.closed = true
      ∧ v.rnd.folded = false ∧ (∀ z ∈ v.rnd.toks, ∀ q ∈ z.choices, q.st ≠ .awaiting) ∧ v.rnd.sentBids = []
      ∧ v.rnd.ar < v.sel.x) :=
  ⟨⟨st21_0, .calico, roundv21_1, 0x7240005#64, 0, 0, tok21_2, rtok21_3, choice21_4, 0,
     inv_of (by decide +kernel), (by decide +kernel), by decide +kernel⟩,
   ⟨st21_5, .calico, roundv21_6, 0x7240005#64, 0, 0, tok21_2, rtok21_7, choice21_8, inv_of (by decide +kernel),
     (by decide +kernel), by decide +kernel⟩,
   ⟨st21_0, .calico, roundv21_1, 0x7208000#64, 0, 0, tok21_2, rtok21_3, choice21_4, 0,
     inv_of (by decide +kernel), (by decide +kernel), by decide +kernel⟩,
   ⟨st21_9, .calico, roundv21_10, tok21_2, inv_of (by decide +kernel), by decide +kernel⟩⟩

end G02

namespace G03

def wldr : State := { wld [] with pool := { regionCal := [4, 5] } }

def st25_0 : State :=
  wldr.setSite .calico ({
      bell := 3, layer := 0, active := true, stalls := [(1, { expert := 1 }), (2, { expert := 2 })] })

def listby25_1 : List Byte :=
  leBytes 8 3 ++ b8 [0, 0] ++ leBytes 2 1 ++ leBytes 2 0 ++ leBytes 2 2

def siteha25_2 : SiteHalf :=
  ({ bell := 3, layer := 0, active := true, stalls := [(1, { expert := 1 }), (2, { expert := 2 })] } : SiteHalf)

def listby25_3 : List Byte :=
  barrowHeader 3 0 0 0 .calico false false false 1 344 0 2 0

def bitvec25_4 : BitVec 32 :=
  chunkCrc 3 (mkTag 0 0 0 true false false 0 0 0 0) 0 0 listby25_3

def st25_5 : State :=
  wldr.setSite .calico ({
      bell := 3, layer := 0, active := true, stalls := [(1, { expert := 1 }), (2, { expert := 2 })],
      x := [(1, 2)] })

def listby25_6 : List Byte :=
  leBytes 8 3 ++ b8 [0, 8] ++ leBytes 2 1 ++ leBytes 2 0 ++ leBytes 2 2

def siteha25_7 : SiteHalf :=
  ({ bell := 3, layer := 0, active := true, stalls := [(1, { expert := 1 }), (2, { expert := 2 })],
     x := [(1, 2)] } : SiteHalf)

def st25_8 : State :=
  wldr.setSite .calico ({
      bell := 3, layer := 0, active := true, stalls := [(1, { expert := 1 }), (2, { expert := 2 })],
      x := [(1, 2)], sums := [(1, 3)] })

def siteha25_9 : SiteHalf :=
  ({ bell := 3, layer := 0, active := true, stalls := [(1, { expert := 1 }), (2, { expert := 2 })],
     x := [(1, 2)], sums := [(1, 3)] } : SiteHalf)

def st25_10 : State :=
  wldr.setSite .calico ({ bell := 3, layer := 0, active := true, stalls := [(1, { expert := 1 })] })

def listby25_11 : List Byte :=
  leBytes 8 3 ++ b8 [0, 8] ++ leBytes 2 1 ++ leBytes 2 0 ++ leBytes 2 0

def siteha25_12 : SiteHalf :=
  ({ bell := 3, layer := 0, active := true, stalls := [(1, { expert := 1 })] } : SiteHalf)

def listby25_13 : List Byte :=
  leBytes 8 2 ++ b8 [0, 0] ++ leBytes 2 1 ++ leBytes 2 0 ++ leBytes 2 2

def st25_14 : State :=
  wldr.setSite .calico ({
      bell := 3, layer := 0, active := true, stalls := [(1, { expert := 1 }), (2, { expert := 2 })],
      x := [(1, 1)] })

def listby25_15 : List Byte :=
  leBytes 8 (handleBody 0 0 0 0 0 3) ++ leBytes 8 (1 + 1 * 2 ^ 16)

def siteha25_16 : SiteHalf :=
  ({ bell := 3, layer := 0, active := true, stalls := [(1, { expert := 1 }), (2, { expert := 2 })],
     x := [(1, 1)] } : SiteHalf)

def st25_17 : State :=
  wldr.setSite .calico ({
      bell := 3, layer := 0, active := true, stalls := [(1, { expert := 1 }), (2, { expert := 2 })],
      x := [(1, 1)], finals := [(1, 1)] })

def siteha25_18 : SiteHalf :=
  ({ bell := 3, layer := 0, active := true, stalls := [(1, { expert := 1 }), (2, { expert := 2 })],
     x := [(1, 1)], finals := [(1, 1)] } : SiteHalf)

def listby25_19 : List Byte :=
  leBytes 8 (handleBody 0 0 0 0 0 3) ++ List.replicate 272 7#8

def bitvec25_20 : BitVec 32 :=
  chunkCrc 3 (mkTag 1 0 0 false false false 0 0 5 1) 0 0 listby25_19

/-- States and operands that meet the hypotheses of each clause of `Obligations.SiteCountsArrivals`. -/
theorem witness_SiteCountsArrivals :
    (∃ (s : State) (src : Node) (half : Half) (rec : List Byte) (bell layer e i n bf : Nat) (x : SiteHalf)
      (tag : W64) (bytes : List Byte) (crc : BitVec 32), s.Inv ∧ (x = s.site half)
      ∧ (bf = s.siteFwd half ∧ s.SiteOpen half bell layer ∧ bell = fieldAt rec 0 8 ∧ layer = fieldAt rec 8 1
        ∧ half = halfOf (bits (fieldAt rec 9 1) 0 0) ∧ e = fieldAt rec 0xA 2 % 2 ^ 15
        ∧ i = fieldAt rec 0xC 2 % 2 ^ 15 ∧ n = fieldAt rec 0xE 2 % 2 ^ 13)
      ∧ ((tFind e x.stalls).isSome = true ∧ bits (fieldAt rec 9 1) 3 3 = 0 ∧ s.deadNow i = false
        ∧ half = halfOf (tHalf tag) ∧ layer = tLayer tag ∧ indexOfNat src (s.sourcesAt bell) = some i
        ∧ s.tagNoPlace half tag = false ∧ tHdr tag = true) ∧ bytes.length = 64
      ∧ (crc = chunkCrc bell tag src s.node bytes) ∧ tFind i x.hdrs = none ∧ fieldAt bytes 0 8 = bell
      ∧ x.active = true ∧ half = halfOf (hHalf (recLo rec))
      ∧ fullBell s.bellNo (hBell (recLo rec)) * 256 + hLayer (recLo rec) < x.bell * 256 + x.layer)
    ∧ (∃ (s : State) (half : Half) (rec : List Byte) (bell layer e i n bf : Nat) (x : SiteHalf), s.Inv
      ∧ (x = s.site half)
      ∧ (bf = s.siteFwd half ∧ s.SiteOpen half bell layer ∧ bell = fieldAt rec 0 8 ∧ layer = fieldAt rec 8 1
        ∧ half = halfOf (bits (fieldAt rec 9 1) 0 0) ∧ e = fieldAt rec 0xA 2 % 2 ^ 15
        ∧ i = fieldAt rec 0xC 2 % 2 ^ 15 ∧ n = fieldAt rec 0xE 2 % 2 ^ 13) ∧ (tFind e x.stalls).isSome = true
      ∧ bits (fieldAt rec 9 1) 3 3 = 1 ∧ (∃ p ∈ x.stalls, p.1 ≠ e) ∧ (tFind e x.x).getD 0 ≠ 0
      ∧ tGet zeroNat e x.sums ≤ n)
    ∧ (∃ (s : State) (half : Half) (rec : List Byte) (bell layer e i n bf : Nat) (x : SiteHalf) (y : _), s.Inv
      ∧ (x = s.site half)
      ∧ (bf = s.siteFwd half ∧ s.SiteOpen half bell layer ∧ bell = fieldAt rec 0 8 ∧ layer = fieldAt rec 8 1
        ∧ half = halfOf (bits (fieldAt rec 9 1) 0 0) ∧ e = fieldAt rec 0xA 2 % 2 ^ 15
        ∧ i = fieldAt rec 0xC 2 % 2 ^ 15 ∧ n = fieldAt rec 0xE 2 % 2 ^ 13) ∧ (tFind e x.stalls).isSome = true
      ∧ bits (fieldAt rec 9 1) 3 3 = 1 ∧ (∃ p ∈ x.stalls, p.1 ≠ e) ∧ (tFind e x.x).getD 0 ≠ 0
      ∧ n < tGet zeroNat e x.sums ∧ tFind e x.stalls = some y ∧ y.expert = e ∧ y.mismatch = false)
    ∧ (∃ (s : State) (half : Half) (rec : List Byte) (bell layer e i n bf : Nat) (x : SiteHalf) (y : _), s.Inv
      ∧ (x = s.site half)
      ∧ (bf = s.siteFwd half ∧ s.SiteOpen half bell layer ∧ bell = fieldAt rec 0 8 ∧ layer = fieldAt rec 8 1
        ∧ half = halfOf (bits (fieldAt rec 9 1) 0 0) ∧ e = fieldAt rec 0xA 2 % 2 ^ 15
        ∧ i = fieldAt rec 0xC 2 % 2 ^ 15 ∧ n = fieldAt rec 0xE 2 % 2 ^ 13) ∧ (tFind e x.stalls).isSome = true
      ∧ bits (fieldAt rec 9 1) 3 3 = 1 ∧ x.stalls = [(e, y)] ∧ y.st = 0 ∧ y.expert = e ∧ x.recs = []
      ∧ (tFind e x.x).getD 0 = 0)
    ∧ (∃ (s : State) (half : Half) (rec : List Byte) (bell layer bf : Nat) (x : SiteHalf), s.Inv
      ∧ (x = s.site half) ∧ bf = s.siteFwd half ∧ x.active = true ∧ half = halfOf (bits (fieldAt rec 9 1) 0 0)
      ∧ fieldAt rec 0 8 * 256 + fieldAt rec 8 1 < x.bell * 256 + x.layer)
    ∧ (∃ (s : State) (src : Node) (half : Half) (rec : List Byte) (bell layer e i n bf : Nat) (x : SiteHalf),
      s.Inv ∧ (x = s.site half)
      ∧ (bf = s.siteFwd half ∧ half = halfOf (hHalf (recLo rec)) ∧ bell = fullBell s.bellNo (hBell (recLo rec))
        ∧ layer = hLayer (recLo rec) ∧ x.active = true ∧ x.bell = bell ∧ x.layer = layer
        ∧ e = bits (recHi rec).toNat 14 0) ∧ n = bits (recHi rec).toNat 27 16
      ∧ indexOfNat src (s.sourcesAt bell) = some i ∧ (tFind e x.stalls).isSome = true
      ∧ s.SiteOpen half bell layer)
    ∧ (∃ (s : State) (src : Node) (half : Half) (rec : List Byte) (bell layer e i n bf : Nat) (x : SiteHalf)
      (f : _), s.Inv ∧ (x = s.site half)
      ∧ (bf = s.siteFwd half ∧ half = halfOf (hHalf (recLo rec)) ∧ bell = fullBell s.bellNo (hBell (recLo rec))
        ∧ layer = hLayer (recLo rec) ∧ x.active = true ∧ x.bell = bell ∧ x.layer = layer
        ∧ e = bits (recHi rec).toNat 14 0) ∧ n = bits (recHi rec).toNat 27 16
      ∧ indexOfNat src (s.sourcesAt bell) = some i ∧ (tFind e x.stalls).isSome = true
      ∧ tFind e x.finals = some f ∧ f ≤ n)
    ∧ (∃ (s : State) (src : Node) (half : Half) (bell layer i bf : Nat) (x : SiteHalf) (tag : W64)
      (bytes : List Byte) (crc : BitVec 32), s.Inv ∧ (x = s.site half)
      ∧ (bf = s.siteFwd half ∧ s.SiteOpen half bell layer ∧ half = halfOf (tHalf tag) ∧ layer = tLayer tag
        ∧ indexOfNat src (s.sourcesAt bell) = some i ∧ s.tagNoPlace half tag = false ∧ tHdr tag = false
        ∧ bytes.length = s.partLen half (tPart tag)) ∧ (crc = chunkCrc bell tag src s.node bytes)
      ∧ tFind (recKey (tExpert tag) (tOffset tag)) x.recs = none ∧ s.partHandleBad half src tag bytes = false)
    ∧ (∃ (s : State) (src : Node) (half : Half) (bell layer i bf : Nat) (x : SiteHalf) (tag : W64)
      (bytes : List Byte) (crc : BitVec 32), s.Inv ∧ (x = s.site half)
      ∧ (bf = s.siteFwd half ∧ s.SiteOpen half bell layer ∧ half = halfOf (tHalf tag) ∧ layer = tLayer tag
        ∧ indexOfNat src (s.sourcesAt bell) = some i ∧ s.tagNoPlace half tag = false
        ∧ bytes.length = (if tHdr tag then 64 else s.partLen half (tPart tag))
        ∧ crc ≠ chunkCrc bell tag src s.node bytes) ∧ s.chunkBell half tag src bytes crc = bell
      ∧ x.crcFail.contains (i, tagKey tag) = false) :=
  ⟨⟨st25_0, 0, .calico, listby25_1, 3, 0, 1, 0, 2, 280, siteha25_2, 0x80000000#64, listby25_3, bitvec25_4,
     inv_of (by decide +kernel), (rfl), (by unfold State.SiteOpen; decide +kernel), (by decide +kernel),
     (by decide +kernel), (rfl), by decide +kernel⟩,
   ⟨st25_5, .calico, listby25_6, 3, 0, 1, 0, 2, 280, siteha25_7, inv_of (by decide +kernel), (rfl),
     (by unfold State.SiteOpen; decide +kernel), by decide +kernel⟩,
   ⟨st25_8, .calico, listby25_6, 3, 0, 1, 0, 2, 280, siteha25_9,
     { expert := 1,   st := 0,   held := false,   everHeld := false,   ready := 0,   tiled := false,
         mismatch := false,   taint := false }, inv_of (by decide +kernel), (rfl),
     (by unfold State.SiteOpen; decide +kernel), by decide +kernel⟩,
   ⟨st25_10, .calico, listby25_11, 3, 0, 1, 0, 0, 280, siteha25_12,
     { expert := 1,   st := 0,   held := false,   everHeld := false,   ready := 0,   tiled := false,
         mismatch := false,   taint := false }, inv_of (by decide +kernel), (rfl),
     (by unfold State.SiteOpen; decide +kernel), by decide +kernel⟩,
   ⟨st25_0, .calico, listby25_13, 3, 0, 280, siteha25_2, inv_of (by decide +kernel), (rfl), by decide +kernel⟩,
   ⟨st25_14, 0, .calico, listby25_15, 3, 0, 1, 0, 1, 280, siteha25_16, inv_of (by decide +kernel), (rfl),
     (by decide +kernel), by unfold State.SiteOpen; decide +kernel⟩,
   ⟨st25_17, 0, .calico, listby25_15, 3, 0, 1, 0, 1, 280, siteha25_18, (tFind (1) (siteha25_18).finals).getD 0,
     inv_of (by decide +kernel), (rfl), (by decide +kernel), by decide +kernel⟩,
   ⟨st25_0, 0, .calico, 3, 0, 0, 280, siteha25_2, 0x100280000000001#64, listby25_19, bitvec25_20,
     inv_of (by decide +kernel), (rfl), (by unfold State.SiteOpen; decide +kernel), (rfl), by decide +kernel⟩,
   ⟨st25_0, 0, .calico, 3, 0, 0, 280, siteha25_2, 0x100280000000001#64, listby25_19, 0#32,
     inv_of (by decide +kernel), (rfl), (by unfold State.SiteOpen; decide +kernel), by decide +kernel⟩⟩

end G03

namespace G04

def ttile : Tile := ⟨0, 0, 0, 0, 2, bufId 2 0 0, 7, false, 0, false⟩

def tl2 (m : Nat) : State := { tileS with
  tiles := { tileS.tiles with
    units := [(0,
        { half := .calico, bell := 0, layer := 0, expert := 5, buf := none, posted := 1, total := 1, ctr := 7,
          left := 2, bufs := 1 })], quar := if m = 1 then [9] else [] } }

def pU : TUnit := { half := .calico, bell := 3, layer := 0, expert := 5, buf := some 70 }

def pS : State := let s := wld [(Reg.TILE_LIST, 0x100006), (Reg.TILE_DBELL, 0x200000)]; { s with
  tiles := { units := [(0, pU)], nextUnit := 1 },
  gathers := [(70, { half := .calico, layer := 0, expert := 5, recs := [⟨0, 0⟩] })],
  res := { s.res with descs := [(5, leBytes 8 0x10000 ++ leBytes 24 0 ++ leBytes 32 1)] } }

def st27_0 : State :=
  { wld [] with pool := { waiters := [⟨2, [4, 3], none, 0, .conv .calico⟩] } }

def tunit27_1 : TUnit :=
  { half := .calico, bell := 0, layer := 0, expert := 5, buf := none, posted := 1, total := 1, ctr := 7,
    left := 2, bufs := 1 }

def st27_2 : State :=
  { wld [] with pool := { waiters := [⟨2, [4, 3], some 1, 0, .conv .calico⟩], frames := [] } }

def st27_3 : State :=
  let s := wld []; { s with
    pool := { waiters := [⟨2, [4, 3], none, 0, .conv .calico⟩] },
    bell := { s.bell with once := [Pg.POOL * 256 + 0x5E] } }

def st27_4 : State :=
  { tl2 1 with pool := { bufs := [(9, ⟨[4, 3], none, none⟩)] } }

def st27_5 : State :=
  { tl2 0 with pool := { bufs := [(9, ⟨[4, 3], none, none⟩)] } }

/-- States and operands that meet the hypotheses of each clause of `Obligations.PoolsAndTiles`. -/
theorem witness_PoolsAndTiles :
    (∃ (s : State) (cls f n list index : Nat) (w : Waiter) (v : W64) (p : _) (hc : _), s.Inv
      ∧ (s.Accepts Reg.TILE_HEAD v ∧ list = bits v.toNat 4 0 ∧ index = bits v.toNat 63 32
        ∧ f = tGet zeroNat list s.tiles.heads ∧ n = tGet zeroNat list s.tiles.tails
        ∧ (index + 2 ^ 32 - f) % 2 ^ 32 ≤ (n + 2 ^ 32 - f) % 2 ^ 32 ∧ s.Accepts Reg.TILE_DONE v
        ∧ (s.tiles.tiles.any fun t => t.list == list && t.index == index) = false)
      ∧ (s.pool.waiters.find? fun w => w.cls == cls) = some w ∧ w.for_ = .conv hc
      ∧ s.findFor cls w.ctx = some p ∧ s.bell.once.contains (Pg.POOL * 256 + 0x5E) = false
      ∧ s.Accepts Reg.TILE_QUAR v ∧ bits v.toNat 0 0 = 0
      ∧ (s.tiles.tiles.find? fun t => t.list == list && t.index == index && t.st == 0) = none
      ∧ (s.tiles.units.filter fun p => p.2.waits) = [])
    ∧ (∃ (s : State) (cls list index : Nat) (w : Waiter) (u : TUnit) (x : Tile) (v : W64), s.Inv
      ∧ (s.Accepts Reg.TILE_DONE v ∧ list = bits v.toNat 4 0 ∧ index = bits v.toNat 63 32
        ∧ (s.tiles.tiles.find? fun t => t.list == list && t.index == index && t.ctr == bits v.toNat 27 16
          && t.st == 0) = some x ∧ tFind x.unit s.tiles.units = some u ∧ 1 < u.left ∧ bits v.toNat 9 8 = 0
        ∧ (s.tiles.tiles.find? fun t => t.list == list && t.index == index && t.st == 0) = some x)
      ∧ (s.pool.waiters.find? fun w => w.cls == cls) = none)
    ∧ (∃ (s : State) (cls : Nat) (w : Waiter), s.Inv ∧ (s.pool.waiters.find? fun w => w.cls == cls) = some w
      ∧ s.findFor cls w.ctx = none)
    ∧ (∃ (s : State) (cls : Nat) (w : Waiter), s.Inv ∧ (s.pool.waiters.find? fun w => w.cls == cls) = some w
      ∧ s.bell.once.contains (Pg.POOL * 256 + 0x5E) = true)
    ∧ (∃ (s : State) (f n list index : Nat) (v : W64), s.Inv ∧ s.Accepts Reg.TILE_HEAD v
      ∧ list = bits v.toNat 4 0 ∧ index = bits v.toNat 63 32 ∧ f = tGet zeroNat list s.tiles.heads
      ∧ n = tGet zeroNat list s.tiles.tails ∧ (n + 2 ^ 32 - f) % 2 ^ 32 < (index + 2 ^ 32 - f) % 2 ^ 32)
    ∧ (∃ (s : State) (v : W64) (b : _) (o : _), s.Inv ∧ s.Accepts Reg.TILE_QUAR v ∧ bits v.toNat 0 0 = 1
      ∧ s.tiles.quar = [b] ∧ tFind b s.pool.bufs = some o ∧ o.owners.getLast? = some 3)
    ∧ (∃ (s : State) (v : W64), s.Inv ∧ s.Accepts Reg.TILE_QUAR v ∧ bits v.toNat 0 0 = 1 ∧ s.tiles.quar = [])
    ∧ (∃ (s : State) (cls k f n c tl list : Nat) (w : Waiter) (u : TUnit) (p : _), s.Inv
      ∧ ((sortBy (fun a b => a.2.before b.2) (s.tiles.units.filter fun p => p.2.waits)).head? = some (k, u)
        ∧ tFind k s.tiles.units = some u ∧ u.posted = 0 ∧ s.unitTiles u = [(f, n)] ∧ s.freeCtr = some c
        ∧ list = s.tileList u.expert ∧ tl = tGet zeroNat list s.tiles.tails ∧ s.listRoom list = true)
      ∧ tFind list s.tiles.listChain = none
      ∧ (s.pool.waiters.any fun w => w.cls == clsFor (n * confBret (s.confAt u.bell) u.layer)) = false
      ∧ s.findFor (clsFor (n * confBret (s.confAt u.bell) u.layer)) none = some p) :=
  ⟨⟨st27_0, 2, 0, 0, 0, 0, ⟨2, [4, 3], none, 0, .conv .calico⟩, 0#64, (2, some 0, false), Sys2Proof.Half.calico,
     inv_of (by decide +kernel), (by unfold State.Accepts; decide +kernel),
     by unfold State.Accepts; decide +kernel⟩,
   ⟨tl2 0, 0, 0, 0, ⟨0, [], none, 0, .conv .calico⟩, tunit27_1, ttile, 0x70000#64, inv_of (by decide +kernel),
     (by unfold State.Accepts; decide +kernel), by decide +kernel⟩,
   ⟨st27_2, 2, ⟨2, [4, 3], some 1, 0, .conv .calico⟩, inv_of (by decide +kernel), by decide +kernel⟩,
   ⟨st27_3, 2, ⟨2, [4, 3], none, 0, .conv .calico⟩, inv_of (by decide +kernel), by decide +kernel⟩,
   ⟨tl2 0, 0, 1, 0, 2, 0x200000000#64, inv_of (by decide +kernel), by unfold State.Accepts; decide +kernel⟩,
   ⟨st27_4, 1#64, 9, { owners := [4, 3], ctx := none, copy := none }, inv_of (by decide +kernel),
     by unfold State.Accepts; decide +kernel⟩,
   ⟨st27_5, 1#64, inv_of (by decide +kernel), by unfold State.Accepts; decide +kernel⟩,
   ⟨pS, 0, 0, 0, 1, 0, 0, 0, ⟨0, [], none, 0, .conv .calico⟩, pU,
     ((pS).findFor (clsFor ((1) * confBret ((pS).confAt (pU).bell) (pU).layer)) none).getD (0, none, false),
     inv_of (by decide +kernel), (by decide +kernel), by decide +kernel⟩⟩

end G04

namespace G05

def wldr : State := wld []

def st28_0 : State :=
  half .calico (adm 3 [tok 0, tok 1])
  ({ rnd 0 [{ selected := true, choices := [{ awaitC 1 with st := .granted }], t := 1, weights := [f1] },
        { t := 0 }] with
      folded := true, gated := true }) (wldr)

def st28_1 : State :=
  st28_0.retWrite (viewOf st28_0 .calico) .calico ((viewOf st28_0 .calico).placeOff 0 0)
  (leBytes 8 (handleBody 0 0 0 0 0 3 + handleCheck (handleBody 0 0 0 0 0 3) 0) ++ leBytes 4 0x3F800000 ++
    leBytes 4 0 ++ List.replicate 512 7#8)

def roundv28_2 : RoundView :=
  viewOf st28_0 .calico

def listby28_3 : List Byte :=
  leBytes 8 (handleBody 0 0 0 0 0 3 + handleCheck (handleBody 0 0 0 0 0 3) 0) ++ leBytes 4 0x3F800000 ++
  leBytes 4 0 ++ List.replicate 512 7#8

def listby28_4 : List Byte :=
  st28_1.retRead (viewOf st28_0 .calico) .calico ((viewOf st28_0 .calico).placeOff 0 0) 16

def bitvec28_5 : BitVec 32 :=
  chunkCrc 3 (mkTag 1 0 0 false false true 0 0 0 0) 0 0 listby28_3

def rtok28_6 : RTok :=
  (({ rnd 0 [{ selected := true, choices := [{ awaitC 1 with st := .granted }], t := 1, weights := [f1] },
          { t := 0 }] with
        folded := true, gated := true }).toks[0]?).getD ({} : RTok)

def st28_7 : State :=
  half .calico (adm 3 [tok 0, tok 1])
  ({ rnd 1 [{ selected := true, choices := [{ awaitC 1 with st := .granted }], t := 1, weights := [f1] },
        { t := 0 }] with
      folded := true, gated := true }) (wldr)

def roundv28_8 : RoundView :=
  viewOf st28_7 .calico

def st28_9 : State :=
  half .calico (adm 3 [tok 0, tok 1])
  ({ rnd 0 [{ selected := true, choices := [{ awaitC 1 with st := .granted }], t := 1, weights := [f1] },
        { t := 0 }] with
      folded := true, gated := true, returnLost := true }) (wldr)

def roundv28_10 : RoundView :=
  viewOf st28_9 .calico

def st28_11 : State :=
  half .calico (adm 3 [tok 0, tok 1])
  ({ rnd 0 [{ selected := true, choices := [{ awaitC 1 with st := .granted }], t := 1, weights := [f1] },
        { t := 0 }] with
      folded := true, gated := true, z := [(0, 528)] }) (wldr)

def roundv28_12 : RoundView :=
  viewOf st28_11 .calico

def listby28_13 : List Byte :=
  barrowHeader 3 0 0 0 .calico true false false 1 592 0 2 0

def bitvec28_14 : BitVec 32 :=
  chunkCrc 3 (mkTag 0 0 0 true false true 0 0 0 0) 0 0 listby28_13

def st28_15 : State :=
  half .calico (adm 3 [tok 0, tok 1])
  ({ rnd 0 [{ selected := true, choices := [{ awaitC 1 with st := .granted }], t := 1, weights := [f1] },
        { t := 0 }] with
      folded := true, gated := true, fwdEnd := some 3 }) (wldr)

def roundv28_16 : RoundView :=
  viewOf st28_15 .calico

def st28_17 : State :=
  (let s := wldr; s.setHalf .calico { openReturns := [⟨3, 0, 5, 2, 1, 528, 1, false, false, [], 0⟩] })

def bitvec28_18 : BitVec 32 :=
  chunkCrc 3 (mkTag 0 0 0 true false true 0 0 0 0) 5 0 listby28_13

def openre28_19 : OpenReturn :=
  ⟨3, 0, 5, 2, 1, 528, 1, false, false, [], 0⟩

def st28_20 : State :=
  half .calico (adm 3 [tok 0, tok 1])
  ({ rnd 0 [{ selected := true, choices := [{ awaitC 1 with st := .granted }], t := 0, weights := [f1] },
        { t := 0 }] with
      folded := true, gated := true, fwdEnd := some 3 }) (wldr)

def roundv28_21 : RoundView :=
  viewOf st28_20 .calico

/-- States and operands that meet the hypotheses of each clause of `Obligations.ReturnsFillPlaces`. -/
theorem witness_ReturnsFillPlaces :
    (∃ (s u : State) (half : Half) (v : RoundView) (src : Node) (tag : W64) (bytes pre : List Byte)
      (crc : BitVec 32) (site q : Nat) (x : Tok) (y : RTok), s.Inv
      ∧ (s.view half = some v ∧ half = halfOf (tHalf tag) ∧ (s.half half).openReturns = []
        ∧ v.rnd.layer = tLayer tag ∧ v.rnd.folded = true ∧ v.rnd.returnLost = false
        ∧ indexOfNat src v.sources = some site ∧ s.returnTagBad v tag = false)
      ∧ (crc = chunkCrc v.set.bell tag src s.node bytes)
      ∧ (tFind site v.rnd.hdrs = none ∧ tHdr tag = false ∧ partsOf v.bret ≤ 16
        ∧ bytes.length = min 4096 (v.bret - 4096 * tPart tag) ∧ returnPlace v site tag = some q
        ∧ v.set.toks[tToken tag]? = some x ∧ v.rnd.toks[tToken tag]? = some y ∧ bits (tGet zeroNat q y.parts)
        (tPart tag) (tPart tag) = 0) ∧ setBits (tGet zeroNat q y.parts) (tPart tag)
      (tPart tag) 1 = 2 ^ partsOf v.bret - 1
      ∧ (u = s.retWrite v half (v.placeOff (tToken tag) q + 4096 * tPart tag) bytes)
      ∧ (pre = u.retRead v half (v.placeOff (tToken tag) q) 16)
      ∧ s.handleVerdict (BitVec.ofNat 64 (fieldAt pre 0 8)) = .pass
      ∧ hSlot (BitVec.ofNat 64 (fieldAt pre 0 8)) % 256 = x.seq
      ∧ hPos (BitVec.ofNat 64 (fieldAt pre 0 8)) = x.pos ∧ y.filled.contains q = false ∧ 0 < y.t
      ∧ y.weights.getD q 0#32 = BitVec.ofNat 32 (fieldAt pre 8 4) ∧ bits (fieldAt pre 0xC 1) 1 0 = 0
      ∧ (v.rnd.fwdEnd = none ∨ v.rnd.returnLost = true ∨ v.rnd.gated = false))
    ∧ (∃ (s : State) (half : Half) (v : RoundView) (tag : W64), s.Inv ∧ s.view half = some v
      ∧ half = halfOf (tHalf tag) ∧ (s.half half).openReturns = [] ∧ v.rnd.layer ≠ tLayer tag
      ∧ ((s.half half).last.all fun p => p.2.layer != tLayer tag) = true)
    ∧ (∃ (s : State) (half : Half) (v : RoundView) (tag : W64), s.Inv ∧ s.view half = some v
      ∧ half = halfOf (tHalf tag) ∧ (s.half half).openReturns = [] ∧ v.rnd.layer = tLayer tag
      ∧ v.rnd.folded = true ∧ v.rnd.returnLost = true)
    ∧ (∃ (s : State) (half : Half) (v : RoundView) (src : Node) (tag : W64) (bytes : List Byte) (crc : BitVec 32)
      (site : Nat), s.Inv
      ∧ (s.view half = some v ∧ half = halfOf (tHalf tag) ∧ (s.half half).openReturns = []
        ∧ v.rnd.layer = tLayer tag ∧ v.rnd.folded = true ∧ v.rnd.returnLost = false
        ∧ indexOfNat src v.sources = some site ∧ s.returnTagBad v tag = false)
      ∧ (crc = chunkCrc v.set.bell tag src s.node bytes) ∧ tFind site v.rnd.hdrs = none ∧ tHdr tag = true
      ∧ bytes.length = 64 ∧ (v.rnd.crcFail.find? fun p => p.1 == (site, tagKey tag)) = none
      ∧ fieldAt bytes 0 8 = v.set.bell ∧ (parseHeader bytes).held = false ∧ (tFind site v.rnd.z).getD 0 ≠ 0)
    ∧ (∃ (s : State) (half : Half) (v : RoundView), s.Inv ∧ s.view half = some v ∧ v.rnd.fwdEnd.isSome = true
      ∧ v.rnd.returnLost = false ∧ v.rnd.gated = true ∧ (∃ z ∈ v.rnd.toks, 0 < z.t))
    ∧ (∃ (s : State) (half : Half) (src : Node) (tag : W64) (bytes : List Byte) (crc : BitVec 32)
      (o : OpenReturn), s.Inv
      ∧ (half = halfOf (tHalf tag) ∧ (s.half half).openReturns = [o] ∧ o.lost = false ∧ o.node = src
        ∧ o.layer = tLayer tag ∧ tHdr tag = true ∧ tagBad tag = false ∧ bytes.length = 64)
      ∧ (crc = chunkCrc o.bell tag src s.node bytes) ∧ fieldAt bytes 0 8 = o.bell
      ∧ (parseHeader bytes).records = o.records ∧ (parseHeader bytes).bytes = o.bytes + 64
      ∧ (parseHeader bytes).chunks = o.chunks + 1 ∧ src ≠ s.node)
    ∧ (∃ (s : State) (half : Half) (v : RoundView), s.Inv ∧ s.view half = some v ∧ v.rnd.fwdEnd.isSome = true
      ∧ v.rnd.returnLost = false ∧ v.rnd.gated = true ∧ (∀ z ∈ v.rnd.toks, z.t ≤ 0)) :=
  ⟨⟨st28_0, st28_1, .calico, roundv28_2, 0, 0x200000001#64, listby28_3, listby28_4, bitvec28_5, 0, 0, tok 0,
     rtok28_6, inv_of (by decide +kernel), (by decide +kernel), (rfl), (by decide +kernel), (by decide +kernel),
     (rfl), (rfl), by decide +kernel⟩,
   ⟨st28_7, .calico, roundv28_8, 0x200000001#64, inv_of (by decide +kernel), by decide +kernel⟩,
   ⟨st28_9, .calico, roundv28_10, 0x200000001#64, inv_of (by decide +kernel), by decide +kernel⟩,
   ⟨st28_11, .calico, roundv28_12, 0, 0x280000000#64, listby28_13, bitvec28_14, 0, inv_of (by decide +kernel),
     (by decide +kernel), (rfl), by decide +kernel⟩,
   ⟨st28_15, .calico, roundv28_16, inv_of (by decide +kernel), by decide +kernel⟩,
   ⟨st28_17, .calico, 5, 0x280000000#64, listby28_13, bitvec28_18, openre28_19, inv_of (by decide +kernel),
     (by decide +kernel), (rfl), by decide +kernel⟩,
   ⟨st28_20, .calico, roundv28_21, inv_of (by decide +kernel), by decide +kernel⟩⟩

end G05

namespace G06

def wldr : State := wld [(Reg.SEQ_TABLE, 0x100000)]

def st29_0 : State :=
  half .calico (adm 3 [tok 0, tok 1])
  ({ rnd 0 [{
          selected := true, choices := [{ awaitC 1 with st := .granted }], filled := [0], t := 0, ready := true,
          weights := [f1] }, { t := 0 }] with
      folded := true, gated := true }) (wldr)

def roundv29_1 : RoundView :=
  viewOf st29_0 .calico

def st29_2 : State :=
  half .calico (adm 3 [tok 0, tok 1])
  ({ rnd 0 [{
          selected := true, choices := [{ awaitC 1 with st := .granted }], filled := [0], t := 0, ready := true,
          weights := [f1] }, { t := 0 }] with
      folded := true, gated := true, readyQ := [0, 1] }) (wldr)

def roundv29_3 : RoundView :=
  viewOf st29_2 .calico

def rtok29_4 : RTok :=
  (({ rnd 0 [{
            selected := true, choices := [{ awaitC 1 with st := .granted }], filled := [0], t := 0,
            ready := true, weights := [f1] }, { t := 0 }] with
        folded := true, gated := true, readyQ := [0, 1] }).toks[0]?).getD ({} : RTok)

/-- States and operands that meet the hypotheses of each clause of `Obligations.TokensCombineInOrder`. -/
theorem witness_TokensCombineInOrder :
    (∃ (s : State) (half : Half) (v : RoundView), s.Inv ∧ s.view half = some v
      ∧ (v.rnd.readyQ = [] ∨ v.rnd.gated = false))
    ∧ (∃ (s : State) (half : Half) (v : RoundView) (i : Nat) (rest : List Nat) (x : Tok) (y : RTok)
      (f : CombineFault), s.Inv
      ∧ (s.view half = some v ∧ v.rnd.readyQ = i :: rest ∧ v.rnd.gated = true ∧ v.set.toks[i]? = some x
        ∧ v.rnd.toks[i]? = some y ∧ y.chain = none ∧ y.withheld = false) ∧ (f = .none)
      ∧ (s.combineTok v half i y).2.1 = false)
    ∧ (∃ (s : State) (half : Half) (v : RoundView) (i : Nat) (rest : List Nat) (x : Tok) (y : RTok)
      (f : CombineFault), s.Inv ∧ s.view half = some v ∧ v.rnd.readyQ = i :: rest ∧ v.rnd.gated = true
      ∧ v.set.toks[i]? = some x ∧ v.rnd.toks[i]? = some y ∧ y.chain = none ∧ y.withheld = false ∧ f ≠ .none) :=
  ⟨⟨st29_0, .calico, roundv29_1, inv_of (by decide +kernel), by decide +kernel⟩,
   ⟨st29_2, .calico, roundv29_3, 0, [1], tok 0, rtok29_4, .none, inv_of (by decide +kernel), (by decide +kernel),
     (rfl), by decide +kernel⟩,
   ⟨st29_2, .calico, roundv29_3, 0, [1], tok 0, rtok29_4, .order, inv_of (by decide +kernel), by decide +kernel⟩⟩

end G06

namespace G07

def ent (st : Nat) : List Byte := leBytes 16 (dirE 0 0 0 0 st)

def rS (l : List (Nat × Nat)) (m : Nat) : State :=
  let s := wld ([(Reg.AUC_SRCSET, 64), (Reg.AUC_SRCCOUNT, 1), (Reg.RES_DIR, 0x10001), (Reg.RES_DESC, 0x20000)] ++
    l)
  { s with mem := tSetRun byteZero 0x10000 (ent m) s.mem }

def ld (h : Bool) (s : State) : State := { s with res := { s.res with dirLoad := some ([0], h) } }

def ed (b : List Byte)
(s : State) : State := { s with
  mem := tSetRun byteZero 0x40000 b s.mem, res := { s.res with editPost := some (0x40000, 1) } }

def st30_0 : State :=
  rS [(Reg.PBELL_STATE, 2), (Reg.CTX_STATE, 2 ^ 16)] 2

/-- States and operands that meet the hypotheses of each clause of `Obligations.DirectoryLoadsAndEdits`. -/
theorem witness_DirectoryLoadsAndEdits :
    (∃ (s : State) (v : W64), s.Inv
      ∧ (s.Accepts Reg.RES_EDIT v ∧ s.experts ≠ 0 ∧ s.fld Reg.DIRCTL_STAT 2 0 ≠ 1
        ∧ s.fld Reg.DIRCTL_STAT 2 0 ≠ 2 ∧ s.Accepts Reg.RES_DIR v ∧ (s.bellState = 0 ∨ s.armed = true)
        ∧ s.Accepts Reg.RES_HINT v ∧ s.res.dirLoad = none) ∧ s.res.editPost = none)
    ∧ (∃ (s : State) (v : W64) (nodes : _) (held : _), s.Inv
      ∧ (s.res.dirLoad = some (nodes, held) ∧ s.poison = [] ∧ s.readFailed = []
        ∧ s.imageCheck nodes held = none) ∧ (held = false) ∧ s.Accepts Reg.RES_DESC v ∧ s.bellState = 0)
    ∧ (∃ (s : State) (v : W64), s.Inv ∧ s.Accepts Reg.RES_DIR v ∧ s.bellState ≠ 0 ∧ s.armed = false)
    ∧ (∃ (s : State) (nodes : _) (held : _), s.Inv
      ∧ (s.res.dirLoad = some (nodes, held) ∧ s.poison = [] ∧ s.readFailed = []
        ∧ s.imageCheck nodes held = none) ∧ (held = true))
    ∧ (∃ (s : State) (nodes : _) (held : _) (e : _) (r : _) (cap : _), s.Inv
      ∧ s.res.dirLoad = some (nodes, held) ∧ s.poison = [] ∧ s.readFailed = []
      ∧ s.imageCheck nodes held = some (e, r, cap))
    ∧ (∃ (s : State) (base : _) (n : _) (edits : _), s.Inv
      ∧ (s.res.editPost = some (base, n) ∧ s.poison = [] ∧ s.readFailed = [])
      ∧ (s.editCheck .edits (s.editBytes base n) = .ok edits))
    ∧ (∃ (s : State) (base : _) (n : _) (e : _) (r : _) (cap : _), s.Inv
      ∧ (s.res.editPost = some (base, n) ∧ s.poison = [] ∧ s.readFailed = [])
      ∧ (s.editCheck .edits (s.editBytes base n) = .error (e, r, cap)))
    ∧ (∃ (s : State) (v : W64), s.Inv ∧ s.Accepts Reg.RES_DESC v ∧ s.bellState ≠ 0 ∧ s.armed = false)
    ∧ (∃ (s : State) (v : W64), s.Inv ∧ s.Accepts Reg.RES_DESC v ∧ s.bellState ≠ 0 ∧ s.armed = true)
    ∧ (∃ (s : State) (v : W64), s.Inv ∧ s.Accepts Reg.RES_EDIT v
      ∧ (s.experts = 0 ∨ s.fld Reg.DIRCTL_STAT 2 0 = 1 ∨ s.fld Reg.DIRCTL_STAT 2 0 = 2)) :=
  ⟨⟨rS [] 2, 65544#64, inv_of (by decide +kernel), (by unfold State.Accepts; decide +kernel), by decide +kernel⟩,
   ⟨ld false (rS [] 2), 0#64, [0], false, inv_of (by decide +kernel), (by decide +kernel), (rfl),
     by unfold State.Accepts; decide +kernel⟩,
   ⟨rS [(Reg.PBELL_STATE, 2)] 2, 65544#64, inv_of (by decide +kernel), by unfold State.Accepts; decide +kernel⟩,
   ⟨ld true (rS [] 2), [0], true, inv_of (by decide +kernel), (by decide +kernel), (rfl)⟩,
   ⟨ld true (rS [] 3), [0], true, 0, 1, false, inv_of (by decide +kernel), by decide +kernel⟩,
   ⟨ed (leBytes 16 1 ++ ent 2) (rS [] 2), 262144, 1, [(1, 42535295865117307932921825928971026432)],
     inv_of (by decide +kernel), (by decide +kernel), (ok_of (by decide +kernel))⟩,
   ⟨ed (leBytes 16 1 ++ ent 1) (rS [] 2), 262144, 1, 1, 1, false, inv_of (by decide +kernel),
     (by decide +kernel), (err_of (by decide +kernel))⟩,
   ⟨rS [(Reg.PBELL_STATE, 2)] 2, 0x20000#64, inv_of (by decide +kernel), by unfold State.Accepts; decide +kernel⟩,
   ⟨st30_0, 0x20000#64, inv_of (by decide +kernel), by unfold State.Accepts; decide +kernel⟩,
   ⟨rS [(Reg.DIRCTL_STAT, 1)] 2, 0x20003#64, inv_of (by decide +kernel), by unfold State.Accepts; decide +kernel⟩⟩

end G07

namespace G08

def ft : Fetch := { expert := 0, layer := 1, point := 768 }

def dsc : List Byte := leBytes 8 (16 * 2 ^ 41 + 0x1000) ++ leBytes 8 0 ++ leBytes 4 1 ++ leBytes 12 0 ++
leBytes 32 3

def fS (l : List (Nat × Nat)) (q : List Fetch) (bl : Table Block) (cs : List Copy) : State :=
  let s := wld ([(Reg.RES_T1, 0x400000 + 16), (Reg.RES_QUOTA0, 0x100 * 2 ^ 40 + 8 * 2 ^ 16),
      (Reg.RES_DEAD, 0)] ++ l)
  { s with
    res := { s.res with queue := q, blocks := bl, descs := [(1, dsc)] },
    porter := { s.porter with copies := cs } }

def cpy (st : Nat) : Copy := {
  id := 0, unit := 10, job := 0, src := 0, dst := 0, dstHost := true, len := 4096, prio := 3, alt := none,
  fromMirror := false, a := 1, b := 1, ended := true, status := st }

def dd (l : List (Nat × Nat)) (dead : List (Nat × Nat)) : State :=
  let s := wld l
  { s with
    bell := { s.bell with nextBell := 4 }, res := { s.res with sources := [0, 1], dead := dead },
    homeCal := { s.homeCal with space := [⟨0, 1, 0#64, 0#64⟩, ⟨0, 0, 0#64, 0#64⟩] } }

def st31_0 : State :=
  (fS [] [{ ft with expert := 1 }] [] []).pruneUndo.dropUnhosted

def st31_1 : State :=
  fS [] [{ ft with expert := 1 }] [(257, { st := 2 })] []

def st31_2 : State :=
  st31_1.pruneUndo.dropUnhosted

/-- States and operands that meet the hypotheses of each clause of `Obligations.BlocksAreFetched`. -/
theorem witness_BlocksAreFetched :
    (∃ (s u : State) (e l a : Nat) (c : Copy), s.Inv
      ∧ (s.cal.cur = none ∧ s.mus.cur = none ∧ s.siteCal.active = false ∧ s.siteMus.active = false
        ∧ s.coll.groups = [] ∧ s.deadNow a = false) ∧ (u = s.pruneUndo.dropUnhosted) ∧ u.res.queue = []
      ∧ (s.porter.copies.find? fun c => c.unit == 10 && c.a == e && c.b == l && c.ended) = none)
    ∧ (∃ (s : State) (e l a : Nat) (c : Copy), s.Inv
      ∧ (s.porter.copies.find? fun c => c.unit == 10 && c.a == e && c.b == l && c.ended) = some c
      ∧ (s.block e l).st = 1 ∧ l < 256 ∧ c.status = 0 ∧ (∀ p ∈ s.tiles.units, p.2.expert ≠ e ∨ p.2.layer ≠ l))
    ∧ (∃ (s u : State) (f : Fetch) (a n src : Nat) (alt : Option Nat), s.Inv ∧ (u = s.pruneUndo.dropUnhosted)
      ∧ u.res.queue = [f] ∧ n = dscBytes (u.desc f.expert) ∧ u.fetchStale f = false ∧ u.inFlight < copyLimit
      ∧ tGet zeroNat (u.owner f.expert) u.res.t2used + n ≤ u.t2Quota (u.owner f.expert)
      ∧ u.t1Held (u.owner f.expert) + n ≤ u.t1Quota (u.owner f.expert) ∧ u.placeT1 n = some a
      ∧ u.fetchSource f.expert f.layer = some (src, alt))
    ∧ (∃ (s u : State) (f : Fetch) (n : Nat), s.Inv ∧ (u = s.pruneUndo.dropUnhosted) ∧ u.res.queue = [f]
      ∧ n = dscBytes (u.desc f.expert) ∧ u.fetchStale f = true)
    ∧ (∃ (s : State) (e l a : Nat) (c : Copy), s.Inv
      ∧ (s.porter.copies.find? fun c => c.unit == 10 && c.a == e && c.b == l && c.ended) = some c
      ∧ (s.block e l).st = 1 ∧ l < 256 ∧ c.status = 6 ∧ (∀ p ∈ s.tiles.units, p.2.expert ≠ e ∨ p.2.layer ≠ l))
    ∧ (∃ (s : State) (e l a : Nat) (c : Copy), s.Inv
      ∧ (s.porter.copies.find? fun c => c.unit == 10 && c.a == e && c.b == l && c.ended) = some c
      ∧ (s.block e l).st = 1 ∧ l < 256 ∧ c.status = 17 ∧ tRising 0 s.res.blocks = true)
    ∧ (∃ (s : State) (e l a : Nat) (c : Copy), s.Inv
      ∧ (s.porter.copies.find? fun c => c.unit == 10 && c.a == e && c.b == l && c.ended) = some c
      ∧ (s.block e l).st ≠ 1)
    ∧ (∃ (s : State) (a : Nat), s.Inv ∧ s.deadNow a = true)
    ∧ (∃ (s : State) (a n : Nat), s.Inv
      ∧ (s.cal.cur = none ∧ s.mus.cur = none ∧ s.siteCal.active = false ∧ s.siteMus.active = false
        ∧ s.coll.groups = [] ∧ indexOfNat (s.node / 8 * 8 + n % 8) s.res.sources = some a ∧ s.isLead = true
        ∧ s.deadNow a = false) ∧ s.bit Reg.COLL_LL 0 = true)
    ∧ (∃ (s : State) (n : Nat), s.Inv
      ∧ (s.isLead = false ∨ indexOfNat (s.node / 8 * 8 + n % 8) s.res.sources = none)) :=
  ⟨⟨fS [] [] [] [], (fS [] [] [] []).pruneUndo.dropUnhosted, 0, 0, 0,
     { id := 0, unit := 0, job := 0, src := 0, dst := 0, len := 0 }, inv_of (by decide +kernel),
     (by decide +kernel), (rfl), by decide +kernel⟩,
   ⟨fS [] [] [(257, { st := 1 })] [cpy 0], 1, 1, 0, cpy 0, inv_of (by decide +kernel), by decide +kernel⟩,
   ⟨fS [] [{ ft with expert := 1 }] [] [], st31_0, { ft with expert := 1 }, 0x400000, 4096, 0x200000002000, none,
     inv_of (by decide +kernel), (rfl), by decide +kernel⟩,
   ⟨st31_1, st31_2, { ft with expert := 1 }, 4096, inv_of (by decide +kernel), (rfl), by decide +kernel⟩,
   ⟨fS [] [] [(257, { st := 1 })] [cpy 6], 1, 1, 0, cpy 6, inv_of (by decide +kernel), by decide +kernel⟩,
   ⟨fS [] [] [(257, { st := 1 })] [cpy 17], 1, 1, 0, cpy 17, inv_of (by decide +kernel), by decide +kernel⟩,
   ⟨fS [] [] [(257, { st := 2 })] [cpy 0], 1, 1, 0, cpy 0, inv_of (by decide +kernel), by decide +kernel⟩,
   ⟨dd [] [(1,2)], 1, inv_of (by decide +kernel), by decide +kernel⟩,
   ⟨dd [(Reg.COLL_LL, 1)] [], 1, 1, inv_of (by decide +kernel), (by decide +kernel), by decide +kernel⟩,
   ⟨dd [] [], 3, inv_of (by decide +kernel), by decide +kernel⟩⟩

end G08

namespace G09

def lS (l : List (Nat × Nat)) (x : Link) : State :=
  let s := wld ([(Reg.LINK_STAT 0, 2), (Reg.LINK_CTL 0, 1), (Reg.DISC_NODE, 2 ^ 23)] ++ l)
  s.setLink 0 x

def pk0 : Packet := { dest := 16, src := 0, cls := 3, type := 1, payload := b8 [1,2,3,4,5,6,7,8] }

def pkIn : Packet := { dest := 16, src := 24, cls := 3, type := 1, payload := b8 [1,2,3,4,5,6,7,8] }

def sf (n : Nat) : SentFrame := { fseq := n, bytes := frameBytes8 n 0 false 127 [] [], upto := 0 }

def st32_0 : State :=
  lS [(Reg.LINK_STAT 0, 1)] ({ ctl := [1#64] })

def listby32_1 : List Byte :=
  frameBytes8 0 0 false 0 [] (packetBytes pkIn)

def st32_2 : State :=
  lS [(Reg.LINK_STAT 0, 1), (Reg.LINK_CTL 0, 3)] ({})

def st32_3 : State :=
  lS [] ({ replay := List.replicate 512 (sf 0), fseq := 512 })

def link32_4 : Link :=
  { replay := List.replicate 512 (sf 0), fseq := 512 }

def st32_5 : State :=
  lS [] ({ out := [(pk0, 3)], credits := fullCredits })

def link32_6 : Link :=
  { out := [(pk0, 3)], credits := fullCredits }

def st32_7 : State :=
  lS [] ({ replay := [sf 0], fseq := 1, resend := 1 })

def link32_8 : Link :=
  { replay := [sf 0], fseq := 1, resend := 1 }

/-- States and operands that meet the hypotheses of each clause of `Obligations.LinksCarryFrames`. -/
theorem witness_LinksCarryFrames :
    (∃ (s : State) (port : Nat) (l : Link) (bytes : List Byte) (side : FrameSide), s.Inv
      ∧ tWf linkNone s.links = true ∧ (l = s.link port)
      ∧ (s.carries port = true ∧ l.resend = 0 ∧ l.kept < 512 ∧ l.out = [] ∧ l.stream = [] ∧ port < 18
        ∧ portCarries (s.portState port) = true ∧ frameOk bytes side.blamed = false)
      ∧ (18 ≤ port ∨ s.portState port ≠ 0 ∨ s.bound = false ∨ s.bit (Reg.LINK_CTL port) 0 = false)
      ∧ (18 ≤ port ∨ s.portState port ≠ 1))
    ∧ (∃ (s : State) (port : Nat) (l : Link), s.Inv ∧ tWf linkNone s.links = true ∧ (l = s.link port)
      ∧ port < 18 ∧ s.bound = true ∧ s.portState port = 0 ∧ s.bit (Reg.LINK_CTL port) 0 = true
      ∧ s.carries port = false ∧ s.training port = false ∧ (18 ≤ port ∨ portCarries (s.portState port) = false))
    ∧ (∃ (s : State) (port : Nat) (l : Link) (bytes : List Byte) (side : FrameSide) (rtt : Nat), s.Inv
      ∧ tWf linkNone s.links = true ∧ (l = s.link port) ∧ port < 18 ∧ s.portState port = 1 ∧ rtt ≤ 340
      ∧ s.carries port = false ∧ s.training port = true ∧ frameOk bytes side.blamed = true)
    ∧ (∃ (s : State) (port : Nat) (l : Link) (bytes : List Byte) (side : FrameSide) (rtt : Nat), s.Inv
      ∧ tWf linkNone s.links = true ∧ (l = s.link port) ∧ port < 18 ∧ s.portState port = 1 ∧ 340 < rtt
      ∧ s.carries port = false ∧ s.training port = true ∧ frameOk bytes side.blamed = false)
    ∧ (∃ (s : State) (port : Nat) (l : Link), s.Inv ∧ tWf linkNone s.links = true ∧ (l = s.link port)
      ∧ s.carries port = true ∧ l.resend = 0 ∧ 512 ≤ l.kept)
    ∧ (∃ (s : State) (port : Nat) (l : Link) (p : Packet) (t0 : Nat), s.Inv ∧ tWf linkNone s.links = true
      ∧ (l = s.link port) ∧ s.carries port = true ∧ l.resend = 0 ∧ l.kept < 512 ∧ l.out = [(p, t0)]
      ∧ l.stream = [] ∧ p.cls < 8 ∧ p.dest % 2 ^ 32 ≠ 0 ∧ (packetBytes p).length ≤ 960)
    ∧ (∃ (s : State) (port : Nat) (l : Link), s.Inv ∧ tWf linkNone s.links = true ∧ (l = s.link port)
      ∧ s.carries port = true ∧ 0 < l.resend ∧ l.resend ≤ l.replay.length)
    ∧ (∃ (s : State) (port : Nat) (l : Link) (bytes b : List Byte) (side : FrameSide) (p : Packet) (ack : Nat),
      s.Inv ∧ tWf linkNone s.links = true ∧ (l = s.link port) ∧ s.carries port = true
      ∧ (bytes = frameBytes8 l.expect ack false 0 [] b)
      ∧ (side.blamed = [] ∧ ack < 4096 ∧ l.expect < 4096 ∧ l.swapIn = none
        ∧ (l.partBytes = none ∨ l.partBytes = some []) ∧ b.length = wireLength (fieldAt b 0x0E 2 % 8192)
        ∧ b.length ≤ 960 ∧ (∃ x ∈ b, x ≠ 0#8)) ∧ packetBad b = false ∧ (p = packetOf b) ∧ s.tooOld p = false
      ∧ (s.inputRefuse port p).isNone = true ∧ takenAtOnce s.node p = false
      ∧ tGet zeroNat (partKey (bufferOf p) (min p.lane 2)) l.inUse + packetUnits p ≤ bufferUnits (bufferOf p)
      (min p.lane 2)) :=
  ⟨⟨lS [] ({}), 0, {}, [], ⟨[], []⟩, inv_of (by decide +kernel), (by decide +kernel), (rfl), (by decide +kernel),
     by decide +kernel⟩,
   ⟨lS [] ({}), 1, {}, inv_of (by decide +kernel), (by decide +kernel), (rfl), by decide +kernel⟩,
   ⟨st32_0, 0, { ctl := [1#64] }, listby32_1, ⟨[], []⟩, 0, inv_of (by decide +kernel), (by decide +kernel),
     (rfl), by decide +kernel⟩,
   ⟨st32_2, 0, {}, [], ⟨[], []⟩, 400, inv_of (by decide +kernel), (by decide +kernel), (rfl), by decide +kernel⟩,
   ⟨st32_3, 0, link32_4, inv_of (by decide +kernel), (by decide +kernel), (rfl), by decide +kernel⟩,
   ⟨st32_5, 0, link32_6, pk0, 3, inv_of (by decide +kernel), (by decide +kernel), (rfl), by decide +kernel⟩,
   ⟨st32_7, 0, link32_8, inv_of (by decide +kernel), (by decide +kernel), (rfl), by decide +kernel⟩,
   ⟨lS [] ({ credits := fullCredits }), 0, { credits := fullCredits }, listby32_1, packetBytes pkIn, ⟨[], []⟩,
     packetOf (packetBytes pkIn), 0, inv_of (by decide +kernel), (by decide +kernel), (rfl), (by decide +kernel),
     (rfl), (by decide +kernel), (by decide +kernel), (rfl), by decide +kernel⟩⟩

end G09

namespace G10

def lS (l : List (Nat × Nat)) (x : Link) : State :=
  let s := wld ([(Reg.LINK_STAT 0, 2), (Reg.LINK_CTL 0, 1), (Reg.DISC_NODE, 2 ^ 23)] ++ l)
  s.setLink 0 x

def pk0 : Packet := { dest := 16, src := 0, cls := 3, type := 1, payload := b8 [1,2,3,4,5,6,7,8] }

def pkIn : Packet := { dest := 16, src := 24, cls := 3, type := 1, payload := b8 [1,2,3,4,5,6,7,8] }

def rv : RouteVer := { st := 3, maxhop := 4, entries := [(2, 2 ^ 38 + 1 + 2 ^ 30 + 2 ^ 34)] }

def fS (q : List RQ) (v : RouteVer := rv) (c : Table Nat := fullCredits) : State :=
  let s := lS [] { credits := c }
  { s with route := { s.route with v0 := v, queue := q } }

def rq (p : Packet) (o : Origin) (t : Option Nat := none) : RQ := ⟨p, o, t, 0, true⟩

def selfP : Packet := let p : Packet := {
  dest := 0, src := 24, cls := 0, type := 0x41, payload := b8 [1,2,3,4,5,6,7,8] }; { p with
  crc := some (packetCrc p) }

def st33_0 : State :=
  { fS [rq pkIn (.port 0) (some 0)] rv [] with now := 20000 }

def st33_1 : State :=
  fS [rq { pkIn with dest := 24 } (.port 0)] 

def st33_2 : State :=
  fS [rq { pkIn with birth := 5000 } (.port 0)] 

def rq33_3 : RQ :=
  rq { pkIn with birth := 5000 } (.port 0)

/-- States and operands that meet the hypotheses of each clause of `Obligations.PacketsAreForwarded`. -/
theorem witness_PacketsAreForwarded :
    (∃ (s : State) (i k : Nat) (q : RQ) (p p' : Packet) (subst : Bool), s.Inv
      ∧ (tWf linkNone s.links = true ∧ s.route.queue[i]? = some q ∧ q.origin = .unit)
      ∧ (p = { q.pkt with epoch := s.epoch }) ∧ s.epochMiss p = false ∧ windowed p = true ∧ p.cls ≠ 1
      ∧ s.hopFor p = .go k p' subst ∧ s.windowFull p' = false ∧ (q.origin = .unit ∨ s.tooOld q.pkt = false)
      ∧ (q.pkt.esc = true ∨ q.since = none
        ∨ (∃ t0, q.since = some t0 ∧ s.now < t0 + 8 * s.fld (Reg.LINK_E2E 0) 39 32) ∨ s.hopFor q.pkt ≠ .wait))
    ∧ (∃ (s : State) (i : Nat) (q : RQ) (t0 : _), s.Inv
      ∧ (tWf linkNone s.links = true ∧ s.route.queue[i]? = some q ∧ q.origin ≠ .unit ∧ s.tooOld q.pkt = false
        ∧ s.epochMiss q.pkt = false ∧ s.hopFor q.pkt = .wait ∧ q.pkt.esc = false ∧ q.since = some t0)
      ∧ t0 + 8 * s.fld (Reg.LINK_E2E 0) 39 32 ≤ s.now)
    ∧ (∃ (s : State) (i : Nat), s.Inv ∧ tWf linkNone s.links = true ∧ s.route.queue[i]? = none)
    ∧ (∃ (s : State) (i : Nat) (q : RQ) (port : _), s.Inv
      ∧ (tWf linkNone s.links = true ∧ s.route.queue[i]? = some q ∧ q.origin = .port port
        ∧ s.tooOld q.pkt = false ∧ q.pkt.dest = s.node ∧ windowed q.pkt = true ∧ s.epochMiss q.pkt = false
        ∧ s.trailerOk q.pkt = true) ∧ s.reorderFull q.pkt = false
      ∧ s.windowVerdict q.pkt.src q.pkt.cls q.pkt.seq = .accept
      ∧ (q.pkt.cls = 0 ∨ s.jobAccepted q.pkt.job = true))
    ∧ (∃ (s : State) (i : Nat) (q : RQ) (code : Nat), s.Inv ∧ tWf linkNone s.links = true
      ∧ s.route.queue[i]? = some q ∧ q.origin ≠ .unit ∧ s.tooOld q.pkt = false ∧ s.epochMiss q.pkt = false
      ∧ s.hopFor q.pkt = .drop code ∧ code < 256)
    ∧ (∃ (s : State) (i : Nat) (q : RQ), s.Inv ∧ tWf linkNone s.links = true ∧ s.route.queue[i]? = some q
      ∧ q.origin ≠ .unit ∧ s.tooOld q.pkt = true) :=
  ⟨⟨fS [rq pk0 .unit] , 0, 0, rq pk0 .unit, pk0, felanoHop pk0 0, false, inv_of (by decide +kernel),
     (by decide +kernel), (rfl), by decide +kernel⟩,
   ⟨st33_0, 0, rq pkIn (.port 0) (some 0), 0, inv_of (by decide +kernel), (by decide +kernel), by decide +kernel⟩,
   ⟨fS [rq pk0 .unit] , 3, inv_of (by decide +kernel), by decide +kernel⟩,
   ⟨fS [rq selfP (.port 0)] , 0, rq selfP (.port 0), 0, inv_of (by decide +kernel), (by decide +kernel),
     by decide +kernel⟩,
   ⟨st33_1, 0, rq { pkIn with dest := 24 } (.port 0), 0x90, inv_of (by decide +kernel), by decide +kernel⟩,
   ⟨st33_2, 0, rq33_3, inv_of (by decide +kernel), by decide +kernel⟩⟩

end G10

namespace G11

def lS (l : List (Nat × Nat)) (x : Link) : State :=
  let s := wld ([(Reg.LINK_STAT 0, 2), (Reg.LINK_CTL 0, 1), (Reg.DISC_NODE, 2 ^ 23)] ++ l)
  s.setLink 0 x

def pk0 : Packet := { dest := 16, src := 0, cls := 3, type := 1, payload := b8 [1,2,3,4,5,6,7,8] }

def os (sq : Nat) (sp : Bool) (tr : Nat)
(sk : Bool) : Outst := { dest := 16, cls := 3, seq := sq, pkt := pk0, tries := tr, span := sp, skipped := sk }

def eS (o : List Outst)
(rx : Table RxWin) : State := let s := lS [] {}; { s with e2e := { s.e2e with outst := o, rx := rx } }

def rU : Round := { rnd 0 [{}] with unacked := [0] }

def st34_0 : State :=
  { eS [] [] with
    tok := { (eS [] []).tok with
      kept := [⟨16, mkTag 0 0 0 true false true 0 0 0 0, [], 3, 0, 3⟩,
        ⟨16, mkTag 0 0 0 true false false 0 0 0 0, [], 3, 0, 3⟩] } }

def st34_1 : State :=
  half .calico (adm 3 [tok 0]) rU (eS [] [])

/-- States and operands that meet the hypotheses of each clause of `Obligations.WindowsAndAcknowledgements`. -/
theorem witness_WindowsAndAcknowledgements :
    (∃ (s : State) (src : Node) (rec : List Byte) (cls seq base : Nat), s.Inv ∧ cls = ackCls rec
      ∧ seq = ackSeq rec ∧ base = ackBase rec ∧ 5 ≤ ackKind rec ∧ s.outstOf src cls seq = none)
    ∧ (∃ (s : State) (src : Node) (rec : List Byte) (cls seq base : Nat) (o : Outst), s.Inv ∧ cls = ackCls rec
      ∧ seq = ackSeq rec ∧ base = ackBase rec ∧ ackKind rec = 1 ∧ s.outstOf src cls seq = some o
      ∧ o.skipped = false ∧ o.tries < s.fld (Reg.LINK_E2E 0) 14 12)
    ∧ (∃ (s : State) (src : Node) (rec : List Byte) (cls seq base : Nat) (o : Outst), s.Inv
      ∧ (cls = ackCls rec ∧ seq = ackSeq rec ∧ base = ackBase rec ∧ ackKind rec = 4
        ∧ tWf (fun _ => ({} : RxWin)) s.e2e.rx = true ∧ s.windowVerdict src cls seq = .accept
        ∧ (s.rxWin src cls).base < 65536 ∧ cls ≠ 1) ∧ s.outstOf src cls seq = some o ∧ o.skipped = false
      ∧ s.fld (Reg.LINK_E2E 0) 14 12 ≤ o.tries)
    ∧ (∃ (s : State) (rec : List Byte) (cls seq base : Nat) (o : Outst), s.Inv ∧ cls = ackCls rec
      ∧ seq = ackSeq rec ∧ base = ackBase rec ∧ ackKind rec = 0
      ∧ (∀ o ∈ s.e2e.outst, o.span = false ∧ o.nakAt = none))
    ∧ (∃ (s : State) (src : Node) (rec : List Byte) (cls seq base : Nat) (o : Outst), s.Inv
      ∧ (cls = ackCls rec ∧ seq = ackSeq rec ∧ base = ackBase rec ∧ ackKind rec = 0 ∧ s.e2e.outst = [o]
        ∧ o.dest = src ∧ o.cls = cls ∧ o.seq ≠ seq) ∧ o.span = true ∧ (o.seq + 65536 - base) % 65536 < 1024
      ∧ o.seq < 65536)
    ∧ (∃ (s : State) (src : Node) (rec : List Byte) (cls seq base : Nat), s.Inv ∧ cls = ackCls rec
      ∧ seq = ackSeq rec ∧ base = ackBase rec ∧ ackKind rec = 1 ∧ s.outstOf src cls seq = none)
    ∧ (∃ (s : State) (rec : List Byte) (cls seq base : Nat), s.Inv ∧ cls = ackCls rec ∧ seq = ackSeq rec
      ∧ base = ackBase rec ∧ ackKind rec = 2)
    ∧ (∃ (s : State) (rec : List Byte) (cls seq base : Nat), s.Inv ∧ cls = ackCls rec ∧ seq = ackSeq rec
      ∧ base = ackBase rec ∧ ackKind rec = 3 ∧ bits (leNat (rec.take 8)) 47 47 = 1)
    ∧ (∃ (s : State) (src : Node) (rec : List Byte) (cls seq base : Nat) (h : _) (a : _) (r : _) (site : _),
      s.Inv
      ∧ (cls = ackCls rec ∧ seq = ackSeq rec ∧ base = ackBase rec ∧ ackKind rec = 3
        ∧ bits (leNat (rec.take 8)) 47 47 = 0) ∧ (h = halfOf (bits (leNat (rec.take 8)) 46 46))
      ∧ s.curRound h = some (a, r) ∧ a.bell % 256 = bits (leNat (rec.take 8)) 55 48
      ∧ r.layer = bits (leNat (rec.take 8)) 45 38 ∧ indexOfNat src (s.sourcesAt a.bell) = some site
      ∧ r.unacked = [site])
    ∧ (∃ (s : State) (src : Node) (rec : List Byte) (cls seq base : Nat), s.Inv ∧ cls = ackCls rec
      ∧ seq = ackSeq rec ∧ base = ackBase rec ∧ ackKind rec = 4 ∧ tWf (fun _ => ({} : RxWin)) s.e2e.rx = true
      ∧ s.windowVerdict src cls seq = .duplicate)
    ∧ (∃ (s : State) (src : Node) (rec : List Byte) (cls seq base : Nat) (o : Outst), s.Inv ∧ cls = ackCls rec
      ∧ seq = ackSeq rec ∧ base = ackBase rec ∧ s.outstOf src cls seq = some o ∧ o.skipped = true) :=
  ⟨⟨eS [] [], 16, ackRecord 3 5 3 5, 3, 5, 3, inv_of (by decide +kernel), by decide +kernel⟩,
   ⟨eS [os 5 false 0 false] [], 16, ackRecord 3 5 3 1, 3, 5, 3, os 5 false 0 false, inv_of (by decide +kernel),
     by decide +kernel⟩,
   ⟨eS [os 5 false 7 false] [], 16, ackRecord 3 5 3 4, 3, 5, 3, os 5 false 7 false, inv_of (by decide +kernel),
     (by decide +kernel), by decide +kernel⟩,
   ⟨eS [os 5 false 0 false] [], ackRecord 3 5 3 0, 3, 5, 3,
     ⟨0, 0, 0, { dest := 0, src := 0, cls := 0, type := 0 }, 0, none, false, false⟩, inv_of (by decide +kernel),
     by decide +kernel⟩,
   ⟨eS [os 7 true 0 false] [], 16, ackRecord 3 5 3 0, 3, 5, 3, os 7 true 0 false, inv_of (by decide +kernel),
     (by decide +kernel), by decide +kernel⟩,
   ⟨eS [] [], 16, ackRecord 3 5 3 1, 3, 5, 3, inv_of (by decide +kernel), by decide +kernel⟩,
   ⟨eS [os 5 false 0 false] [], ackRecord 3 5 3 2, 3, 5, 3, inv_of (by decide +kernel), by decide +kernel⟩,
   ⟨st34_0, barrowAck 3 0 .calico true, 5, 0, 0, inv_of (by decide +kernel), by decide +kernel⟩,
   ⟨st34_1, 0, barrowAck 3 0 .calico false, 5, 0, 0, Sys2Proof.Half.calico,
     { bell := 3,
         toks := [{
           seq := 0, pos := 0, gen := 0, ctx := 0, host := 0x0000000000000000#64,
           hash := 0x0000000000000000#64 }],   bounds := [10000, 10000],   step := 0,   taint := false },
     { layer := 0,   start := 0,
         toks := [{
           scored := false,              selected := false,              err := false,
                        taint := false,              subst := false,              spilled := false,
                        failed := false,              cands := [],              choices := [],
                        reserve := [],              hist := [],              errCause := 0,
                        sel := [],              weights := [],              filled := [],
                        parts := [],              t := 0,              ready := false,
                        issued := false,              written := false,              status := 0,
                        contrib := 0,              vec := [],              chain := none,
                        taintIn := false }],   shadowOk := 0,   shadowNext := 0,   ar := 0,   closed := false,
         bins := [],   sentBids := [],   sentRecs := [],   verdicts := [],   lostBids := [],   folded := false,
         gated := false,   z := [],   zPreset := [],   hdrs := [],   recsIn := [],   chunksIn := [],
         timedPlaces := [],   lostPlaces := [],   unacked := [0],   shipped := [],   crcFail := [],
         fwdEnd := none,   lastVerdict := 0,   retReady := 0,   held := false,   bound := 0,   overlap := 0,
         retWait := 0,   retry := 0,   heldTo := 0,   beyondW := false,   throttled := false,   peer := false,
         late := false,   readyQ := [],   ledgerDone := false,   returnLost := false,   areaFrames := [],
         localCopies := 0,   combined := 0,   withheldIn := 0,   combinedBy := [],   withheldBy := [],
         discarded := [],   staleIn := 0 }, 0, inv_of (by decide +kernel), (by decide +kernel), (rfl),
     by decide +kernel⟩,
   ⟨eS [] [(16 * 8 + 3, { base := 6 })], 16, ackRecord 3 5 3 4, 3, 5, 3, inv_of (by decide +kernel),
     by decide +kernel⟩,
   ⟨eS [os 5 false 7 true] [], 16, ackRecord 3 5 3 4, 3, 5, 3, os 5 false 7 true, inv_of (by decide +kernel),
     by decide +kernel⟩⟩

end G11

namespace G12

def dS (l : List (Nat × Nat)) (f : DiscSt → DiscSt) : State :=
  let s := bnd ([(Reg.LINK_STAT 0, 2), (Reg.LINK_STAT 1, 2), (Reg.LINK_STAT 2, 2), (Reg.LINK_CTL 2, 4),
      (Reg.DISC_IDENT, 50), (Reg.DISC_CTL, 8 * 8 + 100 * 2 ^ 8 + 10 * 2 ^ 18), (Reg.EBS_CFG, 1 * 2 ^ 4)] ++ l)
  { s with disc := f s.disc, now := 10000000 }

def once (s : State) : State := { s with
  start := { s.start with onceWritten := [Reg.DISC_IDENT, Reg.DISC_INCARN] } }

def elp (b h : Nat) : List Byte := leBytes 8 b ++ leBytes 8 b ++ leBytes 1 h ++ leBytes 15 0

def rp : Report := ⟨40, 1, 5⟩

def rpn : Report := ⟨40, 1, 9999999⟩

def st35_0 : State :=
  dS [(Reg.DISC_STAT, 1)] fun d => { d with best := 50 }

def st35_1 : State :=
  dS [(Reg.DISC_CTL, 8 * 8 + 100 * 2 ^ 8 + 10 * 2 ^ 18 + 2)] id

def st35_2 : State :=
  dS [(Reg.DISC_STAT, 1)] fun d => { d with reports := [(0, rp)] }

def st35_3 : State :=
  dS [(Reg.DISC_STAT, 1)] fun d => { d with reports := [(0, rpn)] }

/-- States and operands that meet the hypotheses of each clause of `Obligations.IdentityAndElection`. -/
theorem witness_IdentityAndElection :
    (∃ (s : State) (v : W64) (w : NodeWriter) (port : Nat) (bad : Prop) (c : Instr × Nat), s.Inv
      ∧ s.Accepts Reg.DISC_NODE v
      ∧ (bad ↔ bits v.toNat 2 0 ≠ s.slice
        ∨ (s.nodeValid = true ∧ s.bellState ≠ 0 ∧ (bits v.toNat 22 0 ≠ s.node ∨ bits v.toNat 23 23 = 0))
        ∨ (s.isLead = false ∧ ∃ n, w.lead = some n ∧ n / 8 ≠ bits v.toNat 22 3))
      ∧ ((¬bad) ∧ w.auto = false ∧ (18 ≤ port ∨ s.role port ≠ 2) ∧ s.discRuns = false
        ∧ s.Accepts Reg.DISC_CTL v ∧ bits v.toNat 0 0 = 0 ∧ s.Accepts c.2 v ∧ c.2 ∉ s.start.onceWritten)
      ∧ tFind port s.disc.reports = none)
    ∧ (∃ (s : State) (v : W64) (c : Instr × Nat), s.Inv ∧ s.Accepts Reg.DISC_CTL v ∧ bits v.toNat 0 0 = 1
      ∧ Reg.DISC_IDENT ∈ s.start.onceWritten ∧ Reg.DISC_INCARN ∈ s.start.onceWritten ∧ s.discRuns = false
      ∧ s.disc.reports = [] ∧ s.Accepts c.2 v ∧ c.2 ∈ s.start.onceWritten)
    ∧ (∃ (s : State) (port : Nat) (b : List Byte), s.Inv
      ∧ (port < 18 ∧ s.role port ≠ 2 ∧ s.discRuns = true ∧ s.disc.reports = [] ∧ fieldAt b 8 8 < s.ident
        ∧ fieldAt b 16 1 + 1 ≤ s.discTtl ∧ s.disc.best ≠ fieldAt b 8 8 ∧ s.disc.best = s.ident)
      ∧ tWf linkNone s.links = true ∧ s.fld Reg.DISC_STAT 1 0 = 1)
    ∧ (∃ (s : State) (v : W64), s.Inv ∧ s.Accepts Reg.DISC_CTL v ∧ bits v.toNat 0 0 = 1
      ∧ (Reg.DISC_IDENT ∉ s.start.onceWritten ∨ Reg.DISC_INCARN ∉ s.start.onceWritten))
    ∧ (∃ (s : State) (v : W64), s.Inv ∧ s.Accepts Reg.DISC_CTL v ∧ Reg.DISC_IDENT ∈ s.start.onceWritten
      ∧ Reg.DISC_INCARN ∈ s.start.onceWritten ∧ s.discRuns = true)
    ∧ (∃ (s : State) (v : W64) (w : NodeWriter) (bad : Prop), s.Inv ∧ s.Accepts Reg.DISC_NODE v
      ∧ (bad ↔ bits v.toNat 2 0 ≠ s.slice
        ∨ (s.nodeValid = true ∧ s.bellState ≠ 0 ∧ (bits v.toNat 22 0 ≠ s.node ∨ bits v.toNat 23 23 = 0))
        ∨ (s.isLead = false ∧ ∃ n, w.lead = some n ∧ n / 8 ≠ bits v.toNat 22 3)) ∧ bad)
    ∧ (∃ (s : State) (v : W64) (w : NodeWriter) (bad : Prop), s.Inv ∧ s.Accepts Reg.DISC_NODE v
      ∧ (bad ↔ bits v.toNat 2 0 ≠ s.slice
        ∨ (s.nodeValid = true ∧ s.bellState ≠ 0 ∧ (bits v.toNat 22 0 ≠ s.node ∨ bits v.toNat 23 23 = 0))
        ∨ (s.isLead = false ∧ ∃ n, w.lead = some n ∧ n / 8 ≠ bits v.toNat 22 3)) ∧ (¬bad) ∧ w.auto = true
      ∧ s.bit Reg.DISC_CTL 1 = true ∧ s.nodeValid = false)
    ∧ (∃ (s : State) (v : W64) (w : NodeWriter) (bad : Prop), s.Inv ∧ s.Accepts Reg.DISC_NODE v
      ∧ (bad ↔ bits v.toNat 2 0 ≠ s.slice
        ∨ (s.nodeValid = true ∧ s.bellState ≠ 0 ∧ (bits v.toNat 22 0 ≠ s.node ∨ bits v.toNat 23 23 = 0))
        ∨ (s.isLead = false ∧ ∃ n, w.lead = some n ∧ n / 8 ≠ bits v.toNat 22 3)) ∧ (¬bad) ∧ w.auto = true
      ∧ (s.bit Reg.DISC_CTL 1 = false ∨ s.nodeValid = true))
    ∧ (∃ (s : State) (port : Nat), s.Inv ∧ port < 18 ∧ s.role port = 2)
    ∧ (∃ (s : State) (port : Nat) (b : List Byte), s.Inv ∧ port < 18 ∧ s.role port ≠ 2 ∧ s.discRuns = true
      ∧ s.disc.reports = [] ∧ s.ident ≤ fieldAt b 8 8)
    ∧ (∃ (s : State) (port : Nat) (r : Report), s.Inv ∧ tFind port s.disc.reports = some r
      ∧ r.at_ + 3 * s.electNs ≤ s.now ∧ s.disc.reports = [(port, r)] ∧ s.discRuns = true)
    ∧ (∃ (s : State) (port : Nat) (r : Report), s.Inv ∧ tFind port s.disc.reports = some r
      ∧ s.now < r.at_ + 3 * s.electNs) :=
  ⟨⟨dS [] id, 0x286440#64, ⟨none, false⟩, 0, False,
     (Sys2Proof.Instr.discIdentWrite 0x0000000000286440#64, 73984), inv_of (by decide +kernel),
     (by unfold State.Accepts; decide +kernel), (by simp; decide +kernel),
     (by unfold State.Accepts; decide +kernel), by decide +kernel⟩,
   ⟨once (dS [] id), 0x286441#64, (Sys2Proof.Instr.discIdentWrite 0x0000000000286441#64, 73984),
     inv_of (by decide +kernel), by unfold State.Accepts; decide +kernel⟩,
   ⟨st35_0, 0, [], inv_of (by decide +kernel), (by decide +kernel), by decide +kernel⟩,
   ⟨dS [] id, 0x286441#64, inv_of (by decide +kernel), by unfold State.Accepts; decide +kernel⟩,
   ⟨once (dS [(Reg.DISC_STAT, 1)] id), 0x286441#64, inv_of (by decide +kernel),
     by unfold State.Accepts; decide +kernel⟩,
   ⟨dS [] id, 0x800009#64, ⟨none, false⟩, True, inv_of (by decide +kernel),
     (by unfold State.Accepts; decide +kernel), (by simp; decide +kernel), by decide +kernel⟩,
   ⟨st35_1, 0x800008#64, ⟨some 8, true⟩, False, inv_of (by decide +kernel),
     (by unfold State.Accepts; decide +kernel), (by simp; decide +kernel), by decide +kernel⟩,
   ⟨dS [] id, 0x800008#64, ⟨some 8, true⟩, False, inv_of (by decide +kernel),
     (by unfold State.Accepts; decide +kernel), (by simp; decide +kernel), by decide +kernel⟩,
   ⟨dS [] id, 2, inv_of (by decide +kernel), by decide +kernel⟩,
   ⟨dS [(Reg.DISC_STAT, 1)] id, 1, elp 60 1, inv_of (by decide +kernel), by decide +kernel⟩,
   ⟨st35_2, 0, rp, inv_of (by decide +kernel), by decide +kernel⟩,
   ⟨st35_3, 0, rpn, inv_of (by decide +kernel), by decide +kernel⟩⟩

end G12

namespace G13

def dS (l : List (Nat × Nat)) (f : DiscSt → DiscSt) : State :=
  let s := bnd ([(Reg.LINK_STAT 0, 2), (Reg.LINK_STAT 1, 2), (Reg.LINK_STAT 2, 2), (Reg.LINK_CTL 2, 4),
      (Reg.DISC_IDENT, 50), (Reg.DISC_CTL, 8 * 8 + 100 * 2 ^ 8 + 10 * 2 ^ 18), (Reg.EBS_CFG, 1 * 2 ^ 4)] ++ l)
  { s with disc := f s.disc, now := 10000000 }

def clm (i p : Nat) (n : Option Nat) : Claim := { ident := i, count := 1, domain := 0, pkg := p, number := n }

def clp (i : Nat) : List Byte := padTo 32 (leBytes 8 i ++ leBytes 4 0)

def asg (i : Nat) : List Byte := leBytes 16 1 ++ leBytes 8 i ++ leBytes 2 2 ++ leBytes 2 7 ++ leBytes 4 0

def lsb (n inc sq ttl : Nat) : List Byte := leBytes 8 77 ++ leBytes 4 n ++ leBytes 4 inc ++ leBytes 4 sq ++
leBytes 2 0 ++ leBytes 1 ttl ++ leBytes 9 0 ++ List.replicate 144 9#8

def lE (n inc sq : Nat) (f : Bool) : Lsb := { payload := lsb n inc sq 4, updated := 5, fresh := f }

def st36_0 : State :=
  dS [(Reg.DISC_STAT, 2 + 2 ^ 12), (Reg.DISC_CTL, 8 * 8 + 100 * 2 ^ 8 + 10 * 2 ^ 18 + 2)] id

def st36_1 : State :=
  dS [(Reg.DISC_STAT, 2 + 2 ^ 12)] fun d => { d with claims := [clm 60 3 none] }

def st36_2 : State :=
  dS [(Reg.DISC_STAT, 2 + 2 ^ 7), (Reg.DISC_CTL, 8 * 8 + 100 * 2 ^ 8 + 10 * 2 ^ 18 + 2)] id

def st36_3 : State :=
  { (dS [(Reg.DISC_LSDB, 2 ^ 23)] fun d => { d with lsdb := [(24, lE 24 7 2 true)] }) with
    e2e := { (dS [(Reg.DISC_LSDB, 2 ^ 23)] fun d => { d with lsdb := [(24, lE 24 7 2 true)] }).e2e with
      outst := [{ dest := 24, cls := 3, seq := 0, pkt := { dest := 24, src := 0, cls := 3, type := 1 } }] } }

def st36_4 : State :=
  dS [(Reg.DISC_CTL, 8 * 8 + 100 * 2 ^ 8 + 10 * 2 ^ 18 + 2)] id

def st36_5 : State :=
  dS [] fun d => { d with seen := [(60, 2, 7)] }

def st36_6 : State :=
  { (dS [] fun d => { d with lsdb := [(24, lE 24 7 2 true)] }) with now := 50000000 }

/-- States and operands that meet the hypotheses of each clause of `Obligations.AssignmentAndBeacons`. -/
theorem witness_AssignmentAndBeacons :
    (∃ (s : State) (port n : Nat) (b : List Byte) (e : Lsb), s.Inv
      ∧ (tWf linkNone s.links = true ∧ (18 ≤ port ∨ s.role port ≠ 2) ∧ n = fieldAt b 8 4
        ∧ nodeDomain n = s.domain ∧ (s.nodeValid = false ∨ n ≠ s.node)
        ∧ (tFind n s.disc.lsdb = none
          ∨ (tFind n s.disc.lsdb = some e ∧ fieldAt e.payload 0x0C 4 ≠ fieldAt b 0x0C 4))
        ∧ fieldAt b 0x16 1 ≤ 1 ∧ s.fld Reg.DISC_LSDB 51 23 = 0)
      ∧ (s.isLead = true ∧ s.bit Reg.DISC_CTL 1 = true ∧ s.nodeValid = false ∧ 2 ≤ s.fld Reg.DISC_STAT 1 0
        ∧ s.bit Reg.DISC_STAT 12 = true ∧ (∀ d ∈ s.disc.claims, d.ident ≠ s.ident) ∧ s.discRuns = true
        ∧ (∀ d ∈ s.disc.claims, d.ident ≠ fieldAt b 0 8))
      ∧ (s.bit Reg.DISC_STAT 12 = false ∨ (∀ c ∈ s.disc.claims, c.number.isSome = true)
        ∨ s.now < s.disc.lastClaim + 16 * s.electNs) ∧ tFind n s.disc.lsdb = none)
    ∧ (∃ (s : State) (port : Nat) (b : List Byte), s.Inv
      ∧ (tWf linkNone s.links = true ∧ s.bit Reg.DISC_STAT 12 = true ∧ (∃ c ∈ s.disc.claims, c.number = none)
        ∧ s.disc.lastClaim + 16 * s.electNs ≤ s.now ∧ s.disc.claims.length ≤ 32
        ∧ (s.disc.claims.map (·.ident)).Nodup ∧ (s.disc.claims.filterMap (·.number)).Nodup
        ∧ (18 ≤ port ∨ s.role port ≠ 2)) ∧ s.discRuns = true ∧ (∃ d ∈ s.disc.claims, d.ident = fieldAt b 0 8)
      ∧ (s.isLead = false ∨ s.bit Reg.DISC_CTL 1 = false ∨ s.nodeValid = true ∨ s.fld Reg.DISC_STAT 1 0 < 2))
    ∧ (∃ (s : State) (port : Nat), s.Inv ∧ tWf linkNone s.links = true ∧ s.isLead = true
      ∧ s.bit Reg.DISC_CTL 1 = true ∧ s.nodeValid = false ∧ 2 ≤ s.fld Reg.DISC_STAT 1 0
      ∧ s.bit Reg.DISC_STAT 12 = false ∧ (18 ≤ port ∨ s.role port ≠ 2) ∧ s.discRuns = true)
    ∧ (∃ (s : State) (port n : Nat) (b : List Byte) (e : Lsb), s.Inv ∧ tWf linkNone s.links = true
      ∧ (18 ≤ port ∨ s.role port ≠ 2) ∧ n = fieldAt b 8 4 ∧ nodeDomain n = s.domain
      ∧ (s.nodeValid = true ∧ n = s.node
        ∨ (tFind n s.disc.lsdb = some e ∧ fieldAt e.payload 0x0C 4 = fieldAt b 0x0C 4
          ∧ fieldAt e.payload 0x10 4 = fieldAt b 0x10 4)) ∧ s.nodeValid = true)
    ∧ (∃ (s : State) (port n : Nat) (b : List Byte) (e : Lsb), s.Inv
      ∧ (tWf linkNone s.links = true ∧ (18 ≤ port ∨ s.role port ≠ 2) ∧ n = fieldAt b 8 4
        ∧ nodeDomain n = s.domain ∧ (s.nodeValid = false ∨ n ≠ s.node)
        ∧ (tFind n s.disc.lsdb = none
          ∨ (tFind n s.disc.lsdb = some e ∧ fieldAt e.payload 0x0C 4 ≠ fieldAt b 0x0C 4))
        ∧ tFind n s.disc.lsdb ≠ none ∧ tFind n s.disc.lsdb = some e)
      ∧ (e.fresh = false ∨ s.now ≤ e.updated + 3000000 * s.fld Reg.DISC_CTL 27 18))
    ∧ (∃ (s : State) (port : Nat), s.Inv ∧ tWf linkNone s.links = true ∧ port < 18 ∧ s.role port = 2)
    ∧ (∃ (s : State) (port : Nat) (b r : List Byte), s.Inv ∧ tWf linkNone s.links = true
      ∧ (18 ≤ port ∨ s.role port ≠ 2) ∧ assignRecords b = [r]
      ∧ (fieldAt r 0 8, fieldAt r 8 2, fieldAt r 10 2) ∉ s.disc.seen ∧ fieldAt r 0 8 ≠ s.ident)
    ∧ (∃ (s : State) (port : Nat) (b r : List Byte), s.Inv
      ∧ (tWf linkNone s.links = true ∧ (18 ≤ port ∨ s.role port ≠ 2) ∧ assignRecords b = [r]
        ∧ (fieldAt r 0 8, fieldAt r 8 2, fieldAt r 10 2) ∉ s.disc.seen ∧ s.isLead = true
        ∧ s.bit Reg.DISC_CTL 1 = true ∧ s.nodeValid = false ∧ fieldAt r 0 8 = s.ident) ∧ s.slice < 8)
    ∧ (∃ (s : State) (port : Nat) (b r : List Byte), s.Inv ∧ tWf linkNone s.links = true
      ∧ (18 ≤ port ∨ s.role port ≠ 2) ∧ assignRecords b = [r]
      ∧ (fieldAt r 0 8, fieldAt r 8 2, fieldAt r 10 2) ∈ s.disc.seen)
    ∧ (∃ (s : State) (port n : Nat) (b : List Byte), s.Inv ∧ tWf linkNone s.links = true
      ∧ (18 ≤ port ∨ s.role port ≠ 2) ∧ n = fieldAt b 8 4 ∧ nodeDomain n ≠ s.domain)
    ∧ (∃ (s : State) (n : Nat) (e : Lsb), s.Inv ∧ tWf linkNone s.links = true ∧ tFind n s.disc.lsdb = some e
      ∧ e.fresh = true ∧ e.updated + 3000000 * s.fld Reg.DISC_CTL 27 18 < s.now ∧ 0x15 ≤ e.payload.length
      ∧ s.lsdbAddr n = none) :=
  ⟨⟨st36_0, 0, 0, [], ⟨[], 0, true⟩, inv_of (by decide +kernel), (by decide +kernel), (by decide +kernel),
     by decide +kernel⟩,
   ⟨st36_1, 0, clp 60, inv_of (by decide +kernel), (by decide +kernel), by decide +kernel⟩,
   ⟨st36_2, 0, inv_of (by decide +kernel), by decide +kernel⟩,
   ⟨dS [(Reg.DISC_NODE, 2 ^ 23 + 24)] id, 0, 24, lsb 24 1 2 4, ⟨[], 0, true⟩, inv_of (by decide +kernel),
     by decide +kernel⟩,
   ⟨st36_3, 0, 24, lsb 24 1 2 3, lE 24 7 2 true, inv_of (by decide +kernel), (by decide +kernel),
     by decide +kernel⟩,
   ⟨dS [] id, 2, inv_of (by decide +kernel), by decide +kernel⟩,
   ⟨dS [] id, 0, asg 60, (asg 60).drop 16, inv_of (by decide +kernel), by decide +kernel⟩,
   ⟨st36_4, 0, asg 50, (asg 50).drop 16, inv_of (by decide +kernel), (by decide +kernel), by decide +kernel⟩,
   ⟨st36_5, 0, asg 60, (asg 60).drop 16, inv_of (by decide +kernel), by decide +kernel⟩,
   ⟨dS [] id, 0, 32768, lsb (2 ^ 15) 1 2 4, inv_of (by decide +kernel), by decide +kernel⟩,
   ⟨st36_6, 24, lE 24 7 2 true, inv_of (by decide +kernel), by decide +kernel⟩⟩

end G13

namespace G14

def dS (l : List (Nat × Nat)) (f : DiscSt → DiscSt) : State :=
  let s := bnd ([(Reg.LINK_STAT 0, 2), (Reg.LINK_STAT 1, 2), (Reg.LINK_STAT 2, 2), (Reg.LINK_CTL 2, 4),
      (Reg.DISC_IDENT, 50), (Reg.DISC_CTL, 8 * 8 + 100 * 2 ^ 8 + 10 * 2 ^ 18), (Reg.EBS_CFG, 1 * 2 ^ 4)] ++ l)
  { s with disc := f s.disc, now := 10000000 }

def po (n i fl p0 p1 e0 reg v : Nat) : List Byte := leBytes 1 n ++ leBytes 1 i ++ leBytes 1 fl ++ leBytes 13 0 ++
leBytes 1 p0 ++ leBytes 1 p1 ++ leBytes 6 0 ++ leBytes 1 e0 ++ leBytes 7 0 ++ leBytes 2 reg ++ leBytes 6 0 ++
leBytes 8 v ++ leBytes 16 0

def pm (l : List (Nat × Nat))
(b : List Byte) : State := let s := dS l id; { s with mem := tSetRun byteZero 0x4000 b [] }

def pa (l : List (Nat × Nat)) : State := let s := dS l id; { s with
  disc := { s.disc with pathAddr := some 0x4000 } }

def nx (X : Host.Outcome State Fault Refusal) : State := match X with | .next t => t | _ => State.reset

def st37_0 : State :=
  { (pm [(Reg.DISC_CTL, 8 * 8 + 100 * 2 ^ 8 + 10 * 2 ^ 18 + 4)] []) with poison := [0x100] }

def st37_1 : State :=
  pm [(Reg.DISC_CTL, 8 * 8 + 100 * 2 ^ 8 + 10 * 2 ^ 18 + 4)] (po 1 0 0 1 1 0 0 0)

def st37_2 : State :=
  pm [(Reg.DISC_CTL, 8 * 8 + 100 * 2 ^ 8 + 10 * 2 ^ 18 + 4)] (po 9 0 0 1 1 0 0 0)

def st37_3 : State :=
  nx (exec (.registerWrite (sliceOffset (dS [] id).slice (Pg.DISC * 0x1000 + 0x120)) 8 (BitVec.ofNat 64 (fieldAt (po 1 1 1 1 1 1 288 (2 ^ 23)) 0x28 8)))
    (dS [] id))

def st37_4 : State :=
  dS [(Reg.DISC_MAIL, 0x8002), (Reg.DISC_MAIL_HEAD, 5 * 2 ^ 32 + 3)] id

/-- States and operands that meet the hypotheses of each clause of `Obligations.PathOperationsAndMail`. -/
theorem witness_PathOperationsAndMail :
    (∃ (s : State) (v : W64) (port n a : Nat), s.Inv
      ∧ (tWf linkNone s.links = true
        ∧ n = (s.fld Reg.DISC_MAIL_HEAD 47 32 + 65536 - s.fld Reg.DISC_MAIL_HEAD 15 0) % 65536
        ∧ a = s.fld Reg.DISC_MAIL 51 12 * 4096 + s.fld Reg.DISC_MAIL_HEAD 47 32 % 2 ^ s.fld Reg.DISC_MAIL 3 0 * 256
        ∧ (s.fld Reg.DISC_MAIL 3 0 = 0 ∨ 2 ^ s.fld Reg.DISC_MAIL 3 0 ≤ n) ∧ port < 18 ∧ s.role port = 2
        ∧ s.Accepts Reg.DISC_PATH v ∧ s.bit Reg.DISC_CTL 2 = false) ∧ s.disc.pathAddr = none)
    ∧ (∃ (s : State) (port n i a : Nat) (b : List Byte), s.Inv
      ∧ (tWf linkNone s.links = true ∧ (18 ≤ port ∨ s.role port ≠ 2) ∧ n = fieldAt b 0 1 ∧ i = fieldAt b 1 1
        ∧ b.length = 64 ∧ 1 ≤ n ∧ n ≤ 8 ∧ i ≤ n) ∧ bits (fieldAt b 2 1) 1 1 = 1 ∧ i = 0
      ∧ s.disc.pathAddr = some a ∧ a + 64 ≤ memSpace)
    ∧ (∃ (s : State) (v : W64), s.Inv ∧ tWf linkNone s.links = true ∧ s.Accepts Reg.DISC_PATH v
      ∧ s.bit Reg.DISC_CTL 2 = true ∧ s.poisoned (bits v.toNat 51 6 * 64) 64 = true)
    ∧ (∃ (s : State) (v : W64) (port n a : Nat), s.Inv
      ∧ (tWf linkNone s.links = true ∧ s.Accepts Reg.DISC_PATH v ∧ s.bit Reg.DISC_CTL 2 = true
        ∧ a = bits v.toNat 51 6 * 64 ∧ s.poisoned a 64 = false ∧ n = fieldAt (s.rd a 64) 0 1
        ∧ port = fieldAt (s.rd a 64) 0x10 1 ∧ 1 ≤ n) ∧ n ≤ 8 ∧ port ∈ s.discPorts)
    ∧ (∃ (s : State) (v : W64) (port n a : Nat), s.Inv ∧ tWf linkNone s.links = true
      ∧ s.Accepts Reg.DISC_PATH v ∧ s.bit Reg.DISC_CTL 2 = true ∧ a = bits v.toNat 51 6 * 64
      ∧ s.poisoned a 64 = false ∧ n = fieldAt (s.rd a 64) 0 1 ∧ port = fieldAt (s.rd a 64) 0x10 1
      ∧ (n = 0 ∨ 8 < n ∨ port ∉ s.discPorts))
    ∧ (∃ (s : State) (port n i : Nat) (b : List Byte), s.Inv ∧ tWf linkNone s.links = true
      ∧ (18 ≤ port ∨ s.role port ≠ 2) ∧ n = fieldAt b 0 1 ∧ i = fieldAt b 1 1 ∧ b.length = 64
      ∧ (n = 0 ∨ 8 < n ∨ n < i))
    ∧ (∃ (s : State) (port n i : Nat) (b : List Byte), s.Inv
      ∧ (tWf linkNone s.links = true ∧ (18 ≤ port ∨ s.role port ≠ 2) ∧ n = fieldAt b 0 1 ∧ i = fieldAt b 1 1
        ∧ b.length = 64 ∧ 1 ≤ n ∧ n ≤ 8 ∧ i ≤ n) ∧ bits (fieldAt b 2 1) 1 1 = 0 ∧ i = 0)
    ∧ (∃ (s : State) (port n i : Nat) (b : List Byte), s.Inv
      ∧ (tWf linkNone s.links = true ∧ (18 ≤ port ∨ s.role port ≠ 2) ∧ n = fieldAt b 0 1 ∧ i = fieldAt b 1 1
        ∧ b.length = 64 ∧ 1 ≤ n ∧ n ≤ 8 ∧ i ≤ n) ∧ bits (fieldAt b 2 1) 1 1 = 0 ∧ 0 < i ∧ i < n
      ∧ fieldAt b (0x10 + i) 1 ∈ s.discPorts)
    ∧ (∃ (s : State) (port n i : Nat) (b : List Byte), s.Inv
      ∧ (tWf linkNone s.links = true ∧ (18 ≤ port ∨ s.role port ≠ 2) ∧ n = fieldAt b 0 1 ∧ i = fieldAt b 1 1
        ∧ b.length = 64 ∧ 1 ≤ n ∧ n ≤ 8 ∧ i ≤ n) ∧ bits (fieldAt b 2 1) 1 1 = 0 ∧ 0 < i ∧ i < n
      ∧ fieldAt b (0x10 + i) 1 ∉ s.discPorts)
    ∧ (∃ (s : State) (port n i r : Nat) (b : List Byte), s.Inv
      ∧ (tWf linkNone s.links = true ∧ (18 ≤ port ∨ s.role port ≠ 2) ∧ n = fieldAt b 0 1 ∧ i = fieldAt b 1 1
        ∧ b.length = 64 ∧ 1 ≤ n ∧ n ≤ 8 ∧ i ≤ n) ∧ bits (fieldAt b 2 1) 1 1 = 0 ∧ i = n ∧ port ∈ s.discPorts
      ∧ pathReg b = some r ∧ r % 8 = 0 ∧ bits (fieldAt b 2 1) 0 0 = 0)
    ∧ (∃ (s u : State) (port n i r : Nat) (b : List Byte), s.Inv
      ∧ (tWf linkNone s.links = true ∧ (18 ≤ port ∨ s.role port ≠ 2) ∧ n = fieldAt b 0 1 ∧ i = fieldAt b 1 1
        ∧ b.length = 64 ∧ 1 ≤ n ∧ n ≤ 8 ∧ i ≤ n)
      ∧ (bits (fieldAt b 2 1) 1 1 = 0 ∧ i = n ∧ port ∈ s.discPorts ∧ pathReg b = some r ∧ r % 8 = 0
        ∧ bits (fieldAt b 2 1) 0 0 = 1 ∧ s.bound = true ∧ s.slice < 8)
      ∧ s.bit Reg.PKG_SLICES (16 + s.slice) = false
      ∧ (exec (.registerWrite (sliceOffset s.slice r) 8 (BitVec.ofNat 64 (fieldAt b 0x28 8))) s = .next u))
    ∧ (∃ (s : State) (port n i : Nat) (b : List Byte), s.Inv
      ∧ (tWf linkNone s.links = true ∧ (18 ≤ port ∨ s.role port ≠ 2) ∧ n = fieldAt b 0 1 ∧ i = fieldAt b 1 1
        ∧ b.length = 64 ∧ 1 ≤ n ∧ n ≤ 8 ∧ i ≤ n) ∧ bits (fieldAt b 2 1) 1 1 = 1 ∧ 0 < i
      ∧ fieldAt b (0x18 + (i - 1)) 1 ∈ s.discPorts)
    ∧ (∃ (s : State) (n a : Nat) (b : List Byte), s.Inv ∧ tWf linkNone s.links = true
      ∧ n = (s.fld Reg.DISC_MAIL_HEAD 47 32 + 65536 - s.fld Reg.DISC_MAIL_HEAD 15 0) % 65536
      ∧ a = s.fld Reg.DISC_MAIL 51 12 * 4096 + s.fld Reg.DISC_MAIL_HEAD 47 32 % 2 ^ s.fld Reg.DISC_MAIL 3 0 * 256
      ∧ 0 < s.fld Reg.DISC_MAIL 3 0 ∧ n < 2 ^ s.fld Reg.DISC_MAIL 3 0 ∧ a + 256 ≤ memSpace ∧ b.length = 256) :=
  ⟨⟨dS [] id, 0#64, 2, 0, 0, inv_of (by decide +kernel), (by unfold State.Accepts; decide +kernel),
     by decide +kernel⟩,
   ⟨pa [], 0, 1, 0, 0x4000, po 1 0 2 1 1 1 272 0, inv_of (by decide +kernel), (by decide +kernel),
     by decide +kernel⟩,
   ⟨st37_0, 16384#64, inv_of (by decide +kernel), by unfold State.Accepts; decide +kernel⟩,
   ⟨st37_1, 16384#64, 1, 1, 0x4000, inv_of (by decide +kernel), (by unfold State.Accepts; decide +kernel),
     by decide +kernel⟩,
   ⟨st37_2, 16384#64, 1, 9, 0x4000, inv_of (by decide +kernel), by unfold State.Accepts; decide +kernel⟩,
   ⟨dS [] id, 0, 0, 0, po 0 0 0 1 1 1 272 0, inv_of (by decide +kernel), by decide +kernel⟩,
   ⟨dS [] id, 0, 2, 0, po 2 0 0 1 1 1 272 0, inv_of (by decide +kernel), (by decide +kernel), by decide +kernel⟩,
   ⟨dS [] id, 0, 2, 1, po 2 1 0 1 1 1 272 0, inv_of (by decide +kernel), (by decide +kernel), by decide +kernel⟩,
   ⟨dS [] id, 0, 2, 1, po 2 1 0 1 5 1 272 0, inv_of (by decide +kernel), (by decide +kernel), by decide +kernel⟩,
   ⟨dS [] id, 0, 1, 1, Pg.DISC * 0x1000 + 0x110, po 1 1 0 1 1 1 272 0, inv_of (by decide +kernel),
     (by decide +kernel), by decide +kernel⟩,
   ⟨dS [] id, st37_3, 0, 1, 1, Pg.DISC * 0x1000 + 0x120, po 1 1 1 1 1 1 288 (2 ^ 23), inv_of (by decide +kernel),
     (by decide +kernel), (by decide +kernel), (by decide +kernel),
     (nx_of (f := nx) (by decide +kernel) fun _ => rfl)⟩,
   ⟨dS [] id, 0, 2, 1, po 2 1 2 1 1 0 272 0, inv_of (by decide +kernel), (by decide +kernel), by decide +kernel⟩,
   ⟨st37_4, 2, 0x8100, List.replicate 256 5#8, inv_of (by decide +kernel), by decide +kernel⟩⟩

end G14

namespace G15

def e0 : Nat := 2 ^ 38 + 31 * 2 ^ 22

def e1 : Nat := 2 ^ 38 + 1 + 2 ^ 30 + 2 ^ 34

def img (ver node mh ord : Nat) (pd : Nat) (es : List Nat) : List Byte := leBytes 2 ver ++ leBytes 1 mh ++
leBytes 1 0 ++ leBytes 4 ord ++ leBytes 4 node ++ leBytes 4 0 ++ leBytes 9 pd ++ leBytes 39 0 ++
es.flatMap (leBytes 8)

def rS (l : List (Nat × Nat)) (a b : RouteVer) (im : List Byte) : State :=
  let s := bnd ([(Reg.ROUTE_IMAGE, 0x40000)] ++ l)
  { s with now := 1000, mem := tSetRun byteZero 0x40000 im [], route := { s.route with v0 := a, v1 := b } }

def good : List Byte := img 1 0 4 0 0 [e0, e1]

def st38_0 : State :=
  rS [] { st := 3, maxhop := 2 } { st := 4 } (good)

def listby38_1 : List Byte :=
  st38_0.rd 0x40000 64

def listby38_2 : List Byte :=
  st38_0.rd 0x40040 32768

def st38_3 : State :=
  rS [] { st := 3, maxhop := 2 } {} (good)

def st38_4 : State :=
  rS [(Reg.ROUTE_STAT, 128), (Reg.ROUTE_SWITCH, 500)] {} {} (good)

def listby38_5 : List Byte :=
  (rS [] { st := 1 } {} (good)).rd 0x40000 64

def st38_6 : State :=
  rS [(Reg.PBELL_STATE, 2)] { st := 1 } { st := 3, maxhop := 2 } (img 1 0 4 9 0 [e0])

def listby38_7 : List Byte :=
  st38_6.rd 0x40000 64

def st38_8 : State :=
  rS [(Reg.ROUTE_STAT, 128), (Reg.ROUTE_SWITCH, 500)] { st := 1 } { st := 3, maxhop := 2 } (good)

def st38_9 : State :=
  rS [(Reg.ROUTE_STAT, 128), (Reg.ROUTE_SWITCH, 500)] { st := 2 } {} (good)

/-- States and operands that meet the hypotheses of each clause of `Obligations.RouteTablesLoadAndSwitch`. -/
theorem witness_RouteTablesLoadAndSwitch :
    (∃ (s : State) (v : W64) (k base : Nat) (head es : List Byte), s.Inv
      ∧ (k = (if s.route.v0.st = 4 then 0 else 1) ∧ (s.routeVer k).st = 4 ∧ s.route.drainAt ≤ s.now
        ∧ s.Accepts Reg.ROUTE_IMAGE v ∧ k = (if s.route.v0.st = 3 then 1 else 0)
        ∧ ((s.routeVer k).st = 1 ∨ (s.routeVer k).st = 4)) ∧ (head = s.rd base 64)
      ∧ (es = s.rd (base + 64) 32768) ∧ s.route.v0.st ≠ 1 ∧ s.route.v1.st ≠ 1
      ∧ (s.bellState ≠ 0 ∨ s.bit Reg.ROUTE_STAT 7 = false ∨ s.now < s.regNat Reg.ROUTE_SWITCH)
      ∧ s.Accepts Reg.ROUTE_SWITCH v)
    ∧ (∃ (s : State) (v : W64) (k : Nat), s.Inv ∧ s.Accepts Reg.ROUTE_IMAGE v
      ∧ k = (if s.route.v0.st = 3 then 1 else 0) ∧ v ≠ 0#64 ∧ (s.routeVer k).st ≠ 1 ∧ (s.routeVer k).st ≠ 4
      ∧ k = (if s.route.v0.st = 4 then 0 else 1) ∧ ((s.routeVer k).st ≠ 4 ∨ s.now < s.route.drainAt))
    ∧ (∃ (s : State) (v : W64) (k : Nat), s.Inv
      ∧ (s.bellState = 0 ∧ s.bit Reg.ROUTE_STAT 7 = true ∧ s.regNat Reg.ROUTE_SWITCH ≤ s.now
        ∧ k = (if s.route.v0.st = 3 then 1 else 0) ∧ (s.routeVer k).st ≠ 1 ∧ (s.routeVer k).st ≠ 2
        ∧ s.Accepts Reg.ROUTE_IMAGE v ∧ v = 0#64) ∧ (s.routeVer k).st ≠ 4)
    ∧ (∃ (s : State) (k base : Nat) (head : List Byte), s.Inv
      ∧ ((k = 0 ∧ s.route.v0.st = 1 ∨ k = 1 ∧ s.route.v0.st ≠ 1 ∧ s.route.v1.st = 1)
        ∧ base = s.fld Reg.ROUTE_IMAGE 51 12 * 4096) ∧ (head = s.rd base 64) ∧ s.poisoned base 32832 = false
      ∧ s.routeReason base = none ∧ s.liveVer = none)
    ∧ (∃ (s : State) (k reason entry base : Nat) (head : List Byte), s.Inv
      ∧ ((k = 0 ∧ s.route.v0.st = 1 ∨ k = 1 ∧ s.route.v0.st ≠ 1 ∧ s.route.v1.st = 1)
        ∧ base = s.fld Reg.ROUTE_IMAGE 51 12 * 4096) ∧ (head = s.rd base 64) ∧ s.poisoned base 32832 = false
      ∧ s.routeReason base = some (reason, entry))
    ∧ (∃ (s : State) (k : Nat), s.Inv ∧ s.bellState = 0 ∧ s.bit Reg.ROUTE_STAT 7 = true
      ∧ s.regNat Reg.ROUTE_SWITCH ≤ s.now ∧ k = (if s.route.v0.st = 3 then 1 else 0) ∧ (s.routeVer k).st = 1)
    ∧ (∃ (s : State) (k : Nat), s.Inv ∧ s.bellState = 0 ∧ s.bit Reg.ROUTE_STAT 7 = true
      ∧ s.regNat Reg.ROUTE_SWITCH ≤ s.now ∧ k = (if s.route.v0.st = 3 then 1 else 0) ∧ (s.routeVer k).st = 2
      ∧ s.liveVer = none) :=
  ⟨⟨st38_0, 0x40000#64, 1, 0x40000, listby38_1, listby38_2, inv_of (by decide +kernel),
     (by unfold State.Accepts; decide +kernel), (rfl), (rfl), by unfold State.Accepts; decide +kernel⟩,
   ⟨st38_3, 0x40000#64, 1, inv_of (by decide +kernel), by unfold State.Accepts; decide +kernel⟩,
   ⟨st38_4, 0#64, 0, inv_of (by decide +kernel), (by unfold State.Accepts; decide +kernel), by decide +kernel⟩,
   ⟨rS [] { st := 1 } {} (good), 0, 0x40000, listby38_5, inv_of (by decide +kernel), (by decide +kernel), (rfl),
     by decide +kernel⟩,
   ⟨st38_6, 0, 5, 0, 0x40000, listby38_7, inv_of (by decide +kernel), (by decide +kernel), (rfl),
     by decide +kernel⟩,
   ⟨st38_8, 0, inv_of (by decide +kernel), by decide +kernel⟩,
   ⟨st38_9, 0, inv_of (by decide +kernel), by decide +kernel⟩⟩

end G15

namespace G16

def cmd (t fl ln sem : Nat) (tgt la o1 o2 : Nat) (fa : Nat := 0) : List Byte :=
  leBytes 1 t ++ leBytes 1 fl ++ leBytes 1 ln ++ leBytes 1 sem ++ leBytes 1 fa ++
  leBytes 1 (if t = 4 then 7 else 0) ++ leBytes 2 0 ++ leBytes 8 tgt ++ leBytes 8 la ++ leBytes 8 o1 ++
  leBytes 8 o2 ++ leBytes 24 0

/-- region entry -/
def rg (off host pages job fl ow fw : Nat) : List Byte := leBytes 8 off ++ leBytes 8 host ++ leBytes 4 pages ++
leBytes 2 job ++ leBytes 1 fl ++ leBytes 1 0 ++ leBytes 4 ow ++ leBytes 4 fw

def mS (l : List (Nat × Nat)) (c : List Byte) (f : MsemSt → MsemSt := fun m => { m with tail := 3 })
(cx : Ctx := { st := 1, job := 9 }) : State :=
  let s := bnd ([(Reg.MSEM_RING, 0x100002), (Reg.MSEM_HEAD, 2), (Reg.MSEM_REGIONS_LIVE, 0x200001),
      (Reg.ROUTE_JOBS0, 9), (Reg.MSEM_ROB, 4)] ++ l)
  { s with
    mem := tSetRun byteZero 0x200000 (rg 0x1000 0x300000 2 9 (7 + 8) 24 0) (tSetRun byteZero 0x100080 c []),
    msem := f s.msem, ctx := { s.ctx with ctxs := [(0, cx)] } }

def rq1 (tag : Nat) : Req := { tag := tag, dest := 16, job := 9, type := 1, lines := 1, for_ := .cmd 0 }

def st39_0 : State :=
  { mS [] (cmd 1 0 0 5 (24 * 2 ^ 41 + 0x1040) 0x5000 11 12) (fun m => { m with tail := 3 }) ({
        st := 1, job := 9 }) with
    now := 9 }

def listby39_1 : List Byte :=
  st39_0.rd 0x100080 64

def st39_2 : State :=
  { mS [] (cmd 1 0 1 5 0x1040 0x5000 0 0) (fun m => { m with fences := [⟨4, [3], [(24, 5)], 0xFF, 0x100028⟩] }) ({
        st := 1, job := 9 }) with
    now := 9 }

def listby39_3 : List Byte :=
  st39_2.rd 0x100080 64

def st39_4 : State :=
  { mS [] (cmd 1 0 0 5 (2 ^ 56) 0x5000 11 12) (fun m => { m with tail := 3 }) ({ st := 1, job := 9 }) with
    now := 9 }

def listby39_5 : List Byte :=
  st39_4.rd 0x100080 64

def st39_6 : State :=
  { mS [] (cmd 1 0 0 40 (24 * 2 ^ 41 + 0x1040) 0x5000 11 12) (fun m => { m with tail := 3 }) ({
        st := 1, job := 9 }) with
    now := 9 }

def listby39_7 : List Byte :=
  st39_6.rd 0x100080 64

def st39_8 : State :=
  { mS [] (cmd 1 8 0 40 (24 * 2 ^ 41 + 0x1040) 0x5000 11 12) (fun m => { m with tail := 3 }) ({
        st := 1, job := 9 }) with
    now := 9 }

def listby39_9 : List Byte :=
  st39_8.rd 0x100080 64

def st39_10 : State :=
  { mS [] (cmd 2 0 0 40 (24 * 2 ^ 41 + 0x1040) 0x5000 11 12) (fun m => { m with tail := 3 }) ({
        st := 1, job := 9 }) with
    now := 9 }

def listby39_11 : List Byte :=
  st39_10.rd 0x100080 64

def st39_12 : State :=
  { mS [] (cmd 1 0 0 5 (24 * 2 ^ 41 + 0x1040) 0x5000 11 12) (fun m => { m with tail := 2 }) ({
        st := 1, job := 9 }) with
    now := 9 }

def listby39_13 : List Byte :=
  st39_12.rd 0x100080 64

def st39_14 : State :=
  { mS [] (cmd 1 0 0 5 (24 * 2 ^ 41 + 0x1040) 0x5000 11 12) (fun m => { m with tail := 3 }) ({
        st := 1, job := 9 }) with
    now := 9 , poison := [0x4002] }

def listby39_15 : List Byte :=
  st39_14.rd 0x100080 64

def st39_16 : State :=
  { mS [] (cmd 2 0 0 5 (24 * 2 ^ 41 + 0x1040) 0x5000 11 12) (fun m => { m with tail := 3 }) ({
        st := 1, job := 9 }) with
    now := 9 , poison := [0x140] }

def listby39_17 : List Byte :=
  st39_16.rd 0x100080 64

def instrx39_18 : Instr × Nat × List Byte :=
  (.msemCmdStore, 2, st39_16.rd 0x5000 64)

def st39_19 : State :=
  { mS [] (cmd 1 0 1 5 0x1040 0x5000 0 0) (fun m => { m with tail := 3 }) ({ st := 1, job := 9 }) with now := 9 }

def listby39_20 : List Byte :=
  st39_19.rd 0x100080 64

def st39_21 : State :=
  { mS [] (cmd 0xF0 0 0 5 (24 * 2 ^ 41 + 0x1040) 0 0 0 1) (fun m => { m with tail := 3, reqs := [rq1 7] }) ({
        st := 1, job := 9 }) with
    now := 9 }

def listby39_22 : List Byte :=
  st39_21.rd 0x100080 64

def st39_23 : State :=
  { mS [] (cmd 1 0 1 5 0x1040 0x5000 0 0) (fun m => { m with
        reqs := [rq1 3], fences := [⟨4, [3], [(24, 5)], 0xFF, 0x100028⟩] }) ({ st := 1, job := 9 }) with
    now := 9 }

def listby39_24 : List Byte :=
  st39_23.rd 0x100080 64

/-- States and operands that meet the hypotheses of each clause of `Obligations.RingCommandsAreIssued`. -/
theorem witness_RingCommandsAreIssued :
    (∃ (s : State) (v : W64) (a la n c job fa id : Nat) (b : List Byte) (x : Instr × Nat × List Byte), s.Inv
      ∧ (b = s.rd a 64)
      ∧ (la = fieldAt b 0x10 8 ∧ n = 64 * (fieldAt b 2 1 + 1) ∧ c = bits (fieldAt b 1 1) 1 0 ∧ job = s.ctxJob c
        ∧ fa = (s.translate (fieldAt b 8 8)).1 ∧ a + 64 ≤ memSpace
        ∧ x ∈ [(Instr.msemCmdLoad, 1, []), (.msemCmdStore, 2, s.rd la n),
          (.msemCmdStoreMasked, 3, leBytes 8 (fieldAt b 0x18 8) ++ s.rd la 64),
          (.msemCmdStoreCount, 4, leBytes 8 (fieldAt b 5 1) ++ s.rd la n),
          (.msemCmdAdd, 0x10, leBytes 8 (fieldAt b 0x18 8)), (.msemCmdMinS, 0x11, leBytes 8 (fieldAt b 0x18 8)),
          (.msemCmdMaxS, 0x12, leBytes 8 (fieldAt b 0x18 8)), (.msemCmdMinU, 0x13, leBytes 8 (fieldAt b 0x18 8)),
          (.msemCmdMaxU, 0x14, leBytes 8 (fieldAt b 0x18 8)),
          (.msemCmdCas, 0x15, leBytes 8 (fieldAt b 0x18 8) ++ leBytes 8 (fieldAt b 0x20 8)),
          (.msemCmdFadd32, 0x16, leBytes 8 (fieldAt b 0x18 8)), (.msemCmdFence, 0xF0, [])]
        ∧ 0 < s.fld Reg.MSEM_RING 4 0)
      ∧ ((s.msem.tail + 2 ^ 32 - s.fld Reg.MSEM_HEAD 31 0) % 2 ^ 32 ≠ 0
        ∧ a = s.fld Reg.MSEM_RING 51 12 * 4096 + s.fld Reg.MSEM_HEAD 31 0 % 2 ^ s.fld Reg.MSEM_RING 4 0 * 64
        ∧ s.msem.fences = [] ∧ s.msem.reqs.length < 16384 ∧ s.unreadable .request a 64 = false
        ∧ fieldAt b 0 1 = x.2.1 ∧ commandOk b = true ∧ (127 < fieldAt b 3 1 ∨ fieldAt b 3 1 / 32 = c))
      ∧ (job ≠ 0 ∧ s.ctxState c = 1 ∧ x.2.1 ≠ 0xF0 ∧ s.tornAt job (s.fld Reg.MSEM_HEAD 31 0) false = false
        ∧ nodeDomain (faNode fa) = nodeDomain s.node
        ∧ (2 ≤ x.2.1 → x.2.1 ≤ 4 → s.unreadable .request la n = false)
        ∧ s.msem.reqs.length + s.msem.invals.length < 65535 ∧ faNode fa ≠ s.node)
      ∧ (∀ g ∈ s.msem.fences, g.id ≠ id) ∧ s.Accepts Reg.MSEM_TAIL v)
    ∧ (∃ (s : State) (a la n c job fa id : Nat) (b : List Byte) (x : Instr × Nat × List Byte) (f : Fence),
      s.Inv ∧ (b = s.rd a 64)
      ∧ (la = fieldAt b 0x10 8 ∧ n = 64 * (fieldAt b 2 1 + 1) ∧ c = bits (fieldAt b 1 1) 1 0 ∧ job = s.ctxJob c
        ∧ fa = (s.translate (fieldAt b 8 8)).1 ∧ a + 64 ≤ memSpace
        ∧ x ∈ [(Instr.msemCmdLoad, 1, []), (.msemCmdStore, 2, s.rd la n),
          (.msemCmdStoreMasked, 3, leBytes 8 (fieldAt b 0x18 8) ++ s.rd la 64),
          (.msemCmdStoreCount, 4, leBytes 8 (fieldAt b 5 1) ++ s.rd la n),
          (.msemCmdAdd, 0x10, leBytes 8 (fieldAt b 0x18 8)), (.msemCmdMinS, 0x11, leBytes 8 (fieldAt b 0x18 8)),
          (.msemCmdMaxS, 0x12, leBytes 8 (fieldAt b 0x18 8)), (.msemCmdMinU, 0x13, leBytes 8 (fieldAt b 0x18 8)),
          (.msemCmdMaxU, 0x14, leBytes 8 (fieldAt b 0x18 8)),
          (.msemCmdCas, 0x15, leBytes 8 (fieldAt b 0x18 8) ++ leBytes 8 (fieldAt b 0x20 8)),
          (.msemCmdFadd32, 0x16, leBytes 8 (fieldAt b 0x18 8)), (.msemCmdFence, 0xF0, [])]
        ∧ s.msem.fences = [f]) ∧ f.id = id
      ∧ (∀ g ∈ f.tags, (∀ r ∈ s.msem.reqs, r.tag ≠ g) ∧ (∀ o ∈ s.e2e.outst, argTag o.pkt.arg ≠ g)
        ∧ ∀ q ∈ s.route.queue, argTag q.pkt.arg ≠ g)
      ∧ (∀ y ∈ f.seqs, ∀ o ∈ s.e2e.outst, o.dest = y.1 → o.cls = 1 → o.seq = y.2 → o.skipped = true)
      ∧ f.statusAddr < memSpace ∧ 0 < s.fld Reg.MSEM_RING 4 0
      ∧ (s.msem.tail + 2 ^ 32 - s.fld Reg.MSEM_HEAD 31 0) % 2 ^ 32 ≠ 0
      ∧ a = s.fld Reg.MSEM_RING 51 12 * 4096 + s.fld Reg.MSEM_HEAD 31 0 % 2 ^ s.fld Reg.MSEM_RING 4 0 * 64
      ∧ (s.msem.fences ≠ [] ∨ 16384 ≤ s.msem.reqs.length))
    ∧ (∃ (s : State) (a la n c job fa : Nat) (b : List Byte) (x : Instr × Nat × List Byte) (st : _), s.Inv
      ∧ (b = s.rd a 64)
      ∧ (la = fieldAt b 0x10 8 ∧ n = 64 * (fieldAt b 2 1 + 1) ∧ c = bits (fieldAt b 1 1) 1 0 ∧ job = s.ctxJob c
        ∧ fa = (s.translate (fieldAt b 8 8)).1 ∧ a + 64 ≤ memSpace
        ∧ x ∈ [(Instr.msemCmdLoad, 1, []), (.msemCmdStore, 2, s.rd la n),
          (.msemCmdStoreMasked, 3, leBytes 8 (fieldAt b 0x18 8) ++ s.rd la 64),
          (.msemCmdStoreCount, 4, leBytes 8 (fieldAt b 5 1) ++ s.rd la n),
          (.msemCmdAdd, 0x10, leBytes 8 (fieldAt b 0x18 8)), (.msemCmdMinS, 0x11, leBytes 8 (fieldAt b 0x18 8)),
          (.msemCmdMaxS, 0x12, leBytes 8 (fieldAt b 0x18 8)), (.msemCmdMinU, 0x13, leBytes 8 (fieldAt b 0x18 8)),
          (.msemCmdMaxU, 0x14, leBytes 8 (fieldAt b 0x18 8)),
          (.msemCmdCas, 0x15, leBytes 8 (fieldAt b 0x18 8) ++ leBytes 8 (fieldAt b 0x20 8)),
          (.msemCmdFadd32, 0x16, leBytes 8 (fieldAt b 0x18 8)), (.msemCmdFence, 0xF0, [])]
        ∧ 0 < s.fld Reg.MSEM_RING 4 0)
      ∧ ((s.msem.tail + 2 ^ 32 - s.fld Reg.MSEM_HEAD 31 0) % 2 ^ 32 ≠ 0
        ∧ a = s.fld Reg.MSEM_RING 51 12 * 4096 + s.fld Reg.MSEM_HEAD 31 0 % 2 ^ s.fld Reg.MSEM_RING 4 0 * 64
        ∧ s.msem.fences = [] ∧ s.msem.reqs.length < 16384 ∧ s.unreadable .request a 64 = false
        ∧ fieldAt b 0 1 = x.2.1 ∧ commandOk b = true ∧ (127 < fieldAt b 3 1 ∨ fieldAt b 3 1 / 32 = c))
      ∧ (st = 20 ∧ (job = 0 ∨ s.ctxState c ≠ 1) ∨ x.2.1 ≠ 0xF0 ∧ job ≠ 0 ∧ s.ctxState c = 1
        ∧ (st = 17 ∧ s.tornAt job (s.fld Reg.MSEM_HEAD 31 0) false = true ∨ st = 19
          ∧ s.tornAt job (s.fld Reg.MSEM_HEAD 31 0) false = false ∧ nodeDomain (faNode fa) ≠ nodeDomain s.node)))
    ∧ (∃ (s : State) (a la n c job fa : Nat) (b : List Byte) (x : Instr × Nat × List Byte), s.Inv
      ∧ (b = s.rd a 64)
      ∧ (la = fieldAt b 0x10 8 ∧ n = 64 * (fieldAt b 2 1 + 1) ∧ c = bits (fieldAt b 1 1) 1 0 ∧ job = s.ctxJob c
        ∧ fa = (s.translate (fieldAt b 8 8)).1 ∧ a + 64 ≤ memSpace
        ∧ x ∈ [(Instr.msemCmdLoad, 1, []), (.msemCmdStore, 2, s.rd la n),
          (.msemCmdStoreMasked, 3, leBytes 8 (fieldAt b 0x18 8) ++ s.rd la 64),
          (.msemCmdStoreCount, 4, leBytes 8 (fieldAt b 5 1) ++ s.rd la n),
          (.msemCmdAdd, 0x10, leBytes 8 (fieldAt b 0x18 8)), (.msemCmdMinS, 0x11, leBytes 8 (fieldAt b 0x18 8)),
          (.msemCmdMaxS, 0x12, leBytes 8 (fieldAt b 0x18 8)), (.msemCmdMinU, 0x13, leBytes 8 (fieldAt b 0x18 8)),
          (.msemCmdMaxU, 0x14, leBytes 8 (fieldAt b 0x18 8)),
          (.msemCmdCas, 0x15, leBytes 8 (fieldAt b 0x18 8) ++ leBytes 8 (fieldAt b 0x20 8)),
          (.msemCmdFadd32, 0x16, leBytes 8 (fieldAt b 0x18 8)), (.msemCmdFence, 0xF0, [])]
        ∧ 0 < s.fld Reg.MSEM_RING 4 0)
      ∧ ((s.msem.tail + 2 ^ 32 - s.fld Reg.MSEM_HEAD 31 0) % 2 ^ 32 ≠ 0
        ∧ a = s.fld Reg.MSEM_RING 51 12 * 4096 + s.fld Reg.MSEM_HEAD 31 0 % 2 ^ s.fld Reg.MSEM_RING 4 0 * 64
        ∧ s.msem.fences = [] ∧ s.msem.reqs.length < 16384 ∧ s.unreadable .request a 64 = false
        ∧ fieldAt b 0 1 = x.2.1 ∧ commandOk b = true ∧ fieldAt b 3 1 ≤ 127) ∧ fieldAt b 3 1 / 32 ≠ c)
    ∧ (∃ (s : State) (a la n c job fa : Nat) (b : List Byte) (x : Instr × Nat × List Byte), s.Inv
      ∧ (b = s.rd a 64)
      ∧ (la = fieldAt b 0x10 8 ∧ n = 64 * (fieldAt b 2 1 + 1) ∧ c = bits (fieldAt b 1 1) 1 0 ∧ job = s.ctxJob c
        ∧ fa = (s.translate (fieldAt b 8 8)).1 ∧ a + 64 ≤ memSpace
        ∧ x ∈ [(Instr.msemCmdLoad, 1, []), (.msemCmdStore, 2, s.rd la n),
          (.msemCmdStoreMasked, 3, leBytes 8 (fieldAt b 0x18 8) ++ s.rd la 64),
          (.msemCmdStoreCount, 4, leBytes 8 (fieldAt b 5 1) ++ s.rd la n),
          (.msemCmdAdd, 0x10, leBytes 8 (fieldAt b 0x18 8)), (.msemCmdMinS, 0x11, leBytes 8 (fieldAt b 0x18 8)),
          (.msemCmdMaxS, 0x12, leBytes 8 (fieldAt b 0x18 8)), (.msemCmdMinU, 0x13, leBytes 8 (fieldAt b 0x18 8)),
          (.msemCmdMaxU, 0x14, leBytes 8 (fieldAt b 0x18 8)),
          (.msemCmdCas, 0x15, leBytes 8 (fieldAt b 0x18 8) ++ leBytes 8 (fieldAt b 0x20 8)),
          (.msemCmdFadd32, 0x16, leBytes 8 (fieldAt b 0x18 8)), (.msemCmdFence, 0xF0, [])]
        ∧ 0 < s.fld Reg.MSEM_RING 4 0) ∧ (s.msem.tail + 2 ^ 32 - s.fld Reg.MSEM_HEAD 31 0) % 2 ^ 32 ≠ 0
      ∧ a = s.fld Reg.MSEM_RING 51 12 * 4096 + s.fld Reg.MSEM_HEAD 31 0 % 2 ^ s.fld Reg.MSEM_RING 4 0 * 64
      ∧ s.msem.fences = [] ∧ s.msem.reqs.length < 16384 ∧ s.unreadable .request a 64 = false
      ∧ (fieldAt b 0 1 ∉ commandTypes ∨ fieldAt b 0 1 = x.2.1 ∧ commandOk b = false))
    ∧ (∃ (s : State) (a la n c job fa : Nat) (b : List Byte) (x : Instr × Nat × List Byte), s.Inv
      ∧ (b = s.rd a 64)
      ∧ (la = fieldAt b 0x10 8 ∧ n = 64 * (fieldAt b 2 1 + 1) ∧ c = bits (fieldAt b 1 1) 1 0 ∧ job = s.ctxJob c
        ∧ fa = (s.translate (fieldAt b 8 8)).1 ∧ a + 64 ≤ memSpace
        ∧ x ∈ [(Instr.msemCmdLoad, 1, []), (.msemCmdStore, 2, s.rd la n),
          (.msemCmdStoreMasked, 3, leBytes 8 (fieldAt b 0x18 8) ++ s.rd la 64),
          (.msemCmdStoreCount, 4, leBytes 8 (fieldAt b 5 1) ++ s.rd la n),
          (.msemCmdAdd, 0x10, leBytes 8 (fieldAt b 0x18 8)), (.msemCmdMinS, 0x11, leBytes 8 (fieldAt b 0x18 8)),
          (.msemCmdMaxS, 0x12, leBytes 8 (fieldAt b 0x18 8)), (.msemCmdMinU, 0x13, leBytes 8 (fieldAt b 0x18 8)),
          (.msemCmdMaxU, 0x14, leBytes 8 (fieldAt b 0x18 8)),
          (.msemCmdCas, 0x15, leBytes 8 (fieldAt b 0x18 8) ++ leBytes 8 (fieldAt b 0x20 8)),
          (.msemCmdFadd32, 0x16, leBytes 8 (fieldAt b 0x18 8)), (.msemCmdFence, 0xF0, [])]
        ∧ 0 < s.fld Reg.MSEM_RING 4 0) ∧ (s.msem.tail + 2 ^ 32 - s.fld Reg.MSEM_HEAD 31 0) % 2 ^ 32 ≠ 0
      ∧ a = s.fld Reg.MSEM_RING 51 12 * 4096 + s.fld Reg.MSEM_HEAD 31 0 % 2 ^ s.fld Reg.MSEM_RING 4 0 * 64
      ∧ s.msem.fences = [] ∧ s.msem.reqs.length < 16384 ∧ s.unreadable .request a 64 = false
      ∧ fieldAt b 0 1 ∈ commandTypes ∧ fieldAt b 0 1 ≠ x.2.1)
    ∧ (∃ (s : State) (a la n c job fa : Nat) (b : List Byte) (x : Instr × Nat × List Byte), s.Inv
      ∧ (b = s.rd a 64) ∧ la = fieldAt b 0x10 8 ∧ n = 64 * (fieldAt b 2 1 + 1) ∧ c = bits (fieldAt b 1 1) 1 0
      ∧ job = s.ctxJob c ∧ fa = (s.translate (fieldAt b 8 8)).1 ∧ a + 64 ≤ memSpace
      ∧ x ∈ [(Instr.msemCmdLoad, 1, []), (.msemCmdStore, 2, s.rd la n),
        (.msemCmdStoreMasked, 3, leBytes 8 (fieldAt b 0x18 8) ++ s.rd la 64),
        (.msemCmdStoreCount, 4, leBytes 8 (fieldAt b 5 1) ++ s.rd la n),
        (.msemCmdAdd, 0x10, leBytes 8 (fieldAt b 0x18 8)), (.msemCmdMinS, 0x11, leBytes 8 (fieldAt b 0x18 8)),
        (.msemCmdMaxS, 0x12, leBytes 8 (fieldAt b 0x18 8)), (.msemCmdMinU, 0x13, leBytes 8 (fieldAt b 0x18 8)),
        (.msemCmdMaxU, 0x14, leBytes 8 (fieldAt b 0x18 8)),
        (.msemCmdCas, 0x15, leBytes 8 (fieldAt b 0x18 8) ++ leBytes 8 (fieldAt b 0x20 8)),
        (.msemCmdFadd32, 0x16, leBytes 8 (fieldAt b 0x18 8)), (.msemCmdFence, 0xF0, [])]
      ∧ (s.fld Reg.MSEM_RING 4 0 = 0 ∨ (s.msem.tail + 2 ^ 32 - s.fld Reg.MSEM_HEAD 31 0) % 2 ^ 32 = 0))
    ∧ (∃ (s : State) (a la n c job fa : Nat) (b : List Byte) (x : Instr × Nat × List Byte), s.Inv
      ∧ (b = s.rd a 64)
      ∧ (la = fieldAt b 0x10 8 ∧ n = 64 * (fieldAt b 2 1 + 1) ∧ c = bits (fieldAt b 1 1) 1 0 ∧ job = s.ctxJob c
        ∧ fa = (s.translate (fieldAt b 8 8)).1 ∧ a + 64 ≤ memSpace
        ∧ x ∈ [(Instr.msemCmdLoad, 1, []), (.msemCmdStore, 2, s.rd la n),
          (.msemCmdStoreMasked, 3, leBytes 8 (fieldAt b 0x18 8) ++ s.rd la 64),
          (.msemCmdStoreCount, 4, leBytes 8 (fieldAt b 5 1) ++ s.rd la n),
          (.msemCmdAdd, 0x10, leBytes 8 (fieldAt b 0x18 8)), (.msemCmdMinS, 0x11, leBytes 8 (fieldAt b 0x18 8)),
          (.msemCmdMaxS, 0x12, leBytes 8 (fieldAt b 0x18 8)), (.msemCmdMinU, 0x13, leBytes 8 (fieldAt b 0x18 8)),
          (.msemCmdMaxU, 0x14, leBytes 8 (fieldAt b 0x18 8)),
          (.msemCmdCas, 0x15, leBytes 8 (fieldAt b 0x18 8) ++ leBytes 8 (fieldAt b 0x20 8)),
          (.msemCmdFadd32, 0x16, leBytes 8 (fieldAt b 0x18 8)), (.msemCmdFence, 0xF0, [])]
        ∧ 0 < s.fld Reg.MSEM_RING 4 0) ∧ (s.msem.tail + 2 ^ 32 - s.fld Reg.MSEM_HEAD 31 0) % 2 ^ 32 ≠ 0
      ∧ a = s.fld Reg.MSEM_RING 51 12 * 4096 + s.fld Reg.MSEM_HEAD 31 0 % 2 ^ s.fld Reg.MSEM_RING 4 0 * 64
      ∧ s.msem.fences = [] ∧ s.msem.reqs.length < 16384 ∧ s.unreadable .request a 64 = true
      ∧ s.poisoned a 64 = true)
    ∧ (∃ (s : State) (a la n c job fa : Nat) (b : List Byte) (x : Instr × Nat × List Byte), s.Inv
      ∧ (b = s.rd a 64)
      ∧ (la = fieldAt b 0x10 8 ∧ n = 64 * (fieldAt b 2 1 + 1) ∧ c = bits (fieldAt b 1 1) 1 0 ∧ job = s.ctxJob c
        ∧ fa = (s.translate (fieldAt b 8 8)).1 ∧ a + 64 ≤ memSpace
        ∧ x ∈ [(Instr.msemCmdLoad, 1, []), (.msemCmdStore, 2, s.rd la n),
          (.msemCmdStoreMasked, 3, leBytes 8 (fieldAt b 0x18 8) ++ s.rd la 64),
          (.msemCmdStoreCount, 4, leBytes 8 (fieldAt b 5 1) ++ s.rd la n),
          (.msemCmdAdd, 0x10, leBytes 8 (fieldAt b 0x18 8)), (.msemCmdMinS, 0x11, leBytes 8 (fieldAt b 0x18 8)),
          (.msemCmdMaxS, 0x12, leBytes 8 (fieldAt b 0x18 8)), (.msemCmdMinU, 0x13, leBytes 8 (fieldAt b 0x18 8)),
          (.msemCmdMaxU, 0x14, leBytes 8 (fieldAt b 0x18 8)),
          (.msemCmdCas, 0x15, leBytes 8 (fieldAt b 0x18 8) ++ leBytes 8 (fieldAt b 0x20 8)),
          (.msemCmdFadd32, 0x16, leBytes 8 (fieldAt b 0x18 8)), (.msemCmdFence, 0xF0, [])]
        ∧ 0 < s.fld Reg.MSEM_RING 4 0)
      ∧ ((s.msem.tail + 2 ^ 32 - s.fld Reg.MSEM_HEAD 31 0) % 2 ^ 32 ≠ 0
        ∧ a = s.fld Reg.MSEM_RING 51 12 * 4096 + s.fld Reg.MSEM_HEAD 31 0 % 2 ^ s.fld Reg.MSEM_RING 4 0 * 64
        ∧ s.msem.fences = [] ∧ s.msem.reqs.length < 16384 ∧ s.unreadable .request a 64 = false
        ∧ fieldAt b 0 1 = x.2.1 ∧ commandOk b = true ∧ (127 < fieldAt b 3 1 ∨ fieldAt b 3 1 / 32 = c))
      ∧ job ≠ 0 ∧ s.ctxState c = 1 ∧ s.tornAt job (s.fld Reg.MSEM_HEAD 31 0) false = false
      ∧ nodeDomain (faNode fa) = nodeDomain s.node ∧ 2 ≤ x.2.1 ∧ x.2.1 ≤ 4 ∧ s.unreadable .request la n = true
      ∧ s.poisoned la n = true)
    ∧ (∃ (s : State) (a la n c job fa i : Nat) (b : List Byte) (x : Instr × Nat × List Byte), s.Inv
      ∧ (b = s.rd a 64)
      ∧ (la = fieldAt b 0x10 8 ∧ n = 64 * (fieldAt b 2 1 + 1) ∧ c = bits (fieldAt b 1 1) 1 0 ∧ job = s.ctxJob c
        ∧ fa = (s.translate (fieldAt b 8 8)).1 ∧ a + 64 ≤ memSpace
        ∧ x ∈ [(Instr.msemCmdLoad, 1, []), (.msemCmdStore, 2, s.rd la n),
          (.msemCmdStoreMasked, 3, leBytes 8 (fieldAt b 0x18 8) ++ s.rd la 64),
          (.msemCmdStoreCount, 4, leBytes 8 (fieldAt b 5 1) ++ s.rd la n),
          (.msemCmdAdd, 0x10, leBytes 8 (fieldAt b 0x18 8)), (.msemCmdMinS, 0x11, leBytes 8 (fieldAt b 0x18 8)),
          (.msemCmdMaxS, 0x12, leBytes 8 (fieldAt b 0x18 8)), (.msemCmdMinU, 0x13, leBytes 8 (fieldAt b 0x18 8)),
          (.msemCmdMaxU, 0x14, leBytes 8 (fieldAt b 0x18 8)),
          (.msemCmdCas, 0x15, leBytes 8 (fieldAt b 0x18 8) ++ leBytes 8 (fieldAt b 0x20 8)),
          (.msemCmdFadd32, 0x16, leBytes 8 (fieldAt b 0x18 8)), (.msemCmdFence, 0xF0, [])]
        ∧ 0 < s.fld Reg.MSEM_RING 4 0)
      ∧ ((s.msem.tail + 2 ^ 32 - s.fld Reg.MSEM_HEAD 31 0) % 2 ^ 32 ≠ 0
        ∧ a = s.fld Reg.MSEM_RING 51 12 * 4096 + s.fld Reg.MSEM_HEAD 31 0 % 2 ^ s.fld Reg.MSEM_RING 4 0 * 64
        ∧ s.msem.fences = [] ∧ s.msem.reqs.length < 16384 ∧ s.unreadable .request a 64 = false
        ∧ fieldAt b 0 1 = x.2.1 ∧ commandOk b = true ∧ (127 < fieldAt b 3 1 ∨ fieldAt b 3 1 / 32 = c))
      ∧ (job ≠ 0 ∧ s.ctxState c = 1 ∧ x.2.1 ≠ 0xF0 ∧ s.tornAt job (s.fld Reg.MSEM_HEAD 31 0) false = false
        ∧ nodeDomain (faNode fa) = nodeDomain s.node
        ∧ (2 ≤ x.2.1 → x.2.1 ≤ 4 → s.unreadable .request la n = false)
        ∧ s.msem.reqs.length + s.msem.invals.length < 65535 ∧ faNode fa = s.node)
      ∧ (x.2.1 = 1 ∧ s.windowRegion (faOffset fa) n = some i ∧ rgFlag (s.regionAt s.liveRegions i) 4 = false
        ∧ bits (fieldAt b 1 1) 2 2 = 0
        ∧ accessStatus (s.regionAt s.liveRegions i) 1 s.node job (faOffset fa) = 0
        ∧ (∀ w ∈ s.msem.waiting, w.region ≠ i) ∧ s.jobAccepted job = true ∧ s.msem.relays = []) ∧ s.poison = []
      ∧ s.readFailed = [] ∧ la + n ≤ memSpace)
    ∧ (∃ (s : State) (a la n c job fa : Nat) (b : List Byte) (x : Instr × Nat × List Byte), s.Inv
      ∧ (b = s.rd a 64)
      ∧ (la = fieldAt b 0x10 8 ∧ n = 64 * (fieldAt b 2 1 + 1) ∧ c = bits (fieldAt b 1 1) 1 0 ∧ job = s.ctxJob c
        ∧ fa = (s.translate (fieldAt b 8 8)).1 ∧ a + 64 ≤ memSpace
        ∧ x ∈ [(Instr.msemCmdLoad, 1, []), (.msemCmdStore, 2, s.rd la n),
          (.msemCmdStoreMasked, 3, leBytes 8 (fieldAt b 0x18 8) ++ s.rd la 64),
          (.msemCmdStoreCount, 4, leBytes 8 (fieldAt b 5 1) ++ s.rd la n),
          (.msemCmdAdd, 0x10, leBytes 8 (fieldAt b 0x18 8)), (.msemCmdMinS, 0x11, leBytes 8 (fieldAt b 0x18 8)),
          (.msemCmdMaxS, 0x12, leBytes 8 (fieldAt b 0x18 8)), (.msemCmdMinU, 0x13, leBytes 8 (fieldAt b 0x18 8)),
          (.msemCmdMaxU, 0x14, leBytes 8 (fieldAt b 0x18 8)),
          (.msemCmdCas, 0x15, leBytes 8 (fieldAt b 0x18 8) ++ leBytes 8 (fieldAt b 0x20 8)),
          (.msemCmdFadd32, 0x16, leBytes 8 (fieldAt b 0x18 8)), (.msemCmdFence, 0xF0, [])]
        ∧ 0 < s.fld Reg.MSEM_RING 4 0)
      ∧ ((s.msem.tail + 2 ^ 32 - s.fld Reg.MSEM_HEAD 31 0) % 2 ^ 32 ≠ 0
        ∧ a = s.fld Reg.MSEM_RING 51 12 * 4096 + s.fld Reg.MSEM_HEAD 31 0 % 2 ^ s.fld Reg.MSEM_RING 4 0 * 64
        ∧ s.msem.fences = [] ∧ s.msem.reqs.length < 16384 ∧ s.unreadable .request a 64 = false
        ∧ fieldAt b 0 1 = x.2.1 ∧ commandOk b = true ∧ (127 < fieldAt b 3 1 ∨ fieldAt b 3 1 / 32 = c))
      ∧ job ≠ 0 ∧ s.ctxState c = 1 ∧ x.2.1 = 0xF0)
    ∧ (∃ (s : State) (a la n c job fa id : Nat) (b : List Byte) (x : Instr × Nat × List Byte) (f : Fence),
      s.Inv ∧ (b = s.rd a 64)
      ∧ (la = fieldAt b 0x10 8 ∧ n = 64 * (fieldAt b 2 1 + 1) ∧ c = bits (fieldAt b 1 1) 1 0 ∧ job = s.ctxJob c
        ∧ fa = (s.translate (fieldAt b 8 8)).1 ∧ a + 64 ≤ memSpace
        ∧ x ∈ [(Instr.msemCmdLoad, 1, []), (.msemCmdStore, 2, s.rd la n),
          (.msemCmdStoreMasked, 3, leBytes 8 (fieldAt b 0x18 8) ++ s.rd la 64),
          (.msemCmdStoreCount, 4, leBytes 8 (fieldAt b 5 1) ++ s.rd la n),
          (.msemCmdAdd, 0x10, leBytes 8 (fieldAt b 0x18 8)), (.msemCmdMinS, 0x11, leBytes 8 (fieldAt b 0x18 8)),
          (.msemCmdMaxS, 0x12, leBytes 8 (fieldAt b 0x18 8)), (.msemCmdMinU, 0x13, leBytes 8 (fieldAt b 0x18 8)),
          (.msemCmdMaxU, 0x14, leBytes 8 (fieldAt b 0x18 8)),
          (.msemCmdCas, 0x15, leBytes 8 (fieldAt b 0x18 8) ++ leBytes 8 (fieldAt b 0x20 8)),
          (.msemCmdFadd32, 0x16, leBytes 8 (fieldAt b 0x18 8)), (.msemCmdFence, 0xF0, [])]
        ∧ s.msem.fences = [f]) ∧ f.id = id
      ∧ ((∃ y ∈ f.seqs, ∃ o ∈ s.e2e.outst, o.dest = y.1 ∧ o.cls = 1 ∧ o.seq = y.2 ∧ o.skipped = false)
        ∨ ∃ g ∈ f.tags, (∃ r ∈ s.msem.reqs, r.tag = g)
        ∨ (∃ o ∈ s.e2e.outst, o.cls = 1 ∧ o.skipped = false ∧ argTag o.pkt.arg = g) ∨ ∃ q ∈ s.route.queue,
        q.pkt.cls = 1 ∧ q.pkt.src = s.node ∧ argTag q.pkt.arg = g)) :=
  ⟨⟨st39_0, 0#64, 0x100080, 0x5000, 64, 0, 9, 0x300000001040, 0, listby39_1, (.msemCmdLoad, 1, []),
     inv_of (by decide +kernel), (rfl), (by decide +kernel), (by decide +kernel), (by decide +kernel),
     by unfold State.Accepts; decide +kernel⟩,
   ⟨st39_2, 0x100080, 0x5000, 128, 0, 9, 0x1040, 4, listby39_3, (.msemCmdLoad, 1, []),
     ⟨4, [3], [(24, 5)], 0xFF, 0x100028⟩, inv_of (by decide +kernel), (rfl), (by decide +kernel),
     by decide +kernel⟩,
   ⟨st39_4, 0x100080, 0x5000, 64, 0, 9, 0x100000000000000, listby39_5, (.msemCmdLoad, 1, []), 19,
     inv_of (by decide +kernel), (rfl), (by decide +kernel), (by decide +kernel), by decide +kernel⟩,
   ⟨st39_6, 0x100080, 0x5000, 64, 0, 9, 0x300000001040, listby39_7, (.msemCmdLoad, 1, []),
     inv_of (by decide +kernel), (rfl), (by decide +kernel), (by decide +kernel), by decide +kernel⟩,
   ⟨st39_8, 0x100080, 0x5000, 64, 0, 9, 0x300000001040, listby39_9, (.msemCmdLoad, 1, []),
     inv_of (by decide +kernel), (rfl), (by decide +kernel), by decide +kernel⟩,
   ⟨st39_10, 0x100080, 0x5000, 64, 0, 9, 0x300000001040, listby39_11, (.msemCmdLoad, 1, []),
     inv_of (by decide +kernel), (rfl), (by decide +kernel), by decide +kernel⟩,
   ⟨st39_12, 0x100080, 0x5000, 64, 0, 9, 0x300000001040, listby39_13, (.msemCmdLoad, 1, []),
     inv_of (by decide +kernel), (rfl), by decide +kernel⟩,
   ⟨st39_14, 0x100080, 0x5000, 64, 0, 9, 0x300000001040, listby39_15, (.msemCmdLoad, 1, []),
     inv_of (by decide +kernel), (rfl), (by decide +kernel), by decide +kernel⟩,
   ⟨st39_16, 0x100080, 0x5000, 64, 0, 9, 0x300000001040, listby39_17, instrx39_18, inv_of (by decide +kernel),
     (rfl), (by decide +kernel), (by decide +kernel), by decide +kernel⟩,
   ⟨st39_19, 0x100080, 0x5000, 128, 0, 9, 0x1040, 0, listby39_20, (.msemCmdLoad, 1, []),
     inv_of (by decide +kernel), (rfl), (by decide +kernel), (by decide +kernel), (by decide +kernel),
     (by decide +kernel), by decide +kernel⟩,
   ⟨st39_21, 0x100080, 0, 64, 0, 9, 0x300000001040, listby39_22, (.msemCmdFence, 0xF0, []),
     inv_of (by decide +kernel), (rfl), (by decide +kernel), (by decide +kernel), by decide +kernel⟩,
   ⟨st39_23, 0x100080, 0x5000, 128, 0, 9, 0x1040, 4, listby39_24, (.msemCmdLoad, 1, []),
     ⟨4, [3], [(24, 5)], 0xFF, 0x100028⟩, inv_of (by decide +kernel), (rfl), (by decide +kernel),
     by decide +kernel⟩⟩

end G16

namespace G17

def rg (off host pages job fl ow fw : Nat) : List Byte := leBytes 8 off ++ leBytes 8 host ++ leBytes 4 pages ++
leBytes 2 job ++ leBytes 1 fl ++ leBytes 1 0 ++ leBytes 4 ow ++ leBytes 4 fw

def mS (l : List (Nat × Nat)) (fl : Nat := 15) (f : MsemSt → MsemSt := id) (hold : List Byte := [])
(ow : Nat := 24) (rj : Nat := 9) : State :=
  let s := bnd ([(Reg.MSEM_REGIONS_LIVE, 0x200001), (Reg.ROUTE_JOBS0, 9), (Reg.MSEM_ROB, 4),
      (Reg.MSEM_HOLD, 0x400000)] ++ l)
  { s with
    mem := tSetRun byteZero 0x200000 (rg 0x1000 0x300000 2 rj fl ow 0) (tSetRun byteZero 0x400000 hold (tSetRun byteZero 0x300040 (leBytes 8 0xFFFFFFFFFFFFFFF0 ++
          leBytes 4 0x3F800000) [])), msem := f s.msem,
    ctx := { s.ctx with ctxs := [(0, { st := 1, job := 9 })] } }

def ap (off lines : Nat) (fl : Bool) (pl : List Byte) (job : Nat := 9)
(seq : Nat := 0) : Arrived := ⟨24, job, seq, 1, reqArg off 77 lines fl, pl⟩

def rq0 : Req := { tag := 3, dest := 16, job := 9, type := 1, lines := 1, for_ := .cmd 0 }

def pk40_0 : Arrived :=
  ap 0x1040 2 false (leBytes 8 5 ++ leBytes 8 3 ++ List.replicate 120 6#8)

def st40_1 : State :=
  { mS [] with poison := [0x300040 / 64] }

def pk40_2 : Arrived :=
  ap 0x1040 1 false (leBytes 8 5 ++ leBytes 8 3 ++ List.replicate 120 6#8)

def listby40_3 : List Byte :=
  st40_1.regionAt st40_1.liveRegions 0

def pk40_4 : Arrived :=
  ap 0x1040 1 false (leBytes 8 40 ++ List.replicate 64 6#8)

def listby40_5 : List Byte :=
  (mS [] 15 id (leBytes 4 (2 ^ 31 + 99))).regionAt (mS [] 15 id (leBytes 4 (2 ^ 31 + 99))).liveRegions 0

def listby40_6 : List Byte :=
  (mS [] 7).regionAt (mS [] 7).liveRegions 0

def pk40_7 : Arrived :=
  ap 0x1040 1 false (leBytes 8 5 ++ List.replicate 64 6#8) 8

def st40_8 : State :=
  let s := mS []; { s with bell := { s.bell with once := [Pg.MSEM * 256 + 0xA3] } }

def listby40_9 : List Byte :=
  st40_8.regionAt st40_8.liveRegions 0

def st40_10 : State :=
  mS [(Reg.LINK_STAT 3, 2), (Reg.LINK_CTL 3, 4), (Reg.LINK_FAR 3, 5)]

def pk40_11 : Arrived :=
  ap 0x1040 1 false (leBytes 8 5 ++ List.replicate 64 6#8)

def listby40_12 : List Byte :=
  st40_10.regionAt st40_10.liveRegions 0

def st40_13 : State :=
  mS [] 15 (fun m => { m with nextSeq := [(24, 4)] })

def listby40_14 : List Byte :=
  st40_13.regionAt st40_13.liveRegions 0

def listby40_15 : List Byte :=
  (mS [(Reg.MSEM_ROB, 0)]).regionAt (mS [(Reg.MSEM_ROB, 0)]).liveRegions 0

def st40_16 : State :=
  mS [(Reg.LINK_STAT 3, 2), (Reg.LINK_CTL 3, 4), (Reg.LINK_FAR 3, 5)] 15 (fun m => { m with
      reqs := List.replicate 16384 rq0 })

def listby40_17 : List Byte :=
  st40_16.regionAt st40_16.liveRegions 0

/-- States and operands that meet the hypotheses of each clause of `Obligations.DestinationAppliesRequests`. -/
theorem witness_DestinationAppliesRequests :
    (∃ (s : State) (p : Arrived) (i a off n tag : Nat) (bt : List Byte) (v v4 o1 o2 : W64) (k : _)
      (x : Instr × Nat × Nat × Nat × List Byte × List Byte), s.Inv
      ∧ (off = argOff p.arg ∧ tag = argTag p.arg ∧ n = 64 * argLines p.arg ∧ bt = s.regionAt s.liveRegions i
        ∧ a = rgHost bt + (off - rgOffset bt) ∧ a + 64 * 64 ≤ memSpace ∧ p.src < 2 ^ 23 ∧ p.job < 2 ^ 16)
      ∧ (v = BitVec.ofNat 64 (s.rdNat a 8) ∧ v4 = BitVec.ofNat 64 (s.rdNat a 4)
        ∧ o1 = BitVec.ofNat 64 (fieldAt p.payload 0 8) ∧ o2 = BitVec.ofNat 64 (fieldAt p.payload 8 8)
        ∧ s.InTurn p ∧ s.jobAccepted p.job = true ∧ (∀ w ∈ s.msem.waiting, w.region ≠ i)
        ∧ s.Allowed i off n 1 64 p.src p.job) ∧ (s.holders i = [] ∧ 8 + n ≤ p.payload.length)
      ∧ (k = bits (fieldAt p.payload 0 8) 6 0) ∧ s.ctxJob (k / 32) = p.job
      ∧ x ∈ [(Instr.reqStore p, n, 1, 64, p.payload.take n, []),
        (.reqStoreMasked p, n, 1, 64,
          (List.range 64).map (fun j => if bits (fieldAt p.payload 0 8) j j = 1 then p.payload.getD (8 + j) 0#8 else s.rdByte (a + j)),
          []), (.reqAdd p, 8, 2, 8, leBytes 8 (v + o1).toNat, leBytes 8 v.toNat),
        (.reqMinS p, 8, 2, 8, leBytes 8 (if v.slt o1 then v else o1).toNat, leBytes 8 v.toNat),
        (.reqMaxS p, 8, 2, 8, leBytes 8 (if v.slt o1 then o1 else v).toNat, leBytes 8 v.toNat),
        (.reqMinU p, 8, 2, 8, leBytes 8 (if v < o1 then v else o1).toNat, leBytes 8 v.toNat),
        (.reqMaxU p, 8, 2, 8, leBytes 8 (if v < o1 then o1 else v).toNat, leBytes 8 v.toNat),
        (.reqCas p, 8, 2, 8, leBytes 8 (if v = o1 then o2 else v).toNat, leBytes 8 v.toNat),
        (.reqFadd32 p, 4, 2, 4, leBytes 4 (fAdd (v4.setWidth 32) (o1.setWidth 32)).toNat, leBytes 8 v4.toNat)]
      ∧ s.Allowed i off x.2.1 x.2.2.1 x.2.2.2.1 p.src p.job
      ∧ (x.2.2.1 = 2 → s.unreadable .request a x.2.1 = false) ∧ x.2.2.2.2.1.length = x.2.1
      ∧ s.Allowed i off n 0 64 p.src p.job ∧ s.unreadable .request a n = false ∧ argFlag p.arg = false)
    ∧ (∃ (s : State) (p : Arrived) (i a off n tag : Nat) (bt : List Byte) (v v4 o1 o2 : W64)
      (x : Instr × Nat × Nat × Nat × List Byte × List Byte), s.Inv
      ∧ (off = argOff p.arg ∧ tag = argTag p.arg ∧ n = 64 * argLines p.arg) ∧ (bt = s.regionAt s.liveRegions i)
      ∧ (a = rgHost bt + (off - rgOffset bt) ∧ a + 64 * 64 ≤ memSpace ∧ p.src < 2 ^ 23 ∧ p.job < 2 ^ 16
        ∧ v = BitVec.ofNat 64 (s.rdNat a 8) ∧ v4 = BitVec.ofNat 64 (s.rdNat a 4)
        ∧ o1 = BitVec.ofNat 64 (fieldAt p.payload 0 8) ∧ o2 = BitVec.ofNat 64 (fieldAt p.payload 8 8))
      ∧ (s.InTurn p ∧ s.jobAccepted p.job = true ∧ (∀ w ∈ s.msem.waiting, w.region ≠ i)
        ∧ x ∈ [(Instr.reqStore p, n, 1, 64, p.payload.take n, []),
          (.reqStoreMasked p, n, 1, 64,
            (List.range 64).map (fun j => if bits (fieldAt p.payload 0 8) j j = 1 then p.payload.getD (8 + j) 0#8 else s.rdByte (a + j)),
            []), (.reqAdd p, 8, 2, 8, leBytes 8 (v + o1).toNat, leBytes 8 v.toNat),
          (.reqMinS p, 8, 2, 8, leBytes 8 (if v.slt o1 then v else o1).toNat, leBytes 8 v.toNat),
          (.reqMaxS p, 8, 2, 8, leBytes 8 (if v.slt o1 then o1 else v).toNat, leBytes 8 v.toNat),
          (.reqMinU p, 8, 2, 8, leBytes 8 (if v < o1 then v else o1).toNat, leBytes 8 v.toNat),
          (.reqMaxU p, 8, 2, 8, leBytes 8 (if v < o1 then o1 else v).toNat, leBytes 8 v.toNat),
          (.reqCas p, 8, 2, 8, leBytes 8 (if v = o1 then o2 else v).toNat, leBytes 8 v.toNat),
          (.reqFadd32 p, 4, 2, 4, leBytes 4 (fAdd (v4.setWidth 32) (o1.setWidth 32)).toNat,
            leBytes 8 v4.toNat)] ∧ s.Allowed i off x.2.1 x.2.2.1 x.2.2.2.1 p.src p.job ∧ x.2.2.1 = 2
        ∧ s.holders i = [] ∧ s.unreadable .request a x.2.1 = true) ∧ s.Allowed i off n 0 64 p.src p.job
      ∧ s.unreadable .request a n = true)
    ∧ (∃ (s : State) (p : Arrived) (i a off n tag far : Nat) (bt : List Byte) (v v4 o1 o2 : W64) (k : _)
      (x : Instr × Nat), s.Inv
      ∧ (off = argOff p.arg ∧ tag = argTag p.arg ∧ n = 64 * argLines p.arg ∧ bt = s.regionAt s.liveRegions i
        ∧ a = rgHost bt + (off - rgOffset bt) ∧ a + 64 * 64 ≤ memSpace ∧ p.src < 2 ^ 23 ∧ p.job < 2 ^ 16)
      ∧ (v = BitVec.ofNat 64 (s.rdNat a 8) ∧ v4 = BitVec.ofNat 64 (s.rdNat a 4)
        ∧ o1 = BitVec.ofNat 64 (fieldAt p.payload 0 8) ∧ o2 = BitVec.ofNat 64 (fieldAt p.payload 8 8)
        ∧ s.InTurn p ∧ s.jobAccepted p.job = true ∧ (∀ w ∈ s.msem.waiting, w.region ≠ i)
        ∧ s.Allowed i off n 1 64 p.src p.job) ∧ (s.holders i = [] ∧ 8 + n ≤ p.payload.length)
      ∧ (k = bits (fieldAt p.payload 0 8) 6 0) ∧ s.ctxJob (k / 32) ≠ p.job
      ∧ far = bits (fieldAt p.payload 0 8) 22 0 ∧ x ∈ [(Instr.reqLoadGw p, 1), (.reqStoreGw p, 2)]
      ∧ (∀ port < 18, ¬(s.role port = 2 ∧ s.portState port = 2 ∧ s.fld (Reg.LINK_FAR port) 22 0 = far)))
    ∧ (∃ (s : State) (p : Arrived) (i a off n tag : Nat) (bt : List Byte) (v v4 o1 o2 : W64)
      (x : Instr × Nat × Nat × Nat × List Byte × List Byte) (h : Nat × Nat), s.Inv
      ∧ (off = argOff p.arg ∧ tag = argTag p.arg ∧ n = 64 * argLines p.arg) ∧ (bt = s.regionAt s.liveRegions i)
      ∧ (a = rgHost bt + (off - rgOffset bt) ∧ a + 64 * 64 ≤ memSpace ∧ p.src < 2 ^ 23 ∧ p.job < 2 ^ 16
        ∧ v = BitVec.ofNat 64 (s.rdNat a 8) ∧ v4 = BitVec.ofNat 64 (s.rdNat a 4)
        ∧ o1 = BitVec.ofNat 64 (fieldAt p.payload 0 8) ∧ o2 = BitVec.ofNat 64 (fieldAt p.payload 8 8))
      ∧ s.InTurn p ∧ s.jobAccepted p.job = true ∧ (∀ w ∈ s.msem.waiting, w.region ≠ i)
      ∧ x ∈ [(Instr.reqStore p, n, 1, 64, p.payload.take n, []),
        (.reqStoreMasked p, n, 1, 64,
          (List.range 64).map (fun j => if bits (fieldAt p.payload 0 8) j j = 1 then p.payload.getD (8 + j) 0#8 else s.rdByte (a + j)),
          []), (.reqAdd p, 8, 2, 8, leBytes 8 (v + o1).toNat, leBytes 8 v.toNat),
        (.reqMinS p, 8, 2, 8, leBytes 8 (if v.slt o1 then v else o1).toNat, leBytes 8 v.toNat),
        (.reqMaxS p, 8, 2, 8, leBytes 8 (if v.slt o1 then o1 else v).toNat, leBytes 8 v.toNat),
        (.reqMinU p, 8, 2, 8, leBytes 8 (if v < o1 then v else o1).toNat, leBytes 8 v.toNat),
        (.reqMaxU p, 8, 2, 8, leBytes 8 (if v < o1 then o1 else v).toNat, leBytes 8 v.toNat),
        (.reqCas p, 8, 2, 8, leBytes 8 (if v = o1 then o2 else v).toNat, leBytes 8 v.toNat),
        (.reqFadd32 p, 4, 2, 4, leBytes 4 (fAdd (v4.setWidth 32) (o1.setWidth 32)).toNat, leBytes 8 v4.toNat)]
      ∧ s.Allowed i off x.2.1 x.2.2.1 x.2.2.2.1 p.src p.job ∧ s.holders i = [h])
    ∧ (∃ (s : State) (p : Arrived) (i a off n tag : Nat) (bt : List Byte) (v v4 o1 o2 : W64) (h : _), s.Inv
      ∧ (off = argOff p.arg ∧ tag = argTag p.arg ∧ n = 64 * argLines p.arg ∧ bt = s.regionAt s.liveRegions i
        ∧ a = rgHost bt + (off - rgOffset bt) ∧ a + 64 * 64 ≤ memSpace ∧ p.src < 2 ^ 23 ∧ p.job < 2 ^ 16)
      ∧ (v = BitVec.ofNat 64 (s.rdNat a 8) ∧ v4 = BitVec.ofNat 64 (s.rdNat a 4)
        ∧ o1 = BitVec.ofNat 64 (fieldAt p.payload 0 8) ∧ o2 = BitVec.ofNat 64 (fieldAt p.payload 8 8)
        ∧ s.InTurn p ∧ s.jobAccepted p.job = true ∧ (∀ w ∈ s.msem.waiting, w.region ≠ i)
        ∧ s.Allowed i off n 0 64 p.src p.job) ∧ s.unreadable .request a n = false ∧ argFlag p.arg = true
      ∧ rgFlag bt 3 = true ∧ s.holdAddr i = some h ∧ h + 256 ≤ memSpace ∧ s.holders i = [])
    ∧ (∃ (s : State) (p : Arrived) (i a off n tag : Nat) (bt : List Byte) (v v4 o1 o2 : W64), s.Inv
      ∧ (off = argOff p.arg ∧ tag = argTag p.arg ∧ n = 64 * argLines p.arg) ∧ (bt = s.regionAt s.liveRegions i)
      ∧ (a = rgHost bt + (off - rgOffset bt) ∧ a + 64 * 64 ≤ memSpace ∧ p.src < 2 ^ 23 ∧ p.job < 2 ^ 16
        ∧ v = BitVec.ofNat 64 (s.rdNat a 8) ∧ v4 = BitVec.ofNat 64 (s.rdNat a 4)
        ∧ o1 = BitVec.ofNat 64 (fieldAt p.payload 0 8) ∧ o2 = BitVec.ofNat 64 (fieldAt p.payload 8 8))
      ∧ s.InTurn p ∧ s.jobAccepted p.job = true ∧ (∀ w ∈ s.msem.waiting, w.region ≠ i)
      ∧ s.Allowed i off n 0 64 p.src p.job ∧ s.unreadable .request a n = false ∧ argFlag p.arg = true
      ∧ rgFlag bt 3 = false)
    ∧ (∃ (s : State) (p : Arrived) (i a off n tag st : Nat) (bt : List Byte) (v v4 o1 o2 : W64)
      (x : Instr × Nat × Nat × Nat), s.Inv
      ∧ (off = argOff p.arg ∧ tag = argTag p.arg ∧ n = 64 * argLines p.arg ∧ bt = s.regionAt s.liveRegions i
        ∧ a = rgHost bt + (off - rgOffset bt) ∧ a + 64 * 64 ≤ memSpace ∧ p.src < 2 ^ 23 ∧ p.job < 2 ^ 16)
      ∧ v = BitVec.ofNat 64 (s.rdNat a 8) ∧ v4 = BitVec.ofNat 64 (s.rdNat a 4)
      ∧ o1 = BitVec.ofNat 64 (fieldAt p.payload 0 8) ∧ o2 = BitVec.ofNat 64 (fieldAt p.payload 8 8)
      ∧ s.InTurn p
      ∧ x ∈ [(Instr.reqLoad p, n, 0, 64), (.reqStore p, n, 1, 64), (.reqStoreMasked p, n, 1, 64),
        (.reqStoreCount p, n, 1, 64), (.reqAdd p, 8, 2, 8), (.reqMinS p, 8, 2, 8), (.reqMaxS p, 8, 2, 8),
        (.reqMinU p, 8, 2, 8), (.reqMaxU p, 8, 2, 8), (.reqCas p, 8, 2, 8), (.reqFadd32 p, 4, 2, 4)]
      ∧ (st = 1 ∧ s.jobAccepted p.job = false ∨ s.jobAccepted p.job = true
        ∧ (st = 2 ∧ s.windowRegion off x.2.1 = none ∨ s.windowRegion off x.2.1 = some i ∧ rgFlag bt 4 = false
          ∧ (st = 3 ∧ (rgJob bt ≠ p.job ∨ rgFlag bt x.2.2.1 = false) ∨ rgJob bt = p.job
            ∧ rgFlag bt x.2.2.1 = true
            ∧ (st = 4 ∧ x.2.2.1 ≠ 0 ∧ rgAny bt = false ∧ rgOwner bt ≠ p.src ∨ st = 5
              ∧ (x.2.2.1 = 0 ∨ rgAny bt = true ∨ rgOwner bt = p.src) ∧ off % x.2.2.2 ≠ 0))))
      ∧ Pg.MSEM * 256 + 0xA3 ∉ s.bell.once)
    ∧ (∃ (s : State) (p : Arrived) (i a off n tag st : Nat) (bt : List Byte) (v v4 o1 o2 : W64)
      (x : Instr × Nat × Nat × Nat), s.Inv
      ∧ (off = argOff p.arg ∧ tag = argTag p.arg ∧ n = 64 * argLines p.arg) ∧ (bt = s.regionAt s.liveRegions i)
      ∧ (a = rgHost bt + (off - rgOffset bt) ∧ a + 64 * 64 ≤ memSpace ∧ p.src < 2 ^ 23 ∧ p.job < 2 ^ 16
        ∧ v = BitVec.ofNat 64 (s.rdNat a 8) ∧ v4 = BitVec.ofNat 64 (s.rdNat a 4)
        ∧ o1 = BitVec.ofNat 64 (fieldAt p.payload 0 8) ∧ o2 = BitVec.ofNat 64 (fieldAt p.payload 8 8))
      ∧ s.InTurn p
      ∧ x ∈ [(Instr.reqLoad p, n, 0, 64), (.reqStore p, n, 1, 64), (.reqStoreMasked p, n, 1, 64),
        (.reqStoreCount p, n, 1, 64), (.reqAdd p, 8, 2, 8), (.reqMinS p, 8, 2, 8), (.reqMaxS p, 8, 2, 8),
        (.reqMinU p, 8, 2, 8), (.reqMaxU p, 8, 2, 8), (.reqCas p, 8, 2, 8), (.reqFadd32 p, 4, 2, 4)]
      ∧ (st = 1 ∧ s.jobAccepted p.job = false ∨ s.jobAccepted p.job = true
        ∧ (st = 2 ∧ s.windowRegion off x.2.1 = none ∨ s.windowRegion off x.2.1 = some i ∧ rgFlag bt 4 = false
          ∧ (st = 3 ∧ (rgJob bt ≠ p.job ∨ rgFlag bt x.2.2.1 = false) ∨ rgJob bt = p.job
            ∧ rgFlag bt x.2.2.1 = true
            ∧ (st = 4 ∧ x.2.2.1 ≠ 0 ∧ rgAny bt = false ∧ rgOwner bt ≠ p.src ∨ st = 5
              ∧ (x.2.2.1 = 0 ∨ rgAny bt = true ∨ rgOwner bt = p.src) ∧ off % x.2.2.2 ≠ 0))))
      ∧ Pg.MSEM * 256 + 0xA3 ∈ s.bell.once)
    ∧ (∃ (s : State) (p : Arrived) (i a off n tag far : Nat) (bt : List Byte) (v v4 o1 o2 : W64)
      (x : Instr × Nat), s.Inv ∧ (off = argOff p.arg ∧ tag = argTag p.arg ∧ n = 64 * argLines p.arg)
      ∧ (bt = s.regionAt s.liveRegions i)
      ∧ (a = rgHost bt + (off - rgOffset bt) ∧ a + 64 * 64 ≤ memSpace ∧ p.src < 2 ^ 23 ∧ p.job < 2 ^ 16
        ∧ v = BitVec.ofNat 64 (s.rdNat a 8) ∧ v4 = BitVec.ofNat 64 (s.rdNat a 4)
        ∧ o1 = BitVec.ofNat 64 (fieldAt p.payload 0 8) ∧ o2 = BitVec.ofNat 64 (fieldAt p.payload 8 8))
      ∧ s.InTurn p ∧ s.jobAccepted p.job = true ∧ far = bits (fieldAt p.payload 0 8) 22 0
      ∧ x ∈ [(Instr.reqLoadGw p, 1), (.reqStoreGw p, 2)]
      ∧ (∃ port < 18, s.role port = 2 ∧ s.portState port = 2 ∧ s.fld (Reg.LINK_FAR port) 22 0 = far)
      ∧ s.msem.reqs.length < 16384 ∧ s.msem.reqs.length + s.msem.invals.length < 65535)
    ∧ (∃ (s : State) (p : Arrived) (i a off n tag q : Nat) (bt : List Byte) (v v4 o1 o2 : W64) (x : Instr × Nat),
      s.Inv
      ∧ (off = argOff p.arg ∧ tag = argTag p.arg ∧ n = 64 * argLines p.arg ∧ bt = s.regionAt s.liveRegions i
        ∧ a = rgHost bt + (off - rgOffset bt) ∧ a + 64 * 64 ≤ memSpace ∧ p.src < 2 ^ 23 ∧ p.job < 2 ^ 16)
      ∧ (v = BitVec.ofNat 64 (s.rdNat a 8) ∧ v4 = BitVec.ofNat 64 (s.rdNat a 4)
        ∧ o1 = BitVec.ofNat 64 (fieldAt p.payload 0 8) ∧ o2 = BitVec.ofNat 64 (fieldAt p.payload 8 8)
        ∧ q = tGet zeroNat p.src s.msem.nextSeq ∧ p.seq < 65536 ∧ q < 65536 ∧ p.seq ≠ q)
      ∧ x ∈ [(Instr.reqLoad p, 1), (.reqStore p, 2), (.reqStoreMasked p, 3), (.reqStoreCount p, 4),
        (.reqAdd p, 0x10), (.reqMinS p, 0x11), (.reqMaxS p, 0x12), (.reqMinU p, 0x13), (.reqMaxU p, 0x14),
        (.reqCas p, 0x15), (.reqFadd32 p, 0x16), (.reqStub p, 0x20), (.reqLoadGw p, 0x41),
        (.reqStoreGw p, 0x42)] ∧ (p.seq + 65536 - q) % 65536 < 32768
      ∧ s.msem.parked.length < s.fld Reg.MSEM_ROB 15 0)
    ∧ (∃ (s : State) (p : Arrived) (i a off n tag q : Nat) (bt : List Byte) (v v4 o1 o2 : W64) (x : Instr × Nat),
      s.Inv ∧ (off = argOff p.arg ∧ tag = argTag p.arg ∧ n = 64 * argLines p.arg)
      ∧ (bt = s.regionAt s.liveRegions i)
      ∧ (a = rgHost bt + (off - rgOffset bt) ∧ a + 64 * 64 ≤ memSpace ∧ p.src < 2 ^ 23 ∧ p.job < 2 ^ 16
        ∧ v = BitVec.ofNat 64 (s.rdNat a 8) ∧ v4 = BitVec.ofNat 64 (s.rdNat a 4)
        ∧ o1 = BitVec.ofNat 64 (fieldAt p.payload 0 8) ∧ o2 = BitVec.ofNat 64 (fieldAt p.payload 8 8))
      ∧ q = tGet zeroNat p.src s.msem.nextSeq ∧ p.seq < 65536 ∧ q < 65536 ∧ p.seq ≠ q
      ∧ x ∈ [(Instr.reqLoad p, 1), (.reqStore p, 2), (.reqStoreMasked p, 3), (.reqStoreCount p, 4),
        (.reqAdd p, 0x10), (.reqMinS p, 0x11), (.reqMaxS p, 0x12), (.reqMinU p, 0x13), (.reqMaxU p, 0x14),
        (.reqCas p, 0x15), (.reqFadd32 p, 0x16), (.reqStub p, 0x20), (.reqLoadGw p, 0x41),
        (.reqStoreGw p, 0x42)] ∧ 32768 ≤ (p.seq + 65536 - q) % 65536)
    ∧ (∃ (s : State) (p : Arrived) (i a off n tag q : Nat) (bt : List Byte) (v v4 o1 o2 : W64) (x : Instr × Nat),
      s.Inv ∧ (off = argOff p.arg ∧ tag = argTag p.arg ∧ n = 64 * argLines p.arg)
      ∧ (bt = s.regionAt s.liveRegions i)
      ∧ (a = rgHost bt + (off - rgOffset bt) ∧ a + 64 * 64 ≤ memSpace ∧ p.src < 2 ^ 23 ∧ p.job < 2 ^ 16
        ∧ v = BitVec.ofNat 64 (s.rdNat a 8) ∧ v4 = BitVec.ofNat 64 (s.rdNat a 4)
        ∧ o1 = BitVec.ofNat 64 (fieldAt p.payload 0 8) ∧ o2 = BitVec.ofNat 64 (fieldAt p.payload 8 8))
      ∧ q = tGet zeroNat p.src s.msem.nextSeq ∧ p.seq < 65536 ∧ q < 65536 ∧ p.seq ≠ q
      ∧ x ∈ [(Instr.reqLoad p, 1), (.reqStore p, 2), (.reqStoreMasked p, 3), (.reqStoreCount p, 4),
        (.reqAdd p, 0x10), (.reqMinS p, 0x11), (.reqMaxS p, 0x12), (.reqMinU p, 0x13), (.reqMaxU p, 0x14),
        (.reqCas p, 0x15), (.reqFadd32 p, 0x16), (.reqStub p, 0x20), (.reqLoadGw p, 0x41),
        (.reqStoreGw p, 0x42)] ∧ (p.seq + 65536 - q) % 65536 < 32768
      ∧ s.fld Reg.MSEM_ROB 15 0 ≤ s.msem.parked.length)
    ∧ (∃ (s : State) (p : Arrived) (i a off n tag far : Nat) (bt : List Byte) (v v4 o1 o2 : W64)
      (x : Instr × Nat), s.Inv ∧ (off = argOff p.arg ∧ tag = argTag p.arg ∧ n = 64 * argLines p.arg)
      ∧ (bt = s.regionAt s.liveRegions i)
      ∧ (a = rgHost bt + (off - rgOffset bt) ∧ a + 64 * 64 ≤ memSpace ∧ p.src < 2 ^ 23 ∧ p.job < 2 ^ 16
        ∧ v = BitVec.ofNat 64 (s.rdNat a 8) ∧ v4 = BitVec.ofNat 64 (s.rdNat a 4)
        ∧ o1 = BitVec.ofNat 64 (fieldAt p.payload 0 8) ∧ o2 = BitVec.ofNat 64 (fieldAt p.payload 8 8))
      ∧ s.InTurn p ∧ s.jobAccepted p.job = true ∧ far = bits (fieldAt p.payload 0 8) 22 0
      ∧ x ∈ [(Instr.reqLoadGw p, 1), (.reqStoreGw p, 2)]
      ∧ (∃ port < 18, s.role port = 2 ∧ s.portState port = 2 ∧ s.fld (Reg.LINK_FAR port) 22 0 = far)
      ∧ 16384 ≤ s.msem.reqs.length) :=
  ⟨⟨mS [], pk40_0, 0, 0x300040, 4160, 128, 77, (mS []).regionAt (mS []).liveRegions 0, 0xfffffffffffffff0#64,
     0xfffffff0#64, 5#64, 3#64, bits (fieldAt (pk40_0).payload 0 8) 6 0,
     (Instr.reqStore pk40_0, (128), 1, 64, pk40_0.payload.take (128), []), inv_of (by decide +kernel),
     (by decide +kernel), (by unfold State.InTurn State.Allowed; decide +kernel), (by decide +kernel), (rfl),
     by unfold State.Allowed; decide +kernel⟩,
   ⟨st40_1, pk40_2, 0, 0x300040, 4160, 64, 77, listby40_3, 0xfffffffffffffff0#64, 0xfffffff0#64, 5#64, 3#64,
     (Instr.reqAdd pk40_2, 8, 2, 8, leBytes 8 ((0xfffffffffffffff0#64) + (5#64)).toNat,
       leBytes 8 (0xfffffffffffffff0#64).toNat), inv_of (by decide +kernel), (by decide +kernel), (rfl),
     (by decide +kernel), (by unfold State.InTurn State.Allowed; decide +kernel),
     by unfold State.Allowed; decide +kernel⟩,
   ⟨mS [], pk40_4, 0, 0x300040, 4160, 64, 77, 40, (mS []).regionAt (mS []).liveRegions 0, 0xfffffffffffffff0#64,
     0xfffffff0#64, 40#64, 0x606060606060606#64, bits (fieldAt (pk40_4).payload 0 8) 6 0,
     (Instr.reqLoadGw pk40_4, 1), inv_of (by decide +kernel), (by decide +kernel),
     (by unfold State.InTurn State.Allowed; decide +kernel), (by decide +kernel), (rfl), by decide +kernel⟩,
   ⟨mS [] 15 id (leBytes 4 (2 ^ 31 + 99)), pk40_2, 0, 0x300040, 4160, 64, 77, listby40_5, 0xfffffffffffffff0#64,
     0xfffffff0#64, 5#64, 3#64, (Instr.reqStore pk40_2, (64), 1, 64, pk40_2.payload.take (64), []), (0, 99),
     inv_of (by decide +kernel), (by decide +kernel), (rfl), (by decide +kernel),
     by unfold State.InTurn State.Allowed; decide +kernel⟩,
   ⟨mS [], ap 0x1040 1 true [], 0, 0x300040, 4160, 64, 77, (mS []).regionAt (mS []).liveRegions 0,
     0xfffffffffffffff0#64, 0xfffffff0#64, 0#64, 0#64, 4194304, inv_of (by decide +kernel), (by decide +kernel),
     (by unfold State.InTurn State.Allowed; decide +kernel), by decide +kernel⟩,
   ⟨mS [] 7, ap 0x1040 1 true [], 0, 0x300040, 4160, 64, 77, listby40_6, 0xfffffffffffffff0#64, 0xfffffff0#64,
     0#64, 0#64, inv_of (by decide +kernel), (by decide +kernel), (rfl), (by decide +kernel),
     by unfold State.InTurn State.Allowed; decide +kernel⟩,
   ⟨mS [], pk40_7, 0, 0x300040, 4160, 64, 77, 1, (mS []).regionAt (mS []).liveRegions 0, 0xfffffffffffffff0#64,
     0xfffffff0#64, 5#64, 0x606060606060606#64, (Instr.reqLoad pk40_7, (64), 0, 64), inv_of (by decide +kernel),
     (by decide +kernel), by unfold State.InTurn; decide +kernel⟩,
   ⟨st40_8, pk40_7, 0, 0x300040, 4160, 64, 77, 1, listby40_9, 0xfffffffffffffff0#64, 0xfffffff0#64, 5#64,
     0x606060606060606#64, (Instr.reqLoad pk40_7, (64), 0, 64), inv_of (by decide +kernel), (by decide +kernel),
     (rfl), (by decide +kernel), by unfold State.InTurn; decide +kernel⟩,
   ⟨st40_10, pk40_11, 0, 0x300040, 4160, 64, 77, 5, listby40_12, 0xfffffffffffffff0#64, 0xfffffff0#64, 5#64,
     0x606060606060606#64, (Instr.reqLoadGw pk40_11, 1), inv_of (by decide +kernel), (by decide +kernel), (rfl),
     (by decide +kernel), by unfold State.InTurn; decide +kernel⟩,
   ⟨mS [], ap 0x1040 1 false (leBytes 8 5) 9 3, 0, 0x300040, 4160, 64, 77, 0,
     (mS []).regionAt (mS []).liveRegions 0, 0xfffffffffffffff0#64, 0xfffffff0#64, 5#64, 0#64,
     (Instr.reqLoad (ap 0x1040 1 false (leBytes 8 5) 9 3), 1), inv_of (by decide +kernel), (by decide +kernel),
     (by decide +kernel), by decide +kernel⟩,
   ⟨st40_13, ap 0x1040 1 false (leBytes 8 5) 9 3, 0, 0x300040, 4160, 64, 77, 4, listby40_14,
     0xfffffffffffffff0#64, 0xfffffff0#64, 5#64, 0#64, (Instr.reqLoad (ap 0x1040 1 false (leBytes 8 5) 9 3), 1),
     inv_of (by decide +kernel), (by decide +kernel), (rfl), (by decide +kernel), by decide +kernel⟩,
   ⟨mS [(Reg.MSEM_ROB, 0)], ap 0x1040 1 false (leBytes 8 5) 9 3, 0, 0x300040, 4160, 64, 77, 0, listby40_15,
     0xfffffffffffffff0#64, 0xfffffff0#64, 5#64, 0#64, (Instr.reqLoad (ap 0x1040 1 false (leBytes 8 5) 9 3), 1),
     inv_of (by decide +kernel), (by decide +kernel), (rfl), (by decide +kernel), by decide +kernel⟩,
   ⟨st40_16, pk40_11, 0, 0x300040, 4160, 64, 77, 5, listby40_17, 0xfffffffffffffff0#64, 0xfffffff0#64, 5#64,
     0x606060606060606#64, (Instr.reqLoadGw pk40_11, 1), inv_of (by decide +kernel), (by decide +kernel), (rfl),
     (by decide +kernel), by unfold State.InTurn; decide +kernel⟩⟩

end G17

namespace G18

def rg (off host pages job fl ow fw : Nat) : List Byte := leBytes 8 off ++ leBytes 8 host ++ leBytes 4 pages ++
leBytes 2 job ++ leBytes 1 fl ++ leBytes 1 0 ++ leBytes 4 ow ++ leBytes 4 fw

def mS (l : List (Nat × Nat)) (fl : Nat := 15) (f : MsemSt → MsemSt := id) (ow : Nat := 24) (rj : Nat := 9)
(ext : List Byte := []) (ea : Nat := 0x700000) : State :=
  let s := bnd ([(Reg.MSEM_REGIONS_LIVE, 0x200001), (Reg.ROUTE_JOBS0, 9), (Reg.MSEM_ROB, 4),
      (Reg.MSEM_INVAL, 0x500002)] ++ l)
  { s with
    mem := tSetRun byteZero 0x200000 (rg 0x1000 0x300000 2 rj fl ow 40) (tSetRun byteZero 0x300040 (leBytes 8 0xFFFFFFFFFFFFFFF0 ++
        leBytes 4 0x3F800000) (tSetRun byteZero ea ext [])), msem := f s.msem,
    ctx := { s.ctx with ctxs := [(0, { st := 1, job := 9 })] } }

def ap (off lines : Nat) (fl : Bool) (pl : List Byte) (job : Nat := 9)
(seq : Nat := 0) : Arrived := ⟨24, job, seq, 1, reqArg off 77 lines fl, pl⟩

def nx (X : Host.Outcome State Fault Refusal) : State := match X with | .next t => t | _ => State.reset

def stg (v : Nat) (s : State) : State := { s with staged := [(Reg.MSEM_REGIONS, w v)] }

def pk41_0 : Arrived :=
  ap 0x1040 1 false (leBytes 8 5 ++ leBytes 8 7 ++ leBytes 56 9)

def st41_1 : State :=
  stg 0x200001 (mS [(Reg.PBELL_STATE, 2)])

def st41_2 : State :=
  nx (exec (.reqLoad { (ap 0x1040 1 false (leBytes 8 24 ++ (leBytes 8 5 ++ leBytes 8 7 ++ leBytes 56 9))) with
        src := 24,
        payload := (ap 0x1040 1 false (leBytes 8 24 ++ (leBytes 8 5 ++ leBytes 8 7 ++ leBytes 56 9))).payload.drop 8 })
    (mS []))

def pk41_3 : Arrived :=
  ap 0x1040 1 false (leBytes 8 24 ++ (leBytes 8 5 ++ leBytes 8 7 ++ leBytes 56 9))

def st41_4 : State :=
  mS [(Reg.MSEM_INVAL_HEAD, 5 * 2 ^ 32 + 3)]

def st41_5 : State :=
  mS [(Reg.MSEM_INVAL_HEAD, 7 * 2 ^ 32 + 3)]

/-- States and operands that meet the hypotheses of each clause of `Obligations.RegionsForwardsAndInvalidations`. -/
theorem witness_RegionsForwardsAndInvalidations :
    (∃ (s : State) (v : W64) (p : Arrived) (i : Nat) (x : (Arrived → Instr) × Nat), s.Inv ∧ p.job < 2 ^ 16
      ∧ (x ∈ [(Instr.reqLoad, 1), (.reqStore, 2), (.reqStoreMasked, 3), (.reqStoreCount, 4), (.reqAdd, 0x10),
          (.reqMinS, 0x11), (.reqMaxS, 0x12), (.reqMinU, 0x13), (.reqMaxU, 0x14), (.reqCas, 0x15),
          (.reqFadd32, 0x16)]) ∧ s.InTurn p ∧ s.jobAccepted p.job = true ∧ s.windowRegion (argOff p.arg)
      (reqBytes x.2 (argLines p.arg)) = some i ∧ rgFlag (s.regionAt s.liveRegions i) 4 = true
      ∧ s.Accepts Reg.MSEM_REGIONS v ∧ tFind Reg.MSEM_REGIONS s.staged = none)
    ∧ (∃ (s : State) (v : W64) (p : Arrived) (x : (Arrived → Instr) × Nat), s.Inv ∧ p.job < 2 ^ 16
      ∧ (x ∈ [(Instr.reqLoad, 1), (.reqStore, 2), (.reqStoreMasked, 3), (.reqStoreCount, 4), (.reqAdd, 0x10),
          (.reqMinS, 0x11), (.reqMaxS, 0x12), (.reqMinU, 0x13), (.reqMaxU, 0x14), (.reqCas, 0x15),
          (.reqFadd32, 0x16)]) ∧ tFind Reg.MSEM_REGIONS s.staged = some v ∧ s.regionsOk v = false
      ∧ s.poisoned (bits v.toNat 51 12 * 4096) (32 * bits v.toNat 8 0) = false)
    ∧ (∃ (s : State) (v : W64) (p : Arrived) (x : (Arrived → Instr) × Nat), s.Inv ∧ p.job < 2 ^ 16
      ∧ (x ∈ [(Instr.reqLoad, 1), (.reqStore, 2), (.reqStoreMasked, 3), (.reqStoreCount, 4), (.reqAdd, 0x10),
          (.reqMinS, 0x11), (.reqMaxS, 0x12), (.reqMinU, 0x13), (.reqMaxU, 0x14), (.reqCas, 0x15),
          (.reqFadd32, 0x16)]) ∧ tFind Reg.MSEM_REGIONS s.staged = some v ∧ s.regionsOk v = true
      ∧ s.bellState = 0 ∧ s.fld Reg.MSEM_HOLD 51 16 = 0)
    ∧ (∃ (s : State) (v : W64) (p : Arrived) (x : (Arrived → Instr) × Nat), s.Inv ∧ p.job < 2 ^ 16
      ∧ (x ∈ [(Instr.reqLoad, 1), (.reqStore, 2), (.reqStoreMasked, 3), (.reqStoreCount, 4), (.reqAdd, 0x10),
          (.reqMinS, 0x11), (.reqMaxS, 0x12), (.reqMinU, 0x13), (.reqMaxU, 0x14), (.reqCas, 0x15),
          (.reqFadd32, 0x16)]) ∧ tFind Reg.MSEM_REGIONS s.staged = some v ∧ s.regionsOk v = true
      ∧ s.bellState ≠ 0)
    ∧ (∃ (s u : State) (p : Arrived) (i : Nat) (x : (Arrived → Instr) × Nat), s.Inv ∧ p.job < 2 ^ 16
      ∧ (x ∈ [(Instr.reqLoad, 1), (.reqStore, 2), (.reqStoreMasked, 3), (.reqStoreCount, 4), (.reqAdd, 0x10),
          (.reqMinS, 0x11), (.reqMaxS, 0x12), (.reqMinU, 0x13), (.reqMaxU, 0x14), (.reqCas, 0x15),
          (.reqFadd32, 0x16)])
      ∧ s.InTurn { p with src := bits (fieldAt p.payload 0 8) 22 0, payload := p.payload.drop 8 }
      ∧ (exec (x.1 { p with src := bits (fieldAt p.payload 0 8) 22 0, payload := p.payload.drop 8 }) s = .next u)
      ∧ (∀ i, s.windowRegion (argOff p.arg) (reqBytes x.2 (argLines p.arg)) = some i →
        rgFlag (s.regionAt s.liveRegions i) 4 = false))
    ∧ (∃ (s : State) (p : Arrived) (used a : Nat) (x : (Arrived → Instr) × Nat), s.Inv ∧ p.job < 2 ^ 16
      ∧ (x ∈ [(Instr.reqLoad, 1), (.reqStore, 2), (.reqStoreMasked, 3), (.reqStoreCount, 4), (.reqAdd, 0x10),
          (.reqMinS, 0x11), (.reqMaxS, 0x12), (.reqMinU, 0x13), (.reqMaxU, 0x14), (.reqCas, 0x15),
          (.reqFadd32, 0x16)])
      ∧ used = (s.fld Reg.MSEM_INVAL_HEAD 47 32 + 65536 - s.fld Reg.MSEM_INVAL_HEAD 15 0) % 65536
      ∧ a = s.fld Reg.MSEM_INVAL 51 12 * 4096 + s.fld Reg.MSEM_INVAL_HEAD 47 32 % 2 ^ s.fld Reg.MSEM_INVAL 3 0 * 16
      ∧ 0 < s.fld Reg.MSEM_INVAL 3 0 ∧ used < 2 ^ s.fld Reg.MSEM_INVAL 3 0 ∧ a + 16 ≤ memSpace
      ∧ p.payload.length = 16)
    ∧ (∃ (s : State) (p : Arrived) (used a : Nat) (x : (Arrived → Instr) × Nat), s.Inv ∧ p.job < 2 ^ 16
      ∧ (x ∈ [(Instr.reqLoad, 1), (.reqStore, 2), (.reqStoreMasked, 3), (.reqStoreCount, 4), (.reqAdd, 0x10),
          (.reqMinS, 0x11), (.reqMaxS, 0x12), (.reqMinU, 0x13), (.reqMaxU, 0x14), (.reqCas, 0x15),
          (.reqFadd32, 0x16)])
      ∧ used = (s.fld Reg.MSEM_INVAL_HEAD 47 32 + 65536 - s.fld Reg.MSEM_INVAL_HEAD 15 0) % 65536
      ∧ a = s.fld Reg.MSEM_INVAL 51 12 * 4096 + s.fld Reg.MSEM_INVAL_HEAD 47 32 % 2 ^ s.fld Reg.MSEM_INVAL 3 0 * 16
      ∧ (s.fld Reg.MSEM_INVAL 3 0 = 0 ∨ 2 ^ s.fld Reg.MSEM_INVAL 3 0 ≤ used)) :=
  ⟨⟨mS [] 31, 0#64, pk41_0, 0, (.reqLoad, 1), inv_of (by decide +kernel), (by decide +kernel), (by simp),
     by unfold State.Accepts State.InTurn; decide +kernel⟩,
   ⟨stg 0x200003 (mS []), 0x200003#64, ap 0x1040 1 false [], (.reqLoad, 1), inv_of (by decide +kernel),
     (by decide +kernel), (by simp), by decide +kernel⟩,
   ⟨stg 0x200001 (mS []), 0x200001#64, ap 0x1040 1 false [], (.reqLoad, 1), inv_of (by decide +kernel),
     (by decide +kernel), (by simp), by decide +kernel⟩,
   ⟨st41_1, 0x200001#64, ap 0x1040 1 false [], (.reqLoad, 1), inv_of (by decide +kernel), (by decide +kernel),
     (by simp), by decide +kernel⟩,
   ⟨mS [], st41_2, pk41_3, 0, (.reqLoad, 1), inv_of (by decide +kernel), (by decide +kernel), (by simp),
     (by unfold State.InTurn; decide +kernel), (nx_of (f := nx) (by decide +kernel) fun _ => rfl),
     (all_some (by decide +kernel))⟩,
   ⟨st41_4, ap 0 1 false (List.replicate 16 8#8), 2, 0x500010, (.reqLoad, 1), inv_of (by decide +kernel),
     (by decide +kernel), (by simp), by decide +kernel⟩,
   ⟨st41_5, ap 0 1 false (List.replicate 16 8#8), 4, 0x500030, (.reqLoad, 1), inv_of (by decide +kernel),
     (by decide +kernel), (by simp), by decide +kernel⟩⟩

def pk42_0 : Arrived :=
  ⟨24, 9, 0, 1, w (7 + 0 * 2 ^ 16), [1#8, 2#8]⟩

def st42_1 : State :=
  (mS [] 15 fun m => { m with
      reqs := [{
          tag := 7, dest := 16, job := 9, type := 1, lines := 1, for_ := .cmd 3, localAddr := 0x5000,
          statusAddr := 0x100028, sem := 5 }] })

def req42_2 : Req :=
  { tag := 7, dest := 16, job := 9, type := 1, lines := 1, for_ := .cmd 3, localAddr := 0x5000,
    statusAddr := 0x100028, sem := 5 }

def st42_3 : State :=
  (mS [] 15 fun m => { m with invals := [{ tag := 7, node := 30, job := 9 }] })

def st42_4 : State :=
  { (mS [(Reg.PORTER_RING, 0x700002), (Reg.PORTER_HEAD, 2)] 15 id 24 9 (leBytes 1 0 ++ leBytes 1 0xFF ++
        leBytes 6 0 ++ leBytes 8 (24 * 2 ^ 41) ++ leBytes 8 0x1040 ++ leBytes 8 256 ++ leBytes 32 0) 0x700080) with
    poison := [0x1C002] }

def listby42_5 : List Byte :=
  leBytes 1 0 ++ leBytes 1 0xFF ++ leBytes 6 0 ++ leBytes 8 (24 * 2 ^ 41) ++ leBytes 8 0x1040 ++ leBytes 8 256 ++
  leBytes 32 0

def st42_6 : State :=
  (mS [] 15 fun m => { m with reqs := [req42_2] })

def pk42_7 : Arrived :=
  ⟨24, 9, 0, 1, w (7 + 3 * 2 ^ 16), [1#8, 2#8]⟩

def st42_8 : State :=
  (mS [] 15 fun m => { m with
      reqs := [{
          tag := 7, dest := 16, job := 9, type := 1, lines := 1, for_ := .relay 30 12, localAddr := 0x5000,
          statusAddr := 0x100028, sem := 0xFF }] })

def req42_9 : Req :=
  { tag := 7, dest := 16, job := 9, type := 1, lines := 1, for_ := .relay 30 12, localAddr := 0x5000,
    statusAddr := 0x100028, sem := 0xFF }

def st42_10 : State :=
  (mS [] 15 fun m => { m with
      reqs := [{
          tag := 7, dest := 16, job := 9, type := 1, lines := 1, for_ := .combined, localAddr := 0x5000,
          statusAddr := 0x100028, sem := 0xFF }],
      combines := [{
          tag := 7, dest := 16, job := 9, type := 0x10, arg := 0#64, parts := [(30, 12, 5#64), (31, 13, 6#64)] }] })

def req42_11 : Req :=
  { tag := 7, dest := 16, job := 9, type := 1, lines := 1, for_ := .combined, localAddr := 0x5000,
    statusAddr := 0x100028, sem := 0xFF }

def combin42_12 : Combine :=
  { tag := 7, dest := 16, job := 9, type := 0x10, arg := 0#64, parts := [(30, 12, 5#64), (31, 13, 6#64)] }

def st42_13 : State :=
  (mS [] 15 fun m => { m with
      invals := [{ tag := 7, node := 30, job := 9 }],
      waiting := [{
          src := 24, job := 9, prio := 1, type := 2, arg := reqArg 0x1040 77 1 false,
          payload := List.replicate 64 3#8, region := 0, waits := [7], caused := true }] })

def waitin42_14 : Waiting :=
  { src := 24, job := 9, prio := 1, type := 2, arg := reqArg 0x1040 77 1 false, payload := List.replicate 64 3#8,
    region := 0, waits := [7], caused := true }

def listby42_15 : List Byte :=
  st42_13.regionAt st42_13.liveRegions 0

def st42_16 : State :=
  (mS [] 15 fun m => { m with
      reqs := [req42_11],
      combines := [{ tag := 7, dest := 16, job := 9, type := 0x10, arg := 0#64, parts := [(30, 12, 5#64)] }] })

def combin42_17 : Combine :=
  { tag := 7, dest := 16, job := 9, type := 0x10, arg := 0#64, parts := [(30, 12, 5#64)] }

def st42_18 : State :=
  mS [(Reg.PORTER_RING, 0x700002), (Reg.PORTER_HEAD, 2)] 15 id 24 9 listby42_5 0x700080

def st42_19 : State :=
  mS [(Reg.PORTER_RING, 0x700002), (Reg.PORTER_HEAD, 2)] 15 id 24 9 (leBytes 1 0 ++ leBytes 1 0x40 ++
    leBytes 6 0 ++ leBytes 8 (24 * 2 ^ 41) ++ leBytes 8 0x1040 ++ leBytes 8 256 ++ leBytes 32 0) 0x700080

def listby42_20 : List Byte :=
  leBytes 1 0 ++ leBytes 1 0x40 ++ leBytes 6 0 ++ leBytes 8 (24 * 2 ^ 41) ++ leBytes 8 0x1040 ++ leBytes 8 256 ++
  leBytes 32 0

def st42_21 : State :=
  (let s := mS [] 15 id 0; { s with
      porter := { s.porter with
        nextId := 4,
        copies := [{
            id := 0, unit := 0, job := 9, src := (24 * 2 ^ 41 + 0x40), dst := 0x1040, len := 256, lines := 1,
            destSem := none }] } })

def listby42_22 : List Byte :=
  st42_21.regionAt st42_21.liveRegions 0

def copy42_23 : Copy :=
  { id := 0, unit := 0, job := 9, src := (24 * 2 ^ 41 + 0x40), dst := 0x1040, len := 256, lines := 1,
    destSem := none }

def st42_24 : State :=
  (let s := mS [] 15 id 0; { s with
      porter := { s.porter with
        nextId := 4,
        copies := [{
            id := 0, unit := 0, job := 9, src := 0x1040, dst := (24 * 2 ^ 41 + 0x40), len := 256, lines := 1,
            destSem := none }] } })

def listby42_25 : List Byte :=
  st42_24.regionAt st42_24.liveRegions 0

def copy42_26 : Copy :=
  { id := 0, unit := 0, job := 9, src := 0x1040, dst := (24 * 2 ^ 41 + 0x40), len := 256, lines := 1,
    destSem := none }

def st42_27 : State :=
  (let s := mS [] 15 id 0; { s with
      porter := { s.porter with
        nextId := 4,
        copies := [{
            id := 0, unit := 0, job := 9, src := 0x1040, dst := 0x2040, len := 256, lines := 1, destSem := none }] } })

def listby42_28 : List Byte :=
  st42_27.regionAt st42_27.liveRegions 0

def copy42_29 : Copy :=
  { id := 0, unit := 0, job := 9, src := 0x1040, dst := 0x2040, len := 256, lines := 1, destSem := none }

/-- States and operands that meet the hypotheses of each clause of `Obligations.RequestsEndAndCopiesMove`. -/
theorem witness_RequestsEndAndCopiesMove :
    (∃ (s : State) (p : Arrived) (tag st h : Nat) (v : W64), s.Inv
      ∧ (tag = bits p.arg.toNat 15 0 ∧ st = bits p.arg.toNat 23 16 ∧ (∀ x ∈ s.msem.invals, x.tag ≠ tag)
        ∧ (∀ x ∈ s.msem.reqs, x.tag ≠ tag) ∧ s.Accepts Reg.PORTER_TAIL v ∧ h = s.fld Reg.PORTER_HEAD 31 0
        ∧ (s.fld Reg.PORTER_RING 4 0 = 0 ∨ h = bits v.toNat 31 0)
        ∧ (s.fld Reg.PORTER_RING 4 0 = 0 ∨ s.fld Reg.PORTER_HEAD 31 0 = s.porter.tail))
      ∧ (∀ x ∈ s.porter.copies, s.copyReady x = false))
    ∧ (∃ (s : State) (p : Arrived) (tag st : Nat) (r : Req) (j : Nat), s.Inv
      ∧ (tag = bits p.arg.toNat 15 0 ∧ st = bits p.arg.toNat 23 16 ∧ (∀ x ∈ s.msem.invals, x.tag ≠ tag)
        ∧ s.msem.reqs = [r] ∧ r.tag = tag ∧ s.msem.relays = [] ∧ r.for_ = .cmd j ∧ (st = 0 ∨ st = 8))
      ∧ p.payload ≠ [] ∧ r.localAddr + p.payload.length ≤ memSpace ∧ r.job < 2 ^ 16)
    ∧ (∃ (s : State) (p : Arrived) (tag st : Nat) (iv : Inval), s.Inv ∧ tag = bits p.arg.toNat 15 0
      ∧ st = bits p.arg.toNat 23 16 ∧ s.msem.invals = [iv] ∧ iv.tag = tag ∧ s.msem.waiting = [])
    ∧ (∃ (s : State) (a h : Nat) (v : W64) (b : List Byte) (job : Nat), s.Inv
      ∧ (s.Accepts Reg.PORTER_TAIL v ∧ h = s.fld Reg.PORTER_HEAD 31 0 ∧ 0 < s.fld Reg.PORTER_RING 4 0
        ∧ bits v.toNat 31 0 = (h + 1) % 2 ^ 32 ∧ s.inFlight < 64
        ∧ (∀ x ∈ s.porter.copies, x.id < s.porter.nextId)
        ∧ a = s.fld Reg.PORTER_RING 51 12 * 4096 + h % 2 ^ s.fld Reg.PORTER_RING 4 0 * 64 ∧ a + 64 ≤ memSpace)
      ∧ (b = s.rd a 64) ∧ s.unreadable .request a 64 = true ∧ s.poisoned a 64 = true
      ∧ s.Accepts Reg.MSEM_TEARDOWN v ∧ job = bits v.toNat 15 0)
    ∧ (∃ (s : State) (p : Arrived) (tag st : Nat) (r : Req) (j : Nat), s.Inv
      ∧ (tag = bits p.arg.toNat 15 0 ∧ st = bits p.arg.toNat 23 16 ∧ (∀ x ∈ s.msem.invals, x.tag ≠ tag)
        ∧ s.msem.reqs = [r] ∧ r.tag = tag ∧ s.msem.relays = [] ∧ r.for_ = .cmd j
        ∧ (st ≠ 0 ∧ st ≠ 8 ∨ p.payload = [])) ∧ r.statusAddr < memSpace)
    ∧ (∃ (s : State) (p : Arrived) (tag st src tg : Nat) (r : Req), s.Inv ∧ tag = bits p.arg.toNat 15 0
      ∧ st = bits p.arg.toNat 23 16 ∧ (∀ x ∈ s.msem.invals, x.tag ≠ tag) ∧ s.msem.reqs = [r] ∧ r.tag = tag
      ∧ s.msem.relays = [] ∧ r.for_ = .relay src tg)
    ∧ (∃ (s : State) (p : Arrived) (tag st src tg t2 src2 : Nat) (r : Req) (c : Combine) (a1 a2 : W64), s.Inv
      ∧ (tag = bits p.arg.toNat 15 0 ∧ st = bits p.arg.toNat 23 16 ∧ (∀ x ∈ s.msem.invals, x.tag ≠ tag)
        ∧ s.msem.reqs = [r] ∧ r.tag = tag ∧ s.msem.relays = [] ∧ r.for_ = .combined ∧ s.msem.combines = [c])
      ∧ c.tag = tag ∧ c.type = 0x10 ∧ c.parts = [(src, tg, a1), (src2, t2, a2)] ∧ st = 0)
    ∧ (∃ (s : State) (p : Arrived) (tag st a n i src : Nat) (w : Waiting) (iv : Inval) (bi : List Byte), s.Inv
      ∧ (tag = bits p.arg.toNat 15 0 ∧ st = bits p.arg.toNat 23 16 ∧ s.msem.invals = [iv] ∧ iv.tag = tag
        ∧ s.msem.waiting = [w] ∧ w.waits = [tag] ∧ w.region = i ∧ w.caused = true)
      ∧ (w.type = 2 ∧ w.own = false) ∧ (bi = s.regionAt s.liveRegions i)
      ∧ a = rgHost bi + (argOff w.arg - rgOffset bi) ∧ n = 64 * argLines w.arg
      ∧ s.Allowed i (argOff w.arg) n 1 64 w.src w.job ∧ a + n ≤ memSpace ∧ n ≤ w.payload.length
      ∧ s.holdAddr i = none)
    ∧ (∃ (s : State) (tag src tg : Nat) (r : Req) (c : Combine) (a1 : W64), s.Inv
      ∧ ((∀ x ∈ s.msem.invals, x.tag ≠ tag) ∧ s.msem.reqs = [r] ∧ r.tag = tag ∧ s.msem.relays = []
        ∧ r.job < 2 ^ 16 ∧ r.for_ = .combined ∧ s.msem.combines = [c] ∧ c.tag = tag)
      ∧ c.parts = [(src, tg, a1)] ∧ s.bit Reg.MSEM_MGR 23 = false)
    ∧ (∃ (s : State) (a h : Nat) (v : W64) (b : List Byte), s.Inv
      ∧ (s.Accepts Reg.PORTER_TAIL v ∧ h = s.fld Reg.PORTER_HEAD 31 0 ∧ 0 < s.fld Reg.PORTER_RING 4 0
        ∧ bits v.toNat 31 0 = (h + 1) % 2 ^ 32 ∧ s.inFlight < 64
        ∧ (∀ x ∈ s.porter.copies, x.id < s.porter.nextId)
        ∧ a = s.fld Reg.PORTER_RING 51 12 * 4096 + h % 2 ^ s.fld Reg.PORTER_RING 4 0 * 64 ∧ a + 64 ≤ memSpace)
      ∧ (b = s.rd a 64) ∧ s.unreadable .request a 64 = false ∧ s.descStatus b = 0)
    ∧ (∃ (s : State) (a h : Nat) (v : W64) (b : List Byte), s.Inv
      ∧ (s.Accepts Reg.PORTER_TAIL v ∧ h = s.fld Reg.PORTER_HEAD 31 0 ∧ 0 < s.fld Reg.PORTER_RING 4 0
        ∧ bits v.toNat 31 0 = (h + 1) % 2 ^ 32 ∧ s.inFlight < 64
        ∧ (∀ x ∈ s.porter.copies, x.id < s.porter.nextId)
        ∧ a = s.fld Reg.PORTER_RING 51 12 * 4096 + h % 2 ^ s.fld Reg.PORTER_RING 4 0 * 64 ∧ a + 64 ≤ memSpace)
      ∧ (b = s.rd a 64) ∧ s.unreadable .request a 64 = false ∧ s.descStatus b ≠ 0)
    ∧ (∃ (s : State) (n i src : Nat) (bi : List Byte) (cp : Copy), s.Inv
      ∧ ((s.fld Reg.PORTER_RING 4 0 = 0 ∨ s.fld Reg.PORTER_HEAD 31 0 = s.porter.tail) ∧ s.porter.copies = [cp]
        ∧ s.copyReady cp = true ∧ cp.alt = none ∧ cp.srcHost = false ∧ cp.dstHost = false
        ∧ s.translate (cp.src + cp.issued) = (cp.src + cp.issued, false)
        ∧ s.translate (cp.dst + cp.issued) = (cp.dst + cp.issued, false))
      ∧ (n = min (64 * cp.lines) (cp.len - cp.issued) ∧ n % 64 = 0 ∧ 0 < n ∧ n ≤ 4096
        ∧ s.msem.reqs.length + s.msem.invals.length < 65535 ∧ faNode (cp.src + cp.issued) ≠ s.node
        ∧ nodeDomain (faNode (cp.src + cp.issued)) = nodeDomain s.node
        ∧ s.Allowed i (faOffset (cp.dst + cp.issued)) n 1 64 s.node cp.job) ∧ (bi = s.regionAt s.liveRegions i))
    ∧ (∃ (s : State) (a n i src : Nat) (bi : List Byte) (cp : Copy), s.Inv
      ∧ ((s.fld Reg.PORTER_RING 4 0 = 0 ∨ s.fld Reg.PORTER_HEAD 31 0 = s.porter.tail) ∧ s.porter.copies = [cp]
        ∧ s.copyReady cp = true ∧ cp.alt = none ∧ cp.srcHost = false ∧ cp.dstHost = false
        ∧ s.translate (cp.src + cp.issued) = (cp.src + cp.issued, false)
        ∧ s.translate (cp.dst + cp.issued) = (cp.dst + cp.issued, false))
      ∧ (n = min (64 * cp.lines) (cp.len - cp.issued) ∧ n % 64 = 0 ∧ 0 < n ∧ n ≤ 4096
        ∧ s.msem.reqs.length + s.msem.invals.length < 65535 ∧ faNode (cp.src + cp.issued) = s.node
        ∧ s.Allowed i (faOffset (cp.src + cp.issued)) n 0 64 s.node cp.job) ∧ (bi = s.regionAt s.liveRegions i)
      ∧ a = rgHost bi + (faOffset (cp.src + cp.issued) - rgOffset bi) ∧ s.unreadable .request a n = false
      ∧ faNode (cp.dst + cp.issued) ≠ s.node ∧ nodeDomain (faNode (cp.dst + cp.issued)) = nodeDomain s.node)
    ∧ (∃ (s : State) (a h n i k src : Nat) (bi : List Byte) (cp : Copy), s.Inv
      ∧ ((s.fld Reg.PORTER_RING 4 0 = 0 ∨ s.fld Reg.PORTER_HEAD 31 0 = s.porter.tail) ∧ s.porter.copies = [cp]
        ∧ s.copyReady cp = true ∧ cp.alt = none ∧ cp.srcHost = false ∧ cp.dstHost = false
        ∧ s.translate (cp.src + cp.issued) = (cp.src + cp.issued, false)
        ∧ s.translate (cp.dst + cp.issued) = (cp.dst + cp.issued, false))
      ∧ (n = min (64 * cp.lines) (cp.len - cp.issued) ∧ n % 64 = 0 ∧ 0 < n ∧ n ≤ 4096
        ∧ s.msem.reqs.length + s.msem.invals.length < 65535 ∧ faNode (cp.src + cp.issued) = s.node
        ∧ s.Allowed i (faOffset (cp.src + cp.issued)) n 0 64 s.node cp.job) ∧ (bi = s.regionAt s.liveRegions i)
      ∧ a = rgHost bi + (faOffset (cp.src + cp.issued) - rgOffset bi) ∧ s.unreadable .request a n = false
      ∧ faNode (cp.dst + cp.issued) = s.node ∧ s.Allowed k (faOffset (cp.dst + cp.issued)) n 1 64 s.node cp.job
      ∧ h = rgHost (s.regionAt s.liveRegions k) + (faOffset (cp.dst + cp.issued) - rgOffset (s.regionAt s.liveRegions k))
      ∧ h + n ≤ memSpace ∧ cp.done + n < cp.len) :=
  ⟨⟨mS [], pk42_0, 7, 0, 0, 0#64, inv_of (by decide +kernel), (by unfold State.Accepts; decide +kernel),
     by decide +kernel⟩,
   ⟨st42_1, pk42_0, 7, 0, req42_2, 3, inv_of (by decide +kernel), (by decide +kernel), by decide +kernel⟩,
   ⟨st42_3, pk42_0, 7, 0, { tag := 7, node := 30, job := 9 }, inv_of (by decide +kernel), by decide +kernel⟩,
   ⟨st42_4, 0x700080, 2, 3#64, listby42_5, bits (3#64).toNat 15 0, inv_of (by decide +kernel),
     (by unfold State.Accepts; decide +kernel), (rfl), by unfold State.Accepts; decide +kernel⟩,
   ⟨st42_6, pk42_7, 7, 3, req42_2, 3, inv_of (by decide +kernel), (by decide +kernel), by decide +kernel⟩,
   ⟨st42_8, pk42_0, 7, 0, 30, 12, req42_9, inv_of (by decide +kernel), by decide +kernel⟩,
   ⟨st42_10, pk42_0, 7, 0, 30, 12, 13, 31, req42_11, combin42_12, 5#64, 6#64, inv_of (by decide +kernel),
     (by decide +kernel), by decide +kernel⟩,
   ⟨st42_13, pk42_0, 7, 0, 0x300040, 64, 0, 0, waitin42_14, { tag := 7, node := 30, job := 9 }, listby42_15,
     inv_of (by decide +kernel), (by decide +kernel), (by decide +kernel), (rfl),
     by unfold State.Allowed; decide +kernel⟩,
   ⟨st42_16, 7, 30, 12, req42_11, combin42_17, 5#64, inv_of (by decide +kernel), (by decide +kernel),
     by decide +kernel⟩,
   ⟨st42_18, 0x700080, 2, 3#64, listby42_5, inv_of (by decide +kernel),
     (by unfold State.Accepts; decide +kernel), (rfl), by decide +kernel⟩,
   ⟨st42_19, 0x700080, 2, 3#64, listby42_20, inv_of (by decide +kernel),
     (by unfold State.Accepts; decide +kernel), (rfl), by decide +kernel⟩,
   ⟨st42_21, 64, 0, 0, listby42_22, copy42_23, inv_of (by decide +kernel), (by decide +kernel),
     (by unfold State.Allowed; decide +kernel), (rfl)⟩,
   ⟨st42_24, 0x300040, 64, 0, 0, listby42_25, copy42_26, inv_of (by decide +kernel), (by decide +kernel),
     (by unfold State.Allowed; decide +kernel), (rfl), by decide +kernel⟩,
   ⟨st42_27, 0x300040, 0x301040, 64, 0, 0, 0, listby42_28, copy42_29, inv_of (by decide +kernel),
     (by decide +kernel), (by unfold State.Allowed; decide +kernel), (rfl),
     by unfold State.Allowed; decide +kernel⟩⟩

end G18

namespace G19

def gE (base n job fl log2 slots : Nat) : List Byte := leBytes 8 base ++ leBytes 2 n ++ leBytes 2 job ++
leBytes 1 fl ++ leBytes 1 log2 ++ leBytes 1 slots ++ leBytes 49 0

def mem3 (a b c : Nat) : List Byte := leBytes 4 a ++ leBytes 4 b ++ leBytes 4 c

def cS (l : List (Nat × Nat)) (e : List Byte := gE 0x80000 3 9 0 12 4) (ml : List Byte := mem3 0 16 24)
(sp : Bool := true) (cst : Nat := 1) (sm : Nat := 0) : State :=
  let s := bnd ([(Reg.COLL_GROUPS, 0x100000), (Reg.COLL_RING, 0x200002), (Reg.ROUTE_JOBS0, 9)] ++ l)
  { s with
    mem := tSetRun byteZero 0x100040 e (tSetRun byteZero 0x80000 ml []), now := 77,
    ctx := { s.ctx with ctxs := [(0, { st := cst, job := 9, spill := sp, saveMib := sm })] } }

def gr (f : Group → Group)
(s : State) : State := { s with
  coll := { s.coll with
    groups := [(1,
        f { st := 1, entry := gE 0x80000 3 9 0 12 4, members := [0, 16, 24], self := 0, digest := 5,
            created := 1 })] } }

def arr (src g seq c idx ph : Nat) (pl : List Byte) : Arrived := ⟨src, 9, 0, 0, w (colArg g seq c idx ph), pl⟩

def desc (g op ty rt trig dn tv i o n : Nat) : List Byte := leBytes 2 g ++ leBytes 1 op ++ leBytes 1 ty ++
leBytes 2 rt ++ leBytes 1 trig ++ leBytes 1 dn ++ leBytes 8 tv ++ leBytes 8 i ++ leBytes 8 o ++ leBytes 8 n ++
leBytes 24 0

def pk43_0 : Arrived :=
  arr 16 1 0 0 0 0 (leBytes 8 (5 + 1 * 2 ^ 32))

def st43_1 : State :=
  gr (fun x => { x with self := 1, members := [16, 0, 24] }) (cS [])

def pk43_2 : Arrived :=
  arr 16 1 0 0 0 0 (leBytes 8 (0 + 0 * 2 ^ 32))

def group43_3 : Group :=
  st43_1.group 1

def st43_4 : State :=
  (State.takeStaging (chunkClass (grpLog2 (gE 0x80000 3 9 0 12 4))) (grpCtx (gE 0x80000 3 9 0 12 4))
    (grpSlots (gE 0x80000 3 9 0 12 4)) []
    ((((cS []).setFld Reg.COLL_GSTAT 11 0 1).memCount 0 64).memCount 0 (4 * grpCount (gE 0x80000 3 9 0 12 4)))).2

def st43_5 : State :=
  (let s := gr id (cS []); { s with
      coll := { s.coll with
        ops := [{ group := 1, seq := 3, ring := 0, addr := 0x200000, desc := [] }], pulls := [⟨1, 3, 0, 0, 0⟩] } })

def group43_6 : Group :=
  st43_5.group 1

def st43_7 : State :=
  { gr id (cS []) with now := 10000000000 }

def group43_8 : Group :=
  st43_7.group 1

def st43_9 : State :=
  gr (fun x => { x with joins := [(2, 5)] }) (cS [])

def group43_10 : Group :=
  st43_9.group 1

def st43_11 : State :=
  gr (fun x => { x with joins := [(2, 6)] }) (cS [])

def group43_12 : Group :=
  st43_11.group 1

def pk43_13 : Arrived :=
  arr 16 1 0 0 0 0 (leBytes 8 (1 + 0 * 2 ^ 32))

def st43_14 : State :=
  cS [] (gE 0x80000 3 9 0 12 4) (mem3 0 16 24) true 1 64

def st43_15 : State :=
  (State.takeStaging (chunkClass (grpLog2 (gE 0x80000 3 9 0 12 4))) (grpCtx (gE 0x80000 3 9 0 12 4))
    (grpSlots (gE 0x80000 3 9 0 12 4)) []
    (((st43_14.setFld Reg.COLL_GSTAT 11 0 1).memCount 0 64).memCount 0 (4 * grpCount (gE 0x80000 3 9 0 12 4)))).2

def group43_16 : Group :=
  st43_14.group 1

def listna43_17 : List Nat :=
  (State.takeStaging (chunkClass (grpLog2 (gE 0x80000 3 9 0 12 4))) (grpCtx (gE 0x80000 3 9 0 12 4))
    (grpSlots (gE 0x80000 3 9 0 12 4)) []
    (((st43_14.setFld Reg.COLL_GSTAT 11 0 1).memCount 0 64).memCount 0 (4 * grpCount (gE 0x80000 3 9 0 12 4)))).1.getD []

def st43_18 : State :=
  cS [] (gE 0x80000 3 9 0 12 4) (mem3 16 0 24) true 1 64

def st43_19 : State :=
  (State.takeStaging (chunkClass (grpLog2 (gE 0x80000 3 9 0 12 4))) (grpCtx (gE 0x80000 3 9 0 12 4))
    (grpSlots (gE 0x80000 3 9 0 12 4)) []
    (((st43_18.setFld Reg.COLL_GSTAT 11 0 1).memCount 0 64).memCount 0 (4 * grpCount (gE 0x80000 3 9 0 12 4)))).2

def group43_20 : Group :=
  st43_18.group 1

def listna43_21 : List Nat :=
  (State.takeStaging (chunkClass (grpLog2 (gE 0x80000 3 9 0 12 4))) (grpCtx (gE 0x80000 3 9 0 12 4))
    (grpSlots (gE 0x80000 3 9 0 12 4)) []
    (((st43_18.setFld Reg.COLL_GSTAT 11 0 1).memCount 0 64).memCount 0 (4 * grpCount (gE 0x80000 3 9 0 12 4)))).1.getD []

/-- States and operands that meet the hypotheses of each clause of `Obligations.GroupsAreCreated`. -/
theorem witness_GroupsAreCreated :
    (∃ (s : State) (p : Arrived) (g : Nat) (x : Group) (w m : Nat), s.Inv
      ∧ (tWf groupNone s.coll.groups = true ∧ g < 4096) ∧ (x = s.group g)
      ∧ (g = caGroup p.arg ∧ w = fieldAt p.payload 0 8 ∧ m = bits w 46 32 ∧ x.st = 1 ∧ x.self = 0 ∧ m ≠ 0
        ∧ x.members[m]? = some p.src ∧ (∀ j ∈ x.joins, j.1 ≠ m)) ∧ x.joins.length + 2 < x.members.length
      ∧ x.st ≠ 0 ∧ (x.st ≠ 1 ∨ x.members[0]? ≠ some p.src)
      ∧ (x.st ≠ 1 ∨ s.now < x.created + 1000000 * s.fld Reg.COLL_TO 41 32)
      ∧ (x.st ≠ 1 ∨ x.self = 0 ∨ x.members = []))
    ∧ (∃ (s : State) (p : Arrived) (g : Nat) (x : Group) (w m : Nat), s.Inv
      ∧ (tWf groupNone s.coll.groups = true ∧ g < 4096) ∧ (x = s.group g)
      ∧ (g = caGroup p.arg ∧ w = fieldAt p.payload 0 8 ∧ m = bits w 46 32 ∧ x.st = 1
        ∧ x.members[0]? = some p.src ∧ bits w 0 0 = 0 ∧ x.st ≠ 0
        ∧ (x.st ≠ 1 ∨ x.self ≠ 0 ∨ m = 0 ∨ x.members[m]? ≠ some p.src ∨ ∃ j ∈ x.joins, j.1 = m)) ∧ x.self ≠ 0
      ∧ x.members ≠ [])
    ∧ (∃ (s : State) (v : W64) (g : Nat) (x : Group), s.Inv ∧ (tWf groupNone s.coll.groups = true ∧ g < 4096)
      ∧ (x = s.group g) ∧ s.bound = true ∧ setsReserved Reg.COLL_CREATE v = false ∧ bits v.toNat 17 16 = 3)
    ∧ (∃ (s : State) (v : W64) (g : Nat) (x : Group), s.Inv ∧ (tWf groupNone s.coll.groups = true ∧ g < 4096)
      ∧ (x = s.group g) ∧ s.Accepts Reg.COLL_CREATE v ∧ g = bits v.toNat 11 0 ∧ bits v.toNat 16 16 = 1
      ∧ bits v.toNat 17 17 = 0 ∧ x.st ≠ 0)
    ∧ (∃ (s u : State) (v : W64) (g : Nat) (x : Group) (e : List Byte) (ms : List Nat), s.Inv
      ∧ (tWf groupNone s.coll.groups = true ∧ g < 4096) ∧ (x = s.group g)
      ∧ (s.Accepts Reg.COLL_CREATE v ∧ g = bits v.toNat 11 0 ∧ bits v.toNat 16 16 = 1 ∧ bits v.toNat 17 17 = 0
        ∧ x.st = 0 ∧ s.poison = [] ∧ s.readFailed = [] ∧ e = s.rd (s.grpAddr g) 64) ∧ ms = s.grpMembers e
      ∧ grpEntryOk e = true ∧ s.membersOk ms = true ∧ grpLL e = false ∧ s.coll.aborted = []
      ∧ State.takeStaging (chunkClass (grpLog2 e)) (grpCtx e) (grpSlots e) []
      (((s.setFld Reg.COLL_GSTAT 11 0 g).memCount 0 64).memCount 0 (4 * grpCount e)) = (none, u))
    ∧ (∃ (s : State) (v : W64) (g : Nat) (x : Group) (e : List Byte) (ms : List Nat), s.Inv
      ∧ (tWf groupNone s.coll.groups = true ∧ g < 4096) ∧ (x = s.group g)
      ∧ (s.Accepts Reg.COLL_CREATE v ∧ g = bits v.toNat 11 0 ∧ bits v.toNat 16 16 = 1 ∧ bits v.toNat 17 17 = 0
        ∧ x.st = 0 ∧ s.poison = [] ∧ s.readFailed = [] ∧ e = s.rd (s.grpAddr g) 64) ∧ ms = s.grpMembers e
      ∧ (grpEntryOk e = false ∨ s.membersOk ms = false))
    ∧ (∃ (s : State) (v : W64) (g : Nat) (x : Group), s.Inv ∧ (tWf groupNone s.coll.groups = true ∧ g < 4096)
      ∧ (x = s.group g) ∧ s.Accepts Reg.COLL_CREATE v ∧ g = bits v.toNat 11 0 ∧ bits v.toNat 16 16 = 0
      ∧ bits v.toNat 17 17 = 1 ∧ (∀ o ∈ s.coll.ops, o.group ≠ g) ∧ x.staging = [])
    ∧ (∃ (s : State) (v : W64) (g : Nat) (x : Group), s.Inv ∧ (tWf groupNone s.coll.groups = true ∧ g < 4096)
      ∧ (x = s.group g) ∧ s.Accepts Reg.COLL_CREATE v ∧ g = bits v.toNat 11 0 ∧ bits v.toNat 16 16 = 0
      ∧ bits v.toNat 17 17 = 1 ∧ (∃ o ∈ s.coll.ops, o.group = g))
    ∧ (∃ (s : State) (g : Nat) (x : Group), s.Inv ∧ (tWf groupNone s.coll.groups = true ∧ g < 4096)
      ∧ (x = s.group g) ∧ x.st = 1 ∧ x.created + 1000000 * s.fld Reg.COLL_TO 41 32 ≤ s.now)
    ∧ (∃ (s : State) (p : Arrived) (g : Nat) (x : Group) (w m : Nat), s.Inv
      ∧ (tWf groupNone s.coll.groups = true ∧ g < 4096) ∧ (x = s.group g) ∧ g = caGroup p.arg
      ∧ w = fieldAt p.payload 0 8 ∧ m = bits w 46 32 ∧ x.st = 0)
    ∧ (∃ (s : State) (p : Arrived) (g : Nat) (x : Group) (w m : Nat) (ok : _), s.Inv
      ∧ (tWf groupNone s.coll.groups = true ∧ g < 4096) ∧ (x = s.group g)
      ∧ (g = caGroup p.arg ∧ w = fieldAt p.payload 0 8 ∧ m = bits w 46 32 ∧ x.st = 1 ∧ x.self = 0 ∧ m ≠ 0
        ∧ x.members[m]? = some p.src ∧ (∀ j ∈ x.joins, j.1 ≠ m)) ∧ x.members.length ≤ x.joins.length + 2
      ∧ (ok = decide (∀ j ∈ x.joins ++ [(m, bits w 31 0)], j.2 = x.digest)) ∧ (ok = true))
    ∧ (∃ (s : State) (p : Arrived) (g : Nat) (x : Group) (w m : Nat) (ok : _), s.Inv
      ∧ (tWf groupNone s.coll.groups = true ∧ g < 4096) ∧ (x = s.group g)
      ∧ (g = caGroup p.arg ∧ w = fieldAt p.payload 0 8 ∧ m = bits w 46 32 ∧ x.st = 1 ∧ x.self = 0 ∧ m ≠ 0
        ∧ x.members[m]? = some p.src ∧ (∀ j ∈ x.joins, j.1 ≠ m)) ∧ x.members.length ≤ x.joins.length + 2
      ∧ (ok = decide (∀ j ∈ x.joins ++ [(m, bits w 31 0)], j.2 = x.digest)) ∧ (ok = false))
    ∧ (∃ (s : State) (p : Arrived) (g : Nat) (x : Group) (w m : Nat), s.Inv
      ∧ (tWf groupNone s.coll.groups = true ∧ g < 4096) ∧ (x = s.group g) ∧ g = caGroup p.arg
      ∧ w = fieldAt p.payload 0 8 ∧ m = bits w 46 32 ∧ x.st = 1 ∧ x.members[0]? = some p.src ∧ bits w 0 0 = 1)
    ∧ (∃ (s u : State) (v : W64) (g : Nat) (x : Group) (e : List Byte) (ms ids : List Nat), s.Inv
      ∧ (tWf groupNone s.coll.groups = true ∧ g < 4096) ∧ (x = s.group g)
      ∧ (s.Accepts Reg.COLL_CREATE v ∧ g = bits v.toNat 11 0 ∧ bits v.toNat 16 16 = 1 ∧ bits v.toNat 17 17 = 0
        ∧ x.st = 0 ∧ s.poison = [] ∧ s.readFailed = [] ∧ e = s.rd (s.grpAddr g) 64) ∧ ms = s.grpMembers e
      ∧ grpEntryOk e = true ∧ s.membersOk ms = true ∧ grpLL e = false ∧ s.coll.aborted = []
      ∧ State.takeStaging (chunkClass (grpLog2 e)) (grpCtx e) (grpSlots e) []
      (((s.setFld Reg.COLL_GSTAT 11 0 g).memCount 0 64).memCount 0 (4 * grpCount e)) = (some ids, u)
      ∧ ms.idxOf s.node = 0)
    ∧ (∃ (s u : State) (v : W64) (g : Nat) (x : Group) (e : List Byte) (ms ids : List Nat), s.Inv
      ∧ (tWf groupNone s.coll.groups = true ∧ g < 4096) ∧ (x = s.group g)
      ∧ (s.Accepts Reg.COLL_CREATE v ∧ g = bits v.toNat 11 0 ∧ bits v.toNat 16 16 = 1 ∧ bits v.toNat 17 17 = 0
        ∧ x.st = 0 ∧ s.poison = [] ∧ s.readFailed = [] ∧ e = s.rd (s.grpAddr g) 64) ∧ ms = s.grpMembers e
      ∧ grpEntryOk e = true ∧ s.membersOk ms = true ∧ grpLL e = false ∧ s.coll.aborted = []
      ∧ State.takeStaging (chunkClass (grpLog2 e)) (grpCtx e) (grpSlots e) []
      (((s.setFld Reg.COLL_GSTAT 11 0 g).memCount 0 64).memCount 0 (4 * grpCount e)) = (some ids, u)
      ∧ ms.idxOf s.node ≠ 0) :=
  ⟨⟨gr id (cS []), pk43_0, 1, (gr id (cS [])).group 1, 0x100000005, 1, inv_of (by decide +kernel),
     (by decide +kernel), (rfl), (by decide +kernel), by decide +kernel⟩,
   ⟨st43_1, pk43_2, 1, group43_3, 0, 0, inv_of (by decide +kernel), (by decide +kernel), (rfl),
     (by decide +kernel), by decide +kernel⟩,
   ⟨cS [], 0x30001#64, 1, (cS []).group 1, inv_of (by decide +kernel), (by decide +kernel), (rfl),
     by decide +kernel⟩,
   ⟨gr id (cS []), 65537#64, 1, (gr id (cS [])).group 1, inv_of (by decide +kernel), (by decide +kernel), (rfl),
     by unfold State.Accepts; decide +kernel⟩,
   ⟨cS [], st43_4, 65537#64, 1, (cS []).group 1, gE 0x80000 3 9 0 12 4, [0, 16, 24], inv_of (by decide +kernel),
     (by decide +kernel), (rfl), (by unfold State.Accepts; decide +kernel), by decide +kernel⟩,
   ⟨cS [] (gE 0x80000 1 9 0 12 4), 65537#64, 1, (cS [] (gE 0x80000 1 9 0 12 4)).group 1, gE 0x80000 1 9 0 12 4,
     [0], inv_of (by decide +kernel), (by decide +kernel), (rfl), (by unfold State.Accepts; decide +kernel),
     by decide +kernel⟩,
   ⟨gr id (cS []), 0x20001#64, 1, (gr id (cS [])).group 1, inv_of (by decide +kernel), (by decide +kernel),
     (rfl), by unfold State.Accepts; decide +kernel⟩,
   ⟨st43_5, 0x20001#64, 1, group43_6, inv_of (by decide +kernel), (by decide +kernel), (rfl),
     by unfold State.Accepts; decide +kernel⟩,
   ⟨st43_7, 1, group43_8, inv_of (by decide +kernel), (by decide +kernel), (rfl), by decide +kernel⟩,
   ⟨cS [], pk43_0, 1, (cS []).group 1, 0x100000005, 1, inv_of (by decide +kernel), (by decide +kernel), (rfl),
     by decide +kernel⟩,
   ⟨st43_9, pk43_0, 1, group43_10, 0x100000005, 1,
     decide (∀ j ∈ (group43_10).joins ++ [((1), bits (0x100000005) 31 0)], j.2 = (group43_10).digest),
     inv_of (by decide +kernel), (by decide +kernel), (rfl), (by decide +kernel), (by decide +kernel), (rfl),
     (rfl)⟩,
   ⟨st43_11, pk43_0, 1, group43_12, 0x100000005, 1,
     decide (∀ j ∈ (group43_12).joins ++ [((1), bits (0x100000005) 31 0)], j.2 = (group43_12).digest),
     inv_of (by decide +kernel), (by decide +kernel), (rfl), (by decide +kernel), (by decide +kernel), (rfl),
     (rfl)⟩,
   ⟨st43_1, pk43_13, 1, group43_3, 1, 0, inv_of (by decide +kernel), (by decide +kernel), (rfl),
     by decide +kernel⟩,
   ⟨st43_14, st43_15, 65537#64, 1, group43_16, gE 0x80000 3 9 0 12 4, [0, 16, 24], listna43_17,
     inv_of (by decide +kernel), (by decide +kernel), (rfl), (by unfold State.Accepts; decide +kernel),
     by decide +kernel⟩,
   ⟨st43_18, st43_19, 65537#64, 1, group43_20, gE 0x80000 3 9 0 12 4, [16, 0, 24], listna43_21,
     inv_of (by decide +kernel), (by decide +kernel), (rfl), (by unfold State.Accepts; decide +kernel),
     by decide +kernel⟩⟩

def st44_0 : State :=
  (let s := gr (fun x => { x with st := 2, staging := [4, 5, 6, 7] })
    (cS [(Reg.COLL_HEAD, 0)]); { s with
      coll := { s.coll with
        ops := [{
            group := 1, seq := 3, ring := 0, addr := 0x200000,
            desc := desc 1 4 0 1 0xFF 0xFF 0 0x300000 0x310000 4096, active := true }] } })

def group44_1 : Group :=
  st44_0.group 1

def collop44_2 : CollOp :=
  { group := 1, seq := 3, ring := 0, addr := 0x200000, desc := desc 1 4 0 1 0xFF 0xFF 0 0x300000 0x310000 4096,
    active := true }

def st44_3 : State :=
  (let s := gr (fun x => { x with st := 2, staging := [4, 5, 6, 7] })
    (cS [(Reg.COLL_HEAD, 0)]); { s with
      coll := { s.coll with
        ops := [{
            group := 1, seq := 3, ring := 0, addr := 0x200000,
            desc := desc 1 6 0 0 0xFF 0xFF 0 0x300000 0x310000 8, active := false }] } })

def group44_4 : Group :=
  st44_3.group 1

def collop44_5 : CollOp :=
  { group := 1, seq := 3, ring := 0, addr := 0x200000, desc := desc 1 6 0 0 0xFF 0xFF 0 0x300000 0x310000 8,
    active := false }

def st44_6 : State :=
  (let s := gr (fun x => { x with st := 2 })
    (cS [(Reg.COLL_HEAD, 0)]); { s with
      mem := tSetRun byteZero 0x200000 (desc 1 1 0 0 0xFF 0xFF 0 0x300000 0x310000 8) s.mem })

def group44_7 : Group :=
  st44_6.group 1

def listby44_8 : List Byte :=
  desc 1 1 0 0 0xFF 0xFF 0 0x300000 0x310000 8

def st44_9 : State :=
  (let s := gr (fun x => { x with st := 1 })
    (cS [(Reg.COLL_HEAD, 0)]); { s with mem := tSetRun byteZero 0x200000 listby44_8 s.mem })

def group44_10 : Group :=
  st44_9.group 1

def st44_11 : State :=
  (let s := gr (fun x => { x with st := 2 })
    (cS [(Reg.COLL_HEAD, 0)]); { s with
      mem := tSetRun byteZero 0x200000 (desc 1 9 0 0 0xFF 5 0 0x300000 0x310000 8) s.mem })

def group44_12 : Group :=
  st44_11.group 1

def listby44_13 : List Byte :=
  desc 1 9 0 0 0xFF 5 0 0x300000 0x310000 8

def st44_14 : State :=
  (let s := gr (fun x => { x with st := 2, staging := [4, 5, 6, 7] })
    (cS [(Reg.COLL_HEAD, 0)]); { s with
      coll := { s.coll with
        ops := [{
            group := 1, seq := 3, ring := 0, addr := 0x200000, desc := desc 1 1 0 0 4 0xFF 5 0x300000 0x310000 8,
            active := false }] } })

def group44_15 : Group :=
  st44_14.group 1

def collop44_16 : CollOp :=
  { group := 1, seq := 3, ring := 0, addr := 0x200000, desc := desc 1 1 0 0 4 0xFF 5 0x300000 0x310000 8,
    active := false }

def st44_17 : State :=
  (let s := gr (fun x => { x with st := 2, staging := [4, 5, 6, 7] })
    (cS [(Reg.COLL_HEAD, 0)]); { s with
      coll := { s.coll with
        ops := [{
            group := 1, seq := 3, ring := 0, addr := 0x200000,
            desc := desc 1 4 0 1 0xFF 0xFF 0 0x300000 0x310000 4096, active := false }] } })

def group44_18 : Group :=
  st44_17.group 1

def collop44_19 : CollOp :=
  { group := 1, seq := 3, ring := 0, addr := 0x200000, desc := desc 1 4 0 1 0xFF 0xFF 0 0x300000 0x310000 4096,
    active := false }

def st44_20 : State :=
  (let s := gr (fun x => { x with st := 2, staging := [4, 5, 6, 7] })
    (cS [(Reg.COLL_HEAD, 0)]); { s with
      coll := { s.coll with pulls := [⟨1, 3, 9, 0, 1⟩], ops := [collop44_19] } })

def group44_21 : Group :=
  st44_20.group 1

def st44_22 : State :=
  (let s := gr (fun x => { x with st := 2, staging := [4, 5, 6, 7] })
    (cS [(Reg.COLL_HEAD, 0)]); { s with
      coll := { s.coll with
        ops := [{
            group := 1, seq := 3, ring := 0, addr := 0x200000,
            desc := desc 1 6 0 0 0xFF 0xFF 0 0x300000 0x310000 8, active := true, step := 16, count := 3,
            part := [1#8, 2#8] }] } })

def group44_23 : Group :=
  st44_22.group 1

def collop44_24 : CollOp :=
  { group := 1, seq := 3, ring := 0, addr := 0x200000, desc := desc 1 6 0 0 0xFF 0xFF 0 0x300000 0x310000 8,
    active := true, step := 16, count := 3, part := [1#8, 2#8] }

def st44_25 : State :=
  (let s := gr (fun x => { x with st := 2, staging := [4, 5, 6, 7] })
    (cS [(Reg.COLL_HEAD, 0)]); { s with
      coll := { s.coll with
        ops := [{
            group := 1, seq := 3, ring := 0, addr := 0x200000,
            desc := desc 1 6 0 0 0xFF 0xFF 0 0x300000 0x310000 8, active := true, step := 16, count := 2,
            part := [1#8, 2#8] }] } })

def group44_26 : Group :=
  st44_25.group 1

def collop44_27 : CollOp :=
  { group := 1, seq := 3, ring := 0, addr := 0x200000, desc := desc 1 6 0 0 0xFF 0xFF 0 0x300000 0x310000 8,
    active := true, step := 16, count := 2, part := [1#8, 2#8] }

def st44_28 : State :=
  (let s := gr (fun x => { x with st := 2, staging := [4, 5, 6, 7] })
    (cS [(Reg.COLL_HEAD, 0)]); { s with
      coll := { s.coll with
        ops := [{
            group := 1, seq := 3, ring := 0, addr := 0x200000,
            desc := desc 1 4 0 1 0xFF 0xFF 0 0x300000 0x310000 4096, active := true, finished := 1 }] } })

def group44_29 : Group :=
  st44_28.group 1

def collop44_30 : CollOp :=
  { group := 1, seq := 3, ring := 0, addr := 0x200000, desc := desc 1 4 0 1 0xFF 0xFF 0 0x300000 0x310000 4096,
    active := true, finished := 1 }

def st44_31 : State :=
  gr (fun x => { x with nextSeq := 5 }) (cS [])

def group44_32 : Group :=
  st44_31.group 1

/-- States and operands that meet the hypotheses of each clause of `Obligations.DescriptorsStartAndEnd`. -/
theorem witness_DescriptorsStartAndEnd :
    (∃ (s : State) (v : W64) (p : Arrived) (g seq st tl : Nat) (x : Group) (o : CollOp), s.Inv
      ∧ (tWf groupNone s.coll.groups = true ∧ g < 4096) ∧ (x = s.group g)
      ∧ (g = caGroup p.arg ∧ seq = caSeq p.arg ∧ x.st ≠ 0 ∧ p.src ∈ x.members ∧ s.coll.ops = [o] ∧ o.group = g
        ∧ o.seq = seq ∧ o.addr + 64 ≤ memSpace)
      ∧ (s.coll.ringDone = [] ∧ s.fld Reg.COLL_HEAD 31 0 = o.ring ∧ cdOp o.desc ≠ 6 ∧ s.allChunks o = false
        ∧ o.active = true ∧ s.Accepts Reg.COLL_TAIL v ∧ tl = s.coll.tail ∧ tl < 2 ^ 32)
      ∧ (s.fld Reg.COLL_RING 4 0 = 0 ∨ bits v.toNat 31 0 = tl)
      ∧ ((∀ q ∈ s.coll.ops, q.group = g → q.active = true) ∨ x.st ≠ 2
        ∨ 4 ≤ (s.coll.ops.filter fun q => q.group == g && q.active).length
        ∨ s.ctxResident (grpCtx x.entry) = false))
    ∧ (∃ (s : State) (g seq st : Nat) (x : Group) (o : CollOp), s.Inv
      ∧ (tWf groupNone s.coll.groups = true ∧ g < 4096) ∧ (x = s.group g)
      ∧ (s.coll.ops = [o] ∧ o.group = g ∧ o.seq = seq ∧ o.active = false ∧ x.st = 2
        ∧ s.ctxResident (grpCtx x.entry) = true ∧ s.poison = [] ∧ s.readFailed = [])
      ∧ (cdTrig o.desc = 0xFF ∨ cdTrigValue o.desc ≤ s.regNat (Reg.MSEM_SEM (cdTrig o.desc)))
      ∧ (∀ y ∈ s.coll.pulls, y.group = g → y.seq = seq → s.servesPull o y = true) ∧ cdOp o.desc = 6
      ∧ (∀ k ∈ [1, 2, 3, 4, 15], s.llPeers k = []) ∧ s.coll.ringDone = [] ∧ s.fld Reg.COLL_HEAD 31 0 = o.ring
      ∧ o.addr + 64 ≤ memSpace ∧ o.step ≠ 16)
    ∧ (∃ (s : State) (v : W64) (g seq a st tl : Nat) (x : Group) (d : List Byte), s.Inv
      ∧ (tWf groupNone s.coll.groups = true ∧ g < 4096) ∧ (x = s.group g)
      ∧ (s.Accepts Reg.COLL_TAIL v ∧ tl = s.coll.tail ∧ tl < 2 ^ 32 ∧ 0 < s.fld Reg.COLL_RING 4 0
        ∧ bits v.toNat 31 0 = (tl + 1) % 2 ^ 32 ∧ s.poison = [] ∧ s.readFailed = [] ∧ s.coll.aborted = [])
      ∧ (a = s.fld Reg.COLL_RING 51 12 * 4096 + tl % 2 ^ s.fld Reg.COLL_RING 4 0 * 64 ∧ a + 64 ≤ memSpace)
      ∧ (d = s.rd a 64) ∧ g = cdGroup d ∧ st = s.cdStatus d ∧ st = 0
      ∧ (∀ q ∈ s.coll.ops, q.group ≠ g ∨ q.seq ≠ seq))
    ∧ (∃ (s : State) (v : W64) (g a st tl : Nat) (x : Group) (d : List Byte), s.Inv
      ∧ (tWf groupNone s.coll.groups = true ∧ g < 4096) ∧ (x = s.group g)
      ∧ (s.Accepts Reg.COLL_TAIL v ∧ tl = s.coll.tail ∧ tl < 2 ^ 32 ∧ 0 < s.fld Reg.COLL_RING 4 0
        ∧ bits v.toNat 31 0 = (tl + 1) % 2 ^ 32 ∧ s.poison = [] ∧ s.readFailed = [] ∧ s.coll.aborted = [])
      ∧ (a = s.fld Reg.COLL_RING 51 12 * 4096 + tl % 2 ^ s.fld Reg.COLL_RING 4 0 * 64 ∧ a + 64 ≤ memSpace)
      ∧ (d = s.rd a 64) ∧ g = cdGroup d ∧ st = s.cdStatus d ∧ st ≠ 0 ∧ s.coll.ringDone = []
      ∧ s.fld Reg.COLL_HEAD 31 0 = tl ∧ st ≠ 6)
    ∧ (∃ (s : State) (v : W64) (g a st tl : Nat) (x : Group) (d : List Byte), s.Inv
      ∧ (tWf groupNone s.coll.groups = true ∧ g < 4096) ∧ (x = s.group g)
      ∧ (s.Accepts Reg.COLL_TAIL v ∧ tl = s.coll.tail ∧ tl < 2 ^ 32 ∧ 0 < s.fld Reg.COLL_RING 4 0
        ∧ bits v.toNat 31 0 = (tl + 1) % 2 ^ 32 ∧ s.poison = [] ∧ s.readFailed = [] ∧ s.coll.aborted = [])
      ∧ (a = s.fld Reg.COLL_RING 51 12 * 4096 + tl % 2 ^ s.fld Reg.COLL_RING 4 0 * 64 ∧ a + 64 ≤ memSpace)
      ∧ (d = s.rd a 64) ∧ g = cdGroup d ∧ st = s.cdStatus d ∧ st ≠ 0 ∧ s.coll.ringDone = []
      ∧ s.fld Reg.COLL_HEAD 31 0 = tl ∧ st = 6)
    ∧ (∃ (s : State) (g seq st : Nat) (x : Group) (o : CollOp), s.Inv
      ∧ (tWf groupNone s.coll.groups = true ∧ g < 4096) ∧ (x = s.group g)
      ∧ (s.coll.ops = [o] ∧ o.group = g ∧ o.seq = seq ∧ o.active = false ∧ x.st = 2
        ∧ s.ctxResident (grpCtx x.entry) = true ∧ s.poison = [] ∧ s.readFailed = [])
      ∧ (cdTrig o.desc ≠ 0xFF ∧ s.regNat (Reg.MSEM_SEM (cdTrig o.desc)) < cdTrigValue o.desc))
    ∧ (∃ (s : State) (g seq st : Nat) (x : Group) (o : CollOp), s.Inv
      ∧ (tWf groupNone s.coll.groups = true ∧ g < 4096) ∧ (x = s.group g)
      ∧ (s.coll.ops = [o] ∧ o.group = g ∧ o.seq = seq ∧ o.active = false ∧ x.st = 2
        ∧ s.ctxResident (grpCtx x.entry) = true ∧ s.poison = [] ∧ s.readFailed = [])
      ∧ ((cdTrig o.desc = 0xFF ∨ cdTrigValue o.desc ≤ s.regNat (Reg.MSEM_SEM (cdTrig o.desc)))
        ∧ (∀ y ∈ s.coll.pulls, y.group = g → y.seq = seq → s.servesPull o y = true) ∧ cdOp o.desc = 4
        ∧ chunkCount x.entry o.desc = 1 ∧ o.work = [] ∧ o.begun = 0 ∧ x.used = [] ∧ 4 ≤ x.staging.length)
      ∧ (s.tree g o.desc 0).1 ≠ 0)
    ∧ (∃ (s : State) (g seq st : Nat) (x : Group) (o : CollOp) (y : _), s.Inv
      ∧ (tWf groupNone s.coll.groups = true ∧ g < 4096) ∧ (x = s.group g)
      ∧ (s.coll.ops = [o] ∧ o.group = g ∧ o.seq = seq ∧ o.active = false ∧ x.st = 2
        ∧ s.ctxResident (grpCtx x.entry) = true ∧ s.poison = [] ∧ s.readFailed = [])
      ∧ (cdTrig o.desc = 0xFF ∨ cdTrigValue o.desc ≤ s.regNat (Reg.MSEM_SEM (cdTrig o.desc)))
      ∧ (s.coll.pulls.find? fun y => y.group == g && y.seq == seq && !s.servesPull o y) = some y)
    ∧ (∃ (s : State) (g seq : Nat) (x : Group) (o : CollOp), s.Inv
      ∧ (tWf groupNone s.coll.groups = true ∧ g < 4096) ∧ (x = s.group g)
      ∧ (s.coll.ops = [o] ∧ o.group = g ∧ o.seq = seq ∧ s.coll.ringDone = []
        ∧ s.fld Reg.COLL_HEAD 31 0 = o.ring ∧ o.addr + 64 ≤ memSpace ∧ cdOp o.desc = 6 ∧ o.step = 16)
      ∧ cdOut o.desc + o.part.length ≤ memSpace ∧ o.count = grpCount x.entry - o.deadBefore)
    ∧ (∃ (s : State) (g seq : Nat) (x : Group) (o : CollOp), s.Inv
      ∧ (tWf groupNone s.coll.groups = true ∧ g < 4096) ∧ (x = s.group g)
      ∧ (s.coll.ops = [o] ∧ o.group = g ∧ o.seq = seq ∧ s.coll.ringDone = []
        ∧ s.fld Reg.COLL_HEAD 31 0 = o.ring ∧ o.addr + 64 ≤ memSpace ∧ cdOp o.desc = 6 ∧ o.step = 16)
      ∧ cdOut o.desc + o.part.length ≤ memSpace ∧ o.count ≠ grpCount x.entry - o.deadBefore)
    ∧ (∃ (s : State) (g seq : Nat) (x : Group) (o : CollOp), s.Inv
      ∧ (tWf groupNone s.coll.groups = true ∧ g < 4096) ∧ (x = s.group g)
      ∧ (s.coll.ops = [o] ∧ o.group = g ∧ o.seq = seq ∧ s.coll.ringDone = []
        ∧ s.fld Reg.COLL_HEAD 31 0 = o.ring ∧ o.addr + 64 ≤ memSpace ∧ cdOp o.desc ≠ 6 ∧ o.active = true)
      ∧ o.work = [] ∧ o.finished = chunkCount x.entry o.desc ∧ seq < 2 ^ 64)
    ∧ (∃ (s : State) (p : Arrived) (g seq st : Nat) (x : Group), s.Inv
      ∧ (tWf groupNone s.coll.groups = true ∧ g < 4096) ∧ (x = s.group g) ∧ g = caGroup p.arg
      ∧ seq = caSeq p.arg ∧ x.st = 0)
    ∧ (∃ (s : State) (p : Arrived) (g seq st : Nat) (x : Group), s.Inv
      ∧ (tWf groupNone s.coll.groups = true ∧ g < 4096) ∧ (x = s.group g) ∧ g = caGroup p.arg
      ∧ seq = caSeq p.arg ∧ x.st ≠ 0 ∧ p.src ∉ x.members)
    ∧ (∃ (s : State) (p : Arrived) (g seq st : Nat) (x : Group), s.Inv
      ∧ (tWf groupNone s.coll.groups = true ∧ g < 4096) ∧ (x = s.group g) ∧ g = caGroup p.arg
      ∧ seq = caSeq p.arg ∧ x.st ≠ 0 ∧ p.src ∈ x.members ∧ (∀ q ∈ s.coll.ops, q.group ≠ g ∨ q.seq ≠ seq)
      ∧ (∀ y ∈ s.coll.aborted, y.1 ≠ g ∨ y.2.1 ≠ seq) ∧ seqAhead x.nextSeq seq = true)
    ∧ (∃ (s : State) (p : Arrived) (g seq st : Nat) (x : Group), s.Inv
      ∧ (tWf groupNone s.coll.groups = true ∧ g < 4096) ∧ (x = s.group g) ∧ g = caGroup p.arg
      ∧ seq = caSeq p.arg ∧ x.st ≠ 0 ∧ p.src ∈ x.members ∧ (∀ q ∈ s.coll.ops, q.group ≠ g ∨ q.seq ≠ seq)
      ∧ (∀ y ∈ s.coll.aborted, y.1 ≠ g ∨ y.2.1 ≠ seq) ∧ seqAhead x.nextSeq seq = false) :=
  ⟨⟨st44_0, 0#64, arr 16 1 3 0 0 0 (leBytes 8 9), 1, 3, 0, 0, group44_1, collop44_2, inv_of (by decide +kernel),
     (by decide +kernel), (rfl), (by decide +kernel), (by unfold State.Accepts; decide +kernel),
     by decide +kernel⟩,
   ⟨st44_3, 1, 3, 0, group44_4, collop44_5, inv_of (by decide +kernel), (by decide +kernel), (rfl),
     (by decide +kernel), by decide +kernel⟩,
   ⟨st44_6, 1#64, 1, 0, 0x200000, 0, 0, group44_7, listby44_8, inv_of (by decide +kernel), (by decide +kernel),
     (rfl), (by unfold State.Accepts; decide +kernel), (by decide +kernel), (rfl), by decide +kernel⟩,
   ⟨st44_9, 1#64, 1, 0x200000, 7, 0, group44_10, listby44_8, inv_of (by decide +kernel), (by decide +kernel),
     (rfl), (by unfold State.Accepts; decide +kernel), (by decide +kernel), (rfl), by decide +kernel⟩,
   ⟨st44_11, 1#64, 1, 0x200000, 6, 0, group44_12, listby44_13, inv_of (by decide +kernel), (by decide +kernel),
     (rfl), (by unfold State.Accepts; decide +kernel), (by decide +kernel), (rfl), by decide +kernel⟩,
   ⟨st44_14, 1, 3, 0, group44_15, collop44_16, inv_of (by decide +kernel), (by decide +kernel), (rfl),
     (by decide +kernel), by decide +kernel⟩,
   ⟨st44_17, 1, 3, 0, group44_18, collop44_19, inv_of (by decide +kernel), (by decide +kernel), (rfl),
     (by decide +kernel), (by decide +kernel), by decide +kernel⟩,
   ⟨st44_20, 1, 3, 0, group44_21, collop44_19,
     (((st44_20).coll.pulls.find? fun y => y.group == (1) && y.seq == (3)
         && !(st44_20).servesPull (collop44_19) y)).getD ⟨1, 3, 9, 0, 1⟩, inv_of (by decide +kernel),
     (by decide +kernel), (rfl), (by decide +kernel), by decide +kernel⟩,
   ⟨st44_22, 1, 3, group44_23, collop44_24, inv_of (by decide +kernel), (by decide +kernel), (rfl),
     (by decide +kernel), by decide +kernel⟩,
   ⟨st44_25, 1, 3, group44_26, collop44_27, inv_of (by decide +kernel), (by decide +kernel), (rfl),
     (by decide +kernel), by decide +kernel⟩,
   ⟨st44_28, 1, 3, group44_29, collop44_30, inv_of (by decide +kernel), (by decide +kernel), (rfl),
     (by decide +kernel), by decide +kernel⟩,
   ⟨cS [], arr 16 1 3 0 0 0 (leBytes 8 9), 1, 3, 0, (cS []).group 1, inv_of (by decide +kernel),
     (by decide +kernel), (rfl), by decide +kernel⟩,
   ⟨gr id (cS []), arr 99 1 3 0 0 0 (leBytes 8 9), 1, 3, 0, (gr id (cS [])).group 1, inv_of (by decide +kernel),
     (by decide +kernel), (rfl), by decide +kernel⟩,
   ⟨gr id (cS []), arr 16 1 3 0 0 0 (leBytes 8 9), 1, 3, 0, (gr id (cS [])).group 1, inv_of (by decide +kernel),
     (by decide +kernel), (rfl), by decide +kernel⟩,
   ⟨st44_31, arr 16 1 3 0 0 0 (leBytes 8 9), 1, 3, 0, group44_32, inv_of (by decide +kernel),
     (by decide +kernel), (rfl), by decide +kernel⟩⟩

def st45_0 : State :=
  (let s := gr (fun x => { x with st := 2, staging := [4, 5, 6, 7], nextSeq := 4, used := [0, 1] })
    (cS [(Reg.COLL_HEAD, 0)]); { s with
      coll := { s.coll with
        ops := [{
            group := 1, seq := 3, ring := 0, addr := 0x200000,
            desc := desc 1 1 0 0 0xFF 0xFF 0 0x300000 0x310000 8, active := true,
            work := [{
                index := 0, stage := .gather, slot := some 0,
                pull := some { peer := 1, slot := 1, phase := 0, packets := [0] } }], begun := 1 }], pulls := [],
        llr := [] } })

def group45_1 : Group :=
  st45_0.group (caGroup (arr 16 1 3 0 0 0 (leBytes 8 0)).arg)

def collop45_2 : CollOp :=
  { group := 1, seq := 3, ring := 0, addr := 0x200000, desc := desc 1 1 0 0 0xFF 0xFF 0 0x300000 0x310000 8,
    active := true,
    work := [{
        index := 0, stage := .gather, slot := some 0,
        pull := some { peer := 1, slot := 1, phase := 0, packets := [0] } }], begun := 1 }

def chunk45_3 : Chunk :=
  { index := 0, stage := .gather, slot := some 0,
    pull := some { peer := 1, slot := 1, phase := 0, packets := [0] } }

def pullou45_4 : PullOut :=
  { peer := 1, slot := 1, phase := 0, packets := [0] }

def listby45_5 : List Byte :=
  st45_0.slotRead 1 1 (chunkLen (st45_0.group 1).entry (desc 1 1 0 0 0xFF 0xFF 0 0x300000 0x310000 8) 0)

def st45_6 : State :=
  (let s := gr (fun x => { x with st := 2, staging := [4, 5, 6, 7], nextSeq := 4, used := [0, 1] })
    (cS [(Reg.COLL_HEAD, 0)]); { s with coll := { s.coll with ops := [], pulls := [], llr := [] } })

def group45_7 : Group :=
  st45_6.group (caGroup (arr 16 1 3 0 0 0 (leBytes 8 1)).arg)

def st45_8 : State :=
  (let s := gr (fun x => { x with
        st := 2, self := 1, members := [16, 0, 24], staging := [4, 5, 6, 7], nextSeq := 4, used := [0] })
    (cS [(Reg.COLL_HEAD, 0)]); { s with
      coll := { s.coll with
        ops := [{
            group := 1, seq := 3, ring := 0, addr := 0x200000,
            desc := desc 1 1 0 0 0xFF 0xFF 0 0x300000 0x310000 8, active := true,
            work := [{ index := 0, stage := .up, slot := some 0, pull := none }], begun := 1 }], pulls := [],
        llr := [] } })

def group45_9 : Group :=
  st45_8.group (caGroup (arr 16 1 3 0 0 0 (leBytes 8 0)).arg)

def collop45_10 : CollOp :=
  { group := 1, seq := 3, ring := 0, addr := 0x200000, desc := desc 1 1 0 0 0xFF 0xFF 0 0x300000 0x310000 8,
    active := true, work := [{ index := 0, stage := .up, slot := some 0, pull := none }], begun := 1 }

def chunk45_11 : Chunk :=
  { index := 0, stage := .up, slot := some 0, pull := none }

def listby45_12 : List Byte :=
  st45_8.slotRead 1 0 (chunkLen (st45_8.group 1).entry (desc 1 1 0 0 0xFF 0xFF 0 0x300000 0x310000 8) 0)

def st45_13 : State :=
  (let s := gr (fun x => { x with st := 2, staging := [4, 5, 6, 7], nextSeq := 4, used := [0, 1] })
    (cS [(Reg.COLL_HEAD, 0)]); { s with
      coll := { s.coll with
        ops := [{
            group := 1, seq := 3, ring := 0, addr := 0x200000,
            desc := desc 1 1 0 0 0xFF 0xFF 0 0x300000 0x310000 8, active := true,
            work := [{
                index := 0, stage := .gather, slot := some 0,
                pull := some { peer := 1, slot := 1, phase := 0, retry := true } }], begun := 1 }], pulls := [],
        llr := [] } })

def group45_14 : Group :=
  st45_13.group (caGroup (arr 16 1 3 0 0 0 (leBytes 8 0)).arg)

def collop45_15 : CollOp :=
  { group := 1, seq := 3, ring := 0, addr := 0x200000, desc := desc 1 1 0 0 0xFF 0xFF 0 0x300000 0x310000 8,
    active := true,
    work := [{
        index := 0, stage := .gather, slot := some 0,
        pull := some { peer := 1, slot := 1, phase := 0, retry := true } }], begun := 1 }

def chunk45_16 : Chunk :=
  { index := 0, stage := .gather, slot := some 0,
    pull := some { peer := 1, slot := 1, phase := 0, retry := true } }

def pullou45_17 : PullOut :=
  { peer := 1, slot := 1, phase := 0, retry := true }

def pk45_18 : Arrived :=
  (⟨1, 9, 0, 0, w (6 + 15 * 2 ^ 4 + 1 * 2 ^ 9 + 3 * 2 ^ 21 + 1 * 2 ^ 37), leBytes 8 7⟩ : Arrived)

def group45_19 : Group :=
  (cS []).group (caGroup pk45_18.arg)

def llrin45_20 : LlrIn :=
  (let p : Arrived := pk45_18; (⟨bits p.arg.toNat 20 9, bits p.arg.toNat 36 21, bits p.arg.toNat 7 4, p.src,
        bits p.arg.toNat 52 37, p.payload⟩ : LlrIn))

def group45_21 : Group :=
  st45_6.group (caGroup (arr 16 1 7 0 0 0 (leBytes 8 1)).arg)

def st45_22 : State :=
  (let s := gr (fun x => { x with st := 2, staging := [4, 5, 6, 7], nextSeq := 4, used := [0, 1] })
    (cS [(Reg.COLL_HEAD, 0)]); { s with
      coll := { s.coll with ops := [], pulls := List.replicate 8192 ⟨2, 3, 0, 0, 0⟩, llr := [] } })

def group45_23 : Group :=
  st45_22.group (caGroup (arr 16 1 7 0 0 0 (leBytes 8 1)).arg)

def st45_24 : State :=
  (let s := gr (fun x => { x with
        st := 2, self := 1, members := [16, 0, 24], staging := [4, 5, 6, 7], nextSeq := 4, used := [0] })
    (cS [(Reg.COLL_HEAD, 0)]); { s with coll := { s.coll with ops := [collop45_10], pulls := [], llr := [] } })

def group45_25 : Group :=
  st45_8.group (caGroup (arr 24 1 3 0 0 0 (leBytes 8 2)).arg)

def collop45_26 : CollOp :=
  { group := 1, seq := 3, ring := 0, addr := 0x200000, desc := desc 1 1 0 0 0xFF 0xFF 0 0x300000 0x310000 8,
    active := true, work := [chunk45_11], begun := 1 }

def st45_27 : State :=
  (let s := gr (fun x => { x with st := 2, staging := [4, 5, 6, 7], nextSeq := 4, used := [0, 1] })
    (cS [(Reg.COLL_HEAD, 0)]); { s with
      coll := { s.coll with
        ops := [{
            group := 1, seq := 3, ring := 0, addr := 0x200000,
            desc := desc 1 1 0 0 0xFF 0xFF 0 0x300000 0x310000 8, active := true,
            work := [{ index := 0, stage := .down, slot := some 0, pull := none }], begun := 1 }], pulls := [],
        llr := [] } })

def group45_28 : Group :=
  st45_27.group (caGroup (arr 16 1 3 0 0 1 (leBytes 8 1)).arg)

def collop45_29 : CollOp :=
  { group := 1, seq := 3, ring := 0, addr := 0x200000, desc := desc 1 1 0 0 0xFF 0xFF 0 0x300000 0x310000 8,
    active := true, work := [{ index := 0, stage := .down, slot := some 0, pull := none }], begun := 1 }

def chunk45_30 : Chunk :=
  { index := 0, stage := .down, slot := some 0, pull := none }

def st45_31 : State :=
  { st45_8 with poison := [0] }

def group45_32 : Group :=
  ({ st45_8 with poison := [0] }).group (caGroup (arr 16 1 3 0 0 0 (leBytes 8 0)).arg)

def listby45_33 : List Byte :=
  ({ st45_8 with poison := [0] }).slotRead 1 0 (chunkLen (({ st45_8 with poison := [0] }).group 1).entry (desc 1 1 0 0 0xFF 0xFF 0 0x300000 0x310000 8) 0)

def st45_34 : State :=
  (let s := gr (fun x => { x with st := 2, staging := [4, 5, 6, 7], nextSeq := 4, used := [0, 1] })
    (cS [(Reg.COLL_HEAD, 0)]); { s with
      coll := { s.coll with
        ops := [{
            group := 1, seq := 3, ring := 0, addr := 0x200000,
            desc := desc 1 1 0 0 0xFF 0xFF 0 0x300000 0x310000 8, active := true,
            work := [{
                index := 0, stage := .gather, slot := some 0,
                pull := some { peer := 1, slot := 1, phase := 0, bytes := 4 } }], begun := 1 }], pulls := [],
        llr := [] } })

def pk45_35 : Arrived :=
  arr 16 1 3 0 0 0 (leBytes 8 (chunkCrcOf 1 3 0 1 0 (leBytes 8 0) + 8 * 2 ^ 32 + 1 * 2 ^ 53))

def group45_36 : Group :=
  st45_34.group (caGroup pk45_35.arg)

def collop45_37 : CollOp :=
  { group := 1, seq := 3, ring := 0, addr := 0x200000, desc := desc 1 1 0 0 0xFF 0xFF 0 0x300000 0x310000 8,
    active := true,
    work := [{
        index := 0, stage := .gather, slot := some 0,
        pull := some { peer := 1, slot := 1, phase := 0, bytes := 4 } }], begun := 1 }

def chunk45_38 : Chunk :=
  { index := 0, stage := .gather, slot := some 0, pull := some { peer := 1, slot := 1, phase := 0, bytes := 4 } }

def pullou45_39 : PullOut :=
  { peer := 1, slot := 1, phase := 0, bytes := 4 }

def listby45_40 : List Byte :=
  st45_34.slotRead 1 1 (chunkLen (st45_34.group 1).entry (desc 1 1 0 0 0xFF 0xFF 0 0x300000 0x310000 8) 0)

def st45_41 : State :=
  (let s := gr (fun x => { x with st := 2, staging := [4, 5, 6, 7], nextSeq := 4, used := [0, 1] })
    (cS [(Reg.COLL_HEAD, 0)]); { s with
      coll := { s.coll with
        ops := [{
            group := 1, seq := 3, ring := 0, addr := 0x200000,
            desc := desc 1 1 0 0 0xFF 0xFF 0 0x300000 0x310000 8, active := true,
            work := [{
                index := 0, stage := .gather, slot := some 0,
                pull := some { peer := 1, slot := 1, phase := 0, bytes := 8 } }], begun := 1 }], pulls := [],
        llr := [] } })

def group45_42 : Group :=
  st45_41.group (caGroup pk45_35.arg)

def collop45_43 : CollOp :=
  { group := 1, seq := 3, ring := 0, addr := 0x200000, desc := desc 1 1 0 0 0xFF 0xFF 0 0x300000 0x310000 8,
    active := true,
    work := [{
        index := 0, stage := .gather, slot := some 0,
        pull := some { peer := 1, slot := 1, phase := 0, bytes := 8 } }], begun := 1 }

def chunk45_44 : Chunk :=
  { index := 0, stage := .gather, slot := some 0, pull := some { peer := 1, slot := 1, phase := 0, bytes := 8 } }

def pullou45_45 : PullOut :=
  { peer := 1, slot := 1, phase := 0, bytes := 8 }

def listby45_46 : List Byte :=
  st45_41.slotRead 1 1 (chunkLen (st45_41.group 1).entry (desc 1 1 0 0 0xFF 0xFF 0 0x300000 0x310000 8) 0)

def listby45_47 : List Byte :=
  reduceVec (cdType (desc 1 1 0 0 0xFF 0xFF 0 0x300000 0x310000 8))
  (cdRed (desc 1 1 0 0 0xFF 0xFF 0 0x300000 0x310000 8)) (st45_41.slotRead 1 0 8) (st45_41.slotRead 1 1 8)

def st45_48 : State :=
  (let s := gr (fun x => { x with st := 2, staging := [4, 5, 6, 7], nextSeq := 4, used := [0, 1] })
    (cS [(Reg.COLL_HEAD, 0)]); { s with
      coll := { s.coll with
        ops := [{
            group := 1, seq := 3, ring := 0, addr := 0x200000,
            desc := desc 1 1 0 0 0xFF 0xFF 0 0x300000 0x310000 8, active := true,
            work := [{
                index := 0, stage := .gather, slot := some 0,
                pull := some { peer := 1, slot := 1, phase := 0, bytes := 8, fails := 1 } }], begun := 1 }],
        pulls := [], llr := [] } })

def pk45_49 : Arrived :=
  arr 16 1 3 0 0 0 (leBytes 8 (5 + 8 * 2 ^ 32 + 1 * 2 ^ 53))

def group45_50 : Group :=
  st45_48.group (caGroup pk45_49.arg)

def collop45_51 : CollOp :=
  { group := 1, seq := 3, ring := 0, addr := 0x200000, desc := desc 1 1 0 0 0xFF 0xFF 0 0x300000 0x310000 8,
    active := true,
    work := [{
        index := 0, stage := .gather, slot := some 0,
        pull := some { peer := 1, slot := 1, phase := 0, bytes := 8, fails := 1 } }], begun := 1 }

def chunk45_52 : Chunk :=
  { index := 0, stage := .gather, slot := some 0,
    pull := some { peer := 1, slot := 1, phase := 0, bytes := 8, fails := 1 } }

def pullou45_53 : PullOut :=
  { peer := 1, slot := 1, phase := 0, bytes := 8, fails := 1 }

def listby45_54 : List Byte :=
  st45_48.slotRead 1 1 (chunkLen (st45_48.group 1).entry (desc 1 1 0 0 0xFF 0xFF 0 0x300000 0x310000 8) 0)

def st45_55 : State :=
  (let s := gr (fun x => { x with st := 2, staging := [4, 5, 6, 7], nextSeq := 4, used := [0, 1] })
    (cS [(Reg.COLL_HEAD, 0)]); { s with
      coll := { s.coll with
        ops := [{
            group := 1, seq := 3, ring := 0, addr := 0x200000,
            desc := desc 1 1 0 0 0xFF 0xFF 0 0x300000 0x310000 8, active := true,
            work := [{
                index := 0, stage := .gather, slot := some 0,
                pull := some { peer := 1, slot := 1, phase := 0, bytes := 8, fails := 2 } }], begun := 1 }],
        pulls := [], llr := [] } })

def group45_56 : Group :=
  st45_55.group (caGroup pk45_49.arg)

def collop45_57 : CollOp :=
  { group := 1, seq := 3, ring := 0, addr := 0x200000, desc := desc 1 1 0 0 0xFF 0xFF 0 0x300000 0x310000 8,
    active := true,
    work := [{
        index := 0, stage := .gather, slot := some 0,
        pull := some { peer := 1, slot := 1, phase := 0, bytes := 8, fails := 2 } }], begun := 1 }

def chunk45_58 : Chunk :=
  { index := 0, stage := .gather, slot := some 0,
    pull := some { peer := 1, slot := 1, phase := 0, bytes := 8, fails := 2 } }

def pullou45_59 : PullOut :=
  { peer := 1, slot := 1, phase := 0, bytes := 8, fails := 2 }

def listby45_60 : List Byte :=
  st45_55.slotRead 1 1 (chunkLen (st45_55.group 1).entry (desc 1 1 0 0 0xFF 0xFF 0 0x300000 0x310000 8) 0)

def st45_61 : State :=
  (let s := gr (fun x => { x with st := 2, staging := [4, 5, 6, 7], nextSeq := 4, used := [0, 1] })
    (cS [(Reg.COLL_HEAD, 0)]); { s with
      coll := { s.coll with
        ops := [{
            group := 1, seq := 3, ring := 0, addr := 0x200000,
            desc := desc 1 4 0 1 0xFF 0xFF 0 0x300000 0x310000 8, active := true,
            work := [{
                index := 0, stage := .await, slot := none,
                pull := some { peer := 1, slot := 1, phase := 1, bytes := 8 } }], begun := 1 }], pulls := [],
        llr := [] } })

def pk45_62 : Arrived :=
  arr 16 1 3 0 0 1 (leBytes 8 (chunkCrcOf 1 3 0 1 1 (leBytes 8 0) + 8 * 2 ^ 32 + 4 * 2 ^ 53))

def group45_63 : Group :=
  st45_61.group (caGroup pk45_62.arg)

def collop45_64 : CollOp :=
  { group := 1, seq := 3, ring := 0, addr := 0x200000, desc := desc 1 4 0 1 0xFF 0xFF 0 0x300000 0x310000 8,
    active := true,
    work := [{
        index := 0, stage := .await, slot := none,
        pull := some { peer := 1, slot := 1, phase := 1, bytes := 8 } }], begun := 1 }

def chunk45_65 : Chunk :=
  { index := 0, stage := .await, slot := none, pull := some { peer := 1, slot := 1, phase := 1, bytes := 8 } }

def pullou45_66 : PullOut :=
  { peer := 1, slot := 1, phase := 1, bytes := 8 }

def listby45_67 : List Byte :=
  st45_61.slotRead 1 1 (chunkLen (st45_61.group 1).entry (desc 1 4 0 1 0xFF 0xFF 0 0x300000 0x310000 8) 0)

def st45_68 : State :=
  { st45_41 with poison := [0] }

def group45_69 : Group :=
  ({ st45_41 with poison := [0] }).group (caGroup pk45_35.arg)

def collop45_70 : CollOp :=
  { group := 1, seq := 3, ring := 0, addr := 0x200000, desc := desc 1 1 0 0 0xFF 0xFF 0 0x300000 0x310000 8,
    active := true, work := [chunk45_44], begun := 1 }

def chunk45_71 : Chunk :=
  { index := 0, stage := .gather, slot := some 0, pull := some pullou45_45 }

def listby45_72 : List Byte :=
  ({ st45_41 with poison := [0] }).slotRead 1 1 (chunkLen (({ st45_41 with poison := [0] }).group 1).entry (desc 1 1 0 0 0xFF 0xFF 0 0x300000 0x310000 8) 0)

def st45_73 : State :=
  (let s := gr (fun x => { x with
        st := 2, self := 1, members := [16, 0, 24], staging := [4, 5, 6, 7], nextSeq := 4, used := [0] })
    (cS [(Reg.COLL_HEAD, 0)]); { s with
      coll := { s.coll with
        ops := [{
            group := 1, seq := 3, ring := 0, addr := 0x200000,
            desc := desc 1 2 0 0 0xFF 0xFF 0 0x300000 0x310000 8, active := true, work := [chunk45_11],
            begun := 1 }], pulls := [], llr := [] } })

def group45_74 : Group :=
  st45_73.group (caGroup (arr 16 1 3 0 0 0 (leBytes 8 0)).arg)

def collop45_75 : CollOp :=
  { group := 1, seq := 3, ring := 0, addr := 0x200000, desc := desc 1 2 0 0 0xFF 0xFF 0 0x300000 0x310000 8,
    active := true, work := [chunk45_11], begun := 1 }

def st45_76 : State :=
  (let s := gr (fun x => { x with st := 2, staging := [4, 5, 6, 7], nextSeq := 4, used := [0, 1] })
    (cS [(Reg.COLL_HEAD, 0)]); { s with
      coll := { s.coll with
        ops := [{
            group := 1, seq := 3, ring := 0, addr := 0x200000,
            desc := desc 1 1 0 0 0xFF 0xFF 0 0x300000 0x310000 8, active := true,
            work := [{ index := 0, stage := .down, slot := some 0, pull := none, acks := [2] }], begun := 1 }],
        pulls := [], llr := [] } })

def group45_77 : Group :=
  st45_76.group (caGroup (arr 16 1 3 0 0 1 (leBytes 8 1)).arg)

def collop45_78 : CollOp :=
  { group := 1, seq := 3, ring := 0, addr := 0x200000, desc := desc 1 1 0 0 0xFF 0xFF 0 0x300000 0x310000 8,
    active := true, work := [{ index := 0, stage := .down, slot := some 0, pull := none, acks := [2] }],
    begun := 1 }

def chunk45_79 : Chunk :=
  { index := 0, stage := .down, slot := some 0, pull := none, acks := [2] }

def st45_80 : State :=
  (let s := gr (fun x => { x with st := 2, staging := [4, 5, 6, 7], nextSeq := 4, used := [0, 1] })
    (cS [(Reg.COLL_HEAD, 0)]); { s with
      coll := { s.coll with ops := [], pulls := [], llr := [⟨1, 3, 15, 1, 1, leBytes 8 0⟩] } })

def group45_81 : Group :=
  st45_80.group (caGroup pk45_18.arg)

def group45_82 : Group :=
  st45_6.group (caGroup pk45_18.arg)

def pk45_83 : Arrived :=
  (⟨1, 9, 0, 0, w (6 + 15 * 2 ^ 4 + 1 * 2 ^ 9 + 9 * 2 ^ 21 + 1 * 2 ^ 37), leBytes 8 7⟩ : Arrived)

def group45_84 : Group :=
  st45_6.group (caGroup pk45_83.arg)

def llrin45_85 : LlrIn :=
  (let p : Arrived := pk45_83; (⟨bits p.arg.toNat 20 9, bits p.arg.toNat 36 21, bits p.arg.toNat 7 4, p.src,
        bits p.arg.toNat 52 37, p.payload⟩ : LlrIn))

def st45_86 : State :=
  (let s := gr (fun x => { x with st := 2, staging := [4, 5, 6, 7], nextSeq := 4, used := [0, 1] })
    (cS [(Reg.COLL_HEAD, 0), (Reg.EBS_CFG, 0x20), (Reg.PKG_SLICES, 3)]); { s with
      coll := { s.coll with
        ops := [{
            group := 1, seq := 3, ring := 0, addr := 0x200000,
            desc := desc 1 6 0 0 0xFF 0xFF 0 0x300000 0x310000 8, active := true, work := [], begun := 1,
            step := 16, part := leBytes 8 5, count := 1 }], pulls := [], llr := [] } })

def group45_87 : Group :=
  st45_86.group (caGroup pk45_18.arg)

def collop45_88 : CollOp :=
  { group := 1, seq := 3, ring := 0, addr := 0x200000, desc := desc 1 6 0 0 0xFF 0xFF 0 0x300000 0x310000 8,
    active := true, work := [], begun := 1, step := 16, part := leBytes 8 5, count := 1 }

def st45_89 : State :=
  (let s := gr (fun x => { x with st := 2, staging := [4, 5, 6, 7], nextSeq := 4, used := [0, 1] })
    (cS [(Reg.COLL_HEAD, 0), (Reg.EBS_CFG, 0x20), (Reg.PKG_SLICES, 3)]); { s with
      coll := { s.coll with
        ops := [{
            group := 1, seq := 3, ring := 0, addr := 0x200000,
            desc := desc 1 6 0 0 0xFF 0xFF 0 0x300000 0x310000 8, active := true, work := [], begun := 1,
            step := 15, part := leBytes 8 5, count := 1 }], pulls := [], llr := [] } })

def group45_90 : Group :=
  st45_89.group (caGroup pk45_18.arg)

def collop45_91 : CollOp :=
  { group := 1, seq := 3, ring := 0, addr := 0x200000, desc := desc 1 6 0 0 0xFF 0xFF 0 0x300000 0x310000 8,
    active := true, work := [], begun := 1, step := 15, part := leBytes 8 5, count := 1 }

/-- States and operands that meet the hypotheses of each clause of `Obligations.ChunksMoveByPull`. -/
theorem witness_ChunksMoveByPull :
    (∃ (s : State) (p : Arrived) (g seq c m n ph w : Nat) (x : Group) (o : CollOp) (k : Chunk) (q : PullOut)
      (d : List Byte) (r : _), s.Inv
      ∧ (tWf groupNone s.coll.groups = true ∧ g = caGroup p.arg ∧ seq = caSeq p.arg ∧ c = caChunk p.arg
        ∧ ph = caPhase p.arg) ∧ (x = s.group g)
      ∧ (w = fieldAt p.payload 0 8 ∧ m = bits w 14 0 ∧ x.st ≠ 0 ∧ s.coll.ops = [o] ∧ o.group = g ∧ o.seq = seq
        ∧ o.work = [k] ∧ k.index = c) ∧ k.pull = some q ∧ (r = bits p.arg.toNat 60 53)
      ∧ (q.phase = ph ∧ x.members[q.peer]? = some p.src ∧ n = chunkLen x.entry o.desc c)
      ∧ (d = s.slotRead g q.slot n) ∧ (bits w 55 53 ≠ cdOp o.desc ∨ bits w 52 32 ≠ n)
      ∧ (r ∈ q.packets ∨ 2 ^ grpLog2 x.entry < r * 4096 + p.payload.length)
      ∧ (q.retry = false ∨ s.ctxResident (grpCtx x.entry) = false)
      ∧ (¬(if ph = 0 then k.stage = .up ∧ (s.tree g o.desc c).2.2 = m else k.stage = .down
          ∧ m ∈ (s.tree g o.desc c).2.1) ∨ x.members[m]? ≠ some p.src)
      ∧ (x.st = 3 ∨ x.st = 4 ∨ x.members[m]? ≠ some p.src))
    ∧ (∃ (s : State) (p : Arrived) (g seq c m ph w : Nat) (x : Group), s.Inv
      ∧ (tWf groupNone s.coll.groups = true ∧ g = caGroup p.arg ∧ seq = caSeq p.arg ∧ c = caChunk p.arg
        ∧ ph = caPhase p.arg) ∧ (x = s.group g) ∧ w = fieldAt p.payload 0 8 ∧ m = bits w 14 0
      ∧ (x.st = 1 ∨ x.st = 2) ∧ x.members[m]? = some p.src ∧ (∀ y ∈ s.coll.ops, y.group ≠ g ∨ y.seq ≠ seq)
      ∧ x.st = 2 ∧ seqAhead x.nextSeq seq = false ∧ x.st ≠ 0)
    ∧ (∃ (s : State) (p : Arrived) (g seq c m n ph w : Nat) (x : Group) (o : CollOp) (k : Chunk) (d : List Byte),
      s.Inv
      ∧ (tWf groupNone s.coll.groups = true ∧ g = caGroup p.arg ∧ seq = caSeq p.arg ∧ c = caChunk p.arg
        ∧ ph = caPhase p.arg) ∧ (x = s.group g)
      ∧ (w = fieldAt p.payload 0 8 ∧ m = bits w 14 0 ∧ (x.st = 1 ∨ x.st = 2) ∧ x.members[m]? = some p.src
        ∧ s.coll.ops = [o] ∧ o.group = g ∧ o.seq = seq ∧ o.active = true)
      ∧ (s.servesPull o ⟨g, seq, c, ph, m⟩ = true ∧ o.work = [k] ∧ k.index = c
        ∧ (if ph = 0 then k.stage = .up else k.stage = .down) ∧ s.ctxResident (grpCtx x.entry) = true
        ∧ n = chunkLen x.entry o.desc c ∧ 0 < n ∧ n ≤ 4096) ∧ (d = s.slotRead g (k.slot.getD 0) n)
      ∧ (s.SlotsRead g k.slot.toList n) ∧ x.st ≠ 0 ∧ o.begun = chunkCount x.entry o.desc ∧ ph = 0
      ∧ k.stage = .up ∧ (s.tree g o.desc c).2.2 = m ∧ cdDown o.desc = true)
    ∧ (∃ (s : State) (p : Arrived) (g seq c m ph w : Nat) (x : Group) (o : CollOp) (k : Chunk) (q : PullOut)
      (r : _), s.Inv
      ∧ (tWf groupNone s.coll.groups = true ∧ g = caGroup p.arg ∧ seq = caSeq p.arg ∧ c = caChunk p.arg
        ∧ ph = caPhase p.arg) ∧ (x = s.group g)
      ∧ (w = fieldAt p.payload 0 8 ∧ m = bits w 14 0 ∧ x.st ≠ 0 ∧ s.coll.ops = [o] ∧ o.group = g ∧ o.seq = seq
        ∧ o.work = [k] ∧ k.index = c) ∧ k.pull = some q ∧ (r = bits p.arg.toNat 60 53) ∧ q.phase = ph
      ∧ x.members[q.peer]? = some p.src ∧ r ∉ q.packets ∧ r * 4096 + p.payload.length ≤ 2 ^ grpLog2 x.entry
      ∧ q.endSeen = none ∧ q.retry = true ∧ s.ctxResident (grpCtx x.entry) = true)
    ∧ (∃ (s : State) (p : Arrived) (g seq c m ph w : Nat) (x : Group) (z : LlrIn), s.Inv
      ∧ (tWf groupNone s.coll.groups = true ∧ g = caGroup p.arg ∧ seq = caSeq p.arg ∧ c = caChunk p.arg
        ∧ ph = caPhase p.arg) ∧ (x = s.group g) ∧ (w = fieldAt p.payload 0 8 ∧ m = bits w 14 0)
      ∧ (z = ⟨bits p.arg.toNat 20 9, bits p.arg.toNat 36 21, bits p.arg.toNat 7 4, p.src, bits p.arg.toNat 52 37,
          p.payload⟩) ∧ (s.group z.group).st = 0 ∧ x.st = 0)
    ∧ (∃ (s : State) (p : Arrived) (g seq c m ph w : Nat) (x : Group), s.Inv
      ∧ (tWf groupNone s.coll.groups = true ∧ g = caGroup p.arg ∧ seq = caSeq p.arg ∧ c = caChunk p.arg
        ∧ ph = caPhase p.arg) ∧ (x = s.group g) ∧ w = fieldAt p.payload 0 8 ∧ m = bits w 14 0
      ∧ (x.st = 1 ∨ x.st = 2) ∧ x.members[m]? = some p.src ∧ (∀ y ∈ s.coll.ops, y.group ≠ g ∨ y.seq ≠ seq)
      ∧ (x.st = 1 ∨ seqAhead x.nextSeq seq = true) ∧ s.coll.pulls.length < 8192)
    ∧ (∃ (s : State) (p : Arrived) (g seq c m ph w : Nat) (x : Group), s.Inv
      ∧ (tWf groupNone s.coll.groups = true ∧ g = caGroup p.arg ∧ seq = caSeq p.arg ∧ c = caChunk p.arg
        ∧ ph = caPhase p.arg) ∧ (x = s.group g) ∧ w = fieldAt p.payload 0 8 ∧ m = bits w 14 0
      ∧ (x.st = 1 ∨ x.st = 2) ∧ x.members[m]? = some p.src ∧ (∀ y ∈ s.coll.ops, y.group ≠ g ∨ y.seq ≠ seq)
      ∧ (x.st = 1 ∨ seqAhead x.nextSeq seq = true) ∧ 8192 ≤ s.coll.pulls.length)
    ∧ (∃ (s : State) (p : Arrived) (g seq c m ph w : Nat) (x : Group) (o : CollOp), s.Inv
      ∧ (tWf groupNone s.coll.groups = true ∧ g = caGroup p.arg ∧ seq = caSeq p.arg ∧ c = caChunk p.arg
        ∧ ph = caPhase p.arg) ∧ (x = s.group g)
      ∧ (w = fieldAt p.payload 0 8 ∧ m = bits w 14 0 ∧ (x.st = 1 ∨ x.st = 2) ∧ x.members[m]? = some p.src
        ∧ s.coll.ops = [o] ∧ o.group = g ∧ o.seq = seq ∧ o.active = true)
      ∧ s.servesPull o ⟨g, seq, c, ph, m⟩ = false)
    ∧ (∃ (s : State) (p : Arrived) (g seq c m ph w : Nat) (x : Group) (o : CollOp) (k : Chunk), s.Inv
      ∧ (tWf groupNone s.coll.groups = true ∧ g = caGroup p.arg ∧ seq = caSeq p.arg ∧ c = caChunk p.arg
        ∧ ph = caPhase p.arg) ∧ (x = s.group g)
      ∧ (w = fieldAt p.payload 0 8 ∧ m = bits w 14 0 ∧ x.st ≠ 0 ∧ s.coll.ops = [o] ∧ o.group = g ∧ o.seq = seq
        ∧ o.work = [k] ∧ k.index = c) ∧ x.members[m]? = some p.src ∧ o.begun = chunkCount x.entry o.desc
      ∧ ph = 1 ∧ k.stage = .down ∧ m ∈ (s.tree g o.desc c).2.1 ∧ k.pull = none
      ∧ (∃ y ∈ (s.tree g o.desc c).2.1, y ≠ m ∧ y ∉ k.acks))
    ∧ (∃ (s : State) (p : Arrived) (g seq c m n ph w : Nat) (x : Group) (o : CollOp) (k : Chunk) (d : List Byte),
      s.Inv
      ∧ (tWf groupNone s.coll.groups = true ∧ g = caGroup p.arg ∧ seq = caSeq p.arg ∧ c = caChunk p.arg
        ∧ ph = caPhase p.arg) ∧ (x = s.group g)
      ∧ (w = fieldAt p.payload 0 8 ∧ m = bits w 14 0 ∧ (x.st = 1 ∨ x.st = 2) ∧ x.members[m]? = some p.src
        ∧ s.coll.ops = [o] ∧ o.group = g ∧ o.seq = seq ∧ o.active = true)
      ∧ (s.servesPull o ⟨g, seq, c, ph, m⟩ = true ∧ o.work = [k] ∧ k.index = c
        ∧ (if ph = 0 then k.stage = .up else k.stage = .down) ∧ s.ctxResident (grpCtx x.entry) = true
        ∧ n = chunkLen x.entry o.desc c ∧ 0 < n ∧ n ≤ 4096) ∧ (d = s.slotRead g (k.slot.getD 0) n)
      ∧ (¬s.SlotsRead g k.slot.toList n))
    ∧ (∃ (s : State) (p : Arrived) (g seq c m n ph w : Nat) (x : Group) (o : CollOp) (k : Chunk) (q : PullOut)
      (d : List Byte) (r : _), s.Inv
      ∧ (tWf groupNone s.coll.groups = true ∧ g = caGroup p.arg ∧ seq = caSeq p.arg ∧ c = caChunk p.arg
        ∧ ph = caPhase p.arg) ∧ (x = s.group g)
      ∧ (w = fieldAt p.payload 0 8 ∧ m = bits w 14 0 ∧ x.st ≠ 0 ∧ s.coll.ops = [o] ∧ o.group = g ∧ o.seq = seq
        ∧ o.work = [k] ∧ k.index = c) ∧ k.pull = some q ∧ (r = bits p.arg.toNat 60 53)
      ∧ (q.phase = ph ∧ x.members[q.peer]? = some p.src ∧ n = chunkLen x.entry o.desc c)
      ∧ (d = s.slotRead g q.slot n) ∧ bits w 55 53 = cdOp o.desc ∧ bits w 52 32 = n ∧ q.bytes < n)
    ∧ (∃ (s : State) (p : Arrived) (g seq c m n ph w : Nat) (x : Group) (o : CollOp) (k : Chunk) (q : PullOut)
      (d acc : List Byte) (r : _) (b : _), s.Inv
      ∧ (tWf groupNone s.coll.groups = true ∧ g = caGroup p.arg ∧ seq = caSeq p.arg ∧ c = caChunk p.arg
        ∧ ph = caPhase p.arg) ∧ (x = s.group g)
      ∧ (w = fieldAt p.payload 0 8 ∧ m = bits w 14 0 ∧ x.st ≠ 0 ∧ s.coll.ops = [o] ∧ o.group = g ∧ o.seq = seq
        ∧ o.work = [k] ∧ k.index = c) ∧ k.pull = some q ∧ (r = bits p.arg.toNat 60 53)
      ∧ (q.phase = ph ∧ x.members[q.peer]? = some p.src ∧ n = chunkLen x.entry o.desc c)
      ∧ (d = s.slotRead g q.slot n) ∧ (bits w 55 53 = cdOp o.desc ∧ bits w 52 32 = n ∧ n ≤ q.bytes)
      ∧ (s.SlotsRead g (q.slot :: k.slot.toList) n)
      ∧ (chunkCrcOf g seq c q.peer ph d = bits w 31 0 ∧ o.begun = chunkCount x.entry o.desc ∧ k.slot = some b
        ∧ k.stage = .gather ∧ k.added + 1 < (s.tree g o.desc c).2.1.length)
      ∧ (acc = reduceVec (cdType o.desc) (cdRed o.desc) (s.slotRead g b n) d))
    ∧ (∃ (s : State) (p : Arrived) (g seq c m n ph w : Nat) (x : Group) (o : CollOp) (k : Chunk) (q : PullOut)
      (d : List Byte) (r : _), s.Inv
      ∧ (tWf groupNone s.coll.groups = true ∧ g = caGroup p.arg ∧ seq = caSeq p.arg ∧ c = caChunk p.arg
        ∧ ph = caPhase p.arg) ∧ (x = s.group g)
      ∧ (w = fieldAt p.payload 0 8 ∧ m = bits w 14 0 ∧ x.st ≠ 0 ∧ s.coll.ops = [o] ∧ o.group = g ∧ o.seq = seq
        ∧ o.work = [k] ∧ k.index = c) ∧ k.pull = some q ∧ (r = bits p.arg.toNat 60 53)
      ∧ (q.phase = ph ∧ x.members[q.peer]? = some p.src ∧ n = chunkLen x.entry o.desc c)
      ∧ (d = s.slotRead g q.slot n) ∧ (bits w 55 53 = cdOp o.desc ∧ bits w 52 32 = n ∧ n ≤ q.bytes)
      ∧ (s.SlotsRead g (q.slot :: k.slot.toList) n) ∧ chunkCrcOf g seq c q.peer ph d ≠ bits w 31 0 ∧ q.fails < 2)
    ∧ (∃ (s : State) (p : Arrived) (g seq c m n ph w : Nat) (x : Group) (o : CollOp) (k : Chunk) (q : PullOut)
      (d : List Byte) (r : _), s.Inv
      ∧ (tWf groupNone s.coll.groups = true ∧ g = caGroup p.arg ∧ seq = caSeq p.arg ∧ c = caChunk p.arg
        ∧ ph = caPhase p.arg) ∧ (x = s.group g)
      ∧ (w = fieldAt p.payload 0 8 ∧ m = bits w 14 0 ∧ x.st ≠ 0 ∧ s.coll.ops = [o] ∧ o.group = g ∧ o.seq = seq
        ∧ o.work = [k] ∧ k.index = c) ∧ k.pull = some q ∧ (r = bits p.arg.toNat 60 53)
      ∧ (q.phase = ph ∧ x.members[q.peer]? = some p.src ∧ n = chunkLen x.entry o.desc c)
      ∧ (d = s.slotRead g q.slot n) ∧ (bits w 55 53 = cdOp o.desc ∧ bits w 52 32 = n ∧ n ≤ q.bytes)
      ∧ (s.SlotsRead g (q.slot :: k.slot.toList) n) ∧ chunkCrcOf g seq c q.peer ph d ≠ bits w 31 0 ∧ 2 ≤ q.fails)
    ∧ (∃ (s : State) (p : Arrived) (g seq c m n ph w a : Nat) (x : Group) (o : CollOp) (k : Chunk) (q : PullOut)
      (d : List Byte) (r : _), s.Inv
      ∧ (tWf groupNone s.coll.groups = true ∧ g = caGroup p.arg ∧ seq = caSeq p.arg ∧ c = caChunk p.arg
        ∧ ph = caPhase p.arg) ∧ (x = s.group g)
      ∧ (w = fieldAt p.payload 0 8 ∧ m = bits w 14 0 ∧ x.st ≠ 0 ∧ s.coll.ops = [o] ∧ o.group = g ∧ o.seq = seq
        ∧ o.work = [k] ∧ k.index = c) ∧ k.pull = some q ∧ (r = bits p.arg.toNat 60 53)
      ∧ (q.phase = ph ∧ x.members[q.peer]? = some p.src ∧ n = chunkLen x.entry o.desc c)
      ∧ (d = s.slotRead g q.slot n) ∧ (bits w 55 53 = cdOp o.desc ∧ bits w 52 32 = n ∧ n ≤ q.bytes)
      ∧ (s.SlotsRead g (q.slot :: k.slot.toList) n)
      ∧ (chunkCrcOf g seq c q.peer ph d = bits w 31 0 ∧ o.begun = chunkCount x.entry o.desc ∧ k.slot = none
        ∧ cdOp o.desc ≠ 5 ∧ cdType o.desc ≠ 3 ∧ (s.tree g o.desc c).1 ≠ 0 ∧ (s.tree g o.desc c).2.1 = []
        ∧ a = cdOut o.desc + c * inChunk x.entry o.desc) ∧ 0 < n ∧ a + n ≤ memSpace)
    ∧ (∃ (s : State) (p : Arrived) (g seq c m n ph w : Nat) (x : Group) (o : CollOp) (k : Chunk) (q : PullOut)
      (d : List Byte) (r : _), s.Inv
      ∧ (tWf groupNone s.coll.groups = true ∧ g = caGroup p.arg ∧ seq = caSeq p.arg ∧ c = caChunk p.arg
        ∧ ph = caPhase p.arg) ∧ (x = s.group g)
      ∧ (w = fieldAt p.payload 0 8 ∧ m = bits w 14 0 ∧ x.st ≠ 0 ∧ s.coll.ops = [o] ∧ o.group = g ∧ o.seq = seq
        ∧ o.work = [k] ∧ k.index = c) ∧ k.pull = some q ∧ (r = bits p.arg.toNat 60 53)
      ∧ (q.phase = ph ∧ x.members[q.peer]? = some p.src ∧ n = chunkLen x.entry o.desc c)
      ∧ (d = s.slotRead g q.slot n) ∧ (bits w 55 53 = cdOp o.desc ∧ bits w 52 32 = n ∧ n ≤ q.bytes)
      ∧ (¬s.SlotsRead g (q.slot :: k.slot.toList) n))
    ∧ (∃ (s : State) (p : Arrived) (g seq c m ph w : Nat) (x : Group) (o : CollOp) (k : Chunk), s.Inv
      ∧ (tWf groupNone s.coll.groups = true ∧ g = caGroup p.arg ∧ seq = caSeq p.arg ∧ c = caChunk p.arg
        ∧ ph = caPhase p.arg) ∧ (x = s.group g)
      ∧ (w = fieldAt p.payload 0 8 ∧ m = bits w 14 0 ∧ x.st ≠ 0 ∧ s.coll.ops = [o] ∧ o.group = g ∧ o.seq = seq
        ∧ o.work = [k] ∧ k.index = c) ∧ x.members[m]? = some p.src ∧ o.begun = chunkCount x.entry o.desc
      ∧ ph = 0 ∧ k.stage = .up ∧ (s.tree g o.desc c).2.2 = m ∧ cdDown o.desc = false)
    ∧ (∃ (s : State) (p : Arrived) (g seq c m ph w : Nat) (x : Group) (o : CollOp) (k : Chunk), s.Inv
      ∧ (tWf groupNone s.coll.groups = true ∧ g = caGroup p.arg ∧ seq = caSeq p.arg ∧ c = caChunk p.arg
        ∧ ph = caPhase p.arg) ∧ (x = s.group g)
      ∧ (w = fieldAt p.payload 0 8 ∧ m = bits w 14 0 ∧ x.st ≠ 0 ∧ s.coll.ops = [o] ∧ o.group = g ∧ o.seq = seq
        ∧ o.work = [k] ∧ k.index = c) ∧ x.members[m]? = some p.src ∧ o.begun = chunkCount x.entry o.desc
      ∧ ph = 1 ∧ k.stage = .down ∧ m ∈ (s.tree g o.desc c).2.1 ∧ k.pull = none
      ∧ (∀ y ∈ (s.tree g o.desc c).2.1, y = m ∨ y ∈ k.acks))
    ∧ (∃ (s : State) (p : Arrived) (g seq c m ph w : Nat) (x : Group) (z : LlrIn), s.Inv
      ∧ (tWf groupNone s.coll.groups = true ∧ g = caGroup p.arg ∧ seq = caSeq p.arg ∧ c = caChunk p.arg
        ∧ ph = caPhase p.arg) ∧ (x = s.group g) ∧ (w = fieldAt p.payload 0 8 ∧ m = bits w 14 0)
      ∧ (z = ⟨bits p.arg.toNat 20 9, bits p.arg.toNat 36 21, bits p.arg.toNat 7 4, p.src, bits p.arg.toNat 52 37,
          p.payload⟩) ∧ (s.group z.group).st ≠ 0
      ∧ (∃ y ∈ s.coll.llr, y.group = z.group ∧ y.seq = z.seq ∧ y.step = z.step ∧ y.node = z.node))
    ∧ (∃ (s : State) (p : Arrived) (g seq c m ph w : Nat) (x : Group) (z : LlrIn), s.Inv
      ∧ (tWf groupNone s.coll.groups = true ∧ g = caGroup p.arg ∧ seq = caSeq p.arg ∧ c = caChunk p.arg
        ∧ ph = caPhase p.arg) ∧ (x = s.group g) ∧ (w = fieldAt p.payload 0 8 ∧ m = bits w 14 0)
      ∧ (z = ⟨bits p.arg.toNat 20 9, bits p.arg.toNat 36 21, bits p.arg.toNat 7 4, p.src, bits p.arg.toNat 52 37,
          p.payload⟩) ∧ (s.group z.group).st ≠ 0 ∧ s.coll.llr = [] ∧ s.coll.ops = []
      ∧ seqAhead (s.group z.group).nextSeq z.seq = false)
    ∧ (∃ (s : State) (p : Arrived) (g seq c m ph w : Nat) (x : Group) (z : LlrIn), s.Inv
      ∧ (tWf groupNone s.coll.groups = true ∧ g = caGroup p.arg ∧ seq = caSeq p.arg ∧ c = caChunk p.arg
        ∧ ph = caPhase p.arg) ∧ (x = s.group g) ∧ (w = fieldAt p.payload 0 8 ∧ m = bits w 14 0)
      ∧ (z = ⟨bits p.arg.toNat 20 9, bits p.arg.toNat 36 21, bits p.arg.toNat 7 4, p.src, bits p.arg.toNat 52 37,
          p.payload⟩) ∧ (s.group z.group).st ≠ 0 ∧ s.coll.llr = [] ∧ s.coll.ops = []
      ∧ seqAhead (s.group z.group).nextSeq z.seq = true)
    ∧ (∃ (s : State) (p : Arrived) (g seq c m ph w : Nat) (x : Group) (o : CollOp) (z : LlrIn), s.Inv
      ∧ (tWf groupNone s.coll.groups = true ∧ g = caGroup p.arg ∧ seq = caSeq p.arg ∧ c = caChunk p.arg
        ∧ ph = caPhase p.arg) ∧ (x = s.group g) ∧ (w = fieldAt p.payload 0 8 ∧ m = bits w 14 0)
      ∧ (z = ⟨bits p.arg.toNat 20 9, bits p.arg.toNat 36 21, bits p.arg.toNat 7 4, p.src, bits p.arg.toNat 52 37,
          p.payload⟩) ∧ (s.group z.group).st ≠ 0 ∧ s.coll.llr = [] ∧ s.coll.ops = [o] ∧ o.group = z.group
      ∧ o.seq = z.seq ∧ o.active = true ∧ z.step < o.step)
    ∧ (∃ (s : State) (p : Arrived) (g seq c m ph w : Nat) (x : Group) (o : CollOp) (z : LlrIn), s.Inv
      ∧ (tWf groupNone s.coll.groups = true ∧ g = caGroup p.arg ∧ seq = caSeq p.arg ∧ c = caChunk p.arg
        ∧ ph = caPhase p.arg) ∧ (x = s.group g) ∧ (w = fieldAt p.payload 0 8 ∧ m = bits w 14 0)
      ∧ (z = ⟨bits p.arg.toNat 20 9, bits p.arg.toNat 36 21, bits p.arg.toNat 7 4, p.src, bits p.arg.toNat 52 37,
          p.payload⟩)
      ∧ ((s.group z.group).st ≠ 0 ∧ s.coll.llr = [] ∧ s.coll.ops = [o] ∧ o.group = z.group ∧ o.seq = z.seq
        ∧ o.active = true ∧ z.step = 15 ∧ o.step = 15) ∧ (∃ y, s.llPeers 15 = [(p.src, y)])) :=
  ⟨⟨st45_0, arr 16 1 3 0 0 0 (leBytes 8 0), 1, 3, 0, 0, 8, 0, 0, group45_1, collop45_2, chunk45_3, pullou45_4,
     listby45_5, bits (arr 16 1 3 0 0 0 (leBytes 8 0)).arg.toNat 60 53, inv_of (by decide +kernel),
     (by decide +kernel), (rfl), (by decide +kernel), (by decide +kernel), (rfl), (by decide +kernel), (rfl),
     by decide +kernel⟩,
   ⟨st45_6, arr 16 1 3 0 0 0 (leBytes 8 1), 1, 3, 0, 1, 0, 1, group45_7, inv_of (by decide +kernel),
     (by decide +kernel), (rfl), by decide +kernel⟩,
   ⟨st45_8, arr 16 1 3 0 0 0 (leBytes 8 0), 1, 3, 0, 0, 8, 0, 0, group45_9, collop45_10, chunk45_11, listby45_12,
     inv_of (by decide +kernel), (by decide +kernel), (rfl), (by decide +kernel), (by decide +kernel), (rfl),
     (slots_read (by decide +kernel)), by decide +kernel⟩,
   ⟨st45_13, arr 16 1 3 0 0 0 (leBytes 8 0), 1, 3, 0, 0, 0, 0, group45_14, collop45_15, chunk45_16, pullou45_17,
     bits (arr 16 1 3 0 0 0 (leBytes 8 0)).arg.toNat 60 53, inv_of (by decide +kernel), (by decide +kernel),
     (rfl), (by decide +kernel), (by decide +kernel), (rfl), by decide +kernel⟩,
   ⟨cS [], pk45_18, 758, 1536, 512, 7, 0, 7, group45_19, llrin45_20, inv_of (by decide +kernel),
     (by decide +kernel), (rfl), (by decide +kernel), (rfl), by decide +kernel⟩,
   ⟨st45_6, arr 16 1 7 0 0 0 (leBytes 8 1), 1, 7, 0, 1, 0, 1, group45_21, inv_of (by decide +kernel),
     (by decide +kernel), (rfl), by decide +kernel⟩,
   ⟨st45_22, arr 16 1 7 0 0 0 (leBytes 8 1), 1, 7, 0, 1, 0, 1, group45_23, inv_of (by decide +kernel),
     (by decide +kernel), (rfl), by decide +kernel⟩,
   ⟨st45_24, arr 24 1 3 0 0 0 (leBytes 8 2), 1, 3, 0, 2, 0, 2, group45_25, collop45_26,
     inv_of (by decide +kernel), (by decide +kernel), (rfl), (by decide +kernel), by decide +kernel⟩,
   ⟨st45_27, arr 16 1 3 0 0 1 (leBytes 8 1), 1, 3, 0, 1, 1, 1, group45_28, collop45_29, chunk45_30,
     inv_of (by decide +kernel), (by decide +kernel), (rfl), (by decide +kernel), by decide +kernel⟩,
   ⟨st45_31, arr 16 1 3 0 0 0 (leBytes 8 0), 1, 3, 0, 0, 8, 0, 0, group45_32, collop45_26, chunk45_11,
     listby45_33, inv_of (by decide +kernel), (by decide +kernel), (rfl), (by decide +kernel),
     (by decide +kernel), (rfl), (slots_bad (by decide +kernel))⟩,
   ⟨st45_34, pk45_35, 1, 3, 0, 25239, 8, 0, 0x2000085601e297, group45_36, collop45_37, chunk45_38, pullou45_39,
     listby45_40, bits (pk45_35).arg.toNat 60 53, inv_of (by decide +kernel), (by decide +kernel), (rfl),
     (by decide +kernel), (by decide +kernel), (rfl), (by decide +kernel), (rfl), by decide +kernel⟩,
   ⟨st45_41, pk45_35, 1, 3, 0, 25239, 8, 0, 0x2000085601e297, group45_42, collop45_43, chunk45_44, pullou45_45,
     listby45_46, listby45_47, bits (pk45_35).arg.toNat 60 53, ((chunk45_44).slot).getD 0,
     inv_of (by decide +kernel), (by decide +kernel), (rfl), (by decide +kernel), (by decide +kernel), (rfl),
     (by decide +kernel), (rfl), (by decide +kernel), (slots_read (by decide +kernel)), (by decide +kernel),
     (rfl)⟩,
   ⟨st45_48, pk45_49, 1, 3, 0, 5, 8, 0, 0x20000800000005, group45_50, collop45_51, chunk45_52, pullou45_53,
     listby45_54, bits (pk45_49).arg.toNat 60 53, inv_of (by decide +kernel), (by decide +kernel), (rfl),
     (by decide +kernel), (by decide +kernel), (rfl), (by decide +kernel), (rfl), (by decide +kernel),
     (slots_read (by decide +kernel)), by decide +kernel⟩,
   ⟨st45_55, pk45_49, 1, 3, 0, 5, 8, 0, 0x20000800000005, group45_56, collop45_57, chunk45_58, pullou45_59,
     listby45_60, bits (pk45_49).arg.toNat 60 53, inv_of (by decide +kernel), (by decide +kernel), (rfl),
     (by decide +kernel), (by decide +kernel), (rfl), (by decide +kernel), (rfl), (by decide +kernel),
     (slots_read (by decide +kernel)), by decide +kernel⟩,
   ⟨st45_61, pk45_62, 1, 3, 0, 6450, 8, 1, 0x8000089d579932, 0x310000, group45_63, collop45_64, chunk45_65,
     pullou45_66, listby45_67, bits (pk45_62).arg.toNat 60 53, inv_of (by decide +kernel), (by decide +kernel),
     (rfl), (by decide +kernel), (by decide +kernel), (rfl), (by decide +kernel), (rfl), (by decide +kernel),
     (slots_read (by decide +kernel)), (by decide +kernel), by decide +kernel⟩,
   ⟨st45_68, pk45_35, 1, 3, 0, 25239, 8, 0, 0x2000085601e297, group45_69, collop45_70, chunk45_71, pullou45_45,
     listby45_72, bits (pk45_35).arg.toNat 60 53, inv_of (by decide +kernel), (by decide +kernel), (rfl),
     (by decide +kernel), (by decide +kernel), (rfl), (by decide +kernel), (rfl), (by decide +kernel),
     (slots_bad (by decide +kernel))⟩,
   ⟨st45_73, arr 16 1 3 0 0 0 (leBytes 8 0), 1, 3, 0, 0, 0, 0, group45_74, collop45_75, chunk45_11,
     inv_of (by decide +kernel), (by decide +kernel), (rfl), (by decide +kernel), by decide +kernel⟩,
   ⟨st45_76, arr 16 1 3 0 0 1 (leBytes 8 1), 1, 3, 0, 1, 1, 1, group45_77, collop45_78, chunk45_79,
     inv_of (by decide +kernel), (by decide +kernel), (rfl), (by decide +kernel), by decide +kernel⟩,
   ⟨st45_80, pk45_18, 758, 1536, 512, 7, 0, 7, group45_81, llrin45_20, inv_of (by decide +kernel),
     (by decide +kernel), (rfl), (by decide +kernel), (rfl), by decide +kernel⟩,
   ⟨st45_6, pk45_18, 758, 1536, 512, 7, 0, 7, group45_82, llrin45_20, inv_of (by decide +kernel),
     (by decide +kernel), (rfl), (by decide +kernel), (rfl), by decide +kernel⟩,
   ⟨st45_6, pk45_83, 758, 4608, 512, 7, 0, 7, group45_84, llrin45_85, inv_of (by decide +kernel),
     (by decide +kernel), (rfl), (by decide +kernel), (rfl), by decide +kernel⟩,
   ⟨st45_86, pk45_18, 758, 1536, 512, 7, 0, 7, group45_87, collop45_88, llrin45_20, inv_of (by decide +kernel),
     (by decide +kernel), (rfl), (by decide +kernel), (rfl), by decide +kernel⟩,
   ⟨st45_89, pk45_18, 758, 1536, 512, 7, 0, 7, group45_90, collop45_91, llrin45_20, inv_of (by decide +kernel),
     (by decide +kernel), (rfl), (by decide +kernel), (rfl), (by decide +kernel), (⟨none, by decide +kernel⟩)⟩⟩

end G19

namespace G20

def dS (l : List (Nat × Nat)) (f : DetSt → DetSt := id)
(bf : BellSt → BellSt := id) : State := let s := bnd l; { s with det := f s.det, now := 500, bell := bf s.bell }

def ta (pl : List Byte) (a : Nat := 1 + 15 * 2 ^ 4) : Arrived := ⟨16, 0, 0, 0, w a, pl⟩

def hr (b l h n : Nat) (ds : List Nat) : List Byte := leBytes 8 b ++ leBytes 1 l ++ leBytes 1 h ++ leBytes 2 n ++
leBytes 4 0 ++ ds.flatMap (leBytes 8) ++ leBytes 8 0

def A1 : AdmSet := adm 3 [tok 0]

def R1 : Round := rnd 1 [{}]

def pk46_0 : Arrived :=
  ta (leBytes 8 700 ++ leBytes 4 5) (1 + 15 * 2 ^ 4)

def st46_1 : State :=
  dS [(Reg.DET_CTL, 3), (Reg.DET_PAIR, 0x800010), (Reg.DET_RING, 0x200004), (Reg.DET_STAT, 3)]
  (fun d => { d with due := [(.calico, A1, R1)] })

def listby46_2 : List Byte :=
  halfRecord A1.bell R1.layer .calico R1.toks.length ([1, 2, 3, 4, 5].map (halfDigest R1.layer .calico R1.toks))

def listna46_3 : List Nat :=
  [1, 2, 3, 4, 5].map (halfDigest R1.layer .calico R1.toks)

def st46_4 : State :=
  dS [(Reg.DET_CTL, 3), (Reg.DET_PAIR, 0x800010)]
  (fun d => { d with traceNext := 0, locals := [(hr 3 1 0 1 [1, 2, 3, 4, 5], 7)] })

def st46_5 : State :=
  dS [(Reg.DET_CTL, 1), (Reg.DET_STAT, 3)] (fun d => { d with due := [(.calico, A1, R1)] })

def listby46_6 : List Byte :=
  halfRecord A1.bell R1.layer .calico R1.toks.length listna46_3

def st46_7 : State :=
  dS [] id (fun b => { b with everGo := true })

def st46_8 : State :=
  dS [(Reg.DET_CTL, 0)] (fun d => { d with due := [(.calico, A1, R1)] })

def st46_9 : State :=
  dS [(Reg.DET_CTL, 3), (Reg.DET_PAIR, 0x800010)] (fun d => { d with traceNext := 0, formed := [(0, 769)] })

def st46_10 : State :=
  dS [(Reg.DET_CTL, 3), (Reg.DET_PAIR, 0x800010)]
  (fun d => { d with traceNext := 0, partners := List.replicate 64 (hr 0 0 0 0 []) })

def st46_11 : State :=
  dS [(Reg.DET_CTL, 3), (Reg.DET_PAIR, 0x800010), (Reg.DET_DIV, 0x1001)]
  (fun d => { d with traceNext := 0, locals := [(hr 3 1 0 1 [1, 2, 3, 4, 5], 7)] })

def st46_12 : State :=
  dS [(Reg.DET_CTL, 3), (Reg.DET_PAIR, 0x800010), (Reg.DET_CTL, 7)]
  (fun d => { d with traceNext := 0, locals := [(hr 3 1 0 1 [1, 2, 3, 4, 5], 7)] })

def st46_13 : State :=
  dS [] (fun d => { d with traceNext := 0, locals := [(hr 3 1 0 1 [1, 2, 3, 4, 5], 7)] })

/-- States and operands that meet the hypotheses of each clause of `Obligations.TimeLoadAndDigests`. -/
theorem witness_TimeLoadAndDigests :
    (∃ (s : State) (p : Arrived) (h : Half) (v : W64) (time delay : Nat), s.Inv
      ∧ (time = fieldAt p.payload 0 8 ∧ delay = fieldAt p.payload 8 4
        ∧ (s.bit Reg.COLL_LL 0 = false ∨ bits p.arg.toNat 7 4 = 15) ∧ s.isLead = false
        ∧ s.Accepts Reg.DET_DIV_CLR v ∧ bits v.toNat 0 0 = 0 ∧ (∀ d ∈ s.det.due, d.1 ≠ h) ∧ s.det.locals = [])
      ∧ s.pairOn = false)
    ∧ (∃ (s : State) (p : Arrived) (h : Half) (a : AdmSet) (r : Round) (b rec_ : List Byte) (slot : Nat)
      (ds : List Nat), s.Inv
      ∧ (s.det.due = [(h, a, r)] ∧ s.bit Reg.DET_CTL 0 = true ∧ s.bit Reg.DET_CTL 3 = false
        ∧ (s.pairOn = false ∨ s.det.partners = [] ∧ s.det.locals.length < 64))
      ∧ (ds = [1, 2, 3, 4, 5].map (halfDigest r.layer h r.toks))
      ∧ (rec_ = halfRecord a.bell r.layer h r.toks.length ds)
      ∧ (slot = s.fld Reg.DET_RING 51 12 * 4096 + s.fld Reg.DET_STAT 31 0 % 2 ^ s.fld Reg.DET_RING 4 0 * 64
        ∧ slot + 64 ≤ memSpace ∧ s.pairOn = true ∧ s.det.partners = [] ∧ s.det.locals = []
        ∧ s.fld Reg.DET_RING 51 12 ≠ 0 ∧ (∀ x ∈ s.det.locals, hrSame x.1 b = false))
      ∧ (∀ k, tFind (hrHalf b) s.det.formed = some k → k < hrBell b * 256 + hrLayer b)
      ∧ s.det.partners.length < 64 ∧ p.payload = [])
    ∧ (∃ (s : State) (b l : List Byte) (tm g : Nat), s.Inv
      ∧ (s.pairOn = true ∧ s.det.locals = [(l, tm)] ∧ hrSame l b = true ∧ hrN l = hrN b ∧ g ∈ [1, 2, 3, 4, 5]
        ∧ hrDigest l g ≠ hrDigest b g) ∧ (∀ k, 1 ≤ k → k < g → hrDigest l k = hrDigest b k)
      ∧ s.bit Reg.DET_CTL 2 = false ∧ s.bit Reg.DET_DIV 12 = false
      ∧ s.det.locals = (l, tm) :: s.det.locals.drop 1 ∧ tm + 1000 * s.fld Reg.DET_PAIR 41 32 ≤ s.now
      ∧ s.det.locals.length ≤ 64)
    ∧ (∃ (s : State) (h : Half) (a : AdmSet) (r : Round) (rec_ : List Byte) (slot : Nat) (ds : List Nat), s.Inv
      ∧ (s.det.due = [(h, a, r)] ∧ s.bit Reg.DET_CTL 0 = true ∧ s.bit Reg.DET_CTL 3 = false
        ∧ (s.pairOn = false ∨ s.det.partners = [] ∧ s.det.locals.length < 64))
      ∧ (ds = [1, 2, 3, 4, 5].map (halfDigest r.layer h r.toks))
      ∧ (rec_ = halfRecord a.bell r.layer h r.toks.length ds)
      ∧ slot = s.fld Reg.DET_RING 51 12 * 4096 + s.fld Reg.DET_STAT 31 0 % 2 ^ s.fld Reg.DET_RING 4 0 * 64
      ∧ slot + 64 ≤ memSpace ∧ s.fld Reg.DET_RING 51 12 = 0 ∧ s.pairOn = false)
    ∧ (∃ (s : State) (p : Arrived) (time delay : Nat), s.Inv ∧ time = fieldAt p.payload 0 8
      ∧ delay = fieldAt p.payload 8 4 ∧ s.isLead = true ∧ s.bell.everGo = false ∧ s.now < time + delay)
    ∧ (∃ (s : State) (p : Arrived) (time delay : Nat), s.Inv ∧ time = fieldAt p.payload 0 8
      ∧ delay = fieldAt p.payload 8 4 ∧ s.isLead = true ∧ s.bell.everGo = true)
    ∧ (∃ (s : State) (p : Arrived), s.Inv ∧ p.payload.length = 4)
    ∧ (∃ (s : State) (h : Half) (a : AdmSet) (r : Round), s.Inv ∧ s.det.due = [(h, a, r)]
      ∧ s.bit Reg.DET_CTL 0 = false)
    ∧ (∃ (s : State) (b : List Byte), s.Inv ∧ (s.pairOn = true ∧ (∀ x ∈ s.det.locals, hrSame x.1 b = false))
      ∧ (∃ k, tFind (hrHalf b) s.det.formed = some k ∧ hrBell b * 256 + hrLayer b ≤ k))
    ∧ (∃ (s : State) (b : List Byte), s.Inv ∧ (s.pairOn = true ∧ (∀ x ∈ s.det.locals, hrSame x.1 b = false))
      ∧ (∀ k, tFind (hrHalf b) s.det.formed = some k → k < hrBell b * 256 + hrLayer b)
      ∧ 64 ≤ s.det.partners.length)
    ∧ (∃ (s : State) (b l : List Byte) (tm : Nat), s.Inv ∧ s.pairOn = true ∧ s.det.locals = [(l, tm)]
      ∧ hrSame l b = true ∧ (hrN l = hrN b ∧ ∀ k ∈ [1, 2, 3, 4, 5], hrDigest l k = hrDigest b k))
    ∧ (∃ (s : State) (b l : List Byte) (tm : Nat), s.Inv ∧ s.pairOn = true ∧ s.det.locals = [(l, tm)]
      ∧ hrSame l b = true ∧ hrN l ≠ hrN b ∧ s.bit Reg.DET_DIV 12 = false)
    ∧ (∃ (s : State) (b l : List Byte) (tm : Nat), s.Inv ∧ s.pairOn = true ∧ s.det.locals = [(l, tm)]
      ∧ hrSame l b = true ∧ hrN l ≠ hrN b ∧ s.bit Reg.DET_DIV 12 = true)
    ∧ (∃ (s : State) (b l : List Byte) (tm g : Nat), s.Inv
      ∧ (s.pairOn = true ∧ s.det.locals = [(l, tm)] ∧ hrSame l b = true ∧ hrN l = hrN b ∧ g ∈ [1, 2, 3, 4, 5]
        ∧ hrDigest l g ≠ hrDigest b g) ∧ (∀ k, 1 ≤ k → k < g → hrDigest l k = hrDigest b k)
      ∧ s.bit Reg.DET_CTL 2 = true)
    ∧ (∃ (s : State) (l : List Byte) (tm : Nat), s.Inv ∧ s.det.locals = (l, tm) :: s.det.locals.drop 1
      ∧ s.now < tm + 1000 * s.fld Reg.DET_PAIR 41 32)
    ∧ (∃ (s : State) (v : W64), s.Inv ∧ s.Accepts Reg.DET_DIV_CLR v ∧ bits v.toNat 0 0 = 1) :=
  ⟨⟨dS [(Reg.SLC_STATE, 6)], pk46_0, Half.calico, 0#64, 700, 5, inv_of (by decide +kernel),
     (by unfold State.Accepts; decide +kernel), by decide +kernel⟩,
   ⟨st46_1, ⟨0, 0, 0, 0, 0#64, []⟩, .calico, A1, R1, [], listby46_2, 0x2000c0, listna46_3,
     inv_of (by decide +kernel), (by decide +kernel), (rfl), (rfl), (by decide +kernel),
     (all_some (by decide +kernel)), by decide +kernel⟩,
   ⟨st46_4, hr 3 1 0 1 [99, 2, 3, 4, 5], hr 3 1 0 1 [1, 2, 3, 4, 5], 7, 1, inv_of (by decide +kernel),
     (by decide +kernel), (between (by decide +kernel)), by decide +kernel⟩,
   ⟨st46_5, .calico, A1, R1, listby46_6, 0, listna46_3, inv_of (by decide +kernel), (by decide +kernel), (rfl),
     (rfl), by decide +kernel⟩,
   ⟨dS [], pk46_0, 700, 5, inv_of (by decide +kernel), by decide +kernel⟩,
   ⟨st46_7, pk46_0, 700, 5, inv_of (by decide +kernel), by decide +kernel⟩,
   ⟨dS [], ta (leBytes 4 (3 + 9 * 2 ^ 15)), inv_of (by decide +kernel), by decide +kernel⟩,
   ⟨st46_8, .calico, A1, R1, inv_of (by decide +kernel), by decide +kernel⟩,
   ⟨st46_9, hr 3 1 0 1 [1, 2, 3, 4, 5], inv_of (by decide +kernel), (by decide +kernel),
     (⟨769, by decide +kernel⟩)⟩,
   ⟨st46_10, hr 3 1 0 1 [1, 2, 3, 4, 5], inv_of (by decide +kernel), (by decide +kernel),
     (all_some (by decide +kernel)), by decide +kernel⟩,
   ⟨st46_4, hr 3 1 0 1 [1, 2, 3, 4, 5], hr 3 1 0 1 [1, 2, 3, 4, 5], 7, inv_of (by decide +kernel),
     by decide +kernel⟩,
   ⟨st46_4, hr 3 1 0 2 [1, 2, 3, 4, 5], hr 3 1 0 1 [1, 2, 3, 4, 5], 7, inv_of (by decide +kernel),
     by decide +kernel⟩,
   ⟨st46_11, hr 3 1 0 2 [1, 2, 3, 4, 5], hr 3 1 0 1 [1, 2, 3, 4, 5], 7, inv_of (by decide +kernel),
     by decide +kernel⟩,
   ⟨st46_12, hr 3 1 0 1 [99, 2, 3, 4, 5], hr 3 1 0 1 [1, 2, 3, 4, 5], 7, 1, inv_of (by decide +kernel),
     (by decide +kernel), (between (by decide +kernel)), by decide +kernel⟩,
   ⟨st46_13, hr 3 1 0 1 [1, 2, 3, 4, 5], 7, inv_of (by decide +kernel), by decide +kernel⟩,
   ⟨dS [(Reg.DET_DIV, 5)], 1#64, inv_of (by decide +kernel), by unfold State.Accepts; decide +kernel⟩⟩

end G20

namespace G21

def xS (l : List (Nat × Nat)) (cs : List (Nat × Ctx) := []) (f : State → State := id) : State :=
  let s := bnd ([(Reg.CTX_MODEL, mdl 2 1 + 7), (Reg.ROUTE_JOBS0, 9), (Reg.CTX_SAVE_POOL, 0x4000000 + 128)] ++ l)
  f { s with now := 90, ctx := { s.ctx with ctxs := cs } }

def cx (st : Nat) (f : Ctx → Ctx := id) : Ctx := f { st := st, job := 9 }

def st47_0 : State :=
  (xS [] [(1, cx 3 fun x => { x with spill := true, urgent := true, saveBase := 0x4000000 })])

def ctx47_1 : Ctx :=
  st47_0.ctxAt 1

def st47_2 : State :=
  (xS [(Reg.CTX_STATE, 0 * 2 ^ 16)]).setReg Reg.CTX_MODEL_AT (7#64)

def ctx47_3 : Ctx :=
  (xS [(Reg.CTX_STATE, 0 * 2 ^ 16)]).ctxAt 1

def st47_4 : State :=
  (xS [(Reg.CTX_RESIDENT, 3), (Reg.CTX_RESIDENT_LIVE, 3)] [(1, cx 1)])

def ctx47_5 : Ctx :=
  st47_4.ctxAt 1

def st47_6 : State :=
  (xS [] [(1, cx 2 fun x => { x with leaving := true })])

def ctx47_7 : Ctx :=
  st47_6.ctxAt 1

def st47_8 : State :=
  (xS [] [(1, cx 2 fun x => { x with spill := true })])

def ctx47_9 : Ctx :=
  st47_8.ctxAt 1

def st47_10 : State :=
  (xS [] [(1, cx 2 fun x => { x with urgent := true })])

def ctx47_11 : Ctx :=
  st47_10.ctxAt 1

def st47_12 : State :=
  (xS []
    [(1, cx 4 fun x => { x with entering := true, saved := [⟨0, false, []⟩] })] fun s => { s with
      ctx := { s.ctx with switching := true },
      pool := { s.pool with frames := (List.range frameCount).map fun f => (f, .fixed) } })

def ctx47_13 : Ctx :=
  st47_12.ctxAt 1

def st47_14 : State :=
  (xS [] [(1, cx 5)] fun s => { s with ctx := { s.ctx with switching := true } })

def ctx47_15 : Ctx :=
  st47_14.ctxAt 1

def st47_16 : State :=
  (xS [] [(1, cx 4)] fun s => { s with ctx := { s.ctx with switching := true, switchLate := true } })

def ctx47_17 : Ctx :=
  st47_16.ctxAt 1

def st47_18 : State :=
  (xS [(Reg.CTX_STATE, 0 * 2 ^ 16)]).setReg Reg.CTX_MODEL_AT (0#64)

def st47_19 : State :=
  (xS [(Reg.CTX_STATE, 2 * 2 ^ 16)]).setReg Reg.CTX_MODEL_AT (0#64)

def ctx47_20 : Ctx :=
  (xS [(Reg.CTX_STATE, 2 * 2 ^ 16)]).ctxAt 1

def st47_21 : State :=
  (xS [(Reg.CTX_STATE, 2 ^ 16)] [] fun s => { s with ctx := { s.ctx with modelStopped := true } })

def ctx47_22 : Ctx :=
  st47_21.ctxAt 1

def st47_23 : State :=
  (xS [(Reg.CTX_STATE, 2 * 2 ^ 16)] [] fun s => { s with staged := [(Reg.CTX_MODEL, w 3)] })

def ctx47_24 : Ctx :=
  st47_23.ctxAt 1

def st47_25 : State :=
  (xS [(Reg.CTX_STATE, 2 * 2 ^ 16)]
    [] fun s => { s with
      staged := [(Reg.KEYS_TABLE, w 0x9000)],
      score := { s.score with keysPassed := (some default), selPassed := (some default) } })

def ctx47_26 : Ctx :=
  st47_25.ctxAt 1

def st47_27 : State :=
  (xS [(Reg.CTX_STATE, 2 * 2 ^ 16)]
    [] fun s => { s with
      staged := [(Reg.SEL_TABLE, w 0x8000)],
      score := { s.score with keysPassed := (some default), selPassed := (some default) } })

def ctx47_28 : Ctx :=
  st47_27.ctxAt 1

/-- States and operands that meet the hypotheses of each clause of `Obligations.ContextsAndModelsSwitch`. -/
theorem witness_ContextsAndModelsSwitch :
    (∃ (s : State) (v : W64) (c job : Nat) (x : Ctx), s.Inv ∧ (tWf ctxNone s.ctx.ctxs = true ∧ c < 4)
      ∧ (x = s.ctxAt c)
      ∧ (x.st = 3 ∧ x.entering = false ∧ x.destroyWaits = false ∧ s.poison = [] ∧ s.readFailed = []
        ∧ x.saveBase + 262144 ≤ memSpace ∧ s.liveBufs c = [] ∧ x.urgent = true) ∧ s.Accepts Reg.CTX_URGENT v
      ∧ v.toNat.testBit c = false ∧ (s.ctx.switching = false ∨ ∃ y ∈ s.ctx.ctxs, y.2.leaving = true)
      ∧ (s.fld Reg.CTX_STATE 17 16 ≠ 2 ∨ ∃ r ∈ [Reg.KEYS_CHECK, Reg.SEL_CHECK, Reg.RES_DIR_STAT],
        s.fld r 1 0 = 1 ∨ s.fld r 1 0 = 3) ∧ (x.st ≠ 2 ∨ s.jobInOutputs x.job = true)
      ∧ (¬(s.ctx.modelStopped = true ∧ s.fld Reg.CTX_STATE 17 16 = 1 ∧ ∀ y ∈ s.cal.sets ++ s.mus.sets,
          y.toks = [])))
    ∧ (∃ (s u : State) (v : W64) (c : Nat) (x : Ctx), s.Inv ∧ (tWf ctxNone s.ctx.ctxs = true ∧ c < 4)
      ∧ (x = s.ctxAt c) ∧ s.Accepts Reg.CTX_MODEL_AT v ∧ (u = s.setReg Reg.CTX_MODEL_AT v)
      ∧ s.fld Reg.CTX_STATE 17 16 ≠ 2 ∧ v ≠ 0#64 ∧ s.Accepts Reg.CTX_URGENT v ∧ v.toNat.testBit c = true
      ∧ (x.st = 0 ∨ 4 ≤ x.st ∨ x.st ≠ 1 ∧ x.leaving = false) ∧ x.st ≠ 3)
    ∧ (∃ (s : State) (v : W64) (c : Nat) (x : Ctx), s.Inv ∧ (tWf ctxNone s.ctx.ctxs = true ∧ c < 4)
      ∧ (x = s.ctxAt c) ∧ s.bound = true ∧ setsReserved Reg.CTX_CREATE v = false ∧ bits v.toNat 3 2 = 3)
    ∧ (∃ (s : State) (v : W64) (c job : Nat) (x : Ctx) (code : _), s.Inv
      ∧ (tWf ctxNone s.ctx.ctxs = true ∧ c < 4) ∧ (x = s.ctxAt c) ∧ s.Accepts Reg.CTX_CREATE v
      ∧ c = bits v.toNat 1 0 ∧ job = bits v.toNat 47 32 ∧ bits v.toNat 2 2 = 1 ∧ bits v.toNat 3 3 = 0
      ∧ (code = 0xCB ∧ x.st ≠ 0 ∨ x.st = 0
        ∧ (code = 0xCC ∧ s.ctxJobOk c job = false ∨ s.ctxJobOk c job = true
          ∧ (code = 0xC9 ∧ bits v.toNat 4 4 = 0
            ∧ (bits v.toNat 12 8 = 0 ∨ 30 < bits v.toNat 12 8 ∨ s.freeFrames.length < bits v.toNat 12 8)
            ∨ code = 0xCA ∧ bits v.toNat 4 4 = 1 ∧ s.saveRun (bits v.toNat 21 16) = none))))
    ∧ (∃ (s : State) (v : W64) (c job n : Nat) (x : Ctx), s.Inv ∧ (tWf ctxNone s.ctx.ctxs = true ∧ c < 4)
      ∧ (x = s.ctxAt c)
      ∧ (s.Accepts Reg.CTX_CREATE v ∧ c = bits v.toNat 1 0 ∧ job = bits v.toNat 47 32 ∧ bits v.toNat 2 2 = 1
        ∧ bits v.toNat 3 3 = 0 ∧ x.st = 0 ∧ s.ctxJobOk c job = true ∧ bits v.toNat 4 4 = 0)
      ∧ n = bits v.toNat 12 8 ∧ 1 ≤ n ∧ n ≤ 30 ∧ n ≤ s.freeFrames.length ∧ tWf frameFree s.pool.frames = true)
    ∧ (∃ (s : State) (v : W64) (c job a : Nat) (x : Ctx), s.Inv ∧ (tWf ctxNone s.ctx.ctxs = true ∧ c < 4)
      ∧ (x = s.ctxAt c)
      ∧ (s.Accepts Reg.CTX_CREATE v ∧ c = bits v.toNat 1 0 ∧ job = bits v.toNat 47 32 ∧ bits v.toNat 2 2 = 1
        ∧ bits v.toNat 3 3 = 0 ∧ x.st = 0 ∧ s.ctxJobOk c job = true ∧ bits v.toNat 4 4 = 1)
      ∧ s.saveRun (bits v.toNat 21 16) = some a)
    ∧ (∃ (s : State) (v : W64) (c job : Nat) (x : Ctx), s.Inv ∧ (tWf ctxNone s.ctx.ctxs = true ∧ c < 4)
      ∧ (x = s.ctxAt c) ∧ s.Accepts Reg.CTX_CREATE v ∧ c = bits v.toNat 1 0 ∧ job = bits v.toNat 47 32
      ∧ bits v.toNat 2 2 = 0 ∧ bits v.toNat 3 3 = 1 ∧ x.st = 0)
    ∧ (∃ (s : State) (v : W64) (c job : Nat) (x : Ctx), s.Inv ∧ (tWf ctxNone s.ctx.ctxs = true ∧ c < 4)
      ∧ (x = s.ctxAt c) ∧ s.Accepts Reg.CTX_CREATE v ∧ c = bits v.toNat 1 0 ∧ job = bits v.toNat 47 32
      ∧ bits v.toNat 2 2 = 0 ∧ bits v.toNat 3 3 = 1 ∧ (x.st = 1 ∨ x.st = 4))
    ∧ (∃ (s : State) (v : W64) (c job : Nat) (x : Ctx), s.Inv ∧ (tWf ctxNone s.ctx.ctxs = true ∧ c < 4)
      ∧ (x = s.ctxAt c) ∧ s.Accepts Reg.CTX_CREATE v ∧ c = bits v.toNat 1 0 ∧ job = bits v.toNat 47 32
      ∧ bits v.toNat 2 2 = 0 ∧ bits v.toNat 3 3 = 1 ∧ x.st ≠ 0 ∧ x.st ≠ 1 ∧ x.st ≠ 4)
    ∧ (∃ (s : State) (v : W64) (c : Nat) (x : Ctx), s.Inv ∧ (tWf ctxNone s.ctx.ctxs = true ∧ c < 4)
      ∧ (x = s.ctxAt c) ∧ s.Accepts Reg.CTX_URGENT v ∧ v.toNat.testBit c = true ∧ x.st = 1)
    ∧ (∃ (s : State) (v : W64) (c : Nat) (x : Ctx), s.Inv ∧ (tWf ctxNone s.ctx.ctxs = true ∧ c < 4)
      ∧ (x = s.ctxAt c) ∧ s.Accepts Reg.CTX_URGENT v ∧ v.toNat.testBit c = true ∧ (x.st = 2 ∨ x.st = 3)
      ∧ x.leaving = true)
    ∧ (∃ (s : State) (c job : Nat) (x : Ctx), s.Inv ∧ (tWf ctxNone s.ctx.ctxs = true ∧ c < 4) ∧ (x = s.ctxAt c)
      ∧ x.st = 2 ∧ s.jobInOutputs x.job = false ∧ x.spill = true)
    ∧ (∃ (s : State) (c job : Nat) (x : Ctx), s.Inv ∧ (tWf ctxNone s.ctx.ctxs = true ∧ c < 4) ∧ (x = s.ctxAt c)
      ∧ x.st = 2 ∧ s.jobInOutputs x.job = false ∧ x.spill = false ∧ x.entering = false ∧ x.destroyWaits = false
      ∧ s.poison = [] ∧ s.readFailed = [] ∧ x.urgent = true)
    ∧ (∃ (s : State) (c : Nat) (x : Ctx), s.Inv ∧ (tWf ctxNone s.ctx.ctxs = true ∧ c < 4) ∧ (x = s.ctxAt c)
      ∧ s.ctx.ctxs = [(c, x)] ∧ s.ctx.switching = true ∧ x.leaving = false ∧ x.entering = true ∧ x.st = 4
      ∧ s.freeFrames.length < x.saved.length)
    ∧ (∃ (s : State) (c : Nat) (x : Ctx), s.Inv ∧ (tWf ctxNone s.ctx.ctxs = true ∧ c < 4) ∧ (x = s.ctxAt c)
      ∧ s.ctx.switching = true
      ∧ (∀ y ∈ s.ctx.ctxs, y.1 < 4 ∧ y.2.leaving = false ∧ (y.2.entering = false ∨ y.2.st ≠ 4))
      ∧ s.ctx.switchLate = false)
    ∧ (∃ (s : State) (c : Nat) (x : Ctx), s.Inv ∧ (tWf ctxNone s.ctx.ctxs = true ∧ c < 4) ∧ (x = s.ctxAt c)
      ∧ s.ctx.switching = true
      ∧ (∀ y ∈ s.ctx.ctxs, y.1 < 4 ∧ y.2.leaving = false ∧ (y.2.entering = false ∨ y.2.st ≠ 4))
      ∧ s.ctx.switchLate = true)
    ∧ (∃ (s u : State) (v : W64) (c : Nat) (x : Ctx), s.Inv ∧ (tWf ctxNone s.ctx.ctxs = true ∧ c < 4)
      ∧ (x = s.ctxAt c) ∧ s.Accepts Reg.CTX_MODEL_AT v ∧ (u = s.setReg Reg.CTX_MODEL_AT v)
      ∧ s.fld Reg.CTX_STATE 17 16 ≠ 2 ∧ v = 0#64)
    ∧ (∃ (s u : State) (v : W64) (c : Nat) (x : Ctx), s.Inv ∧ (tWf ctxNone s.ctx.ctxs = true ∧ c < 4)
      ∧ (x = s.ctxAt c) ∧ s.Accepts Reg.CTX_MODEL_AT v ∧ (u = s.setReg Reg.CTX_MODEL_AT v)
      ∧ s.fld Reg.CTX_STATE 17 16 = 2)
    ∧ (∃ (s : State) (c : Nat) (x : Ctx), s.Inv ∧ (tWf ctxNone s.ctx.ctxs = true ∧ c < 4) ∧ (x = s.ctxAt c)
      ∧ (s.ctx.modelStopped = true ∧ s.fld Reg.CTX_STATE 17 16 = 1 ∧ ∀ y ∈ s.cal.sets ++ s.mus.sets, y.toks = []))
    ∧ (∃ (s : State) (v : W64) (c : Nat) (x : Ctx), s.Inv ∧ (tWf ctxNone s.ctx.ctxs = true ∧ c < 4)
      ∧ (x = s.ctxAt c) ∧ s.fld Reg.CTX_STATE 17 16 = 2
      ∧ (∀ r ∈ [Reg.KEYS_CHECK, Reg.SEL_CHECK, Reg.RES_DIR_STAT], s.fld r 1 0 ≠ 1 ∧ s.fld r 1 0 ≠ 3)
      ∧ tFind Reg.CTX_MODEL s.staged = some v)
    ∧ (∃ (s : State) (w : W64) (c : Nat) (x : Ctx), s.Inv ∧ (tWf ctxNone s.ctx.ctxs = true ∧ c < 4)
      ∧ (x = s.ctxAt c) ∧ s.fld Reg.CTX_STATE 17 16 = 2
      ∧ (∀ r ∈ [Reg.KEYS_CHECK, Reg.SEL_CHECK, Reg.RES_DIR_STAT], s.fld r 1 0 ≠ 1 ∧ s.fld r 1 0 ≠ 3)
      ∧ tFind Reg.KEYS_TABLE s.staged = some w ∧ s.score.keysPassed.isSome = true)
    ∧ (∃ (s : State) (w : W64) (c : Nat) (x : Ctx), s.Inv ∧ (tWf ctxNone s.ctx.ctxs = true ∧ c < 4)
      ∧ (x = s.ctxAt c) ∧ s.fld Reg.CTX_STATE 17 16 = 2
      ∧ (∀ r ∈ [Reg.KEYS_CHECK, Reg.SEL_CHECK, Reg.RES_DIR_STAT], s.fld r 1 0 ≠ 1 ∧ s.fld r 1 0 ≠ 3)
      ∧ tFind Reg.SEL_TABLE s.staged = some w ∧ s.score.selPassed.isSome = true) :=
  ⟨⟨st47_0, 0#64, 1, 0, ctx47_1, inv_of (by decide +kernel), (by decide +kernel), (rfl), (by decide +kernel),
     by unfold State.Accepts; decide +kernel⟩,
   ⟨xS [(Reg.CTX_STATE, 0 * 2 ^ 16)], st47_2, 7#64, 1, ctx47_3, inv_of (by decide +kernel), (by decide +kernel),
     (rfl), (by unfold State.Accepts; decide +kernel), (rfl), by unfold State.Accepts; decide +kernel⟩,
   ⟨xS [], 0x90000000d#64, 1, (xS []).ctxAt 1, inv_of (by decide +kernel), (by decide +kernel), (rfl),
     by decide +kernel⟩,
   ⟨(xS [] [(1, cx 1)]), 0x900000005#64, 1, 9, ((xS [] [(1, cx 1)])).ctxAt 1, 203, inv_of (by decide +kernel),
     (by decide +kernel), (rfl), by unfold State.Accepts; decide +kernel⟩,
   ⟨xS [], 0x900000205#64, 1, 9, 2, (xS []).ctxAt 1, inv_of (by decide +kernel), (by decide +kernel), (rfl),
     (by unfold State.Accepts; decide +kernel), by decide +kernel⟩,
   ⟨xS [], 0x900040015#64, 1, 9, 0x4000000, (xS []).ctxAt 1, inv_of (by decide +kernel), (by decide +kernel),
     (rfl), (by unfold State.Accepts; decide +kernel), by decide +kernel⟩,
   ⟨xS [], 0x900000009#64, 1, 9, (xS []).ctxAt 1, inv_of (by decide +kernel), (by decide +kernel), (rfl),
     by unfold State.Accepts; decide +kernel⟩,
   ⟨(xS [] [(1, cx 1)]), 0x900000009#64, 1, 9, ((xS [] [(1, cx 1)])).ctxAt 1, inv_of (by decide +kernel),
     (by decide +kernel), (rfl), by unfold State.Accepts; decide +kernel⟩,
   ⟨(xS [] [(1, cx 2)]), 0x900000009#64, 1, 9, ((xS [] [(1, cx 2)])).ctxAt 1, inv_of (by decide +kernel),
     (by decide +kernel), (rfl), by unfold State.Accepts; decide +kernel⟩,
   ⟨st47_4, 2#64, 1, ctx47_5, inv_of (by decide +kernel), (by decide +kernel), (rfl),
     by unfold State.Accepts; decide +kernel⟩,
   ⟨st47_6, 2#64, 1, ctx47_7, inv_of (by decide +kernel), (by decide +kernel), (rfl),
     by unfold State.Accepts; decide +kernel⟩,
   ⟨st47_8, 1, 0, ctx47_9, inv_of (by decide +kernel), (by decide +kernel), (rfl), by decide +kernel⟩,
   ⟨st47_10, 1, 0, ctx47_11, inv_of (by decide +kernel), (by decide +kernel), (rfl), by decide +kernel⟩,
   ⟨st47_12, 1, ctx47_13, inv_of (by decide +kernel), (by decide +kernel), (rfl), by decide +kernel⟩,
   ⟨st47_14, 1, ctx47_15, inv_of (by decide +kernel), (by decide +kernel), (rfl), by decide +kernel⟩,
   ⟨st47_16, 1, ctx47_17, inv_of (by decide +kernel), (by decide +kernel), (rfl), by decide +kernel⟩,
   ⟨xS [(Reg.CTX_STATE, 0 * 2 ^ 16)], st47_18, 0#64, 1, ctx47_3, inv_of (by decide +kernel), (by decide +kernel),
     (rfl), (by unfold State.Accepts; decide +kernel), (rfl), by decide +kernel⟩,
   ⟨xS [(Reg.CTX_STATE, 2 * 2 ^ 16)], st47_19, 0#64, 1, ctx47_20, inv_of (by decide +kernel),
     (by decide +kernel), (rfl), (by unfold State.Accepts; decide +kernel), (rfl), by decide +kernel⟩,
   ⟨st47_21, 1, ctx47_22, inv_of (by decide +kernel), (by decide +kernel), (rfl), by decide +kernel⟩,
   ⟨st47_23, 3#64, 1, ctx47_24, inv_of (by decide +kernel), (by decide +kernel), (rfl), by decide +kernel⟩,
   ⟨st47_25, 36864#64, 1, ctx47_26, inv_of (by decide +kernel), (by decide +kernel), (rfl), by decide +kernel⟩,
   ⟨st47_27, 32768#64, 1, ctx47_28, inv_of (by decide +kernel), (by decide +kernel), (rfl), by decide +kernel⟩⟩

end G21

namespace G22

def fS (l : List (Nat × Nat)) (f : SafeSt → SafeSt := id)
(g : State → State := id) : State := let s := bnd l; g { s with safe := f s.safe, now := 50 }

def sc0 : SiteRec := { src := 4 }

def st48_0 : State :=
  fS [(Reg.SAFE_CAUSE, 0x28), (Reg.SAFE_FIRST, 5)]

def st48_1 : State :=
  fS [(Reg.SAFE_CAUSE, 0x28), (Reg.SAFE_FIRST, 5)] fun x => { x with marks := [⟨1, 2, 3, false, true⟩] }

def st48_2 : State :=
  fS [] id fun s => { s with
    safe := { s.safe with keyPlaces := (List.range 60).map (100 + ·) }, score := { s.score with projUe := [] } }

def st48_3 : State :=
  fS [] id fun s => { s with
    safe := { s.safe with keyPlaces := (List.range 60).map (100 + ·) }, score := { s.score with projUe := [9] } }

def st48_4 : State :=
  fS [(Reg.SPARE_THRESH, 4)] fun x => { x with corrected := [(4 * 256 + 3, 4)] }

def st48_5 : State :=
  fS [] fun x => { x with ueSeen := [(4 * 256 + 3) * 2 ^ 32 + 9] }

def st48_6 : State :=
  fS [] id fun s => s.setSite .calico { s.site .calico with recs := [(recKey 1 2, sc0)] }

def st48_7 : State :=
  fS [] id fun s => { s with
    score := { s.score with bankA := { s.score.bankA with ueSeen := [2 * 2 ^ 20 + 9] } } }

def st48_8 : State :=
  fS [] fun x => { x with silent := true }

/-- States and operands that meet the hypotheses of each clause of `Obligations.FaultsAndTestsAreRecorded`. -/
theorem witness_FaultsAndTestsAreRecorded :
    (∃ (s : State) (v : W64) (c kind index p cause bk ad : Nat) (flagged : Bool) (i : LatentItem), s.Inv
      ∧ (c < 2 ∧ s.bit Reg.SAFE_ALARM (3 + c) = false ∧ s.unitRetired 6 c = false
        ∧ (flagged = false ∨ s.bit Reg.SAFE_ALARM (3 + (1 - c)) = true ∨ s.unitRetired 6 (1 - c) = true)
        ∧ s.safe.silent = false ∧ indexOfNat bk (s.places 3) = some p ∧ p < 20 ∧ ad < 2 ^ 20)
      ∧ (p * 2 ^ 20 + ad ∉ s.score.bankA.ueSeen ∧ s.Accepts Reg.SAFE_CAUSE v
        ∧ (∀ m ∈ s.safe.marks, m.fenced = false) ∧ cause < 256
        ∧ (4 * 256 + bk) * 2 ^ 32 + ad % 2 ^ 32 ∉ s.safe.ueSeen) ∧ (∀ k j, i = .spare k j → j ∈ s.spares k)
      ∧ index ∉ s.spares kind)
    ∧ (∃ (s : State) (v : W64) (kind index : Nat), s.Inv ∧ s.Accepts Reg.SPARE_RETIRE v
      ∧ kind = bits v.toNat 3 0 ∧ index = bits v.toNat 11 4 ∧ index < unitTotal kind
      ∧ s.unitRetired kind index = false ∧ (s.spares kind ≠ [] ∨ unitFloor kind < (s.inUse kind).length)
      ∧ (∀ m ∈ s.safe.marks, m.kind ≠ kind ∨ m.index ≠ index) ∧ index ∈ s.spares kind)
    ∧ (∃ (s : State) (v : W64), s.Inv ∧ s.Accepts Reg.SAFE_CAUSE v
      ∧ (∃ m ∈ s.safe.marks, m.cls < 9 ∧ m.fenced = true ∧ v.getLsbD m.cls = true ∧ s.foundNow m.cls = false
        ∧ s.bit Reg.SAFE_CAUSE m.cls = true))
    ∧ (∃ (s : State) (p bk ad : Nat), s.Inv ∧ indexOfNat bk (s.places 3) = some p ∧ 40 ≤ p ∧ ad < 2 ^ 20
      ∧ p % 20 * 2 ^ 20 + ad ∉ s.score.projUe)
    ∧ (∃ (s : State) (p bk ad : Nat), s.Inv ∧ indexOfNat bk (s.places 3) = some p ∧ 40 ≤ p ∧ ad < 2 ^ 20
      ∧ p % 20 * 2 ^ 20 + ad ∈ s.score.projUe)
    ∧ (∃ (s : State) (n : Nat) (w : SramWord) (bk ad : Nat), s.Inv
      ∧ ((∃ h' e' o', w = .record h' e' o' bk ad) ∨ (∃ i, w = .buffer i bk ad) ∨ (∃ h', w = .auction h' bk ad)
        ∨ w = .idle bk ad) ∧ n = tGet zeroNat (4 * 256 + bk) s.safe.corrected + 1
      ∧ n ≠ s.fld Reg.SPARE_THRESH 15 0 + 1)
    ∧ (∃ (s : State) (n : Nat) (w : SramWord) (bk ad : Nat), s.Inv
      ∧ ((∃ h' e' o', w = .record h' e' o' bk ad) ∨ (∃ i, w = .buffer i bk ad) ∨ (∃ h', w = .auction h' bk ad)
        ∨ w = .idle bk ad) ∧ n = tGet zeroNat (4 * 256 + bk) s.safe.corrected + 1
      ∧ n = s.fld Reg.SPARE_THRESH 15 0 + 1)
    ∧ (∃ (s : State) (bk ad : Nat), s.Inv ∧ (4 * 256 + bk) * 2 ^ 32 + ad % 2 ^ 32 ∈ s.safe.ueSeen)
    ∧ (∃ (s : State) (h : Half) (e off : Nat) (rc : SiteRec), s.Inv ∧ tFind (recKey e off)
      (s.site h).recs = some rc)
    ∧ (∃ (s : State) (p bk ad : Nat), s.Inv ∧ indexOfNat bk (s.places 3) = some p ∧ p < 20 ∧ ad < 2 ^ 20
      ∧ p * 2 ^ 20 + ad ∈ s.score.bankA.ueSeen)
    ∧ (∃ (s : State) (c : Nat) (flagged : Bool), s.Inv ∧ c < 2 ∧ s.bit Reg.SAFE_ALARM (3 + c) = false
      ∧ s.unitRetired 6 c = false ∧ flagged = true ∧ s.bit Reg.SAFE_ALARM (3 + (1 - c)) = false
      ∧ s.unitRetired 6 (1 - c) = false)
    ∧ (∃ (s : State) (c : Nat), s.Inv ∧ c < 2 ∧ (s.bit Reg.SAFE_ALARM (3 + c) = true ∨ s.unitRetired 6 c = true))
    ∧ (∃ (s : State), s.Inv ∧ s.safe.silent = true)
    ∧ (∃ (s : State) (v : W64) (kind index : Nat), s.Inv ∧ s.Accepts Reg.SPARE_RETIRE v
      ∧ kind = bits v.toNat 3 0 ∧ index = bits v.toNat 11 4
      ∧ (unitTotal kind ≤ index ∨ s.unitRetired kind index = true))
    ∧ (∃ (s : State) (v : W64) (kind index : Nat), s.Inv ∧ s.Accepts Reg.SPARE_RETIRE v
      ∧ kind = bits v.toNat 3 0 ∧ index = bits v.toNat 11 4 ∧ index < unitTotal kind
      ∧ s.unitRetired kind index = false ∧ s.spares kind = [] ∧ (s.inUse kind).length ≤ unitFloor kind) :=
  ⟨⟨st48_0, 8#64, 0, 0, 0, 0, 0, 0, 0, false, Sys2Proof.LatentItem.checker 3, inv_of (by decide +kernel),
     (by decide +kernel), (by unfold State.Accepts; decide +kernel),
     (by first | exact by intro k j h; cases h; decide +kernel | exact by intro k j h; cases h),
     by decide +kernel⟩,
   ⟨fS [], 129#64, 1, 8, inv_of (by decide +kernel), by unfold State.Accepts; decide +kernel⟩,
   ⟨st48_1, 0x28#64, inv_of (by decide +kernel), by unfold State.Accepts; decide +kernel⟩,
   ⟨st48_2, 40, 140, 9, inv_of (by decide +kernel), by decide +kernel⟩,
   ⟨st48_3, 40, 140, 9, inv_of (by decide +kernel), by decide +kernel⟩,
   ⟨fS [], 1, .idle 3 9, 3, 9, inv_of (by decide +kernel),
     (by first | exact .inl ⟨_, _, _, rfl⟩ | exact .inr (.inl ⟨_, rfl⟩) | exact .inr (.inr (.inl ⟨_, rfl⟩)) | exact .inr (.inr (.inr rfl))),
     by decide +kernel⟩,
   ⟨st48_4, 5, .idle 3 9, 3, 9, inv_of (by decide +kernel),
     (by first | exact .inl ⟨_, _, _, rfl⟩ | exact .inr (.inl ⟨_, rfl⟩) | exact .inr (.inr (.inl ⟨_, rfl⟩)) | exact .inr (.inr (.inr rfl))),
     by decide +kernel⟩,
   ⟨st48_5, 3, 9, inv_of (by decide +kernel), by decide +kernel⟩,
   ⟨st48_6, .calico, 1, 2, sc0, inv_of (by decide +kernel), by decide +kernel⟩,
   ⟨st48_7, 2, 2, 9, inv_of (by decide +kernel), by decide +kernel⟩,
   ⟨fS [], 0, true, inv_of (by decide +kernel), by decide +kernel⟩,
   ⟨fS [(Reg.SAFE_ALARM, 24)], 0, inv_of (by decide +kernel), by decide +kernel⟩,
   ⟨st48_8, inv_of (by decide +kernel), by decide +kernel⟩,
   ⟨fS [], 145#64, 1, 9, inv_of (by decide +kernel), by unfold State.Accepts; decide +kernel⟩,
   ⟨fS [(Reg.SPARE_KBANKS, 0xFF)], 323#64, 3, 20, inv_of (by decide +kernel),
     by unfold State.Accepts; decide +kernel⟩⟩

end G22

namespace G23

def jS (l : List (Nat × Nat)) (f : SafeSt → SafeSt := id) (g : StartSt → StartSt := id)
(now : Nat := 50) : State := let s := st l; { s with safe := f s.safe, start := g s.start, now := now }

def bd (n : Nat) : Nat := 2 ^ 28 + n

def st49_0 : State :=
  jS [(Reg.EBS_STAT, bd 0), (Reg.PKG_SLICES, 1)]

def st49_1 : State :=
  jS [(Reg.SLC_STATE, 6), (Reg.EBS_CFG, 0x80), (Reg.PSAFE_SLICES, 0xFF), (Reg.PKG_SLICES, 0x8FF),
    (Reg.EBS_STAT, bd (0x3333 + 3257 * 2 ^ 16))]

def st49_2 : State :=
  jS [(Reg.SLC_STATE, 4), (Reg.EBS_CFG, 0x80), (Reg.EBS_STAT, 1 + 3257 * 2 ^ 16)]

def st49_3 : State :=
  jS [(Reg.SLC_STATE, 4)] id fun x => { x with onceWritten := [Reg.EBS_CFG] }

def st49_4 : State :=
  jS [(Reg.SLC_STATE, 4), (Reg.EBS_CFG, 0x20)]

def st49_5 : State :=
  jS [(Reg.SLC_STATE, 4), (Reg.EBS_CFG, 0x80)] id (fun x => { x with minoritySaid := true }) 100000000000

def st49_6 : State :=
  jS [(Reg.SLC_STATE, 6), (Reg.EBS_CFG, 0x80), (Reg.PSAFE_SLICES, 0xFF), (Reg.PKG_SLICES, 0x8FF),
    (Reg.EBS_STAT, bd (0x3333 + 3257 * 2 ^ 16))] fun x => { x with quiet := [1, 2, 3] }

def st49_7 : State :=
  jS [(Reg.SLC_STATE, 6), (Reg.EBS_CFG, 0x80), (Reg.PSAFE_SLICES, 0xFF), (Reg.PKG_SLICES, 0x8FF),
    (Reg.EBS_CFG, 0x20), (Reg.EBS_STAT, bd (3 + 1 * 2 ^ 16))]

def st49_8 : State :=
  jS [(Reg.SLC_STATE, 6), (Reg.EBS_CFG, 0x80), (Reg.PSAFE_SLICES, 0xFF), (Reg.PKG_SLICES, 0x8FF),
    (Reg.EBS_STAT, bd (0x3333 + 3257 * 2 ^ 16)), (Reg.LEAD_STAT, 9)] fun x => { x with
    notes := [(1, 0), (1, 3), (1, 7)] }

def st49_9 : State :=
  jS [(Reg.SLC_STATE, 6), (Reg.EBS_CFG, 0x80), (Reg.PSAFE_SLICES, 0xFF), (Reg.PKG_SLICES, 0x8FF),
    (Reg.EBS_STAT, bd (0x3333 + 3257 * 2 ^ 16)), (Reg.PSAFE_SLICES, 2)]

/-- States and operands that meet the hypotheses of each clause of `Obligations.SlicesJoinAndLeave`. -/
theorem witness_SlicesJoinAndLeave :
    (∃ (s : State) (v : W64) (x edge l : Nat) (comp : List Nat), s.Inv
      ∧ (tWf linkNone s.links = true ∧ s.slice < 8 ∧ comp.Nodup ∧ (∀ y ∈ comp, y < 8) ∧ s.bound = true
        ∧ s.Accepts Reg.LEAD_MOVE v ∧ x = bits v.toNat 2 0 ∧ bits v.toNat 8 8 = 0)
      ∧ s.Accepts Reg.PSAFE_RETIRE v ∧ (bits v.toNat 8 8 = 0 ∨ s.bit Reg.PSAFE_SLICES x = false)
      ∧ (4 ≤ edge ∨ s.slcState < 4 ∨ s.slcState = 7
        ∨ ¬(s.edgeState edge = 1 ∨ s.edgeState edge = 2 ∨ s.edgeState edge = 4))
      ∧ (s.bound = false ∨ edge ∉ s.ownEdges) ∧ (s.bound = false ∨ x = s.slice ∨ (x, l) ∈ s.safe.notes))
    ∧ (∃ (s : State) (v : W64) (x edge : Nat), s.Inv
      ∧ (tWf linkNone s.links = true ∧ s.slice < 8 ∧ s.Accepts Reg.LEAD_MOVE v ∧ x = bits v.toNat 2 0
        ∧ bits v.toNat 8 8 = 1 ∧ s.bit Reg.PKG_SLICES x = true ∧ s.bit Reg.PSAFE_SLICES x = true
        ∧ s.bit Reg.PKG_SLICES (16 + x) = false) ∧ s.bit Reg.PSAFE_SLICES (16 + x) = false
      ∧ s.Accepts Reg.PSAFE_RETIRE v ∧ s.sliceHolds x = false ∧ s.liveSlices ≠ [x] ∧ s.bound = true
      ∧ edge ∈ s.ownEdges ∧ (s.sliceCount = 2 ∧ s.slice = 0 ∨ ∃ e ∈ s.ownEdges, e ≠ edge ∧ e ∉ s.safe.quiet)
      ∧ x = s.edgePartner edge)
    ∧ (∃ (s : State) (v : W64) (comp : List Nat), s.Inv
      ∧ (tWf linkNone s.links = true ∧ s.slice < 8 ∧ comp.Nodup ∧ (∀ y ∈ comp, y < 8) ∧ s.bound = false
        ∧ s.slcState = 4
        ∧ (comp.length = s.sliceCount ∨ s.start.bindSince + 1000000 * s.fld Reg.EBS_WAIT 9 0 ≤ s.now)
        ∧ (s.slice ∉ comp ∨ 2 * comp.length < s.sliceCount ∨ 2 * comp.length = s.sliceCount ∧ 0 ∉ comp))
      ∧ s.start.minoritySaid = false ∧ s.Accepts Reg.EBS_CFG v ∧ Reg.EBS_CFG ∉ s.start.onceWritten
      ∧ 4 ≤ s.slcState ∧ 2 ≤ bits v.toNat 7 4 ∧ bits v.toNat 7 4 ≤ 8 ∧ bits v.toNat 2 0 < bits v.toNat 7 4
      ∧ s.edgeState 0 = 0)
    ∧ (∃ (s : State) (v : W64) (comp : List Nat), s.Inv
      ∧ (tWf linkNone s.links = true ∧ s.slice < 8 ∧ comp.Nodup ∧ (∀ y ∈ comp, y < 8) ∧ s.bound = false
        ∧ s.slcState ≠ 4 ∧ s.Accepts Reg.EBS_CFG v ∧ Reg.EBS_CFG ∉ s.start.onceWritten) ∧ s.slcState < 4)
    ∧ (∃ (s : State) (edge : Nat) (id : EdgeIdent) (comp : List Nat), s.Inv
      ∧ (tWf linkNone s.links = true ∧ s.slice < 8 ∧ comp.Nodup ∧ (∀ y ∈ comp, y < 8) ∧ s.bound = false
        ∧ s.slcState = 4 ∧ comp.length ≠ s.sliceCount
        ∧ s.now < s.start.bindSince + 1000000 * s.fld Reg.EBS_WAIT 9 0) ∧ edge < 4 ∧ 4 ≤ s.slcState
      ∧ s.slcState ≠ 7 ∧ (s.edgeState edge = 1 ∨ s.edgeState edge = 2 ∨ s.edgeState edge = 4)
      ∧ id.slice = s.edgePartner edge ∧ id.count = s.sliceCount)
    ∧ (∃ (s : State) (v : W64), s.Inv ∧ tWf linkNone s.links = true ∧ s.slice < 8 ∧ s.Accepts Reg.EBS_CFG v
      ∧ Reg.EBS_CFG ∈ s.start.onceWritten)
    ∧ (∃ (s : State) (edge : Nat) (id : EdgeIdent), s.Inv ∧ tWf linkNone s.links = true ∧ s.slice < 8
      ∧ edge < 4 ∧ 4 ≤ s.slcState ∧ s.slcState ≠ 7
      ∧ (s.edgeState edge = 1 ∨ s.edgeState edge = 2 ∨ s.edgeState edge = 4)
      ∧ (id.slice ≠ s.edgePartner edge ∨ id.count ≠ s.sliceCount))
    ∧ (∃ (s : State) (comp : List Nat), s.Inv
      ∧ (tWf linkNone s.links = true ∧ s.slice < 8 ∧ comp.Nodup ∧ (∀ y ∈ comp, y < 8) ∧ s.bound = false
        ∧ s.slcState = 4
        ∧ (comp.length = s.sliceCount ∨ s.start.bindSince + 1000000 * s.fld Reg.EBS_WAIT 9 0 ≤ s.now)
        ∧ s.slice ∈ comp) ∧ (s.sliceCount < 2 * comp.length ∨ 2 * comp.length = s.sliceCount ∧ 0 ∈ comp))
    ∧ (∃ (s : State) (comp : List Nat), s.Inv
      ∧ (tWf linkNone s.links = true ∧ s.slice < 8 ∧ comp.Nodup ∧ (∀ y ∈ comp, y < 8) ∧ s.bound = false
        ∧ s.slcState = 4
        ∧ (comp.length = s.sliceCount ∨ s.start.bindSince + 1000000 * s.fld Reg.EBS_WAIT 9 0 ≤ s.now)
        ∧ (s.slice ∉ comp ∨ 2 * comp.length < s.sliceCount ∨ 2 * comp.length = s.sliceCount ∧ 0 ∉ comp))
      ∧ s.start.minoritySaid = true)
    ∧ (∃ (s : State) (edge : Nat), s.Inv ∧ tWf linkNone s.links = true ∧ s.slice < 8 ∧ s.bound = true
      ∧ edge ∈ s.ownEdges ∧ (∀ e ∈ s.ownEdges, e = edge ∨ e ∈ s.safe.quiet)
      ∧ (¬(s.sliceCount = 2 ∧ s.slice = 0)) ∧ s.safe.silent = false)
    ∧ (∃ (s : State) (x l : Nat), s.Inv
      ∧ (tWf linkNone s.links = true ∧ s.slice < 8 ∧ s.bound = true ∧ x ≠ s.slice ∧ (x, l) ∉ s.safe.notes
        ∧ x < 8 ∧ s.bit Reg.PSAFE_SLICES x = true ∧ l ∈ partnersOf s.sliceCount x)
      ∧ s.bit Reg.PSAFE_SLICES l = true
      ∧ (∀ p ∈ partnersOf s.sliceCount x, s.bit Reg.PSAFE_SLICES p = true → p = l ∨ (x, p) ∈ s.safe.notes)
      ∧ s.fld Reg.LEAD_STAT 2 0 ≠ x)
    ∧ (∃ (s : State) (x l : Nat), s.Inv
      ∧ (tWf linkNone s.links = true ∧ s.slice < 8 ∧ s.bound = true ∧ x ≠ s.slice ∧ (x, l) ∉ s.safe.notes
        ∧ x < 8 ∧ s.bit Reg.PSAFE_SLICES x = true ∧ l ∈ partnersOf s.sliceCount x)
      ∧ s.bit Reg.PSAFE_SLICES l = true
      ∧ (∀ p ∈ partnersOf s.sliceCount x, s.bit Reg.PSAFE_SLICES p = true → p = l ∨ (x, p) ∈ s.safe.notes)
      ∧ s.fld Reg.LEAD_STAT 2 0 = x ∧ s.bit Reg.LEAD_STAT 3 = true ∧ (∃ y ∈ s.liveSlices, y ≠ x))
    ∧ (∃ (s : State) (v : W64) (x : Nat), s.Inv ∧ tWf linkNone s.links = true ∧ s.slice < 8
      ∧ s.Accepts Reg.PSAFE_RETIRE v ∧ x = bits v.toNat 2 0 ∧ bits v.toNat 8 8 = 1
      ∧ s.bit Reg.PSAFE_SLICES x = true ∧ (s.sliceHolds x = true ∨ s.liveSlices = [x]))
    ∧ (∃ (s : State) (v : W64) (x : Nat), s.Inv ∧ tWf linkNone s.links = true ∧ s.slice < 8
      ∧ s.Accepts Reg.LEAD_MOVE v ∧ x = bits v.toNat 2 0 ∧ bits v.toNat 8 8 = 1
      ∧ (s.bit Reg.PKG_SLICES x = false ∨ s.bit Reg.PSAFE_SLICES x = false
        ∨ s.bit Reg.PKG_SLICES (16 + x) = true ∨ s.bit Reg.PSAFE_SLICES (16 + x) = true)) :=
  ⟨⟨st49_0, 0#64, 0, 0, 0, [1, 2], inv_of (by decide +kernel), (by unfold State.Accepts; decide +kernel),
     by unfold State.Accepts; decide +kernel⟩,
   ⟨st49_1, 257#64, 1, 0, inv_of (by decide +kernel), (by unfold State.Accepts; decide +kernel),
     by unfold State.Accepts; decide +kernel⟩,
   ⟨jS [(Reg.SLC_STATE, 4)], 128#64, [], inv_of (by decide +kernel), (by decide +kernel),
     by unfold State.Accepts; decide +kernel⟩,
   ⟨jS [(Reg.SLC_STATE, 3)], 128#64, [], inv_of (by decide +kernel), (by unfold State.Accepts; decide +kernel),
     by decide +kernel⟩,
   ⟨st49_2, 0, ⟨1, 8, true, 0⟩, [], inv_of (by decide +kernel), (by decide +kernel), by decide +kernel⟩,
   ⟨st49_3, 128#64, inv_of (by decide +kernel), by unfold State.Accepts; decide +kernel⟩,
   ⟨st49_2, 0, ⟨3, 8, true, 0⟩, inv_of (by decide +kernel), by decide +kernel⟩,
   ⟨st49_4, [0, 1], inv_of (by decide +kernel), (by decide +kernel), by decide +kernel⟩,
   ⟨st49_5, [0, 1], inv_of (by decide +kernel), (by decide +kernel), by decide +kernel⟩,
   ⟨st49_6, 0, inv_of (by decide +kernel), by decide +kernel⟩,
   ⟨st49_7, 1, 0, inv_of (by decide +kernel), (by decide +kernel), by decide +kernel⟩,
   ⟨st49_8, 1, 2, inv_of (by decide +kernel), (by decide +kernel), by decide +kernel⟩,
   ⟨st49_9, 257#64, 1, inv_of (by decide +kernel), by unfold State.Accepts; decide +kernel⟩,
   ⟨st49_9, 259#64, 3, inv_of (by decide +kernel), by unfold State.Accepts; decide +kernel⟩⟩

end G23

namespace G24

def uS (l : List (Nat × Nat)) (m : List Byte := []) (g : StartSt → StartSt := id)
(now : Nat := 50) : State := let s := st l; { s with
  start := g s.start, now := now, mem := tSetRun byteZero 0x10000 m [] }

def img0 : List Byte := leBytes 2 1 ++ leBytes 2 0 ++ leBytes 4 7 ++ leBytes 4 128 ++ leBytes 116 0

def whole0 : List Nat := (List.range 4).map fun w => Reg.MCODE_EXPECT 0 w

def dg : List (Nat × Nat) := (List.range 4).map fun w => (Reg.MCODE_EXPECT 0 w, fieldAt (sha256 img0) (8 * w) 8)

def st50_0 : State :=
  uS [] (img0) (fun x => { x with onceWritten := whole0 })

def st50_1 : State :=
  uS [(Reg.SLC_STATE, 1)] (leBytes 64 5) fun x => { x with mapHeld := some 0x10000 }

def st50_2 : State :=
  uS [(Reg.SLC_STATE, 2)] (mapImage []) (fun x => { x with mapOk := true })

def st50_3 : State :=
  uS [(Reg.SLC_STATE, 1)] (mapImage []) id

def st50_4 : State :=
  uS [(Reg.SLC_STATE, 2)] (leBytes 64 5) id

def st50_5 : State :=
  uS [(Reg.SLC_STATE, 2)] (mapImage [(1, 2), (4, 9)]) (fun x => { x with bistFailed := [(1, 2)] })

def st50_6 : State :=
  (let s := uS [(Reg.SLC_STATE, 6), (Reg.SPARE_TILES, 4), (Reg.SPARE_LANES, 32)] []
    (fun x => { x with bistFailed := [(2, 5)] }); { s with
      safe := { s.safe with
        marks := [⟨2, 5, 3, false, true⟩], faults := [(517, 3), (518, 3)], corrected := [(517, 1)],
        ueSeen := [517 * 2 ^ 32 + 9, 5] } })

def st50_7 : State :=
  uS [(Reg.SLC_STATE, 6), (Reg.SPARE_TILES, 4)] [] (fun x => { x with bistFailed := [(2, 5)] })

def st50_8 : State :=
  uS ([(Reg.SLC_STATE, 3)] ++ dg) img0 (fun x => { x with
      onceWritten := whole0, bank0 := { st := 1, addr := 0x10000 } })

def mcbank50_9 : McBank :=
  st50_8.mcBank 0

def st50_10 : State :=
  uS ([(Reg.SLC_STATE, 3)] ++ []) img0 (fun x => { x with
      onceWritten := whole0, bank0 := { st := 1, addr := 0x10000 } })

def mcbank50_11 : McBank :=
  st50_10.mcBank 0

def st50_12 : State :=
  uS ([(Reg.SLC_STATE, 6)] ++ dg) img0 (fun x => { x with
      onceWritten := whole0, bank0 := { st := 1, addr := 0x10000 } })

def mcbank50_13 : McBank :=
  st50_12.mcBank 0

/-- States and operands that meet the hypotheses of each clause of `Obligations.StartupRepairAndMicrocode`. -/
theorem witness_StartupRepairAndMicrocode :
    (∃ (s : State) (v : W64) (a kind index slot word k : Nat), s.Inv
      ∧ (s.Accepts Reg.MCODE_LOAD v ∧ s.poison = [] ∧ a = bits v.toNat 51 6 * 64 ∧ k = s.loadTo
        ∧ ((∀ j < 8, s.slotWhole j = false) ∨ (s.mcBank k).st = 3 ∨ (s.mcBank k).st = 4
          ∨ mcHeaderBad (s.rd a 64) = true) ∧ s.Accepts Reg.SLC_REPAIR v ∧ s.start.mapOk = false
        ∧ s.slcState ≠ 1)
      ∧ (s.slcState ≠ 2 ∧ s.Accepts Reg.SLC_UNIT_RST v ∧ kind = bits v.toNat 3 0 ∧ index = bits v.toNat 11 4
        ∧ (bits v.toNat 12 12 = 0 ∨ unitTotal kind ≤ index) ∧ slot < 8 ∧ word < 4
        ∧ s.Accepts (Reg.MCODE_EXPECT slot word) v) ∧ Reg.MCODE_EXPECT slot word ∉ s.start.onceWritten
      ∧ s.Accepts Reg.SLC_MAPOUT v ∧ bits v.toNat 51 6 = 0 ∧ s.start.bank0.st ≠ 1 ∧ s.start.bank1.st ≠ 1
      ∧ s.Accepts Reg.MCODE_SWITCH v)
    ∧ (∃ (s : State) (v : W64) (a slot word k : Nat), s.Inv
      ∧ (s.Accepts Reg.MCODE_LOAD v ∧ s.poison = [] ∧ a = bits v.toNat 51 6 * 64 ∧ k = s.loadTo
        ∧ (∃ j < 8, s.slotWhole j = true) ∧ (s.mcBank k).st ≠ 3 ∧ (s.mcBank k).st ≠ 4
        ∧ mcHeaderBad (s.rd a 64) = false) ∧ slot < 8 ∧ word < 4 ∧ s.Accepts (Reg.MCODE_EXPECT slot word) v
      ∧ Reg.MCODE_EXPECT slot word ∈ s.start.onceWritten ∧ s.Accepts Reg.SLC_MAPOUT v ∧ bits v.toNat 51 6 ≠ 0)
    ∧ (∃ (s : State) (v : W64) (failed : List (Nat × Nat)) (micros : Nat), s.Inv ∧ s.slcState = 1
      ∧ v = BitVec.ofNat 64 (1 + b2n (bistFatal failed) * 2 + (failed.headD (0, 0)).1 % 16 * 2 ^ 2 + (failed.headD (0,
            0)).2 % 256 * 2 ^ 6 + min failed.length 255 * 2 ^ 16 + min micros 65535 * 2 ^ 32)
      ∧ bistFatal failed = true)
    ∧ (∃ (s : State) (v : W64) (failed : List (Nat × Nat)) (micros : Nat), s.Inv ∧ s.slcState = 1
      ∧ v = BitVec.ofNat 64 (1 + b2n (bistFatal failed) * 2 + (failed.headD (0, 0)).1 % 16 * 2 ^ 2 + (failed.headD (0,
            0)).2 % 256 * 2 ^ 6 + min failed.length 255 * 2 ^ 16 + min micros 65535 * 2 ^ 32) ∧ failed = []
      ∧ s.start.mapHeld = none)
    ∧ (∃ (s : State) (v : W64) (failed : List (Nat × Nat)) (micros a : Nat), s.Inv ∧ s.slcState = 1
      ∧ v = BitVec.ofNat 64 (1 + b2n (bistFatal failed) * 2 + (failed.headD (0, 0)).1 % 16 * 2 ^ 2 + (failed.headD (0,
            0)).2 % 256 * 2 ^ 6 + min failed.length 255 * 2 ^ 16 + min micros 65535 * 2 ^ 32) ∧ failed = []
      ∧ s.start.mapHeld = some a ∧ s.poison = [] ∧ mapBad (s.rd a 64) = true)
    ∧ (∃ (s : State) (v : W64) (failed : List (Nat × Nat)) (micros : Nat), s.Inv ∧ s.slcState = 1
      ∧ v = BitVec.ofNat 64 (1 + b2n (bistFatal failed) * 2 + (failed.headD (0, 0)).1 % 16 * 2 ^ 2 + (failed.headD (0,
            0)).2 % 256 * 2 ^ 6 + min failed.length 255 * 2 ^ 16 + min micros 65535 * 2 ^ 32) ∧ failed ≠ []
      ∧ bistFatal failed = false ∧ s.start.mapHeld = none)
    ∧ (∃ (s : State) (v : W64), s.Inv ∧ s.Accepts Reg.SLC_REPAIR v ∧ s.start.mapOk = true)
    ∧ (∃ (s : State) (v : W64), s.Inv ∧ s.Accepts Reg.SLC_REPAIR v ∧ s.start.mapOk = false ∧ s.slcState = 1)
    ∧ (∃ (s : State) (v : W64) (b : List Byte) (code : _), s.Inv ∧ s.Accepts Reg.SLC_REPAIR v
      ∧ s.start.mapOk = false ∧ s.slcState = 2 ∧ s.poison = [] ∧ b = s.rd (bits v.toNat 51 6 * 64) 64
      ∧ (code = 0xE4 ∧ mapBad b = true ∨ code = 0xE5 ∧ mapBad b = false ∧ s.mapMismatch b = true))
    ∧ (∃ (s : State) (v : W64) (b : List Byte), s.Inv ∧ s.Accepts Reg.SLC_REPAIR v ∧ s.start.mapOk = false
      ∧ s.slcState = 2 ∧ s.poison = [] ∧ b = s.rd (bits v.toNat 51 6 * 64) 64 ∧ mapBad b = false
      ∧ s.mapMismatch b = false)
    ∧ (∃ (s : State) (v : W64) (kind index : Nat), s.Inv ∧ s.Accepts Reg.SLC_UNIT_RST v
      ∧ kind = bits v.toNat 3 0 ∧ index = bits v.toNat 11 4 ∧ bits v.toNat 12 12 = 1 ∧ index < unitTotal kind
      ∧ s.unitRetired kind index = true ∧ kind ≠ 1)
    ∧ (∃ (s : State) (v : W64) (kind index : Nat), s.Inv ∧ s.Accepts Reg.SLC_UNIT_RST v
      ∧ kind = bits v.toNat 3 0 ∧ index = bits v.toNat 11 4 ∧ bits v.toNat 12 12 = 1 ∧ index < unitTotal kind
      ∧ s.unitRetired kind index = false)
    ∧ (∃ (s : State) (v : W64) (kind index : Nat), s.Inv ∧ s.Accepts Reg.SLC_UNIT_RST v
      ∧ kind = bits v.toNat 3 0 ∧ index = bits v.toNat 11 4 ∧ bits v.toNat 12 12 = 1 ∧ index < unitTotal kind
      ∧ s.unitRetired kind index = true ∧ kind = 1)
    ∧ (∃ (s : State) (slot word : Nat), s.Inv ∧ (8 ≤ slot ∨ 4 ≤ word))
    ∧ (∃ (s : State) (n k i : Nat) (x : McBank), s.Inv ∧ (k = 0 ∨ k = 1 ∧ s.start.bank0.st ≠ 1)
      ∧ (x = s.mcBank k) ∧ x.st = 1 ∧ s.poison = [] ∧ n = s.rdNat (x.addr + 8) 4
      ∧ s.unreadable .microcode x.addr n = false ∧ i < 8 ∧ s.slotWhole i = true
      ∧ s.slotDigest i = sha256 (s.rd x.addr n) ∧ s.slcState = 3)
    ∧ (∃ (s : State) (n k : Nat) (x : McBank), s.Inv ∧ (k = 0 ∨ k = 1 ∧ s.start.bank0.st ≠ 1)
      ∧ (x = s.mcBank k) ∧ x.st = 1 ∧ s.poison = [] ∧ n = s.rdNat (x.addr + 8) 4
      ∧ (s.unreadable .microcode x.addr n = true ∨ ∀ j < 8, s.slotWhole j = true →
        s.slotDigest j ≠ sha256 (s.rd x.addr n)))
    ∧ (∃ (s : State) (n k i : Nat) (x : McBank), s.Inv ∧ (k = 0 ∨ k = 1 ∧ s.start.bank0.st ≠ 1)
      ∧ (x = s.mcBank k) ∧ x.st = 1 ∧ s.poison = [] ∧ n = s.rdNat (x.addr + 8) 4
      ∧ s.unreadable .microcode x.addr n = false ∧ i < 8 ∧ s.slotWhole i = true
      ∧ s.slotDigest i = sha256 (s.rd x.addr n) ∧ s.slcState ≠ 3) :=
  ⟨⟨uS [], 0#64, 0, 0, 0, 0, 0, 0, inv_of (by decide +kernel), (by unfold State.Accepts; decide +kernel),
     (by unfold State.Accepts; decide +kernel), by unfold State.Accepts; decide +kernel⟩,
   ⟨st50_0, 65536#64, 0x10000, 0, 0, 0, inv_of (by decide +kernel), (by unfold State.Accepts; decide +kernel),
     by unfold State.Accepts; decide +kernel⟩,
   ⟨uS [(Reg.SLC_STATE, 1)], 0x4d0001002f#64, [(11, 0)], 77, inv_of (by decide +kernel), by decide +kernel⟩,
   ⟨uS [(Reg.SLC_STATE, 1)], 0x4d00000001#64, [], 77, inv_of (by decide +kernel), by decide +kernel⟩,
   ⟨st50_1, 0x4d00000001#64, [], 77, 0x10000, inv_of (by decide +kernel), by decide +kernel⟩,
   ⟨uS [(Reg.SLC_STATE, 1)], 0x4d00010085#64, [(1, 2)], 77, inv_of (by decide +kernel), by decide +kernel⟩,
   ⟨st50_2, 65536#64, inv_of (by decide +kernel), by unfold State.Accepts; decide +kernel⟩,
   ⟨st50_3, 65536#64, inv_of (by decide +kernel), by unfold State.Accepts; decide +kernel⟩,
   ⟨st50_4, 65536#64, leBytes 64 5, 228, inv_of (by decide +kernel), by unfold State.Accepts; decide +kernel⟩,
   ⟨st50_5, 65536#64, mapImage [(1, 2), (4, 9)], inv_of (by decide +kernel),
     by unfold State.Accepts; decide +kernel⟩,
   ⟨st50_6, 4178#64, 2, 5, inv_of (by decide +kernel), by unfold State.Accepts; decide +kernel⟩,
   ⟨st50_7, 4178#64, 2, 5, inv_of (by decide +kernel), by unfold State.Accepts; decide +kernel⟩,
   ⟨st50_7, 4129#64, 1, 2, inv_of (by decide +kernel), by unfold State.Accepts; decide +kernel⟩,
   ⟨st50_7, 8, 0, inv_of (by decide +kernel), by decide +kernel⟩,
   ⟨st50_8, 128, 0, 0, mcbank50_9, inv_of (by decide +kernel), (by decide +kernel), (rfl), by decide +kernel⟩,
   ⟨st50_10, 128, 0, mcbank50_11, inv_of (by decide +kernel), (by decide +kernel), (rfl), by decide +kernel⟩,
   ⟨st50_12, 128, 0, 0, mcbank50_13, inv_of (by decide +kernel), (by decide +kernel), (rfl), by decide +kernel⟩⟩

end G24

namespace G25

def ent (st : Nat) : List Byte := leBytes 16 (dirE 0 0 0 0 st)

def rS (l : List (Nat × Nat)) (m : Nat) : State :=
  let s := wld ([(Reg.AUC_SRCSET, 64), (Reg.AUC_SRCCOUNT, 1), (Reg.RES_DIR, 0x10001), (Reg.RES_DESC, 0x20000)] ++
    l)
  { s with mem := tSetRun byteZero 0x10000 (ent m) s.mem }

def pk (b : List Byte) (at_ : Nat)
(s : State) : State := { s with
  mem := tSetRun byteZero 0x40000 b s.mem, pkg := { s.pkg with dirList := some (0x40000, 1, at_) } }

def oc (s : State) : List (Nat × Nat) := match s.ownCheck 0x40000 1 with | .ok e => e | .error _ => []

def oe (s : State) : Nat × Nat × Bool := match s.ownCheck 0x40000 1 with | .ok _ => (0, 0, false) | .error e => e

def tS (l : List (Nat × Nat))
(n g : Nat) : State := let s := bnd l; { s with
  now := 55, trace := { fifo := List.replicate n 7#64, gapCount := g, gapFirst := 3 } }

def st51_0 : State :=
  tS [(Reg.TRACE_CTL, 2 ^ 9), (Reg.TRACE_RING, 0x60000C)] 0 0

def st51_1 : State :=
  tS [(Reg.TRACE_CTL, 2 ^ 9), (Reg.TRACE_RING, 0x60000C)] 4090 0

def st51_2 : State :=
  tS [(Reg.TRACE_CTL, 2 ^ 9), (Reg.TRACE_RING, 0x60000C)] 4091 0

def st51_3 : State :=
  tS [(Reg.TRACE_RING, 0x60000C), (Reg.TRACE_WPTR, 0x1040)] 3 0

def listw651_4 : List W64 :=
  [traceHeader 0x0F st51_3.now, BitVec.ofNat 64 (min st51_3.trace.gapCount (2 ^ 32 - 1)),
    BitVec.ofNat 64 st51_3.trace.gapFirst, traceLength 4 false]

def st51_5 : State :=
  tS [(Reg.TRACE_RING, 0x60000C), (Reg.TRACE_WPTR, 0x1040)] 8 0

def listw651_6 : List W64 :=
  st51_5.trace.fifo.drop 8

def listw651_7 : List W64 :=
  [traceHeader 0x0F st51_5.now, BitVec.ofNat 64 (min st51_5.trace.gapCount (2 ^ 32 - 1)),
    BitVec.ofNat 64 st51_5.trace.gapFirst, traceLength 4 false]

def listna51_8 : List (Nat × Nat) :=
  oc (pk (leBytes 16 1 ++ ent 2) 9 (rS [] 2))

def st51_9 : State :=
  (let s := pk (leBytes 16 1 ++ ent 2) 2 (rS [(Reg.PBELL_STATE, 2)] 2); { s with
      bell := { s.bell with nextBell := 4 } })

def listna51_10 : List (Nat × Nat) :=
  oc st51_9

def st51_11 : State :=
  pk (leBytes 16 1 ++ ent 2) 9 (rS [(Reg.PSAFE_SLICES, 9)] 2)

def listna51_12 : List (Nat × Nat) :=
  oc st51_11

def bool51_13 : Bool :=
  (oe (pk (leBytes 16 9 ++ ent 2) 9 (rS [] 2))).2.2

def st51_14 : State :=
  (let s := rS ([(Reg.DIRCTL_CTL, 1)] ++ []) 2; { s with bell := { s.bell with everOpened := true } })

def st51_15 : State :=
  (let s := rS ([(Reg.DIRCTL_CTL, 1)] ++ [(Reg.PSAFE_SLICES, 9), (Reg.PKG_SLICES, 9), (Reg.LEAD_STAT, 11)]) 2; { s with
      bell := { s.bell with everOpened := true } })

def st51_16 : State :=
  (let s := rS ([(Reg.DIRCTL_CTL, 1)] ++ [(Reg.PSAFE_SLICES, 9), (Reg.PKG_SLICES, 9), (Reg.LEAD_STAT, 8)]) 2; { s with
      bell := { s.bell with everOpened := true } })

def st51_17 : State :=
  (let s := rS ([(Reg.DIRCTL_CTL, 1)] ++ [(Reg.PSAFE_SLICES, 9), (Reg.PKG_SLICES, 9)]) 2; { s with
      bell := { s.bell with everOpened := true } })

/-- States and operands that meet the hypotheses of each clause of `Obligations.TraceAndPackageDirectory`. -/
theorem witness_TraceAndPackageDirectory :
    (∃ (s : State) (v : W64), s.Inv ∧ s.Accepts Reg.TRACE_MARK v ∧ s.bit Reg.TRACE_CTL 9 = false
      ∧ (s.bit Reg.DIRCTL_CTL 0 = false ∨ s.bell.everOpened = false ∨ s.slice ∉ s.dirHolders)
      ∧ (s.traceDrains = false ∨ s.trace.fifo = [] ∨ 8 ≤ s.trace.fifo.length)
      ∧ (s.traceDrains = false ∨ s.trace.fifo.length < 8) ∧ s.Accepts Reg.DIRCTL_EDIT v ∧ s.pkg.dirList = none)
    ∧ (∃ (s : State) (v : W64), s.Inv ∧ s.Accepts Reg.TRACE_MARK v ∧ s.bit Reg.TRACE_CTL 9 = true
      ∧ s.trace.gapCount = 0 ∧ 48 < s.trace.free ∧ s.fld Reg.TRACE_RING 51 12 ≠ 0)
    ∧ (∃ (s : State) (v : W64), s.Inv ∧ s.Accepts Reg.TRACE_MARK v ∧ s.bit Reg.TRACE_CTL 9 = true
      ∧ s.trace.gapCount = 0 ∧ s.trace.free = 48 ∧ s.fld Reg.TRACE_RING 51 12 ≠ 0)
    ∧ (∃ (s : State) (v : W64), s.Inv ∧ s.Accepts Reg.TRACE_MARK v ∧ s.bit Reg.TRACE_CTL 9 = true
      ∧ s.trace.gapCount = 0 ∧ (s.trace.free < 48 ∨ s.fld Reg.TRACE_RING 51 12 = 0))
    ∧ (∃ (s : State) (a w : Nat) (gap : List W64), s.Inv
      ∧ (w = s.regNat Reg.TRACE_WPTR ∧ a = s.fld Reg.TRACE_RING 51 12 * 4096 + w % 2 ^ s.fld Reg.TRACE_RING 4 0
        ∧ a + 64 ≤ memSpace)
      ∧ (gap = [traceHeader 0x0F s.now, BitVec.ofNat 64 (min s.trace.gapCount (2 ^ 32 - 1)),
          BitVec.ofNat 64 s.trace.gapFirst, traceLength 4 false]) ∧ s.traceDrains = true
      ∧ 0 < s.trace.fifo.length ∧ s.trace.fifo.length < 8)
    ∧ (∃ (s : State) (a w : Nat) (f gap : List W64), s.Inv
      ∧ (w = s.regNat Reg.TRACE_WPTR ∧ a = s.fld Reg.TRACE_RING 51 12 * 4096 + w % 2 ^ s.fld Reg.TRACE_RING 4 0
        ∧ a + 64 ≤ memSpace)
      ∧ (gap = [traceHeader 0x0F s.now, BitVec.ofNat 64 (min s.trace.gapCount (2 ^ 32 - 1)),
          BitVec.ofNat 64 s.trace.gapFirst, traceLength 4 false])
      ∧ (s.traceDrains = true ∧ 8 ≤ s.trace.fifo.length) ∧ (f = s.trace.fifo.drop 8))
    ∧ (∃ (s : State) (a n at_ : Nat) (edits : List (Nat × Nat)) (results : List (Nat × Nat × Nat)), s.Inv
      ∧ (s.pkg.dirList = some (a, n, at_) ∧ s.poison = []) ∧ (s.ownCheck a n = .ok edits)
      ∧ (∀ p ∈ results, p.1 = s.slice ∨ s.bit Reg.PSAFE_SLICES p.1 = false) ∧ s.tooLate at_ = false)
    ∧ (∃ (s : State) (a n at_ : Nat) (edits : List (Nat × Nat)) (results : List (Nat × Nat × Nat)), s.Inv
      ∧ (s.pkg.dirList = some (a, n, at_) ∧ s.poison = []) ∧ (s.ownCheck a n = .ok edits)
      ∧ (∀ p ∈ results, p.1 = s.slice ∨ s.bit Reg.PSAFE_SLICES p.1 = false) ∧ s.tooLate at_ = true)
    ∧ (∃ (s : State) (a w y r e n at_ : Nat) (edits : List (Nat × Nat)) (results : List (Nat × Nat × Nat)),
      s.Inv ∧ (s.pkg.dirList = some (a, n, at_) ∧ s.poison = []) ∧ (s.ownCheck a n = .ok edits)
      ∧ results = [(y, r, e)] ∧ y ≠ s.slice ∧ s.bit Reg.PSAFE_SLICES y = true
      ∧ w = 4 + y % 8 * 2 ^ 4 + r % 16 * 2 ^ 8 + e % 2 ^ 15 * 2 ^ 12)
    ∧ (∃ (s : State) (a w r e n at_ : Nat) (cap : Bool) (results : List (Nat × Nat × Nat)), s.Inv
      ∧ (s.pkg.dirList = some (a, n, at_) ∧ s.poison = []) ∧ (s.ownCheck a n = .error (e, r, cap))
      ∧ results = [] ∧ w = 4 + s.slice % 8 * 2 ^ 4 + r % 16 * 2 ^ 8 + e % 2 ^ 15 * 2 ^ 12)
    ∧ (∃ (s : State) (y : Nat) (digests : List (Nat × W64)), s.Inv
      ∧ (s.bit Reg.DIRCTL_CTL 0 = true ∧ s.bell.everOpened = true)
      ∧ (s.dirHolders = [s.slice] ∨ y ≠ s.slice ∧ (∀ i, i ∈ s.dirHolders ↔ i = s.slice ∨ i = y)
        ∧ digests = [(y, s.dirDigest)]))
    ∧ (∃ (s : State) (d : W64) (w y : Nat) (digests : List (Nat × W64)), s.Inv
      ∧ (s.bit Reg.DIRCTL_CTL 0 = true ∧ s.bell.everOpened = true ∧ y ≠ s.slice)
      ∧ (∀ i, i ∈ s.dirHolders ↔ i = s.slice ∨ i = y) ∧ digests = [(y, d)] ∧ d ≠ s.dirDigest
      ∧ s.fld Reg.LEAD_STAT 2 0 = y ∧ w = 2 ^ s.slice + 2 ^ 8 + s.bellNo % 2 ^ 48 * 2 ^ 16)
    ∧ (∃ (s : State) (d : W64) (w y : Nat) (digests : List (Nat × W64)), s.Inv
      ∧ (s.bit Reg.DIRCTL_CTL 0 = true ∧ s.bell.everOpened = true ∧ y ≠ s.slice)
      ∧ (∀ i, i ∈ s.dirHolders ↔ i = s.slice ∨ i = y) ∧ digests = [(y, d)] ∧ d ≠ s.dirDigest
      ∧ s.fld Reg.LEAD_STAT 2 0 = s.slice ∧ w = 2 ^ y + 2 ^ 8 + s.bellNo % 2 ^ 48 * 2 ^ 16)
    ∧ (∃ (s : State) (y : Nat) (digests : List (Nat × W64)), s.Inv
      ∧ (s.bit Reg.DIRCTL_CTL 0 = true ∧ s.bell.everOpened = true ∧ y ≠ s.slice)
      ∧ (∀ i, i ∈ s.dirHolders ↔ i = s.slice ∨ i = y) ∧ digests = []) :=
  ⟨⟨tS [(Reg.TRACE_CTL, 0)] 0 0, 5#64, inv_of (by decide +kernel), by unfold State.Accepts; decide +kernel⟩,
   ⟨st51_0, 5#64, inv_of (by decide +kernel), by unfold State.Accepts; decide +kernel⟩,
   ⟨st51_1, 5#64, inv_of (by decide +kernel), by unfold State.Accepts; decide +kernel⟩,
   ⟨st51_2, 5#64, inv_of (by decide +kernel), by unfold State.Accepts; decide +kernel⟩,
   ⟨st51_3, 0x600040, 0x1040, listw651_4, inv_of (by decide +kernel), (by decide +kernel), (rfl),
     by decide +kernel⟩,
   ⟨st51_5, 0x600040, 0x1040, listw651_6, listw651_7, inv_of (by decide +kernel), (by decide +kernel), (rfl),
     (by decide +kernel), (rfl)⟩,
   ⟨pk (leBytes 16 1 ++ ent 2) 9 (rS [] 2), 0x40000, 1, 9, listna51_8, [], inv_of (by decide +kernel),
     (by decide +kernel), (ok_of (by decide +kernel)), by decide +kernel⟩,
   ⟨st51_9, 0x40000, 1, 2, listna51_10, [], inv_of (by decide +kernel), (by decide +kernel),
     (ok_of (by decide +kernel)), by decide +kernel⟩,
   ⟨st51_11, 0x40000, 5684, 3, 6, 1, 1, 9, listna51_12, [(3, 6, 1)], inv_of (by decide +kernel),
     (by decide +kernel), (ok_of (by decide +kernel)), by decide +kernel⟩,
   ⟨pk (leBytes 16 9 ++ ent 2) 9 (rS [] 2), 0x40000, 37124, 1, 9, 1, 9, bool51_13, [],
     inv_of (by decide +kernel), (by decide +kernel), (err_of (by decide +kernel)), by decide +kernel⟩,
   ⟨st51_14, 3, [], inv_of (by decide +kernel), (by decide +kernel),
     (by first | exact .inl (by decide +kernel) | exact .inr ⟨by decide +kernel, mem_two (by decide +kernel), by decide +kernel⟩)⟩,
   ⟨st51_15, 5#64, 0x30101, 3, [(3, 5#64)], inv_of (by decide +kernel), (by decide +kernel),
     (mem_two (by decide +kernel)), by decide +kernel⟩,
   ⟨st51_16, 5#64, 0x30108, 3, [(3, 5#64)], inv_of (by decide +kernel), (by decide +kernel),
     (mem_two (by decide +kernel)), by decide +kernel⟩,
   ⟨st51_17, 3, [], inv_of (by decide +kernel), (by decide +kernel), (mem_two (by decide +kernel)),
     by decide +kernel⟩⟩

end G25

/-- A state with the invariant and a waiting command. -/
theorem witness_StepKeepsInvariant : ∃ s : State, s.Inv ∧ s.pending = [Instr.slotLate .calico] :=
  ⟨{ bnd [] with pending := [Instr.slotLate .calico] }, inv_of (by decide +kernel), rfl⟩

/-- A command and a state with the invariant. -/
theorem witness_EveryCommandAnswers : ∃ (c : Instr) (s : State), s.Inv ∧ c = .bellOpen ∧ s.bound = true :=
  ⟨.bellOpen, bnd [], inv_of (by decide +kernel), rfl, by decide +kernel⟩

end Sys2Proof.Tests
end

section
/-! PROOFS. The auction's part of a slot's bound (R79, R80): T_round at both ends of the DIAM range, and what one more
spill round adds to the bound. -/
namespace Sys2Proof.Machine

theorem tRound_of_le_four {diam : Nat} (h : diam ≤ 4) : tRound diam = 1500 := if_pos h

theorem tRound_of_five_le {diam : Nat} (h : 5 ≤ diam) : tRound diam = 3000 := if_neg (by omega)

/-- X of R79 is the entry's count of extra rounds when the layer spills. -/
theorem SelEnt.x_of_spill {e : SelEnt} (hec : e.ec = false) (hspill : e.spill = true) : e.x = e.rounds := by
  simp [SelEnt.x, hec, hspill]

/-- X is the only quantity of the bound that reads the extra rounds, so one more adds one T_round, whatever the rate,
W and the other terms are. -/
theorem slotBound_add_round (t : Terms) (l cycles proj n : Nat) {e : SelEnt} (hec : e.ec = false)
    (hspill : e.spill = true) :
    slotBound t l cycles proj { e with rounds := e.rounds + 1 } n
      = slotBound t l cycles proj e n + tRound (confFld t.conf Reg.BELL_DIAM 3 0) := by
  have hx : e.x = e.rounds := SelEnt.x_of_spill hec hspill
  have hx' : SelEnt.x { e with rounds := e.rounds + 1 } = e.rounds + 1 := SelEnt.x_of_spill hec hspill
  have hg : SelEnt.g { e with rounds := e.rounds + 1 } = e.g := rfl
  have hids : SelEnt.sharedIds { e with rounds := e.rounds + 1 } = e.sharedIds := rfl
  have hauction (T : Nat) : (1 + (e.rounds + 1)) * T = (1 + e.rounds) * T + T := Nat.succ_mul (1 + e.rounds) T
  simp only [slotBound, hx, hx', hg, hids, hauction]
  omega

/-- Settles O57: one more spill round adds one T_round, which is 1,500 ns up to DIAM 4 and 3,000 ns from DIAM 5. -/
theorem spillRoundTime : Obligations.SpillRoundTime := by
  intro t l cycles proj n e hec hspill
  have hadd := slotBound_add_round t l cycles proj n hec hspill
  refine ⟨fun _ hle => ?_, fun hge _ => ?_⟩
  · have hT := tRound_of_le_four hle
    exact ⟨hT, hT ▸ hadd⟩
  · have hT := tRound_of_five_le hge
    exact ⟨hT, hT ▸ hadd⟩

end Sys2Proof.Machine
end

section
/-! PROOFS. A write of SAFE_CAUSE (R438, R439; log entries 7, 39 and 51): what clearing one cause does, what a run of clears leaves alone, which
causes still stand after it, that a refusal shows in the SAFE page, and that the alarm ends with the last cause. -/
namespace Sys2Proof.Machine

variable {s t u : State} {c k pg code detail : Nat} {l : List Nat}

/-! ## Clearing one cause -/

/-- A unit fenced for a fault of class `c` is not yet retired (R454). -/
def State.fencedFor (s : State) (c : Nat) : Bool := s.safe.marks.any fun m => m.cls == c && m.fenced

theorem State.fencedFor_iff : s.fencedFor c = true ↔ ∃ m ∈ s.safe.marks, m.cls = c ∧ m.fenced = true := by
  simp [State.fencedFor]

theorem State.fencedFor_eq_false_iff : s.fencedFor c = false ↔ ∀ m ∈ s.safe.marks, m.cls = c → m.fenced = false := by
  simp [State.fencedFor]

theorem State.clearCause_of_found (h : s.foundNow c = true) : s.clearCause c = s := if_pos h

theorem State.clearCause_of_fenced (hn : s.foundNow c = false) (hf : s.fencedFor c = true) :
    s.clearCause c = s.record Pg.SAFE 0xDF 0 :=
  (if_neg (by simp [hn])).trans (if_pos hf)

theorem State.clearCause_of_free (hn : s.foundNow c = false) (hf : s.fencedFor c = false) :
    s.clearCause c = s.setFld Reg.SAFE_CAUSE c c 0 :=
  (if_neg (by simp [hn])).trans (if_neg (by rw [State.fencedFor] at hf; simp [hf]))

/-- Everything a clear of one cause can do: nothing under a detection of this cycle, which wins (R438; log entries 7 and
39), a refusal while a fenced unit is not retired, or the bit's end (R439). -/
theorem State.clearCause_cases (s : State) (c : Nat) :
    (s.foundNow c = true ∧ s.clearCause c = s)
      ∨ (s.foundNow c = false ∧ s.fencedFor c = true ∧ s.clearCause c = s.record Pg.SAFE 0xDF 0)
      ∨ (s.foundNow c = false ∧ s.fencedFor c = false ∧ s.clearCause c = s.setFld Reg.SAFE_CAUSE c c 0) := by
  cases hn : s.foundNow c with
  | true => exact .inl ⟨rfl, State.clearCause_of_found hn⟩
  | false =>
    cases hf : s.fencedFor c with
    | true => exact .inr (.inl ⟨rfl, rfl, State.clearCause_of_fenced hn hf⟩)
    | false => exact .inr (.inr ⟨rfl, rfl, State.clearCause_of_free hn hf⟩)

theorem State.clearCause_inv (h : s.Inv) : (s.clearCause c).Inv := by
  have hk : Kept s.pending false (s.clearCause c) :=
    State.clearCause_kept c ⟨h.regs, h.mem, h.sram, h.tally, h.trace, rfl, h.viaAlias⟩
  exact ⟨hk.regs, hk.mem, hk.sram, hk.tally, hk.trace, hk.viaAlias⟩

/-! ## What clears leave alone -/

theorem State.LogOnly.safe (h : s.LogOnly t) : t.safe = s.safe := by
  unfold State.LogOnly at h
  rw [h]

theorem State.LogOnly.now (h : s.LogOnly t) : t.now = s.now := by
  unfold State.LogOnly at h
  rw [h]

/-- What clears of causes keep: the invariant, every register but SAFE_CAUSE and those of a recording in the SAFE page,
and the rest of the state but what a recording logs. -/
structure State.ClearFrame (s t : State) : Prop where
  inv : t.Inv
  regs : s.RegsBut (Reg.SAFE_CAUSE :: recordRegs Pg.SAFE) t
  rest : s.LogOnly t

theorem State.ClearFrame.refl (h : s.Inv) : s.ClearFrame s := ⟨h, State.RegsBut.refl, State.LogOnly.refl⟩

theorem State.ClearFrame.trans (h : s.ClearFrame t) (h' : t.ClearFrame u) : s.ClearFrame u :=
  ⟨h'.inv, h.regs.trans h'.regs (fun _ => id) (fun _ => id), h.rest.trans h'.rest⟩

theorem State.ClearFrame.foundNow (h : s.ClearFrame t) (c : Nat) : t.foundNow c = s.foundNow c := by
  simp only [State.foundNow, h.rest.safe, h.rest.now]

theorem State.ClearFrame.fencedFor (h : s.ClearFrame t) (c : Nat) : t.fencedFor c = s.fencedFor c := by
  simp only [State.fencedFor, h.rest.safe]

theorem State.clearCause_frame (c : Nat) (h : s.Inv) : s.ClearFrame (s.clearCause c) := by
  have hi : (s.clearCause c).Inv := State.clearCause_inv h
  obtain ⟨-, e⟩ | ⟨-, -, e⟩ | ⟨-, -, e⟩ := s.clearCause_cases c <;> rw [e] at hi ⊢
  · exact State.ClearFrame.refl h
  · have hf : State.RecordFrame Pg.SAFE s (s.record Pg.SAFE 0xDF 0) := State.record_frame h
    exact ⟨hi, hf.regs.mono fun r => List.mem_cons_of_mem _, hf.rest⟩
  · exact ⟨hi, State.setFld_regsBut h.regs List.mem_cons_self, State.setFld_logOnly⟩

/-- A write of SAFE_CAUSE clears the causes it names one after the other. -/
def State.clearCauses (l : List Nat) (s : State) : State := l.foldl (fun s c => s.clearCause c) s

@[simp] theorem State.clearCauses_nil : s.clearCauses [] = s := rfl

@[simp] theorem State.clearCauses_cons : s.clearCauses (c :: l) = (s.clearCause c).clearCauses l := rfl

theorem State.clearCauses_frame (l : List Nat) (h : s.Inv) : s.ClearFrame (s.clearCauses l) := by
  induction l generalizing s with
  | nil => exact State.ClearFrame.refl h
  | cons c l ih => exact (State.clearCause_frame c h).trans (ih (State.clearCause_inv h))

/-! ## Which causes still stand -/

theorem State.record_safeCause (h : s.Inv) : (s.record Pg.SAFE code detail).reg Reg.SAFE_CAUSE = s.reg Reg.SAFE_CAUSE :=
  (State.record_frame h).regs _ (by decide)

theorem State.clearCause_bit (h : s.Inv) (hc : c < 64) (k : Nat) : (s.clearCause c).bit Reg.SAFE_CAUSE k
    = (s.bit Reg.SAFE_CAUSE k && (k != c || s.foundNow c || s.fencedFor c)) := by
  obtain ⟨hn, e⟩ | ⟨-, hf, e⟩ | ⟨hn, hf, e⟩ := s.clearCause_cases c <;> rw [e]
  · simp [hn]
  · simp [hf, State.bit, State.fld_of_reg (State.record_safeCause h)]
  · rw [hn, hf, State.bit, State.bit]
    by_cases hk : k = c
    · subst hk
      simp [State.fld_setFld_same h.regs (Nat.le_refl k) hc]
    · rw [State.fld_setFld_apart h.regs (Nat.le_refl c) hc (by omega)]
      simp [hk]

/-- A cause that stood still stands unless it was named, no detection of its class came in the cycle, and no unit is
fenced for it: one clear does not change what the next one finds. -/
theorem State.clearCauses_bit (h : s.Inv) (hl : ∀ c ∈ l, c < 64) (k : Nat) : (s.clearCauses l).bit Reg.SAFE_CAUSE k
    = (s.bit Reg.SAFE_CAUSE k && (!l.contains k || s.foundNow k || s.fencedFor k)) := by
  induction l generalizing s with
  | nil => simp
  | cons c l ih =>
    have hf := State.clearCause_frame c h
    rw [State.clearCauses_cons, ih hf.inv fun x hx => hl x (List.mem_cons_of_mem _ hx), hf.foundNow, hf.fencedFor,
      State.clearCause_bit h (hl c List.mem_cons_self), List.contains_cons]
    by_cases hk : k = c
    · subst hk
      cases s.foundNow k <;> cases s.fencedFor k <;> simp
    · have hkc : (k == c) = false := beq_false_of_ne hk
      simp [bne, hkc]

/-! ## A refusal shows in the SAFE page -/

theorem State.Recorded.irqRaw (h : State.Recorded pg code detail s t) : t.bit (Reg.PAGE_IRQ_RAW pg) 0 = true := by
  obtain ⟨-, -, hraw⟩ := h
  exact hraw

theorem State.Recorded.errFirst_of_empty (h : State.Recorded pg code detail s t)
    (h0 : s.fld (Reg.PAGE_ERR_FIRST pg) 7 0 = 0) (hc : code < 256) : t.fld (Reg.PAGE_ERR_FIRST pg) 7 0 = code := by
  rw [State.fld, h.1, if_pos (.inl h0), BitVec.toNat_ofNat, bits, Nat.shiftRight_zero]
  omega

/-- A code that PAGE_ERR_FIRST holds stays there when it is recorded again, in an open cycle too. -/
theorem State.Recorded.errFirst_of_same (h : State.Recorded pg code detail s t)
    (hs : s.fld (Reg.PAGE_ERR_FIRST pg) 7 0 = code) (h0 : code ≠ 0) : t.fld (Reg.PAGE_ERR_FIRST pg) 7 0 = code := by
  have hr : t.reg (Reg.PAGE_ERR_FIRST pg) = s.reg (Reg.PAGE_ERR_FIRST pg) :=
    h.1.trans (if_neg (by rw [hs]; omega))
  rw [State.fld_of_reg hr, hs]

/-- Since `s`, CLEAR_REFUSED has been recorded in the SAFE page: ERR is raised, and PAGE_ERR_FIRST holds the code if it
was empty. -/
def State.RefusalShown (s t : State) : Prop :=
  t.bit (Reg.PAGE_IRQ_RAW Pg.SAFE) 0 = true
    ∧ (s.fld (Reg.PAGE_ERR_FIRST Pg.SAFE) 7 0 = 0 → t.fld (Reg.PAGE_ERR_FIRST Pg.SAFE) 7 0 = 0xDF)

theorem State.RefusalShown.of_reg (h : s.RefusalShown t)
    (hraw : u.reg (Reg.PAGE_IRQ_RAW Pg.SAFE) = t.reg (Reg.PAGE_IRQ_RAW Pg.SAFE))
    (hfirst : u.reg (Reg.PAGE_ERR_FIRST Pg.SAFE) = t.reg (Reg.PAGE_ERR_FIRST Pg.SAFE)) : s.RefusalShown u := by
  simpa only [State.RefusalShown, State.bit, State.fld, hraw, hfirst] using h

theorem State.clearCause_refusal (h : s.Inv) (hn : s.foundNow c = false) (hf : s.fencedFor c = true) :
    s.RefusalShown (s.clearCause c) := by
  have hr : State.Recorded Pg.SAFE 0xDF 0 s (s.clearCause c) :=
    State.clearCause_of_fenced hn hf ▸ State.record_recorded h
  exact ⟨hr.irqRaw, fun h0 => hr.errFirst_of_empty h0 (by decide)⟩

/-- A later clear does not hide a refusal. -/
theorem State.RefusalShown.clearCause (h : s.RefusalShown t) (ht : t.Inv) (c : Nat) :
    s.RefusalShown (t.clearCause c) := by
  obtain ⟨-, e⟩ | ⟨-, -, e⟩ | ⟨-, -, e⟩ := t.clearCause_cases c <;> rw [e]
  · exact h
  · have hr : State.Recorded Pg.SAFE 0xDF 0 t (t.record Pg.SAFE 0xDF 0) := State.record_recorded ht
    obtain ⟨-, hfirst⟩ := h
    exact ⟨hr.irqRaw, fun h0 => hr.errFirst_of_same (hfirst h0) (by decide)⟩
  · exact h.of_reg (State.reg_setFld_other ht.regs (by decide)) (State.reg_setFld_other ht.regs (by decide))

theorem State.RefusalShown.clearCauses (h : s.RefusalShown t) (ht : t.Inv) (l : List Nat) :
    s.RefusalShown (t.clearCauses l) := by
  induction l generalizing t with
  | nil => exact h
  | cons c l ih => exact ih (h.clearCause ht c) (State.clearCause_inv ht)

/-- Of a run of clears in which one is refused, the first refused one fills PAGE_ERR_FIRST if it was empty, since the
clears before it leave the register as it is. -/
theorem State.clearCauses_refusal (h : s.Inv) (hc : c ∈ l) (hn : s.foundNow c = false) (hf : s.fencedFor c = true) :
    s.RefusalShown (s.clearCauses l) := by
  induction l generalizing s with
  | nil => simp at hc
  | cons d l ih =>
    have hi : (s.clearCause d).Inv := State.clearCause_inv h
    by_cases hd : s.foundNow d = false ∧ s.fencedFor d = true
    · exact (State.clearCause_refusal h hd.1 hd.2).clearCauses hi l
    · have hcl : c ∈ l := (List.mem_cons.1 hc).resolve_left fun e => hd (e ▸ ⟨hn, hf⟩)
      have hframe := State.clearCause_frame d h
      have hrest : (s.clearCause d).RefusalShown (s.clearCauses (d :: l)) :=
        ih hi hcl ((hframe.foundNow c).trans hn) ((hframe.fencedFor c).trans hf)
      have hfirst : (s.clearCause d).reg (Reg.PAGE_ERR_FIRST Pg.SAFE) = s.reg (Reg.PAGE_ERR_FIRST Pg.SAFE) := by
        obtain ⟨-, e⟩ | ⟨hn', hf', -⟩ | ⟨-, -, e⟩ := s.clearCause_cases d
        · rw [e]
        · exact absurd ⟨hn', hf'⟩ hd
        · rw [e, State.reg_setFld_other h.regs (by decide)]
      exact ⟨hrest.1, fun h0 => hrest.2 (by rw [State.fld_of_reg hfirst, h0])⟩

/-! ## The alarm -/

theorem State.driveAlarm_regsBut (h : tWf resetOf s.regs = true) :
    s.RegsBut [Reg.SAFE_ALARM, Reg.PSAFE_CAUSE] s.driveAlarm :=
  State.RegsBut.trans (t := s.setFld Reg.SAFE_ALARM 1 0 _) (State.setFld_regsBut h (by simp))
    (State.setFld_regsBut (State.regs_setFld_wf h) (by simp)) (fun _ => id) (fun _ => id)

/-- Without a cause, at a running slice that is not silent and whose clocks are good, the alarm is driven to 0b01: none
of what holds it at 0b10 (R54, R459; log entry 51 for the clocks) is left. -/
theorem State.driveAlarm_good (h : tWf resetOf s.regs = true) (hc : s.reg Reg.SAFE_CAUSE = 0#64)
    (hstate : s.slcState = 6) (hsilent : s.safe.silent = false) (hclk : s.safe.clkFault = false) :
    s.driveAlarm.fld Reg.SAFE_ALARM 1 0 = 1 := by
  rw [State.driveAlarm, State.fld_setFld_other (State.regs_setFld_wf h) (by decide),
    State.fld_setFld_same h (by decide) (by decide)]
  simp [State.regNat, hc, hstate, hsilent, hclk]

/-! ## The whole write -/

/-- The causes that a write of SAFE_CAUSE names and that stand. -/
def State.causesHit (v : W64) (s : State) : List Nat :=
  (List.range 9).filter fun c => bits v.toNat c c == 1 && s.bit Reg.SAFE_CAUSE c

theorem bits_one_eq_getLsbD (v : W64) (c : Nat) : (bits v.toNat c c == 1) = v.getLsbD c := by
  rw [← BitVec.testBit_toNat, Nat.testBit_eq_decide_div_mod_eq, bits, Nat.shiftRight_eq_div_pow,
    show c + 1 - c = 1 by omega, Nat.pow_one]
  rfl

theorem State.mem_causesHit {v : W64} :
    c ∈ s.causesHit v ↔ c < 9 ∧ v.getLsbD c = true ∧ s.bit Reg.SAFE_CAUSE c = true := by
  simp [State.causesHit, bits_one_eq_getLsbD]

/-- SAFE_FIRST and SAFE_FIRST_BELL are emptied when no cause is left (R464). -/
def State.emptyFirst (s : State) : State :=
  if s.regNat Reg.SAFE_CAUSE = 0 then (s.setReg Reg.SAFE_FIRST 0#64).setReg Reg.SAFE_FIRST_BELL 0#64 else s

theorem State.emptyFirst_wf (h : tWf resetOf s.regs = true) : tWf resetOf s.emptyFirst.regs = true := by
  unfold State.emptyFirst
  split
  · exact State.regs_setReg_wf (State.regs_setReg_wf h)
  · exact h

theorem State.emptyFirst_regsBut (h : tWf resetOf s.regs = true) :
    s.RegsBut [Reg.SAFE_FIRST, Reg.SAFE_FIRST_BELL] s.emptyFirst := by
  unfold State.emptyFirst
  split
  · exact (State.setReg_regsBut h (by simp)).trans (State.setReg_regsBut (State.regs_setReg_wf h) (by simp))
      (fun _ => id) (fun _ => id)
  · exact State.RegsBut.refl

@[simp] theorem State.emptyFirst_safe : s.emptyFirst.safe = s.safe := by
  unfold State.emptyFirst
  split <;> rfl

/-- An accepted write clears the standing causes it names, empties the first-fault registers if none is left, and drives
the alarm. -/
theorem State.safeCauseClear_of_accepts {v : W64} (h : s.Accepts Reg.SAFE_CAUSE v) :
    s.safeCauseClear v = (s.clearCauses (s.causesHit v)).emptyFirst.driveAlarm :=
  State.gated_of_accepts h

/-- The end of the write changes SAFE_FIRST, SAFE_FIRST_BELL and the alarm's registers alone. -/
theorem State.emptyFirst_driveAlarm_regsBut (h : tWf resetOf s.regs = true) :
    s.RegsBut [Reg.SAFE_FIRST, Reg.SAFE_FIRST_BELL, Reg.SAFE_ALARM, Reg.PSAFE_CAUSE] s.emptyFirst.driveAlarm :=
  (State.emptyFirst_regsBut h).trans (State.driveAlarm_regsBut (State.emptyFirst_wf h)) (by simp) (by simp)

theorem State.safeCauseClear_bit {v : W64} (h : s.Inv) (ha : s.Accepts Reg.SAFE_CAUSE v) (k : Nat) :
    (s.safeCauseClear v).bit Reg.SAFE_CAUSE k
      = (s.bit Reg.SAFE_CAUSE k && (!(s.causesHit v).contains k || s.foundNow k || s.fencedFor k)) := by
  have hframe := State.clearCauses_frame (s.causesHit v) h
  have hend := State.emptyFirst_driveAlarm_regsBut hframe.inv.regs Reg.SAFE_CAUSE (by decide)
  have hlt : ∀ c ∈ s.causesHit v, c < 64 := fun c hc => by
    have := (State.mem_causesHit.1 hc).1
    omega
  rw [State.safeCauseClear_of_accepts ha, State.bit, State.fld_of_reg hend, ← State.clearCauses_bit h hlt k, State.bit]

theorem State.safeCauseClear_refusal {v : W64} (h : s.Inv) (ha : s.Accepts Reg.SAFE_CAUSE v) (hc : c ∈ s.causesHit v)
    (hn : s.foundNow c = false) (hf : s.fencedFor c = true) : s.RefusalShown (s.safeCauseClear v) := by
  have hend := State.emptyFirst_driveAlarm_regsBut (State.clearCauses_frame (s.causesHit v) h).inv.regs
  rw [State.safeCauseClear_of_accepts ha]
  exact (State.clearCauses_refusal h hc hn hf).of_reg (hend _ (by decide)) (hend _ (by decide))

theorem State.safeCauseClear_alarm {v : W64} (h : s.Inv) (ha : s.Accepts Reg.SAFE_CAUSE v)
    (hc : (s.safeCauseClear v).reg Reg.SAFE_CAUSE = 0#64) (hstate : s.slcState = 6) (hsilent : s.safe.silent = false)
    (hclk : s.safe.clkFault = false) : (s.safeCauseClear v).fld Reg.SAFE_ALARM 1 0 = 1 := by
  have hframe := State.clearCauses_frame (s.causesHit v) h
  rw [State.safeCauseClear_of_accepts ha] at hc ⊢
  have hw := State.emptyFirst_wf hframe.inv.regs
  have hslc := (State.emptyFirst_regsBut hframe.inv.regs Reg.SLC_STATE (by decide)).trans (hframe.regs _ (by decide))
  refine State.driveAlarm_good hw ?_ ?_ ?_ ?_
  · exact (State.driveAlarm_regsBut hw Reg.SAFE_CAUSE (by decide)).symm.trans hc
  · exact (State.fld_of_reg hslc 2 0).trans hstate
  · rwa [State.emptyFirst_safe, hframe.rest.safe]
  · rwa [State.emptyFirst_safe, hframe.rest.safe]

/-- Settles O59: each clause reads off what an accepted write of SAFE_CAUSE leaves standing, shows and drives. -/
theorem causesClearUnderTheirFence : Obligations.CausesClearUnderTheirFence := by
  intro s v h ha
  refine ⟨s.safeCauseClear v, exec_safeCauseClear, fun c hc hv hs => ?_, State.safeCauseClear_alarm h ha⟩
  have hhit : c ∈ s.causesHit v := State.mem_causesHit.2 ⟨hc, hv, hs⟩
  have hbit : (s.safeCauseClear v).bit Reg.SAFE_CAUSE c = (s.foundNow c || s.fencedFor c) := by
    simp [State.safeCauseClear_bit h ha, hs, hhit]
  refine ⟨fun hm hn => ?_, fun hn => ?_, fun hm hn => ?_⟩
  · have hf : s.fencedFor c = true := State.fencedFor_iff.2 hm
    obtain ⟨hraw, hfirst⟩ := State.safeCauseClear_refusal h ha hhit hn hf
    exact ⟨by rw [hbit, hf, Bool.or_true], hraw, hfirst⟩
  · rw [hbit, hn, Bool.true_or]
  · rw [hbit, hn, State.fencedFor_eq_false_iff.2 hm, Bool.or_false]

end Sys2Proof.Machine
end

section
/-! PROOFS. The tallies (R493, R494; log entries 7 and 12): a live counter stops at its limit, the latch divides the
counters between the bank and the new bell, and a slot shows a latched count with SAT. These hold of every live table in
canonical form, which the operations on tallies keep. `State.Inv` bounds the live counters without asking for that form,
and a live table without it refutes the obligation. -/
namespace Sys2Proof.Machine

variable {s : State} {pg i n k c d v bell slot : Nat} {f : Nat × Nat → Nat} {l : Table (Nat × Nat)} {m : Table Nat}

/-! ## Limits -/

/-- The limits of R494, written out. -/
theorem tallyLimit_eq : tallyLimit pg i
    = if (0x20 ≤ pg ∧ pg < 0x32 ∧ i ∈ [1, 2, 3, 13, 14]) ∨ (pg = Pg.SAFE ∧ i = 9) then 2 ^ 32 - 1 else 2 ^ 40 - 1 := by
  have hnarrow : tallyNarrow pg i = true
      ↔ (0x20 ≤ pg ∧ pg < 0x32 ∧ i ∈ [1, 2, 3, 13, 14]) ∨ (pg = Pg.SAFE ∧ i = 9) := by
    unfold tallyNarrow
    split
    case isTrue hlink =>
      have hsafe : pg ≠ Pg.SAFE := by
        simp only [Pg.SAFE]
        omega
      simp [hlink, hsafe, or_assoc]
    case isFalse hlink =>
      simp [← and_assoc, hlink]
  simp only [tallyLimit, hnarrow]

theorem tallyLimit_pos (pg i : Nat) : 0 < tallyLimit pg i := by
  unfold tallyLimit
  split <;> decide

/-- SAT of a count under the key of tally `i` of page `pg`. -/
theorem tallySat_key (hi : i < 64) : tallySat (pg * 64 + i, v) = (v == tallyLimit pg i) := by
  rw [tallySat, show (pg * 64 + i) / 64 = pg by omega, show (pg * 64 + i) % 64 = i by omega]

/-! ## A live counter -/

@[simp] theorem State.tallyLate_live {f : Nat → Nat} : (s.tallyLate k f).tally.live = s.tally.live := by
  unfold State.tallyLate
  split <;> rfl

/-- A live counter rises by `n` and stops at its limit (R494). -/
theorem State.tallyAdd_count (hw : tWf zeroNat s.tally.live = true) :
    tGet zeroNat (pg * 64 + i) (s.tallyAdd pg i n).tally.live
      = min (tGet zeroNat (pg * 64 + i) s.tally.live + n) (tallyLimit pg i) := by
  simp only [State.tallyAdd, State.tallyLate_live]
  exact tGet_tSet_same hw

theorem State.tallyAdd_live_wf (hw : tWf zeroNat s.tally.live = true) :
    tWf zeroNat (s.tallyAdd pg i n).tally.live = true := by
  simp only [State.tallyAdd, State.tallyLate_live]
  exact tWf_tSet hw

theorem State.tallyMax_live_wf (hw : tWf zeroNat s.tally.live = true) :
    tWf zeroNat (s.tallyMax pg i n).tally.live = true := by
  simp only [State.tallyMax, State.tallyLate_live]
  exact tWf_tSet hw

/-! ## Counters set from those of the cycle of an open -/

/-- Each listed counter takes one of its two counts. -/
def setCounters (f : Nat × Nat → Nat) (l : Table (Nat × Nat)) (m : Table Nat) : Table Nat :=
  l.foldl (fun c p => tSet zeroNat p.1 (f p.2) c) m

theorem setCounters_wf (hm : tWf zeroNat m = true) : tWf zeroNat (setCounters f l m) = true := by
  induction l generalizing m with
  | nil => exact hm
  | cons a t ih => exact ih (tWf_tSet hm)

/-- A counter that is not listed stays. -/
theorem tGet_setCounters_other (hm : tWf zeroNat m = true) (h : ∀ p ∈ l, p.1 ≠ k) :
    tGet zeroNat k (setCounters f l m) = tGet zeroNat k m := by
  induction l generalizing m with
  | nil => rfl
  | cons a t ih =>
    obtain ⟨ha, ht⟩ := List.forall_mem_cons.1 h
    exact (ih (tWf_tSet hm) ht).trans (tGet_tSet_other hm ha.symm)

/-- A listed counter takes its count: the last entry of its key decides. -/
theorem tGet_setCounters_same (hm : tWf zeroNat m = true) (hk : ∃ p ∈ l, p.1 = k) (hv : ∀ p ∈ l, p.1 = k → f p.2 = v) :
    tGet zeroNat k (setCounters f l m) = v := by
  induction l generalizing m with
  | nil => simp at hk
  | cons a t ih =>
    obtain ⟨ha, ht⟩ := List.forall_mem_cons.1 hv
    by_cases hlater : ∃ p ∈ t, p.1 = k
    · exact ih (tWf_tSet hm) hlater ht
    · have hnone : ∀ p ∈ t, p.1 ≠ k := fun p hp e => hlater ⟨p, hp, e⟩
      have hak : a.1 = k := by
        obtain ⟨p, hp, e⟩ := hk
        rcases List.mem_cons.1 hp with rfl | hp
        · exact e
        · exact absurd e (hnone p hp)
      calc tGet zeroNat k (setCounters f t (tSet zeroNat a.1 (f a.2) m))
          = tGet zeroNat k (tSet zeroNat a.1 (f a.2) m) := tGet_setCounters_other (tWf_tSet hm) hnone
        _ = f a.2 := hak ▸ tGet_tSet_same hm
        _ = v := ha hak

/-! ## The latch -/

@[simp] theorem State.setRaw_tally : (s.setRaw pg i).tally = s.tally := by
  simp only [State.setRaw, State.pend]
  repeat' split
  all_goals rfl

theorem foldl_tally {g : State → Nat → State} {xs : List Nat} (hg : ∀ s x, (g s x).tally = s.tally) :
    (xs.foldl g s).tally = s.tally := by
  induction xs generalizing s with
  | nil => rfl
  | cons x xs ih => exact ih.trans (hg s x)

@[simp] theorem State.countUnread_tally : (s.countUnread k).tally = s.tally :=
  foldl_tally fun s pg => by split <;> simp

/-- The bank that a latched slot is read from (R495). -/
def TallySt.bank (t : TallySt) (b : Nat) : Table Nat := if b = 0 then t.bank0 else t.bank1

/-- The live counters restart at what the cycle of the open counted (R493). -/
theorem State.latchTallies_live : (s.latchTallies bell).tally.live = setCounters Prod.snd s.tally.late [] := by
  simp only [State.latchTallies, foldl_tally fun _ _ => State.setRaw_tally, State.setReg_tally]
  split <;> rfl

/-- The bank of the bell modulo 2 takes the counts before that cycle (R493). -/
theorem State.latchTallies_bank :
    (s.latchTallies bell).tally.bank (bell % 2) = setCounters Prod.fst s.tally.late s.tally.live := by
  simp only [State.latchTallies, foldl_tally fun _ _ => State.setRaw_tally, State.setReg_tally, TallySt.bank]
  split <;> rfl

theorem State.latchTallies_live_wf : tWf zeroNat (s.latchTallies bell).tally.live = true := by
  rw [State.latchTallies_live]
  exact setCounters_wf rfl

/-- At a bell open tally `k` stands at `c` before the cycle of the open, and that cycle counts `d`. -/
def TallySt.Divides (t : TallySt) (k c d : Nat) : Prop :=
  ((∀ p ∈ t.late, p.1 ≠ k) ∧ c = tGet zeroNat k t.live ∧ d = 0)
    ∨ (∃ p ∈ t.late, p.1 = k) ∧ ∀ p ∈ t.late, p.1 = k → p.2 = (c, d)

theorem State.latchTallies_restarts (h : s.tally.Divides k c d) :
    tGet zeroNat k (s.latchTallies bell).tally.live = d := by
  rw [State.latchTallies_live]
  obtain ⟨hnone, -, rfl⟩ | ⟨hk, hcd⟩ := h
  · exact tGet_setCounters_other rfl hnone
  · exact tGet_setCounters_same rfl hk fun p hp e => by rw [hcd p hp e]

theorem State.latchTallies_latches (hw : tWf zeroNat s.tally.live = true) (h : s.tally.Divides k c d) :
    tGet zeroNat k ((s.latchTallies bell).tally.bank (bell % 2)) = c := by
  rw [State.latchTallies_bank]
  obtain ⟨hnone, rfl, -⟩ | ⟨hk, hcd⟩ := h
  · exact tGet_setCounters_other hw hnone
  · exact tGet_setCounters_same hw hk fun p hp e => by rw [hcd p hp e]

/-- A count is below `2^40`, so that it leaves [62:40] of its register zero. -/
theorem TallySt.Divides.lt (hs : s.Inv) (h : s.tally.Divides k c d) : c < 2 ^ 40 := by
  obtain ⟨-, rfl, -⟩ | ⟨⟨p, hp, e⟩, hcd⟩ := h
  · exact tGet_lt hs.tally.1
  · have hlt := (hs.tally.2 p hp).1
    rwa [hcd p hp e] at hlt

/-! ## The slot -/

theorem b2n_beq {a b : Nat} : b2n (a == b) = if a = b then 1 else 0 := by
  by_cases h : a = b
  · rw [if_pos h, beq_iff_eq.2 h, b2n]
  · rw [if_neg h, beq_eq_false_iff_ne.2 h, b2n]

/-- A word of a count and SAT has the fields of R494. -/
theorem bits_countSat (hv : v < 2 ^ 40) (sat : Bool) :
    bits (BitVec.ofNat 64 (v + b2n sat * 2 ^ 63)).toNat 39 0 = v
      ∧ bits (BitVec.ofNat 64 (v + b2n sat * 2 ^ 63)).toNat 62 40 = 0
      ∧ bits (BitVec.ofNat 64 (v + b2n sat * 2 ^ 63)).toNat 63 63 = b2n sat := by
  cases sat <;> simp only [bits, b2n, BitVec.toNat_ofNat, Nat.shiftRight_eq_div_pow] <;> omega

/-- A slot shows the count of the bank in view, with SAT where it stands at its limit (R494, R495). -/
theorem State.tallyView_eq (hi : i < 64) (hsel : i = 16 * s.fld (Reg.PAGE_TALLY_SEL pg) 1 0 + slot)
    (hv : tGet zeroNat (pg * 64 + i) (s.tally.bank (s.bankInView pg)) = v) :
    s.tallyView pg slot = BitVec.ofNat 64 (v + b2n (v == tallyLimit pg i) * 2 ^ 63) := by
  have hsat : (v != 0 && (v == tallyLimit pg i)) = (v == tallyLimit pg i) := by
    have := tallyLimit_pos pg i
    rw [Bool.and_eq_right_iff_imp, beq_iff_eq, bne_iff_ne]
    omega
  have hkey : pg * 64 + 16 * s.fld (Reg.PAGE_TALLY_SEL pg) 1 0 + slot = pg * 64 + i := by omega
  rw [TallySt.bank] at hv
  simp only [State.tallyView, hkey, hv, tallySat_key hi, hsat]

/-- After a latch the slot shows the count before the cycle of the open, and the counter goes on from what that cycle
counted. -/
theorem State.latchTallies_shows (hs : s.Inv) (hw : tWf zeroNat s.tally.live = true) (hi : i < 64)
    (h : s.tally.Divides (pg * 64 + i) c d)
    (hsel : i = 16 * (s.latchTallies bell).fld (Reg.PAGE_TALLY_SEL pg) 1 0 + slot)
    (hview : (s.latchTallies bell).bankInView pg = bell % 2) :
    bits ((s.latchTallies bell).tallyView pg slot).toNat 39 0 = c
      ∧ bits ((s.latchTallies bell).tallyView pg slot).toNat 62 40 = 0
      ∧ bits ((s.latchTallies bell).tallyView pg slot).toNat 63 63 = (if c = tallyLimit pg i then 1 else 0)
      ∧ tGet zeroNat (pg * 64 + i) (s.latchTallies bell).tally.live = d := by
  have hc : tGet zeroNat (pg * 64 + i) ((s.latchTallies bell).tally.bank ((s.latchTallies bell).bankInView pg)) = c := by
    rw [hview]
    exact State.latchTallies_latches hw h
  obtain ⟨hcount, hzero, hsat⟩ := bits_countSat (h.lt hs) (c == tallyLimit pg i)
  rw [State.tallyView_eq hi hsel hc]
  refine ⟨hcount, hzero, hsat.trans ?_, State.latchTallies_restarts h⟩
  exact b2n_beq

/-- The obligation, of a live table in canonical form (R494). -/
theorem State.tallies_stop_and_show_sat (hs : s.Inv) (hw : tWf zeroNat s.tally.live = true) (hi : i < 64) {lim : Nat}
    (hlim : lim = if (0x20 ≤ pg ∧ pg < 0x32 ∧ i ∈ [1, 2, 3, 13, 14]) ∨ (pg = Pg.SAFE ∧ i = 9)
      then 2 ^ 32 - 1 else 2 ^ 40 - 1) :
    tGet zeroNat (pg * 64 + i) (s.tallyAdd pg i n).tally.live = min (tGet zeroNat (pg * 64 + i) s.tally.live + n) lim
      ∧ (s.tally.Divides (pg * 64 + i) c d → i = 16 * (s.latchTallies bell).fld (Reg.PAGE_TALLY_SEL pg) 1 0 + slot →
        (s.latchTallies bell).bankInView pg = bell % 2 →
        bits ((s.latchTallies bell).tallyView pg slot).toNat 39 0 = c
        ∧ bits ((s.latchTallies bell).tallyView pg slot).toNat 62 40 = 0
        ∧ bits ((s.latchTallies bell).tallyView pg slot).toNat 63 63 = (if c = lim then 1 else 0)
        ∧ tGet zeroNat (pg * 64 + i) (s.latchTallies bell).tally.live = d) := by
  obtain rfl := hlim.trans tallyLimit_eq.symm
  exact ⟨State.tallyAdd_count hw, State.latchTallies_shows hs hw hi⟩

/-! ## A live table that is not in canonical form -/

/-- A state whose live table lists tally 0 of page 0 twice, as 0 and as 5: the operations on tallies keep the
canonical form, but `State.Inv` does not ask for it. -/
def twiceListedTally : State := { State.reset with tally := { live := [(0, 0), (0, 5)] } }

theorem twiceListedTally_inv : twiceListedTally.Inv :=
  ⟨rfl, rfl, rfl, by simp [twiceListedTally], by decide, rfl⟩

/-- The counter reads 0. Adding 0 writes 0, which unlists the first entry alone, and the second is read from then on. -/
theorem twiceListedTally_count :
    tGet zeroNat 0 twiceListedTally.tally.live = 0
      ∧ tGet zeroNat 0 (twiceListedTally.tallyAdd 0 0 0).tally.live = 5 :=
  ⟨rfl, by decide⟩

/-- Refutes O58: `State.Inv` admits a live table that lists a tally twice, and there a rise by 0 takes the count from 0
to 5. With the canonical form as a hypothesis the statement holds (`State.tallies_stop_and_show_sat`). -/
theorem not_talliesStopAndShowSat : ¬ Obligations.TalliesStopAndShowSat := by
  intro h
  obtain ⟨hbefore, hafter⟩ := twiceListedTally_count
  obtain ⟨hstops, -⟩ :=
    h twiceListedTally twiceListedTally 0 0 0 0 (2 ^ 40 - 1) 0 0 0 0 twiceListedTally_inv (by decide) rfl rfl
  rw [hbefore, hafter] at hstops
  exact absurd hstops (by decide)

end Sys2Proof.Machine
end
